-- ==== Sys2Proof/Word.lean ====
section
/-! DEFINITION. The words of the machine (spec 00_scope R3): byte, half, word, dword, the 16-bit origin
tag and the 128-bit name, and the sparse map every store of the state is held in. -/

namespace Sys2Proof

/-- A byte (R3). -/
abbrev Byte := BitVec 8

/-- A 32-bit register lane (R14); the manual's "word" (R3). -/
abbrev Lane32 := BitVec 32

/-- A dword, also the width of an address and of an instruction word (R3). -/
abbrev Word := BitVec 64

/-- An origin tag word (R346): bit 15 is E, the low 15 bits the handle. -/
abbrev Tag := BitVec 16

/-- A permanent name (R257). -/
abbrev Name := BitVec 128

/-- A sparse map: keys strictly rising, no entry equal to what an unlisted key reads as. -/
abbrev SMap (α : Type) := List (Nat × α)

/-- A value read as a natural number of the given width. -/
abbrev bits (n : Nat) (x : Nat) : BitVec n := BitVec.ofNat n x

end Sys2Proof
end

