-- ==== Sys2Proof/Syntax.lean ====
section
/-! DEFINITION. Instructions: one constructor of Instr for each row of spec/opcode_table.json. The first 135
are instruction words (03_encoding R57 to R77), the others are the part's events, which have no encoding;
an event carries what it acts on. -/

namespace Sys2Proof

/-- The tag rule field (R57). -/
inductive TagRule | blame | birth | pass | keep
deriving DecidableEq, Repr

/-- The part common to every instruction word besides its major (R57): switch marker, tag rule, guard
predicate and its negation. -/
structure Head where
  sw    : Bool
  rule  : TagRule
  guard : BitVec 3
  neg   : Bool
deriving DecidableEq, Repr

/-- Vector types (R62 table), code = position. -/
inductive VType | i32 | n32 | f32 | f64 | f16x2 | bf16x2 | i16x2 | i8x4
deriving DecidableEq, Repr

/-- A vector operand (R60). -/
inductive Src
  | v (r : BitVec 8)
  | s (r : BitVec 6)
  | c (n : BitVec 5)      -- inline constant 320 + n (R61)
  | lane
deriving DecidableEq, Repr

/-- The second operand of a VR or VI word (R63): an operand code, or the 23-bit immediate. -/
inductive VB
  | r (b : Src)
  | i (imm : BitVec 23)
deriving DecidableEq, Repr

/-- Rounding (R65). -/
inductive Rnd | rn | rz | rd | ru | rs
deriving DecidableEq, Repr

/-- The mod field (R65). -/
structure FMod where
  rnd : Rnd
  ftz : Bool
  sat : Bool
deriving DecidableEq, Repr

/-- The second operand of an SR word (R68): a scalar register, or the 28-bit immediate. -/
inductive SB
  | r (b : BitVec 6)
  | i (imm : BitVec 28)
deriving DecidableEq, Repr

/-- Position and width of SBIT .bfe and .bfi (R133); the other funcs take none. -/
inductive SBitW
  | none
  | regs (b e : BitVec 6)
  | imm (pos : BitVec 6) (w : BitVec 7)
deriving DecidableEq, Repr

inductive FitS | wrap | sati | satn          deriving DecidableEq, Repr
inductive MulF | lo | hii | hin              deriving DecidableEq, Repr
inductive DivF | divi | divn | remi | remn   deriving DecidableEq, Repr
inductive LogF | and | or | xor | andn | orn | xnor   deriving DecidableEq, Repr
inductive ShF | shl | shr | sra | rol | ror  deriving DecidableEq, Repr
inductive SCmpF | eq | ne | lt | le | gt | ge | nlt | nle | ngt | nge   deriving DecidableEq, Repr
inductive SBitF | popc | clz | ctz | brev | bfe | bfi   deriving DecidableEq, Repr
inductive SMinMaxF | mini | maxi | minn | maxn   deriving DecidableEq, Repr
inductive QLogF | and | or | xor | not | mov     deriving DecidableEq, Repr

inductive FitV | wrap | sat                  deriving DecidableEq, Repr
inductive MinMaxF | min | max                deriving DecidableEq, Repr
inductive AbsF | abs | neg | abssat          deriving DecidableEq, Repr
inductive CmpF | eq | ne | lt | le | gt | ge deriving DecidableEq, Repr
inductive VBitF | popc | clz | ctz | brev    deriving DecidableEq, Repr

/-- The four funcs of VMOV with their source (R89). -/
inductive VMovF
  | reg (a : Src)
  | imm (x : BitVec 23)
  | lane
  | scalar (r : BitVec 6)
deriving DecidableEq, Repr

inductive FmaF | pp | pm | mp | mm           deriving DecidableEq, Repr
inductive FMinMaxF | min | max | minnum | maxnum | maxabs   deriving DecidableEq, Repr
inductive FCmpF | eq | ne | lt | le | gt | ge | un | ueq | une | ult | ule | ugt | uge   deriving DecidableEq, Repr

/-- The element format of FDOT (R67). -/
inductive FDotF
  | f16 | bf16
  | b8 (fmt : BitVec 3)
deriving DecidableEq, Repr

inductive SfuF | rcp | rsq | sqrt | exp2 | log2 | sinpi | cospi | tanh | div   deriving DecidableEq, Repr
inductive RngF | raw | unif                  deriving DecidableEq, Repr

/-- The two funcs of FSCL with their own fields (R124). -/
inductive FSclF
  | apply (t : VType) (b : Src) (m : FMod)
  | comp (fmt : BitVec 3)
deriving DecidableEq, Repr

inductive VoteF | any | all | count          deriving DecidableEq, Repr
inductive ShflF | idx | up | down | xor      deriving DecidableEq, Repr
inductive RedF | addi | min | max | and | or | xor | fadd | fmax | fmaxabs   deriving DecidableEq, Repr
inductive ScanF | iadd | eadd | imax         deriving DecidableEq, Repr
inductive VLaneF | ins | ext                 deriving DecidableEq, Repr

/-- The funcs of TSET with the source of .reg (R357). -/
inductive TSetF
  | reg (a : Src)
  | born
  | clre
deriving DecidableEq, Repr

/-- Memory access sizes (R70). -/
inductive MSize | i8 | n8 | i16 | n16 | b32 | b64   deriving DecidableEq, Repr
/-- Scopes (R70). -/
inductive Scope | dev | grp | core | clu | die | sys   deriving DecidableEq, Repr
/-- Orders (R70). -/
inductive Ord | relaxed | acq | rel | ar   deriving DecidableEq, Repr

/-- The index of a memory operand (R70). -/
inductive MIdx
  | none
  | v (r : BitVec 8)
  | s (r : BitVec 6)
deriving DecidableEq, Repr

/-- A memory operand (R34, R70). -/
structure MemOp where
  base  : BitVec 6
  index : MIdx
  scale : BitVec 3
  nb    : Bool
  off   : BitVec 7
deriving DecidableEq, Repr

/-- Order, scope and hint of a memory word (R70). -/
structure MOrd where
  scope : Scope
  order : Ord
  hint  : BitVec 2
deriving DecidableEq, Repr

/-- Bank modes (R196). -/
inductive BankMode | cache | scratch | fifo   deriving DecidableEq, Repr

inductive AtomF | add | and | or | xor | mini | maxi | minn | maxn | xchg | fadd | fmax   deriving DecidableEq, Repr
inductive RedMF | add | addsati | addsatn | fadd | fmax | fmin | mini | maxi | and | or | xor | fmaxabs   deriving DecidableEq, Repr

/-- The amount or target of CARR and CWAIT (R236): a scalar register, or a 7-bit immediate. -/
inductive CVal
  | r (sa : BitVec 6)
  | i (x : BitVec 7)
deriving DecidableEq, Repr

/-- The fields of XCOPY and XFORM (R288). -/
structure XArgs where
  q   : BitVec 3
  rnd : Rnd
  sat : Bool
  g   : Bool
  kx  : BitVec 4
  ky  : BitVec 4
  sa  : BitVec 6
  sb  : BitVec 6
  sc  : BitVec 6
  tr  : Bool
  ts  : Option (BitVec 6)
deriving DecidableEq, Repr

/-- A group: the identity of its team and its GROUPID (R162). -/
structure GRef where
  team : Nat
  grp  : Nat
deriving DecidableEq, Repr

/-- What a host broadcast invalidation names (R212). -/
inductive TlbInv
  | byVa (asid : BitVec 16) (va : Word)
  | byAsid (asid : BitVec 16)
  | all
deriving DecidableEq, Repr

/-- Which uncorrectable dirty line an eviction meets, and what of its identity is readable (R341); `upper` is a core's
L1 (unit kind 0) or a cluster cache (unit kind 4). -/
inductive LostLine
  | uncommitted (team : Nat) (addr : Nat)
  | named (slot : Nat) (va : Word) (addr : Nat) (bad : List Nat)
  | l2 (slice : Nat)
  | upper (kind unit : Nat)
deriving DecidableEq, Repr

/-- A copy or transform engine (R284): the copy engine of a cluster (package number), or transform
engine e of a die. -/
inductive EngRef
  | copy (cluster : Nat)
  | xform (die e : Nat)
deriving DecidableEq, Repr

/-- An incoming or outgoing peer request (R421). -/
inductive PeerOp
  | read (size : Nat)
  | write (data : List Byte) (e : Bool)
  | atomic (f : AtomF) (wide : Bool) (v : Word)
  | cas (wide : Bool) (cmp new : Word)
  | red (f : RedMF) (wide : Bool) (v : Word)
  | casName (expect new : Name)
deriving DecidableEq, Repr

/-- An incoming UALink request (R423, R426). -/
structure PeerReq where
  requester : Nat
  port      : Nat
  seq       : Nat
  addr      : Nat
  op        : PeerOp
deriving DecidableEq, Repr

/-- The answer of a peer to an outgoing request (R424). -/
inductive PeerAns
  | data (d : List Byte)
  | done
  | error (poison : Bool) (busy : Bool)
deriving DecidableEq, Repr

/-- An engine message (R403). -/
structure EngMsg where
  job    : Nat
  src    : Nat
  dst    : Nat
  seq    : Nat
  format : BitVec 8
  exact  : Bool
  elems  : List Word
  counts : List Nat
deriving DecidableEq, Repr

/-- A contribution to a meeting slot (R411). -/
structure Contrib where
  slot   : Name
  format : BitVec 8
  elems  : List Word
  counts : List Nat
deriving DecidableEq, Repr

/-- A firmware image or a configuration record in flash (R441, R442): whether its signature verifies, its version, its
anti-rollback counter, and the measurement register that takes its digest. -/
structure BootImage where
  signed   : Bool
  version  : Nat
  counter  : Nat
  digest   : BitVec 256
  register : Nat
deriving DecidableEq, Repr

/-- What a reset finds: Wenust's flash, the control-core firmware, the configuration record with its device number and
accelerator ID, and what training comes to (R429). -/
structure BootInfo where
  flashOk  : Bool
  firmware : List BootImage
  config   : BootImage
  hbmOk    : Bool
  d2dOk    : Bool
  devno    : BitVec 16
  accel    : BitVec 16
deriving DecidableEq, Repr

/-- Where a host load reads (R432, R435): a physical address, or an offset of the control space. -/
inductive HostPlace
  | memory (pa : Nat)
  | control (off : Nat)
deriving DecidableEq, Repr

/-- Who sent a message and its number (R426): the accelerator or endpoint, and the number on its port. -/
structure MsgFrom where
  requester : Nat
  port      : Nat
  seq       : Nat
deriving DecidableEq, Repr

/-- A contribution as it arrives from another device (R411, R426). -/
structure SentContrib where
  sender : MsgFrom
  body   : Contrib
deriving DecidableEq, Repr

/-- Every row of spec/opcode_table.json, in the table's order. -/
inductive Instr
  -- scalar and control flow (06)
  | nop (h : Head)
  | smovReg (h : Head) (d a : BitVec 6)
  | smovImm (h : Head) (d : BitVec 6) (imm : BitVec 32)
  | smovHi (h : Head) (d : BitVec 6) (imm : BitVec 32)
  | sadd (h : Head) (f : FitS) (d a : BitVec 6) (b : SB)
  | ssub (h : Head) (f : FitS) (d a : BitVec 6) (b : SB)
  | smul (h : Head) (f : MulF) (d a : BitVec 6) (b : SB)
  | sdiv (h : Head) (f : DivF) (d a : BitVec 6) (b : SB)
  | slog (h : Head) (f : LogF) (d a : BitVec 6) (b : SB)
  | ssh (h : Head) (f : ShF) (d a : BitVec 6) (b : SB)
  | scmp (h : Head) (f : SCmpF) (q : BitVec 3) (a : BitVec 6) (b : SB)
  | ssel (h : Head) (c : BitVec 3) (d a : BitVec 6) (b : SB)
  | sbit (h : Head) (f : SBitF) (d a : BitVec 6) (w : SBitW)
  | sminmax (h : Head) (f : SMinMaxF) (d a : BitVec 6) (b : SB)
  | qlog (h : Head) (f : QLogF) (d a b : BitVec 3)
  | sld (h : Head) (z : MSize) (o : MOrd) (d : BitVec 6) (m : MemOp)
  | sst (h : Head) (z : MSize) (o : MOrd) (d : BitVec 6) (m : MemOp)
  | braCond (h : Head) (q : BitVec 3) (n : Bool) (off : BitVec 32)
  | braAlways (h : Head) (off : BitVec 32)
  | brv (h : Head) (p : BitVec 3) (n : Bool) (off : BitVec 32)
  | jmpv (h : Head) (v : BitVec 8)
  | call (h : Head) (off : BitVec 32)
  | callv (h : Head) (v : BitVec 8)
  | ret (h : Head)
  | join (h : Head)
  | defer (h : Head)
  | loopScalar (h : Head) (s : BitVec 6) (off : BitVec 32)
  | loopImm (h : Head) (n : BitVec 8) (off : BitVec 32)
  | lbrk (h : Head) (n : BitVec 2)
  | exit (h : Head)
  | yld (h : Head) (spin : Bool) (n : BitVec 16)
  | srd (h : Head) (scalar : Bool) (vd : BitVec 8) (reg : BitVec 6)
  | swr (h : Head) (scalar : Bool) (reg : BitVec 6) (a : Src)
  -- vector integer (04)
  | vadd (h : Head) (f : FitV) (t : VType) (vd : BitVec 8) (a : Src) (b : VB)
  | vsub (h : Head) (f : FitV) (t : VType) (vd : BitVec 8) (a : Src) (b : VB)
  | vmul (h : Head) (f : MulF) (t : VType) (vd : BitVec 8) (a : Src) (b : VB)
  | vmad (h : Head) (t : VType) (vd : BitVec 8) (a b c : Src)
  | vlog (h : Head) (f : LogF) (t : VType) (vd : BitVec 8) (a : Src) (b : VB)
  | vsh (h : Head) (f : ShF) (t : VType) (vd : BitVec 8) (a : Src) (b : VB)
  | vminmax (h : Head) (f : MinMaxF) (t : VType) (vd : BitVec 8) (a : Src) (b : VB)
  | vabs (h : Head) (f : AbsF) (t : VType) (vd : BitVec 8) (a : Src)
  | vcmp (h : Head) (f : CmpF) (t : VType) (p : BitVec 3) (a : Src) (b : VB)
  | vsel (h : Head) (t : VType) (vd : BitVec 8) (a b : Src) (p : BitVec 3)
  | vbit (h : Head) (f : VBitF) (t : VType) (vd : BitVec 8) (a : Src)
  | vbfe (h : Head) (t : VType) (vd : BitVec 8) (a b c : Src)
  | vbfi (h : Head) (t : VType) (vd : BitVec 8) (a b c : Src)
  | vmov (h : Head) (t : VType) (vd : BitVec 8) (f : VMovF)
  | vdiv (h : Head) (f : DivF) (vd : BitVec 8) (a b : Src)
  -- vector floating point, dot, SFU, RNG (04)
  | fadd (h : Head) (t : VType) (vd : BitVec 8) (a : Src) (b : VB) (m : FMod)
  | fsub (h : Head) (t : VType) (vd : BitVec 8) (a : Src) (b : VB) (m : FMod)
  | fmul (h : Head) (t : VType) (vd : BitVec 8) (a : Src) (b : VB) (m : FMod)
  | ffma (h : Head) (f : FmaF) (t : VType) (vd : BitVec 8) (a b c : Src) (m : FMod)
  | fminmax (h : Head) (f : FMinMaxF) (t : VType) (vd : BitVec 8) (a : Src) (b : VB)
  | fcmp (h : Head) (f : FCmpF) (t : VType) (p : BitVec 3) (a : Src) (b : VB)
  | fcls (h : Head) (t : VType) (p : BitVec 3) (a : Src) (mask : BitVec 10)
  | fdot (h : Head) (f : FDotF) (vd : BitVec 8) (a b c : Src) (m : FMod)
  | sfu (h : Head) (f : SfuF) (vd : BitVec 8) (a b : Src) (ftz : Bool)
  | rng (h : Head) (f : RngF) (vd : BitVec 8)
  -- conversions (05)
  | cvt (h : Head) (dst : BitVec 8) (vd : BitVec 8) (a : Src) (src : BitVec 8) (m : FMod)
  | cvtp (h : Head) (dst : BitVec 8) (vd : BitVec 8) (a b : Src) (src : BitVec 8) (rnd : Rnd) (hi sat : Bool)
  | cvtx (h : Head) (dst : BitVec 8) (vd : BitVec 8) (a b : Src) (src : BitVec 8) (m : FMod)
  | fscl (h : Head) (f : FSclF) (vd : BitVec 8) (a : Src)
  -- cross-lane (08)
  | vbal (h : Head) (vd : BitVec 8) (a b : Src)
  | vvote (h : Head) (f : VoteF) (dst : BitVec 8) (p : BitVec 3)
  | vshfl (h : Head) (f : ShflF) (t : VType) (vd : BitVec 8) (a b : Src)
  | vxch (h : Head) (vd : BitVec 8) (a b c : Src)
  | vreduce (h : Head) (f : RedF) (t : VType) (vd : BitVec 8) (a : Src) (m : FMod)
  | vscan (h : Head) (f : ScanF) (t : VType) (vd : BitVec 8) (a : Src) (sat : Bool)
  | vmatch (h : Head) (vd : BitVec 8) (a : Src)
  | vlane (h : Head) (f : VLaneF) (t : VType) (vd : BitVec 8) (a b : Src)
  -- memory (09)
  | vld (h : Head) (z : MSize) (o : MOrd) (d : BitVec 8) (m : MemOp)
  | vst (h : Head) (z : MSize) (o : MOrd) (d : BitVec 8) (m : MemOp)
  | pref (h : Head) (hint : BitVec 2) (m : MemOp)
  | probe (h : Head) (z : MSize) (p : BitVec 3) (m : MemOp)
  | bankcfg (h : Head) (q : BitVec 3) (sb : BitVec 6) (mode : BankMode)
  | iinv (h : Head) (m : MemOp)
  -- atomics and synchronisation (10)
  | atom (h : Head) (f : AtomF) (z : MSize) (o : MOrd) (d : BitVec 8) (m : MemOp)
  | acas (h : Head) (z : MSize) (o : MOrd) (d : BitVec 8) (m : MemOp)
  | red (h : Head) (f : RedMF) (z : MSize) (o : MOrd) (d : BitVec 8) (m : MemOp)
  | fence (h : Head) (sc : Scope) (o : Ord)
  | qpush (h : Head) (q : BitVec 3) (t g : Bool) (kx : BitVec 4) (sa : BitVec 6)
  | qpop (h : Head) (q : BitVec 3) (t g : Bool) (kx : BitVec 4) (sa : BitVec 6)
  | qallowGrant (h : Head) (q : BitVec 3) (g : Bool) (kx : BitVec 4) (sa sb : BitVec 6)
  | qallowRead (h : Head) (q : BitVec 3) (g : Bool) (kx : BitVec 4) (sa : BitVec 6)
  | cwait (h : Head) (q : BitVec 3) (t : Bool) (sc : Scope) (o : Ord) (cell : BitVec 6) (x : CVal) (tmo : Option (BitVec 6))
  | carr (h : Head) (sc : Scope) (o : Ord) (cell : BitVec 6) (x : CVal)
  | crst (h : Head) (cell : BitVec 6)
  | tbar (h : Head) (role : Option (BitVec 2))
  | commit (h : Head)
  -- matrix (14)
  | mma (h : Head) (scaled g pop : Bool) (kx ky : BitVec 4) (sa sb slot : BitVec 6)
  | aacq (h : Head) (slot : BitVec 6)
  | arel (h : Head) (slot : BitVec 6)
  | ald (h : Head) (o : MOrd) (slot : BitVec 6) (m : MemOp)
  | ast (h : Head) (o : MOrd) (slot : BitVec 6) (m : MemOp)
  | azero (h : Head) (slot : BitVec 6)
  | adrnStore (h : Head) (o : MOrd) (slot : BitVec 6) (m : MemOp)
  | adrnFadd (h : Head) (o : MOrd) (slot : BitVec 6) (m : MemOp)
  -- copy, transform and collective engines (13, 18)
  | xcopy (h : Head) (x : XArgs)
  | xformDec (h : Head) (x : XArgs)
  | xformPerm (h : Head) (x : XArgs)
  | xformCvt (h : Head) (x : XArgs)
  | xformFill (h : Head) (x : XArgs)
  | xstat (h : Head) (sa sc : BitVec 6)
  | cprun (h : Head) (q : BitVec 3) (g : Bool) (kx : BitVec 4) (sa sb sc : BitVec 6)
  | cpstat (h : Head) (q : BitVec 3) (g : Bool) (kx : BitVec 4) (sa : BitVec 6)
  | cpstop (h : Head) (q : BitVec 3) (g : Bool) (kx : BitVec 4)
  -- names (12)
  | nnew (h : Head) (q : BitVec 3) (kd : BitVec 4) (cls : BitVec 8) (sa : BitVec 6)
  | nkill (h : Head) (q : BitVec 3) (g : Bool) (ka : BitVec 4)
  | nres (h : Head) (q : BitVec 3) (g : Bool) (ka : BitVec 4)
  | nmov (h : Head) (q : BitVec 3) (g : Bool) (kd ka : BitVec 4)
  | ninfo (h : Head) (q : BitVec 3) (g : Bool) (ka : BitVec 4) (sd : BitVec 6) (item : BitVec 8)
  | nld (h : Head) (q : BitVec 3) (o : MOrd) (kd : BitVec 4) (m : MemOp)
  | nst (h : Head) (q : BitVec 3) (o : MOrd) (kx : BitVec 4) (m : MemOp)
  | ncas (h : Head) (live : Bool) (q : BitVec 3) (o : MOrd) (knew kexp : BitVec 4) (m : MemOp)
  -- tags (16)
  | tget (h : Head) (vd : BitVec 8) (a : Src)
  | tset (h : Head) (vd : BitVec 8) (f : TSetF)
  | tchk (h : Head) (t : VType) (a : Src)
  | tldg (h : Head) (o : MOrd) (d : BitVec 8) (m : MemOp)
  | tstg (h : Head) (o : MOrd) (d : BitVec 8) (m : MemOp)
  | torg (h : Head) (q : BitVec 3) (sd sa : BitVec 6)
  -- reversible (17)
  | rvmul (h : Head) (t : VType) (vd : BitVec 8) (a b : Src) (rnd : Rnd)
  | rvadd (h : Head) (vd : BitVec 8) (a b : Src) (rnd : Rnd)
  | rvnar (h : Head) (fmt : BitVec 8) (vd : BitVec 8) (a : Src) (rnd : Rnd) (sat : Bool)
  | rvmax0 (h : Head) (vd : BitVec 8) (a : Src)
  | unmul (h : Head) (t : VType) (vd : BitVec 8) (a b : Src)
  | unadd (h : Head) (vd : BitVec 8) (a b : Src)
  | unnar (h : Head) (fmt : BitVec 8) (vd : BitVec 8) (a : Src)
  | unmax0 (h : Head) (vd : BitVec 8) (a : Src)
  | slmark (h : Head) (id : BitVec 16)
  | sldrop (h : Head) (id : BitVec 16)
  | sldepth (h : Head) (d : BitVec 6)
  -- traps and launch (15, 07)
  | trap (h : Head) (cause : BitVec 8)
  | tret (h : Head)
  | brk (h : Head)
  | launch (h : Head) (a : BitVec 6)
  -- events: issue (03, 06)
  | clauseEntry (core pipe : Nat)
  | overrun (g : GRef)
  | resultReturn (g : GRef) (n : Nat)
  | switchWake (g : GRef)
  | queueEntryFree (g : GRef)
  | yldDrainComplete (g : GRef)
  | joinRelease (g : GRef)
  | loopEndStep (g : GRef)
  | deferRelease (g : GRef) (lane : Nat)
  -- events: memory (09, 10)
  | dieFaultWalk (n : Nat)
  | faultRecordWrite (n : Nat)
  | storeQueueDrain (g : GRef)
  | ownershipGrant (core line : Nat)
  | invalidationReceive (core line : Nat)
  | directoryRecall (line : Nat)
  | directoryEviction (line : Nat)
  | aliasRecall (line slot : Nat) (va : Word)
  | aliasRecordDrop (line : Nat)
  | redArrival (n : Nat)
  | iinvAck (g : GRef)
  | tlbInvalidation (k : TlbInv)
  | tlbSync
  | hostWrite (pa : Nat) (data : List Byte)
  | hostRead (p : HostPlace) (size : Nat)
  | scrubPass (block : Nat) (corrected : List (Nat × Nat)) (bad : List Nat)
  | dirtyEvictionError (x : LostLine)
  -- events: engines (13, 14)
  | engineCommandStart (e : EngRef)
  | engineStartTime (e : EngRef)
  | cbFullTimeout (cmd : Nat)
  | engineCommandEnd (cmd : Nat)
  | transformSpillReplay (cmd : Nat)
  | engineQueueWake (g : GRef)
  | emulatedTileOp (cmd : Nat)
  | mmaExecute (mma : Nat)
  | matrixQueueWake (g : GRef)
  | aacqComplete (g : GRef)
  | arelHandover (core slot : Nat)
  -- events: synchronisation (10)
  | queueWake (pigeonhole : Name)
  | cwaitWake (g : GRef)
  | cwaitTimeout (g : GRef)
  | bellRelease (team bell : Nat)
  | launchQueueWake (g : GRef)
  | slateSpill (g : GRef)
  -- events: traps and teams (15, 06, 07)
  | trapEntry (g : GRef)
  | teamFaultEnd (team : Nat)
  | relaunch (team : Nat)
  | groupEnd (g : GRef)
  | teamEndExit (team : Nat)
  | launchWindowWrite (ctx off : Nat) (data : List Byte)
  | launchAccept (ctx : Nat)
  | dependenceMet (launch : Nat)
  | teamPlace (die : Nat)
  | launchWait2ms (launch : Nat)
  | preemptRequest (team : Nat)
  | teamSave (team : Nat)
  | teamResume (team core : Nat)
  | floorShareTimeout (team : Nat)
  | launchComplete (launch : Nat)
  | nkillComplete (name : Name)
  | rollEntryWrite (roll : Name)
  | errorRecordForward
  -- events: collective engine (18)
  | cpHalt (run : Nat)
  | cpSend (run : Nat)
  | cpRecv (run : Nat)
  | cpRrs (run : Nat)
  | cpRred (run : Nat)
  | cpCopy (run : Nat)
  | cpWaitCell (run : Nat)
  | cpWaitTimed (run : Nat)
  | cpLoop (run : Nat)
  | cpEndl (run : Nat)
  | cpSignal (run : Nat)
  | engineMessageArrival (f : MsgFrom) (m : EngMsg)
  | messageDiscard (die n : Nat)
  | recvTimeout (run : Nat)
  | slotContribution (c : SentContrib)
  | slotClose (slot : Name)
  | slotDeadline (slot : Name)
  | peerRequestArrival (r : PeerReq)
  | peerResponse (req : Nat) (a : PeerAns)
  | peerTimeout (req : Nat)
  | peerBusyRetry (req : Nat)
  | linkBringup (port vendor accel : Nat)
  | portDown (port : Nat)
  | datagramResend (req : Nat)
  | timeSync (time skew : Word)
  -- events: device (19)
  | reset (cold : Bool) (b : BootInfo)
  | fatalError
  | frequencyChange (island mhz mv : Nat) (gate : Bool)
  | firmwareRefused (die : Nat) (addr : Word)
  | resolveRetry (die : Nat) (seq : Word)
  | resolveRefuse (die : Nat) (seq : Word)
  | faultRingConsume (x : Word)
  | errorRingConsume (x : Word)
  | controlRegisterWrite (off size : Nat) (data : List Byte)
  | preempt
  | kill
  | peertime
  | endpoint
  | counters
  | ageing
  | dump
  | attest
  | nameobj
  | killobj
  | hostMemorySnoop (pa : Nat) (invalidate : Bool)
deriving DecidableEq, Repr

end Sys2Proof
end

