-- ==== Sys2Proof/WellFormed.lean ====
section
/-! DEFINITION. Which instructions the encoding rules allow, apart from the state (R45, R58 to R78 and the
chapters that own each instruction). `typeOk` is what faults ILLEGAL_OPCODE (R78); `wf` is what faults
ILLEGAL_OPERAND. Limits that depend on the state (register budget, slots, group width) are checked by the
meanings. -/

namespace Sys2Proof

/-- Tag-rule field 00 (R58). -/
def Head.noTag (h : Head) : Bool := h.rule == .blame

/-- Guard 000 and N = 0 (R59). -/
def Head.noGuard (h : Head) : Bool := h.guard == 0 && !h.neg

/-- A scalar-only head: no tag rule, no guard. -/
def Head.plain (h : Head) : Bool := h.noTag && h.noGuard

/-- A rule that is not PASS (R104, R134, R176, R308). -/
def Head.noPass (h : Head) : Bool := h.rule != .pass

def evenReg (r : BitVec 8) : Bool := r.toNat % 2 == 0

/-- A source that, when it is a register, is the even first register of a pair (R60). -/
def Src.evenOk : Src → Bool
  | .v r => evenReg r
  | _ => true

def VB.evenOk : VB → Bool
  | .r b => b.evenOk
  | .i _ => true

/-- A register or inline constant, lane index or scalar in 256 to 351, as VXCH and VLANE take (R175). -/
def Src.uniform : Src → Bool
  | .s _ => true
  | .c _ => true
  | _ => false

def VType.isF64 : VType → Bool
  | .f64 => true
  | _ => false

/-- Reserved bits of a VI immediate (R64). -/
def VB.immOk (t : VType) : VB → Bool
  | .r _ => true
  | .i x => match t with
    | .f16x2 | .bf16x2 | .i16x2 => x.toNat < 2 ^ 16
    | .i8x4 => x.toNat < 2 ^ 8
    | _ => true

/-- Pair operands of an f64 instruction are even (R60). -/
def pairOk (t : VType) (vd : BitVec 8) (srcs : List Src) : Bool :=
  !t.isF64 || (evenReg vd && srcs.all Src.evenOk)

/-- Mod bits accepted: rounding up to `maxRnd`, .ftz, .sat (R65, R91). -/
def FMod.accepts (m : FMod) (rnd rs ftz sat : Bool) : Bool :=
  (rnd || m.rnd == .rn) && (rs || m.rnd != .rs) && (ftz || !m.ftz) && (sat || !m.sat)

/-- A VI form rounds to nearest even and has no mod field (R64). -/
def modVB (b : VB) (m : FMod) : Bool :=
  match b with
  | .r _ => true
  | .i _ => m == ⟨.rn, false, false⟩

/-- A memory operand of VLD, VST and the other vector forms (R198). -/
def MemOp.wf (m : MemOp) : Bool := m.scale.toNat ≤ 4 && (!m.nb || m.base == 0)

/-- A memory operand without a vector index (R198, R280, R320). -/
def MemOp.wfS (m : MemOp) : Bool :=
  m.wf && match m.index with
    | .v _ => false
    | _ => true

/-- Scope 0 when relaxed (R70). -/
def MOrd.relaxedScope (o : MOrd) : Bool := o.order != .relaxed || o.scope == .dev

def MOrd.load (o : MOrd) : Bool := (o.order == .relaxed || o.order == .acq) && o.relaxedScope
def MOrd.store (o : MOrd) : Bool := (o.order == .relaxed || o.order == .rel) && o.relaxedScope
def MOrd.noHint (o : MOrd) : Bool := o.hint == 0
def MOrd.ntHint (o : MOrd) : Bool := o.hint.toNat ≤ 1

def MSize.wide : MSize → Bool
  | .b64 => true
  | _ => false

def MSize.is32or64 : MSize → Bool
  | .b32 | .b64 => true
  | _ => false

/-- A format code that R112 names. -/
def fmtCodeOk (c : BitVec 8) : Bool :=
  let n := c.toNat
  (1 ≤ n && n ≤ 5) || (8 ≤ n && n ≤ 15) || (0x41 ≤ n && n ≤ 0x47) || (0x49 ≤ n && n ≤ 0x4F) ||
  (0x51 ≤ n && n ≤ 0x57) || (0x59 ≤ n && n ≤ 0x5F)

/-- Width in bits of a format code of R112. -/
def fmtWidth (c : BitVec 8) : Nat :=
  match c.toNat with
  | 0x01 => 64 | 0x02 => 32 | 0x03 => 16 | 0x04 => 16 | 0x05 => 8
  | 0x08 => 8 | 0x09 => 8 | 0x0A => 16 | 0x0B => 16 | 0x0C => 32 | 0x0D => 32 | 0x0E => 64 | 0x0F => 64
  | _ => 8

/-- A floating format code (IEEE or binary8). -/
def fmtFloat (c : BitVec 8) : Bool :=
  let n := c.toNat
  (1 ≤ n && n ≤ 4) || 0x41 ≤ n

/-- A code CVT, CVTP and CVTX accept: any format but x8 (R119). -/
def cvtCodeOk (c : BitVec 8) : Bool := fmtCodeOk c && c != 0x05

/-- A narrow code of RVNAR and UNNAR (R376). -/
def narrowOk (c : BitVec 8) : Bool := fmtCodeOk c && (c == 0x03 || c == 0x04 || 0x41 ≤ c.toNat)

/-- The types an instruction accepts; any other faults ILLEGAL_OPCODE (R78). -/
def Instr.typeOk : Instr → Bool
  | .vadd _ _ t _ _ _ | .vsub _ _ t _ _ _ | .vlog _ _ t _ _ _ | .vsh _ _ t _ _ _ | .vminmax _ _ t _ _ _ =>
    [VType.i32, .n32, .i16x2, .i8x4].contains t
  | .vmul _ f t _ _ _ =>
    if f == .lo then [VType.i32, .n32, .i16x2, .i8x4].contains t else [VType.i32, .n32].contains t
  | .vmad _ t _ _ _ _ | .vcmp _ _ t _ _ _ | .vbit _ _ t _ _ | .vbfe _ t _ _ _ _ | .vbfi _ t _ _ _ _ =>
    [VType.i32, .n32].contains t
  | .vabs _ _ t _ _ => [VType.i32, .i16x2, .i8x4].contains t
  | .fadd _ t _ _ _ _ | .fsub _ t _ _ _ _ | .fmul _ t _ _ _ _ | .ffma _ _ t _ _ _ _ _ | .fminmax _ _ t _ _ _ =>
    [VType.f32, .f64, .f16x2, .bf16x2].contains t
  | .fcmp _ _ t _ _ _ | .fcls _ t _ _ _ => [VType.f32, .f64].contains t
  | .fdot _ f _ _ _ _ _ => match f with
    | .b8 x => x != 7
    | _ => true
  | .fscl _ f _ _ => match f with
    | .apply t _ _ => [VType.f32, .f16x2, .bf16x2].contains t
    | .comp x => x != 7
  | .vreduce _ f t _ _ _ => match f with
    | .fadd | .fmax | .fmaxabs => t == .f32
    | _ => [VType.i32, .n32].contains t
  | .vscan _ _ t _ _ _ => [VType.i32, .n32].contains t
  | .vlane _ f t _ _ _ => match f with
    | .ins => true
    | .ext => [VType.i32, .n32].contains t
  | .rvmul _ t _ _ _ _ | .unmul _ t _ _ _ => [VType.i32, .f32].contains t
  | _ => true

/-- A q or p destination is not the hardwired register 0 (R30, R87, R131). -/
def destOk (n : BitVec 3) : Bool := n != 0

/-- The special registers of R75 that each lane has for itself. -/
def sregLane (r : BitVec 6) : Bool := [0, 12, 19, 20, 26, 28].contains r.toNat

/-- The special registers of R75 of 64 bits. -/
def sregWide (r : BitVec 6) : Bool := [11, 12, 13, 14, 15, 16, 17, 19, 21, 26, 27, 29, 32].contains r.toNat

/-- The static operand rules; breaking one faults ILLEGAL_OPERAND. -/
def Instr.wf : Instr → Bool
  | .nop h | .commit h | .tret h | .brk h | .ret h | .join h | .defer h | .exit h => h.plain
  | .smovReg h _ _ | .smovImm h _ _ | .smovHi h _ _ => h.plain
  | .sadd h _ _ _ _ | .ssub h _ _ _ _ | .smul h _ _ _ _ | .sdiv h _ _ _ _ | .slog h _ _ _ _ | .ssh h _ _ _ _
  | .sminmax h _ _ _ _ | .ssel h _ _ _ _ => h.plain
  | .scmp h _ q _ _ => h.plain && destOk q
  | .sbit h f _ _ w => h.plain && match f, w with
    | .bfe, .none | .bfi, .none => false
    | .bfe, _ | .bfi, _ => true
    | _, .none => true
    | _, _ => false
  | .qlog h f d _ b => h.plain && destOk d && match f with
    | .not | .mov => b == 0
    | _ => true
  | .sld h _ o _ m => h.plain && o.load && m.wfS
  | .sst h _ o _ m => h.plain && o.store && o.ntHint && m.wfS
  | .braCond h _ _ _ | .braAlways h _ | .call h _ | .loopScalar h _ _ | .loopImm h _ _ | .lbrk h _ => h.plain
  | .brv h _ _ _ | .jmpv h _ | .callv h _ => h.noTag
  | .yld h _ n => h.plain && n != 0
  | .srd h sc vd r => r.toNat ≤ 32 &&
    (if sc then h.plain && vd.toNat < 64 && !sregLane r else h.noPass && (!sregWide r || evenReg vd))
  | .swr h sc r a => h.noTag && r.toNat ≤ 32 && match a with
    | .s _ => sc
    | .v x => !sc && (!sregWide r || evenReg x)
    | _ => !sc
  | .vadd _ _ t _ _ b | .vsub _ _ t _ _ b | .vlog _ _ t _ _ b | .vsh _ _ t _ _ b | .vminmax _ _ t _ _ b
  | .vmul _ _ t _ _ b => b.immOk t
  | .vmad .. | .vabs .. | .vbit .. | .vbfe .. | .vbfi .. | .vdiv .. => true
  | .vcmp h _ t p _ b => h.noTag && destOk p && b.immOk t
  | .vsel _ t vd a b _ => pairOk t vd [a, b]
  | .vmov _ t vd f => match f with
    | .reg a => pairOk t vd [a] && (match a with | .v _ | .c _ => true | _ => false)
    | .imm x => pairOk t vd [] && (VB.i x).immOk t
    | _ => pairOk t vd []
  | .fadd _ t vd a b m | .fsub _ t vd a b m | .fmul _ t vd a b m =>
    pairOk t vd [a] && (!t.isF64 || b.evenOk) && b.immOk t && m.accepts true (!t.isF64) true false && modVB b m
  | .ffma _ _ t vd a b c m => pairOk t vd [a, b, c] && m.accepts true (!t.isF64) true false
  | .fminmax _ _ t vd a b => pairOk t vd [a] && (!t.isF64 || b.evenOk) && b.immOk t
  | .fcmp h _ t p a b => h.noTag && destOk p && (!t.isF64 || (a.evenOk && b.evenOk)) && b.immOk t
  | .fcls h t p a _ => h.noTag && destOk p && (!t.isF64 || a.evenOk)
  | .fdot _ _ _ _ _ _ m => m.accepts true true true false
  | .sfu _ f _ _ b _ => f == .div || b == .v 0
  | .rng h _ _ => h.noPass
  | .cvt _ dst vd a src m =>
    cvtCodeOk dst && cvtCodeOk src && (dst != 0x01 || m.rnd != .rs) &&
    (!m.ftz || fmtFloat src || fmtFloat dst) && (fmtWidth dst != 64 || evenReg vd) &&
    (fmtWidth src != 64 || a.evenOk)
  | .cvtp _ dst _ _ _ src _ hi _ =>
    cvtCodeOk dst && cvtCodeOk src && fmtWidth dst ≤ 16 && fmtWidth src ≤ 32 && (!hi || fmtWidth dst == 8)
  | .cvtx _ dst vd _ _ src m =>
    cvtCodeOk dst && cvtCodeOk src && fmtWidth src ≤ 16 && (dst != 0x01 || m.rnd != .rs) &&
    (!m.ftz || fmtFloat src || fmtFloat dst) && (fmtWidth dst != 64 || evenReg vd)
  | .fscl _ f _ _ => match f with
    | .apply _ _ m => m.accepts true true false true
    | .comp _ => true
  | .vbal .. | .vmatch .. | .rvmax0 .. | .unmax0 .. | .unmul .. | .unadd .. | .rvadd .. => true
  | .vvote h f d _ => match f with
    | .count => h.noPass
    | _ => h.noTag && d.toNat < 8 && d != 0
  | .vshfl _ _ t vd a _ => pairOk t vd [a]
  | .vxch _ _ _ _ c => c.uniform
  | .vreduce _ f _ _ _ m => match f with
    | .addi => m.accepts false false false true
    | .fadd => m.accepts true false true false
    | _ => m.accepts false false false false
  | .vscan _ f _ _ _ sat => f != .imax || !sat
  | .vlane h f t vd a b => b.uniform && match f with
    | .ins => a.uniform && pairOk t vd []
    | .ext => h.plain && vd.toNat < 64 && (match a with | .v _ => true | _ => false)
  | .vld _ z o d m => o.load && m.wf && (!z.wide || evenReg d)
  | .vst h z o d m => h.noTag && o.store && o.ntHint && m.wf && (!z.wide || evenReg d)
  | .pref h hint m => h.noTag && hint.toNat ≤ 1 && m.wf
  | .probe h _ p m => h.noTag && destOk p && m.wf
  | .bankcfg h q _ _ => h.plain && destOk q
  | .iinv h m => h.noTag && m.wf
  | .atom _ _ z o d m | .acas _ z o d m => z.is32or64 && o.noHint && m.wf && (!z.wide || evenReg d)
  | .red h _ z o d m => h.noTag && z.is32or64 && (o.order == .relaxed || o.order == .rel) && o.noHint && m.wf &&
    (!z.wide || evenReg d)
  | .fence h _ o => h.plain && o != .relaxed
  | .qpush h _ _ _ _ _ | .qpop h _ _ _ _ _ | .qallowGrant h _ _ _ _ _ | .qallowRead h _ _ _ _ => h.plain
  | .cwait h _ _ _ o _ _ _ => h.plain && (o == .relaxed || o == .acq)
  | .carr h _ o _ _ => h.plain && (o == .relaxed || o == .rel)
  | .crst h _ | .tbar h _ | .aacq h _ | .arel h _ | .xstat h _ _ => h.plain
  | .mma h _ _ _ _ _ _ _ _ => h.noPass && h.noGuard
  | .azero h _ => h.noGuard
  | .ald _ o _ m => o.load && o.noHint && m.wfS
  | .ast h o _ m | .adrnStore h o _ m | .adrnFadd h o _ m => h.noTag && o.store && o.noHint && m.wfS
  | .xcopy h x => h.plain && x.rnd != .rs
  | .xformPerm h x | .xformCvt h x => h.plain && x.rnd != .rs && !x.tr
  | .xformDec h x => h.plain && x.rnd == .rn && !x.sat && !x.tr
  | .xformFill h x => h.plain && x.rnd == .rn && !x.sat && !x.tr && x.ky == 0
  | .cprun h _ _ _ _ _ _ | .cpstat h _ _ _ _ | .cpstop h _ _ _ => h.plain
  | .nnew h _ _ _ _ | .nkill h _ _ _ | .nres h _ _ _ | .nmov h _ _ _ _ => h.plain
  | .ninfo h _ _ _ _ i => h.plain && (i.toNat ≤ 2 || (16 ≤ i.toNat && i.toNat ≤ 21))
  | .nld h _ o _ m => h.plain && o.load && o.noHint && m.wfS
  | .nst h _ o _ m => h.plain && o.store && (o.hint == 0 || o.hint == 2) && m.wfS
  | .ncas h _ _ o _ _ m => h.plain && (o.hint == 0 || o.hint == 2) && m.wfS
  | .tget .. => true
  | .tset h _ _ => h.noTag
  | .tchk h t a => h.noTag && (!t.isF64 || a.evenOk) && match a with
    | .v _ => true
    | .s _ => t.isF64
    | _ => false
  | .tldg _ o _ m => o.load && o.noHint && m.wf
  | .tstg h o _ m => h.noTag && o.store && o.noHint && m.wf
  | .torg h _ sd _ => h.plain && sd.toNat ≤ 62
  | .rvmul _ t _ _ _ rnd => t == .f32 || rnd == .rn
  | .rvnar _ fmt _ _ _ _ | .unnar _ fmt _ _ => narrowOk fmt
  | .slmark h _ | .sldrop h _ | .sldepth h _ | .trap h _ | .launch h _ => h.plain
  | _ => true

/-- A well-formed instruction. -/
def Instr.WellFormed (i : Instr) : Prop := i.typeOk = true ∧ i.wf = true

end Sys2Proof
end

