-- ==== Sys2Proof/Decode.lean ====
section
/-! DEFINITION. Decoding and encoding of instruction words (03_encoding R57 to R79). Decoding is total on
any 64 bits: it answers an instruction, or rejects as ILLEGAL_OPCODE or ILLEGAL_OPERAND, in the order of R79.
Clause headers (R49) are split here too. The encoder follows. -/

namespace Sys2Proof

/-! ### Bit fields of the formats -/

/-- The common part of a word (R57) and the 49 bits of its format. -/
structure WordF where
  major : BitVec 8
  sw    : Bool
  rule  : BitVec 2
  guard : BitVec 3
  neg   : Bool
  body  : BitVec 49
deriving DecidableEq, Repr

/-- Format SR (R68): b, e and the low bits stand together in `low`. -/
structure SRF where
  i    : Bool
  func : BitVec 5
  c    : BitVec 3
  d    : BitVec 6
  a    : BitVec 6
  low  : BitVec 28
deriving DecidableEq, Repr

/-- Format BR (R69). -/
structure BRF where
  func : BitVec 5
  c    : BitVec 3
  n    : Bool
  aux  : BitVec 8
  off  : BitVec 32
deriving DecidableEq, Repr

/-- Formats VR, VI and VC (R63, R66): B, C and mod stand together in `low`. -/
structure VRF where
  i    : Bool
  func : BitVec 5
  ty   : BitVec 3
  vd   : BitVec 8
  a    : BitVec 9
  low  : BitVec 23
deriving DecidableEq, Repr

/-- Format MEM (R70). -/
structure MEMF where
  func  : BitVec 5
  size  : BitVec 3
  scope : BitVec 3
  order : BitVec 2
  hint  : BitVec 2
  d     : BitVec 8
  base  : BitVec 6
  index : BitVec 9
  scale : BitVec 3
  nb    : Bool
  off   : BitVec 7
deriving DecidableEq, Repr

/-- Format ENG (R72). -/
structure ENGF where
  func  : BitVec 5
  q     : BitVec 3
  scope : BitVec 3
  order : BitVec 2
  t     : Bool
  g     : Bool
  kx    : BitVec 4
  ky    : BitVec 4
  sa    : BitVec 6
  sb    : BitVec 6
  sc    : BitVec 6
  x     : BitVec 8
deriving DecidableEq, Repr

/-- Format OBJ (R74). -/
structure OBJF where
  func : BitVec 5
  q    : BitVec 3
  g    : Bool
  kd   : BitVec 4
  ka   : BitVec 4
  sd   : BitVec 6
  sa   : BitVec 6
  imm  : BitVec 8
  z    : BitVec 12
deriving DecidableEq, Repr

def splitWord (w : Word) : WordF :=
  ⟨w.extractLsb' 56 8, w.getLsbD 55, w.extractLsb' 53 2, w.extractLsb' 50 3, w.getLsbD 49, w.extractLsb' 0 49⟩
def joinWord (f : WordF) : Word :=
  f.major ++ BitVec.ofBool f.sw ++ f.rule ++ f.guard ++ BitVec.ofBool f.neg ++ f.body

def splitSR (w : BitVec 49) : SRF :=
  ⟨w.getLsbD 48, w.extractLsb' 43 5, w.extractLsb' 40 3, w.extractLsb' 34 6, w.extractLsb' 28 6, w.extractLsb' 0 28⟩
def joinSR (f : SRF) : BitVec 49 := BitVec.ofBool f.i ++ f.func ++ f.c ++ f.d ++ f.a ++ f.low

def splitBR (w : BitVec 49) : BRF :=
  ⟨w.extractLsb' 44 5, w.extractLsb' 41 3, w.getLsbD 40, w.extractLsb' 32 8, w.extractLsb' 0 32⟩
def joinBR (f : BRF) : BitVec 49 := f.func ++ f.c ++ BitVec.ofBool f.n ++ f.aux ++ f.off

def splitVR (w : BitVec 49) : VRF :=
  ⟨w.getLsbD 48, w.extractLsb' 43 5, w.extractLsb' 40 3, w.extractLsb' 32 8, w.extractLsb' 23 9, w.extractLsb' 0 23⟩
def joinVR (f : VRF) : BitVec 49 := BitVec.ofBool f.i ++ f.func ++ f.ty ++ f.vd ++ f.a ++ f.low

def splitMEM (w : BitVec 49) : MEMF :=
  ⟨w.extractLsb' 44 5, w.extractLsb' 41 3, w.extractLsb' 38 3, w.extractLsb' 36 2, w.extractLsb' 34 2,
   w.extractLsb' 26 8, w.extractLsb' 20 6, w.extractLsb' 11 9, w.extractLsb' 8 3, w.getLsbD 7, w.extractLsb' 0 7⟩
def joinMEM (f : MEMF) : BitVec 49 :=
  f.func ++ f.size ++ f.scope ++ f.order ++ f.hint ++ f.d ++ f.base ++ f.index ++ f.scale ++ BitVec.ofBool f.nb ++ f.off

def splitENG (w : BitVec 49) : ENGF :=
  ⟨w.extractLsb' 44 5, w.extractLsb' 41 3, w.extractLsb' 38 3, w.extractLsb' 36 2, w.getLsbD 35, w.getLsbD 34,
   w.extractLsb' 30 4, w.extractLsb' 26 4, w.extractLsb' 20 6, w.extractLsb' 14 6, w.extractLsb' 8 6, w.extractLsb' 0 8⟩
def joinENG (f : ENGF) : BitVec 49 :=
  f.func ++ f.q ++ f.scope ++ f.order ++ BitVec.ofBool f.t ++ BitVec.ofBool f.g ++ f.kx ++ f.ky ++ f.sa ++ f.sb ++ f.sc ++ f.x

def splitOBJ (w : BitVec 49) : OBJF :=
  ⟨w.extractLsb' 44 5, w.extractLsb' 41 3, w.getLsbD 40, w.extractLsb' 36 4, w.extractLsb' 32 4, w.extractLsb' 26 6,
   w.extractLsb' 20 6, w.extractLsb' 12 8, w.extractLsb' 0 12⟩
def joinOBJ (f : OBJF) : BitVec 49 :=
  f.func ++ f.q ++ BitVec.ofBool f.g ++ f.kd ++ f.ka ++ f.sd ++ f.sa ++ f.imm ++ f.z

/-! ### Code lists (R46, R47: a func's value is its position) -/

def ruleL : List TagRule := [.blame, .birth, .pass, .keep]
def typeL : List VType := [.i32, .n32, .f32, .f64, .f16x2, .bf16x2, .i16x2, .i8x4]
def rndL : List Rnd := [.rn, .rz, .rd, .ru, .rs]
def fitSL : List FitS := [.wrap, .sati, .satn]
def mulL : List MulF := [.lo, .hii, .hin]
def divL : List DivF := [.divi, .divn, .remi, .remn]
def logL : List LogF := [.and, .or, .xor, .andn, .orn, .xnor]
def shL : List ShF := [.shl, .shr, .sra, .rol, .ror]
def scmpL : List SCmpF := [.eq, .ne, .lt, .le, .gt, .ge, .nlt, .nle, .ngt, .nge]
def sbitL : List SBitF := [.popc, .clz, .ctz, .brev, .bfe, .bfi]
def sminmaxL : List SMinMaxF := [.mini, .maxi, .minn, .maxn]
def qlogL : List QLogF := [.and, .or, .xor, .not, .mov]
def fitVL : List FitV := [.wrap, .sat]
def minmaxL : List MinMaxF := [.min, .max]
def absL : List AbsF := [.abs, .neg, .abssat]
def cmpL : List CmpF := [.eq, .ne, .lt, .le, .gt, .ge]
def vbitL : List VBitF := [.popc, .clz, .ctz, .brev]
def fmaL : List FmaF := [.pp, .pm, .mp, .mm]
def fminmaxL : List FMinMaxF := [.min, .max, .minnum, .maxnum, .maxabs]
def fcmpL : List FCmpF := [.eq, .ne, .lt, .le, .gt, .ge, .un, .ueq, .une, .ult, .ule, .ugt, .uge]
def sfuL : List SfuF := [.rcp, .rsq, .sqrt, .exp2, .log2, .sinpi, .cospi, .tanh, .div]
def voteL : List VoteF := [.any, .all, .count]
def shflL : List ShflF := [.idx, .up, .down, .xor]
def redL : List RedF := [.addi, .min, .max, .and, .or, .xor, .fadd, .fmax, .fmaxabs]
def scanL : List ScanF := [.iadd, .eadd, .imax]
def vlaneL : List VLaneF := [.ins, .ext]
def sizeL : List MSize := [.i8, .n8, .i16, .n16, .b32, .b64]
def scopeL : List Scope := [.dev, .grp, .core, .clu, .die, .sys]
def ordL : List Ord := [.relaxed, .acq, .rel, .ar]
def bankL : List BankMode := [.cache, .scratch, .fifo]
def atomL : List AtomF := [.add, .and, .or, .xor, .mini, .maxi, .minn, .maxn, .xchg, .fadd, .fmax]
def redML : List RedMF := [.add, .addsati, .addsatn, .fadd, .fmax, .fmin, .mini, .maxi, .and, .or, .xor, .fmaxabs]

/-- The element at a code's position, `none` at or above the count (R78). -/
def pick {α : Type} {n : Nat} (l : List α) (c : BitVec n) : Option α := l[c.toNat]?

/-- The code of an element: its position. -/
def codeOf {α : Type} [DecidableEq α] (n : Nat) (l : List α) (x : α) : BitVec n := BitVec.ofNat n (l.idxOf x)

/-! ### Operands -/

/-- A 9-bit operand code is defined (R60). -/
def srcOk (c : BitVec 9) : Bool := c.toNat ≤ 352

/-- A 9-bit operand code (R60); codes above 352 are refused by `srcOk`. -/
def decSrc (c : BitVec 9) : Src :=
  if c.toNat < 256 then .v (c.setWidth 8)
  else if c.toNat < 320 then .s (c.setWidth 6)
  else if c.toNat < 352 then .c (c.setWidth 5)
  else .lane

def encSrc : Src → BitVec 9
  | .v r => BitVec.ofNat 9 r.toNat
  | .s r => BitVec.ofNat 9 (256 + r.toNat)
  | .c n => BitVec.ofNat 9 (320 + n.toNat)
  | .lane => 352

def fieldB (low : BitVec 23) : BitVec 9 := low.extractLsb' 14 9
def fieldC (low : BitVec 23) : BitVec 9 := low.extractLsb' 5 9
def fieldM (low : BitVec 23) : BitVec 5 := low.extractLsb' 0 5
def joinLow (b c : BitVec 9) (m : BitVec 5) : BitVec 23 := b ++ c ++ m

/-- The mod field (R65); rounding 5 to 7 is refused by `modOk`. -/
def decMod (m : BitVec 5) : FMod :=
  ⟨(rndL[(m.extractLsb' 2 3).toNat]?).getD .rn, m.getLsbD 1, m.getLsbD 0⟩
def modOk (m : BitVec 5) : Bool := (m.extractLsb' 2 3).toNat ≤ 4
def encMod (m : FMod) : BitVec 5 := codeOf 3 rndL m.rnd ++ BitVec.ofBool m.ftz ++ BitVec.ofBool m.sat

/-- The memory index (R70): code 320 is no index; other codes above 319 are refused by `idxOk`. -/
def decIdx (c : BitVec 9) : MIdx :=
  if c.toNat < 256 then .v (c.setWidth 8) else if c.toNat < 320 then .s (c.setWidth 6) else .none
def idxOk (c : BitVec 9) : Bool := c.toNat ≤ 320
def encIdx : MIdx → BitVec 9
  | .v r => BitVec.ofNat 9 r.toNat
  | .s r => BitVec.ofNat 9 (256 + r.toNat)
  | .none => 320

def memOp (f : MEMF) : MemOp := ⟨f.base, decIdx f.index, f.scale, f.nb, f.off⟩
def decScope (c : BitVec 3) : Scope := (scopeL[c.toNat]?).getD .dev
def decSize (c : BitVec 3) : MSize := (sizeL[c.toNat]?).getD .b32
def decOrd (c : BitVec 2) : Ord := (ordL[c.toNat]?).getD .relaxed
def memOrd (f : MEMF) : MOrd := ⟨decScope f.scope, decOrd f.order, f.hint⟩
/-- The parts of a MEM word that every user shares: scope, index (R70). -/
def memOk (f : MEMF) : Bool := f.scope.toNat ≤ 5 && idxOk f.index

/-- The SR field b (R68). -/
def lowB (low : BitVec 28) : BitVec 6 := low.extractLsb' 22 6
def lowE (low : BitVec 28) : BitVec 6 := low.extractLsb' 16 6
def lowBE (b e : BitVec 6) : BitVec 28 := b ++ e ++ (0 : BitVec 16)

/-- Operand b of a scalar word (R131): with I = 0 the fields e and [15:0] are 0. -/
def decSB (f : SRF) : SB := if f.i then .i f.low else .r (lowB f.low)
def sbOk (f : SRF) : Bool := f.i || f.low == lowBE (lowB f.low) 0
def encSB : SB → Bool × BitVec 28
  | .r b => (false, lowBE b 0)
  | .i x => (true, x)

/-- A candidate instruction with whether its unread fields are 0 and its codes defined; `none` is
ILLEGAL_OPCODE for the major, the func or the I bit (R78). -/
abbrev Cand := Option (Instr × Bool)

/-! ### Decoding by format -/

/-- A three-operand scalar word: c = 0, and operand b by the I bit. -/
def dec3 {α : Type} (l : List α) (k : α → BitVec 6 → BitVec 6 → SB → Instr) (f : SRF) : Cand :=
  (pick l f.func).map fun x => (k x f.d f.a (decSB f), f.c == 0 && sbOk f)

/-- Scalar words (R131 to R133), traps, LAUNCH and the slate markers. -/
def decodeSR (major : Nat) (h : Head) (f : SRF) : Cand :=
  let z := f.c == 0 && f.d == 0 && f.a == 0
  match major with
  | 0x00 => if f.func == 0 && !f.i then some (.nop h, z && f.low == 0) else none
  | 0x01 =>
    if f.func == 0 && !f.i then some (.smovReg h f.d f.a, f.c == 0 && f.low == 0)
    else if f.func == 1 && f.i then
      some (.smovImm h f.d (f.a.extractLsb' 0 4 ++ f.low), f.c == 0 && f.a.toNat < 16)
    else if f.func == 2 && f.i then
      some (.smovHi h f.d (f.a.extractLsb' 0 4 ++ f.low), f.c == 0 && f.a.toNat < 16)
    else none
  | 0x02 => dec3 fitSL (.sadd h) f
  | 0x03 => dec3 fitSL (.ssub h) f
  | 0x04 => dec3 mulL (.smul h) f
  | 0x05 => dec3 divL (.sdiv h) f
  | 0x06 => dec3 logL (.slog h) f
  | 0x07 => dec3 shL (.ssh h) f
  | 0x08 => (pick scmpL f.func).map fun x =>
      (.scmp h x (f.d.setWidth 3) f.a (decSB f), f.c == 0 && f.d.toNat < 8 && sbOk f)
  | 0x09 => if f.func == 0 then some (.ssel h f.c f.d f.a (decSB f), sbOk f) else none
  | 0x0A => (pick sbitL f.func).bind fun x => match x with
      | .bfe | .bfi =>
        if f.i then some (.sbit h x f.d f.a (.imm (f.low.extractLsb' 0 6) (f.low.extractLsb' 6 7)),
          f.c == 0 && f.low.toNat < 2 ^ 13)
        else some (.sbit h x f.d f.a (.regs (lowB f.low) (lowE f.low)),
          f.c == 0 && f.low == lowBE (lowB f.low) (lowE f.low))
      | _ => if f.i then none else some (.sbit h x f.d f.a .none, f.c == 0 && f.low == 0)
  | 0x0B => dec3 sminmaxL (.sminmax h) f
  | 0x0C => if f.i then none else (pick qlogL f.func).map fun x =>
      (.qlog h x (f.d.setWidth 3) (f.a.setWidth 3) ((lowB f.low).setWidth 3),
        f.c == 0 && f.d.toNat < 8 && f.a.toNat < 8 && (lowB f.low).toNat < 8 && f.low == lowBE (lowB f.low) 0)
  | 0x98 => if f.func == 0 && f.i then some (.slmark h (f.low.setWidth 16), z && f.low.toNat < 2 ^ 16) else none
  | 0x99 => if f.func == 0 && f.i then some (.sldrop h (f.low.setWidth 16), z && f.low.toNat < 2 ^ 16) else none
  | 0x9A => if f.func == 0 && !f.i then some (.sldepth h f.d, f.c == 0 && f.a == 0 && f.low == 0) else none
  | 0xA0 => if f.func == 0 && f.i then some (.trap h (f.low.setWidth 8), z && f.low.toNat < 2 ^ 8) else none
  | 0xA1 => if f.func == 0 then some (.tret h, z && !f.i && f.low == 0) else none
  | 0xA4 => if f.func == 0 && !f.i then some (.launch h f.a, f.c == 0 && f.d == 0 && f.low == 0) else none
  | 0xA5 => if f.func == 0 then some (.brk h, z && !f.i && f.low == 0) else none
  | _ => none

/-- Branches, calls, loops and YLD (R69, R136). -/
def decodeBR (major : Nat) (h : Head) (f : BRF) : Cand :=
  let z := f.c == 0 && !f.n
  match major with
  | 0x10 =>
    if f.func == 0 then some (.braCond h f.c f.n f.off, f.aux == 0)
    else if f.func == 1 then some (.braAlways h f.off, z && f.aux == 0)
    else none
  | 0x11 => if f.func == 0 then some (.brv h f.c f.n f.off, f.aux == 0) else none
  | 0x12 => if f.func == 0 then some (.jmpv h f.aux, z && f.off == 0) else none
  | 0x13 => if f.func == 0 then some (.call h f.off, z && f.aux == 0) else none
  | 0x14 => if f.func == 0 then some (.callv h f.aux, z && f.off == 0) else none
  | 0x15 => if f.func == 0 then some (.ret h, z && f.aux == 0 && f.off == 0) else none
  | 0x16 => if f.func == 0 then some (.join h, z && f.aux == 0 && f.off == 0) else none
  | 0x17 => if f.func == 0 then some (.defer h, z && f.aux == 0 && f.off == 0) else none
  | 0x18 =>
    if f.func == 0 then some (.loopScalar h (f.aux.setWidth 6) f.off, z && f.aux.toNat < 64)
    else if f.func == 1 then some (.loopImm h f.aux f.off, z)
    else none
  | 0x19 => if f.func == 0 then some (.lbrk h (f.aux.setWidth 2), z && f.aux.toNat < 4 && f.off == 0) else none
  | 0x1A => if f.func == 0 then some (.exit h, z && f.aux == 0 && f.off == 0) else none
  | 0x1B => if f.func == 0 then
      some (.yld h (f.aux.getLsbD 0) (f.off.setWidth 16), z && f.aux.toNat < 2 && f.off.toNat < 2 ^ 16) else none
  | _ => none

/-- The second operand of a VR+I word, with what it requires of C and mod when mod is 0 (R63). -/
def decVB (f : VRF) : VB := if f.i then .i f.low else .r (decSrc (fieldB f.low))
def vbOk (f : VRF) : Bool := f.i || (srcOk (fieldB f.low) && fieldC f.low == 0 && fieldM f.low == 0)
/-- As `vbOk`, for the majors that accept a mod field (R91). -/
def vbmOk (f : VRF) : Bool := f.i || (srcOk (fieldB f.low) && fieldC f.low == 0 && modOk (fieldM f.low))
def decVBM (f : VRF) : FMod := if f.i then ⟨.rn, false, false⟩ else decMod (fieldM f.low)

/-- A vector integer word of two operands with a func list. -/
def decV2 {α : Type} (l : List α) (k : α → VType → BitVec 8 → Src → VB → Instr) (f : VRF) : Cand :=
  (pick l f.func).bind fun x => (pick typeL f.ty).map fun t =>
    (k x t f.vd (decSrc f.a) (decVB f), srcOk f.a && vbOk f)

/-- A floating-point word of two operands with a mod field. -/
def decF2 (k : VType → BitVec 8 → Src → VB → FMod → Instr) (f : VRF) : Cand :=
  if f.func == 0 then (pick typeL f.ty).map fun t =>
    (k t f.vd (decSrc f.a) (decVB f) (decVBM f), srcOk f.a && vbmOk f)
  else none

/-- Vector words of majors 0x20 to 0x2E (R85). -/
def decodeVI (major : Nat) (h : Head) (f : VRF) : Cand :=
  let b := fieldB f.low
  let c := fieldC f.low
  let m0 := fieldM f.low == 0
  let A := decSrc f.a
  match major with
  | 0x20 => decV2 fitVL (.vadd h) f
  | 0x21 => decV2 fitVL (.vsub h) f
  | 0x22 => decV2 mulL (.vmul h) f
  | 0x23 => if f.i || f.func != 0 then none else (pick typeL f.ty).map fun t =>
      (.vmad h t f.vd A (decSrc b) (decSrc c), srcOk f.a && srcOk b && srcOk c && m0)
  | 0x24 => decV2 logL (.vlog h) f
  | 0x25 => decV2 shL (.vsh h) f
  | 0x26 => decV2 minmaxL (.vminmax h) f
  | 0x27 => if f.i then none else (pick absL f.func).bind fun x => (pick typeL f.ty).map fun t =>
      (.vabs h x t f.vd A, srcOk f.a && f.low == 0)
  | 0x28 => (pick cmpL f.func).bind fun x => (pick typeL f.ty).map fun t =>
      (.vcmp h x t (f.vd.setWidth 3) A (decVB f), f.vd.toNat < 8 && srcOk f.a && vbOk f)
  | 0x29 => if f.i || f.func != 0 then none else (pick typeL f.ty).map fun t =>
      (.vsel h t f.vd A (decSrc b) (c.setWidth 3), srcOk f.a && srcOk b && c.toNat < 8 && m0)
  | 0x2A => if f.i then none else (pick vbitL f.func).bind fun x => (pick typeL f.ty).map fun t =>
      (.vbit h x t f.vd A, srcOk f.a && f.low == 0)
  | 0x2B => if f.i || f.func != 0 then none else (pick typeL f.ty).map fun t =>
      (.vbfe h t f.vd A (decSrc b) (decSrc c), srcOk f.a && srcOk b && srcOk c && m0)
  | 0x2C => if f.i || f.func != 0 then none else (pick typeL f.ty).map fun t =>
      (.vbfi h t f.vd A (decSrc b) (decSrc c), srcOk f.a && srcOk b && srcOk c && m0)
  | 0x2D => (pick typeL f.ty).bind fun t =>
      if f.func == 0 && !f.i then some (.vmov h t f.vd (.reg A), srcOk f.a && f.low == 0)
      else if f.func == 1 && f.i then some (.vmov h t f.vd (.imm f.low), f.a == 0)
      else if f.func == 2 && !f.i then some (.vmov h t f.vd .lane, f.a == 0 && f.low == 0)
      else if f.func == 3 && !f.i then
        some (.vmov h t f.vd (.scalar (f.a.setWidth 6)), 256 ≤ f.a.toNat && f.a.toNat < 320 && f.low == 0)
      else none
  | 0x2E => if f.i || f.ty != 0 then none else (pick divL f.func).map fun x =>
      (.vdiv h x f.vd A (decSrc b), srcOk f.a && srcOk b && c == 0 && m0)
  | _ => none

/-- The element format of FDOT (R67). -/
def decFDot (func : BitVec 5) (ty : BitVec 3) : Option FDotF :=
  if func == 0 && ty == 2 then some .f16 else if func == 1 && ty == 2 then some .bf16
  else if func == 2 then some (.b8 ty) else none

/-- Vector words of majors 0x30 to 0x3F (R91, R97, R100, R104, R119, R124). -/
def decodeVF (major : Nat) (h : Head) (f : VRF) : Cand :=
  let b := fieldB f.low
  let c := fieldC f.low
  let m := fieldM f.low
  let A := decSrc f.a
  let fmt : BitVec 8 := f.func ++ f.ty
  let src : BitVec 8 := c.setWidth 8
  let oc := c.toNat < 256
  match major with
  | 0x30 => decF2 (.fadd h) f
  | 0x31 => decF2 (.fsub h) f
  | 0x32 => decF2 (.fmul h) f
  | 0x33 => if f.i then none else (pick fmaL f.func).bind fun x => (pick typeL f.ty).map fun t =>
      (.ffma h x t f.vd A (decSrc b) (decSrc c) (decMod m), srcOk f.a && srcOk b && srcOk c && modOk m)
  | 0x34 => decV2 fminmaxL (.fminmax h) f
  | 0x35 => (pick fcmpL f.func).bind fun x => (pick typeL f.ty).map fun t =>
      (.fcmp h x t (f.vd.setWidth 3) A (decVB f), f.vd.toNat < 8 && srcOk f.a && vbOk f)
  | 0x36 => if !f.i || f.func != 0 then none else (pick typeL f.ty).map fun t =>
      (.fcls h t (f.vd.setWidth 3) A (f.low.setWidth 10), f.vd.toNat < 8 && srcOk f.a && f.low.toNat < 2 ^ 10)
  | 0x37 => if f.i then none else (decFDot f.func f.ty).map fun x =>
      (.fdot h x f.vd A (decSrc b) (decSrc c) (decMod m), srcOk f.a && srcOk b && srcOk c && modOk m)
  | 0x38 => if f.i || f.ty != 2 then none else (pick sfuL f.func).map fun x =>
      (.sfu h x f.vd A (decSrc b) (m.getLsbD 1), srcOk f.a && srcOk b && c == 0 && (m &&& 0b11101) == 0)
  | 0x39 => if f.i then none
      else if f.func == 0 && f.ty == 1 then some (.rng h .raw f.vd, f.a == 0 && f.low == 0)
      else if f.func == 1 && f.ty == 2 then some (.rng h .unif f.vd, f.a == 0 && f.low == 0) else none
  | 0x3C => if f.i then none else
      some (.cvt h fmt f.vd A src (decMod m), srcOk f.a && b == 0 && oc && modOk m)
  | 0x3D => if f.i then none else
      some (.cvtp h fmt f.vd A (decSrc b) src (decMod m).rnd (m.getLsbD 1) (m.getLsbD 0),
        srcOk f.a && srcOk b && oc && modOk m)
  | 0x3E => if f.i then none else
      some (.cvtx h fmt f.vd A (decSrc b) src (decMod m), srcOk f.a && srcOk b && oc && modOk m)
  | 0x3F => if f.i then none
      else if f.func == 0 then (pick typeL f.ty).map fun t =>
        (.fscl h (.apply t (decSrc b) (decMod m)) f.vd A, srcOk f.a && srcOk b && c == 0 && modOk m)
      else if f.func == 1 then some (.fscl h (.comp f.ty) f.vd A, srcOk f.a && f.low == 0) else none
  | _ => none

/-- Cross-lane words (R175). -/
def decodeVX (major : Nat) (h : Head) (f : VRF) : Cand :=
  let b := fieldB f.low
  let c := fieldC f.low
  let m := fieldM f.low
  let A := decSrc f.a
  if f.i then none else
  match major with
  | 0x40 => if f.func == 0 && f.ty == 1 then
      some (.vbal h f.vd A (decSrc b), srcOk f.a && srcOk b && c == 0 && m == 0) else none
  | 0x41 => (pick voteL f.func).bind fun x =>
      if f.ty == (if x == .count then 1 else 0) then
        some (.vvote h x f.vd (f.a.setWidth 3), f.a.toNat < 8 && f.low == 0) else none
  | 0x42 => (pick shflL f.func).bind fun x => (pick typeL f.ty).map fun t =>
      (.vshfl h x t f.vd A (decSrc b), srcOk f.a && srcOk b && c == 0 && m == 0)
  | 0x43 => if f.func == 0 && f.ty == 1 then
      some (.vxch h f.vd A (decSrc b) (decSrc c), srcOk f.a && srcOk b && c.toNat < 352 && m == 0) else none
  | 0x44 => (pick redL f.func).bind fun x => (pick typeL f.ty).map fun t =>
      (.vreduce h x t f.vd A (decMod m), srcOk f.a && b == 0 && c == 0 && modOk m)
  | 0x45 => (pick scanL f.func).bind fun x => (pick typeL f.ty).map fun t =>
      (.vscan h x t f.vd A (m.getLsbD 0), srcOk f.a && b == 0 && c == 0 && m.toNat < 2)
  | 0x46 => if f.func == 0 && f.ty == 1 then some (.vmatch h f.vd A, srcOk f.a && f.low == 0) else none
  | 0x47 => (pick vlaneL f.func).bind fun x => (pick typeL f.ty).map fun t =>
      (.vlane h x t f.vd A (decSrc b), srcOk f.a && srcOk b && c == 0 && m == 0)
  | _ => none

/-- Tag, reversible and special-register words in formats VR and VC (R357, R376, R383, R75). -/
def decodeVT (major : Nat) (h : Head) (f : VRF) : Cand :=
  let b := fieldB f.low
  let c := fieldC f.low
  let m := fieldM f.low
  let A := decSrc f.a
  let fmt : BitVec 8 := f.func ++ f.ty
  if f.i then none else
  match major with
  | 0x88 => if f.func == 0 && f.ty == 1 then some (.tget h f.vd A, srcOk f.a && f.low == 0) else none
  | 0x89 => if f.ty != 1 then none
      else if f.func == 0 then some (.tset h f.vd (.reg A), srcOk f.a && f.low == 0)
      else if f.func == 1 then some (.tset h f.vd .born, f.a == 0 && f.low == 0)
      else if f.func == 2 then some (.tset h f.vd .clre, f.a == 0 && f.low == 0) else none
  | 0x8A => if f.func != 0 then none else (pick typeL f.ty).map fun t =>
      (.tchk h t A, f.vd == 0 && srcOk f.a && f.low == 0)
  | 0x90 => if f.func != 0 then none else (pick typeL f.ty).map fun t =>
      (.rvmul h t f.vd A (decSrc b) (decMod m).rnd, srcOk f.a && srcOk b && c == 0 && modOk m && (m &&& 3) == 0)
  | 0x91 => if f.func != 0 || f.ty != 2 then none else
      some (.rvadd h f.vd A (decSrc b) (decMod m).rnd, srcOk f.a && srcOk b && c == 0 && modOk m && (m &&& 3) == 0)
  | 0x92 => some (.rvnar h fmt f.vd A (decMod m).rnd (m.getLsbD 0),
      srcOk f.a && b == 0 && c == 0 && modOk m && (m &&& 2) == 0)
  | 0x93 => if f.func != 0 || f.ty != 2 then none else some (.rvmax0 h f.vd A, srcOk f.a && f.low == 0)
  | 0x94 => if f.func != 0 then none else (pick typeL f.ty).map fun t =>
      (.unmul h t f.vd A (decSrc b), srcOk f.a && srcOk b && c == 0 && m == 0)
  | 0x95 => if f.func != 0 || f.ty != 2 then none else
      some (.unadd h f.vd A (decSrc b), srcOk f.a && srcOk b && c == 0 && m == 0)
  | 0x96 => some (.unnar h fmt f.vd A, srcOk f.a && f.low == 0)
  | 0x97 => if f.func != 0 || f.ty != 2 then none else some (.unmax0 h f.vd A, srcOk f.a && f.low == 0)
  | 0xA2 => if f.func != 0 then none else
      some (.srd h (f.ty == 1) f.vd (b.setWidth 6),
        f.ty.toNat < 2 && f.a == 0 && b.toNat ≤ 32 && c == 0 && m == 0)
  | 0xA3 => if f.func != 0 then none else
      some (.swr h (f.ty == 1) (b.setWidth 6) A,
        f.ty.toNat < 2 && f.vd == 0 && srcOk f.a && b.toNat ≤ 32 && c == 0 && m == 0)
  | _ => none

/-- Fields a MEM word of no func, and of a size code below 6, must hold. -/
def memSizeOk (f : MEMF) : Bool := f.size.toNat ≤ 5

/-- Words in format MEM (R70, R71). -/
def decodeMEM (major : Nat) (h : Head) (f : MEMF) : Cand :=
  let m := memOp f
  let o := memOrd f
  let z := decSize f.size
  let ok := memOk f
  let plainO := f.scope == 0 && f.order == 0
  let d6 := f.d.extractLsb' 0 6
  let f0 := f.func == 0
  match major with
  | 0x0D => if f0 then some (.sld h z o (f.d.extractLsb' 0 6) m, ok && memSizeOk f && f.d.toNat < 64) else none
  | 0x0E => if f0 then some (.sst h z o (f.d.extractLsb' 0 6) m, ok && memSizeOk f && f.d.toNat < 64) else none
  | 0x50 => if f0 then some (.vld h z o f.d m, ok && memSizeOk f) else none
  | 0x51 => if f0 then some (.vst h z o f.d m, ok && memSizeOk f) else none
  | 0x52 => if f0 then some (.pref h f.hint m, ok && f.size == 0 && plainO && f.d == 0) else none
  | 0x53 => if f0 then some (.probe h z (f.d.setWidth 3) m,
      ok && memSizeOk f && plainO && f.hint == 0 && f.d.toNat < 8) else none
  | 0x54 => if f0 then some (.bankcfg h (f.d.setWidth 3) f.base ((bankL[(f.off.extractLsb' 0 2).toNat]?).getD .cache),
      f.size == 0 && plainO && f.hint == 0 && f.d.toNat < 8 && f.index == 320 && f.scale == 0 && !f.nb &&
      f.off.toNat < 3) else none
  | 0x55 => if f0 then some (.iinv h m, ok && f.size == 0 && plainO && f.hint == 0 && f.d == 0) else none
  | 0x60 => (pick atomL f.func).map fun x => (.atom h x z o f.d m, ok && memSizeOk f)
  | 0x61 => if f0 then some (.acas h z o f.d m, ok && memSizeOk f) else none
  | 0x62 => (pick redML f.func).map fun x => (.red h x z o f.d m, ok && memSizeOk f)
  | 0x63 => if f0 then some (.fence h (decScope f.scope) (decOrd f.order),
      f.scope.toNat ≤ 5 && f.size == 0 && f.hint == 0 && f.d == 0 && f.base == 0 && f.index == 0 && f.scale == 0 &&
      f.nb && f.off == 0) else none
  | 0x73 => if f0 then some (.ald h o d6 m, ok && f.size == 0 && f.d.toNat < 64) else none
  | 0x74 => if f0 then some (.ast h o d6 m, ok && f.size == 0 && f.d.toNat < 64) else none
  | 0x76 => if f.func == 0 then some (.adrnStore h o d6 m, ok && f.size == 0 && f.d.toNat < 64)
      else if f.func == 1 then some (.adrnFadd h o d6 m, ok && f.size == 0 && f.d.toNat < 64) else none
  | 0x83 => if f0 then some (.nld h f.size o (f.d.extractLsb' 4 4) m, ok && f.d.extractLsb' 0 4 == 0) else none
  | 0x84 => if f0 then some (.nst h f.size o (f.d.extractLsb' 4 4) m, ok && f.d.extractLsb' 0 4 == 0) else none
  | 0x85 => if f.func.toNat < 2 then
      some (.ncas h (f.func == 1) f.size o (f.d.extractLsb' 4 4) (f.d.extractLsb' 0 4) m, ok) else none
  | 0x8B => if f0 then some (.tldg h o f.d m, ok && f.size == 4) else none
  | 0x8C => if f0 then some (.tstg h o f.d m, ok && f.size == 4) else none
  | _ => none

/-- XCOPY and XFORM (R288). -/
def xargs (f : ENGF) : XArgs :=
  ⟨f.q, (rndL[f.scope.toNat]?).getD .rs, f.order.getLsbD 1, f.g, f.kx, f.ky, f.sa, f.sb, f.sc, f.x.getLsbD 7,
   if f.x.getLsbD 6 then some (f.x.extractLsb' 0 6) else none⟩
def xargsOk (f : ENGF) : Bool :=
  f.scope.toNat ≤ 3 && !f.order.getLsbD 0 && !f.t && (f.x.getLsbD 6 || f.x.extractLsb' 0 6 == 0)

/-- The amount or target of CARR and CWAIT (R73). -/
def decCVal (f : ENGF) : CVal := if f.x.getLsbD 7 then .i (f.x.extractLsb' 0 7) else .r f.sa
def cvalOk (f : ENGF) : Bool := if f.x.getLsbD 7 then f.sa == 0 else f.x == 0

/-- Words in format ENG (R72, R73). -/
def decodeENG (major : Nat) (h : Head) (f : ENGF) : Cand :=
  let so := f.scope == 0 && f.order == 0
  let noK := f.kx == 0 && f.ky == 0
  let f0 := f.func == 0
  let slot := f.x.extractLsb' 0 6
  let onlyX := so && noK && f.q == 0 && !f.t && !f.g && f.sa == 0 && f.sb == 0 && f.sc == 0
  match major with
  | 0x64 => if f0 then some (.qpush h f.q f.t f.g f.kx f.sa, so && f.ky == 0 && f.sb == 0 && f.sc == 0 && f.x == 0) else none
  | 0x65 => if f0 then some (.qpop h f.q f.t f.g f.kx f.sa, so && f.ky == 0 && f.sb == 0 && f.sc == 0 && f.x == 0) else none
  | 0x66 =>
    if f.func == 0 then some (.qallowGrant h f.q f.g f.kx f.sa f.sb, so && !f.t && f.ky == 0 && f.sc == 0 && f.x == 0)
    else if f.func == 1 then
      some (.qallowRead h f.q f.g f.kx f.sa, so && !f.t && f.ky == 0 && f.sb == 0 && f.sc == 0 && f.x == 0)
    else none
  | 0x67 => if f0 then
      some (.cwait h f.q f.t (decScope f.scope) (decOrd f.order) f.sc (decCVal f)
          (if f.ky.getLsbD 0 then some f.sb else none),
        f.scope.toNat ≤ 5 && !f.g && f.kx == 0 && f.ky.toNat < 2 && cvalOk f && (f.ky.getLsbD 0 || f.sb == 0)) else none
  | 0x68 => if f0 then
      some (.carr h (decScope f.scope) (decOrd f.order) f.sc (decCVal f),
        f.scope.toNat ≤ 5 && f.q == 0 && !f.t && !f.g && noK && f.sb == 0 && cvalOk f) else none
  | 0x69 => if f0 then
      some (.crst h f.sc, so && noK && f.q == 0 && !f.t && !f.g && f.sa == 0 && f.sb == 0 && f.x == 0) else none
  | 0x6A =>
    if f.func == 0 then some (.tbar h none, onlyX && f.x == 0)
    else if f.func == 1 then some (.tbar h (some (f.x.extractLsb' 0 2)), onlyX && f.x.toNat < 4)
    else none
  | 0x6B => if f0 then some (.commit h, onlyX && f.x == 0) else none
  | 0x70 => if f.func.toNat < 2 then
      some (.mma h (f.func == 1) f.g (f.x.getLsbD 6) f.kx f.ky f.sa f.sb slot,
        so && f.q == 0 && !f.t && f.sc == 0 && !f.x.getLsbD 7) else none
  | 0x71 => if f0 then some (.aacq h slot, onlyX && f.x.toNat < 64) else none
  | 0x72 => if f0 then some (.arel h slot, onlyX && f.x.toNat < 64) else none
  | 0x75 => if f0 then some (.azero h slot, onlyX && f.x.toNat < 64) else none
  | 0x78 => if f0 then some (.xcopy h (xargs f), xargsOk f) else none
  | 0x79 =>
    if f.func == 0 then some (.xformDec h (xargs f), xargsOk f)
    else if f.func == 1 then some (.xformPerm h (xargs f), xargsOk f)
    else if f.func == 2 then some (.xformCvt h (xargs f), xargsOk f)
    else if f.func == 3 then some (.xformFill h (xargs f), xargsOk f)
    else none
  | 0x7A => if f0 then some (.xstat h f.sa f.sc,
      so && noK && f.q == 0 && !f.t && !f.g && f.sb == 0 && f.x == 0) else none
  | 0x7B => if f0 then some (.cprun h f.q f.g f.kx f.sa f.sb f.sc, so && !f.t && f.ky == 0 && f.x == 0) else none
  | 0x7C => if f0 then some (.cpstat h f.q f.g f.kx f.sa,
      so && !f.t && f.ky == 0 && f.sb == 0 && f.sc == 0 && f.x == 0) else none
  | 0x7D => if f0 then some (.cpstop h f.q f.g f.kx,
      so && !f.t && f.ky == 0 && f.sa == 0 && f.sb == 0 && f.sc == 0 && f.x == 0) else none
  | _ => none

/-- Words in format OBJ (R74, R275, R364). A nonzero func is at or above the count 0 (R78). -/
def decodeOBJ (major : Nat) (h : Head) (f : OBJF) : Cand :=
  let z := f.z == 0
  if f.func != 0 then none else
  match major with
  | 0x80 => some (.nnew h f.q f.kd f.imm f.sa, z && !f.g && f.ka == 0 && f.sd == 0)
  | 0x81 => some (.nkill h f.q f.g f.ka, z && f.kd == 0 && f.sd == 0 && f.sa == 0 && f.imm == 0)
  | 0x82 => some (.nres h f.q f.g f.ka, z && f.kd == 0 && f.sd == 0 && f.sa == 0 && f.imm == 0)
  | 0x86 => some (.nmov h f.q f.g f.kd f.ka, z && f.sd == 0 && f.sa == 0 && f.imm == 0)
  | 0x87 => some (.ninfo h f.q f.g f.ka f.sd f.imm, z && f.kd == 0 && f.sa == 0)
  | 0x8D => some (.torg h f.q f.sd f.sa, z && !f.g && f.kd == 0 && f.ka == 0 && f.imm == 0)
  | _ => none

/-! ### The opcode map (R77) -/

/-- The formats of R77. -/
inductive Fmt | sr | br | vi | vf | vx | vt | mem | eng | obj
deriving DecidableEq, Repr

/-- Clause classes (R49), code = position. -/
inductive Cls | gen | mem | sync | mat | eng | obj
deriving DecidableEq, Repr

/-- The format and the clause class of each major (R46, R77); `none` is a reserved major. -/
def majorInfo (m : Nat) : Option (Fmt × Cls) :=
  if m ≤ 0x0C then some (.sr, .gen)
  else if m ≤ 0x0E then some (.mem, .mem)
  else if m == 0x0F then none
  else if m ≤ 0x1B then some (.br, .gen)
  else if m ≤ 0x1F then none
  else if m ≤ 0x2E then some (.vi, .gen)
  else if m == 0x2F then none
  else if m ≤ 0x39 then some (.vf, .gen)
  else if m ≤ 0x3B then none
  else if m ≤ 0x3F then some (.vf, .gen)
  else if m ≤ 0x47 then some (.vx, .gen)
  else if m ≤ 0x4F then none
  else if m ≤ 0x55 then some (.mem, .mem)
  else if m ≤ 0x5F then none
  else if m ≤ 0x63 then some (.mem, .mem)
  else if m ≤ 0x6B then some (.eng, .sync)
  else if m ≤ 0x6F then none
  else if m ≤ 0x72 then some (.eng, .mat)
  else if m ≤ 0x74 then some (.mem, .mat)
  else if m == 0x75 then some (.eng, .mat)
  else if m == 0x76 then some (.mem, .mat)
  else if m == 0x77 then none
  else if m ≤ 0x7D then some (.eng, .eng)
  else if m ≤ 0x7F then none
  else if m ≤ 0x82 then some (.obj, .obj)
  else if m ≤ 0x85 then some (.mem, .mem)
  else if m ≤ 0x87 then some (.obj, .obj)
  else if m ≤ 0x8A then some (.vt, .gen)
  else if m ≤ 0x8C then some (.mem, .mem)
  else if m == 0x8D then some (.obj, .obj)
  else if m ≤ 0x8F then none
  else if m ≤ 0x97 then some (.vt, .gen)
  else if m ≤ 0x9A then some (.sr, .gen)
  else if m ≤ 0x9F then none
  else if m ≤ 0xA1 then some (.sr, .gen)
  else if m ≤ 0xA3 then some (.vt, .gen)
  else if m == 0xA4 then some (.sr, .gen)
  else if m == 0xA5 then some (.sr, .gen)
  else none

/-- Majors whose instruction must end its clause (R38): BRA to LBRK, EXIT, YLD, TRAP, TRET. -/
def majorEnds (m : Nat) : Bool := (0x10 ≤ m && m ≤ 0x1B) || m == 0xA0 || m == 0xA1

/-- Why a word is rejected; where both hold, ILLEGAL_OPCODE is reported (R79). -/
inductive DecErr | illegalOpcode | illegalOperand
deriving DecidableEq, Repr

/-- The head of a word (R57). -/
def decHead (f : WordF) : Head := ⟨f.sw, (ruleL[f.rule.toNat]?).getD .blame, f.guard, f.neg⟩

/-- The candidate a word's format gives. -/
def decCand (f : WordF) : Cand :=
  let m := f.major.toNat
  let h := decHead f
  match majorInfo m with
  | none => none
  | some (.sr, _) => decodeSR m h (splitSR f.body)
  | some (.br, _) => decodeBR m h (splitBR f.body)
  | some (.vi, _) => decodeVI m h (splitVR f.body)
  | some (.vf, _) => decodeVF m h (splitVR f.body)
  | some (.vx, _) => decodeVX m h (splitVR f.body)
  | some (.vt, _) => decodeVT m h (splitVR f.body)
  | some (.mem, _) => decodeMEM m h (splitMEM f.body)
  | some (.eng, _) => decodeENG m h (splitENG f.body)
  | some (.obj, _) => decodeOBJ m h (splitOBJ f.body)

/-- The instruction a word stands for, or why it is rejected. -/
def decode (w : Word) : Except DecErr Instr :=
  match decCand (splitWord w) with
  | none => .error .illegalOpcode
  | some (i, ok) =>
    if !i.typeOk then .error .illegalOpcode
    else if ok && i.wf then .ok i
    else .error .illegalOperand

/-! ### Clause headers (R49) -/

/-- The fields of a clause header. -/
structure Header where
  cls   : Cls
  count : Nat          -- instruction words, 1 to 16
  wait  : BitVec 8
  set   : Nat          -- scoreboard slot 0 to 7; 8 to 15 none
deriving DecidableEq, Repr

def clsL : List Cls := [.gen, .mem, .sync, .mat, .eng, .obj]

/-- A clause header, or `none` where R49 faults ILLEGAL_CLAUSE. -/
def decodeHeader (w : Word) : Option Header :=
  if w.extractLsb' 60 4 == 0b1100 && w.extractLsb' 0 40 == 0 then
    (clsL[(w.extractLsb' 56 4).toNat]?).map fun c =>
      ⟨c, (w.extractLsb' 52 4).toNat + 1, w.extractLsb' 44 8, (w.extractLsb' 40 4).toNat⟩
  else none

/-- The words of a header. -/
def encodeHeader (h : Header) : Word :=
  (0b1100 : BitVec 4) ++ codeOf 4 clsL h.cls ++ BitVec.ofNat 4 (h.count - 1) ++ h.wait ++ BitVec.ofNat 4 h.set ++
    (0 : BitVec 40)

/-! ### The encoder -/

def eSR (m : Nat) (h : Head) (f : SRF) : Option (Nat × Head × BitVec 49) := some (m, h, joinSR f)
def eBR (m : Nat) (h : Head) (f : BRF) : Option (Nat × Head × BitVec 49) := some (m, h, joinBR f)
def eVR (m : Nat) (h : Head) (f : VRF) : Option (Nat × Head × BitVec 49) := some (m, h, joinVR f)
def eMEM (m : Nat) (h : Head) (f : MEMF) : Option (Nat × Head × BitVec 49) := some (m, h, joinMEM f)
def eENG (m : Nat) (h : Head) (f : ENGF) : Option (Nat × Head × BitVec 49) := some (m, h, joinENG f)
def eOBJ (m : Nat) (h : Head) (f : OBJF) : Option (Nat × Head × BitVec 49) := some (m, h, joinOBJ f)

def e3 (m : Nat) (h : Head) (func : BitVec 5) (c : BitVec 3) (d a : BitVec 6) (b : SB) : Option (Nat × Head × BitVec 49) :=
  eSR m h ⟨(encSB b).1, func, c, d, a, (encSB b).2⟩

/-- A VR or VI word of two operands and a mod. -/
def eV2 (m : Nat) (h : Head) (func : BitVec 5) (ty : BitVec 3) (vd : BitVec 8) (a : Src) (b : VB) (fm : BitVec 5) :
    Option (Nat × Head × BitVec 49) :=
  match b with
  | .r s => eVR m h ⟨false, func, ty, vd, encSrc a, joinLow (encSrc s) 0 fm⟩
  | .i x => eVR m h ⟨true, func, ty, vd, encSrc a, x⟩

/-- A VR word of three operands and a mod. -/
def eV3 (m : Nat) (h : Head) (func : BitVec 5) (ty : BitVec 3) (vd : BitVec 8) (a b c : BitVec 9) (fm : BitVec 5) :
    Option (Nat × Head × BitVec 49) :=
  eVR m h ⟨false, func, ty, vd, a, joinLow b c fm⟩

/-- A VC word: the destination format stands in func and type (R66). -/
def eVC (m : Nat) (h : Head) (dst : BitVec 8) (vd : BitVec 8) (a b : BitVec 9) (src : BitVec 8) (fm : BitVec 5) :
    Option (Nat × Head × BitVec 49) :=
  eVR m h ⟨false, dst.extractLsb' 3 5, dst.extractLsb' 0 3, vd, a, joinLow b (src.setWidth 9) fm⟩

def tyC (t : VType) : BitVec 3 := codeOf 3 typeL t
def regC (r : BitVec 3) : BitVec 8 := r.setWidth 8

/-- A MEM word. -/
def eM (m : Nat) (h : Head) (func : BitVec 5) (size : BitVec 3) (o : MOrd) (d : BitVec 8) (x : MemOp) :
    Option (Nat × Head × BitVec 49) :=
  eMEM m h ⟨func, size, codeOf 3 scopeL o.scope, codeOf 2 ordL o.order, o.hint, d, x.base, encIdx x.index, x.scale, x.nb, x.off⟩

def d6 (s : BitVec 6) : BitVec 8 := s.setWidth 8
def szC (z : MSize) : BitVec 3 := codeOf 3 sizeL z
def relaxed (hint : BitVec 2) : MOrd := ⟨.dev, .relaxed, hint⟩

/-- XCOPY and XFORM (R288). -/
def eX (m : Nat) (h : Head) (func : BitVec 5) (x : XArgs) : Option (Nat × Head × BitVec 49) :=
  eENG m h ⟨func, x.q, codeOf 3 rndL x.rnd, BitVec.ofBool x.sat ++ (0 : BitVec 1), false, x.g, x.kx, x.ky, x.sa, x.sb, x.sc,
    BitVec.ofBool x.tr ++ BitVec.ofBool x.ts.isSome ++ x.ts.getD 0⟩

def cvX : CVal → BitVec 6 × BitVec 8
  | .r s => (s, 0)
  | .i x => (0, (1 : BitVec 1) ++ x)

/-- Major, head and body of an instruction word; `none` for an event, which has no encoding. -/
def encodeParts : Instr → Option (Nat × Head × BitVec 49)
  | .nop h => eSR 0x00 h ⟨false, 0, 0, 0, 0, 0⟩
  | .smovReg h d a => eSR 0x01 h ⟨false, 0, 0, d, a, 0⟩
  | .smovImm h d x => eSR 0x01 h ⟨true, 1, 0, d, (x.extractLsb' 28 4).setWidth 6, x.extractLsb' 0 28⟩
  | .smovHi h d x => eSR 0x01 h ⟨true, 2, 0, d, (x.extractLsb' 28 4).setWidth 6, x.extractLsb' 0 28⟩
  | .sadd h f d a b => e3 0x02 h (codeOf 5 fitSL f) 0 d a b
  | .ssub h f d a b => e3 0x03 h (codeOf 5 fitSL f) 0 d a b
  | .smul h f d a b => e3 0x04 h (codeOf 5 mulL f) 0 d a b
  | .sdiv h f d a b => e3 0x05 h (codeOf 5 divL f) 0 d a b
  | .slog h f d a b => e3 0x06 h (codeOf 5 logL f) 0 d a b
  | .ssh h f d a b => e3 0x07 h (codeOf 5 shL f) 0 d a b
  | .scmp h f q a b => e3 0x08 h (codeOf 5 scmpL f) 0 (q.setWidth 6) a b
  | .ssel h c d a b => e3 0x09 h 0 c d a b
  | .sbit h f d a w => match w with
    | .none => eSR 0x0A h ⟨false, codeOf 5 sbitL f, 0, d, a, 0⟩
    | .regs b e => eSR 0x0A h ⟨false, codeOf 5 sbitL f, 0, d, a, lowBE b e⟩
    | .imm p x => eSR 0x0A h ⟨true, codeOf 5 sbitL f, 0, d, a, (0 : BitVec 15) ++ x ++ p⟩
  | .sminmax h f d a b => e3 0x0B h (codeOf 5 sminmaxL f) 0 d a b
  | .qlog h f d a b => eSR 0x0C h ⟨false, codeOf 5 qlogL f, 0, d.setWidth 6, a.setWidth 6, lowBE (b.setWidth 6) 0⟩
  | .sld h z o d m => eM 0x0D h 0 (szC z) o (d6 d) m
  | .sst h z o d m => eM 0x0E h 0 (szC z) o (d6 d) m
  | .braCond h q n off => eBR 0x10 h ⟨0, q, n, 0, off⟩
  | .braAlways h off => eBR 0x10 h ⟨1, 0, false, 0, off⟩
  | .brv h p n off => eBR 0x11 h ⟨0, p, n, 0, off⟩
  | .jmpv h v => eBR 0x12 h ⟨0, 0, false, v, 0⟩
  | .call h off => eBR 0x13 h ⟨0, 0, false, 0, off⟩
  | .callv h v => eBR 0x14 h ⟨0, 0, false, v, 0⟩
  | .ret h => eBR 0x15 h ⟨0, 0, false, 0, 0⟩
  | .join h => eBR 0x16 h ⟨0, 0, false, 0, 0⟩
  | .defer h => eBR 0x17 h ⟨0, 0, false, 0, 0⟩
  | .loopScalar h s off => eBR 0x18 h ⟨0, 0, false, s.setWidth 8, off⟩
  | .loopImm h n off => eBR 0x18 h ⟨1, 0, false, n, off⟩
  | .lbrk h n => eBR 0x19 h ⟨0, 0, false, n.setWidth 8, 0⟩
  | .exit h => eBR 0x1A h ⟨0, 0, false, 0, 0⟩
  | .yld h sp n => eBR 0x1B h ⟨0, 0, false, BitVec.setWidth 8 (BitVec.ofBool sp), n.setWidth 32⟩
  | .srd h sc vd r => eV3 0xA2 h 0 (if sc then 1 else 0) vd 0 (r.setWidth 9) 0 0
  | .swr h sc r a => eV3 0xA3 h 0 (if sc then 1 else 0) 0 (encSrc a) (r.setWidth 9) 0 0
  | .vadd h f t vd a b => eV2 0x20 h (codeOf 5 fitVL f) (tyC t) vd a b 0
  | .vsub h f t vd a b => eV2 0x21 h (codeOf 5 fitVL f) (tyC t) vd a b 0
  | .vmul h f t vd a b => eV2 0x22 h (codeOf 5 mulL f) (tyC t) vd a b 0
  | .vmad h t vd a b c => eV3 0x23 h 0 (tyC t) vd (encSrc a) (encSrc b) (encSrc c) 0
  | .vlog h f t vd a b => eV2 0x24 h (codeOf 5 logL f) (tyC t) vd a b 0
  | .vsh h f t vd a b => eV2 0x25 h (codeOf 5 shL f) (tyC t) vd a b 0
  | .vminmax h f t vd a b => eV2 0x26 h (codeOf 5 minmaxL f) (tyC t) vd a b 0
  | .vabs h f t vd a => eV3 0x27 h (codeOf 5 absL f) (tyC t) vd (encSrc a) 0 0 0
  | .vcmp h f t p a b => eV2 0x28 h (codeOf 5 cmpL f) (tyC t) (regC p) a b 0
  | .vsel h t vd a b p => eV3 0x29 h 0 (tyC t) vd (encSrc a) (encSrc b) (p.setWidth 9) 0
  | .vbit h f t vd a => eV3 0x2A h (codeOf 5 vbitL f) (tyC t) vd (encSrc a) 0 0 0
  | .vbfe h t vd a b c => eV3 0x2B h 0 (tyC t) vd (encSrc a) (encSrc b) (encSrc c) 0
  | .vbfi h t vd a b c => eV3 0x2C h 0 (tyC t) vd (encSrc a) (encSrc b) (encSrc c) 0
  | .vmov h t vd f => match f with
    | .reg a => eV3 0x2D h 0 (tyC t) vd (encSrc a) 0 0 0
    | .imm x => eVR 0x2D h ⟨true, 1, tyC t, vd, 0, x⟩
    | .lane => eV3 0x2D h 2 (tyC t) vd 0 0 0 0
    | .scalar r => eV3 0x2D h 3 (tyC t) vd (encSrc (.s r)) 0 0 0
  | .vdiv h f vd a b => eV3 0x2E h (codeOf 5 divL f) 0 vd (encSrc a) (encSrc b) 0 0
  | .fadd h t vd a b m => eV2 0x30 h 0 (tyC t) vd a b (encMod m)
  | .fsub h t vd a b m => eV2 0x31 h 0 (tyC t) vd a b (encMod m)
  | .fmul h t vd a b m => eV2 0x32 h 0 (tyC t) vd a b (encMod m)
  | .ffma h f t vd a b c m => eV3 0x33 h (codeOf 5 fmaL f) (tyC t) vd (encSrc a) (encSrc b) (encSrc c) (encMod m)
  | .fminmax h f t vd a b => eV2 0x34 h (codeOf 5 fminmaxL f) (tyC t) vd a b 0
  | .fcmp h f t p a b => eV2 0x35 h (codeOf 5 fcmpL f) (tyC t) (regC p) a b 0
  | .fcls h t p a x => eVR 0x36 h ⟨true, 0, tyC t, regC p, encSrc a, x.setWidth 23⟩
  | .fdot h f vd a b c m => match f with
    | .f16 => eV3 0x37 h 0 2 vd (encSrc a) (encSrc b) (encSrc c) (encMod m)
    | .bf16 => eV3 0x37 h 1 2 vd (encSrc a) (encSrc b) (encSrc c) (encMod m)
    | .b8 x => eV3 0x37 h 2 x vd (encSrc a) (encSrc b) (encSrc c) (encMod m)
  | .sfu h f vd a b z => eV3 0x38 h (codeOf 5 sfuL f) 2 vd (encSrc a) (encSrc b) 0 (encMod ⟨.rn, z, false⟩)
  | .rng h f vd => match f with
    | .raw => eV3 0x39 h 0 1 vd 0 0 0 0
    | .unif => eV3 0x39 h 1 2 vd 0 0 0 0
  | .cvt h dst vd a src m => eVC 0x3C h dst vd (encSrc a) 0 src (encMod m)
  | .cvtp h dst vd a b src rnd hi sat => eVC 0x3D h dst vd (encSrc a) (encSrc b) src (encMod ⟨rnd, hi, sat⟩)
  | .cvtx h dst vd a b src m => eVC 0x3E h dst vd (encSrc a) (encSrc b) src (encMod m)
  | .fscl h f vd a => match f with
    | .apply t b m => eV3 0x3F h 0 (tyC t) vd (encSrc a) (encSrc b) 0 (encMod m)
    | .comp x => eV3 0x3F h 1 x vd (encSrc a) 0 0 0
  | .vbal h vd a b => eV3 0x40 h 0 1 vd (encSrc a) (encSrc b) 0 0
  | .vvote h f d p => eV3 0x41 h (codeOf 5 voteL f) (if f == .count then 1 else 0) d (p.setWidth 9) 0 0 0
  | .vshfl h f t vd a b => eV3 0x42 h (codeOf 5 shflL f) (tyC t) vd (encSrc a) (encSrc b) 0 0
  | .vxch h vd a b c => eV3 0x43 h 0 1 vd (encSrc a) (encSrc b) (encSrc c) 0
  | .vreduce h f t vd a m => eV3 0x44 h (codeOf 5 redL f) (tyC t) vd (encSrc a) 0 0 (encMod m)
  | .vscan h f t vd a sat => eV3 0x45 h (codeOf 5 scanL f) (tyC t) vd (encSrc a) 0 0 (BitVec.setWidth 5 (BitVec.ofBool sat))
  | .vmatch h vd a => eV3 0x46 h 0 1 vd (encSrc a) 0 0 0
  | .vlane h f t vd a b => eV3 0x47 h (codeOf 5 vlaneL f) (tyC t) vd (encSrc a) (encSrc b) 0 0
  | .vld h z o d m => eM 0x50 h 0 (szC z) o d m
  | .vst h z o d m => eM 0x51 h 0 (szC z) o d m
  | .pref h hint m => eM 0x52 h 0 0 (relaxed hint) 0 m
  | .probe h z p m => eM 0x53 h 0 (szC z) (relaxed 0) (regC p) m
  | .bankcfg h q sb mode => eMEM 0x54 h ⟨0, 0, 0, 0, 0, regC q, sb, 320, 0, false, codeOf 7 bankL mode⟩
  | .iinv h m => eM 0x55 h 0 0 (relaxed 0) 0 m
  | .atom h f z o d m => eM 0x60 h (codeOf 5 atomL f) (szC z) o d m
  | .acas h z o d m => eM 0x61 h 0 (szC z) o d m
  | .red h f z o d m => eM 0x62 h (codeOf 5 redML f) (szC z) o d m
  | .fence h sc o => eMEM 0x63 h ⟨0, 0, codeOf 3 scopeL sc, codeOf 2 ordL o, 0, 0, 0, 0, 0, true, 0⟩
  | .qpush h q t g kx sa => eENG 0x64 h ⟨0, q, 0, 0, t, g, kx, 0, sa, 0, 0, 0⟩
  | .qpop h q t g kx sa => eENG 0x65 h ⟨0, q, 0, 0, t, g, kx, 0, sa, 0, 0, 0⟩
  | .qallowGrant h q g kx sa sb => eENG 0x66 h ⟨0, q, 0, 0, false, g, kx, 0, sa, sb, 0, 0⟩
  | .qallowRead h q g kx sa => eENG 0x66 h ⟨1, q, 0, 0, false, g, kx, 0, sa, 0, 0, 0⟩
  | .cwait h q t sc o cell x tmo => eENG 0x67 h ⟨0, q, codeOf 3 scopeL sc, codeOf 2 ordL o, t, false, 0,
      BitVec.setWidth 4 (BitVec.ofBool tmo.isSome), (cvX x).1, tmo.getD 0, cell, (cvX x).2⟩
  | .carr h sc o cell x => eENG 0x68 h ⟨0, 0, codeOf 3 scopeL sc, codeOf 2 ordL o, false, false, 0, 0, (cvX x).1, 0, cell, (cvX x).2⟩
  | .crst h cell => eENG 0x69 h ⟨0, 0, 0, 0, false, false, 0, 0, 0, 0, cell, 0⟩
  | .tbar h r => match r with
    | none => eENG 0x6A h ⟨0, 0, 0, 0, false, false, 0, 0, 0, 0, 0, 0⟩
    | some n => eENG 0x6A h ⟨1, 0, 0, 0, false, false, 0, 0, 0, 0, 0, n.setWidth 8⟩
  | .commit h => eENG 0x6B h ⟨0, 0, 0, 0, false, false, 0, 0, 0, 0, 0, 0⟩
  | .mma h sc g pop kx ky sa sb slot => eENG 0x70 h ⟨if sc then 1 else 0, 0, 0, 0, false, g, kx, ky, sa, sb, 0,
      (0 : BitVec 1) ++ BitVec.ofBool pop ++ slot⟩
  | .aacq h slot => eENG 0x71 h ⟨0, 0, 0, 0, false, false, 0, 0, 0, 0, 0, slot.setWidth 8⟩
  | .arel h slot => eENG 0x72 h ⟨0, 0, 0, 0, false, false, 0, 0, 0, 0, 0, slot.setWidth 8⟩
  | .ald h o slot m => eM 0x73 h 0 0 o (d6 slot) m
  | .ast h o slot m => eM 0x74 h 0 0 o (d6 slot) m
  | .azero h slot => eENG 0x75 h ⟨0, 0, 0, 0, false, false, 0, 0, 0, 0, 0, slot.setWidth 8⟩
  | .adrnStore h o slot m => eM 0x76 h 0 0 o (d6 slot) m
  | .adrnFadd h o slot m => eM 0x76 h 1 0 o (d6 slot) m
  | .xcopy h x => eX 0x78 h 0 x
  | .xformDec h x => eX 0x79 h 0 x
  | .xformPerm h x => eX 0x79 h 1 x
  | .xformCvt h x => eX 0x79 h 2 x
  | .xformFill h x => eX 0x79 h 3 x
  | .xstat h sa sc => eENG 0x7A h ⟨0, 0, 0, 0, false, false, 0, 0, sa, 0, sc, 0⟩
  | .cprun h q g kx sa sb sc => eENG 0x7B h ⟨0, q, 0, 0, false, g, kx, 0, sa, sb, sc, 0⟩
  | .cpstat h q g kx sa => eENG 0x7C h ⟨0, q, 0, 0, false, g, kx, 0, sa, 0, 0, 0⟩
  | .cpstop h q g kx => eENG 0x7D h ⟨0, q, 0, 0, false, g, kx, 0, 0, 0, 0, 0⟩
  | .nnew h q kd cls sa => eOBJ 0x80 h ⟨0, q, false, kd, 0, 0, sa, cls, 0⟩
  | .nkill h q g ka => eOBJ 0x81 h ⟨0, q, g, 0, ka, 0, 0, 0, 0⟩
  | .nres h q g ka => eOBJ 0x82 h ⟨0, q, g, 0, ka, 0, 0, 0, 0⟩
  | .nmov h q g kd ka => eOBJ 0x86 h ⟨0, q, g, kd, ka, 0, 0, 0, 0⟩
  | .ninfo h q g ka sd item => eOBJ 0x87 h ⟨0, q, g, 0, ka, sd, 0, item, 0⟩
  | .nld h q o kd m => eM 0x83 h 0 q o (kd ++ (0 : BitVec 4)) m
  | .nst h q o kx m => eM 0x84 h 0 q o (kx ++ (0 : BitVec 4)) m
  | .ncas h live q o kn ke m => eM 0x85 h (if live then 1 else 0) q o (kn ++ ke) m
  | .tget h vd a => eV3 0x88 h 0 1 vd (encSrc a) 0 0 0
  | .tset h vd f => match f with
    | .reg a => eV3 0x89 h 0 1 vd (encSrc a) 0 0 0
    | .born => eV3 0x89 h 1 1 vd 0 0 0 0
    | .clre => eV3 0x89 h 2 1 vd 0 0 0 0
  | .tchk h t a => eV3 0x8A h 0 (tyC t) 0 (encSrc a) 0 0 0
  | .tldg h o d m => eM 0x8B h 0 4 o d m
  | .tstg h o d m => eM 0x8C h 0 4 o d m
  | .torg h q sd sa => eOBJ 0x8D h ⟨0, q, false, 0, 0, sd, sa, 0, 0⟩
  | .rvmul h t vd a b rnd => eV3 0x90 h 0 (tyC t) vd (encSrc a) (encSrc b) 0 (encMod ⟨rnd, false, false⟩)
  | .rvadd h vd a b rnd => eV3 0x91 h 0 2 vd (encSrc a) (encSrc b) 0 (encMod ⟨rnd, false, false⟩)
  | .rvnar h fmt vd a rnd sat => eVC 0x92 h fmt vd (encSrc a) 0 0 (encMod ⟨rnd, false, sat⟩)
  | .rvmax0 h vd a => eV3 0x93 h 0 2 vd (encSrc a) 0 0 0
  | .unmul h t vd a b => eV3 0x94 h 0 (tyC t) vd (encSrc a) (encSrc b) 0 0
  | .unadd h vd a b => eV3 0x95 h 0 2 vd (encSrc a) (encSrc b) 0 0
  | .unnar h fmt vd a => eVC 0x96 h fmt vd (encSrc a) 0 0 0
  | .unmax0 h vd a => eV3 0x97 h 0 2 vd (encSrc a) 0 0 0
  | .slmark h id => eSR 0x98 h ⟨true, 0, 0, 0, 0, id.setWidth 28⟩
  | .sldrop h id => eSR 0x99 h ⟨true, 0, 0, 0, 0, id.setWidth 28⟩
  | .sldepth h d => eSR 0x9A h ⟨false, 0, 0, d, 0, 0⟩
  | .trap h x => eSR 0xA0 h ⟨true, 0, 0, 0, 0, x.setWidth 28⟩
  | .tret h => eSR 0xA1 h ⟨false, 0, 0, 0, 0, 0⟩
  | .brk h => eSR 0xA5 h ⟨false, 0, 0, 0, 0, 0⟩
  | .launch h a => eSR 0xA4 h ⟨false, 0, 0, 0, a, 0⟩
  | _ => none

/-- The word of an instruction; `none` for an event. -/
def encode (i : Instr) : Option Word :=
  (encodeParts i).map fun (m, h, body) =>
    joinWord ⟨BitVec.ofNat 8 m, h.sw, codeOf 2 ruleL h.rule, h.guard, h.neg, body⟩

/-- An instruction word (not an event). -/
def Instr.isWord (i : Instr) : Bool := (encodeParts i).isSome

/-- The clause class an instruction word belongs to (R46, R50). -/
def Instr.cls (i : Instr) : Cls :=
  match encodeParts i with
  | some (m, _, _) => ((majorInfo m).map Prod.snd).getD .gen
  | none => .gen

/-- The major of an instruction word. -/
def Instr.major (i : Instr) : Nat := ((encodeParts i).map Prod.fst).getD 0

/-! ### The host's reading of a word -/

/-- The eight bytes of a word, least significant first (R3). -/
def wordBytes (w : Word) : List Byte := (List.range 8).map fun k => w.extractLsb' (8 * k) 8

/-- The word of eight bytes, the first least significant (R3); missing bytes are 0. -/
def bytesWord (l : List Byte) : Word :=
  (List.range 8).foldl (fun acc k => acc ||| (((l[k]?).getD 0).setWidth 64 <<< (8 * k))) 0

/-- The instruction the decoder reads from the low 64 bits of `w`, laid out little-endian (R3). -/
def decodeTableWord (_nbits w : Nat) : Option Instr :=
  match decode (bytesWord (wordBytes (BitVec.ofNat 64 w))) with
  | .ok i => some i
  | .error _ => none

end Sys2Proof
end

