-- ==== Sys2Proof/Machine/Num.lean ====
section
/-! DEFINITION. Number formats, rounding and conversions (05_formats R108 to R125), floating-point operations
(04_vector R92 to R98), the SFU functions (R100), the draw (R103) and the monitor (R105, R107). Codes are
natural numbers; every operation forms an exact value and rounds it once. -/

namespace Sys2Proof.Machine

open Sys2Proof

/-- The families of formats (R108 to R111). -/
inductive NK
  | ieee
  | b8 (signed ext : Bool)
  | int (signed : Bool)
  | x8
deriving DecidableEq, Repr

/-- A format: width, fraction width, bias and family. -/
structure NF where
  w    : Nat
  fb   : Nat
  bias : Nat
  kind : NK
deriving DecidableEq, Repr

def NF.f64 : NF := ⟨64, 52, 1023, .ieee⟩
def NF.f32 : NF := ⟨32, 23, 127, .ieee⟩
def NF.f16 : NF := ⟨16, 10, 15, .ieee⟩
def NF.bf16 : NF := ⟨16, 7, 127, .ieee⟩
def NF.x8 : NF := ⟨8, 0, 127, .x8⟩
def NF.int (w : Nat) (signed : Bool) : NF := ⟨w, 0, 0, .int signed⟩

/-- A binary8 format of precision `p` (R109). -/
def NF.b8 (p : Nat) (signed ext : Bool) : NF :=
  ⟨8, p - 1, 2 ^ ((if signed then 7 else 8) - p), .b8 signed ext⟩

/-- The format of a code of R112. -/
def fmtOf (c : BitVec 8) : NF :=
  match c.toNat with
  | 0x01 => .f64 | 0x02 => .f32 | 0x03 => .f16 | 0x04 => .bf16 | 0x05 => .x8
  | 0x08 => .int 8 true | 0x09 => .int 8 false | 0x0A => .int 16 true | 0x0B => .int 16 false
  | 0x0C => .int 32 true | 0x0D => .int 32 false | 0x0E => .int 64 true | 0x0F => .int 64 false
  | n => if n < 0x48 then .b8 (n - 0x40) true false else if n < 0x50 then .b8 (n - 0x48) true true
         else if n < 0x58 then .b8 (n - 0x50) false false else .b8 (n - 0x58) false true

/-- The eight format numbers of FDOT .b8 and FSCL .comp (R67). -/
def fmt8 (x : BitVec 3) : NF :=
  match x.toNat with
  | 0 => .b8 3 true false | 1 => .b8 3 true true | 2 => .b8 4 true false | 3 => .b8 4 true true
  | 4 => .b8 5 true false | 5 => .b8 5 true true | _ => .b8 4 false false

/-- Formats tile operations implement natively (R113): all but the binary8 codes the rule does not list. -/
def nativeFmt (c : BitVec 8) : Bool :=
  let n := c.toNat
  n < 0x40 || (0x43 ≤ n && n ≤ 0x45) || (0x4B ≤ n && n ≤ 0x4D) || n == 0x54

def NF.floating (f : NF) : Bool :=
  match f.kind with
  | .ieee | .b8 .. => true
  | _ => false

/-- The format has a sign bit. -/
def NF.signed (f : NF) : Bool :=
  match f.kind with
  | .ieee => true
  | .b8 s _ => s
  | .int s => s
  | .x8 => false

/-- Code of the infinity's magnitude, for a format that has one. -/
def NF.infMag (f : NF) : Option Nat :=
  match f.kind with
  | .ieee => some ((2 ^ (f.w - 1 - f.fb) - 1) * 2 ^ f.fb)
  | .b8 s true => some (if s then 0x7F else 0xFE)
  | _ => none

/-- Code of the largest finite magnitude (R108, R110). -/
def NF.maxMag (f : NF) : Nat :=
  match f.kind with
  | .ieee => (2 ^ (f.w - 1 - f.fb) - 1) * 2 ^ f.fb - 1
  | .b8 true e => if e then 0x7E else 0x7F
  | .b8 false e => if e then 0xFD else 0xFE
  | .int s => if s then 2 ^ (f.w - 1) - 1 else 2 ^ f.w - 1
  | .x8 => 0xFE

/-- The default NaN (R92, R110, R111). -/
def NF.nan (f : NF) : Nat :=
  match f.kind with
  | .ieee => (2 ^ (f.w - 1 - f.fb) - 1) * 2 ^ f.fb + 2 ^ (f.fb - 1)
  | .b8 s _ => if s then 0x80 else 0xFF
  | .int _ => 0
  | .x8 => 0xFF

/-- A decoded value: a NaN with its sign and fraction, an infinity, or (-1)^neg · m · 2^e. -/
inductive FV
  | nan (neg : Bool) (pay : Nat)
  | inf (neg : Bool)
  | fin (neg : Bool) (m : Nat) (e : Int)
deriving DecidableEq, Repr

def signBit (f : NF) (neg : Bool) : Nat := if neg && f.signed then 2 ^ (f.w - 1) else 0

/-- Two's-complement reading of `w` bits. -/
def sgn (w x : Nat) : Int := if x % 2 ^ w < 2 ^ (w - 1) then (x % 2 ^ w : Nat) else ((x % 2 ^ w : Nat) : Int) - 2 ^ w

/-- The `w` low bits of an integer. -/
def wrapN (w : Nat) (x : Int) : Nat := (x % (2 ^ w : Int)).toNat

/-- Decoding (R108 to R111). A binary8 NaN has no sign and no payload. -/
def decF (f : NF) (x0 : Nat) : FV :=
  let x := x0 % 2 ^ f.w
  let fin (neg : Bool) (mag : Nat) : FV :=
    let e := mag / 2 ^ f.fb
    let fr := mag % 2 ^ f.fb
    if e == 0 then .fin neg fr (1 - (f.bias : Int) - f.fb)
    else .fin neg (fr + 2 ^ f.fb) ((e : Int) - f.bias - f.fb)
  match f.kind with
  | .ieee =>
    let neg := x ≥ 2 ^ (f.w - 1)
    let mag := x % 2 ^ (f.w - 1)
    let im := f.maxMag + 1
    if mag == im then .inf neg else if mag > im then .nan neg (mag - im) else fin neg mag
  | .b8 true e =>
    if x == 0x80 then .nan false 0
    else if e && x % 128 == 0x7F then .inf (x ≥ 128)
    else fin (x ≥ 128) (x % 128)
  | .b8 false e => if x == 0xFF then .nan false 0 else if e && x == 0xFE then .inf false else fin false x
  | .int true => let v := sgn f.w x; .fin (v < 0) v.natAbs 0
  | .int false => .fin false x 0
  | .x8 => if x == 0xFF then .nan false 0 else .fin false 1 ((x : Int) - 127)

def FV.isNan : FV → Bool
  | .nan .. => true
  | _ => false

def FV.special : FV → Bool
  | .fin .. => false
  | _ => true

def FV.neg : FV → FV
  | .nan n p => .nan n p
  | .inf n => .inf !n
  | .fin n m e => .fin (!n) m e

/-- NaN or infinite in a floating format. -/
def specialF (f : NF) (x : Nat) : Bool := f.kind != .int true && f.kind != .int false && (decF f x).special

/-- How an operation rounds: mode, saturation, and the stochastic field of `b` bits (R114 to R116). -/
structure Rd where
  mode : Rnd
  sat  : Bool
  d    : Nat
  b    : Nat
deriving DecidableEq, Repr

def rne : Rd := ⟨.rn, false, 0, 0⟩

def two (e : Int) : Nat := 2 ^ e.toNat

/-- floor(log2 (num / den · 2^e)) for positive num, den. -/
def log2q (num den : Nat) (e : Int) : Int :=
  let l : Int := (Nat.log2 num : Int) - Nat.log2 den
  (if num * two (-l) ≥ den * two l then l else l - 1) + e

/-- The zero of a sign; binary8 and integers have one zero (R110). -/
def zeroF (f : NF) (neg : Bool) : Nat :=
  match f.kind with
  | .ieee => signBit f neg
  | _ => 0

/-- overflow(F, sign, mode) (R115). -/
def overflowF (f : NF) (rd : Rd) (neg : Bool) : Nat :=
  match f.infMag with
  | none => signBit f neg + f.maxMag
  | some im =>
    let toInf := !rd.sat && match rd.mode with
      | .rn | .rs => true
      | .rz => false
      | .rd => neg
      | .ru => !neg
    signBit f neg + (if toInf then im else f.maxMag)

/-- Whether an inexact magnitude goes away from zero: `rem / den` beyond lo, hi past the range, lo's code odd (R114). -/
def roundUp (rd : Rd) (neg hiBeyond odd : Bool) (rem den : Nat) : Bool :=
  rem != 0 && match rd.mode with
    | .rn => 2 * rem > den || (2 * rem == den && (hiBeyond || odd))
    | .rz => false
    | .rd => neg
    | .ru => !neg
    | .rs => rd.d < 2 ^ rd.b * rem / den

/-- round_mode of num / den · 2^e with its sign (R114); the flag is overflow, a clamp, or a negative
value written to an unsigned binary8 (R120). -/
def roundTo (f : NF) (rd : Rd) (neg : Bool) (num den : Nat) (e : Int) : Nat × Bool :=
  if num == 0 then (zeroF f neg, false)
  else
    match f.kind with
    | .int s =>
      let n := num * two e
      let dd := den * two (-e)
      let lo := n / dd
      let lim : Nat := if neg then (if s then 2 ^ (f.w - 1) else 0) else f.maxMag
      let z := if roundUp rd neg (lo + 1 > lim) (lo % 2 == 1) (n % dd) dd then lo + 1 else lo
      let c := if z > lim then lim else z
      (wrapN f.w (if neg then -(c : Int) else c), z > lim)
    | _ =>
      let emin : Int := 1 - (f.bias : Int)
      let l := log2q num den e
      let q : Int := (if l < emin then emin else l) - f.fb
      let n := num * two (e - q)
      let dd := den * two (q - e)
      let base := (q - (emin - f.fb)).toNat * 2 ^ f.fb
      let lo := base + n / dd
      let c := if roundUp rd neg (lo + 1 > f.maxMag) (lo % 2 == 1) (n % dd) dd then lo + 1 else lo
      if c == 0 then (zeroF f neg, false)
      else if neg && !f.signed then (if rd.sat then 0 else f.nan, true)
      else if c > f.maxMag then (overflowF f rd neg, true)
      else (signBit f neg + c, false)

/-! ### Exact sums (R117) -/

/-- An exact result: its class, and for a finite nonzero one its sign, magnitude and exponent. -/
inductive XV
  | nan
  | inf (neg : Bool)
  | zero (neg : Bool)
  | fin (neg : Bool) (m : Nat) (e : Int)
deriving DecidableEq, Repr

/-- The product of two values; 0 × ∞ is invalid. -/
def FV.mul : FV → FV → FV
  | .nan n p, _ => .nan n p
  | _, .nan n p => .nan n p
  | .inf a, .inf b => .inf (a != b)
  | .inf a, .fin b m _ => if m == 0 then .nan false 0 else .inf (a != b)
  | .fin a m _, .inf b => if m == 0 then .nan false 0 else .inf (a != b)
  | .fin a m e, .fin b n x => .fin (a != b) (m * n) (e + x)

/-- The least exponent among finite terms. -/
def minExp : List FV → Int → Int
  | [], k => k
  | .fin _ _ e :: r, k => minExp r (if e < k then e else k)
  | _ :: r, k => minExp r k

def termAt (k : Int) : FV → Int
  | .fin n m e => (if n then -1 else 1) * (m * two (e - k) : Nat)
  | _ => 0

/-- A finite term is a zero of the given sign. -/
def FV.zeroOf (neg : Bool) : FV → Bool
  | .fin n m _ => m == 0 && n == neg
  | _ => false

def FV.infOf (neg : Bool) : FV → Bool
  | .inf n => n == neg
  | _ => false

/-- exact_sum, with infinities of both signs invalid (R92, R98, R117). -/
def exactSum (mode : Rnd) (ts : List FV) : XV :=
  if ts.any FV.isNan || (ts.any (FV.infOf true) && ts.any (FV.infOf false)) then .nan
  else if ts.any (FV.infOf true) then .inf true
  else if ts.any (FV.infOf false) then .inf false
  else
    let k := minExp ts 0
    let s := ts.foldl (fun acc t => acc + termAt k t) 0
    if s == 0 then
      if ts.all (FV.zeroOf false) then .zero false
      else if ts.all (FV.zeroOf true) then .zero true
      else .zero (mode == .rd)
    else .fin (s < 0) s.natAbs k

/-- Rounding an exact result; the flag says whether rounding overflowed. -/
def roundXV (f : NF) (rd : Rd) : XV → Nat × Bool
  | .nan => (f.nan, true)
  | .inf n => match f.infMag with
    | some im => (signBit f n + im, true)
    | none => (overflowF f rd n, true)
  | .zero n => (zeroF f n, false)
  | .fin n m e => roundTo f rd n m 1 e

/-! ### Floating-point operations -/

def subnormalF (f : NF) (x : Nat) : Bool :=
  match decF f x with
  | .fin _ m _ => m != 0 && m < 2 ^ f.fb
  | _ => false

def negF (f : NF) (x : Nat) : Bool :=
  match decF f x with
  | .nan n _ => n
  | .inf n => n
  | .fin n _ _ => n

/-- flush_ftz (R117). -/
def flushF (f : NF) (x : Nat) : Nat := if f.floating && subnormalF f x then zeroF f (negF f x) else x

def ftzIf (z : Bool) (f : NF) (x : Nat) : Nat := if z then flushF f x else x

/-- quiet (R92, R117). -/
def quietF (f : NF) (x : Nat) : Nat :=
  match f.kind with
  | .ieee => x ||| 2 ^ (f.fb - 1)
  | _ => f.nan

/-- The exact value of each operation as the terms of one sum (R92). -/
inductive FpOp
  | add | sub | mul
  | fma (np nc : Bool)
deriving DecidableEq, Repr

def FpOp.terms : FpOp → List FV → List FV
  | .add, [a, b] => [a, b]
  | .sub, [a, b] => [a, b.neg]
  | .mul, [a, b] => [a.mul b]
  | .fma np nc, [a, b, c] =>
    let p := a.mul b
    [if np then p.neg else p, if nc then c.neg else c]
  | _, l => l

/-- The first NaN of a list of codes, quieted. -/
def firstNan (f : NF) : List Nat → Option Nat
  | [] => none
  | x :: r => if (decF f x).isNan then some (quietF f x) else firstNan f r

/-- The exact result of an operation, NaN when an operand is NaN or the operation invalid. -/
def fpExact (f : NF) (rd : Rd) (ftz : Bool) (op : FpOp) (xs : List Nat) : XV :=
  let ys := xs.map (fun x => decF f (ftzIf ftz f x))
  if ys.any FV.isNan then .nan else exactSum rd.mode (op.terms ys)

/-- One element of FADD, FSUB, FMUL or FFMA (R92): the code, and whether it is exceptional (R83). -/
def fpElem (f : NF) (rd : Rd) (ftz : Bool) (op : FpOp) (xs : List Nat) : Nat × Bool :=
  match firstNan f xs with
  | some z => (z, true)
  | none =>
    let (z, ovf) := roundXV f rd (fpExact f rd ftz op xs)
    (ftzIf ftz f z, ovf || specialF f z)

/-- FDOT's exact sum over element pairs and the addend (R98). -/
def dotExact (ef : NF) (rd : Rd) (ftz : Bool) (a b : List Nat) (c : Nat) : XV :=
  let g := fun x => decF ef (ftzIf ftz ef x)
  let ys := a.map g ++ b.map g
  let cv := decF .f32 (ftzIf ftz .f32 c)
  if ys.any FV.isNan || cv.isNan then .nan
  else exactSum rd.mode ((List.zipWith (fun x y => (g x).mul (g y)) a b) ++ [cv])

def dotElem (ef : NF) (rd : Rd) (ftz : Bool) (a b : List Nat) (c : Nat) : Nat × Bool :=
  let (z, ovf) := roundXV .f32 rd (dotExact ef rd ftz a b c)
  (ftzIf ftz .f32 z, ovf || specialF .f32 z)

/-- -1, 0 or 1 as a < b, a = b or a > b; operands are not NaN; the zeros compare equal. -/
def cmpFV : FV → FV → Int
  | .inf a, .inf b => if a == b then 0 else if a then -1 else 1
  | .inf a, _ => if a then -1 else 1
  | _, .inf b => if b then 1 else -1
  | .fin a m e, .fin b n x =>
    let k := if e < x then e else x
    let d := termAt k (.fin a m e) - termAt k (.fin b n x)
    if d < 0 then -1 else if d > 0 then 1 else 0
  | _, _ => 0

/-- `a` is below `b`, with −0 below +0 (R94). -/
def belowF (f : NF) (a b : Nat) : Bool :=
  let c := cmpFV (decF f a) (decF f b)
  c < 0 || (c == 0 && negF f a && !negF f b)

def absF (f : NF) (x : Nat) : Nat := x % 2 ^ (f.w - 1)

/-- FMINMAX (R94); the flag is a NaN or infinite result (R83). -/
def minmaxElem (f : NF) (op : FMinMaxF) (a b : Nat) : Nat × Bool :=
  let na := (decF f a).isNan
  let nb := (decF f b).isNan
  let q := (firstNan f [a, b]).getD 0
  let mn := if belowF f b a then b else a
  let mx := if belowF f a b then b else a
  let z := match op with
    | .min => if na || nb then q else mn
    | .max => if na || nb then q else mx
    | .minnum => if na && nb then q else if na then b else if nb then a else mn
    | .maxnum => if na && nb then q else if na then b else if nb then a else mx
    | .maxabs => if na || nb then q else if belowF f (absF f a) (absF f b) then absF f b else absF f a
  (z, specialF f z)

/-- FCMP's relations (R95). -/
def cmpElem (f : NF) (op : FCmpF) (a b : Nat) : Bool :=
  let x := decF f a
  let y := decF f b
  let un := x.isNan || y.isNan
  let c := cmpFV x y
  match op with
  | .eq => !un && c == 0
  | .ne => !un && c != 0
  | .lt => !un && c < 0
  | .le => !un && c ≤ 0
  | .gt => !un && c > 0
  | .ge => !un && c ≥ 0
  | .un => un
  | .ueq => un || c == 0
  | .une => un || c != 0
  | .ult => un || c < 0
  | .ule => un || c ≤ 0
  | .ugt => un || c > 0
  | .uge => un || c ≥ 0

/-- The class bit of R96. -/
def classF (f : NF) (x : Nat) : Nat :=
  match decF f x with
  | .nan _ p => if p ≥ 2 ^ (f.fb - 1) then 1 else 0
  | .inf n => if n then 2 else 9
  | .fin n m _ =>
    if m == 0 then (if n then 5 else 6)
    else if m < 2 ^ f.fb then (if n then 4 else 7)
    else (if n then 3 else 8)

/-! ### Conversions (R120) -/

/-- A value in the destination format, and whether the conversion is exceptional; `sfb` is the source's fraction
width, `real` says that the value need not be an integer. -/
def convertFV (sfb : Nat) (real : Bool) (dst : NF) (rd : Rd) (a : FV) : Nat × Bool :=
  match dst.kind with
  | .int s =>
    match a with
    | .nan .. => (0, true)
    | .inf n => (if n then (if s then 2 ^ (dst.w - 1) else 0) else dst.maxMag, true)
    | .fin n m e =>
      if real then roundTo dst rd n m 1 e
      else if rd.sat then roundTo dst rne n m 1 0
      else (wrapN dst.w (if n then -(m : Int) else m), false)
  | _ =>
    match a with
    | .nan n p =>
      if dst.kind == .ieee then
        let pay := if sfb ≥ dst.fb then p / 2 ^ (sfb - dst.fb) else p * 2 ^ (dst.fb - sfb)
        (signBit dst n + (dst.nan ||| pay), true)
      else (dst.nan, true)
    | .inf n =>
      if n && !dst.signed then (if rd.sat then 0 else dst.nan, true)
      else match dst.infMag with
        | some im => (signBit dst n + im, true)
        | none => (if rd.sat then signBit dst n + dst.maxMag else dst.nan, true)
    | .fin n m e => roundTo dst rd n m 1 e

/-- convert: the code in the destination format and whether it is exceptional. -/
def convertF (src dst : NF) (rd : Rd) (ftz : Bool) (x : Nat) : Nat × Bool :=
  let a := decF src (ftzIf (ftz && src.floating) src x)
  let (z, exc) := convertFV src.fb src.floating dst rd a
  (match a with
  | .fin .. => if dst.floating then ftzIf ftz dst z else z
  | _ => z, exc)

/-- The placement of a narrow code in a 32-bit lane (R120). -/
def placeF (dst : NF) (z : Nat) : Nat :=
  if dst.w ≥ 32 then z
  else match dst.kind with
    | .int true => wrapN 32 (sgn dst.w z)
    | _ => z % 2 ^ dst.w

/-- FSCL .apply (R124), one element. -/
def scaleElem (f : NF) (rd : Rd) (a x : Nat) : Nat × Bool :=
  if x % 256 == 0xFF then (f.nan, true)
  else match decF f a with
    | .nan .. => (quietF f a, true)
    | .inf _ => (a, true)
    | .fin n m e => if m == 0 then (a, false) else roundTo f rd n m 1 (e + (x % 256 : Nat) - 127)

/-- The largest finite value of a format as m · 2^e. -/
def maxVal (f : NF) : Nat × Int :=
  match decF f f.maxMag with
  | .fin _ m e => (m, e)
  | _ => (0, 0)

/-- m1 · 2^e1 ≤ m2 · 2^e2. -/
def leScaled (m1 : Nat) (e1 : Int) (m2 : Nat) (e2 : Int) : Bool := m1 * two (e1 - e2) ≤ m2 * two (e2 - e1)

/-- The decode scale of FSCL .comp for an absolute maximum m · 2^e (R124). -/
def decScale (f : NF) (m : Nat) (e : Int) : Nat :=
  if m == 0 then 127
  else
    let (fm, fe) := maxVal f
    let k0 : Int := (Nat.log2 m : Int) + e - Nat.log2 fm - fe
    let k := if leScaled m e fm (fe + k0) then k0 else k0 + 1
    let y := 127 + k
    if y < 0 then 0 else if y > 254 then 254 else y.toNat

/-- FSCL .comp: the two scales of a block whose absolute maximum is `a`. -/
def scaleComp (f : NF) (a : Nat) : Nat × Bool :=
  match decF .f32 a with
  | .fin _ m e => let x := decScale f m e; ((254 - x) * 256 + x, false)
  | _ => (0xFFFF, true)

/-! ### Random draws (R103) -/

/-- The draw of key `k`, stream `w` and counter `c`. -/
def drawOf (k w c : Word) : Lane32 :=
  let m1 : Word := 0x9F1B6C3D5A27E4C5
  let m2 : Word := 0xB5E31D974C68A2F1
  let mix := fun (x : Word) =>
    let y := (x ^^^ (x >>> 29)) * m1
    (y ^^^ (y >>> 32)) * m2
  let x := mix (mix (mix (k ^^^ (w * m1) ^^^ (c * m2))))
  let y := x ^^^ (x >>> 31)
  y.extractLsb' 32 32 ^^^ y.extractLsb' 0 32

/-! ### The SFU (R100)

Transcendental functions are evaluated with 320 fraction bits and rounded once with a sticky bit. -/

def sfuP : Nat := 320
def ln2P : Nat := 1480553391661173448385607439722553250922680800745876974795605978609098082859138712941075737848984
def piP : Nat := 6710401180212168915155840974220003240804194089427148950727106424351713218671805380099500388914039

/-- Integer square root, one result bit for each step. -/
def isqrtAux : Nat → Nat → Nat → Nat
  | 0, _, r => r
  | k + 1, n, r => if (r + 2 ^ k) * (r + 2 ^ k) ≤ n then isqrtAux k n (r + 2 ^ k) else isqrtAux k n r
def isqrt (n : Nat) : Nat := isqrtAux (Nat.log2 n / 2 + 1) n 0

/-- Rounds an approximation with P fraction bits that lies just below an inexact value. -/
def roundSticky (neg : Bool) (v : Nat) (e : Int) : Nat :=
  (roundTo .f32 rne neg (2 * v + 1) 1 (e - sfuP - 1)).1

/-- Σ x^k / k!, x in fixed point. -/
def expSer : Nat → Nat → Nat → Nat → Nat
  | 0, _, _, _ => 0
  | n + 1, x, k, t => t + expSer n x (k + 1) (t * x / 2 ^ sfuP / (k + 1))
def expP (x : Nat) : Nat := expSer 90 x 0 (2 ^ sfuP)

/-- Σ z^(2k+1) / (2k+1). -/
def atanhSer : Nat → Nat → Nat → Nat → Nat
  | 0, _, _, _ => 0
  | n + 1, z2, k, t => t / (2 * k + 1) + atanhSer n z2 (k + 1) (t * z2 / 2 ^ sfuP)

/-- ln y for 1 ≤ y < 2 in fixed point. -/
def lnP (y : Nat) : Nat :=
  let z := (y - 2 ^ sfuP) * 2 ^ sfuP / (y + 2 ^ sfuP)
  2 * atanhSer 110 (z * z / 2 ^ sfuP) 0 z

/-- Σ (−1)^k x^(2k+1) / (2k+1)!. -/
def sinSer : Nat → Nat → Nat → Nat → Int
  | 0, _, _, _ => 0
  | n + 1, x2, k, t => (t : Int) - sinSer n x2 (k + 1) (t * x2 / 2 ^ sfuP / ((2 * k + 2) * (2 * k + 3)))
def sinP (x : Nat) : Nat := (sinSer 50 (x * x / 2 ^ sfuP) 0 x).toNat

/-- 2^x for a fixed-point fraction 0 ≤ x < 1. -/
def exp2P (x : Nat) : Nat := expP (x * ln2P / 2 ^ sfuP)

def sfuRcp (neg : Bool) (m : Nat) (e : Int) : Nat := (roundTo .f32 rne neg 1 m (-e)).1

/-- √(m · 2^e), exact or with a sticky bit below 32 extra bits. -/
def sfuSqrt (m : Nat) (e : Int) : Nat :=
  let (m, e) := if e % 2 == 0 then (m, e) else (2 * m, e - 1)
  let n := m * 2 ^ 128
  let r := isqrt n
  (roundTo .f32 rne false (2 * r + (if r * r == n then 0 else 1)) 1 (e / 2 - 65)).1

def sfuRsq (m : Nat) (e : Int) : Nat :=
  let (m, e) := if e % 2 == 0 then (m, e) else (2 * m, e - 1)
  let n := 2 ^ 256
  let r := isqrt (n / m)
  (roundTo .f32 rne false (2 * r + (if r * r * m == n then 0 else 1)) 1 (-(e / 2) - 129)).1

/-- 2^(±m·2^e) for a nonzero argument. -/
def sfuExp2 (neg : Bool) (m : Nat) (e : Int) : Nat :=
  if log2q m 1 e ≥ 8 then (if neg then 0 else signBit .f32 false + 0x7F800000)
  else
    let v : Int := (if neg then -1 else 1) * (m * two (e + sfuP) / two (-(e + sfuP)) : Nat)
    let n := v / (2 ^ sfuP : Int)
    let f := (v % (2 ^ sfuP : Int)).toNat
    if f == 0 then (roundTo .f32 rne false 1 1 n).1 else roundSticky false (exp2P f) n

/-- log2 of a positive m · 2^e. -/
def sfuLog2 (m : Nat) (e : Int) : Nat :=
  let l := log2q m 1 e
  let y := m * 2 ^ sfuP / 2 ^ Nat.log2 m
  if y == 2 ^ sfuP then (if l == 0 then 0 else (roundTo .f32 rne (l < 0) l.natAbs 1 0).1)
  else
    let v : Int := l * 2 ^ sfuP + (lnP y * 2 ^ sfuP / ln2P : Nat)
    roundSticky (v < 0) (if v < 0 then v.natAbs - 1 else v.natAbs) 0

/-- sin(π·r) for a fixed-point r in [0, 2): sign and code. -/
def sinPiFix (r : Nat) : Bool × Nat :=
  let one := 2 ^ sfuP
  let neg := r ≥ one
  let s := r % one
  let t := if s > one / 2 then one - s else s
  if t == 0 then (neg, 0)
  else if t == one / 2 then (neg, (roundTo .f32 rne neg 1 1 0).1)
  else (neg, roundSticky neg (sinP (t * piP / one)) 0)

/-- m · 2^e modulo 2 in fixed point. -/
def fixMod2 (m : Nat) (e : Int) : Nat := (m * two (e + sfuP) / two (-(e + sfuP))) % 2 ^ (sfuP + 1)

def sfuSinpi (neg : Bool) (m : Nat) (e : Int) : Nat :=
  let r := fixMod2 m e
  if r % 2 ^ sfuP == 0 then zeroF .f32 neg
  else
    let (n, c) := sinPiFix r
    if neg then (if n then c - 2 ^ 31 else c + 2 ^ 31) else c

def sfuCospi (m : Nat) (e : Int) : Nat :=
  (sinPiFix ((fixMod2 m e + 2 ^ (sfuP - 1)) % 2 ^ (sfuP + 1))).2

def sfuTanh (neg : Bool) (m : Nat) (e : Int) : Nat :=
  let l := log2q m 1 e
  if l ≥ 4 then (roundTo .f32 rne neg 1 1 0).1
  else if l < -20 then (roundTo .f32 rne neg m 1 e).1
  else
    let one := 2 ^ sfuP
    let y := 2 * (m * two (e + sfuP) / two (-(e + sfuP))) * one / ln2P
    let x := exp2P (y % one) * 2 ^ (y / one)
    (roundTo .f32 rne neg (x - one) (x + one) 0).1

/-- One SFU function on binary32 codes (R100). -/
def sfuElem (op : SfuF) (ftz : Bool) (a0 b0 : Nat) : Nat × Bool :=
  let a := ftzIf ftz .f32 a0
  let b := ftzIf ftz .f32 b0
  let nanD := NF.f32.nan
  let infC := fun n : Bool => signBit .f32 n + 0x7F800000
  let z : Nat := match firstNan .f32 (if op == .div then [a, b] else [a]) with
    | some z => z
    | none =>
      match op, decF .f32 a with
      | .div, x => match x, decF .f32 b with
        | .inf _, .inf _ => nanD
        | .inf n, _ => infC (n != negF .f32 b)
        | .fin n _ _, .inf k => zeroF .f32 (n != k)
        | .fin n m e, .fin k p q =>
          if p == 0 then (if m == 0 then nanD else infC (n != k))
          else if m == 0 then zeroF .f32 (n != k)
          else (roundTo .f32 rne (n != k) m p (e - q)).1
        | _, _ => nanD
      | .rcp, .inf n => zeroF .f32 n
      | .rcp, .fin n m e => if m == 0 then infC n else sfuRcp n m e
      | .rsq, .inf n => if n then nanD else 0
      | .rsq, .fin n m e => if m == 0 then infC n else if n then nanD else sfuRsq m e
      | .sqrt, .inf n => if n then nanD else infC false
      | .sqrt, .fin n m e => if m == 0 then a else if n then nanD else sfuSqrt m e
      | .exp2, .inf n => if n then 0 else infC false
      | .exp2, .fin n m e => if m == 0 then 0x3F800000 else sfuExp2 n m e
      | .log2, .inf n => if n then nanD else infC false
      | .log2, .fin n m e => if m == 0 then infC true else if n then nanD else sfuLog2 m e
      | .sinpi, .fin n m e => if m == 0 then a else sfuSinpi n m e
      | .cospi, .fin _ m e => if m == 0 then 0x3F800000 else sfuCospi m e
      | .tanh, .inf n => signBit .f32 n + 0x3F800000
      | .tanh, .fin n m e => if m == 0 then a else sfuTanh n m e
      | _, _ => nanD
  let r := ftzIf ftz .f32 z
  (r, specialF .f32 r)

/-! ### The monitor (R105, R107) -/

/-- A narrow code: sign, biased exponent, four fraction bits (R107). -/
def narrow (neg : Bool) (ex fr : Nat) : Nat := (if neg then 2 ^ 15 else 0) + (ex % 2 ^ 11) * 16 + fr % 16

/-- The main result's own narrow code. -/
def narrowMain (f : NF) (z : Nat) : Nat :=
  let mag := z % 2 ^ (f.w - 1)
  let fr := mag % 2 ^ f.fb
  narrow (z / 2 ^ (f.w - 1) % 2 == 1) (mag / 2 ^ f.fb)
    (if f.fb ≥ 4 then fr / 2 ^ (f.fb - 4) else fr * 2 ^ (4 - f.fb))

/-- Exponent and top four fraction bits of an exact finite value. -/
def topBits (m : Nat) (e : Int) : Int × Nat :=
  let l := log2q m 1 e
  (l, (m * two (4 - (l - e)) / two ((l - e) - 4)) % 16)

def emaxF (f : NF) : Int := (f.maxMag / 2 ^ f.fb : Nat) - f.bias

/-- The monitor's narrow code (R107). -/
def narrowShadow (f : NF) : XV → Nat
  | .nan => narrow false ((f.maxMag + 1) / 2 ^ f.fb) 8
  | .inf n => narrow n ((f.maxMag + 1) / 2 ^ f.fb) 0
  | .zero _ => 0
  | .fin n m e =>
    let (l, fr) := topBits m e
    if l < 1 - (f.bias : Int) then narrow n 0 fr
    else if l > emaxF f then narrow n ((f.maxMag + 1) / 2 ^ f.fb) fr
    else narrow n (l + f.bias).toNat fr

/-- The check of R105: whether the main result passes for the exact result. -/
def monitorOk (f : NF) (x : XV) (z : Nat) : Bool :=
  let mag := z % 2 ^ (f.w - 1)
  let neg := z / 2 ^ (f.w - 1) % 2 == 1
  match x with
  | .nan => (decF f z).isNan
  | .inf n => decF f z == .inf n
  | .zero _ => mag == 0
  | .fin n m e =>
    let (l, fr) := topBits m e
    let big := mag == f.maxMag || mag == f.maxMag + 1
    neg == n &&
    (if l > emaxF f then big
     else if l < 1 - (f.bias : Int) then mag ≤ 2 ^ f.fb
     else
       let a := narrowMain f mag
       let b := narrow false (l + f.bias).toNat fr
       (mag ≤ f.maxMag && a ≤ b + 1 && b ≤ a + 1) || (l == emaxF f && fr == 15 && big))

end Sys2Proof.Machine
end

