-- ==== Sys2Proof/Config.lean ====
section
/-! DEFINITION. The free values: what spec/ leaves open and an implementation or the moment decides. They are
opaque, so nothing can be proved of a particular value; each is applied to the state's counter `freeN`. -/

namespace Sys2Proof.Config

/-- Nanoseconds TIME advances at one step (R56: latencies are not architectural). -/
opaque elapsed : Nat → BitVec 32

/-- Contents of a slot that a team is allotted (R164): slot data word. -/
opaque freeSlotWord : Nat → BitVec 32

/-- Staging bytes of a slot after its close (R413), and other bytes left unspecified. -/
opaque freeByte : Nat → BitVec 8

/-- Which of the 16 entries of an inconsistent 64 KiB group translates a page (R211). -/
opaque freePick : Nat → BitVec 4

/-- A failure prediction, a health figure or a counter value that the device alone knows (R438, R448). -/
opaque freeWord : Nat → BitVec 64

/-- The identity public key of the part, as its 32 bytes: it always derives the same one (R443). -/
opaque identityKey : Nat → BitVec 8

/-- Byte `i` of the SLH-DSA signature that the identity of a public key makes over a message, with the random choice
numbered `n` (R443). -/
opaque slhSign (key message : List (BitVec 8)) (n i : Nat) : BitVec 8

/-- The run-length map of a block's tags fits its header (R218). -/
opaque mapFits : List (Nat × BitVec 16) → Bool

/-- The sectors that the delta-plane encoding of a block takes (R218); a number outside 1 to 7 saves none. -/
opaque deltaSectors : List (BitVec 8) → Nat

/-- The part of a die's address space that its control core's firmware may reach: base and size (R444). -/
opaque firmwareBase : Nat → Nat
opaque firmwareSize : Nat → Nat

/-- The vendor identifier by which a port knows a Yunaten device (R439). -/
opaque vendorId : Nat

/-- An island's frequency ceiling in MHz, and its voltage ceiling in mV (R444). -/
opaque ceilMhz : Nat → Nat
opaque ceilMv : Nat → Nat

end Sys2Proof.Config
end

