-- ==== Sys2Proof/Machine/Map.lean ====
section
/-! DEFINITION. Sparse maps in canonical form: keys strictly rising, no entry equal to the default. Memory,
tags and register files are held in them. -/

namespace Sys2Proof.Machine

open Sys2Proof

/-- The value at a key, or the default. -/
def mget {α : Type} (d : α) : SMap α → Nat → α
  | [], _ => d
  | (k, v) :: r, a => if a < k then d else if a = k then v else mget d r a

/-- Inserting or replacing the entry at a key. -/
def minsert {α : Type} (k : Nat) (v : α) : SMap α → SMap α
  | [] => [(k, v)]
  | (a, x) :: r => if k < a then (k, v) :: (a, x) :: r else if k = a then (k, v) :: r else (a, x) :: minsert k v r

/-- Removing the entry at a key. The rest of a canonical map holds greater keys only, and nothing more is dropped;
in any other list what the entry hid is dropped with it, so that the laws of reading after writing hold for every list. -/
def merase {α : Type} (k : Nat) : SMap α → SMap α
  | [] => []
  | (a, x) :: r => if k < a then (a, x) :: r else if k = a then r.dropWhile (fun p => p.1 ≤ k) else (a, x) :: merase k r

/-- Writing keeps the canonical form: writing the default removes the entry. -/
def mput {α : Type} [DecidableEq α] (d : α) (m : SMap α) (k : Nat) (v : α) : SMap α :=
  if v = d then merase k m else minsert k v m

/-- The keys rise strictly and none equals the default; `lo` bounds the first key. -/
def mwfFrom {α : Type} [DecidableEq α] (d : α) : Nat → SMap α → Bool
  | _, [] => true
  | lo, (k, v) :: r => lo ≤ k && v != d && mwfFrom d (k + 1) r

/-- The canonical form. -/
def mwf {α : Type} [DecidableEq α] (d : α) (m : SMap α) : Bool := mwfFrom d 0 m

/-- Lookup without a default. -/
def mfind {α : Type} : SMap α → Nat → Option α
  | [], _ => none
  | (k, v) :: r, a => if a < k then none else if a = k then some v else mfind r a

end Sys2Proof.Machine
end

