-- ==== Sys2Proof/Machine/State.lean ====
section
/-! DEFINITION. The state: everything spec/ gives the package, as plain data, and State.reset. -/

namespace Sys2Proof.Machine

open Sys2Proof

/-! ### Causes and reasons -/

/-- Trap and fault causes (R324). -/
inductive Cause
  | trap | brk | tagCheck | tagStore | shadow | nameGone | badTarget | badAddress | align | peerTimeout | poison
  | illegalOpcode | illegalOperand | illegalClause | classMismatch | priv | accToken | slateOrder | slateOverflow
  | slateUnderflow | loopDiverged | loopEscape | loopDepth | callOverflow | overrun | faultUnmapped | saveCorrupt
  | lostWrite | trapState | killed
deriving DecidableEq, Repr

/-- The codes of R324. -/
def Cause.code : Cause → Nat
  | .trap => 0x01 | .brk => 0x02 | .tagCheck => 0x03 | .tagStore => 0x04 | .shadow => 0x05 | .nameGone => 0x06
  | .badTarget => 0x07 | .badAddress => 0x08 | .align => 0x09 | .peerTimeout => 0x0A | .poison => 0x0B
  | .illegalOpcode => 0x20 | .illegalOperand => 0x21 | .illegalClause => 0x22 | .classMismatch => 0x23 | .priv => 0x24
  | .accToken => 0x25 | .slateOrder => 0x26 | .slateOverflow => 0x27 | .slateUnderflow => 0x28 | .loopDiverged => 0x29
  | .loopEscape => 0x2A | .loopDepth => 0x2B | .callOverflow => 0x2C | .overrun => 0x2D | .faultUnmapped => 0x2E
  | .saveCorrupt => 0x2F | .lostWrite => 0x30 | .trapState => 0x31 | .killed => 0x32

/-- A code of R324 below 0x20 is a user trap. -/
def Cause.user (c : Cause) : Bool := c.code < 0x20

/-! ### Lanes and groups -/

/-- Lane states (R127); a held lane remembers the JOIN or loop end it waits at, a deferred one D and the
lanes that have issued above D since (R145). -/
inductive LState
  | ready
  | parked
  | deferred (d : Word) (seen : BitVec 64)
  | joinHeld (h : Word)
  | loopHeld (h : Word)
  | exited
deriving DecidableEq, Repr

/-- Trap states of a lane (R328): outside a handler, handling, or trap-held. -/
inductive LTrap | none | handling | held
deriving DecidableEq, Repr

/-- A place inside a clause: its header's address and the header recorded at entry (R333). -/
structure Inside where
  hdr  : Word
  head : Header
deriving DecidableEq, Repr

/-- One lane. Its vector register lanes stand in the group's maps. -/
structure Lane where
  st      : LState
  trap    : LTrap
  pc      : Word
  ins     : Option Inside     -- set while pc stands on a word inside a clause
  tpc     : Word
  faultva : Word
  ttag    : Tag
  calls   : List Word         -- on-chip call entries, newest first (R140)
  spilled : Nat               -- call entries off chip
  draws   : Word              -- draw counter (R102)
  depthAt : Nat               -- call depth at trap entry (R328)
  trapAt  : Option (Word × Inside)   -- the trapping word and its clause (R333)
deriving DecidableEq, Repr

/-- The tag a result takes: known, or born when the result is formed, with its E (R349). -/
inductive TagSrc
  | known (t : Tag)
  | born (e : Bool)
deriving DecidableEq, Repr

/-- One register written by a variable-latency result (R51, R52). -/
inductive RegW
  | v (r lane : Nat) (x : Lane32) (t : TagSrc)
  | s (r : BitVec 6) (x : Word)
  | q (r : BitVec 3) (b : Bool)
  | p (r : BitVec 3) (mask bits : BitVec 64)
  | k (r : BitVec 4) (n : Name)
  | nstat (x : Nat)
deriving DecidableEq, Repr

/-- The queue a variable-latency result passes through (R81). -/
inductive ResQ | none | sfu | cvt
deriving DecidableEq, Repr

/-- An outstanding result: the scoreboard slot it signals, its queue, the word that issued it, and its writes.
`ready` is false while a peer, an NKILL or another agent still owes the value; `counted` says that the issue has
raised its births already (R349). -/
structure PendRes where
  id     : Nat
  slot   : Option Nat
  queue  : ResQ
  site   : Word
  writes : List RegW
  ready  : Bool
  counted : Bool
deriving DecidableEq, Repr

/-- The issue context of the word being performed: group, clause, word address, executing lanes X (R128),
whether it ends its clause, and whether it is issued again after a wait (R153). -/
structure Now where
  g       : GRef
  hdr     : Word
  head    : Header
  pc      : Word
  x       : BitVec 64
  last    : Bool
  reissue : Bool
deriving DecidableEq, Repr

/-- What a group that is not eligible waits for. -/
inductive Why
  | switch                       -- R54
  | sfuFull | cvtFull            -- R81
  | slotFull (n : Nat)           -- R51: a 65th result
  | yldDrain                     -- R154
  | tretDrain                    -- R333
  | engine (e : EngRef)          -- R284
  | matrix                       -- R306
  | launchQ                      -- R159
  | aacq (slot : Nat)            -- R307
  | arel (slot : Nat)
  | cwait (va : Word) (seen : Nat)  -- R237: the cell, and its contents at the last test
  | push (n : Name) | pop (n : Name) -- R233
  | bell (n : Nat)               -- R238: 0 the team, 1 + r role r
  | iinv                         -- R207
  | acquire (sc : Scope)         -- R202: an acquiring load of a peer page
  | line (l : Nat)               -- R20: a line an engine owns
  | roll                         -- R364
  | spill                        -- R372
  | peer                         -- R424: peer stores not yet answered
  | preempt                      -- R169: at a YLD, drained, waiting for the team
  | fetch                        -- text on the fault path (R216)
  | page                         -- a count cell on the fault path (R235)
deriving DecidableEq, Repr

/-- A group's wait, with the context of the word that waits. -/
structure Waiting where
  why : Why
  now : Now
deriving DecidableEq, Repr

/-- What one lane takes into a handler (R328). -/
structure TrapLane where
  lane    : Nat
  tpc     : Word
  ttag    : Tag
  faultva : Word
deriving DecidableEq, Repr

/-- A user trap whose entry waits for the drain (R328): cause, TCAUSE.imm and M, the entering lanes, the
registers of SHADOW, and the trapping word's context. -/
structure TrapReq where
  cause  : Cause
  imm    : BitVec 8
  more   : Bool
  lanes  : List TrapLane
  ssyn   : Word
  sunit  : Lane32
  stile  : Nat × Nat × Nat
  now    : Now
deriving DecidableEq, Repr

/-- A loop entry (R147). -/
structure LoopEntry where
  remaining : Nat
  depth     : Nat
  start     : Nat
  stop      : Nat
deriving DecidableEq, Repr

/-- The clause a group is inside: header, executing lanes, index of the next word, pipe. -/
structure Clause where
  hdr  : Word
  head : Header
  x    : BitVec 64
  next : Nat
  pipe : Nat
  redo : Bool           -- the next word is issued again (R153)
deriving DecidableEq, Repr

/-- A slate frame (R367, R368): header and one entry for each lane. -/
structure Frame where
  head    : Word
  entries : List Word
deriving DecidableEq, Repr

/-- The slate of a group (R367 to R375): on-chip frames newest first, frames in memory, push counter, counts. -/
structure Slate where
  chip   : List Frame
  inmem  : Nat
  pushes : BitVec 32
  spills : Nat
  fills  : Nat
  shadow : List (Word × BitVec 32 × BitVec 64)   -- R391: word, seq and missing lanes of frames a SHADOW left incomplete
deriving DecidableEq, Repr

/-- A write to one granule, with the tags of the words written (R353), or a TSTG. `seq` is `seqN` at its issue: a
RED of a smaller identity was issued before it. -/
structure GWrite where
  seq   : Nat
  g     : GRef
  lane  : Nat
  slot  : Nat                -- address-space slot
  va    : Nat                -- granule's virtual address
  bytes : List (Nat × Byte)  -- offset in the granule
  tags  : List (Nat × Tag)   -- by rising offset: of each word, or of each byte where writes may join
  tstg  : Option Tag
  spill : Bool               -- a call or slate spill (R335)
  cuts  : List Nat           -- where the access of a lane begins: a peer gets one request for each (R421)
deriving DecidableEq, Repr

/-- What the core keeps of a group's recent engine commands (R300). -/
structure XRec where
  cell   : Word
  cmd    : Nat
  done   : Bool
  offset : Nat
  status : Nat
deriving DecidableEq, Repr

/-- A group. -/
structure Group where
  grp      : Nat
  role     : Nat
  regs     : Nat             -- registers per lane of its role (R31)
  lanes    : List Lane
  v        : SMap Lane32     -- key 64 · register + lane
  vt       : SMap Tag
  s        : SMap Word
  p        : SMap (BitVec 64)
  q        : SMap Bool
  k        : SMap Name
  loops    : List LoopEntry  -- innermost first
  saved    : List Word       -- saved set LSTK0 to LSTK3 (R147)
  inTrap   : Bool            -- between trap entry and TRET
  traph    : Word
  tcause   : Lane32
  ssyn     : Word
  sunit    : Lane32
  stilex   : Lane32
  stiley   : Lane32
  stilek   : Lane32
  nstat    : Lane32
  ylddl    : Nat
  cwaitDl  : Option Nat      -- deadline of the CWAIT it is at (R237)
  clause   : Option Clause
  sb       : SMap Nat        -- outstanding results of each scoreboard slot (R51)
  pend     : List PendRes
  wait     : Option Waiting
  trapReq  : Option TrapReq
  storeQ   : List GWrite     -- oldest first (R192)
  slate    : Slate
  xrec     : List XRec       -- newest first, at most 8
  peerFail : List (Cause × Nat × Nat × Nat)  -- undelivered failed peer stores: cause, window, address, lane (R424)
  readyAt  : Nat             -- when it last became eligible (R168)
  ended    : Bool
  callSpills : Nat           -- counts of R142
  callFills  : Nat
deriving DecidableEq, Repr

/-! ### Accumulator slots -/

/-- Token states (R15, R307); `leaving` is a slot AREL has given up whose handover is not done. -/
inductive Token
  | unclaimed
  | held (g : Nat)
  | leaving (g : Nat)
  | engine
deriving DecidableEq, Repr

/-- The first event of a slot since its last AREL (R316). -/
structure AccEvent where
  cause : Cause
  va    : Nat
  ttag  : Tag
  ssyn  : Word
  sunit : Lane32
  stile : Nat × Nat × Nat
deriving DecidableEq, Repr

/-- An accumulator slot: key of an element 256 · row + column, of a tag 64 · row + column / 4. Elements that
nothing has written read as free values counted from `fill` (R164). -/
structure Acc where
  team    : Nat              -- team it is allotted to; 0 free
  token   : Token
  data    : SMap Lane32
  fill    : Nat
  tags    : SMap Tag
  poison  : List Nat
  event   : Option AccEvent
  shadows : Nat
  waits   : List Nat          -- groups whose AACQ waits, in issue order
  parked  : List (Nat × Nat)  -- groups and lanes whose ALD, AST or ADRN on the slot is still to be done (R321)
deriving DecidableEq, Repr

/-- Why a team is ending by fault (R334) or is to be relaunched (R339). -/
structure Ending where
  cause    : Cause
  relaunch : Bool
  g        : GRef
  lane     : Nat
  va       : Nat
  pc       : Word
  ttag     : Tag
  ssyn     : Word
  sunit    : Lane32
deriving DecidableEq, Repr

/-- A team, resident or saved. -/
structure Team where
  id       : Nat
  launch   : Nat
  ctx      : Nat
  slot     : Nat             -- address-space slot
  idx      : Nat             -- linear index (R166)
  coord    : Nat × Nat × Nat
  core     : Nat             -- package core number
  saved    : Bool
  seg      : Nat             -- segment number in the pool
  scratch  : Nat             -- scratchpad offset (R163)
  accs     : List Nat        -- physical slots
  groups   : List Group
  relaunches : Nat
  pinned   : Bool
  committing : Bool          -- pinned, with committed lines not yet owned (R336, R337)
  uncommitted : List GWrite  -- oldest first (R335)
  ending   : Option Ending
  preempt  : Bool            -- asked to leave (R169)
  floor    : List Nat        -- groups that have not stood at a point since a resume by floor share (R172)
  placedAt : Word            -- TIME of the last placement
  order    : Nat             -- placement order (R169)
  savedAt  : Word
  favour   : Option Nat      -- the core kept for it while it is saved (R172)
  image    : List (Nat × Byte)   -- the save area as written (R170)
  accSave  : List Acc            -- its slots while it is saved, accN in order
  scratchSave : List (List Byte × Tag × Bool)  -- its allotment's granules while it is saved: bytes, tag, poison
  arrived  : List (Nat × Nat)    -- bell arrivals: barrier, group (R238)
deriving DecidableEq, Repr

/-! ### Launches, kernels and named objects -/

/-- A kernel record (R273), decoded, with its curve table (R166). -/
structure Kernel where
  width     : Nat
  roles     : List (Nat × Nat)   -- groups, registers per lane
  text      : Word
  twords    : Nat
  data      : Word
  dbytes    : Nat
  scratch   : Nat
  acc       : Nat
  slateOn   : Nat
  slateMem  : Nat
  callspill : Nat
  deadline  : Nat
  curve     : Nat
  band      : Nat
  tile      : Nat × Nat
  table     : List (Nat × Nat)
  replayable : Bool
  trapstore  : Bool
deriving DecidableEq, Repr

/-- A team of a launch that has left the package: what a record of its end still needs (R424). -/
structure Gone where
  id     : Nat
  idx    : Nat
  core   : Nat
  slot   : Nat
  relaunches : Nat
  failed : Bool                -- counted as faulted
deriving DecidableEq, Repr

/-- Stages of a launch (R155 to R161). -/
inductive LStage | queued | waiting | eligible | done
deriving DecidableEq, Repr

/-- A launch. -/
structure Launch where
  id        : Nat
  ctx       : Nat
  src       : Nat              -- packet address of a LAUNCH; 0 for a host write
  packet    : BitVec 512
  stage     : LStage
  params    : List Word
  kernel    : Kernel
  kname     : Name
  roll      : Name
  fresh     : Bool
  pos       : Nat              -- timetable position of the next team
  placed    : Nat              -- teams placed for the first time
  ended     : Nat
  faulted   : Nat
  eligAt    : Word
  order     : Nat
  placedAt  : Word             -- TIME of the last placement
  starved   : Bool             -- R167: waited 2 ms
  gone      : List Gone        -- its teams that have left the package
  recs      : Nat              -- the number of the last record of its teams' ends (R345)
  killed    : Bool             -- KILL has discarded it; its completion cell is still to be told (R436)
  bad       : Bool             -- a peer has failed to give its parameter block
  again     : List (Nat × Nat × Nat)  -- relaunched teams: index, relaunch count, package cluster avoided
deriving DecidableEq, Repr

/-- An entry of a roll (R348), and the core of the team that bore it (R350). -/
structure RollEntry where
  site    : Word
  team    : Nat
  grp     : Nat
  role    : Nat
  births  : Nat
  core    : Nat
  written : Bool
deriving DecidableEq, Repr

/-- A roll (R347 to R350): its table (virtual, or the number of a fresh table), capacity and entries. -/
structure Roll where
  fresh   : Bool
  table   : Nat
  cap     : Nat
  entries : List RollEntry
  broken  : Bool
deriving DecidableEq, Repr

/-- A collective program as stored by NNEW (R268): steps (R396), buffer table (R394), and what CPSTAT
reports of its runs (R419); `state` is 0 never run, 1 running, 2 halted, 3 stopped. -/
structure CpProg where
  steps : List Word
  table : List Name
  state : Nat
  step  : Nat
  code  : Nat
  late  : Bool
  skew  : Bool
  runs  : Nat
deriving DecidableEq, Repr

/-- One element of a reduction (R405, R407): absent, a floating code, or an exact integer. -/
inductive Part
  | absent
  | float (code : Nat)
  | int (x : Int)
deriving DecidableEq, Repr

/-- A meeting slot's state (R411 to R413): contributions received, partials and counts by element, registered
readers (run numbers). -/
structure Meet where
  contribs : Nat
  parts    : List Part
  counts   : List Nat
  readers  : List Nat
deriving DecidableEq, Repr

/-- Class state of a named object (R259). A pigeonhole holds its creating team, its entries oldest first, its
allowance table (R232), and the groups blocked on it in order, true for a push (R233). A circular buffer holds its
next slot, its reserved slots with whether each is filled, and its filled slots oldest first (R297). -/
inductive Obj
  | plain
  | space (slot : Nat)
  | pigeon (team : Nat) (items : List Word) (allow : List (Word × Nat)) (waiters : List (GRef × Bool))
  | cb (pos : Nat) (reserved : List (Nat × Bool)) (filled : List Nat)
  | prog (p : CpProg)
  | roll (r : Roll)
  | context (idx : Nat)
  | kernel (k : Kernel)
  | meeting (m : Meet)
deriving DecidableEq, Repr

/-- An entry of the roster (R260). `owner` is a context index, or 0x7F for the host. `killer` is the result
that the pending NKILL still owes (R277). -/
structure Entry where
  name   : Name
  dying  : Bool
  owner  : Nat
  hold   : Nat
  record : BitVec 352
  obj    : Obj
  killer : Option (GRef × Nat)
deriving DecidableEq, Repr

/-! ### Memory side -/

/-- How far an early-visible write has travelled (R191, R194). -/
inductive EvLevel | core | cluster
deriving DecidableEq, Repr

structure EvWrite where
  core  : Nat
  level : EvLevel
  w     : GWrite
deriving DecidableEq, Repr

/-- The states of a line (R191): I is not listed. -/
inductive MState | S | E | O | M | EV
deriving DecidableEq, Repr

/-- An entry of a cluster directory (R191): the one state in which the cluster holds the line, the L1s of the
cluster that hold it (bit i for core 8 · cluster + i), and the pages of the leaf it was filled under (R212). -/
structure CLine where
  cluster : Nat
  slot : Nat
  va   : Nat
  st   : MState
  l1s  : BitVec 8
  leaf : Nat
deriving DecidableEq, Repr

/-- A directory entry of the line's home slice (R191): its state over the package, and the sharer vector. -/
structure HLine where
  slot : Nat
  va   : Nat
  st   : MState
  sharers : BitVec 32
deriving DecidableEq, Repr

/-- A copy whose invalidation is queued (R193), with the contents it still shows. `cluster`: the invalidation is
queued at the cluster cache too (R194), so that only a device-scope acquire applies it. -/
structure StaleLine where
  core    : Nat
  cluster : Bool
  slot    : Nat
  va      : Nat
  bytes   : List Byte
  tags    : List Tag
deriving DecidableEq, Repr

/-- A table pointer kept by the walk cache of a stack port (R208): the entry at `level` for the addresses whose
index down to that level is `key` names the table at `table`. -/
structure WalkEnt where
  port  : Nat
  slot  : Nat
  level : Nat
  key   : Nat
  table : Nat
deriving DecidableEq, Repr

/-- A translation (R210, R211) of one 4 KiB page, as the TLB of a stack port keeps it (R208). -/
structure Xlat where
  port  : Nat
  slot  : Nat
  page  : Nat                -- VA / 4096
  frame : Nat                -- physical page, or window index and page when peer
  size  : Nat                -- leaf size in 4 KiB pages
  peer  : Bool
  host  : Bool
  tagged : Bool
  r : Bool
  w : Bool
  x : Bool
  dirty : Bool
  comp  : Bool               -- C: the controller may compress its blocks (R218)
deriving DecidableEq, Repr

/-- Who bears a tag (R348, R349): the roll, the team's core, and the triple's team index, group and role. -/
structure Birth where
  roll : Name
  core : Nat
  team : Nat
  grp  : Nat
  role : Nat
deriving DecidableEq, Repr

/-- A RED arrival on its way to its home (R226), one word. -/
structure RedReq where
  id    : Nat
  g     : GRef
  core  : Nat
  slot  : Nat
  lane  : Nat
  va    : Nat
  f     : RedMF
  wide  : Bool
  v     : Word
  tag   : Tag
  site  : Word
  birth : Birth
  issue : Nat                -- the issue it belongs to, whose births count once (R349)
  counted : Bool
deriving DecidableEq, Repr

/-- Who waits on a fault request (R216, R217). -/
inductive Waiter
  | lanes (g : GRef) (mask : BitVec 64)
  | room (g : GRef) (mask : BitVec 64)  -- R215: lanes that wait for a line to leave the fault path
  | store (team : Nat)
  | cmd (n : Nat)
  | mma (n : Nat)
  | launch (n : Nat)
  | run (n : Nat)
  | roll (n : Name)
  | meeting (n : Name)
  | peer (requester port seq : Nat)
  | mailbox
deriving DecidableEq, Repr

/-- A fault request at a die (R216): `seq` is set once its record is written. -/
structure FaultReq where
  id    : Nat
  die   : Nat
  slot  : Nat
  ctx   : Nat
  page  : Nat
  kinds : BitVec 3
  cores : List Nat           -- core requests merged
  others : Nat               -- engine and device requests merged
  who   : List Waiter
  time  : Word
  cause : Option Nat         -- set when the die's walk has failed
  seq   : Option Nat
deriving DecidableEq, Repr

/-- A line of text an instruction cache holds (R207). -/
structure ILine where
  core  : Nat
  slot  : Nat
  va    : Nat
  leaf  : Nat                -- pages of the leaf it was filled under (R212)
  bytes : List Byte
deriving DecidableEq, Repr

/-! ### Engines -/

/-- A queued MMA (R306 to R313). -/
structure Mma where
  id     : Nat
  core   : Nat
  phys   : Nat               -- physical slot
  g      : GRef
  ctx    : Nat
  slot   : Nat
  a      : BitVec 352
  b      : BitVec 352
  aName  : Name
  bName  : Name
  sa     : Word
  sb     : Word
  scaled : Bool
  pop    : Bool
  rows   : BitVec 64
  rule   : TagRule
  site   : Word
  birth  : Birth
  emul   : Bool
  fail   : Option (Cause × Nat)   -- a failed peer access: cause and address (R316)
deriving DecidableEq, Repr

/-- What an engine command does (R284, R301). -/
inductive CmdKind | copy | cvt | perm | dec | fill
deriving DecidableEq, Repr

inductive CmdStage | queued | held | running
deriving DecidableEq, Repr

/-- A source element as an engine has read it: its bits, its scale byte, its granule's tag and poison. -/
structure SrcRaw where
  bits   : Nat
  scale  : Option Nat
  tag    : Tag
  poison : Bool
deriving DecidableEq, Repr

/-- A copy or transform command (R284 to R299). -/
structure Cmd where
  id     : Nat
  eng    : EngRef
  kind   : CmdKind
  g      : GRef
  core   : Nat
  ctx    : Nat
  slot   : Nat
  dname  : Name
  sname  : Name
  drec   : BitVec 352
  srec   : BitVec 352
  sa     : Word
  sb     : Word
  rnd    : Rnd
  sat    : Bool
  tr     : Bool
  cell   : Word
  start  : Option Word
  site   : Word
  stage  : CmdStage
  late   : Bool
  full   : Option Word       -- TIME since which a circular buffer was full (R297)
  cbSlot : Option Nat
  got    : List SrcRaw       -- source elements read and not yet written, in box order; the bytes of a stream (R285)
  offset : Nat               -- elements written
  poisoned : Bool            -- it has read a poisoned source (R298)
  stop   : Option Nat        -- code of the first stop
  lines  : List Nat          -- destination lines it owns (R20), keyed as in `Machine/Mem`
  ack    : Option Nat        -- elements done once its outstanding peer write is answered
  birth  : Birth             -- who bears the tags it forms (R294)
  handle : Option Nat        -- handle of its births, once interned
  emul   : Bool              -- the control core has performed it (R113)
deriving DecidableEq, Repr

/-- A write to one granule that a transform engine spilled (R305), and its first element. -/
structure Spill where
  cmd  : Nat
  va   : Nat
  bytes : List (Nat × Byte)
  tags  : List (Nat × Tag)
  poison : Bool
  first : Nat
deriving DecidableEq, Repr

/-! ### The collective engine and the links -/

/-- An open loop of a run (R400): its counter, value, trip count, and the LOOP step. -/
structure CpLoopSt where
  ctr   : Nat
  value : Nat
  trips : Nat
  step  : Nat
deriving DecidableEq, Repr

/-- A run of a collective program (R393 to R420). -/
structure Run where
  id     : Nat
  prog   : Name
  die    : Nat
  ctx    : Nat
  slot   : Nat
  ether  : Bool
  job    : Nat
  base   : Nat
  rank   : Nat
  n      : Nat
  width  : Nat
  time0  : Word
  step   : Nat
  loops  : List CpLoopSt
  code   : Nat
  late   : Bool
  skew   : Bool
  since  : Option Word        -- TIME at which the current step began
  got    : Option EngMsg      -- a message taken by the current step
  sent   : Option Nat         -- the peer request the current step waits on
  lines  : List Nat           -- destination lines of the current step (R416)
  turn   : Nat                -- `seqN` when the step took them
  offset : Nat                -- elements of the current step written
  ack    : Option Nat
  stop   : Option Nat         -- a refused page or a failed peer access has stopped the step (R414)
  marks  : List Nat           -- elements that a slot's close has clamped, among those taken (R408)
  stopAt : Option Nat         -- CPSTOP: the element of the step at which the run ends (R420)
  stoppers : List (GRef × Nat)  -- the results that the CPSTOPs owe
deriving DecidableEq, Repr

/-- The device's update of a count cell that is not done (R161, R412). -/
structure CellUpd where
  src    : Waiter             -- the meeting slot or the launch
  die    : Nat
  ctx    : Nat
  slot   : Nat
  va     : Nat
  add    : Nat
  errs   : Nat
  status : Nat
  pkt    : Nat                -- a launch's packet address
deriving DecidableEq, Repr

/-- An unposted message held in a die's pool (R403). -/
structure Held where
  die  : Nat
  n    : Nat
  msg  : EngMsg
  time : Word
deriving DecidableEq, Repr

/-- Where the answer of an outgoing peer request goes (R424). -/
inductive PeerDst
  | loadV (now : Now) (pend lane d : Nat) (z : MSize) (rule : TagRule) (va : Nat) (itag : Tag)
  | loadS (now : Now) (pend : Nat) (d : BitVec 6) (z : MSize) (va : Nat)
  | casT (now : Now) (pend lane d : Nat) (z : MSize) (rule : TagRule) (va : Nat) (itag : Tag) (cmp : Word) (tag : Tag)
  | name (now : Now) (pend : Nat) (q : BitVec 3) (k : BitVec 4) (cas : Option (Name × Name × Bool)) (va : Nat)
  | store (g : GRef) (lane va : Nat)
  | word (now : Now) (va : Nat)
  | cmd (n : Nat) (va : Nat)
  | mma (n : Nat) (va : Nat)
  | run (n : Nat)
deriving DecidableEq, Repr

/-- An outgoing peer request (R421 to R426). -/
structure PeerOut where
  id    : Nat
  dst   : PeerDst
  die   : Nat
  accel : Nat
  port  : Nat
  ether : Bool
  window : Nat
  addr  : Nat
  op    : PeerOp
  msg   : Option EngMsg
  seq   : Nat
  sent  : Word               -- TIME of the request, from which its timeout runs
  timeout : Nat
  busy  : Option Word        -- TIME of a refusal with the busy mark (R425)
deriving DecidableEq, Repr

/-- A response an owner keeps (R426). -/
structure Kept where
  requester : Nat
  port : Nat
  seq  : Nat
  data : List Byte
deriving DecidableEq, Repr

/-- An Ethernet endpoint (R446). -/
structure Endpoint where
  index : Nat
  mac   : BitVec 48
  port  : Nat
deriving DecidableEq, Repr

/-- The registers of the control space (R432). -/
structure Ctrl where
  status   : Nat             -- STATUS [1:0]
  recovery : Nat             -- STATUS [15:8] (R431)
  frbase : Word
  frsize : Word
  frprod : Word
  frcons : Word
  erbase : Word
  ersize : Word
  erprod : Word
  ercons : Word
  erlost : Word
  mbcmd  : List Word
  mbresp : List Word
  mbbusy : Bool
deriving DecidableEq, Repr

/-- What the device has sent the host outside host memory (R212, R435). -/
inductive HostOut
  | data (pa : Nat) (bytes : List Byte)
  | control (off : Nat) (bytes : List Byte)
  | synced
  | snooped (pa : Nat)
  | peer (requester seq : Nat) (bytes : List Byte) (error poison busy : Bool)
  | message (port job src dst : Nat) (ok : Bool) (reason : Nat)
deriving DecidableEq, Repr

/-- An access of the host that waits for lines which an engine owns (R435). -/
inductive HostReq
  | write (pa : Nat) (data : List Byte)
  | read (pa size : Nat)
deriving DecidableEq, Repr

/-- A voltage and frequency island (R26, R445). -/
structure Island where
  mhz   : Nat
  mv    : Nat
  gated : Bool
  want  : Option (Nat × Nat × Bool)   -- the frequency, voltage and gating firmware has set, until its cores stand between clauses
deriving DecidableEq, Repr

/-- A hardware error about to strike a monitored unit (R105): the element's result is xored with `mask`.
`core` and `lane` name a vector pipe lane, or a core and column group of a matrix engine. -/
structure Upset where
  matrix : Bool
  core : Nat
  lane : Nat
  elem : Nat
  mask : Nat
deriving DecidableEq, Repr

/-! ### Faults and refusals of the model -/

/-- Why the machine stops with a fault. -/
inductive Fault
  /-- Raised by `step` once a fatal error has stopped the package (R449): nothing runs until a reset from
  outside. Safe: the package executes nothing in that state. -/
  | stopped
deriving DecidableEq, Repr

/-- Why an instruction has no meaning. -/
inductive Refusal
  /-- An arm of `exec` whose meaning is not written. Safe: it only stops a run. -/
  | notModelled (mnemonic : String)
deriving DecidableEq, Repr

/-! ### The state -/

/-- The package. Maps over memory locations are keyed as `Machine/Ops` states. -/
structure State where
  agenda  : List Instr        -- what is performed next: the moments the outside and time choose
  freeN   : Nat               -- counter of the free values
  seqN    : Nat               -- counter of internal identities
  turn    : Nat               -- counter of the steps whose order the spec leaves open
  now     : Option Now
  issuing : List GRef         -- groups inside a clause, in rotation (R168)
  served  : List (Nat × Nat)  -- for each (core · 4 + pipe), the group rank it last served (R168)
  time    : Word
  skew    : Word
  mem     : SMap Byte
  tags    : SMap Tag
  poison  : SMap Bool         -- poisoned granules
  blocks  : SMap (Nat × Nat)  -- encoding and sectors of each HBM block that is not raw, as last written (R218)
  cdir    : List CLine        -- the cluster directories
  hdir    : List HLine        -- the directories of the home slices
  ev      : List EvWrite      -- oldest first
  stale   : List StaleLine
  icache  : List ILine
  tlb     : List Xlat
  walks   : List WalkEnt
  aliases : List (Nat × Nat × Nat)   -- physical line, slot, VA (R209)
  dirty   : List (Nat × Nat)         -- (slice, slot) (R213)
  redQ    : List RedReq
  faults  : List FaultReq
  faultSeq : SMap Nat         -- records written, by die
  banks   : SMap BankMode     -- modes that differ from those of R196, by cluster · 64 + bank
  roster  : SMap Entry
  nameCnt : Word
  serial  : BitVec 40
  devno   : BitVec 16
  accel   : BitVec 10
  nameCache : List (Nat × Name)      -- unit and name (R264)
  launches : List Launch      -- in arrival order
  teams   : List Team
  dispPos : SMap Nat          -- by die, 1 + package core of the previous placement (R167)
  accs    : SMap Acc          -- by core · 64 + slot
  cmds    : List Cmd          -- in issue order
  spills  : List Spill
  fetched : List (Nat × Nat × List Byte)  -- peer data a command, an MMA or a word has received: owner, VA, bytes
  mmas    : List Mma
  runs    : List Run
  heldMsgs : List Held
  readies : List (Nat × Nat × Nat)   -- ready messages not yet used: job, receiver that is ready, sender (R410)
  cells   : List CellUpd
  peerOut : List PeerOut
  peerIn  : List PeerReq      -- incoming requests not yet answered (R425)
  kept    : List Kept
  peerTimeouts : SMap Nat     -- by accelerator ID, where not 100 µs (R425)
  peerMake : SMap Nat         -- by accelerator ID: 1 once identified as another make (R439)
  peerSeq : SMap Nat          -- requests sent, by accelerator · 16 + port (R426)
  msgSeq  : SMap Nat          -- engine messages sent, by job · 2^32 + sender · 2^16 + receiver (R403)
  portsUp : List Nat          -- UALink ports 0 to 15, Ethernet 16 to 19
  endpoints : List Endpoint
  errBuf  : List (BitVec 512)
  errSeq  : Nat
  ctrl    : Ctrl
  counters : SMap Nat         -- by die · 64 + dword
  dumped  : Bool
  rollback : List Nat         -- 64 anti-rollback counters (R441)
  measure : List (BitVec 256) -- 16 measurement registers (R442)
  islands : List Island
  hostOut : List HostOut
  hostHeld : List HostReq     -- oldest first
  upsets  : List Upset
  stopped : Bool
deriving DecidableEq, Repr

/-- The control registers after bring-up (R432, R433). -/
def Ctrl.reset : Ctrl :=
  ⟨2, 0, 0, 0, 0, 0, 0, 0, 0, 0, 0, List.replicate 8 0, List.replicate 8 0, false⟩

/-- The package after bring-up (R429): STATUS READY, nothing resident. -/
def State.reset : State where
  agenda := []
  freeN := 0
  seqN := 1
  turn := 0
  now := none
  issuing := []
  served := []
  time := 0
  skew := BitVec.allOnes 64
  mem := []
  tags := []
  poison := []
  blocks := []
  cdir := []
  hdir := []
  ev := []
  stale := []
  icache := []
  tlb := []
  walks := []
  aliases := []
  dirty := []
  redQ := []
  faults := []
  faultSeq := []
  banks := []
  roster := []
  nameCnt := 1
  serial := 1
  devno := 0
  accel := 0
  nameCache := []
  launches := []
  teams := []
  dispPos := []
  accs := []
  cmds := []
  spills := []
  fetched := []
  mmas := []
  runs := []
  heldMsgs := []
  readies := []
  cells := []
  peerOut := []
  peerIn := []
  kept := []
  peerTimeouts := []
  peerMake := []
  peerSeq := []
  msgSeq := []
  portsUp := []
  endpoints := []
  errBuf := []
  errSeq := 0
  ctrl := Ctrl.reset
  counters := []
  dumped := false
  rollback := List.replicate 64 0
  measure := List.replicate 16 0
  islands := List.replicate 128 ⟨3000, 0, false, none⟩
  hostOut := []
  hostHeld := []
  upsets := []
  stopped := false

end Sys2Proof.Machine
end

