-- ==== Sys2Proof/Machine/Ops.lean ====
section
/-! DEFINITION. The named operations over teams, groups, lanes and registers; ending a word and a clause
(R48, R128); raising a fault, taking a trap (R328) and returning from one (R333). -/

namespace Sys2Proof.Machine

open Sys2Proof

/-! ### Lookup and update -/

def State.team? (s : State) (id : Nat) : Option Team := s.teams.find? (fun t => t.id == id)
def Team.group? (t : Team) (n : Nat) : Option Group := t.groups.find? (fun g => g.grp == n)
def State.launch? (s : State) (id : Nat) : Option Launch := s.launches.find? (fun l => l.id == id)
def State.group? (s : State) (r : GRef) : Option Group := (s.team? r.team).bind (fun t => t.group? r.grp)

def State.modTeam (s : State) (id : Nat) (f : Team → Team) : State :=
  { s with teams := s.teams.map (fun t => if t.id == id then f t else t) }
def Team.modGroup (t : Team) (n : Nat) (f : Group → Group) : Team :=
  { t with groups := t.groups.map (fun g => if g.grp == n then f g else g) }
def State.modGroup (s : State) (r : GRef) (f : Group → Group) : State :=
  s.modTeam r.team (fun t => t.modGroup r.grp f)
def State.modLaunch (s : State) (id : Nat) (f : Launch → Launch) : State :=
  { s with launches := s.launches.map (fun l => if l.id == id then f l else l) }

/-- The group that issues, with its team and launch, and the context of the word. -/
structure Cur where
  n : Now
  t : Team
  g : Group
  l : Launch
deriving DecidableEq, Repr

def cur? (s : State) : Option Cur :=
  s.now.bind fun n => (s.team? n.g.team).bind fun t => (t.group? n.g.grp).bind fun g =>
    (s.launch? t.launch).map fun l => ⟨n, t, g, l⟩

/-- A word performed for the issuing group; with no group issuing, nothing happens. -/
def onCur (s : State) (f : Cur → State) : Host.Outcome State Fault Refusal :=
  .next (match cur? s with
    | some c => f c
    | none => s)

def Cur.width (c : Cur) : Nat := c.l.kernel.width
def Cur.ref (c : Cur) : GRef := c.n.g
def Cur.mod (c : Cur) (s : State) (f : Group → Group) : State := s.modGroup c.n.g f

/-- A fresh identity. -/
def State.fresh (s : State) : Nat × State := (s.seqN, { s with seqN := s.seqN + 1 })

/-- A free value's index. -/
def State.free (s : State) : Nat × State := (s.freeN, { s with freeN := s.freeN + 1 })

/-! ### Lane sets -/

abbrev Mask := BitVec 64

/-- The lanes of a set, rising. -/
def lanesOf (m : Mask) : List Nat := (List.range 64).filter (fun i => m.getLsbD i)

/-- The lowest lane of a set. -/
def firstLane (m : Mask) : Nat := (lanesOf m).headD 0

/-- The set of a list of lanes. -/
def maskOf (l : List Nat) : Mask := l.foldl (fun m i => m ||| BitVec.twoPow 64 i) 0

def lowMask (n : Nat) : Mask := BitVec.ofNat 64 (2 ^ n - 1)

/-- The lanes of a group that satisfy a test. -/
def lanesWhere (f : Lane → Bool) : Nat → List Lane → List Nat
  | _, [] => []
  | i, l :: r => if f l then i :: lanesWhere f (i + 1) r else lanesWhere f (i + 1) r
def Group.where_ (g : Group) (f : Lane → Bool) : Mask := maskOf (lanesWhere f 0 g.lanes)

/-- Applies `f` to the lanes of a set. -/
def mapLanes (m : Mask) (f : Nat → Lane → Lane) : Nat → List Lane → List Lane
  | _, [] => []
  | i, l :: r => (if m.getLsbD i then f i l else l) :: mapLanes m f (i + 1) r
def Group.modLanes (g : Group) (m : Mask) (f : Nat → Lane → Lane) : Group :=
  { g with lanes := mapLanes m f 0 g.lanes }

def Group.lane (g : Group) (i : Nat) : Option Lane := g.lanes[i]?

/-- A lane takes part in issue: every lane outside a handler, the handling ones inside (R329). -/
def Group.inScope (g : Group) (l : Lane) : Bool := if g.inTrap then l.trap == .handling else true

/-- The live lanes (R127), inside a handler the live handling lanes (R329). -/
def Group.live (g : Group) : Mask := g.where_ (fun l => l.st != .exited && g.inScope l)

/-- The ready lanes (R128). -/
def Group.ready (g : Group) : Mask := g.where_ (fun l => l.st == .ready && g.inScope l)

/-- CSDEPTH (R140). -/
def Lane.depth (l : Lane) : Nat := l.calls.length + l.spilled

/-! ### Registers -/

/-- p0 is true in every lane (R30). -/
def Group.pred (g : Group) (n : Nat) : Mask := if n == 0 then BitVec.allOnes 64 else mget 0 g.p n
/-- q0 is true (R30). -/
def Group.bool (g : Group) (n : Nat) : Bool := n == 0 || mget false g.q n
def Group.sreg (g : Group) (r : Nat) : Word := mget 0 g.s r
def Group.vreg (g : Group) (r lane : Nat) : Lane32 := mget 0 g.v (64 * r + lane)
def Group.vtag (g : Group) (r lane : Nat) : Tag := mget 0 g.vt (64 * r + lane)
def Group.name (g : Group) (n : Nat) : Name := mget 0 g.k n

def Group.setS (g : Group) (r : Nat) (x : Word) : Group := { g with s := mput 0 g.s r x }
/-- A write of q0 is refused when it names a result, and stands for no register where the format allows 0. -/
def Group.setQ (g : Group) (n : Nat) (b : Bool) : Group :=
  if n == 0 then g else { g with q := mput false g.q n b }
/-- Writes the bits of the lanes in `m` only (R82). -/
def Group.setP (g : Group) (n : Nat) (m x : Mask) : Group :=
  if n == 0 then g else { g with p := mput 0 g.p n ((mget 0 g.p n &&& ~~~m) ||| (x &&& m)) }
def Group.setV (g : Group) (r lane : Nat) (x : Lane32) (t : Tag) : Group :=
  { g with v := mput 0 g.v (64 * r + lane) x, vt := mput 0 g.vt (64 * r + lane) t }
def Group.setK (g : Group) (n : Nat) (x : Name) : Group := { g with k := mput 0 g.k n x }
/-- NSTAT takes a reason in [7:0] and zeros above (R262). -/
def Group.setN (g : Group) (reason : Nat) : Group := { g with nstat := BitVec.ofNat 32 (reason % 256) }

/-- The guard's lanes (R35, R57). -/
def Group.guard (g : Group) (h : Head) : Mask :=
  if h.neg then ~~~ (g.pred h.guard.toNat) else g.pred h.guard.toNat

/-- The active lanes of a word. -/
def Cur.active (c : Cur) (h : Head) : Mask := c.n.x &&& c.g.guard h

/-! ### Addresses in the text -/

/-- The header after a clause (R48). -/
def nextHeader (n : Now) : Word := n.hdr + BitVec.ofNat 64 (8 * (n.head.count + 1))

/-- The place after a word: the next word of its clause, or the next header. -/
def afterWord (n : Now) : Word × Option Inside :=
  if n.last then (nextHeader n, none) else (n.pc + 8, some ⟨n.hdr, n.head⟩)

def textWord (k : Kernel) (index : Nat) : Word := k.text + BitVec.ofNat 64 (8 * index)

/-- Word index of an address from the text base, and whether it lies within the text (R137, R139). -/
def textIndex (k : Kernel) (a : Word) : Nat := (a - k.text).toNat / 8
def inText (k : Kernel) (a : Word) : Bool := (a - k.text).toNat % 8 == 0 && textIndex k a < k.twords

/-! ### Ending a word and a clause -/

/-- Lanes deferred below this clause see its lanes issue (R145). -/
def noteIssue (hdr : Word) (x : Mask) (l : Lane) : Lane :=
  match l.st with
  | .deferred d seen => if d.toNat < hdr.toNat then { l with st := .deferred d (seen ||| x) } else l
  | _ => l

/-- The innermost entry governs a lane (R149). -/
def governs (e : LoopEntry) (l : Lane) : Bool := l.depth == e.depth

/-- A lane takes its next place; a governed lane that comes to its loop's end is held there (R149). -/
def Lane.goTo (l : Lane) (loops : List LoopEntry) (k : Kernel) (pc : Word) (ins : Option Inside) : Lane :=
  let l := { l with pc := pc, ins := ins }
  match loops with
  | e :: _ => if ins.isNone && governs e l && pc == textWord k e.stop then { l with st := .loopHeld pc } else l
  | [] => l

/-- The group stands at a point for a pre-emption (R169, R172). -/
def standAt (s : State) (r : GRef) : State :=
  s.modTeam r.team (fun t => { t with floor := t.floor.filter (fun n => n != r.grp) })

/-- The group leaves its clause; with no ready lane it stands at a point. -/
def leaveClause (s : State) (r : GRef) : State :=
  let s := { s.modGroup r (fun g => { g with clause := none, readyAt := s.seqN }) with
      issuing := s.issuing.filter (fun x => x != r), seqN := s.seqN + 1 }
  match s.group? r with
  | some g => if g.ready == 0 then standAt s r else s
  | none => s

/-- Ends the clause with each lane of its X at the place `dest` gives it. -/
def endClause (s : State) (c : Cur) (dest : Nat → Lane → Lane) : State :=
  leaveClause (c.mod s (fun g =>
    match g.clause with
    | some cl => { (g.modLanes cl.x dest) with
        lanes := (mapLanes cl.x dest 0 g.lanes).map (noteIssue c.n.hdr cl.x) }
    | none => g)) c.ref

/-- A wait begins: the group is not eligible until it ends. -/
def waitFor (s : State) (c : Cur) (w : Why) : State :=
  c.mod s (fun g => { g with wait := some ⟨w, c.n⟩ })

/-- A wait ends: the group is eligible again from now on (R168). -/
def wake (s : State) (r : GRef) : State :=
  { s.modGroup r (fun g => { g with wait := none, readyAt := s.seqN }) with seqN := s.seqN + 1 }

/-- A blocked QPUSH, QPOP, CWAIT or TBAR is a point (R169). -/
def Why.point : Why → Bool
  | .push _ | .pop _ | .cwait .. | .bell _ => true
  | _ => false

/-- The word is issued again when its wait ends (R153: it does not count twice). -/
def blockWord (s : State) (c : Cur) (w : Why) : State :=
  let s := if Why.point w then standAt s c.ref else s
  c.mod s (fun g => { g with wait := some ⟨w, c.n⟩, clause := g.clause.map (fun cl => { cl with redo := true }) })

/-- S = 1 parks the group until every outstanding result has returned (R54). -/
def switchMark (h : Head) (n : Now) (g : Group) : Group :=
  if h.sw && !g.pend.isEmpty && g.wait.isNone then { g with wait := some ⟨.switch, n⟩ } else g

/-- A word is done: the next word of the clause follows, or the next header for the lanes of X. -/
def finish (s : State) (c : Cur) (h : Head) : State :=
  let s := c.mod s (switchMark h c.n)
  if c.n.last then
    endClause s c (fun _ l => l.goTo c.g.loops c.l.kernel (nextHeader c.n) none)
  else
    c.mod s (fun g => { g with clause := g.clause.map (fun cl =>
      { cl with next := (c.n.pc - c.n.hdr).toNat / 8, redo := false }) })

/-- A word that changes registers of its group only. -/
def regWord (s : State) (h : Head) (f : Cur → Group → Group) : Host.Outcome State Fault Refusal :=
  onCur s fun c => finish (c.mod s (f c)) c h

/-! ### Faults that end the team (R79, R324, R334) -/

/-- The first fault that reaches the team's control logic is kept (R334). -/
def endTeam (s : State) (team : Nat) (e : Ending) : State :=
  s.modTeam team (fun t => if t.ending.isSome then t else { t with ending := some e })

/-- A fault raised by the word being issued. -/
def wordFault (s : State) (c : Cur) (cause : Cause) : State :=
  endTeam s c.t.id ⟨cause, false, c.ref, firstLane c.n.x, 0, c.n.pc, 0, 0, 0⟩

/-- A fault that no word raised (R342). -/
def plainFault (s : State) (team : Nat) (cause : Cause) : State :=
  endTeam s team ⟨cause, false, ⟨team, 0⟩, 0, 0, 0, 0, 0, 0⟩

/-! ### User traps -/

/-- What a trapping word gives one lane: cause, tag, fault address. -/
structure LaneTrap where
  lane    : Nat
  cause   : Cause
  ttag    : Tag
  faultva : Word
deriving DecidableEq, Repr

/-- A word's traps by rising lane, one for each lane. -/
def byLane (ts : List LaneTrap) : List LaneTrap :=
  (List.range 64).filterMap (fun i => ts.find? (fun t => t.lane == i))

/-- Where a lane goes after the word. -/
def goAfter (c : Cur) (_ : Nat) (l : Lane) : Lane :=
  l.goTo c.g.loops c.l.kernel (afterWord c.n).1 (afterWord c.n).2

/-- Lanes of X other than those in `stay` go where `go` takes them; those in `stay` stand on the word (R327). -/
def splitClause (s : State) (c : Cur) (stay : Mask) (go : Nat → Lane → Lane) : State :=
  endClause s c (fun i l =>
    if stay.getLsbD i then { l with pc := c.n.pc, ins := some ⟨c.n.hdr, c.n.head⟩ } else go i l)

/-- Raises user traps for some lanes of a word (R327): the lowest trapping lane's cause enters the handler,
lanes of another cause stay on the word, and the rest go where `go` takes them. TPC is `tpc`; a handling lane
ends the team (R330). -/
def raiseTrapsGo (go : Nat → Lane → Lane) (s : State) (c : Cur) (imm : BitVec 8) (tpc : Word) (ssyn : Word)
    (sunit : Lane32) (stile : Nat × Nat × Nat) (ts : List LaneTrap) : State :=
  match byLane ts with
  | [] => s
  | t0 :: rest =>
    let ts := t0 :: rest
    let same := ts.filter (fun t => t.cause == t0.cause)
    let all := maskOf (ts.map (·.lane))
    if c.g.inTrap then
      endTeam s c.t.id ⟨.trapState, false, c.ref, t0.lane, t0.faultva.toNat, c.n.pc, t0.ttag, 0, 0⟩
    else
      let req : TrapReq := ⟨t0.cause, imm, same.length != ts.length,
        same.map (fun t => ⟨t.lane, tpc, t.ttag, t.faultva⟩), ssyn, sunit, stile, c.n⟩
      c.mod (splitClause s c all go) (fun g => { g with trapReq := some req })

/-- Traps of a word after which the other lanes go on. -/
def raiseTraps (s : State) (c : Cur) (imm : BitVec 8) (tpc : Word) (ssyn : Word) (sunit : Lane32)
    (stile : Nat × Nat × Nat) (ts : List LaneTrap) : State :=
  raiseTrapsGo (goAfter c) s c imm tpc ssyn sunit stile ts

/-- A trap whose TPC is the trapping word. -/
def trapWord (s : State) (c : Cur) (ts : List LaneTrap) : State := raiseTraps s c 0 c.n.pc 0 0 (0, 0, 0) ts

/-- One cause for every lane of a set. -/
def trapAll (s : State) (c : Cur) (m : Mask) (cause : Cause) (ttag : Tag) (va : Word) : State :=
  trapWord s c ((lanesOf m).map (fun i => ⟨i, cause, ttag, va⟩))

/-- Parks lanes of X on the word (R214): they leave X, and the others go on (R128). -/
def parkLanes (s : State) (c : Cur) (m : Mask) : State :=
  if m == 0 then s else
  c.mod s (fun g => { g with
    clause := g.clause.map (fun cl => { cl with x := cl.x &&& ~~~m })
    lanes := mapLanes m (fun _ l =>
      { l with st := .parked, pc := c.n.pc, ins := some ⟨c.n.hdr, c.n.head⟩ }) 0 g.lanes })

/-- Ends a word some of whose lanes park and some trap; with neither, it is done. -/
def settle (s : State) (c : Cur) (h : Head) (parks : Mask) (traps : List LaneTrap) : State :=
  let s := parkLanes s c parks
  match traps with
  | [] => if c.n.x &&& ~~~parks == 0 && parks != 0 then leaveClause s c.ref else finish s c h
  | _ => trapWord s c traps

/-- Ends a branching word: `go` places the lanes that neither park nor trap. -/
def settleGo (s : State) (c : Cur) (h : Head) (parks : Mask) (traps : List LaneTrap) (go : Nat → Lane → Lane) : State :=
  let s := parkLanes s c parks
  match traps with
  | [] =>
    if c.n.x &&& ~~~parks == 0 && parks != 0 then leaveClause s c.ref
    else endClause (c.mod s (switchMark h c.n)) c go
  | _ => raiseTrapsGo go s c 0 c.n.pc 0 0 (0, 0, 0) traps

/-! ### Drains -/

/-- Every scoreboard slot is clear and every untracked result has returned (R55). -/
def Group.drained (g : Group) : Bool := g.pend.isEmpty

/-! ### Trap entry and return -/

/-- A loop entry as LSTK0 to LSTK3 show it (R147). -/
def LoopEntry.word (e : LoopEntry) : Word :=
  BitVec.ofNat 20 e.remaining ++ BitVec.ofNat 8 e.depth ++ BitVec.ofNat 18 e.start ++ BitVec.ofNat 18 e.stop

def loopOf (w : Word) : LoopEntry :=
  ⟨(w.extractLsb' 44 20).toNat, (w.extractLsb' 36 8).toNat, (w.extractLsb' 18 18).toNat, (w.extractLsb' 0 18).toNat⟩

/-- The four words of the loop entries, empty ones outermost. -/
def loopWords (l : List LoopEntry) : List Word :=
  (List.range 4).map (fun i => match l[i]? with
    | some e => e.word
    | none => 0)

/-- TCAUSE (R325). -/
def tcauseWord (r : TrapReq) : Lane32 :=
  (0 : BitVec 15) ++ BitVec.ofBool r.more ++ r.imm ++ BitVec.ofNat 8 r.cause.code

/-- Trap entry for a drained group (R328): the live loop entries are saved and emptied; TCAUSE, and for each
entering lane TPC, TTAG and FAULTVA, are written, with SSYN, SUNIT and STILEX to STILEK for SHADOW; entering
lanes take the handler's first header, every other live lane is trap-held. -/
def enterTrap (k : Kernel) (r : TrapReq) (g : Group) : Group :=
  let m := maskOf (r.lanes.map (·.lane))
  let sh := r.cause == .shadow
  let enter := fun (i : Nat) (l : Lane) =>
    match r.lanes.find? (fun t => t.lane == i) with
    | some t => { l with
        trap := .handling, st := .ready, pc := textWord k g.traph.toNat, ins := none,
        tpc := t.tpc, ttag := t.ttag, faultva := t.faultva, depthAt := l.depth,
        trapAt := some (r.now.pc, ⟨r.now.hdr, r.now.head⟩) }
    | none => l
  let held := fun (i : Nat) (l : Lane) =>
    if m.getLsbD i || l.st == .exited then l else { l with trap := .held }
  { g with
    saved := loopWords g.loops
    loops := []
    inTrap := true
    tcause := tcauseWord r
    ssyn := if sh then r.ssyn else g.ssyn
    sunit := if sh then r.sunit else g.sunit
    stilex := if sh then BitVec.ofNat 32 r.stile.1 else g.stilex
    stiley := if sh then BitVec.ofNat 32 r.stile.2.1 else g.stiley
    stilek := if sh then BitVec.ofNat 32 r.stile.2.2 else g.stilek
    trapReq := none
    lanes := mapLanes (lowMask 64) held 0 (mapLanes m enter 0 g.lanes) }

/-- The saved set has an empty entry inward of a nonempty one (R333). -/
def badSaved : List Word → Bool
  | [] => false
  | w :: r => (w.extractLsb' 44 20 == 0 && r.any (fun x => x.extractLsb' 44 20 != 0)) || badSaved r

/-- The live entries the saved set gives. -/
def savedLoops (l : List Word) : List LoopEntry := (l.filter (fun w => w.extractLsb' 44 20 != 0)).map loopOf

/-- The trap-held lanes get back their earlier state (R333). -/
def releaseHeld (l : Lane) : Lane := if l.trap == .held then { l with trap := .none } else l

/-- The return from a trap (R333): the saved loop entries become the live ones, each lane of `x` goes to its
TPC, and the trap-held lanes return to their earlier state. `inside` says where a TPC inside a clause stands. -/
def leaveTrap (k : Kernel) (inside : Lane → Option Inside) (x : Mask) (g : Group) : Group :=
  let back := fun (_ : Nat) (l : Lane) =>
    { l with st := .ready, trap := LTrap.none }.goTo (savedLoops g.saved) k l.tpc (inside l)
  { g with
    loops := savedLoops g.saved
    inTrap := false
    lanes := (mapLanes x back 0 g.lanes).map (fun l =>
      if l.trap == .handling then { l with trap := LTrap.none } else releaseHeld l) }

end Sys2Proof.Machine
end

