-- ==== Sys2Proof/Machine/Operands.lean ====
section
/-! DEFINITION. Every operand form: vector operands (R60 to R62), VI immediates (R64), scalar second operands
(R68), memory addresses (R34), and the register budget of the role (R31). -/

namespace Sys2Proof.Machine

open Sys2Proof

/-! ### Vector types -/

/-- Element width and count, and the element's format (R62, R86). -/
def VType.ew : VType → Nat
  | .i32 | .n32 | .f32 => 32
  | .f64 => 64
  | .f16x2 | .bf16x2 | .i16x2 => 16
  | .i8x4 => 8
def VType.count : VType → Nat
  | .i32 | .n32 | .f32 | .f64 => 1
  | .f16x2 | .bf16x2 | .i16x2 => 2
  | .i8x4 => 4
def VType.fmt : VType → NF
  | .i32 => .int 32 true
  | .n32 => .int 32 false
  | .f32 => .f32
  | .f64 => .f64
  | .f16x2 => .f16
  | .bf16x2 => .bf16
  | .i16x2 => .int 16 true
  | .i8x4 => .int 8 true
def VType.isFloat : VType → Bool
  | .f32 | .f64 | .f16x2 | .bf16x2 => true
  | _ => false

/-- The `n` elements of width `w` of a value, element 0 lowest. -/
def splitN (w n x : Nat) : List Nat := (List.range n).map (fun i => (x / 2 ^ (w * i)) % 2 ^ w)
def joinN (w : Nat) : List Nat → Nat
  | [] => 0
  | x :: r => x % 2 ^ w + 2 ^ w * joinN w r
def VType.split (t : VType) (x : Nat) : List Nat := splitN (VType.ew t) (VType.count t) x
def VType.join (t : VType) (l : List Nat) : Nat := joinN (VType.ew t) l

/-- A number ±m · 2^e as an element of the type, replicated into every element (R61, R62). -/
def typedConst (t : VType) (neg : Bool) (m : Nat) (e : Int) : Nat :=
  let f := VType.fmt t
  let x := if VType.isFloat t then (if m == 0 then zeroF f false else (roundTo f rne neg m 1 e).1)
    else wrapN f.w (if neg then -(m : Int) else m)
  VType.join t (List.replicate (VType.count t) x)

/-- Inline constant 320 + n (R61). -/
def inlineConst (t : VType) (n : BitVec 5) : Nat :=
  let k := n.toNat
  if k < 16 then typedConst t false k 0
  else if k < 24 || !VType.isFloat t then typedConst t true (k - 15) 0
  else typedConst t false 1 (23 - (k : Int))

/-- A source as the type reads it in one lane (R60): 64 bits for f64, else 32. -/
def readSrc (g : Group) (t : VType) (a : Src) (lane : Nat) : Nat :=
  match a with
  | .v r =>
    if VType.isF64 t then (g.vreg (r.toNat + 1) lane ++ g.vreg r.toNat lane).toNat else (g.vreg r.toNat lane).toNat
  | .s r => if VType.isF64 t then (g.sreg r.toNat).toNat else (g.sreg r.toNat).toNat % 2 ^ 32
  | .c n => inlineConst t n
  | .lane => typedConst t false lane 0

/-- The one tag of a register pair (R450). -/
def pairTag (even odd : Tag) : Tag := if even.msb then even else if odd.msb then odd else even

/-- A source's tag (R62, R450). -/
def srcTag (g : Group) (t : VType) (a : Src) (lane : Nat) : Tag :=
  match a with
  | .v r => if VType.isF64 t then pairTag (g.vtag r.toNat lane) (g.vtag (r.toNat + 1) lane) else g.vtag r.toNat lane
  | _ => 0

/-- A VI immediate (R64). -/
def immValue (t : VType) (x : BitVec 23) : Nat :=
  match t with
  | .i32 | .n32 => (x.signExtend 32).toNat
  | .f32 => x.toNat * 2 ^ 9
  | .f64 => x.toNat * 2 ^ 41
  | .f16x2 | .bf16x2 | .i16x2 => joinN 16 [x.toNat, x.toNat]
  | .i8x4 => joinN 8 [x.toNat, x.toNat, x.toNat, x.toNat]

def readVB (g : Group) (t : VType) (b : VB) (lane : Nat) : Nat :=
  match b with
  | .r a => readSrc g t a lane
  | .i x => immValue t x
def vbTag (g : Group) (t : VType) (b : VB) (lane : Nat) : Tag :=
  match b with
  | .r a => srcTag g t a lane
  | .i _ => 0

/-- A scalar second operand (R68). -/
def readSB (g : Group) (b : SB) : Word :=
  match b with
  | .r r => g.sreg r.toNat
  | .i x => x.signExtend 64

/-! ### A source read in a format of R112 (R61, R120) -/

/-- The type whose reading and constant column a format takes: the integer column as raw bits for binary8 (R61). DESIGN
CHOICE (entry 15): under an 8- or 16-bit integer format the constant is the 32-bit two's-complement word, so that the
elements CVTX picks above the lowest hold its upper bits. -/
def fmtType (c : BitVec 8) : VType :=
  match c.toNat with
  | 0x01 => .f64
  | 0x02 => .f32
  | 0x03 => .f16x2
  | 0x04 => .bf16x2
  | _ => .i32

/-- A conversion's source: its low bits, or a pair for a 64-bit format; a 64-bit integer constant or lane
index is sign-extended. -/
def readFmt (g : Group) (c : BitVec 8) (a : Src) (lane : Nat) : Nat :=
  let w := fmtWidth c
  if w == 64 then
    match a with
    | .c n =>
      if fmtFloat c then inlineConst .f64 n
      else wrapN 64 (if n.toNat < 16 then (n.toNat : Int) else 15 - (n.toNat : Int))
    | .lane => if fmtFloat c then typedConst .f64 false lane 0 else lane
    | _ => readSrc g .f64 a lane
  else readSrc g (fmtType c) a lane % 2 ^ w

def fmtTag (g : Group) (c : BitVec 8) (a : Src) (lane : Nat) : Tag :=
  srcTag g (if fmtWidth c == 64 then .f64 else .i32) a lane

/-! ### The role's register budget (R31, R60) -/

/-- A register, or both halves of a pair, lies within the budget. -/
def Cur.vOk (c : Cur) (r : Nat) (pair : Bool) : Bool := (if pair then r + 1 else r) < c.g.regs
def Cur.srcOk (c : Cur) (t : VType) (a : Src) : Bool :=
  match a with
  | .v r => c.vOk r.toNat (VType.isF64 t)
  | _ => true
def Cur.vbOk (c : Cur) (t : VType) (b : VB) : Bool :=
  match b with
  | .r a => c.srcOk t a
  | .i _ => true
def Cur.idxOk (c : Cur) (m : MemOp) : Bool :=
  match m.index with
  | .v r => c.vOk r.toNat false
  | _ => true

/-! ### Memory addresses (R34) -/

/-- The index as a signed number: i32 of a vector register, or all 64 bits of a scalar register. -/
def readIdx (g : Group) (i : MIdx) (lane : Nat) : Int :=
  match i with
  | .none => 0
  | .v r => (g.vreg r.toNat lane).toInt
  | .s r => (g.sreg r.toNat).toInt

/-- base + index × scale + offset, computed exactly and taken modulo 2^64. -/
def memAddr (g : Group) (m : MemOp) (lane : Nat) : Word :=
  let base : Int := if m.nb then 0 else (g.sreg m.base.toNat).toNat
  BitVec.ofInt 64 (base + readIdx g m.index lane * 2 ^ m.scale.toNat + m.off.toInt)

/-- Bytes of an access (R70). -/
def MSize.bytes : MSize → Nat
  | .i8 | .n8 => 1
  | .i16 | .n16 => 2
  | .b32 => 4
  | .b64 => 8

/-- A loaded value extended to 64 bits: sign for i8 and i16, zero for the others. -/
def MSize.extend (z : MSize) (x : Nat) : Nat :=
  match z with
  | .i8 => wrapN 64 (sgn 8 x)
  | .i16 => wrapN 64 (sgn 16 x)
  | _ => x

end Sys2Proof.Machine
end

