-- ==== Sys2Proof/Machine/Flags.lean ====
section
/-! DEFINITION. The device keeps no status flags (R84). What stands in their place is whether a source or a
result is exceptional (R83), and the tag that follows from it (R351, R353). -/

namespace Sys2Proof.Machine

open Sys2Proof

/-- A source of a tag rule: its tag, and whether it is exceptional. -/
structure TSrc where
  tag : Tag
  exc : Bool
deriving DecidableEq, Repr

/-- A value, or any element of it, is NaN or infinite (R83). -/
def excValue (t : VType) (x : Nat) : Bool := VType.isFloat t && (VType.split t x).any (specialF (VType.fmt t))

/-- A source is exceptional when its tag has E or its value is (R83). -/
def srcOf (g : Group) (t : VType) (a : Src) (lane : Nat) : TSrc :=
  let tag := srcTag g t a lane
  ⟨tag, tag.msb || excValue t (readSrc g t a lane)⟩
def vbSrc (g : Group) (t : VType) (b : VB) (lane : Nat) : TSrc :=
  let tag := vbTag g t b lane
  ⟨tag, tag.msb || excValue t (readVB g t b lane)⟩

/-- The first exceptional source (R351). -/
def firstExc (l : List TSrc) : Option TSrc := l.find? (·.exc)

/-- tag_blame (R351). -/
def tagBlame (l : List TSrc) (exc : Bool) : TagSrc :=
  if !exc then .born false
  else match firstExc l with
    | some f => if f.tag.msb then .known f.tag else .born true
    | none => .born true

/-- tag_result with `made` as the instruction's rule defines it (R351). -/
def tagMade (rule : TagRule) (l : List TSrc) (exc made : Bool) (old : Tag) : TagSrc :=
  match rule with
  | .blame => tagBlame l exc
  | .birth => .born exc
  | .pass => match l with
    | [] => .known 0
    | f :: _ => .known (f.tag ||| (if made then 0x8000 else 0))
  | .keep => if exc then tagBlame l exc else .known old

/-- tag_result (R351). -/
def tagResult (rule : TagRule) (l : List TSrc) (exc : Bool) (old : Tag) : TagSrc :=
  tagMade rule l exc (exc && (firstExc l).isNone) old

/-- store_merge (R353): the tags of the words written, in address order, against the granule's tag. -/
def storeMerge (old : Tag) (ws : List Tag) (whole : Bool) : Tag :=
  match ws.find? (·.msb) with
  | some t => t
  | none => if old.msb && !whole then old else ws.headD old

end Sys2Proof.Machine
end

