-- ==== Sys2Proof/Machine/Words.lean ====
section
/-! DEFINITION. What every instruction word shares: births (R349), fixed- and variable-latency results (R51,
R52), random draws (R102), monitored units (R105), and error records (R342). -/

namespace Sys2Proof.Machine

open Sys2Proof

/-! ### Error records -/

/-- The fields of an error record (R342). -/
structure ErrRec where
  kind : Nat
  cause : Nat
  unitKind : Nat
  unit : Nat
  ctx : Nat
  slot : Nat
  relaunch : Nat
  va : Nat
  team : Nat
  grp : Nat
  lane : Nat
  pc : Nat
  ssyn : Word
  sunit : Lane32
  ttag : Tag
deriving DecidableEq, Repr

def ErrRec.zero : ErrRec := ⟨0, 0, 0, 0, 0, 0, 0, 0, 0, 0, 0, 0, 0, 0, 0⟩

def ErrRec.pack (r : ErrRec) (time : Word) (seq : Nat) : BitVec 512 :=
  time ++ BitVec.ofNat 64 seq ++ BitVec.ofNat 8 r.kind ++ BitVec.ofNat 8 r.cause ++ BitVec.ofNat 4 r.unitKind ++
  BitVec.ofNat 12 r.unit ++ BitVec.ofNat 6 r.ctx ++ BitVec.ofNat 12 r.slot ++ BitVec.ofNat 2 r.relaunch ++
  (0 : BitVec 4) ++ BitVec.ofNat 56 r.va ++ BitVec.ofNat 32 r.team ++ BitVec.ofNat 5 r.grp ++ BitVec.ofNat 6 r.lane ++
  (0 : BitVec 13) ++ BitVec.ofNat 56 r.pc ++ r.ssyn ++ r.sunit ++ r.ttag ++ (0 : BitVec 48)

/-- Writes an error record into the control cores' buffer, numbered within the boot; a full buffer drops it (R433). -/
def postRecord (s : State) (r : ErrRec) : State :=
  if s.errBuf.length ≥ 1024 then { s with ctrl := { s.ctrl with erlost := s.ctrl.erlost + 1 } }
  else { s with errBuf := s.errBuf ++ [r.pack s.time (s.errSeq + 1)], errSeq := s.errSeq + 1 }

/-! ### Births (R347 to R349) -/

/-- The handle of a triple in a roll, or the lowest unassigned handle for it; 0x7FFF in a broken, full or dead roll. -/
def internRoll (r : Roll) (site : Word) (b : Birth) : Nat × Roll :=
  if r.broken then (0x7FFF, r)
  else match r.entries.findIdx? (fun e => e.site == site && e.team == b.team && e.grp == b.grp) with
    | some i => (i + 1, r)
    | none =>
      if r.entries.length < r.cap then
        (r.entries.length + 1, { r with entries := r.entries ++ [⟨site, b.team, b.grp, b.role, 0, b.core, false⟩] })
      else (0x7FFF, r)

/-- One issue that bears tags raises its entry's births by one (R349). -/
def raiseRoll (r : Roll) (h : Nat) : Roll :=
  { r with entries := r.entries.modify (h - 1) (fun e => { e with births := min 0xFFFF (e.births + 1) }) }

/-- Interns a birth in the roll of a name; `first` says that its issue has borne no tag before. -/
def intern (s : State) (b : Birth) (site : Word) (first : Bool) : Nat × State :=
  match mfind s.roster b.roll.toNat with
  | some e => match e.obj with
    | .roll r =>
      let (h, r') := internRoll r site b
      (h, { s with roster := minsert b.roll.toNat { e with obj := .roll (if first then raiseRoll r' h else r') } s.roster })
    | _ => (0x7FFF, s)
  | none => (0x7FFF, s)

/-- Who bears the tags of a group. -/
def birthOf (s : State) (r : GRef) : Birth :=
  match s.team? r.team with
  | none => ⟨0, 0, 0, 0, 0⟩
  | some t => match t.group? r.grp, s.launch? t.launch with
    | some g, some l => ⟨l.roll, t.core, t.idx, g.grp, g.role⟩
    | _, _ => ⟨0, 0, 0, 0, 0⟩

/-- The births of one issue at `site`. -/
def internBirth (s : State) (b : Birth) (site : Word) : Nat × State := intern s b site true

/-- The births of one issue of the word at `site` in a group. -/
def internFor (s : State) (r : GRef) (site : Word) : Nat × State := internBirth s (birthOf s r) site

def TagSrc.isBorn : TagSrc → Bool
  | .born _ => true
  | .known _ => false

/-- The tag itself, given the handle of a birth. -/
def TagSrc.tag (h : Nat) : TagSrc → Tag
  | .known t => t
  | .born e => BitVec.ofBool e ++ BitVec.ofNat 15 h

def RegW.isBorn : RegW → Bool
  | .v _ _ _ t => TagSrc.isBorn t
  | _ => false

/-- Writes one register. -/
def Group.write (h : Nat) (g : Group) (w : RegW) : Group :=
  match w with
  | .v r lane x t => g.setV r lane x (TagSrc.tag h t)
  | .s r x => g.setS r.toNat x
  | .q r b => g.setQ r.toNat b
  | .p r m b => g.setP r.toNat m b
  | .k r n => g.setK r.toNat n
  | .nstat x => g.setN x

def Group.writes (h : Nat) (g : Group) (ws : List RegW) : Group := ws.foldl (Group.write h) g

/-- The handle of the births among some writes of an issue (R349). -/
def bornHandleOf (s : State) (r : GRef) (site : Word) (ws : List RegW) (first : Bool) : Nat × State :=
  if ws.any RegW.isBorn then intern s (birthOf s r) site first else (0, s)

/-- The same for an issue that has borne no tag before. -/
def bornHandle (s : State) (r : GRef) (site : Word) (ws : List RegW) : Nat × State := bornHandleOf s r site ws true

/-! ### Results -/

/-- A fixed-latency word: its registers are written and the word is done. -/
def fixedDone (s : State) (c : Cur) (h : Head) (ws : List RegW) : State :=
  let (n, s) := bornHandle s c.ref c.n.pc ws
  finish (c.mod s (fun g => Group.writes n g ws)) c h

/-- The scoreboard slot the clause's results signal (R49). -/
def slotOf (c : Cur) : Option Nat := if c.n.head.set < 8 then some c.n.head.set else none

def queueFull (g : Group) (q : ResQ) : Bool :=
  q != .none && (g.pend.filter (fun p => p.queue == q)).length ≥ 16

/-- What a variable-latency word must wait for before it issues: an entry of its queue (R81), or a 65th result
(R51). -/
def resultGate (c : Cur) (q : ResQ) : Option Why :=
  if queueFull c.g q then some (if q == .sfu then .sfuFull else .cvtFull)
  else match slotOf c with
    | some n => if mget 0 c.g.sb n ≥ 64 then some (.slotFull n) else none
    | none => none

/-- Records an outstanding result; its identity is the state's `seqN` before. -/
def addPend (s : State) (c : Cur) (q : ResQ) (ready : Bool) (ws : List RegW) : State :=
  let r : PendRes := ⟨s.seqN, slotOf c, q, c.n.pc, ws, ready, false⟩
  c.mod { s with seqN := s.seqN + 1 } (fun g => { g with
    pend := g.pend ++ [r]
    sb := match slotOf c with
      | some n => mput 0 g.sb n (mget 0 g.sb n + 1)
      | none => g.sb })

/-- The issue of a group's newest outstanding result has borne tags already. -/
def countPend (s : State) (c : Cur) (counted : Bool) : State :=
  if counted then c.mod s (fun g => { g with pend := g.pend.mapIdx (fun i p =>
    if i + 1 == g.pend.length then { p with counted := true } else p) }) else s

/-- A variable-latency word: its writes follow at RESULT_RETURN; or it waits and issues again. -/
def resultDone (s : State) (c : Cur) (h : Head) (q : ResQ) (ws : List RegW) : State :=
  match resultGate c q with
  | some w => blockWord s c w
  | none => finish (addPend s c q true ws) c h

/-- A group word whose result returns later. -/
def resultWord (s : State) (h : Head) (f : Cur → List RegW) : Host.Outcome State Fault Refusal :=
  onCur s fun c => resultDone s c h .none (f c)

/-- A vector word of fixed latency; `ok` is the register budget. -/
def fixedWord (s : State) (h : Head) (ok : Cur → Bool) (f : Cur → List RegW) : Host.Outcome State Fault Refusal :=
  onCur s fun c => if ok c then fixedDone s c h (f c) else wordFault s c .illegalOperand

/-- A value and tag for vd, or for the pair vd:vd+1. -/
def putV (pair : Bool) (r lane x : Nat) (t : TagSrc) : List RegW :=
  if pair then [.v r lane (BitVec.ofNat 32 x) t, .v (r + 1) lane (BitVec.ofNat 32 (x / 2 ^ 32)) t]
  else [.v r lane (BitVec.ofNat 32 x) t]

/-- The destination's tag before the write. -/
def oldTag (g : Group) (pair : Bool) (r lane : Nat) : Tag :=
  if pair then pairTag (g.vtag r lane) (g.vtag (r + 1) lane) else g.vtag r lane

/-- A predicate result: bit L for each active lane. -/
def putP (c : Cur) (h : Head) (p : BitVec 3) (f : Nat → Bool) : List RegW :=
  [.p p (c.active h) (maskOf ((lanesOf (c.active h)).filter f))]

/-! ### Random draws (R102, R103) -/

/-- The record of the context with an index. -/
def ctxEntry (s : State) (idx : Nat) : Option Entry :=
  (s.roster.map Prod.snd).find? (fun e => e.obj == .context idx)

/-- RNGKEY, the context's seed. -/
def rngKey (s : State) (idx : Nat) : Word :=
  match ctxEntry s idx with
  | some e => e.record.extractLsb' 128 64
  | none => 0

/-- The lane's draw for this word. -/
def drawFor (s : State) (c : Cur) (lane : Nat) : Nat :=
  let w : Word := BitVec.ofNat 32 c.t.idx ++ BitVec.ofNat 32 (c.g.grp * c.width + lane)
  (drawOf (rngKey s c.t.ctx) w (match c.g.lane lane with
    | some l => l.draws
    | none => 0)).toNat

/-- The counters of a set of lanes rise by one. -/
def countDraws (s : State) (c : Cur) (m : Mask) : State :=
  c.mod s (fun g => g.modLanes m (fun _ l => { l with draws := l.draws + 1 }))

/-- The rounding of element `i` of `n` in a lane (R93, R116). -/
def laneRd (s : State) (c : Cur) (rnd : Rnd) (sat : Bool) (n lane i : Nat) : Rd :=
  if rnd == .rs then
    if n == 1 then ⟨.rs, sat, drawFor s c lane, 32⟩ else ⟨.rs, sat, (drawFor s c lane / 2 ^ (8 * i)) % 256, 8⟩
  else ⟨rnd, sat, 0, 0⟩

/-! ### Monitored units (R105 to R107) -/

/-- One monitored element: its format, the exact result, the main result and whether it is exceptional. -/
structure MonElem where
  f   : NF
  x   : XV
  z   : Nat
  exc : Bool
deriving DecidableEq, Repr

/-- One lane of a monitored word: its elements in order, and how the lane's writes follow from them. -/
structure MonLane where
  lane  : Nat
  elems : List MonElem
deriving DecidableEq, Repr

/-- The hardware error about to strike an element of a vector unit. -/
def upsetMask (s : State) (core lane elem : Nat) : Nat :=
  match s.upsets.find? (fun u => !u.matrix && u.core == core && u.lane == lane && u.elem == elem) with
  | some u => u.mask
  | none => 0

/-- The element as the unit delivers it. -/
def struck (s : State) (core lane : Nat) (i : Nat) (e : MonElem) : MonElem :=
  let m := upsetMask s core lane i
  if m == 0 then e else
    let z := (e.z ^^^ m) % 2 ^ e.f.w
    { e with z := z, exc := e.exc || specialF e.f z }

def strike (s : State) (core : Nat) (l : MonLane) : MonLane := { l with elems := l.elems.mapIdx (struck s core l.lane) }

/-- The first element of a lane that fails its check. -/
def badElem (l : MonLane) : Option (Nat × MonElem) :=
  (l.elems.mapIdx (fun i e => (i, e))).find? (fun p => !monitorOk p.2.f p.2.x p.2.z)

/-- SSYN (R107). -/
def ssynWord (major lane main shadow elem count : Nat) : Word :=
  BitVec.ofNat 8 major ++ (0 : BitVec 2) ++ BitVec.ofNat 6 lane ++ BitVec.ofNat 16 main ++ BitVec.ofNat 16 shadow ++
  BitVec.ofNat 2 elem ++ BitVec.ofNat 7 count ++ (0 : BitVec 7)

/-- SUNIT (R107). -/
def sunitWord (kind core pipe lane : Nat) : Lane32 :=
  BitVec.ofNat 4 kind ++ BitVec.ofNat 8 core ++ BitVec.ofNat 2 pipe ++ BitVec.ofNat 6 lane ++ (0 : BitVec 12)

/-- The vector pipe that issues. -/
def Cur.pipe (c : Cur) : Nat := match c.g.clause with
  | some cl => cl.pipe
  | none => 0

/-- The error record of a monitor failure (R343). -/
def shadowRecord (c : Cur) (lane : Nat) (ssyn : Word) (sunit : Lane32) (ttag : Tag) : ErrRec :=
  { ErrRec.zero with
    kind := 3, cause := Cause.shadow.code, unit := c.t.core, ctx := c.t.ctx, slot := c.t.slot, relaunch := c.t.relaunches
    team := c.t.idx, grp := c.g.grp, lane := lane, pc := c.n.pc.toNat, ssyn := ssyn, sunit := sunit, ttag := ttag }

/-- The hardware errors that this word's lanes met are spent. -/
def spendUpsets (s : State) (core : Nat) (m : Mask) : State :=
  { s with upsets := s.upsets.filter (fun u => u.matrix || u.core != core || !m.getLsbD u.lane) }

/-- A monitored word (R105, R106): lanes whose check fails write nothing, draw nothing and trap SHADOW; the
others complete. `kind` is the unit of R107, `tags` the writes of a lane. -/
def monitored (s : State) (c : Cur) (h : Head) (major kind : Nat) (draws : Bool) (lanes : List MonLane)
    (out : MonLane → List RegW) : State :=
  let lanes := lanes.map (strike s c.t.core)
  let bad := lanes.filter (fun l => (badElem l).isSome)
  let good := lanes.filter (fun l => (badElem l).isNone)
  let ws := good.flatMap out
  let (hd, s) := bornHandle s c.ref c.n.pc (lanes.flatMap out)
  let s := spendUpsets s c.t.core (c.active h)
  let s := if draws then countDraws s c (maskOf (good.map (·.lane))) else s
  let s := c.mod s (fun g => Group.writes hd g ws)
  match bad with
  | [] => finish s c h
  | b :: _ => match badElem b with
    | none => s
    | some (i, e) =>
      let ssyn := ssynWord major b.lane (narrowMain e.f e.z) (narrowShadow e.f e.x) i bad.length
      let sunit := sunitWord kind c.t.core c.pipe b.lane
      let ttag := fun (l : MonLane) => match out l with
        | .v _ _ _ t :: _ => TagSrc.tag hd t
        | _ => 0
      let s := postRecord s (shadowRecord c b.lane ssyn sunit (ttag b))
      raiseTraps s c 0 c.n.pc ssyn sunit (0, 0, 0) (bad.map (fun l => ⟨l.lane, .shadow, ttag l, 0⟩))

end Sys2Proof.Machine
end

