-- ==== Sys2Proof/Machine/Scalar.lean ====
section
/-! DEFINITION. Scalar instructions (R131 to R133). -/

namespace Sys2Proof.Machine

open Sys2Proof

/-- Clamping to a range. -/
def clampI (lo hi x : Int) : Int := if x < lo then lo else if x > hi then hi else x

/-- SADD and SSUB: the exact result fitted by the func. -/
def scalarFit (f : FitS) (si ni : Int) : Word :=
  match f with
  | .wrap => BitVec.ofInt 64 si
  | .sati => BitVec.ofInt 64 (clampI (-2 ^ 63) (2 ^ 63 - 1) si)
  | .satn => BitVec.ofInt 64 (clampI 0 (2 ^ 64 - 1) ni)

def scalarAdd (f : FitS) (a b : Word) : Word := scalarFit f (a.toInt + b.toInt) (a.toNat + b.toNat)
def scalarSub (f : FitS) (a b : Word) : Word := scalarFit f (a.toInt - b.toInt) ((a.toNat : Int) - b.toNat)

def scalarMul (f : MulF) (a b : Word) : Word :=
  match f with
  | .lo => a * b
  | .hii => BitVec.ofInt 64 (a.toInt * b.toInt / 2 ^ 64)
  | .hin => BitVec.ofNat 64 (a.toNat * b.toNat / 2 ^ 64)

/-- Division of width `w` (R90, R132): truncated towards zero, the remainder with the dividend's sign; the flag
is a division by zero or the one overflow. -/
def divide (w : Nat) (f : DivF) (a b : BitVec w) : BitVec w × Bool :=
  let lo : Int := -2 ^ (w - 1)
  let hi : Int := 2 ^ (w - 1) - 1
  let ovf := a.toInt == lo && b.toInt == -1
  match f with
  | .divi =>
    if b == 0 then (BitVec.ofInt w (if a.toInt ≥ 0 then hi else lo), true)
    else if ovf then (BitVec.ofInt w hi, true)
    else (BitVec.ofInt w (a.toInt.tdiv b.toInt), false)
  | .remi =>
    if b == 0 then (a, true) else if ovf then (0, true) else (BitVec.ofInt w (a.toInt.tmod b.toInt), false)
  | .divn => if b == 0 then (BitVec.allOnes w, true) else (BitVec.ofNat w (a.toNat / b.toNat), false)
  | .remn => if b == 0 then (a, true) else (BitVec.ofNat w (a.toNat % b.toNat), false)

/-- Bitwise functions (R86, R131). -/
def logic (w : Nat) (f : LogF) (a b : BitVec w) : BitVec w :=
  match f with
  | .and => a &&& b
  | .or => a ||| b
  | .xor => a ^^^ b
  | .andn => a &&& ~~~b
  | .orn => a ||| ~~~b
  | .xnor => ~~~(a ^^^ b)

/-- Shifts and rotations of width `w` by a natural count (R86, R131). -/
def shift (w : Nat) (f : ShF) (a : BitVec w) (n : Nat) : BitVec w :=
  match f with
  | .shl => if n ≥ w then 0 else a <<< n
  | .shr => if n ≥ w then 0 else a >>> n
  | .sra => if n ≥ w then (if a.msb then BitVec.allOnes w else 0) else a.sshiftRight n
  | .rol => a.rotateLeft (n % w)
  | .ror => a.rotateRight (n % w)

def scalarCmp (f : SCmpF) (a b : Word) : Bool :=
  match f with
  | .eq => a == b
  | .ne => a != b
  | .lt => a.toInt < b.toInt
  | .le => a.toInt ≤ b.toInt
  | .gt => a.toInt > b.toInt
  | .ge => a.toInt ≥ b.toInt
  | .nlt => a.toNat < b.toNat
  | .nle => a.toNat ≤ b.toNat
  | .ngt => a.toNat > b.toNat
  | .nge => a.toNat ≥ b.toNat

/-- Ones in the low `n` bits. -/
def popCount : Nat → Nat → Nat
  | 0, _ => 0
  | n + 1, x => x % 2 + popCount n (x / 2)
/-- Zeros below the lowest one, `n` for zero. -/
def trailZeros : Nat → Nat → Nat
  | 0, _ => 0
  | n + 1, x => if x % 2 == 1 then 0 else 1 + trailZeros n (x / 2)
/-- The low `n` bits reversed. -/
def reverseBits : Nat → Nat → Nat
  | 0, _ => 0
  | n + 1, x => (x % 2) * 2 ^ n + reverseBits n (x / 2)
def leadZeros (n x : Nat) : Nat := trailZeros n (reverseBits n x)

/-- A field extract and a field insert of width `w` (R88, R133). -/
def fieldGet (w : Nat) (a pos len : Nat) : Nat :=
  if pos ≥ w || len == 0 then 0 else (a / 2 ^ pos) % 2 ^ (min len (w - pos))
def fieldPut (w : Nat) (old a pos len : Nat) : Nat :=
  if pos ≥ w || len == 0 then old
  else
    let n := min len (w - pos)
    old % 2 ^ pos + (a % 2 ^ n) * 2 ^ pos + (old / 2 ^ (pos + n)) * 2 ^ (pos + n)

/-- SBIT's position and width. -/
def sbitField (g : Group) (w : SBitW) : Nat × Nat :=
  match w with
  | .none => (0, 0)
  | .regs b e => ((g.sreg b.toNat).toNat, (g.sreg e.toNat).toNat)
  | .imm p n => (p.toNat, n.toNat)

def scalarBit (g : Group) (f : SBitF) (d a : Word) (w : SBitW) : Word :=
  let (pos, len) := sbitField g w
  BitVec.ofNat 64 (match f with
    | .popc => popCount 64 a.toNat
    | .clz => leadZeros 64 a.toNat
    | .ctz => trailZeros 64 a.toNat
    | .brev => reverseBits 64 a.toNat
    | .bfe => fieldGet 64 a.toNat pos len
    | .bfi => fieldPut 64 d.toNat a.toNat pos len)

def scalarMinMax (f : SMinMaxF) (a b : Word) : Word :=
  match f with
  | .mini => if b.toInt < a.toInt then b else a
  | .maxi => if a.toInt < b.toInt then b else a
  | .minn => if b.toNat < a.toNat then b else a
  | .maxn => if a.toNat < b.toNat then b else a

/-- A scalar word that writes s `d`. -/
def sWord (s : State) (h : Head) (d : BitVec 6) (f : Group → Word) : Host.Outcome State Fault Refusal :=
  regWord s h fun _ g => g.setS d.toNat (f g)

def execNop (h : Head) (s : State) : Host.Outcome State Fault Refusal := regWord s h fun _ g => g

def execSmovReg (h : Head) (d a : BitVec 6) (s : State) : Host.Outcome State Fault Refusal :=
  sWord s h d fun g => g.sreg a.toNat

def execSmovImm (h : Head) (d : BitVec 6) (imm : BitVec 32) (s : State) : Host.Outcome State Fault Refusal :=
  sWord s h d fun _ => imm.signExtend 64

def execSmovHi (h : Head) (d : BitVec 6) (imm : BitVec 32) (s : State) : Host.Outcome State Fault Refusal :=
  sWord s h d fun g => imm ++ (g.sreg d.toNat).extractLsb' 0 32

def execSadd (h : Head) (f : FitS) (d a : BitVec 6) (b : SB) (s : State) : Host.Outcome State Fault Refusal :=
  sWord s h d fun g => scalarAdd f (g.sreg a.toNat) (readSB g b)

def execSsub (h : Head) (f : FitS) (d a : BitVec 6) (b : SB) (s : State) : Host.Outcome State Fault Refusal :=
  sWord s h d fun g => scalarSub f (g.sreg a.toNat) (readSB g b)

def execSmul (h : Head) (f : MulF) (d a : BitVec 6) (b : SB) (s : State) : Host.Outcome State Fault Refusal :=
  sWord s h d fun g => scalarMul f (g.sreg a.toNat) (readSB g b)

def execSdiv (h : Head) (f : DivF) (d a : BitVec 6) (b : SB) (s : State) : Host.Outcome State Fault Refusal :=
  sWord s h d fun g => (divide 64 f (g.sreg a.toNat) (readSB g b)).1

def execSlog (h : Head) (f : LogF) (d a : BitVec 6) (b : SB) (s : State) : Host.Outcome State Fault Refusal :=
  sWord s h d fun g => logic 64 f (g.sreg a.toNat) (readSB g b)

def execSsh (h : Head) (f : ShF) (d a : BitVec 6) (b : SB) (s : State) : Host.Outcome State Fault Refusal :=
  sWord s h d fun g => shift 64 f (g.sreg a.toNat) (readSB g b).toNat

def execScmp (h : Head) (f : SCmpF) (q : BitVec 3) (a : BitVec 6) (b : SB) (s : State) :
    Host.Outcome State Fault Refusal :=
  regWord s h fun _ g => g.setQ q.toNat (scalarCmp f (g.sreg a.toNat) (readSB g b))

def execSsel (h : Head) (c : BitVec 3) (d a : BitVec 6) (b : SB) (s : State) : Host.Outcome State Fault Refusal :=
  sWord s h d fun g => if g.bool c.toNat then g.sreg a.toNat else readSB g b

def execSbit (h : Head) (f : SBitF) (d a : BitVec 6) (w : SBitW) (s : State) : Host.Outcome State Fault Refusal :=
  sWord s h d fun g => scalarBit g f (g.sreg d.toNat) (g.sreg a.toNat) w

def execSminmax (h : Head) (f : SMinMaxF) (d a : BitVec 6) (b : SB) (s : State) : Host.Outcome State Fault Refusal :=
  sWord s h d fun g => scalarMinMax f (g.sreg a.toNat) (readSB g b)

def qLogic (f : QLogF) (a b : Bool) : Bool :=
  match f with
  | .and => a && b
  | .or => a || b
  | .xor => a != b
  | .not => !a
  | .mov => a

def execQlog (h : Head) (f : QLogF) (d a b : BitVec 3) (s : State) : Host.Outcome State Fault Refusal :=
  regWord s h fun _ g => g.setQ d.toNat (qLogic f (g.bool a.toNat) (g.bool b.toNat))

end Sys2Proof.Machine
end

