-- ==== Sys2Proof/Machine/Vector.lean ====
section
/-! DEFINITION. Vector integer instructions (R85 to R90). -/

namespace Sys2Proof.Machine

open Sys2Proof

/-- A type is natural (R62). -/
def VType.natural : VType → Bool
  | .n32 => true
  | _ => false

/-- An element as the exact integer its type gives. -/
def elemInt (t : VType) (x : Nat) : Int := if VType.natural t then x else sgn (VType.ew t) x

/-- The fit of R86: the element, and whether it was clamped. -/
def fitElem (t : VType) (sat : Bool) (x : Int) : Nat × Bool :=
  let w := VType.ew t
  if sat then
    let y := if VType.natural t then clampI 0 (2 ^ w - 1) x else clampI (-2 ^ (w - 1)) (2 ^ (w - 1) - 1) x
    (wrapN w y, x != y)
  else (wrapN w x, false)

/-- The elements of a packed result, and whether any is exceptional. -/
def packElems (t : VType) (l : List (Nat × Bool)) : Nat × Bool :=
  (VType.join t (l.map Prod.fst), l.any Prod.snd)

/-- The writes of one lane: a value, its sources and whether the result is exceptional (R86). -/
def laneV (c : Cur) (h : Head) (t : VType) (vd : BitVec 8) (lane : Nat) (srcs : List TSrc) (r : Nat × Bool) :
    List RegW :=
  putV (VType.isF64 t) vd.toNat lane r.1 (tagResult h.rule srcs r.2 (oldTag c.g (VType.isF64 t) vd.toNat lane))

/-- A word of sources A and B (VR or VI). -/
def vecAB (s : State) (h : Head) (t : VType) (vd : BitVec 8) (a : Src) (b : VB) (f : Nat → Nat → Nat × Bool) :
    Host.Outcome State Fault Refusal :=
  fixedWord s h (fun c => c.vOk vd.toNat (VType.isF64 t) && c.srcOk t a && c.vbOk t b) fun c =>
    (lanesOf (c.active h)).flatMap fun i =>
      laneV c h t vd i [srcOf c.g t a i, vbSrc c.g t b i] (f (readSrc c.g t a i) (readVB c.g t b i))

/-- A word of source A. -/
def vecA (s : State) (h : Head) (t : VType) (vd : BitVec 8) (a : Src) (f : Nat → Nat × Bool) :
    Host.Outcome State Fault Refusal :=
  fixedWord s h (fun c => c.vOk vd.toNat (VType.isF64 t) && c.srcOk t a) fun c =>
    (lanesOf (c.active h)).flatMap fun i => laneV c h t vd i [srcOf c.g t a i] (f (readSrc c.g t a i))

/-- A word of sources A, B and C; `f` also takes the old vd, which `old` makes a source. -/
def vecABC (s : State) (h : Head) (t : VType) (vd : BitVec 8) (a b c : Src) (old : Bool)
    (f : Nat → Nat → Nat → Nat → Nat × Bool) : Host.Outcome State Fault Refusal :=
  fixedWord s h (fun k => k.vOk vd.toNat (VType.isF64 t) && k.srcOk t a && k.srcOk t b && k.srcOk t c) fun k =>
    (lanesOf (k.active h)).flatMap fun i =>
      let d := readSrc k.g t (.v vd) i
      let srcs := [srcOf k.g t a i, srcOf k.g t b i, srcOf k.g t c i] ++ (if old then [srcOf k.g t (.v vd) i] else [])
      laneV k h t vd i srcs (f (readSrc k.g t a i) (readSrc k.g t b i) (readSrc k.g t c i) d)

/-- Element by element. -/
def mapElems (t : VType) (f : Nat → Nat → Nat × Bool) (a b : Nat) : Nat × Bool :=
  packElems t (List.zipWith f (VType.split t a) (VType.split t b))

def addElem (f : FitV) (t : VType) (a b : Nat) : Nat × Bool := fitElem t (f == .sat) (elemInt t a + elemInt t b)
def subElem (f : FitV) (t : VType) (a b : Nat) : Nat × Bool := fitElem t (f == .sat) (elemInt t a - elemInt t b)

def execVadd (h : Head) (f : FitV) (t : VType) (vd : BitVec 8) (a : Src) (b : VB) (s : State) :
    Host.Outcome State Fault Refusal := vecAB s h t vd a b (mapElems t (addElem f t))

def execVsub (h : Head) (f : FitV) (t : VType) (vd : BitVec 8) (a : Src) (b : VB) (s : State) :
    Host.Outcome State Fault Refusal := vecAB s h t vd a b (mapElems t (subElem f t))

/-- .hii and .hin take the high word of the 64-bit product whatever the type code. -/
def mulWord (f : MulF) (t : VType) (a b : Nat) : Nat × Bool :=
  match f with
  | .lo => mapElems t (fun x y => (wrapN (VType.ew t) (x * y : Nat), false)) a b
  | .hii => (wrapN 32 (sgn 32 a * sgn 32 b / 2 ^ 32), false)
  | .hin => (a % 2 ^ 32 * (b % 2 ^ 32) / 2 ^ 32, false)

def execVmul (h : Head) (f : MulF) (t : VType) (vd : BitVec 8) (a : Src) (b : VB) (s : State) :
    Host.Outcome State Fault Refusal := vecAB s h t vd a b (mulWord f t)

def execVmad (h : Head) (t : VType) (vd : BitVec 8) (a b c : Src) (s : State) : Host.Outcome State Fault Refusal :=
  vecABC s h t vd a b c false fun x y z _ => ((x * y + z) % 2 ^ 32, false)

def execVlog (h : Head) (f : LogF) (t : VType) (vd : BitVec 8) (a : Src) (b : VB) (s : State) :
    Host.Outcome State Fault Refusal :=
  vecAB s h t vd a b fun x y => ((logic 32 f (BitVec.ofNat 32 x) (BitVec.ofNat 32 y)).toNat, false)

/-- VSH: the count of each element is natural. -/
def shElem (f : ShF) (t : VType) (a n : Nat) : Nat × Bool :=
  ((shift (VType.ew t) f (BitVec.ofNat (VType.ew t) a) n).toNat, false)

def execVsh (h : Head) (f : ShF) (t : VType) (vd : BitVec 8) (a : Src) (b : VB) (s : State) :
    Host.Outcome State Fault Refusal := vecAB s h t vd a b (mapElems t (shElem f t))

def minmaxInt (f : MinMaxF) (t : VType) (a b : Nat) : Nat × Bool :=
  let x := elemInt t a
  let y := elemInt t b
  (match f with
    | .min => if y < x then b else a
    | .max => if x < y then b else a, false)

def execVminmax (h : Head) (f : MinMaxF) (t : VType) (vd : BitVec 8) (a : Src) (b : VB) (s : State) :
    Host.Outcome State Fault Refusal := vecAB s h t vd a b (mapElems t (minmaxInt f t))

def absElem (f : AbsF) (t : VType) (a : Nat) : Nat × Bool :=
  let x := sgn (VType.ew t) a
  match f with
  | .abs => fitElem t false (if x < 0 then -x else x)
  | .neg => fitElem t false (-x)
  | .abssat => fitElem t true (if x < 0 then -x else x)

def execVabs (h : Head) (f : AbsF) (t : VType) (vd : BitVec 8) (a : Src) (s : State) :
    Host.Outcome State Fault Refusal :=
  vecA s h t vd a fun x => packElems t ((VType.split t x).map (absElem f t))

def cmpInt (f : CmpF) (x y : Int) : Bool :=
  match f with
  | .eq => x == y
  | .ne => x != y
  | .lt => x < y
  | .le => x ≤ y
  | .gt => x > y
  | .ge => x ≥ y

def execVcmp (h : Head) (f : CmpF) (t : VType) (p : BitVec 3) (a : Src) (b : VB) (s : State) :
    Host.Outcome State Fault Refusal :=
  fixedWord s h (fun c => c.srcOk t a && c.vbOk t b) fun c =>
    putP c h p fun i => cmpInt f (elemInt t (readSrc c.g t a i)) (elemInt t (readVB c.g t b i))

/-- VSEL copies 32 bits for any type: under .f64 a register is read as one 32-bit register (R87). -/
def selType (t : VType) : VType := if VType.isF64 t then .n32 else t

/-- The 32 bits of an operand of VSEL. DESIGN CHOICE (entry 85): under .f64 a constant or the lane index gives the low half
of its 64 bits. -/
def readSel (g : Group) (t : VType) (a : Src) (lane : Nat) : Nat :=
  match a with
  | .v _ | .s _ => readSrc g (selType t) a lane
  | a => readSrc g t a lane % 2 ^ 32

/-- VSEL copies the chosen operand unchanged; only it is a source (R87). DESIGN CHOICE (entry 85): its result is never
exceptional, as VMOV's is not (R89). -/
def execVsel (h : Head) (t : VType) (vd : BitVec 8) (a b : Src) (p : BitVec 3) (s : State) :
    Host.Outcome State Fault Refusal :=
  fixedWord s h (fun c => c.vOk vd.toNat false && c.srcOk (selType t) a && c.srcOk (selType t) b) fun c =>
    (lanesOf (c.active h)).flatMap fun i =>
      let x := if (c.g.pred p.toNat).getLsbD i then a else b
      laneV c h (selType t) vd i [srcOf c.g (selType t) x i] (readSel c.g t x i, false)

def vbitElem (f : VBitF) (x : Nat) : Nat :=
  match f with
  | .popc => popCount 32 x
  | .clz => leadZeros 32 x
  | .ctz => trailZeros 32 x
  | .brev => reverseBits 32 x

def execVbit (h : Head) (f : VBitF) (t : VType) (vd : BitVec 8) (a : Src) (s : State) :
    Host.Outcome State Fault Refusal := vecA s h t vd a fun x => (vbitElem f x, false)

/-- VBFE: sign-extended from the field's top bit for type 0 (R88). -/
def bfeElem (t : VType) (a pos len : Nat) : Nat :=
  let f := fieldGet 32 a pos len
  if t == .i32 && pos < 32 && len != 0 then wrapN 32 (sgn (min len (32 - pos)) f) else f

def execVbfe (h : Head) (t : VType) (vd : BitVec 8) (a b c : Src) (s : State) : Host.Outcome State Fault Refusal :=
  vecABC s h t vd a b c false fun x p w _ => (bfeElem t x p w, false)

def execVbfi (h : Head) (t : VType) (vd : BitVec 8) (a b c : Src) (s : State) : Host.Outcome State Fault Refusal :=
  vecABC s h t vd a b c true fun x p w d => (fieldPut 32 d x p w, false)

/-- VMOV's four funcs (R89): a copy is never exceptional. -/
def movSrc (c : Cur) (t : VType) (f : VMovF) (i : Nat) : TSrc × Nat :=
  match f with
  | .reg a => (srcOf c.g t a i, readSrc c.g t a i)
  | .imm x => (⟨0, excValue t (immValue t x)⟩, immValue t x)
  | .lane => (⟨0, false⟩, readSrc c.g t .lane i)
  | .scalar r => (srcOf c.g t (.s r) i, readSrc c.g t (.s r) i)

def movOk (c : Cur) (t : VType) (f : VMovF) : Bool :=
  match f with
  | .reg a => c.srcOk t a
  | _ => true

def execVmov (h : Head) (t : VType) (vd : BitVec 8) (f : VMovF) (s : State) : Host.Outcome State Fault Refusal :=
  fixedWord s h (fun c => c.vOk vd.toNat (VType.isF64 t) && movOk c t f) fun c =>
    (lanesOf (c.active h)).flatMap fun i =>
      let (src, x) := movSrc c t f i
      laneV c h t vd i [src] (x, false)

/-- VDIV is variable-latency, through the SFU queue (R80, R90). -/
def execVdiv (h : Head) (f : DivF) (vd : BitVec 8) (a b : Src) (s : State) : Host.Outcome State Fault Refusal :=
  onCur s fun c =>
    if c.vOk vd.toNat false && c.srcOk .i32 a && c.srcOk .i32 b then
      resultDone s c h .sfu ((lanesOf (c.active h)).flatMap fun i =>
        let (x, e) := divide 32 f (BitVec.ofNat 32 (readSrc c.g .i32 a i)) (BitVec.ofNat 32 (readSrc c.g .i32 b i))
        laneV c h .i32 vd i [srcOf c.g .i32 a i, srcOf c.g .i32 b i] (x.toNat, e))
    else wordFault s c .illegalOperand

end Sys2Proof.Machine
end

