-- ==== Sys2Proof/Machine/Float.lean ====
section
/-! DEFINITION. Vector floating point (R91 to R96), dot products (R97 to R99), SFU (R100) and RNG (R104). -/

namespace Sys2Proof.Machine

open Sys2Proof

/-- The monitored elements of one lane of an arithmetic word (R92): `xs` are the operand words. -/
def fpLane (s : State) (c : Cur) (t : VType) (m : FMod) (op : FpOp) (i : Nat) (xs : List Nat) : MonLane :=
  let n := VType.count t
  let parts := xs.map (VType.split t)
  ⟨i, (List.range n).map fun k =>
    let es := parts.map (fun l => l.getD k 0)
    let rd := laneRd s c m.rnd m.sat n i k
    let f := VType.fmt t
    let (z, e) := fpElem f rd m.ftz op es
    ⟨f, fpExact f rd m.ftz op es, z, e⟩⟩

/-- The packed result of a lane's elements. -/
def monValue (t : VType) (l : MonLane) : Nat × Bool := packElems t (l.elems.map fun e => (e.z, e.exc))

/-- FADD, FSUB and FMUL; `kind` is the unit of R107. -/
def fpAB (s : State) (h : Head) (major kind : Nat) (op : FpOp) (t : VType) (vd : BitVec 8) (a : Src) (b : VB)
    (m : FMod) : Host.Outcome State Fault Refusal :=
  onCur s fun c =>
    if c.vOk vd.toNat (VType.isF64 t) && c.srcOk t a && c.vbOk t b then
      let lanes := (lanesOf (c.active h)).map fun i => fpLane s c t m op i [readSrc c.g t a i, readVB c.g t b i]
      monitored s c h major kind (m.rnd == .rs) lanes fun l =>
        laneV c h t vd l.lane [srcOf c.g t a l.lane, vbSrc c.g t b l.lane] (monValue t l)
    else wordFault s c .illegalOperand

def execFadd (h : Head) (t : VType) (vd : BitVec 8) (a : Src) (b : VB) (m : FMod) (s : State) :
    Host.Outcome State Fault Refusal := fpAB s h 0x30 0 .add t vd a b m

def execFsub (h : Head) (t : VType) (vd : BitVec 8) (a : Src) (b : VB) (m : FMod) (s : State) :
    Host.Outcome State Fault Refusal := fpAB s h 0x31 0 .sub t vd a b m

def execFmul (h : Head) (t : VType) (vd : BitVec 8) (a : Src) (b : VB) (m : FMod) (s : State) :
    Host.Outcome State Fault Refusal := fpAB s h 0x32 1 .mul t vd a b m

/-- The signs of FFMA's product and addend (R92): .pp, .pm, .mp, .mm. -/
def fmaOp : FmaF → FpOp
  | .pp => .fma false false
  | .pm => .fma false true
  | .mp => .fma true false
  | .mm => .fma true true

def execFfma (h : Head) (f : FmaF) (t : VType) (vd : BitVec 8) (a b c : Src) (m : FMod) (s : State) :
    Host.Outcome State Fault Refusal :=
  onCur s fun k =>
    if k.vOk vd.toNat (VType.isF64 t) && k.srcOk t a && k.srcOk t b && k.srcOk t c then
      let lanes := (lanesOf (k.active h)).map fun i =>
        fpLane s k t m (fmaOp f) i [readSrc k.g t a i, readSrc k.g t b i, readSrc k.g t c i]
      monitored s k h 0x33 2 (m.rnd == .rs) lanes fun l =>
        laneV k h t vd l.lane [srcOf k.g t a l.lane, srcOf k.g t b l.lane, srcOf k.g t c l.lane] (monValue t l)
    else wordFault s k .illegalOperand

def execFminmax (h : Head) (f : FMinMaxF) (t : VType) (vd : BitVec 8) (a : Src) (b : VB) (s : State) :
    Host.Outcome State Fault Refusal := vecAB s h t vd a b (mapElems t (minmaxElem (VType.fmt t) f))

def execFcmp (h : Head) (f : FCmpF) (t : VType) (p : BitVec 3) (a : Src) (b : VB) (s : State) :
    Host.Outcome State Fault Refusal :=
  fixedWord s h (fun c => c.srcOk t a && c.vbOk t b) fun c =>
    putP c h p fun i => cmpElem (VType.fmt t) f (readSrc c.g t a i) (readVB c.g t b i)

def execFcls (h : Head) (t : VType) (p : BitVec 3) (a : Src) (mask : BitVec 10) (s : State) :
    Host.Outcome State Fault Refusal :=
  fixedWord s h (fun c => c.srcOk t a) fun c =>
    putP c h p fun i => mask.getLsbD (classF (VType.fmt t) (readSrc c.g t a i))

/-! ### FDOT -/

/-- The element format of FDOT's A and B, and its vector type for constants (R61, R67). -/
def FDotF.fmt : FDotF → NF
  | .f16 => .f16
  | .bf16 => .bf16
  | .b8 x => fmt8 x
/-- The type under which A and B are read. DESIGN CHOICE (entry 15): the lane index is converted to the 16-bit format in
both halves (R62); under .b8 it is the raw 32-bit integer, as a constant's bits are. -/
def FDotF.type : FDotF → VType
  | .f16 => .f16x2
  | .bf16 => .bf16x2
  | .b8 _ => .i32
def FDotF.count : FDotF → Nat
  | .b8 _ => 4
  | _ => 2

def dotElems (f : FDotF) (x : Nat) : List Nat := splitN (FDotF.fmt f).w (FDotF.count f) x

/-- tag_dot's sources (R99): k by k, A before B, then C. -/
def dotSrcs (c : Cur) (f : FDotF) (a b x : Src) (i : Nat) : List TSrc :=
  let t := FDotF.type f
  let one := fun (o : Src) (e : Nat) =>
    let tag := srcTag c.g t o i
    (⟨tag, tag.msb || specialF (FDotF.fmt f) e⟩ : TSrc)
  (List.zipWith (fun p q => [one a p, one b q]) (dotElems f (readSrc c.g t a i)) (dotElems f (readSrc c.g t b i))).flatten
    ++ [srcOf c.g .f32 x i]

def dotLane (s : State) (k : Cur) (f : FDotF) (m : FMod) (a b c : Src) (i : Nat) : MonLane :=
  let t := FDotF.type f
  let x := dotElems f (readSrc k.g t a i)
  let y := dotElems f (readSrc k.g t b i)
  let rd := laneRd s k m.rnd m.sat 1 i 0
  let (z, e) := dotElem (FDotF.fmt f) rd m.ftz x y (readSrc k.g .f32 c i)
  ⟨i, [⟨.f32, dotExact (FDotF.fmt f) rd m.ftz x y (readSrc k.g .f32 c i), z, e⟩]⟩

def execFdot (h : Head) (f : FDotF) (vd : BitVec 8) (a b c : Src) (m : FMod) (s : State) :
    Host.Outcome State Fault Refusal :=
  onCur s fun k =>
    if k.vOk vd.toNat false && k.srcOk .i32 a && k.srcOk .i32 b && k.srcOk .f32 c then
      monitored s k h 0x37 3 (m.rnd == .rs) ((lanesOf (k.active h)).map (dotLane s k f m a b c)) fun l =>
        laneV k h .f32 vd l.lane (dotSrcs k f a b c l.lane) (monValue .f32 l)
    else wordFault s k .illegalOperand

/-! ### SFU and RNG -/

/-- SFU's sources: B only for .div (R100). -/
def execSfu (h : Head) (f : SfuF) (vd : BitVec 8) (a b : Src) (ftz : Bool) (s : State) :
    Host.Outcome State Fault Refusal :=
  onCur s fun c =>
    if c.vOk vd.toNat false && c.srcOk .f32 a && (f != .div || c.srcOk .f32 b) then
      resultDone s c h .sfu ((lanesOf (c.active h)).flatMap fun i =>
        let srcs := [srcOf c.g .f32 a i] ++ (if f == .div then [srcOf c.g .f32 b i] else [])
        laneV c h .f32 vd i srcs (sfuElem f ftz (readSrc c.g .f32 a i) (readSrc c.g .f32 b i)))
    else wordFault s c .illegalOperand

/-- RNG's value (R104). -/
def rngValue (f : RngF) (d : Nat) : Nat :=
  match f with
  | .raw => d
  | .unif => if d / 256 == 0 then 0 else (roundTo .f32 rne false (d / 256) 1 (-24)).1

def execRng (h : Head) (f : RngF) (vd : BitVec 8) (s : State) : Host.Outcome State Fault Refusal :=
  onCur s fun c =>
    if c.vOk vd.toNat false then
      fixedDone (countDraws s c (c.active h)) c h ((lanesOf (c.active h)).flatMap fun i =>
        laneV c h .n32 vd i [] (rngValue f (drawFor s c i), false))
    else wordFault s c .illegalOperand

end Sys2Proof.Machine
end

