-- ==== Sys2Proof/Machine/CrossLane.lean ====
section
/-! DEFINITION. Cross-lane instructions (R173 to R186). -/

namespace Sys2Proof.Machine

open Sys2Proof

/-- A mask of lanes written to vd, and to vd:vd+1 at width 64 (R177, R178). -/
def putMask (c : Cur) (h : Head) (vd : BitVec 8) (i : Nat) (m : Mask) (srcs : List TSrc) : List RegW :=
  let pair := c.width == 64
  putV pair vd.toNat i m.toNat (tagResult h.rule srcs false (oldTag c.g pair vd.toNat i))

/-- vd of VBAL and VMATCH: an even register with both halves in the budget at width 64 (R175). -/
def maskDestOk (c : Cur) (vd : BitVec 8) : Bool :=
  if c.width == 64 then evenReg vd && c.vOk vd.toNat true else c.vOk vd.toNat false

/-- VBAL (R177). -/
def execVbal (h : Head) (vd : BitVec 8) (a b : Src) (s : State) : Host.Outcome State Fault Refusal :=
  fixedWord s h (fun c => maskDestOk c vd && c.srcOk .n32 a && c.srcOk .n32 b) fun c =>
    let act := lanesOf (c.active h)
    let srcs := act.map (srcOf c.g .n32 a)
    act.flatMap fun i =>
      let n := readSrc c.g .n32 b i % 32
      putMask c h vd i (maskOf (act.filter fun k => (readSrc c.g .n32 a k).testBit n)) srcs

/-- VVOTE (R179): .any and .all write a q register, .count a vector register. -/
def execVvote (h : Head) (f : VoteF) (dst : BitVec 8) (p : BitVec 3) (s : State) :
    Host.Outcome State Fault Refusal :=
  fixedWord s h (fun c => f != .count || c.vOk dst.toNat false) fun c =>
    let act := lanesOf (c.active h)
    let n := (act.filter fun i => (c.g.pred p.toNat).getLsbD i).length
    match f with
    | .any => [.q (dst.setWidth 3) (decide (n > 0))]
    | .all => [.q (dst.setWidth 3) (n == act.length)]
    | .count => act.flatMap fun i => laneV c h .n32 dst i [] (n, false)

/-- VSHFL's source lane (R181): out of range gives the lane itself. -/
def shflLane (f : ShflF) (w lane b : Nat) : Nat :=
  let k : Int := match f with
    | .idx => b
    | .up => (lane : Int) - b
    | .down => lane + b
    | .xor => (lane ^^^ b : Nat)
  if 0 ≤ k && k < w then k.toNat else lane

def execVshfl (h : Head) (f : ShflF) (t : VType) (vd : BitVec 8) (a b : Src) (s : State) :
    Host.Outcome State Fault Refusal :=
  fixedWord s h (fun c => c.vOk vd.toNat (VType.isF64 t) && c.srcOk t a && c.srcOk .n32 b) fun c =>
    (lanesOf (c.active h)).flatMap fun i =>
      let k := shflLane f c.width i (readSrc c.g .n32 b i)
      let src := srcOf c.g t a k
      laneV c h t vd i [src] (readSrc c.g t a k, src.exc)

/-- VXCH's value (R182): `a` of the lane, `p` of its partner, mask `m`, distance `j`. -/
def xchValue (lane j a p m : Nat) : Nat :=
  if lane &&& j == 0 then ((a &&& m) ||| ((p &&& m) <<< j)) % 2 ^ 32
  else (a &&& (2 ^ 32 - 1 - m % 2 ^ 32)) ||| ((p >>> j) &&& m)

def execVxch (h : Head) (vd : BitVec 8) (a b x : Src) (s : State) : Host.Outcome State Fault Refusal :=
  fixedWord s h (fun c => c.vOk vd.toNat false && c.srcOk .n32 a && c.srcOk .n32 b) fun c =>
    let j := readSrc c.g .n32 x 0
    (lanesOf (c.active h)).flatMap fun i =>
      let p := i ^^^ j
      let me := readSrc c.g .n32 a i
      if !([1, 2, 4, 8, 16].contains j) || p ≥ c.width then laneV c h .n32 vd i [srcOf c.g .n32 a i] (me, false)
      else laneV c h .n32 vd i [srcOf c.g .n32 a i, srcOf c.g .n32 a p]
        (xchValue i j me (readSrc c.g .n32 a p) (readSrc c.g .n32 b i), false)

/-! ### Reductions and scans -/

/-- One level of the fixed tree of R185: neighbours in pairs; the flag collects exceptional roundings. -/
def treeLevel (rd : Rd) (ftz : Bool) : List (Option Nat) → List (Option Nat) × Bool
  | x :: y :: r =>
    let (l, e) := treeLevel rd ftz r
    match x, y with
    | some a, some b => let (z, o) := fpElem .f32 rd ftz .add [a, b]; (some z :: l, o || e)
    | some a, none => (some a :: l, e)
    | none, some b => (some b :: l, e)
    | none, none => (none :: l, e)
  | l => (l, false)

/-- `n` levels of the tree. -/
def treeSum (rd : Rd) (ftz : Bool) : Nat → List (Option Nat) → Bool → Nat × Bool
  | 0, l, e => ((l.headD none).getD 0, e)
  | n + 1, l, e =>
    let (l', o) := treeLevel rd ftz l
    treeSum rd ftz n l' (e || o)

def fitSum (t : VType) (sat : Bool) (x : Int) : Nat × Bool := fitElem t sat x

/-- The largest of some binary32 values, or the lowest-lane NaN quieted (R184). -/
def floatMax (op : FMinMaxF) (l : List Nat) : Nat × Bool :=
  match firstNan .f32 l with
  | some z => (z, true)
  | none => match l with
    | [] => (0, false)
    | x :: r =>
      let z := r.foldl (fun m y => (minmaxElem .f32 op m y).1) (minmaxElem .f32 op x x).1
      (z, specialF .f32 z)

/-- VREDUCE's value (R184): `l` are the contributing values in lane order, `nodes` the tree's leaves. -/
def reduceValue (f : RedF) (t : VType) (m : FMod) (w : Nat) (l : List Nat) (nodes : List (Option Nat)) : Nat × Bool :=
  match f with
  | .addi => fitSum t m.sat ((l.map (elemInt t)).foldl (· + ·) 0)
  | .min => (l.foldl (fun a b => (minmaxInt .min t a b).1) (l.headD 0), false)
  | .max => (l.foldl (fun a b => (minmaxInt .max t a b).1) (l.headD 0), false)
  | .and => (l.foldl (· &&& ·) (2 ^ 32 - 1), false)
  | .or => (l.foldl (· ||| ·) 0, false)
  | .xor => (l.foldl (· ^^^ ·) 0, false)
  | .fadd =>
    let (z, e) := treeSum ⟨m.rnd, false, 0, 0⟩ m.ftz (Nat.log2 w) nodes false
    let z := ftzIf m.ftz .f32 z
    (z, e || specialF .f32 z)
  | .fmax => floatMax .max l
  | .fmaxabs => floatMax .maxabs l

def execVreduce (h : Head) (f : RedF) (t : VType) (vd : BitVec 8) (a : Src) (m : FMod) (s : State) :
    Host.Outcome State Fault Refusal :=
  fixedWord s h (fun c => c.vOk vd.toNat false && c.srcOk t a) fun c =>
    let act := c.active h
    let nodes := (List.range c.width).map fun i =>
      if act.getLsbD i then some (ftzIf (m.ftz && f == .fadd) .f32 (readSrc c.g t a i)) else none
    let r := reduceValue f t m c.width ((lanesOf act).map (readSrc c.g t a)) nodes
    let srcs := (lanesOf act).map (srcOf c.g t a)
    (lanesOf act).flatMap fun i => laneV c h t vd i srcs r

/-- VSCAN over one lane and those below it (R186). -/
def scanValue (f : ScanF) (t : VType) (sat : Bool) (l : List Nat) : Nat × Bool :=
  match f with
  | .imax => (l.foldl (fun a b => (minmaxInt .max t a b).1) (l.headD 0), false)
  | _ => fitSum t sat ((l.map (elemInt t)).foldl (· + ·) 0)

def execVscan (h : Head) (f : ScanF) (t : VType) (vd : BitVec 8) (a : Src) (sat : Bool) (s : State) :
    Host.Outcome State Fault Refusal :=
  fixedWord s h (fun c => c.vOk vd.toNat false && c.srcOk t a) fun c =>
    let act := lanesOf (c.active h)
    act.flatMap fun i =>
      let p := act.filter fun k => if f == .eadd then decide (k < i) else decide (k ≤ i)
      laneV c h t vd i (p.map (srcOf c.g t a)) (scanValue f t sat (p.map (readSrc c.g t a)))

/-- VMATCH (R178). -/
def execVmatch (h : Head) (vd : BitVec 8) (a : Src) (s : State) : Host.Outcome State Fault Refusal :=
  fixedWord s h (fun c => maskDestOk c vd && c.srcOk .n32 a) fun c =>
    let act := lanesOf (c.active h)
    act.flatMap fun i =>
      putMask c h vd i (maskOf (act.filter fun k => readSrc c.g .n32 a k == readSrc c.g .n32 a i)) [srcOf c.g .n32 a i]

/-- VLANE (R183). -/
def execVlane (h : Head) (f : VLaneF) (t : VType) (vd : BitVec 8) (a b : Src) (s : State) :
    Host.Outcome State Fault Refusal :=
  fixedWord s h (fun c => if f == .ext then c.srcOk .n32 a else c.vOk vd.toNat (VType.isF64 t)) fun c =>
    let n := readSrc c.g .n32 b 0
    match f with
    | .ins =>
      if n < c.width && (c.active h).getLsbD n then
        let src := srcOf c.g t a n
        laneV c h t vd n [src] (readSrc c.g t a n, src.exc)
      else []
    | .ext =>
      let x := if n < c.width then readSrc c.g .n32 a n else 0
      [.s (vd.setWidth 6) (if t == .i32 then (BitVec.ofNat 32 x).signExtend 64 else BitVec.ofNat 64 x)]

end Sys2Proof.Machine
end

