-- ==== Sys2Proof/Machine/Mem.lean ====
section
/-! DEFINITION. Memory: locations, granules and their tags and poison (R346, R353), the address map (R187, R188),
translation (R210, R211), the fault path (R214 to R217), and what one core sees of a line (R191 to R194). -/

namespace Sys2Proof.Machine

open Sys2Proof

/-! ### Locations

A location is a natural number: a device address as it stands; a host address from 2^56; a byte of a cluster's
SRAM from 2^57, 2^24 for each of the 32 clusters; a byte of a die's staging SRAM from 2^58, 2^23 for each die. -/

def hostLoc (pa : Nat) : Nat := 2 ^ 56 + pa
def sramLoc (cluster off : Nat) : Nat := 2 ^ 57 + cluster * 2 ^ 24 + off
def stagingLoc (die off : Nat) : Nat := 2 ^ 58 + die * 2 ^ 23 + off

/-- What an unlisted byte of memory reads as. -/
def unlistedByte : Byte := 0

def byteAt (s : State) (loc : Nat) : Byte := mget unlistedByte s.mem loc
def bytesAt (s : State) (loc n : Nat) : List Byte := (List.range n).map (fun i => byteAt s (loc + i))

/-- The canonical form of memory. -/
abbrev Memory.wf (m : SMap Byte) : Prop := mwf unlistedByte m = true

/-- A natural number from bytes, and the bytes of one, lowest address first (R3). -/
def leNat : List Byte → Nat
  | [] => 0
  | b :: r => b.toNat + 256 * leNat r
def natBytes : Nat → Nat → List Byte
  | 0, _ => []
  | n + 1, x => BitVec.ofNat 8 x :: natBytes n (x / 256)

/-- Writes bytes from a location on. -/
def putBytes (m : SMap Byte) (loc : Nat) : List Byte → SMap Byte
  | [] => m
  | b :: r => putBytes (mput unlistedByte m loc b) (loc + 1) r

def State.putMem (s : State) (loc : Nat) (b : List Byte) : State := { s with mem := putBytes s.mem loc b }
def natAt (s : State) (loc n : Nat) : Nat := leNat (bytesAt s loc n)

/-! ### Granules -/

/-- A granule: its 16 bytes, its tag, and whether it is poisoned. -/
structure Gran where
  bytes  : List Byte
  tag    : Tag
  poison : Bool
deriving DecidableEq, Repr

def granLoc (loc : Nat) : Nat := loc / 16 * 16

/-- A granule is poisoned (R338). -/
def poisoned (s : State) (key : Nat) : Bool := mget false s.poison key

/-- The granule that holds a location; tags and poison are keyed by location / 16. -/
def granAt (s : State) (loc : Nat) : Gran :=
  ⟨bytesAt s (granLoc loc) 16, mget 0 s.tags (loc / 16), poisoned s (loc / 16)⟩

/-- The bytes of a granule after a write's bytes. -/
def overlay (bytes : List Byte) (w : List (Nat × Byte)) : List Byte :=
  bytes.mapIdx fun i b => match w.find? (fun p => p.1 == i) with
    | some p => p.2
    | none => b

/-- A write covers the whole granule (R353). -/
def GWrite.whole (w : GWrite) : Bool := (List.range 16).all (fun i => w.bytes.any (fun p => p.1 == i))

/-- One write to a granule (R353, R354, R338): data, merged tag, and poison cleared by a whole write. A page with
T clear keeps no tags. -/
def Gran.write (tagged : Bool) (g : Gran) (w : GWrite) : Gran :=
  match w.tstg with
  | some t => { g with tag := if tagged then t else 0 }
  | none =>
    { bytes := overlay g.bytes w.bytes
      tag := if tagged then storeMerge g.tag (w.tags.map Prod.snd) (GWrite.whole w) else 0
      poison := g.poison && !GWrite.whole w }

/-- Stores a granule at a location. -/
def putGran (s : State) (loc : Nat) (g : Gran) : State :=
  { s.putMem (granLoc loc) g.bytes with
    tags := mput 0 s.tags (loc / 16) g.tag
    poison := mput false s.poison (loc / 16) g.poison }

/-- Performs a write at a location. -/
def performAt (s : State) (loc : Nat) (tagged : Bool) (w : GWrite) : State :=
  putGran s loc (Gran.write tagged (granAt s loc) w)

/-- Bytes of an access inside its granule. -/
def Gran.slice (g : Gran) (off n : Nat) : Nat := leNat ((g.bytes.drop off).take n)

/-! ### Banks and windows (R188, R196) -/

/-- The mode of a cluster's bank: that of reset unless changed. -/
def bankMode (s : State) (cluster bank : Nat) : BankMode :=
  match mfind s.banks (cluster * 64 + bank) with
  | some m => m
  | none => if bank < 48 then .scratch else if bank < 56 then .fifo else .cache

/-- The cluster of a package core (R12), and its die. -/
def clusterOf (core : Nat) : Nat := core / 8
def dieOf (core : Nat) : Nat := core / 64

/-- The scratchpad allotment of a resident team, in the SRAM of its cluster. -/
def inAllot (s : State) (t : Team) (cluster off : Nat) : Bool :=
  !t.saved && clusterOf t.core == cluster &&
  match s.launch? t.launch with
  | some l => t.scratch ≤ off / 256 * 256 && off / 256 * 256 < t.scratch + l.kernel.scratch
  | none => false

/-- A window access is valid (R188). -/
def windowOk (s : State) (ctx cluster off : Nat) : Bool :=
  bankMode s cluster (off / 2 ^ 18) == .scratch && s.teams.any (fun t => t.ctx == ctx && inAllot s t cluster off)

/-- Where an address lies (R187): outside the map, a window byte (cluster, offset), or translated memory. -/
inductive Zone
  | bad
  | window (cluster off : Nat)
  | mapped
deriving DecidableEq, Repr

def zoneOf (core : Nat) (a : Nat) : Zone :=
  if a ≥ 2 ^ 56 then .bad
  else if a < 2 ^ 55 then .mapped
  else if a / 2 ^ 48 == 0xFD then (if a / 2 ^ 24 % 2 ^ 24 == 0 then .window (clusterOf core) (a % 2 ^ 24) else .bad)
  else if a / 2 ^ 48 == 0xFE then
    (if a / 2 ^ 24 % 2 ^ 16 == 0 && a / 2 ^ 44 % 16 ≤ 3 && a / 2 ^ 40 % 16 ≤ 7 then
      .window (a / 2 ^ 44 % 16 * 8 + a / 2 ^ 40 % 16) (a % 2 ^ 24)
    else .bad)
  else .bad

/-- The local window's address of a byte of a cluster's SRAM (R187): the one name its queued stores go by. -/
def windowVa (cluster off : Nat) : Nat := 0xFE * 2 ^ 48 + cluster / 8 * 2 ^ 44 + cluster % 8 * 2 ^ 40 + off

/-- The home slice of a line (R190), package number. -/
def homeSlice (slot va : Nat) : Nat :=
  let n := va / 128 % 2 ^ 49
  let f := fun i => n / 2 ^ (7 * i) % 128
  f 0 ^^^ f 1 ^^^ f 2 ^^^ f 3 ^^^ f 4 ^^^ f 5 ^^^ f 6 ^^^ (slot % 128) ^^^ (slot / 128 % 32)

/-! ### Islands (R26, R445) -/

/-- A core lies in an island's own cores: 2 c holds the first four of cluster c of its die, 2 c + 1 the others. -/
def islandCore (i core : Nat) : Bool :=
  dieOf core == i / 32 && i % 32 < 16 && 2 * (clusterOf core % 8) + core % 8 / 4 == i % 32

/-- A copy command's cluster, or a transform command's die. -/
def engineOn (cluster : Nat → Bool) (die : Nat → Bool) (e : EngRef) : Bool :=
  match e with
  | .copy c => cluster c
  | .xform d _ => die d

/-- An island has a resident team or engine work, by what R26 puts in it: its cores, the cluster's SRAM and copy engine
in the odd islands, the engines of the die; the L2 slices, the stack ports and the interfaces between dies serve every
team and engine of the package. -/
def islandBusy (s : State) (i : Nat) : Bool :=
  let die := i / 32
  let j := i % 32
  let team := fun (f : Nat → Bool) => s.teams.any (fun t => !t.saved && f t.core)
  let cmd := fun (f : EngRef → Bool) => s.cmds.any (fun c => f c.eng)
  let onDie := team (fun c => dieOf c == die) || cmd (engineOn (fun c => c / 8 == die) (· == die)) ||
    s.runs.any (fun r => r.die == die)
  if j < 16 then
    team (islandCore i) ||
    (j % 2 == 1 && (team (fun c => clusterOf c == die * 8 + j / 2) || cmd (engineOn (· == die * 8 + j / 2) (fun _ => false))))
  else if j == 26 then s.runs.any (fun r => r.die == die)
  else if j == 27 then s.runs.any (fun r => r.die == die && r.ether) || s.peerOut.any (fun p => p.die == die && p.ether)
  else if j == 28 then onDie || s.peerIn.any (fun q => q.port / 4 == die) || s.peerOut.any (fun p => p.die == die)
  else if j == 29 then cmd (engineOn (fun _ => false) (· == die))
  else if j == 30 then onDie || !s.launches.isEmpty
  else team (fun _ => true) || !s.cmds.isEmpty || !s.runs.isEmpty

/-- Work that begins wakes its islands first (R445). -/
def wakeIslands (s : State) : State :=
  { s with islands := s.islands.mapIdx (fun i x => if x.gated && islandBusy s i then { x with gated := false } else x) }

/-! ### Translation (R208 to R211) -/

/-- Kinds of access: `rmw` is an atomic or a RED. -/
inductive AK | read | write | fetch | rmw
deriving DecidableEq, Repr

/-- The access kinds a fault record shows (R217). -/
def AK.kinds : AK → BitVec 3
  | .read => 1
  | .write => 2
  | .fetch => 4
  | .rmw => 3
def AK.writes : AK → Bool
  | .write | .rmw => true
  | _ => false

/-- The base of the reserved area (R430, R432). -/
def rsvBase : Nat := 0x6FA0000000

/-- Pages of a leaf at a level. -/
def leafPages (level : Nat) : Nat :=
  match level with
  | 1 => 2 ^ 18
  | 2 => 2 ^ 9
  | _ => 1

/-- A page-table entry is malformed at a level (R211): the frames it names, those of a whole leaf, must lie below the
reserved area. DESIGN CHOICE (entry 21): a table pointer with P set, which R211 does not list, is malformed. -/
def pteBad (level : Nat) (e : Nat) : Bool :=
  let leaf := e.testBit 1
  let p := e.testBit 60
  let h := e.testBit 59
  let frame := e / 2 ^ 12 % 2 ^ 44
  e / 2 ^ 61 != 0 || e / 2 ^ 8 % 16 != 0 || e.testBit 2 || (leaf && level == 0) || (!leaf && level == 3) ||
  (p && h) || ((e.testBit 58 || e.testBit 57) && (p || h)) ||
  (leaf && level == 1 && frame % 2 ^ 18 != 0) || (leaf && level == 2 && frame % 2 ^ 9 != 0) ||
  (!leaf && p) || (!p && !h && (frame + (if leaf then leafPages level else 1)) * 4096 > rsvBase)

/-- Index of a table's entry at a level (R210). -/
def pteIndex (level va : Nat) : Nat :=
  match level with
  | 0 => va / 2 ^ 39 % 2 ^ 16
  | 1 => va / 2 ^ 30 % 512
  | 2 => va / 2 ^ 21 % 512
  | _ => va / 2 ^ 12 % 512

/-- The result of a walk: a cause of R217, or the leaf: its location, the entry and its level. -/
inductive Walk
  | fault (cause : Nat)
  | leaf (loc e level : Nat)
deriving DecidableEq, Repr

/-- The location of the next table that a pointer names. -/
def nextTable (e : Nat) : Nat :=
  let next := e / 2 ^ 12 % 2 ^ 44 * 4096
  if e.testBit 59 then hostLoc next else next

/-- Walks `n` levels from a table at a location. -/
def walk (s : State) (va : Nat) : Nat → Nat → Nat → Walk
  | 0, _, _ => .fault 3
  | n + 1, level, table =>
    let loc := table + 8 * pteIndex level va
    let e := natAt s loc 8
    if !e.testBit 0 then .fault 1
    else if pteBad level e then .fault 3
    else if e.testBit 1 then .leaf loc e level
    else
      walk s va n (level + 1) (nextTable e)

/-- The root table of the space bound to a slot. -/
def spaceRoot (s : State) (slot : Nat) : Option Nat :=
  ((s.roster.map Prod.snd).find? (fun e => e.obj == .space slot)).map (fun e => (e.record.extractLsb' 0 44).toNat * 4096)

/-- A leaf grants an access. -/
def grants (e : Nat) (k : AK) : Bool :=
  match k with
  | .read => e.testBit 3
  | .write | .rmw => e.testBit 4
  | .fetch => e.testBit 5

/-- The 16 entries of a 64 KiB group all carry G and are well-formed leaves, but disagree in frame or
attributes (R211). -/
def groupOdd (s : State) (loc va : Nat) : Bool :=
  let base := loc - 8 * (va / 4096 % 16)
  let es := (List.range 16).map (fun i => natAt s (base + 8 * i) 8)
  let all := es.all (fun e => e.testBit 0 && e.testBit 1 && e.testBit 56 && !pteBad 3 e)
  let e0 := es.headD 0
  let f0 := e0 / 2 ^ 12 % 2 ^ 44
  let same := (es.mapIdx (fun i e => e / 2 ^ 12 % 2 ^ 44 == f0 + i && e / 2 ^ 56 == e0 / 2 ^ 56 && e % 64 == e0 % 64)).all id
  all && !same

/-- Bits of an address below the index of a level. -/
def levelShift (level : Nat) : Nat := 39 - 9 * level

/-- The table pointers that a walk of `n` levels from a table passes. -/
def walkPtrs (s : State) (port slot va : Nat) : Nat → Nat → Nat → List WalkEnt
  | 0, _, _ => []
  | n + 1, level, table =>
    let e := natAt s (table + 8 * pteIndex level va) 8
    if !e.testBit 0 || pteBad level e || e.testBit 1 then []
    else ⟨port, slot, level, va / 2 ^ levelShift level, nextTable e⟩ :: walkPtrs s port slot va n (level + 1) (nextTable e)

/-- The deepest table of an address that the port's walk cache names, and its level (R208). -/
def cachedTable (s : State) (port slot va : Nat) : Option (Nat × Nat) :=
  [2, 1, 0].findSome? fun level =>
    (s.walks.find? (fun w => w.port == port && w.slot == slot && w.level == level && w.key == va / 2 ^ levelShift level)).map
      (fun w => (level + 1, w.table))

/-- The stack port of an address (R208): 2 d + h[0], with h of R190. -/
def stackPort (slot va : Nat) : Nat := homeSlice slot va / 32 * 2 + homeSlice slot va % 2

/-- The translation a leaf gives to one page. -/
def leafXlat (slot va e level : Nat) : Xlat :=
  let n := leafPages level
  let frame := e / 2 ^ 12 % 2 ^ 44
  ⟨stackPort slot va, slot, va / 4096, frame + va / 4096 % n, n, e.testBit 60, e.testBit 59, e.testBit 58,
    e.testBit 3, e.testBit 4, e.testBit 5, e.testBit 6, e.testBit 57⟩

/-- The outcome for a page of a walk from a table, with the free choice of an inconsistent 64 KiB group. -/
def walkPageFrom (s : State) (va level table : Nat) : Walk × Option (Nat × Nat) :=
  match walk s va (4 - level) level table with
  | .leaf loc e 3 =>
    if e.testBit 56 && groupOdd s loc va then
      let i := va / 4096 % 16
      let j := (Config.freePick s.freeN).toNat
      let ej := natAt s (loc - 8 * i + 8 * j) 8
      let f := (ej / 2 ^ 12 % 2 ^ 44 + 2 ^ 44 + i - j) % 2 ^ 44
      (.leaf loc e 3, some (ej, f))
    else (.leaf loc e 3, none)
  | w => (w, none)

/-- The walk's outcome for a page, from the root. -/
def walkPage (s : State) (slot va : Nat) : Walk × Option (Nat × Nat) :=
  match spaceRoot s slot with
  | none => (.fault 1, none)
  | some root => walkPageFrom s va 0 root

/-- What a walk's outcome gives to a kind of access: the translation, the leaf's location and whether the choice
was free; or a cause of R217. -/
def leafGrant (slot va : Nat) (k : AK) (w : Walk × Option (Nat × Nat)) : Except Nat (Xlat × Nat × Bool) :=
  match w with
  | (.fault c, _) => .error c
  | (.leaf loc e level, pick) =>
    let (x, e', free) : Xlat × Nat × Bool := match pick with
      | some (ej, f) => ({ leafXlat slot va ej level with frame := f }, ej, true)
      | none => (leafXlat slot va e level, e, false)
    if grants e' k then .ok (x, loc, free) else .error 2

/-- The page's translation for a kind of access, or a cause of R217; with no side effect (R206). -/
def translatePure (s : State) (slot va : Nat) (k : AK) : Except Nat (Xlat × Nat × Bool) :=
  leafGrant slot va k (walkPage s slot va)

/-- The walk as a stack port makes it: from the deepest table that its walk cache names; a walk that fails there is
made from the root. -/
def walkCached (s : State) (slot va : Nat) (k : AK) : Except Nat (Xlat × Nat × Bool) :=
  match cachedTable s (stackPort slot va) slot va with
  | some (level, table) => match leafGrant slot va k (walkPageFrom s va level table) with
    | .ok x => .ok x
    | .error _ => translatePure s slot va k
  | none => translatePure s slot va k

def Xlat.grants (x : Xlat) (k : AK) : Bool :=
  match k with
  | .read => x.r
  | .write | .rmw => x.w
  | .fetch => x.x

/-- The translation of an address's page that the TLB of its stack port holds. -/
def tlbFind (s : State) (slot va : Nat) : Option Xlat :=
  s.tlb.find? (fun x => x.port == stackPort slot va && x.slot == slot && x.page == va / 4096)

/-- The walk cache after a walk from the root. -/
def keepWalks (s : State) (slot va : Nat) : List WalkEnt :=
  match spaceRoot s slot with
  | some root =>
    let port := stackPort slot va
    let new := walkPtrs s port slot va 4 0 root
    s.walks.filter (fun w => !new.any (fun n => n.port == w.port && n.slot == w.slot && n.level == w.level && n.key == w.key)) ++ new
  | none => s.walks

/-- Translates an access, setting A, and D on a write, in the leaf entry (R211); the translation and the table
pointers passed are kept until an invalidation. A cached translation that grants the access is used. -/
def translate (s : State) (slot va : Nat) (k : AK) : Except Nat Xlat × State :=
  match tlbFind s slot va with
  | some x =>
    if Xlat.grants x k && (!k.writes || x.dirty) then (.ok x, s) else walkNew s
  | none => walkNew s
where
  walkNew (s : State) : Except Nat Xlat × State :=
    match walkCached s slot va k with
    | .error c => (.error c, s)
    | .ok (x, loc, free) =>
      let e := natAt s loc 8
      let e' := e ||| 0x80 ||| (if k.writes then 0x40 else 0)
      let x := { x with dirty := x.dirty || k.writes }
      (.ok x, { s.putMem loc (natBytes 8 e') with
        tlb := (s.tlb.filter (fun y => !(y.port == x.port && y.slot == slot && y.page == va / 4096))) ++ [x]
        walks := keepWalks s slot va
        freeN := if free then s.freeN + 1 else s.freeN })

/-- Where a line lies, with no access to it: a recall or a snoop sets neither A nor D. -/
def locate (s : State) (slot va : Nat) : Option Xlat :=
  match tlbFind s slot va with
  | some x => some x
  | none => match walkPage s slot va with
    | (.leaf _ e level, pick) => some (match pick with
      | some (ej, f) => { leafXlat slot va ej level with frame := f }
      | none => leafXlat slot va e level)
    | (.fault _, _) => none

/-- The location of an address under its translation; for a peer page, its window index and offset. -/
def Xlat.loc (x : Xlat) (va : Nat) : Nat :=
  if x.host then hostLoc (x.frame * 4096 + va % 4096) else x.frame * 4096 + va % 4096
def Xlat.window (x : Xlat) : Nat := x.frame / 2 ^ 32
def Xlat.offset (x : Xlat) (va : Nat) : Nat := x.frame % 2 ^ 32 * 4096 + va % 4096

/-! ### Checks (R189) -/

/-- The outcome of R189 for one access. -/
inductive Acc189
  | badAddress
  | align
  | window (loc : Nat)
  | mem (x : Xlat)
  | fault (cause : Nat)
deriving DecidableEq, Repr

/-- Who makes an access: package core, context index, address-space slot. -/
structure Who where
  core : Nat
  ctx  : Nat
  slot : Nat
deriving DecidableEq, Repr

def Cur.who (c : Cur) : Who := ⟨c.t.core, c.t.ctx, c.t.slot⟩

def check189 (s : State) (w : Who) (va : Word) (align : Nat) (k : AK) : Acc189 × State :=
  match zoneOf w.core va.toNat with
  | .bad => (.badAddress, s)
  | .window cl off =>
    if !windowOk s w.ctx cl off then (.badAddress, s)
    else if va.toNat % align != 0 then (.align, s)
    else (.window (sramLoc cl off), s)
  | .mapped =>
    if va.toNat % align != 0 then (.align, s)
    else match translate s w.slot va.toNat k with
      | (.ok x, s) => (.mem x, s)
      | (.error c, s) => (.fault c, s)

/-! ### The fault path (R214 to R217) -/

/-- The context of a write's team, or of the space bound to its slot once the team has ended. -/
def writerCtx (s : State) (team slot : Nat) : Nat :=
  match s.team? team with
  | some t => t.ctx
  | none =>
    let spaceOf := fun (e : Entry) => match mfind s.roster (e.record.extractLsb' 0 128).toNat with
      | some x => x.obj == .space slot
      | none => false
    match (s.roster.map Prod.snd).find? (fun e => match e.obj with
      | .context _ => spaceOf e
      | _ => false) with
    | some e => (match e.obj with
      | .context i => i
      | _ => 0)
    | none => 0

/-- Merges a request into the die's held request for the page, or opens one (R216). `core` is the requesting
core, or none for an engine or device request. -/
def mergeFault (r : FaultReq) (core : Option Nat) (k : AK) (who : Waiter) : FaultReq :=
  { r with
    kinds := r.kinds ||| k.kinds
    cores := match core with
      | some n => if r.cores.contains n then r.cores else r.cores ++ [n]
      | none => r.cores
    others := if core.isNone && !r.who.contains who then r.others + 1 else r.others
    who := if r.who.contains who then r.who else r.who ++ [who] }

def sameFault (die slot page : Nat) (r : FaultReq) : Bool := r.die == die && r.slot == slot && r.page == page

/-- A request that holds a waiter, whatever its page. -/
def waitsOn (s : State) (w : Waiter) : Bool := s.faults.any (fun f => f.who.contains w)

/-- A waiter's own request for a page is open: what it waits for is done after the answer (R216, R217). -/
def waitsPage (s : State) (slot va : Nat) (w : Waiter) : Bool :=
  s.faults.any (fun f => f.slot == slot && f.page == va / 4096 && f.who.contains w)

def raiseFault (s : State) (die : Nat) (core : Option Nat) (w : Who) (va : Nat) (k : AK) (who : Waiter) : State :=
  if s.faults.any (sameFault die w.slot (va / 4096)) then
    { s with faults := s.faults.map (fun r =>
        if sameFault die w.slot (va / 4096) r then mergeFault r core k who else r) }
  else
    let r : FaultReq := ⟨s.seqN, die, w.slot, w.ctx, va / 4096, 0, [], 0, [], s.time, none, none⟩
    { s with faults := s.faults ++ [mergeFault r core k who], seqN := s.seqN + 1 }

def coreFault (s : State) (w : Who) (va : Nat) (k : AK) (who : Waiter) : State :=
  raiseFault s (dieOf w.core) (some w.core) w va k who

/-! ### Lines -/

/-- The key of a virtual line (R208): slot and line number. -/
def lineKey (slot va : Nat) : Nat := slot * 2 ^ 49 + va / 128
def lineSlot (k : Nat) : Nat := k / 2 ^ 49
def lineVa (k : Nat) : Nat := k % 2 ^ 49 * 128

def GWrite.line (w : GWrite) : Nat := lineKey w.slot w.va

/-- The key of a window's granule among an engine's lines (R285). -/
def granKey (loc : Nat) : Nat := 2 ^ 80 + loc / 16

/-- Two keys name one line, or one window granule, be it under two names (R209). -/
def sameLine (s : State) (k j : Nat) : Bool :=
  k == j || (k < 2 ^ 80 && j < 2 ^ 80 && k % 32 == j % 32 &&
    match locate s (lineSlot k) (lineVa k), locate s (lineSlot j) (lineVa j) with
    | some x, some y => !x.peer && !y.peer && x.loc (lineVa k) == y.loc (lineVa j)
    | _, _ => false)

/-- A line, or a window's granule, that an engine's command or step owns until it has written it (R20, R285, R416). -/
def engineOwns (s : State) (line : Nat) : Bool :=
  s.cmds.any (fun c => c.lines.any (sameLine s line)) || s.runs.any (fun r => r.lines.any (sameLine s line))

/-- Lines of a core that wait on the fault path (R215): those of its queued, early-visible and uncommitted stores and
of its REDs whose page has an open request on the core's die. -/
def waitingLines (s : State) (core : Nat) : List Nat :=
  let onPath := fun (slot va : Nat) => s.faults.any (sameFault (dieOf core) slot (va / 4096))
  let q := (s.teams.filter (fun t => t.core == core && !t.saved)).flatMap (fun t =>
    t.uncommitted ++ t.groups.flatMap (·.storeQ))
  let ws := q ++ (s.ev.filter (fun e => e.core == core)).map (·.w)
  let ls := (ws.filter (fun w => onPath w.slot w.va)).map GWrite.line ++
    ((s.redQ.filter (fun r => r.core == core && onPath r.slot r.va)).map (fun r => lineKey r.slot r.va))
  ls.eraseDups

/-- A store-class access to a page on the fault path would add a 65th waiting line (R215); `extra` are lines the
same word has added. -/
def overLimit (s : State) (core slot va : Nat) (extra : List Nat) : Bool :=
  let ls := (waitingLines s core ++ extra).eraseDups
  ls.length ≥ 64 && !ls.contains (lineKey slot va)

/-! ### Directories (R191) -/

def CLine.key (l : CLine) : Nat := lineKey l.slot l.va
def HLine.key (l : HLine) : Nat := lineKey l.slot l.va
def StaleLine.key (l : StaleLine) : Nat := lineKey l.slot l.va

/-- The bit of a core in its cluster directory's entries. -/
def l1Bit (core : Nat) : BitVec 8 := BitVec.twoPow 8 (core % 8)

/-- The entry says that the core's L1 holds the line. -/
def CLine.has (l : CLine) (core : Nat) : Bool := l.cluster == clusterOf core && l.l1s.getLsbD (core % 8)

/-- The cores whose L1 an entry names. -/
def CLine.cores (l : CLine) : List Nat := ((List.range 8).filter (fun i => l.l1s.getLsbD i)).map (fun i => l.cluster * 8 + i)

/-- The entry of a line in a cluster's directory. -/
def clusterLine (s : State) (cluster line : Nat) : Option CLine := s.cdir.find? (fun l => l.cluster == cluster && l.key == line)

/-- A core's L1 holds the line. -/
def inL1 (s : State) (core line : Nat) : Bool := s.cdir.any (fun l => l.key == line && l.has core)

/-- The stronger of two states of a line, as the home sees them. -/
def MState.join : MState → MState → MState
  | .M, _ | _, .M => .M
  | .O, _ | _, .O => .O
  | .E, _ | _, .E => .E
  | .EV, x => x
  | x, .EV => x
  | .S, .S => .S

/-- The home's entry of a line follows the cluster directories: its state and its sharer vector; a line that no
cluster holds has none. -/
def homeLine (s : State) (line : Nat) : State :=
  let on := s.cdir.filter (fun l => l.key == line)
  let rest := s.hdir.filter (fun l => l.key != line)
  match on with
  | [] => { s with hdir := rest }
  | _ => { s with hdir := rest ++ [⟨lineSlot line, lineVa line, on.foldl (fun m l => m.join l.st) .EV,
      on.foldl (fun v l => v ||| BitVec.twoPow 32 l.cluster) 0⟩] }

/-- Changes or drops the cluster directories' entries of a line, and the home's entry after them. -/
def setClusters (s : State) (line : Nat) (f : CLine → Option CLine) : State :=
  homeLine { s with cdir := s.cdir.filterMap (fun l => if l.key == line then f l else some l) } line

/-- A core's L1 takes a copy of a line under a leaf of some pages, its cluster holding the line in a state. -/
def holdCopy (s : State) (core slot va leaf : Nat) (st : MState) : State :=
  let line := lineKey slot va
  if (clusterLine s (clusterOf core) line).isSome then
    setClusters s line (fun l => some (if l.cluster == clusterOf core then { l with st := st, l1s := l.l1s ||| l1Bit core } else l))
  else homeLine { s with cdir := s.cdir ++ [⟨clusterOf core, slot, va / 128 * 128, st, l1Bit core, leaf⟩] } line

/-- The L1s of a cluster that hold early-visible writes of a line. -/
def evBits (s : State) (cluster line : Nat) : BitVec 8 :=
  (s.ev.filter (fun e => e.w.line == line && clusterOf e.core == cluster)).foldl (fun b e => b ||| l1Bit e.core) 0

/-- A core's L1 drops its copy of a line, but for early-visible writes. -/
def dropL1 (s : State) (core line : Nat) : State :=
  setClusters s line fun l =>
    if l.cluster != clusterOf core then some l
    else
      let bits := l.l1s &&& (~~~(l1Bit core) ||| evBits s l.cluster line)
      if bits == 0 then none else some { l with l1s := bits }

/-- Every copy of a line but that of `keep` leaves the directories; early-visible writes that stay keep their lines in
state EV. -/
def dropCopies (s : State) (line : Nat) (keep : Option Nat) : State :=
  setClusters s line fun l =>
    let kept := match keep with
      | some c => if l.has c then l1Bit c else 0
      | none => 0
    let bits := l.l1s &&& (evBits s l.cluster line ||| kept)
    if bits == 0 then none else some { l with l1s := bits, st := if kept == 0 then .EV else l.st }

/-- Lines held in state EV whose writes have all gone leave the directories. -/
def trimLines (s : State) (lines : List Nat) : State :=
  lines.foldl (fun s line => setClusters s line fun l =>
    if l.st == .EV && evBits s l.cluster line == 0 then none else some l) s

/-! ### What a core sees (R191 to R193) -/

/-- A granule of a stale copy (R193). -/
def staleGran (l : StaleLine) (va : Nat) (poison : Bool) : Gran :=
  let i := va / 16 % 8
  ⟨(l.bytes.drop (16 * i)).take 16, l.tags.getD i 0, poison⟩

/-- The stale copy that a core holds of a line. -/
def staleOf (s : State) (core line : Nat) : Option StaleLine := s.stale.find? (fun l => l.core == core && l.key == line)

/-- Writes over a granule, in order. -/
def overGran (tagged : Bool) (g : Gran) (ws : List GWrite) : Gran := ws.foldl (Gran.write tagged) g

/-- The writes of a line that its cluster has owned since a cluster-scope release (R194). -/
def clusterWrites (s : State) (cluster line : Nat) : List GWrite :=
  (s.ev.filter (fun e => e.w.line == line && e.level == .cluster && clusterOf e.core == cluster)).map (·.w)

/-- The writes of a line that one core alone sees (R192). -/
def coreWrites (s : State) (core line : Nat) : List GWrite :=
  (s.ev.filter (fun e => e.w.line == line && e.level == .core && e.core == core)).map (·.w)

/-- Those of some writes that fall in the granule at `va`. -/
def inGran (va : Nat) (ws : List GWrite) : List GWrite := ws.filter (fun e => e.va == va / 16 * 16)

/-- The granule as the home and the cluster hold it, whatever invalidations are queued. -/
def clusterGran (s : State) (cluster slot va : Nat) (x : Xlat) : Gran :=
  let g := granAt s (x.loc va)
  overGran x.tagged (if x.tagged then g else { g with tag := 0 }) (inGran va (clusterWrites s cluster (lineKey slot va)))

/-- The copy below a core's own writes: a stale copy whose invalidation is queued, else what its cluster holds. -/
def baseGran (s : State) (core slot va : Nat) (x : Xlat) : Gran :=
  match staleOf s core (lineKey slot va) with
  | some l => staleGran l va (poisoned s (x.loc va / 16))
  | none => clusterGran s (clusterOf core) slot va x

/-- The early-visible writes of a line that a core sees: its cluster's, unless a stale copy hides them, and its own. -/
def evSeen (s : State) (core line : Nat) : List GWrite :=
  (if (staleOf s core line).isSome then [] else clusterWrites s (clusterOf core) line) ++ coreWrites s core line

/-- What names a granule whatever its address: a window's byte, a translated location, or a place in a peer window;
none on the fault path. -/
def placeOf (s : State) (core slot va : Nat) : Option (Nat × Nat) :=
  match zoneOf core va with
  | .bad => none
  | .window cl off => some (0, sramLoc cl off / 16)
  | .mapped => (locate s slot va).map (fun x => if x.peer then (1 + x.window, x.offset va / 16) else (0, x.loc va / 16))

/-- Two addresses of a core name one granule (R209): by name or by place. -/
def samePlace (s : State) (core slot va slot' va' : Nat) : Bool :=
  (slot == slot' && va / 16 == va' / 16) ||
  match placeOf s core slot va, placeOf s core slot' va' with
  | some a, some b => a == b
  | _, _ => false

/-- A write falls in the granule at `va` of a space, by this name or by another name of the same place (R209). -/
def sameGran (s : State) (core slot va : Nat) (w : GWrite) : Bool := samePlace s core slot va w.slot w.va

/-- The writes of a group that no other core sees: its team's uncommitted ones (R335) and its own queue (R192). -/
def privateWrites (s : State) (r : GRef) : List GWrite :=
  match s.team? r.team with
  | none => []
  | some t => t.uncommitted ++ (match t.group? r.grp with
    | none => []
    | some g => g.storeQ)

/-- The granule a group's load reads: the stale copy or what the cluster holds, the core's early-visible writes, its
team's uncommitted writes (R335), and its own store queue (R192). -/
def granSeen (s : State) (r : GRef) (w : Who) (x : Xlat) (va : Nat) : Gran :=
  overGran x.tagged (baseGran s w.core w.slot va x)
    (inGran va (coreWrites s w.core (lineKey w.slot va)) ++ (privateWrites s r).filter (sameGran s w.core w.slot va))

/-- The writes of a granule that a group's loads see, in order: the early-visible ones, its team's uncommitted ones,
and its own queue. -/
def ownWrites (s : State) (r : GRef) (w : Who) (va : Nat) : List GWrite :=
  inGran va (evSeen s w.core (lineKey w.slot va) ++ (privateWrites s r).filter (fun e => e.slot == w.slot))

/-- What a load of `n` bytes reads of stores that wait on the fault path, when they hold all its bytes (R215): the
tag is that of the stores alone. -/
def heldGran (s : State) (r : GRef) (w : Who) (va n : Nat) : Option Gran :=
  let ws := ownWrites s r w va
  if (List.range (min n 16)).all (fun i => ws.any (fun e => e.bytes.any (fun b => b.1 == va % 16 + i))) then
    some (overGran true ⟨List.replicate 16 0, 0, false⟩ ws)
  else none

/-- The granule of a window address that a group's load reads: the bank's, under its own store queue. -/
def windowSeen (s : State) (r : GRef) (loc : Nat) : Gran :=
  let va := windowVa (loc / 2 ^ 24 % 32) (loc % 2 ^ 24)
  match s.group? r with
  | none => granAt s loc
  | some g => overGran true (granAt s loc) (inGran va g.storeQ)

/-- The granule that an engine reads for a command of a core (R256): what the home and the core's cluster hold, and
the writes the issuing core holds early-visible. -/
def engineGran (s : State) (core slot va : Nat) (x : Xlat) : Gran :=
  overGran x.tagged (clusterGran s (clusterOf core) slot va x) (inGran va (coreWrites s core (lineKey slot va)))

/-! ### Copies, ownership and recalls (R191 to R194, R209) -/

/-- Marks the line dirty in its home slice's presence map (R213). -/
def markDirty (s : State) (slot va : Nat) : State :=
  let k := (homeSlice slot va, slot)
  if s.dirty.contains k then s else { s with dirty := s.dirty ++ [k] }

/-- Performs a write of a translated line at its home; the line is dirty from now on. -/
def performLine (s : State) (slot : Nat) (x : Xlat) (w : GWrite) : State :=
  markDirty (performAt s (x.loc w.va) x.tagged w) slot w.va

/-- A stale copy of the line for a core that holds it. -/
def snapshot (s : State) (core slot va : Nat) (cluster : Bool) (x : Xlat) : StaleLine :=
  let base := va / 128 * 128
  let gs := (List.range 8).map (fun i => baseGran s core slot (base + 16 * i) x)
  ⟨core, cluster, slot, base, gs.flatMap (·.bytes), gs.map (·.tag)⟩

/-- The cluster caches of the clusters `f` picks hold the line as it is: their L1s' queued invalidations alone keep
older copies (R194). -/
def freshCluster (s : State) (line : Nat) (f : Nat → Bool) : State :=
  { s with stale := s.stale.map (fun l => if l.key == line && f (clusterOf l.core) then { l with cluster := false } else l) }

/-- Invalidates the copies of a line in the L1s that `f` picks, those of `fromCluster` and, where it is none, those of
every cluster leaving the cluster cache first (R20): each holder keeps a stale copy until its queued invalidation is
applied (R193). -/
def invalidateCopies (s : State) (slot va : Nat) (x : Xlat) (f : Nat → Bool) (fromCluster : Option Nat) : State :=
  let line := lineKey slot va
  let gone := fun (cl : Nat) => match fromCluster with
    | some c => cl == c
    | none => true
  let cores := ((s.cdir.filter (fun l => l.key == line)).flatMap CLine.cores).filter (fun c => f c && (staleOf s c line).isNone)
  let fresh := cores.map (fun c => snapshot s c slot va (!gone (clusterOf c)) x)
  let s := freshCluster s line gone
  { s with stale := s.stale ++ fresh }

/-- A core keeps no older copy of a line (R193). -/
def dropStale (s : State) (core line : Nat) : State :=
  { s with stale := s.stale.filter (fun l => !(l.core == core && l.key == line)) }

/-- Performs at the home the early-visible writes of a line that `f` picks (R192): those that clusters own, then those
of single cores. Their cores keep no older copy. -/
def performEv (s : State) (line : Nat) (x : Xlat) (f : EvWrite → Bool) : State :=
  let on := s.ev.filter (fun e => e.w.line == line && f e)
  let ws := (on.filter (fun e => e.level == .cluster)).map (·.w) ++ (on.filter (fun e => e.level == .core)).map (·.w)
  let s := ws.foldl (fun s w => performLine s (lineSlot line) x w) s
  let s := (on.map (·.core)).foldl (fun s c => dropStale s c line) s
  { s with ev := s.ev.filter (fun e => !(e.w.line == line && f e)) }

/-- The early-visible writes of a line that a grant to `core` performs: its cluster's and its own. -/
def grantable (core line : Nat) (e : EvWrite) : Bool :=
  e.w.line == line && (e.core == core || (e.level == .cluster && clusterOf e.core == clusterOf core))

/-- Grants a core ownership of a translated line it may write: other copies are invalidated, its writes are performed
at the home, its own stale copy is gone, and the line is M. -/
def grantOwned (s : State) (core line : Nat) (x : Xlat) : State :=
  let slot := lineSlot line
  let va := lineVa line
  let s := invalidateCopies s slot va x (fun c => c != core) (some (clusterOf core))
  let s := performEv (dropStale s core line) line x (grantable core line)
  markDirty (holdCopy (dropCopies s line (some core)) core slot va x.size .M) slot va

/-- A line leaves every holder: the early-visible writes that `f` picks are performed, and no L1 holds the line but
under a queued invalidation (R20, R191). -/
def recallWhere (s : State) (slot va : Nat) (x : Xlat) (f : EvWrite → Bool) : State :=
  let line := lineKey slot va
  let s := invalidateCopies s slot va x (fun _ => true) none
  dropCopies (performEv s line x f) line none

/-- A committed write whose team's other committed lines are not yet owned: they become visible together (R336). -/
def heldCommit (s : State) (team : Nat) : Bool :=
  match s.team? team with
  | some t => t.committing
  | none => false

/-- Recalls a line by its name where nothing of it may stay in a cache (R191, R209): its writes are performed where the
page may be written, and no copy and no stale copy remains. -/
def recallName (s : State) (line : Nat) : State :=
  let s := if s.ev.any (fun e => e.w.line == line) then
      match translate s (lineSlot line) (lineVa line) .write with
      | (.ok x, s) => if x.peer then s else performEv s line x (fun e => !heldCommit s e.w.g.team)
      | (.error _, s) => s
    else s
  let s := dropCopies s line none
  { s with stale := s.stale.filter (fun l => l.key != line) }

/-- The filter of second names (R209): a fill of a physical line under a second name, data or text, first recalls the
first from every cache. -/
def aliasFill (s : State) (slot va : Nat) (x : Xlat) : State :=
  let p := x.loc va / 128
  let name := (slot, va / 128 * 128)
  match s.aliases.find? (fun a => a.1 == p) with
  | some a =>
    if a.2 == name then s
    else
      let s := recallName s (lineKey a.2.1 a.2.2)
      { s with
        icache := s.icache.filter (fun l => !(l.slot == a.2.1 && l.va == a.2.2))
        aliases := (s.aliases.filter (fun b => b.1 != p)) ++ [(p, name)] }
  | none => { s with aliases := s.aliases ++ [(p, name)] }

/-- The state of a line in a cluster that other L1s come to share. -/
def MState.shared : MState → MState
  | .M | .O => .O
  | .EV => .EV
  | _ => .S

/-- A core's load brings the line in: E when it is alone and not read-only, else S, and a lone owner elsewhere
keeps its data as O (R191, R204). The cluster cache then holds the line as it is. -/
def fillRead (s : State) (core slot va : Nat) (x : Xlat) (ro : Bool) : State :=
  let s := aliasFill s slot va x
  let line := lineKey slot va
  if inL1 s core line || (staleOf s core line).isSome then s
  else
    let others := s.cdir.any (fun l => l.key == line)
    let own := (clusterLine s (clusterOf core) line).map (fun l => l.st.shared)
    let s := setClusters s line (fun l => some { l with st := l.st.shared })
    freshCluster (holdCopy s core slot va x.size (own.getD (if others || ro then .S else .E))) line (fun cl => cl == clusterOf core)

end Sys2Proof.Machine
end

