-- ==== Sys2Proof/Machine/Access.lean ====
section
/-! DEFINITION. Stores on their way to memory (R192), ownership (R191), releases and acquires (R194, R202),
reductions at memory (R226, R227), peer requests (R421 to R426), commits (R336), and one lane's loads and stores. -/

namespace Sys2Proof.Machine

open Sys2Proof

/-! ### Peer requests -/

/-- The live import window with an index (R422). -/
def importWindow (s : State) (index : Nat) : Option (BitVec 352) :=
  ((s.roster.map Prod.snd).find? (fun e => (e.name.extractLsb' 120 8).toNat == 6 && !e.dying &&
    !e.record.getLsbD 0 && (e.record.extractLsb' 1 12).toNat == index)).map (·.record)

def winPeer (r : BitVec 352) : Nat := (r.extractLsb' 13 10).toNat
def winRindex (r : BitVec 352) : Nat := (r.extractLsb' 23 12).toNat
def winSize (r : BitVec 352) : Nat := (r.extractLsb' 35 40).toNat
def winPorts (r : BitVec 352) : List Nat := (List.range 16).filter (fun i => r.getLsbD (75 + i))

/-- The group a peer request answers. -/
def PeerDst.group : PeerDst → Option GRef
  | .loadV n .. | .loadS n .. | .name n .. | .casT n .. | .word n _ => some n.g
  | .store g .. => some g
  | _ => none

/-- The port of a group's request to a window (R422): that of its outstanding requests, else the lowest up port
of the window's mask, else the lowest of the mask. -/
def peerPort (s : State) (g : Option GRef) (index : Nat) (r : BitVec 352) : Nat :=
  match s.peerOut.find? (fun p => g.isSome && PeerDst.group p.dst == g && p.window == index) with
  | some p => p.port
  | none => match (winPorts r).find? (fun i => s.portsUp.contains i) with
    | some i => i
    | none => (winPorts r).headD 0

/-- A request another make accepts (R421); NLD, whose request is a read, is turned away by itself. -/
def otherMakeOk : PeerOp → Bool
  | .read _ => true
  | .write .. => true
  | .atomic f .. => f != .fadd && f != .fmax
  | .cas .. => true
  | _ => false

/-- Whether a peer page's request can be sent, and its window record (R422). -/
def peerTarget (s : State) (x : Xlat) (va : Nat) (op : PeerOp) : Option (BitVec 352) :=
  match importWindow s x.window with
  | none => none
  | some r =>
    if x.offset va ≥ winSize r then none
    else if mget 0 s.peerMake (winPeer r) == 1 && !otherMakeOk op then none
    else some r

/-- Requests in a die's egress queue for a port and peer (R425). -/
def egress (s : State) (die port accel : Nat) : Nat :=
  (s.peerOut.filter (fun p => p.die == die && p.port == port && p.accel == accel && !p.ether)).length

/-- The queue a group's request to a peer page would enter has no room for `n` more. -/
def egressFull (s : State) (g : Option GRef) (core : Nat) (x : Xlat) (n : Nat) : Bool :=
  match importWindow s x.window with
  | none => false
  | some r => egress s (dieOf core) (peerPort s g x.window r) (winPeer r) + n > 256

/-- The timeout of a peer in nanoseconds (R425). -/
def peerTimeoutOf (s : State) (accel : Nat) : Nat := mget 100000 s.peerTimeouts accel

/-- Sends a peer request; its number within (peer, port) is its sequence number (R426). -/
def sendPeer (s : State) (dst : PeerDst) (core : Nat) (r : BitVec 352) (x : Xlat) (va : Nat) (op : PeerOp) : State :=
  let port := peerPort s (PeerDst.group dst) x.window r
  let accel := winPeer r
  let k := accel * 16 + port
  let n := mget 0 s.peerSeq k + 1
  { s with
    peerOut := s.peerOut ++ [⟨s.seqN, dst, dieOf core, accel, port, false, x.window,
      winRindex r * 2 ^ 44 + x.offset va, op, none, n, s.time, peerTimeoutOf s accel, none⟩]
    peerSeq := mput 0 s.peerSeq k n
    seqN := s.seqN + 1 }

/-- The runs of consecutive bytes of a write, rising, no run going past a cut. -/
def byteRuns (cuts : List Nat) : List (Nat × Byte) → List (Nat × List Byte)
  | [] => []
  | (o, b) :: r => match byteRuns cuts r with
    | (o', l) :: t => if o' == o + 1 && !cuts.contains o' then (o, b :: l) :: t else (o, [b]) :: (o', l) :: t
    | [] => [(o, [b])]

/-- The requests that a write to a peer page makes: one for each lane's access (R421). -/
def GWrite.runs (w : GWrite) : List (Nat × List Byte) := byteRuns w.cuts w.bytes

/-- A store to a peer page: one request for each lane's access; a page outside its window is a failure of the
store (R422, R424). -/
def peerStore (s : State) (core : Nat) (w : GWrite) (x : Xlat) : State :=
  let e := w.tags.any (fun p => p.2.msb)
  w.runs.foldl (fun s run =>
    match peerTarget s x (w.va + run.1) (.write run.2 e) with
    | some r => sendPeer s (.store w.g w.lane (w.va + run.1)) core r x (w.va + run.1) (.write run.2 e)
    | none => s.modGroup w.g (fun g => { g with peerFail := g.peerFail ++ [(.badAddress, x.window, w.va + run.1, w.lane)] })) s

/-! ### Draining (R192) -/

/-- A store enters the core's L1 as an early-visible write of its line (R191, R192). -/
def enterEv (s : State) (core : Nat) (w : GWrite) (leaf : Nat) : State :=
  let st := match clusterLine s (clusterOf core) w.line with
    | some l => if l.st == .M then MState.M else .EV
    | none => .EV
  markDirty { holdCopy s core w.slot w.va leaf st with ev := s.ev ++ [⟨core, .core, w⟩] } w.slot w.va

/-- The core owns the line and holds nothing of it that the home has not performed. -/
def ownsLine (s : State) (core line : Nat) : Bool :=
  s.cdir.any (fun l => l.key == line && l.has core && l.st == .M) && !s.ev.any (grantable core line) && !engineOwns s line

/-- An earlier RED of the same group to the same place is still on its way (R242). -/
def redAhead (s : State) (core : Nat) (w : GWrite) : Bool :=
  s.redQ.any (fun q => q.g == w.g && q.id < w.seq && samePlace s core w.slot w.va q.slot q.va)

/-- One write leaves a store queue (R192): a window store is performed at its bank; a store to a peer page is
sent; any other enters the core's L1, where a line that the core owns shows it to every agent at once. -/
def drainWrite (s : State) (core : Nat) (w : GWrite) : State :=
  match zoneOf core w.va with
  | .bad => s
  | .window cl off => performAt s (sramLoc cl off) true w
  | .mapped => match translate s w.slot w.va .write with
    | (.ok x, s) =>
      if x.peer then
        if s.ev.any (fun e => e.core == core && e.w.line == w.line) then { s with ev := s.ev ++ [⟨core, .core, w⟩] }
        else peerStore s core w x
      else
        let s := aliasFill s w.slot w.va x
        if ownsLine s core w.line && !redAhead s core w then performLine s w.slot x w else enterEv s core w x.size
    | (.error _, s) => enterEv s core w 1

/-- What keeps a store in its queue: its bank while an engine's command owns the granule (R285) or the group's earlier
RED of its place is still to be applied (R242), or an egress queue without room for a peer store (R425). -/
def storeBar (s : State) (core : Nat) (w : GWrite) : Option Why :=
  match zoneOf core w.va with
  | .bad => none
  | .window cl off =>
    if engineOwns s (granKey (sramLoc cl off)) || redAhead s core w then some (.line (granKey (sramLoc cl off))) else none
  | .mapped => match locate s w.slot w.va with
    | some x => if x.peer && egressFull s (some w.g) core x w.runs.length then some .peer else none
    | none => none

def heldBack (s : State) (core : Nat) (w : GWrite) : Bool := (storeBar s core w).isSome

/-- Drains writes in order up to the first that is held. -/
def drainList (core : Nat) : List GWrite → State → List GWrite × State
  | [], s => ([], s)
  | w :: r, s => if heldBack s core w then (w :: r, s) else drainList core r (drainWrite s core w)

/-- Drains a group's store queue in issue order. -/
def drainGroup (s : State) (r : GRef) : State :=
  match s.team? r.team, s.group? r with
  | some t, some g =>
    let (rest, s) := drainList t.core g.storeQ s
    s.modGroup r (fun g => { g with storeQ := rest })
  | _, _ => s

/-- What the first store of a group that is held in its queue waits for. -/
def heldStoreWhy (s : State) (r : GRef) : Option Why :=
  match s.team? r.team, s.group? r with
  | some t, some g => g.storeQ.findSome? (storeBar s t.core)
  | _, _ => none

/-- The writes of a line that a grant to `core` would perform. -/
def grantWrites (s : State) (core line : Nat) : List GWrite :=
  (s.ev.filter (grantable core line)).map (·.w)

/-! ### Reductions at memory (R226, R227) -/

/-- The type under which a word of an atomic is read. -/
def wordType (float wide : Bool) : VType := if float then (if wide then .f64 else .f32) else (if wide then .f64 else .n32)

def intMinMax (w : Nat) (signed big : Bool) (m v : Nat) : Nat :=
  let x : Int := if signed then sgn w m else m
  let y : Int := if signed then sgn w v else v
  if big then (if x < y then v else m) else (if y < x then v else m)

/-- RED's result (R226): old value `m`, operand `v`; the word, and whether it is exceptional. -/
def redElem (f : RedMF) (wide : Bool) (m v : Nat) : Nat × Bool :=
  let w := if wide then 64 else 32
  let nf := if wide then NF.f64 else NF.f32
  match f with
  | .add => ((m + v) % 2 ^ w, false)
  | .addsati =>
    let x := sgn w m + sgn w v
    let y := clampI' (-2 ^ (w - 1)) (2 ^ (w - 1) - 1) x
    (wrapN w y, x != y)
  | .addsatn => (if m + v ≥ 2 ^ w then (2 ^ w - 1, true) else (m + v, false))
  | .fadd => fpElem nf rne false .add [m, v]
  | .fmax => minmaxElem nf .max m v
  | .fmin => minmaxElem nf .min m v
  | .mini => (intMinMax w true false m v, false)
  | .maxi => (intMinMax w true true m v, false)
  | .and => (m &&& v, false)
  | .or => (m ||| v, false)
  | .xor => (m ^^^ v, false)
  | .fmaxabs => minmaxElem nf .maxabs m v
where
  clampI' (lo hi x : Int) : Int := if x < lo then lo else if x > hi then hi else x

def RedMF.float : RedMF → Bool
  | .fadd | .fmax | .fmin | .fmaxabs => true
  | _ => false

/-- A word of memory or an operand as a source of tag_blame. -/
def wordSrc (float wide : Bool) (tag : Tag) (x : Nat) : TSrc :=
  ⟨tag, tag.msb || (float && excValue (wordType float wide) x)⟩

/-- The write of an atomic word: 4 or 8 bytes at `va`, every word with one tag. -/
def wordWrite (seq : Nat) (g : GRef) (lane slot va : Nat) (wide : Bool) (x : Nat) (t : Tag) : GWrite :=
  let n := if wide then 8 else 4
  let o := va % 16
  ⟨seq, g, lane, slot, va / 16 * 16, (natBytes n x).mapIdx (fun i b => (o + i, b)),
    if wide then [(o, t), (o + 4, t)] else [(o, t)], none, false, []⟩

/-- The tag of a word formed at memory, its birth interned (R349); `first` says that its issue has borne none. -/
def wordTag (s : State) (b : Birth) (site : Word) (first : Bool) (t : TagSrc) : Tag × State :=
  match t with
  | .known x => (x, s)
  | .born e => let (h, s) := intern s b site first; (TagSrc.tag h (.born e), s)

/-- One arrival on a granule: the new word and the write it makes. -/
def redWrite (s : State) (q : RedReq) (g : Gran) : GWrite × State :=
  let n := if q.wide then 8 else 4
  let m := g.slice (q.va % 16) n
  let (x, e) := redElem q.f q.wide m q.v.toNat
  let src := tagBlame [wordSrc (RedMF.float q.f) q.wide g.tag m, wordSrc (RedMF.float q.f) q.wide q.tag q.v.toNat] e
  let (t, s) := wordTag s q.birth q.site (!q.counted) src
  let s := if TagSrc.isBorn src then { s with redQ := s.redQ.map (fun p => if p.issue == q.issue then { p with counted := true } else p) } else s
  (wordWrite q.id q.g q.lane q.slot q.va q.wide x t, s)

/-- An earlier arrival of the same lane at the same place is still on its way (R227): a lane's REDs of one location
apply in program order, and arrivals of different lanes in any order. -/
def redBlocked (s : State) (q : RedReq) : Bool :=
  s.redQ.any (fun p => p.id < q.id && p.g == q.g && p.lane == q.lane && samePlace s q.core q.slot q.va p.slot p.va)

/-- A write of the home's own unit on a line may not come before it: one that the requesting core has seen or made and
that other lines of its team's commit still hold back (R336). -/
def commitBefore (s : State) (core line : Nat) (older : GWrite → Bool) : Bool :=
  (grantWrites s core line).any (fun w => older w && heldCommit s w.g.team)

/-- Applies one arrival (R226): at the bank, at the home, or as a request to the owner of a peer page. Stores that its
group issued after it are performed after it (R242). -/
def applyRed (s : State) (q : RedReq) : State :=
  let drop := fun (s : State) => { s with redQ := s.redQ.filter (fun p => p.id != q.id) }
  let older := fun (w : GWrite) => w.g != q.g || w.seq ≤ q.id
  if redBlocked s q then s
  else match zoneOf q.core q.va with
    | .bad => drop s
    | .window cl off =>
      let loc := sramLoc cl off
      if engineOwns s (granKey loc) then s
      else
        let (w, s) := redWrite s q (granAt s loc)
        drop (performAt s loc true w)
    | .mapped =>
      let line := lineKey q.slot q.va
      if engineOwns s line || waitsPage s q.slot q.va (.store q.g.team) || commitBefore s q.core line older then s
      else match translate s q.slot q.va .rmw with
      | (.error _, s) => coreFault s ⟨q.core, writerCtx s q.g.team q.slot, q.slot⟩ q.va .rmw (.store q.g.team)
      | (.ok x, s) =>
        if x.peer then
          match peerTarget s x q.va (.red q.f q.wide q.v) with
          | some r =>
            if egressFull s (some q.g) q.core x 1 then s
            else drop (sendPeer s (.store q.g q.lane q.va) q.core r x q.va (.red q.f q.wide q.v))
          | none => drop (s.modGroup q.g (fun g => { g with peerFail := g.peerFail ++ [(.badAddress, x.window, q.va, q.lane)] }))
        else
          let s := recallWhere (aliasFill s q.slot q.va x) q.slot q.va x (fun e => older e.w && !heldCommit s e.w.g.team)
          let s := dropStale s q.core line
          let g := granAt s (x.loc q.va)
          let (w, s) := redWrite s q (if x.tagged then g else { g with tag := 0 })
          drop (performLine s q.slot x w)

/-- Applies the arrival of an identity. -/
def applyRedId (s : State) (id : Nat) : State :=
  match s.redQ.find? (fun q => q.id == id) with
  | some q => applyRed s q
  | none => s

/-- Applies every arrival of a group that can be applied. -/
def applyReds (s : State) (r : GRef) : State :=
  ((s.redQ.filter (fun q => q.g == r)).map (·.id)).foldl applyRedId s

/-! ### Ownership (R191, R192, R336) -/

/-- An older store of the same group waits on the fault path, or its page has proved to be a peer's and it is not yet
sent: the group's stores to peers leave in program order (R255). -/
def olderHeld (s : State) (core : Nat) (w : GWrite) : Option EvWrite :=
  s.ev.find? (fun e => e.core == core && e.w.g == w.g && e.w.seq < w.seq &&
    match locate s e.w.slot e.w.va with
    | some x => x.peer
    | none => true)

/-- Sends a line's writes that proved to be a peer's, each after the group's older ones. -/
def sendHeld (s : State) (core line : Nat) (x : Xlat) : State :=
  (s.ev.filter (grantable core line)).foldl (fun s e =>
    if (olderHeld s e.core e.w).isSome || egressFull s (some e.w.g) e.core x e.w.runs.length then s
    else trimLines (peerStore { s with ev := s.ev.erase e } e.core e.w x) [line]) s

/-- The home answers the ownership request of a core's line (R191, R192): refused while an engine owns the line
(R20), the page needs the fault path (R215), or an earlier RED of the group is to come first (R242). -/
def grantOne (s : State) (core line : Nat) : State :=
  let ws := grantWrites s core line
  if engineOwns s line || ws.any (fun w => waitsPage s w.slot w.va (.store w.g.team)) then s
  else match translate s (lineSlot line) (lineVa line) .write with
    | (.error _, s) =>
      ws.foldl (fun s w =>
        coreFault s ⟨core, writerCtx s w.g.team w.slot, w.slot⟩ (lineVa line) .write (.store w.g.team)) s
    | (.ok x, s) =>
      if x.peer then sendHeld s core line x
      else
        let s := ((s.redQ.filter (fun q => ws.any (fun w => q.g == w.g && q.id < w.seq &&
          samePlace s core w.slot w.va q.slot q.va))).map (·.id)).foldl applyRedId s
        if ws.any (redAhead s core) then s
        else grantOwned (aliasFill s (lineSlot line) (lineVa line) x) core line x

/-- The committing teams that must become visible together with some teams: those that share a line with them. -/
def closeCommit (s : State) : Nat → List Nat → List Nat
  | 0, ts => ts
  | n + 1, ts =>
    let lines := (s.ev.filter (fun e => ts.contains e.w.g.team)).map (fun e => e.w.line)
    let more := (s.ev.filter (fun e => lines.contains e.w.line && heldCommit s e.w.g.team)).map (fun e => e.w.g.team)
    closeCommit s n ((ts ++ more).eraseDups)

/-- Every committed line of some teams can be owned now. -/
def commitReady (s : State) (ts : List Nat) : Bool :=
  (s.ev.filter (fun e => ts.contains e.w.g.team)).all (fun e => !engineOwns s e.w.line && !redAhead s e.core e.w &&
    match translatePure s e.w.slot e.w.va .write with
    | .ok _ => true
    | .error _ => false)

/-- Grants a line. With a committed write among those it performs, every line of the commit is owned in one step, or
none (R336). -/
def grantLine (s : State) (core line : Nat) : State :=
  match (((grantWrites s core line).map (fun w => w.g.team)).filter (heldCommit s)).eraseDups with
  | [] => grantOne s core line
  | ts =>
    let ts := closeCommit s 8 ts
    let es := s.ev.filter (fun e => ts.contains e.w.g.team)
    if commitReady s ts then
      let s := (es.map (fun e => (e.core, e.w.line))).foldl (fun s p => grantOne s p.1 p.2) s
      grantOne s core line
    else es.foldl (fun s e =>
      match translatePure s e.w.slot e.w.va .write with
      | .ok _ => s
      | .error _ => if waitsPage s e.w.slot e.w.va (.store e.w.g.team) then s else
        coreFault s ⟨e.core, writerCtx s e.w.g.team e.w.slot, e.w.slot⟩ e.w.va .write (.store e.w.g.team)) s

/-- Every line with early-visible writes of the core, or of its cluster (R194). -/
def grantAll (s : State) (core : Nat) : State :=
  let ls := ((s.ev.filter (fun e => e.core == core || (e.level == .cluster && clusterOf e.core == clusterOf core))).map
    (fun e => e.w.line)).eraseDups
  ls.foldl (fun s l => grantLine s core l) s

/-- A core's early-visible writes of a line become owned in the cluster cache (R194): they follow the cluster's, the
other cores of the cluster lose their copies, and the cluster cache holds nothing older. -/
def promoteLine (s : State) (core line : Nat) (x : Xlat) : State :=
  let cl := clusterOf core
  let s := invalidateCopies s (lineSlot line) (lineVa line) x (fun c => clusterOf c == cl && c != core) (some cl)
  let mine := fun (e : EvWrite) =>
    e.core == core && e.level == .core && e.w.line == line && !heldCommit s e.w.g.team
  let s := dropStale { s with
    ev := s.ev.filter (fun e => !mine e) ++ (s.ev.filter mine).map (fun e => { e with level := .cluster }) } core line
  setClusters s line fun l =>
    if l.cluster == cl then some { l with l1s := l.l1s &&& (evBits s cl line ||| l1Bit core) } else some l

/-- Every line of the core with writes that it alone sees becomes owned in the cluster cache (R194). Lines on the fault
path keep their request open (R215). -/
def promoteLines (s : State) (core : Nat) : State :=
  let mine := s.ev.filter (fun e => e.core == core && e.level == .core)
  mine.foldl (fun s e =>
    if engineOwns s e.w.line || !s.ev.contains e || heldCommit s e.w.g.team then s
    else match translate s e.w.slot e.w.va .write with
      | (.error _, s) => coreFault s ⟨core, writerCtx s e.w.g.team e.w.slot, e.w.slot⟩ e.w.va .write (.store e.w.g.team)
      | (.ok x, s) => if x.peer then sendHeld s core e.w.line x else promoteLine s core e.w.line x) s

/-! ### Releases and acquires -/

/-- Whether a release is done, or what it waits for. -/
inductive Sync
  | done (s : State)
  | park (s : State)
  | wait (w : Why) (s : State)
deriving DecidableEq, Repr

def Sync.state : Sync → State
  | .done s | .park s | .wait _ s => s

/-- The scope reaches the home (R194). -/
def Scope.wide : Scope → Bool
  | .dev | .die | .sys => true
  | _ => false

/-- Whether a fault request holds the page of a write. -/
def onFaultPath (s : State) (core slot va : Nat) : Bool := s.faults.any (sameFault (dieOf core) slot (va / 4096))

/-- Registers parked lanes on the requests that a group's own stores and REDs wait for. -/
def parkOnOwn (s : State) (r : GRef) (core : Nat) (x : Mask) : State :=
  let pages := ((s.ev.filter (fun e => e.w.g == r)).map (fun e => (e.w.slot, e.w.va / 4096))) ++
    ((s.redQ.filter (fun q => q.g == r)).map (fun q => (q.slot, q.va / 4096)))
  { s with faults := s.faults.map (fun f =>
      if f.die == dieOf core && pages.contains (f.slot, f.page) then { f with who := f.who ++ [.lanes r x] } else f) }

/-- A load or an atomic of the group to a peer page: its value is not yet bound. -/
def peerReads (r : GRef) (d : PeerDst) : Bool :=
  match d with
  | .loadV n .. | .loadS n .. | .name n .. | .casT n .. | .word n _ => n.g == r
  | _ => false

/-- A load of the group has not bound its value: no later store of the group is performed before it (R192, R242). -/
def unbound (s : State) (r : GRef) : Bool := s.peerOut.any (fun p => peerReads r p.dst)

/-- A store of the group that its owner has not answered. -/
def peerUnanswered (s : State) (r : GRef) : Bool :=
  s.peerOut.any (fun p => match p.dst with
    | .store g _ _ => g == r
    | _ => false)

/-- Drains a group's queue and applies its REDs, in program order where they meet (R242). -/
def pushOwn (s : State) (r : GRef) : State := drainGroup (applyReds (drainGroup s r) r) r

/-- Applies a release at a scope to a group (R194, R202): the group's queue drains, its REDs are performed, its
stores become visible at the scope's point of coherence and its peer stores are answered. -/
def releaseAt (s : State) (r : GRef) (core : Nat) (x : Mask) (sc : Scope) : Sync :=
  if unbound s r then .wait .peer s else
  let s := pushOwn s r
  match heldStoreWhy s r with
  | some y => .wait y s
  | none =>
  let s := match sc with
    | .grp | .core => s
    | .clu => promoteLines s core
    | _ => grantAll s core
  let ownEv := s.ev.filter (fun e => e.w.g == r && (Scope.wide sc || (sc == .clu && e.level == .core)))
  let ownRed := s.redQ.filter (fun q => q.g == r)
  if ownEv.any (fun e => onFaultPath s core e.w.slot e.w.va) || ownRed.any (fun q => onFaultPath s core q.slot q.va) then
    .park (parkOnOwn s r core x)
  else match ownEv, ownRed with
    | e :: _, _ => .wait (.line e.w.line) s
    | [], q :: _ => .wait (.line (lineKey q.slot q.va)) s
    | [], [] => if peerUnanswered s r then .wait .peer s else .done s

/-- Applies an acquire at a scope for a core (R193, R194): the L1's queued invalidations at .clu, and the cluster
cache's too at wider scopes, which leaves the cluster's other L1s with their own queues alone. -/
def acquireAt (s : State) (core : Nat) (sc : Scope) : State :=
  match sc with
  | .grp | .core => s
  | .clu => { s with stale := s.stale.filter (fun l => l.core != core || l.cluster) }
  | _ => { s with stale := (s.stale.filter (fun l => l.core != core)).map (fun l =>
      if clusterOf l.core == clusterOf core then { l with cluster := false } else l) }

/-! ### Commits (R335 to R337) -/

/-- The team runs inside its private store buffer. -/
def unpinned (c : Cur) : Bool := c.l.kernel.replayable && !c.t.pinned

/-- One uncommitted write enters the L1 early-visible; the commit's release makes it owned with the others. -/
def enterCommitted (s : State) (core : Nat) (w : GWrite) : State :=
  match translate s w.slot w.va .write with
  | (.ok x, s) => if x.peer then { s with ev := s.ev ++ [⟨core, .core, w⟩] } else enterEv (aliasFill s w.slot w.va x) core w x.size
  | (.error _, s) => enterEv s core w 1

/-- Moves the team's uncommitted lines into the L1 and releases them at device scope, all in one step (R336). -/
def commitTeam (s : State) (team : Nat) : State :=
  match s.team? team with
  | none => s
  | some t =>
    let s := t.uncommitted.foldl (fun s w => enterCommitted s t.core w)
      (s.modTeam team (fun t => { t with uncommitted := [], pinned := true, committing := true }))
    grantAll s t.core

/-- Committed lines of the team that are not yet owned. -/
def commitLeft (s : State) (team : Nat) : List EvWrite :=
  match s.team? team with
  | some t => if t.committing then s.ev.filter (fun e => e.w.g.team == team) else []
  | none => []

/-- An event of R337: the team is committed and pinned before the word takes effect. -/
def pinFirst (s : State) (c : Cur) : Sync :=
  let s := if unpinned c then commitTeam s c.t.id
    else if c.t.committing then grantAll s c.t.core else s
  match commitLeft s c.t.id with
  | [] => .done (s.modTeam c.t.id (fun t => { t with committing := false }))
  | e :: r => match (e :: r).find? (fun e => onFaultPath s c.t.core e.w.slot e.w.va) with
    | some e =>
      .park { s with faults := s.faults.map (fun f =>
        if sameFault (dieOf c.t.core) e.w.slot (e.w.va / 4096) f then { f with who := f.who ++ [.lanes c.ref c.n.x] } else f) }
    | none => .wait (.line e.w.line) s

/-- Goes on with a word once a release or a commit is done. -/
def afterSync (c : Cur) (y : Sync) (k : State → State) : State :=
  match y with
  | .done s => k s
  | .park s => settle s c ⟨false, .blame, 0, false⟩ c.n.x []
  | .wait w s => blockWord s c w

/-- The release part of an ordered word. -/
def ordRel : Ord → Bool
  | .rel | .ar => true
  | _ => false
def ordAcq : Ord → Bool
  | .acq | .ar => true
  | _ => false

/-- A word whose order may hold a release: the release first. -/
def withRelease (s : State) (c : Cur) (o : MOrd) (k : State → State) : State :=
  if ordRel o.order then afterSync c (releaseAt s c.ref c.t.core c.n.x o.scope) k else k s

/-- The acquire part of an ordered word, when its value is bound. -/
def withAcquire (s : State) (c : Cur) (o : MOrd) : State :=
  if ordAcq o.order then acquireAt s c.t.core o.scope else s

/-! ### Peer failures (R424) -/

/-- The oldest failed peer store is delivered at the group's next release, or access to the same window, as a
trap of every lane of X; the word takes no effect. `wins` are the windows the word accesses. -/
def deliverFail (s : State) (c : Cur) (release : Bool) (wins : List Nat) : Option State :=
  match c.g.peerFail.find? (fun f => release || wins.contains f.2.1) with
  | none => none
  | some f =>
    let s := c.mod s (fun g => { g with peerFail := g.peerFail.erase f })
    some (trapAll s c c.n.x f.1 0 (BitVec.ofNat 64 f.2.2.1))

/-- The import windows that some addresses name. -/
def windowsOf (s : State) (slot : Nat) (vas : List Nat) : List Nat :=
  vas.filterMap (fun va =>
    if zoneOf 0 va != .mapped then none
    else match translatePure s slot va .read with
      | .ok (x, _) => if x.peer then some x.window else none
      | .error _ => match translatePure s slot va .write with
        | .ok (x, _) => if x.peer then some x.window else none
        | .error _ => none)

/-- The order of a storing word: a release of a store to a peer page waits for the owner's answers to every earlier peer
store of the group (R255), those of stores still on the fault path among them, as one at .sys does. -/
def peerOrd (s : State) (c : Cur) (o : MOrd) (vas : List Nat) : MOrd :=
  if ordRel o.order && !(windowsOf s c.t.slot vas).isEmpty then { o with scope := .sys } else o

/-- A memory word first meets the failures of R424. -/
def memWord (s : State) (h : Head) (ok : Cur → Bool) (o : MOrd) (vas : Cur → List Nat) (k : Cur → State) :
    Host.Outcome State Fault Refusal :=
  onCur s fun c =>
    let _ := h
    if !ok c then wordFault s c .illegalOperand
    else match deliverFail s c (ordRel o.order) (if c.g.peerFail.isEmpty then [] else windowsOf s c.t.slot (vas c)) with
      | some s => s
      | none => k c

/-! ### One access -/

/-- What a reading access finds: the granule, a trap, a lane to park, a line an engine owns, or a peer page. -/
inductive Got
  | gran (g : Gran)
  | trap (c : Cause)
  | park
  | line (l : Nat)
  | peer (x : Xlat)
deriving DecidableEq, Repr

/-- REDs of the group that a load of this granule must include (R227). -/
def redsOn (s : State) (r : GRef) (w : Who) (va : Nat) : List RedReq :=
  s.redQ.filter (fun q => q.g == r && samePlace s w.core w.slot va q.slot q.va)

/-- A store of the core's own, or a RED of the group, falls in a granule of a peer page and has not been sent. -/
def unsent (s : State) (r : GRef) (w : Who) (va : Nat) : Bool :=
  (privateWrites s r ++ (s.ev.filter (fun e => e.core == w.core)).map (·.w)).any (sameGran s w.core w.slot va) ||
  !(redsOn s r w va).isEmpty

/-- A load of a peer page leaves after what its lanes stored there before (R203, R227, R255): an uncommitted store that
proves to be a peer's pins its team first (R337). -/
def sendFirst (s : State) (r : GRef) (w : Who) (x : Xlat) (va : Nat) : State :=
  let s := match s.team? r.team with
    | some t => if t.uncommitted.any (sameGran s w.core w.slot va) then commitTeam s t.id else s
    | none => s
  sendHeld (pushOwn s r) w.core (lineKey w.slot va) x

/-- A load-class access of `n` bytes of a group at an address (R199): checked, brought into the core, with the group's
own REDs of the place performed first. Waiters of the fault path are `who`. -/
def readFor (s : State) (r : GRef) (w : Who) (va : Word) (align n : Nat) (k : AK) (ro : Bool) (who : Waiter) : Got × State :=
  let line := lineKey w.slot va.toNat
  match check189 s w va align k with
  | (.badAddress, s) => (.trap .badAddress, s)
  | (.align, s) => (.trap .align, s)
  | (.fault _, s) =>
    match (if k == .read && (redsOn s r w va.toNat).isEmpty then heldGran s r w va.toNat n else none) with
    | some g => (.gran g, s)
    | none => (.park, coreFault s w va.toNat k who)
  | (.window loc, s) =>
    if engineOwns s (granKey loc) then (.line (granKey loc), s) else (.gran (windowSeen (applyReds s r) r loc), applyReds s r)
  | (.mem x, s) =>
    if x.peer then
      if !unsent s r w va.toNat then (.peer x, s)
      else if unbound s r then (.line line, s)
      else
        let s := sendFirst s r w x va.toNat
        if unsent s r w va.toNat then (.line line, s) else (.peer x, s)
    else if engineOwns s line && (staleOf s w.core line).isNone then (.line line, s)
    else
      let s := if (redsOn s r w va.toNat).isEmpty then s else applyReds s r
      match redsOn s r w va.toNat with
      | q :: _ =>
        if onFaultPath s w.core q.slot q.va then (.park, coreFault s w q.va .rmw who) else (.line (lineKey q.slot q.va), s)
      | [] =>
        let s := fillRead s w.core w.slot va.toNat x ro
        (.gran (granSeen s r w x va.toNat), s)

/-- Whether a store-class access is allowed: a trap, the park of a 65th line, or the place it goes to. -/
inductive Put
  | trap (c : Cause)
  | park
  | window (loc : Nat)
  | mem (x : Option Xlat)
deriving DecidableEq, Repr

/-- Lanes at the limit of R215 wait for the core's lines: they replay when any request that its accesses merged
into is answered. -/
def waitRoom (s : State) (core : Nat) (who : Waiter) : State :=
  match who with
  | .lanes r m => { s with faults := s.faults.map (fun f =>
      if f.die == dieOf core && f.cores.contains core && !f.who.contains (.room r m) then { f with who := f.who ++ [.room r m] } else f) }
  | _ => s

/-- A store-class access: it never parks for its own page, but at the limit of R215. -/
def storeFor (s : State) (w : Who) (va : Word) (align : Nat) (k : AK) (team : Nat) (who : Waiter) (extra : List Nat) :
    Put × State :=
  match check189 s w va align k with
  | (.badAddress, s) => (.trap .badAddress, s)
  | (.align, s) => (.trap .align, s)
  | (.window loc, s) => (.window loc, s)
  | (.mem x, s) => (.mem (some x), s)
  | (.fault _, s) =>
    if overLimit s w.core w.slot va.toNat extra then (.park, waitRoom s w.core who)
    else (.mem none, coreFault s w va.toNat k (.store team))

/-- The tag of the vector index operand (R189). -/
def idxTag (g : Group) (m : MemOp) (lane : Nat) : Tag :=
  match m.index with
  | .v r => g.vtag r.toNat lane
  | _ => 0

/-! ### Poison (R338 to R340) -/

/-- Lanes consume poison: the team is relaunched, or each lane traps POISON. -/
def eatPoison (s : State) (c : Cur) (h : Head) (parks : Mask) (traps ps : List LaneTrap) : State :=
  match ps with
  | [] => settle s c h parks traps
  | p :: _ =>
    if unpinned c && c.t.relaunches < 2 then
      endTeam s c.t.id ⟨.poison, true, c.ref, p.lane, p.faultva.toNat, c.n.pc, p.ttag, 0, 0⟩
    else settle s c h parks (byLane (ps ++ traps))

/-! ### Pushing stores -/

/-- The lines of a team's uncommitted writes. -/
def uncLines (t : Team) : List Nat := (t.uncommitted.map GWrite.line).eraseDups

/-- The uncommitted lines of the resident replayable teams of a core (R335). -/
def reserveUse (s : State) (core : Nat) : Nat :=
  ((s.teams.filter (fun t => t.core == core && !t.saved)).map (fun t => (uncLines t).length)).foldl (· + ·) 0

/-- A store needs a new uncommitted line that the team or the core has no room for (R335). -/
def reserveFull (s : State) (c : Cur) (ls : List Nat) : Bool :=
  match s.team? c.t.id with
  | none => false
  | some t =>
    let new := ls.eraseDups.filter (fun l => !(uncLines t).contains l)
    !new.isEmpty && ((uncLines t).length + new.length > 2048 || reserveUse s t.core + new.length > 2048)

/-- A write goes into the team's private buffer: an unpinned replayable team's store to device memory. -/
def heldStore (c : Cur) (p : Put) : Bool :=
  unpinned c && match p with
    | .mem (some x) => !x.peer && !x.host
    | .mem none => true
    | _ => false

/-- A store that pins the team (R337): to host memory or a peer page, or a window store outside the team's own
allotment. -/
def pinningStore (s : State) (c : Cur) (p : Put) : Bool :=
  unpinned c && match p with
    | .mem (some x) => x.peer || x.host
    | .window loc => !inAllot s c.t (loc / 2 ^ 24 % 32) (loc % 2 ^ 24)
    | _ => false

/-- Two writes of one granule make one write, the later bytes winning: lanes of a word (R199, R353), stores of an
uncommitted line (R335, R353). Each byte keeps the tag of the word that wrote it, so that W of R353 is the words that
still hold a byte. -/
def joinWrites (w v : GWrite) : GWrite :=
  { w with
    seq := v.seq
    lane := v.lane
    bytes := v.bytes.foldl (fun l p => minsert p.1 p.2 l) w.bytes
    tags := v.tags.foldl (fun l p => minsert p.1 p.2 l) w.tags
    cuts := w.cuts ++ v.cuts }

/-- An uncommitted line is committed as one write (R353): a store joins the last store held for its granule, unless
a TSTG stands between them (R354). -/
def addHeld : List GWrite → GWrite → List GWrite
  | [], w => [w]
  | x :: r, w =>
    let same := fun (y : GWrite) => y.slot == w.slot && y.va == w.va
    if same x && x.tstg.isNone && w.tstg.isNone && !r.any same then joinWrites x w :: r else x :: addHeld r w

/-- What a later store of the team leaves of a store it holds uncommitted: the bytes that the later one does not write
(a spill is written directly, R335). -/
def cutWrite (w x : GWrite) : Option GWrite :=
  if x.slot != w.slot || x.va != w.va || x.tstg.isSome then some x
  else
    let keep := fun (o : Nat) => !w.bytes.any (fun p => p.1 == o)
    let bytes := x.bytes.filter (fun p => keep p.1)
    if bytes.isEmpty then none else some { x with bytes := bytes, tags := x.tags.filter (fun p => keep p.1) }

/-- Queues one write of the issuing group. -/
def queueWrite (s : State) (c : Cur) (held : Bool) (w : GWrite) : State :=
  if held then s.modTeam c.t.id (fun t => { t with uncommitted := addHeld t.uncommitted w })
  else (s.modTeam c.t.id (fun t => { t with uncommitted := t.uncommitted.filterMap (cutWrite w) })).modGroup c.n.g
    (fun g => { g with storeQ := g.storeQ ++ [w] })

/-- The name by which a queued write goes: a window store by the local window's address. -/
def putVa (p : Put) (va : Nat) : Nat :=
  match p with
  | .window loc => windowVa (loc / 2 ^ 24 % 32) (loc % 2 ^ 24)
  | _ => va

end Sys2Proof.Machine
end

