-- ==== Sys2Proof/Machine/MemInstr.lean ====
section
/-! DEFINITION. Loads and stores (R198 to R204), PREF, PROBE, IINV (R205 to R207), and tags in memory as values
(R361 to R363). -/

namespace Sys2Proof.Machine

open Sys2Proof

/-- The context of a word after the state has changed under it. -/
def refresh (s : State) (c : Cur) : Cur := (cur? s).getD c

/-! ### Loads -/

/-- load_tag (R200): granule tag `g`, old tag of the destination. -/
def loadTag (rule : TagRule) (g old : Tag) : TagSrc :=
  match rule with
  | .blame | .pass => .known g
  | .birth => .born g.msb
  | .keep => .known (if g.msb then g else old)

/-- What the lanes of a loading word have found so far. -/
structure LoadAcc where
  s      : State
  ws     : List RegW
  parks  : List Nat
  traps  : List LaneTrap
  poison : List LaneTrap
  line   : Option Nat
  peers  : List (Nat × Xlat × Word)
  born   : Bool               -- a word formed by the issue has borne a tag (R349)
deriving DecidableEq, Repr

/-- One lane's load: `f` gives its writes from the granule. -/
def loadLane (c : Cur) (m : MemOp) (n : Nat) (ro : Bool) (f : Nat → Gran → Nat → List RegW) (a : LoadAcc) (i : Nat) : LoadAcc :=
  let va := memAddr c.g m i
  match readFor a.s c.ref c.who va n n .read ro (.lanes c.ref (maskOf [i])) with
  | (.trap x, s) => { a with s := s, traps := a.traps ++ [⟨i, x, idxTag c.g m i, va⟩] }
  | (.park, s) => { a with s := s, parks := a.parks ++ [i] }
  | (.line l, s) => { a with s := s, line := some l }
  | (.peer x, s) => match peerTarget s x va.toNat (.read n) with
    | some _ => { a with s := s, peers := a.peers ++ [(i, x, va)] }
    | none => { a with s := s, traps := a.traps ++ [⟨i, .badAddress, idxTag c.g m i, va⟩] }
  | (.gran g, s) =>
    if g.poison then { a with s := s, poison := a.poison ++ [⟨i, .poison, g.tag, BitVec.ofNat 64 (va.toNat / 16 * 16)⟩] }
    else { a with s := s, ws := a.ws ++ f i g (va.toNat % 16) }

def LoadAcc.start (s : State) : LoadAcc := ⟨s, [], [], [], [], none, [], false⟩

/-- Sends the requests of a load's peer lanes. -/
def sendLoads (s : State) (core : Nat) (n : Nat) (dst : Nat → Word → PeerDst) (l : List (Nat × Xlat × Word)) : State :=
  l.foldl (fun s p => match peerTarget s p.2.1 p.2.2.toNat (.read n) with
    | some r => sendPeer s (dst p.1 p.2.2) core r p.2.1 p.2.2.toNat (.read n)
    | none => s) s

/-- Ends a loading word: its result is outstanding, an acquire follows the bound value, lanes that met the fault
path park, and lanes that trapped or met poison take no write. -/
def loadDone (c : Cur) (h : Head) (o : MOrd) (n : Nat) (dst : Nat → Nat → Word → PeerDst) (a : LoadAcc) : State :=
  match a.line, resultGate c .none with
  | some l, _ => blockWord a.s c (.line l)
  | none, some w => blockWord a.s c w
  | none, none =>
    if a.peers.any (fun p => egressFull a.s (some c.ref) c.t.core p.2.1 a.peers.length) then blockWord a.s c .peer
    else
      let dead := a.ws.isEmpty && a.peers.isEmpty && !(a.parks.isEmpty && a.traps.isEmpty && a.poison.isEmpty)
      let id := a.s.seqN
      let s := if dead then a.s else addPend a.s c .none a.peers.isEmpty a.ws
      let s := sendLoads s c.t.core n (dst id) a.peers
      let s := withAcquire s c o
      let s := if ordAcq o.order && !a.peers.isEmpty then waitFor s c (.acquire o.scope) else s
      eatPoison s c h (maskOf a.parks) a.traps a.poison

def execVld (h : Head) (z : MSize) (o : MOrd) (d : BitVec 8) (m : MemOp) (s : State) :
    Host.Outcome State Fault Refusal :=
  let n := MSize.bytes z
  memWord s h (fun c => c.vOk d.toNat z.wide && c.idxOk m) o
    (fun c => (lanesOf (c.active h)).map (fun i => (memAddr c.g m i).toNat)) fun c =>
    let f := fun i (g : Gran) off => putV z.wide d.toNat i (MSize.extend z (g.slice off n))
      (loadTag h.rule g.tag (oldTag c.g z.wide d.toNat i))
    let a := (lanesOf (c.active h)).foldl (loadLane c m n (o.hint.toNat ≥ 2) f) (LoadAcc.start s)
    loadDone c h o n (fun id i va => .loadV c.n id i d.toNat z h.rule va.toNat (idxTag c.g m i)) a

/-- SLD (R199): the lanes of X act together. -/
def execSld (h : Head) (z : MSize) (o : MOrd) (d : BitVec 6) (m : MemOp) (s : State) :
    Host.Outcome State Fault Refusal :=
  let n := MSize.bytes z
  memWord s h (fun _ => true) o (fun c => [(memAddr c.g m 0).toNat]) fun c =>
    let va := memAddr c.g m 0
    match resultGate c .none, readFor s c.ref c.who va n n .read (o.hint.toNat ≥ 2) (.lanes c.ref c.n.x) with
    | some w, _ => blockWord s c w
    | none, (.trap x, s) => trapAll s c c.n.x x 0 va
    | none, (.park, s) => settle s c h c.n.x []
    | none, (.line l, s) => blockWord s c (.line l)
    | none, (.peer x, s) => match peerTarget s x va.toNat (.read n) with
      | none => trapAll s c c.n.x .badAddress 0 va
      | some r =>
        if egressFull s (some c.ref) c.t.core x 1 then blockWord s c .peer
        else
          let s' := addPend s c .none false []
          let s' := sendPeer s' (.loadS c.n s.seqN d z va.toNat) c.t.core r x va.toNat (.read n)
          finish (if ordAcq o.order then waitFor s' c (.acquire o.scope) else s') c h
    | none, (.gran g, s) =>
      if g.poison then
        eatPoison s c h 0 [] ((lanesOf c.n.x).map (fun i => ⟨i, .poison, g.tag, BitVec.ofNat 64 (va.toNat / 16 * 16)⟩))
      else
        let s := addPend s c .none true [.s d (BitVec.ofNat 64 (MSize.extend z (g.slice (va.toNat % 16) n)))]
        finish (withAcquire s c o) c h

/-- The key under which a group's word keeps the peer data it has received. -/
def wordKey (r : GRef) : Nat := 2 ^ 64 + r.team * 32 + r.grp

/-- Peer data received for an owner that covers `n` bytes at an address. -/
def fetchedAt (s : State) (owner va n : Nat) : Option (List Byte) :=
  (s.fetched.find? (fun p => p.1 == owner && p.2.1 ≤ va && va + n ≤ p.2.1 + p.2.2.length)).map
    (fun p => (p.2.2.drop (va - p.2.1)).take n)

/-- The word has what it read from peers; a replay reads again. -/
def dropFetched (s : State) (owner : Nat) : State := { s with fetched := s.fetched.filter (fun p => p.1 != owner) }

/-- Pieces of one read that follow each other in an aligned block of 256 bytes go in one request (R159, R421). -/
def joinAsks : List (Nat × Nat × Xlat) → List (Nat × Nat × Xlat)
  | [] => []
  | p :: r => match joinAsks r with
    | q :: t => if p.1 + p.2.1 == q.1 && p.1 / 256 == q.1 / 256 then (p.1, p.2.1 + q.2.1, p.2.2) :: t else p :: q :: t
    | [] => [p]

/-- Sends the requests of a read's missing pieces, each once, as far as the egress queue has room (R425). -/
def askPeers (s : State) (dst : Nat → PeerDst) (core : Nat) (l : List (Nat × Nat × Xlat)) : State :=
  l.foldl (fun s p =>
    if s.peerOut.any (fun q => q.dst == dst p.1) || egressFull s (PeerDst.group (dst p.1)) core p.2.2 1 then s
    else match peerTarget s p.2.2 p.1 (.read p.2.1) with
      | some r => sendPeer s (dst p.1) core r p.2.2 p.1 (.read p.2.1)
      | none => s) s

/-! ### Stores -/

/-- What the lanes of a storing word have found so far. -/
structure StoreAcc where
  s     : State
  out   : List (Put × GWrite)
  parks : List Nat
  traps : List LaneTrap
  extra : List Nat
deriving DecidableEq, Repr

def StoreAcc.start (s : State) : StoreAcc := ⟨s, [], [], [], []⟩

/-- The tag of byte `i` of a write: that of its word. -/
def byteTag (tags : List (Nat × Tag)) (i : Nat) : Tag := ((tags.filter (fun p => p.1 ≤ i)).getLast?.map Prod.snd).getD 0

/-- The write of `n` bytes of `x` at `va`, its words carrying `tags`: each byte with its word's tag, for joins (R353). -/
def laneWrite (seq : Nat) (g : GRef) (lane slot va n x : Nat) (tags : List (Nat × Tag)) : GWrite :=
  let o := va % 16
  ⟨seq, g, lane, slot, va / 16 * 16, (natBytes n x).mapIdx (fun i b => (o + i, b)),
    (List.range n).map (fun i => (o + i, byteTag tags i)), none, false, [o]⟩

/-- One lane's store (R199): `data` gives the lane's value and the tags of its words. -/
def storeLane (c : Cur) (n : Nat) (addr : Nat → Word) (itag : Nat → Tag) (data : Nat → Nat × List (Nat × Tag))
    (a : StoreAcc) (i : Nat) : StoreAcc :=
  let va := addr i
  match storeFor a.s c.who va n .write c.t.id (.lanes c.ref (maskOf [i])) a.extra with
  | (.trap x, s) => { a with s := s, traps := a.traps ++ [⟨i, x, itag i, va⟩] }
  | (.park, s) => { a with s := s, parks := a.parks ++ [i] }
  | (p, s) =>
    let (x, tags) := data i
    match (if c.l.kernel.trapstore then tags.find? (fun t => t.2.msb) else none) with
    | some t => { a with s := s, traps := a.traps ++ [⟨i, .tagStore, t.2, va⟩] }
    | none =>
      let noWin := match p with
        | .mem (some y) => y.peer && (peerTarget s y va.toNat (.write [] false)).isNone
        | _ => false
      if noWin then { a with s := s, traps := a.traps ++ [⟨i, .badAddress, itag i, va⟩] }
      else
        let extra := match p with
          | .mem none => a.extra ++ [lineKey c.t.slot va.toNat]
          | _ => a.extra
        { a with s := s, extra := extra, out := a.out ++ [(p, laneWrite s.seqN c.ref i c.t.slot (putVa p va.toNat) n x tags)] }

/-- Adds a lane's write to a word's writes; peer pages take one request for each lane (R421). -/
def addWrite (l : List (Put × GWrite)) (p : Put × GWrite) : List (Put × GWrite) :=
  let alone := match p.1 with
    | .mem (some x) => x.peer
    | _ => false
  if alone || !l.any (fun q => q.2.va == p.2.va) then l ++ [p]
  else l.map (fun q => if q.2.va == p.2.va then (q.1, joinWrites q.2 p.2) else q)

/-- Queues a word's writes and ends it. -/
def storeDone (c : Cur) (h : Head) (a : StoreAcc) : State :=
  let ws := a.out.foldl addWrite []
  let s := ws.foldl (fun s p => queueWrite s c (heldStore c p.1) p.2) a.s
  settle s c h (maskOf a.parks) a.traps

/-- The word pins its team first (R335, R337). -/
def storePins (c : Cur) (a : StoreAcc) : Bool :=
  a.out.any (fun p => pinningStore a.s c p.1) ||
  reserveFull a.s c ((a.out.filter (fun p => heldStore c p.1)).map (fun p => p.2.line))

/-- A storing word: evaluated, its team pinned first where that is due, and queued. -/
def storeWord (s : State) (c : Cur) (h : Head) (plan : State → Cur → StoreAcc) : State :=
  let a := plan s c
  if storePins c a then
    afterSync c (pinFirst a.s c) fun s =>
      let c := refresh s c
      storeDone c h (plan s c)
  else storeDone c h a

/-- A lane's store data and its words' tags. -/
def storeData (c : Cur) (z : MSize) (d : Nat) (i : Nat) : Nat × List (Nat × Tag) :=
  if z.wide then
    ((c.g.vreg (d + 1) i ++ c.g.vreg d i).toNat, [(0, c.g.vtag d i), (4, c.g.vtag (d + 1) i)])
  else ((c.g.vreg d i).toNat, [(0, c.g.vtag d i)])

def execVst (h : Head) (z : MSize) (o : MOrd) (d : BitVec 8) (m : MemOp) (s : State) :
    Host.Outcome State Fault Refusal :=
  memWord s h (fun c => c.vOk d.toNat z.wide && c.idxOk m) o
    (fun c => (lanesOf (c.active h)).map (fun i => (memAddr c.g m i).toNat)) fun c =>
    withRelease s c (peerOrd s c o ((lanesOf (c.active h)).map (fun i => (memAddr c.g m i).toNat))) fun s =>
      storeWord s (refresh s c) h fun s c =>
        (lanesOf (c.active h)).foldl
          (storeLane c (MSize.bytes z) (memAddr c.g m) (idxTag c.g m) (storeData c z d.toNat)) (StoreAcc.start s)

/-- The words of a store of `n` bytes, each with tag 0. -/
def zeroTags (n : Nat) : List (Nat × Tag) := (List.range ((n + 3) / 4)).map (fun i => (4 * i, 0))

/-- What a scalar store asks of a peer: 16 bytes only of a Porut X9 (R421). -/
def storeAsk (n : Nat) : PeerOp := if n == 16 then .casName 0 0 else .write [] false

/-- The store of a scalar-only word for the lanes of X together: `x` in `n` bytes, every word with tag 0. -/
def scalarStore (s : State) (c : Cur) (h : Head) (va : Word) (n x : Nat) (k : State → Cur → State) : State :=
  match storeFor s c.who va n .write c.t.id (.lanes c.ref c.n.x) [] with
  | (.trap y, s) => trapAll s c c.n.x y 0 va
  | (.park, s) => settle s c h c.n.x []
  | (p, s) =>
    let noWin := match p with
      | .mem (some y) => y.peer && (peerTarget s y va.toNat (storeAsk n)).isNone
      | _ => false
    if noWin then trapAll s c c.n.x .badAddress 0 va
    else
      let lane := (lanesOf c.n.x).headD 0
      let w := laneWrite s.seqN c.ref lane c.t.slot (putVa p va.toNat) n x (zeroTags n)
      let go := fun (s : State) (c : Cur) => k (queueWrite s c (heldStore c p) w) c
      if pinningStore s c p || (heldStore c p && reserveFull s c [w.line]) then
        afterSync c (pinFirst s c) fun s => go s (refresh s c)
      else go s c

def execSst (h : Head) (z : MSize) (o : MOrd) (d : BitVec 6) (m : MemOp) (s : State) :
    Host.Outcome State Fault Refusal :=
  memWord s h (fun _ => true) o (fun c => [(memAddr c.g m 0).toNat]) fun c =>
    withRelease s c (peerOrd s c o [(memAddr c.g m 0).toNat]) fun s =>
      let c := refresh s c
      scalarStore s c h (memAddr c.g m 0) (MSize.bytes z) (c.g.sreg d.toNat).toNat fun s c => finish s c h

/-! ### PREF, PROBE, IINV -/

/-- PREF never traps, parks or takes the fault path, and a part may ignore it (R205). -/
def execPref (h : Head) (_hint : BitVec 2) (m : MemOp) (s : State) : Host.Outcome State Fault Refusal :=
  onCur s fun c => if c.idxOk m then finish s c h else wordFault s c .illegalOperand

/-- A load of this size would complete without a trap and without the fault path (R206): as the load itself would find,
what it would change left aside. -/
def probeOk (s : State) (c : Cur) (va : Word) (n : Nat) : Bool :=
  match (readFor s c.ref c.who va n n .read false (.lanes c.ref c.n.x)).1 with
  | .gran g => !g.poison
  | .peer x => (peerTarget s x va.toNat (.read n)).isSome
  | .line _ => true
  | .trap _ | .park => false

def execProbe (h : Head) (z : MSize) (p : BitVec 3) (m : MemOp) (s : State) : Host.Outcome State Fault Refusal :=
  onCur s fun c =>
    if c.idxOk m then resultDone s c h .none (putP c h p fun i => probeOk s c (memAddr c.g m i) (MSize.bytes z))
    else wordFault s c .illegalOperand

/-- IINV (R207): a device-scope release, the lines invalidated in every instruction cache, and a wait for every
acknowledgement. -/
def execIinv (h : Head) (m : MemOp) (s : State) : Host.Outcome State Fault Refusal :=
  memWord s h (fun c => c.idxOk m) ⟨.dev, .rel, 0⟩ (fun _ => []) fun c =>
    withRelease s c ⟨.dev, .rel, 0⟩ fun s =>
      let lines := (lanesOf (c.active h)).map (fun i => (memAddr c.g m i).toNat / 128)
      let s := { s with icache := s.icache.filter (fun l => !(l.slot == c.t.slot && lines.contains (l.va / 128))) }
      finish (waitFor s c .iinv) c h

/-! ### Tags in memory as values -/

/-- The tag TLDG's register takes (R362). -/
def tldgTag (rule : TagRule) (g old : Tag) : TagSrc :=
  match rule with
  | .blame | .birth => .born false
  | .pass => .known g
  | .keep => .known old

/-- One lane of TLDG: a page without tags, a peer page among them, reads 0. -/
def tldgLane (c : Cur) (h : Head) (d : Nat) (m : MemOp) (a : LoadAcc) (i : Nat) : LoadAcc :=
  let f := fun i (g : Gran) _ => putV false d i g.tag.toNat (tldgTag h.rule g.tag (c.g.vtag d i))
  let b := loadLane c m 16 false f a i
  match b.peers with
  | [] => b
  | _ => { b with peers := [], ws := b.ws ++ putV false d i 0 (tldgTag h.rule 0 (c.g.vtag d i)) }

def execTldg (h : Head) (o : MOrd) (d : BitVec 8) (m : MemOp) (s : State) : Host.Outcome State Fault Refusal :=
  memWord s h (fun c => c.vOk d.toNat false && c.idxOk m) o
    (fun c => (lanesOf (c.active h)).map (fun i => (memAddr c.g m i).toNat)) fun c =>
    loadDone c h o 16 (fun id i va => .loadV c.n id i d.toNat .b32 h.rule va.toNat (idxTag c.g m i))
      ((lanesOf (c.active h)).foldl (tldgLane c h d.toNat m) (LoadAcc.start s))

/-- One lane of TSTG (R363): it replaces the granule's tag and writes no byte. -/
def tstgLane (c : Cur) (d : Nat) (m : MemOp) (a : StoreAcc) (i : Nat) : StoreAcc :=
  let va := memAddr c.g m i
  let t := (c.g.vreg d i).setWidth 16
  match storeFor a.s c.who va 16 .write c.t.id (.lanes c.ref (maskOf [i])) a.extra with
  | (.trap x, s) => { a with s := s, traps := a.traps ++ [⟨i, x, idxTag c.g m i, va⟩] }
  | (.park, s) => { a with s := s, parks := a.parks ++ [i] }
  | (p, s) =>
    if c.l.kernel.trapstore && t.msb then { a with s := s, traps := a.traps ++ [⟨i, .tagStore, t, va⟩] }
    else
      let w : GWrite := ⟨s.seqN, c.ref, i, c.t.slot, putVa p (va.toNat / 16 * 16), [], [], some t, false, []⟩
      match p with
      | .mem (some x) =>
        if x.peer then
          (if (peerTarget s x va.toNat (.write [] false)).isNone then
            { a with s := s, traps := a.traps ++ [⟨i, .badAddress, idxTag c.g m i, va⟩] } else { a with s := s })
        else { a with s := s, out := a.out ++ [(p, w)] }
      | .mem none => { a with s := s, out := a.out ++ [(p, w)], extra := a.extra ++ [lineKey c.t.slot va.toNat] }
      | _ => { a with s := s, out := a.out ++ [(p, w)] }

/-- TSTG writes granule by granule in increasing lane order. -/
def tstgDone (c : Cur) (h : Head) (a : StoreAcc) : State :=
  settle (a.out.foldl (fun s p => queueWrite s c (heldStore c p.1) p.2) a.s) c h (maskOf a.parks) a.traps

def execTstg (h : Head) (o : MOrd) (d : BitVec 8) (m : MemOp) (s : State) : Host.Outcome State Fault Refusal :=
  memWord s h (fun c => c.vOk d.toNat false && c.idxOk m) o
    (fun c => (lanesOf (c.active h)).map (fun i => (memAddr c.g m i).toNat)) fun c =>
    withRelease s c (peerOrd s c o ((lanesOf (c.active h)).map (fun i => (memAddr c.g m i).toNat))) fun s =>
      let plan := fun s (c : Cur) => (lanesOf (c.active h)).foldl (tstgLane c d.toNat m) (StoreAcc.start s)
      let c := refresh s c
      let a := plan s c
      if storePins c a then
        afterSync c (pinFirst a.s c) fun s => tstgDone (refresh s c) h (plan s (refresh s c))
      else tstgDone c h a

end Sys2Proof.Machine
end

