-- ==== Sys2Proof/Machine/Roster.lean ====
section
/-! DEFINITION. The roster: resolution of names (R261), reasons (R262) and their .gt trap (R263), regions of FIFO
banks, and the objects' record fields. -/

namespace Sys2Proof.Machine

open Sys2Proof

/-- The class of a name (R257). -/
def nameClass (n : Name) : Nat := (n.extractLsb' 120 8).toNat
def nameDevice (n : Name) : BitVec 16 := n.extractLsb' 104 16

/-- The name's entry, live or dying. -/
def entryOf (s : State) (n : Name) : Option Entry := mfind s.roster n.toNat

def State.modEntry (s : State) (n : Name) (f : Entry → Entry) : State :=
  match mfind s.roster n.toNat with
  | some e => { s with roster := minsert n.toNat (f e) s.roster }
  | none => s

/-- A context's M and B bits (R272). -/
def isManager (s : State) (ctx : Nat) : Bool :=
  match ctxEntry s ctx with
  | some e => e.record.getLsbD 289
  | none => false
def mayConfigBanks (s : State) (ctx : Nat) : Bool :=
  match ctxEntry s ctx with
  | some e => e.record.getLsbD 288
  | none => false

/-- The owner code of the host (R279). -/
def hostOwner : Nat := 0x7F

/-- Resolution (R261): the live entry, or the reason code of R262. -/
def resolve (s : State) (ctx : Nat) (n : Name) (cls : Option Nat) : Except Nat Entry :=
  if n == 0 then .error 0x03
  else if nameDevice n != s.devno then .error 0x02
  else match entryOf s n with
    | none => .error 0x01
    | some e =>
      if e.dying then .error 0x01
      else if (match cls with
        | some k => nameClass n != k
        | none => false) then .error 0x04
      else if e.owner != ctx && (e.owner == hostOwner || !isManager s ctx) then .error 0x05
      else .ok e

/-! The name caches (R264), numbered: the cores by their package number, the copy engines from 256 by cluster, the
transform engines from 288 by die and number, the collective engines from 304 and the dispatchers from 308 by die, and the
tile fetch units from 512 by core. -/

def engineCache : EngRef → Nat
  | .copy cluster => 256 + cluster
  | .xform die e => 288 + 2 * die + e
def collectiveCache (die : Nat) : Nat := 304 + die
def dispatchCache (die : Nat) : Nat := 308 + die
def fetchCache (core : Nat) : Nat := 512 + core

/-- Entries of a name cache. -/
def nameRoom (unit : Nat) : Nat := if unit < 256 then 64 else 16

/-- A live entry's name enters a unit's name cache (R264); its oldest entry makes room. -/
def cacheName (s : State) (unit : Nat) (n : Name) : State :=
  if s.nameCache.contains (unit, n) then s
  else
    let mine := s.nameCache.filter (fun p => p.1 == unit)
    let rest := if mine.length ≥ nameRoom unit then s.nameCache.erase (mine.headD (0, 0)) else s.nameCache
    { s with nameCache := rest ++ [(unit, n)] }

/-- q and NSTAT of a reason (R262): a q field of 0 names no register. -/
def reasonWs (q : BitVec 3) (code : Nat) : List RegW := [.q q (code == 0), .nstat code]

/-- A word whose results are q, NSTAT and others returns them. -/
def reasonDone (s : State) (c : Cur) (h : Head) (q : BitVec 3) (code : Nat) (ws : List RegW) : State :=
  resultDone s c h .none (reasonWs q code ++ ws)

/-- A name resolved to GONE (R263): NAME_GONE for every lane of X with .gt, else q false with the reason. -/
def goneDone (s : State) (c : Cur) (h : Head) (q : BitVec 3) (gt : Bool) (code : Nat) (va : Word) (ws : List RegW) : State :=
  if gt then trapAll s c c.n.x .nameGone 0 va else reasonDone s c h q code ws

/-! ### Pigeonholes and circular buffers in FIFO banks -/

/-- A pigeonhole's record fields (R267). -/
def pigCap (r : BitVec 352) : Nat := (r.extractLsb' 29 16).toNat
def pigAllow (r : BitVec 352) : Nat := (r.extractLsb' 45 16).toNat
def pigScope (r : BitVec 352) : Scope := if r.getLsbD 61 then .dev else .clu
def pigLocal (r : BitVec 352) : Bool := r.getLsbD 62
def pigCluster (r : BitVec 352) : Nat := (r.extractLsb' 27 2).toNat * 8 + (r.extractLsb' 24 3).toNat
def pigOffset (r : BitVec 352) : Nat := (r.extractLsb' 0 24).toNat

/-- A producer identifier (R232). -/
def producerId (c : Cur) : Word := BitVec.ofNat 64 (c.g.grp % 32 * 2 ^ 32 + c.t.idx % 2 ^ 32)

def allowOf (allow : List (Word × Nat)) (id : Word) (initial : Nat) : Nat :=
  match allow.find? (fun p => p.1 == id) with
  | some p => p.2
  | none => initial

/-- Creates a producer's entry; none when all 64 are in use (R232). -/
def ensureAllow (allow : List (Word × Nat)) (id : Word) (initial : Nat) : Option (List (Word × Nat)) :=
  if allow.any (fun p => p.1 == id) then some allow
  else if allow.length ≥ 64 then none
  else some (allow ++ [(id, initial)])

def setAllow (allow : List (Word × Nat)) (id : Word) (n : Nat) : List (Word × Nat) :=
  allow.map (fun p => if p.1 == id then (p.1, n) else p)

/-- The producer identifier of a group by reference. -/
def producerOf (s : State) (r : GRef) : Word :=
  match s.team? r.team with
  | some t => BitVec.ofNat 64 (r.grp % 32 * 2 ^ 32 + t.idx % 2 ^ 32)
  | none => 0

/-- Whether a blocked group could now be served. -/
def servable (s : State) (e : Entry) (items : List Word) (allow : List (Word × Nat)) (w : GRef × Bool) : Bool :=
  if w.2 then allowOf allow (producerOf s w.1) (pigAllow e.record) > 0 && items.length < pigCap e.record
  else !items.isEmpty

/-- A group blocked earlier that could be served now (R233). -/
def aheadOf (s : State) (e : Entry) (items : List Word) (allow : List (Word × Nat)) (waiters : List (GRef × Bool))
    (r : GRef) : Bool :=
  (waiters.takeWhile (fun w => w.1 != r)).any (servable s e items allow)

end Sys2Proof.Machine
end

