-- ==== Sys2Proof/Machine/Segment.lean ====
section
/-! DEFINITION. A team's segment (R155, R165, R170), and the addresses of the call-spill and slate regions in it
(R140, R371). -/

namespace Sys2Proof.Machine

open Sys2Proof

def alignUp (n x : Nat) : Nat := (x + n - 1) / n * n

def sumOf (l : List Nat) : Nat := l.foldl (· + ·) 0

/-- The groups of a team. -/
def Kernel.groups (k : Kernel) : Nat := sumOf (k.roles.map Prod.fst)

/-- The lane-registers of a team (R162). -/
def Kernel.laneRegs (k : Kernel) : Nat := sumOf (k.roles.map (fun r => r.1 * k.width * r.2))

/-- The sizes of the sections of R170, in its order. -/
def Kernel.sections (k : Kernel) : List Nat :=
  let g := k.groups
  [256, g * (1024 + k.width * 96), k.laneRegs * 4, alignUp 256 (k.laneRegs * 2), g * k.slateOn, k.acc * 73728,
    alignUp 256 (k.scratch * 9 / 8), if k.replayable then 262144 else 0, g * k.width * k.callspill, g * k.slateMem]

/-- Where a section starts: each at a multiple of 256. -/
def Kernel.sectionAt (k : Kernel) (i : Nat) : Nat :=
  (k.sections.take i).foldl (fun o n => alignUp 256 (o + n)) 0

/-- A team's segment need: the end of its last section. -/
def Kernel.need (k : Kernel) : Nat := k.sectionAt 9 + k.sections.getD 9 0

/-- The segment pool of a context record (R272). -/
def poolBase (r : BitVec 352) : Nat := (r.extractLsb' 192 56).toNat
def segSize (r : BitVec 352) : Nat := (r.extractLsb' 248 24).toNat * 4096
def segCount (r : BitVec 352) : Nat := (r.extractLsb' 272 16).toNat

/-- SEGBASE. -/
def segBase (s : State) (t : Team) : Nat :=
  match ctxEntry s t.ctx with
  | some e => poolBase e.record + t.seg * segSize e.record
  | none => 0

/-- The call-spill place of entry `j` of a lane (R140). -/
def callPlace (s : State) (t : Team) (k : Kernel) (grp lane j : Nat) : Word :=
  BitVec.ofNat 64 (segBase s t + k.sectionAt 8 + (grp * k.width + lane) * k.callspill + 8 * j)

/-- The start of a group's slate memory region (R371). -/
def slatePlace (s : State) (t : Team) (k : Kernel) (grp : Nat) : Nat := segBase s t + k.sectionAt 9 + grp * k.slateMem

/-- The maximum call depth. -/
def Kernel.maxDepth (k : Kernel) : Nat := 4 + k.callspill / 8

end Sys2Proof.Machine
end

