-- ==== Sys2Proof/Machine/Sync.lean ====
section
/-! DEFINITION. Atomics, REDs, fences and synchronisation (R221 to R239). -/

namespace Sys2Proof.Machine

open Sys2Proof

/-! ### ATOM and ACAS -/

def AtomF.float : AtomF → Bool
  | .fadd | .fmax => true
  | _ => false

/-- ATOM's new value (R222) and whether it is exceptional. -/
def atomElem (f : AtomF) (wide : Bool) (m v : Nat) : Nat × Bool :=
  let w := if wide then 64 else 32
  let nf := if wide then NF.f64 else NF.f32
  match f with
  | .add => ((m + v) % 2 ^ w, false)
  | .and => (m &&& v, false)
  | .or => (m ||| v, false)
  | .xor => (m ^^^ v, false)
  | .mini => (intMinMax w true false m v, false)
  | .maxi => (intMinMax w true true m v, false)
  | .minn => (intMinMax w false false m v, false)
  | .maxn => (intMinMax w false true m v, false)
  | .xchg => (v, false)
  | .fadd => fpElem nf rne false .add [m, v]
  | .fmax => minmaxElem nf .max m v

/-- An atomic's write, if one is due: the new word and its tag, from the old word and the granule's tag. -/
structure RmwOut where
  new : Option (Nat × TagSrc)
deriving DecidableEq, Repr

/-- ATOM's word and tag (R223). -/
def atomOut (f : AtomF) (wide : Bool) (v : Nat) (vt : Tag) (m : Nat) (g : Tag) : RmwOut :=
  let (n, e) := atomElem f wide m v
  ⟨some (n, if f == .xchg then .known vt
    else tagBlame [wordSrc (AtomF.float f) wide vt v, wordSrc (AtomF.float f) wide g m] e)⟩

/-- ACAS's word and tag (R223). -/
def casOut (cmp new : Nat) (nt : Tag) (m : Nat) : RmwOut := ⟨if m == cmp then some (new, .known nt) else none⟩

/-- Where an atomic performs on a translated line (R224), and the granule it reads there. The group's queue has
drained. -/
def rmwTake (s : State) (r : GRef) (w : Who) (x : Xlat) (va : Nat) (sc : Scope) : Gran × State :=
  let line := lineKey w.slot va
  match sc with
  | .grp | .core => let s := fillRead s w.core w.slot va x false; (granSeen s r w x va, s)
  | .clu =>
    let s := promoteLine (fillRead (dropStale s w.core line) w.core w.slot va x false) w.core line x
    (granSeen s r w x va, s)
  | _ =>
    let s := grantOwned (aliasFill s w.slot va x) w.core line x
    (let g := granAt s (x.loc va); if x.tagged then g else { g with tag := 0 }, s)

/-- Performs an atomic's write at its scope. -/
def rmwPut (s : State) (w : Who) (x : Xlat) (sc : Scope) (g : GWrite) : State :=
  match sc with
  | .grp | .core => enterEv s w.core g x.size
  | .clu =>
    let s := enterEv s w.core g x.size
    { s with ev := s.ev.dropLast ++ [⟨w.core, .cluster, g⟩] }
  | _ => performLine s g.slot x g

/-- A line on which an atomic reaches its scope's point of coherence with nothing of the core's left behind: what waits
for an engine, a commit or an earlier RED is waited for (R224, R242). -/
def rmwBar (s : State) (core line : Nat) (sc : Scope) : Bool × State :=
  match sc with
  | .grp | .core => (false, s)
  | .clu => ((grantWrites s core line).any (fun w => heldCommit s w.g.team), s)
  | _ => let s := if (grantWrites s core line).isEmpty then s else grantLine s core line
         (!(grantWrites s core line).isEmpty, s)

/-- The tag that an atomic's word is known to take before its owner answers, where it has E: the word of a peer page
takes no tag there, but TAG_STORE applies (R211, R365). -/
def peerWordTag (tag : Option TagSrc) : Option Tag :=
  match tag with
  | some (.known t) => if t.msb then some t else none
  | _ => none

/-- One lane's atomic: `out` gives the write from the old word and tag, `pre` the tag that the word takes whatever the
old word is. -/
def rmwLane (c : Cur) (h : Head) (wide : Bool) (sc : Scope) (d : Nat) (m : MemOp) (op : Nat → PeerOp)
    (pre : Nat → Option TagSrc) (out : Nat → Nat → Tag → RmwOut) (a : LoadAcc) (i : Nat) : LoadAcc :=
  let va := memAddr c.g m i
  let n := if wide then 8 else 4
  let trapIn := fun (a : LoadAcc) (s : State) (x : Cause) (t : Tag) => { a with s := s, traps := a.traps ++ [⟨i, x, t, va⟩] }
  let trap := trapIn a
  match readFor a.s c.ref c.who va n n .rmw false (.lanes c.ref (maskOf [i])) with
  | (.trap x, s) => trap s x (idxTag c.g m i)
  | (.park, s) => { a with s := s, parks := a.parks ++ [i] }
  | (.line l, s) => { a with s := s, line := some l }
  | (.peer x, s) => match peerTarget s x va.toNat (op i) with
    | some _ => match (if c.l.kernel.trapstore then peerWordTag (pre i) else none) with
      | some t => trap s .tagStore t
      | none => { a with s := s, peers := a.peers ++ [(i, x, va)] }
    | none => trap s .badAddress (idxTag c.g m i)
  | (.gran g0, s) =>
    let place := (check189 s c.who va n .rmw).1
    let key := lineKey c.t.slot va.toNat
    let (bar, s) := match place with
      | .mem _ => rmwBar s c.t.core key sc
      | _ => (false, s)
    if bar then { a with s := s, line := some key } else
    let (g, s) := match place with
      | .mem x => rmwTake s c.ref c.who x va.toNat sc
      | _ => (g0, s)
    if g.poison then { a with s := s, poison := a.poison ++ [⟨i, .poison, g.tag, BitVec.ofNat 64 (va.toNat / 16 * 16)⟩] }
    else
      let old := g.slice (va.toNat % 16) n
      let ws := putV wide d i old (loadTag h.rule g.tag (oldTag c.g wide d i))
      match (out i old g.tag).new with
      | none => { a with s := s, ws := a.ws ++ ws }
      | some (x, t) =>
        let (tag, s) := wordTag s (birthOf s c.ref) c.n.pc (!a.born) t
        let a := { a with born := a.born || TagSrc.isBorn t }
        if c.l.kernel.trapstore && tag.msb then trapIn a s .tagStore tag
        else
          let w := wordWrite s.seqN c.ref i c.t.slot va.toNat wide x tag
          let s := match place with
            | .window loc => performAt s loc true w
            | .mem y => rmwPut s c.who y sc w
            | _ => s
          { a with s := s, ws := a.ws ++ ws }

/-- Sends an atomic's peer requests, one for each lane. -/
def sendRmws (s : State) (core : Nat) (op : Nat → PeerOp) (dst : Nat → Word → PeerDst) (l : List (Nat × Xlat × Word)) : State :=
  l.foldl (fun s p => match peerTarget s p.2.1 p.2.2.toNat (op p.1) with
    | some r => sendPeer s (dst p.1 p.2.2) core r p.2.1 p.2.2.toNat (op p.1)
    | none => s) s

/-- ATOM and ACAS (R223, R229): release, commit and pin, the lanes in increasing order, acquire. -/
def rmwWord (s : State) (h : Head) (z : MSize) (o : MOrd) (d : BitVec 8) (m : MemOp) (ok : Cur → Bool)
    (op : Cur → Nat → PeerOp) (pre : Cur → Nat → Option TagSrc) (out : Cur → Nat → Nat → Tag → RmwOut)
    (dst : Cur → Nat → Nat → Word → PeerDst) : Host.Outcome State Fault Refusal :=
  memWord s h ok o (fun c => (lanesOf (c.active h)).map (fun i => (memAddr c.g m i).toNat)) fun c =>
    if unbound s c.ref then blockWord s c .peer else
    withRelease s c (peerOrd s c o ((lanesOf (c.active h)).map (fun i => (memAddr c.g m i).toNat))) fun s =>
      afterSync (refresh s c) (pinFirst s (refresh s c)) fun s =>
        let s := drainGroup s c.ref
        let c := refresh s c
        match resultGate c .none with
        | some w => blockWord s c w
        | none =>
          let a := (lanesOf (c.active h)).foldl (rmwLane c h z.wide o.scope d.toNat m (op c) (pre c) (out c)) (LoadAcc.start s)
          match a.line with
          | some l => blockWord s c (.line l)
          | none =>
            if a.peers.any (fun p => egressFull s (some c.ref) c.t.core p.2.1 a.peers.length) then blockWord s c .peer
            else
              let dead := a.ws.isEmpty && a.peers.isEmpty && !(a.parks.isEmpty && a.traps.isEmpty && a.poison.isEmpty)
              let id := a.s.seqN
              let s := if dead then a.s else countPend (addPend a.s c .none a.peers.isEmpty a.ws) c a.born
              let s := sendRmws s c.t.core (op c) (dst c id) a.peers
              let s := withAcquire s c o
              let s := if ordAcq o.order && !a.peers.isEmpty then waitFor s c (.acquire o.scope) else s
              eatPoison s c h (maskOf a.parks) a.traps a.poison

/-- A 32- or 64-bit register operand and its tag. -/
def regOperand (g : Group) (wide : Bool) (r i : Nat) : Nat × Tag :=
  if wide then ((g.vreg (r + 1) i ++ g.vreg r i).toNat, pairTag (g.vtag r i) (g.vtag (r + 1) i))
  else ((g.vreg r i).toNat, g.vtag r i)

/-- The tag of an ATOM's word that the operand decides alone: xchg's, and that of an operand whose E the result keeps. -/
def atomPre (f : AtomF) (wide : Bool) (v : Nat × Tag) : Option TagSrc :=
  let src := wordSrc (AtomF.float f) wide v.2 v.1
  if f == .xchg then some (.known v.2) else if AtomF.float f && src.exc && v.2.msb then some (.known v.2) else none

def execAtom (h : Head) (f : AtomF) (z : MSize) (o : MOrd) (d : BitVec 8) (m : MemOp) (s : State) :
    Host.Outcome State Fault Refusal :=
  rmwWord s h z o d m (fun c => c.vOk d.toNat z.wide && c.idxOk m)
    (fun c i => .atomic f z.wide (BitVec.ofNat 64 (regOperand c.g z.wide d.toNat i).1))
    (fun c i => atomPre f z.wide (regOperand c.g z.wide d.toNat i))
    (fun c i old g => let (v, vt) := regOperand c.g z.wide d.toNat i; atomOut f z.wide v vt old g)
    (fun c id i va => .loadV c.n id i d.toNat z h.rule va.toNat (idxTag c.g m i))

/-- An ACAS to a peer page whose new word has E, in a trapstore launch, can only trap or leave the word as it is: it asks
for the word alone (R223, R365). -/
def casAsks (c : Cur) (wide : Bool) (r i : Nat) : Bool := c.l.kernel.trapstore && (regOperand c.g wide r i).2.msb

/-- ACAS: the compare value in d, the new value in the register or pair after it. -/
def execAcas (h : Head) (z : MSize) (o : MOrd) (d : BitVec 8) (m : MemOp) (s : State) :
    Host.Outcome State Fault Refusal :=
  let k := if z.wide then 2 else 1
  rmwWord s h z o d m (fun c => c.vOk (d.toNat + k) z.wide && c.idxOk m)
    (fun c i =>
      if casAsks c z.wide (d.toNat + k) i then .read (MSize.bytes z)
      else .cas z.wide (BitVec.ofNat 64 (regOperand c.g z.wide d.toNat i).1)
        (BitVec.ofNat 64 (regOperand c.g z.wide (d.toNat + k) i).1))
    (fun _ _ => none)
    (fun c i old _ =>
      let (v, vt) := regOperand c.g z.wide (d.toNat + k) i
      casOut (regOperand c.g z.wide d.toNat i).1 v vt old)
    (fun c id i va =>
      if casAsks c z.wide (d.toNat + k) i then
        .casT c.n id i d.toNat z h.rule va.toNat (idxTag c.g m i) (BitVec.ofNat 64 (regOperand c.g z.wide d.toNat i).1)
          (regOperand c.g z.wide (d.toNat + k) i).2
      else .loadV c.n id i d.toNat z h.rule va.toNat (idxTag c.g m i))

/-! ### RED -/

/-- One lane's RED: its arrival is queued (R227). -/
def redLane (c : Cur) (issue : Nat) (f : RedMF) (wide : Bool) (d : Nat) (m : MemOp) (a : StoreAcc) (i : Nat) : StoreAcc :=
  let va := memAddr c.g m i
  let n := if wide then 8 else 4
  let (v, vt) := regOperand c.g wide d i
  let trap := fun (s : State) (x : Cause) (t : Tag) => { a with s := s, traps := a.traps ++ [⟨i, x, t, va⟩] }
  match storeFor a.s c.who va n .rmw c.t.id (.lanes c.ref (maskOf [i])) [] with
  | (.trap x, s) => trap s x (idxTag c.g m i)
  | (.park, s) => { a with s := s, parks := a.parks ++ [i] }
  | (p, s) =>
    let noWin := match p with
      | .mem (some y) => y.peer && (peerTarget s y va.toNat (.red f wide 0)).isNone
      | _ => false
    if noWin then trap s .badAddress (idxTag c.g m i)
    else if c.l.kernel.trapstore && vt.msb then trap s .tagStore vt
    else
      let q : RedReq := ⟨s.seqN, c.ref, c.t.core, c.t.slot, i, va.toNat, f, wide, BitVec.ofNat 64 v, vt, c.n.pc, birthOf s c.ref, issue, false⟩
      { a with s := { s with redQ := s.redQ ++ [q], seqN := s.seqN + 1 } }

def execRed (h : Head) (f : RedMF) (z : MSize) (o : MOrd) (d : BitVec 8) (m : MemOp) (s : State) :
    Host.Outcome State Fault Refusal :=
  memWord s h (fun c => c.vOk d.toNat z.wide && c.idxOk m) o
    (fun c => (lanesOf (c.active h)).map (fun i => (memAddr c.g m i).toNat)) fun c =>
    if unbound s c.ref then blockWord s c .peer else
    withRelease s c (peerOrd s c o ((lanesOf (c.active h)).map (fun i => (memAddr c.g m i).toNat))) fun s =>
      afterSync (refresh s c) (pinFirst s (refresh s c)) fun s =>
        let s := drainGroup s c.ref
        let c := refresh s c
        let a := (lanesOf (c.active h)).foldl (redLane c s.seqN f z.wide d.toNat m) (StoreAcc.start s)
        settle a.s c h (maskOf a.parks) a.traps

/-! ### FENCE and COMMIT -/

/-- The acquire of a fence waits until every earlier load of the group has bound its value (R228). DESIGN CHOICE (entry
13): a load whose lanes are parked on the fault path is not waited for; it stands at its place and replays (R245). -/
def fenceAcquire (s : State) (c : Cur) (sc : Scope) : State :=
  if c.g.pend.any (fun p => !p.ready) then waitFor s c (.acquire sc) else acquireAt s c.t.core sc

def execFence (h : Head) (sc : Scope) (o : Ord) (s : State) : Host.Outcome State Fault Refusal :=
  memWord s h (fun _ => true) ⟨sc, o, 0⟩ (fun _ => []) fun c =>
    withRelease s c ⟨sc, o, 0⟩ fun s =>
      let c := refresh s c
      finish (if ordAcq o then fenceAcquire s c sc else s) c h

def execCommit (h : Head) (s : State) : Host.Outcome State Fault Refusal :=
  onCur s fun c => afterSync c (pinFirst s c) fun s => finish s (refresh s c) h

/-! ### Pigeonholes -/

/-- Blocks a group on a pigeonhole, behind those already blocked. -/
def blockOn (s : State) (c : Cur) (n : Name) (push : Bool) : State :=
  let join := fun (o : Obj) => match o with
    | .pigeon t items allow ws => Obj.pigeon t items allow (if ws.any (fun w => w.1 == c.ref) then ws else ws ++ [(c.ref, push)])
    | o => o
  let s := s.modEntry n (fun e => { e with obj := join e.obj })
  blockWord s c (if push then .push n else .pop n)

def unblock (ws : List (GRef × Bool)) (r : GRef) : List (GRef × Bool) := ws.filter (fun w => w.1 != r)

/-- A pin that a pigeonhole word makes unless the L bit is set (R233). -/
def pigPin (s : State) (c : Cur) (r : BitVec 352) : Sync := if pigLocal r then .done s else pinFirst s c

/-- QPUSH (R233). -/
def execQpush (h : Head) (q : BitVec 3) (t g : Bool) (kx : BitVec 4) (sa : BitVec 6) (s : State) :
    Host.Outcome State Fault Refusal :=
  onCur s fun c =>
    let n := c.g.name kx.toNat
    match resolve s c.t.ctx n (some 3) with
    | .error code => goneDone s c h q g code 0 []
    | .ok e => match e.obj with
      | .pigeon tm items allow ws =>
        let id := producerId c
        match ensureAllow allow id (pigAllow e.record) with
        | none => reasonDone s c h q 0x23 []
        | some allow =>
          let a := allowOf allow id 0
          let s := s.modEntry n (fun e => { e with obj := .pigeon tm items allow ws })
          let full := items.length ≥ pigCap e.record
          if a == 0 || full then
            (if t then reasonDone s c h q (if a == 0 then 0x21 else 0x20) [] else blockOn s c n true)
          else if !t && aheadOf s e items allow ws c.ref then blockOn s c n true
          else
            afterSync c (pigPin s c e.record) fun s =>
            match deliverFail s (refresh s c) true [] with
            | some s => s
            | none =>
              afterSync (refresh s c) (releaseAt s c.ref c.t.core c.n.x (pigScope e.record)) fun s =>
                match resultGate (refresh s c) .none with
                | some w => blockWord s (refresh s c) w
                | none =>
                  let o : Obj := .pigeon tm (items ++ [c.g.sreg sa.toNat]) (setAllow allow id (a - 1)) (unblock ws c.ref)
                  let s := s.modEntry n (fun e => { e with obj := o })
                  reasonDone s (refresh s c) h q 0 []
      | _ => reasonDone s c h q 0x04 []

/-- QPOP (R233). -/
def execQpop (h : Head) (q : BitVec 3) (t g : Bool) (kx : BitVec 4) (sa : BitVec 6) (s : State) :
    Host.Outcome State Fault Refusal :=
  onCur s fun c =>
    let n := c.g.name kx.toNat
    match resolve s c.t.ctx n (some 3) with
    | .error code => goneDone s c h q g code 0 []
    | .ok e => match e.obj with
      | .pigeon tm items allow ws =>
        match items with
        | [] => if t then reasonDone s c h q 0x22 [] else blockOn s c n false
        | x :: rest =>
          if !t && aheadOf s e items allow ws c.ref then blockOn s c n false
          else
            afterSync c (pigPin s c e.record) fun s =>
              match resultGate (refresh s c) .none with
              | some w => blockWord s (refresh s c) w
              | none =>
                let s := s.modEntry n (fun e => { e with obj := .pigeon tm rest allow (unblock ws c.ref) })
                let s := acquireAt s c.t.core (pigScope e.record)
                reasonDone s (refresh s c) h q 0 [.s sa x]
      | _ => reasonDone s c h q 0x04 []

/-- QALLOW.grant (R232). -/
def execQallowGrant (h : Head) (q : BitVec 3) (g : Bool) (kx : BitVec 4) (sa sb : BitVec 6) (s : State) :
    Host.Outcome State Fault Refusal :=
  onCur s fun c =>
    let n := c.g.name kx.toNat
    let id := c.g.sreg sa.toNat
    match resolve s c.t.ctx n (some 3) with
    | .error code => goneDone s c h q g code 0 []
    | .ok e => match e.obj with
      | .pigeon tm items allow ws =>
        if id.toNat ≥ 2 ^ 37 then reasonDone s c h q 0x23 []
        else match ensureAllow allow id (pigAllow e.record) with
          | none => reasonDone s c h q 0x23 []
          | some allow =>
            afterSync c (pigPin s c e.record) fun s =>
              match resultGate (refresh s c) .none with
              | some w => blockWord s (refresh s c) w
              | none =>
                let x := min 65535 (allowOf allow id 0 + (c.g.sreg sb.toNat).toNat)
                let s := s.modEntry n (fun e => { e with obj := .pigeon tm items (setAllow allow id x) ws })
                reasonDone s (refresh s c) h q 0 []
      | _ => reasonDone s c h q 0x04 []

/-- QALLOW.read: the issuing group's own allowance; no entry is created (R232). -/
def execQallowRead (h : Head) (q : BitVec 3) (g : Bool) (kx : BitVec 4) (sa : BitVec 6) (s : State) :
    Host.Outcome State Fault Refusal :=
  onCur s fun c =>
    match resolve s c.t.ctx (c.g.name kx.toNat) (some 3) with
    | .error code => goneDone s c h q g code 0 []
    | .ok e => match e.obj with
      | .pigeon _ _ allow _ =>
        reasonDone s c h q 0 [.s sa (BitVec.ofNat 64 (allowOf allow (producerId c) (pigAllow e.record)))]
      | _ => reasonDone s c h q 0x04 []

/-- The first blocked group that can be served is eligible and issues its word again (R233); it keeps its place
until that word is done. -/
def execQueueWake (n : Name) (s : State) : Host.Outcome State Fault Refusal :=
  .next (match entryOf s n with
    | none => s
    | some e => match e.obj with
      | .pigeon _ items allow ws =>
        match ws.find? (fun w => servable s e items allow w && (match s.group? w.1 with
          | some g => g.wait.isSome
          | none => false)) with
        | some w => wake s w.1
        | none => s
      | _ => s)

/-! ### Count cells (R235 to R237) -/

/-- The operand of CARR and CWAIT. -/
def cvalNat (g : Group) (x : CVal) : Nat :=
  match x with
  | .r sa => (g.sreg sa.toNat).toNat % 2 ^ 32
  | .i n => n.toNat

/-- A cell in host memory or in a peer window faults BAD_ADDRESS (R235). -/
def cellPlace (a : Acc189) : Acc189 :=
  match a with
  | .mem x => if x.peer || x.host then .badAddress else .mem x
  | a => a

/-- The write of a count cell's low `n` bytes, its words with tag 0. -/
def cellWrite (g : GRef) (slot va : Nat) (b : List Byte) : GWrite :=
  ⟨0, g, 0, slot, va / 16 * 16, b.mapIdx (fun i x => (va % 16 + i, x)),
    if b.length > 4 then [(va % 16, 0), (va % 16 + 4, 0)] else [(va % 16, 0)], none, false, []⟩

/-- An operation on a cell at its bank or home (R235): `f` gives the new bytes from the old dword. -/
def cellHome (s : State) (g : GRef) (slot va : Nat) (place : Acc189) (f : Nat → List Byte) : State :=
  match place with
  | .window loc => performAt s loc true (cellWrite g slot va (f (natAt s loc 8)))
  | .mem x =>
    let s := recallWhere (aliasFill s slot va x) slot va x (fun e => !heldCommit s e.w.g.team)
    let s := match s.team? g.team with
      | some t => dropStale s t.core (lineKey slot va)
      | none => s
    performLine s slot x (cellWrite g slot va (f (natAt s (x.loc va) 8)))
  | _ => s

/-- CARR and CRST: checked at size 8, pinned, released, and performed. DEDUCED (entry 24): a cell whose page needs the
fault path is waited for by the group, which does not park: R214's list does not name these words. -/
def cellWord (s : State) (h : Head) (sc : Scope) (o : Ord) (cell : BitVec 6) (f : Cur → Nat → List Byte) :
    Host.Outcome State Fault Refusal :=
  memWord s h (fun _ => true) ⟨sc, o, 0⟩ (fun _ => []) fun c =>
    if unbound s c.ref then blockWord s c .peer else
    withRelease s c ⟨sc, o, 0⟩ fun s =>
      afterSync (refresh s c) (pinFirst s (refresh s c)) fun s =>
        let s := pushOwn s c.ref
        let c := refresh s c
        let va := c.g.sreg cell.toNat
        match check189 s c.who va 8 .rmw with
        | (a, s) => match cellPlace a with
          | .badAddress => trapAll s c c.n.x .badAddress 0 va
          | .align => trapAll s c c.n.x .align 0 va
          | .fault _ => blockWord (coreFault s c.who va.toNat .rmw (.lanes c.ref c.n.x)) c .page
          | p =>
            let key := match p with
              | .window loc => granKey loc
              | _ => lineKey c.t.slot va.toNat
            let late := commitBefore s c.t.core key (fun _ => true) || !(redsOn s c.ref c.who va.toNat).isEmpty
            if engineOwns s key || late then blockWord s c (.line key)
            else finish (cellHome s c.ref c.t.slot va.toNat p (f c)) c h

/-- CARR adds to the count modulo 2^32 (R236). -/
def execCarr (h : Head) (sc : Scope) (o : Ord) (cell : BitVec 6) (x : CVal) (s : State) :
    Host.Outcome State Fault Refusal :=
  cellWord s h sc o cell fun c old => natBytes 4 (old % 2 ^ 32 + cvalNat c.g x)

/-- CRST writes 0 to all 64 bits. -/
def execCrst (h : Head) (cell : BitVec 6) (s : State) : Host.Outcome State Fault Refusal :=
  cellWord s h .dev .relaxed cell fun _ _ => natBytes 8 0

/-- TIME has reached a deadline. -/
def past (time : Word) (dl : Option Nat) : Bool :=
  match dl with
  | some d => decide (d ≤ time.toNat)
  | none => false

/-- The deadline of a CWAIT, fixed at its first issue and exact (R6, R237). -/
def cwaitDeadline (s : State) (c : Cur) (tmo : Option (BitVec 6)) : Option Nat :=
  tmo.map (fun r => c.g.cwaitDl.getD (s.time.toNat + (c.g.sreg r.toNat).toNat))

/-- CWAIT (R237). DEDUCED (entry 24): with the cell's page on the fault path the group stays blocked, and does not park:
R214's list does not name CWAIT. -/
def execCwait (h : Head) (q : BitVec 3) (t : Bool) (sc : Scope) (o : Ord) (cell : BitVec 6) (x : CVal)
    (tmo : Option (BitVec 6)) (s : State) : Host.Outcome State Fault Refusal :=
  onCur s fun c =>
    let va := c.g.sreg cell.toNat
    let dl := cwaitDeadline s c tmo
    let clear := fun (s : State) => c.mod s (fun g => { g with cwaitDl := none })
    let expired := t || past s.time dl
    let block := fun (s : State) (seen : Nat) => blockWord s c (.cwait va seen)
    let s := c.mod s (fun g => { g with cwaitDl := dl })
    match resultGate c .none, (check189 s c.who va 8 .read) with
    | some w, _ => blockWord s c w
    | none, (a, s) => match cellPlace a with
      | .badAddress => trapAll (clear s) c c.n.x .badAddress 0 va
      | .align => trapAll (clear s) c c.n.x .align 0 va
      | .fault _ =>
        if expired then reasonDone (clear s) c h q 0x24 []
        else block (coreFault s c.who va.toNat .read (.lanes c.ref c.n.x)) (2 ^ 64)
      | _ => match readFor s c.ref c.who va 8 8 .read false (.lanes c.ref c.n.x) with
        | (.gran g, s) =>
          if g.poison then
            eatPoison (clear s) c h 0 [] ((lanesOf c.n.x).map (fun i => ⟨i, .poison, g.tag, BitVec.ofNat 64 (va.toNat / 16 * 16)⟩))
          else if cvalNat c.g x ≤ g.slice (va.toNat % 16) 4 then
            reasonDone (withAcquire (clear s) c ⟨sc, o, 0⟩) c h q 0 []
          else if expired then reasonDone (clear s) c h q 0x24 []
          else block s (g.slice (va.toNat % 16) 8)
        | (.line l, s) => blockWord s c (.line l)
        | (_, s) => block s (2 ^ 64)

/-- The cell of a blocked CWAIT no longer reads as it did at the last test. -/
def cellChanged (s : State) (c : Cur) (va : Word) (seen : Nat) : Bool :=
  match (readFor s c.ref c.who va 8 8 .read false (.lanes c.ref c.n.x)).1 with
  | .gran g => g.poison || g.slice (va.toNat % 16) 8 != seen
  | .park => false
  | _ => true

/-- A blocked CWAIT retests when its cell is written (R237): its word issues again. -/
def execCwaitWake (r : GRef) (s : State) : Host.Outcome State Fault Refusal :=
  .next (match s.team? r.team, s.group? r with
    | some t, some g => match g.wait, s.launch? t.launch with
      | some w, some l => match w.why with
        | .cwait va seen => if cellChanged s ⟨w.now, t, g, l⟩ va seen then wake s r else s
        | _ => s
      | _, _ => s
    | _, _ => s)

/-- TIME has reached a blocked CWAIT's deadline: its word issues again and ends with TIMEOUT. -/
def execCwaitTimeout (r : GRef) (s : State) : Host.Outcome State Fault Refusal :=
  .next (match s.group? r with
    | some g => match g.wait, g.cwaitDl with
      | some w, some d => match w.why with
        | .cwait .. => if s.time.toNat ≥ d then wake s r else s
        | _ => s
      | _, _ => s
    | none => s)

/-! ### The bell (R238) -/

/-- The barrier number: 0 the team's, 1 + r role r's. -/
def bellNo (role : Option (BitVec 2)) : Nat :=
  match role with
  | some r => 1 + r.toNat
  | none => 0

/-- The role of a barrier exists. -/
def roleOk (role : Option (BitVec 2)) (c : Cur) : Bool :=
  match role with
  | some r => r.toNat < c.l.kernel.roles.length
  | none => true

/-- A group's arrival at a barrier. -/
def Team.arrive (t : Team) (p : Nat × Nat) : Team :=
  { t with arrived := if t.arrived.contains p then t.arrived else t.arrived ++ [p] }

/-- TBAR arrives with a .core release and blocks. -/
def execTbar (h : Head) (role : Option (BitVec 2)) (s : State) : Host.Outcome State Fault Refusal :=
  memWord s h (roleOk role) ⟨.core, .rel, 0⟩ (fun _ => []) fun c =>
    withRelease s c ⟨.core, .rel, 0⟩ fun s =>
      let s := s.modTeam c.t.id (fun t => t.arrive (bellNo role, c.g.grp))
      blockWord s (refresh s c) (.bell (bellNo role))

/-- The group context of a stored word. -/
def curAt (s : State) (n : Now) : Option Cur := cur? { s with now := some n }

/-- A word blocked in place is done. -/
def endBlocked (s : State) (r : GRef) : State :=
  match (s.group? r).bind (·.wait) with
  | some w => match curAt s w.now with
    | some c => finish (wake s r) { c with g := { c.g with wait := none } } ⟨false, .blame, 0, false⟩
    | none => s
  | none => s

/-- The groups of a barrier's scope that have not ended. -/
def bellGroups (t : Team) (b : Nat) : List Nat :=
  (t.groups.filter (fun g => !g.ended && (b == 0 || g.role + 1 == b))).map (·.grp)

/-- The groups that have arrived at a barrier, those of other roles among them. -/
def bellArrived (t : Team) (b : Nat) : List Nat := (t.arrived.filter (fun p => p.1 == b)).map Prod.snd

/-- Every group of the scope that has not ended has arrived: all arrived groups are released together, with a .core
acquire. -/
def execBellRelease (team bell : Nat) (s : State) : Host.Outcome State Fault Refusal :=
  .next (match s.team? team with
    | none => s
    | some t =>
      if (bellGroups t bell).all (fun g => t.arrived.contains (bell, g)) then
        let s := s.modTeam team (fun t => { t with arrived := t.arrived.filter (fun p => p.1 != bell) })
        (bellArrived t bell).foldl (fun s g => endBlocked s ⟨team, g⟩) s
      else s)

end Sys2Proof.Machine
end

