-- ==== Sys2Proof/Machine/Control.lean ====
section
/-! DEFINITION. Special registers (R75, R76, R134, R135), branches, calls, JOIN, DEFER, the loop stack, EXIT and
YLD (R136 to R154), and the events of issue: clause entry (R128, R168), results (R51 to R55), releases (R143 to
R149), overruns (R153). -/

namespace Sys2Proof.Machine

open Sys2Proof

/-! ### Special registers -/

/-- SLDEPTHREG (R375). -/
def Slate.depthWord (x : Slate) : Nat := x.inmem % 2 ^ 28 * 2 ^ 28 + (x.chip.length + x.inmem) % 2 ^ 28

/-- The words that LSTK0 to LSTK3 name (R147). -/
def Group.lstk (g : Group) (i : Nat) : Word := if g.inTrap then g.saved.getD i 0 else (loopWords g.loops).getD i 0

/-- The value of a special register (R75) in a lane. -/
def specialReg (s : State) (c : Cur) (lane r : Nat) : Nat :=
  let l := c.g.lane lane
  let of := fun (f : Lane → Nat) => match l with
    | some l => f l
    | none => 0
  match r with
  | 0 => lane
  | 1 => c.width
  | 2 => c.g.grp
  | 3 => c.g.role
  | 4 => c.t.coord.1
  | 5 => c.t.coord.2.1
  | 6 => c.t.coord.2.2
  | 7 => c.t.core % 8
  | 8 => c.t.core / 8 % 8
  | 9 => dieOf c.t.core
  | 10 => s.devno.toNat
  | 11 => s.time.toNat
  | 12 => c.n.hdr.toNat
  | 13 => (c.g.lstk 0).toNat
  | 14 => (c.g.lstk 1).toNat
  | 15 => (c.g.lstk 2).toNat
  | 16 => (c.g.lstk 3).toNat
  | 17 => c.g.traph.toNat
  | 18 => c.g.tcause.toNat
  | 19 => of (fun l => l.tpc.toNat)
  | 20 => of (fun l => l.ttag.toNat)
  | 21 => c.g.ssyn.toNat
  | 22 => c.g.sunit.toNat
  | 23 => c.g.stilex.toNat
  | 24 => c.g.stiley.toNat
  | 25 => c.g.stilek.toNat
  | 26 => of (fun l => l.faultva.toNat)
  | 27 => c.g.slate.depthWord
  | 28 => of Lane.depth
  | 29 => (rngKey s c.t.ctx).toNat
  | 30 => c.g.ylddl
  | 31 => c.g.nstat.toNat
  | _ => segBase s c.t

/-- SRD (R134). -/
def execSrd (h : Head) (scalar : Bool) (vd : BitVec 8) (reg : BitVec 6) (s : State) :
    Host.Outcome State Fault Refusal :=
  let r := reg.toNat
  onCur s fun c =>
    if scalar then
      finish (c.mod s (fun g => g.setS vd.toNat (BitVec.ofNat 64 (specialReg s c 0 r)))) c h
    else if !c.vOk vd.toNat (sregWide reg) then wordFault s c .illegalOperand
    else fixedDone s c h ((lanesOf (c.active h)).flatMap fun i =>
      putV (sregWide reg) vd.toNat i (specialReg s c i r) (tagResult h.rule [] false (oldTag c.g (sregWide reg) vd.toNat i)))

/-- SWR's operand in a lane (R135): constants and the lane index are 32 bits, sign-extended for a 64-bit
register. -/
def swrValue (g : Group) (wide : Bool) (a : Src) (lane : Nat) : Word :=
  match a with
  | .v r => if wide then g.vreg (r.toNat + 1) lane ++ g.vreg r.toNat lane else (g.vreg r.toNat lane).setWidth 64
  | .s r => if wide then g.sreg r.toNat else ((g.sreg r.toNat).setWidth 32).setWidth 64
  | a =>
    let x : Lane32 := BitVec.ofNat 32 (readSrc g .i32 a lane)
    if wide then x.signExtend 64 else x.setWidth 64

/-- The right to write a special register (R76). -/
def swrAllowed (g : Group) (r : Nat) : Bool := r == 17 || r == 31 || (g.inTrap && (r == 19 || (13 ≤ r && r ≤ 16)))

/-- Writes a special register for the active lanes `m`. -/
def swrWrite (g : Group) (r : Nat) (wide : Bool) (a : Src) (m : Mask) : Group :=
  if r == 19 then g.modLanes m (fun i l => { l with tpc := swrValue g wide a i })
  else match lanesOf m with
    | [] => g
    | i :: _ =>
      let x := swrValue g wide a i
      if r == 17 then { g with traph := x }
      else if r == 31 then { g with nstat := x.setWidth 32 }
      else { g with saved := g.saved.set (r - 13) x }

/-- SWR (R135). -/
def execSwr (h : Head) (_scalar : Bool) (reg : BitVec 6) (a : Src) (s : State) : Host.Outcome State Fault Refusal :=
  let wide := sregWide reg
  onCur s fun c =>
    if !(match a with
      | .v r => c.vOk r.toNat wide
      | _ => true) then wordFault s c .illegalOperand
    else if !swrAllowed c.g reg.toNat then wordFault s c .priv
    else finish (c.mod s (fun g => swrWrite g reg.toNat wide a (c.active h))) c h

/-! ### Branches (R138, R150) -/

/-- A direct target (R69). -/
def branchTarget (c : Cur) (off : BitVec 32) : Word := c.n.hdr + (off.signExtend 64 <<< 3)

/-- An address lies in the body of a loop. -/
def inBody (k : Kernel) (e : LoopEntry) (t : Word) : Bool :=
  (textWord k e.start).toNat ≤ t.toNat && t.toNat ≤ (textWord k e.stop).toNat

/-- The innermost entry governs some lane of a set. -/
def governsAny (g : Group) (m : Mask) : Bool :=
  match g.loops with
  | e :: _ => (lanesOf m).any (fun i => match g.lane i with
    | some l => governs e l
    | none => false)
  | [] => false
def governsAll (g : Group) (m : Mask) : Bool :=
  match g.loops with
  | e :: _ => (lanesOf m).all (fun i => match g.lane i with
    | some l => governs e l
    | none => false)
  | [] => false

/-- A governed lane of `m` would take a target outside the innermost body. -/
def leavesBody (c : Cur) (m : Mask) (target : Nat → Word) : Bool :=
  match c.g.loops with
  | e :: _ => (lanesOf m).any (fun i => match c.g.lane i with
    | some l => governs e l && !inBody c.l.kernel e (target i)
    | none => false)
  | [] => false

/-- The entries left when a uniform branch leaves bodies at a depth. -/
def popBodies (k : Kernel) (depth : Nat) (t : Word) : List LoopEntry → List LoopEntry
  | [] => []
  | e :: r => if e.depth == depth && !inBody k e t then popBodies k depth t r else e :: r

/-- Every lane of X takes `t`. -/
def goAll (c : Cur) (loops : List LoopEntry) (t : Word) (_ : Nat) (l : Lane) : Lane := l.goTo loops c.l.kernel t none

/-- A uniform branch that is taken. -/
def takeBra (s : State) (c : Cur) (h : Head) (t : Word) : State :=
  match c.g.loops with
  | e :: _ =>
    if governsAny c.g c.n.x && !inBody c.l.kernel e t then
      if c.n.x == c.g.live && governsAll c.g c.n.x then
        let rest := popBodies c.l.kernel e.depth t c.g.loops
        settleGo (c.mod s (fun g => { g with loops := rest })) c h 0 [] (goAll c rest t)
      else wordFault s c .loopEscape
    else settleGo s c h 0 [] (goAll c c.g.loops t)
  | [] => settleGo s c h 0 [] (goAll c [] t)

/-- BRA with a condition. -/
def execBraCond (h : Head) (q : BitVec 3) (n : Bool) (off : BitVec 32) (s : State) :
    Host.Outcome State Fault Refusal :=
  onCur s fun c => if c.g.bool q.toNat != n then takeBra s c h (branchTarget c off) else finish s c h

/-- BRA without one. -/
def execBraAlways (h : Head) (off : BitVec 32) (s : State) : Host.Outcome State Fault Refusal :=
  onCur s fun c => takeBra s c h (branchTarget c off)

/-- BRV (R138). -/
def execBrv (h : Head) (p : BitVec 3) (n : Bool) (off : BitVec 32) (s : State) : Host.Outcome State Fault Refusal :=
  onCur s fun c =>
    let t := branchTarget c off
    let taken := c.active h &&& (if n then ~~~(c.g.pred p.toNat) else c.g.pred p.toNat)
    if leavesBody c taken (fun _ => t) then wordFault s c .loopEscape
    else settleGo s c h 0 [] (fun i l => if taken.getLsbD i then goAll c c.g.loops t i l else goAfter c i l)

/-- The target that a lane's vector register names (R139), and the lanes whose target lies beyond the text. -/
def vTarget (c : Cur) (v : Nat) (lane : Nat) : Word := textWord c.l.kernel (c.g.vreg v lane).toNat
def vBad (c : Cur) (v : Nat) (m : Mask) : List LaneTrap :=
  (lanesOf m).filterMap (fun i =>
    if (c.g.vreg v i).toNat ≥ c.l.kernel.twords then some ⟨i, .badTarget, c.g.vtag v i, vTarget c v i⟩ else none)

/-- JMPV (R139). -/
def execJmpv (h : Head) (v : BitVec 8) (s : State) : Host.Outcome State Fault Refusal :=
  onCur s fun c =>
    let act := c.active h
    let bad := vBad c v.toNat act
    if !c.vOk v.toNat false then wordFault s c .illegalOperand
    else if leavesBody c (act &&& ~~~(maskOf (bad.map (·.lane)))) (vTarget c v.toNat) then wordFault s c .loopEscape
    else settleGo s c h 0 bad (fun i l =>
      if act.getLsbD i then goAll c c.g.loops (vTarget c v.toNat i) i l else goAfter c i l)

/-! ### Calls (R140 to R142) -/

/-- A lane's spill of its oldest on-chip entry, as a store of its own. -/
def callSpill (c : Cur) (a : StoreAcc) (i : Nat) : StoreAcc :=
  match c.g.lane i with
  | none => a
  | some l =>
    if l.calls.length < 4 then a
    else
      let va := callPlace a.s c.t c.l.kernel c.g.grp i l.spilled
      storeLane c 8 (fun _ => va) (fun _ => 0) (fun _ => ((l.calls.getD 3 0).toNat, [(0, 0), (4, 0)])) a i

/-- A push on a lane's call stack. -/
def Lane.pushCall (l : Lane) (ret : Word) : Lane :=
  { l with calls := (ret :: l.calls).take 4, spilled := if l.calls.length < 4 then l.spilled else l.spilled + 1 }

/-- Calls of the lanes of `m`, lane `i` to `t i`; the lanes of `bad` trap, the others go on. -/
def callLanes (s : State) (c : Cur) (h : Head) (m : Mask) (bad : List LaneTrap) (t : Nat → Word) : State :=
  let deep := (lanesOf m).any (fun i => match c.g.lane i with
    | some l => l.depth + 1 > c.l.kernel.maxDepth
    | none => false)
  if deep then wordFault s c .callOverflow
  else
    let a := (lanesOf m).foldl (callSpill c) (StoreAcc.start s)
    let s := a.out.foldl (fun s p => queueWrite s c false { p.2 with spill := true }) a.s
    let s := c.mod s (fun g => { g with callSpills := g.callSpills + a.out.length })
    settleGo s c h (maskOf a.parks) (a.traps ++ bad) (fun i l =>
      if m.getLsbD i then (l.pushCall (nextHeader c.n)).goTo c.g.loops c.l.kernel (t i) none else goAfter c i l)

/-- CALL. -/
def execCall (h : Head) (off : BitVec 32) (s : State) : Host.Outcome State Fault Refusal :=
  onCur s fun c => callLanes s c h c.n.x [] (fun _ => branchTarget c off)

/-- CALLV. -/
def execCallv (h : Head) (v : BitVec 8) (s : State) : Host.Outcome State Fault Refusal :=
  onCur s fun c =>
    let bad := vBad c v.toNat (c.active h)
    if !c.vOk v.toNat false then wordFault s c .illegalOperand
    else callLanes s c h (c.active h &&& ~~~(maskOf (bad.map (·.lane)))) bad (vTarget c v.toNat)

/-- Exits a lane. -/
def Lane.leave (l : Lane) : Lane := { l with st := .exited }

/-- The end of a handler whose handling lanes have all exited (R333). -/
def handlerGone (s : State) (c : Cur) : State :=
  match s.group? c.ref with
  | none => s
  | some g =>
    if !g.inTrap || g.live != 0 then s
    else if badSaved g.saved then endTeam s c.t.id ⟨.trapState, false, c.ref, 0, 0, c.n.pc, 0, 0, 0⟩
    else c.mod s (fun g => leaveTrap c.l.kernel (fun _ => none) 0 g)

/-- Every handling lane would have exited, and the handler's results are still outstanding (R55). -/
def mustDrain (c : Cur) (gone : Mask) : Bool := c.g.inTrap && c.g.live &&& ~~~gone == 0 && !c.g.drained

/-- What a lane's RET finds (R141, R142): the address, and whether it came from the spill region. -/
structure RetAcc where
  s      : State
  addr   : List (Nat × Word × Bool)
  parks  : List Nat
  traps  : List LaneTrap
  poison : List LaneTrap
  line   : Option Nat
  peers  : List (Nat × Nat × Xlat)   -- lane, place, page
  fills  : Nat
deriving DecidableEq, Repr

/-- The word as one lane's own access, for what answers it: a peer's failure is that lane's alone (R424). -/
def Now.only (n : Now) (lane : Nat) : Now := { n with x := maskOf [lane] }

/-- One lane's pop. A filled entry's address is its low 56 bits; one in a peer page comes from its owner (R195). -/
def retLane (c : Cur) (a : RetAcc) (i : Nat) : RetAcc :=
  let check := fun (a : RetAcc) (t : Word) (filled : Bool) =>
    if (t - c.l.kernel.text).toNat / 8 ≥ c.l.kernel.twords then { a with traps := a.traps ++ [⟨i, .badTarget, 0, t⟩] }
    else { a with addr := a.addr ++ [(i, t, filled)] }
  match c.g.lane i with
  | none => a
  | some l => match l.calls with
    | t :: _ => check a t false
    | [] =>
      if l.spilled == 0 then a
      else
        let va := callPlace a.s c.t c.l.kernel c.g.grp i (l.spilled - 1)
        match readFor a.s c.ref c.who va 8 8 .read false (.lanes c.ref (maskOf [i])) with
        | (.trap x, s) => { a with s := s, traps := a.traps ++ [⟨i, x, 0, va⟩] }
        | (.park, s) => { a with s := s, parks := a.parks ++ [i] }
        | (.line n, s) => { a with s := s, line := some n }
        | (.peer x, s) => match fetchedAt s (wordKey c.ref) va.toNat 8, peerTarget s x va.toNat (.read 8) with
          | some b, _ => check { a with s := s, fills := a.fills + 1 } (BitVec.ofNat 64 (leNat (b.take 8) % 2 ^ 56)) true
          | none, some _ => { a with s := s, peers := a.peers ++ [(i, va.toNat, x)] }
          | none, none => { a with s := s, traps := a.traps ++ [⟨i, .badAddress, 0, va⟩] }
        | (.gran g, s) =>
          if g.poison then
            { a with s := s, poison := a.poison ++ [⟨i, .poison, g.tag, BitVec.ofNat 64 (va.toNat / 16 * 16)⟩] }
          else check { a with s := s, fills := a.fills + 1 } (BitVec.ofNat 64 (g.slice (va.toNat % 16) 8 % 2 ^ 56)) true

def Lane.popCall (l : Lane) (filled : Bool) : Lane :=
  if filled then { l with spilled := l.spilled - 1 } else { l with calls := l.calls.tail }

/-- RET (R141, R150): at depth 0 it exits the lane. A poisoned fill is consumed for every lane of X (R338). -/
def execRet (h : Head) (s : State) : Host.Outcome State Fault Refusal :=
  onCur s fun c =>
    let empty := maskOf ((lanesOf c.n.x).filter (fun i => match c.g.lane i with
      | some l => l.depth == 0
      | none => false))
    if governsAny c.g c.n.x then wordFault s c .loopEscape
    else if mustDrain c empty then blockWord s c .tretDrain
    else
      let a := (lanesOf c.n.x).foldl (retLane c) ⟨s, [], [], [], [], none, [], 0⟩
      match a.line, a.poison, a.peers with
      | some l, _, _ => blockWord a.s c (.line l)
      | none, p :: _, _ =>
        eatPoison (dropFetched a.s (wordKey c.ref)) c h 0 [] ((lanesOf c.n.x).map (fun i => { p with lane := i }))
      | none, [], _ :: _ =>
        blockWord (a.peers.foldl (fun s p =>
          askPeers s (fun va => .word (c.n.only p.1) va) c.t.core [(p.2.1, 8, p.2.2)]) a.s) c .peer
      | none, [], [] =>
        let s := c.mod (dropFetched a.s (wordKey c.ref)) (fun g => { g with callFills := g.callFills + a.fills })
        handlerGone (settleGo s c h (maskOf a.parks) a.traps (fun i l =>
          match a.addr.find? (fun p => p.1 == i) with
          | some p => (l.popCall p.2.2).goTo c.g.loops c.l.kernel p.2.1 none
          | none => l.leave)) c

/-! ### JOIN, DEFER (R143 to R145) -/

/-- JOIN holds the lanes of X. -/
def execJoin (h : Head) (s : State) : Host.Outcome State Fault Refusal :=
  onCur s fun c => settleGo s c h 0 [] (fun _ l => { l with pc := nextHeader c.n, ins := none, st := .joinHeld c.n.pc })

/-- DEFER steps the lanes of X aside. -/
def execDefer (h : Head) (s : State) : Host.Outcome State Fault Refusal :=
  onCur s fun c => settleGo s c h 0 [] (fun _ l => { l with pc := nextHeader c.n, ins := none, st := .deferred c.n.hdr 0 })

/-! ### The loop stack (R147 to R151) -/

/-- Some live lane is parked or deferred. -/
def aside (g : Group) : Bool := g.where_ (fun l => g.inScope l && (match l.st with
  | .parked | .deferred _ _ => true
  | _ => false)) != 0

/-- The call depths of the lanes of a set. -/
def depths (g : Group) (m : Mask) : List Nat := (lanesOf m).filterMap (fun i => (g.lane i).map Lane.depth)

/-- LOOP with its count (R148). -/
def loopWord (s : State) (h : Head) (count : Cur → Nat) (off : BitVec 32) : Host.Outcome State Fault Refusal :=
  onCur s fun c =>
    let n := count c
    let k := c.l.kernel
    let start := textIndex k (nextHeader c.n)
    let stop : Int := (textIndex k c.n.hdr : Int) + off.toInt
    let ds := depths c.g c.n.x
    let d := ds.headD 0
    if stop ≤ (start : Int) || n > 1048575 then wordFault s c .illegalOperand
    else if c.n.x != c.g.live || ds.any (fun x => x != d) || aside c.g then wordFault s c .loopDiverged
    else if c.g.loops.length ≥ 4 || d > 255 then wordFault s c .loopDepth
    else if c.g.loops.any (fun e => e.depth == d && stop > (e.stop : Int)) then wordFault s c .loopEscape
    else if n == 0 then settleGo s c h 0 [] (goAll c c.g.loops (branchTarget c off))
    else
      let loops := ⟨n, d, start, stop.toNat % 2 ^ 18⟩ :: c.g.loops
      settleGo (c.mod s (fun g => { g with loops := loops })) c h 0 [] (goAll c loops (nextHeader c.n))

def execLoopScalar (h : Head) (r : BitVec 6) (off : BitVec 32) (s : State) : Host.Outcome State Fault Refusal :=
  loopWord s h (fun c => (c.g.sreg r.toNat).toNat) off

def execLoopImm (h : Head) (n : BitVec 8) (off : BitVec 32) (s : State) : Host.Outcome State Fault Refusal :=
  loopWord s h (fun _ => n.toNat) off

/-- LBRK ends n + 1 loops (R151). -/
def execLbrk (h : Head) (n : BitVec 2) (s : State) : Host.Outcome State Fault Refusal :=
  onCur s fun c =>
    let k := n.toNat + 1
    let out := c.g.loops.take k
    let ds := depths c.g c.n.x
    if c.n.x != c.g.live || aside c.g then wordFault s c .loopDiverged
    else if out.length < k || out.any (fun e => ds.any (fun d => d != e.depth)) then wordFault s c .loopEscape
    else match out.getLast? with
      | none => s
      | some e =>
        let rest := c.g.loops.drop k
        settleGo (c.mod s (fun g => { g with loops := rest })) c h 0 [] (goAll c rest (textWord c.l.kernel e.stop))

/-! ### EXIT and YLD -/

/-- EXIT (R152); in a handler, the exit of the last handling lane ends it (R333). -/
def execExit (h : Head) (s : State) : Host.Outcome State Fault Refusal :=
  onCur s fun c =>
    if mustDrain c c.n.x then blockWord s c .tretDrain
    else handlerGone (settleGo s c h 0 [] (fun _ l => l.leave)) c

/-- The saved team that has waited longest for a die of its mask. -/
def savedWaits (s : State) (die : Nat) : Option Team :=
  (s.teams.filter (fun t => t.saved && t.ending.isNone && (match s.launch? t.launch with
    | some l => l.packet.getLsbD (376 + die)
    | none => false))).foldl (fun b t => match b with
      | some y => if t.savedAt.toNat < y.savedAt.toNat then some t else b
      | none => some t) none

/-- YLD.spin while a saved team waits for the die (R172): the spinner is asked to leave, and its core is kept for the
saved team that has waited longest. -/
def spinFor (s : State) (t : Team) : State :=
  match savedWaits s (dieOf t.core) with
  | some y =>
    if t.floor.isEmpty then
      (s.modTeam t.id (fun t => { t with preempt := true })).modTeam y.id (fun y => { y with favour := some t.core })
    else s
  | none => s

/-- A drained YLD (R154): a pending pre-emption holds the group here, else it goes on. -/
def yldDone (s : State) (r : GRef) (n : Now) : State :=
  let s := standAt s r
  match s.team? r.team with
  | some t => if t.preempt then s.modGroup r (fun g => { g with wait := some ⟨.preempt, n⟩ }) else wake s r
  | none => s

/-- YLD sets the deadline and waits for the drain (R153, R154); `.spin` asks the team to leave for a saved team
of its die (R172). -/
def execYld (h : Head) (spin : Bool) (n : BitVec 16) (s : State) : Host.Outcome State Fault Refusal :=
  onCur s fun c =>
    let s := if spin then spinFor s c.t else s
    let s := settleGo (c.mod s (fun g => { g with ylddl := n.toNat })) c { h with sw := false } 0 [] (goAfter c)
    if c.g.drained then yldDone s c.ref c.n else waitFor s c .yldDrain

/-! ### Text (R207, R216) -/

/-- The outcome of fetching a word of text. -/
inductive Fetch
  | word (w : Word)
  | bad                    -- outside the map
  | fault (cause : Nat)
  | poison (t : Tag)
deriving DecidableEq, Repr

/-- The line of text a core's instruction cache holds. -/
def iline (s : State) (core slot va : Nat) : Option ILine :=
  s.icache.find? (fun l => l.core == core && l.slot == slot && l.va == va / 128 * 128)

/-- A line of text as memory holds it. -/
def textLine (s : State) (core slot va : Nat) (x : Xlat) : ILine :=
  ⟨core, slot, va / 128 * 128, x.size, bytesAt s (x.loc (va / 128 * 128)) 128⟩

/-- A granule of the line at a location is poisoned. -/
def linePoisoned (s : State) (loc : Nat) : Bool := (List.range 8).any (fun i => poisoned s (loc / 128 * 8 + i))

/-- Fetches the word at an address; text does not snoop stores, and a line fetched stays until it is invalidated. The
fill passes the filter of second names (R209); a line with poison in it is not kept, so that each of its words meets its
own granule's (R338). -/
def fetchWord (s : State) (core slot : Nat) (va : Word) : Fetch × State :=
  let a := va.toNat
  let out := fun (l : ILine) => Fetch.word (BitVec.ofNat 64 (leNat ((l.bytes.drop (a % 128)).take 8)))
  match iline s core slot a with
  | some l => (out l, s)
  | none =>
    if zoneOf core a != .mapped then (.bad, s)
    else match translate s slot a .fetch with
      | (.error c, s) => (.fault c, s)
      | (.ok x, s) =>
        if x.peer then (.bad, s)
        else
          let s := aliasFill s slot a x
          let g := granAt s (x.loc a)
          if g.poison then (.poison g.tag, s)
          else
            let l := textLine s core slot a x
            (out l, if linePoisoned s (x.loc a) then s else { s with icache := s.icache ++ [l] })

/-! ### Clause entry (R48, R49, R128, R168) -/

/-- The issue address and executing lanes: the ready lanes of lowest PC. Lanes that stand there under another
clause's header wait. -/
def issueAt (g : Group) : Option (Word × Option Inside × Mask) :=
  match (lanesOf g.ready).filterMap (fun i => (g.lane i).map (fun l => (i, l))) with
  | [] => none
  | p :: r =>
    let best := r.foldl (fun (b : Nat × Lane) q => if q.2.pc.toNat < b.2.pc.toNat then q else b) p
    some (best.2.pc, best.2.ins, maskOf (((p :: r).filter (fun q => q.2.pc == best.2.pc && q.2.ins == best.2.ins)).map Prod.fst))

/-- A wait mask's slots are clear (R51). -/
def slotsClear (g : Group) (wait : BitVec 8) : Bool := (List.range 8).all (fun n => !wait.getLsbD n || mget 0 g.sb n == 0)

/-- A group that could enter a clause, but for its wait mask (R168). -/
def Group.free (g : Group) : Bool :=
  g.wait.isNone && g.trapReq.isNone && g.clause.isNone && !g.ended && g.ready != 0

/-- The group is eligible: its header's wait mask is clear, or its header cannot be read and entry must say so. -/
def eligible (s : State) (t : Team) (g : Group) : Bool :=
  !t.saved && t.ending.isNone && g.free &&
  match issueAt g with
  | some (pc, none, _) => match (fetchWord s t.core t.slot pc).1 with
    | .word w => match decodeHeader w with
      | some hd => pc.toNat % 8 != 0 || slotsClear g hd.wait
      | none => true
    | _ => true
  | some _ => true
  | none => false

/-- The eligible groups of a core. -/
def eligibles (s : State) (core : Nat) : List (Team × Group) :=
  (s.teams.filter (fun t => t.core == core && !t.saved)).flatMap (fun t =>
    (t.groups.filter (fun g => eligible s t g)).map (fun g => (t, g)))

/-- How far a group's number lies beyond the one last served, in rotation. -/
def turnOf (last grp : Nat) : Nat := (grp + 31 - last % 32) % 32

/-- The group whose clause became ready earliest; on a tie, group numbers rotate from the one after `last`, the group last
served (R168). -/
def pickGroup (last : Nat) (l : List (Team × Group)) : Option (Team × Group) :=
  match l with
  | [] => none
  | p :: r => some (r.foldl (fun b q =>
      if q.2.readyAt < b.2.readyAt || (q.2.readyAt == b.2.readyAt && turnOf last q.2.grp < turnOf last b.2.grp) then q else b) p)

/-- The group number that a pipe last served; before the first, its turn begins at group 0. -/
def lastServed (s : State) (core pipe : Nat) : Nat := ((s.served.find? (fun p => p.1 == core * 4 + pipe)).map Prod.snd).getD 31

/-- A wait that leaves its pipe free: parked or blocked, and not held at issue by a 65th result (R51, R54, R81). -/
def Group.offPipe (g : Group) : Bool :=
  match g.wait with
  | some w => match w.why with
    | .slotFull _ => false
    | _ => true
  | none => false

/-- A pipe of a core is inside a clause. -/
def pipeBusy (s : State) (core pipe : Nat) : Bool :=
  s.teams.any (fun t => t.core == core && !t.saved && t.groups.any (fun g => match g.clause with
    | some cl => cl.pipe == pipe && !g.offPipe
    | none => false))

/-- The context in which a clause is entered. -/
def entryNow (r : GRef) (pc : Word) (x : Mask) (i : Option Inside) : Now :=
  match i with
  | some i => ⟨r, i.hdr, i.head, pc, x, (pc - i.hdr).toNat / 8 == i.head.count, false⟩
  | none => ⟨r, pc, ⟨.gen, 0, 0, 8⟩, pc, x, false, false⟩

/-- A clause fetch that meets poison, for every lane of X: a relaunch, or POISON with the header in FAULTVA. -/
def fetchPoison (s : State) (c : Cur) (t : Tag) (va : Word) : State :=
  let s := c.mod s (fun g => { g with clause := some ⟨c.n.hdr, c.n.head, c.n.x, 0, 0, false⟩ })
  eatPoison s c ⟨false, .blame, 0, false⟩ 0 [] ((lanesOf c.n.x).map (fun i => ⟨i, .poison, t, va⟩))

/-- Enters a clause on a pipe. -/
def enterClause (s : State) (t : Team) (g : Group) (pipe : Nat) : State :=
  let r : GRef := ⟨t.id, g.grp⟩
  match issueAt g with
  | none => s
  | some (pc, i, x) =>
    let start := fun (s : State) (hdr : Word) (head : Header) (next : Nat) =>
      { s.modGroup r (fun g => { g with clause := some ⟨hdr, head, x, next, pipe, false⟩ }) with
        issuing := s.issuing ++ [r]
        served := (s.served.filter (fun p => p.1 != t.core * 4 + pipe)) ++ [(t.core * 4 + pipe, g.grp)] }
    match i with
    | some i => start s i.hdr i.head ((pc - i.hdr).toNat / 8 - 1)
    | none =>
      let illegal := fun (s : State) => endTeam s t.id ⟨.illegalClause, false, r, firstLane x, 0, pc, 0, 0, 0⟩
      if pc.toNat % 8 != 0 then illegal s
      else match fetchWord s t.core t.slot pc with
        | (.word w, s) => match decodeHeader w with
          | some hd => start s pc hd 0
          | none => illegal s
        | (.bad, s) => illegal s
        | (.fault _, s) =>
          let s := coreFault s ⟨t.core, t.ctx, t.slot⟩ pc.toNat .fetch (.lanes r x)
          s.modGroup r (fun g => { g with wait := some ⟨.fetch, entryNow r pc x none⟩ })
        | (.poison tag, s) => match curAt s (entryNow r pc x none) with
          | some c => fetchPoison s c tag pc
          | none => s

/-- A pipe takes the next clause. -/
def execClauseEntry (core pipe : Nat) (s : State) : Host.Outcome State Fault Refusal :=
  .next (if pipe ≥ 4 || pipeBusy s core pipe then s
    else match pickGroup (lastServed s core pipe) (eligibles s core) with
      | some (t, g) => enterClause s t g pipe
      | none => s)

/-- The address of the group's next word. -/
def Clause.pc (cl : Clause) : Word := cl.hdr + BitVec.ofNat 64 (8 * (cl.next + 1))

/-- A word about to issue with no issues left (R153). -/
def execOverrun (r : GRef) (s : State) : Host.Outcome State Fault Refusal :=
  .next (match s.group? r with
    | some g => match g.clause with
      | some cl =>
        if g.ylddl == 0 && !cl.redo && g.wait.isNone then endTeam s r.team ⟨.overrun, false, r, firstLane cl.x, 0, cl.pc, 0, 0, 0⟩ else s
      | none => s
    | none => s)

/-! ### Results (R51 to R54) -/

/-- Removes an outstanding result and its count. -/
def Group.dropPend (g : Group) (p : PendRes) : Group :=
  { g with
    pend := g.pend.filter (fun q => q.id != p.id)
    sb := match p.slot with
      | some n => mput 0 g.sb n (mget 0 g.sb n - 1)
      | none => g.sb }

/-- The waits that a returned result ends: a 65th result's, and a TRET's or EXIT's drain. -/
def afterReturn (s : State) (r : GRef) : State :=
  match s.group? r with
  | some g => match g.wait with
    | some w => match w.why with
      | .slotFull n => if mget 0 g.sb n < 64 then wake s r else s
      | .tretDrain => if g.drained then wake s r else s
      | _ => s
    | none => s
  | none => s

/-- The result is the oldest of its queue: the entries of the SFU and conversion queues return in issue order (R81, R126). -/
def Group.queueHead (g : Group) (p : PendRes) : Bool :=
  p.queue == .none || (g.pend.find? (fun y => y.queue == p.queue)).map (·.id) == some p.id

/-- A group whose next header's wait mask has become clear is eligible from now on (R168). -/
def rearm (s s' : State) (r : GRef) : State :=
  let ok := fun (s : State) => match s.team? r.team, s.group? r with
    | some t, some g => eligible s t g
    | _, _ => false
  if ok s' && !ok s then { s'.modGroup r (fun g => { g with readyAt := s'.seqN }) with seqN := s'.seqN + 1 } else s'

/-- A result is written, its births interned, and its slot's count falls. -/
def execResultReturn (r : GRef) (n : Nat) (s : State) : Host.Outcome State Fault Refusal :=
  .next (match s.group? r with
    | some g => match g.pend.find? (fun p => p.id == n && p.ready && g.queueHead p) with
      | some p =>
        let (hd, s) := bornHandleOf s r p.site p.writes (!p.counted)
        rearm s (afterReturn (s.modGroup r (fun g => Group.writes hd (g.dropPend p) p.writes)) r) r
      | none => s
    | none => s)

/-- A wake of a group with the wait `f` asks for. -/
def wakeIf (s : State) (r : GRef) (f : Group → Why → Bool) (k : State → Waiting → State) : State :=
  match s.group? r with
  | some g => match g.wait with
    | some w => if f g w.why then k s w else s
    | none => s
  | none => s

/-- Every result of a switch marker has returned, or the value of a peer load's acquire is bound. -/
def execSwitchWake (r : GRef) (s : State) : Host.Outcome State Fault Refusal :=
  .next (wakeIf s r
    (fun g w => match w with
      | .switch => g.drained
      | .acquire _ => g.pend.all (·.ready)
      | _ => false)
    (fun s w => match w.why, s.team? r.team with
      | .acquire sc, some t => wake (acquireAt s t.core sc) r
      | _, _ => wake s r))

/-- An entry of the SFU or conversion queue is free again (R81). -/
def execQueueEntryFree (r : GRef) (s : State) : Host.Outcome State Fault Refusal :=
  .next (wakeIf s r
    (fun g w => match w with
      | .sfuFull => !queueFull g .sfu
      | .cvtFull => !queueFull g .cvt
      | _ => false)
    (fun s _ => wake s r))

/-- A YLD's drain is complete (R154). -/
def execYldDrainComplete (r : GRef) (s : State) : Host.Outcome State Fault Refusal :=
  .next (wakeIf s r (fun g w => w == .yldDrain && g.drained) (fun s w => yldDone s r w.now))

/-! ### Releases (R143 to R149) -/

/-- A lane's holding point. -/
def LState.point : LState → Option Word
  | .joinHeld h | .loopHeld h => some h
  | _ => none

def LState.isJoin : LState → Bool
  | .joinHeld _ => true
  | _ => false

/-- The holding points of the live lanes when every one of them is held. -/
def heldPoints (g : Group) : Option (List (Word × Bool)) :=
  let ls := (lanesOf g.live).filterMap (fun i => g.lane i)
  if ls.isEmpty || ls.any (fun l => (LState.point l.st).isNone) then none
  else some (ls.filterMap (fun l => (LState.point l.st).map (fun p => (p, LState.isJoin l.st))))

/-- The lowest holding point. -/
def lowestPoint (l : List (Word × Bool)) : Option (Word × Bool) :=
  match l with
  | [] => none
  | p :: r => some (r.foldl (fun b q => if q.1.toNat < b.1.toNat then q else b) p)

/-- A change of a group's lanes that makes it eligible again. -/
def regroup (s : State) (r : GRef) (f : Group → Group) : State :=
  { s.modGroup r (fun g => { f g with readyAt := s.seqN }) with seqN := s.seqN + 1 }

/-- The lanes held at a JOIN are released. -/
def releaseJoin (k : Kernel) (h : Word) (g : Group) : Group :=
  { g with lanes := mapLanes g.live (fun _ l =>
      if l.st == .joinHeld h then { l with st := .ready }.goTo g.loops k l.pc none else l) 0 g.lanes }

/-- The release rules of JOIN (R143, R144). -/
def execJoinRelease (r : GRef) (s : State) : Host.Outcome State Fault Refusal :=
  .next (match (s.team? r.team).bind (fun t => s.launch? t.launch), s.group? r with
    | some l, some g => match (heldPoints g).bind lowestPoint with
      | some (h, true) => regroup s r (releaseJoin l.kernel h)
      | some (h, false) =>
        if ((heldPoints g).getD []).any (fun p => p.1 != h) then
          endTeam s r.team ⟨.loopDiverged, false, r, firstLane g.live, 0, 0, 0, 0, 0⟩
        else s
      | none => s
    | _, _ => s)

/-- The end step (R149), repeated while the next entry has the same end and depth. -/
def endStep (k : Kernel) : Nat → Group → Group
  | 0, g => g
  | n + 1, g => match g.loops with
    | [] => g
    | e :: rest =>
      if e.remaining > 1 then
        { g with
          loops := { e with remaining := e.remaining - 1 } :: rest
          lanes := mapLanes g.live (fun _ l => { l with pc := textWord k e.start, ins := none, st := .ready }) 0 g.lanes }
      else
        let g := { g with loops := rest }
        match rest with
        | e2 :: _ =>
          if e2.stop == e.stop && e2.depth == e.depth then endStep k n g
          else { g with lanes := mapLanes g.live (fun _ l => { l with st := .ready }) 0 g.lanes }
        | [] => { g with lanes := mapLanes g.live (fun _ l => { l with st := .ready }) 0 g.lanes }

/-- Every live lane is held at the innermost loop's end. -/
def execLoopEndStep (r : GRef) (s : State) : Host.Outcome State Fault Refusal :=
  .next (match (s.team? r.team).bind (fun t => s.launch? t.launch), s.group? r with
    | some l, some g => match heldPoints g, g.loops with
      | some ps, e :: _ =>
        if ps.all (fun p => p == (textWord l.kernel e.stop, false)) then regroup s r (endStep l.kernel 5)
        else match lowestPoint ps with
          | some (_, false) => endTeam s r.team ⟨.loopDiverged, false, r, firstLane g.live, 0, 0, 0, 0, 0⟩
          | _ => s
      | _, _ => s
    | _, _ => s)

/-- Every other live lane has stepped aside, is held, or has issued above D (R145). -/
def deferOver (g : Group) (lane : Nat) (seen : Mask) : Bool :=
  (lanesOf g.live).all (fun i => i == lane || seen.getLsbD i || (match g.lane i with
    | some l => (match l.st with
      | .deferred _ _ | .joinHeld _ | .loopHeld _ => true
      | _ => false)
    | none => true))

/-- A deferred lane's condition holds (R145). -/
def deferDue (g : Group) (lane : Nat) : Bool :=
  match g.lane lane with
  | some x => (match x.st with
    | .deferred _ seen => g.inScope x && deferOver g lane seen
    | _ => false)
  | none => false

/-- A deferred lane is ready again, and with it every other whose condition holds at the same moment. -/
def execDeferRelease (r : GRef) (lane : Nat) (s : State) : Host.Outcome State Fault Refusal :=
  .next (match (s.team? r.team).bind (fun t => s.launch? t.launch), s.group? r with
    | some l, some g =>
      if deferDue g lane then
        let due := maskOf ((lanesOf g.live).filter (deferDue g))
        regroup s r (fun g => g.modLanes due (fun _ y => { y with st := .ready }.goTo g.loops l.kernel y.pc none))
      else s
    | _, _ => s)

end Sys2Proof.Machine
end

