-- ==== Sys2Proof/Machine/Traps.lean ====
section
/-! DEFINITION. TRAP, TRET and BRK (R331 to R333), trap entry (R328), the ways a team ends (R152, R334, R339), and
traps that a peer's answer raises (R424). -/

namespace Sys2Proof.Machine

open Sys2Proof

/-! ### TRAP, BRK, TRET -/

/-- One cause, with tag 0 and fault address 0, for every lane of X (R328, R332). -/
def plainTraps (c : Cur) (cause : Cause) : List LaneTrap := (lanesOf c.n.x).map (fun i => ⟨i, cause, 0, 0⟩)

def execTrap (_h : Head) (cause : BitVec 8) (s : State) : Host.Outcome State Fault Refusal :=
  onCur s fun c => raiseTraps s c cause (nextHeader c.n) 0 0 (0, 0, 0) (plainTraps c .trap)

def execBrk (_h : Head) (s : State) : Host.Outcome State Fault Refusal :=
  onCur s fun c => raiseTraps s c 0 (afterWord c.n).1 0 0 (0, 0, 0) (plainTraps c .brk)

/-- Where a lane's TPC lets it resume (R333). -/
inductive Back
  | header
  | inside (i : Inside)
  | illegal
  | fault
deriving DecidableEq, Repr

/-- TPC lies in the clause the lane trapped in, from its trapping word to the clause's last word. -/
def backInside (l : Lane) : Option Inside :=
  match l.trapAt with
  | some (w, i) =>
    let last := i.hdr.toNat + 8 * i.head.count
    if l.tpc.toNat % 8 == 0 && w.toNat ≤ l.tpc.toNat && l.tpc.toNat ≤ last then some i else none
  | none => none

/-- The check of one lane's TPC. -/
def backOf (s : State) (c : Cur) (l : Lane) : Back :=
  let other := match backInside l with
    | some i => Back.inside i
    | none => Back.illegal
  if !inText c.l.kernel l.tpc then other
  else match (fetchWord s c.t.core c.t.slot l.tpc).1 with
    | .word w => if (decodeHeader w).isSome then .header else other
    | .bad => other
    | .fault _ => .fault
    | .poison _ => .header

def Back.isFault : Back → Bool
  | .fault => true
  | _ => false
def Back.isIllegal : Back → Bool
  | .illegal => true
  | _ => false
def Back.place : Back → Option Inside
  | .inside i => some i
  | _ => none

/-- The lanes that a SHADOW left out of a frame and that return to its word (R391). -/
def keepShadow (g : Group) : Group :=
  { g with slate := { g.slate with shadow := (g.slate.shadow.map (fun p => (p.1, p.2.1, p.2.2 &&& g.where_ (fun l => l.pc == p.1)))).filter (fun p => p.2.2 != 0) } }

/-- TRET (R333). -/
def execTret (_h : Head) (s : State) : Host.Outcome State Fault Refusal :=
  onCur s fun c =>
    let ls := (lanesOf c.n.x).filterMap (fun i => c.g.lane i)
    if !c.g.inTrap || c.n.x != c.g.live || badSaved c.g.saved || ls.any (fun l => l.depth != l.depthAt) then
      wordFault s c .trapState
    else match ls.find? (fun l => Back.isFault (backOf s c l)) with
      | some l => blockWord (coreFault s c.who l.tpc.toNat .fetch (.lanes c.ref c.n.x)) c .fetch
      | none =>
        if ls.any (fun l => Back.isIllegal (backOf s c l)) then wordFault s c .illegalClause
        else if !c.g.drained then blockWord s c .tretDrain
        else
          let back := fun (l : Lane) => Back.place (backOf s c l)
          c.mod (endClause s c (fun _ l => l)) (fun g => keepShadow (leaveTrap c.l.kernel back c.n.x g))

/-! ### Blocked groups taken off their waits -/

/-- A group leaves every wait it stands in: its places at pigeonholes and its arrivals at barriers. -/
def dropWaits (s : State) (r : GRef) : State :=
  let off := fun (o : Obj) => match o with
    | .pigeon t i a ws => Obj.pigeon t i a (unblock ws r)
    | o => o
  { s.modTeam r.team (fun t => { t with arrived := t.arrived.filter (fun p => p.2 != r.grp) }) with
    roster := s.roster.map (fun p => (p.1, { p.2 with obj := off p.2.obj })) }

/-- A trap that no issuing word raises: the group stops before its next word, and the lanes of `ts` trap with the
context `n` of the word that made the access (R424). A lane that has exited takes no trap. -/
def asyncTrap (s : State) (n : Now) (ts : List LaneTrap) : State :=
  match s.group? n.g with
  | none => s
  | some g =>
    let ts := byLane (ts.filter (fun t => match g.lane t.lane with
      | some l => l.st != .exited
      | none => false))
    match ts with
    | [] => s
    | t0 :: _ =>
      if g.inTrap then endTeam s n.g.team ⟨.trapState, false, n.g, t0.lane, t0.faultva.toNat, n.pc.toNat, t0.ttag, 0, 0⟩
      else
        let req : TrapReq := ⟨t0.cause, 0, false, ts.map (fun t => ⟨t.lane, n.pc, t.ttag, t.faultva⟩), 0, 0, (0, 0, 0), n⟩
        let s := match g.clause with
          | some cl =>
            leaveClause (s.modGroup n.g (fun g => g.modLanes cl.x (fun _ l =>
              { l with pc := cl.pc, ins := some ⟨cl.hdr, cl.head⟩ }))) n.g
          | none => s
        (dropWaits s n.g).modGroup n.g (fun g => { g with trapReq := some req, wait := none, cwaitDl := none })

/-! ### Trap entry (R328) -/

/-- A drained group enters its handler; with TRAPH 0 its team ends with the cause, and with TRAPH beyond the text
with TRAP_STATE (R326). -/
def execTrapEntry (r : GRef) (s : State) : Host.Outcome State Fault Refusal :=
  .next (match (s.team? r.team).bind (fun t => s.launch? t.launch), s.group? r with
    | some l, some g => match g.trapReq, g.drained with
      | some q, true =>
        let t0 := q.lanes.headD ⟨0, 0, 0, 0⟩
        let sh := q.cause == .shadow
        if g.traph == 0 then
          endTeam s r.team ⟨q.cause, false, r, t0.lane, t0.faultva.toNat, t0.tpc, t0.ttag,
            if sh then q.ssyn else 0, if sh then q.sunit else 0⟩
        else if g.traph.toNat ≥ l.kernel.twords then
          endTeam s r.team ⟨.trapState, false, r, t0.lane, t0.faultva.toNat, q.now.pc, t0.ttag, 0, 0⟩
        else regroup s r (fun g => { enterTrap l.kernel q g with wait := none })
      | _, _ => s
    | _, _ => s)

/-! ### Ends of a team -/

/-- The slots of a team are free again, its queued MMAs are discarded (R323). -/
def freeSlots (s : State) (t : Team) : State :=
  { s with
    accs := s.accs.filter (fun p => p.2.team != t.id)
    mmas := s.mmas.filter (fun m => m.g.team != t.id) }

/-- Its issued stores and REDs go on to memory (R334 step 2). -/
def flushTeam (s : State) (t : Team) : State :=
  t.groups.foldl (fun s g => pushOwn s ⟨t.id, g.grp⟩) s

/-- A store of the team still waits at a bank for an engine (R285): the team's end waits with it. -/
def storesHeld (s : State) (team : Nat) : Bool :=
  match s.team? team with
  | some t => !t.saved && t.groups.any (fun g => (heldStoreWhy (pushOwn s ⟨team, g.grp⟩) ⟨team, g.grp⟩).isSome)
  | none => false

/-- A team leaves the package: its resources and its segment are free (R334). -/
def freeTeam (s : State) (t : Team) : State :=
  let s := if t.saved then s else flushTeam s t
  let s := t.groups.foldl (fun s g => dropWaits s ⟨t.id, g.grp⟩) (freeSlots s t)
  let s := s.modLaunch t.launch (fun l => { l with gone := l.gone ++ [⟨t.id, t.idx, t.core, t.slot, t.relaunches, false⟩] })
  { s with
    teams := s.teams.filter (fun x => x.id != t.id)
    issuing := s.issuing.filter (fun r => r.team != t.id) }

/-- The record of a team's end (R342, R343). -/
def endRecord (t : Team) (e : Ending) (kind : Nat) : ErrRec :=
  { ErrRec.zero with
    kind := kind, cause := e.cause.code, unit := t.core, ctx := t.ctx, slot := t.slot, relaunch := t.relaunches
    va := e.va, team := t.idx, grp := e.g.grp, lane := e.lane, pc := e.pc.toNat, ssyn := e.ssyn, sunit := e.sunit
    ttag := e.ttag }

/-- The answers to a faulted team's peer stores no longer concern anyone. -/
def orphanStores (s : State) (team : Nat) : State :=
  { s with peerOut := s.peerOut.map (fun p => match p.dst with
      | .store g _ _ => if g.team == team then { p with dst := .cmd 0 0 } else p
      | _ => p) }

/-- The record of a team's end, which the host is to find before the completion cell tells of it (R345). -/
def postEnd (s : State) (launch : Nat) (r : ErrRec) : State :=
  let s := postRecord s r
  s.modLaunch launch (fun l => { l with recs := s.errSeq })

/-- A team that has left counts as faulted, once (R161, R424). -/
def Launch.fail (l : Launch) (team : Nat) : Launch :=
  { l with faulted := l.faulted + 1, gone := l.gone.map (fun x => if x.id == team then { x with failed := true } else x) }

/-- A team ends by fault (R334): its uncommitted lines are dropped with it. -/
def execTeamFaultEnd (team : Nat) (s : State) : Host.Outcome State Fault Refusal :=
  .next (match s.team? team with
    | some t => match t.ending with
      | some e =>
        if e.relaunch || storesHeld s team then s
        else (orphanStores (postEnd (freeTeam s t) t.launch (endRecord t e 1)) team).modLaunch t.launch (fun l =>
          { Launch.fail l team with ended := l.ended + 1 })
      | none => s
    | none => s)

/-- A relaunch after poison (R339). -/
def execRelaunch (team : Nat) (s : State) : Host.Outcome State Fault Refusal :=
  .next (match s.team? team with
    | some t => match t.ending with
      | some e =>
        if e.relaunch && !storesHeld s team then
          (orphanStores (postEnd (freeTeam s t) t.launch (endRecord t e 2)) team).modLaunch t.launch (fun l =>
            { l with again := l.again ++ [(t.idx, t.relaunches + 1, clusterOf t.core)] })
        else s
      | none => s
    | none => s)

/-- A group whose lanes have all exited and whose results have returned ends (R152); its slots are unclaimed
(R323) and its frames discarded (R392). -/
def groupDone (g : Group) : Bool :=
  !g.ended && g.drained && g.trapReq.isNone && g.clause.isNone && g.lanes.all (fun l => l.st == .exited)

/-- A group's tokens return to unclaimed, and nothing of its lanes is owed to a slot any more. -/
def unclaim (s : State) (team grp : Nat) : State :=
  { s with accs := s.accs.map (fun p =>
      if p.2.team == team then
        (p.1, { p.2 with
          token := if p.2.token == .held grp || p.2.token == .leaving grp then .unclaimed else p.2.token
          parked := p.2.parked.filter (fun x => x.1 != grp) })
      else p) }

def execGroupEnd (r : GRef) (s : State) : Host.Outcome State Fault Refusal :=
  .next (match s.group? r with
    | some g =>
      if groupDone g then
        let s := match g.peerFail with
          | f :: _ => endTeam s r.team ⟨f.1, false, r, f.2.2.2, f.2.2.1, 0, 0, 0, 0⟩
          | [] => s
        standAt (unclaim (s.modGroup r (fun g => { g with
          ended := true, wait := none, slate := { g.slate with chip := [], inmem := 0 } })) r.team r.grp) r
      else s
    | none => s)

/-- The last group has ended: an unpinned team commits (R336), and once its committed lines are owned the team
ends. -/
def execTeamEndExit (team : Nat) (s : State) : Host.Outcome State Fault Refusal :=
  .next (match s.team? team, (s.team? team).bind (fun t => s.launch? t.launch) with
    | some t, some l =>
      if !(t.groups.all (·.ended)) || t.ending.isSome || storesHeld s team then s
      else
        let s := if l.kernel.replayable && !t.pinned then commitTeam s team
          else if t.committing then grantAll s t.core else s
        match commitLeft s team, s.team? team with
        | [], some t => (freeTeam s t).modLaunch t.launch (fun l => { l with ended := l.ended + 1 })
        | _, _ => s
    | _, _ => s)

end Sys2Proof.Machine
end

