-- ==== Sys2Proof/Machine/Tags.lean ====
section
/-! DEFINITION. Origin tag instructions (R357 to R364) and the roll's table (R347 to R350). -/

namespace Sys2Proof.Machine

open Sys2Proof

/-! ### TGET, TSET, TCHK -/

/-- TGET (R358). -/
def execTget (h : Head) (vd : BitVec 8) (a : Src) (s : State) : Host.Outcome State Fault Refusal :=
  fixedWord s h (fun c => c.vOk vd.toNat false && c.srcOk .i32 a) fun c =>
    (lanesOf (c.active h)).flatMap fun i =>
      let t := srcTag c.g .i32 a i
      putV false vd.toNat i t.toNat (tagResult h.rule [⟨t, t.msb⟩] false (c.g.vtag vd.toNat i))

/-- The tag TSET gives a lane (R359). -/
def tsetTag (g : Group) (f : TSetF) (vd lane : Nat) : TagSrc :=
  match f with
  | .reg a => .known (BitVec.ofNat 16 (readSrc g .i32 a lane))
  | .born => .born false
  | .clre => .known (g.vtag vd lane &&& 0x7FFF)

/-- TSET. -/
def execTset (h : Head) (vd : BitVec 8) (f : TSetF) (s : State) : Host.Outcome State Fault Refusal :=
  fixedWord s h
    (fun c => c.vOk vd.toNat false && (match f with
      | .reg a => c.srcOk .i32 a
      | _ => true))
    fun c => (lanesOf (c.active h)).map fun i => .v vd.toNat i (c.g.vreg vd.toNat i) (tsetTag c.g f vd.toNat i)

/-- TCHK (R360): TTAG is the first tag with E, else born here. -/
def execTchk (h : Head) (t : VType) (a : Src) (s : State) : Host.Outcome State Fault Refusal :=
  onCur s fun c =>
    if !c.srcOk t a then wordFault s c .illegalOperand
    else
      let bad := (lanesOf (c.active h)).filter (fun i => (srcOf c.g t a i).exc)
      match bad with
      | [] => finish s c h
      | _ =>
        let tagOf := fun i => let x := srcTag c.g t a i; if x.msb then TagSrc.known x else TagSrc.born true
        let (hd, s) := if bad.any (fun i => TagSrc.isBorn (tagOf i)) then internFor s c.ref c.n.pc else (0, s)
        raiseTraps s c 0 (afterWord c.n).1 0 0 (0, 0, 0) (bad.map (fun i => ⟨i, .tagCheck, TagSrc.tag hd (tagOf i), 0⟩))

/-! ### The roll's table -/

/-- The address-space slot of a context. -/
def ctxSlot (s : State) (ctx : Nat) : Nat :=
  match (ctxEntry s ctx).bind (fun e => mfind s.roster (e.record.extractLsb' 0 128).toNat) with
  | some e => (match e.obj with
    | .space n => n
    | _ => 0)
  | none => 0

/-- A fresh roll's table in the reserved area (R347, R430). -/
def freshTable (n : Nat) : Nat := rsvBase + 0x40000000 + 0x80000 * n

/-- A roll entry as its table holds it (R348). -/
def RollEntry.bits (e : RollEntry) : BitVec 128 :=
  BitVec.ofNat 16 e.births ++ BitVec.ofBool true ++ BitVec.ofNat 2 e.role ++ BitVec.ofNat 5 e.grp ++ BitVec.ofNat 32 e.team ++
  (0 : BitVec 16) ++ BitVec.ofNat 56 e.site.toNat

/-- The core of the team that bore an entry's tag: where it is resident, else where it bore it. -/
def rollCore (s : State) (roll : Name) (e : RollEntry) : Nat :=
  match s.teams.find? (fun t => t.idx == e.team && (match s.launch? t.launch with
    | some l => l.roll == roll
    | none => false)) with
  | some t => t.core
  | none => e.core

/-- A device-scope store of 16 bytes with tag 0 (R350). -/
def putGranule (s : State) (slot va : Nat) (x : Xlat) (b : List Byte) : State :=
  let s := recallWhere (aliasFill s slot va x) slot va x (fun e => !heldCommit s e.w.g.team)
  performLine s slot x ⟨0, ⟨0, 0⟩, 0, slot, va, b.mapIdx (fun i y => (i, y)), [(0, 0), (4, 0), (8, 0), (12, 0)], none, false, []⟩

/-- Writes entry `i` of a roll's table; a page that needs the fault path is requested in the background. -/
def writeEntry (s : State) (name : Name) (owner : Nat) (r : Roll) (i : Nat) (e : RollEntry) : State :=
  let bytes := natBytes 16 e.bits.toNat
  let mark := fun (s : State) => s.modEntry name (fun y => match y.obj with
    | .roll r => { y with obj := .roll { r with entries := r.entries.modify i (fun e => { e with written := true }) } }
    | _ => y)
  if r.fresh then mark (s.putMem (freshTable r.table + 16 * i) bytes)
  else
    let slot := ctxSlot s owner
    let va := r.table + 16 * i
    if zoneOf 0 va != .mapped || waitsPage s slot va (.roll name) then s
    else match translate s slot va .write with
      | (.ok x, s) =>
        if x.peer then s
        else if engineOwns s (lineKey slot va) then s
        else mark (putGranule s slot va x bytes)
      | (.error _, s) => coreFault s ⟨rollCore s name e, owner, slot⟩ va .write (.roll name)

/-- Brings a roll's table up to date (R350). -/
def flushRoll (s : State) (name : Name) : State :=
  match entryOf s name with
  | some e => match e.obj with
    | .roll r =>
      if r.broken then s
      else ((r.entries.mapIdx (fun i x => (i, x))).foldl (fun s p => writeEntry s name e.owner r p.1 p.2) s)
    | _ => s
  | none => s

/-- The roll of a name. -/
def rollOf (s : State) (name : Name) : Option Roll :=
  match entryOf s name with
  | some e => (match e.obj with
    | .roll r => some r
    | _ => none)
  | none => none

/-- An entry of a roll is not yet in its table. -/
def rollLags (r : Roll) : Bool := !r.broken && r.entries.any (fun e => !e.written)

/-- The groups whose TORG waits for an entry of some roll. -/
def rollWaits (s : State) : List GRef :=
  s.teams.flatMap (fun t => (t.groups.filter (fun g => match g.wait with
    | some w => w.why == .roll
    | none => false)).map (fun g => (⟨t.id, g.grp⟩ : GRef)))

/-- The first entry not yet written is written, and the groups that wait for one look again, also where another
group's word has written it. -/
def execRollEntryWrite (roll : Name) (s : State) : Host.Outcome State Fault Refusal :=
  .next (match entryOf s roll, rollOf s roll with
    | some e, some r =>
      match (if r.broken then none else (r.entries.mapIdx (fun i x => (i, x))).find? (fun p => !p.2.written)) with
      | some p =>
        let s := writeEntry s roll e.owner r p.1 p.2
        match rollOf s roll with
        | some r => if (r.entries[p.1]?).any (·.written) then (rollWaits s).foldl wake s else s
        | none => s
      | none => (rollWaits s).foldl wake s
    | _, _ => s)

/-- TORG's second word (R364). -/
def torgWord (e : RollEntry) (exc : Bool) : Word :=
  BitVec.ofNat 16 e.births ++ BitVec.ofBool exc ++ (0 : BitVec 8) ++ BitVec.ofNat 2 e.role ++ BitVec.ofNat 5 e.grp ++
  BitVec.ofNat 32 e.team

/-- TORG (R364). -/
def execTorg (h : Head) (q : BitVec 3) (sd sa : BitVec 6) (s : State) : Host.Outcome State Fault Refusal :=
  onCur s fun c =>
    let tag := (c.g.sreg sa.toNat).setWidth 16
    let n := tag.toNat % 2 ^ 15
    let out := fun (s : State) (code : Nat) (x y : Word) =>
      reasonDone s c h q code [.s sd x, .s (sd + 1) y]
    if n == 0 then out s 0x50 0 0
    else match rollOf s c.l.roll with
      | none => out s 0x51 0 0
      | some r =>
        if n == 0x7FFF || r.broken then out s 0x51 0 0
        else match r.entries[n - 1]? with
          | none => out s 0x52 0 0
          | some _ =>
            let s := flushRoll s c.l.roll
            match (rollOf s c.l.roll).bind (fun r => r.entries[n - 1]?) with
            | some e => if e.written then out s 0 e.site (torgWord e tag.msb) else blockWord s c .roll
            | none => out s 0x52 0 0

end Sys2Proof.Machine
end

