-- ==== Sys2Proof/Machine/MemEvents.lean ====
section
/-! DEFINITION. Events of the memory side: the fault path (R216, R217, R433), the store queue and ownership (R191 to
R193), recalls (R209), reductions (R226), translations (R212), the host's accesses (R195, R356, R435), the scrubber
(R220) and lost lines (R341). -/

namespace Sys2Proof.Machine

open Sys2Proof

/-! ### Fault requests -/

/-- Lanes that waited on a request are ready again; beneath a handler they become ready when it ends (R329). -/
def readyParked (m : Mask) (g : Group) : Group :=
  { g with lanes := mapLanes m (fun _ l => if l.st == .parked then { l with st := .ready } else l) 0 g.lanes }

/-! ### Count cells updated by the device -/

/-- A count cell's new eight bytes (R299, R412, R161): its count, its errors, saturating, and its status. -/
def cellBytes (add errs status old : Nat) : List Byte :=
  natBytes 4 (old % 2 ^ 32 + add) ++ natBytes 2 (min 0xFFFF (old / 2 ^ 32 % 2 ^ 16 + errs)) ++ natBytes 2 status

/-- The error record of a launch event (R344). -/
def launchRecord (s : State) (ctx slot code va : Nat) : State :=
  postRecord s { ErrRec.zero with kind := 9, cause := code, ctx := ctx, slot := slot, va := va }

/-- An update that can never be done (R161): a launch's is posted with cause PARAM_FAULT. -/
def loseCell (s : State) (u : CellUpd) : State :=
  let s := { s with cells := s.cells.erase u }
  match u.src with
  | .launch _ => launchRecord s u.ctx u.slot 0x07 u.pkt
  | _ => s

/-- The device's update of a count cell: done, lost, waiting on the fault path, or waiting for an engine's line. -/
def updateCell (s : State) (u : CellUpd) : State :=
  let bytes := match u.src with
    | .run _ => fun old => natBytes 4 (old % 2 ^ 32 + u.add)
    | _ => cellBytes u.add u.errs u.status
  let put := fun (s : State) (p : Acc189) => { cellHome s ⟨0, 0⟩ u.slot u.va p bytes with cells := s.cells.erase u }
  let w : Who := ⟨u.die * 64, u.ctx, u.slot⟩
  if u.va / 2 ^ 48 == 0xFD then loseCell s u
  else match check189 s w (BitVec.ofNat 64 u.va) 8 .rmw with
    | (.window loc, s) => if engineOwns s (granKey loc) then s else put s (.window loc)
    | (.mem x, s) =>
      if x.peer || x.host then loseCell s u
      else if engineOwns s (lineKey u.slot u.va) then s
      else put s (.mem x)
    | (.fault _, s) => raiseFault s u.die none w u.va .rmw u.src
    | (_, s) => loseCell s u

/-- The updates that no open request holds are tried again. -/
def flushCells (s : State) : State :=
  (s.cells.filter (fun u => !s.faults.any (sameFault u.die u.slot (u.va / 4096)))).foldl updateCell s

/-- A merged waiter replays (R217): parked lanes turn ready, a text fetch is tried again; others go on by
themselves. -/
def replayWaiter (s : State) (w : Waiter) : State :=
  match w with
  | .meeting _ | .launch _ | .run _ => flushCells s
  | .lanes r m =>
    let s := regroup s r (readyParked m)
    wakeIf s r (fun _ y => match y with
      | .fetch | .page | .cwait .. => true
      | _ => false) (fun s _ => wake s r)
  | .room r m => regroup s r (readyParked m)
  | _ => s

/-- A request is resolved. -/
def retryFault (s : State) (f : FaultReq) : State :=
  f.who.foldl replayWaiter { s with faults := s.faults.filter (fun x => x.id != f.id) }

/-- A line leaves every holder, its writes performed first; with nothing to write, no bit of its page's entry
changes. -/
def recallLine (s : State) (line : Nat) : State :=
  let slot := lineSlot line
  let va := lineVa line
  match locate s slot va with
  | none => recallName s line
  | some x =>
    if x.peer then s
    else if s.ev.any (fun e => e.w.line == line) then
      match translate s slot va .write with
      | (.ok x, s) => recallWhere s slot va x (fun e => !heldCommit s e.w.g.team)
      | (.error _, s) => recallWhere s slot va x (fun _ => false)
    else recallWhere s slot va x (fun _ => false)

/-- Places bytes into the granules they fall in: granule address, bytes by offset. -/
def splitBytes (a : Nat) : List Byte → List (Nat × List (Nat × Byte))
  | [] => []
  | b :: r => match splitBytes (a + 1) r with
    | (g, l) :: t => if g == a / 16 * 16 then (g, (a % 16, b) :: l) :: t else (a / 16 * 16, [(a % 16, b)]) :: (g, l) :: t
    | [] => [(a / 16 * 16, [(a % 16, b)])]

/-- One tag for the words that some bytes touch. -/
def wordTags (t : Tag) (l : List (Nat × Byte)) : List (Nat × Tag) :=
  (((l.map (fun p => p.1 / 4 * 4)).eraseDups).map (fun o => (o, t)))

/-- The name under which a location's line is cached. -/
def cachedAs (s : State) (loc : Nat) : Option (Nat × Nat) :=
  (s.aliases.find? (fun a => a.1 == loc / 128)).map (·.2)

/-- A write from outside (R356): words of tag `t`, merged, at the line's home. -/
def outsideWrite (s : State) (loc : Nat) (tagged : Bool) (t : Tag) (b : List Byte) : State :=
  (splitBytes loc b).foldl (fun s p =>
    let s := match cachedAs s p.1 with
      | some n => recallLine s (lineKey n.1 n.2)
      | none => s
    performAt s p.1 tagged ⟨0, ⟨0, 0⟩, 0, 0, p.1, p.2, wordTags t p.2, none, false, []⟩) s

/-- A line of the access is owned by an engine (R20). -/
def locOwned (s : State) (loc n : Nat) : Bool :=
  (List.range (n / 128 + 2)).any (fun i => match cachedAs s (loc / 128 * 128 + 128 * i) with
    | some k => engineOwns s (lineKey k.1 k.2)
    | none => false)

/-- A held access of the host is performed, or waits on for its lines (R435). -/
def serveHost (s : State) (q : HostReq) : State :=
  match q with
  | .write pa data => if locOwned s pa data.length then { s with hostHeld := s.hostHeld ++ [q] } else outsideWrite s pa true 0 data
  | .read pa n =>
    if locOwned s pa n then { s with hostHeld := s.hostHeld ++ [q] }
    else { s with hostOut := s.hostOut ++ [.data pa (bytesAt s pa n)] }

/-- Those that wait for a line which an engine or a grant has released look again: groups, count cells, the host. -/
def wakeLines (s : State) : State :=
  let waits := s.teams.flatMap (fun t => (t.groups.filter (fun g => match g.wait with
    | some w => (match w.why with
      | .line _ => true
      | _ => false)
    | none => false)).map (fun g => (⟨t.id, g.grp⟩ : GRef)))
  let s := flushCells (waits.foldl wake s)
  s.hostHeld.foldl serveHost { s with hostHeld := [] }

/-- The kinds of access a request carries. -/
def kindsOf (k : BitVec 3) : List AK :=
  (if k.getLsbD 0 then [AK.read] else []) ++ (if k.getLsbD 1 then [AK.write] else []) ++
  (if k.getLsbD 2 then [AK.fetch] else [])

/-- The walk of a request fails with a cause, or grants every kind (R216 step 3). -/
def walkFault (s : State) (f : FaultReq) : Option Nat :=
  (kindsOf f.kinds).findSome? (fun k => match translatePure s f.slot (f.page * 4096) k with
    | .error c => some c
    | .ok _ => none)

/-- The die fault unit walks the tables again: it resolves the request itself, or holds it. -/
def execDieFaultWalk (n : Nat) (s : State) : Host.Outcome State Fault Refusal :=
  .next (match s.faults.find? (fun f => f.id == n && f.cause.isNone) with
    | some f => match walkFault s f with
      | none => retryFault s f
      | some c => { s with faults := s.faults.map (fun x => if x.id == n then { x with cause := some c } else x) }
    | none => s)

/-- A fault record (R217). -/
def faultRecord (f : FaultReq) (cause seq : Nat) : BitVec 384 :=
  f.time ++ BitVec.ofNat 64 seq ++ BitVec.ofNat 64 (f.page * 4096) ++ (0 : BitVec 128) ++
  BitVec.ofNat 16 (min 0xFFFF (f.cores.length + f.others)) ++ BitVec.ofNat 12 f.slot ++ BitVec.ofNat 6 f.ctx ++
  BitVec.ofNat 2 f.die ++ BitVec.ofNat 6 cause ++ (0 : BitVec 19) ++ f.kinds

/-- Bytes written in host memory. -/
def putHost (s : State) (pa : Nat) (b : List Byte) : State := s.putMem (hostLoc pa) b

/-- The fault ring has room (R433). -/
def ringRoom (size prod cons : Word) : Bool := (prod - cons).toNat < size.toNat

/-- A held request's record is written to the fault ring, and numbered within its die (R433). -/
def execFaultRecordWrite (n : Nat) (s : State) : Host.Outcome State Fault Refusal :=
  .next (match s.faults.find? (fun f => f.id == n && f.seq.isNone) with
    | some f => match f.cause with
      | some c =>
        if ringRoom s.ctrl.frsize s.ctrl.frprod s.ctrl.frcons then
          let seq := mget 0 s.faultSeq f.die + 1
          let at_ := s.ctrl.frbase.toNat + 48 * (s.ctrl.frprod.toNat % s.ctrl.frsize.toNat)
          let s := putHost s at_ (natBytes 48 (faultRecord f c seq).toNat)
          { s with
            faults := s.faults.map (fun x => if x.id == n then { x with seq := some seq } else x)
            faultSeq := mput 0 s.faultSeq f.die seq
            ctrl := { s.ctrl with frprod := s.ctrl.frprod + 1 } }
        else s
      | none => s
    | none => s)

/-! ### Stores, ownership, copies -/

/-- The oldest queued store of a group enters the L1, once every earlier load has bound its value (R192). -/
def execStoreQueueDrain (r : GRef) (s : State) : Host.Outcome State Fault Refusal :=
  .next (match s.team? r.team, s.group? r with
    | some t, some g =>
      if unbound s r then s
      else match g.storeQ with
        | w :: rest =>
          if heldBack s t.core w then s else drainWrite (s.modGroup r (fun g => { g with storeQ := rest })) t.core w
        | [] => s
    | _, _ => s)

/-- The home answers an ownership request (R192); those that wait for a line look again. -/
def execOwnershipGrant (core line : Nat) (s : State) : Host.Outcome State Fault Refusal :=
  .next (if (grantWrites s core line).isEmpty then s
    else
      let t := grantLine s core line
      if t.ev == s.ev then t else wakeLines t)

/-- A write of another core to the line asks for ownership; whether every such core lies outside the cluster. -/
def ownershipAsked (s : State) (core line : Nat) : Bool := s.ev.any (fun e => e.w.line == line && e.core != core)
def askedOutside (s : State) (core line : Nat) : Bool :=
  s.ev.all (fun e => e.w.line != line || e.core == core || clusterOf e.core != clusterOf core)

/-- An invalidation at an L1 (R193): a copy that another agent's request invalidates enters the queue with what it
shows; one that is queued already is applied. -/
def execInvalidationReceive (core line : Nat) (s : State) : Host.Outcome State Fault Refusal :=
  .next (
    if (staleOf s core line).isSome then dropStale s core line
    else if inL1 s core line && ownershipAsked s core line then
      match locate s (lineSlot line) (lineVa line) with
      | some x =>
        let l := snapshot s core (lineSlot line) (lineVa line) (askedOutside s core line) x
        { dropL1 s core line with stale := s.stale ++ [l] }
      | none => s
    else s)

/-- A directory recall (R20, R191). -/
def execDirectoryRecall (line : Nat) (s : State) : Host.Outcome State Fault Refusal := .next (recallLine s line)

/-! ### Blocks in HBM (R218, R219) -/

/-- What a block's 64 bytes of metadata hold: its 32 granule tags, or the header of a compressed block. -/
inductive BlockMeta
  | tags (ts : List Tag)
  | header (encoding sectors : Nat) (map : List (Nat × Tag))
deriving DecidableEq, Repr

/-- Runs of equal tags, in order. -/
def tagRuns : List Tag → List (Nat × Tag)
  | [] => []
  | t :: r => match tagRuns r with
    | (n, u) :: l => if u == t then (n + 1, t) :: l else (1, t) :: (n, u) :: l
    | [] => [(1, t)]

def blockTags (s : State) (b : Nat) : List Tag := (List.range 32).map (fun i => mget 0 s.tags (32 * b + i))
def blockBytes (s : State) (b : Nat) : List Byte := bytesAt s (512 * b) 512

/-- The encoding and sector count of a block as last written: raw where none is listed. -/
def blockCode (s : State) (b : Nat) : Nat × Nat := mget (0, 8) s.blocks b

/-- A block's metadata. -/
def blockMeta (s : State) (b : Nat) : BlockMeta :=
  match blockCode s b with
  | (0, _) => .tags (blockTags s b)
  | (c, n) => .header c n (tagRuns (blockTags s b))

/-- One 32-bit word repeated. -/
def oneWord (l : List Byte) : Bool := (List.range (l.length / 4)).all (fun i => (l.drop (4 * i)).take 4 == l.take 4)

/-- The encoding that the controller gives a block's contents, on a page with C set or clear: the first of zero,
constant and delta-plane that it can; raw when none saves a sector or the tag map does not fit. -/
def encodeBlock (s : State) (b : Nat) (comp : Bool) : Nat × Nat :=
  let l := blockBytes s b
  let n := Config.deltaSectors l
  if !comp || !Config.mapFits (tagRuns (blockTags s b)) then (0, 8)
  else if l.all (· == 0) then (1, 0)
  else if oneWord l then (2, 0)
  else if 1 ≤ n && n ≤ 7 then (3, n)
  else (0, 8)

/-- The HBM stack of a device address: 56 GiB each (R19). -/
def stackOf (pa : Nat) : Nat := pa / (56 * 2 ^ 30)

/-- Raises a count of a die (R438). -/
def addCounter (s : State) (die n k : Nat) : State :=
  { s with counters := mput 0 s.counters (die * 64 + n) ((mget 0 s.counters (die * 64 + n) + k) % 2 ^ 64) }

def bumpCounter (s : State) (die n : Nat) : State := addCounter s die n 1

/-- The controller writes a block, and reads it first where it writes a part of it. -/
def writeBlock (s : State) (b : Nat) (comp : Bool) : State :=
  let die := stackOf (512 * b) / 2
  let (c, n) := encodeBlock s b comp
  addCounter (addCounter { s with blocks := mput (0, 8) s.blocks b (c, n) } die (1 + c) 1) die 6 n

def readBlock (s : State) (b : Nat) : State := addCounter s (stackOf (512 * b) / 2) 5 (blockCode s b).2

/-- The line is held in a state that owes memory its contents. -/
def lineDirty (s : State) (line : Nat) : Bool :=
  s.ev.any (fun e => e.w.line == line) || s.cdir.any (fun l => l.key == line && (l.st == .M || l.st == .O))

/-- A directory entry is evicted: its line is recalled from every holder first (R191); a dirty line's block is then
expanded, merged and written by its controller (R219). -/
def execDirectoryEviction (line : Nat) (s : State) : Host.Outcome State Fault Refusal :=
  let t := recallLine s line
  .next (match lineDirty s line, locate t (lineSlot line) (lineVa line) with
    | true, some x =>
      if x.peer || x.host || (t.cdir.any (fun l => l.key == line)) then t
      else writeBlock (readBlock t (x.loc (lineVa line) / 512)) (x.loc (lineVa line) / 512) x.comp
    | _, _ => t)

/-- A fill of a physical line under a second name (R209). -/
def execAliasRecall (line slot : Nat) (va : Word) (s : State) : Host.Outcome State Fault Refusal :=
  .next (if zoneOf 0 va.toNat != .mapped then s
    else match translate s slot va.toNat .read with
      | (.ok x, s') => if !x.peer && x.loc va.toNat / 128 == line then aliasFill s' slot va.toNat x else s
      | (.error _, _) => s)

/-- The filter drops the record of a physical line and recalls the line. -/
def execAliasRecordDrop (line : Nat) (s : State) : Host.Outcome State Fault Refusal :=
  .next (match s.aliases.find? (fun a => a.1 == line) with
    | some a => { recallName s (lineKey a.2.1 a.2.2) with
        icache := s.icache.filter (fun l => !(l.slot == a.2.1 && l.va == a.2.2))
        aliases := s.aliases.filter (fun b => b.1 != line) }
    | none => s)

/-- A RED arrival is applied (R226). -/
def execRedArrival (n : Nat) (s : State) : Host.Outcome State Fault Refusal :=
  let t := applyRedId s n
  .next (if t.redQ == s.redQ then t else wakeLines t)

/-- Every instruction cache has acknowledged (R207). -/
def execIinvAck (r : GRef) (s : State) : Host.Outcome State Fault Refusal :=
  .next (wakeIf s r (fun _ w => w == .iinv) (fun s _ => wake s r))

/-! ### Broadcast invalidations (R212) -/

/-- The slots of the address spaces whose records hold a host ASID. -/
def asidSlots (s : State) (asid : BitVec 16) : List Nat :=
  (s.roster.map Prod.snd).filterMap (fun e => match e.obj with
    | .space n => if e.record.getLsbD 60 && e.record.extractLsb' 44 16 == asid then some n else none
    | _ => none)

/-- Every line of a slot whose address and leaf `f` selects is written back and invalidated. -/
def cleanLines (s : State) (slot : Nat) (f : Nat → Nat → Bool) : State :=
  let keys := (s.cdir.map (fun l => (l.slot, l.va, l.leaf))) ++ (s.ev.map (fun e => (e.w.slot, e.w.va, 1))) ++
    (s.stale.map (fun l => (l.slot, l.va, 1)))
  let lines := ((keys.filter (fun k => k.1 == slot && f k.2.1 k.2.2)).map (fun k => lineKey k.1 k.2.1)).eraseDups
  let s := lines.foldl recallName s
  { s with icache := s.icache.filter (fun l => !(l.slot == slot && f l.va l.leaf)) }

/-- A leaf of some pages that holds an address also holds a page. -/
def leafHolds (page : Nat) (va leaf : Nat) : Bool := va / 4096 / leaf == page / leaf

/-- Invalidation by VA (R212): every TLB and walk-cache entry that maps the address goes, and every line whose fill
translation covered it. -/
def invalidateVa (s : State) (slot : Nat) (va : Nat) : State :=
  let page := va / 4096
  let s := cleanLines s slot (leafHolds page)
  { s with
    tlb := s.tlb.filter (fun x => !(x.slot == slot && leafHolds page (x.page * 4096) x.size))
    walks := s.walks.filter (fun w => !(w.slot == slot && w.key == va / 2 ^ levelShift w.level)) }

def invalidateSlot (s : State) (slot : Nat) : State :=
  let s := cleanLines s slot (fun _ _ => true)
  { s with tlb := s.tlb.filter (fun x => x.slot != slot), walks := s.walks.filter (fun w => w.slot != slot) }

def execTlbInvalidation (k : TlbInv) (s : State) : Host.Outcome State Fault Refusal :=
  .next (match k with
    | .byVa asid va => (asidSlots s asid).foldl (fun s n => invalidateVa s n va.toNat) s
    | .byAsid asid => (asidSlots s asid).foldl invalidateSlot s
    | .all => ((s.tlb.map (·.slot) ++ s.walks.map (·.slot) ++ s.cdir.map (·.slot) ++ s.ev.map (fun e => e.w.slot) ++
        s.stale.map (·.slot) ++ s.icache.map (·.slot)).eraseDups).foldl invalidateSlot s)

/-- The synchronisation message is answered: every invalidation before it is complete. -/
def execTlbSync (s : State) : Host.Outcome State Fault Refusal := .next { s with hostOut := s.hostOut ++ [.synced] }

/-! ### The host's accesses (R195, R356, R435) -/

/-- A location that the host may reach: device memory below the reserved area, or its own memory. -/
def hostMay (loc n : Nat) : Bool := loc + n ≤ rsvBase || (2 ^ 56 ≤ loc && loc + n ≤ 2 ^ 57)

/-- STATUS reads READY (R429, R432). -/
def readyDev (s : State) : Bool := s.ctrl.status == 2

/-- A store of the host: `pa` is a location, a device address or a host address from 2^56. In recovery no memory answers
(R429). -/
def execHostWrite (pa : Nat) (data : List Byte) (s : State) : Host.Outcome State Fault Refusal :=
  .next (if readyDev s && hostMay pa data.length then serveHost s (.write pa data) else s)

/-- A load of the host from memory: data only, with no tag. -/
def hostLoad (s : State) (pa size : Nat) : State :=
  if readyDev s && hostMay pa size then serveHost s (.read pa size) else s

/-- The host recalls or invalidates a line of its memory that the device caches (R195). -/
def execHostMemorySnoop (pa : Nat) (invalidate : Bool) (s : State) : Host.Outcome State Fault Refusal :=
  .next (match cachedAs s (hostLoc pa) with
    | some n =>
      let line := lineKey n.1 n.2
      let s := recallLine s line
      let s := if invalidate then { s with aliases := s.aliases.filter (fun a => a.1 != hostLoc pa / 128) } else s
      { s with hostOut := s.hostOut ++ [.snooped pa] }
    | none => { s with hostOut := s.hostOut ++ [.snooped pa] })

/-! ### The scrubber and lost lines -/

/-- Marks granules poisoned. -/
def poisonAt (s : State) (keys : List Nat) : State :=
  { s with poison := keys.foldl (fun m k => mput false m k true) s.poison }

/-- A unit that corrects errors (R342): its kind and its number. -/
def unitOk (u : Nat × Nat) : Bool := u.1 ≤ 5 && u.2 < 2 ^ 12

/-- The scrubber reads a block of 512 bytes (R220): one it cannot correct is marked poisoned. Every unit that has
corrected an error, a stack or another array, has it recorded (R343). -/
def execScrubPass (block : Nat) (corrected : List (Nat × Nat)) (bad : List Nat) (s : State) :
    Host.Outcome State Fault Refusal :=
  let stack := stackOf (block * 512)
  let rec_ := fun (kind : Nat) (u : Nat × Nat) => { ErrRec.zero with kind := kind, unitKind := u.1, unit := u.2 }
  let s := (corrected.filter unitOk).foldl (fun s u => postRecord s (rec_ 6 u)) s
  .next (if stack ≥ 8 then s
    else
      let s := readBlock s block
      match bad with
      | [] => s
      | _ => postRecord (bumpCounter (poisonAt s ((List.range 32).map (fun i => block * 32 + i))) (stack / 2) 7) (rec_ 7 (2, stack)))

/-- The live contexts of a slot, by index. -/
def ctxsOfSlot (s : State) (slot : Nat) : List Nat :=
  (s.roster.map Prod.snd).filterMap (fun e => match e.obj with
    | .context i => if ctxSlot s i == slot then some i else none
    | _ => none)

/-- Contexts of the slots lose every team (R341). -/
def loseSlots (s : State) (slots : List Nat) (unitKind unit : Nat) : State :=
  let ctxs := ((slots.flatMap (ctxsOfSlot s)).eraseDups)
  ctxs.foldl (fun s ctx =>
    let s := (s.teams.filter (fun t => t.ctx == ctx)).foldl (fun s t => plainFault s t.id .lostWrite) s
    postRecord s { ErrRec.zero with
      kind := 5, cause := Cause.lostWrite.code, unitKind := unitKind, unit := unit, ctx := ctx, slot := ctxSlot s ctx }) s

/-- A dirty line that cannot be written back (R341). -/
def execDirtyEvictionError (x : LostLine) (s : State) : Host.Outcome State Fault Refusal :=
  .next (match x with
    | .uncommitted team addr => match s.team? team with
      | some t =>
        match t.uncommitted.find? (fun w => w.va / 128 == addr / 128) with
        | some w => endTeam s team ⟨.poison, t.relaunches < 2, w.g, w.lane, addr, 0, 0x7FFF, 0, 0⟩
        | none => s
      | none => s
    | .named slot va addr bad =>
      let loc := match translatePure s slot va.toNat .read with
        | .ok (x, _) => if x.peer then addr else x.loc va.toNat
        | .error _ => addr
      let s := recallName s (lineKey slot va.toNat)
      let s := poisonAt s ((bad.filter (fun i => i < 8)).map (fun i => loc / 128 * 8 + i))
      postRecord s { ErrRec.zero with
        kind := 4, unitKind := 1, unit := homeSlice slot va.toNat, ctx := (ctxsOfSlot s slot).headD 0, slot := slot
        va := va.toNat / 128 * 128 }
    | .l2 slice => loseSlots s ((s.dirty.filter (fun d => d.1 == slice)).map (·.2)) 1 slice
    | .upper kind unit => loseSlots s (s.dirty.map (·.2)) (if kind == 4 then 4 else 0) (unit % 2 ^ 12))

end Sys2Proof.Machine
end

