-- ==== Sys2Proof/Machine/Bulk.lean ====
section
/-! DEFINITION. Reads of more than one access by a word of a group (R159, R276): record images, tables, packets.
The lanes of X trap, park and consume poison together. -/

namespace Sys2Proof.Machine

open Sys2Proof

/-- The pieces of `n` bytes at an address, one for each granule: address and length. -/
def pieces (va n : Nat) : List (Nat × Nat) :=
  (List.range ((va % 16 + n + 15) / 16)).map (fun i =>
    let lo := max va (va / 16 * 16 + 16 * i)
    let hi := min (va + n) (va / 16 * 16 + 16 * i + 16)
    (lo, hi - lo))

/-- What the pieces of a read have found so far. -/
structure BulkAcc where
  s      : State
  out    : List Byte
  trap   : Option (Cause × Word)
  park   : Bool
  line   : Option Nat
  poison : Option (Tag × Word)
  peers  : List (Nat × Nat × Xlat)
deriving DecidableEq, Repr

/-- One piece, as a load of the group. -/
def bulkPiece (c : Cur) (a : BulkAcc) (p : Nat × Nat) : BulkAcc :=
  if a.trap.isSome then a else
  let va := BitVec.ofNat 64 p.1
  match readFor a.s c.ref c.who va 1 p.2 .read false (.lanes c.ref c.n.x) with
  | (.trap x, s) => { a with s := s, trap := some (x, va) }
  | (.park, s) => { a with s := s, park := true }
  | (.line l, s) => { a with s := s, line := some l }
  | (.peer x, s) => match fetchedAt s (wordKey c.ref) p.1 p.2 with
    | some b => { a with s := s, out := a.out ++ b }
    | none => match peerTarget s x p.1 (.read p.2) with
      | some _ => { a with s := s, peers := a.peers ++ [(p.1, p.2, x)] }
      | none => { a with s := s, trap := some (.badAddress, va) }
  | (.gran g, s) =>
    if g.poison then { a with s := s, poison := some (g.tag, BitVec.ofNat 64 (p.1 / 16 * 16)) }
    else { a with s := s, out := a.out ++ (g.bytes.drop (p.1 % 16)).take p.2 }

/-- Reads `n` bytes at an address, its first access aligned to `align`, and goes on with them. -/
def withBulk (s : State) (c : Cur) (h : Head) (va : Word) (align n : Nat) (k : State → List Byte → State) : State :=
  let first := (check189 s c.who va align .read).1
  if first == .badAddress then trapAll s c c.n.x .badAddress 0 va
  else if first == .align then trapAll s c c.n.x .align 0 va
  else
    let a := (pieces va.toNat n).foldl (bulkPiece c) ⟨s, [], none, false, none, none, []⟩
    match a.trap, a.park, a.line, a.poison, a.peers with
    | some t, _, _, _, _ => trapAll (dropFetched a.s (wordKey c.ref)) c c.n.x t.1 0 t.2
    | none, true, _, _, _ => settle (dropFetched a.s (wordKey c.ref)) c h c.n.x []
    | none, false, some l, _, _ => blockWord a.s c (.line l)
    | none, false, none, some p, _ =>
      eatPoison (dropFetched a.s (wordKey c.ref)) c h 0 [] ((lanesOf c.n.x).map (fun i => ⟨i, .poison, p.1, p.2⟩))
    | none, false, none, none, [] => k a.s a.out
    | none, false, none, none, ps => blockWord (askPeers a.s (fun va => .word c.n va) c.t.core (joinAsks ps)) c .peer

end Sys2Proof.Machine
end

