-- ==== Sys2Proof/Machine/CpSteps.lean ====
section
/-! DEFINITION. The steps and buffer tables of collective programs (R394 to R397), and the checks NNEW makes of
them (R394, R401). -/

namespace Sys2Proof.Machine

open Sys2Proof

/-- A step's fields (R396). -/
structure CpStep where
  op     : Nat
  pmode  : Nat
  ctr    : Nat
  peer   : Nat
  a      : Nat
  b      : Nat
  rop    : Nat
  skip   : Bool
  timed  : Bool
  cmode  : Nat
  offset : Nat
  count  : Nat
deriving DecidableEq, Repr

def cpStep (w : Word) : CpStep :=
  let f := fun (lo n : Nat) => (w.extractLsb' lo n).toNat
  ⟨f 60 4, f 58 2, f 56 2, f 44 12, f 40 4, f 36 4, f 34 2, w.getLsbD 33, w.getLsbD 32, f 30 2, f 16 14, f 0 16⟩

/-- A buffer table entry (R394). -/
inductive CpBuf
  | unused
  | tensor (n : Name)
  | slot (n : Name)
  | staging (bytes : Nat) (fmt : BitVec 8) (offset : Nat)
  | cell (va : Nat)
deriving DecidableEq, Repr

def cpBuf (n : Name) : Option CpBuf :=
  match (n.extractLsb' 120 8).toNat with
  | 0x00 => if n == 0 then some .unused else none
  | 0x02 => some (.tensor n)
  | 0x09 => some (.slot n)
  | 0xF0 =>
    let bytes := (n.extractLsb' 32 24).toNat
    let f := n.extractLsb' 24 8
    let off := (n.extractLsb' 0 23).toNat
    if n.extractLsb' 56 64 == 0 && 1 ≤ bytes && fmtCodeOk f && f != 0x05 && !n.getLsbD 23 && off % 256 == 0 &&
      off + bytes ≤ 0x700000 then some (.staging bytes f off) else none
  | 0xF1 =>
    let va := (n.extractLsb' 0 56).toNat
    if n.extractLsb' 56 64 == 0 && va % 8 == 0 then some (.cell va) else none
  | _ => none

def CpBuf.data : CpBuf → Bool
  | .tensor _ | .staging .. => true
  | _ => false
def CpBuf.isSlot : CpBuf → Bool
  | .slot _ => true
  | _ => false
def CpBuf.isCell : CpBuf → Bool
  | .cell _ => true
  | _ => false

/-- Entry `i` of a table. -/
def cpEntry (table : List Name) (i : Nat) : CpBuf := ((table[i]?).bind cpBuf).getD .unused

/-- The steps that name a rank (R397). -/
def CpStep.isPeer (x : CpStep) : Bool := 1 ≤ x.op && x.op ≤ 4

/-- The fields an op does not use are 0 and its entries suit it (R397, R401). -/
def CpStep.fieldsOk (table : List Name) (x : CpStep) : Bool :=
  let e := cpEntry table
  let noPeer := x.pmode == 0 && x.peer == 0
  let noRed := x.rop == 0 && !x.skip
  let noRange := x.cmode == 0 && x.offset == 0
  match x.op with
  | 0 => noPeer && x.ctr == 0 && x.b == 0 && noRed && !x.timed && noRange && x.count ≤ 1 &&
    (if x.count == 1 then CpBuf.isCell (e x.a) else x.a == 0)
  | 1 => noRed && !x.timed && CpBuf.data (e x.a) && (x.b == 0 || CpBuf.isSlot (e x.b))
  | 2 => noRed && !x.timed && x.a == 0 && CpBuf.data (e x.b)
  | 3 => !x.timed && CpBuf.data (e x.a) && x.b == 0
  | 4 => !x.timed && CpBuf.data (e x.a) && CpBuf.data (e x.b)
  | 5 => noPeer && noRed && !x.timed && (CpBuf.data (e x.a) || CpBuf.isSlot (e x.a)) && CpBuf.data (e x.b)
  | 6 =>
    if x.timed then noPeer && noRed && x.a == 0 && x.b == 0 && x.count == 0
    else noPeer && noRed && x.ctr == 0 && x.b == 0 && noRange && CpBuf.isCell (e x.a)
  | 7 => noPeer && noRed && !x.timed && x.a == 0 && x.b == 0 && noRange
  | 8 => noPeer && noRed && !x.timed && x.a == 0 && x.b == 0 && noRange && x.count == 0
  | 9 => noPeer && noRed && x.ctr == 0 && !x.timed && x.b == 0 && noRange && CpBuf.isCell (e x.a)
  | _ => false

/-- The step's value depends on a loop counter. -/
def CpStep.usesCtr (x : CpStep) : Bool := x.pmode == 3 || x.cmode != 0

/-- The steps nest; `stack` holds the counters open, innermost first. -/
def cpNest (table : List Name) : List Nat → List Word → Bool
  | stack, [] => stack.isEmpty
  | stack, w :: r =>
    let x := cpStep w
    CpStep.fieldsOk table x && (!CpStep.usesCtr x || stack.contains x.ctr) &&
    (if x.op == 7 then !stack.contains x.ctr && cpNest table (x.ctr :: stack) r
     else if x.op == 8 then (stack.head? == some x.ctr) && cpNest table stack.tail r
     else cpNest table stack r)

/-- NNEW's checks of a program (R394, R401). -/
def cpValid (table : List Name) (steps : List Word) : Bool :=
  table.all (fun n => (cpBuf n).isSome) && cpNest table [] steps

end Sys2Proof.Machine
end

