-- ==== Sys2Proof/Machine/Reduce.lean ====
section
/-! DEFINITION. Reductions of the collective engine (R405 to R408), the regions of the staging SRAM (R395, R411)
and of FIFO banks (R267, R296), and the close of a meeting slot (R412). -/

namespace Sys2Proof.Machine

open Sys2Proof

/-! ### Values and partials -/

/-- The absolute value of a partial. -/
def Part.abs (f : NF) : Part → Part
  | .absent => .absent
  | .float x => .float (if (decF f x).isNan then f.nan else absF f x)
  | .int x => .int x.natAbs

/-- An element's value as a partial: a NaN is absent in skip mode, else the default NaN; absmax takes the
absolute value. -/
def partOf (f : NF) (op : Nat) (skip : Bool) (x : Nat) : Part :=
  let p : Part :=
    if f.floating then
      (if (decF f x).isNan then (if skip then .absent else .float f.nan) else .float (x % 2 ^ f.w))
    else .int (if f.signed then sgn f.w x else (x % 2 ^ f.w : Nat))
  if op == 3 then Part.abs f p else p

/-- Two floating values (R405). -/
def combineFloat (f : NF) (op : Nat) (a b : Nat) : Nat :=
  let z := match op with
    | 0 => (fpElem f rne false .add [a, b]).1
    | 1 => (minmaxElem f .max a b).1
    | 2 => (minmaxElem f .min a b).1
    | _ => (minmaxElem f .maxabs a b).1
  if (decF f z).isNan then f.nan else z

/-- Two integers, exact (R407). -/
def combineInt (op : Nat) (a b : Int) : Int :=
  match op with
  | 0 => a + b
  | 1 => if a < b then b else a
  | 2 => if b < a then b else a
  | _ => if a.natAbs < b.natAbs then b.natAbs else a.natAbs

/-- Two partials (R405). -/
def combineParts (f : NF) (op : Nat) (p q : Part) : Part :=
  match p, q with
  | .absent, q => q
  | p, .absent => p
  | .float a, .float b => .float (combineFloat f op a b)
  | .int a, .int b => .int (combineInt op a b)
  | p, _ => p

/-- The element a partial is written as: its code, and whether it was clamped or has no value (R405, R407). -/
def Part.write (f : NF) (p : Part) : Nat × Bool :=
  match p with
  | .absent => (if f.floating then f.nan else 0, true)
  | .float x => (x, specialF f x)
  | .int x =>
    let lo : Int := if f.signed then -2 ^ (f.w - 1) else 0
    let hi : Int := f.maxMag
    (wrapN f.w (if x < lo then lo else if x > hi then hi else x), x < lo || x > hi)

/-- An integer partial clamped to a format's range (R407). -/
def Part.clamp (f : NF) : Part → Part
  | .int x =>
    let lo : Int := if f.signed then -2 ^ (f.w - 1) else 0
    let hi : Int := f.maxMag
    .int (if x < lo then lo else if x > hi then hi else x)
  | p => p

/-- A partial as an element of a message: a code, or an exact integer in 64 bits. -/
def Part.word (f : NF) (p : Part) : Word :=
  match p with
  | .absent => BitVec.ofNat 64 (if f.floating then f.nan else 0)
  | .float x => BitVec.ofNat 64 x
  | .int x => BitVec.ofInt 64 x

/-- An element of a message as a partial; one that counts 0 is absent. -/
def partOfMsg (f : NF) (op : Nat) (skip : Bool) (m : EngMsg) (i : Nat) : Part :=
  let w := m.elems.getD i 0
  if skip && m.counts.getD i 1 == 0 then .absent
  else if m.exact && !f.floating then (if op == 3 then .int w.toInt.natAbs else .int w.toInt)
  else partOf f op skip w.toNat

/-- A format that the engine reduces (R405). -/
def redFmt (c : BitVec 8) : Bool := [0x02, 0x03, 0x04, 0x0C, 0x0D].contains c.toNat

/-! ### Staging SRAM -/

/-- A meeting slot's record fields (R270). -/
def slotDie (r : BitVec 352) : Nat := (r.extractLsb' 23 2).toNat
def slotOff (r : BitVec 352) : Nat := (r.extractLsb' 0 23).toNat
def slotElems (r : BitVec 352) : Nat := (r.extractLsb' 25 20).toNat
def slotFmt (r : BitVec 352) : BitVec 8 := r.extractLsb' 45 8
def slotOp (r : BitVec 352) : Nat := (r.extractLsb' 53 2).toNat
def slotSkip (r : BitVec 352) : Bool := r.getLsbD 55
def slotMembers (r : BitVec 352) : Nat := (r.extractLsb' 56 16).toNat
def slotDeadlineOf (r : BitVec 352) : Word := r.extractLsb' 72 64
def slotCell (r : BitVec 352) : Nat := (r.extractLsb' 136 56).toNat

/-- Bytes of a slot's area (R411). -/
def slotArea (r : BitVec 352) : Nat :=
  (slotElems r * ((fmtOf (slotFmt r)).w / 8) + 255) / 256 * 256 +
  (if slotSkip r then (slotElems r * 2 + 255) / 256 * 256 else 0)

def overlaps (a n b m : Nat) : Bool := a < b + m && b < a + n

/-- The areas of the live slots of a die. -/
def slotAreas (s : State) (die : Nat) : List (Nat × Nat) :=
  (s.roster.map Prod.snd).filterMap (fun e => match e.obj with
    | .meeting _ => if slotDie e.record == die then some (slotOff e.record, slotArea e.record) else none
    | _ => none)

/-- The program of a name, live or dying. -/
def progOf (s : State) (n : Name) : Option (BitVec 352 × CpProg) :=
  match entryOf s n with
  | some e => (match e.obj with
    | .prog p => some (e.record, p)
    | _ => none)
  | none => none

/-- The staging regions of a buffer table. -/
def stagingOf (table : List Name) : List (Nat × Nat) :=
  table.filterMap (fun n => match cpBuf n with
    | some (.staging b _ o) => some (o, b)
    | _ => none)

/-- The staging regions of the running runs of a die. -/
def runAreas (s : State) (die : Nat) : List (Nat × Nat) :=
  (s.runs.filter (fun r => r.die == die)).flatMap (fun r => match progOf s r.prog with
    | some (_, p) => stagingOf p.table
    | none => [])

/-- A slot's area is free (R411). -/
def slotFree (s : State) (r : BitVec 352) : Bool :=
  let n := slotArea r
  slotOff r + n ≤ 0x700000 &&
  !(slotAreas s (slotDie r) ++ runAreas s (slotDie r)).any (fun a => overlaps (slotOff r) n a.1 a.2)

/-! ### FIFO banks -/

/-- A tensor record's fields (R266). -/
def tBase (r : BitVec 352) : Nat := (r.extractLsb' 0 56).toNat
def tFmt (r : BitVec 352) : BitVec 8 := r.extractLsb' 56 8
def tDim (r : BitVec 352) (k : Nat) : Nat := (r.extractLsb' (64 + 24 * k) 24).toNat
/-- The byte stride of dimension k ≥ 1. -/
def tStride (r : BitVec 352) (k : Nat) : Nat := (r.extractLsb' (160 + 40 * (k - 1)) 40).toNat
def tSbase (r : BitVec 352) : Nat := (r.extractLsb' 280 56).toNat
def tSfmt (r : BitVec 352) : BitVec 8 := r.extractLsb' 336 8
def tSblock (r : BitVec 352) : Nat := 16 * 2 ^ (r.extractLsb' 344 2).toNat
def tRank (r : BitVec 352) : Nat := (r.extractLsb' 346 2).toNat + 1
def tCb (r : BitVec 352) : Bool := r.extractLsb' 348 2 == 1
/-- Bytes of an element. -/
def tEb (r : BitVec 352) : Nat := fmtWidth (tFmt r) / 8
def tScaled (r : BitVec 352) : Bool := tSfmt r == 0x05

/-- The cluster, offset and size of a circular buffer's region. -/
def cbRegion (r : BitVec 352) : Nat × Nat × Nat :=
  let b := tBase r
  (b / 2 ^ 44 % 16 * 8 + b / 2 ^ 40 % 16, b % 2 ^ 24, tDim r 2 * tStride r 2)

/-- The regions that occupy FIFO banks: those of pigeonholes and circular buffers not yet freed. -/
def fifoRegions (s : State) : List (Nat × Nat × Nat) :=
  (s.roster.map Prod.snd).filterMap (fun e => match e.obj with
    | .pigeon .. => some (pigCluster e.record, pigOffset e.record, pigCap e.record * 8)
    | .cb .. => some (cbRegion e.record)
    | _ => none)

def fifoFree (s : State) (cluster off n : Nat) : Bool :=
  off + n ≤ 2 ^ 24 &&
  (List.range 64).all (fun b => !overlaps off n (b * 2 ^ 18) (2 ^ 18) || bankMode s cluster b == .fifo) &&
  !(fifoRegions s).any (fun r => r.1 == cluster && overlaps off n r.2.1 r.2.2)

/-! ### The close of a slot -/

/-- A slot's range as its readers take it, its integer partials clamped (R412); its sequence
number is 1 when the slot counts (skip). -/
def slotRange (r : BitVec 352) (m : Meet) : EngMsg :=
  let f := fmtOf (slotFmt r)
  let n := slotElems r
  ⟨0, 0, 0, if slotSkip r then 1 else 0, slotFmt r, !f.floating, (List.range n).map (fun i => Part.word f (Part.clamp f (m.parts.getD i .absent))),
    (List.range n).map (fun i => m.counts.getD i 0)⟩

/-- The elements that the close clamps (R407, R408). -/
def slotMarks (r : BitVec 352) (m : Meet) : List Nat :=
  let f := fmtOf (slotFmt r)
  (List.range (slotElems r)).filter (fun i => Part.clamp f (m.parts.getD i .absent) != m.parts.getD i .absent)

/-- The staging bytes of a closed slot are unspecified (R413). -/
def freeArea (s : State) (die off n : Nat) : State :=
  { s.putMem (stagingLoc die off) ((List.range n).map (fun i => Config.freeByte (s.freeN + i))) with freeN := s.freeN + n }

/-- A slot closes (R412): its readers take its range, its name is killed, and its cell is told. -/
def closeSlot (s : State) (n : Name) (late : Bool) : State :=
  match entryOf s n with
  | some e => match e.obj with
    | .meeting m =>
      let r := e.record
      let range := slotRange r m
      let take := fun (x : Run) => if m.readers.contains x.id then { x with got := some range, marks := slotMarks r m } else x
      let s := { s with runs := s.runs.map take }
      let s := s.modEntry n (fun e => { e with obj := .plain, dying := true })
      let s := freeArea s (slotDie r) (slotOff r) (slotArea r)
      let s := { s with nameCache := s.nameCache.filter (fun p => p.2 != n) }
      if slotCell r == 0 then s
      else
        let u : CellUpd := ⟨.meeting n, slotDie r, e.owner, ctxSlot s e.owner, slotCell r, m.contribs,
          if late then 1 else 0, if late then 0x24 else 0, 0⟩
        updateCell { s with cells := s.cells ++ [u] } u
    | _ => s
  | none => s

end Sys2Proof.Machine
end

