-- ==== Sys2Proof/Machine/Names.lean ====
section
/-! DEFINITION. The name instructions (R275 to R283) and BANKCFG (R197): records and their checks (R265 to R274,
R296), creation (R276), retirement (R277, R278), names in memory (R280 to R282). -/

namespace Sys2Proof.Machine

open Sys2Proof

def fld (r : BitVec 352) (lo n : Nat) : Nat := (r.extractLsb' lo n).toNat

/-! ### Kernels (R273) -/

/-- A kernel record, decoded; the curve table is read at NNEW (R166). -/
def kernelOf (r : BitVec 352) (table : List (Nat × Nat) × Nat × Nat) : Kernel where
  width := 16 * 2 ^ fld r 154 2
  roles := (List.range (fld r 156 2 + 1)).map (fun j => (fld r (158 + 10 * j) 5 + 1, 32 + 8 * fld r (163 + 10 * j) 5))
  text := BitVec.ofNat 64 (fld r 0 56)
  twords := fld r 56 18 + 1
  data := BitVec.ofNat 64 (fld r 74 56)
  dbytes := fld r 130 24
  scratch := 256 * fld r 198 17
  acc := fld r 215 7
  slateOn := 256 * fld r 222 11
  slateMem := 4096 * fld r 233 20
  callspill := 8 * fld r 253 13
  deadline := fld r 266 16
  curve := fld r 282 3
  band := fld r 285 8 + 1
  tile := table.2
  table := table.1
  replayable := r.getLsbD 317
  trapstore := r.getLsbD 318

def kernelCtable (r : BitVec 352) : Nat := fld r 293 24

/-- The record's own rules (R273). -/
def kernelOk (r : BitVec 352) : Bool :=
  let roles := fld r 156 2 + 1
  let rs := List.range 4
  fld r 319 33 == 0 && fld r 154 2 != 3 &&
  rs.all (fun j => if j < roles then fld r (163 + 10 * j) 5 ≤ 28 else fld r (158 + 10 * j) 10 == 0) &&
  sumOf ((List.range roles).map (fun j => fld r (158 + 10 * j) 5 + 1)) ≤ 32 &&
  fld r 198 17 ≤ 65536 && fld r 215 7 ≤ 64 && fld r 222 11 ≤ 1024 && 1 ≤ fld r 266 16 && fld r 282 3 ≤ 5 &&
  fld r 0 3 == 0 && fld r 74 4 == 0 &&
  (if fld r 282 3 == 5 then kernelCtable r % 4 == 0 && kernelCtable r + 4 ≤ fld r 130 24 else kernelCtable r == 0)

/-- Words of four bytes. -/
def words4 (b : List Byte) : List Nat := (List.range (b.length / 4)).map (fun i => leNat ((b.drop (4 * i)).take 4))
/-- Words of eight bytes, and of sixteen. -/
def words8 (b : List Byte) : List Word :=
  (List.range (b.length / 8)).map (fun i => BitVec.ofNat 64 (leNat ((b.drop (8 * i)).take 8)))
def words16 (b : List Byte) : List Name :=
  (List.range (b.length / 16)).map (fun i => BitVec.ofNat 128 (leNat ((b.drop (16 * i)).take 16)))

/-- The tile of a curve table's first word, when it is legal and the table lies within the data section. -/
def curveTile (r : BitVec 352) (w : Nat) : Option (Nat × Nat) :=
  let x := w % 2 ^ 16
  let y := w / 2 ^ 16 % 2 ^ 16
  if 1 ≤ x && x ≤ 4096 && 1 ≤ y && y ≤ 4096 && x * y ≤ 4096 && kernelCtable r + 4 + 4 * x * y ≤ fld r 130 24 then some (x, y)
  else none

/-- The cells of a curve table, each named once (R166). -/
def curveCells (t : Nat × Nat) (ws : List Nat) : Option (List (Nat × Nat)) :=
  let cs := ws.map (fun w => (w % 2 ^ 16, w / 2 ^ 16 % 2 ^ 16))
  if cs.all (fun c => c.1 < t.1 && c.2 < t.2) && cs.eraseDups.length == t.1 * t.2 then some cs else none

/-! ### The other records -/

/-- R266 and R296, without the region of a circular buffer. -/
def tensorOk (r : BitVec 352) : Bool :=
  let eb := tEb r
  let rank := tRank r
  fld r 350 2 == 0 && fld r 348 2 ≤ 1 && fld r 344 2 ≤ 2 && fmtCodeOk (tFmt r) && tFmt r != 0x05 &&
  (tSfmt r == 0 || tSfmt r == 0x05) && (tSbase r != 0) == tScaled r && (tScaled r || fld r 344 2 == 0) &&
  (List.range 4).all (fun k => if k < rank then 1 ≤ tDim r k else tDim r k == 0) &&
  [1, 2, 3].all (fun k => if k < rank then tStride r k % eb == 0 else tStride r k == 0) && tBase r % eb == 0

/-- R296. -/
def cbOk (s : State) (r : BitVec 352) : Bool :=
  let b := tBase r
  tRank r == 3 && tDim r 2 ≤ 256 && tStride r 2 % 256 == 0 && (tDim r 1 - 1) * tStride r 1 + tDim r 0 * tEb r ≤ tStride r 2 &&
  !tScaled r && b / 2 ^ 48 == 0xFE && b / 2 ^ 24 % 2 ^ 16 == 0 && b / 2 ^ 44 % 16 ≤ 3 && b / 2 ^ 40 % 16 ≤ 7 && b % 256 == 0 &&
  fifoFree s (cbRegion r).1 (cbRegion r).2.1 (cbRegion r).2.2

/-- R267. -/
def pigOk (s : State) (r : BitVec 352) : Bool :=
  let n := pigCap r * 8
  fld r 63 289 == 0 && 1 ≤ pigCap r && pigCap r ≤ 32768 && pigOffset r % 256 == 0 &&
  pigOffset r / 2 ^ 18 == (pigOffset r + n - 1) / 2 ^ 18 && fifoFree s (pigCluster r) (pigOffset r) n

/-- R268. -/
def progRecOk (r : BitVec 352) : Bool :=
  fld r 130 222 == 0 && fld r 72 4 == 0 && fld r 69 3 == 0 && 1 ≤ fld r 56 13 && fld r 56 13 ≤ 4096 && fld r 0 3 == 0

/-- R269. -/
def rollRecOk (r : BitVec 352) : Bool := fld r 71 281 == 0 && 1 ≤ fld r 56 15 && fld r 56 15 ≤ 32766 && fld r 0 4 == 0

/-- R270, R411. -/
def meetingOk (s : State) (r : BitVec 352) : Bool :=
  fld r 192 160 == 0 && slotCell r % 8 == 0 && 1 ≤ slotMembers r && redFmt (slotFmt r) && 1 ≤ slotElems r &&
  slotOff r % 256 == 0 && slotFree s r

/-- R271. -/
def spaceOk (r : BitVec 352) : Bool := fld r 61 291 == 0 && (r.getLsbD 60 || fld r 44 16 == 0) && fld r 0 7 == 0

/-- R272: the space is live, and its owner is one of those allowed. -/
def contextOk (s : State) (owners : List Nat) (r : BitVec 352) : Bool :=
  fld r 290 62 == 0 && 1 ≤ fld r 272 16 && 1 ≤ fld r 248 24 && fld r 192 12 == 0 &&
  match entryOf s (r.extractLsb' 0 128) with
  | some e => !e.dying && nameClass e.name == 1 && owners.contains e.owner
  | none => false

/-- R274, R402: an export's space is live and of the owning context. -/
def windowRecOk (s : State) (owner : Nat) (r : BitVec 352) : Bool :=
  let export_ := r.getLsbD 0
  let same := fun (e : Entry) => nameClass e.name == 6 && !e.dying && e.record.getLsbD 0 == export_ && fld e.record 1 12 == fld r 1 12
  fld r 280 72 == 0 && fld r 94 2 == 0 && fld r 35 40 != 0 && fld r 35 12 == 0 && fld r 1 12 != 4095 &&
  !(s.roster.map Prod.snd).any same &&
  (if export_ then
    fld r 75 16 == 0 && fld r 23 12 == 0 && (!r.getLsbD 93 || fld r 13 10 == 0) &&
    match entryOf s (r.extractLsb' 96 128) with
    | some e => !e.dying && nameClass e.name == 1 && e.owner == owner
    | none => false
  else !r.getLsbD 93 && fld r 224 56 == 0 && fld r 96 128 == 0)

/-! ### Creation (R276) -/

/-- Who creates a name: the owning context, the owners its context's space may have, the creating team, and how
the accesses go on: reading bytes, a page on the fault path, and an address outside the map. -/
structure Maker where
  owner  : Nat
  owners : List Nat
  team   : Nat
  who    : Who

/-- A clean address-space slot (R283). DESIGN CHOICE (entry 86): the lowest that no space holds. -/
def cleanSlot (s : State) : Option Nat :=
  (List.range 4096).find? (fun n => n != 0 && !(s.roster.map Prod.snd).any (fun e => e.obj == .space n))

/-- A free context index (R272). DESIGN CHOICE (entry 86): the lowest. -/
def freeCtx (s : State) : Option Nat := (List.range 64).find? (fun n => (ctxEntry s n).isNone)

/-- Inserts a name (R258): its entry is live. -/
def insertName (s : State) (cls owner : Nat) (rec_ : BitVec 352) (o : Obj) : Name × State :=
  let n : Name := BitVec.ofNat 8 cls ++ s.devno ++ s.serial ++ s.nameCnt
  (n, { s with nameCnt := s.nameCnt + 1, roster := minsert n.toNat ⟨n, false, owner, 0, rec_, o, none⟩ s.roster })

/-- A kernel's text leaves every instruction cache (R207, R273). -/
def dropText (s : State) (slot : Nat) (k : Kernel) : State :=
  let lo := k.text.toNat / 128
  let hi := (k.text.toNat + 8 * k.twords - 1) / 128
  { s with icache := s.icache.filter (fun l => !(l.slot == slot && lo ≤ l.va / 128 && l.va / 128 ≤ hi)) }

/-- Claims the class's resources, its slot or index first and then a roster entry, and inserts the name; or fails with a
reason. -/
def claimName (s : State) (m : Maker) (cls : Nat) (r : BitVec 352) (o : Obj) : Except Nat (Name × State) :=
  let claim := fun (x : Name × State) => if s.roster.length ≥ 2 ^ 24 then Except.error 0x09 else Except.ok x
  match cls with
  | 0x07 => match freeCtx s with
    | none => .error 0x0C
    | some i =>
      let own := fun (e : Entry) => if e.owner == hostOwner then { e with owner := i } else e
      claim (insertName (s.modEntry (r.extractLsb' 0 128) own) cls i r (.context i))
  | 0x01 => match cleanSlot s with
    | none => .error 0x08
    | some i => claim (insertName s cls m.owner r (.space i))
  | _ => claim (insertName s cls m.owner r o)

/-- Writes zero to a page of a new roll's table. -/
def zeroPage (s : State) (slot : Nat) (x : Xlat) (lo hi : Nat) : State :=
  (List.range ((hi - lo) / 16)).foldl (fun s i => putGranule s slot (lo + 16 * i) x (List.replicate 16 0)) s

/-- Writes zero to a new roll's table (R347): every page at once, once each can be written; or the first page
that cannot. -/
inductive Zeroed
  | done (s : State)
  | fault (s : State) (va : Nat)
  | bad (va : Nat)
  | line (l : Nat) (s : State)
deriving DecidableEq, Repr

def zeroTable (s : State) (slot table bytes : Nat) : Zeroed :=
  let pages := (List.range ((table % 4096 + bytes + 4095) / 4096)).map (fun i =>
    (max table (table / 4096 * 4096 + 4096 * i), min (table + bytes) (table / 4096 * 4096 + 4096 * i + 4096)))
  let check := pages.foldl (fun (z : Zeroed) p => match z with
    | .done s =>
      if zoneOf 0 p.1 != .mapped then .bad p.1
      else match translate s slot p.1 .write with
        | (.error _, s) => .fault s p.1
        | (.ok x, s) =>
          if x.peer then .bad p.1
          else match (List.range ((p.2 - p.1) / 128 + 2)).find? (fun i => engineOwns s (lineKey slot (p.1 + 128 * i))) with
            | some i => .line (lineKey slot (p.1 + 128 * i)) s
            | none => .done s
    | z => z) (.done s)
  match check with
  | .done s => .done (pages.foldl (fun s p => match translate s slot p.1 .write with
    | (.ok x, s) => zeroPage s slot x p.1 p.2
    | (.error _, s) => s) s)
  | z => z

/-- The steps of R276 from the image on. `read` reads bytes, `fail` ends with a reason, `done` with the name,
`fault` waits for a page and `bad` meets an address outside the map. -/
def makeName (m : Maker) (cls : Nat) (img : BitVec 384) (read : State → Word → Nat → Nat → (State → List Byte → State) → State)
    (fail : State → Nat → State) (done : State → Name → State) (fault : State → Nat → State) (bad : State → Nat → State)
    (line : State → Nat → State) (s : State) : State :=
  let r : BitVec 352 := img.setWidth 352
  let claim := fun (s : State) (o : Obj) => match claimName s m cls r o with
    | .error e => fail s e
    | .ok (n, s) => done s n
  if img.extractLsb' 352 32 != 0 then fail s 0x07
  else match cls with
    | 0x01 => if spaceOk r then claim s .plain else fail s 0x07
    | 0x02 =>
      if !tensorOk r then fail s 0x07
      else if tCb r then (if cbOk s r then claim s (.cb 0 [] []) else fail s 0x07)
      else claim s .plain
    | 0x03 => if pigOk s r then claim s (.pigeon m.team [] [] []) else fail s 0x07
    | 0x04 =>
      if !progRecOk r then fail s 0x07
      else read s (BitVec.ofNat 64 (fld r 0 56)) 8 (8 * fld r 56 13) fun s steps =>
        read s (BitVec.ofNat 64 (fld r 72 56)) 16 256 fun s table =>
          if cpValid (words16 table) (words8 steps) then
            claim s (.prog ⟨words8 steps, words16 table, 0, 0, 0, false, false, 0⟩)
          else fail s 0x07
    | 0x05 =>
      if !rollRecOk r then fail s 0x07
      else match zeroTable s m.who.slot (fld r 0 56) (16 * fld r 56 15) with
        | .fault s va => fault s va
        | .bad va => bad s va
        | .line l s => line s l
        | .done s => claim s (.roll ⟨false, fld r 0 56, fld r 56 15, [], false⟩)
    | 0x06 => if windowRecOk s m.owner r then claim s .plain else fail s 0x07
    | 0x07 => if contextOk s m.owners r then claim s .plain else fail s 0x07
    | 0x08 =>
      if !kernelOk r then fail s 0x07
      else
        let put := fun (s : State) (t : List (Nat × Nat) × Nat × Nat) =>
          claim (dropText s m.who.slot (kernelOf r t)) (.kernel (kernelOf r t))
        if fld r 282 3 != 5 then put s ([], 0, 0)
        else
          let at_ := BitVec.ofNat 64 (fld r 74 56 + kernelCtable r)
          read s at_ 4 4 fun s hd => match curveTile r (leNat hd) with
            | none => fail s 0x07
            | some t => read s (at_ + 4) 4 (4 * t.1 * t.2) fun s b => match curveCells t (words4 b) with
              | none => fail s 0x07
              | some cs => put s (cs, t)
    | _ => if meetingOk s r then claim s (.meeting ⟨0, [], [], []⟩) else fail s 0x07

/-- A meeting slot whose deadline is past closes at once (R412). -/
def closeIfPast (s : State) (n : Name) : State :=
  match entryOf s n with
  | some e => match e.obj with
    | .meeting _ => if (slotDeadlineOf e.record).toNat ≤ s.time.toNat then closeSlot s n true else s
    | _ => s
  | none => s

/-- The classes only a manager creates (R259). -/
def managerClass (cls : Nat) : Bool := [1, 6, 7, 8].contains cls

/-- NNEW (R276). -/
def execNnew (h : Head) (q : BitVec 3) (kd : BitVec 4) (cls : BitVec 8) (sa : BitVec 6) (s : State) :
    Host.Outcome State Fault Refusal :=
  let k := cls.toNat
  onCur s fun c =>
    match resultGate c .none with
    | some w => blockWord s c w
    | none =>
      let va := c.g.sreg sa.toNat
      let out := fun (s : State) (code : Nat) (n : Name) =>
        reasonDone (dropFetched s (wordKey c.ref)) (refresh s c) h q code [.k kd n]
      if k < 1 || k > 9 then out s 0x06 0
      else if managerClass k && !isManager s c.t.ctx then wordFault s c .priv
      else match deliverFail s c true [] with
        | some s => s
        | none => afterSync c (pinFirst s c) fun s =>
          afterSync (refresh s c) (releaseAt s c.ref c.t.core c.n.x .dev) fun s =>
            let c := refresh s c
            if va.toNat % 16 != 0 then trapAll s c c.n.x .align 0 va
            else withBulk s c h va 16 48 fun s img =>
              let m : Maker := ⟨c.t.ctx, [c.t.ctx], c.t.id, c.who⟩
              makeName m k (BitVec.ofNat 384 (leNat img)) (fun s a al n f => withBulk s (refresh s c) h a al n f)
                (fun s e => out s e 0) (fun s n => closeIfPast (out s 0 n) n)
                (fun s va => blockWord (coreFault s c.who va .write (.lanes c.ref c.n.x)) (refresh s c) .fetch)
                (fun s va => trapAll s (refresh s c) c.n.x .badAddress 0 (BitVec.ofNat 64 va))
                (fun s l => blockWord s (refresh s c) (.line l)) s

/-! ### Retirement -/

/-- The launch stands accepted and has teams that have not ended. -/
def Launch.active (l : Launch) : Bool := l.stage == .waiting || l.stage == .eligible

/-- The object is still in use (R278). -/
def nameInUse (s : State) (e : Entry) : Bool :=
  match e.obj with
  | .roll _ => s.launches.any (fun l => l.active && l.roll == e.name)
  | .kernel _ => s.launches.any (fun l => l.active && l.kname == e.name)
  | .context i => s.launches.any (fun l => l.ctx == i && l.stage != .done) || s.teams.any (fun t => t.ctx == i)
  | .space _ => (s.roster.map Prod.snd).any (fun y => !y.dying && (match y.obj with
    | .context _ => y.record.extractLsb' 0 128 == e.name
    | _ => nameClass y.name == 6 && y.record.getLsbD 0 && y.record.extractLsb' 96 128 == e.name))
  | _ => false

/-- The shoot-down point (R277): the entry is dying, no name cache holds it, and the groups blocked on a
pigeonhole issue again and meet GONE. -/
def shootDown (s : State) (n : Name) (killer : Option (GRef × Nat)) : State :=
  let ws := match entryOf s n with
    | some e => (match e.obj with
      | .pigeon _ _ _ ws => ws.map Prod.fst
      | _ => [])
    | none => []
  let clear := fun (o : Obj) => match o with
    | .pigeon t i a _ => Obj.pigeon t i a []
    | o => o
  let s := s.modEntry n (fun e => { e with dying := true, killer := killer, obj := clear e.obj })
  let s := { s with nameCache := s.nameCache.filter (fun p => p.2 != n) }
  ws.foldl (fun s r => wakeIf s r (fun _ w => w == .push n || w == .pop n) (fun s _ => wake s r)) s

/-- NKILL (R277): its result is owed until NKILL_COMPLETE. -/
def execNkill (h : Head) (q : BitVec 3) (g : Bool) (ka : BitVec 4) (s : State) : Host.Outcome State Fault Refusal :=
  onCur s fun c =>
    let n := c.g.name ka.toNat
    match resultGate c .none, resolve s c.t.ctx n none with
    | some w, _ => blockWord s c w
    | none, .error code => goneDone s c h q g code 0 []
    | none, .ok e =>
      if nameInUse s e then reasonDone s c h q 0x0B []
      else afterSync c (pinFirst s c) fun s =>
        let c := refresh s c
        let id := s.seqN
        finish (shootDown (addPend s c .none false (reasonWs q 0)) n (some (c.ref, id))) c h

/-! ### NRES, NMOV, NINFO (R279) -/

def execNres (h : Head) (q : BitVec 3) (g : Bool) (ka : BitVec 4) (s : State) : Host.Outcome State Fault Refusal :=
  onCur s fun c =>
    let n := c.g.name ka.toNat
    match resolve s c.t.ctx n none with
    | .error code => goneDone s c h q g code 0 []
    | .ok _ => reasonDone (cacheName s c.t.core n) c h q 0 []

def execNmov (h : Head) (q : BitVec 3) (g : Bool) (kd ka : BitVec 4) (s : State) : Host.Outcome State Fault Refusal :=
  onCur s fun c =>
    let n := c.g.name ka.toNat
    match resultGate c .none, resolve s c.t.ctx n none with
    | some w, _ => blockWord s c w
    | none, .ok _ => reasonDone s c h q 0 [.k kd n]
    | none, .error code =>
      if g then trapAll (addPend s c .none true [.k kd n]) (refresh s c) c.n.x .nameGone 0 0
      else reasonDone s c h q code [.k kd n]

/-- The value of a NINFO item. -/
def infoItem (e : Entry) (item : Nat) : Nat :=
  let r := e.record
  match item with
  | 0 => nameClass e.name + 2 ^ 8 + e.owner * 2 ^ 16
  | 1 => match e.obj with
    | .space n => n
    | .context n => n
    | .roll x => x.entries.length
    | .pigeon _ items _ _ => items.length
    | .cb _ res fil => fil.length + res.length * 2 ^ 16
    | .meeting m => m.contribs
    | _ => 0
  | 2 => if nameClass e.name == 2 then tEb r + (16 / tEb r) * 2 ^ 4 else 0
  | n => (r.toNat / 2 ^ (64 * (n - 16))) % 2 ^ 64

def execNinfo (h : Head) (q : BitVec 3) (g : Bool) (ka : BitVec 4) (sd : BitVec 6) (item : BitVec 8) (s : State) :
    Host.Outcome State Fault Refusal :=
  onCur s fun c =>
    let n := c.g.name ka.toNat
    match resolve s c.t.ctx n none with
    | .error code => goneDone s c h q g code 0 []
    | .ok e =>
      let s := match e.obj with
        | .roll _ => flushRoll s n
        | _ => s
      reasonDone s c h q 0 [.s sd (BitVec.ofNat 64 (infoItem e item.toNat))]

/-! ### Names in memory (R280 to R282) -/

/-- The reason with which a name resolves as any class, 0 when live. -/
def resolveCode (s : State) (ctx : Nat) (n : Name) : Nat :=
  match resolve s ctx n none with
  | .error c => c
  | .ok _ => 0

def nameOfGran (g : Gran) : Name := BitVec.ofNat 128 (leNat g.bytes)

/-- Every lane of X consumes the poison of a granule. -/
def eatAll (s : State) (c : Cur) (h : Head) (t : Tag) (va : Word) : State :=
  eatPoison s c h 0 [] ((lanesOf c.n.x).map (fun i => ⟨i, .poison, t, BitVec.ofNat 64 (va.toNat / 16 * 16)⟩))

/-- Sends the one request of a name word to a peer page; its value is owed. -/
def askName (s : State) (c : Cur) (h : Head) (o : MOrd) (x : Xlat) (va : Word) (op : PeerOp) (dst : Nat → PeerDst) : State :=
  match peerTarget s x va.toNat op with
  | none => trapAll s c c.n.x .badAddress 0 va
  | some r =>
    if mget 0 s.peerMake (winPeer r) == 1 then trapAll s c c.n.x .badAddress 0 va
    else if egressFull s (some c.ref) c.t.core x 1 then blockWord s c .peer
    else
      let s' := sendPeer (addPend s c .none false []) (dst s.seqN) c.t.core r x va.toNat op
      finish (if ordAcq o.order then waitFor s' c (.acquire o.scope) else s') c h

/-- NLD. -/
def execNld (h : Head) (q : BitVec 3) (o : MOrd) (kd : BitVec 4) (m : MemOp) (s : State) :
    Host.Outcome State Fault Refusal :=
  memWord s h (fun _ => true) o (fun c => [(memAddr c.g m 0).toNat]) fun c =>
    let va := memAddr c.g m 0
    match resultGate c .none, readFor s c.ref c.who va 16 16 .read false (.lanes c.ref c.n.x) with
    | some w, _ => blockWord s c w
    | none, (.trap x, s) => trapAll s c c.n.x x 0 va
    | none, (.park, s) => settle s c h c.n.x []
    | none, (.line l, s) => blockWord s c (.line l)
    | none, (.peer x, s) => askName s c h o x va (.read 16) (fun id => .name c.n id q kd none va.toNat)
    | none, (.gran g, s) =>
      if g.poison then eatAll s c h g.tag va
      else
        let n := nameOfGran g
        reasonDone (withAcquire s c o) c h q (resolveCode s c.t.ctx n) [.k kd n]

/-- NST. -/
def execNst (h : Head) (q : BitVec 3) (o : MOrd) (kx : BitVec 4) (m : MemOp) (s : State) :
    Host.Outcome State Fault Refusal :=
  memWord s h (fun _ => true) o (fun c => [(memAddr c.g m 0).toNat]) fun c =>
    let n := c.g.name kx.toNat
    let va := memAddr c.g m 0
    match resultGate c .none with
    | some w => blockWord s c w
    | none =>
      withRelease s c (peerOrd s c o [va.toNat]) fun s =>
        let c := refresh s c
        let code := resolveCode s c.t.ctx n
        if o.hint == 2 && code != 0 then trapAll s c c.n.x .nameGone 0 va
        else afterSync c (pinFirst s c) fun s =>
          scalarStore s (refresh s c) h va 16 n.toNat fun s c => reasonDone s c h q code []

/-- Raises or lowers an entry's hold count. -/
def holdName (s : State) (n : Name) (up : Bool) : State :=
  s.modEntry n (fun e => { e with hold := if up then e.hold + 1 else e.hold - 1 })

/-- The compare and exchange of NCAS at its place. -/
def casAt (s : State) (c : Cur) (h : Head) (q : BitVec 3) (o : MOrd) (knew kexp : BitVec 4) (va : Word) (place : Acc189)
    (g0 : Gran) : State :=
  let new := c.g.name knew.toNat
  let key := lineKey c.t.slot va.toNat
  let (bar, s) := match place with
    | .mem _ => rmwBar s c.t.core key o.scope
    | _ => (false, s)
  if bar then blockWord s c (.line key) else
  let (g, s) := match place with
    | .mem x => rmwTake s c.ref c.who x va.toNat o.scope
    | _ => (g0, s)
  if g.poison then eatAll s c h g.tag va
  else
    let old := nameOfGran g
    let same := old == c.g.name kexp.toNat
    let w := laneWrite s.seqN c.ref (firstLane c.n.x) c.t.slot va.toNat 16 new.toNat (zeroTags 16)
    let s := if !same then s else match place with
      | .window loc => performAt s loc true w
      | .mem x => rmwPut s c.who x o.scope w
      | _ => s
    reasonDone (withAcquire s c o) c h q (if same then 0 else 0x0A) [.k kexp old]

/-- NCAS: with .live its name is resolved in the same step. -/
def execNcas (h : Head) (live : Bool) (q : BitVec 3) (o : MOrd) (knew kexp : BitVec 4) (m : MemOp) (s : State) :
    Host.Outcome State Fault Refusal :=
  memWord s h (fun _ => true) o (fun c => [(memAddr c.g m 0).toNat]) fun c =>
    let va := memAddr c.g m 0
    if unbound s c.ref then blockWord s c .peer else
    match resultGate c .none with
    | some w => blockWord s c w
    | none =>
      withRelease s c (peerOrd s c o [va.toNat]) fun s =>
        afterSync (refresh s c) (pinFirst s (refresh s c)) fun s =>
          let s := drainGroup s c.ref
          let c := refresh s c
          let new := c.g.name knew.toNat
          let code := if live then resolveCode s c.t.ctx new else 0
          if code != 0 then
            (if o.hint == 2 then trapAll s c c.n.x .nameGone 0 va else reasonDone s c h q code [])
          else match readFor s c.ref c.who va 16 16 .rmw false (.lanes c.ref c.n.x) with
            | (.trap x, s) => trapAll s c c.n.x x 0 va
            | (.park, s) => settle s c h c.n.x []
            | (.line l, s) => blockWord s c (.line l)
            | (.peer x, s) =>
              let exp := c.g.name kexp.toNat
              let s' := askName s c h o x va (.casName exp new) (fun id => .name c.n id q kexp (some (exp, new, live)) va.toNat)
              if live && s'.peerOut.length > s.peerOut.length then holdName s' new true else s'
            | (.gran g, s) => casAt s c h q o knew kexp va (check189 s c.who va 16 .rmw).1 g

/-! ### BANKCFG (R197) -/

/-- The mode of a bank after reset (R196). -/
def resetMode (bank : Nat) : BankMode := if bank < 48 then .scratch else if bank < 56 then .fifo else .cache

def setBank (s : State) (cluster bank : Nat) (m : BankMode) : State :=
  let k := cluster * 64 + bank
  { s with banks := if m == resetMode bank then merase k s.banks else minsert k m s.banks }

/-- Every byte of a bank 0, every tag 0. -/
def zeroBank (s : State) (cluster bank : Nat) : State :=
  let lo := sramLoc cluster (bank * 2 ^ 18)
  let out := fun (k : Nat) => !(decide (lo ≤ k) && decide (k < lo + 2 ^ 18))
  let outG := fun (k : Nat) => !(decide (lo / 16 ≤ k) && decide (k < lo / 16 + 2 ^ 14))
  { s with mem := s.mem.filter (fun p => out p.1), tags := s.tags.filter (fun p => outG p.1), poison := s.poison.filter (fun p => outG p.1) }

/-- A bank leaves cache mode (R197): the lines that the cluster has owned since a cluster-scope release are written back,
and the cluster cache holds no older copy. DESIGN CHOICE (entry 84): which lines lie in the bank's ways no rule says; all
of the cluster's are taken. -/
def leaveCache (s : State) (cluster : Nat) : State :=
  let mine := s.ev.filter (fun e => e.level == .cluster && clusterOf e.core == cluster)
  let s := (mine.map (fun e => (e.core, e.w.line))).eraseDups.foldl (fun s p => grantLine s p.1 p.2) s
  { s with stale := s.stale.map (fun l => if clusterOf l.core == cluster then { l with cluster := false } else l) }

/-- The bank may leave its mode. -/
def bankFree (s : State) (cluster bank : Nat) : Bool :=
  match bankMode s cluster bank with
  | .cache => true
  | .scratch => !s.teams.any (fun t => !t.saved && clusterOf t.core == cluster && (match s.launch? t.launch with
    | some l => overlaps t.scratch l.kernel.scratch (bank * 2 ^ 18) (2 ^ 18)
    | none => false))
  | .fifo => !(fifoRegions s).any (fun r => r.1 == cluster && overlaps r.2.1 r.2.2 (bank * 2 ^ 18) (2 ^ 18))

def execBankcfg (h : Head) (q : BitVec 3) (sb : BitVec 6) (mode : BankMode) (s : State) :
    Host.Outcome State Fault Refusal :=
  onCur s fun c =>
    if !mayConfigBanks s c.t.ctx then wordFault s c .priv
    else match resultGate c .none with
      | some w => blockWord s c w
      | none => afterSync c (pinFirst s c) fun s =>
        let c := refresh s c
        let b := (c.g.sreg sb.toNat).toNat
        let cl := clusterOf c.t.core
        let out := fun (s : State) (ok : Bool) => resultDone s c h .none [.q q ok]
        if b > 63 then out s false
        else if bankMode s cl b == mode then out s true
        else if !bankFree s cl b then out s false
        else
          let s := setBank (if bankMode s cl b == .cache then leaveCache s cl else s) cl b mode
          out (if mode == .scratch then zeroBank s cl b else s) true

end Sys2Proof.Machine
end

