-- ==== Sys2Proof/Machine/Tile.lean ====
section
/-! DEFINITION. What the engines share: places in memory as an engine sees them (R285, R298), elements of tensor
records (R266), their conversion (R291, R293), tags (R294) and writes, and requests to peers (R421). -/

namespace Sys2Proof.Machine

open Sys2Proof

/-! ### Places -/

/-- Where an engine's access falls. -/
inductive EPlace
  | bad
  | fault
  | window (loc : Nat)
  | mem (x : Xlat)
deriving DecidableEq, Repr

/-- R189 step 1 and the translation of an engine's access. -/
def engPlace (s : State) (w : Who) (va : Nat) (k : AK) : EPlace × State :=
  match check189 s w (BitVec.ofNat 64 va) 1 k with
  | (.window loc, s) => (.window loc, s)
  | (.mem x, s) => (.mem x, s)
  | (.fault _, s) => (.fault, s)
  | (_, s) => (.bad, s)

/-- What an engine's read finds. `wait` is a page on the fault path, `ask` a peer's bytes not yet received, `busy` a
line that other engine work is still to write. -/
inductive ERead
  | val (x : Nat) (t : Tag) (poison : Bool)
  | bad
  | wait (va : Nat)
  | ask (va : Nat) (x : Xlat)
  | busy
deriving DecidableEq, Repr

/-- Whose read it is: a command's, an MMA's, a run's step's with the turn at which it took its lines, or the device's
for a launch. -/
inductive Reader
  | cmd (n : Nat)
  | mma (n : Nat)
  | run (n turn : Nat)
  | launch (n : Nat)
deriving DecidableEq, Repr

/-- The key under which its peer data is kept. -/
def Reader.owner : Reader → Nat
  | .cmd n | .mma n | .run n _ | .launch n => n

/-- What it waits as on the fault path. -/
def Reader.waiter : Reader → Waiter
  | .cmd n => .cmd n
  | .mma n => .mma n
  | .run n _ => .run n
  | .launch n => .launch n

/-- It reads on behalf of a core, whose released stores it sees (R256, R314). -/
def Reader.ofCore : Reader → Bool
  | .cmd _ | .mma _ => true
  | .run .. | .launch _ => false

/-- A line that other engine work owns and is still to write holds a read back (R20, R286). DESIGN CHOICE (entry 83): of
two commands or steps, the one that took its lines later waits for the other. -/
def heldFrom (s : State) (rd : Reader) (k : Nat) : Bool :=
  let ahead := fun (turn : Nat) => match rd with
    | .cmd n | .run _ n => decide (turn < n)
    | _ => true
  s.cmds.any (fun c => ahead c.id && c.lines.any (sameLine s k)) ||
  s.runs.any (fun r => ahead r.turn && r.lines.any (sameLine s k))

/-- Owner keys of poison-marked peer data. -/
def poisonKey (owner : Nat) : Nat := 2 ^ 70 + owner

/-- Bytes received from a peer for an owner that cover an access. -/
def fetchedPart (s : State) (owner va n : Nat) : Option Nat := (fetchedAt s owner va n).map leNat

/-- The granule of a read at its home, with the released stores of the core it reads for (R256, R314). -/
def homeGran (s : State) (rd : Reader) (w : Who) (va : Nat) (x : Xlat) : Gran :=
  if rd.ofCore then engineGran s w.core w.slot va x
  else
    let g := granAt s (x.loc va)
    { g with tag := if x.tagged then g.tag else 0 }

/-- An engine reads `n` bytes of one granule. -/
def engRead (s : State) (rd : Reader) (w : Who) (va n : Nat) : ERead × State :=
  let val := fun (g : Gran) => ERead.val (g.slice (va % 16) n) g.tag g.poison
  if waitsPage s w.slot va rd.waiter then (.wait va, s)
  else match engPlace s w va .read with
  | (.bad, s) => (.bad, s)
  | (.fault, s) => (.wait va, s)
  | (.window loc, s) => if heldFrom s rd (granKey loc) then (.busy, s) else (val (granAt s loc), s)
  | (.mem x, s) =>
    if x.peer then
      match fetchedPart s rd.owner va n, fetchedPart s (poisonKey rd.owner) va n with
      | some v, _ => (.val v 0 false, s)
      | none, some v => (.val v 0 true, s)
      | none, none => (.ask va x, s)
    else if heldFrom s rd (lineKey w.slot va) then (.busy, s)
    else
      let s := aliasFill s w.slot va x
      (val (homeGran s rd w va x), s)

/-! ### Elements (R266) -/

/-- The address of an element, modulo 2^64. -/
def elemAddr (r : BitVec 352) (i : List Nat) : Nat :=
  (tBase r + i.getD 0 0 * tEb r + i.getD 1 0 * tStride r 1 + i.getD 2 0 * tStride r 2 + i.getD 3 0 * tStride r 3) % 2 ^ 64

/-- The extent of a dimension; 1 above the rank. -/
def tExt (r : BitVec 352) (k : Nat) : Nat := if k < tRank r then tDim r k else 1

/-- The address of an element's scale. -/
def scaleAddr (r : BitVec 352) (i : List Nat) : Nat :=
  let b := tSblock r
  (tSbase r + ((i.getD 3 0 * tExt r 2 + i.getD 2 0) * tExt r 1 + i.getD 1 0) * ((tDim r 0 + b - 1) / b) + i.getD 0 0 / b) % 2 ^ 64

/-- An element lies in the record. -/
def elemInside (r : BitVec 352) (i : List Nat) : Bool := (List.range 4).all (fun k => i.getD k 0 < tExt r k)

/-- One source element: its bits, its value (R291), its granule's tag and poison. -/
structure SrcEl where
  bits   : Nat
  v      : FV
  tag    : Tag
  poison : Bool
deriving DecidableEq, Repr

/-- A value times 2^(s - 127); a scale of 0xFF makes it NaN (R291). -/
def scaledFV (v : FV) (s : Nat) : FV :=
  if s == 0xFF then .nan false 0
  else match v with
    | .fin n m e => .fin n m (e + (s : Int) - 127)
    | v => v

/-- Reads one element of a record; outside it, +0 with tag 0 (R289). -/
def readRaw (s : State) (rd : Reader) (w : Who) (r : BitVec 352) (i : List Nat) : (Except ERead SrcRaw) × State :=
  if !elemInside r i then (.ok ⟨zeroF (fmtOf (tFmt r)) false, none, 0, false⟩, s)
  else match engRead s rd w (elemAddr r i) (tEb r) with
    | (.val x t p, s) =>
      if tScaled r then
        match engRead s rd w (scaleAddr r i) 1 with
        | (.val y _ q, s) => (.ok ⟨x, some y, t, p || q⟩, s)
        | (e, s) => (.error e, s)
      else (.ok ⟨x, none, t, p⟩, s)
    | (e, s) => (.error e, s)

/-- The element that its bits and scale make. -/
def rawEl (r : BitVec 352) (x : SrcRaw) : SrcEl :=
  let v := decF (fmtOf (tFmt r)) x.bits
  ⟨x.bits, match x.scale with
    | some y => scaledFV v y
    | none => v, x.tag, x.poison⟩

/-- Reads one element with its value. -/
def readEl (s : State) (rd : Reader) (w : Who) (r : BitVec 352) (i : List Nat) : (Except ERead SrcEl) × State :=
  match readRaw s rd w r i with
  | (.ok x, s) => (.ok (rawEl r x), s)
  | (.error e, s) => (.error e, s)

/-- The element as the destination stores it, and whether its conversion is exceptional (R291). -/
def convertEl (src : BitVec 352) (dst : BitVec 8) (rd : Rd) (x : SrcEl) : Nat × Bool :=
  if tFmt src == dst && !tScaled src then (x.bits, false)
  else
    let f := fmtOf (tFmt src)
    convertFV f.fb (f.floating || tScaled src) (fmtOf dst) rd x.v

/-! ### Writing -/

/-- One element, or one scale byte, to write: its index in the box, its bytes, and the tag its word takes from it. -/
structure DstEl where
  e      : Nat
  va     : Nat
  n      : Nat
  x      : Nat
  tag    : TagSrc
  poison : Bool
deriving DecidableEq, Repr

/-- The words an element touches. -/
def DstEl.words (d : DstEl) : List Nat := (List.range ((d.va % 4 + d.n + 3) / 4)).map (fun i => d.va / 4 * 4 + 4 * i)

/-- The tag of a word (R294): a birth with E; else the first tag with E; else that of the lowest element. -/
def wordTagOf (l : List TagSrc) : TagSrc :=
  if l.contains (.born true) then .born true
  else match l.find? (fun t => match t with
    | .known t => t.msb
    | .born _ => false) with
    | some t => t
    | none => l.headD (.born false)

/-- Elements in address order. -/
def insertEl (d : DstEl) : List DstEl → List DstEl
  | [] => [d]
  | x :: r => if d.va < x.va then d :: x :: r else x :: insertEl d r

/-- The writes of elements to one granule: bytes, with a later element over an earlier one, and each word's tag. -/
def granBytes (ds : List DstEl) : List (Nat × Byte) :=
  ds.foldl (fun l d => ((natBytes d.n d.x).mapIdx (fun i b => (d.va % 16 + i, b))).foldl (fun l p => minsert p.1 p.2 l) l) []
def granTags (handle : Nat) (ds : List DstEl) : List (Nat × Tag) :=
  let sorted := ds.foldr insertEl []
  let ws := (sorted.flatMap DstEl.words).eraseDups
  ws.foldl (fun l w => minsert (w % 16) (TagSrc.tag handle (wordTagOf ((sorted.filter (fun d => d.words.contains w)).map (·.tag)))) l) []

/-- Whether any word of the granules is born. -/
def anyBorn (ds : List DstEl) : Bool :=
  ds.any (fun d => d.words.any (fun w => TagSrc.isBorn (wordTagOf (((ds.foldr insertEl []).filter (fun y => y.words.contains w)).map (·.tag)))))

/-- The granules that elements fall in. -/
def elGrans (ds : List DstEl) : List Nat := (ds.map (fun d => d.va / 16 * 16)).eraseDups
def elsOf (ds : List DstEl) (g : Nat) : List DstEl := ds.filter (fun d => d.va / 16 * 16 == g)

/-- Performs an engine's write at a location; a write made of poisoned sources leaves the granule poisoned (R298). -/
def engPut (s : State) (loc : Nat) (tagged : Bool) (bytes : List (Nat × Byte)) (tags : List (Nat × Tag)) (poison : Bool) : State :=
  let s := performAt s loc tagged ⟨0, ⟨0, 0⟩, 0, 0, loc / 16 * 16, bytes, tags, none, false, []⟩
  if poison then poisonAt s [loc / 16] else s

/-- Performs an engine's write of a granule at a place: a line's write goes by its name, and makes the line dirty
(R209, R213). -/
def engPutAt (s : State) (slot : Nat) (p : EPlace) (va : Nat) (bytes : List (Nat × Byte)) (tags : List (Nat × Tag))
    (poison : Bool) : State :=
  match p with
  | .window loc => engPut s loc true bytes tags poison
  | .mem x =>
    if x.peer then s
    else
      let s := performLine (aliasFill s slot va x) slot x ⟨0, ⟨0, 0⟩, 0, slot, va / 16 * 16, bytes, tags, none, false, []⟩
      if poison then poisonAt s [x.loc va / 16] else s
  | _ => s

/-- Performs elements' writes at one granule of a place. -/
def putGranEls (s : State) (slot : Nat) (p : EPlace) (va handle : Nat) (ds : List DstEl) : State :=
  engPutAt s slot p va (granBytes ds) (granTags handle ds) (ds.any (·.poison))

/-- One of each run of equal numbers. -/
def squeeze : List Nat → List Nat
  | a :: b :: r => if a == b then squeeze (b :: r) else a :: squeeze (b :: r)
  | l => l

/-- The granules of some addresses. -/
def gransOf (vas : List Nat) : List Nat := squeeze (vas.map (fun va => va / 16 * 16))

/-- What names a granule among an engine's sources and destinations: its place, or its address on the fault path. -/
def granName (s : State) (core slot va : Nat) : Nat × Nat := (placeOf s core slot va).getD (2 ^ 64 + slot, va / 16)

/-- The lines, and window granules, of a command's or step's local destination (R285). -/
def ownKeys (s : State) (w : Who) (vas : List Nat) : List Nat :=
  ((gransOf vas).filterMap (fun va => match zoneOf w.core va with
    | .bad => none
    | .window cl off => some (granKey (sramLoc cl off))
    | .mapped => match translatePure s w.slot va .write with
      | .ok (x, _) => if x.peer then none else some (lineKey w.slot va)
      | .error _ => some (lineKey w.slot va))).eraseDups

/-- The home hands a line to an engine: every holder's writes are performed and no copy remains (R20). -/
def takeLine (s : State) (k : Nat) : State := if k ≥ 2 ^ 80 then s else recallLine s k

/-! ### Peers -/

/-- A read of a peer's bytes for an engine: those of one aligned block of 256 bytes that `vas` name (R421). -/
def askBlock (s : State) (core : Nat) (dst : Nat → PeerDst) (x : Xlat) (vas : List (Nat × Nat)) (va : Nat) : Except Nat State :=
  let blk := vas.filter (fun p => p.1 / 256 == va / 256)
  let lo := blk.foldl (fun m p => min m p.1) va
  let hi := blk.foldl (fun m p => max m (p.1 + p.2)) (va + 1)
  match peerTarget s x lo (.read (hi - lo)) with
  | none => .error 0x44
  | some r =>
    if !(winPorts r).any (fun i => s.portsUp.contains i) then .error 0x41
    else if egressFull s none core x 1 then .ok s
    else .ok (sendPeer s (dst lo) core r x lo (.read (hi - lo)))

/-- A command, an MMA or a step has a peer request on its way. -/
def askedPeer (s : State) (owner : Nat) : Bool := s.peerOut.any (fun p => match p.dst with
  | .cmd n _ | .mma n _ => n == owner
  | _ => false)

/-- The E bit an element's word leaves to a peer (R356). -/
def DstEl.e1 (d : DstEl) : Bool :=
  match d.tag with
  | .known t => t.msb
  | .born e => e

/-- The elements of a peer destination that go in one request: consecutive elements at rising addresses within one
aligned block of 256 bytes, alike in E. -/
def peerRun : List DstEl → List DstEl
  | [] => []
  | [d] => [d]
  | d :: d2 :: r => if d2.va == d.va + d.n && d2.va / 256 == d.va / 256 && d.e1 == d2.e1 then d :: peerRun (d2 :: r) else [d]

/-- The bytes of a run of elements. -/
def runBytes (ds : List DstEl) : List Byte := ds.flatMap (fun d => natBytes d.n d.x)

end Sys2Proof.Machine
end

