-- ==== Sys2Proof/Machine/Engine.lean ====
section
/-! DEFINITION. The copy and transform engines (R284 to R305): issue, start, the box of a command, XFORM.dec, and the
end of a command. -/

namespace Sys2Proof.Machine

open Sys2Proof

/-! ### The box (R289) -/

/-- The index of each dimension in an origin register. -/
def originOf (w : Word) : List Nat :=
  [(w.extractLsb' 0 24).toNat, (w.extractLsb' 24 24).toNat, (w.extractLsb' 48 8).toNat, (w.extractLsb' 56 8).toNat]

/-- The destination origin of a command; a permutation's is 0. -/
def Cmd.dorg (c : Cmd) : List Nat := if c.kind == .perm || tCb c.drec then [0, 0, 0, 0] else originOf c.sa

/-- The box's extents. -/
def boxExt (kind : CmdKind) (drec : BitVec 352) (sa : Word) : List Nat :=
  let o := if kind == .perm || tCb drec then [0, 0, 0, 0] else originOf sa
  (List.range 4).map (fun k =>
    if tCb drec then (if k < 2 then tDim drec k else 1)
    else if k < tRank drec then tDim drec k - o.getD k 0 else 1)
def Cmd.ext (c : Cmd) : List Nat := boxExt c.kind c.drec c.sa
def boxSize (e : List Nat) : Nat := e.getD 0 1 * e.getD 1 1 * e.getD 2 1 * e.getD 3 1

/-- The coordinates of a box index, dimension 0 fastest. -/
def boxCoord (x : List Nat) (e : Nat) : List Nat :=
  let a := x.getD 0 1
  let b := x.getD 1 1
  let c := x.getD 2 1
  [e % a, e / a % b, e / (a * b) % c, e / (a * b * c)]

def addCoord (o j : List Nat) : List Nat := (List.range 4).map (fun k => o.getD k 0 + j.getD k 0)

/-- The source dimension that destination dimension `k` of a permutation runs along. -/
def permDim (sa : Word) (k : Nat) : Nat := (sa.extractLsb' (2 * k) 2).toNat

/-- The source element of a box element. -/
def Cmd.srcIdx (c : Cmd) (j : List Nat) : List Nat :=
  let o := originOf c.sb
  match c.kind with
  | .perm => (List.range 4).map (fun d =>
      match (List.range (tRank c.drec)).find? (fun k => permDim c.sa k == d) with
      | some k => o.getD d 0 + j.getD k 0
      | none => o.getD d 0)
  | _ => addCoord o (if c.tr then [j.getD 1 0, j.getD 0 0, j.getD 2 0, j.getD 3 0] else j)

/-- The address of a box element's destination. -/
def Cmd.dstVa (c : Cmd) (j : List Nat) : Nat :=
  if tCb c.drec then
    (tBase c.drec + (c.cbSlot.getD 0) * tStride c.drec 2 + j.getD 1 0 * tStride c.drec 1 + j.getD 0 0 * tEb c.drec) % 2 ^ 64
  else elemAddr c.drec (addCoord c.dorg j)

/-! ### Issue (R288, R290) -/

def State.modCmd (s : State) (n : Nat) (f : Cmd → Cmd) : State :=
  { s with cmds := s.cmds.map (fun c => if c.id == n then f c else c) }
def State.cmd? (s : State) (n : Nat) : Option Cmd := s.cmds.find? (fun c => c.id == n)

/-- The die of an engine, and its queue. -/
def engDie : EngRef → Nat
  | .copy cl => cl / 8
  | .xform d _ => d
def engRoom (s : State) (e : EngRef) : Bool :=
  (s.cmds.filter (fun c => c.eng == e)).length < (match e with
    | .copy _ => 64
    | .xform .. => 32)

/-- The engine of a command (R284). -/
def engineOf (kind : CmdKind) (core : Nat) : EngRef :=
  match kind with
  | .copy => .copy (clusterOf core)
  | _ => .xform (dieOf core) (clusterOf core % 8 % 2)

/-- Check 3: the destination origin. -/
def coordOk (kind : CmdKind) (d : BitVec 352) (sa : Word) : Bool :=
  if kind == .perm then sa.extractLsb' 8 56 == 0
  else if tCb d then sa == 0
  else (List.range 4).all (fun k => (originOf sa).getD k 0 < tExt d k)

/-- The shape rules of .tr (R292). -/
def trOk (d r : BitVec 352) (sa sb : Word) (ext : List Nat) : Bool :=
  let g := 16 / tEb d
  let m := fun (x : Nat) => x % g == 0
  let o := originOf sa
  let p := originOf sb
  tRank d ≥ 2 && tRank r ≥ 2 && tEb d == tEb r && tBase d % 16 == 0 && tBase r % 16 == 0 && tStride d 1 % 16 == 0 &&
  tStride r 1 % 16 == 0 && m (o.getD 0 0) && m (o.getD 1 0) && m (p.getD 0 0) && m (p.getD 1 0) && m (ext.getD 0 1) && m (ext.getD 1 1)

def byteFmt (r : BitVec 352) : Bool := tRank r == 1 && (tFmt r == 0x08 || tFmt r == 0x09)

/-- Check 4: the shape. -/
def shapeOk (kind : CmdKind) (tr : Bool) (d r : BitVec 352) (sa sb : Word) : Bool :=
  let ext := boxExt kind d sa
  let rank := tRank d
  let scales := !tScaled d || kind == .fill || kind == .dec || kind == .perm || (originOf sa).getD 0 0 % tSblock d == 0
  boxSize ext < 2 ^ 32 && (kind == .fill || !tCb r) && (!tr || trOk d r sa sb ext) && scales &&
  match kind with
  | .dec => byteFmt d && byteFmt r
  | .perm =>
    !tCb d && ((List.range rank).map (permDim sa)).eraseDups.length == rank &&
    (List.range 4).all (fun k => k < rank || permDim sa k == 0)
  | _ => true

/-- The destination addresses of the box elements from index `lo` to below `hi`: elements, and scales. -/
def cmdVas (c : Cmd) (lo hi : Nat) : List Nat :=
  let ext := c.ext
  let js := (List.range (hi - lo)).map (fun i => boxCoord ext (lo + i))
  let scales := tScaled c.drec && (c.kind == .copy || c.kind == .cvt || c.kind == .perm)
  js.map c.dstVa ++ (if scales then js.map (fun j => scaleAddr c.drec (addCoord c.dorg j)) else [])

/-- Keeps the 8 most recent commands of a group (R300). -/
def keepX (l : List XRec) (x : XRec) : List XRec := (x :: l).take 8

def Cmd.who (c : Cmd) : Who := ⟨c.core, c.ctx, c.slot⟩

/-- The lines, and window granules, of those elements' destinations. -/
def cmdKeys (s : State) (c : Cmd) (lo hi : Nat) : List Nat :=
  if tCb c.drec then (gransOf (cmdVas c lo hi)).map (fun va => granKey (sramLoc (cbRegion c.drec).1 (va % 2 ^ 24)))
  else ownKeys s c.who (cmdVas c lo hi)

/-- A command enters its engine's queue (R285); the engine keeps the names it resolved (R264). -/
def enqueueCmd (s : State) (c : Cur) (x : Cmd) : State :=
  let lines := if tCb x.drec then [] else cmdKeys s x 0 (boxSize x.ext)
  let s := lines.foldl takeLine s
  let s := cacheName s (engineCache x.eng) x.dname
  let s := if x.kind == .fill then s else cacheName s (engineCache x.eng) x.sname
  c.mod (wakeIslands { s with cmds := s.cmds ++ [{ x with lines := lines }] })
    (fun g => { g with xrec := keepX g.xrec ⟨x.cell, x.id, false, 0, 0⟩ })

/-- The cell check of R290. -/
inductive CellCheck
  | ok
  | trap (c : Cause)
  | page
deriving DecidableEq, Repr

def checkCell (s : State) (w : Who) (cell : Word) : CellCheck × State :=
  if cell == 0 then (.ok, s)
  else match check189 s w cell 8 .rmw with
    | (a, s) => match cellPlace a with
      | .badAddress => (.trap .badAddress, s)
      | .align => (.trap .align, s)
      | .fault _ => (.page, s)
      | _ => (.ok, s)

/-- XCOPY and XFORM at issue. DEDUCED (entry 24): a cell whose page needs the fault path is waited for by the group, which
does not park: R214's list does not name these words. -/
def engineWord (s : State) (h : Head) (kind : CmdKind) (x : XArgs) : Host.Outcome State Fault Refusal :=
  onCur s fun c =>
    let sreg := fun (r : BitVec 6) => c.g.sreg r.toNat
    let cell := sreg x.sc
    let dn := c.g.name x.kx.toNat
    let sn := if kind == .fill then 0 else c.g.name x.ky.toNat
    match resultGate c .none with
    | some w => blockWord s c w
    | none => match resolve s c.t.ctx dn (some 2) with
      | .error code => goneDone s c h x.q x.g code 0 []
      | .ok d =>
        let src := if kind == .fill then Except.ok d else resolve s c.t.ctx sn (some 2)
        match src with
        | .error code => goneDone s c h x.q x.g code 0 []
        | .ok r => match checkCell s c.who cell with
          | (.trap y, s) => trapAll s c c.n.x y 0 cell
          | (.page, s) => blockWord (coreFault s c.who cell.toNat .rmw (.lanes c.ref c.n.x)) c .page
          | (.ok, s) =>
            if !coordOk kind d.record (sreg x.sa) then reasonDone s c h x.q 0x30 []
            else if !shapeOk kind x.tr d.record r.record (sreg x.sa) (sreg x.sb) then reasonDone s c h x.q 0x31 []
            else if !engRoom s (engineOf kind c.t.core) then blockWord s c (.engine (engineOf kind c.t.core))
            else afterSync c (pinFirst s c) fun s =>
              let c := refresh s c
              let cmd : Cmd :=
                { id := s.seqN, eng := engineOf kind c.t.core, kind := kind, g := c.ref, core := c.t.core, ctx := c.t.ctx
                  slot := c.t.slot, dname := dn, sname := sn, drec := d.record, srec := r.record, sa := sreg x.sa
                  sb := sreg x.sb, rnd := x.rnd, sat := x.sat, tr := x.tr, cell := cell, start := x.ts.map sreg
                  site := c.n.pc, stage := .queued, late := false, full := none, cbSlot := none, got := []
                  offset := 0, poisoned := false, stop := none, lines := [], ack := none, birth := birthOf s c.ref, handle := none
                  emul := false }
              let s := enqueueCmd { s with seqN := s.seqN + 1 } c cmd
              reasonDone s (refresh s c) h x.q 0 []

def execXcopy (h : Head) (x : XArgs) (s : State) : Host.Outcome State Fault Refusal := engineWord s h .copy x
def execXformDec (h : Head) (x : XArgs) (s : State) : Host.Outcome State Fault Refusal := engineWord s h .dec x
def execXformPerm (h : Head) (x : XArgs) (s : State) : Host.Outcome State Fault Refusal := engineWord s h .perm x
def execXformCvt (h : Head) (x : XArgs) (s : State) : Host.Outcome State Fault Refusal := engineWord s h .cvt x
def execXformFill (h : Head) (x : XArgs) (s : State) : Host.Outcome State Fault Refusal := engineWord s h .fill x

/-- The status word (R299). -/
def Cmd.status (c : Cmd) : Nat :=
  (if c.late then 0x100 else 0) + (match c.stop with
    | some k => k
    | none => if c.poisoned then 0x45 else 0)

/-- XSTAT's value (R300): a command that has not ended is read where it stands. -/
def xstatWord (s : State) (l : List XRec) (cell : Word) : Word :=
  match l.find? (fun x => x.cell == cell) with
  | some x =>
    let (offset, status) := match x.done, s.cmd? x.cmd with
      | false, some c => (c.offset, c.status)
      | _, _ => (x.offset, x.status)
    BitVec.ofNat 64 (offset * 2 ^ 32 + (if x.done then 2 ^ 16 else 0) + status)
  | none => BitVec.allOnes 64

def execXstat (h : Head) (sa sc : BitVec 6) (s : State) : Host.Outcome State Fault Refusal :=
  resultWord s h fun c => [.s sa (xstatWord s c.g.xrec (c.g.sreg sc.toNat))]

/-! ### Start (R284, R295, R297) -/

/-- The first command of an engine that has not begun. -/
def headCmd (s : State) (e : EngRef) : Option Cmd := s.cmds.find? (fun c => c.eng == e && c.stage != .running)

def inProgress (s : State) (e : EngRef) : Nat := (s.cmds.filter (fun c => c.eng == e && c.stage == .running)).length

/-- A circular buffer's state. -/
def cbOf (s : State) (n : Name) : Option (Nat × List (Nat × Bool) × List Nat) :=
  match entryOf s n with
  | some e => (match e.obj with
    | .cb p r f => some (p, r, f)
    | _ => none)
  | none => none

/-- The granule keys of a circular buffer's slot. -/
def slotKeys (r : BitVec 352) (i : Nat) : List Nat :=
  let (cl, off, _) := cbRegion r
  (List.range (tStride r 2 / 16)).map (fun j => granKey (sramLoc cl (off + i * tStride r 2 + 16 * j)))

/-- A command begins, reserving its slot of a circular buffer, or waits for one. -/
def beginCmd (s : State) (c : Cmd) (late : Bool) : State :=
  let run := fun (s : State) (f : Cmd → Cmd) => s.modCmd c.id (fun c => f { c with stage := .running, late := late })
  if tCb c.drec then
    match cbOf s c.dname with
    | some (p, r, f) =>
      let n := tDim c.drec 2
      if r.length + f.length < n then
        let s := s.modEntry c.dname (fun e => { e with obj := .cb ((p + 1) % n) (r ++ [(p, false)]) f })
        run s (fun c => { c with cbSlot := some p, full := none, lines := slotKeys c.drec p })
      else s.modCmd c.id (fun c => { c with full := some (c.full.getD s.time) })
    | none => s
  else run s id

/-- The command at the head of an engine's queue begins, or waits for its start time. -/
def execEngineCommandStart (e : EngRef) (s : State) : Host.Outcome State Fault Refusal :=
  .next (match headCmd s e with
    | some c =>
      if inProgress s e ≥ 4 || c.stage == .held then s
      else match c.start with
        | some t =>
          if c.full.isSome then beginCmd s c c.late
          else if s.time.toNat < t.toNat then s.modCmd c.id (fun c => { c with stage := .held })
          else beginCmd (s.modCmd c.id (fun c => { c with late := true })) c true
        | none => beginCmd s c false
    | none => s)

/-- TIME has reached a waiting command's start time. -/
def execEngineStartTime (e : EngRef) (s : State) : Host.Outcome State Fault Refusal :=
  .next (match headCmd s e with
    | some c =>
      if c.stage == .held && inProgress s e < 4 && (c.start.getD 0).toNat ≤ s.time.toNat then
        beginCmd (s.modCmd c.id (fun c => { c with stage := .queued, start := none })) c false
      else s
    | none => s)

/-! ### The work of a command -/

/-- What stops or delays a command at an element: `busy` is other work that comes first. -/
inductive Halt
  | stop (code : Nat)
  | wait (va : Nat) (k : AK)
  | ask (va : Nat) (x : Xlat)
  | busy
deriving DecidableEq, Repr

def haltOf : ERead → Halt
  | .bad => .stop 0x44
  | .wait va => .wait va .read
  | .ask va x => .ask va x
  | .busy => .busy
  | .val .. => .stop 0x44

/-- The stop a halt makes for a command that a refused page or a failed peer access has already stopped. -/
def Halt.code (h : Halt) (stopped : Option Nat) : Option Nat :=
  match h with
  | .stop c => some c
  | .busy => none
  | _ => stopped

/-- A fill's value, as its elements hold it. -/
def fillBits (c : Cmd) : Nat := c.sb.toNat % 2 ^ (8 * tEb c.drec)

/-! ### Forming elements (R291, R293) -/

/-- The destination element of a source element, unscaled. -/
def plainEl (c : Cmd) (ext : List Nat) (p : Nat × SrcEl) : DstEl :=
  let (z, exc) := convertEl c.srec (tFmt c.drec) ⟨c.rnd, c.sat, 0, 0⟩ p.2
  ⟨p.1, c.dstVa (boxCoord ext p.1), tEb c.drec, z, if exc then .born true else .known p.2.tag, p.2.poison⟩

/-- The largest magnitude of some values as m · 2^e. -/
def maxMagOf (l : List FV) : Nat × Int :=
  l.foldl (fun m v => match v with
    | .fin _ a e => if leScaled a e m.1 m.2 then m else (a, e)
    | _ => m) (0, 0)

/-- One scale block of a scaled destination (R293): its elements and its scale byte. -/
def scaleBlock (c : Cmd) (ext : List Nat) (l : List (Nat × SrcEl)) : List DstEl :=
  let f := fmtOf (tFmt c.drec)
  let rd : Rd := ⟨c.rnd, c.sat, 0, 0⟩
  let bad := l.any (fun p => p.2.v.special)
  let (m, me) := maxMagOf (l.map (fun p => p.2.v))
  let x := if bad then 0xFF else decScale f m me
  let els := l.map (fun p =>
    let (z, exc) : Nat × Bool := if bad then (f.nan, true) else match p.2.v with
      | .fin n a e => roundTo f rd n a 1 (e + 127 - (x : Int))
      | _ => (f.nan, true)
    (⟨p.1, c.dstVa (boxCoord ext p.1), tEb c.drec, z, if exc then .born true else .known p.2.tag, p.2.poison⟩ : DstEl))
  match l with
  | [] => []
  | p :: _ => els ++ [⟨p.1, scaleAddr c.drec (addCoord c.dorg (boxCoord ext p.1)), 1, x, .born bad, l.any (fun p => p.2.poison)⟩]

/-- The blocks of indexed elements, each a row's next `b` elements. -/
def blocksOf {α : Type} (b row : Nat) (l : List (Nat × α)) : List (List (Nat × α)) :=
  let key := fun (p : Nat × α) => p.1 / row * row + p.1 % row / b * b
  (squeeze (l.map key)).map (fun k => l.filter (fun p => key p == k))

/-- The destination elements of source elements with their box indexes. -/
def dstEls (c : Cmd) (ext : List Nat) (l : List (Nat × SrcEl)) : List DstEl :=
  if tScaled c.drec then (blocksOf (tSblock c.drec) (ext.getD 0 1) l).flatMap (scaleBlock c ext) else l.map (plainEl c ext)

/-! ### Writing the box -/

/-- Spilled writes of a page are still to be performed: a later write of the engine on the page goes behind them
(R305). -/
def spillsOn (s : State) (e : EngRef) (slot va : Nat) : Bool :=
  s.spills.any (fun x => x.va / 4096 == va / 4096 && match s.cmd? x.cmd with
    | some y => y.eng == e && y.slot == slot
    | none => false)

/-- A destination's place: a circular buffer's slot lies in its bank. -/
def Cmd.place (s : State) (c : Cmd) (va : Nat) : EPlace × State :=
  if tCb c.drec then (.window (sramLoc (cbRegion c.drec).1 (va % 2 ^ 24)), s)
  else if waitsPage s c.slot va (.cmd c.id) || spillsOn s c.eng c.slot va then (.fault, s)
  else engPlace s c.who va .write

/-- A command has done what it can up to its offset, and no peer write of it is on its way. -/
def Cmd.boxDone (s : State) (c : Cmd) : Bool := c.ack == some c.offset && !askedPeer s c.id

/-- The granules that earlier commands of the group on the engine are still to write: they are written first (R287). -/
def aheadOfCmd (s : State) (c : Cmd) : List (Nat × Nat) :=
  (s.cmds.filter (fun y => y.g == c.g && y.eng == c.eng && y.id < c.id && !tCb y.drec)).flatMap (fun y =>
    ((if y.boxDone s then [] else gransOf (cmdVas y y.offset (boxSize y.ext))) ++
      (s.spills.filter (fun x => x.cmd == y.id)).map (·.va)).map (granName s y.core y.slot))

/-- Bytes in an engine's spill buffer. -/
def spillUse (s : State) (e : EngRef) : Nat :=
  sumOf ((s.spills.filter (fun x => match s.cmd? x.cmd with
    | some c => c.eng == e
    | none => false)).map (fun x => x.bytes.length))

/-- Bytes that a command may still spill (R305); a copy engine spills none. -/
def spillRoom (s : State) (c : Cmd) : Nat :=
  match c.eng with
  | .xform .. => if c.stop == some 0x43 then 0 else 65536 - spillUse s c.eng
  | .copy _ => 0

/-- What elements have met so far: the first halt, and the room left in the spill buffer. -/
structure HaltAcc where
  s     : State
  first : Option (Nat × Halt)
  room  : Nat
deriving DecidableEq, Repr

/-- The first destination element that cannot be written, and why. A transform engine spills what lies on a page that
needs the fault path, as far as there is room. -/
def firstHalt (c : Cmd) (s : State) (els : List DstEl) : HaltAcc :=
  let ahead := aheadOfCmd s c
  els.foldl (fun (a : HaltAcc) d =>
    let put := fun (s : State) (h : Halt) => { a with s := s, first := match a.first with
      | some (e, _) => if d.e < e then some (d.e, h) else a.first
      | none => some (d.e, h) }
    if !ahead.isEmpty && ahead.contains (granName a.s c.core c.slot d.va) then put a.s .busy
    else match c.place a.s d.va with
      | (.bad, s) => put s (.stop 0x44)
      | (.fault, s) => if d.n ≤ a.room then { a with s := s, room := a.room - d.n } else put s (.wait d.va .write)
      | (.mem x, s) => if x.peer then put s (.ask d.va x) else { a with s := s }
      | (_, s) => { a with s := s }) ⟨s, none, spillRoom s c⟩

/-- The handle of a command's births, interned once. -/
def cmdHandle (s : State) (c : Cmd) (els : List DstEl) : Nat × State :=
  match c.handle with
  | some h => (h, s)
  | none =>
    if anyBorn els then
      let (h, s) := internBirth s c.birth c.site
      (h, s.modCmd c.id (fun c => { c with handle := some h }))
    else (0, s)

/-- Spills the elements of one granule (R305). The page's request is raised unless the page's earlier spills already
await their replay. -/
def spillEls (s : State) (c : Cmd) (g h : Nat) (ds : List DstEl) : State :=
  let again := spillsOn s c.eng c.slot g && !s.faults.any (sameFault (engDie c.eng) c.slot (g / 4096))
  let first := (ds.map (·.e)).foldl min (boxSize c.ext)
  let s := { s with spills := s.spills ++ [⟨c.id, g, granBytes ds, granTags h ds, ds.any (·.poison), first⟩] }
  if again then s else raiseFault s (engDie c.eng) none c.who g .write (.cmd c.id)

/-- Writes elements: in place, or into the spill buffer. -/
def writeEls (s : State) (c : Cmd) (els : List DstEl) : State :=
  let (h, s) := cmdHandle s c els
  (elGrans els).foldl (fun s g =>
    let ds := elsOf els g
    match c.place s g with
    | (.fault, s) => spillEls s c g h ds
    | (p, s) => putGranEls s c.slot p g h ds) s

/-- Every element below `n` of the box. -/
def below (els : List DstEl) (n : Nat) : List DstEl := els.filter (fun d => d.e < n)

/-- The elements below box index `n` are written. -/
def Cmd.advance (c : Cmd) (n : Nat) : Cmd :=
  { c with offset := n, got := if c.kind == .dec then c.got else c.got.drop (n - c.offset) }

/-- A command has done what it can up to box index `n`: it ends there with a code, or all of the box is done. -/
def endBox (s : State) (c : Cmd) (n : Nat) (code : Option Nat) : State :=
  s.modCmd c.id (fun c => { c.advance n with stop := if c.stop.isSome then c.stop else code, ack := some n })

/-- Elements split into the runs that go in one request each. -/
def peerRuns : Nat → List DstEl → List (List DstEl)
  | 0, _ => []
  | _, [] => []
  | n + 1, l => peerRun l :: peerRuns n (l.drop (peerRun l).length)

/-- Sends one run of elements. -/
def sendRun (c : Cmd) (s : State) (rest : List DstEl) : State :=
  match rest with
  | [] => s
  | d :: _ => match c.place s d.va with
    | (.mem x, s) =>
      let op : PeerOp := .write (runBytes rest) d.e1
      (match peerTarget s x d.va op with
      | some r => sendPeer s (.cmd c.id d.va) c.core r x d.va op
      | none => s)
    | (_, s) => s

/-- Why a write cannot be sent to a peer: a code, or no room yet. -/
inductive NoSend
  | code (k : Nat)
  | room
deriving DecidableEq, Repr

/-- Whether `n` writes to a peer page, the first at `va`, can be sent. -/
def noSendAt (s : State) (core : Nat) (x : Xlat) (va : Nat) (op : PeerOp) (n : Nat) : Option NoSend :=
  match peerTarget s x va op with
  | none => some (.code 0x44)
  | some r =>
    if !(winPorts r).any (fun i => s.portsUp.contains i) then some (.code 0x41)
    else if egressFull s none core x n then some .room else none

def noSend (c : Cmd) (s : State) (runs : Nat) (rest : List DstEl) : Option NoSend :=
  match rest with
  | [] => none
  | d :: _ => match (c.place s d.va).1 with
    | .mem x => noSendAt s c.core x d.va (.write (runBytes rest) false) runs
    | _ => none

def Cmd.peerEl (s : State) (c : Cmd) (d : DstEl) : Bool :=
  match (c.place s d.va).1 with
  | .mem x => x.peer
  | _ => false

/-- The first box index of the scale block of index `n`, or `n` itself. -/
def Cmd.unitAt (c : Cmd) (ext : List Nat) (n : Nat) : Nat :=
  let row := ext.getD 0 1
  if tScaled c.drec then n / row * row + n % row / tSblock c.drec * tSblock c.drec else n

/-- The next unit of a box at index `n` with a peer destination: a run of elements, or a whole scale block. Its local
elements are written and the others sent, once nothing else halts them. -/
def sendUnit (s : State) (c : Cmd) (ext : List Nat) (els : List DstEl) (n : Nat) : State :=
  let row := ext.getD 0 1
  let rest := els.filter (fun d => n ≤ d.e)
  let m := if tScaled c.drec then min (n / row * row + row) (n + tSblock c.drec) else n + (peerRun rest).length
  let unit := rest.filter (fun d => d.e < m)
  let near := unit.filter (fun d => !c.peerEl s d)
  let runs := peerRuns unit.length (unit.filter (c.peerEl s))
  let held := (aheadOfCmd s c).any (fun g => unit.any (fun d => granName s c.core c.slot d.va == g))
  match held, (firstHalt c s near).first, runs.findSome? (noSend c s runs.length) with
  | true, _, _ => s
  | false, some (_, .stop k), _ | false, none, some (.code k) => endBox s c n (some k)
  | false, some (_, .wait va k), _ => raiseFault s (engDie c.eng) none c.who va k (.cmd c.id)
  | false, some (_, _), _ | false, none, some .room => s
  | false, none, none => (runs.foldl (sendRun c) (writeEls s c near)).modCmd c.id (fun c => { c with ack := some m })

/-- The source addresses a command reads from. -/
def srcVas (c : Cmd) (ext : List Nat) : List (Nat × Nat) :=
  if c.kind == .fill then []
  else if c.kind == .dec then (List.range (tDim c.srec 0)).map (fun i => (elemAddr c.srec [i], 1))
  else ((List.range (boxSize ext)).map (fun e => c.srcIdx (boxCoord ext e))).flatMap (fun i =>
    if elemInside c.srec i then
      (elemAddr c.srec i, tEb c.srec) :: (if tScaled c.srec then [(scaleAddr c.srec i, 1)] else [])
    else [])

/-- A halt of a command at box index `n`, everything below being formed in `els`: the command ends there, or writes
what it has formed, whole scale blocks, and waits. -/
def haltCmd (s : State) (c : Cmd) (ext : List Nat) (els : List DstEl) (n : Nat) (h : Halt) (dst : Bool) : State :=
  match Halt.code h c.stop with
  | some code => endBox (writeEls s c (below els n)) c n (some code)
  | none =>
    let k := c.unitAt ext n
    let s := (writeEls s c (below els k)).modCmd c.id (fun c => c.advance k)
    match h with
    | .wait va a => raiseFault s (engDie c.eng) none c.who va a (.cmd c.id)
    | .ask va x =>
      if dst then sendUnit s c ext els k
      else match askBlock s c.core (.cmd c.id) x (srcVas c ext) va with
        | .ok s => s
        | .error code => endBox (writeEls s c ((below els n).filter (fun d => k ≤ d.e))) c n (some code)
    | _ => s

/-! ### A source that overlaps the destination (R287) -/

/-- The granules of a command's destination, and whether its source has one of them. -/
def dstGrans (s : State) (c : Cmd) (ext : List Nat) : List (Nat × Nat) :=
  if c.kind == .fill || tCb c.drec then [] else (gransOf (cmdVas c 0 (boxSize ext))).map (granName s c.core c.slot)
def ownSource (s : State) (c : Cmd) (ext : List Nat) : Bool :=
  let ds := dstGrans s c ext
  !ds.isEmpty && (gransOf ((srcVas c ext).map Prod.fst)).any (fun va => ds.contains (granName s c.core c.slot va))

/-- A free choice. -/
def freeBit (n : Nat) : Bool := (Config.freeByte n).getLsbD 0

/-- Numbers in the order of their keys. -/
def insertKey (key : Nat → Nat) (i : Nat) : List Nat → List Nat
  | [] => [i]
  | x :: r => if key i ≤ key x then i :: x :: r else x :: insertKey key i r

/-- Elements' bytes over what their command has received from peers. -/
def overFetched (s : State) (owner : Nat) (els : List DstEl) : State :=
  { s with fetched := s.fetched.map (fun p =>
      if p.1 == owner || p.1 == poisonKey owner then
        (p.1, p.2.1, p.2.2.mapIdx (fun i b => match els.find? (fun d => d.va ≤ p.2.1 + i && p.2.1 + i < d.va + d.n) with
          | some d => BitVec.ofNat 8 (d.x / 2 ^ (8 * (p.2.1 + i - d.va)))
          | none => b))
      else p) }

/-- The memory as it stands with elements written. -/
def asWritten (s : State) (c : Cmd) (els : List DstEl) : State := overFetched (writeEls s c els) c.id els

/-- The elements of a command whose source overlaps its destination: its elements, or scale blocks, are formed in a free
order, and each source element in the destination is taken as it was read or, by a free choice, as those formed before
have written it. -/
def overlapEls (s : State) (c : Cmd) (ext : List Nat) (raw : List SrcRaw) (free : Nat) : List DstEl :=
  let ds := dstGrans s c ext
  let xs := raw.mapIdx (fun i x => (c.offset + i, x))
  let units := if tScaled c.drec then blocksOf (tSblock c.drec) (ext.getD 0 1) xs else xs.map (fun x => [x])
  let key := fun (i : Nat) => (Config.freeWord (free + i)).toNat
  let order := (List.range units.length).foldr (insertKey key) []
  let again := fun (s : State) (p : Nat × SrcRaw) =>
    let i := c.srcIdx (boxCoord ext p.1)
    let own := elemInside c.srec i && ds.contains (granName s c.core c.slot (elemAddr c.srec i))
    if own && freeBit (free + raw.length + p.1 - c.offset) then
      match (readRaw s (.cmd c.id) c.who c.srec i).1 with
      | .ok y => (p.1, y)
      | .error _ => p
    else p
  let out := (order.foldl (fun (a : State × List (Nat × List DstEl)) u =>
    let els := dstEls c ext (((units.getD u []).map (again a.1)).map (fun p => (p.1, rawEl c.srec p.2)))
    (asWritten a.1 c els, (u, els) :: a.2)) (s, [])).2
  (List.range units.length).flatMap (fun u => ((out.find? (fun p => p.1 == u)).map Prod.snd).getD [])

/-! ### Reading the source (R285, R291) -/

/-- Source elements read up to the first halt, newest first. -/
structure SrcAcc where
  s    : State
  out  : List SrcRaw
  halt : Option Halt
deriving DecidableEq, Repr

/-- Reads the source elements of a command that it has not read yet. -/
def readSrcs (s : State) (c : Cmd) (ext : List Nat) : SrcAcc :=
  let lo := c.offset + c.got.length
  (List.range (boxSize ext - lo)).foldl (fun a i =>
    if a.halt.isSome then a
    else match readRaw a.s (.cmd c.id) c.who c.srec (c.srcIdx (boxCoord ext (lo + i))) with
      | (.ok x, s) => { a with s := s, out := x :: a.out }
      | (.error r, s) => { a with s := s, halt := some (haltOf r) }) ⟨s, c.got.reverse, none⟩

/-! ### XFORM.dec (R303, R304) -/

/-- The decoder: bytes read before and not yet taken, stream position, bytes read now (newest first), bytes produced
(newest first), whether each came at or after a poisoned read, and the first free value of a stream that overlaps the
destination. -/
structure DecAcc where
  s      : State
  left   : List SrcRaw
  free   : Option Nat
  pos    : Nat
  more   : List SrcRaw
  out    : List (Byte × Bool)
  poison : Bool
  halt   : Option Halt
deriving DecidableEq, Repr

/-- The bytes produced, as elements. -/
def decEls (c : Cmd) (out : List (Byte × Bool)) : List DstEl :=
  let o := (originOf c.sa).getD 0 0
  (out.reverse).mapIdx (fun i b => ⟨i, elemAddr c.drec [o + i], 1, b.1.toNat, .born false, b.2⟩)

/-- Takes the stream's next byte: one that overlaps the destination as it stood or, by a free choice, as written. -/
def decByte (c : Cmd) (a : DecAcc) : Nat × DecAcc :=
  let take := fun (a : DecAcc) (x : SrcRaw) => (x.bits, { a with pos := a.pos + 1, poison := a.poison || x.poison })
  let read := fun (s : State) => readRaw s (.cmd c.id) c.who c.srec [a.pos]
  match a.halt, a.left with
  | some _, _ => (0, a)
  | none, x :: r => take { a with left := r } x
  | none, [] =>
    if a.pos ≥ tDim c.srec 0 then (0, { a with halt := some (.stop 0x46) })
    else match read a.s with
      | (.ok x, s) =>
        let x := match a.free.map (fun n => freeBit (n + a.pos)), (read (asWritten s c (decEls c a.out))).1 with
          | some true, .ok y => y
          | _, _ => x
        take { a with s := s, more := x :: a.more } x
      | (.error r, s) => (0, { a with s := s, halt := some (haltOf r) })

/-- Produces a byte, unless the destination is full. -/
def decPut (room : Nat) (a : DecAcc) (b : Byte) : DecAcc :=
  if a.halt.isSome then a
  else if a.out.length ≥ room then { a with halt := some (.stop 0x47) }
  else { a with out := (b, a.poison) :: a.out }

def decLiteral (c : Cmd) (room : Nat) : Nat → DecAcc → DecAcc
  | 0, a => a
  | n + 1, a =>
    if a.halt.isNone && a.out.length ≥ room then { a with halt := some (.stop 0x47) }
    else
      let (x, a) := decByte c a
      decLiteral c room n (decPut room a (BitVec.ofNat 8 x))

def decRef (room dist : Nat) : Nat → DecAcc → DecAcc
  | 0, a => a
  | n + 1, a => decRef room dist n (decPut room a ((a.out.getD (dist - 1) (0, false)).1))

/-- Tokens until `n` bytes are produced. -/
def decTokens (c : Cmd) (n room : Nat) : Nat → DecAcc → DecAcc
  | 0, a => a
  | fuel + 1, a =>
    if a.halt.isSome || a.out.length ≥ n then a
    else
      let (t, a) := decByte c a
      let due := n - a.out.length
      if a.halt.isSome then a
      else if t < 128 then
        (if t + 1 > due then { a with halt := some (.stop 0x46) }
        else decTokens c n room fuel (decLiteral c room (t + 1) a))
      else
        let (lo, a) := decByte c a
        let len := t / 4 % 32 + 3
        let dist := t % 4 * 256 + lo + 1
        if a.halt.isSome then a
        else if dist > a.out.length || len > due then { a with halt := some (.stop 0x46) }
        else decTokens c n room fuel (decRef room dist len a)

/-- The whole stream of a command; `free` as in `DecAcc`. -/
def decodeStream (s : State) (c : Cmd) (free : Option Nat) : DecAcc :=
  let a : DecAcc := ⟨s, c.got, free, (originOf c.sb).getD 0 0, [], [], false, none⟩
  let (b0, a) := decByte c a
  let (b1, a) := decByte c a
  let (b2, a) := decByte c a
  let (b3, a) := decByte c a
  let n := b0 + 2 ^ 8 * b1 + 2 ^ 16 * b2 + 2 ^ 24 * b3
  let room := tDim c.drec 0 - (originOf c.sa).getD 0 0
  if a.halt.isSome then a else decTokens c n room (tDim c.srec 0 + 1) a

/-! ### One attempt -/

/-- What one attempt has formed: the elements from the offset on, up to index `n`, what halts their reading, and the
source elements held. -/
structure Formed where
  s    : State
  els  : List DstEl
  halt : Option Halt
  n    : Nat
  got  : List SrcRaw
deriving DecidableEq, Repr

/-- A halt that a later attempt may get past. -/
def Halt.delays (h : Option Halt) : Bool :=
  match h with
  | none | some (.stop _) => false
  | _ => true

/-- The elements of a box as far as the source lets them be formed. A source that overlaps the destination is read to
its end, or to a stop, before anything is written. -/
def boxEls (s : State) (c : Cmd) (ext : List Nat) : Formed :=
  let own := ownSource s c ext
  match c.kind with
  | .fill =>
    let f := fmtOf (tFmt c.drec)
    ⟨s, (List.range (boxSize ext - c.offset)).map (fun i =>
      ⟨c.offset + i, c.dstVa (boxCoord ext (c.offset + i)), tEb c.drec, fillBits c, .born (specialF f (fillBits c)), false⟩),
      none, boxSize ext, []⟩
  | .dec =>
    let a := decodeStream (if own then { s with freeN := s.freeN + tDim c.srec 0 } else s) c (if own then some s.freeN else none)
    let got := c.got ++ a.more.reverse
    if own && Halt.delays a.halt then ⟨a.s, [], a.halt, c.offset, got⟩
    else ⟨a.s, (decEls c a.out).filter (fun d => c.offset ≤ d.e), a.halt, a.out.length, got⟩
  | _ =>
    let a := readSrcs s c ext
    let got := a.out.reverse
    if own && Halt.delays a.halt then ⟨a.s, [], a.halt, c.offset, got⟩
    else
      let els := if own then overlapEls a.s c ext got a.s.freeN
        else dstEls c ext (got.mapIdx (fun i x => (c.offset + i, rawEl c.srec x)))
      ⟨if own then { a.s with freeN := a.s.freeN + 2 * got.length } else a.s, els, a.halt, c.offset + got.length, got⟩

/-- One attempt at a running command's box (R298): it moves what it can. -/
def runCmd (s : State) (c : Cmd) : State :=
  let ext := c.ext
  let b := boxEls s c ext
  let keep := fun (c : Cmd) => { c with got := b.got, poisoned := c.poisoned || b.got.any (·.poison) }
  let a := firstHalt c (b.s.modCmd c.id keep) b.els
  let c := keep c
  match a.first, b.halt with
  | some (e, h), none => haltCmd a.s c ext b.els e h true
  | some (e, h), some h2 => if e < b.n then haltCmd a.s c ext b.els e h true else haltCmd a.s c ext b.els b.n h2 false
  | none, some h => haltCmd a.s c ext b.els b.n h false
  | none, none => endBox (writeEls a.s c b.els) c b.n none

/-- The lines of what a command has written are released (R285); with its box done, all but those of its spills. -/
def releaseWritten (s : State) (n : Nat) : State :=
  match s.cmd? n with
  | none => s
  | some c =>
    let spilt := ownKeys s c.who ((s.spills.filter (fun x => x.cmd == n)).map (·.va))
    let keep : Nat → Bool :=
      if c.boxDone s then spilt.contains
      else
        let left := cmdKeys s c c.offset (boxSize c.ext)
        let done := cmdKeys s c 0 c.offset
        fun k => left.contains k || spilt.contains k || !done.contains k
    let lines := c.lines.filter keep
    if lines == c.lines then s else wakeLines (s.modCmd n (fun c => { c with lines := lines }))

/-! ### End (R299) -/

/-- The filled prefix of a circular buffer's reserved slots joins its filled slots (R297). -/
def fillPrefix : List (Nat × Bool) → List Nat → List (Nat × Bool) × List Nat
  | (n, true) :: r, f => fillPrefix r (f ++ [n])
  | r, f => (r, f)

/-- A command's slot of a circular buffer is filled. -/
def fillSlot (s : State) (c : Cmd) : State :=
  match c.cbSlot, cbOf s c.dname with
  | some i, some (p, r, f) =>
    let (r, f) := fillPrefix (r.map (fun x => if x.1 == i then (i, true) else x)) f
    s.modEntry c.dname (fun e => { e with obj := .cb p r f })
  | _, _ => s

/-- A command has ended: its lines are released and its entry freed. -/
def dropCmd (s : State) (c : Cmd) : State :=
  let s := fillSlot s c
  let s := s.modGroup c.g (fun g => { g with xrec := g.xrec.map (fun x =>
    if x.cmd == c.id then
      { x with done := true, offset := if c.stop.isSome then c.offset else boxSize c.ext, status := c.status }
    else x) })
  wakeLines { s with
    cmds := s.cmds.filter (fun y => y.id != c.id)
    fetched := s.fetched.filter (fun p => p.1 != c.id && p.1 != poisonKey c.id) }

/-- The cell's update, then the end (R299). A cell whose page needs the fault path waits; one that may no longer be
reached is left. -/
def finishCmd (s : State) (c : Cmd) : State :=
  let status := c.status
  let bytes := cellBytes 1 (if status % 256 == 0 then 0 else 1) status
  if c.cell == 0 then dropCmd s c
  else if waitsPage s c.slot c.cell.toNat (.cmd c.id) then s
  else
    match check189 s c.who c.cell 8 .rmw with
    | (a, s) => match cellPlace a with
      | .fault _ => raiseFault s (engDie c.eng) none c.who c.cell.toNat .rmw (.cmd c.id)
      | .window loc =>
        if engineOwns s (granKey loc) then s
        else dropCmd (performAt s loc true (cellWrite c.g c.slot c.cell.toNat (bytes (natAt s loc 8)))) c
      | .mem x =>
        if engineOwns s (lineKey c.slot c.cell.toNat) then s else dropCmd (cellHome s c.g c.slot c.cell.toNat (.mem x) bytes) c
      | _ => dropCmd s c

/-- A command's code is native, or the control core has performed it (R113). -/
def Cmd.native (c : Cmd) : Bool := (c.kind == .fill || c.kind == .dec || (nativeFmt (tFmt c.drec) && nativeFmt (tFmt c.srec))) || c.emul

/-- A running command moves what it can, and ends when its box and its replays are done. -/
def execEngineCommandEnd (cmd : Nat) (s : State) : Host.Outcome State Fault Refusal :=
  .next (match s.cmd? cmd with
    | some c =>
      if c.stage != .running || !c.native || askedPeer s cmd then s
      else
        let s := releaseWritten (if c.ack == some c.offset then s else runCmd s c) cmd
        match s.cmd? cmd with
        | some c => if c.boxDone s && !s.spills.any (fun x => x.cmd == cmd) then finishCmd s c else s
        | none => s
    | none => s)

/-- A command that waits 100 µs for a slot ends with FULL (R297, R298). -/
def execCbFullTimeout (cmd : Nat) (s : State) : Host.Outcome State Fault Refusal :=
  .next (match s.cmd? cmd with
    | some c => match c.full with
      | some t =>
        if c.stage == .queued && (s.time - t).toNat ≥ 100000 then
          s.modCmd cmd (fun c => { c with stage := .running, full := none, stop := some 0x40, offset := 0, ack := some 0, emul := true })
        else s
      | none => s
    | none => s)

/-- A spilled write that can no longer be performed stops its command below the first element it holds (R298). -/
def loseSpill (s : State) (x : Spill) (code : Nat) : State :=
  { s with spills := s.spills.erase x }.modCmd x.cmd (fun c =>
    let n := min c.offset x.first
    { c with stop := if c.stop.isSome then c.stop else some code, offset := n, ack := some n })

/-- A spilled write of a page that has become a peer's goes to the peer. -/
def sendSpill (s : State) (c : Cmd) (y : Xlat) (x : Spill) : State :=
  let runs := (byteRuns [] x.bytes).map (fun r => (x.va + r.1, PeerOp.write r.2 (x.tags.any (fun t => t.2.msb))))
  match runs.findSome? (fun r => noSendAt s c.core y r.1 r.2 runs.length) with
  | some (.code k) => loseSpill s x k
  | some .room => s
  | none => runs.foldl (fun s r => match peerTarget s y r.1 r.2 with
      | some w => sendPeer s (.cmd c.id r.1) c.core w y r.1 r.2
      | none => s) { s with spills := s.spills.erase x }

/-- The oldest spilled write of its page is performed, where the page can now be written. -/
def replaySpill (s : State) (x : Spill) : State :=
  match s.cmd? x.cmd with
  | none => s
  | some c =>
    let oldest := s.spills.find? (fun y => y.va / 4096 == x.va / 4096 && match s.cmd? y.cmd with
      | some d => d.eng == c.eng && d.slot == c.slot
      | none => false)
    if oldest != some x || waitsPage s c.slot x.va (.cmd c.id) then s
    else match engPlace s c.who x.va .write with
      | (.fault, s) => raiseFault s (engDie c.eng) none c.who x.va .write (.cmd c.id)
      | (.bad, s) => loseSpill s x 0x44
      | (.mem y, s) =>
        if y.peer then sendSpill s c y x
        else engPutAt { s with spills := s.spills.erase x } c.slot (.mem y) x.va x.bytes x.tags x.poison
      | (p, s) => engPutAt { s with spills := s.spills.erase x } c.slot p x.va x.bytes x.tags x.poison

/-- The spilled writes of a command's engine whose page can now be written are performed, in their order (R305). -/
def execTransformSpillReplay (cmd : Nat) (s : State) : Host.Outcome State Fault Refusal :=
  .next (match s.cmd? cmd with
    | some c =>
      let mine := s.spills.filter (fun x => match s.cmd? x.cmd with
        | some d => d.eng == c.eng
        | none => false)
      ((mine.map (·.cmd)).eraseDups).foldl releaseWritten (mine.foldl replaySpill s)
    | none => s)

/-- An entry of an engine's queue is free again. -/
def execEngineQueueWake (g : GRef) (s : State) : Host.Outcome State Fault Refusal :=
  .next (wakeIf s g (fun _ w => match w with
    | .engine e => engRoom s e
    | _ => false) (fun s _ => wake s g))

/-- Formats an MMA's operands may need the control core for (R113). -/
def Mma.native (m : Mma) : Bool := (nativeFmt (tFmt m.a) && nativeFmt (tFmt m.b)) || m.emul

/-- The control core performs a tile operation that names a binary8 code the engines lack (R113); its results are
those of the engine. -/
def execEmulatedTileOp (cmd : Nat) (s : State) : Host.Outcome State Fault Refusal :=
  .next (match s.cmd? cmd, s.mmas.find? (fun m => m.id == cmd) with
    | some c, _ =>
      if c.stage == .running && !c.native then
        (bumpCounter s (engDie c.eng) 0).modCmd cmd (fun c => { c with emul := true })
      else s
    | none, some m =>
      if !m.native then
        { bumpCounter s (dieOf m.core) 0 with
          mmas := s.mmas.map (fun x => if x.id == cmd then { x with emul := true } else x) }
      else s
    | none, none => s)

end Sys2Proof.Machine
end

