-- ==== Sys2Proof/Machine/Matrix.lean ====
section
/-! DEFINITION. Matrix instructions (R306 to R323): slots and tokens, MMA and its execution, ALD, AST, AZERO and
ADRN. -/

namespace Sys2Proof.Machine

open Sys2Proof

/-! ### Slots -/

def accKey (core phys : Nat) : Nat := core * 64 + phys
def State.acc? (s : State) (key : Nat) : Option Acc := mfind s.accs key
def State.modAcc (s : State) (key : Nat) (f : Acc → Acc) : State :=
  match mfind s.accs key with
  | some a => { s with accs := minsert key (f a) s.accs }
  | none => s

/-- An element: what was written, else the unspecified contents of the allotment (R164). -/
def Acc.elem (a : Acc) (row col : Nat) : Lane32 :=
  match mfind a.data (256 * row + col) with
  | some x => x
  | none => Config.freeSlotWord (a.fill + 256 * row + col)
def Acc.tag (a : Acc) (row gran : Nat) : Tag := mget 0 a.tags (64 * row + gran)
def Acc.setElem (a : Acc) (row col : Nat) (x : Lane32) : Acc := { a with data := minsert (256 * row + col) x a.data }
def Acc.setTag (a : Acc) (row gran : Nat) (t : Tag) : Acc := { a with tags := mput 0 a.tags (64 * row + gran) t }
def Acc.spoil (a : Acc) (row gran : Nat) (p : Bool) : Acc :=
  let k := 64 * row + gran
  { a with poison := if p then (if a.poison.contains k then a.poison else a.poison ++ [k]) else a.poison.filter (fun x => x != k) }

/-- The 16 bytes of a slot granule. -/
def Acc.bytes (a : Acc) (row gran : Nat) : Nat :=
  leNat ((List.range 4).flatMap (fun j => natBytes 4 (a.elem row (4 * gran + j)).toNat))

/-- A whole slot granule. -/
def Acc.putGran (a : Acc) (row gran : Nat) (b : List Byte) (t : Tag) : Acc :=
  let a := (List.range 4).foldl (fun a j => a.setElem row (4 * gran + j) (BitVec.ofNat 32 (leNat ((b.drop (4 * j)).take 4)))) a
  (a.setTag row gran t).spoil row gran false

/-- The rows of a set of lanes (R313). -/
def rowsOf (w : Nat) (x : Mask) : BitVec 64 := maskOf ((List.range 64).filter (fun m => x.getLsbD (m % w)))

/-- The physical slot of accN, and its state. -/
def slotOfTeam (s : State) (c : Cur) (n : Nat) : Option (Nat × Acc) :=
  (c.t.accs[n]?).bind (fun p => (s.acc? (accKey c.t.core p)).map (fun a => (p, a)))

def slotNamed (n : BitVec 6) (c : Cur) : Bool := n.toNat < c.l.kernel.acc

/-- The token lets the group use the slot (R307): it claims an unclaimed one; a slot on its way to the engine makes
its giver wait, but for lanes whose earlier instruction on the slot is still to be done (R321). -/
inductive Use
  | go (s : State)
  | wait
  | fault
deriving DecidableEq, Repr

def useHeld (s : State) (c : Cur) (key : Nat) (a : Acc) : Use :=
  match a.token with
  | .unclaimed => .go (s.modAcc key (fun a => { a with token := .held c.g.grp }))
  | .held g => if g == c.g.grp then .go s else .fault
  | .leaving g =>
    if g != c.g.grp then .fault
    else if a.parked.any (fun p => p.1 == g && c.n.x.getLsbD p.2) then .go s else .wait
  | .engine => .fault

/-- Lanes of the group have done their instruction on a slot, but for those that are to replay it. -/
def stayParked (s : State) (c : Cur) (key : Nat) (done parks : List Nat) : State :=
  s.modAcc key (fun a => { a with
    parked := a.parked.filter (fun p => p.1 != c.g.grp || !done.contains p.2) ++ parks.map (fun i => (c.g.grp, i)) })

/-- A word on a slot that the group must hold. -/
def heldWord (s : State) (c : Cur) (slot : BitVec 6) (k : State → Nat → Nat → State) : State :=
  match slotOfTeam s c slot.toNat with
  | none => s
  | some (p, a) => match useHeld s c (accKey c.t.core p) a with
    | .go s => k s (accKey c.t.core p) p
    | .wait => blockWord s c (.arel p)
    | .fault => wordFault s c .accToken

/-! ### AREL, AACQ, AZERO (R307, R317, R318) -/

/-- AREL: the token goes to the engine, at once unless lanes of the group are still to do an earlier instruction on the
slot (R307, R321); the slot has no events from now on. -/
def execArel (h : Head) (slot : BitVec 6) (s : State) : Host.Outcome State Fault Refusal :=
  onCur s fun c =>
    if !slotNamed slot c then wordFault s c .illegalOperand
    else heldWord s c slot fun s key _ =>
      finish (s.modAcc key (fun a => { a with
        token := if a.parked.any (fun p => p.1 == c.g.grp) then .leaving c.g.grp else .engine
        event := none
        shadows := 0 })) c h

/-- The token passes to the engine once the giver's earlier instructions on the slot are done. -/
def execArelHandover (core slot : Nat) (s : State) : Host.Outcome State Fault Refusal :=
  let key := accKey core slot
  .next (match s.acc? key with
    | some a => match a.token with
      | .leaving g =>
        if a.parked.any (fun p => p.1 == g) then s
        else wakeIf (s.modAcc key (fun a => { a with token := .engine })) ⟨a.team, g⟩ (fun _ w => w == .arel slot) (fun s _ => wake s ⟨a.team, g⟩)
      | _ => s
    | none => s)

/-- MMAs of a slot, in issue order. -/
def slotMmas (s : State) (core phys : Nat) : List Mma := s.mmas.filter (fun m => m.core == core && m.phys == phys)

/-- The group takes a slot back from the engine: its event is delivered (R318, R319). -/
def takeSlot (s : State) (c : Cur) (key : Nat) : State :=
  match s.acc? key with
  | none => s
  | some a =>
    let s := s.modAcc key (fun a => { a with token := .held c.g.grp, event := none, shadows := 0 })
    match a.event with
    | none => finish s c ⟨false, .blame, 0, false⟩
    | some e =>
      let ssyn := if e.cause == .shadow then e.ssyn ||| BitVec.ofNat 64 (min 127 a.shadows * 2 ^ 7) else 0
      raiseTraps s c 0 (afterWord c.n).1 ssyn e.sunit e.stile
        ((lanesOf c.n.x).map (fun i => ⟨i, e.cause, e.ttag, BitVec.ofNat 64 e.va⟩))

def execAacq (_h : Head) (slot : BitVec 6) (s : State) : Host.Outcome State Fault Refusal :=
  onCur s fun c =>
    if !slotNamed slot c then wordFault s c .illegalOperand
    else match slotOfTeam s c slot.toNat with
      | none => s
      | some (p, a) =>
        let key := accKey c.t.core p
        match a.token with
        | .unclaimed => takeSlot s c key
        | .held _ => wordFault s c .accToken
        | .leaving g => if g == c.g.grp then blockWord s c (.arel p) else wordFault s c .accToken
        | .engine =>
          if (slotMmas s c.t.core p).isEmpty && a.waits.isEmpty then takeSlot s c key
          else waitFor (s.modAcc key (fun a => { a with waits := a.waits ++ [c.g.grp] })) c (.aacq p)

/-- The slot's queued MMAs are done: the first waiting AACQ takes it, and a later one finds it held. -/
def execAacqComplete (g : GRef) (s : State) : Host.Outcome State Fault Refusal :=
  .next (match s.team? g.team, s.group? g with
    | some t, some gr => match gr.wait with
      | some w => match w.why with
        | .aacq p =>
          let key := accKey t.core p
          match s.acc? key with
          | some a =>
            if a.waits.head? != some g.grp || !(slotMmas s t.core p).isEmpty then s
            else
              let late := a.waits.drop 1
              let s := s.modAcc key (fun a => { a with waits := [] })
              let s := wake s g
              let s := match curAt s w.now with
                | some c => takeSlot s c key
                | none => s
              late.foldl (fun s n => match (s.group? ⟨g.team, n⟩).bind (·.wait) with
                | some w => endTeam s g.team ⟨.accToken, false, ⟨g.team, n⟩, 0, 0, w.now.pc, 0, 0, 0⟩
                | none => s) s
          | none => s
        | _ => s
      | none => s
    | _, _ => s)

/-- AZERO. -/
def execAzero (h : Head) (slot : BitVec 6) (s : State) : Host.Outcome State Fault Refusal :=
  onCur s fun c =>
    if !slotNamed slot c then wordFault s c .illegalOperand
    else heldWord s c slot fun s key _ =>
      let births := h.rule == .blame || h.rule == .birth
      let (hd, s) := if births then internFor s c.ref c.n.pc else (0, s)
      let tag := fun (old : Tag) => match h.rule with
        | .blame | .birth => TagSrc.tag hd (.born false)
        | .keep => old
        | .pass => 0
      let rows := lanesOf (rowsOf c.width c.n.x)
      let zero := fun (a : Acc) (m : Nat) => (List.range 64).foldl (fun a j =>
        a.putGran m j (List.replicate 16 0) (tag (a.tag m j))) a
      finish (s.modAcc key (fun a => rows.foldl zero a)) c h

/-! ### MMA at issue (R308 to R310) -/

/-- An origin register of MMA (R309). -/
def mmaI0 (w : Word) : Nat := (w.extractLsb' 0 24).toNat
def mmaI1 (w : Word) : Nat := (w.extractLsb' 24 24).toNat
def mmaI2 (w : Word) : Nat := (w.extractLsb' 48 8).toNat
def mmaSize (w : Word) : Nat := (w.extractLsb' 56 8).toNat + 1

/-- Check 2. -/
def mmaCoordOk (r : BitVec 352) (w : Word) : Bool :=
  mmaI0 w < tExt r 0 && mmaI1 w < tExt r 1 && (if tCb r then mmaI2 w == 0 else if tRank r == 3 then mmaI2 w < tDim r 2 else mmaI2 w == 0)

/-- The K-block of a format, 0 when MMA does not take it. -/
def kBlock (f : BitVec 8) : Nat :=
  match f.toNat with
  | 0x02 => 8
  | 0x03 | 0x04 => 16
  | n => if n ≥ 0x41 then 32 else 0

/-- Check 3. -/
def mmaShapeOk (a b : BitVec 352) : Bool :=
  let rank := fun (r : BitVec 352) => tRank r == 2 || tRank r == 3
  rank a && rank b && kBlock (tFmt a) != 0 && (tFmt a == tFmt b || (kBlock (tFmt a) == 32 && kBlock (tFmt b) == 32))

/-- NSTAT takes the reason of an MMA, before the next word. -/
def mmaReason (s : State) (c : Cur) (h : Head) (code : Nat) : State := finish (c.mod s (fun g => g.setN code)) c h

/-- MMA. -/
def execMma (h : Head) (scaled g pop : Bool) (kx ky : BitVec 4) (sa sb slot : BitVec 6) (s : State) :
    Host.Outcome State Fault Refusal :=
  onCur s fun c =>
    if !slotNamed slot c then wordFault s c .illegalOperand
    else match slotOfTeam s c slot.toNat with
      | none => s
      | some (p, a) =>
        if a.token == .leaving c.g.grp then blockWord s c (.arel p)
        else if a.token != .engine then wordFault s c .accToken
        else
          let an := c.g.name kx.toNat
          let bn := c.g.name ky.toNat
          let wa := c.g.sreg sa.toNat
          let wb := c.g.sreg sb.toNat
          let gone := fun (code : Nat) => if g then trapAll s c c.n.x .nameGone 0 0 else mmaReason s c h code
          match resolve s c.t.ctx an (some 2), resolve s c.t.ctx bn (some 2) with
          | .error code, _ => gone code
          | .ok _, .error code => gone code
          | .ok ra, .ok rb =>
            if !(mmaCoordOk ra.record wa && mmaCoordOk rb.record wb) then mmaReason s c h 0x30
            else if !mmaShapeOk ra.record rb.record then mmaReason s c h 0x31
            else if (s.mmas.filter (fun m => m.core == c.t.core)).length ≥ 32 then blockWord s c .matrix
            else
              let pins := pop && (tCb ra.record || tCb rb.record)
              afterSync c (if pins then pinFirst s c else .done s) fun s =>
                let c := refresh s c
                let m : Mma :=
                  { id := s.seqN, core := c.t.core, phys := p, g := c.ref, ctx := c.t.ctx, slot := c.t.slot, a := ra.record
                    b := rb.record, aName := an, bName := bn, sa := wa, sb := wb, scaled := scaled, pop := pop
                    rows := rowsOf c.width c.n.x, rule := h.rule, site := c.n.pc, birth := birthOf s c.ref, emul := false
                    fail := none }
                let s := cacheName (cacheName s (fetchCache c.t.core) an) (fetchCache c.t.core) bn
                mmaReason { s with mmas := s.mmas ++ [m], seqN := s.seqN + 1 } c h 0

/-- An entry of the matrix queue is free again. -/
def execMatrixQueueWake (g : GRef) (s : State) : Host.Outcome State Fault Refusal :=
  .next (match s.team? g.team with
    | some t => wakeIf s g (fun _ w => w == .matrix && (s.mmas.filter (fun m => m.core == t.core)).length < 32) (fun s _ => wake s g)
    | none => s)

/-! ### The tile fetch unit (R314 to R316) -/

/-- One operand element: its value, its tag as a contributor (R312), and whether its granule is poisoned. -/
structure TEl where
  v      : FV
  tag    : Tag
  exc    : Bool
  poison : Bool
deriving DecidableEq, Repr

def TEl.zero : TEl := ⟨.fin false 0 0, 0, false, false⟩

def Mma.who (m : Mma) : Who := ⟨m.core, m.ctx, m.slot⟩

/-- The bytes of an operand element: of a circular buffer, in the slot read; else at its address. -/
def tileBytes (s : State) (m : Mma) (r : BitVec 352) (cb : Nat) (i : List Nat) : ERead × State :=
  if tCb r then
    let (cl, off, _) := cbRegion r
    let loc := sramLoc cl ((off + cb * tStride r 2 + i.getD 1 0 * tStride r 1 + i.getD 0 0 * tEb r) % 2 ^ 24)
    let g := granAt s loc
    (.val (g.slice (loc % 16) (tEb r)) g.tag g.poison, s)
  else engRead s (.mma m.id) m.who (elemAddr r i) (tEb r)

/-- Reads an operand element; beyond its record's extents, +0 with tag 0. -/
def tileEl (s : State) (m : Mma) (r : BitVec 352) (cb : Nat) (i : List Nat) : Except ERead TEl × State :=
  let f := fmtOf (tFmt r)
  let inside := i.getD 0 0 < tExt r 0 && i.getD 1 0 < tExt r 1
  if !inside then (.ok .zero, s)
  else match tileBytes s m r cb i with
    | (.val x t p, s) =>
      let v := decF f x
      if m.scaled && tScaled r then
        match engRead s (.mma m.id) m.who (scaleAddr r i) 1 with
        | (.val y ty q, s) =>
          if y == 0xFF then (.ok ⟨.nan false 0, ty, true, p || q⟩, s)
          else (.ok ⟨scaledFV v y, t, v.special || t.msb, p || q⟩, s)
        | (e, s) => (.error e, s)
      else (.ok ⟨v, t, v.special || t.msb, p⟩, s)
    | (e, s) => (.error e, s)

/-- The elements of one K-block: for each k, those of the rows and those of the columns. -/
structure Block where
  a : List (List TEl)
  b : List (List TEl)
deriving DecidableEq, Repr

/-- What a fetch has read so far. -/
structure FetchAcc where
  s    : State
  out  : List TEl
  err  : Option (ERead)
deriving DecidableEq, Repr

def fetchList (m : Mma) (r : BitVec 352) (cb : Nat) (is : List (List Nat)) (s : State) : FetchAcc :=
  is.foldl (fun a i => if a.err.isSome then a else match tileEl a.s m r cb i with
    | (.ok x, s) => { a with s := s, out := a.out ++ [x] }
    | (.error e, s) => { a with s := s, err := some e }) ⟨s, [], none⟩

/-- Rows of the operand: one list of elements for each k. -/
def fetchRows (m : Mma) (r : BitVec 352) (cb : Nat) (ks : List Nat) (ix : Nat → List (List Nat)) (s : State) :
    List (List TEl) × Option ERead × State :=
  ks.foldl (fun (acc : List (List TEl) × Option ERead × State) k =>
    if acc.2.1.isSome then acc
    else
      let f := fetchList m r cb (ix k) acc.2.2
      (acc.1 ++ [f.out], f.err, f.s)) ([], none, s)

/-- The rows an MMA updates and its columns. -/
def Mma.rowList (m : Mma) : List Nat := lanesOf m.rows
def Mma.cols (m : Mma) : Nat := mmaSize m.sb
def Mma.blocks (m : Mma) : Nat := mmaSize m.sa
def Mma.beta (m : Mma) : Nat := kBlock (tFmt m.a)

def operandI2 (r : BitVec 352) (w : Word) : Nat := if tCb r then 0 else mmaI2 w

/-- The indices of an operand's elements at `k` for a list of rows or columns. -/
def tileIdx (r : BitVec 352) (w : Word) (l : List Nat) (k : Nat) : List (List Nat) :=
  l.map (fun m => [mmaI0 w + k, mmaI1 w + m, operandI2 r w])

/-- Reads K-block `b`. -/
def fetchBlock (s : State) (m : Mma) (cbA cbB : Nat) (b : Nat) : Except ERead Block × State :=
  let ks := (List.range m.beta).map (· + b * m.beta)
  match fetchRows m m.a cbA ks (tileIdx m.a m.sa m.rowList) s with
  | (a, none, s) => match fetchRows m m.b cbB ks (tileIdx m.b m.sb (List.range m.cols)) s with
    | (bb, none, s) => (.ok ⟨a, bb⟩, s)
    | (_, some e, s) => (.error e, s)
  | (_, some e, s) => (.error e, s)

/-- Every block, up to the first that fails. -/
def fetchAll (s : State) (m : Mma) (cbA cbB : Nat) : List Block × Option ERead × State :=
  (List.range m.blocks).foldl (fun (acc : List Block × Option ERead × State) b =>
    if acc.2.1.isSome then acc
    else match fetchBlock acc.2.2 m cbA cbB b with
      | (.ok x, s) => (acc.1 ++ [x], none, s)
      | (.error e, s) => (acc.1, some e, s)) ([], none, s)

/-! ### The additions (R311, R312) -/

def mmaNan : Nat := 0x7FC00000

/-- One block's addition: the exact result, the code, and whether it overflowed. -/
def addBlock (c : Nat) (a b : List TEl) : XV × Nat × Bool :=
  let cv := decF .f32 c
  if cv.isNan || (a ++ b).any (fun x => x.v.isNan) then (.nan, mmaNan, false)
  else
    let x := exactSum .rn (cv :: List.zipWith (fun x y => FV.mul x.v y.v) a b)
    match x with
    | .nan => (.nan, mmaNan, false)
    | x => let (z, o) := roundXV .f32 rne x; (x, z, o)

/-- A monitor failure of one addition. -/
structure MFail where
  row  : Nat
  col  : Nat
  k    : Nat
  main : Nat
  x    : XV
deriving DecidableEq, Repr

/-- One element through every block; `mask` is a hardware error that strikes its first addition. -/
def mmaElem (m : Mma) (row col : Nat) (c mask : Nat) (ps : List (List TEl × List TEl)) : Nat × Bool × List MFail :=
  let r := ps.foldl (fun (acc : Nat × Nat × Bool × List MFail) p =>
    let (x, z, o) := addBlock acc.2.1 p.1 p.2
    let z' := if acc.1 == 0 then (z ^^^ mask) % 2 ^ 32 else z
    let bad := nativeFmt (tFmt m.a) && nativeFmt (tFmt m.b) && !monitorOk .f32 x z'
    (acc.1 + 1, z', o, if bad then acc.2.2.2 ++ [⟨row, col, acc.1 * m.beta, z', x⟩] else acc.2.2.2)) (0, c, false, [])
  (r.2.1, specialF .f32 r.2.1 || r.2.2.1, r.2.2.2)

/-- The blame of an exceptional element (R312, R352). -/
def blameOf (oldTag : Tag) (ps : List (List TEl × List TEl)) : TagSrc :=
  let ts := ps.flatMap (fun p => (List.zipWith (fun x y => [x, y]) p.1 p.2).flatten)
  match ts.find? (·.exc) with
  | some t => if t.tag.msb then .known t.tag else .born true
  | none => if oldTag.msb then .known oldTag else .born true

/-- Column `n` of a row of elements. -/
def colOf (l : List (List TEl)) (i : Nat) : List TEl := l.map (fun r => r.getD i .zero)

/-- The tag a slot granule takes. -/
def granTag (rule : TagRule) (old : Tag) (partly : Bool) (els : List (Bool × TagSrc)) : TagSrc :=
  let exc := els.find? (fun p => p.1)
  let blame := match exc with
    | some p => p.2
    | none => .born false
  let t := match rule with
    | .birth => .born exc.isSome
    | .keep => if exc.isSome then blame else .known old
    | _ => blame
  let e := match t with
    | .known t => t.msb
    | .born e => e
  if partly && !e && old.msb then .known old else t

/-- The hardware error about to strike a matrix engine's column group. -/
def matrixUpset (s : State) (core col row first : Nat) : Nat :=
  match s.upsets.find? (fun u => u.matrix && u.core == core && u.lane == col / 4 && u.elem == col % 4) with
  | some u => if row == first then u.mask else 0
  | none => 0

/-- One updated row of a slot. -/
structure RowOut where
  row   : Nat
  elems : List (Nat × Nat)             -- column, code
  tags  : List (Nat × TagSrc)          -- granule, tag
  bad   : List Nat                     -- granules computed from poisoned sources
  fails : List MFail
deriving DecidableEq, Repr

def mmaRow (s : State) (m : Mma) (a : Acc) (blocks : List Block) (i row : Nat) : RowOut :=
  let cols := List.range m.cols
  let ps := fun (n : Nat) => blocks.map (fun b => (colOf b.a i, colOf b.b n))
  let res := cols.map (fun n =>
    let old := (a.elem row n).toNat
    let r := mmaElem m row n old (matrixUpset s m.core n row (m.rowList.headD 0)) (ps n)
    (n, r.1, r.2.1, r.2.2, blameOf (a.tag row (n / 4)) (ps n)))
  let grans := List.range ((m.cols + 3) / 4)
  { row := row
    elems := res.map (fun r => (r.1, r.2.1))
    tags := grans.map (fun g => (g, granTag m.rule (a.tag row g) (4 * g + 4 > m.cols)
      ((res.filter (fun r => r.1 / 4 == g)).map (fun r => (r.2.2.1, r.2.2.2.2)))))
    bad := grans.filter (fun g => (cols.filter (fun n => n / 4 == g)).any (fun n =>
      (ps n).any (fun p => p.1.any (·.poison) || p.2.any (·.poison))))
    fails := res.flatMap (fun r => r.2.2.2.1) }

/-- Writes a row into its slot. -/
def putRow (handle : Nat) (a : Acc) (r : RowOut) : Acc :=
  let a := r.elems.foldl (fun a p => a.setElem r.row p.1 (BitVec.ofNat 32 p.2)) a
  let a := r.tags.foldl (fun a p => a.setTag r.row p.1 (TagSrc.tag handle p.2)) a
  r.bad.foldl (fun a g => a.spoil r.row g true) a

/-! ### Execution -/

/-- The oldest filled slot of a circular buffer operand; 0 for a tensor. -/
def oldestSlot (s : State) (n : Name) (r : BitVec 352) : Option Nat :=
  if !tCb r then some 0
  else match cbOf s n with
    | some (_, _, i :: _) => some i
    | _ => none

def popSlot (s : State) (n : Name) (r : BitVec 352) : State :=
  if !tCb r then s
  else s.modEntry n (fun e => match e.obj with
    | .cb p x f => { e with obj := .cb p x f.tail }
    | _ => e)

/-- A slot keeps its first event (R316). -/
def slotEvent (s : State) (key : Nat) (e : AccEvent) : State :=
  s.modAcc key (fun a => { a with event := if a.event.isSome then a.event else some e })

/-- A monitor failure: the slot's event and count, and an error record (R319, R343). -/
def matrixShadow (s : State) (m : Mma) (key w : Nat) (f : MFail) : State :=
  let n := match s.acc? key with
    | some a => min 127 (a.shadows + 1)
    | none => 1
  let tag := match s.acc? key with
    | some a => a.tag f.row (f.col / 4)
    | none => 0
  let ssyn := ssynWord 0x70 (f.row % w) (narrowMain .f32 f.main) (narrowShadow .f32 f.x) (f.col % 4) 0
  let sunit := sunitWord 4 m.core 0 (f.col / 4)
  let s := slotEvent s key ⟨.shadow, 0, tag, ssyn, sunit, (f.row, f.col, f.k)⟩
  let s := s.modAcc key (fun a => { a with shadows := n })
  let re := match s.team? m.g.team with
    | some t => t.relaunches
    | none => 0
  postRecord s { ErrRec.zero with
    kind := 3, cause := Cause.shadow.code, unit := m.core, ctx := m.ctx, slot := m.slot, relaunch := re, team := m.birth.team
    grp := m.g.grp, lane := f.row % w, pc := m.site.toNat, ssyn := ssyn ||| BitVec.ofNat 64 (n * 2 ^ 7), sunit := sunit
    ttag := tag }

/-- The group width of a team. -/
def teamWidth (s : State) (team : Nat) : Nat :=
  match (s.team? team).bind (fun t => s.launch? t.launch) with
  | some l => l.kernel.width
  | none => 16

/-- Adds the blocks read into the slot. -/
def addMma (s : State) (m : Mma) (key : Nat) (blocks : List Block) : State :=
  match s.acc? key with
  | none => s
  | some a =>
    if blocks.isEmpty then s
    else
      let rows := m.rowList.mapIdx (fun i r => mmaRow s m a blocks i r)
      let born := rows.any (fun r => r.tags.any (fun p => TagSrc.isBorn p.2))
      let (hd, s) := if born then internBirth s m.birth m.site else (0, s)
      let s := s.modAcc key (fun a => rows.foldl (putRow hd) a)
      let s := { s with upsets := s.upsets.filter (fun u => !(u.matrix && u.core == m.core && 4 * u.lane + u.elem < m.cols)) }
      (rows.flatMap (·.fails)).foldl (fun s f => matrixShadow s m key (teamWidth s m.g.team) f) s

/-- An MMA completes: its operands' slots are freed under .pop, and its queue entry. -/
def endMma (s : State) (m : Mma) : State :=
  let s := if m.pop then
    (let s := popSlot s m.aName m.a
    if m.aName == m.bName then s else popSlot s m.bName m.b) else s
  { s with
    mmas := s.mmas.filter (fun x => x.id != m.id)
    fetched := s.fetched.filter (fun p => p.1 != m.id && p.1 != poisonKey m.id) }

/-- The addresses of an operand's elements, for grouping its peer requests. -/
def tileVas (m : Mma) (r : BitVec 352) (w : Word) (l : List Nat) : List (Nat × Nat) :=
  ((List.range (m.blocks * m.beta)).flatMap (tileIdx r w l)).flatMap (fun i =>
    if i.getD 0 0 < tExt r 0 && i.getD 1 0 < tExt r 1 then
      (elemAddr r i, tEb r) :: (if m.scaled && tScaled r then [(scaleAddr r i, 1)] else [])
    else [])

/-- The MMA stops with an event (R316). -/
def stopMma (s : State) (m : Mma) (key : Nat) (blocks : List Block) (cause : Cause) (va : Nat) : State :=
  endMma (slotEvent (addMma s m key blocks) key ⟨cause, va, 0, 0, 0, (0, 0, 0)⟩) m

/-- The address at which an operand of a block fails R189 step 1: the first of its elements, in the order read. -/
def badTile (s : State) (m : Mma) (cbA cbB b : Nat) : Nat :=
  let ks := (List.range m.beta).map (· + b * m.beta)
  let vas := ks.flatMap (fun k => (tileIdx m.a m.sa m.rowList k).map (fun i => (m.a, cbA, i))) ++
    ks.flatMap (fun k => (tileIdx m.b m.sb (List.range m.cols) k).map (fun i => (m.b, cbB, i)))
  match vas.find? (fun p => match (tileEl s m p.1 p.2.1 p.2.2).1 with
    | .error .bad => true
    | _ => false) with
  | some p =>
    if (engPlace s m.who (elemAddr p.1 p.2.2) .read).1 == .bad then elemAddr p.1 p.2.2 else scaleAddr p.1 p.2.2
  | none => 0

/-- The team of an MMA has not faulted: those of a faulted team are discarded (R323, R334). -/
def mmaLives (s : State) (m : Mma) : Bool :=
  match s.team? m.g.team with
  | some t => t.ending.isNone
  | none => false

/-- The matrix engine performs the first MMA of its slot's order. -/
def execMmaExecute (mma : Nat) (s : State) : Host.Outcome State Fault Refusal :=
  .next (match s.mmas.find? (fun m => m.id == mma) with
    | some m =>
      let key := accKey m.core m.phys
      if ((slotMmas s m.core m.phys).head?.map (·.id)) != some mma || !m.native || askedPeer s mma || !mmaLives s m then s
      else match oldestSlot s m.aName m.a, oldestSlot s m.bName m.b with
        | some ca, some cb => match fetchAll s m ca cb with
          | (blocks, none, s) => endMma (addMma s m key blocks) m
          | (blocks, some e, s) => match e with
            | .bad => stopMma s m key blocks .badAddress (badTile s m ca cb blocks.length)
            | .wait va => raiseFault s (dieOf m.core) none m.who va .read (.mma mma)
            | .ask va x => match m.fail with
              | some (cause, at_) => stopMma s m key blocks cause at_
              | none => match askBlock s m.core (.mma mma) x
                  (tileVas m m.a m.sa m.rowList ++ tileVas m m.b m.sb (List.range m.cols)) va with
                | .ok s => s
                | .error _ => stopMma s m key blocks (if (peerTarget s x va (.read 1)).isNone then .badAddress else .peerTimeout) va
            | .busy | .val .. => s
        | _, _ => s
    | none => s)

/-! ### ALD, AST, ADRN (R320 to R322) -/

/-- The row pitch. -/
def rowPitch (g : Group) (m : MemOp) : Word :=
  match m.index with
  | .s r => g.sreg r.toNat <<< m.scale.toNat
  | _ => 1024
/-- The address of row 0. -/
def rowBase (g : Group) (m : MemOp) : Word := BitVec.ofInt 64 ((if m.nb then 0 else (g.sreg m.base.toNat).toNat : Int) + m.off.toInt)

def rowAddr (g : Group) (m : MemOp) (row : Nat) : Word := rowBase g m + BitVec.ofNat 64 row * rowPitch g m

def pitchBad (g : Group) (m : MemOp) : Bool :=
  (rowBase g m).toNat % 16 != 0 || (rowPitch g m).toNat % 16 != 0 || (rowPitch g m).toNat < 1024

/-- The rows of a lane. -/
def laneRows (w i : Nat) : List Nat := (List.range 64).filter (fun m => m % w == i)

/-- The granules that a lane's rows name: row, granule, address. -/
def rowGrans (c : Cur) (m : MemOp) (i : Nat) : List (Nat × Nat × Word) :=
  (laneRows c.width i).flatMap (fun r => (List.range 64).map (fun j => (r, j, rowAddr c.g m r + BitVec.ofNat 64 (16 * j))))

/-- Addresses of every page that the lanes' rows touch. -/
def rowVas (c : Cur) (m : MemOp) (h : Head) : List Nat :=
  (lanesOf (c.active h)).flatMap (fun i => (laneRows c.width i).flatMap (fun r =>
    [(rowAddr c.g m r).toNat, (rowAddr c.g m r + 1008).toNat]))

/-- What the ALDs of some lanes have found. -/
structure AldAcc where
  s      : State
  out    : List (Nat × Nat × List Byte × Tag)
  parks  : List Nat
  traps  : List LaneTrap
  poison : List LaneTrap
  line   : Option Nat
  peers  : List (Nat × Nat × Xlat)
deriving DecidableEq, Repr

def aldGran (c : Cur) (i : Nat) (a : AldAcc) (p : Nat × Nat × Word) : AldAcc :=
  let va := p.2.2
  match readFor a.s c.ref c.who va 16 16 .read false (.lanes c.ref (maskOf [i])) with
  | (.trap x, s) => { a with s := s, traps := a.traps ++ [⟨i, x, 0, va⟩] }
  | (.park, s) => { a with s := s, parks := a.parks ++ [i] }
  | (.line l, s) => { a with s := s, line := some l }
  | (.peer x, s) => match fetchedAt s (wordKey c.ref) va.toNat 16 with
    | some b => { a with s := s, out := a.out ++ [(p.1, p.2.1, b, 0)] }
    | none => match peerTarget s x va.toNat (.read 16) with
      | some _ => { a with s := s, peers := a.peers ++ [(va.toNat, 16, x)] }
      | none => { a with s := s, traps := a.traps ++ [⟨i, .badAddress, 0, va⟩] }
  | (.gran g, s) =>
    if g.poison then { a with s := s, poison := a.poison ++ [⟨i, .poison, g.tag, va⟩] }
    else { a with s := s, out := a.out ++ [(p.1, p.2.1, g.bytes, g.tag)] }

/-- A lane that parks or traps writes none of its rows; only its first trap counts. -/
def aldLane (c : Cur) (m : MemOp) (a : AldAcc) (i : Nat) : AldAcc :=
  let b := (rowGrans c m i).foldl (aldGran c i) ⟨a.s, [], [], [], [], none, []⟩
  let bad := !(b.parks.isEmpty && b.traps.isEmpty && b.poison.isEmpty)
  { s := b.s
    out := if bad then a.out else a.out ++ b.out
    parks := if b.parks.isEmpty || !b.traps.isEmpty || !b.poison.isEmpty then a.parks else a.parks ++ [i]
    traps := a.traps ++ b.traps.take 1
    poison := if b.traps.isEmpty then a.poison ++ b.poison.take 1 else a.poison
    line := if b.line.isSome then b.line else a.line
    peers := a.peers ++ b.peers }

/-- Writes the rows read into the slot. -/
def aldPut (rule : TagRule) (handle : Nat) (a : Acc) (p : Nat × Nat × List Byte × Tag) : Acc :=
  a.putGran p.1 p.2.1 p.2.2.1 (TagSrc.tag handle (loadTag rule p.2.2.2 (a.tag p.1 p.2.1)))

def execAld (h : Head) (o : MOrd) (slot : BitVec 6) (m : MemOp) (s : State) : Host.Outcome State Fault Refusal :=
  memWord s h (slotNamed slot) o (fun c => rowVas c m h) fun c =>
    heldWord s c slot fun s key _ =>
      let c := refresh s c
      if pitchBad c.g m then trapAll s c c.n.x .align 0 (rowBase c.g m)
      else
        let a := (lanesOf (c.active h)).foldl (aldLane c m) ⟨s, [], [], [], [], none, []⟩
        match a.line, a.peers with
        | some l, _ => blockWord a.s c (.line l)
        | none, p :: ps => blockWord (askPeers a.s (fun va => .word c.n va) c.t.core (p :: ps)) c .peer
        | none, [] =>
          let s := dropFetched a.s (wordKey c.ref)
          let (hd, s) := if h.rule == .birth && !a.out.isEmpty then internFor s c.ref c.n.pc else (0, s)
          let s := s.modAcc key (fun x => a.out.foldl (aldPut h.rule hd) x)
          let s := stayParked s c key (lanesOf (c.active h)) a.parks
          eatPoison (withAcquire s c o) c h (maskOf a.parks) a.traps a.poison

/-- A lane's slot granules with what stops the lane: poison, or TAG_STORE. -/
def slotStop (c : Cur) (a : Acc) (i : Nat) (gs : List (Nat × Nat × Word)) : Option LaneTrap :=
  match gs.find? (fun p => a.poison.contains (64 * p.1 + p.2.1)) with
  | some p => some ⟨i, .poison, a.tag p.1 p.2.1, p.2.2⟩
  | none =>
    if c.l.kernel.trapstore then (gs.find? (fun p => (a.tag p.1 p.2.1).msb)).map (fun p => ⟨i, .tagStore, a.tag p.1 p.2.1, p.2.2⟩)
    else none

/-- What the lanes of an AST or ADRN have found: writes, REDs, the rows sent, parks, traps and poison. -/
structure AstAcc where
  st     : StoreAcc
  reds   : List RedReq
  rows   : List Nat
  poison : List LaneTrap
deriving DecidableEq, Repr

/-- One granule of a storing lane. -/
def astGran (c : Cur) (a : Acc) (i : Nat) (st : StoreAcc) (p : Nat × Nat × Word) : StoreAcc :=
  let t := a.tag p.1 p.2.1
  storeLane c 16 (fun _ => p.2.2) (fun _ => 0) (fun _ => (a.bytes p.1 p.2.1, [(0, t), (4, t), (8, t), (12, t)])) st i

/-- What stops a storing lane: the first failed check of its granules' addresses, else its slot granules (R321). -/
def laneStop (c : Cur) (a : Acc) (i : Nat) (gs : List (Nat × Nat × Word)) (traps : List LaneTrap) : Option LaneTrap :=
  match traps.find? (fun t => t.cause != .tagStore) with
  | some t => some t
  | none => slotStop c a i gs

/-- What a storing lane found, `b`, added to what the lanes before it did. -/
def addLane (c : Cur) (i : Nat) (x : AstAcc) (b : StoreAcc) (reds : List RedReq) (stop : Option LaneTrap) : AstAcc :=
  match stop with
  | some t =>
    if t.cause == .poison then { x with st := { x.st with s := b.s, extra := b.extra }, poison := x.poison ++ [t] }
    else { x with st := { x.st with s := b.s, extra := b.extra, traps := x.st.traps ++ [t] } }
  | none =>
    if b.parks.isEmpty then
      { x with
        st := { x.st with s := b.s, extra := b.extra, out := x.st.out ++ b.out }
        reds := x.reds ++ reds
        rows := x.rows ++ laneRows c.width i }
    else { x with st := { x.st with s := b.s, extra := b.extra, parks := x.st.parks ++ [i] } }

/-- One lane of AST or ADRN.store. -/
def astLane (_issue : Nat) (c : Cur) (m : MemOp) (a : Acc) (x : AstAcc) (i : Nat) : AstAcc :=
  let gs := rowGrans c m i
  let b := gs.foldl (astGran c a i) { x.st with out := [], parks := [], traps := [] }
  addLane c i x b [] (laneStop c a i gs b.traps)

/-- One granule of a draining lane: a RED.fadd.b32 for each of its four words. -/
def drainGran (issue : Nat) (c : Cur) (a : Acc) (i : Nat) (x : StoreAcc × List RedReq) (p : Nat × Nat × Word) :
    StoreAcc × List RedReq :=
  match storeFor x.1.s c.who p.2.2 16 .rmw c.t.id (.lanes c.ref (maskOf [i])) x.1.extra with
  | (.trap y, s) => ({ x.1 with s := s, traps := x.1.traps ++ [⟨i, y, 0, p.2.2⟩] }, x.2)
  | (.park, s) => ({ x.1 with s := s, parks := x.1.parks ++ [i] }, x.2)
  | (put, s) =>
    let noWin := match put with
      | .mem (some y) => y.peer && (peerTarget s y p.2.2.toNat (.red .fadd false 0)).isNone
      | _ => false
    if noWin then ({ x.1 with s := s, traps := x.1.traps ++ [⟨i, .badAddress, 0, p.2.2⟩] }, x.2)
    else
      let reqs := (List.range 4).map (fun j =>
        (⟨s.seqN + j, c.ref, c.t.core, c.t.slot, i, p.2.2.toNat + 4 * j, .fadd, false, (a.elem p.1 (4 * p.2.1 + j)).setWidth 64,
          a.tag p.1 p.2.1, c.n.pc, birthOf s c.ref, issue, false⟩ : RedReq))
      let extra := if put == .mem none then x.1.extra ++ [lineKey c.t.slot p.2.2.toNat] else x.1.extra
      ({ x.1 with s := { s with seqN := s.seqN + 4 }, extra := extra }, x.2 ++ reqs)

/-- One lane of ADRN.fadd. -/
def adrnLane (issue : Nat) (c : Cur) (m : MemOp) (a : Acc) (x : AstAcc) (i : Nat) : AstAcc :=
  let gs := rowGrans c m i
  let (b, reds) := gs.foldl (drainGran issue c a i) ({ x.st with out := [], parks := [], traps := [] }, [])
  addLane c i x b reds (laneStop c a i gs b.traps)

def AstAcc.start (s : State) : AstAcc := ⟨StoreAcc.start s, [], [], []⟩

/-- The rows sent become +0 with tag 0. -/
def zeroRows (rows : List Nat) (a : Acc) : Acc :=
  rows.foldl (fun a r => (List.range 64).foldl (fun a j => a.putGran r j (List.replicate 16 0) 0) a) a

/-- Queues what the lanes send and ends the word. -/
def astDone (c : Cur) (h : Head) (key : Nat) (zero : Bool) (x : AstAcc) : State :=
  let ws := x.st.out.foldl addWrite []
  let s := ws.foldl (fun s p => queueWrite s c (heldStore c p.1) p.2) x.st.s
  let s := { s with redQ := s.redQ ++ x.reds }
  let s := if zero then s.modAcc key (zeroRows x.rows) else s
  let s := stayParked s c key (lanesOf (c.active h)) x.st.parks
  eatPoison s c h (maskOf x.st.parks) x.st.traps x.poison

/-- AST and ADRN: `lane` sends one lane's rows. -/
def astWord (s : State) (h : Head) (o : MOrd) (slot : BitVec 6) (m : MemOp) (zero pins : Bool)
    (lane : Nat → Cur → MemOp → Acc → AstAcc → Nat → AstAcc) : Host.Outcome State Fault Refusal :=
  memWord s h (slotNamed slot) o (fun c => rowVas c m h) fun c =>
    heldWord s c slot fun s key _ =>
      let c := refresh s c
      if pitchBad c.g m then trapAll s c c.n.x .align 0 (rowBase c.g m)
      else if pins && unbound s c.ref then blockWord s c .peer
      else withRelease s c (peerOrd s c o (rowVas c m h)) fun s =>
        let go := fun (s : State) (c : Cur) => match s.acc? key with
          | some a => (lanesOf (c.active h)).foldl (lane s.seqN c m a) (AstAcc.start s)
          | none => AstAcc.start s
        let c := refresh s c
        let x := go s c
        if pins || storePins c x.st then
          afterSync c (pinFirst x.st.s c) fun s =>
            let s := if pins then drainGroup s c.ref else s
            let c := refresh s c
            astDone c h key zero (go s c)
        else astDone c h key zero x

def execAst (h : Head) (o : MOrd) (slot : BitVec 6) (m : MemOp) (s : State) : Host.Outcome State Fault Refusal :=
  astWord s h o slot m false false astLane
def execAdrnStore (h : Head) (o : MOrd) (slot : BitVec 6) (m : MemOp) (s : State) : Host.Outcome State Fault Refusal :=
  astWord s h o slot m true false astLane
def execAdrnFadd (h : Head) (o : MOrd) (slot : BitVec 6) (m : MemOp) (s : State) : Host.Outcome State Fault Refusal :=
  astWord s h o slot m true true adrnLane

end Sys2Proof.Machine
end

