-- ==== Sys2Proof/Machine/Convert.lean ====
section
/-! DEFINITION. Conversion instructions (R119 to R126): variable-latency, through the conversion queue. -/

namespace Sys2Proof.Machine

open Sys2Proof

/-- A conversion's source for the tag rule: exceptional by tag, or by the value in its floating format. -/
def fmtSrc (g : Group) (c : BitVec 8) (a : Src) (lane : Nat) : TSrc :=
  let t := fmtTag g c a lane
  ⟨t, t.msb || (fmtFloat c && specialF (fmtOf c) (readFmt g c a lane))⟩

/-- The budget of an operand read in a format. -/
def Cur.fmtOk (c : Cur) (f : BitVec 8) (a : Src) : Bool := c.srcOk (if fmtWidth f == 64 then .f64 else .i32) a

/-- The lanes of a word that took a draw. -/
def drawn (s : State) (c : Cur) (h : Head) (rnd : Rnd) : State :=
  if rnd == .rs then countDraws s c (c.active h) else s

/-- A word of the conversion queue: the results leave when the queue has room (R81). -/
def cvtWord (s : State) (c : Cur) (h : Head) (rnd : Rnd) (ws : List RegW) : State :=
  match resultGate c .cvt with
  | some w => blockWord s c w
  | none => resultDone (drawn s c h rnd) c h .cvt ws

/-- CVT (R120). -/
def execCvt (h : Head) (dst : BitVec 8) (vd : BitVec 8) (a : Src) (src : BitVec 8) (m : FMod) (s : State) :
    Host.Outcome State Fault Refusal :=
  onCur s fun c =>
    let pair := fmtWidth dst == 64
    if c.vOk vd.toNat pair && c.fmtOk src a then
      cvtWord s c h m.rnd ((lanesOf (c.active h)).flatMap fun i =>
        let (z, e) := convertF (fmtOf src) (fmtOf dst) (laneRd s c m.rnd m.sat 1 i 0) m.ftz (readFmt c.g src a i)
        putV pair vd.toNat i (placeF (fmtOf dst) z)
          (tagResult h.rule [fmtSrc c.g src a i] e (oldTag c.g pair vd.toNat i)))
    else wordFault s c .illegalOperand

/-- Case 1 of R122 for one element: it overflowed or saturated, or a number gave NaN. -/
def cvtMade (src dst : NF) (a z : Nat) (exc : Bool) : Bool :=
  exc && !(src.floating && (decF src a).isNan) && !(src.floating && specialF src a && !(decF dst z).isNan && specialF dst z)

/-- CVTP's tag (R122): the BLAME rule of the packed word, and the other rules with case 1 as `made`. -/
def cvtpTag (rule : TagRule) (srcs : List TSrc) (exc made : Bool) (old : Tag) : TagSrc :=
  let blame : TagSrc :=
    if made then .born true
    else match firstExc srcs with
      | some f => if f.tag.msb then .known f.tag else .born true
      | none => .known (match srcs with
        | f :: _ => f.tag
        | [] => 0)
  match rule with
  | .blame => blame
  | .birth => .born exc
  | .pass => tagMade .pass srcs exc made old
  | .keep => if exc then blame else .known old

/-- CVTP (R121). -/
def cvtpLane (s : State) (c : Cur) (h : Head) (dst vd : BitVec 8) (a b : Src) (src : BitVec 8) (rnd : Rnd)
    (hi sat : Bool) (i : Nat) : List RegW :=
  let df := fmtOf dst
  let sf := fmtOf src
  let x0 := readFmt c.g src a i
  let x1 := readFmt c.g src b i
  let (z0, e0) := convertF sf df (laneRd s c rnd sat 2 i 0) false x0
  let (z1, e1) := convertF sf df (laneRd s c rnd sat 2 i 1) false x1
  let old := (c.g.vreg vd.toNat i).toNat
  let oldT := c.g.vtag vd.toNat i
  let narrow := df.w == 8
  let kept := if hi then old % 2 ^ 16 else old / 2 ^ 16
  let half := z1 % 2 ^ df.w * 2 ^ df.w + z0 % 2 ^ df.w
  let x := if narrow then (if hi then half * 2 ^ 16 + kept else kept * 2 ^ 16 + half) else half
  let keptExc := fmtFloat dst && (splitN 8 2 kept).any (specialF df)
  let srcs := [fmtSrc c.g src a i, fmtSrc c.g src b i] ++ (if narrow then [⟨oldT, oldT.msb || keptExc⟩] else [])
  let made := cvtMade sf df x0 z0 e0 || cvtMade sf df x1 z1 e1
  putV false vd.toNat i x (cvtpTag h.rule srcs (e0 || e1 || (narrow && keptExc)) made oldT)

def execCvtp (h : Head) (dst : BitVec 8) (vd : BitVec 8) (a b : Src) (src : BitVec 8) (rnd : Rnd) (hi sat : Bool)
    (s : State) : Host.Outcome State Fault Refusal :=
  onCur s fun c =>
    if c.vOk vd.toNat false && c.fmtOk src a && c.fmtOk src b then
      cvtWord s c h rnd ((lanesOf (c.active h)).flatMap (cvtpLane s c h dst vd a b src rnd hi sat))
    else wordFault s c .illegalOperand

/-- CVTX (R123): the element index is B as n32, modulo the element count. -/
def execCvtx (h : Head) (dst : BitVec 8) (vd : BitVec 8) (a b : Src) (src : BitVec 8) (m : FMod) (s : State) :
    Host.Outcome State Fault Refusal :=
  onCur s fun c =>
    let pair := fmtWidth dst == 64
    let w := fmtWidth src
    if c.vOk vd.toNat pair && c.srcOk .i32 a && c.srcOk .n32 b then
      cvtWord s c h m.rnd ((lanesOf (c.active h)).flatMap fun i =>
        let k := readSrc c.g .n32 b i % (32 / w)
        let x := (readSrc c.g (fmtType src) a i / 2 ^ (w * k)) % 2 ^ w
        let (z, e) := convertF (fmtOf src) (fmtOf dst) (laneRd s c m.rnd m.sat 1 i 0) m.ftz x
        let t := srcTag c.g .i32 a i
        putV pair vd.toNat i (placeF (fmtOf dst) z)
          (tagResult h.rule [⟨t, t.msb || (fmtFloat src && specialF (fmtOf src) x)⟩] e (oldTag c.g pair vd.toNat i)))
    else wordFault s c .illegalOperand

/-- FSCL (R124). B of .apply holds a scale in its low byte, so that its value is never a NaN or an infinity: it is
exceptional by its tag only. A constant or the lane index there is read under the type of A (R61, R62). -/
def execFscl (h : Head) (f : FSclF) (vd : BitVec 8) (a : Src) (s : State) : Host.Outcome State Fault Refusal :=
  onCur s fun c =>
    match f with
    | .apply t b m =>
      if c.vOk vd.toNat false && c.srcOk t a && c.srcOk t b then
        cvtWord s c h m.rnd ((lanesOf (c.active h)).flatMap fun i =>
          let x := readSrc c.g t b i
          let es := (VType.split t (readSrc c.g t a i)).mapIdx fun k e =>
            scaleElem (VType.fmt t) (laneRd s c m.rnd m.sat (VType.count t) i k) e x
          let bt := srcTag c.g t b i
          laneV c h t vd i [srcOf c.g t a i, ⟨bt, bt.msb⟩] (packElems t es))
      else wordFault s c .illegalOperand
    | .comp fmt =>
      if c.vOk vd.toNat false && c.srcOk .f32 a then
        cvtWord s c h .rn ((lanesOf (c.active h)).flatMap fun i =>
          laneV c h .f32 vd i [srcOf c.g .f32 a i] (scaleComp (fmt8 fmt) (readSrc c.g .f32 a i)))
      else wordFault s c .illegalOperand

end Sys2Proof.Machine
end

