-- ==== Sys2Proof/Machine/Reversible.lean ====
section
/-! DEFINITION. The slate (R367 to R375), the forward and undo forms (R376 to R386), markers and depth (R387 to
R390), and frames that a SHADOW left incomplete (R391). -/

namespace Sys2Proof.Machine

open Sys2Proof

/-! ### Frames -/

/-- An entry (R370). -/
def entryWord (u w : Bool) (tag : Tag) (payload : Nat) : Word :=
  (0 : BitVec 13) ++ (1 : BitVec 1) ++ BitVec.ofBool u ++ BitVec.ofBool w ++ tag ++ BitVec.ofNat 32 payload

def entryV (e : Word) : Bool := e.getLsbD 50
def entryU (e : Word) : Bool := e.getLsbD 49
def entryW (e : Word) : Bool := e.getLsbD 48
def entryTag (e : Word) : Tag := e.extractLsb' 32 16
def entryPay (e : Word) : Nat := (e.extractLsb' 0 32).toNat

/-- A frame header (R368). -/
def frameHead (seq : BitVec 32) (mark : BitVec 16) (fmt : BitVec 8) (width op : Nat) (entries : List Word) : Word :=
  seq ++ mark ++ fmt ++ BitVec.ofNat 2 (if width == 16 then 0 else if width == 32 then 1 else 2) ++
  BitVec.ofBool (entries.any entryW) ++ BitVec.ofBool (entries.any entryU) ++ BitVec.ofNat 4 op

def headSeq (h : Word) : BitVec 32 := h.extractLsb' 32 32
def headMark (h : Word) : BitVec 16 := h.extractLsb' 16 16
def headFmt (h : Word) : BitVec 8 := h.extractLsb' 8 8
def headWidth (h : Word) : Nat := (h.extractLsb' 6 2).toNat
def headOp (h : Word) : Nat := (h.extractLsb' 0 4).toNat

/-- Bits 4 and 5 of a header follow its entries. -/
def headFlags (h : Word) (entries : List Word) : Word :=
  h.extractLsb' 6 58 ++ BitVec.ofBool (entries.any entryW) ++ BitVec.ofBool (entries.any entryU) ++ h.extractLsb' 0 4

/-! ### Capacities and places (R371) -/

/-- Frames the group holds on chip. -/
def chipCap (k : Kernel) : Nat := k.slateOn / (8 + 8 * k.width)

/-- The region holds `f` frames. -/
def fitsRegion (k : Kernel) (f : Nat) : Bool := alignUp 512 (8 * f) + 2 * alignUp 512 (4 * k.width * f) ≤ k.slateMem

/-- F: rounding up costs fewer than 1,536 bytes, which is fewer than 12 frames. -/
def regionCap (k : Kernel) : Nat :=
  let top := k.slateMem / (8 + 8 * k.width)
  ((List.range 13).map (fun i => top - i)).find? (fitsRegion k) |>.getD 0

/-- Where frame `j` stands: its header, side and payload bytes. -/
def headPlace (s : State) (c : Cur) (j : Nat) : Nat := slatePlace s c.t c.l.kernel c.g.grp + 8 * j
def sidePlace (s : State) (c : Cur) (j : Nat) : Nat :=
  slatePlace s c.t c.l.kernel c.g.grp + alignUp 512 (8 * regionCap c.l.kernel) + 4 * c.width * j
def payPlace (s : State) (c : Cur) (j : Nat) : Nat :=
  slatePlace s c.t c.l.kernel c.g.grp + alignUp 512 (8 * regionCap c.l.kernel) +
    alignUp 512 (4 * c.width * regionCap c.l.kernel) + 4 * c.width * j

/-! ### Spills -/

/-- The writes of bytes at an address: every granule written carries tag 0 (R374). -/
def regionWrites (seq : Nat) (r : GRef) (slot va : Nat) (b : List Byte) : List GWrite :=
  (pieces va b.length).flatMap fun p =>
    let o := p.1 % 16
    let w : GWrite := ⟨seq, r, 0, slot, p.1 / 16 * 16, ((b.drop (p.1 - va)).take p.2).mapIdx (fun i x => (o + i, x)), [(o, 0)], none, true, []⟩
    if p.2 == 16 then [w] else [w, { w with bytes := [], tags := [], tstg := some 0 }]

/-- The writes of a frame at a position. -/
def frameWrites (s : State) (c : Cur) (j : Nat) (f : Frame) : List GWrite :=
  regionWrites s.seqN c.ref c.t.slot (headPlace s c j) (natBytes 8 f.head.toNat) ++
  regionWrites s.seqN c.ref c.t.slot (sidePlace s c j) (f.entries.flatMap (fun e => natBytes 4 (e.toNat / 2 ^ 32))) ++
  regionWrites s.seqN c.ref c.t.slot (payPlace s c j) (f.entries.flatMap (fun e => natBytes 4 (e.toNat % 2 ^ 32)))

/-- What the granules of a spill have found so far. -/
structure SpillAcc where
  s     : State
  out   : List (Put × GWrite)
  park  : Bool
  trap  : Option (Cause × Word)
  extra : List Nat
deriving DecidableEq, Repr

def spillGran (c : Cur) (a : SpillAcc) (w : GWrite) : SpillAcc :=
  let va := BitVec.ofNat 64 w.va
  match storeFor a.s c.who va 16 .write c.t.id (.lanes c.ref c.n.x) a.extra with
  | (.trap x, s) => { a with s := s, trap := some (x, va) }
  | (.park, s) => { a with s := s, park := true }
  | (.mem none, s) => { a with s := s, out := a.out ++ [(.mem none, w)], extra := a.extra ++ [GWrite.line w] }
  | (p, s) => { a with s := s, out := a.out ++ [(p, w)] }

/-- Spills writes as stores of the group and goes on; at the limit of R215 every lane of X parks on the word. -/
def withSpill (s : State) (c : Cur) (h : Head) (ws : List GWrite) (k : State → State) : State :=
  let a := ws.foldl (spillGran c) ⟨s, [], false, none, []⟩
  match a.trap with
  | some t => trapAll a.s c c.n.x t.1 0 t.2
  | none =>
    if a.park then settle a.s c h c.n.x []
    else k (a.out.foldl (fun s p => queueWrite s c false { p.2 with va := putVa p.1 p.2.va }) a.s)

def Cur.slate (c : Cur) (s : State) (f : Slate → Slate) : State := c.mod s (fun g => { g with slate := f g.slate })

/-! ### Pushes (R369, R372) -/

/-- Pushes a frame and goes on: at once when the chip has room, into memory when the chip holds no frame, and
after SLATE_SPILL otherwise. Nothing happens when position F would be needed. -/
def withPush (s : State) (c : Cur) (h : Head) (mark : BitVec 16) (fmt : BitVec 8) (op : Nat) (entries : List Word)
    (k : State → State) : State :=
  let x := c.g.slate
  let seq := x.pushes + 1
  let f : Frame := ⟨frameHead seq mark fmt c.width op entries, entries⟩
  if x.chip.length < chipCap c.l.kernel then
    k (c.slate s (fun x => { x with chip := f :: x.chip, pushes := seq }))
  else if x.inmem ≥ regionCap c.l.kernel then wordFault s c .slateOverflow
  else if chipCap c.l.kernel == 0 then
    withSpill s c h (frameWrites s c x.inmem f) fun s =>
      k (c.slate s (fun x => { x with inmem := x.inmem + 1, pushes := seq, spills := x.spills + 1 }))
  else blockWord s c .spill

/-- The oldest on-chip frame spills for a waiting push (R372). -/
def execSlateSpill (g : GRef) (s : State) : Host.Outcome State Fault Refusal :=
  .next (match (s.group? g).bind (·.wait) with
    | some w => if w.why != .spill then s else match curAt s w.now with
      | some c => match c.g.slate.chip.getLast? with
        | some f =>
          withSpill (wake s g) c ⟨false, .blame, 0, false⟩ (frameWrites s c c.g.slate.inmem f) fun s =>
            c.slate s (fun x => { x with chip := x.chip.dropLast, inmem := x.inmem + 1, spills := x.spills + 1 })
        | none => wake s g
      | none => s
    | none => s)

/-! ### Pops (R373, R384) -/

/-- The frame that bytes read back give. -/
def frameOf (hd side pay : List Byte) (w : Nat) : Frame :=
  ⟨BitVec.ofNat 64 (leNat hd), (List.range w).map (fun i =>
    BitVec.ofNat 64 (leNat ((side.drop (4 * i)).take 4) * 2 ^ 32 + leNat ((pay.drop (4 * i)).take 4)))⟩

/-- Goes on with the newest frame on chip, filled from memory when the chip holds none. -/
def withNewest (s : State) (c : Cur) (h : Head) (k : State → Frame → State) : State :=
  let x := c.g.slate
  match x.chip with
  | f :: _ => k s f
  | [] =>
    if x.inmem == 0 then wordFault s c .slateUnderflow
    else
      let j := x.inmem - 1
      let at_ := fun (n : Nat) => BitVec.ofNat 64 n
      withBulk s c h (at_ (headPlace s c j)) 8 8 fun s a =>
      withBulk s c h (at_ (sidePlace s c j)) 4 (4 * c.width) fun s b =>
      withBulk s c h (at_ (payPlace s c j)) 4 (4 * c.width) fun s p =>
        let f := frameOf a b p c.width
        k (c.slate (dropFetched s (wordKey c.ref)) (fun x => { x with chip := [f], inmem := j, fills := x.fills + 1 })) f

/-- The width field of the group. -/
def widthCode (w : Nat) : Nat := if w == 16 then 0 else if w == 32 then 1 else 2

/-! ### Forward values -/

/-- The exact sum of some terms as a binary32 code, when it is one. -/
def exact32 (ts : List FV) : Option Nat :=
  let (z, ovf) := roundXV .f32 rne (exactSum .rn ts)
  match exactSum .rn (ts ++ [(decF .f32 z).neg]) with
  | .zero _ => if ovf then none else some z
  | _ => none

/-- |x| > |y| of two finite values. -/
def largerMag (x y : FV) : Bool :=
  match x, y with
  | .fin _ m e, .fin _ n k => !leScaled m e n k
  | _, _ => false

def FV.isZero : FV → Bool
  | .fin _ m _ => m == 0
  | _ => false

/-- The magnitude of an exact sum. -/
def sumFV (ts : List FV) : FV :=
  match exactSum .rn ts with
  | .fin n m e => .fin n m e
  | .zero n => .fin n 0 0
  | .inf n => .inf n
  | .nan => .nan false 0

/-- What a form keeps beside its result: W, U and the payload. -/
structure KeptBits where
  w : Bool
  u : Bool
  pay : Nat
deriving DecidableEq, Repr

def keepWhole (a : Nat) : KeptBits := ⟨true, false, a⟩

/-- RVMUL.f32 (R377) for sources and result. -/
def keepMul (a b y : Nat) : KeptBits :=
  let x := decF .f32 a
  let z := decF .f32 b
  let v := decF .f32 y
  if z.isZero || x.special || z.special || v.special || v.isZero || subnormalF .f32 y then keepWhole a
  else match exact32 [x.mul z, v.neg] with
    | some p => ⟨false, largerMag v (x.mul z), p⟩
    | none => keepWhole a

/-- RVADD (R379). -/
def keepAdd (a b y : Nat) : KeptBits :=
  let x := decF .f32 a
  let z := decF .f32 b
  let v := decF .f32 y
  if x.special || z.special || v.special || v.isZero then keepWhole a
  else match exact32 [x, z, v.neg] with
    | some p => ⟨false, largerMag v (sumFV [x, z]), p⟩
    | none => keepWhole a

/-- RVMUL.i32 (R378): the low and the kept half of the product. -/
def mulInt (a b : Nat) : Nat × KeptBits :=
  let p := sgn 32 a * sgn 32 b
  (wrapN 32 p, if b % 2 ^ 32 == 0 then keepWhole a else ⟨false, false, wrapN 32 (p / 2 ^ 32)⟩)

/-- RVNAR (R380). -/
def keepNar (f : NF) (a y : Nat) (exc : Bool) : KeptBits :=
  let x := decF .f32 a
  let v := decF f y
  let same := exactSum .rn [x, v.neg] == .zero false
  if x.special || exc || (negF .f32 a && !f.signed) || v.isZero || (subnormalF f y && !same) then keepWhole a
  else match exact32 [x, v.neg] with
    | some p => ⟨false, largerMag v x, p⟩
    | none => keepWhole a

/-- RVMAX0 (R381). -/
def maxZero (a : Nat) : Nat × KeptBits :=
  match decF .f32 a with
  | .nan .. => (quietF .f32 a, keepWhole a)
  | _ => if negF .f32 a then (0, keepWhole a) else (a, ⟨false, false, 0⟩)

/-! ### Forward forms -/

/-- One lane of a forward form: what it keeps, and the tag of its source. -/
structure FwdLane where
  lane : Nat
  tag  : Tag
  kept : KeptBits
deriving DecidableEq, Repr

/-- The entries of some lanes, zero elsewhere. -/
def entriesOf (width : Nat) (ls : List FwdLane) : List Word :=
  (List.range width).map (fun i => match ls.find? (fun l => l.lane == i) with
    | some l => entryWord l.kept.u l.kept.w l.tag l.kept.pay
    | none => 0)

/-- The incomplete frame this issue completes (R391): the lanes are back from the handler, whose own issues complete
none. -/
def replayOf (c : Cur) : Option (BitVec 32 × Mask) :=
  if c.g.inTrap then none
  else (c.g.slate.shadow.find? (fun p => p.1 == c.n.pc && c.n.x &&& ~~~p.2.2 == 0)).map (·.2)

/-- The entries of a frame after a replay's lanes are put in. -/
def mergeEntries (old new : List Word) : List Word :=
  List.zipWith (fun o n => if entryV n then n else o) old new

/-- A replay writes its lanes' entries into the newest frame, on chip or in memory, and pushes nothing. -/
def withReplay (s : State) (c : Cur) (h : Head) (seq : BitVec 32) (entries : List Word) (k : State → State) : State :=
  let x := c.g.slate
  match x.chip with
  | f :: rest =>
    if headSeq f.head != seq then wordFault s c .slateOrder
    else
      let es := mergeEntries f.entries entries
      k (c.slate s (fun x => { x with chip := ⟨headFlags f.head es, es⟩ :: rest }))
  | [] =>
    if x.inmem == 0 then wordFault s c .slateOrder
    else
      let j := x.inmem - 1
      let at_ := fun (n : Nat) => BitVec.ofNat 64 n
      withBulk s c h (at_ (headPlace s c j)) 8 8 fun s a =>
      withBulk s c h (at_ (sidePlace s c j)) 4 (4 * c.width) fun s b =>
      withBulk s c h (at_ (payPlace s c j)) 4 (4 * c.width) fun s p =>
        let f := frameOf a b p c.width
        let es := mergeEntries f.entries entries
        let s := dropFetched s (wordKey c.ref)
        if headSeq f.head != seq then wordFault s c .slateOrder
        else withSpill s c h (frameWrites s c j ⟨headFlags f.head es, es⟩) k

/-- The frame of a forward form's issue: pushed, or completed by a replay; `bad` lanes are still missing. -/
def withFrame (s : State) (c : Cur) (h : Head) (fmt : BitVec 8) (op : Nat) (ls : List FwdLane) (bad : Mask)
    (k : State → State) : State :=
  let es := entriesOf c.width ls
  let left := fun (seq : BitVec 32) (s : State) => c.slate s (fun x => { x with
    shadow := x.shadow.filter (fun p => p.1 != c.n.pc) ++ (if bad == 0 then [] else [(c.n.pc, seq, bad)]) })
  match replayOf c with
  | some p => withReplay s c h p.1 es (fun s => k (left p.1 s))
  | none => withPush s c h 0 fmt op es (fun s => k (left (c.g.slate.pushes + 1) s))

/-- A forward form whose unit is monitored: `keep` gives what a lane keeps from its sources and result. -/
def fwdMonitored (s : State) (c : Cur) (h : Head) (vd : BitVec 8) (a b : Src) (rnd : Rnd) (major kind opn : Nat)
    (op : FpOp) (keep : Nat → Nat → Nat → KeptBits) : State :=
  let lanes := (lanesOf (c.active h)).map fun i =>
    fpLane s c .f32 ⟨rnd, false, false⟩ op i [readSrc c.g .f32 a i, readSrc c.g .f32 b i]
  let hit := lanes.map (strike s c.t.core)
  let good := hit.filter (fun l => (badElem l).isNone)
  let bad := maskOf ((hit.filter (fun l => (badElem l).isSome)).map (·.lane))
  let fl := good.map (fun l => (⟨l.lane, srcTag c.g .f32 a l.lane,
    keep (readSrc c.g .f32 a l.lane) (readSrc c.g .f32 b l.lane) (monValue .f32 l).1⟩ : FwdLane))
  withFrame s c h 0x02 opn fl bad fun s =>
    monitored s c h major kind (rnd == .rs) lanes fun l =>
      laneV c h .f32 vd l.lane [srcOf c.g .f32 a l.lane, srcOf c.g .f32 b l.lane] (monValue .f32 l)

/-- A forward form with no monitor: `f` gives a lane's result, whether it is exceptional, and what it keeps. -/
def fwdPlain (s : State) (c : Cur) (h : Head) (vd : BitVec 8) (a : Src) (fmt : BitVec 8) (opn : Nat) (rnd : Rnd)
    (srcs : Nat → List TSrc) (f : Nat → Nat × Bool × KeptBits) : State :=
  let ls := lanesOf (c.active h)
  let fl := ls.map (fun i => (⟨i, srcTag c.g .f32 a i, (f i).2.2⟩ : FwdLane))
  withFrame s c h fmt opn fl 0 fun s =>
    fixedDone (drawn s c h rnd) c h (ls.flatMap fun i => laneV c h .f32 vd i (srcs i) ((f i).1, (f i).2.1))

/-- RVMUL (R377, R378). -/
def execRvmul (h : Head) (t : VType) (vd : BitVec 8) (a b : Src) (rnd : Rnd) (s : State) :
    Host.Outcome State Fault Refusal :=
  onCur s fun c =>
    if !(c.vOk vd.toNat false && c.srcOk t a && c.srcOk t b) then wordFault s c .illegalOperand
    else if t == .f32 then fwdMonitored s c h vd a b rnd 0x90 1 1 .mul keepMul
    else fwdPlain s c h vd a 0x0C 2 .rn (fun i => [srcOf c.g .i32 a i, srcOf c.g .i32 b i]) fun i =>
      let r := mulInt (readSrc c.g .i32 a i) (readSrc c.g .i32 b i)
      (r.1, false, r.2)

/-- RVADD (R379). -/
def execRvadd (h : Head) (vd : BitVec 8) (a b : Src) (rnd : Rnd) (s : State) : Host.Outcome State Fault Refusal :=
  onCur s fun c =>
    if c.vOk vd.toNat false && c.srcOk .f32 a && c.srcOk .f32 b then
      fwdMonitored s c h vd a b rnd 0x91 0 3 .add keepAdd
    else wordFault s c .illegalOperand

/-- RVNAR (R380). -/
def execRvnar (h : Head) (fmt : BitVec 8) (vd : BitVec 8) (a : Src) (rnd : Rnd) (sat : Bool) (s : State) :
    Host.Outcome State Fault Refusal :=
  onCur s fun c =>
    if c.vOk vd.toNat false && c.srcOk .f32 a then
      let f := fmtOf fmt
      fwdPlain s c h vd a fmt 4 rnd (fun i => [srcOf c.g .f32 a i]) fun i =>
        let x := readSrc c.g .f32 a i
        let (y, e) := convertF .f32 f (laneRd s c rnd sat 1 i 0) false x
        (placeF f y, e, keepNar f x y e)
    else wordFault s c .illegalOperand

/-- RVMAX0 (R381). -/
def execRvmax0 (h : Head) (vd : BitVec 8) (a : Src) (s : State) : Host.Outcome State Fault Refusal :=
  onCur s fun c =>
    if c.vOk vd.toNat false && c.srcOk .f32 a then
      fwdPlain s c h vd a 0x02 5 .rn (fun i => [srcOf c.g .f32 a i]) fun i =>
        let r := maxZero (readSrc c.g .f32 a i)
        (r.1, specialF .f32 r.1, r.2)
    else wordFault s c .illegalOperand

/-! ### Undo forms (R384 to R386) -/

/-- A division of an exact sum by a code, with SFU .div's special cases (R100). -/
def divSum (x : FV) (b : Nat) : Nat :=
  let nanD := NF.f32.nan
  let infC := fun n : Bool => signBit .f32 n + 0x7F800000
  match x, decF .f32 b with
  | .inf _, .inf _ => nanD
  | .inf n, .fin k _ _ => infC (n != k)
  | .fin n _ _, .inf k => zeroF .f32 (n != k)
  | .fin n m e, .fin k p q =>
    if p == 0 then (if m == 0 then nanD else infC (n != k))
    else if m == 0 then zeroF .f32 (n != k)
    else (roundTo .f32 rne (n != k) m p (e - q)).1
  | _, _ => nanD

/-- UNMUL.f32. -/
def undoMul (y b p : Nat) : Nat :=
  match firstNan .f32 [y, p, b] with
  | some z => z
  | none => divSum (sumFV [decF .f32 y, decF .f32 p]) b

/-- UNMUL.i32. -/
def undoMulInt (y b p : Nat) : Nat :=
  let n : Int := sgn 32 p * 2 ^ 32 + (y % 2 ^ 32 : Nat)
  let d := sgn 32 b
  if d == 0 then (if n ≥ 0 then 0x7FFFFFFF else 0x80000000) else wrapN 32 (n.tdiv d)

/-- UNADD: with a non-finite operand as two IEEE operations. -/
def undoAdd (y b p : Nat) : Nat :=
  match firstNan .f32 [y, p, b] with
  | some z => z
  | none =>
    if [y, p, b].any (specialF .f32) then (fpElem .f32 rne false .sub [(fpElem .f32 rne false .add [y, p]).1, b]).1
    else match exactSum .rn [decF .f32 y, decF .f32 p, (decF .f32 b).neg] with
      | .zero _ => 0
      | x => (roundXV .f32 rne x).1

/-- UNNAR. -/
def undoNar (f : NF) (y p : Nat) : Nat :=
  let v := decF f y
  if v.special then (convertF f .f32 rne false y).1
  else match firstNan .f32 [p] with
    | some z => z
    | none => (roundXV .f32 rne (exactSum .rn [v, decF .f32 p])).1

/-- A rebuilt value's tag (R386). -/
def undoTag (rule : TagRule) (entry : Word) (exc : Bool) (old : Tag) : TagSrc :=
  match rule with
  | .blame | .pass => .known (entryTag entry)
  | .birth => .born exc
  | .keep => if exc then .known (entryTag entry) else .known old

/-- An undo form: pops the frame of its op and format; `z` rebuilds a lane's value from its payload, and `exc` says of a
lane, its entry and its value whether R83 calls it exceptional. -/
def undoWord (s : State) (c : Cur) (h : Head) (vd : BitVec 8) (fmt : BitVec 8) (op : Nat) (exc : Nat → Word → Nat → Bool)
    (z : Nat → Nat → Nat) : State :=
  match resultGate c .none with
  | some w => blockWord s c w
  | none => withNewest s c h fun s f =>
    if headOp f.head != op || headFmt f.head != fmt || headWidth f.head != widthCode c.width then wordFault s c .slateOrder
    else
      let s := c.slate s (fun x => { x with chip := x.chip.drop 1 })
      resultDone s c h .none ((lanesOf (c.active h)).flatMap fun i =>
        let e := f.entries.getD i 0
        if !entryV e then []
        else
          let x := if entryW e then entryPay e else z i (entryPay e)
          putV false vd.toNat i x (undoTag h.rule e (exc i e x) (oldTag c.g false vd.toNat i)))

/-- A rebuilt binary32 value is exceptional. -/
def excUndo (_ : Nat) (_ : Word) (x : Nat) : Bool := specialF .f32 x

/-- UNMUL; a division of the undo by zero is exceptional (R83, R90). -/
def execUnmul (h : Head) (t : VType) (vd : BitVec 8) (a b : Src) (s : State) : Host.Outcome State Fault Refusal :=
  onCur s fun c =>
    if !(c.vOk vd.toNat false && c.srcOk t a && c.srcOk t b) then wordFault s c .illegalOperand
    else if t == .f32 then
      undoWord s c h vd 0x02 1 excUndo (fun i p => undoMul (readSrc c.g .f32 a i) (readSrc c.g .f32 b i) p)
    else undoWord s c h vd 0x0C 2 (fun i e _ => !entryW e && readSrc c.g .i32 b i % 2 ^ 32 == 0) (fun i p => undoMulInt (readSrc c.g .i32 a i) (readSrc c.g .i32 b i) p)

/-- UNADD. -/
def execUnadd (h : Head) (vd : BitVec 8) (a b : Src) (s : State) : Host.Outcome State Fault Refusal :=
  onCur s fun c =>
    if c.vOk vd.toNat false && c.srcOk .f32 a && c.srcOk .f32 b then
      undoWord s c h vd 0x02 3 excUndo (fun i p => undoAdd (readSrc c.g .f32 a i) (readSrc c.g .f32 b i) p)
    else wordFault s c .illegalOperand

/-- UNNAR. DESIGN CHOICE (entry 15): a constant as A takes the column of the narrow format that A holds, raw bits for
binary8. -/
def execUnnar (h : Head) (fmt : BitVec 8) (vd : BitVec 8) (a : Src) (s : State) : Host.Outcome State Fault Refusal :=
  onCur s fun c =>
    if c.vOk vd.toNat false && c.srcOk .f32 a then
      undoWord s c h vd fmt 4 excUndo (fun i p => undoNar (fmtOf fmt) (readFmt c.g fmt a i) p)
    else wordFault s c .illegalOperand

/-- UNMAX0. -/
def execUnmax0 (h : Head) (vd : BitVec 8) (a : Src) (s : State) : Host.Outcome State Fault Refusal :=
  onCur s fun c =>
    if c.vOk vd.toNat false && c.srcOk .f32 a then
      undoWord s c h vd 0x02 5 excUndo (fun i _ => readSrc c.g .f32 a i)
    else wordFault s c .illegalOperand

/-! ### Markers and depth (R387 to R390) -/

/-- SLMARK. -/
def execSlmark (h : Head) (id : BitVec 16) (s : State) : Host.Outcome State Fault Refusal :=
  onCur s fun c => withPush s c h id 0 15 (List.replicate c.width 0) fun s => finish s c h

/-- A header of the marker sought. -/
def isMark (id : BitVec 16) (h : Word) : Bool := headOp h == 15 && headMark h == id

/-- Reads the headers in memory, newest first, down to the marker. -/
def dropFrom (c : Cur) (h : Head) (id : BitVec 16) : Nat → State → State
  | 0, s => wordFault s c .slateUnderflow
  | j + 1, s => withBulk s c h (BitVec.ofNat 64 (headPlace s c j)) 8 8 fun s b =>
    if isMark id (BitVec.ofNat 64 (leNat b)) then
      finish (c.slate (dropFetched s (wordKey c.ref)) (fun x => { x with chip := [], inmem := j })) c h
    else dropFrom c h id j s

/-- SLDROP (R389). -/
def execSldrop (h : Head) (id : BitVec 16) (s : State) : Host.Outcome State Fault Refusal :=
  onCur s fun c =>
    match c.g.slate.chip.findIdx? (fun f => isMark id f.head) with
    | some i => finish (c.slate s (fun x => { x with chip := x.chip.drop (i + 1) })) c h
    | none => dropFrom c h id c.g.slate.inmem s

/-- SLDEPTH (R390). -/
def execSldepth (h : Head) (d : BitVec 6) (s : State) : Host.Outcome State Fault Refusal :=
  resultWord s h fun c => [.s d (BitVec.ofNat 64 c.g.slate.depthWord)]

end Sys2Proof.Machine
end

