-- ==== Sys2Proof/Machine/Schedule.lean ====
section
/-! DEFINITION. Launches (R155 to R161), the timetable (R166), placement (R162 to R167), pre-emption, the save area
and floor share (R169 to R172). -/

namespace Sys2Proof.Machine

open Sys2Proof

/-! ### Packets (R156) -/

def pk (p : BitVec 512) (lo n : Nat) : Nat := (p.extractLsb' lo n).toNat

def packetOk (p : BitVec 512) : Bool :=
  pk p 480 32 == 0 && pk p 380 4 == 0 && pk p 318 2 == 0 && pk p 384 16 != 0 && pk p 400 16 != 0 && pk p 416 16 != 0 &&
  pk p 376 4 != 0

def Launch.gx (l : Launch) : Nat := pk l.packet 384 16
def Launch.gy (l : Launch) : Nat := pk l.packet 400 16
def Launch.gz (l : Launch) : Nat := pk l.packet 416 16
def Launch.total (l : Launch) : Nat := l.gx * l.gy * l.gz
def Launch.onDie (l : Launch) (die : Nat) : Bool := l.packet.getLsbD (376 + die)
def Launch.priority (l : Launch) : Nat := pk l.packet 312 3
def Launch.depCell (l : Launch) : Nat := pk l.packet 320 56
def Launch.target (l : Launch) : Nat := pk l.packet 448 32
def Launch.errstop (l : Launch) : Bool := l.packet.getLsbD 317
/-- The completion cell; 0 for none. -/
def Launch.cell (l : Launch) : Nat := (l.params.getD 7 0).toNat
/-- The die whose dispatcher acts for a launch: the lowest of its mask. -/
def Launch.home (l : Launch) : Nat := ((List.range 4).find? l.onDie).getD 0

def emptyKernel : Kernel := ⟨16, [], 0, 0, 0, 0, 0, 0, 0, 0, 0, 0, 0, 0, (0, 0), [], false, false⟩

/-- A launch as it enters its context's queue. -/
def queuedLaunch (s : State) (ctx src : Nat) (p : BitVec 512) : Launch where
  id := s.seqN
  ctx := ctx
  src := src
  packet := p
  stage := .queued
  params := []
  kernel := emptyKernel
  kname := 0
  roll := 0
  fresh := false
  pos := 0
  placed := 0
  ended := 0
  faulted := 0
  eligAt := 0
  order := s.seqN
  placedAt := 0
  starved := false
  gone := []
  recs := 0
  killed := false
  bad := false
  again := []

def enqueue (s : State) (ctx src : Nat) (p : BitVec 512) : State :=
  { s with launches := s.launches ++ [queuedLaunch s ctx src p], seqN := s.seqN + 1 }

/-- The launch holds an entry of its context's queue (R155). -/
def Launch.holdsEntry (l : Launch) : Bool := l.stage == .queued || (l.active && l.placed < l.total)

/-- Free entries of a context's queue. -/
def queueRoom (s : State) (ctx : Nat) : Nat := 256 - (s.launches.filter (fun l => l.ctx == ctx && l.holdsEntry)).length

/-! ### LAUNCH and the launch window (R159, R160) -/

/-- LAUNCH. -/
def execLaunch (h : Head) (a : BitVec 6) (s : State) : Host.Outcome State Fault Refusal :=
  onCur s fun c =>
    let va := c.g.sreg a.toNat
    if va.toNat % 64 != 0 then trapAll s c c.n.x .align 0 va
    else if zoneOf c.t.core va.toNat != .mapped then trapAll s c c.n.x .badAddress 0 va
    else match deliverFail s c true [] with
      | some s => s
      | none => afterSync c (pinFirst s c) fun s =>
        afterSync (refresh s c) (releaseAt s c.ref c.t.core c.n.x .dev) fun s =>
          let c := refresh s c
          if queueRoom s c.t.ctx == 0 then blockWord s c .launchQ
          else withBulk s c h va 64 64 fun s b =>
            let s := enqueue (dropFetched s (wordKey c.ref)) c.t.ctx va.toNat (BitVec.ofNat 512 (leNat b))
            finish s (refresh s c) h

/-- A queue entry is free again. -/
def execLaunchQueueWake (g : GRef) (s : State) : Host.Outcome State Fault Refusal :=
  .next (match s.team? g.team with
    | some t => wakeIf s g (fun _ w => w == .launchQ && queueRoom s t.ctx > 0) (fun s _ => wake s g)
    | none => s)

/-- A live context has the index. -/
def ctxLive (s : State) (ctx : Nat) : Bool := (ctxEntry s ctx).any (fun e => !e.dying)

/-- A host write to the launch window of one of the 64 context indexes; in recovery no window answers (R429). -/
def execLaunchWindowWrite (ctx off : Nat) (data : List Byte) (s : State) : Host.Outcome State Fault Refusal :=
  .next (if !readyDev s || ctx ≥ 64 then s
    else if off == 0 && data.length == 64 && ctxLive s ctx && queueRoom s ctx > 0 then
      enqueue s ctx 0 (BitVec.ofNat 512 (leNat data))
    else launchRecord s ctx (ctxSlot s ctx) 0x08 0)

/-- What a read of offset 0x040 returns. -/
def launchWindowRead (s : State) (ctx off : Nat) : Word := if off == 0x40 then BitVec.ofNat 64 (queueRoom s ctx) else 0

/-! ### Acceptance (R157, R158, R161) -/

def Launch.who (s : State) (l : Launch) : Who := ⟨l.home * 64, l.ctx, ctxSlot s l.ctx⟩

/-- What the device's read for a launch finds. -/
structure DevRead where
  s     : State
  out   : List Byte
  bad   : Bool
  wait  : Option Nat
  busy  : Bool
  peers : List (Nat × Nat × Xlat)

/-- Reads bytes of translated memory for an owner, piece by piece. -/
def devRead (s : State) (owner : Nat) (w : Who) (va n : Nat) : DevRead :=
  (pieces va n).foldl (fun (a : DevRead) p => match engRead a.s (.launch owner) w p.1 p.2 with
    | (.val x _ _, s) => { a with s := s, out := a.out ++ natBytes p.2 x }
    | (.bad, s) => { a with s := s, bad := true }
    | (.wait v, s) => { a with s := s, wait := some v }
    | (.busy, s) => { a with s := s, busy := true }
    | (.ask v x, s) => match peerTarget s x v (.read p.2) with
      | some _ => { a with s := s, peers := a.peers ++ [(v, p.2, x)] }
      | none => { a with s := s, bad := true }) ⟨s, [], false, none, false, []⟩

/-- What a device's read comes to: its bytes, or how it goes on. `busy` waits for a line that an engine owns. -/
inductive DevGot
  | bytes (s : State) (b : List Byte)
  | bad (s : State)
  | wait (s : State) (va : Nat)
  | asked (s : State)
  | busy (s : State)

/-- Reads, and asks peers for what is missing. -/
def devGet (s : State) (owner : Nat) (w : Who) (va n : Nat) : DevGot :=
  let r := devRead s owner w va n
  match r.bad, r.wait, r.peers, r.busy with
  | true, _, _, _ => .bad r.s
  | false, some v, _, _ => .wait r.s v
  | false, none, p :: ps, _ => .asked (askPeers r.s (fun v => .cmd owner v) w.core (joinAsks (p :: ps)))
  | false, none, [], true => .busy r.s
  | false, none, [], false => .bytes r.s r.out

/-- A launch's cell (R161): device memory, a page on the fault path, or a place it may not be. -/
inductive CellAt
  | at_ (x : Xlat)
  | wait
  | bad
deriving DecidableEq, Repr

def launchCell (s : State) (w : Who) (va : Nat) (k : AK) : CellAt × State :=
  if va % 8 != 0 || zoneOf w.core va != .mapped then (.bad, s)
  else match translate s w.slot va k with
    | (.error _, s) => (.wait, s)
    | (.ok x, s) => (if x.peer || x.host then .bad else .at_ x, s)

/-- The fresh roll of a launch is killed and its table freed. -/
def freeRoll (s : State) (l : Launch) : State :=
  if l.fresh && l.roll != 0 then
    { s with roster := merase l.roll.toNat s.roster, nameCache := s.nameCache.filter (fun p => p.2 != l.roll) }
  else s

/-- A launch leaves its queue and tells its completion cell (R158, R161). -/
def tellCell (s : State) (l : Launch) (add errs status : Nat) : State :=
  if l.cell == 0 then s
  else
    let u : CellUpd := ⟨.launch l.id, l.home, l.ctx, ctxSlot s l.ctx, l.cell, add, errs, status, l.src⟩
    updateCell { s with cells := s.cells ++ [u] } u

def dropLaunch (s : State) (l : Launch) : State :=
  { dropFetched (freeRoll s l) l.id with launches := s.launches.filter (fun x => x.id != l.id) }

/-- A launch that KILL has discarded goes; a completion cell, once its parameters are known, is told (R436). -/
def discardLaunch (s : State) (l : Launch) : State := tellCell (dropLaunch s l) l 0 1 Cause.killed.code

/-- A refusal (R158): BADPACKET and PARAM_FAULT tell no cell. -/
def refuseLaunch (s : State) (l : Launch) (code : Nat) : State :=
  if l.killed then dropLaunch s l
  else
    let s := launchRecord (dropLaunch s l) l.ctx (ctxSlot s l.ctx) code l.src
    if code == 0x03 || code == 0x07 then s else tellCell s l 0 1 code

/-- One team exceeds a core or R162's limits. -/
def tooBig (k : Kernel) : Bool :=
  k.laneRegs > 131072 || k.groups > 128 || k.acc > 64 || k.groups * k.slateOn > 262144 || k.scratch > 2 ^ 24

/-- A free table of a fresh roll (R347). -/
def freshTableNo (s : State) : Option Nat :=
  (List.range 256).find? (fun n => !(s.roster.map Prod.snd).any (fun e => match e.obj with
    | .roll r => r.fresh && r.table == n
    | _ => false))

/-- A launch with a null roll name gets its fresh roll, when a table is free. -/
def giveRoll (s : State) (l : Launch) : State × Launch :=
  if !l.fresh || l.roll != 0 || s.roster.length ≥ 2 ^ 24 then (s, l)
  else match freshTableNo s with
    | none => (s, l)
    | some n =>
      let (name, s) := insertName s 5 l.ctx 0 (.roll ⟨true, n, 32766, [], false⟩)
      (s, { l with roll := name })

/-- The launch is eligible from now on. -/
def becomeEligible (s : State) (l : Launch) : State :=
  { s with seqN := s.seqN + 1 }.modLaunch l.id (fun x => { x with
    stage := .eligible, roll := l.roll, eligAt := s.time, placedAt := s.time, order := s.seqN })

/-- The last checks, once the parameters are read and the cells reached. -/
def acceptLaunch (s : State) (l : Launch) : State :=
  let p := l.packet
  let rname := p.extractLsb' 128 128
  match resolve s l.ctx (p.extractLsb' 0 128) (some 8) with
  | .error _ => refuseLaunch s l 0x01
  | .ok e => match e.obj with
    | .kernel k0 =>
      let k := { k0 with
        replayable := k0.replayable || p.getLsbD 315
        trapstore := k0.trapstore || p.getLsbD 316
        deadline := if pk p 432 16 == 0 then k0.deadline else pk p 432 16 }
      let rollGone := rname != 0 && (match resolve s l.ctx rname (some 5) with
        | .ok r => r.owner != l.ctx
        | .error _ => true)
      let size := match ctxEntry s l.ctx with
        | some c => segSize c.record
        | none => 0
      if rollGone then refuseLaunch s l 0x02
      else if tooBig k then refuseLaunch s l 0x04
      else if k.need > size then refuseLaunch s l 0x05
      else
        let l := { l with kernel := k, kname := e.name, roll := rname, fresh := rname == 0, stage := .waiting }
        let s := cacheName s (dispatchCache l.home) e.name
        let s := if rname == 0 then s else cacheName s (dispatchCache l.home) rname
        let (s, l) := giveRoll s l
        let s := s.modLaunch l.id (fun _ => l)
        if l.depCell == 0 && l.roll != 0 then becomeEligible s l else s
    | _ => refuseLaunch s l 0x01

/-- The launch waits for a page (R161). -/
def launchWait (s : State) (l : Launch) (va : Nat) (k : AK) : State :=
  raiseFault s l.home none (l.who s) va k (.launch l.id)

/-- A launch whose parameter block has been read reaches its cells, then meets the last checks. -/
def acceptCells (s : State) (l : Launch) : State :=
  let w := l.who s
  let dep : CellAt × State := if l.depCell == 0 then (.bad, s) else launchCell s w l.depCell .read
  let cell : CellAt × State := if l.cell == 0 then (.bad, dep.2) else launchCell dep.2 w l.cell .rmw
  if l.killed then discardLaunch s l
  else if l.depCell != 0 && dep.1 == .bad then refuseLaunch cell.2 l 0x07
  else if l.depCell != 0 && dep.1 == .wait then launchWait cell.2 l l.depCell .read
  else if l.cell != 0 && cell.1 == .bad then refuseLaunch cell.2 l 0x07
  else if l.cell != 0 && cell.1 == .wait then launchWait cell.2 l l.cell .rmw
  else acceptLaunch cell.2 l

/-- The launch at the head of a context's processing is accepted or refused (R158). Its parameter block is read once
(R157): what was read stays with the launch while it waits for a cell's page. -/
def execLaunchAccept (ctx : Nat) (s : State) : Host.Outcome State Fault Refusal :=
  .next (match s.launches.find? (fun l => l.ctx == ctx && l.stage == .queued) with
    | none => s
    | some l =>
      let va := pk l.packet 256 56
      let w := l.who s
      if waitsOn s (.launch l.id) then s
      else if !packetOk l.packet then refuseLaunch s l 0x03
      else if va % 64 != 0 || zoneOf w.core va != .mapped || l.bad then refuseLaunch s l 0x07
      else if !l.params.isEmpty then acceptCells s l
      else match devGet s l.id w va 64 with
        | .bad s => refuseLaunch s l 0x07
        | .wait s v => launchWait s l v .read
        | .asked s => s
        | .busy _ => s
        | .bytes s b =>
          let l := { l with params := words8 b }
          acceptCells ((dropFetched s l.id).modLaunch l.id (fun _ => l)) l)

/-- The dependence of an accepted launch is met (R161): its errors may stop it. -/
def execDependenceMet (launch : Nat) (s : State) : Host.Outcome State Fault Refusal :=
  .next (match s.launches.find? (fun l => l.id == launch && l.stage == .waiting) with
    | none => s
    | some l0 =>
      let (s, l) := giveRoll s l0
      let s := s.modLaunch l.id (fun _ => l)
      if l.roll == 0 || waitsOn s (.launch l.id) then s
      else if l.depCell == 0 then becomeEligible s l
      else match launchCell s (l.who s) l.depCell .read with
        | (.bad, s) => refuseLaunch s l 0x07
        | (.wait, s) => launchWait s l l.depCell .read
        | (.at_ x, s) =>
          if engineOwns s (lineKey (l.who s).slot l.depCell) then s
          else if natAt s (x.loc l.depCell) 4 < l.target then s
          else if l.errstop && natAt s (x.loc l.depCell + 4) 2 != 0 then refuseLaunch s l 0x06
          else becomeEligible s l)

/-! ### The timetable (R166) -/

/-- The side of the smallest power-of-two square that covers a plane. -/
def squareSide (gx gy : Nat) : Nat := if max gx gy ≤ 1 then 1 else 2 ^ (Nat.log2 (max gx gy - 1) + 1)

/-- The even bits of a number. -/
def evenBits : Nat → Nat → Nat
  | 0, _ => 0
  | n + 1, d => d % 2 + 2 * evenBits n (d / 4)

/-- hilbert(n, d): `k` rounds, from side `m`. -/
def hilbertFrom : Nat → Nat → Nat → Nat × Nat → Nat × Nat
  | 0, _, _, p => p
  | k + 1, m, t, (x, y) =>
    let rx := t / 2 % 2
    let ry := (t % 2 + rx) % 2
    let (x, y) := if ry == 0 then (if rx == 1 then (m - 1 - y, m - 1 - x) else (y, x)) else (x, y)
    hilbertFrom k (2 * m) (t / 4) (x + m * rx, y + m * ry)

/-- Places a plane's curve has, points outside the grid included. -/
def planeSize (k : Kernel) (gx gy : Nat) : Nat :=
  match k.curve with
  | 2 | 3 => squareSide gx gy * squareSide gx gy
  | 5 => ((gx + k.tile.1 - 1) / k.tile.1) * ((gy + k.tile.2 - 1) / k.tile.2) * (k.tile.1 * k.tile.2)
  | _ => gx * gy

/-- The point of place `d` of a plane. -/
def curvePoint (k : Kernel) (gx gy d : Nat) : Nat × Nat :=
  match k.curve with
  | 1 => (d / gy, d % gy)
  | 2 => (evenBits 16 d, evenBits 16 (d / 2))
  | 3 => hilbertFrom (Nat.log2 (squareSide gx gy)) 1 d (0, 0)
  | 4 =>
    let b := d / (gx * k.band)
    let r := d % (gx * k.band)
    let rows := min k.band (gy - b * k.band)
    (r / rows, b * k.band + r % rows)
  | 5 =>
    let n := k.tile.1 * k.tile.2
    let cols := (gx + k.tile.1 - 1) / k.tile.1
    let c := k.table.getD (d % n) (0, 0)
    (d / n % cols * k.tile.1 + c.1, d / n / cols * k.tile.2 + c.2)
  | _ => (d % gx, d / gx)

/-- The coordinates of a place of the timetable, when it lies in the grid. -/
def placeAt (l : Launch) (d : Nat) : Option (Nat × Nat × Nat) :=
  let n := planeSize l.kernel l.gx l.gy
  let p := curvePoint l.kernel l.gx l.gy (d % n)
  if p.1 < l.gx && p.2 < l.gy && d / n < l.gz then some (p.1, p.2, d / n) else none

/-- The first place from `d` on that lies in the grid. -/
def nextPlace (l : Launch) : Nat → Nat → Option (Nat × Nat × Nat × Nat)
  | 0, _ => none
  | n + 1, d => match placeAt l d with
    | some p => some (d, p)
    | none => nextPlace l n (d + 1)

/-- The linear index, and the coordinates of one. -/
def linear (l : Launch) (p : Nat × Nat × Nat) : Nat := p.1 + l.gx * (p.2.1 + l.gy * p.2.2)
def coordOf (l : Launch) (i : Nat) : Nat × Nat × Nat := (i % l.gx, i / l.gx % l.gy, i / (l.gx * l.gy))

/-! ### What is placed next (R167) -/

inductive NextTeam
  | none
  | resume (t : Team)
  | again (idx relaunches avoid : Nat)
  | fresh (pos : Nat) (coord : Nat × Nat × Nat)
deriving DecidableEq, Repr

/-- The saved team of a launch that has waited longest. -/
def oldestSaved (s : State) (l : Launch) : Option Team :=
  match s.teams.filter (fun t => t.launch == l.id && t.saved && t.ending.isNone) with
  | [] => Option.none
  | t :: r => some (r.foldl (fun b t => if t.savedAt.toNat < b.savedAt.toNat then t else b) t)

/-- The order within a launch: saved teams, relaunched teams, then the timetable. -/
def nextTeam (s : State) (l : Launch) : NextTeam :=
  match oldestSaved s l, l.again with
  | some t, _ => .resume t
  | Option.none, (i, n, a) :: _ => .again i n a
  | Option.none, [] =>
    if l.placed ≥ l.total then .none
    else match nextPlace l (planeSize l.kernel l.gx l.gy * l.gz - l.pos) l.pos with
      | some (d, p) => .fresh d p
      | Option.none => .none

/-! ### Resources (R162, R163) -/

/-- Kernels of the teams resident on a core. -/
def residents (s : State) (core : Nat) : List Kernel :=
  (s.teams.filter (fun t => t.core == core && !t.saved)).filterMap (fun t => (s.launch? t.launch).map (·.kernel))

/-- The core's own resources have room for a kernel. -/
def coreRoom (s : State) (core : Nat) (k : Kernel) : Bool :=
  let ks := residents s core
  let sum := fun (f : Kernel → Nat) => sumOf (ks.map f)
  sum Kernel.laneRegs + k.laneRegs ≤ 131072 && ks.length + 1 ≤ 16 && sum Kernel.groups + k.groups ≤ 128 &&
  sum (·.acc) + k.acc ≤ 64 && sum (fun k => k.groups * k.slateOn) + k.groups * k.slateOn ≤ 262144

/-- The allotments in a cluster's scratchpad. -/
def allotments (s : State) (cluster : Nat) : List (Nat × Nat) :=
  (s.teams.filter (fun t => !t.saved && clusterOf t.core == cluster)).filterMap (fun t => match s.launch? t.launch with
    | some l => if l.kernel.scratch == 0 then Option.none else some (t.scratch, l.kernel.scratch)
    | Option.none => Option.none)

/-- The bytes from an offset lie in scratchpad-mode banks and outside every allotment. -/
def scratchFits (s : State) (cluster off n : Nat) : Bool :=
  off + n ≤ 2 ^ 24 &&
  (List.range ((off % 2 ^ 18 + n + 2 ^ 18 - 1) / 2 ^ 18)).all (fun i => bankMode s cluster (off / 2 ^ 18 + i) == .scratch) &&
  !(allotments s cluster).any (fun a => overlaps a.1 a.2 off n)

/-- The lowest offset where `n` bytes fit: the start of a bank or the end of an allotment. -/
def scratchPlace (s : State) (cluster n : Nat) : Option Nat :=
  if n == 0 then some 0
  else
    let at_ := (List.range 64).map (fun b => b * 2 ^ 18) ++ (allotments s cluster).map (fun a => a.1 + a.2)
    match at_.filter (fun o => scratchFits s cluster o n) with
    | [] => Option.none
    | o :: r => some (r.foldl min o)

/-- The lowest free segment of a context's pool (R165). -/
def freeSeg (s : State) (ctx : Nat) : Option Nat :=
  let n := match ctxEntry s ctx with
    | some e => segCount e.record
    | Option.none => 0
  (List.range n).find? (fun i => !s.teams.any (fun t => t.ctx == ctx && t.seg == i))

/-- The lowest free physical slots of a core. -/
def freeAccs (s : State) (core n : Nat) : List Nat :=
  ((List.range 64).filter (fun p => (s.acc? (accKey core p)).isNone)).take n

/-- The core is kept for a saved team other than `team` (R172). -/
def keptCore (s : State) (core team : Nat) : Bool :=
  s.teams.any (fun t => t.saved && t.ending.isNone && t.id != team && t.favour == some core)

/-- A core can take a team of a launch that starts. -/
def fitsStart (s : State) (l : Launch) (avoid : Option Nat) (core : Nat) : Bool :=
  !keptCore s core 0 && coreRoom s core l.kernel && (scratchPlace s (clusterOf core) l.kernel.scratch).isSome && (freeSeg s l.ctx).isSome &&
  avoid != some (clusterOf core)

/-- The clusters that a team's pigeonholes bind it to (R169): those of its k registers with a region in its own. -/
def boundCluster (s : State) (t : Team) : Bool :=
  t.groups.any (fun g => g.k.any (fun p => match entryOf s p.2 with
    | some e => (match e.obj with
      | .pigeon .. => pigCluster e.record == clusterOf t.core
      | _ => false)
    | Option.none => false))

/-- A core can take a saved team (R171, R335). -/
def fitsResume (s : State) (l : Launch) (t : Team) (core : Nat) : Bool :=
  l.onDie (dieOf core) && core < 256 && !keptCore s core t.id && coreRoom s core l.kernel &&
  (l.kernel.scratch == 0 || scratchFits s (clusterOf core) t.scratch l.kernel.scratch) &&
  (!boundCluster s t || clusterOf core == clusterOf t.core) &&
  (t.uncommitted.isEmpty || reserveUse s core + (uncLines t).length ≤ 2048)

/-- The cores of a die in the order of its search. -/
def searchOrder (s : State) (die : Nat) : List Nat :=
  let start := mget 0 s.dispPos die % 64
  (List.range 64).map (fun i => die * 64 + (start + i) % 64)

/-- The first core of a die that can take a launch's next team. -/
def coreFor (s : State) (l : Launch) (die : Nat) : Option Nat :=
  if !l.onDie die then Option.none
  else match nextTeam s l with
    | .none => Option.none
    | .resume t => (searchOrder s die).find? (fitsResume s l t)
    | .again _ _ a => (searchOrder s die).find? (fitsStart s l (some a))
    | .fresh .. => (searchOrder s die).find? (fitsStart s l Option.none)

def hasNext (s : State) (l : Launch) : Bool := l.stage == .eligible && nextTeam s l != .none

/-- A launch of higher priority that has waited 2 ms holds the die. -/
def heldDie (s : State) (l : Launch) (die : Nat) : Bool :=
  s.launches.any (fun y => y.starved && y.onDie die && y.priority > l.priority && hasNext s y)

/-- The better of two launches: higher priority, then earlier eligible. -/
def better (a b : Launch) : Launch :=
  if b.priority > a.priority || (b.priority == a.priority && b.order < a.order) then b else a

/-- The launch whose team a die places next, and the core. -/
def chooseLaunch (s : State) (die : Nat) : Option (Launch × Nat) :=
  match s.launches.filter (fun l => hasNext s l && !heldDie s l die && (coreFor s l die).isSome) with
  | [] => Option.none
  | l :: r =>
    let b := r.foldl better l
    (coreFor s b die).map (fun c => (b, c))

/-! ### Placement (R130, R162 to R167) -/

/-- A lane at its start. -/
def startLane (text : Word) : Lane :=
  ⟨.ready, .none, text, Option.none, 0, 0, 0, [], 0, 0, 0, Option.none⟩

/-- The scalar registers at a team's start (R43, R157, R163). -/
def startRegs (l : Launch) (scratch : Nat) : SMap Word :=
  let ps := (List.range 7).foldl (fun m i => mput 0 m i (l.params.getD i 0)) []
  let ps := if l.kernel.scratch == 0 then ps else mput 0 ps 6 (BitVec.ofNat 64 (0xFD * 2 ^ 48 + scratch))
  mput 0 ps 7 l.kernel.data

def startGroup (s : State) (l : Launch) (scratch grp role regs : Nat) : Group where
  grp := grp
  role := role
  regs := regs
  lanes := List.replicate l.kernel.width (startLane l.kernel.text)
  v := []
  vt := []
  s := startRegs l scratch
  p := []
  q := []
  k := []
  loops := []
  saved := [0, 0, 0, 0]
  inTrap := false
  traph := 0
  tcause := 0
  ssyn := 0
  sunit := 0
  stilex := 0
  stiley := 0
  stilek := 0
  nstat := 0
  ylddl := l.kernel.deadline
  cwaitDl := Option.none
  clause := Option.none
  sb := []
  pend := []
  wait := Option.none
  trapReq := Option.none
  storeQ := []
  slate := ⟨[], 0, 0, 0, 0, []⟩
  xrec := []
  peerFail := []
  readyAt := s.seqN
  ended := false
  callSpills := 0
  callFills := 0

/-- The groups of a team: those of role 0 first. -/
def startGroups (s : State) (l : Launch) (scratch : Nat) : List Group :=
  let rs := (l.kernel.roles.mapIdx (fun i r => (i, r))).flatMap (fun p => List.replicate p.2.1 (p.1, p.2.2))
  rs.mapIdx (fun i r => startGroup s l scratch i r.1 r.2)

/-- Physical slots are allotted with contents that nothing states (R164). -/
def allotAccs (s : State) (team core : Nat) (ps : List Nat) : State :=
  ps.foldl (fun s p => { s with
    accs := minsert (accKey core p) ⟨team, .unclaimed, [], s.freeN, [], [], Option.none, 0, [], []⟩ s.accs
    freeN := s.freeN + 16384 }) s

/-- A team starts on a core. -/
def startTeam (s : State) (l : Launch) (core idx relaunches : Nat) (coord : Nat × Nat × Nat) : State :=
  match scratchPlace s (clusterOf core) l.kernel.scratch, freeSeg s l.ctx with
  | some off, some seg =>
    let id := s.seqN
    let ps := freeAccs s core l.kernel.acc
    let t : Team := {
      id := id, launch := l.id, ctx := l.ctx, slot := ctxSlot s l.ctx, idx := idx, coord := coord, core := core
      saved := false, seg := seg, scratch := off, accs := ps, groups := startGroups s l off, relaunches := relaunches
      pinned := false, committing := false, uncommitted := [], ending := Option.none, preempt := false, floor := []
      placedAt := s.time, order := id, savedAt := 0, favour := Option.none, image := [], accSave := [], scratchSave := [], arrived := [] }
    let s := acquireAt (allotAccs { s with seqN := s.seqN + 1 } id core ps) core .dev
    (wakeIslands { s with teams := s.teams ++ [t], dispPos := mput 0 s.dispPos (dieOf core) (1 + core) }).modLaunch l.id
      (fun l => { l with placedAt := s.time, starved := false })
  | _, _ => s

/-- A die's dispatcher places the next team (R167); a saved team is resumed by TEAM_RESUME. -/
def execTeamPlace (die : Nat) (s : State) : Host.Outcome State Fault Refusal :=
  .next (if die ≥ 4 then s else match chooseLaunch s die with
    | Option.none => s
    | some (l, core) => match nextTeam s l with
      | .again i n _ =>
        (startTeam s l core i n (coordOf l i)).modLaunch l.id (fun l => { l with again := l.again.drop 1 })
      | .fresh d p =>
        (startTeam s l core (linear l p) 0 p).modLaunch l.id (fun l => { l with pos := d + 1, placed := l.placed + 1 })
      | _ => s)

/-- 2 ms in the units of TIME. -/
def twoMs : Nat := 2000000

/-- A launch with a team to place has waited 2 ms (R167). -/
def execLaunchWait2ms (launch : Nat) (s : State) : Host.Outcome State Fault Refusal :=
  .next (match s.launch? launch with
    | some l =>
      if hasNext s l && s.time.toNat ≥ max l.eligAt.toNat l.placedAt.toNat + twoMs then
        s.modLaunch launch (fun l => { l with starved := true })
      else s
    | Option.none => s)

/-! ### Pre-emption (R169) -/

def askPreempt (s : State) (team : Nat) : State := s.modTeam team (fun t => { t with preempt := true })

/-- Resident teams on the dies of a launch. -/
def onDies (s : State) (l : Launch) : List Team := s.teams.filter (fun t => !t.saved && l.onDie (dieOf t.core))

def teamPriority (s : State) (t : Team) : Nat :=
  match s.launch? t.launch with
  | some l => l.priority
  | Option.none => 0

/-- The resident team of lowest priority, the most recently placed among those. -/
def lowestTeam (s : State) (l : List Team) : Option Team :=
  match l with
  | [] => Option.none
  | t :: r => some (r.foldl (fun b t =>
      if teamPriority s t < teamPriority s b || (teamPriority s t == teamPriority s b && t.order > b.order) then t else b) t)

/-- A launch has a team that no die of its mask can place. -/
def stuckLaunch (s : State) (l : Launch) : Bool :=
  hasNext s l && (List.range 4).all (fun d => (coreFor s l d).isNone)

/-- The scheduler asks a team to leave for a launch of higher priority that cannot be placed: the one victim, whether it
has been asked already or not. -/
def execPreemptRequest (team : Nat) (s : State) : Host.Outcome State Fault Refusal :=
  .next (match s.team? team with
    | some t =>
      if t.preempt || t.ending.isSome then s
      else if s.launches.any (fun l => stuckLaunch s l && l.priority > teamPriority s t && lowestTeam s (onDies s l) == some t) then
        askPreempt s team
      else s
    | Option.none => s)

/-- A saved team has waited 2 ms and fits on no core (R172): the team on its dies that has run longest must leave, and its
core is kept for the saved team. -/
def execFloorShareTimeout (team : Nat) (s : State) : Host.Outcome State Fault Refusal :=
  .next (match s.team? team, (s.team? team).bind (fun t => s.launch? t.launch) with
    | some t, some l =>
      let here := onDies s l
      if !t.saved || t.ending.isSome || s.time.toNat < t.savedAt.toNat + twoMs || here.any (·.preempt) ||
        (List.range 256).any (fitsResume s l t) then s
      else match here.filter (fun y => y.floor.isEmpty && y.ending.isNone) with
        | [] => s
        | y :: r =>
          let b := r.foldl (fun b y => if y.order < b.order then y else b) y
          (askPreempt s b.id).modTeam team (fun t => { t with favour := some b.core })
    | _, _ => s)

/-! ### The save (R169, R170) -/

/-- A group stands at a point. -/
def atPoint (g : Group) : Bool :=
  g.trapReq.isNone && g.drained &&
  (g.ended || (g.clause.isNone && g.ready == 0) || (match g.wait with
    | some w => w.why == .preempt || Why.point w.why
    | Option.none => false))

/-- A command's destination or count cell lies in the team's allotment. -/
def cmdHere (s : State) (t : Team) (x : Cmd) : Bool :=
  let in_ := fun (va : Nat) => match zoneOf x.core va with
    | .window cl off => inAllot s t cl off
    | _ => false
  x.g.team == t.id && (in_ x.cell.toNat || (List.range (boxSize x.ext)).any (fun e => in_ (x.dstVa (boxCoord x.ext e))))

/-- Nothing of the team is still under way on its core: its groups stand at points, its MMAs and the commands of
its allotment are done. -/
def readyToSave (s : State) (t : Team) : Bool :=
  t.preempt && !t.saved && t.ending.isNone && !t.committing && t.groups.all atPoint && !(t.groups.all (·.ended)) &&
  !s.mmas.any (fun m => m.g.team == t.id) && !s.cmds.any (cmdHere s t) && !storesHeld s t.id

/-- Free bytes, numbered from a counter. -/
def freeBytes (from_ n : Nat) : List Byte := (List.range n).map (fun i => Config.freeByte (from_ + i))

/-- A slate frame's bytes. -/
def frameBytes (f : Frame) : List Byte := natBytes 8 f.head.toNat ++ f.entries.flatMap (fun e => natBytes 8 e.toNat)

/-- The allotment's granules. -/
def scratchGrans (s : State) (t : Team) (n : Nat) : List (List Byte × Tag × Bool) :=
  (List.range (n / 16)).map (fun i =>
    let g := granAt s (sramLoc (clusterOf t.core) (t.scratch + 16 * i))
    (g.bytes, g.tag, g.poison))

/-- What a group's registers hold, register by register, lane by lane. -/
def laneWords {α : Type} (k : Kernel) (f : Group → Nat → Nat → α) (g : Group) : List α :=
  (List.range g.regs).flatMap (fun r => (List.range k.width).map (f g r))

/-- A slot's data, row by row, then its tags. -/
def slotBytes (a : Acc) : List Byte :=
  (List.range 64).flatMap (fun row => (List.range 64).flatMap (fun j => natBytes 16 (a.bytes row j))) ++
  (List.range 64).flatMap (fun row => (List.range 64).flatMap (fun j => natBytes 2 (a.tag row j).toNat))

/-- The bytes of an uncommitted line: those its stores have written, and free ones. -/
def lineBytes (t : Team) (free line : Nat) : List Byte :=
  let ws := (t.uncommitted.filter (fun w => w.line == line)).flatMap (fun w => w.bytes.map (fun b => (w.va % 128 + b.1, b.2)))
  (List.range 128).map (fun i => ((ws.filter (fun b => b.1 == i)).getLast?.map Prod.snd).getD (Config.freeByte (free + i)))

/-- What a save writes: the registers and their tags, the on-chip frames of each group oldest first, the slots, the
allotment's tags ahead of its data, the uncommitted lines; and for the header and the group blocks, whose layout is
open, bytes that nothing states. DESIGN CHOICE (entry 69): the order inside the sections. -/
def saveBytes (s : State) (t : Team) (k : Kernel) : List (Nat × List Byte) :=
  let base := segBase s t
  let open_ := fun (i : Nat) => (base + k.sectionAt i, freeBytes (s.freeN + k.sectionAt i) (k.sections.getD i 0))
  let gs := scratchGrans s t k.scratch
  let regs := t.groups.flatMap (laneWords k Group.vreg)
  let tags := t.groups.flatMap (laneWords k Group.vtag)
  let slots := t.accs.filterMap (fun p => s.acc? (accKey t.core p))
  [open_ 0, open_ 1, (base + k.sectionAt 2, regs.flatMap (fun x => natBytes 4 x.toNat)),
    (base + k.sectionAt 3, tags.flatMap (fun x => natBytes 2 x.toNat))] ++
  t.groups.map (fun g => (base + k.sectionAt 4 + g.grp * k.slateOn, g.slate.chip.reverse.flatMap frameBytes)) ++
  [(base + k.sectionAt 5, slots.flatMap slotBytes),
    (base + k.sectionAt 6, gs.flatMap (fun g => natBytes 2 g.2.1.toNat) ++ gs.flatMap (·.1)),
    (base + k.sectionAt 7, (uncLines t).flatMap (lineBytes t (s.freeN + k.sectionAt 7)))]

/-- The pages of the first eight sections. -/
def savePages (s : State) (t : Team) (k : Kernel) : List Nat :=
  (List.range ((k.sectionAt 8 + 4095) / 4096)).map (fun i => segBase s t + 4096 * i)

/-- The device's store of bytes with tag 0 in a space. -/
def devStore (s : State) (slot va : Nat) (b : List Byte) : State :=
  (pieces va b.length).foldl (fun s p => match translate s slot p.1 .write with
    | (.ok x, s) =>
      let s := recallWhere s slot p.1 x (fun e => !heldCommit s e.w.g.team)
      let bs := ((b.drop (p.1 - va)).take p.2).mapIdx (fun i y => (p.1 % 16 + i, y))
      performAt s (x.loc (p.1 / 16 * 16)) x.tagged ⟨0, ⟨0, 0⟩, 0, slot, p.1 / 16 * 16, bs, wordTags 0 bs, Option.none, false, []⟩
    | (.error _, s) => s) s

/-- The state of the save area's pages: every one can be reached, one waits, or one may not hold it. DESIGN CHOICE
(entry 69): a page outside the map or behind a peer window ends the team with SAVE_CORRUPT, at a save as at a resume. -/
inductive SavePages
  | ok (s : State)
  | wait (s : State)
  | bad (s : State)
deriving DecidableEq, Repr

def checkPages (s : State) (t : Team) (k : AK) (ps : List Nat) : SavePages :=
  ps.foldl (fun r p => match r with
    | .ok s =>
      if zoneOf t.core p != .mapped then .bad s
      else if waitsPage s t.slot p (.store t.id) then .wait s
      else match translate s t.slot p k with
        | (.ok x, s) =>
          if x.peer then .bad s
          else if (List.range 32).any (fun i => engineOwns s (lineKey t.slot (p + 128 * i))) then .wait s else .ok s
        | (.error _, s) => .wait (coreFault s ⟨t.core, t.ctx, t.slot⟩ p k (.store t.id))
    | r => r) (.ok s)

/-- A byte of the save area as memory holds it, and whether its granule is poisoned. -/
def saveByte (s : State) (slot va : Nat) : Byte × Bool :=
  match translatePure s slot va .read with
  | .ok (x, _) => (byteAt s (x.loc va), poisoned s (x.loc va / 16))
  | .error _ => (0, true)

/-- The bytes of the first eight sections as they stand. -/
def saveImage (s : State) (t : Team) (k : Kernel) : List (Nat × Byte) :=
  (List.range (k.sectionAt 8)).map (fun i => (segBase s t + i, (saveByte s t.slot (segBase s t + i)).1))

/-- A group as it is saved: a blocked word will issue again. -/
def saveGroup (g : Group) : Group :=
  let g := match g.clause with
    | some cl => { (g.modLanes cl.x (fun _ l => { l with pc := cl.pc, ins := some ⟨cl.hdr, cl.head⟩ })) with clause := Option.none }
    | Option.none => g
  { g with wait := Option.none, xrec := [] }

/-- The team leaves its core: its stores go on, its waits end, its slots and allotment are kept with it. -/
def leaveCore (s : State) (t : Team) (k : Kernel) : State :=
  let s := flushTeam s t
  let s := t.groups.foldl (fun s g => dropWaits s ⟨t.id, g.grp⟩) s
  let accs := t.accs.filterMap (fun p => s.acc? (accKey t.core p))
  let gs := scratchGrans s t k.scratch
  { s with
    accs := s.accs.filter (fun p => p.2.team != t.id)
    issuing := s.issuing.filter (fun r => r.team != t.id) }.modTeam t.id (fun t => { t with
      saved := true, preempt := false, accs := [], accSave := accs, scratchSave := gs, savedAt := s.time, floor := []
      groups := t.groups.map saveGroup })

/-- A save is a device-scope release of each of its groups (R245). -/
def saveRelease (s : State) (t : Team) : Sync :=
  t.groups.foldl (fun y g => match y with
    | .done s => releaseAt s ⟨t.id, g.grp⟩ t.core 0 .dev
    | y => y) (.done s)

/-- With every group at a point, the team's state is written to its segment and its core is free. -/
def execTeamSave (team : Nat) (s : State) : Host.Outcome State Fault Refusal :=
  .next (match s.team? team, (s.team? team).bind (fun t => s.launch? t.launch) with
    | some t, some l =>
      let k := l.kernel
      if !readyToSave s t then s
      else match checkPages s t .write (savePages s t k) with
        | .wait s => s
        | .bad s => plainFault s team .saveCorrupt
        | .ok s => match saveRelease s t with
        | .park s | .wait _ s => s
        | .done s =>
          let s := (saveBytes s t k).foldl (fun s p => devStore s t.slot p.1 p.2) s
          let s := { s with freeN := s.freeN + k.sectionAt 8 }
          let img := saveImage s t k
          (leaveCore s t k).modTeam team (fun t => { t with image := img })
    | _, _ => s)

/-! ### Resume (R171) -/

/-- A group continues after its YLD, or issues its blocking word again. -/
def resumeGroup (s : State) (g : Group) : Group := { g with readyAt := s.seqN }

/-- The team's slots on a new core, its tokens with them. -/
def restoreAccs (s : State) (team core : Nat) (ps : List Nat) (l : List Acc) : State :=
  (List.zip ps l).foldl (fun s p => { s with accs := minsert (accKey core p.1) { p.2 with team := team } s.accs }) s

/-- The allotment's granules in a cluster. -/
def restoreScratch (s : State) (cluster off : Nat) (gs : List (List Byte × Tag × Bool)) : State :=
  ((gs.mapIdx (fun i g => (i, g))).foldl (fun s p =>
    putGran s (sramLoc cluster (off + 16 * p.1)) ⟨p.2.1, p.2.2.1, p.2.2.2⟩) s)

/-- Stores and REDs of the team that are still under way follow it, so that its loads see them. -/
def followTeam (s : State) (team core : Nat) : State :=
  { s with
    ev := s.ev.map (fun e => if e.w.g.team == team && e.level == .core then { e with core := core } else e)
    redQ := s.redQ.map (fun q => if q.g.team == team then { q with core := core } else q) }

/-- A saved team stands on a core again with everything it held (R171); one that R172 resumes keeps the core until each of
its groups has stood at a point. -/
def resumeOn (s : State) (t : Team) (l : Launch) (core : Nat) : State :=
  let fl := if t.favour.isSome || s.time.toNat ≥ t.savedAt.toNat + twoMs then (t.groups.filter (fun g => !g.ended)).map (·.grp) else []
  let ps := freeAccs s core l.kernel.acc
  let s := restoreAccs s t.id core ps t.accSave
  let s := restoreScratch s (clusterOf core) t.scratch t.scratchSave
  let s := acquireAt (followTeam s t.id core) core .dev
  let s := { s with seqN := s.seqN + 1, dispPos := mput 0 s.dispPos (dieOf core) (1 + core) }.modLaunch l.id
    (fun l => { l with placedAt := s.time, starved := false }) |>.modTeam t.id (fun t => { t with
      saved := false, core := core, accs := ps, accSave := [], scratchSave := [], image := [], placedAt := s.time
      order := s.seqN, favour := Option.none, floor := fl
      groups := t.groups.map (resumeGroup s) })
  wakeIslands s

/-- The cores on which a saved team may resume now: the one kept for it, and the first that fits in each die's search
(R167, R171). -/
def resumeCores (s : State) (l : Launch) (t : Team) : List Nat :=
  (t.favour.toList.filter (fitsResume s l t)) ++ (List.range 4).filterMap (fun d => (searchOrder s d).find? (fitsResume s l t))

/-- It is a saved team's turn on a core: in the order of placement, on the core kept for it, or once it has waited 2 ms
(R172). -/
def resumeTurn (s : State) (l : Launch) (t : Team) (core : Nat) : Bool :=
  t.favour == some core || s.time.toNat ≥ t.savedAt.toNat + twoMs ||
  match chooseLaunch s (dieOf core) with
  | some (y, c) => y.id == l.id && c == core && nextTeam s y == .resume t
  | Option.none => false

/-- A saved team is placed. A changed save area ends it. -/
def execTeamResume (team core : Nat) (s : State) : Host.Outcome State Fault Refusal :=
  .next (match s.team? team, (s.team? team).bind (fun t => s.launch? t.launch) with
    | some t, some l =>
      if !t.saved || t.ending.isSome || !(resumeCores s l t).contains core || !resumeTurn s l t core then s
      else match checkPages s t .read (savePages s t l.kernel) with
        | .wait s => s
        | .bad s => plainFault s team .saveCorrupt
        | .ok s =>
          if t.image.all (fun p => saveByte s t.slot p.1 == (p.2, false)) then resumeOn s t l core
          else plainFault s team .saveCorrupt
    | _, _ => s)

/-! ### Completion (R161) -/

/-- A team of the launch that has left. -/
def Launch.left (l : Launch) (team : Nat) : Bool := l.gone.any (fun x => x.id == team)

/-- What the ended teams of a launch have not yet performed. -/
def leftBehind (s : State) (l : Launch) : Bool :=
  s.ev.any (fun e => l.left e.w.g.team) || s.redQ.any (fun q => l.left q.g.team) ||
  s.peerOut.any (fun p => match p.dst with
    | .store g _ _ => l.left g.team
    | _ => false)

/-- A record of its teams' ends that the host cannot yet read (R345). -/
def recordsWait (s : State) (l : Launch) : Bool := s.errBuf.any (fun r => (r.extractLsb' 384 64).toNat ≤ l.recs)

/-- Every team of a launch has ended. Its roll's table is brought up to date (R350), a fresh roll is freed, and its cell is
told with a device-scope release. -/
def execLaunchComplete (launch : Nat) (s : State) : Host.Outcome State Fault Refusal :=
  .next (match s.launch? launch with
    | some l =>
      if l.stage != .eligible || l.placed < l.total || l.ended < l.total || s.teams.any (fun t => t.launch == l.id) then s
      else
        let s := (s.ev.filter (fun e => l.left e.w.g.team)).foldl (fun s e => grantLine s e.core e.w.line) s
        let s := flushRoll s l.roll
        if leftBehind s l || (rollOf s l.roll).any rollLags || recordsWait s l then s
        else tellCell (dropLaunch s l) l 1 l.faulted (if l.faulted == 0 then 0 else 0x10)
    | Option.none => s)

end Sys2Proof.Machine
end

