-- ==== Sys2Proof/Machine/Collective.lean ====
section
/-! DEFINITION. The collective engine: CPRUN, CPSTAT and CPSTOP (R417 to R420), the steps of a run (R393 to R410,
R414 to R416), messages (R402 to R404) and meeting slots (R411 to R413). -/

namespace Sys2Proof.Machine

open Sys2Proof

/-! ### Data buffers (R394, R399) -/

/-- A buffer's record; a staging region's stands for its bytes by offset. -/
structure CpData where
  img    : BitVec 352
  staged : Bool
deriving DecidableEq, Repr

/-- The record of `n` elements of a format at an address. -/
def flatRec (fmt : BitVec 8) (base n : Nat) : BitVec 352 := BitVec.ofNat 352 (base + fmt.toNat * 2 ^ 56 + n * 2 ^ 64)

/-- The data buffer of a table entry; a circular buffer's record is read as a tensor's. -/
def cpData (s : State) (b : CpBuf) : Option CpData :=
  match b with
  | .tensor n => (entryOf s n).map (fun e => ⟨e.record &&& ~~~(3 <<< 348 : BitVec 352), false⟩)
  | .staging bytes fmt off => some ⟨flatRec fmt off (bytes / (fmtWidth fmt / 8)), true⟩
  | _ => none

def CpData.fmt (d : CpData) : BitVec 8 := tFmt d.img
def CpData.ext (d : CpData) : List Nat := (List.range 4).map (tExt d.img)
def CpData.size (d : CpData) : Nat := boxSize d.ext
/-- The index of a linear element. -/
def CpData.idx (d : CpData) (e : Nat) : List Nat := boxCoord d.ext e

/-! ### A run and its current step -/

def Run.who (r : Run) : Who := ⟨r.die * 64, r.ctx, r.slot⟩
def State.run? (s : State) (n : Nat) : Option Run := s.runs.find? (fun r => r.id == n)
def State.modRun (s : State) (n : Nat) (f : Run → Run) : State :=
  { s with runs := s.runs.map (fun r => if r.id == n then f r else r) }

/-- A run, its program and its current step; past the last step it is HALT with count 0 (R401). -/
structure Cp where
  r : Run
  p : CpProg
  x : CpStep
deriving DecidableEq, Repr

def cpOf (s : State) (n : Nat) : Option Cp :=
  (s.run? n).bind fun r => (progOf s r.prog).map fun p => ⟨r, p.2, cpStep (p.2.steps.getD r.step 0)⟩

def Cp.entry (c : Cp) (i : Nat) : CpBuf := cpEntry c.p.table i

/-- An integer's remainder in 0 to n - 1. -/
def modN (x : Int) (n : Nat) : Nat := (x % n).toNat

/-- The value of the step's loop counter. -/
def Cp.counter (c : Cp) : Nat :=
  match c.r.loops.find? (fun l => l.ctr == c.x.ctr) with
  | some l => l.value
  | none => 0

/-- The step's rank P (R398). -/
def Cp.peer (c : Cp) : Option Nat :=
  let n := c.r.n
  let d := sgn 12 c.x.peer
  let p := match c.x.pmode with
    | 0 => c.x.peer
    | 1 => modN (c.r.rank + d) n
    | 2 => c.r.rank ^^^ c.x.peer
    | _ => modN (c.r.rank + d * c.counter) n
  if p < n then some p else none

/-- The chunk index k (R399). -/
def Cp.chunk (c : Cp) : Nat :=
  match c.x.cmode with
  | 0 => 0
  | 1 => c.counter
  | 2 => modN ((c.r.rank : Int) - c.counter) c.r.n
  | _ => modN ((c.r.rank : Int) - c.counter - 1) c.r.n

def Cp.len (c : Cp) : Nat := c.x.count + 1
def Cp.first (c : Cp) : Nat := 64 * c.x.offset + c.chunk * c.len
/-- The elements of the step's range. -/
def Cp.range (c : Cp) : List Nat := (List.range c.len).map (· + c.first)
/-- The range lies in a buffer of some size. -/
def Cp.fits (c : Cp) (n : Nat) : Bool := c.first + c.len ≤ n

/-! ### Ends of steps and runs (R400, R415) -/

/-- The codes that stop a run. -/
def stopsRun (code : Nat) : Bool := [0x41, 0x42, 0x43, 0x44, 0x48, 0x4A].contains code

/-- The first nonzero code is kept. -/
def Run.note (r : Run) (code : Nat) : Run := if r.code == 0 then { r with code := code } else r

/-- The tensor names of a table. -/
def tensorNames (table : List Name) : List Name :=
  table.filter (fun n => match cpBuf n with
    | some (.tensor _) => true
    | _ => false)

/-- What a program keeps of an ended run. -/
def CpProg.ended (p : CpProg) (r : Run) (state : Nat) : CpProg :=
  { p with
    state := state, step := min r.step (p.steps.length - 1), code := r.code, late := r.late, skew := r.skew
    runs := (p.runs + 1) % 256 }

/-- An outstanding result can return now. -/
def returnLate (s : State) (r : GRef) (id : Nat) : State :=
  s.modGroup r (fun g => { g with pend := g.pend.map (fun p => if p.id == id then { p with ready := true } else p) })

/-- A run ends: halted (2) or stopped (3). It holds no name and no line, the messages still held for it wait
again for a run (R403), ready messages for its SENDs are gone, and the CPSTOPs that wait for it return. -/
def endRun (s : State) (r : Run) (state : Nat) : State :=
  let names := match progOf s r.prog with
    | some p => tensorNames p.2.table
    | none => []
  let s := s.modEntry r.prog (fun e => match e.obj with
    | .prog p => { e with obj := .prog (CpProg.ended p r state) }
    | _ => e)
  let s := names.foldl (fun s n => holdName s n false) s
  let hold := fun (h : Held) => if h.msg.job == r.job && h.msg.dst == r.rank then { h with time := s.time } else h
  let s := r.stoppers.foldl (fun s p => returnLate s p.1 p.2) s
  wakeLines { s with
    runs := s.runs.filter (fun x => x.id != r.id)
    readies := s.readies.filter (fun x => !(x.1 == r.job && x.2.2 == r.rank))
    fetched := s.fetched.filter (fun p => p.1 != r.id && p.1 != poisonKey r.id)
    heldMsgs := s.heldMsgs.map hold }

/-- The current step of a run ends with a code: a stopping code stops the run, else it goes on at `next`. -/
def endCpStep (s : State) (n code next : Nat) : State :=
  match s.run? n with
  | none => s
  | some r =>
    let r := r.note code
    if stopsRun code then endRun s r 3
    else if r.stopAt.isSome then endRun s (r.note 0x4A) 3
    else
      let r := { r with
        step := next, since := none, got := none, sent := none, lines := [], offset := 0, ack := none, stop := none
        marks := [] }
      wakeLines { s.modRun n (fun _ => r) with
        fetched := s.fetched.filter (fun p => p.1 != n && p.1 != poisonKey n) }

/-- The step ends and the next follows. -/
def Cp.done (c : Cp) (s : State) (code : Nat) : State := endCpStep s c.r.id code (c.r.step + 1)

/-- An event of a run's step: its current step has this op, and no answer is owed to it. -/
def onStep (s : State) (n op : Nat) (k : State → Cp → State) : Host.Outcome State Fault Refusal :=
  .next (match cpOf s n with
    | some c => if c.x.op == op && c.r.sent.isNone && !askedPeer s n && !waitsOn s (.run n) then k s c else s
    | none => s)

/-- A step begins: it owns its local destination lines until its end (R416). -/
def Cp.begin (c : Cp) (s : State) (vas : List Nat) : State :=
  if c.r.since.isSome then s
  else
    let keys := ownKeys s c.r.who vas
    { keys.foldl takeLine s with seqN := s.seqN + 1 }.modRun c.r.id (fun r => { r with
      since := some s.time, lines := keys, turn := s.seqN })

/-! ### Reading a range (R408, R414) -/

/-- An element of a buffer. A run knows no cluster of its own, so 0xFD addresses fail. -/
def cpRead (s : State) (r : Run) (d : CpData) (e : Nat) : Except ERead SrcEl × State :=
  let i := d.idx e
  if d.staged then
    let va := elemAddr d.img i
    let g := granAt s (stagingLoc r.die va)
    let x := g.slice (va % 16) (tEb d.img)
    (.ok ⟨x, decF (fmtOf d.fmt) x, 0, g.poison⟩, s)
  else if elemAddr d.img i / 2 ^ 48 == 0xFD || (tScaled d.img && scaleAddr d.img i / 2 ^ 48 == 0xFD) then (.error .bad, s)
  else readEl s (.run r.id (((s.run? r.id).map (·.turn)).getD 0)) r.who d.img i

/-- The addresses a range is read from. -/
def CpData.vas (d : CpData) (es : List Nat) : List (Nat × Nat) :=
  es.flatMap (fun e => (elemAddr d.img (d.idx e), tEb d.img) ::
    (if tScaled d.img then [(scaleAddr d.img (d.idx e), 1)] else []))

/-- What a halt of a run's read or write does: a page on the fault path waits with waiter count 1, a page refused or
a failed peer access stops the run. -/
def Cp.halt (c : Cp) (s : State) (d : CpData) (es : List Nat) (x : ERead) : State :=
  match Halt.code (haltOf x) c.r.stop with
  | some code => c.done s code
  | none => match x with
    | .wait va => raiseFault s c.r.die none c.r.who va .read (.run c.r.id)
    | .ask va y => match askBlock s (c.r.die * 64) (.cmd c.r.id) y (d.vas es) va with
      | .ok s => s
      | .error code => c.done s code
    | _ => s

/-- Reads some elements and goes on with them. -/
def Cp.read (c : Cp) (s : State) (d : CpData) (es : List Nat) (k : State → List SrcEl → State) : State :=
  let step := fun (a : State × List SrcEl × Option ERead) (e : Nat) =>
    if a.2.2.isSome then a
    else match cpRead a.1 c.r d e with
      | (.ok x, s) => (s, a.2.1 ++ [x], none)
      | (.error x, s) => (s, a.2.1, some x)
  match es.foldl step (s, [], none) with
  | (s, l, none) => k s l
  | (s, _, some x) => c.halt s d es x

/-- The code of an element in its record's own format: a scaled element's is its value, rounded. -/
def CpData.code (d : CpData) (x : SrcEl) : Nat :=
  if tScaled d.img then (convertFV (fmtOf d.fmt).fb true (fmtOf d.fmt) rne x.v).1 else x.bits

/-! ### Writing a range (R408) -/

/-- A value to write: an element, and whether its word is marked whatever its code. -/
structure CpVal where
  el   : SrcEl
  mark : Bool
deriving DecidableEq, Repr

/-- The copy that writes a step's range; `sat` clamps integers (R407). -/
def Cp.copy (c : Cp) (d : CpData) (src : BitVec 352) (sat : Bool) : Cmd :=
  { id := c.r.id, eng := .xform c.r.die 0, kind := .copy, g := ⟨0, 0⟩, core := c.r.die * 64, ctx := c.r.ctx, slot := c.r.slot
    dname := 0, sname := 0, drec := d.img, srec := src, sa := 0, sb := 0, rnd := .rn, sat := sat, tr := false, cell := 0
    start := none, site := 0, stage := .running, late := false, full := none, cbSlot := none, got := [], offset := 0
    poisoned := false, stop := none, lines := [], ack := none, birth := ⟨0, 0, 0, 0, 0⟩, handle := some 0, emul := true }

/-- Addresses of staging bytes among a step's destinations. -/
def stagedVa (va : Nat) : Nat := 2 ^ 64 + va

/-- The writes of a range from element `e0` of a buffer, numbered from 0, with the tags of R408. -/
def Cp.els (c : Cp) (d : CpData) (src : BitVec 352) (sat : Bool) (e0 : Nat) (vals : List CpVal) : List DstEl :=
  let f := fmtOf d.fmt
  let marked := fun (e : Nat) => match vals[e - e0]? with
    | some v => v.mark
    | none => false
  let bad := fun (y : DstEl) => marked y.e || match y.tag with
    | .born b => b
    | .known _ => specialF f y.x
  (dstEls (c.copy d src sat) d.ext (vals.mapIdx (fun i v => (e0 + i, v.el)))).map (fun y => { y with
    e := y.e - e0, va := if d.staged then stagedVa y.va else y.va, tag := .known (if bad y then 0xFFFF else 0) })

def cpPlace (s : State) (r : Run) (va : Nat) : EPlace × State :=
  if va ≥ 2 ^ 64 then (.window (stagingLoc r.die (va - 2 ^ 64)), s)
  else if va / 2 ^ 48 == 0xFD then (.bad, s)
  else engPlace s r.who va .write

/-- Performs writes whose pages are local and present; staging keeps no tags (R395). -/
def cpPut (s : State) (r : Run) (els : List DstEl) : State :=
  (elGrans els).foldl (fun s g =>
    let ds := elsOf els g
    match cpPlace s r g with
    | (.window loc, s) =>
      if g ≥ 2 ^ 64 then engPut s loc false (granBytes ds) (granTags 0 ds) (ds.any (·.poison))
      else putGranEls s r.slot (.window loc) g 0 ds
    | (p, s) => putGranEls s r.slot p g 0 ds) s

/-- The first write that cannot be made. -/
def cpHalt (r : Run) (els : List DstEl) (s : State) : Option (Nat × Halt) × State :=
  els.foldl (fun (a : Option (Nat × Halt) × State) d =>
    let better := fun (h : Halt) => match a.1 with
      | some (e, _) => if d.e < e then some (d.e, h) else a.1
      | none => some (d.e, h)
    match cpPlace a.2 r d.va with
    | (.bad, s) => (better (.stop 0x44), s)
    | (.fault, s) => (better (.wait d.va .write), s)
    | (.mem x, s) => if x.peer then (better (.ask d.va x), s) else (a.1, s)
    | (_, s) => (a.1, s)) (none, s)

/-- Sends the next unit of a range with a peer destination: from `lo` to below `hi`. -/
def Cp.sendPart (c : Cp) (d : CpData) (s : State) (rest : List DstEl) (lo hi : Nat) : State :=
  let cmd := c.copy d 0 false
  let part := rest.filter (fun y => lo ≤ y.e && y.e < hi)
  let runs := peerRuns part.length (part.filter (fun y => y.va < 2 ^ 64 && cmd.peerEl s y))
  let put := fun (s : State) (n : Nat) => cpPut s c.r (rest.filter (fun y => y.e < n))
  match runs.findSome? (noSend cmd s runs.length) with
  | some (.code k) => c.done (put s lo) k
  | some .room => s
  | none => (runs.foldl (sendRun cmd) (put s hi)).modRun c.r.id (fun r => { r with offset := lo, ack := some hi })

/-- Writes a range and goes on; `block` is the number of elements of a scale block, and where the block of an element
begins. -/
def Cp.write (c : Cp) (s : State) (d : CpData) (els : List DstEl) (block : Nat → Option (Nat × Nat)) (k : State → State) :
    State :=
  let rest := els.filter (fun y => c.r.offset ≤ y.e && c.r.stopAt.all (decide <| y.e < ·))
  match cpHalt c.r rest s with
  | (none, s) => k (cpPut s c.r rest)
  | (some (e, h), s) =>
    match Halt.code h c.r.stop with
    | some code => c.done (cpPut s c.r (rest.filter (fun y => y.e < e))) code
    | none => match h with
      | .wait va a => raiseFault s c.r.die none c.r.who va a (.run c.r.id)
      | .ask .. =>
        let (lo, hi) := (block e).getD (e, e + (peerRun (rest.filter (fun y => e ≤ y.e))).length)
        c.sendPart d s rest lo hi
      | .stop _ | .busy => s

/-- The part of a range that shares the scale block of its element `e`, by numbers within the range. -/
def Cp.block (c : Cp) (d : CpData) (e : Nat) : Option (Nat × Nat) :=
  if tScaled d.img && e < c.len then
    let row := d.ext.getD 0 1
    let at_ := fun (i : Nat) => ((c.first + i) / row, (c.first + i) % row / tSblock d.img)
    let same := (List.range c.len).filter (fun i => at_ i == at_ e)
    some (same.headD e, same.headD e + same.length)
  else none

/-! ### Reductions (R405 to R407) -/

/-- A partial as a value of format `f` to write into a buffer of format `g`: an integer is clamped once. -/
def partVal (f : NF) (g : BitVec 8) (fc : BitVec 8) (p : Part) (poison : Bool) : CpVal :=
  let exact : FV := match p with
    | .int x => .fin (x < 0) x.natAbs 0
    | .float x => decF f x
    | .absent => if f.floating then .nan false 0 else .fin false 0 0
  let (code, mark) := Part.write f p
  ⟨⟨code, exact, 0, poison⟩, (p == .absent) || (mark && g == fc)⟩

/-- The count companion of a buffer (R406). -/
inductive Comp
  | none
  | bad
  | each (d : CpData)
  | block (d : CpData)
deriving DecidableEq, Repr

/-- The companion of entry `j` of `size` elements: the tensor of counts after it, with one count for a block of 64 elements
or for an element (R406). -/
def companion (s : State) (c : Cp) (j size : Nat) : Comp :=
  if j ≥ 15 then .none
  else match c.entry (j + 1), cpData s (c.entry (j + 1)) with
    | .tensor _, some d =>
      if d.fmt != 0x0B && d.fmt != 0x0D then .none
      else if d.ext.getD 0 1 == (size + 63) / 64 then .block d
      else if d.size == size then .each d
      else .bad
    | _, _ => .none

def Comp.blocks : Comp → Bool
  | .block _ => true
  | _ => false

/-- In block mode an absent element makes its whole block absent. -/
def blockParts (e0 : Nat) (l : List (Part × Nat)) : List (Part × Nat) :=
  let holes := ((l.mapIdx (fun i p => if p.1 == .absent then some ((e0 + i) / 64) else none)).filterMap id).eraseDups
  l.mapIdx (fun i p => if holes.contains ((e0 + i) / 64) then (.absent, 0) else p)

/-- Goes on with the counts of a range: those of the companion, 1 without one. -/
def Cp.counts (c : Cp) (s : State) (m : Comp) (k : State → List (Nat × Bool) → State) : State :=
  match m with
  | .each d => c.read s d c.range fun s l => k s (l.map (fun x => (x.bits, x.poison)))
  | .block d => c.read s d (c.range.map (· / 64)) fun s l => k s (l.map (fun x => (x.bits, x.poison)))
  | _ => k s (c.range.map (fun _ => (1, false)))

/-- A range's own partials and counts. -/
def Cp.own (c : Cp) (d : CpData) (blocks : Bool) (l : List SrcEl) (counts : List (Nat × Bool)) : List (Part × Nat) :=
  let one := fun (x : SrcEl) (n : Nat × Bool) =>
    let p := partOf (fmtOf d.fmt) c.x.rop c.x.skip (d.code x)
    (p, if p == .absent then 0 else n.1)
  let ps := List.zipWith one l counts
  if blocks then blockParts c.first ps else ps

/-- A message's partials and counts. -/
def Cp.theirs (c : Cp) (f : NF) (blocks : Bool) (m : EngMsg) : List (Part × Nat) :=
  let ps := (List.range c.len).map (fun i =>
    let p := partOfMsg f c.x.rop c.x.skip m i
    (p, if p == .absent then 0 else m.counts.getD i 1))
  if blocks then blockParts c.first ps else ps

/-- Two sides combined, counts added. -/
def combineAll (f : NF) (op : Nat) (a b : List (Part × Nat)) : List (Part × Nat) :=
  List.zipWith (fun x y => (combineParts f op x.1 y.1, x.2 + y.2)) a b

/-- The writes of counts into a companion, numbered from `base`; a count wider than its word has no stated value. -/
def countEls (s : State) (c : Cp) (m : Comp) (base : Nat) (counts : List (Nat × Bool)) : List DstEl :=
  let put := fun (d : CpData) (i e : Nat) (n : Nat × Bool) =>
    let w := fmtWidth d.fmt
    let x := if n.1 < 2 ^ w then n.1 else (Config.freeWord (s.freeN + i)).toNat % 2 ^ w
    (⟨base + i, elemAddr d.img (d.idx e), tEb d.img, x, .known 0, n.2⟩ : DstEl)
  match m with
  | .each d => counts.mapIdx (fun i n => put d i (c.first + i) n)
  | .block d =>
    let bs := (c.range.map (· / 64)).eraseDups
    bs.mapIdx (fun i b => put d i b (counts.getD (b * 64 - c.first) (0, false)))
  | _ => []

/-- The free values that counts have used. -/
def useFree (s : State) (n : Nat) : State := { s with freeN := s.freeN + n }

/-! ### Messages (R402 to R404) -/

/-- The bytes of a message in a pool. -/
def msgBytes (m : EngMsg) : Nat :=
  m.elems.length * (if m.exact then 8 else fmtWidth m.format / 8) + 2 * m.counts.length

/-- A die's unposted pool has room (R395). -/
def poolRoom (s : State) (die : Nat) (m : EngMsg) : Bool :=
  sumOf ((s.heldMsgs.filter (fun h => h.die == die)).map (fun h => msgBytes h.msg)) + msgBytes m ≤ 0x100000

def hold (s : State) (die : Nat) (m : EngMsg) : State :=
  { s with heldMsgs := s.heldMsgs ++ [⟨die, s.seqN, m, s.time⟩], seqN := s.seqN + 1 }

/-- The running run of a job and rank. -/
def runFor (s : State) (job rank : Nat) : Option Run := s.runs.find? (fun r => r.job == job && r.rank == rank)

/-- The held message of a pair with the lowest sequence number. -/
def nextHeld (s : State) (job src dst : Nat) : Option Held :=
  (s.heldMsgs.filter (fun h => h.msg.job == job && h.msg.src == src && h.msg.dst == dst)).foldl
    (fun b h => match b with
      | some x => if h.msg.seq < x.msg.seq then some h else b
      | none => some h) none

/-- A run's current step waits for a message of a sender. -/
def awaits (s : State) (r : Run) (src : Nat) : Bool :=
  match cpOf s r.id with
  | some c => [2, 3, 4].contains c.x.op && c.peer == some src && r.since.isSome && r.got.isNone && r.sent.isNone &&
      (nextHeld s r.job src r.rank).isNone
  | none => false

/-- A message with no element is a receiver's ready message (R410): the spec gives it no form. -/
def readyMsg (job src dst : Nat) : EngMsg := ⟨job, src, dst, 0, 0, false, [], []⟩

/-- Delivers a message (R403): to a waiting step, or to a pool; refused when the pool is full. A ready message waits for
the sender's SEND. -/
def deliver (s : State) (die : Nat) (m : EngMsg) : Bool × State :=
  if m.elems.isEmpty then (true, { s with readies := s.readies ++ [(m.job, m.src, m.dst)] }) else
  let pool := fun (die : Nat) => if poolRoom s die m then (true, hold s die m) else (false, s)
  match runFor s m.job m.dst with
  | some r => if awaits s r m.src then (true, s.modRun r.id (fun r => { r with got := some m })) else pool r.die
  | none => pool die

/-- Takes the step's message, or waits. -/
def Cp.take (c : Cp) (s : State) (src : Nat) (k : State → EngMsg → State) : State :=
  match c.r.got with
  | some m => k s m
  | none => match nextHeld s c.r.job src c.r.rank with
    | some h => k ({ s with heldMsgs := s.heldMsgs.erase h }.modRun c.r.id (fun r => { r with got := some h.msg })) h.msg
    | none => s

/-- The key of an ordered pair's messages. -/
def msgKey (job src dst : Nat) : Nat := job * 2 ^ 32 + src * 2 ^ 16 + dst

/-- The member and port that reach a rank (R402, R446), none when the link is down. -/
def Cp.route (c : Cp) (s : State) (rank : Nat) : Option (Nat × Nat) :=
  if c.r.ether then
    let i := (c.r.base + rank) % 4096
    match s.endpoints.find? (fun e => e.index == i) with
    | some e => if s.portsUp.contains (16 + e.port) then some (i, 16 + e.port) else none
    | none => none
  else
    let x := (c.r.base + rank) % 1024
    let own := (List.range 4).map (fun i => 4 * c.r.die + i)
    if s.portsUp.contains (4 * c.r.die + x % 4) then some (x, 4 * c.r.die + x % 4)
    else (own.find? (fun p => s.portsUp.contains p)).map (fun p => (x, p))

/-! ### Meeting slots (R411, R413) -/

/-- The reason with which a contribution's slot resolves at its host (R261); the context of a sender on another device is
not known there, and its check is left out. -/
def slotReason (s : State) (ctx : Option Nat) (n : Name) : Nat :=
  let ctx := ctx.getD (((entryOf s n).map (·.owner)).getD 0)
  match resolve s ctx n (some 9) with
  | .error code => code
  | .ok _ => 0

/-- One element of a contribution in the slot's format, as a partial with its count. -/
def contribPart (r : BitVec 352) (c : Contrib) (i : Nat) : Part × Nat :=
  let f := fmtOf c.format
  let w := (c.elems.getD i 0).toNat
  let x := if c.format == slotFmt r then w else (convertFV f.fb f.floating (fmtOf (slotFmt r)) rne (decF f w)).1
  let p := if slotSkip r && c.counts.getD i 1 == 0 then .absent else partOf (fmtOf (slotFmt r)) (slotOp r) (slotSkip r) x
  (p, if p == .absent then 0 else c.counts.getD i 1)

/-- A contribution combined into a slot, and its reason code. A slot that has all its contributions has closed. -/
def contribute (s : State) (ctx : Option Nat) (c : Contrib) : Nat × State :=
  match slotReason s ctx c.slot, entryOf s c.slot with
  | 0, some e => match e.obj with
    | .meeting m =>
      let n := slotElems e.record
      if m.contribs ≥ slotMembers e.record then (0x01, s)
      else if c.elems.length != n || !fmtCodeOk c.format || c.format == 0x05 then (0x48, s)
      else
        let new := (List.range n).map (contribPart e.record c)
        let old := (List.range n).map (fun i => (m.parts.getD i .absent, m.counts.getD i 0))
        let all := combineAll (fmtOf (slotFmt e.record)) (slotOp e.record) old new
        let m : Meet := ⟨m.contribs + 1, all.map (·.1), all.map (·.2), m.readers⟩
        (0, s.modEntry c.slot (fun e => { e with obj := .meeting m }))
    | _ => (0x01, s)
  | 0, none => (0x01, s)
  | code, _ => (code, s)

/-! ### Sending -/

/-- Sends an engine message to a member by a port. On a UALink port it takes the next number of its requests to that
accelerator by that port, as every other request does (R426). -/
def sendMsg (c : Cp) (s : State) (x port : Nat) (dst : PeerDst) (op : PeerOp) (m : EngMsg) : State :=
  let k := if c.r.ether then 2 ^ 32 + x * 32 + port else x * 16 + port
  let q := mget 0 s.peerSeq k + 1
  { s with
    peerOut := s.peerOut ++ [⟨s.seqN, dst, c.r.die, x, port, c.r.ether, 4095, 4095 * 2 ^ 44, op, some m, q, s.time,
      if c.r.ether then 100000 else peerTimeoutOf s x, none⟩]
    peerSeq := mput 0 s.peerSeq k q
    seqN := s.seqN + 1 }

/-- The egress queue of the run's die has no room for a message (R425). -/
def noRoom (c : Cp) (s : State) (x port : Nat) : Bool := !c.r.ether && egress s c.r.die port x ≥ 256

/-- A receiving step begins. DESIGN CHOICE (entry 52): in a run that has fallen back, it sends its sender a ready message
(R410) first; with no room or no link for it, the step begins later or without. -/
def Cp.beginRecv (c : Cp) (s : State) (vas : List Nat) (p : Nat) : State :=
  if c.r.since.isSome || !c.r.skew || p == c.r.rank then c.begin s vas
  else match c.route s p with
    | none => c.begin s vas
    | some (x, port) =>
      if !c.r.ether && mget 0 s.peerMake x == 1 then c.begin s vas
      else if noRoom c s x port then s
      else sendMsg c (c.begin s vas) x port (.cmd 0 0) (.write [] false) (readyMsg c.r.job c.r.rank p)

/-- The step has begun, now or before. -/
def Cp.begun (c : Cp) (s : State) : Bool := (s.run? c.r.id).any (fun r => r.since.isSome)

/-- A SEND to another rank's run waits for that receiver's ready message, once the run has fallen back (R410). -/
def Cp.awaitsReady (c : Cp) (s : State) (rank : Nat) (slot : Option Name) : Bool :=
  c.x.op == 1 && slot.isNone && c.r.skew && rank != c.r.rank && !s.readies.contains (c.r.job, rank, c.r.rank)

/-- Sends a message, or a contribution to a slot, to a rank; its answer ends the step. A rank's message to itself
uses no port. DESIGN CHOICE (entry 52): a message of more than 8 KiB of elements fits no datagram (R440), and a SEND of it
over Ethernet ends with BADSIZE. -/
def Cp.post (c : Cp) (s : State) (rank : Nat) (slot : Option Name) (m : EngMsg) (code : Nat) : State :=
  let key := msgKey m.job m.src m.dst
  let seq := mget 0 s.msgSeq key + 1
  let num := fun (s : State) => if slot.isSome then s else { s with
    msgSeq := mput 0 s.msgSeq key seq
    readies := if c.x.op == 1 && c.r.skew then s.readies.erase (c.r.job, rank, c.r.rank) else s.readies }
  let m := { m with seq := seq }
  let late : Bool := match c.r.since with
    | some t => decide (peerTimeoutOf s s.accel.toNat ≤ (s.time - t).toNat)
    | none => false
  if rank == c.r.rank then
    match slot with
    | some n =>
      let (k, s) := contribute s (some c.r.ctx) ⟨n, m.format, m.elems, m.counts⟩
      c.done s (if k == 0 then code else k)
    | none => match deliver s c.r.die m with
      | (true, s) => c.done (num s) code
      | (false, s) => if late then c.done s 0x42 else s
  else match c.route s rank with
    | none => c.done s 0x41
    | some (x, port) =>
      if !c.r.ether && mget 0 s.peerMake x == 1 then c.done s 0x44
      else if c.r.ether && msgBytes { m with counts := [] } > 8192 then c.done s 0x48
      else if c.awaitsReady s rank slot || noRoom c s x port then s
      else
        let op : PeerOp := .write (match slot with
          | some n => natBytes 16 n.toNat
          | none => []) false
        sendMsg c ((num s).modRun c.r.id (fun r => { r.note code with sent := some s.seqN })) x port (.run c.r.id) op m

/-! ### The steps (R397) -/

/-- HALT: the run ends, and A's cell is then signalled. -/
def execCpHalt (run : Nat) (s : State) : Host.Outcome State Fault Refusal :=
  onStep s run 0 fun s c =>
    let s := endRun s c.r 2
    match c.x.count, c.entry c.x.a with
    | 1, .cell va =>
      let u : CellUpd := ⟨.run c.r.id, c.r.die, c.r.ctx, c.r.slot, va, 1, 0, 0, 0⟩
      updateCell { s with cells := s.cells ++ [u] } u
    | _, _ => s

def poisonCode (l : List SrcEl) : Nat := if l.any (·.poison) then 0x45 else 0

/-- SEND: A's range to the peer, as a message or as a contribution to slot B. -/
def execCpSend (run : Nat) (s : State) : Host.Outcome State Fault Refusal :=
  onStep s run 1 fun s c =>
    match c.peer, cpData s (c.entry c.x.a) with
    | none, _ => c.done s 0
    | some p, some d =>
      if !c.fits d.size then c.done s 0x48
      else c.read (c.begin s []) d c.range fun s l =>
        let slot := match c.entry c.x.b with
          | .slot n => some n
          | _ => none
        let m : EngMsg := ⟨c.r.job, c.r.rank, p, 0, d.fmt, false, l.map (fun x => BitVec.ofNat 64 (d.code x)), []⟩
        c.post s p (if c.x.b == 0 then none else slot) m (poisonCode l)
    | some _, none => c.done s 0x44

/-- The elements of a message as values to write. -/
def msgVals (f : NF) (fc g : BitVec 8) (m : EngMsg) (n : Nat) : List CpVal :=
  (List.range n).map (fun i =>
    let w := m.elems.getD i 0
    partVal f g fc (if f.floating then .float w.toNat
      else .int (if m.exact then w.toInt else if f.signed then sgn f.w w.toNat else w.toNat % 2 ^ f.w)) false)

/-- RECV: B's range becomes the next message from the peer. -/
def execCpRecv (run : Nat) (s : State) : Host.Outcome State Fault Refusal :=
  onStep s run 2 fun s c =>
    match c.peer, cpData s (c.entry c.x.b) with
    | none, _ => c.done s 0
    | some p, some d =>
      if !c.fits d.size then c.done s 0x48
      else
        let vas := if d.staged then [] else (d.vas c.range).map (·.1)
        let s := c.beginRecv s vas p
        if !c.begun s then s
        else c.take s p fun s m =>
          if m.format != d.fmt || m.elems.length != c.len then c.done s 0x48
          else
            let els := c.els d (flatRec d.fmt 0 1) true c.first (msgVals (fmtOf d.fmt) d.fmt d.fmt m c.len)
            c.write s d els (c.block d) fun s => c.done s 0
    | some _, none => c.done s 0x44

/-- RRS: the message combined with A's range goes on to rank (2 · rank - P) mod n. -/
def execCpRrs (run : Nat) (s : State) : Host.Outcome State Fault Refusal :=
  onStep s run 3 fun s c =>
    match c.peer, cpData s (c.entry c.x.a) with
    | none, _ => c.done s 0
    | some p, some d =>
      let m := if c.x.skip then companion s c c.x.a d.size else .none
      let f := fmtOf d.fmt
      if !c.fits d.size || !redFmt d.fmt || m == .bad then c.done s 0x48
      else
        let s := c.beginRecv s [] p
        if !c.begun s then s
        else c.read s d c.range fun s l => c.counts s m fun s ns => c.take s p fun s msg =>
          if msg.format != d.fmt || msg.elems.length != c.len then c.done s 0x48
          else
            let z := combineAll f c.x.rop (c.own d m.blocks l ns) (c.theirs f m.blocks msg)
            let peer := modN (2 * (c.r.rank : Int) - p) c.r.n
            let out : EngMsg := ⟨c.r.job, c.r.rank, peer, 0, d.fmt, !f.floating, z.map (fun q => Part.word f q.1),
              if c.x.skip then z.map (·.2) else []⟩
            c.post s peer none out (if ns.any (·.2) then 0x45 else poisonCode l)
    | some _, none => c.done s 0x44

/-- RRED: B's range, and with skip its counts, become A's range combined with the message. -/
def execCpRred (run : Nat) (s : State) : Host.Outcome State Fault Refusal :=
  onStep s run 4 fun s c =>
    match c.peer, cpData s (c.entry c.x.a), cpData s (c.entry c.x.b) with
    | none, _, _ => c.done s 0
    | some p, some a, some b =>
      let ma := if c.x.skip then companion s c c.x.a a.size else .none
      let mb := if c.x.skip then companion s c c.x.b b.size else .none
      let f := fmtOf a.fmt
      let noComp := c.x.skip && (mb == .none || mb == .bad || ma == .bad)
      if !c.fits a.size || !c.fits b.size || !redFmt a.fmt || !redFmt b.fmt || noComp then c.done s 0x48
      else
        let own := (if b.staged then [] else (b.vas c.range).map (·.1)) ++
          (countEls s c mb c.len (c.range.map (fun _ => (0, false)))).map (·.va)
        let s := c.beginRecv s own p
        if !c.begun s then s
        else c.read s a c.range fun s l => c.counts s ma fun s ns => c.take s p fun s msg =>
            if msg.format != a.fmt || msg.elems.length != c.len then c.done s 0x48
            else
              let bl := ma.blocks || mb.blocks
              let z := combineAll f c.x.rop (c.own a bl l ns) (c.theirs f bl msg)
              let bad := List.zipWith (fun (x : SrcEl) (n : Nat × Bool) => x.poison || n.2) l ns
              let vals := List.zipWith (fun (q : Part × Nat) p => partVal f b.fmt a.fmt q.1 p) z bad
              let els := c.els b (flatRec a.fmt 0 1) true c.first vals ++
                countEls s c mb c.len (List.zipWith (fun (q : Part × Nat) p => (q.2, p)) z bad)
              c.write s b els (c.block b) fun s =>
                c.done (useFree s (if c.x.skip then c.len else 0)) (if bad.any id then 0x45 else 0)
    | some _, _, _ => c.done s 0x44

/-- COPY from a meeting slot of this die (R413): the run is a registered reader until the close. -/
def Cp.fromSlot (c : Cp) (s : State) (n : Name) (b : CpData) : State :=
  match c.r.got with
  | some m =>
    let mb := if m.seq == 1 then companion s c c.x.b b.size else .none
    let f := fmtOf m.format
    let one := fun (i : Nat) =>
      let w := m.elems.getD (c.first + i) 0
      let v := partVal f b.fmt m.format (if m.counts.getD (c.first + i) 1 == 0 then .absent
        else if f.floating then .float w.toNat else .int w.toInt) false
      { v with mark := v.mark || c.r.marks.contains (c.first + i) }
    let els := c.els b (flatRec m.format 0 1) true c.first ((List.range c.len).map one) ++
      countEls s c mb c.len ((List.range c.len).map (fun i => (m.counts.getD (c.first + i) 0, false)))
    c.write s b els (c.block b) fun s => c.done (useFree s (if m.seq == 1 then c.len else 0)) 0
  | none =>
    if c.r.since.isSome then s
    else match resolve s c.r.ctx n (some 9), entryOf s n with
      | .error code, _ => c.done s code
      | .ok e, _ => match e.obj with
        | .meeting m =>
          let mb := if slotSkip e.record then companion s c c.x.b b.size else .none
          if m.contribs ≥ slotMembers e.record then c.done s 0x01
          else if slotDie e.record != c.r.die then c.done s 0x49
          else if !c.fits (slotElems e.record) || !c.fits b.size then c.done s 0x48
          else if slotSkip e.record && (mb == .none || mb == .bad) then c.done s 0x48
          else
            let own := (if b.staged then [] else (b.vas c.range).map (·.1)) ++
              (countEls s c mb c.len (c.range.map (fun _ => (0, false)))).map (·.va)
            (c.begin s own).modEntry n (fun e => { e with obj := .meeting { m with readers := m.readers ++ [c.r.id] } })
        | _ => c.done s 0x01

/-- COPY: B's range becomes A's, converted by R291. -/
def execCpCopy (run : Nat) (s : State) : Host.Outcome State Fault Refusal :=
  onStep s run 5 fun s c =>
    match c.entry c.x.a, cpData s (c.entry c.x.a), cpData s (c.entry c.x.b) with
    | .slot n, _, some b => c.fromSlot s n b
    | _, some a, some b =>
      if !c.fits a.size || !c.fits b.size then c.done s 0x48
      else
        let vas := if b.staged then [] else (b.vas c.range).map (·.1)
        c.read (c.begin s vas) a c.range fun s l =>
          c.write s b (c.els b a.img false c.first (l.map (fun x => ⟨x, false⟩))) (c.block b) fun s =>
            c.done s (poisonCode l)
    | _, _, _ => c.done s 0x44

/-- A step's access to a count cell (R235, R414, R415). -/
def Cp.cell (c : Cp) (s : State) (va : Nat) (k : AK) (go : State → Acc189 → Nat → State) : State :=
  if va / 2 ^ 48 == 0xFD then c.done s 0x44
  else match check189 s c.r.who (BitVec.ofNat 64 va) 8 k with
    | (a, s) => match cellPlace a with
      | .window loc => go s (.window loc) loc
      | .mem x => go s (.mem x) (x.loc va)
      | .fault _ => match c.r.stop with
        | some code => c.done s code
        | none => raiseFault s c.r.die none c.r.who va k (.run c.r.id)
      | _ => c.done s 0x44

/-- WAIT with T = 0: until A's count has reached the field; the engine reads at the home, so the acquire has nothing
to invalidate. -/
def execCpWaitCell (run : Nat) (s : State) : Host.Outcome State Fault Refusal :=
  onStep s run 6 fun s c =>
    match c.x.timed, c.entry c.x.a with
    | false, .cell va => c.cell s va .read fun s _ loc =>
      if c.x.count ≤ natAt s loc 4 then c.done s (if (granAt s loc).poison then 0x45 else 0) else s
    | _, _ => s

/-- A skew bound above the slot width falls back to ready messages; a width of 0 always does (R410). -/
def fallsBack (s : State) (width : Nat) : Bool := width == 0 || s.skew.toNat > width

/-- The time a timed WAIT waits for (R409). -/
def Cp.until_ (c : Cp) : Nat := c.r.time0.toNat + (c.x.offset + c.chunk) * c.r.width

/-- WAIT with T = 1 (R409, R410). -/
def execCpWaitTimed (run : Nat) (s : State) : Host.Outcome State Fault Refusal :=
  onStep s run 6 fun s c =>
    if !c.x.timed then s
    else
      let s := if c.r.since.isSome then s
        else s.modRun run (fun r => { r with
          since := some s.time, skew := r.skew || fallsBack s r.width, late := r.late || c.until_ < s.time.toNat })
      if c.until_ ≤ s.time.toNat then c.done s 0 else s

/-- The ENDL of the LOOP at index `i`: the next with its counter. -/
def endlOf (steps : List Word) (ctr i : Nat) : Nat :=
  i + 1 + ((steps.drop (i + 1)).findIdx (fun w => (cpStep w).op == 8 && (cpStep w).ctr == ctr))

/-- LOOP (R400). -/
def execCpLoop (run : Nat) (s : State) : Host.Outcome State Fault Refusal :=
  onStep s run 7 fun s c =>
    let trips := if c.x.count == 0xFFFF then c.r.n - 1 else c.x.count + 1
    if trips == 0 then endCpStep s run 0 (endlOf c.p.steps c.x.ctr c.r.step + 1)
    else c.done (s.modRun run (fun r => { r with loops := ⟨c.x.ctr, 1, trips, r.step⟩ :: r.loops })) 0

/-- ENDL (R400). -/
def execCpEndl (run : Nat) (s : State) : Host.Outcome State Fault Refusal :=
  onStep s run 8 fun s c =>
    match c.r.loops with
    | l :: rest =>
      if l.value < l.trips then
        endCpStep (s.modRun run (fun r => { r with loops := { l with value := l.value + 1 } :: rest })) run 0 (l.step + 1)
      else c.done (s.modRun run (fun r => { r with loops := rest })) 0
    | [] => c.done s 0

/-- SIGNAL: the run's writes are all performed at their homes, so its release has nothing left to do (R416). -/
def execCpSignal (run : Nat) (s : State) : Host.Outcome State Fault Refusal :=
  onStep s run 9 fun s c =>
    match c.entry c.x.a with
    | .cell va => c.cell s va .rmw fun s place loc =>
      let key := match place with
        | .window _ => granKey loc
        | _ => lineKey c.r.slot va
      if engineOwns s key then s
      else c.done (cellHome s ⟨0, 0⟩ c.r.slot va place (fun old => natBytes 4 (old % 2 ^ 32 + (c.x.count + 1)))) 0
    | _ => c.done s 0x44

/-! ### Arrivals and times -/

/-- The die of a port. -/
def portDie (port : Nat) : Nat := if port < 16 then port / 4 else port % 4

/-- Keeps a response among the requester's last 1,024 to writes and atomics (R426). -/
def keepAnswer (l : List Kept) (k : Kept) : List Kept :=
  let mine := l.filter (fun x => x.requester == k.requester)
  (if mine.length ≥ 1024 then l.erase (mine.headD k) else l) ++ [k]

/-- The kept response to a message that has been performed. -/
def keptFor (s : State) (f : MsgFrom) : Option Kept :=
  s.kept.find? (fun k => k.requester == f.requester && k.port == f.port && k.seq == f.seq)

/-- What a port sends: nothing while its transmit gate is closed (R444). -/
def transmit (s : State) (port : Nat) (o : HostOut) : State :=
  if s.portsUp.contains port then { s with hostOut := s.hostOut ++ [o] } else s

/-- The sender is known to be of another make (R439). -/
def otherMake (s : State) (f : MsgFrom) : Bool := f.port < 16 && mget 0 s.peerMake f.requester == 1

/-- An engine message arrives on a port, and its die delivers it; a full pool refuses it (R403), and so does the device
one from another make (R421). A message sent again is not delivered again (R426). -/
def execEngineMessageArrival (f : MsgFrom) (m : EngMsg) (s : State) : Host.Outcome State Fault Refusal :=
  let told := fun (s : State) (ok : Bool) => transmit s f.port (.message f.port m.job m.src m.dst ok 0)
  .next (match keptFor s f with
    | some _ => told s true
    | none =>
      if otherMake s f then told s false
      else
        let (ok, t) := deliver s (portDie f.port) m
        if ok then told { t with kept := keepAnswer t.kept ⟨f.requester, f.port, f.seq, []⟩ } true else told s false)

/-- A held message is discarded after 10 ms with no run of its job and rank, and counted (R403, R438). -/
def execMessageDiscard (die n : Nat) (s : State) : Host.Outcome State Fault Refusal :=
  .next (match s.heldMsgs.find? (fun h => h.die == die && h.n == n) with
    | some h =>
      if (runFor s h.msg.job h.msg.dst).isNone && (s.time - h.time).toNat ≥ 10000000 then
        bumpCounter { s with heldMsgs := s.heldMsgs.erase h } die 8
      else s
    | none => s)

/-- A receiving step has waited 100 ms for its message (R404). -/
def execRecvTimeout (run : Nat) (s : State) : Host.Outcome State Fault Refusal :=
  .next (match cpOf s run with
    | some c => match c.peer, c.r.since with
      | some p, some t =>
        if [2, 3, 4].contains c.x.op && c.r.got.isNone && (nextHeld s c.r.job p c.r.rank).isNone &&
            (s.time - t).toNat ≥ 100000000 then c.done s 0x42
        else s
      | _, _ => s
    | none => s)

/-- A contribution arrives at the device that hosts its slot; its reason is the answer (R411). One sent again takes the
kept reason (R426). -/
def execSlotContribution (c : SentContrib) (s : State) : Host.Outcome State Fault Refusal :=
  let f := c.sender
  let told := fun (s : State) (code : Nat) => transmit s f.port (.message f.port 0 0 0 (code == 0) code)
  .next (match keptFor s f with
    | some k => told s (leNat k.data)
    | none =>
      if otherMake s f then told s 0x44
      else
        let (code, t) := contribute s none c.body
        told { t with kept := keepAnswer t.kept ⟨f.requester, f.port, f.seq, natBytes 1 code⟩ } code)

/-- A slot that has all its contributions closes (R412). -/
def execSlotClose (slot : Name) (s : State) : Host.Outcome State Fault Refusal :=
  .next (match entryOf s slot with
    | some e => match e.obj with
      | .meeting m => if m.contribs ≥ slotMembers e.record then closeSlot s slot false else s
      | _ => s
    | none => s)

/-- A slot closes at its deadline with fewer (R412). -/
def execSlotDeadline (slot : Name) (s : State) : Host.Outcome State Fault Refusal :=
  .next (match entryOf s slot with
    | some e => match e.obj with
      | .meeting m =>
        if m.contribs < slotMembers e.record && (slotDeadlineOf e.record).toNat ≤ s.time.toNat then closeSlot s slot true
        else s
      | _ => s
    | none => s)

/-! ### CPRUN, CPSTAT, CPSTOP -/

/-- The reserved bits and ranges of CPRUN's registers (R402, R418). -/
def cprunOk (p : CpProg) (sa sb : Word) : Bool :=
  let n := (sb.extractLsb' 0 16).toNat
  sa.extractLsb' 48 15 == 0 && sa.extractLsb' 28 4 == 0 && sa.extractLsb' 12 4 == 0 && sb.extractLsb' 16 16 == 0 &&
  1 ≤ n && n ≤ 4096 && (sa.extractLsb' 0 12).toNat < n &&
  p.steps.all (fun w => !(CpStep.isPeer (cpStep w) && (cpStep w).pmode == 0) || (cpStep w).peer < n)

/-- A staging entry overlaps a live slot or a running run's staging entry. -/
def stagingBusy (s : State) (die : Nat) (p : CpProg) : Bool :=
  (stagingOf p.table).any (fun a => (slotAreas s die ++ runAreas s die).any (fun b => overlaps a.1 a.2 b.1 b.2))

/-- The engine's die of a program record (R268). -/
def progDie (r : BitVec 352) : Nat := (r.extractLsb' 128 2).toNat

/-- A run at its first step. A slot width of 0 always falls back (R410). -/
def newRun (s : State) (e : Entry) (sa sb sc : Word) : Run where
  id := s.seqN
  prog := e.name
  die := progDie e.record
  ctx := e.owner
  slot := ctxSlot s e.owner
  ether := sa.msb
  job := (sa.extractLsb' 32 16).toNat
  base := (sa.extractLsb' 16 12).toNat
  rank := (sa.extractLsb' 0 12).toNat
  n := (sb.extractLsb' 0 16).toNat
  width := (sb.extractLsb' 32 32).toNat
  time0 := sc
  step := 0
  loops := []
  code := 0
  late := false
  skew := fallsBack s (sb.extractLsb' 32 32).toNat
  since := none
  got := none
  sent := none
  lines := []
  turn := 0
  offset := 0
  ack := none
  stop := none
  marks := []
  stopAt := none
  stoppers := []

/-- The checks of CPRUN, in the order of R418: the program, or a reason and whether a name gave it. -/
def cprunCheck (s : State) (ctx : Nat) (n : Name) (x y : Word) : Except (Nat × Bool) (Entry × CpProg) :=
  match resolve s ctx n (some 4) with
  | .error code => .error (code, true)
  | .ok e => match e.obj with
    | .prog p =>
      let die := progDie e.record
      let gone := (tensorNames p.table).findSome? (fun n => match resolve s ctx n (some 2) with
        | .error code => some code
        | .ok _ => none)
      if !cprunOk p x y then .error (0x61, false)
      else if p.state == 1 || (runFor s (x.extractLsb' 32 16).toNat (x.extractLsb' 0 12).toNat).isSome then .error (0x60, false)
      else match gone with
        | some code => .error (code, true)
        | none =>
          if stagingBusy s die p then .error (0x63, false)
          else if (s.runs.filter (fun r => r.die == die)).length ≥ 16 then .error (0x64, false)
          else .ok (e, p)
    | _ => .error (0x01, true)

/-- The run starts; its engine keeps the names it resolved (R264). -/
def startRun (s : State) (e : Entry) (p : CpProg) (r : Run) : State :=
  let names := tensorNames p.table
  let s := (e.name :: names).foldl (fun s n => cacheName s (collectiveCache r.die) n) s
  let s := names.foldl (fun s n => holdName s n true) { s with runs := s.runs ++ [r], seqN := s.seqN + 1 }
  (wakeIslands s).modEntry e.name (fun e => { e with obj := .prog { p with
    state := 1, step := 0, code := 0, late := false, skew := r.skew } })

/-- CPRUN (R418): it commits and pins (R337), and makes its checks. -/
def execCprun (h : Head) (q : BitVec 3) (g : Bool) (kx : BitVec 4) (sa sb sc : BitVec 6) (s : State) :
    Host.Outcome State Fault Refusal :=
  onCur s fun c =>
    match resultGate c .none with
    | some w => blockWord s c w
    | none => afterSync c (pinFirst s c) fun s =>
      let c := refresh s c
      let x := c.g.sreg sa.toNat
      let y := c.g.sreg sb.toNat
      match cprunCheck s c.t.ctx (c.g.name kx.toNat) x y with
      | .error (code, true) => goneDone s c h q g code 0 []
      | .error (code, false) => reasonDone s c h q code []
      | .ok (e, p) => match deliverFail s c true [] with
        | some s => s
        | none => afterSync c (releaseAt s c.ref c.t.core c.n.x .dev) fun s =>
          reasonDone (startRun s e p (newRun s e x y (c.g.sreg sc.toNat))) (refresh s c) h q 0 []

/-- The word CPSTAT writes (R419). -/
def cpstatWord (s : State) (n : Name) (p : CpProg) : Word :=
  let f := fun (step code state : Nat) (late skew : Bool) =>
    BitVec.ofNat 12 step ++ (0 : BitVec 12) ++ BitVec.ofNat 8 p.runs ++ (0 : BitVec 12) ++ BitVec.ofBool late ++
    BitVec.ofBool skew ++ BitVec.ofNat 2 state ++ (0 : BitVec 8) ++ BitVec.ofNat 8 code
  match s.runs.find? (fun r => r.prog == n) with
  | some r => f (min r.step (p.steps.length - 1)) r.code 1 r.late r.skew
  | none => f p.step p.code p.state p.late p.skew

/-- CPSTAT. -/
def execCpstat (h : Head) (q : BitVec 3) (g : Bool) (kx : BitVec 4) (sa : BitVec 6) (s : State) :
    Host.Outcome State Fault Refusal :=
  onCur s fun c =>
    let n := c.g.name kx.toNat
    match resolve s c.t.ctx n (some 4), progOf s n with
    | .error code, _ => goneDone s c h q g code 0 []
    | .ok _, some p => reasonDone s c h q 0 [.s sa (cpstatWord s n p.2)]
    | .ok _, none => goneDone s c h q g 0x01 0 []

/-- The run is inside a block of 256 elements of its step (R420). -/
def Run.midBlock (r : Run) : Bool := r.since.isSome && (r.ack.isSome || r.offset % 256 != 0)

/-- The end of the block of 256 elements that the run is in. -/
def Run.blockEnd (r : Run) : Nat := (max r.offset ((r.ack.getD 0) - 1)) / 256 * 256 + 256

/-- A run ends as CPSTOP ends it: its current block is completed, then it is stopped, with STOPPED unless a code is
recorded. -/
def stopRun (s : State) (r : Run) : State :=
  if r.midBlock then s.modRun r.id (fun r => { r with stopAt := some (r.stopAt.getD r.blockEnd) })
  else endRun s (r.note 0x4A) 3

/-- CPSTOP (R420): its result returns once the run has ended. -/
def execCpstop (h : Head) (q : BitVec 3) (g : Bool) (kx : BitVec 4) (s : State) : Host.Outcome State Fault Refusal :=
  onCur s fun c =>
    match resultGate c .none with
    | some w => blockWord s c w
    | none => afterSync c (pinFirst s c) fun s =>
      let c := refresh s c
      let n := c.g.name kx.toNat
      match resolve s c.t.ctx n (some 4) with
      | .error code => goneDone s c h q g code 0 []
      | .ok _ => match s.runs.find? (fun r => r.prog == n) with
        | some r =>
          let id := s.seqN
          let s := (addPend s c .none false (reasonWs q 0)).modRun r.id (fun r => { r with stoppers := r.stoppers ++ [(c.ref, id)] })
          finish (stopRun s { r with stoppers := r.stoppers ++ [(c.ref, id)] }) c h
        | none => reasonDone s c h q 0x62 []

end Sys2Proof.Machine
end

