-- ==== Sys2Proof/Machine/Peer.lean ====
section
/-! DEFINITION. Peer memory (R421 to R427): requests from other accelerators, the answers to the device's own, the links
(R439, R440), and the completion of NKILL (R277, R278, R283). -/

namespace Sys2Proof.Machine

open Sys2Proof

/-! ### The owner's side (R423, R425, R426) -/

/-- An entry is the export window with an index. -/
def isExport (e : Entry) (index : Nat) : Bool := nameClass e.name == 6 && e.record.getLsbD 0 && fld e.record 1 12 == index

/-- The window index that a request names. -/
def reqIndex (q : PeerReq) : Nat := q.addr / 2 ^ 44 % 4096

def reqSrc (q : PeerReq) : MsgFrom := ⟨q.requester, q.port, q.seq⟩

/-- The request is one waiting request. -/
def sameReq (q : PeerReq) (x : PeerReq) : Bool := x.requester == q.requester && x.port == q.port && x.seq == q.seq

/-- The export window of a request: a live one, or for a request received before its NKILL the dying one, since accesses
already sent complete (R278). -/
def exportWindow (s : State) (q : PeerReq) : Option Entry :=
  let es := (s.roster.map Prod.snd).filter (fun e => isExport e (reqIndex q))
  if s.peerIn.any (sameReq q) then (es.find? (·.dying)).orElse (fun _ => es.find? (fun e => !e.dying))
  else es.find? (fun e => !e.dying)

def PeerOp.atomic? : PeerOp → Bool
  | .read _ | .write .. => false
  | _ => true

/-- The bytes a request covers. -/
def PeerOp.size : PeerOp → Nat
  | .read n => n
  | .write d _ => d.length
  | .atomic _ w _ | .cas w _ _ | .red _ w _ => if w then 8 else 4
  | .casName .. => 16

/-- The access a request makes (R217). -/
def PeerOp.ak : PeerOp → AK
  | .read _ => .read
  | .write .. => .write
  | _ => .rmw

/-- Checks 2 and 3 of R423 against a window's record; `porut` says that the requester is of this make. -/
def windowAdmits (r : BitVec 352) (q : PeerReq) (porut : Bool) : Bool :=
  (r.getLsbD 93 || winPeer r == q.requester) && q.addr % 2 ^ 44 + PeerOp.size q.op ≤ winSize r &&
  (match q.op with
    | .read _ => true
    | .write .. => r.getLsbD 91
    | _ => r.getLsbD 92) && (porut || otherMakeOk q.op)

/-- What becomes of an incoming request. -/
inductive Served
  | answer (s : State) (bytes : List Byte) (error poison : Bool)
  | wait (s : State)

/-- The tag of incoming words (R356). -/
def peerTag (q : PeerReq) (porut : Bool) : Tag :=
  match q.op with
  | .write _ true => if porut then 0xFFFF else 0
  | _ => 0

/-- Performs a request at the location of a translated address. -/
def performPeer (s : State) (q : PeerReq) (porut : Bool) (loc : Nat) (tagged : Bool) : Served :=
  let n := PeerOp.size q.op
  let old := bytesAt s loc n
  let poison := (pieces loc n).any (fun p => (granAt s p.1).poison)
  let put := fun (b : List Byte) => outsideWrite s loc tagged (peerTag q porut) b
  let bad := Served.answer s [] true true
  match q.op with
  | .read _ => if poison then bad else .answer s old false false
  | .write d _ => .answer (put d) [] false false
  | .atomic f w v =>
    if poison then bad else .answer (put (natBytes n (atomElem f w (leNat old) v.toNat).1)) old false false
  | .cas w a b =>
    if poison then bad
    else .answer (if leNat old == a.toNat % 2 ^ (8 * n) then put (natBytes n (if w then b.toNat else b.toNat % 2 ^ 32)) else s)
      old false false
  | .red f w v => .answer (put (natBytes n (redElem f w (leNat old) v.toNat).1)) [] false false
  | .casName a b =>
    if poison then bad else .answer (if leNat old == a.toNat then put (natBytes 16 b.toNat) else s) old false false

/-- Serves a request (R423): its checks, the translation under the window's space, and the access. -/
def servePeer (s : State) (q : PeerReq) : Served :=
  let porut := !otherMake s (reqSrc q)
  match exportWindow s q with
  | none => .answer s [] true false
  | some e => match windowAdmits e.record q porut, entryOf s (e.record.extractLsb' 96 128) with
    | true, some sp => match sp.obj with
      | .space slot =>
        let va := fld e.record 224 56 + q.addr % 2 ^ 44
        let w : Who := ⟨portDie q.port * 64, e.owner, slot⟩
        if zoneOf 0 va != .mapped then .answer s [] true false
        else if waitsPage s slot va (.peer q.requester q.port q.seq) then .wait s
        else match translate s slot va (PeerOp.ak q.op) with
          | (.error 3, s) => .answer s [] true false
          | (.error _, s) =>
            .wait (raiseFault s (portDie q.port) none w va (PeerOp.ak q.op) (.peer q.requester q.port q.seq))
          | (.ok x, s) =>
            if x.peer then .answer s [] true false
            else if engineOwns s (lineKey slot va) then .wait s
            else
              let s := if PeerOp.ak q.op == .read then s
                else markDirty (recallWhere s slot va x (fun e => !heldCommit s e.w.g.team)) slot va
              performPeer s q porut (x.loc va) x.tagged
      | _ => .answer s [] true false
    | _, _ => .answer s [] true false

/-- Answers a request by the port on which it came; a port that is down transmits nothing (R444). -/
def answerPeer (s : State) (q : PeerReq) (bytes : List Byte) (error poison busy : Bool) : State :=
  transmit { s with peerIn := s.peerIn.filter (fun x => !sameReq q x) } q.port
    (.peer q.requester q.seq bytes error poison busy)

/-- An incoming request: a retransmission takes the kept response, a 257th of its requester the busy mark, and any
other is served, or waits for its page or its line. -/
def execPeerRequestArrival (q : PeerReq) (s : State) : Host.Outcome State Fault Refusal :=
  let porut := !otherMake s (reqSrc q)
  .next (match (if porut then keptFor s (reqSrc q) else none) with
    | some k => answerPeer s q k.data false false false
    | none =>
      if !s.peerIn.any (sameReq q) && (s.peerIn.filter (fun x => x.requester == q.requester)).length ≥ 256 then
        answerPeer s q [] true false true
      else
        let y := servePeer s q
        let add := fun (s : State) =>
          if s.peerIn.any (sameReq q) then s else wakeIslands { s with peerIn := s.peerIn ++ [q] }
        match y with
        | .wait s => add s
        | .answer s b error poison =>
          let keep := porut && !error && PeerOp.ak q.op != .read
          answerPeer (if keep then { s with kept := keepAnswer s.kept ⟨q.requester, q.port, q.seq, b⟩ } else s) q b error poison false)

/-! ### The requester's side (R424, R425) -/

/-- The outstanding result a request completes. -/
def PeerDst.pend : PeerDst → Option (GRef × Nat)
  | .loadV n p .. | .loadS n p .. | .name n p .. | .casT n p .. => some (n.g, p)
  | _ => none

/-- Groups that wait on peers look again. -/
def wakePeers (s : State) : State :=
  let gs := s.teams.flatMap (fun t => (t.groups.filter (fun g => match g.wait with
    | some w => w.why == .peer
    | none => false)).map (fun g => (⟨t.id, g.grp⟩ : GRef)))
  gs.foldl wake s

/-- Adds writes to an outstanding result, which is ready once no request of it is outstanding. -/
def feedPend (s : State) (d : PeerDst) (ws : List RegW) : State :=
  match PeerDst.pend d with
  | some (r, id) =>
    let ready := !s.peerOut.any (fun p => PeerDst.pend p.dst == some (r, id))
    s.modGroup r (fun g => { g with pend := g.pend.map (fun p =>
      if p.id == id then { p with writes := p.writes ++ ws, ready := p.ready || ready } else p) })
  | none => s

/-- Lanes that trap with another cause than their group's stand at the word again, to issue it once more (R327). -/
def replayAt (n : Now) (lanes : List Nat) (g : Group) : Group :=
  g.modLanes (maskOf lanes) (fun _ l => { l with pc := n.pc, ins := some ⟨n.hdr, n.head⟩ })

/-- Lanes trap for a failed access (R424). In a request already pending they enter with it when its cause is theirs. Of
lanes of one word with other causes, the group's cause is the lowest lane's, and the others meet the word again (R327);
so do the lanes of another word. -/
def peerTrap (s : State) (n : Now) (ts : List LaneTrap) : State :=
  match (s.group? n.g).bind (·.trapReq), byLane ts with
  | some q, t :: ts =>
    let new := ((t :: ts).filter (fun t => !q.lanes.any (fun x => x.lane == t.lane))).map (fun t =>
      (⟨t.lane, n.pc, t.ttag, t.faultva⟩ : TrapLane))
    if q.cause == t.cause then s.modGroup n.g (fun g => { g with trapReq := some { q with lanes := q.lanes ++ new } })
    else if q.now.pc == n.pc && q.lanes.all (fun x => t.lane < x.lane) then
      s.modGroup n.g (fun g => { replayAt q.now (q.lanes.map (·.lane)) g with
        trapReq := some { q with cause := t.cause, more := true, lanes := new, now := n } })
    else s.modGroup n.g (fun g => { replayAt n ((t :: ts).map (·.lane)) g with trapReq := some { q with more := true } })
  | _, ts => asyncTrap s n ts

/-- Lanes consume the poison of a peer's granule (R338 to R340). -/
def peerPoison (s : State) (n : Now) (ts : List LaneTrap) : State :=
  match s.team? n.g.team, ts with
  | some t, y :: _ =>
    let soft := match s.launch? t.launch with
      | some l => l.kernel.replayable && !t.pinned && t.relaunches < 2
      | none => false
    if soft then endTeam s t.id ⟨.poison, true, n.g, y.lane, y.faultva.toNat, n.pc, y.ttag, 0, 0⟩ else peerTrap s n ts
  | _, _ => s

/-- Every lane of X of a word, for one cause. -/
def laneTraps (_n : Now) (lanes : List Nat) (cause : Cause) (ttag : Tag) (va : Nat) : List LaneTrap :=
  lanes.map (fun i => ⟨i, cause, ttag, BitVec.ofNat 64 va⟩)

/-- The record of a team that has left (R342, R343). -/
def goneRecord (l : Launch) (x : Gone) (g : GRef) (cause : Cause) (lane va : Nat) : ErrRec :=
  { ErrRec.zero with
    kind := 1, cause := cause.code, unit := x.core, ctx := l.ctx, slot := x.slot, relaunch := x.relaunches
    va := va, team := x.idx, grp := g.grp, lane := lane }

/-- A failed peer store is delivered to its group later; one whose group has ended counts its team as faulted with that
cause, and where the team has left already its record is posted now (R334, R424). -/
def failStore (s : State) (g : GRef) (cause : Cause) (window lane va : Nat) : State :=
  match s.team? g.team, s.group? g with
  | some _, some x =>
    if x.ended then endTeam s g.team ⟨cause, false, g, lane, va, 0, 0, 0, 0⟩
    else s.modGroup g (fun x => { x with peerFail := x.peerFail ++ [(cause, window, va, lane)] })
  | _, _ => match s.launches.find? (fun l => l.left g.team) with
    | some l => match l.gone.find? (fun x => x.id == g.team && !x.failed) with
      | some x => (postEnd s l.id (goneRecord l x g cause lane va)).modLaunch l.id (fun l => Launch.fail l g.team)
      | none => s
    | none => s

/-- An engine's, an MMA's or a launch's access has failed. -/
def failOwner (s : State) (n code : Nat) : State :=
  let s := s.modCmd n (fun c => { c with stop := if c.stop.isSome then c.stop else some code, ack := none })
  let s := s.modRun n (fun r => { r with stop := if r.stop.isSome then r.stop else some code, ack := none })
  s.modLaunch n (fun l => { l with bad := true })

/-- A request of no group fails with a code of R298 and a cause; the address is the failed access's. -/
def failPeer (s : State) (p : PeerOut) (cause : Cause) (code : Nat) : State :=
  match p.dst with
  | .loadV n _ lane _ _ _ va itag | .casT n _ lane _ _ _ va itag .. =>
    peerTrap (feedPend s p.dst []) n (laneTraps n [lane] cause itag va)
  | .loadS n _ _ _ va => peerTrap (feedPend s p.dst []) n (laneTraps n (lanesOf n.x) cause 0 va)
  | .name n _ _ _ cas va =>
    let s := match cas with
      | some (_, new, true) => holdName s new false
      | _ => s
    peerTrap (feedPend s p.dst []) n (laneTraps n (lanesOf n.x) cause 0 va)
  | .store g lane va => failStore s g cause p.window lane va
  | .word n va => peerTrap (dropFetched s (wordKey n.g)) n (laneTraps n (lanesOf n.x) cause 0 va)
  | .cmd n _ => failOwner s n code
  | .mma n va => { s with mmas := s.mmas.map (fun m => if m.id == n && m.fail.isNone then { m with fail := some (cause, va) } else m) }
  | .run n => endCpStep s n code 0

/-- A poison-marked answer; an engine's bytes have no stated value and mark what they are written to. -/
def poisonPeer (s : State) (p : PeerOut) : State :=
  let lanes := fun (n : Now) (ls : List Nat) (va : Nat) => laneTraps n ls .poison 0x7FFF (va / 16 * 16)
  let n := PeerOp.size p.op
  let free := (List.range n).map (fun i => Config.freeByte (s.freeN + i))
  let keep := fun (owner va : Nat) => { s with fetched := s.fetched ++ [(poisonKey owner, va, free)], freeN := s.freeN + n }
  match p.dst with
  | .loadV n _ lane _ _ _ va _ | .casT n _ lane _ _ _ va .. => peerPoison (feedPend s p.dst []) n (lanes n [lane] va)
  | .loadS n _ _ _ va => peerPoison (feedPend s p.dst []) n (lanes n (lanesOf n.x) va)
  | .name n _ _ _ cas va =>
    let s := match cas with
      | some (_, new, true) => holdName s new false
      | _ => s
    peerPoison (feedPend s p.dst []) n (lanes n (lanesOf n.x) va)
  | .word n va => peerPoison (dropFetched s (wordKey n.g)) n (lanes n (lanesOf n.x) va)
  | .cmd n va => if (s.launch? n).isSome then failOwner s n 0x44 else keep n va
  | .mma n va => keep n va
  | .store .. | .run _ => failPeer s p .badAddress 0x44

/-- A write of an engine or a step that peers have all answered. -/
def ackOwner (s : State) (n : Nat) : State :=
  if askedPeer s n then s
  else
    let s := s.modCmd n (fun c => match c.ack with
      | some m => if m == c.offset then c else { c.advance m with ack := none }
      | none => c)
    s.modRun n (fun r => match r.ack with
      | some m => { r with offset := m, ack := none }
      | none => r)

/-- What a peer's word gives to a lane's register. -/
def peerLane (s : State) (n : Now) (lane d : Nat) (z : MSize) (rule : TagRule) (b : List Byte) : List RegW :=
  let old := match s.group? n.g with
    | some g => oldTag g z.wide d lane
    | none => 0
  putV z.wide d lane (MSize.extend z (leNat (b.take (MSize.bytes z)))) (loadTag rule 0 old)

/-- The data of an answer reaches its destination. An ACAS that asked for its word alone traps TAG_STORE where the
compare holds, and writes nothing; else it has its old word (R223, R365). -/
def fillPeer (s : State) (p : PeerOut) (b : List Byte) : State :=
  match p.dst with
  | .loadV n _ lane d z rule _ _ => feedPend s p.dst (peerLane s n lane d z rule b)
  | .casT n _ lane d z rule va _ cmp tag =>
    if leNat (b.take (MSize.bytes z)) == cmp.toNat % 2 ^ (8 * MSize.bytes z) then
      peerTrap (feedPend s p.dst []) n (laneTraps n [lane] .tagStore tag va)
    else feedPend s p.dst (peerLane s n lane d z rule b)
  | .loadS _ _ d z _ => feedPend s p.dst [.s d (BitVec.ofNat 64 (MSize.extend z (leNat (b.take (MSize.bytes z)))))]
  | .name n _ q k cas _ =>
    let x : Name := BitVec.ofNat 128 (leNat (b.take 16))
    match cas with
    | none =>
      let ctx := match s.team? n.g.team with
        | some t => t.ctx
        | none => 0
      feedPend s p.dst (reasonWs q (resolveCode s ctx x) ++ [.k k x])
    | some (exp, new, live) =>
      let s := if live then holdName s new false else s
      feedPend s p.dst (reasonWs q (if x == exp then 0 else 0x0A) ++ [.k k x])
  | .word n va => { s with fetched := s.fetched ++ [(wordKey n.g, va, b)] }
  | .cmd n va | .mma n va => { s with fetched := s.fetched ++ [(n, va, b)] }
  | .store .. => s
  | .run n => match s.run? n with
    | some r => endCpStep s n (leNat b) (r.step + 1)
    | none => s

/-- A write or a message is acknowledged. -/
def donePeer (s : State) (p : PeerOut) : State :=
  match p.dst with
  | .cmd n _ => ackOwner s n
  | .run n => match s.run? n with
    | some r => endCpStep s n 0 (r.step + 1)
    | none => s
  | _ => feedPend s p.dst []

def dropReq (s : State) (n : Nat) : State := { s with peerOut := s.peerOut.filter (fun p => p.id != n) }

/-- A response (R424): one that comes after its timeout is discarded, a busy mark waits for the retry. -/
def execPeerResponse (req : Nat) (a : PeerAns) (s : State) : Host.Outcome State Fault Refusal :=
  .next (match s.peerOut.find? (fun p => p.id == req) with
    | none => s
    | some p => match a with
      | .error _ true => { s with peerOut := s.peerOut.map (fun x => if x.id == req then { x with busy := some s.time } else x) }
      | .error true false => wakePeers (poisonPeer (dropReq s req) p)
      | .error false false => wakePeers (failPeer (dropReq s req) p .badAddress 0x44)
      | .data b => wakePeers (fillPeer (dropReq s req) p b)
      | .done => wakePeers (donePeer (dropReq s req) p))

/-- A request unanswered within its timeout. -/
def execPeerTimeout (req : Nat) (s : State) : Host.Outcome State Fault Refusal :=
  .next (match s.peerOut.find? (fun p => p.id == req) with
    | some p =>
      if (s.time - p.sent).toNat ≥ p.timeout then wakePeers (failPeer (dropReq s req) p .peerTimeout 0x42) else s
    | none => s)

/-- A request refused with the busy mark is sent again 1 µs after the refusal, until its timeout (R425). -/
def execPeerBusyRetry (req : Nat) (s : State) : Host.Outcome State Fault Refusal :=
  .next (match s.peerOut.find? (fun p => p.id == req) with
    | some p =>
      if p.busy.any (fun t => 1000 ≤ (s.time - t).toNat) && (s.time - p.sent).toNat < p.timeout then
        { s with peerOut := s.peerOut.map (fun x => if x.id == req then { x with busy := none } else x) }
      else s
    | none => s)

/-! ### Links (R439, R440) -/

/-- A port trains up, once the device has come up (R429); a UALink port learns whether its peer is of another make. -/
def execLinkBringup (port vendor accel : Nat) (s : State) : Host.Outcome State Fault Refusal :=
  .next (if port ≥ 20 || !readyDev s then s
    else
      let s := if s.portsUp.contains port then s else { s with portsUp := s.portsUp ++ [port] }
      if port < 16 then { s with peerMake := mput 0 s.peerMake accel (if vendor == Config.vendorId then 0 else 1) } else s)

/-- A port goes down: what it has outstanding ends by timeout, and new requests take another port. -/
def execPortDown (port : Nat) (s : State) : Host.Outcome State Fault Refusal :=
  .next { s with portsUp := s.portsUp.filter (fun p => p != port) }

/-- A lost datagram is sent again until its timeout; it is under way once more. -/
def execDatagramResend (req : Nat) (s : State) : Host.Outcome State Fault Refusal :=
  .next { s with peerOut := s.peerOut.map (fun p =>
    if p.id == req && p.ether && (s.time - p.sent).toNat < p.timeout then { p with busy := none } else p) }

/-- TIME follows the grandmaster, with a new skew bound. -/
def execTimeSync (time skew : Word) (s : State) : Host.Outcome State Fault Refusal :=
  .next { s with time := time, skew := skew }

/-! ### The completion of NKILL (R277, R278) -/

/-- A request received before the kill of an export window still waits at it (R278). -/
def windowBusy (s : State) (e : Entry) : Bool := s.peerIn.any (fun q => isExport e (reqIndex q))

/-- Work that resolved a name before its shoot-down point has not finished. -/
def nameBusy (s : State) (e : Entry) : Bool :=
  e.hold != 0 || s.cmds.any (fun c => c.dname == e.name || c.sname == e.name) ||
  s.mmas.any (fun m => m.aName == e.name || m.bName == e.name) || windowBusy s e ||
  (s.roster.map Prod.snd).any (fun y => y.dying && windowBusy s y && y.record.extractLsb' 96 128 == e.name)

/-- A space's slot is scrubbed (R283). -/
def scrubSlot (s : State) (slot : Nat) : State :=
  let s := (s.redQ.filter (fun q => q.slot == slot)).foldl applyRed s
  let s := invalidateSlot s slot
  { s with
    ev := s.ev.filter (fun e => e.w.slot != slot)
    redQ := s.redQ.filter (fun q => q.slot != slot)
    cdir := s.cdir.filter (fun l => l.slot != slot)
    hdir := s.hdir.filter (fun l => l.slot != slot)
    stale := s.stale.filter (fun l => l.slot != slot)
    cells := s.cells.filter (fun u => u.slot != slot)
    faults := s.faults.filter (fun f => f.slot != slot)
    aliases := s.aliases.filter (fun a => a.2.1 != slot)
    dirty := s.dirty.filter (fun d => d.2 != slot) }

/-- The runs that a dying name stops. -/
def runsOf (s : State) (e : Entry) : List Run :=
  match e.obj with
  | .context i => s.runs.filter (fun r => r.ctx == i)
  | .prog _ => s.runs.filter (fun r => r.prog == e.name)
  | _ => []

/-- The per-class retirement, once its runs have halted. -/
def retire (s : State) (e : Entry) : State :=
  match e.obj with
  | .meeting _ => closeSlot s e.name true
  | .space n => scrubSlot s n
  | _ => s

/-- The mailbox answers (R436). -/
def mbDone (s : State) (status : Nat) (ws : List Word) : State :=
  { s with ctrl := { s.ctrl with
      mbresp := (BitVec.ofNat 64 status :: ws ++ List.replicate 8 0).take 8, mbbusy := false } }

/-- The entry is free, and the NKILL, or the mailbox command (team 0), that waits for it returns its result. -/
def freeEntry (s : State) (e : Entry) : State :=
  let s := { s with roster := merase e.name.toNat s.roster }
  match e.killer with
  | some (⟨0, _⟩, _) => mbDone s 0 []
  | some (r, id) => returnLate s r id
  | none => s

/-- A dying name is retired once nothing uses it. -/
def execNkillComplete (name : Name) (s : State) : Host.Outcome State Fault Refusal :=
  .next (match entryOf s name with
    | some e =>
      if e.dying && !nameBusy s e then
        let s := (runsOf s e).foldl stopRun s
        if (runsOf s e).isEmpty then freeEntry (retire s e) e else s
      else s
    | none => s)

end Sys2Proof.Machine
end

