-- ==== Sys2Proof/Machine/Device.lean ====
section
/-! DEFINITION. The device: reset (R429 to R431), the fatal-error dump (R449), islands (R444, R445), resolve messages
(R434), the control space (R432, R433) and the mailbox (R436 to R438, R443, R446, R448). -/

namespace Sys2Proof.Machine

open Sys2Proof

/-! ### Reset -/

def dumpBase : Nat := rsvBase + 0x50000000
def dumpSize : Nat := 0x10000000

/-- A place whose contents a reset keeps: host memory, and the dump region unless the reset is cold. -/
def keptPlace (cold : Bool) (loc : Nat) : Bool :=
  (2 ^ 56 ≤ loc && loc < 2 ^ 57) || (!cold && dumpBase ≤ loc && loc < dumpBase + dumpSize)

/-- What step 2 of bring-up has come to: a recovery code, the anti-rollback counters and the measurement registers. -/
structure BootAcc where
  code     : Nat
  rollback : List Nat
  measure  : List (BitVec 256)
deriving DecidableEq, Repr

/-- An image meets its checks (R441), its two codes being those of R431; an accepted one raises its counter and extends
its register (R442). -/
def bootImage (sig old : Nat) (a : BootAcc) (x : BootImage) : BootAcc :=
  if a.code != 0 then a
  else if !x.signed then { a with code := sig }
  else if x.version < a.rollback.getD x.counter 0 then { a with code := old }
  else { a with
    rollback := a.rollback.modify x.counter (fun v => max v x.version)
    measure := a.measure.modify x.register (fun m => extendMeasure m x.digest) }

/-- Steps 1 and 2: the flash, then the firmware's images in turn and the configuration record. -/
def bootFlash (s : State) (b : BootInfo) : BootAcc :=
  let start : BootAcc := ⟨if b.flashOk then 0 else 1, s.rollback, List.replicate 16 0⟩
  bootImage 4 5 (b.firmware.foldl (bootImage 2 3) start) b.config

/-- The recovery code of a reset, 0 when bring-up succeeds: the first step that fails gives it (R429, R431). -/
def recoveryCode (s : State) (b : BootInfo) : Nat :=
  let code := (bootFlash s b).code
  if code != 0 then code
  else if !b.hbmOk then 6
  else if !b.d2dOk then 7
  else if b.devno == 0xFFFF then 8
  else if b.accel.toNat > 1023 then 9
  else 0

/-- The package after bring-up, or in recovery. -/
def resetState (cold : Bool) (b : BootInfo) (s : State) : State :=
  let code := recoveryCode s b
  let flash := bootFlash s b
  { State.reset with
    freeN := s.freeN
    seqN := s.seqN
    time := s.time
    mem := s.mem.filter (fun p => keptPlace cold p.1)
    tags := s.tags.filter (fun p => keptPlace cold (16 * p.1))
    poison := s.poison.filter (fun p => keptPlace cold (16 * p.1))
    serial := if code == 1 then s.serial else s.serial + 1
    devno := if code == 0 then b.devno else 0
    accel := if code == 0 then b.accel.setWidth 10 else 0
    ctrl := { Ctrl.reset with status := if code == 0 then 2 else 1, recovery := code }
    dumped := !cold && s.dumped
    rollback := flash.rollback
    measure := flash.measure
    hostOut := s.hostOut }

/-- A cold or warm reset. -/
def execReset (cold : Bool) (b : BootInfo) (s : State) : Host.Outcome State Fault Refusal := .next (resetState cold b s)

/-! ### The fatal-error dump -/

/-- The dump's bytes: a header whose dword 0 is stated, the buffered records, and bytes of the schedulers' state that
nothing states, up to a multiple of 4 KiB. -/
def dumpBytes (s : State) : List Byte :=
  let head := natBytes 8 (1 + s.serial.toNat * 2 ^ 8)
  let recs := s.errBuf.flatMap (fun r => natBytes 64 r.toNat)
  let n := 4096 - (64 + recs.length) % 4096
  head ++ freeBytes s.freeN 56 ++ recs ++ freeBytes (s.freeN + 56) n

/-- A fatal error: the control cores write the dump and the package stops. -/
def execFatalError (s : State) : Host.Outcome State Fault Refusal :=
  .next { s.putMem dumpBase (dumpBytes s) with freeN := s.freeN + 4152, dumped := true, stopped := true }

/-! ### Islands and firmware -/

/-- Every core of an island stands between clauses (R26). -/
def betweenClauses (s : State) (i : Nat) : Bool :=
  !s.teams.any (fun t => !t.saved && islandCore i t.core && t.groups.any (fun g => g.clause.isSome))

/-- What firmware has set for an island takes effect between clauses, clamped to the island's ceilings; a busy island is
not gated. -/
def settleIsland (s : State) (i : Nat) : State :=
  let put := fun (x : Island) => match x.want with
    | some (f, v, g) =>
      if betweenClauses s i then ⟨min f (Config.ceilMhz i), min v (Config.ceilMv i), g && !islandBusy s i, none⟩ else x
    | none => x
  { s with islands := s.islands.modify i put }

/-- Firmware's request (R444, R445); while a core of the island is inside a clause it waits. -/
def execFrequencyChange (island mhz mv : Nat) (gate : Bool) (s : State) : Host.Outcome State Fault Refusal :=
  .next (settleIsland { s with islands := s.islands.modify island (fun x => { x with want := some (mhz, mv, gate) }) } island)

/-- An address of device memory that a die's control core may reach: a region reserved at step 5, or its firmware window
(R429, R444). -/
def firmwareMay (die addr : Nat) : Bool :=
  addr < dumpBase + dumpSize &&
  (rsvBase ≤ addr || (Config.firmwareBase die ≤ addr && addr < Config.firmwareBase die + Config.firmwareSize die))

/-- A control core's access outside its window is refused and recorded (R343, R444). -/
def execFirmwareRefused (die : Nat) (addr : Word) (s : State) : Host.Outcome State Fault Refusal :=
  .next (if die ≥ 4 || firmwareMay die addr.toNat then s
    else postRecord s { ErrRec.zero with
      kind := 8, cause := Cause.priv.code, unitKind := 5, unit := die, va := addr.toNat % 2 ^ 56 })

/-! ### Resolve messages (R217, R434) -/

/-- The held request of a record. -/
def heldFault (s : State) (die : Nat) (seq : Word) : Option FaultReq :=
  s.faults.find? (fun f => f.die == die && f.seq == some seq.toNat)

/-- RETRY: every merged waiter replays. -/
def execResolveRetry (die : Nat) (seq : Word) (s : State) : Host.Outcome State Fault Refusal :=
  .next (match heldFault s die seq with
    | some f => retryFault s f
    | none => s)

/-- A team ends with FAULT_UNMAPPED for a page. -/
def unmapTeam (s : State) (team page : Nat) : State :=
  endTeam s team ⟨.faultUnmapped, false, ⟨team, 0⟩, 0, page * 4096, 0, 0, 0, 0⟩

/-- Parked lanes of a group: the word they stand on is known. -/
def unmapLanes (s : State) (r : GRef) (m : Mask) (page : Nat) : State :=
  let i := (lanesOf m).headD 0
  let pc := match (s.group? r).bind (fun g => g.lane i) with
    | some l => l.pc
    | none => 0
  endTeam s r.team ⟨.faultUnmapped, false, r, i, page * 4096, pc, 0, 0, 0⟩

/-- The writes of a die's cores that wait on a page. -/
def onPage (die slot page : Nat) (core : Nat) (wslot va : Nat) : Bool := dieOf core == die && wslot == slot && va / 4096 == page

/-- Every store and RED that waits on a refused page is gone, and its team ends. -/
def dropStores (s : State) (f : FaultReq) : State :=
  let bad := fun (core : Nat) (w : GWrite) => onPage f.die f.slot f.page core w.slot w.va
  let q := s.teams.filter (fun t => t.groups.any (fun g => g.storeQ.any (bad t.core)))
  let teams := q.map (·.id) ++ (s.ev.filter (fun e => bad e.core e.w)).map (fun e => e.w.g.team) ++
    (s.redQ.filter (fun r => onPage f.die f.slot f.page r.core r.slot r.va)).map (fun r => r.g.team)
  let s := teams.eraseDups.foldl (fun s t => unmapTeam s t f.page) s
  { s with
    ev := s.ev.filter (fun e => !bad e.core e.w)
    redQ := s.redQ.filter (fun r => !onPage f.die f.slot f.page r.core r.slot r.va)
    teams := s.teams.map (fun t => { t with groups := t.groups.map (fun g => { g with storeQ := g.storeQ.filter (fun w => !bad t.core w) }) }) }

/-- A command whose page is refused stops (R298, R305): its spilled writes of the page are dropped, and the box counts
as done below the first of them, or below what it has not written. A refused cell is left. -/
def refuseCmd (s : State) (f : FaultReq) (n : Nat) : State :=
  let lost := s.spills.filter (fun x => x.cmd == n && x.va / 4096 == f.page)
  let s := { s with spills := s.spills.filter (fun x => !(x.cmd == n && x.va / 4096 == f.page)) }
  s.modCmd n (fun c =>
    let at_ := lost.foldl (fun m x => min m x.first) c.offset
    if c.ack == some c.offset && lost.isEmpty then { c with cell := 0 }
    else { c with stop := if c.stop.isSome then c.stop else some 0x43, offset := at_, ack := some at_ })

/-- What REFUSE does to a merged waiter. -/
def refuseWaiter (s : State) (f : FaultReq) (w : Waiter) : State :=
  match w with
  | .lanes r m => unmapLanes s r m f.page
  | .room r m => regroup s r (readyParked m)
  | .store t => unmapTeam s t f.page
  | .cmd n => refuseCmd s f n
  | .mma n => match s.mmas.find? (fun m => m.id == n) with
    | some m => unmapTeam s m.g.team f.page
    | none => s
  | .launch n =>
    let s := (s.cells.filter (fun u => u.src == .launch n && u.va / 4096 == f.page)).foldl loseCell s
    match s.launches.find? (fun l => l.id == n && (l.stage == .queued || l.stage == .waiting)) with
    | some l => refuseLaunch s l 0x07
    | none => s
  | .run n =>
    let s := (s.cells.filter (fun u => u.src == .run n && u.va / 4096 == f.page)).foldl loseCell s
    s.modRun n (fun r => { r with stop := if r.stop.isSome then r.stop else some 0x43 })
  | .roll n =>
    let s := s.modEntry n (fun e => match e.obj with
      | .roll r => { e with obj := .roll { r with broken := true } }
      | _ => e)
    (rollWaits s).foldl wake s
  | .meeting n => (s.cells.filter (fun u => u.src == .meeting n && u.va / 4096 == f.page)).foldl loseCell s
  | .peer a p q => match s.peerIn.find? (fun x => x.requester == a && x.port == p && x.seq == q) with
    | some x => answerPeer s x [] true false false
    | none => s
  | .mailbox => mbDone s 0x700 []

/-- REFUSE. -/
def execResolveRefuse (die : Nat) (seq : Word) (s : State) : Host.Outcome State Fault Refusal :=
  .next (match heldFault s die seq with
    | some f =>
      let s := { s with faults := s.faults.filter (fun x => x.id != f.id) }
      wakeLines (dropStores (f.who.foldl (fun s w => refuseWaiter s f w) s) f)
    | none => s)

/-! ### The control space (R432, R433) -/

/-- FRCONS. -/
def execFaultRingConsume (x : Word) (s : State) : Host.Outcome State Fault Refusal :=
  .next (if readyDev s then { s with ctrl := { s.ctrl with frcons := x } } else s)

/-- ERCONS. -/
def execErrorRingConsume (x : Word) (s : State) : Host.Outcome State Fault Refusal :=
  .next (if readyDev s then { s with ctrl := { s.ctrl with ercons := x } } else s)

/-- The oldest buffered error record is written to the error ring. -/
def execErrorRecordForward (s : State) : Host.Outcome State Fault Refusal :=
  .next (match s.errBuf with
    | r :: rest =>
      let c := s.ctrl
      if ringRoom c.ersize c.erprod c.ercons then
        { putHost s (c.erbase.toNat + 64 * (c.erprod.toNat % c.ersize.toNat)) (natBytes 64 r.toNat) with
          errBuf := rest, ctrl := { c with erprod := c.erprod + 1 } }
      else s
    | [] => s)

/-- A ring's size: a power of two from 64 to 65,536. -/
def ringSizeOk (x : Word) : Bool := (List.range 11).any (fun i => x.toNat == 64 * 2 ^ i)
def ringBaseOk (x : Word) : Bool := x.toNat % 4096 == 0

/-- A resolve message (R434): one with a nonzero reserved bit changes nothing. -/
def resolveMsg (s : State) (x : BitVec 128) : Host.Outcome State Fault Refusal :=
  let die := (x.extractLsb' 64 2).toNat
  let seq := x.extractLsb' 0 64
  if x.extractLsb' 67 61 != 0 then .next s
  else if x.getLsbD 66 then execResolveRefuse die seq s else execResolveRetry die seq s

/-- The code of the command in MBCMD. -/
def mbCode (s : State) : Nat := ((s.ctrl.mbcmd.getD 0 0).extractLsb' 0 8).toNat
def mbArg (s : State) (i : Nat) : Word := s.ctrl.mbcmd.getD i 0

/-- A doorbell (R436): dropped while a command runs, else the command starts or is answered at once. -/
def ringDoor (s : State) : State :=
  if s.ctrl.mbbusy then s
  else if !readyDev s && mbCode s != 8 then mbDone s 3 []
  else if mbCode s < 1 || mbCode s > 10 then mbDone s 1 []
  else { s with ctrl := { s.ctrl with mbbusy := true } }

/-- A host write to a register of the control space. -/
def execControlRegisterWrite (off size : Nat) (data : List Byte) (s : State) : Host.Outcome State Fault Refusal :=
  let c := s.ctrl
  let x : Word := BitVec.ofNat 64 (leNat data)
  let set := fun (c : Ctrl) => Host.Outcome.next { s with ctrl := c }
  let fr := c.frprod == c.frcons
  let er := c.erprod == c.ercons
  if data.length != size then .next s
  else match off, size, readyDev s with
    | 0x40100, 8, true => if fr && ringBaseOk x then set { c with frbase := x } else .next s
    | 0x40108, 8, true => if fr && ringSizeOk x then set { c with frsize := x } else .next s
    | 0x40118, 8, true => execFaultRingConsume x s
    | 0x40120, 16, true => resolveMsg s (BitVec.ofNat 128 (leNat data))
    | 0x40200, 8, true => if er && ringBaseOk x then set { c with erbase := x } else .next s
    | 0x40208, 8, true => if er && ringSizeOk x then set { c with ersize := x } else .next s
    | 0x40218, 8, true => execErrorRingConsume x s
    | 0x41000, 64, _ => if c.mbbusy then .next s else set { c with mbcmd := words8 data }
    | 0x41040, 8, _ => .next (ringDoor s)
    | _, _, _ => .next s

/-! ### The mailbox (R436) -/

/-- The running command has this code. -/
def onMailbox (s : State) (code : Nat) (k : State → State) : Host.Outcome State Fault Refusal :=
  .next (if s.ctrl.mbbusy && mbCode s == code then k s else s)

def wordBytes (l : List Word) : List Byte := l.flatMap (fun w => natBytes 8 w.toNat)

/-- Registers that the host may read: offset, size and value (R432). -/
def ctrlRegs (s : State) : List (Nat × Nat × Nat) :=
  let c := s.ctrl
  [ (0x40000, 8, c.status + c.recovery * 2 ^ 8), (0x40008, 8, rsvBase), (0x40100, 8, c.frbase.toNat),
    (0x40108, 8, c.frsize.toNat), (0x40110, 8, c.frprod.toNat), (0x40118, 8, c.frcons.toNat), (0x40200, 8, c.erbase.toNat),
    (0x40208, 8, c.ersize.toNat), (0x40210, 8, c.erprod.toNat), (0x40218, 8, c.ercons.toNat), (0x40220, 8, c.erlost.toNat),
    (0x41080, 64, leNat (wordBytes c.mbresp)), (0x410C0, 8, if c.mbbusy then 1 else 0) ]

/-- What a read of the control space returns: a register's value, a launch window's free entries, else zero. -/
def controlRead (s : State) (off size : Nat) : Nat :=
  if off < 0x40000 then (if size == 8 then (launchWindowRead s (off / 0x1000) (off % 0x1000)).toNat else 0)
  else match (ctrlRegs s).find? (fun r => r.1 == off && r.2.1 == size) with
    | some r => r.2.2
    | none => 0

/-- In recovery only STATUS and the mailbox answer (R429). -/
def controlAnswers (s : State) (off : Nat) : Bool := readyDev s || off == 0x40000 || 0x41000 ≤ off

/-- A load of the host, from memory or from the control space. -/
def execHostRead (p : HostPlace) (size : Nat) (s : State) : Host.Outcome State Fault Refusal :=
  .next (match p with
    | .memory pa => hostLoad s pa size
    | .control off =>
      if controlAnswers s off then { s with hostOut := s.hostOut ++ [.control off (natBytes size (controlRead s off size))] }
      else s)

/-- The live context a command names. -/
def mbContext (s : State) : Option Nat :=
  let i := (mbArg s 1).toNat
  if i < 64 && ctxLive s i then some i else none

/-- PREEMPT: every resident team of the context is asked to leave. -/
def execPreempt (s : State) : Host.Outcome State Fault Refusal :=
  onMailbox s 1 fun s => match mbContext s with
    | none => mbDone s 2 []
    | some i => mbDone ((s.teams.filter (fun t => t.ctx == i && !t.saved && t.ending.isNone)).foldl (fun s t => askPreempt s t.id) s) 0 []

/-- A launch of a killed context: one with no team placed is discarded, its cell told, once its parameter block has been
read; of another, the teams not yet placed count as ended by KILLED. -/
def killLaunch (s : State) (l : Launch) : State :=
  if l.stage == .queued && l.params.isEmpty then
    if packetOk l.packet then s.modLaunch l.id (fun l => { l with killed := true }) else dropLaunch s l
  else if l.stage == .queued || l.stage == .waiting || l.placed == 0 then discardLaunch s l
  else
    let n := l.total - l.placed + l.again.length
    s.modLaunch l.id (fun l => { l with placed := l.total, again := [], ended := l.ended + n, faulted := l.faulted + n })

/-- KILL. -/
def execKill (s : State) : Host.Outcome State Fault Refusal :=
  onMailbox s 2 fun s => match mbContext s with
    | none => mbDone s 2 []
    | some i =>
      let s := (s.launches.filter (fun l => l.ctx == i)).foldl killLaunch s
      mbDone ((s.teams.filter (fun t => t.ctx == i)).foldl (fun s t => plainFault s t.id .killed) s) 0 []

/-- PEERTIME: requests already sent keep their timeout. -/
def execPeertime (s : State) : Host.Outcome State Fault Refusal :=
  onMailbox s 3 fun s =>
    let a := (mbArg s 1).toNat
    let t := (mbArg s 2).toNat
    if a > 1023 || t < 1000 || t > 100000000 then mbDone s 2 []
    else mbDone { s with peerTimeouts := mput 100000 s.peerTimeouts a t } 0 []

/-- ENDPOINT. -/
def execEndpoint (s : State) : Host.Outcome State Fault Refusal :=
  onMailbox s 4 fun s =>
    let i := (mbArg s 1).toNat
    let p := (mbArg s 3).toNat
    if i > 4095 || p > 3 || (mbArg s 2).toNat ≥ 2 ^ 48 then mbDone s 2 []
    else mbDone { s with endpoints := s.endpoints.filter (fun e => e.index != i) ++ [⟨i, (mbArg s 2).setWidth 48, p⟩] } 0 []

/-- A dword of a die's counter block (R438). -/
def counterWord (s : State) (die n : Nat) : Word :=
  match n with
  | 9 => s.skew
  | 10 => BitVec.ofNat 64 (mget 0 s.faultSeq die)
  | n => if n ≤ 8 then BitVec.ofNat 64 (mget 0 s.counters (die * 64 + n)) else 0

/-- The blocks that the controllers of a die have written and the sectors they have moved since the last look: when a
controller reads or writes a block is nowhere stated, so each count of dwords 1 to 6 rises by a free amount. -/
def tallyBlocks (s : State) (die : Nat) : State :=
  { (List.range 6).foldl (fun t i => addCounter t die (1 + i) ((Config.freeWord (s.freeN + i)).toNat % 2 ^ 32)) s with
    freeN := s.freeN + 6 }

/-- A host buffer of `n` bytes lies below 2^56, the end of physical addresses. -/
def bufferOk (pa n : Nat) : Bool := pa + n ≤ 2 ^ 56

/-- COUNTERS. -/
def execCounters (s : State) : Host.Outcome State Fault Refusal :=
  onMailbox s 5 fun s =>
    let d := (mbArg s 1).toNat
    if d > 3 || !bufferOk (mbArg s 2).toNat 512 then mbDone s 2 []
    else
      let s := tallyBlocks s d
      mbDone (putHost s (mbArg s 2).toNat (wordBytes ((List.range 64).map (counterWord s d)))) 0 []

/-- AGEING: predictions that the device alone knows. -/
def execAgeing (s : State) : Host.Outcome State Fault Refusal :=
  onMailbox s 6 fun s =>
    let days := (List.range 128).map (fun i => Config.freeWord (s.freeN + i) &&& 0xFFFF)
    if !bufferOk (mbArg s 1).toNat 1024 then mbDone s 2 []
    else mbDone { putHost s (mbArg s 1).toNat (wordBytes days) with freeN := s.freeN + 128 } 0 []

/-- DUMP: the head of the dump region; before any dump, a header that is not valid. -/
def execDump (s : State) : Host.Outcome State Fault Refusal :=
  onMailbox s 7 fun s =>
    let n := (mbArg s 2).toNat
    if n > dumpSize || !bufferOk (mbArg s 1).toNat n then mbDone s 2 []
    else mbDone (putHost s (mbArg s 1).toNat (if s.dumped then bytesAt s dumpBase n else List.replicate n 0)) 0 []

/-- The public key of the part's identity. -/
def identityKey : List Byte := (List.range 32).map Config.identityKey

/-- The report's first 848 bytes (R443). -/
def attestBody (s : State) : List Byte :=
  wordBytes ((List.range 4).map (fun i => mbArg s (1 + i))) ++
  natBytes 8 (s.devno.toNat + s.accel.toNat * 2 ^ 16) ++ natBytes 8 s.serial.toNat ++
  s.measure.flatMap (fun m => natBytes 32 m.toNat) ++ s.rollback.flatMap (fun v => natBytes 4 v) ++ identityKey

/-- The signature over some bytes by the part's identity; the number stands for the signer's random choice. -/
def signature (n : Nat) (m : List Byte) : List Byte := (List.range 7856).map (Config.slhSign identityKey m n)

/-- ATTEST: the report and its signature. -/
def execAttest (s : State) : Host.Outcome State Fault Refusal :=
  onMailbox s 8 fun s =>
    let m := attestBody s
    if !bufferOk (mbArg s 5).toNat 8704 then mbDone s 2 []
    else mbDone { putHost s (mbArg s 5).toNat (m ++ signature s.freeN m) with freeN := s.freeN + 1 } 0 []

/-! ### Names for the host (R437) -/

/-- The owner operand is one its class accepts (R436). -/
def ownerOk (s : State) (cls owner : Nat) : Bool :=
  (owner < 64 && ctxLive s owner) || (owner == hostOwner && (cls == 1 || cls == 7))

/-- The key under which the mailbox keeps what it has read from peers. -/
def mailKey : Nat := 2 ^ 72

def mailEnd (s : State) (status : Nat) (ws : List Word) : State := mbDone (dropFetched s mailKey) status ws

/-- The mailbox's read of bytes under the owner's space. -/
def mailRead (w : Who) (s : State) (va : Word) (n : Nat) (f : State → List Byte → State) : State :=
  match devGet s mailKey w va.toNat n with
  | .bad s => mailEnd s 0x700 []
  | .wait s v => raiseFault s 0 none w v .read .mailbox
  | .asked s => s
  | .busy _ => s
  | .bytes s b => f s b

/-- NAMEOBJ: NNEW of an image in host memory; a page on the fault path keeps the mailbox busy. -/
def execNameobj (s : State) : Host.Outcome State Fault Refusal :=
  onMailbox s 9 fun s =>
    let cls := ((mbArg s 1).extractLsb' 0 8).toNat
    let owner := ((mbArg s 1).extractLsb' 8 8).toNat
    let pa := (mbArg s 2).toNat
    if waitsOn s .mailbox then s
    else if pa % 16 != 0 || !bufferOk pa 48 || !ownerOk s cls owner then mbDone s 2 []
    else if cls < 1 || cls > 9 then mbDone s 0x600 []
    else
      let w : Who := ⟨0, owner, if owner == hostOwner then 0 else ctxSlot s owner⟩
      let m : Maker := ⟨owner, [hostOwner, owner], 0, w⟩
      let img := BitVec.ofNat 384 (leNat (bytesAt s (hostLoc pa) 48))
      makeName m cls img (fun s a _ n f => mailRead w s a n f) (fun s e => mailEnd s (e * 256) [])
        (fun s n => closeIfPast (mailEnd s 0 [n.extractLsb' 0 64, n.extractLsb' 64 64]) n)
        (fun s va => raiseFault s 0 none w va .write .mailbox) (fun s _ => mailEnd s 0x700 []) (fun s _ => s) s

/-- KILLOBJ: NKILL whatever the owner; the mailbox answers when it has completed. -/
def execKillobj (s : State) : Host.Outcome State Fault Refusal :=
  onMailbox s 10 fun s =>
    let n : Name := mbArg s 2 ++ mbArg s 1
    if n == 0 then mbDone s 0x300 []
    else if nameDevice n != s.devno then mbDone s 0x200 []
    else match entryOf s n with
      | none => mbDone s 0x100 []
      | some e =>
        if e.dying then (if e.killer == some (⟨0, 0⟩, 0) then s else mbDone s 0x100 [])
        else if nameInUse s e then mbDone s 0xB00 []
        else shootDown s n (some (⟨0, 0⟩, 0))

end Sys2Proof.Machine
end

