-- ==== Sys2Proof/Machine/Dispatch.lean ====
section
/-! DEFINITION. One arm per instruction: each is one call of its meaning. -/

namespace Sys2Proof.Machine

open Sys2Proof

def exec (i : Instr) (s : State) : Host.Outcome State Fault Refusal :=
  match i with
  | .nop h => Sys2Proof.Machine.execNop h s
  | .smovReg h d a => Sys2Proof.Machine.execSmovReg h d a s
  | .smovImm h d imm => Sys2Proof.Machine.execSmovImm h d imm s
  | .smovHi h d imm => Sys2Proof.Machine.execSmovHi h d imm s
  | .sadd h f d a b => Sys2Proof.Machine.execSadd h f d a b s
  | .ssub h f d a b => Sys2Proof.Machine.execSsub h f d a b s
  | .smul h f d a b => Sys2Proof.Machine.execSmul h f d a b s
  | .sdiv h f d a b => Sys2Proof.Machine.execSdiv h f d a b s
  | .slog h f d a b => Sys2Proof.Machine.execSlog h f d a b s
  | .ssh h f d a b => Sys2Proof.Machine.execSsh h f d a b s
  | .scmp h f q a b => Sys2Proof.Machine.execScmp h f q a b s
  | .ssel h c d a b => Sys2Proof.Machine.execSsel h c d a b s
  | .sbit h f d a w => Sys2Proof.Machine.execSbit h f d a w s
  | .sminmax h f d a b => Sys2Proof.Machine.execSminmax h f d a b s
  | .qlog h f d a b => Sys2Proof.Machine.execQlog h f d a b s
  | .sld h z o d m => Sys2Proof.Machine.execSld h z o d m s
  | .sst h z o d m => Sys2Proof.Machine.execSst h z o d m s
  | .braCond h q n off => Sys2Proof.Machine.execBraCond h q n off s
  | .braAlways h off => Sys2Proof.Machine.execBraAlways h off s
  | .brv h p n off => Sys2Proof.Machine.execBrv h p n off s
  | .jmpv h v => Sys2Proof.Machine.execJmpv h v s
  | .call h off => Sys2Proof.Machine.execCall h off s
  | .callv h v => Sys2Proof.Machine.execCallv h v s
  | .ret h => Sys2Proof.Machine.execRet h s
  | .join h => Sys2Proof.Machine.execJoin h s
  | .defer h => Sys2Proof.Machine.execDefer h s
  | .loopScalar h s1 off => Sys2Proof.Machine.execLoopScalar h s1 off s
  | .loopImm h n off => Sys2Proof.Machine.execLoopImm h n off s
  | .lbrk h n => Sys2Proof.Machine.execLbrk h n s
  | .exit h => Sys2Proof.Machine.execExit h s
  | .yld h spin n => Sys2Proof.Machine.execYld h spin n s
  | .srd h scalar vd reg => Sys2Proof.Machine.execSrd h scalar vd reg s
  | .swr h scalar reg a => Sys2Proof.Machine.execSwr h scalar reg a s
  | .vadd h f t vd a b => Sys2Proof.Machine.execVadd h f t vd a b s
  | .vsub h f t vd a b => Sys2Proof.Machine.execVsub h f t vd a b s
  | .vmul h f t vd a b => Sys2Proof.Machine.execVmul h f t vd a b s
  | .vmad h t vd a b c => Sys2Proof.Machine.execVmad h t vd a b c s
  | .vlog h f t vd a b => Sys2Proof.Machine.execVlog h f t vd a b s
  | .vsh h f t vd a b => Sys2Proof.Machine.execVsh h f t vd a b s
  | .vminmax h f t vd a b => Sys2Proof.Machine.execVminmax h f t vd a b s
  | .vabs h f t vd a => Sys2Proof.Machine.execVabs h f t vd a s
  | .vcmp h f t p a b => Sys2Proof.Machine.execVcmp h f t p a b s
  | .vsel h t vd a b p => Sys2Proof.Machine.execVsel h t vd a b p s
  | .vbit h f t vd a => Sys2Proof.Machine.execVbit h f t vd a s
  | .vbfe h t vd a b c => Sys2Proof.Machine.execVbfe h t vd a b c s
  | .vbfi h t vd a b c => Sys2Proof.Machine.execVbfi h t vd a b c s
  | .vmov h t vd f => Sys2Proof.Machine.execVmov h t vd f s
  | .vdiv h f vd a b => Sys2Proof.Machine.execVdiv h f vd a b s
  | .fadd h t vd a b m => Sys2Proof.Machine.execFadd h t vd a b m s
  | .fsub h t vd a b m => Sys2Proof.Machine.execFsub h t vd a b m s
  | .fmul h t vd a b m => Sys2Proof.Machine.execFmul h t vd a b m s
  | .ffma h f t vd a b c m => Sys2Proof.Machine.execFfma h f t vd a b c m s
  | .fminmax h f t vd a b => Sys2Proof.Machine.execFminmax h f t vd a b s
  | .fcmp h f t p a b => Sys2Proof.Machine.execFcmp h f t p a b s
  | .fcls h t p a mask => Sys2Proof.Machine.execFcls h t p a mask s
  | .fdot h f vd a b c m => Sys2Proof.Machine.execFdot h f vd a b c m s
  | .sfu h f vd a b ftz => Sys2Proof.Machine.execSfu h f vd a b ftz s
  | .rng h f vd => Sys2Proof.Machine.execRng h f vd s
  | .cvt h dst vd a src m => Sys2Proof.Machine.execCvt h dst vd a src m s
  | .cvtp h dst vd a b src rnd hi sat => Sys2Proof.Machine.execCvtp h dst vd a b src rnd hi sat s
  | .cvtx h dst vd a b src m => Sys2Proof.Machine.execCvtx h dst vd a b src m s
  | .fscl h f vd a => Sys2Proof.Machine.execFscl h f vd a s
  | .vbal h vd a b => Sys2Proof.Machine.execVbal h vd a b s
  | .vvote h f dst p => Sys2Proof.Machine.execVvote h f dst p s
  | .vshfl h f t vd a b => Sys2Proof.Machine.execVshfl h f t vd a b s
  | .vxch h vd a b c => Sys2Proof.Machine.execVxch h vd a b c s
  | .vreduce h f t vd a m => Sys2Proof.Machine.execVreduce h f t vd a m s
  | .vscan h f t vd a sat => Sys2Proof.Machine.execVscan h f t vd a sat s
  | .vmatch h vd a => Sys2Proof.Machine.execVmatch h vd a s
  | .vlane h f t vd a b => Sys2Proof.Machine.execVlane h f t vd a b s
  | .vld h z o d m => Sys2Proof.Machine.execVld h z o d m s
  | .vst h z o d m => Sys2Proof.Machine.execVst h z o d m s
  | .pref h hint m => Sys2Proof.Machine.execPref h hint m s
  | .probe h z p m => Sys2Proof.Machine.execProbe h z p m s
  | .bankcfg h q sb mode => Sys2Proof.Machine.execBankcfg h q sb mode s
  | .iinv h m => Sys2Proof.Machine.execIinv h m s
  | .atom h f z o d m => Sys2Proof.Machine.execAtom h f z o d m s
  | .acas h z o d m => Sys2Proof.Machine.execAcas h z o d m s
  | .red h f z o d m => Sys2Proof.Machine.execRed h f z o d m s
  | .fence h sc o => Sys2Proof.Machine.execFence h sc o s
  | .qpush h q t g kx sa => Sys2Proof.Machine.execQpush h q t g kx sa s
  | .qpop h q t g kx sa => Sys2Proof.Machine.execQpop h q t g kx sa s
  | .qallowGrant h q g kx sa sb => Sys2Proof.Machine.execQallowGrant h q g kx sa sb s
  | .qallowRead h q g kx sa => Sys2Proof.Machine.execQallowRead h q g kx sa s
  | .cwait h q t sc o cell x tmo => Sys2Proof.Machine.execCwait h q t sc o cell x tmo s
  | .carr h sc o cell x => Sys2Proof.Machine.execCarr h sc o cell x s
  | .crst h cell => Sys2Proof.Machine.execCrst h cell s
  | .tbar h role => Sys2Proof.Machine.execTbar h role s
  | .commit h => Sys2Proof.Machine.execCommit h s
  | .mma h scaled g pop kx ky sa sb slot => Sys2Proof.Machine.execMma h scaled g pop kx ky sa sb slot s
  | .aacq h slot => Sys2Proof.Machine.execAacq h slot s
  | .arel h slot => Sys2Proof.Machine.execArel h slot s
  | .ald h o slot m => Sys2Proof.Machine.execAld h o slot m s
  | .ast h o slot m => Sys2Proof.Machine.execAst h o slot m s
  | .azero h slot => Sys2Proof.Machine.execAzero h slot s
  | .adrnStore h o slot m => Sys2Proof.Machine.execAdrnStore h o slot m s
  | .adrnFadd h o slot m => Sys2Proof.Machine.execAdrnFadd h o slot m s
  | .xcopy h x => Sys2Proof.Machine.execXcopy h x s
  | .xformDec h x => Sys2Proof.Machine.execXformDec h x s
  | .xformPerm h x => Sys2Proof.Machine.execXformPerm h x s
  | .xformCvt h x => Sys2Proof.Machine.execXformCvt h x s
  | .xformFill h x => Sys2Proof.Machine.execXformFill h x s
  | .xstat h sa sc => Sys2Proof.Machine.execXstat h sa sc s
  | .cprun h q g kx sa sb sc => Sys2Proof.Machine.execCprun h q g kx sa sb sc s
  | .cpstat h q g kx sa => Sys2Proof.Machine.execCpstat h q g kx sa s
  | .cpstop h q g kx => Sys2Proof.Machine.execCpstop h q g kx s
  | .nnew h q kd cls sa => Sys2Proof.Machine.execNnew h q kd cls sa s
  | .nkill h q g ka => Sys2Proof.Machine.execNkill h q g ka s
  | .nres h q g ka => Sys2Proof.Machine.execNres h q g ka s
  | .nmov h q g kd ka => Sys2Proof.Machine.execNmov h q g kd ka s
  | .ninfo h q g ka sd item => Sys2Proof.Machine.execNinfo h q g ka sd item s
  | .nld h q o kd m => Sys2Proof.Machine.execNld h q o kd m s
  | .nst h q o kx m => Sys2Proof.Machine.execNst h q o kx m s
  | .ncas h live q o knew kexp m => Sys2Proof.Machine.execNcas h live q o knew kexp m s
  | .tget h vd a => Sys2Proof.Machine.execTget h vd a s
  | .tset h vd f => Sys2Proof.Machine.execTset h vd f s
  | .tchk h t a => Sys2Proof.Machine.execTchk h t a s
  | .tldg h o d m => Sys2Proof.Machine.execTldg h o d m s
  | .tstg h o d m => Sys2Proof.Machine.execTstg h o d m s
  | .torg h q sd sa => Sys2Proof.Machine.execTorg h q sd sa s
  | .rvmul h t vd a b rnd => Sys2Proof.Machine.execRvmul h t vd a b rnd s
  | .rvadd h vd a b rnd => Sys2Proof.Machine.execRvadd h vd a b rnd s
  | .rvnar h fmt vd a rnd sat => Sys2Proof.Machine.execRvnar h fmt vd a rnd sat s
  | .rvmax0 h vd a => Sys2Proof.Machine.execRvmax0 h vd a s
  | .unmul h t vd a b => Sys2Proof.Machine.execUnmul h t vd a b s
  | .unadd h vd a b => Sys2Proof.Machine.execUnadd h vd a b s
  | .unnar h fmt vd a => Sys2Proof.Machine.execUnnar h fmt vd a s
  | .unmax0 h vd a => Sys2Proof.Machine.execUnmax0 h vd a s
  | .slmark h id => Sys2Proof.Machine.execSlmark h id s
  | .sldrop h id => Sys2Proof.Machine.execSldrop h id s
  | .sldepth h d => Sys2Proof.Machine.execSldepth h d s
  | .trap h cause => Sys2Proof.Machine.execTrap h cause s
  | .tret h => Sys2Proof.Machine.execTret h s
  | .brk h => Sys2Proof.Machine.execBrk h s
  | .launch h a => Sys2Proof.Machine.execLaunch h a s
  | .clauseEntry core pipe => Sys2Proof.Machine.execClauseEntry core pipe s
  | .overrun g => Sys2Proof.Machine.execOverrun g s
  | .resultReturn g n => Sys2Proof.Machine.execResultReturn g n s
  | .switchWake g => Sys2Proof.Machine.execSwitchWake g s
  | .queueEntryFree g => Sys2Proof.Machine.execQueueEntryFree g s
  | .yldDrainComplete g => Sys2Proof.Machine.execYldDrainComplete g s
  | .joinRelease g => Sys2Proof.Machine.execJoinRelease g s
  | .loopEndStep g => Sys2Proof.Machine.execLoopEndStep g s
  | .deferRelease g lane => Sys2Proof.Machine.execDeferRelease g lane s
  | .dieFaultWalk n => Sys2Proof.Machine.execDieFaultWalk n s
  | .faultRecordWrite n => Sys2Proof.Machine.execFaultRecordWrite n s
  | .storeQueueDrain g => Sys2Proof.Machine.execStoreQueueDrain g s
  | .ownershipGrant core line => Sys2Proof.Machine.execOwnershipGrant core line s
  | .invalidationReceive core line => Sys2Proof.Machine.execInvalidationReceive core line s
  | .directoryRecall line => Sys2Proof.Machine.execDirectoryRecall line s
  | .directoryEviction line => Sys2Proof.Machine.execDirectoryEviction line s
  | .aliasRecall line slot va => Sys2Proof.Machine.execAliasRecall line slot va s
  | .aliasRecordDrop line => Sys2Proof.Machine.execAliasRecordDrop line s
  | .redArrival n => Sys2Proof.Machine.execRedArrival n s
  | .iinvAck g => Sys2Proof.Machine.execIinvAck g s
  | .tlbInvalidation k => Sys2Proof.Machine.execTlbInvalidation k s
  | .tlbSync => Sys2Proof.Machine.execTlbSync s
  | .hostWrite pa data => Sys2Proof.Machine.execHostWrite pa data s
  | .hostRead p size => Sys2Proof.Machine.execHostRead p size s
  | .scrubPass block corrected bad => Sys2Proof.Machine.execScrubPass block corrected bad s
  | .dirtyEvictionError x => Sys2Proof.Machine.execDirtyEvictionError x s
  | .engineCommandStart e => Sys2Proof.Machine.execEngineCommandStart e s
  | .engineStartTime e => Sys2Proof.Machine.execEngineStartTime e s
  | .cbFullTimeout cmd => Sys2Proof.Machine.execCbFullTimeout cmd s
  | .engineCommandEnd cmd => Sys2Proof.Machine.execEngineCommandEnd cmd s
  | .transformSpillReplay cmd => Sys2Proof.Machine.execTransformSpillReplay cmd s
  | .engineQueueWake g => Sys2Proof.Machine.execEngineQueueWake g s
  | .emulatedTileOp cmd => Sys2Proof.Machine.execEmulatedTileOp cmd s
  | .mmaExecute mma => Sys2Proof.Machine.execMmaExecute mma s
  | .matrixQueueWake g => Sys2Proof.Machine.execMatrixQueueWake g s
  | .aacqComplete g => Sys2Proof.Machine.execAacqComplete g s
  | .arelHandover core slot => Sys2Proof.Machine.execArelHandover core slot s
  | .queueWake pigeonhole => Sys2Proof.Machine.execQueueWake pigeonhole s
  | .cwaitWake g => Sys2Proof.Machine.execCwaitWake g s
  | .cwaitTimeout g => Sys2Proof.Machine.execCwaitTimeout g s
  | .bellRelease team bell => Sys2Proof.Machine.execBellRelease team bell s
  | .launchQueueWake g => Sys2Proof.Machine.execLaunchQueueWake g s
  | .slateSpill g => Sys2Proof.Machine.execSlateSpill g s
  | .trapEntry g => Sys2Proof.Machine.execTrapEntry g s
  | .teamFaultEnd team => Sys2Proof.Machine.execTeamFaultEnd team s
  | .relaunch team => Sys2Proof.Machine.execRelaunch team s
  | .groupEnd g => Sys2Proof.Machine.execGroupEnd g s
  | .teamEndExit team => Sys2Proof.Machine.execTeamEndExit team s
  | .launchWindowWrite ctx off data => Sys2Proof.Machine.execLaunchWindowWrite ctx off data s
  | .launchAccept ctx => Sys2Proof.Machine.execLaunchAccept ctx s
  | .dependenceMet launch => Sys2Proof.Machine.execDependenceMet launch s
  | .teamPlace die => Sys2Proof.Machine.execTeamPlace die s
  | .launchWait2ms launch => Sys2Proof.Machine.execLaunchWait2ms launch s
  | .preemptRequest team => Sys2Proof.Machine.execPreemptRequest team s
  | .teamSave team => Sys2Proof.Machine.execTeamSave team s
  | .teamResume team core => Sys2Proof.Machine.execTeamResume team core s
  | .floorShareTimeout team => Sys2Proof.Machine.execFloorShareTimeout team s
  | .launchComplete launch => Sys2Proof.Machine.execLaunchComplete launch s
  | .nkillComplete name => Sys2Proof.Machine.execNkillComplete name s
  | .rollEntryWrite roll => Sys2Proof.Machine.execRollEntryWrite roll s
  | .errorRecordForward => Sys2Proof.Machine.execErrorRecordForward s
  | .cpHalt run => Sys2Proof.Machine.execCpHalt run s
  | .cpSend run => Sys2Proof.Machine.execCpSend run s
  | .cpRecv run => Sys2Proof.Machine.execCpRecv run s
  | .cpRrs run => Sys2Proof.Machine.execCpRrs run s
  | .cpRred run => Sys2Proof.Machine.execCpRred run s
  | .cpCopy run => Sys2Proof.Machine.execCpCopy run s
  | .cpWaitCell run => Sys2Proof.Machine.execCpWaitCell run s
  | .cpWaitTimed run => Sys2Proof.Machine.execCpWaitTimed run s
  | .cpLoop run => Sys2Proof.Machine.execCpLoop run s
  | .cpEndl run => Sys2Proof.Machine.execCpEndl run s
  | .cpSignal run => Sys2Proof.Machine.execCpSignal run s
  | .engineMessageArrival f m => Sys2Proof.Machine.execEngineMessageArrival f m s
  | .messageDiscard die n => Sys2Proof.Machine.execMessageDiscard die n s
  | .recvTimeout run => Sys2Proof.Machine.execRecvTimeout run s
  | .slotContribution c => Sys2Proof.Machine.execSlotContribution c s
  | .slotClose slot => Sys2Proof.Machine.execSlotClose slot s
  | .slotDeadline slot => Sys2Proof.Machine.execSlotDeadline slot s
  | .peerRequestArrival r => Sys2Proof.Machine.execPeerRequestArrival r s
  | .peerResponse req a => Sys2Proof.Machine.execPeerResponse req a s
  | .peerTimeout req => Sys2Proof.Machine.execPeerTimeout req s
  | .peerBusyRetry req => Sys2Proof.Machine.execPeerBusyRetry req s
  | .linkBringup port vendor accel => Sys2Proof.Machine.execLinkBringup port vendor accel s
  | .portDown port => Sys2Proof.Machine.execPortDown port s
  | .datagramResend req => Sys2Proof.Machine.execDatagramResend req s
  | .timeSync time skew => Sys2Proof.Machine.execTimeSync time skew s
  | .reset cold b => Sys2Proof.Machine.execReset cold b s
  | .fatalError => Sys2Proof.Machine.execFatalError s
  | .frequencyChange island mhz mv gate => Sys2Proof.Machine.execFrequencyChange island mhz mv gate s
  | .firmwareRefused die addr => Sys2Proof.Machine.execFirmwareRefused die addr s
  | .resolveRetry die seq => Sys2Proof.Machine.execResolveRetry die seq s
  | .resolveRefuse die seq => Sys2Proof.Machine.execResolveRefuse die seq s
  | .faultRingConsume x => Sys2Proof.Machine.execFaultRingConsume x s
  | .errorRingConsume x => Sys2Proof.Machine.execErrorRingConsume x s
  | .controlRegisterWrite off size data => Sys2Proof.Machine.execControlRegisterWrite off size data s
  | .preempt => Sys2Proof.Machine.execPreempt s
  | .kill => Sys2Proof.Machine.execKill s
  | .peertime => Sys2Proof.Machine.execPeertime s
  | .endpoint => Sys2Proof.Machine.execEndpoint s
  | .counters => Sys2Proof.Machine.execCounters s
  | .ageing => Sys2Proof.Machine.execAgeing s
  | .dump => Sys2Proof.Machine.execDump s
  | .attest => Sys2Proof.Machine.execAttest s
  | .nameobj => Sys2Proof.Machine.execNameobj s
  | .killobj => Sys2Proof.Machine.execKillobj s
  | .hostMemorySnoop pa invalidate => Sys2Proof.Machine.execHostMemorySnoop pa invalidate s

end Sys2Proof.Machine
end

