-- ==== Sys2Proof/Machine/Issue.lean ====
section
/-! DEFINITION. Issuing a word (R50, R79, R128, R153), the events whose moment the hardware chooses, and the
placing of one instruction where the machine fetches next. -/

namespace Sys2Proof.Machine

open Sys2Proof

/-! ### Issuing a word -/

/-- What issuing comes to: an instruction to perform, or an end of the attempt. -/
inductive Issued
  | run (i : Instr) (s : State)
  | done (s : State)
deriving DecidableEq, Repr

/-- The word's context. -/
def wordNow (r : GRef) (cl : Clause) : Now :=
  ⟨r, cl.hdr, cl.head, cl.pc, cl.x, cl.next + 1 == cl.head.count, cl.redo⟩

/-- The first fault of a word in the order of R79, before its meaning's own checks. -/
def wordCheck (n : Now) (w : Word) : Except Cause Instr :=
  let m := (w.extractLsb' 56 8).toNat
  match decode w with
  | .error .illegalOpcode => .error .illegalOpcode
  | .error .illegalOperand =>
    if (majorInfo m).map Prod.snd != some n.head.cls then .error .classMismatch
    else if majorEnds m && !n.last then .error .illegalClause
    else .error .illegalOperand
  | .ok i =>
    if (majorInfo m).map Prod.snd != some n.head.cls then .error .classMismatch
    else if majorEnds m && !n.last then .error .illegalClause
    else .ok i

/-- An issue takes one of the group's count (R153); a word issued again after a wait does not. -/
def countIssue (s : State) (r : GRef) (cl : Clause) : State :=
  if cl.redo then s else s.modGroup r (fun g => { g with ylddl := g.ylddl - 1 })

/-- A fault of the word at issue. -/
def issueFault (s : State) (n : Now) (cause : Cause) : State :=
  endTeam s n.g.team ⟨cause, false, n.g, firstLane n.x, 0, n.pc, 0, 0, 0⟩

/-- Fetches, counts, decodes and checks the next word of a group's clause. -/
def issueWord (s : State) (t : Team) (g : Group) (cl : Clause) : Issued :=
  let r : GRef := ⟨t.id, g.grp⟩
  let n := wordNow r cl
  let s := { s with now := some n, issuing := s.issuing.filter (fun x => x != r) ++ [r] }
  if g.ylddl == 0 && !cl.redo then .run (.overrun r) s
  else match fetchWord s t.core t.slot n.pc with
    | (.word w, s) => match wordCheck n w with
      | .ok i => .run i (countIssue s r cl)
      | .error cause => .done (issueFault s n cause)
    | (.bad, s) => .done (issueFault s n .illegalClause)
    | (.fault _, s) =>
      .done ((coreFault s ⟨t.core, t.ctx, t.slot⟩ n.pc.toNat .fetch (.lanes r cl.x)).modGroup r (fun g => { g with
        wait := some ⟨.fetch, n⟩ }))
    | (.poison tag, s) => match curAt s n with
      | some c => .done (eatPoison s c ⟨false, .blame, 0, false⟩ 0 [] ((lanesOf cl.x).map (fun i => ⟨i, .poison, tag, cl.hdr⟩)))
      | none => .done s

/-- The group, if it stands in a clause and nothing keeps it from its next word. -/
def canIssue (s : State) (r : GRef) : Option (Team × Group × Clause) :=
  match s.team? r.team with
  | some t => match t.group? r.grp with
    | some g => match g.clause with
      | some cl =>
        if g.wait.isNone && g.trapReq.isNone && t.ending.isNone && !t.saved then some (t, g, cl) else none
      | none => none
    | none => none
  | none => none

/-- A free pipe of a core. -/
def freePipe (s : State) (core : Nat) : Option Nat := (List.range 4).find? (fun p => !pipeBusy s core p)

/-- The eligible group that has waited longest, on a core with a free pipe. -/
def nextEntry (s : State) : Option Instr :=
  let cores := ((s.teams.filter (fun t => !t.saved)).map (·.core)).eraseDups.filter (fun c => (freePipe s c).isSome)
  match pickGroup 31 (cores.filterMap (fun c =>
    (freePipe s c).bind (fun p => pickGroup (lastServed s c p) (eligibles s c)))) with
  | some (t, _) => (freePipe s t.core).map (Instr.clauseEntry t.core)
  | none => none

/-- The next word of a group that stands in a clause. -/
def nextWord (s : State) : Option Issued := (s.issuing.findSome? (canIssue s)).map (fun p => issueWord s p.1 p.2.1 p.2.2)

/-- The next word, or the next clause entry: by turns, so that neither keeps the other waiting. -/
def issueNext (s : State) : Option Issued :=
  let entry := fun (_ : Unit) => (nextEntry s).map (fun i => Issued.run i s)
  if s.turn / 2 % 2 == 0 then (nextWord s).orElse entry else (entry ()).orElse (fun _ => nextWord s)

/-! ### Events that the hardware brings about by itself

Each list names events that may be due; one that is not due leaves the state as it is, and is passed over. -/

/-- Every group of every team. -/
def groupRefs (s : State) : List (GRef × Group) := s.teams.flatMap (fun t => t.groups.map (fun g => (⟨t.id, g.grp⟩, g)))

/-- The events that may end a group's wait. -/
def wakeEvents (s : State) (r : GRef) (g : Group) : List Instr :=
  match g.wait with
  | none => []
  | some w => match w.why with
    | .switch | .acquire _ => [.switchWake r]
    | .sfuFull | .cvtFull => [.queueEntryFree r]
    | .yldDrain => [.yldDrainComplete r]
    | .engine _ => [.engineQueueWake r]
    | .matrix => [.matrixQueueWake r]
    | .launchQ => [.launchQueueWake r]
    | .aacq _ => [.aacqComplete r]
    | .arel n => [.arelHandover ((s.team? r.team).map (·.core) |>.getD 0) n]
    | .cwait .. => [.cwaitTimeout r, .cwaitWake r]
    | .push n | .pop n => [.queueWake n]
    | .bell n => [.bellRelease r.team n]
    | .iinv => [.iinvAck r]
    | .spill => [.slateSpill r]
    | .preempt => [.teamSave r.team]
    | _ => []

/-- The events of a group's lanes and queues. -/
def groupEvents (r : GRef) (g : Group) : List Instr :=
  (if g.trapReq.isSome then [.trapEntry r] else []) ++
  (if g.clause.isNone && g.wait.isNone && !g.ended then [.joinRelease r, .loopEndStep r, .groupEnd r] else []) ++
  (lanesWhere (fun l => match l.st with
    | .deferred _ _ => true
    | _ => false) 0 g.lanes).map (Instr.deferRelease r)

/-- The step events of a run. -/
def runEvents (r : Run) : List Instr :=
  [.cpHalt r.id, .cpSend r.id, .cpRecv r.id, .cpRrs r.id, .cpRred r.id, .cpCopy r.id, .cpWaitCell r.id, .cpWaitTimed r.id,
    .cpLoop r.id, .cpEndl r.id, .cpSignal r.id, .recvTimeout r.id]

/-- The events of a resident or saved team. -/
def teamEvents (s : State) (t : Team) : List Instr :=
  (if t.ending.isSome then [.teamFaultEnd t.id, .relaunch t.id]
  else if t.groups.all (·.ended) then [.teamEndExit t.id] else []) ++
  (if t.saved then
    [.floorShareTimeout t.id] ++ (match s.launch? t.launch with
      | some l => (resumeCores s l t).map (Instr.teamResume t.id)
      | none => [])
  else if t.preempt then [.teamSave t.id] else [.preemptRequest t.id])

/-- The events of a launch. -/
def launchEvents (l : Launch) : List Instr :=
  match l.stage with
  | .queued => [.launchAccept l.ctx]
  | .waiting => [.dependenceMet l.id]
  | .eligible => [.launchComplete l.id, .launchWait2ms l.id]
  | .done => []

/-- The events of a named object. -/
def entryEvents (e : Entry) : List Instr :=
  (if e.dying then [.nkillComplete e.name] else []) ++
  match e.obj with
  | .roll _ => [.rollEntryWrite e.name]
  | .meeting _ => [.slotClose e.name, .slotDeadline e.name]
  | _ => []

/-- The events of an engine command. -/
def cmdEvents (c : Cmd) : List Instr :=
  match c.stage with
  | .running => [.emulatedTileOp c.id, .transformSpillReplay c.id, .engineCommandEnd c.id]
  | _ => [.cbFullTimeout c.id, .engineStartTime c.eng, .engineCommandStart c.eng]

/-- The events of the mailbox. -/
def mailEvents (s : State) : List Instr :=
  if s.ctrl.mbbusy then [.preempt, .kill, .peertime, .endpoint, .counters, .ageing, .dump, .attest, .nameobj, .killobj] else []

/-- The kinds of event, in the order in which turns go round. -/
def eventKinds (s : State) : List (List Instr) :=
  [ (groupRefs s).flatMap (fun p => (p.2.pend.filter (fun x => x.ready && p.2.queueHead x)).map (fun x => Instr.resultReturn p.1 x.id)),
    (groupRefs s).flatMap (fun p => wakeEvents s p.1 p.2),
    (groupRefs s).flatMap (fun p => groupEvents p.1 p.2),
    (groupRefs s).flatMap (fun p => if p.2.storeQ.isEmpty then [] else [Instr.storeQueueDrain p.1]),
    s.ev.map (fun e => Instr.ownershipGrant e.core e.w.line),
    s.stale.map (fun l => Instr.invalidationReceive l.core (lineKey l.slot l.va)),
    s.redQ.map (fun q => Instr.redArrival q.id),
    s.faults.flatMap (fun f => [Instr.dieFaultWalk f.id, Instr.faultRecordWrite f.id]),
    s.cmds.flatMap cmdEvents,
    s.mmas.flatMap (fun m => [Instr.emulatedTileOp m.id, Instr.mmaExecute m.id]),
    s.accs.map (fun p => Instr.arelHandover (p.1 / 64) (p.1 % 64)),
    s.teams.flatMap (teamEvents s),
    s.launches.flatMap launchEvents,
    if s.launches.isEmpty then [] else (List.range 4).map Instr.teamPlace,
    s.runs.flatMap runEvents,
    s.heldMsgs.map (fun h => Instr.messageDiscard h.die h.n),
    s.roster.flatMap (fun p => entryEvents p.2),
    if s.errBuf.isEmpty then [] else [Instr.errorRecordForward],
    s.peerIn.map Instr.peerRequestArrival,
    s.peerOut.flatMap (fun p => [Instr.peerTimeout p.id, Instr.peerBusyRetry p.id]),
    (s.islands.zipIdx.filter (fun p => p.1.want.isSome)).map (fun p => match p.1.want with
      | some (f, v, g) => Instr.frequencyChange p.2 f v g
      | none => Instr.frequencyChange p.2 p.1.mhz p.1.mv p.1.gated),
    mailEvents s ]

/-- The event changes something. -/
def isDue (s : State) (i : Instr) : Bool :=
  match exec i s with
  | .next t => t != s
  | _ => false

/-- The first due event, the kinds taken in turn. -/
def nextEvent (s : State) : Option Instr :=
  let ks := eventKinds s
  let n := s.turn / 2 % ks.length
  (ks.drop n ++ ks.take n).findSome? (fun l => l.find? (isDue s))

/-! ### A step -/

/-- Time passes by an amount that nothing states (R56, R75). -/
def tick (s : State) : State :=
  { s with time := s.time + (Config.elapsed s.freeN).setWidth 64, freeN := s.freeN + 1 }

/-- What a step performs, and the state it performs it in: the head of the agenda; else words and events by turns.
With nothing due, the machine idles. -/
def choose (s : State) : Issued :=
  match s.agenda with
  | i :: rest => .run i { s with agenda := rest }
  | [] =>
    let s' := { s with turn := s.turn + 1 }
    let word := issueNext s'
    let event := (nextEvent s').map (fun i => Issued.run i s')
    if s.turn % 2 == 0 then (word.orElse (fun _ => event)).getD (.done s') else (event.orElse (fun _ => word)).getD (.done s')

/-- A stopped package takes nothing but a reset (R449). -/
def mayRun (s : State) : Bool :=
  !s.stopped || (match s.agenda with
    | .reset _ _ :: _ => true
    | _ => false)

/-! ### Placing one instruction -/

/-- Where the placed instruction's clause stands. -/
def placedText : Word := 0x10000000

/-- The kernel whose text the placed instruction is. -/
def placedKernel : Kernel where
  width := 16
  roles := [(1, 256)]
  text := placedText
  twords := 2
  data := 0
  dbytes := 0
  scratch := 0
  acc := 0
  slateOn := 0
  slateMem := 0
  callspill := 0
  deadline := 65535
  curve := 0
  band := 0
  tile := (1, 1)
  table := []
  replayable := false
  trapstore := false

/-- The launch of the placed instruction's team. -/
def placedLaunch (s : State) : Launch where
  id := s.seqN
  ctx := 0
  src := 0
  packet := 0
  stage := .eligible
  params := []
  kernel := placedKernel
  kname := 0
  roll := 0
  fresh := false
  pos := 1
  placed := 1
  ended := 0
  faulted := 0
  eligAt := s.time
  order := 0
  placedAt := s.time
  starved := false
  gone := []
  recs := 0
  killed := false
  bad := false
  again := []

/-- The clause class of a word (R46). -/
def placedClass (w : Word) : Cls :=
  match majorInfo (w.extractLsb' 56 8).toNat with
  | some (_, c) => c
  | none => .gen

/-- The header of the placed clause: one word, no wait, no slot. -/
def placedHeader (w : Word) : Header := ⟨placedClass w, 1, 0, 15⟩

/-- The group that issues the placed word. -/
def placedGroup (s : State) (w : Word) : Group :=
  let g := startGroup s (placedLaunch s) 0 0 0 256
  { g with clause := some ⟨placedText, placedHeader w, lowMask 16, 0, 0, false⟩ }

def placedTeam (s : State) (w : Word) : Team where
  id := s.seqN
  launch := s.seqN
  ctx := 0
  slot := 0
  idx := 0
  coord := (0, 0, 0)
  core := 0
  saved := false
  seg := 0
  scratch := 0
  accs := []
  groups := [placedGroup s w]
  relaunches := 0
  pinned := false
  committing := false
  uncommitted := []
  ending := none
  preempt := false
  floor := []
  placedAt := s.time
  order := s.seqN
  savedAt := 0
  favour := none
  image := []
  accSave := []
  scratchSave := []
  arrived := []

/-- The line of text that holds the clause: its header and the word, then zeros. -/
def placedLine (w : Word) : ILine :=
  ⟨0, 0, placedText.toNat, 1, Sys2Proof.wordBytes (encodeHeader (placedHeader w)) ++ Sys2Proof.wordBytes w ++ List.replicate 112 0⟩

/-- The state in which the next step issues the word `w` as the only word of a clause: a team of one group that has
entered it on core 0, its line of text in the instruction cache. -/
def placeWord (s : State) (w : Word) : State :=
  { s with
    agenda := []
    turn := 0
    stopped := false
    seqN := s.seqN + 1
    teams := placedTeam s w :: s.teams.filter (fun t => t.id != s.seqN)
    launches := placedLaunch s :: s.launches.filter (fun l => l.id != s.seqN)
    icache := placedLine w :: s.icache
    issuing := ⟨s.seqN, 0⟩ :: s.issuing }

end Sys2Proof.Machine
end

