-- ==== Sys2Proof/Machine/Step.lean ====
section
/-! DEFINITION. One step: time passes, and what `choose` names is performed. -/

namespace Sys2Proof.Machine

open Sys2Proof

/-- One step of the package. -/
def step (s : State) : Host.Outcome State Fault Refusal :=
  if mayRun s then
    match choose (tick s) with
    | .run i t => exec i t
    | .done t => .next t
  else .fault .stopped

/-- The state in which the next step runs the word whose low `nbits` bits are `w`. -/
def State.withFetchWord (s : State) (nbits w : Nat) : State := placeWord s (BitVec.ofNat 64 (w % 2 ^ nbits))

end Sys2Proof.Machine
end

