-- ==== Sys2Proof/Safety.lean ====
section
/-! DEFINITION. What the claims are stated in: the canonical form of memory, what a word may change besides its
results, and safe runs. -/

namespace Sys2Proof.Machine

open Sys2Proof

/-! ### The canonical form -/

/-- Memory, tags and poison are in canonical form: equal memories are equal data. -/
def MemOk (s : State) : Prop := Memory.wf s.mem ∧ mwf 0 s.tags = true ∧ mwf false s.poison = true

/-- A step neither faults nor is refused. -/
def SafeStep (s : State) : Prop := ∃ t, step s = .next t

/-! ### What a word may change besides its results -/

/-- `t` is `s` but for the group `r` and the bookkeeping of clauses: which groups are inside a clause, the internal
counter, and the points at which the team's groups have stood (R172). -/
def OnlyGroup (s t : State) (r : GRef) : Prop :=
  t = { s with teams := t.teams, issuing := t.issuing, seqN := t.seqN } ∧
  (∀ n, n ≠ r.team → t.team? n = s.team? n) ∧
  (∀ r', r' ≠ r → t.group? r' = s.group? r') ∧
  (∀ a, s.team? r.team = some a → ∃ b, t.team? r.team = some b ∧ b = { a with groups := b.groups, floor := b.floor })

/-- The same but for the roll in which a birth is counted (R349). -/
def OnlyGroupBirth (s t : State) (r : GRef) : Prop :=
  OnlyGroup { s with roster := t.roster } t r ∧ ∀ n, n ≠ (birthOf s r).roll.toNat → mfind t.roster n = mfind s.roster n

/-- A lane keeps everything but its place and whether it is ready or held at its loop's end. -/
def LanesMoved (l l' : List Lane) : Prop :=
  l'.length = l.length ∧ ∀ (i : Nat) (x : Lane), l'[i]? = some x → ∃ y : Lane, l[i]? = some y ∧ x = { y with pc := x.pc, ins := x.ins, st := x.st }

/-- The group is as it was but for the places of its lanes, its clause, and its eligibility. -/
def Moved (g g' : Group) : Prop :=
  g' = { g with lanes := g'.lanes, clause := g'.clause, wait := g'.wait, readyAt := g'.readyAt } ∧ LanesMoved g.lanes g'.lanes

/-- s `d` holds `x`; every other register is as it was. -/
def WritesS (g g' : Group) (d : Nat) (x : Word) : Prop :=
  Moved { g with s := g'.s } g' ∧ g'.sreg d = x ∧ ∀ r, r ≠ d → g'.sreg r = g.sreg r

/-- q `d` holds `x`, but q0 keeps reading as true; every other register is as it was. -/
def WritesQ (g g' : Group) (d : Nat) (x : Bool) : Prop :=
  Moved { g with q := g'.q } g' ∧ (d ≠ 0 → g'.bool d = x) ∧ g'.bool 0 = true ∧ ∀ r, r ≠ d → g'.bool r = g.bool r

/-- p `d` holds bit L of `x` for each lane of `m`, and its old bits elsewhere; p0 keeps reading as true. -/
def WritesP (g g' : Group) (d : Nat) (m : Mask) (x : Nat → Bool) : Prop :=
  Moved { g with p := g'.p } g' ∧
  (d ≠ 0 → ∀ i, i < 64 → (g'.pred d).getLsbD i = if m.getLsbD i then x i else (g.pred d).getLsbD i) ∧
  g'.pred 0 = BitVec.allOnes 64 ∧ ∀ r, r ≠ d → g'.pred r = g.pred r

/-- v `d`, or the pair v `d`, v `d + 1`, holds `x` with the tag `tg` in the lanes of `m`; every other vector register
and every other lane is as it was. -/
def WritesV (g g' : Group) (pair : Bool) (d : Nat) (m : Mask) (x : Nat → Nat) (tg : Nat → Tag → Prop) : Prop :=
  Moved { g with v := g'.v, vt := g'.vt } g' ∧
  (∀ i, i < 64 → m.getLsbD i = true →
    g'.vreg d i = BitVec.ofNat 32 (x i) ∧ tg i (g'.vtag d i) ∧
    (pair = true → g'.vreg (d + 1) i = BitVec.ofNat 32 (x i / 2 ^ 32) ∧ g'.vtag (d + 1) i = g'.vtag d i)) ∧
  ∀ r i, i < 64 → (m.getLsbD i = false ∨ (r ≠ d ∧ (pair = true → r ≠ d + 1))) →
    g'.vreg r i = g.vreg r i ∧ g'.vtag r i = g.vtag r i

/-- A result is outstanding (R51): it signals the clause's scoreboard slot, and its writes follow when it returns. -/
def Pends (s : State) (c : Cur) (g g' : Group) (q : ResQ) (ws : List RegW) : Prop :=
  Moved { g with pend := g.pend ++ [⟨s.seqN, slotOf c, q, c.n.pc, ws, true, false⟩], sb := g'.sb } g' ∧
  ∀ n, mget 0 g'.sb n = mget 0 g.sb n + if slotOf c = some n then 1 else 0

/-- The word completes: `exec` answers a next state, confined to the issuing group, whose group is as `P` says. -/
def Completes (i : Instr) (s : State) (c : Cur) (P : Group → Prop) : Prop :=
  ∃ t g', exec i s = .next t ∧ OnlyGroup s t c.ref ∧ t.group? c.ref = some g' ∧ P g'

/-- The same for a word that may count a birth. -/
def CompletesBirth (i : Instr) (s : State) (c : Cur) (P : Group → Prop) : Prop :=
  ∃ t g', exec i s = .next t ∧ OnlyGroupBirth s t c.ref ∧ t.group? c.ref = some g' ∧ P g'

/-- The word goes on: `exec` answers a next state in which the group has gone past the word, to the next word of its clause
or out of the clause, with no trap owed for it, and its team has not ended (R128, R153). -/
def GoesOn (i : Instr) (s : State) (c : Cur) : Prop :=
  ∃ t g', exec i s = .next t ∧ t.group? c.ref = some g' ∧ g'.trapReq = c.g.trapReq ∧
    (t.team? c.ref.team).map (·.ending) = some c.t.ending ∧
    g'.clause = if c.n.last then none
      else c.g.clause.map fun cl => { cl with next := (c.n.pc - c.n.hdr).toNat / 8, redo := false }

/-! ### Words that place their lanes -/

/-- The group is inside the word's clause, with X its ready lanes. -/
def Standing (c : Cur) : Prop :=
  ∃ cl, c.g.clause = some cl ∧ cl.x = c.n.x ∧ ∀ (i : Nat) (l : Lane), c.n.x.getLsbD i = true → c.g.lanes[i]? = some l → l.st = .ready

/-- The lane takes the place `a`, or is held there at the end of the innermost loop, if that governs it (R149). -/
def Takes (k : Kernel) (loops : List LoopEntry) (a : Word) (l l' : Lane) : Prop :=
  l' = { l with pc := a, ins := none, st := l'.st } ∧
  match loops with
  | e :: _ => l'.st = if l.depth = e.depth ∧ a = textWord k e.stop then .loopHeld a else l.st
  | [] => l'.st = l.st

/-- The clause ends with the loop entries `loops`: each lane of X is as `P` says, another lane sees at most that
X has issued (R145), and a switch marker may hold the group (R54). -/
def Leaves (c : Cur) (h : Head) (loops : List LoopEntry) (P : Nat → Lane → Lane → Prop) (g' : Group) : Prop :=
  g' = { c.g with lanes := g'.lanes, loops := loops, clause := none, readyAt := g'.readyAt, wait := g'.wait } ∧
  g'.wait = (if h.sw = true ∧ c.g.pend ≠ [] ∧ c.g.wait = none then some ⟨.switch, c.n⟩ else c.g.wait) ∧
  g'.lanes.length = c.g.lanes.length ∧
  ∀ (i : Nat) (l : Lane), c.g.lanes[i]? = some l → ∃ l', g'.lanes[i]? = some l' ∧
    if c.n.x.getLsbD i = true then P i l l' else l' = noteIssue c.n.hdr c.n.x l

/-- The word ends its team with a cause of R324. -/
def Faults (i : Instr) (s : State) (c : Cur) (cause : Cause) : Prop := exec i s = .next (wordFault s c cause)

end Sys2Proof.Machine
end

