-- ==== Sys2Proof/Certificates/Slice0/Obligations.lean ====
section
/-! DEFINITION. The statements for the provers. -/

open Sys2Proof Sys2Proof.Machine

/-- A scalar second operand: a register, or the sign-extended immediate (R68). -/
def Claim.sb (g : Group) (b : SB) : Word :=
  match b with
  | .r r => g.sreg r.toNat
  | .i x => x.signExtend 64

/-- SADD, SSUB, SMUL, SMINMAX, SSEL, SMOV and NOP (R131). -/
def Claim.ScalarArithmetic : Prop :=
  ∀ (s : State) (c : Cur) (h : Head) (d a : BitVec 6) (b : SB), cur? s = some c →
    let x := c.g.sreg a.toNat
    let y := Claim.sb c.g b
    let gives := fun (i : Instr) (z : Word) => Completes i s c fun g' => WritesS c.g g' d.toNat z
    gives (.sadd h .wrap d a b) (x + y) ∧ gives (.ssub h .wrap d a b) (x - y) ∧ gives (.smul h .lo d a b) (x * y) ∧
    (∃ z : Word, z.toInt = max (-2 ^ 63) (min (2 ^ 63 - 1) (x.toInt + y.toInt)) ∧ gives (.sadd h .sati d a b) z) ∧
    (∃ z : Word, z.toNat = min (2 ^ 64 - 1) (x.toNat + y.toNat) ∧ gives (.sadd h .satn d a b) z) ∧
    (∃ z : Word, z.toInt = max (-2 ^ 63) (min (2 ^ 63 - 1) (x.toInt - y.toInt)) ∧ gives (.ssub h .sati d a b) z) ∧
    (∃ z : Word, z.toNat = x.toNat - y.toNat ∧ gives (.ssub h .satn d a b) z) ∧
    (∃ z : Word, z.toInt = x.toInt * y.toInt / 2 ^ 64 ∧ gives (.smul h .hii d a b) z) ∧
    (∃ z : Word, z.toNat = x.toNat * y.toNat / 2 ^ 64 ∧ gives (.smul h .hin d a b) z) ∧
    (∃ z : Word, z.toInt = min x.toInt y.toInt ∧ gives (.sminmax h .mini d a b) z) ∧
    (∃ z : Word, z.toInt = max x.toInt y.toInt ∧ gives (.sminmax h .maxi d a b) z) ∧
    (∃ z : Word, z.toNat = min x.toNat y.toNat ∧ gives (.sminmax h .minn d a b) z) ∧
    (∃ z : Word, z.toNat = max x.toNat y.toNat ∧ gives (.sminmax h .maxn d a b) z)

/-- SMOV, SSEL and NOP (R131): a copy, an immediate, the high half, a choice by q, nothing. -/
def Claim.ScalarMoves : Prop :=
  ∀ (s : State) (c : Cur) (h : Head) (d a : BitVec 6) (b : SB) (imm : BitVec 32) (q : BitVec 3), cur? s = some c →
    let gives := fun (i : Instr) (z : Word) => Completes i s c fun g' => WritesS c.g g' d.toNat z
    gives (.smovReg h d a) (c.g.sreg a.toNat) ∧ gives (.smovImm h d imm) (imm.signExtend 64) ∧
    (∃ z : Word, z.extractLsb' 32 32 = imm ∧ z.extractLsb' 0 32 = (c.g.sreg d.toNat).extractLsb' 0 32 ∧
      gives (.smovHi h d imm) z) ∧
    gives (.ssel h q d a b) (if q = 0 ∨ c.g.bool q.toNat = true then c.g.sreg a.toNat else Claim.sb c.g b) ∧
    Completes (.nop h) s c (Moved c.g)

/-- SADD, SSUB, SMUL, SMINMAX, SMOV, SSEL and NOP (R131): the claims ScalarArithmetic and ScalarMoves together. -/
def Obligations.ScalarAddsAndMoves : Prop := Claim.ScalarArithmetic ∧ Claim.ScalarMoves

/-- SDIV (R132): it never faults; division by zero, the one overflow, and otherwise the quotient truncated towards
zero and the remainder with the dividend's sign. -/
def Obligations.ScalarDivision : Prop :=
  ∀ (s : State) (c : Cur) (h : Head) (d a : BitVec 6) (b : SB), cur? s = some c →
    let x := c.g.sreg a.toNat
    let y := Claim.sb c.g b
    let gives := fun (f : DivF) (z : Word) => Completes (.sdiv h f d a b) s c fun g' => WritesS c.g g' d.toNat z
    (y = 0 → gives .divn (BitVec.ofNat 64 0xFFFFFFFFFFFFFFFF) ∧
      (0 ≤ x.toInt → gives .divi (BitVec.ofNat 64 0x7FFFFFFFFFFFFFFF)) ∧
      (x.toInt < 0 → gives .divi (BitVec.ofNat 64 0x8000000000000000)) ∧ gives .remi x ∧ gives .remn x) ∧
    (x.toInt = -2 ^ 63 → y.toInt = -1 → gives .divi (BitVec.ofNat 64 0x7FFFFFFFFFFFFFFF) ∧ gives .remi 0) ∧
    (y ≠ 0 → (∃ z : Word, z.toNat = x.toNat / y.toNat ∧ gives .divn z) ∧
      (∃ z : Word, z.toNat = x.toNat % y.toNat ∧ gives .remn z) ∧
      (¬(x.toInt = -2 ^ 63 ∧ y.toInt = -1) →
        (∃ z : Word, z.toInt = x.toInt.tdiv y.toInt ∧ gives .divi z) ∧
        (∃ z : Word, z.toInt = x.toInt - x.toInt.tdiv y.toInt * y.toInt ∧ gives .remi z)))

/-- SLOG and SSH (R131): bit by bit; a count of 64 or more gives 0, or 64 sign copies. -/
def Claim.ScalarLogicShift : Prop :=
  ∀ (s : State) (c : Cur) (h : Head) (d a : BitVec 6) (b : SB), cur? s = some c →
    let x := c.g.sreg a.toNat
    let y := Claim.sb c.g b
    let n := y.toNat
    let bits := fun (i : Instr) (f : Nat → Bool) =>
      ∃ z : Word, (∀ k, k < 64 → z.getLsbD k = f k) ∧ Completes i s c fun g' => WritesS c.g g' d.toNat z
    bits (.slog h .and d a b) (fun k => x.getLsbD k && y.getLsbD k) ∧
    bits (.slog h .or d a b) (fun k => x.getLsbD k || y.getLsbD k) ∧
    bits (.slog h .xor d a b) (fun k => x.getLsbD k != y.getLsbD k) ∧
    bits (.slog h .andn d a b) (fun k => x.getLsbD k && !y.getLsbD k) ∧
    bits (.slog h .orn d a b) (fun k => x.getLsbD k || !y.getLsbD k) ∧
    bits (.slog h .xnor d a b) (fun k => x.getLsbD k == y.getLsbD k) ∧
    bits (.ssh h .shl d a b) (fun k => decide (n ≤ k) && x.getLsbD (k - n)) ∧
    bits (.ssh h .shr d a b) (fun k => decide (k + n < 64) && x.getLsbD (k + n)) ∧
    bits (.ssh h .sra d a b) (fun k => x.getLsbD (min 63 (k + n))) ∧
    bits (.ssh h .rol d a b) (fun k => x.getLsbD ((k + (64 - n % 64)) % 64)) ∧
    bits (.ssh h .ror d a b) (fun k => x.getLsbD ((k + n) % 64))

/-- SBIT .bfe and .bfi (R133). -/
def Obligations.ScalarFields : Prop :=
  ∀ (s : State) (c : Cur) (h : Head) (d a : BitVec 6) (w : SBitW), cur? s = some c → w ≠ .none →
    let x := c.g.sreg a.toNat
    let old := c.g.sreg d.toNat
    let f : Nat × Nat := match w with
      | .none => (0, 0)
      | .regs p e => ((c.g.sreg p.toNat).toNat, (c.g.sreg e.toNat).toNat)
      | .imm p n => (p.toNat, n.toNat)
    let bits := fun (i : Instr) (v : Nat → Bool) =>
      ∃ z : Word, (∀ k, k < 64 → z.getLsbD k = v k) ∧ Completes i s c fun g' => WritesS c.g g' d.toNat z
    (f.1 ≥ 64 ∨ f.2 = 0 → bits (.sbit h .bfe d a w) (fun _ => false) ∧ bits (.sbit h .bfi d a w) (fun k => old.getLsbD k)) ∧
    (f.1 < 64 → f.2 ≠ 0 →
      let n := min f.2 (64 - f.1)
      bits (.sbit h .bfe d a w) (fun k => decide (k < n) && x.getLsbD (f.1 + k)) ∧
      bits (.sbit h .bfi d a w) (fun k => if f.1 ≤ k ∧ k < f.1 + n then x.getLsbD (k - f.1) else old.getLsbD k))

/-- SBIT .popc, .clz, .ctz and .brev (R131). -/
def Claim.ScalarCounts : Prop :=
  ∀ (s : State) (c : Cur) (h : Head) (d a : BitVec 6), cur? s = some c →
    let x := c.g.sreg a.toNat
    let gives := fun (f : SBitF) (z : Word) => Completes (.sbit h f d a .none) s c fun g' => WritesS c.g g' d.toNat z
    (∃ z : Word, z.toNat = ((List.range 64).filter (fun k => x.getLsbD k)).length ∧ gives .popc z) ∧
    (∃ z : Word, z.toNat ≤ 64 ∧ (∀ k, 64 - z.toNat ≤ k → k < 64 → x.getLsbD k = false) ∧
      (z.toNat < 64 → x.getLsbD (63 - z.toNat) = true) ∧ gives .clz z) ∧
    (∃ z : Word, z.toNat ≤ 64 ∧ (∀ k, k < z.toNat → x.getLsbD k = false) ∧
      (z.toNat < 64 → x.getLsbD z.toNat = true) ∧ gives .ctz z) ∧
    (∃ z : Word, (∀ k, k < 64 → z.getLsbD k = x.getLsbD (63 - k)) ∧ gives .brev z)

/-- SCMP and QLOG (R131): the relation, signed or natural; q0 keeps reading as true (R30). -/
def Claim.ScalarBooleans : Prop :=
  ∀ (s : State) (c : Cur) (h : Head) (a : BitVec 6) (b : SB) (q m n : BitVec 3), cur? s = some c →
    let x := c.g.sreg a.toNat
    let y := Claim.sb c.g b
    let gives := fun (i : Instr) (z : Prop) => ∀ w : Bool, (w = true ↔ z) → Completes i s c fun g' => WritesQ c.g g' q.toNat w
    gives (.scmp h .eq q a b) (x = y) ∧ gives (.scmp h .ne q a b) (x ≠ y) ∧
    gives (.scmp h .lt q a b) (x.toInt < y.toInt) ∧ gives (.scmp h .le q a b) (x.toInt ≤ y.toInt) ∧
    gives (.scmp h .gt q a b) (x.toInt > y.toInt) ∧ gives (.scmp h .ge q a b) (x.toInt ≥ y.toInt) ∧
    gives (.scmp h .nlt q a b) (x.toNat < y.toNat) ∧ gives (.scmp h .nle q a b) (x.toNat ≤ y.toNat) ∧
    gives (.scmp h .ngt q a b) (x.toNat > y.toNat) ∧ gives (.scmp h .nge q a b) (x.toNat ≥ y.toNat) ∧
    (let u := c.g.bool m.toNat
     let v := c.g.bool n.toNat
     gives (.qlog h .and q m n) (u = true ∧ v = true) ∧ gives (.qlog h .or q m n) (u = true ∨ v = true) ∧
     gives (.qlog h .xor q m n) (u ≠ v) ∧ gives (.qlog h .not q m n) (u = false) ∧ gives (.qlog h .mov q m n) (u = true))

/-- SLOG, SSH, the counts of SBIT, SCMP and QLOG (R131): the claims ScalarLogicShift, ScalarCounts and ScalarBooleans together. -/
def Obligations.ScalarBitsAndBooleans : Prop := Claim.ScalarLogicShift ∧ Claim.ScalarCounts ∧ Claim.ScalarBooleans

/-! ### Vector words -/

/-- Element `e` of a value of a type, and the number it stands for (R86). -/
def Claim.el (t : VType) (x e : Nat) : Nat := x / 2 ^ (VType.ew t * e) % 2 ^ VType.ew t
def Claim.num (t : VType) (x : Nat) : Int :=
  if t = .n32 ∨ x < 2 ^ (VType.ew t - 1) then (x : Int) else (x : Int) - 2 ^ VType.ew t
def Claim.isInt (t : VType) : Prop := t = .i32 ∨ t = .n32 ∨ t = .i16x2 ∨ t = .i8x4

/-- The word completes: vd holds `x` in every active lane, with the tag of its rule from its sources (R351). -/
def Claim.vec (i : Instr) (s : State) (c : Cur) (h : Head) (t : VType) (vd : BitVec 8) (srcs : Nat → List TSrc)
    (x : Nat → Nat) (exc : Nat → Bool) : Prop :=
  CompletesBirth i s c fun g' => WritesV c.g g' (VType.isF64 t) vd.toNat (c.active h) x fun k tag =>
    ∃ n, tag = TagSrc.tag n (tagResult h.rule (srcs k) (exc k) (oldTag c.g (VType.isF64 t) vd.toNat k))

/-- The same for a word whose destination is a p register. -/
def Claim.vecP (i : Instr) (s : State) (c : Cur) (h : Head) (p : BitVec 3) (x : Nat → Bool) : Prop :=
  CompletesBirth i s c fun g' => WritesP c.g g' p.toNat (c.active h) x

/-- VADD and VSUB (R85, R86). -/
def Claim.VectorAdd : Prop :=
  ∀ (s : State) (c : Cur) (h : Head) (t : VType) (vd : BitVec 8) (a : Src) (b : VB), cur? s = some c →
    Claim.isInt t → c.vOk vd.toNat (VType.isF64 t) = true → c.srcOk t a = true → c.vbOk t b = true →
    let gives := Claim.vec (srcs := fun k => [srcOf c.g t a k, vbSrc c.g t b k])
    let x := fun k e => Claim.num t (Claim.el t (readSrc c.g t a k) e)
    let y := fun k e => Claim.num t (Claim.el t (readVB c.g t b k) e)
    let lo : Int := if t = .n32 then 0 else -2 ^ (VType.ew t - 1)
    let hi : Int := if t = .n32 then 2 ^ 32 - 1 else 2 ^ (VType.ew t - 1) - 1
    let wraps := fun (i : Instr) (z : Nat → Nat → Int) => ∃ r, (∀ k e, e < VType.count t →
      (Claim.el t (r k) e : Int) = z k e % 2 ^ VType.ew t) ∧ gives i s c h t vd (x := r) (exc := fun _ => false)
    let clamps := fun (i : Instr) (z : Nat → Nat → Int) => ∃ r exc, (∀ k e, e < VType.count t →
        Claim.num t (Claim.el t (r k) e) = max lo (min hi (z k e))) ∧
      (∀ k, exc k = true ↔ ∃ e, e < VType.count t ∧ ¬(lo ≤ z k e ∧ z k e ≤ hi)) ∧ gives i s c h t vd (x := r) (exc := exc)
    wraps (.vadd h .wrap t vd a b) (fun k e => x k e + y k e) ∧ wraps (.vsub h .wrap t vd a b) (fun k e => x k e - y k e) ∧
    clamps (.vadd h .sat t vd a b) (fun k e => x k e + y k e) ∧ clamps (.vsub h .sat t vd a b) (fun k e => x k e - y k e)

/-- VMUL and VMAD (R86). -/
def Claim.VectorMultiply : Prop :=
  ∀ (s : State) (c : Cur) (h : Head) (t : VType) (vd : BitVec 8) (a : Src) (b : VB) (b' d : Src), cur? s = some c →
    Claim.isInt t → c.vOk vd.toNat (VType.isF64 t) = true → c.srcOk t a = true → c.vbOk t b = true →
    c.srcOk t b' = true → c.srcOk t d = true →
    let gives := Claim.vec (srcs := fun k => [srcOf c.g t a k, vbSrc c.g t b k])
    let x := readSrc c.g t a
    let y := readVB c.g t b
    let n32 := fun (v : Nat) => if v < 2 ^ 31 then (v : Int) else v - 2 ^ 32
    (∃ r, (∀ k e, e < VType.count t → Claim.el t (r k) e = Claim.el t (x k) e * Claim.el t (y k) e % 2 ^ VType.ew t) ∧
      gives (.vmul h .lo t vd a b) s c h t vd (x := r) (exc := fun _ => false)) ∧
    (t = .i32 ∨ t = .n32 →
      (∃ r, (∀ k, (r k : Int) = n32 (x k % 2 ^ 32) * n32 (y k % 2 ^ 32) / 2 ^ 32 % 2 ^ 32) ∧
        gives (.vmul h .hii t vd a b) s c h t vd (x := r) (exc := fun _ => false)) ∧
      (∃ r, (∀ k, r k = x k % 2 ^ 32 * (y k % 2 ^ 32) / 2 ^ 32) ∧
        gives (.vmul h .hin t vd a b) s c h t vd (x := r) (exc := fun _ => false)) ∧
      (Claim.vec (.vmad h t vd a b' d) s c h t vd (fun k => [srcOf c.g t a k, srcOf c.g t b' k, srcOf c.g t d k])
        (fun k => (x k * readSrc c.g t b' k + readSrc c.g t d k) % 2 ^ 32) (fun _ => false)))

/-- VLOG and VSH (R86): all 32 bits; each element shifted by its natural count. -/
def Claim.VectorLogicShift : Prop :=
  ∀ (s : State) (c : Cur) (h : Head) (t : VType) (vd : BitVec 8) (a : Src) (b : VB), cur? s = some c →
    Claim.isInt t → c.vOk vd.toNat (VType.isF64 t) = true → c.srcOk t a = true → c.vbOk t b = true →
    let gives := Claim.vec (srcs := fun k => [srcOf c.g t a k, vbSrc c.g t b k]) (exc := fun _ => false)
    let x := readSrc c.g t a
    let y := readVB c.g t b
    let w := VType.ew t
    let bits := fun (f : LogF) (v : Bool → Bool → Bool) => ∃ r, (∀ k j, j < 32 →
      (r k).testBit j = v ((x k).testBit j) ((y k).testBit j)) ∧ gives (.vlog h f t vd a b) s c h t vd (x := r)
    let els := fun (f : ShF) (v : Nat → (Nat → Bool) → Nat → Bool) => ∃ r, (∀ k e j, e < VType.count t → j < w →
      (Claim.el t (r k) e).testBit j = v (Claim.el t (y k) e) (fun i => (Claim.el t (x k) e).testBit i) j) ∧
      gives (.vsh h f t vd a b) s c h t vd (x := r)
    bits .and (fun p q => p && q) ∧ bits .or (fun p q => p || q) ∧ bits .xor (fun p q => p != q) ∧
    bits .andn (fun p q => p && !q) ∧ bits .orn (fun p q => p || !q) ∧ bits .xnor (fun p q => p == q) ∧
    els .shl (fun n v j => decide (n ≤ j) && v (j - n)) ∧ els .shr (fun n v j => decide (j + n < w) && v (j + n)) ∧
    els .sra (fun n v j => v (min (w - 1) (j + n))) ∧ els .rol (fun n v j => v ((j + (w - n % w)) % w)) ∧
    els .ror (fun n v j => v ((j + n) % w))

/-- VMINMAX and VABS (R86). -/
def Claim.VectorMinMaxAbs : Prop :=
  ∀ (s : State) (c : Cur) (h : Head) (t : VType) (vd : BitVec 8) (a : Src) (b : VB), cur? s = some c →
    Claim.isInt t → c.vOk vd.toNat (VType.isF64 t) = true → c.srcOk t a = true → c.vbOk t b = true →
    let x := fun k e => Claim.num t (Claim.el t (readSrc c.g t a k) e)
    let y := fun k e => Claim.num t (Claim.el t (readVB c.g t b k) e)
    let hi : Int := 2 ^ (VType.ew t - 1) - 1
    let mm := fun (f : MinMaxF) (v : Int → Int → Int) => ∃ r, (∀ k e, e < VType.count t →
        Claim.num t (Claim.el t (r k) e) = v (x k e) (y k e)) ∧
      Claim.vec (.vminmax h f t vd a b) s c h t vd (fun k => [srcOf c.g t a k, vbSrc c.g t b k]) r (fun _ => false)
    mm .min min ∧ mm .max max ∧
    (t ≠ .n32 →
      (∃ r, (∀ k e, e < VType.count t → (Claim.el t (r k) e : Int) = |x k e| % 2 ^ VType.ew t) ∧
        Claim.vec (.vabs h .abs t vd a) s c h t vd (fun k => [srcOf c.g t a k]) r (fun _ => false)) ∧
      (∃ r, (∀ k e, e < VType.count t → (Claim.el t (r k) e : Int) = -x k e % 2 ^ VType.ew t) ∧
        Claim.vec (.vabs h .neg t vd a) s c h t vd (fun k => [srcOf c.g t a k]) r (fun _ => false)) ∧
      (∃ r exc, (∀ k e, e < VType.count t → Claim.num t (Claim.el t (r k) e) = min hi |x k e|) ∧
        (∀ k, exc k = true ↔ ∃ e, e < VType.count t ∧ hi < |x k e|) ∧
        Claim.vec (.vabs h .abssat t vd a) s c h t vd (fun k => [srcOf c.g t a k]) r exc))

/-- VCMP and VSEL (R87), and VMOV (R89). VSEL copies 32 bits whatever its type; that its result is never exceptional, and the
low half of a constant under .f64, are the model's choices (entry 85). -/
def Claim.VectorSelect : Prop :=
  ∀ (s : State) (c : Cur) (h : Head) (t : VType) (vd : BitVec 8) (a b : Src) (y : VB) (p : BitVec 3) (m : VMovF),
    cur? s = some c → c.vbOk t y = true →
    (t = .i32 ∨ t = .n32 → c.srcOk t a = true →
      let u := fun k => Claim.num t (readSrc c.g t a k)
      let v := fun k => Claim.num t (readVB c.g t y k)
      let rel := fun (f : CmpF) (z : Int → Int → Prop) => ∃ r, (∀ k, r k = true ↔ z (u k) (v k)) ∧
        Claim.vecP (.vcmp h f t p a y) s c h p r
      rel .eq (fun x y => x = y) ∧ rel .ne (fun x y => x ≠ y) ∧ rel .lt (fun x y => x < y) ∧ rel .le (fun x y => x ≤ y) ∧
      rel .gt (fun x y => x > y) ∧ rel .ge (fun x y => x ≥ y)) ∧
    (c.vOk vd.toNat false = true → c.srcOk (selType t) a = true → c.srcOk (selType t) b = true →
      let pick := fun k => if (c.g.pred p.toNat).getLsbD k then a else b
      (∀ k, (∀ r, pick k = .v r → readSel c.g t (pick k) k = (c.g.vreg r.toNat k).toNat) ∧
        (∀ r, pick k = .s r → readSel c.g t (pick k) k = (c.g.sreg r.toNat).toNat % 2 ^ 32)) ∧
      Claim.vec (.vsel h t vd a b p) s c h .n32 vd (fun k => [srcOf c.g (selType t) (pick k) k]) (fun k => readSel c.g t (pick k) k)
        (fun _ => false)) ∧
    (c.vOk vd.toNat (VType.isF64 t) = true →
      (c.srcOk t a = true →
        Claim.vec (.vmov h t vd (.reg a)) s c h t vd (fun k => [srcOf c.g t a k]) (fun k => readSrc c.g t a k) (fun _ => false)) ∧
      (∀ x, m = .imm x → ∃ e : Nat → Bool, Claim.vec (.vmov h t vd m) s c h t vd (fun k => [⟨0, e k⟩]) (fun _ => immValue t x) (fun _ => false)) ∧
      (m = .lane → Claim.vec (.vmov h t vd m) s c h t vd (fun _ => [⟨0, false⟩]) (fun k => readSrc c.g t .lane k) (fun _ => false)) ∧
      (∀ r, m = .scalar r → Claim.vec (.vmov h t vd m) s c h t vd (fun k => [srcOf c.g t (.s r) k])
        (fun k => readSrc c.g t (.s r) k) (fun _ => false)))

/-- VMINMAX, VABS, VCMP, VSEL and VMOV (R86, R87, R89): the claims VectorMinMaxAbs and VectorSelect together. -/
def Obligations.VectorSelection : Prop := Claim.VectorMinMaxAbs ∧ Claim.VectorSelect

/-- VBIT, VBFE and VBFI (R86, R88). -/
def Claim.VectorBits : Prop :=
  ∀ (s : State) (c : Cur) (h : Head) (t : VType) (vd : BitVec 8) (a b d : Src), cur? s = some c →
    t = .i32 ∨ t = .n32 → c.vOk vd.toNat false = true → c.srcOk t a = true → c.srcOk t b = true → c.srcOk t d = true →
    let x := readSrc c.g t a
    let pos := readSrc c.g t b
    let len := readSrc c.g t d
    let old := fun k => (c.g.vreg vd.toNat k).toNat
    let one := fun (f : VBitF) (v : Nat → Nat → Prop) => ∃ r, (∀ k, v (x k) (r k)) ∧
      Claim.vec (.vbit h f t vd a) s c h t vd (fun k => [srcOf c.g t a k]) r (fun _ => false)
    one .popc (fun x r => r = ((List.range 32).filter (fun j => x.testBit j)).length) ∧
    one .clz (fun x r => r ≤ 32 ∧ (∀ j, 32 - r ≤ j → j < 32 → x.testBit j = false) ∧ (r < 32 → x.testBit (31 - r) = true)) ∧
    one .ctz (fun x r => r ≤ 32 ∧ (∀ j, j < r → x.testBit j = false) ∧ (r < 32 → x.testBit r = true)) ∧
    one .brev (fun x r => r < 2 ^ 32 ∧ ∀ j, j < 32 → r.testBit j = x.testBit (31 - j)) ∧
    (∃ r, (∀ k, r k < 2 ^ 32 ∧ ∀ j, j < 32 → (r k).testBit j =
        (let n := min (len k) (32 - pos k)
         if pos k ≥ 32 ∨ len k = 0 then false
         else if j < n then (x k).testBit (pos k + j) else decide (t = .i32) && (x k).testBit (pos k + n - 1))) ∧
      Claim.vec (.vbfe h t vd a b d) s c h t vd (fun k => [srcOf c.g t a k, srcOf c.g t b k, srcOf c.g t d k]) r (fun _ => false)) ∧
    (∃ r, (∀ k, r k < 2 ^ 32 ∧ ∀ j, j < 32 → (r k).testBit j =
        (let n := min (len k) (32 - pos k)
         if pos k < 32 ∧ len k ≠ 0 ∧ pos k ≤ j ∧ j < pos k + n then (x k).testBit (j - pos k) else (old k).testBit j)) ∧
      Claim.vec (.vbfi h t vd a b d) s c h t vd
        (fun k => [srcOf c.g t a k, srcOf c.g t b k, srcOf c.g t d k, srcOf c.g t (.v vd) k]) r (fun _ => false))

/-- VLOG, VSH, VBIT, VBFE and VBFI (R86, R88): the claims VectorLogicShift and VectorBits together. -/
def Obligations.VectorBitwise : Prop := Claim.VectorLogicShift ∧ Claim.VectorBits

/-- VDIV (R90): a quotient truncated towards zero and a remainder with the dividend's sign; the two borderline cases. The
result is outstanding in the SFU queue (R80). -/
def Claim.VectorDivision : Prop :=
  ∀ (s : State) (c : Cur) (h : Head) (vd : BitVec 8) (a b : Src), cur? s = some c → resultGate c .sfu = none →
    c.vOk vd.toNat false = true → c.srcOk .i32 a = true → c.srcOk .i32 b = true →
    let x := fun k => BitVec.ofNat 32 (readSrc c.g .i32 a k)
    let y := fun k => BitVec.ofNat 32 (readSrc c.g .i32 b k)
    let edge := fun k => (x k).toInt = -2 ^ 31 ∧ (y k).toInt = -1
    let gives := fun (f : DivF) (v : Nat → BitVec 32 → Prop) (e : Nat → Prop) => ∃ (r : Nat → BitVec 32) (exc : Nat → Bool),
      (∀ k, v k (r k) ∧ (exc k = true ↔ e k)) ∧
      Completes (.vdiv h f vd a b) s c fun g' => Pends s c c.g g' .sfu ((lanesOf (c.active h)).map fun k =>
        RegW.v vd.toNat k (r k) (tagResult h.rule [srcOf c.g .i32 a k, srcOf c.g .i32 b k] (exc k) (c.g.vtag vd.toNat k)))
    gives .divn (fun k r => r.toNat = if y k = 0 then 2 ^ 32 - 1 else (x k).toNat / (y k).toNat) (fun k => y k = 0) ∧
    gives .remn (fun k r => r.toNat = if y k = 0 then (x k).toNat else (x k).toNat % (y k).toNat) (fun k => y k = 0) ∧
    gives .divi (fun k r => r.toInt = if y k = 0 then (if 0 ≤ (x k).toInt then 2 ^ 31 - 1 else -2 ^ 31)
      else min (2 ^ 31 - 1) ((x k).toInt.tdiv (y k).toInt)) (fun k => y k = 0 ∨ edge k) ∧
    gives .remi (fun k r => r.toInt = if y k = 0 then (x k).toInt
      else (x k).toInt - (x k).toInt.tdiv (y k).toInt * (y k).toInt) (fun k => y k = 0 ∨ edge k)

/-- VADD, VSUB, VMUL, VMAD and VDIV (R85, R86, R90): the claims VectorAdd, VectorMultiply and VectorDivision together. -/
def Obligations.VectorArithmetic : Prop := Claim.VectorAdd ∧ Claim.VectorMultiply ∧ Claim.VectorDivision

/-! ### Floating point, conversions, cross-lane words -/

def Claim.isFloat (t : VType) : Prop := t = .f32 ∨ t = .f64 ∨ t = .f16x2 ∨ t = .bf16x2

/-- The draw counters of a set of lanes have risen by one (R102). -/
def Claim.drawn (g : Group) (m : Mask) (b : Bool) : Group :=
  if b then g.modLanes m (fun _ l => { l with draws := l.draws + 1 }) else g

/-- A finite value as a rational number. -/
def Claim.val (v : FV) : ℚ :=
  match v with
  | .fin n m e => (if n then -1 else 1) * m * (2 : ℚ) ^ e
  | _ => 0

/-- No hardware error is about to strike the word, and every element passes its monitor's check (R105). -/
def Claim.unstruck (s : State) (c : Cur) (h : Head) (lane : Nat → MonLane) : Prop :=
  (∀ u ∈ s.upsets, u.matrix = true ∨ u.core ≠ c.t.core ∨ (c.active h).getLsbD u.lane = false) ∧
  ∀ k, (c.active h).getLsbD k = true → badElem (lane k) = none

/-- FADD, FSUB, FMUL and FFMA (R92, R93): every element's exact result rounded once; a draw of each active lane is
spent by stochastic rounding. -/
def Claim.FloatArithmetic : Prop :=
  ∀ (s : State) (c : Cur) (h : Head) (t : VType) (vd : BitVec 8) (a b' d : Src) (b : VB) (m : FMod), cur? s = some c →
    Claim.isFloat t → c.vOk vd.toNat (VType.isF64 t) = true → c.srcOk t a = true → c.vbOk t b = true →
    c.srcOk t b' = true → c.srcOk t d = true →
    let x := readSrc c.g t a
    let gives := fun (i : Instr) (op : FpOp) (ops : Nat → List Nat) (srcs : Nat → List TSrc) =>
      Claim.unstruck s c h (fun k => fpLane s c t m op k (ops k)) →
      let el := fun k e => fpElem (VType.fmt t) (laneRd s c m.rnd m.sat (VType.count t) k e) m.ftz op
        ((ops k).map (fun v => Claim.el t v e))
      ∃ r, (∀ k e, e < VType.count t → Claim.el t (r k) e = (el k e).1 % 2 ^ VType.ew t) ∧
        CompletesBirth i s c fun g' =>
          WritesV (Claim.drawn c.g (c.active h) (m.rnd == .rs)) g' (VType.isF64 t) vd.toNat (c.active h) r fun k tag =>
            ∃ n exc, (exc = true ↔ ∃ e, e < VType.count t ∧ (el k e).2 = true) ∧
              tag = TagSrc.tag n (tagResult h.rule (srcs k) exc (oldTag c.g (VType.isF64 t) vd.toNat k))
    let ab := fun k => [x k, readVB c.g t b k]
    let abc := fun k => [x k, readSrc c.g t b' k, readSrc c.g t d k]
    let sab := fun k => [srcOf c.g t a k, vbSrc c.g t b k]
    let sabc := fun k => [srcOf c.g t a k, srcOf c.g t b' k, srcOf c.g t d k]
    gives (.fadd h t vd a b m) .add ab sab ∧ gives (.fsub h t vd a b m) .sub ab sab ∧ gives (.fmul h t vd a b m) .mul ab sab ∧
    gives (.ffma h .pp t vd a b' d m) (.fma false false) abc sabc ∧ gives (.ffma h .pm t vd a b' d m) (.fma false true) abc sabc ∧
    gives (.ffma h .mp t vd a b' d m) (.fma true false) abc sabc ∧ gives (.ffma h .mm t vd a b' d m) (.fma true true) abc sabc

/-- What an element's exact result is (R92): the first NaN quieted; the default NaN for an invalid operation; and with
numbers the exact sum or product, rounded. -/
def Claim.FloatElement : Prop :=
  ∀ (f : NF) (rd : Rd) (a b : Nat), f = .f32 ∨ f = .f64 ∨ f = .f16 ∨ f = .bf16 →
    let u := decF f a
    let v := decF f b
    (∀ op ∈ [FpOp.add, .sub, .mul], (u.isNan = true → fpElem f rd false op [a, b] = (quietF f a, true)) ∧
      (u.isNan = false → v.isNan = true → fpElem f rd false op [a, b] = (quietF f b, true))) ∧
    (∀ (x : Nat) (p n : Bool), (u.isNan = true → fpElem f rd false (.fma p n) [a, b, x] = (quietF f a, true)) ∧
      (u.isNan = false → v.isNan = true → fpElem f rd false (.fma p n) [a, b, x] = (quietF f b, true)) ∧
      (u.isNan = false → v.isNan = false → (decF f x).isNan = true → fpElem f rd false (.fma p n) [a, b, x] = (quietF f x, true))) ∧
    (∀ n, u = .inf n → v = .inf n → fpElem f rd false .sub [a, b] = (f.nan, true)) ∧
    (∀ n, u = .inf n → v = .inf (!n) → fpElem f rd false .add [a, b] = (f.nan, true)) ∧
    (∀ n x e, u = .inf n → v = .fin x 0 e → fpElem f rd false .mul [a, b] = (f.nan, true)) ∧
    (∀ n x e n' x' e', u = .fin n x e → v = .fin n' x' e' →
      (∃ q, fpExact f rd false .add [a, b] = q ∧ match q with
        | .fin s m k => Claim.val (.fin s m k) = Claim.val u + Claim.val v ∧ m ≠ 0
        | .zero _ => Claim.val u + Claim.val v = 0
        | _ => False) ∧
      (∃ q, fpExact f rd false .mul [a, b] = q ∧ match q with
        | .fin s m k => Claim.val (.fin s m k) = Claim.val u * Claim.val v ∧ m ≠ 0
        | .zero _ => Claim.val u * Claim.val v = 0
        | _ => False))

/-- FADD, FSUB, FMUL and FFMA, and what an element is (R92, R93): the claims FloatArithmetic and FloatElement together. -/
def Obligations.FloatResults : Prop := Claim.FloatArithmetic ∧ Claim.FloatElement

/-- FCMP (R95): the ordered relations of the values, .un for a NaN, the .u forms for either. -/
def Obligations.FloatCompare : Prop :=
  ∀ (s : State) (c : Cur) (h : Head) (t : VType) (p : BitVec 3) (a : Src) (b : VB), cur? s = some c →
    t = .f32 ∨ t = .f64 → c.srcOk t a = true → c.vbOk t b = true →
    let u := fun k => decF (VType.fmt t) (readSrc c.g t a k)
    let v := fun k => decF (VType.fmt t) (readVB c.g t b k)
    let un := fun k => (u k).isNan = true ∨ (v k).isNan = true
    let lt := fun (x y : FV) => match x, y with
      | .inf n, .inf n' => n = true ∧ n' = false
      | .inf n, .fin .. => n = true
      | .fin .., .inf n => n = false
      | .fin .., .fin .. => Claim.val x < Claim.val y
      | _, _ => False
    let rel := fun (f : FCmpF) (z : Nat → Prop) => ∃ r, (∀ k, r k = true ↔ z k) ∧ Claim.vecP (.fcmp h f t p a b) s c h p r
    let ord := fun k => ¬un k
    let l := fun k => lt (u k) (v k)
    let g := fun k => lt (v k) (u k)
    rel .lt (fun k => ord k ∧ l k) ∧ rel .gt (fun k => ord k ∧ g k) ∧ rel .le (fun k => ord k ∧ ¬g k) ∧
    rel .ge (fun k => ord k ∧ ¬l k) ∧ rel .eq (fun k => ord k ∧ ¬l k ∧ ¬g k) ∧ rel .ne (fun k => ord k ∧ (l k ∨ g k)) ∧
    rel .un un ∧ rel .ult (fun k => un k ∨ l k) ∧ rel .ugt (fun k => un k ∨ g k) ∧ rel .ule (fun k => un k ∨ ¬g k) ∧
    rel .uge (fun k => un k ∨ ¬l k) ∧ rel .ueq (fun k => un k ∨ (¬l k ∧ ¬g k)) ∧ rel .une (fun k => un k ∨ l k ∨ g k)

/-- FMINMAX (R94) and FCLS (R96). -/
def Obligations.FloatMinMaxClass : Prop :=
  ∀ (s : State) (c : Cur) (h : Head) (t : VType) (vd : BitVec 8) (p : BitVec 3) (a : Src) (b : VB) (mask : BitVec 10),
    cur? s = some c → Claim.isFloat t → c.srcOk t a = true → c.vbOk t b = true →
    let f := VType.fmt t
    let x := fun k e => Claim.el t (readSrc c.g t a k) e
    let y := fun k e => Claim.el t (readVB c.g t b k) e
    let nan := fun z => (decF f z).isNan = true
    (c.vOk vd.toNat (VType.isF64 t) = true →
      let gives := fun (op : FMinMaxF) (z : Nat → Nat → Nat → Prop) => ∃ r exc,
        (∀ k, r k < 2 ^ (VType.ew t * VType.count t)) ∧ (∀ k e, e < VType.count t → z k e (Claim.el t (r k) e)) ∧
        (∀ k, exc k = true ↔ ∃ e, e < VType.count t ∧ (decF f (Claim.el t (r k) e)).special = true) ∧
        Claim.vec (.fminmax h op t vd a b) s c h t vd (fun k => [srcOf c.g t a k, vbSrc c.g t b k]) r exc
      let first := fun k e => if nan (x k e) then quietF f (x k e) else quietF f (y k e)
      gives .min (fun k e z => (nan (x k e) ∨ nan (y k e) → z = first k e) ∧
        (¬nan (x k e) → ¬nan (y k e) → (z = x k e ∨ z = y k e) ∧ belowF f (x k e) z = false ∧ belowF f (y k e) z = false)) ∧
      gives .max (fun k e z => (nan (x k e) ∨ nan (y k e) → z = first k e) ∧
        (¬nan (x k e) → ¬nan (y k e) → (z = x k e ∨ z = y k e) ∧ belowF f z (x k e) = false ∧ belowF f z (y k e) = false)) ∧
      gives .minnum (fun k e z => (nan (x k e) → nan (y k e) → z = first k e) ∧ (nan (x k e) → ¬nan (y k e) → z = y k e) ∧
        (¬nan (x k e) → nan (y k e) → z = x k e) ∧
        (¬nan (x k e) → ¬nan (y k e) → (z = x k e ∨ z = y k e) ∧ belowF f (x k e) z = false ∧ belowF f (y k e) z = false)) ∧
      gives .maxnum (fun k e z => (nan (x k e) → nan (y k e) → z = first k e) ∧ (nan (x k e) → ¬nan (y k e) → z = y k e) ∧
        (¬nan (x k e) → nan (y k e) → z = x k e) ∧
        (¬nan (x k e) → ¬nan (y k e) → (z = x k e ∨ z = y k e) ∧ belowF f z (x k e) = false ∧ belowF f z (y k e) = false)) ∧
      gives .maxabs (fun k e z => (nan (x k e) ∨ nan (y k e) → z = first k e) ∧
        (¬nan (x k e) → ¬nan (y k e) → z < 2 ^ (VType.ew t - 1) ∧
          belowF f z (x k e % 2 ^ (VType.ew t - 1)) = false ∧ belowF f z (y k e % 2 ^ (VType.ew t - 1)) = false))) ∧
    (t = .f32 ∨ t = .f64 → ∃ r, (∀ k, r k = true ↔ ∃ i, i < 10 ∧ mask.getLsbD i = true ∧
        match decF f (readSrc c.g t a k) with
        | .nan _ q => i = if 2 ^ (f.fb - 1) ≤ q then 1 else 0
        | .inf n => i = if n then 2 else 9
        | .fin n m _ => if m = 0 then i = (if n then 5 else 6) else if m < 2 ^ f.fb then i = (if n then 4 else 7)
          else i = (if n then 3 else 8)) ∧
      Claim.vecP (.fcls h t p a mask) s c h p r)

/-- FDOT (R98, R99): the exact sum of the products and the addend, rounded once; a NaN of an operand, and an invalid
product or sum, give 0x7FC00000. -/
def Claim.DotProduct : Prop :=
  (∀ (s : State) (c : Cur) (h : Head) (f : FDotF) (vd : BitVec 8) (a b d : Src) (m : FMod), cur? s = some c →
    c.vOk vd.toNat false = true → c.srcOk .i32 a = true → c.srcOk .i32 b = true → c.srcOk .f32 d = true →
    Claim.unstruck s c h (dotLane s c f m a b d) →
    let el := fun k => dotElem (FDotF.fmt f) (laneRd s c m.rnd m.sat 1 k 0) m.ftz (dotElems f (readSrc c.g (FDotF.type f) a k))
      (dotElems f (readSrc c.g (FDotF.type f) b k)) (readSrc c.g .f32 d k)
    CompletesBirth (.fdot h f vd a b d m) s c fun g' =>
      WritesV (Claim.drawn c.g (c.active h) (m.rnd == .rs)) g' false vd.toNat (c.active h) (fun k => (el k).1) fun k tag =>
        ∃ n, tag = TagSrc.tag n (tagResult h.rule (dotSrcs c f a b d k) (el k).2 (c.g.vtag vd.toNat k))) ∧
  (∀ (ef : NF) (rd : Rd) (x y : List Nat) (z : Nat),
    (∃ v ∈ x ++ y, (decF ef v).isNan = true) ∨ (decF .f32 z).isNan = true → (dotElem ef rd false x y z).1 = 0x7FC00000)

/-- SFU (R100): the function's value, through the SFU queue; the special cases of .rcp, .rsq, .sqrt, .exp2 and .log2. -/
def Claim.SpecialFunctions : Prop :=
  (∀ (s : State) (c : Cur) (h : Head) (f : SfuF) (vd : BitVec 8) (a b : Src) (ftz : Bool), cur? s = some c →
    resultGate c .sfu = none → c.vOk vd.toNat false = true → c.srcOk .f32 a = true → (f = .div → c.srcOk .f32 b = true) →
    let el := fun k => sfuElem f ftz (readSrc c.g .f32 a k) (readSrc c.g .f32 b k)
    let srcs := fun k => srcOf c.g .f32 a k :: (if f = .div then [srcOf c.g .f32 b k] else [])
    Completes (.sfu h f vd a b ftz) s c fun g' => Pends s c c.g g' .sfu ((lanesOf (c.active h)).map fun k =>
      RegW.v vd.toNat k (BitVec.ofNat 32 (el k).1) (tagResult h.rule (srcs k) (el k).2 (c.g.vtag vd.toNat k)))) ∧
  (∀ b, (sfuElem .rcp false 0 b).1 = 0x7F800000 ∧ (sfuElem .rcp false 0x80000000 b).1 = 0xFF800000 ∧
    (sfuElem .rcp false 0xFF800000 b).1 = 0x80000000 ∧ (sfuElem .rsq false 0x80000000 b).1 = 0xFF800000 ∧
    (sfuElem .rsq false 0xBF800000 b).1 = 0x7FC00000 ∧ (sfuElem .sqrt false 0x80000000 b).1 = 0x80000000 ∧
    (sfuElem .sqrt false 0xBF800000 b).1 = 0x7FC00000 ∧ (sfuElem .exp2 false 0xFF800000 b).1 = 0 ∧
    (sfuElem .exp2 false 0x80000000 b).1 = 0x3F800000 ∧ (sfuElem .log2 false 0x80000000 b).1 = 0xFF800000)

/-- FDOT and SFU (R98, R99, R100): the claims DotProduct and SpecialFunctions together. -/
def Obligations.DotProductAndFunctions : Prop := Claim.DotProduct ∧ Claim.SpecialFunctions

/-- RNG (R102 to R104): the draw of each active lane, whose counter rises by one; .unif is (draw >> 8) × 2^-24. -/
def Obligations.RandomNumbers : Prop :=
  (∀ (s : State) (c : Cur) (h : Head) (vd : BitVec 8), cur? s = some c → c.vOk vd.toNat false = true →
    let gives := fun (f : RngF) (z : Nat → Nat) => CompletesBirth (.rng h f vd) s c fun g' =>
      WritesV (Claim.drawn c.g (c.active h) true) g' false vd.toNat (c.active h) z fun k tag =>
        ∃ n, tag = TagSrc.tag n (tagResult h.rule [] false (c.g.vtag vd.toNat k))
    gives .raw (fun k => drawFor s c k) ∧
    ∃ z, (∀ k, (decF .f32 (z k)).special = false ∧ Claim.val (decF .f32 (z k)) = (drawFor s c k / 2 ^ 8 : Nat) / (2 : ℚ) ^ 24) ∧
      gives .unif z) ∧
  (∀ (s : State) (c : Cur) (k : Nat) (l : Lane) (e : Entry), ctxEntry s c.t.ctx = some e → c.g.lanes[k]? = some l →
    drawFor s c k = (drawOf (e.record.extractLsb' 128 64) (BitVec.ofNat 32 c.t.idx ++ BitVec.ofNat 32 (c.g.grp * c.l.kernel.width + k)) l.draws).toNat) ∧
  (∀ (k w c : Word),
    let m1 : Word := BitVec.ofNat 64 0x9F1B6C3D5A27E4C5
    let m2 : Word := BitVec.ofNat 64 0xB5E31D974C68A2F1
    let f1 := fun (x : Word) => (x ^^^ (x >>> 29)) * m1
    let f2 := fun (x : Word) => (x ^^^ (x >>> 32)) * m2
    let x := f2 (f1 (f2 (f1 (f2 (f1 (k ^^^ (w * m1) ^^^ (c * m2)))))))
    let y := x ^^^ (x >>> 31)
    drawOf k w c = y.extractLsb' 32 32 ^^^ y.extractLsb' 0 32)

/-- CVT, CVTX and FSCL (R120, R123, R124): each result waits in the conversion queue (R81); stochastic rounding takes a
draw of each active lane (R102, R116). -/
def Claim.Conversions : Prop :=
  ∀ (s : State) (c : Cur) (h : Head) (dst src vd : BitVec 8) (a b : Src) (m : FMod) (t : VType) (f8 : BitVec 3),
    cur? s = some c → resultGate c .cvt = none →
    let gives := fun (i : Instr) (draws pair : Bool) (x : Nat → Nat) (tag : Nat → TagSrc) =>
      Completes i s c fun g' => Pends s c (Claim.drawn c.g (c.active h) draws) g' .cvt ((lanesOf (c.active h)).flatMap fun k =>
        RegW.v vd.toNat k (BitVec.ofNat 32 (x k)) (tag k) ::
          (if pair then [RegW.v (vd.toNat + 1) k (BitVec.ofNat 32 (x k / 2 ^ 32)) (tag k)] else []))
    let rd := fun k => laneRd s c m.rnd m.sat 1 k 0
    let rs := m.rnd == .rs
    let wide := fmtWidth dst == 64
    (c.vOk vd.toNat wide = true → c.fmtOk src a = true →
      let r := fun k => convertF (fmtOf src) (fmtOf dst) (rd k) m.ftz (readFmt c.g src a k)
      gives (.cvt h dst vd a src m) rs wide (fun k => placeF (fmtOf dst) (r k).1)
        (fun k => tagResult h.rule [fmtSrc c.g src a k] (r k).2 (oldTag c.g wide vd.toNat k))) ∧
    (c.vOk vd.toNat wide = true → c.srcOk .i32 a = true → c.srcOk .n32 b = true →
      let w := fmtWidth src
      let x := fun k => readSrc c.g (fmtType src) a k / 2 ^ (w * (readSrc c.g .n32 b k % (32 / w))) % 2 ^ w
      let r := fun k => convertF (fmtOf src) (fmtOf dst) (rd k) m.ftz (x k)
      let st := fun k => srcTag c.g .i32 a k
      gives (.cvtx h dst vd a b src m) rs wide (fun k => placeF (fmtOf dst) (r k).1)
        (fun k => tagResult h.rule [⟨st k, (st k).msb || (fmtFloat src && specialF (fmtOf src) (x k))⟩] (r k).2
          (oldTag c.g wide vd.toNat k))) ∧
    (c.vOk vd.toNat false = true → c.srcOk .f32 a = true →
      let r := fun k => scaleComp (fmt8 f8) (readSrc c.g .f32 a k)
      gives (.fscl h (.comp f8) vd a) false false (fun k => (r k).1)
        (fun k => tagResult h.rule [srcOf c.g .f32 a k] (r k).2 (c.g.vtag vd.toNat k))) ∧
    (t = .f32 ∨ t = .f16x2 ∨ t = .bf16x2 → c.vOk vd.toNat false = true → c.srcOk t a = true → c.srcOk t b = true →
      let el := fun k e => scaleElem (VType.fmt t) (laneRd s c m.rnd m.sat (VType.count t) k e) (Claim.el t (readSrc c.g t a k) e)
        (readSrc c.g t b k)
      ∃ (r : Nat → Nat) (exc : Nat → Bool), (∀ k e, e < VType.count t → Claim.el t (r k) e = (el k e).1 % 2 ^ VType.ew t) ∧
        (∀ k, exc k = true ↔ ∃ e, e < VType.count t ∧ (el k e).2 = true) ∧
        gives (.fscl h (.apply t b m) vd a) rs false r (fun k => tagResult h.rule
          [srcOf c.g t a k, ⟨srcTag c.g t b k, (srcTag c.g t b k).msb⟩] (exc k) (c.g.vtag vd.toNat k)))

/-- CVTP (R121, R122): two converted codes packed into the half or the whole of vd; the other half is kept. -/
def Claim.PackedConversion : Prop :=
  ∀ (s : State) (c : Cur) (h : Head) (dst src vd : BitVec 8) (a b : Src) (rnd : Rnd) (hi sat : Bool),
    cur? s = some c → resultGate c .cvt = none → c.vOk vd.toNat false = true → c.fmtOk src a = true →
    c.fmtOk src b = true → (fmtOf dst).w = 8 ∨ (fmtOf dst).w = 16 →
    let w := (fmtOf dst).w
    let z := fun (o : Src) (e k : Nat) =>
      (convertF (fmtOf src) (fmtOf dst) (laneRd s c rnd sat 2 k e) false (readFmt c.g src o k)).1 % 2 ^ w
    let at_ := if w = 8 ∧ hi = true then 2 else 0
    let old := fun k => (c.g.vreg vd.toNat k).toNat
    ∃ (r : Nat → Nat) (tg : Nat → TagSrc),
      (∀ k, r k < 2 ^ 32 ∧ r k / 2 ^ (w * at_) % 2 ^ w = z a 0 k ∧ r k / 2 ^ (w * (at_ + 1)) % 2 ^ w = z b 1 k ∧
        (w = 8 → r k / 2 ^ (if hi then 0 else 16) % 2 ^ 16 = old k / 2 ^ (if hi then 0 else 16) % 2 ^ 16)) ∧
      Completes (.cvtp h dst vd a b src rnd hi sat) s c fun g' => Pends s c (Claim.drawn c.g (c.active h) (rnd == .rs)) g' .cvt ((lanesOf (c.active h)).map fun k =>
        RegW.v vd.toNat k (BitVec.ofNat 32 (r k)) (tg k))

/-- CVT, CVTX, FSCL and CVTP (R120 to R124): the claims Conversions and PackedConversion together. -/
def Obligations.ConversionResults : Prop := Claim.Conversions ∧ Claim.PackedConversion

/-- VBAL, VMATCH and VVOTE (R177 to R180): masks and counts over the contributing lanes. -/
def Claim.Ballots : Prop :=
  ∀ (s : State) (c : Cur) (h : Head) (vd : BitVec 8) (a b : Src) (p : BitVec 3), cur? s = some c → c.srcOk .n32 a = true →
    let on := fun k => (c.active h).getLsbD k
    let pair := c.width == 64
    (maskDestOk c vd = true → c.srcOk .n32 b = true →
      (∃ r, (∀ L K, K < 64 → (r L).testBit K =
          (on K && (readSrc c.g .n32 a K).testBit (readSrc c.g .n32 b L % 32))) ∧
        CompletesBirth (.vbal h vd a b) s c fun g' => WritesV c.g g' pair vd.toNat (c.active h) r fun k tag =>
          ∃ n, tag = TagSrc.tag n (tagResult h.rule ((lanesOf (c.active h)).map (srcOf c.g .n32 a)) false
            (oldTag c.g pair vd.toNat k))) ∧
      (∃ r, (∀ L K, K < 64 → (r L).testBit K = (on K && decide (readSrc c.g .n32 a K = readSrc c.g .n32 a L))) ∧
        CompletesBirth (.vmatch h vd a) s c fun g' => WritesV c.g g' pair vd.toNat (c.active h) r fun k tag =>
          ∃ n, tag = TagSrc.tag n (tagResult h.rule [srcOf c.g .n32 a k] false (oldTag c.g pair vd.toNat k)))) ∧
    (let yes := (List.range 64).filter (fun k => on k && (c.g.pred p.toNat).getLsbD k)
     let all := (List.range 64).filter on
     CompletesBirth (.vvote h .any vd p) s c (fun g' => WritesQ c.g g' (vd.toNat % 8) (decide (0 < yes.length))) ∧
     CompletesBirth (.vvote h .all vd p) s c (fun g' => WritesQ c.g g' (vd.toNat % 8) (decide (yes.length = all.length))) ∧
     (c.vOk vd.toNat false = true →
       Claim.vec (.vvote h .count vd p) s c h .n32 vd (fun _ => []) (fun _ => yes.length) (fun _ => false)))

/-- VSHFL, VXCH and VLANE (R181 to R183): a value moved from one lane to another, whatever the read lane's state. -/
def Claim.Shuffles : Prop :=
  ∀ (s : State) (c : Cur) (h : Head) (t : VType) (vd : BitVec 8) (a b x : Src), cur? s = some c →
    (c.vOk vd.toNat (VType.isF64 t) = true → c.srcOk t a = true → c.srcOk .n32 b = true →
      let moves := fun (f : ShflF) (go : Int → Int → Int) => ∃ S : Nat → Nat,
        (∀ L : Nat, let k := go L (readSrc c.g .n32 b L)
          (0 ≤ k ∧ k < c.width → (S L : Int) = k) ∧ (¬(0 ≤ k ∧ k < c.width) → S L = L)) ∧
        Claim.vec (.vshfl h f t vd a b) s c h t vd (fun L => [srcOf c.g t a (S L)]) (fun L => readSrc c.g t a (S L))
          (fun L => (srcOf c.g t a (S L)).exc)
      moves .idx (fun _ n => n) ∧ moves .up (fun L n => L - n) ∧ moves .down (fun L n => L + n) ∧
      moves .xor (fun L n => ((L.toNat ^^^ n.toNat : Nat) : Int))) ∧
    (c.vOk vd.toNat false = true → c.srcOk .n32 a = true → c.srcOk .n32 b = true →
      let j := readSrc c.g .n32 x 0
      let A := readSrc c.g .n32 a
      let M := readSrc c.g .n32 b
      let far := fun L => ¬(j = 1 ∨ j = 2 ∨ j = 4 ∨ j = 8 ∨ j = 16) ∨ c.width ≤ L ^^^ j
      ∃ r srcs, (∀ L, (far L → r L = A L) ∧ (¬far L → ∀ i, i < 32 → (r L).testBit i =
          if L &&& j = 0 then ((A L).testBit i && (M L).testBit i) || (decide (j ≤ i) && (A (L ^^^ j)).testBit (i - j) && (M L).testBit (i - j))
          else ((A L).testBit i && !(M L).testBit i) || ((A (L ^^^ j)).testBit (i + j) && (M L).testBit i))) ∧
        Claim.vec (.vxch h vd a b x) s c h .n32 vd srcs r (fun _ => false)) ∧
    (let n := readSrc c.g .n32 b 0
     (c.vOk vd.toNat (VType.isF64 t) = true →
       CompletesBirth (.vlane h .ins t vd a b) s c fun g' =>
         WritesV c.g g' (VType.isF64 t) vd.toNat (if n < c.width then c.active h &&& BitVec.twoPow 64 n else 0)
           (fun _ => readSrc c.g t a n) fun _ tag => ∃ i, tag = TagSrc.tag i (tagResult h.rule [srcOf c.g t a n]
             (srcOf c.g t a n).exc (oldTag c.g (VType.isF64 t) vd.toNat n))) ∧
     (c.srcOk .n32 a = true →
       let z := if n < c.width then readSrc c.g .n32 a n else 0
       CompletesBirth (.vlane h .ext .i32 vd a b) s c (fun g' => WritesS c.g g' (vd.toNat % 64) ((BitVec.ofNat 32 z).signExtend 64)) ∧
       CompletesBirth (.vlane h .ext .n32 vd a b) s c (fun g' => WritesS c.g g' (vd.toNat % 64) (BitVec.ofNat 64 z))))

/-- VREDUCE and VSCAN (R184 to R186): over the contributing lanes, and over those up to a lane. -/
def Claim.Reductions : Prop :=
  ∀ (s : State) (c : Cur) (h : Head) (t : VType) (vd : BitVec 8) (a : Src) (m : FMod) (sat : Bool), cur? s = some c →
    t = .i32 ∨ t = .n32 → c.vOk vd.toNat false = true → c.srcOk t a = true →
    let act := lanesOf (c.active h)
    let u := fun k => Claim.num t (readSrc c.g t a k)
    let lo : Int := if t = .n32 then 0 else -2 ^ 31
    let hi : Int := if t = .n32 then 2 ^ 32 - 1 else 2 ^ 31 - 1
    let fits := fun (b : Bool) (x : Int) (z : Nat) (e : Bool) =>
      if b then Claim.num t z = max lo (min hi x) ∧ z < 2 ^ 32 ∧ (e = true ↔ ¬(lo ≤ x ∧ x ≤ hi))
      else (z : Int) = x % 2 ^ 32 ∧ e = false
    let red := fun (f : RedF) (P : Nat → Bool → Prop) => act ≠ [] → ∃ z e, P z e ∧
      Claim.vec (.vreduce h f t vd a m) s c h t vd (fun _ => act.map (srcOf c.g t a)) (fun _ => z) (fun _ => e)
    red .addi (fits m.sat (act.map u).sum) ∧
    red .min (fun z e => e = false ∧ (∃ k ∈ act, z = readSrc c.g t a k) ∧ ∀ k ∈ act, Claim.num t z ≤ u k) ∧
    red .max (fun z e => e = false ∧ (∃ k ∈ act, z = readSrc c.g t a k) ∧ ∀ k ∈ act, u k ≤ Claim.num t z) ∧
    red .and (fun z e => e = false ∧ ∀ i, i < 32 → (z.testBit i = true ↔ ∀ k ∈ act, (readSrc c.g t a k).testBit i = true)) ∧
    red .or (fun z e => e = false ∧ ∀ i, (z.testBit i = true ↔ ∃ k ∈ act, (readSrc c.g t a k).testBit i = true)) ∧
    red .xor (fun z e => e = false ∧ ∀ i, z.testBit i = decide ((act.filter (fun k => (readSrc c.g t a k).testBit i)).length % 2 = 1)) ∧
    (let upTo := fun (f : ScanF) (below : Nat → Nat → Bool) (b : Bool) => ∃ (z : Nat → Nat) (e : Nat → Bool),
        (∀ k, fits b ((act.filter (below k)).map u).sum (z k) (e k)) ∧
        Claim.vec (.vscan h f t vd a b) s c h t vd (fun k => (act.filter (below k)).map (srcOf c.g t a)) z e
     upTo .iadd (fun k i => decide (i ≤ k)) sat ∧ upTo .eadd (fun k i => decide (i < k)) sat ∧
     ∃ z : Nat → Nat, (∀ k ∈ act, (∃ i ∈ act, i ≤ k ∧ z k = readSrc c.g t a i) ∧ ∀ i ∈ act, i ≤ k → u i ≤ Claim.num t (z k)) ∧
       Claim.vec (.vscan h .imax t vd a sat) s c h t vd (fun k => (act.filter (fun i => decide (i ≤ k))).map (srcOf c.g t a)) z (fun _ => false))

/-- VBAL, VMATCH, VVOTE, VSHFL, VXCH, VLANE, VREDUCE and VSCAN (R177 to R186): the claims Ballots, Shuffles and Reductions together. -/
def Obligations.LaneExchange : Prop := Claim.Ballots ∧ Claim.Shuffles ∧ Claim.Reductions

/-! ### Control flow -/

/-- The word completes from a state `s1` that its checks, its releases or its loads have reached. -/
def Claim.from (i : Instr) (s s1 : State) (c : Cur) (P : Group → Prop) : Prop :=
  ∃ t g', exec i s = .next t ∧ OnlyGroup s1 t c.ref ∧ t.group? c.ref = some g' ∧ P g'

/-- Some lane of `m` is governed by the innermost loop, and `a` lies outside that loop's body. -/
def Claim.escapes (c : Cur) (m : Nat → Prop) (a : Nat → Word) : Prop :=
  ∃ e rest i l, c.g.loops = e :: rest ∧ i < 64 ∧ m i ∧ c.g.lanes[i]? = some l ∧ l.depth = e.depth ∧
    ((a i).toNat < (textWord c.l.kernel e.start).toNat ∨ (textWord c.l.kernel e.stop).toNat < (a i).toNat)

/-- BRA (R138, R150): every lane of X takes the target or the next header; a branch out of loop bodies pops them when
every live lane goes, and faults otherwise. -/
def Claim.UniformBranches : Prop :=
  ∀ (s : State) (c : Cur) (h : Head) (q : BitVec 3) (n : Bool) (off : BitVec 32), cur? s = some c → Standing c → c.n.last = true →
    let k := c.l.kernel
    let a := c.n.hdr + (off.signExtend 64) * 8
    let out := fun e : LoopEntry => a.toNat < (textWord k e.start).toNat ∨ (textWord k e.stop).toNat < a.toNat
    let esc := Claim.escapes c (fun i => c.n.x.getLsbD i = true) (fun _ => a)
    let all := c.n.x = c.g.live ∧ ∀ e rest, c.g.loops = e :: rest →
      ∀ i l, i < 64 → c.n.x.getLsbD i = true → c.g.lanes[i]? = some l → l.depth = e.depth
    let either := fun (P : Instr → Prop) => P (.braAlways h off) ∧ (c.g.bool q.toNat ≠ n → P (.braCond h q n off))
    (c.g.bool q.toNat = n → Completes (.braCond h q n off) s c (Leaves c h c.g.loops fun _ => Takes k c.g.loops (nextHeader c.n))) ∧
    (¬esc → either fun i => Completes i s c (Leaves c h c.g.loops fun _ => Takes k c.g.loops a)) ∧
    (esc → all → either fun i => ∃ gone rest, c.g.loops = gone ++ rest ∧ (∀ e ∈ gone, out e ∧ some e.depth = (c.g.loops.head?).map (·.depth)) ∧
      (∀ e r, rest = e :: r → ¬(out e ∧ some e.depth = (c.g.loops.head?).map (·.depth))) ∧
      Completes i s c (Leaves c h rest fun _ => Takes k rest a)) ∧
    (esc → ¬all → either fun i => Faults i s c .loopEscape)

/-- BRV and JMPV (R138, R139, R150): each active lane takes its target; the others take the next header. -/
def Claim.LaneBranches : Prop :=
  ∀ (s : State) (c : Cur) (h : Head) (p : BitVec 3) (n : Bool) (off : BitVec 32) (v : BitVec 8), cur? s = some c → Standing c →
    c.n.last = true →
    let k := c.l.kernel
    let a := c.n.hdr + (off.signExtend 64) * 8
    let on := fun i => (c.active h).getLsbD i = true
    let taken := fun i => on i ∧ (c.g.pred p.toNat).getLsbD i ≠ n
    let t := fun i => (c.g.vreg v.toNat i).toNat
    let far := fun i => k.twords ≤ t i
    (Claim.escapes c taken (fun _ => a) → Faults (.brv h p n off) s c .loopEscape) ∧
    (¬Claim.escapes c taken (fun _ => a) → Completes (.brv h p n off) s c (Leaves c h c.g.loops fun i l l' =>
      (taken i → Takes k c.g.loops a l l') ∧ (¬taken i → Takes k c.g.loops (nextHeader c.n) l l'))) ∧
    (c.vOk v.toNat false = false → Faults (.jmpv h v) s c .illegalOperand) ∧
    (c.vOk v.toNat false = true →
      let escapes := Claim.escapes c (fun i => on i ∧ ¬far i) (fun i => textWord k (t i))
      let goes := fun i l l' => (on i → Takes k c.g.loops (textWord k (t i)) l l') ∧ (¬on i → Takes k c.g.loops (nextHeader c.n) l l')
      (escapes → Faults (.jmpv h v) s c .loopEscape) ∧
      (¬escapes → (∀ i, i < 64 → on i → ¬far i) → Completes (.jmpv h v) s c (Leaves c h c.g.loops goes)) ∧
      (¬escapes → (∃ i, i < 64 ∧ on i ∧ far i) → ∃ go, exec (.jmpv h v) s = .next (raiseTrapsGo go s c 0 c.n.pc 0 0 (0, 0, 0)
          (((List.range 64).filter (fun i => (c.active h).getLsbD i && decide (k.twords ≤ t i))).map fun i =>
            ⟨i, .badTarget, c.g.vtag v.toNat i, textWord k (t i)⟩)) ∧
        ∀ i l, ¬far i → goes i l (go i l)))

/-- BRA, BRV and JMPV (R138, R139, R150): the claims UniformBranches and LaneBranches together. -/
def Obligations.Branches : Prop := Claim.UniformBranches ∧ Claim.LaneBranches

/-- CALL and CALLV (R141): the next header is pushed and the target taken; a depth beyond the maximum faults, and no
lane calls. A lane whose four on-chip entries are full is the spill's statement. -/
def Claim.Calls : Prop :=
  ∀ (s : State) (c : Cur) (h : Head) (off : BitVec 32) (v : BitVec 8), cur? s = some c → Standing c → c.n.last = true →
    let k := c.l.kernel
    let a := c.n.hdr + (off.signExtend 64) * 8
    let act := fun i => (c.active h).getLsbD i = true
    let t := fun i => (c.g.vreg v.toNat i).toNat
    let calls := fun (i : Instr) (on : Nat → Prop) (a : Nat → Word) =>
      ((∃ i l, i < 64 ∧ on i ∧ c.g.lanes[i]? = some l ∧ k.maxDepth < l.depth + 1) → Faults i s c .callOverflow) ∧
      ((∀ i l, i < 64 → on i → c.g.lanes[i]? = some l → l.depth + 1 ≤ k.maxDepth ∧ l.calls.length < 4) →
        Completes i s c (Leaves c h c.g.loops fun i l l' =>
          (on i → Takes k c.g.loops (a i) { l with calls := nextHeader c.n :: l.calls } l') ∧
          (¬on i → Takes k c.g.loops (nextHeader c.n) l l')))
    calls (.call h off) (fun i => c.n.x.getLsbD i = true) (fun _ => a) ∧
    (c.vOk v.toNat false = true → (∀ i, i < 64 → act i → t i < k.twords) → calls (.callv h v) act (fun i => textWord k (t i))) ∧
    (c.vOk v.toNat false = true → (∃ i, i < 64 ∧ act i ∧ k.twords ≤ t i) →
      (∀ i l, i < 64 → act i → t i < k.twords → c.g.lanes[i]? = some l → l.depth + 1 ≤ k.maxDepth ∧ l.calls.length < 4) →
      ∃ go, exec (.callv h v) s = .next (raiseTrapsGo go s c 0 c.n.pc 0 0 (0, 0, 0)
          (((List.range 64).filter (fun i => (c.active h).getLsbD i && decide (k.twords ≤ t i))).map fun i =>
            ⟨i, .badTarget, c.g.vtag v.toNat i, textWord k (t i)⟩)) ∧
        ∀ i l, i < 64 → t i < k.twords →
          (act i → Takes k c.g.loops (textWord k (t i)) { l with calls := (nextHeader c.n :: l.calls).take 4, spilled := (go i l).spilled } (go i l)) ∧
          (¬act i → Takes k c.g.loops (nextHeader c.n) l (go i l))) ∧
    (c.vOk v.toNat false = false → Faults (.callv h v) s c .illegalOperand)

/-- CALL of a lane whose four on-chip entries are full (R140): the oldest is stored, 8 bytes with tag 0, at the region of
the lane, and the entry count on chip stays four. -/
def Claim.CallSpills : Prop :=
  ∀ (s s' : State) (c : Cur) (h : Head) (off : BitVec 32) (l : Lane) (e0 e1 e2 e3 : Word) (p : Put) (i : Nat), cur? s = some c → Standing c →
    c.n.last = true → i < 64 → c.n.x = BitVec.twoPow 64 i → c.g.lanes[i]? = some l → l.calls = [e0, e1, e2, e3] →
    l.depth + 1 ≤ c.l.kernel.maxDepth →
    let va := callPlace s c.t c.l.kernel c.g.grp i l.spilled
    va = BitVec.ofNat 64 (segBase s c.t + c.l.kernel.sectionAt 8 + (c.g.grp * c.l.kernel.width + i) * c.l.kernel.callspill + 8 * l.spilled) ∧
    (storeFor s c.who va 8 .write c.t.id (.lanes c.ref (maskOf [i])) [] = (p, s') →
      (p = .mem none ∨ (∃ x, p = .mem (some x) ∧ x.peer = false) ∨ ∃ loc, p = .window loc) → c.l.kernel.trapstore = false →
      let w := { laneWrite s'.seqN c.ref i c.t.slot (putVa p va.toNat) 8 e3.toNat [(0, 0), (4, 0)] with spill := true }
      let held := s'.modTeam c.t.id (fun u => { u with uncommitted := u.uncommitted.filterMap (cutWrite w) })
      Claim.from (.call h off) s held c (Leaves { c with g := { c.g with storeQ := c.g.storeQ ++ [w], callSpills := c.g.callSpills + 1 } } h c.g.loops
          (fun _ l l' => Takes c.l.kernel c.g.loops (c.n.hdr + (off.signExtend 64) * 8)
            { l with calls := [nextHeader c.n, e0, e1, e2], spilled := l.spilled + 1 } l')))

/-- RET (R141, R142, R150): the newest entry is popped and taken; at depth 0 the lane exits; a governed lane faults. -/
def Claim.Returns : Prop :=
  ∀ (s : State) (c : Cur) (h : Head), cur? s = some c → Standing c → c.n.last = true → c.g.inTrap = false →
    let k := c.l.kernel
    let on := fun i => c.n.x.getLsbD i = true
    let governed := ∃ e rest i l, c.g.loops = e :: rest ∧ i < 64 ∧ on i ∧ c.g.lanes[i]? = some l ∧ l.depth = e.depth
    let inside := fun (a : Word) => (a - k.text).toNat / 8 < k.twords
    let kept := dropFetched s (wordKey c.ref)
    (governed → Faults (.ret h) s c .loopEscape) ∧
    (¬governed → (∀ i l, i < 64 → on i → c.g.lanes[i]? = some l → (l.calls = [] → l.spilled = 0) ∧ ∀ a r, l.calls = a :: r → inside a) →
      Claim.from (.ret h) s kept c (Leaves c h c.g.loops fun _ l l' =>
        (l.calls = [] → l' = { l with st := .exited }) ∧
        ∀ a r, l.calls = a :: r → Takes k c.g.loops a { l with calls := r } l')) ∧
    (∀ i l, ¬governed → i < 64 → c.n.x = BitVec.twoPow 64 i → c.g.lanes[i]? = some l → l.calls = [] → 0 < l.spilled →
      let va := callPlace s c.t k c.g.grp i (l.spilled - 1)
      ∀ (r : Got) (s' : State), readFor s c.ref c.who va 8 8 .read false (.lanes c.ref (maskOf [i])) = (r, s') →
        let kept := dropFetched s' (wordKey c.ref)
        (∀ g, r = .gran g → g.poison = false → inside (BitVec.ofNat 64 (g.slice (va.toNat % 16) 8 % 2 ^ 56)) →
          s'.group? c.ref = some c.g →
          Claim.from (.ret h) s kept c (Leaves { c with g := { c.g with callFills := c.g.callFills + 1 } } h c.g.loops (fun _ l l' =>
              Takes k c.g.loops (BitVec.ofNat 64 (g.slice (va.toNat % 16) 8 % 2 ^ 56)) { l with spilled := l.spilled - 1 } l'))) ∧
        (∀ g, r = .gran g → g.poison = true → exec (.ret h) s = .next (eatPoison kept c h 0 []
          [⟨i, .poison, g.tag, BitVec.ofNat 64 (va.toNat / 16 * 16)⟩])) ∧
        (∀ x, r = .peer x → fetchedAt s' (wordKey c.ref) va.toNat 8 = none →
          (∀ w, peerTarget s' x va.toNat (.read 8) = some w → exec (.ret h) s =
            .next (blockWord (askPeers s' (fun a => .word (c.n.only i) a) c.t.core [(va.toNat, 8, x)]) c .peer)) ∧
          (peerTarget s' x va.toNat (.read 8) = none → ∃ go, exec (.ret h) s =
            .next (raiseTrapsGo go (c.mod kept (fun g => g)) c 0 c.n.pc 0 0 (0, 0, 0) [⟨i, .badAddress, 0, va⟩]))))

/-- CALL, CALLV and RET (R140 to R142, R150): the claims Calls, CallSpills and Returns together. -/
def Obligations.CallsAndReturns : Prop := Claim.Calls ∧ Claim.CallSpills ∧ Claim.Returns

/-- JOIN, DEFER and EXIT (R143, R145, R152, R333): the lanes of X are held, step aside, or exit; the exit of the last
handling lane of a handler ends the handler. -/
def Claim.HeldLanes : Prop :=
  ∀ (s : State) (c : Cur) (h : Head), cur? s = some c → Standing c →
    Completes (.join h) s c (Leaves c h c.g.loops fun _ l l' =>
      l' = { l with pc := nextHeader c.n, ins := none, st := .joinHeld c.n.pc }) ∧
    Completes (.defer h) s c (Leaves c h c.g.loops fun _ l l' =>
      l' = { l with pc := nextHeader c.n, ins := none, st := .deferred c.n.hdr 0 }) ∧
    (c.g.inTrap = false → Completes (.exit h) s c (Leaves c h c.g.loops fun _ l l' => l' = { l with st := .exited })) ∧
    (c.g.inTrap = true → c.n.x = c.g.live → c.g.lanes.length ≤ 64 → c.g.pend = [] → badSaved c.g.saved = false →
      Completes (.exit h) s c fun g' => g'.inTrap = false ∧ g'.loops = savedLoops c.g.saved ∧ g'.clause = none ∧
        ∀ i l, c.g.lanes[i]? = some l → ∃ l', g'.lanes[i]? = some l' ∧ (c.n.x.getLsbD i = true → l'.st = .exited) ∧ l'.trap ≠ .held ∧
          (l.trap = .held → l'.pc = l.pc)) ∧
    (c.g.inTrap = true → c.n.x = c.g.live → c.g.pend ≠ [] → exec (.exit h) s = .next (blockWord s c .tretDrain))

/-- LOOP (R148): its checks in their order, the entry it pushes, and the count of 0. -/
def Claim.LoopStart : Prop :=
  ∀ (s : State) (c : Cur) (h : Head) (r : BitVec 6) (imm : BitVec 8) (off : BitVec 32), cur? s = some c → Standing c →
    let k := c.l.kernel
    let start := textIndex k (nextHeader c.n)
    let stop : Int := (textIndex k c.n.hdr : Int) + off.toInt
    let loops := fun (i : Instr) (n : Nat) =>
      let bad := stop ≤ (start : Int) ∨ 1048575 < n
      let even := fun d => ∀ i l, i < 64 → c.n.x.getLsbD i = true → c.g.lanes[i]? = some l → l.depth = d
      let together := c.n.x = c.g.live ∧ (∃ d, even d) ∧ aside c.g = false
      (bad → Faults i s c .illegalOperand) ∧ (¬bad → ¬together → Faults i s c .loopDiverged) ∧
      ∀ d, ¬bad → together → c.n.x ≠ 0 → even d →
        (4 ≤ c.g.loops.length ∨ 255 < d → Faults i s c .loopDepth) ∧
        (c.g.loops.length < 4 → d ≤ 255 →
          ((∃ e ∈ c.g.loops, e.depth = d ∧ (e.stop : Int) < stop) → Faults i s c .loopEscape) ∧
          ((∀ e ∈ c.g.loops, e.depth = d → stop ≤ (e.stop : Int)) →
            (n = 0 → Completes i s c (Leaves c h c.g.loops fun _ => Takes k c.g.loops (c.n.hdr + (off.signExtend 64) * 8))) ∧
            (n ≠ 0 →
              let ls := ⟨n, d, start, stop.toNat % 2 ^ 18⟩ :: c.g.loops
              Completes i s c (Leaves c h ls fun _ => Takes k ls (nextHeader c.n)))))
    loops (.loopScalar h r off) (c.g.sreg r.toNat).toNat ∧ loops (.loopImm h imm off) imm.toNat

/-- LBRK and YLD (R151, R153, R154). -/
def Claim.LoopBreakAndYield : Prop :=
  ∀ (s : State) (c : Cur) (h : Head), cur? s = some c → Standing c →
    (∀ n : BitVec 2,
      let together := c.n.x = c.g.live ∧ aside c.g = false
      let own := n.toNat < c.g.loops.length ∧ ∀ e ∈ c.g.loops.take (n.toNat + 1), ∀ i l, i < 64 → c.n.x.getLsbD i = true →
        c.g.lanes[i]? = some l → l.depth = e.depth
      (¬together → Faults (.lbrk h n) s c .loopDiverged) ∧ (together → ¬own → Faults (.lbrk h n) s c .loopEscape) ∧
      (together → own → ∀ e, c.g.loops[n.toNat]? = some e →
        Completes (.lbrk h n) s c (Leaves c h (c.g.loops.drop (n.toNat + 1)) fun _ =>
          Takes c.l.kernel (c.g.loops.drop (n.toNat + 1)) (textWord c.l.kernel e.stop)))) ∧
    (∀ (spin : Bool) (n : BitVec 16), c.n.last = true →
      let asks := spin = true ∧ c.t.floor = [] ∧ (savedWaits s (dieOf c.t.core)).isSome = true
      let after := fun (w : Option Waiting) (g' : Group) =>
        g' = { c.g with ylddl := n.toNat, lanes := g'.lanes, clause := none, readyAt := g'.readyAt, wait := w } ∧
        Leaves { c with g := { c.g with ylddl := n.toNat, wait := w } } { h with sw := false } c.g.loops
          (fun _ => Takes c.l.kernel c.g.loops (nextHeader c.n)) g'
      (¬asks →
        (c.g.pend ≠ [] → Completes (.yld h spin n) s c (after (some ⟨.yldDrain, c.n⟩))) ∧
        (c.g.pend = [] → c.t.preempt = false → Completes (.yld h spin n) s c (after none)) ∧
        (c.g.pend = [] → c.t.preempt = true → Completes (.yld h spin n) s c (after (some ⟨.preempt, c.n⟩)))) ∧
      (asks → ∃ t g', exec (.yld h spin n) s = .next t ∧ t.group? c.ref = some g' ∧ g'.ylddl = n.toNat ∧
        (∃ u, t.team? c.ref.team = some u ∧ u.preempt = true) ∧
        ∀ y, savedWaits s (dieOf c.t.core) = some y → ∃ u, t.team? y.id = some u ∧ u.favour = some c.t.core))

/-- LOOP, LBRK, YLD, JOIN, DEFER and EXIT (R143, R145, R148, R151 to R154): the claims HeldLanes, LoopStart and LoopBreakAndYield together. -/
def Obligations.LoopsAndHolds : Prop := Claim.HeldLanes ∧ Claim.LoopStart ∧ Claim.LoopBreakAndYield

/-- SRD (R134, R75): the special registers by number. -/
def Claim.SpecialRegisterReads : Prop :=
  ∀ (s : State) (c : Cur) (h : Head), cur? s = some c →
    (∀ (vd : BitVec 8) (reg : BitVec 6),
      (c.vOk vd.toNat (sregWide reg) = true →
        CompletesBirth (.srd h false vd reg) s c fun g' => WritesV c.g g' (sregWide reg) vd.toNat (c.active h) (fun i => specialReg s c i reg.toNat)
          fun k tag => ∃ n, tag = TagSrc.tag n (tagResult h.rule [] false (oldTag c.g (sregWide reg) vd.toNat k))) ∧
      (c.vOk vd.toNat (sregWide reg) = false → Faults (.srd h false vd reg) s c .illegalOperand) ∧
      Completes (.srd h true vd reg) s c fun g' => WritesS c.g g' vd.toNat (BitVec.ofNat 64 (specialReg s c 0 reg.toNat))) ∧
    (∀ i, specialReg s c i 0 = i ∧ specialReg s c i 1 = c.width ∧ specialReg s c i 2 = c.g.grp ∧ specialReg s c i 3 = c.g.role ∧
      (specialReg s c i 4, specialReg s c i 5, specialReg s c i 6) = c.t.coord ∧
      c.t.core = specialReg s c i 9 * 64 + specialReg s c i 8 * 8 + specialReg s c i 7 ∧
      specialReg s c i 7 < 8 ∧ specialReg s c i 8 < 8 ∧
      specialReg s c i 10 = s.devno.toNat ∧ specialReg s c i 11 = s.time.toNat ∧ specialReg s c i 12 = c.n.hdr.toNat ∧
      (∀ j, j < 4 → specialReg s c i (13 + j) = (if c.g.inTrap then c.g.saved.getD j 0 else ((c.g.loops[j]?).map LoopEntry.word).getD 0).toNat) ∧
      specialReg s c i 17 = c.g.traph.toNat ∧ specialReg s c i 18 = c.g.tcause.toNat ∧ specialReg s c i 21 = c.g.ssyn.toNat ∧
      specialReg s c i 22 = c.g.sunit.toNat ∧ specialReg s c i 23 = c.g.stilex.toNat ∧ specialReg s c i 24 = c.g.stiley.toNat ∧
      specialReg s c i 25 = c.g.stilek.toNat ∧ specialReg s c i 29 = (rngKey s c.t.ctx).toNat ∧ specialReg s c i 30 = c.g.ylddl ∧
      specialReg s c i 31 = c.g.nstat.toNat ∧ specialReg s c i 32 = segBase s c.t ∧
      ∀ l, c.g.lanes[i]? = some l → specialReg s c i 19 = l.tpc.toNat ∧ specialReg s c i 20 = l.ttag.toNat ∧
        specialReg s c i 26 = l.faultva.toNat ∧ specialReg s c i 28 = l.calls.length + l.spilled)

/-- SWR (R135, R76): TRAPH and NSTAT at any time, TPC and LSTK0 to LSTK3 in a handler; every other write faults PRIV. -/
def Claim.SpecialRegisterWrites : Prop :=
  ∀ (s : State) (c : Cur) (h : Head) (sc : Bool) (reg : BitVec 6) (a : Src), cur? s = some c →
    let ok := match a with
      | .v r => c.vOk r.toNat (sregWide reg)
      | _ => true
    let n := reg.toNat
    let may := n = 17 ∨ n = 31 ∨ (c.g.inTrap = true ∧ (n = 19 ∨ (13 ≤ n ∧ n ≤ 16)))
    let x := swrValue c.g (sregWide reg) a
    (ok = false → Faults (.swr h sc reg a) s c .illegalOperand) ∧ (ok = true → ¬may → Faults (.swr h sc reg a) s c .priv) ∧
    (ok = true → may →
      (n = 19 → Completes (.swr h sc reg a) s c fun g' =>
        g' = { c.g with lanes := g'.lanes, clause := g'.clause, wait := g'.wait, readyAt := g'.readyAt } ∧
        ∀ i l, i < 64 → c.g.lanes[i]? = some l → ∃ l', g'.lanes[i]? = some l' ∧
          l' = { l with tpc := if (c.active h).getLsbD i = true then x i else l.tpc, pc := l'.pc, ins := l'.ins, st := l'.st }) ∧
      (n ≠ 19 → c.active h = 0 → Completes (.swr h sc reg a) s c (Moved c.g)) ∧
      (∀ i, i < 64 → (c.active h).getLsbD i = true → (∀ j, j < i → (c.active h).getLsbD j = false) →
        (n = 17 → Completes (.swr h sc reg a) s c (Moved { c.g with traph := x i })) ∧
        (n = 31 → Completes (.swr h sc reg a) s c (Moved { c.g with nstat := (x i).setWidth 32 })) ∧
        (∀ j, j < 4 → n = 13 + j → Completes (.swr h sc reg a) s c (Moved { c.g with saved := c.g.saved.set j (x i) })))) ∧
    (∀ i, (∀ r, a = .s r → x i = if sregWide reg then c.g.sreg r.toNat else (c.g.sreg r.toNat).extractLsb' 0 32 |>.zeroExtend 64) ∧
      (∀ r, a = .v r → (x i).extractLsb' 0 32 = c.g.vreg r.toNat i ∧
        (x i).extractLsb' 32 32 = if sregWide reg then c.g.vreg (r.toNat + 1) i else 0))

/-- SRD and SWR (R75, R76, R134, R135): the claims SpecialRegisterReads and SpecialRegisterWrites together. -/
def Obligations.SpecialRegisters : Prop := Claim.SpecialRegisterReads ∧ Claim.SpecialRegisterWrites

/-! ### Memory -/

/-- The addresses of a word's active lanes. -/
def Claim.places (c : Cur) (h : Head) (m : MemOp) : List Nat := (lanesOf (c.active h)).map (fun i => (memAddr c.g m i).toNat)

/-- The team is committed and pinned (R337). -/
def Claim.pinned (s s1 : State) (c c1 : Cur) : Prop := pinFirst s c = .done s1 ∧ cur? s1 = some c1 ∧ c1.n = c.n

/-- The release part of an ordered word (R194, R202): there is none, or it is done. -/
def Claim.released (s s1 : State) (c c1 : Cur) (o : MOrd) : Prop :=
  cur? s1 = some c1 ∧ c1.n = c.n ∧ ((o.order = .relaxed ∨ o.order = .acq) ∧ s1 = s ∨
    (o.order = .rel ∨ o.order = .ar) ∧ releaseAt s c.ref c.t.core c.n.x o.scope = .done s1)

/-- The checks of an address (R189, R187): outside the map or a window that is not the context's, misaligned, a window
byte, a translated page; and what a load of a window sees: its own queued stores over the bank (R192), its group's REDs
applied first (R227), while no engine's command owns the granule (R285). -/
def Obligations.AddressChecks : Prop :=
  (∀ (s : State) (w : Who) (va : Word) (n : Nat) (k : AK), 0 < n →
    let a := va.toNat
    let local_ := a / 2 ^ 24 = 0xFD * 2 ^ 24
    let named := fun cl => cl < 32 ∧ a / 2 ^ 24 = 0xFE * 2 ^ 24 + cl / 8 * 2 ^ 20 + cl % 8 * 2 ^ 16
    (2 ^ 55 ≤ a → ¬local_ → (∀ cl, ¬named cl) → check189 s w va n k = (.badAddress, s)) ∧
    (∀ cl, (local_ ∧ cl = clusterOf w.core) ∨ named cl →
      (windowOk s w.ctx cl (a % 2 ^ 24) = false → check189 s w va n k = (.badAddress, s)) ∧
      (windowOk s w.ctx cl (a % 2 ^ 24) = true → a % n ≠ 0 → check189 s w va n k = (.align, s)) ∧
      (windowOk s w.ctx cl (a % 2 ^ 24) = true → a % n = 0 → check189 s w va n k = (.window (sramLoc cl (a % 2 ^ 24)), s))) ∧
    (a < 2 ^ 55 → a % n ≠ 0 → check189 s w va n k = (.align, s)) ∧
    (a < 2 ^ 55 → a % n = 0 → ∀ x s', translate s w.slot a k = (.ok x, s') → check189 s w va n k = (.mem x, s')) ∧
    (a < 2 ^ 55 → a % n = 0 → ∀ x s', translate s w.slot a k = (.error x, s') → check189 s w va n k = (.fault x, s'))) ∧
  (∀ (s s' : State) (r : GRef) (w : Who) (va : Word) (al n loc : Nat) (ro : Bool) (who : Waiter),
    check189 s w va al .read = (.window loc, s') →
    (engineOwns s (granKey loc) = true → readFor s r w va al n .read ro who = (.line (granKey loc), s)) ∧
    (engineOwns s (granKey loc) = false →
      readFor s r w va al n .read ro who = (.gran (windowSeen (applyReds s r) r loc), applyReds s r) ∧
      ((∀ q ∈ s.redQ, q.g ≠ r) → applyReds s r = s))) ∧
  (∀ (s : State) (r : GRef) (g : Group) (cl off : Nat), s.group? r = some g → cl < 32 → off < 2 ^ 24 →
    let mine := g.storeQ.filter (fun w => w.va == windowVa cl off / 16 * 16)
    (mine = [] → windowSeen s r (sramLoc cl off) = granAt s (sramLoc cl off)) ∧
    (∀ w l, mine = l ++ [w] → w.tstg = none → ∀ j, j < 16 →
      (windowSeen s r (sramLoc cl off)).bytes[j]? = some (match w.bytes.find? (fun p => p.1 == j) with
        | some p => p.2
        | none => ((overGran true (granAt s (sramLoc cl off)) l).bytes[j]?).getD 0)))

/-- VLD and SLD (R199, R200, R203): each lane's value and tag, its traps and parks, and the outstanding result. -/
def Claim.Loads : Prop :=
  (∀ (s : State) (c : Cur) (h : Head) (z : MSize) (o : MOrd) (d : BitVec 8) (m : MemOp), cur? s = some c → c.g.peerFail = [] →
    c.vOk d.toNat z.wide = true → c.idxOk m = true → resultGate c .none = none →
    let n := MSize.bytes z
    let f := fun i (g : Gran) off => putV z.wide d.toNat i (MSize.extend z (g.slice off n)) (loadTag h.rule g.tag (oldTag c.g z.wide d.toNat i))
    let a := (lanesOf (c.active h)).foldl (loadLane c m n (o.hint.toNat ≥ 2) f) (LoadAcc.start s)
    (∀ l, a.line = some l → exec (.vld h z o d m) s = .next (blockWord a.s c (.line l))) ∧
    (a.line = none → a.peers = [] → a.parks = [] → a.traps = [] → a.poison = [] → a.s.group? c.ref = some c.g →
      Claim.from (.vld h z o d m) s (withAcquire a.s c o) c fun g' => Pends a.s c c.g g' .none a.ws)) ∧
  (∀ (c : Cur) (m : MemOp) (n : Nat) (ro : Bool) (f : Nat → Gran → Nat → List RegW) (a : LoadAcc) (i : Nat),
    let va := memAddr c.g m i
    let out := readFor a.s c.ref c.who va n n .read ro (.lanes c.ref (maskOf [i]))
    let b := loadLane c m n ro f a i
    (∀ g t, out = (.gran g, t) → g.poison = false → b = { a with s := t, ws := a.ws ++ f i g (va.toNat % 16) }) ∧
    (∀ g t, out = (.gran g, t) → g.poison = true →
      b = { a with s := t, poison := a.poison ++ [⟨i, .poison, g.tag, BitVec.ofNat 64 (va.toNat / 16 * 16)⟩] }) ∧
    (∀ x t, out = (.trap x, t) → b = { a with s := t, traps := a.traps ++ [⟨i, x, idxTag c.g m i, va⟩] }) ∧
    (∀ t, out = (.park, t) → b = { a with s := t, parks := a.parks ++ [i] }) ∧
    (∀ l t, out = (.line l, t) → b = { a with s := t, line := some l }) ∧
    (∀ x t, out = (.peer x, t) → b = (if (peerTarget t x va.toNat (.read n)).isSome then { a with s := t, peers := a.peers ++ [(i, x, va)] }
      else { a with s := t, traps := a.traps ++ [⟨i, .badAddress, idxTag c.g m i, va⟩] }))) ∧
  (∀ (s t : State) (c : Cur) (h : Head) (z : MSize) (o : MOrd) (d : BitVec 6) (m : MemOp) (g : Gran), cur? s = some c → c.g.peerFail = [] →
    resultGate c .none = none →
    let n := MSize.bytes z
    let va := memAddr c.g m 0
    let out := readFor s c.ref c.who va n n .read (o.hint.toNat ≥ 2) (.lanes c.ref c.n.x)
    (out = (.gran g, t) → g.poison = false → t.group? c.ref = some c.g →
      Claim.from (.sld h z o d m) s (withAcquire t c o) c fun g' =>
        Pends t c c.g g' .none [.s d (BitVec.ofNat 64 (MSize.extend z (g.slice (va.toNat % 16) n)))]) ∧
    (∀ x, out = (.trap x, t) → exec (.sld h z o d m) s = .next (trapAll t c c.n.x x 0 va)) ∧
    (out = (.park, t) → exec (.sld h z o d m) s = .next (settle t c h c.n.x []))) ∧
  (∀ x, (x < 2 ^ 8 → MSize.extend .n8 x = x ∧ MSize.extend .i8 x = if x < 2 ^ 7 then x else x + 2 ^ 64 - 2 ^ 8) ∧
    (x < 2 ^ 16 → MSize.extend .n16 x = x ∧ MSize.extend .i16 x = if x < 2 ^ 15 then x else x + 2 ^ 64 - 2 ^ 16) ∧
    MSize.extend .b32 x = x ∧ MSize.extend .b64 x = x) ∧
  (∀ g old : Tag, loadTag .blame g old = .known g ∧ loadTag .pass g old = .known g ∧ loadTag .birth g old = .born g.msb ∧
    loadTag .keep g old = .known (if g.msb then g else old))

/-- VST and SST (R199, R192): what each lane writes where, its traps, and the writes queued in the group's store queue,
lane by lane with the later lane's bytes winning. -/
def Claim.Stores : Prop :=
  (∀ (s s1 : State) (c c1 : Cur) (h : Head) (z : MSize) (o : MOrd) (d : BitVec 8) (m : MemOp), cur? s = some c → c.g.peerFail = [] →
    c.vOk d.toNat z.wide = true → c.idxOk m = true →
    Claim.released s s1 c c1 (peerOrd s c o (Claim.places c h m)) →
    let a := (lanesOf (c1.active h)).foldl (storeLane c1 (MSize.bytes z) (memAddr c1.g m) (idxTag c1.g m) (storeData c1 z d.toNat)) (StoreAcc.start s1)
    let ws := a.out.foldl addWrite []
    storePins c1 a = false →
    exec (.vst h z o d m) s = .next (settle (ws.foldl (fun s p => queueWrite s c1 (heldStore c1 p.1) p.2) a.s) c1 h (maskOf a.parks) a.traps) ∧
    (a.parks = [] → a.traps = [] → a.s.group? c.ref = some c1.g → unpinned c1 = false → c1.t.uncommitted = [] →
      Claim.from (.vst h z o d m) s a.s c fun g' => Moved { c1.g with storeQ := c1.g.storeQ ++ ws.map Prod.snd } g')) ∧
  (∀ (c : Cur) (z : MSize) (d : BitVec 8) (m : MemOp) (a : StoreAcc) (i : Nat),
    let n := MSize.bytes z
    let va := memAddr c.g m i
    let out := storeFor a.s c.who va n .write c.t.id (.lanes c.ref (maskOf [i])) a.extra
    let b := storeLane c n (memAddr c.g m) (idxTag c.g m) (storeData c z d.toNat) a i
    let x := c.g.vreg d.toNat i
    let data : Nat := if z = .b64 then (c.g.vreg (d.toNat + 1) i ++ x).toNat else x.toNat
    let tags : List (Nat × Tag) := (0, c.g.vtag d.toNat i) :: (if z = .b64 then [(4, c.g.vtag (d.toNat + 1) i)] else [])
    (∀ x t, out = (.trap x, t) → b = { a with s := t, traps := a.traps ++ [⟨i, x, idxTag c.g m i, va⟩] }) ∧
    (∀ t, out = (.park, t) → b = { a with s := t, parks := a.parks ++ [i] }) ∧
    (∀ p t, out = (p, t) → (∃ loc, p = .window loc) ∨ (∃ x, p = .mem (some x) ∧ x.peer = false) ∨ p = .mem none →
      (∀ tg, c.l.kernel.trapstore = true → tags.find? (fun p => p.2.msb) = some tg →
        b = { a with s := t, traps := a.traps ++ [⟨i, .tagStore, tg.2, va⟩] }) ∧
      (c.l.kernel.trapstore = false ∨ tags.find? (fun p => p.2.msb) = none →
        b.s = t ∧ b.parks = a.parks ∧ b.traps = a.traps ∧
        b.out = a.out ++ [(p, laneWrite t.seqN c.ref i c.t.slot (putVa p va.toNat) n data tags)]))) ∧
  (∀ (q : Nat) (g : GRef) (lane slot va n x : Nat) (tags : List (Nat × Tag)) (t0 t1 : Tag),
    let w := laneWrite q g lane slot va n x tags
    w.va = va / 16 * 16 ∧ w.bytes.length = n ∧ w.tags.length = n ∧ w.cuts = [va % 16] ∧
    (∀ j, j < n → w.bytes[j]? = some (va % 16 + j, BitVec.ofNat 8 (x / 256 ^ j)) ∧ w.tags[j]? = some (va % 16 + j, byteTag tags j) ∧
      byteTag [(0, t0)] j = t0 ∧ byteTag [(0, t0), (4, t1)] j = if j < 4 then t0 else t1)) ∧
  (∀ (s s1 t : State) (c c1 : Cur) (h : Head) (z : MSize) (o : MOrd) (d : BitVec 6) (m : MemOp) (p : Put), cur? s = some c → c.g.peerFail = [] →
    Claim.released s s1 c c1 (peerOrd s c o [(memAddr c.g m 0).toNat]) →
    let n := MSize.bytes z
    let va := memAddr c1.g m 0
    let out := storeFor s1 c1.who va n .write c1.t.id (.lanes c1.ref c1.n.x) []
    (∀ x, out = (.trap x, t) → exec (.sst h z o d m) s = .next (trapAll t c1 c1.n.x x 0 va)) ∧
    (out = (p, t) → (∃ loc, p = .window loc) ∨ (∃ x, p = .mem (some x) ∧ x.peer = false) ∨ p = .mem none → unpinned c1 = false →
      c1.t.uncommitted = [] → Claim.from (.sst h z o d m) s t c fun g' => Moved { c1.g with storeQ := c1.g.storeQ ++
        [laneWrite t.seqN c1.ref ((lanesOf c1.n.x).headD 0) c1.t.slot (putVa p va.toNat) n (c1.g.sreg d.toNat).toNat (zeroTags n)] } g'))

/-- VLD, SLD, VST and SST (R199, R200, R203): the claims Loads and Stores together. -/
def Obligations.LoadsAndStores : Prop := Claim.Loads ∧ Claim.Stores

/-- A write performed (R353, R338, R354): every byte of memory outside the written ones reads as before, the granule's tag
follows the store-merge rule, and a write of the whole granule clears its poison; TSTG writes no byte. -/
def Obligations.PerformedWrites : Prop :=
  ∀ (s : State) (loc : Nat) (w : GWrite),
    let t := performAt s loc true w
    let base := loc / 16 * 16
    let byte := fun a => if a / 16 = loc / 16 then w.bytes.find? (fun p => p.1 == a - base) else none
    (t = { s with mem := t.mem, tags := t.tags, poison := t.poison }) ∧
    (w.tstg = none →
      (∀ a, byteAt t a = match byte a with
        | some p => p.2
        | none => byteAt s a) ∧
      mget 0 t.tags (loc / 16) = storeMerge (mget 0 s.tags (loc / 16)) (w.tags.map Prod.snd) (GWrite.whole w) ∧
      poisoned t (loc / 16) = (poisoned s (loc / 16) && !GWrite.whole w)) ∧
    (∀ x, w.tstg = some x → (∀ a, byteAt t a = byteAt s a) ∧ mget 0 t.tags (loc / 16) = x ∧ poisoned t (loc / 16) = poisoned s (loc / 16)) ∧
    (∀ k, k ≠ loc / 16 → mget 0 t.tags k = mget 0 s.tags k ∧ poisoned t k = poisoned s k) ∧ (MemOk s → MemOk t)

/-- PREF, PROBE and IINV (R205 to R207). -/
def Claim.MemoryHints : Prop :=
  ∀ (s : State) (c : Cur) (h : Head) (hint : BitVec 2) (m : MemOp) (z : MSize) (p : BitVec 3), cur? s = some c → c.idxOk m = true →
    Completes (.pref h hint m) s c (Moved c.g) ∧
    (resultGate c .none = none → ∃ bits : Mask, Completes (.probe h z p m) s c (fun g' => Pends s c c.g g' .none [.p p (c.active h) bits]) ∧
      let n := MSize.bytes z
      let got := fun i => (readFor s c.ref c.who (memAddr c.g m i) n n .read false (.lanes c.ref c.n.x)).1
      ∀ i, i < 64 → (bits.getLsbD i = true ↔ (c.active h).getLsbD i = true ∧
        ((∃ g, got i = .gran g ∧ g.poison = false) ∨ (∃ l, got i = .line l) ∨
         ∃ x, got i = .peer x ∧ (peerTarget s x (memAddr c.g m i).toNat (.read n)).isSome = true))) ∧
    (∀ s1 c1, c.g.peerFail = [] → Claim.released s s1 c c1 ⟨.dev, .rel, 0⟩ → c1.g.wait = none →
      ∃ t g', exec (.iinv h m) s = .next t ∧ OnlyGroup { s1 with icache := t.icache } t c.ref ∧ t.group? c.ref = some g' ∧
        Moved c1.g g' ∧ g'.wait = some ⟨.iinv, c.n⟩ ∧
        ∀ l, l ∈ t.icache ↔ l ∈ s1.icache ∧ ¬(l.slot = c.t.slot ∧ ∃ i, i < 64 ∧ (c.active h).getLsbD i = true ∧
          l.va / 128 = (memAddr c.g m i).toNat / 128))

/-- BANKCFG (R197): without the context's B bit it faults PRIV; else q says whether the bank has the mode, and a bank that
becomes scratchpad is zero. A bank that leaves cache mode first writes back what its cluster owns. -/
def Claim.BankModes : Prop :=
  ∀ (s s1 : State) (c c1 : Cur) (h : Head) (q : BitVec 3) (sb : BitVec 6) (mode : BankMode), cur? s = some c →
    (mayConfigBanks s c.t.ctx = false → Faults (.bankcfg h q sb mode) s c .priv) ∧
    (mayConfigBanks s c.t.ctx = true → resultGate c .none = none → Claim.pinned s s1 c c1 → resultGate c1 .none = none →
      let b := (c1.g.sreg sb.toNat).toNat
      let cl := clusterOf c1.t.core
      let ok := b ≤ 63 ∧ (bankMode s1 cl b = mode ∨ bankFree s1 cl b = true)
      let s2 := if ok ∧ bankMode s1 cl b ≠ mode ∧ bankMode s1 cl b = .cache then leaveCache s1 cl else s1
      ∀ g2, s2.group? c.ref = some g2 → MemOk s2 →
      ∃ t g' r, exec (.bankcfg h q sb mode) s = .next t ∧ (r = true ↔ ok) ∧ t.group? c.ref = some g' ∧
        OnlyGroup { s2 with banks := t.banks, mem := t.mem, tags := t.tags, poison := t.poison } t c.ref ∧
        Pends s2 c1 g2 g' .none [.q q r] ∧
        (∀ cl' b', b' < 64 → bankMode t cl' b' = if ok ∧ cl' = cl ∧ b' = b then mode else bankMode s1 cl' b') ∧
        ∀ a, byteAt t a = if ok ∧ bankMode s1 cl b ≠ mode ∧ mode = .scratch ∧ sramLoc cl (b * 2 ^ 18) ≤ a ∧ a < sramLoc cl (b * 2 ^ 18) + 2 ^ 18
          then 0 else byteAt s2 a)

/-- PREF, PROBE, IINV and BANKCFG (R197, R205 to R207): the claims MemoryHints and BankModes together. -/
def Obligations.HintsAndBankModes : Prop := Claim.MemoryHints ∧ Claim.BankModes

/-- No load of the group has an unbound value, an atomic word's own release and commit are done, and its group's queue has
drained (R192, R223, R229, R337). -/
def Claim.readied (s s3 : State) (c c3 : Cur) (o : MOrd) (vas : List Nat) : Prop :=
  unbound s c.ref = false ∧ ∃ s1 c1 s2, Claim.released s s1 c c1 (peerOrd s c o vas) ∧ pinFirst s1 c1 = .done s2 ∧ s3 = drainGroup s2 c.ref ∧ cur? s3 = some c3 ∧ c3.n = c.n

/-- ATOM and ACAS (R222 to R224): the old word is the result; the new one is written with its tag. -/
def Claim.Atomics : Prop :=
  (∀ (s s3 : State) (c c3 : Cur) (h : Head) (f : AtomF) (z : MSize) (o : MOrd) (d : BitVec 8) (m : MemOp), cur? s = some c →
    c.g.peerFail = [] → c.idxOk m = true → Claim.readied s s3 c c3 o (Claim.places c h m) → resultGate c3 .none = none →
    let done := fun (i : Instr) (op : Nat → PeerOp) (pre : Nat → Option TagSrc) (out : Nat → Nat → Tag → RmwOut) =>
      let a := (lanesOf (c3.active h)).foldl (rmwLane c3 h z.wide o.scope d.toNat m op pre out) (LoadAcc.start s3)
      a.line = none → a.peers = [] → a.parks = [] → a.traps = [] → a.poison = [] → a.s.group? c.ref = some c3.g →
        Claim.from i s (withAcquire a.s c3 o) c fun g' =>
          Moved { c3.g with pend := c3.g.pend ++ [⟨a.s.seqN, slotOf c3, .none, c.n.pc, a.ws, true, a.born⟩], sb := g'.sb } g' ∧
          ∀ n, mget 0 g'.sb n = mget 0 c3.g.sb n + if slotOf c3 = some n then 1 else 0
    let v := fun i => regOperand c3.g z.wide d.toNat i
    let w := fun i => regOperand c3.g z.wide (d.toNat + if z.wide then 2 else 1) i
    (c.vOk d.toNat z.wide = true → done (.atom h f z o d m) (fun i => .atomic f z.wide (BitVec.ofNat 64 (v i).1))
      (fun i => atomPre f z.wide (v i)) (fun i old g => atomOut f z.wide (v i).1 (v i).2 old g)) ∧
    (c.vOk (d.toNat + if z.wide then 2 else 1) z.wide = true →
      done (.acas h z o d m) (fun i => if casAsks c3 z.wide (d.toNat + if z.wide then 2 else 1) i then .read (MSize.bytes z)
          else .cas z.wide (BitVec.ofNat 64 (v i).1) (BitVec.ofNat 64 (w i).1))
        (fun _ => none) (fun i old _ => casOut (v i).1 (w i).1 (w i).2 old))) ∧
  (∀ (c : Cur) (h : Head) (wide : Bool) (sc : Scope) (d : Nat) (m : MemOp) (op : Nat → PeerOp) (pre : Nat → Option TagSrc)
      (out : Nat → Nat → Tag → RmwOut) (a : LoadAcc) (i : Nat) (g0 : Gran) (t0 : State),
    let va := memAddr c.g m i
    let n := if wide then 8 else 4
    let b := rmwLane c h wide sc d m op pre out a i
    let gives := fun (g : Gran) (t : State) (put : State → GWrite → State) =>
      let old := g.slice (va.toNat % 16) n
      b.ws = a.ws ++ putV wide d i old (loadTag h.rule g.tag (oldTag c.g wide d i)) ∧ b.parks = a.parks ∧ b.traps = a.traps ∧
      b.poison = a.poison ∧ ((out i old g.tag).new = none → b.s = t) ∧
      (∀ x src, (out i old g.tag).new = some (x, src) →
        let u := wordTag t (birthOf t c.ref) c.n.pc (!a.born) src
        b.s = put u.2 (wordWrite u.2.seqN c.ref i c.t.slot va.toNat wide x u.1))
    readFor a.s c.ref c.who va n n .rmw false (.lanes c.ref (maskOf [i])) = (.gran g0, t0) → c.l.kernel.trapstore = false →
    (∀ loc, (check189 t0 c.who va n .rmw).1 = .window loc → g0.poison = false → gives g0 t0 (fun s w => performAt s loc true w)) ∧
    (∀ x t1 g2 t2, (check189 t0 c.who va n .rmw).1 = .mem x → rmwBar t0 c.t.core (lineKey c.t.slot va.toNat) sc = (false, t1) →
      rmwTake t1 c.ref c.who x va.toNat sc = (g2, t2) → g2.poison = false → gives g2 t2 (fun s w => rmwPut s c.who x sc w))) ∧
  (∀ (wide : Bool) (m v cmp : Nat) (g vt : Tag), let w := if wide then 64 else 32
    m < 2 ^ w → v < 2 ^ w →
    let I := fun x : Nat => if x < 2 ^ (w - 1) then (x : Int) else (x : Int) - 2 ^ w
    let new := fun f => (atomElem f wide m v).1
    new .add = (m + v) % 2 ^ w ∧ (∀ k, (new .and).testBit k = (m.testBit k && v.testBit k) ∧ (new .or).testBit k = (m.testBit k || v.testBit k) ∧
      (new .xor).testBit k = (m.testBit k != v.testBit k)) ∧ new .xchg = v ∧ new .minn = min m v ∧ new .maxn = max m v ∧
    (new .mini = m ∨ new .mini = v) ∧ I (new .mini) = min (I m) (I v) ∧ (new .maxi = m ∨ new .maxi = v) ∧ I (new .maxi) = max (I m) (I v) ∧
    (atomOut .xchg wide v vt m g).new = some (v, .known vt) ∧
    (casOut cmp v vt m).new = if m = cmp then some (v, .known vt) else none)

/-- RED (R226, R227): each lane's arrival is queued for the bank or the home; the integer functions. -/
def Claim.MemoryReductions : Prop :=
  (∀ (s s3 : State) (c c3 : Cur) (h : Head) (f : RedMF) (z : MSize) (o : MOrd) (d : BitVec 8) (m : MemOp), cur? s = some c →
    c.g.peerFail = [] → c.vOk d.toNat z.wide = true → c.idxOk m = true → Claim.readied s s3 c c3 o (Claim.places c h m) →
    let a := (lanesOf (c3.active h)).foldl (redLane c3 s3.seqN f z.wide d.toNat m) (StoreAcc.start s3)
    exec (.red h f z o d m) s = .next (settle a.s c3 h (maskOf a.parks) a.traps) ∧
    (a.parks = [] → a.traps = [] → a.s.group? c.ref = some c3.g → Claim.from (.red h f z o d m) s a.s c (Moved c3.g))) ∧
  (∀ (c : Cur) (issue : Nat) (f : RedMF) (wide : Bool) (d : Nat) (m : MemOp) (a : StoreAcc) (i : Nat) (p : Put) (t : State),
    let va := memAddr c.g m i
    let b := redLane c issue f wide d m a i
    storeFor a.s c.who va (if wide then 8 else 4) .rmw c.t.id (.lanes c.ref (maskOf [i])) [] = (p, t) →
    (∃ loc, p = .window loc) ∨ (∃ x, p = .mem (some x) ∧ x.peer = false) ∨ p = .mem none →
    (c.l.kernel.trapstore = true → (regOperand c.g wide d i).2.msb = true →
      b = { a with s := t, traps := a.traps ++ [⟨i, .tagStore, (regOperand c.g wide d i).2, va⟩] }) ∧
    (c.l.kernel.trapstore = false ∨ (regOperand c.g wide d i).2.msb = false →
      b = { a with s := { t with seqN := t.seqN + 1, redQ := t.redQ ++ [⟨t.seqN, c.ref, c.t.core, c.t.slot, i, va.toNat, f, wide,
        BitVec.ofNat 64 (regOperand c.g wide d i).1, (regOperand c.g wide d i).2, c.n.pc, birthOf t c.ref, issue, false⟩] } })) ∧
  (∀ (wide : Bool) (m v : Nat), let w := if wide then 64 else 32
    m < 2 ^ w → v < 2 ^ w →
    let I := fun x : Nat => if x < 2 ^ (w - 1) then (x : Int) else (x : Int) - 2 ^ w
    let new := fun f => (redElem f wide m v).1
    let exc := fun f => (redElem f wide m v).2 = true
    new .add = (m + v) % 2 ^ w ∧ ¬exc .add ∧ I (new .addsati) = max (-2 ^ (w - 1)) (min (2 ^ (w - 1) - 1) (I m + I v)) ∧
    (exc .addsati ↔ I (new .addsati) ≠ I m + I v) ∧ new .addsatn = min (2 ^ w - 1) (m + v) ∧ (exc .addsatn ↔ 2 ^ w ≤ m + v) ∧
    I (new .mini) = min (I m) (I v) ∧ I (new .maxi) = max (I m) (I v) ∧
    ∀ k, (new .and).testBit k = (m.testBit k && v.testBit k) ∧ (new .or).testBit k = (m.testBit k || v.testBit k) ∧
      (new .xor).testBit k = (m.testBit k != v.testBit k))

/-- ATOM, ACAS and RED (R222 to R227): the claims Atomics and MemoryReductions together. -/
def Obligations.AtomicsAndReductions : Prop := Claim.Atomics ∧ Claim.MemoryReductions

/-- The older copies that an acquire of a core leaves (R193, R194): at .clu those that its cluster cache holds too, at a wider scope
those of other cores, whose cluster cache, where it is the core's, holds none any more. -/
def Claim.copies (s : State) (core : Nat) (sc : Scope) : List StaleLine :=
  match sc with
  | .grp | .core => s.stale
  | .clu => s.stale.filter (fun l => l.core != core || l.cluster)
  | _ => (s.stale.filter (fun l => l.core != core)).map (fun l =>
      if clusterOf l.core == clusterOf core then { l with cluster := false } else l)

/-- FENCE and COMMIT (R194, R228, R336, R337): a release that is done, then the acquire; a commit that is done. -/
def Obligations.FencesAndCommits : Prop :=
  ∀ (s s1 : State) (c c1 : Cur) (h : Head) (sc : Scope) (o : Ord), cur? s = some c →
    (c.g.peerFail = [] → Claim.released s s1 c c1 ⟨sc, o, 0⟩ →
      (o = .rel ∨ o = .relaxed → Claim.from (.fence h sc o) s s1 c (Moved c1.g)) ∧
      (o = .acq ∨ o = .ar → (∀ p ∈ c1.g.pend, p.ready = true) →
        Claim.from (.fence h sc o) s { s1 with stale := Claim.copies s1 c1.t.core sc } c (Moved c1.g)) ∧
      (o = .acq ∨ o = .ar → (∃ p ∈ c1.g.pend, p.ready = false) →
        Claim.from (.fence h sc o) s s1 c fun g' => Moved c1.g g' ∧ g'.wait = some ⟨.acquire sc, c.n⟩)) ∧
    (Claim.pinned s s1 c c1 → Claim.from (.commit h) s s1 c (Moved c1.g)) ∧
    (c.l.kernel.replayable = false → c.t.committing = false → Completes (.commit h) s c (Moved c.g))

/-- QPUSH, QPOP and QALLOW (R230 to R233): entries in order, the producer's allowance, and the reasons of R262. -/
def Claim.Pigeonholes : Prop :=
  ∀ (s : State) (c : Cur) (h : Head) (q : BitVec 3) (t g : Bool) (kx : BitVec 4) (sa sb : BitVec 6), cur? s = some c →
    resultGate c .none = none →
    let n := c.g.name kx.toNat
    let id := producerId c
    let four := [Instr.qpush h q t g kx sa, .qpop h q t g kx sa, .qallowGrant h q g kx sa sb, .qallowRead h q g kx sa]
    (∀ code, resolve s c.t.ctx n (some 3) = .error code → ∀ i ∈ four,
      (g = true → exec i s = .next (trapAll s c c.n.x .nameGone 0 0)) ∧
      (g = false → Completes i s c fun g' => Pends s c c.g g' .none (reasonWs q code))) ∧
    ∀ e tm items allow ws, resolve s c.t.ctx n (some 3) = .ok e → e.obj = .pigeon tm items allow ws → c.l.kernel.replayable = false →
      c.t.committing = false →
      let becomes := fun (i : Instr) (s' : State) (c' : Cur) (o : Obj) (l : List RegW) => ∃ u g', exec i s = .next u ∧ u.group? c.ref = some g' ∧
        Pends s' c' c'.g g' .none (reasonWs q 0 ++ l) ∧ OnlyGroup { s' with roster := u.roster } u c.ref ∧
        (∀ k, mfind u.roster k = if k = n.toNat then some { e with obj := o } else mfind s'.roster k)
      let tells := fun (i : Instr) (code : Nat) => ∃ u g', exec i s = .next u ∧ u.group? c.ref = some g' ∧ Pends s c c.g g' .none (reasonWs q code) ∧
        OnlyGroup { s with roster := u.roster } u c.ref
      let a := allowOf allow id (pigAllow e.record)
      let known := (∃ p ∈ allow, p.1 = id) ∨ allow.length < 64
      (t = true → known → a = 0 → tells (.qpush h q t g kx sa) 0x21) ∧
      (t = true → known → a ≠ 0 → pigCap e.record ≤ items.length → tells (.qpush h q t g kx sa) 0x20) ∧
      (¬known → tells (.qpush h q t g kx sa) 0x23) ∧ (t = true → items = [] → tells (.qpop h q t g kx sa) 0x22) ∧
      (t = false → known → a = 0 ∨ pigCap e.record ≤ items.length → ∃ u g', exec (.qpush h q t g kx sa) s = .next u ∧ u.group? c.ref = some g' ∧
        g'.wait = some ⟨.push n, c.n⟩) ∧
      (t = false → items = [] → ∃ u g', exec (.qpop h q t g kx sa) s = .next u ∧ u.group? c.ref = some g' ∧ g'.wait = some ⟨.pop n, c.n⟩) ∧
      (∀ allow1 s0 s1 s2 c1 c2, a ≠ 0 → items.length < pigCap e.record → (t = true ∨ ∀ w ∈ ws, w.1 = c.ref) →
        ensureAllow allow id (pigAllow e.record) = some allow1 → s0 = s.modEntry n (fun e => { e with obj := .pigeon tm items allow1 ws }) →
        pigPin s0 c e.record = .done s1 → cur? s1 = some c1 → c1.g.peerFail = [] →
        releaseAt s1 c.ref c.t.core c.n.x (pigScope e.record) = .done s2 → cur? s2 = some c2 → c2.n = c.n → resultGate c2 .none = none →
        (entryOf s2 n).isSome = true →
        ∃ allow', (∀ j, allowOf allow' j (pigAllow e.record) = if j = id then a - 1 else allowOf allow j (pigAllow e.record)) ∧
          ∃ u g', exec (.qpush h q t g kx sa) s = .next u ∧ u.group? c.ref = some g' ∧ Pends s2 c2 c2.g g' .none (reasonWs q 0) ∧
            OnlyGroup { s2 with roster := u.roster } u c.ref ∧
            (entryOf u n).map (·.obj) = some (.pigeon tm (items ++ [c.g.sreg sa.toNat]) allow' (ws.filter (fun w => w.1 != c.ref)))) ∧
      (∀ x rest, items = x :: rest → (t = true ∨ ∀ w ∈ ws, w.1 = c.ref) →
        becomes (.qpop h q t g kx sa) (acquireAt s c.t.core (pigScope e.record)) c
          (.pigeon tm rest allow (ws.filter (fun w => w.1 != c.ref))) [.s sa x]) ∧
      (let who := c.g.sreg sa.toNat
       (2 ^ 37 ≤ who.toNat ∨ (allow.length ≥ 64 ∧ ∀ p ∈ allow, p.1 ≠ who) → tells (.qallowGrant h q g kx sa sb) 0x23) ∧
       (who.toNat < 2 ^ 37 → allow.length < 64 ∨ (∃ p ∈ allow, p.1 = who) →
         ∃ allow', becomes (.qallowGrant h q g kx sa sb) s c (.pigeon tm items allow' ws) [] ∧
          ∀ j, allowOf allow' j (pigAllow e.record) = if j = who then min 65535 (allowOf allow who (pigAllow e.record) + (c.g.sreg sb.toNat).toNat)
            else allowOf allow j (pigAllow e.record))) ∧
      Completes (.qallowRead h q g kx sa) s c (fun g' => Pends s c c.g g' .none (reasonWs q 0 ++ [.s sa (BitVec.ofNat 64 a)]))

/-- CARR, CRST, CWAIT and TBAR (R235 to R239): on a cell in a window, the count's new value and the bytes that change; a
count that is reached; one that is not; and the arrival at a barrier. -/
def Claim.CountCells : Prop :=
  ∀ (s s3 : State) (c c3 : Cur) (h : Head) (sc : Scope) (o : Ord) (cell : BitVec 6) (x : CVal) (q : BitVec 3) (t : Bool) (tmo : Option (BitVec 6)),
    cur? s = some c → c.g.peerFail = [] → unbound s c.ref = false →
    let add := match x with
      | .r r => (c3.g.sreg r.toNat).toNat % 2 ^ 32
      | .i n => n.toNat
    let cellOps := fun (i : Instr) (o : MOrd) (P : State → Nat → Prop) => ∀ s1 c1 s2 u loc, Claim.released s s1 c c1 o → pinFirst s1 c1 = .done s2 →
      s3 = pushOwn s2 c.ref → cur? s3 = some c3 → c3.n = c.n →
      check189 s3 c3.who (c3.g.sreg cell.toNat) 8 .rmw = (.window loc, u) → engineOwns s3 (granKey loc) = false →
      commitBefore s3 c3.t.core (granKey loc) (fun _ => true) = false → redsOn s3 c3.ref c3.who (c3.g.sreg cell.toNat).toNat = [] →
        ∃ t g', exec i s = .next t ∧ OnlyGroup { s3 with mem := t.mem, tags := t.tags, poison := t.poison } t c.ref ∧
          t.group? c.ref = some g' ∧ Moved c3.g g' ∧ P t loc
    cellOps (.carr h sc o cell x) ⟨sc, o, 0⟩ (fun t loc => natAt t loc 4 = (natAt s3 loc 4 + add) % 2 ^ 32 ∧
      ∀ a, a < loc ∨ loc + 4 ≤ a → byteAt t a = byteAt s3 a) ∧
    cellOps (.crst h cell) ⟨.dev, .relaxed, 0⟩ (fun t loc => natAt t loc 8 = 0 ∧ ∀ a, a < loc ∨ loc + 8 ≤ a → byteAt t a = byteAt s3 a) ∧
    (∀ (x' : Nat) (u1 u : State) (g : Gran) (a189 : Acc189), x' = (match x with
        | .r r => (c.g.sreg r.toNat).toNat % 2 ^ 32
        | .i n => n.toNat) →
      let va := c.g.sreg cell.toNat
      let P' := fun u g' => Pends u c { c.g with cwaitDl := none } g' .none
      let P := P' u
      let dl : Option Nat := match tmo with
        | none => none
        | some r => some (c.g.cwaitDl.getD (s.time.toNat + (c.g.sreg r.toNat).toNat))
      let late := ∃ d, dl = some d ∧ d ≤ s.time.toNat
      let s0 := c.mod s (fun g => { g with cwaitDl := dl })
      resultGate c .none = none → check189 s0 c.who va 8 .read = (a189, u1) →
      (∀ k, a189 = .fault k → t = true ∨ late → Claim.from (.cwait h q t sc o cell x tmo) s u1 c fun g' => P' u1 g' (reasonWs q 0x24)) ∧
      ((∃ loc, a189 = .window loc) ∨ (∃ y, a189 = .mem y ∧ y.peer = false ∧ y.host = false) →
      readFor u1 c.ref c.who va 8 8 .read false (.lanes c.ref c.n.x) = (.gran g, u) → g.poison = false →
      u.group? c.ref = some { c.g with cwaitDl := dl } →
      (x' ≤ g.slice (va.toNat % 16) 4 → Claim.from (.cwait h q t sc o cell x tmo) s (withAcquire u c ⟨sc, o, 0⟩) c fun g' => P g' (reasonWs q 0)) ∧
      (¬x' ≤ g.slice (va.toNat % 16) 4 → t = true ∨ late →
        Claim.from (.cwait h q t sc o cell x tmo) s u c fun g' => P g' (reasonWs q 0x24)) ∧
      (¬x' ≤ g.slice (va.toNat % 16) 4 → t = false → ¬late → Claim.from (.cwait h q t sc o cell x tmo) s u c fun g' =>
        g'.cwaitDl = dl ∧ g'.wait = some ⟨.cwait va (g.slice (va.toNat % 16) 8), c.n⟩))) ∧
    (∀ s1 c1 (role : Option (BitVec 2)), roleOk role c = true → Claim.released s s1 c c1 ⟨.core, .rel, 0⟩ →
      ∃ t g' b, exec (.tbar h role) s = .next t ∧ t.group? c.ref = some g' ∧ g'.wait = some ⟨.bell (bellNo role), c.n⟩ ∧
        t.team? c.ref.team = some b ∧ (bellNo role, c.g.grp) ∈ b.arrived ∧ (∀ p ∈ c1.t.arrived, p ∈ b.arrived) ∧
        ∀ p ∈ b.arrived, p ∈ c1.t.arrived ∨ p = (bellNo role, c.g.grp))

/-- QPUSH, QPOP, QALLOW, CARR, CRST, CWAIT and TBAR (R230 to R239): the claims Pigeonholes and CountCells together. -/
def Obligations.QueuesAndCells : Prop := Claim.Pigeonholes ∧ Claim.CountCells

/-! ### Matrix -/

/-- AREL, AACQ and AZERO (R307, R317, R318): the slot's token, its event, and its rows. -/
def Claim.AccumulatorTokens : Prop :=
  ∀ (s : State) (c : Cur) (h : Head) (slot : BitVec 6), cur? s = some c →
    let three := [Instr.arel h slot, .aacq h slot, .azero h slot]
    (c.l.kernel.acc ≤ slot.toNat → ∀ i ∈ three, Faults i s c .illegalOperand) ∧
    ∀ p a, slot.toNat < c.l.kernel.acc → c.t.accs[slot.toNat]? = some p → mfind s.accs (c.t.core * 64 + p) = some a →
      let key := c.t.core * 64 + p
      let grp := c.g.grp
      let sets := fun (i : Instr) (s0 : State) (P : Acc → Prop) => ∃ t g' b, exec i s = .next t ∧
        OnlyGroup { s0 with accs := t.accs, roster := t.roster } t c.ref ∧
        t.group? c.ref = some g' ∧ Moved c.g g' ∧ mfind t.accs key = some b ∧ P b ∧ ∀ k, k ≠ key → mfind t.accs k = mfind s.accs k
      (a.token = .unclaimed ∨ a.token = .held grp →
        sets (.arel h slot) s (fun b => b = { a with
          token := if a.parked.any (fun p => p.1 == grp) then .leaving grp else .engine, event := none, shadows := 0 }) ∧
        sets (.azero h slot) s (fun b =>
          (∀ r col, r < 64 → col < 256 → b.elem r col = if c.n.x.getLsbD (r % c.width) = true then 0 else a.elem r col) ∧
          (∀ r j, r < 64 → j < 64 → c.n.x.getLsbD (r % c.width) = false → b.tag r j = a.tag r j) ∧
          (∀ r j, r < 64 → j < 64 → c.n.x.getLsbD (r % c.width) = true → (h.rule = .keep → b.tag r j = a.tag r j) ∧
            (h.rule = .pass → b.tag r j = 0) ∧ (h.rule = .blame ∨ h.rule = .birth → (b.tag r j).msb = false)) ∧
          b.token = .held grp ∧ b.event = a.event ∧ b.team = a.team)) ∧
      (a.token = .engine ∨ (∃ g, g ≠ grp ∧ (a.token = .held g ∨ a.token = .leaving g)) →
        Faults (.arel h slot) s c .accToken ∧ Faults (.azero h slot) s c .accToken) ∧
      (a.token = .leaving grp → (∀ y ∈ a.parked, ¬(y.1 = grp ∧ c.n.x.getLsbD y.2 = true)) →
        ∀ i ∈ three, exec i s = .next (blockWord s c (.arel p))) ∧
      (∀ g, a.token = .held g ∨ (a.token = .leaving g ∧ g ≠ grp) → Faults (.aacq h slot) s c .accToken) ∧
      (let free := a.token = .unclaimed ∨ (a.token = .engine ∧ a.waits = [] ∧ ∀ m ∈ s.mmas, ¬(m.core = c.t.core ∧ m.phys = p))
       (free → a.event = none →
         sets (.aacq h slot) s (fun b => b = { a with token := .held grp, event := none, shadows := 0 })) ∧
       (free → ∀ e, a.event = some e → ∃ s', exec (.aacq h slot) s = .next (raiseTraps s' c 0 (afterWord c.n).1
           (if e.cause = .shadow then e.ssyn ||| BitVec.ofNat 64 (min 127 a.shadows * 2 ^ 7) else 0) e.sunit e.stile
           ((lanesOf c.n.x).map fun i => ⟨i, e.cause, e.ttag, BitVec.ofNat 64 e.va⟩)) ∧
         s' = { s with accs := s'.accs } ∧ mfind s'.accs key = some { a with token := .held grp, event := none, shadows := 0 }) ∧
       (a.token = .engine → ¬free → ∃ t g', exec (.aacq h slot) s = .next t ∧ t.group? c.ref = some g' ∧
         g' = { c.g with wait := some ⟨.aacq p, c.n⟩ } ∧ mfind t.accs key = some { a with waits := a.waits ++ [grp] }))

/-- MMA at issue (R308 to R310): its checks in their order, and the entry that joins the core's queue. -/
def Claim.MatrixIssue : Prop :=
  ∀ (s : State) (c : Cur) (h : Head) (scaled g pop : Bool) (kx ky : BitVec 4) (sa sb slot : BitVec 6), cur? s = some c →
    let i := Instr.mma h scaled g pop kx ky sa sb slot
    (c.l.kernel.acc ≤ slot.toNat → Faults i s c .illegalOperand) ∧
    ∀ p a, slot.toNat < c.l.kernel.acc → c.t.accs[slot.toNat]? = some p → mfind s.accs (c.t.core * 64 + p) = some a →
      (a.token ≠ .engine → a.token ≠ .leaving c.g.grp → Faults i s c .accToken) ∧
      (a.token = .engine →
        let an := c.g.name kx.toNat
        let bn := c.g.name ky.toNat
        let wa := c.g.sreg sa.toNat
        let wb := c.g.sreg sb.toNat
        let reasons := fun (code : Nat) => Completes i s c (Moved (c.g.setN code))
        (∀ code, resolve s c.t.ctx an (some 2) = .error code ∨
            ((∃ ra, resolve s c.t.ctx an (some 2) = .ok ra) ∧ resolve s c.t.ctx bn (some 2) = .error code) →
          (g = true → exec i s = .next (trapAll s c c.n.x .nameGone 0 0)) ∧ (g = false → reasons code)) ∧
        ∀ ra rb, resolve s c.t.ctx an (some 2) = .ok ra → resolve s c.t.ctx bn (some 2) = .ok rb →
          let inside := fun (r : BitVec 352) (w : Word) => (w.extractLsb' 0 24).toNat < tExt r 0 ∧ (w.extractLsb' 24 24).toNat < tExt r 1 ∧
            (if tCb r = false ∧ tRank r = 3 then (w.extractLsb' 48 8).toNat < tDim r 2 else w.extractLsb' 48 8 = 0)
          let coords := inside ra.record wa ∧ inside rb.record wb
          (¬coords → reasons 0x30) ∧ (coords → mmaShapeOk ra.record rb.record = false → reasons 0x31) ∧
          (coords → mmaShapeOk ra.record rb.record = true →
            (32 ≤ (s.mmas.filter (fun m => m.core == c.t.core)).length → exec i s = .next (blockWord s c .matrix)) ∧
            (∀ s1 c1, (s.mmas.filter (fun m => m.core == c.t.core)).length < 32 →
              (if pop = true ∧ (tCb ra.record = true ∨ tCb rb.record = true) then Claim.pinned s s1 c c1 else s1 = s ∧ c1 = c) →
              ∃ t g' m, exec i s = .next t ∧ OnlyGroup { s1 with mmas := s1.mmas ++ [m], nameCache := t.nameCache } t c.ref ∧
                t.group? c.ref = some g' ∧
                Moved (c1.g.setN 0) g' ∧ (m.core, m.phys, m.g, m.a, m.b, m.sa, m.sb, m.scaled, m.pop, m.rule, m.site) =
                  (c1.t.core, p, c1.ref, ra.record, rb.record, wa, wb, scaled, pop, h.rule, c.n.pc) ∧
                (∀ r, r < 64 → m.rows.getLsbD r = c.n.x.getLsbD (r % c1.width)))))

/-- MMA's values (R311): each block is one exact sum rounded once, the blocks in increasing order; a NaN, an invalid
product or infinities of both signs give 0x7FC00000. -/
def Claim.MatrixValues : Prop :=
  (∀ (c : Nat) (a b : List TEl),
    let cv := decF .f32 c
    let ps := List.zipWith (fun (x y : TEl) => FV.mul x.v y.v) a b
    let z := (addBlock c a b).2.1
    (cv.isNan = true ∨ (∃ x ∈ a ++ b, x.v.isNan = true) ∨ (∃ v ∈ ps, v.isNan = true) ∨
      (FV.inf false ∈ cv :: ps ∧ FV.inf true ∈ cv :: ps) → z = 0x7FC00000) ∧
    (cv.special = false → (∀ v ∈ a ++ b, v.v.special = false) →
      let exact := Claim.val cv + (ps.map Claim.val).sum
      (∀ y, y < 2 ^ 32 → (decF .f32 y).special = false → Claim.val (decF .f32 y) = exact → exact ≠ 0 → z = y) ∧
      (exact ≠ 0 → (decF .f32 z).special = false → ∀ y, y < 2 ^ 32 → (decF .f32 y).special = false →
        |Claim.val (decF .f32 z) - exact| ≤ |Claim.val (decF .f32 y) - exact|))) ∧
  (∀ (m : Mma) (row col c : Nat) (ps : List (List TEl × List TEl)),
    (mmaElem m row col c 0 ps).1 = ps.foldl (fun z (p : List TEl × List TEl) => (addBlock z p.1 p.2).2.1) c) ∧
  (addBlock 0 [⟨.fin false 1 24, 0, false, false⟩, ⟨.fin false 1 0, 0, false, false⟩, ⟨.fin false 1 0, 0, false, false⟩]
    [⟨.fin false 1 0, 0, false, false⟩, ⟨.fin false 1 0, 0, false, false⟩, ⟨.fin false 1 0, 0, false, false⟩]).2.1 = 0x4B800001 ∧
  (addBlock 0x4B800001 [⟨.fin false 1 0, 0, false, false⟩] [⟨.fin false 1 0, 0, false, false⟩]).2.1 = 0x4B800002

/-- MMA at issue and its values (R308 to R311): the claims MatrixIssue and MatrixValues together. -/
def Obligations.MatrixProducts : Prop := Claim.MatrixIssue ∧ Claim.MatrixValues

/-- ALD, AST and ADRN (R320 to R322): rows between memory and a slot, row r of a lane at the base plus r pitches. -/
def Claim.AccumulatorMemory : Prop :=
  (∀ (s : State) (c : Cur) (h : Head) (o : MOrd) (slot : BitVec 6) (m : MemOp) (p : Nat) (a : Acc), cur? s = some c → c.g.peerFail = [] →
    o.order = .relaxed → slot.toNat < c.l.kernel.acc → c.t.accs[slot.toNat]? = some p → mfind s.accs (c.t.core * 64 + p) = some a →
    a.token = .held c.g.grp →
    let four := [Instr.ald h o slot m, .ast h o slot m, .adrnStore h o slot m, .adrnFadd h o slot m]
    let key := c.t.core * 64 + p
    let rows := fun (t : State) (x : Acc → Prop) => ∃ b, mfind t.accs key = some b ∧ x b
    let ready := fun (b : Acc) => { b with parked := b.parked.filter (fun y => y.1 != c.g.grp || !(lanesOf (c.active h)).contains y.2) }
    (pitchBad c.g m = true → ∀ i ∈ four, exec i s = .next (trapAll s c c.n.x .align 0 (rowBase c.g m))) ∧
    (pitchBad c.g m = false →
      (let r := (lanesOf (c.active h)).foldl (aldLane c m) ⟨s, [], [], [], [], none, []⟩
       r.line = none → r.peers = [] → r.parks = [] → r.traps = [] → r.poison = [] → r.s.group? c.ref = some c.g →
       mfind r.s.accs key = some a →
         ∃ t g' n, exec (.ald h o slot m) s = .next t ∧ t.group? c.ref = some g' ∧ Moved c.g g' ∧
           OnlyGroup { r.s with accs := t.accs, roster := t.roster, fetched := t.fetched } t c.ref ∧
           rows t (fun b => b = ready (r.out.foldl (aldPut h.rule n) a))) ∧
      (let sends := fun (i : Instr) (zero : Bool) =>
        let x := (lanesOf (c.active h)).foldl (astLane s.seqN c m a) (AstAcc.start s)
        x.st.parks = [] → x.st.traps = [] → x.poison = [] → storePins c x.st = false → unpinned c = false → x.st.s.group? c.ref = some c.g →
        mfind x.st.s.accs key = some a →
          ∃ t g', exec i s = .next t ∧ t.group? c.ref = some g' ∧
            Moved { c.g with storeQ := c.g.storeQ ++ (x.st.out.foldl addWrite []).map Prod.snd } g' ∧ t.redQ = x.st.s.redQ ++ x.reds ∧
            rows t (fun b => b = ready (if zero then zeroRows x.rows a else a))
       sends (.ast h o slot m) false ∧ sends (.adrnStore h o slot m) true ∧
       (∀ s1 s2 c2, unbound s c.ref = false →
         pinFirst ((lanesOf (c.active h)).foldl (adrnLane s.seqN c m a) (AstAcc.start s)).st.s c = .done s1 → s2 = drainGroup s1 c.ref →
         cur? s2 = some c2 → c2.n = c.n → mfind s2.accs key = some a →
         let x := (lanesOf (c2.active h)).foldl (adrnLane s2.seqN c2 m a) (AstAcc.start s2)
         x.st.parks = [] → x.st.traps = [] → x.poison = [] → x.st.s.group? c.ref = some c2.g → mfind x.st.s.accs key = some a →
           ∃ t g' b, exec (.adrnFadd h o slot m) s = .next t ∧ t.group? c.ref = some g' ∧ Moved c2.g g' ∧ t.redQ = x.st.s.redQ ++ x.reds ∧
             mfind t.accs (c2.t.core * 64 + p) = some b ∧ b.data = (zeroRows x.rows a).data)))) ∧
  (∀ (c : Cur) (m : MemOp) (i r j : Nat) (va : Word), (r, j, va) ∈ rowGrans c m i ↔ r < 64 ∧ j < 64 ∧ r % c.width = i ∧
    va = rowBase c.g m + BitVec.ofNat 64 r * rowPitch c.g m + BitVec.ofNat 64 (16 * j))

/-- AREL, AACQ, AZERO, ALD, AST and ADRN (R307, R317 to R322): the claims AccumulatorTokens and AccumulatorMemory together. -/
def Obligations.Accumulators : Prop := Claim.AccumulatorTokens ∧ Claim.AccumulatorMemory

/-! ### Engines and control programs -/

/-- A word that answers with a reason (R262): q is true for 0 alone, NSTAT takes the reason; `ws` are its other writes. -/
def Claim.answers (i : Instr) (s s1 : State) (c c1 : Cur) (q : BitVec 3) (code : Nat) (ws : List RegW) : Prop :=
  Claim.from i s s1 c fun g' => Pends s1 c1 c1.g g' .none (reasonWs q code ++ ws)

/-- A name that does not resolve: NAME_GONE for every lane of X with .gt, else its reason (R263). -/
def Claim.gone (i : Instr) (s s1 : State) (c c1 : Cur) (q : BitVec 3) (gt : Bool) (code : Nat) : Prop :=
  (gt = true → exec i s = .next (trapAll s1 c1 c1.n.x .nameGone 0 0)) ∧ (gt = false → Claim.answers i s s1 c c1 q code [])

/-- XCOPY, the forms of XFORM and XSTAT (R284, R288, R290, R300): the checks in their order; the command that joins its
engine's queue; the status of the newest recorded command with the cell. -/
def Claim.EngineWords : Prop :=
  ∀ (s : State) (c : Cur) (h : Head) (x : XArgs) (d r : BitVec 6), cur? s = some c → resultGate c .none = none →
    let reg := fun (k : BitVec 6) => c.g.sreg k.toNat
    let find := fun (k : BitVec 4) => resolve s c.t.ctx (c.g.name k.toNat) (some 2)
    (∀ p ∈ [(Instr.xcopy h x, CmdKind.copy), (.xformDec h x, .dec), (.xformPerm h x, .perm), (.xformCvt h x, .cvt), (.xformFill h x, .fill)],
      (∀ code, find x.kx = .error code ∨ (p.2 ≠ .fill ∧ (∃ e, find x.kx = .ok e) ∧ find x.ky = .error code) → Claim.gone p.1 s s c c x.q x.g code) ∧
      ∀ a b s0, find x.kx = .ok a → (if p.2 = .fill then b = a else find x.ky = .ok b) → checkCell s c.who (reg x.sc) = (.ok, s0) →
        let ordered := coordOk p.2 a.record (reg x.sa)
        let shaped := shapeOk p.2 x.tr a.record b.record (reg x.sa) (reg x.sb)
        let e := engineOf p.2 c.t.core
        (ordered = false → Claim.answers p.1 s s0 c c x.q 0x30 []) ∧ (ordered = true → shaped = false → Claim.answers p.1 s s0 c c x.q 0x31 []) ∧
        (ordered = true → shaped = true → engRoom s0 e = false → exec p.1 s = .next (blockWord s0 c (.engine e))) ∧
        (∀ s1 c1, ordered = true → shaped = true → engRoom s0 e = true → pinFirst s0 c = .done s1 → cur? s1 = some c1 → resultGate c1 .none = none →
          ∃ t g' y, exec p.1 s = .next t ∧ t.group? c.ref = some g' ∧ (∀ r', r' ≠ c.ref → t.group? r' = s1.group? r') ∧
            Moved { c1.g with xrec := keepX c1.g.xrec ⟨reg x.sc, s1.seqN, false, 0, 0⟩, pend := g'.pend, sb := g'.sb } g' ∧
            (∃ k, g'.pend = c1.g.pend ++ [⟨k, slotOf c1, .none, c1.n.pc, reasonWs x.q 0, true, false⟩]) ∧
            t.cmds = s1.cmds ++ [y] ∧ (y.eng, y.kind, y.drec, y.srec, y.sa, y.sb, y.rnd, y.sat, y.tr, y.cell, y.start, y.site, y.stage) =
              (e, p.2, a.record, b.record, reg x.sa, reg x.sb, x.rnd, x.sat, x.tr, reg x.sc, x.ts.map reg, c1.n.pc, .queued)))  ∧
    (∀ w : Word, (match c.g.xrec.find? (fun y => y.cell == reg r) with
        | none => w = BitVec.allOnes 64
        | some y => if y.done = true then w = BitVec.ofNat 64 (y.offset * 2 ^ 32 + 2 ^ 16 + y.status) else
          match s.cmd? y.cmd with
          | some k => w = BitVec.ofNat 64 (k.offset * 2 ^ 32 + k.status)
          | none => w = BitVec.ofNat 64 (y.offset * 2 ^ 32 + y.status)) →
      Completes (.xstat h d r) s c (fun g' => Pends s c c.g g' .none [.s d w]))

/-- What a run keeps once it has ended (R400, R419). -/
def Claim.runEnded (v u : State) (r : Run) (state : Nat) : Prop :=
  (∀ x ∈ u.runs, x.id ≠ r.id) ∧
  ∀ e p, entryOf v r.prog = some e → e.obj = .prog p → (∀ n ∈ tensorNames p.table, n ≠ r.prog) → ∃ e', entryOf u r.prog = some e' ∧
    e'.obj = .prog { p with state := state, step := min r.step (p.steps.length - 1), code := r.code, late := r.late, skew := r.skew, runs := (p.runs + 1) % 256 }

/-- CPRUN, CPSTAT and CPSTOP (R337, R418 to R420): CPRUN and CPSTOP commit and pin; the checks in the order of R418, the run that
starts, the status word, and the run that stops, at once or at the end of its block of 256 elements. -/
def Claim.ControlProgramWords : Prop :=
  ∀ (s s1 : State) (c c1 : Cur) (h : Head) (q : BitVec 3) (g : Bool) (kx : BitVec 4) (sa sb sc : BitVec 6), cur? s = some c → resultGate c .none = none →
    (let n := c.g.name kx.toNat
     let stat := Instr.cpstat h q g kx sa
     (∀ code, resolve s c.t.ctx n (some 4) = .error code → Claim.gone stat s s c c q g code) ∧
     (∀ e p, resolve s c.t.ctx n (some 4) = .ok e → progOf s n = some (e.record, p) →
      ∃ w, Claim.answers stat s s c c q 0 [.s sa w] ∧ w.extractLsb' 40 12 = 0 ∧ w.extractLsb' 20 12 = 0 ∧ w.extractLsb' 8 8 = 0 ∧
        (w.extractLsb' 32 8).toNat = p.runs % 256 ∧
        (∀ r, s.runs.find? (fun r => r.prog == n) = some r → (w.extractLsb' 0 8).toNat = r.code % 256 ∧ w.extractLsb' 16 2 = 1 ∧
          (w.extractLsb' 52 12).toNat = min r.step (p.steps.length - 1) % 4096 ∧ w.getLsbD 19 = r.late ∧ w.getLsbD 18 = r.skew) ∧
        ((∀ r ∈ s.runs, r.prog ≠ n) → (w.extractLsb' 0 8).toNat = p.code % 256 ∧ (w.extractLsb' 16 2).toNat = p.state % 4 ∧
          (w.extractLsb' 52 12).toNat = p.step % 4096 ∧ w.getLsbD 19 = p.late ∧ w.getLsbD 18 = p.skew))) ∧
    (Claim.pinned s s1 c c1 → resultGate c1 .none = none →
      let n := c1.g.name kx.toNat
      let run := Instr.cprun h q g kx sa sb sc
      let stop := Instr.cpstop h q g kx
      let x := c1.g.sreg sa.toNat
      let y := c1.g.sreg sb.toNat
      let pends := fun (ready : Bool) => (⟨s1.seqN, slotOf c1, .none, c1.n.pc, reasonWs q 0, ready, false⟩ : PendRes)
      (∀ code, resolve s1 c1.t.ctx n (some 4) = .error code → ∀ i ∈ [run, stop], Claim.gone i s s1 c c1 q g code) ∧
      (∀ e p, resolve s1 c1.t.ctx n (some 4) = .ok e → e.obj = .prog p →
        let job := (x.extractLsb' 32 16).toNat
        let rank := (x.extractLsb' 0 12).toNat
        let count := (y.extractLsb' 0 16).toNat
        let width := (y.extractLsb' 32 32).toNat
        let tensors := tensorNames p.table
        let legal := x.extractLsb' 48 15 = 0 ∧ x.extractLsb' 28 4 = 0 ∧ x.extractLsb' 12 4 = 0 ∧ y.extractLsb' 16 16 = 0 ∧ 1 ≤ count ∧ count ≤ 4096 ∧
          rank < count ∧ ∀ w ∈ p.steps, CpStep.isPeer (cpStep w) = true → (cpStep w).pmode = 0 → (cpStep w).peer < count
        let idle := p.state ≠ 1 ∧ ∀ r ∈ s1.runs, r.job ≠ job ∨ r.rank ≠ rank
        let live := ∀ k ∈ tensors, ∃ b, resolve s1 c1.t.ctx k (some 2) = .ok b
        let room := (s1.runs.filter (fun r => r.die == progDie e.record)).length < 16
        (¬legal → Claim.answers run s s1 c c1 q 0x61 []) ∧ (legal → ¬idle → Claim.answers run s s1 c c1 q 0x60 []) ∧
        (legal → idle → ∀ l k l' code, tensors = l ++ k :: l' → (∀ m ∈ l, ∃ b, resolve s1 c1.t.ctx m (some 2) = .ok b) →
          resolve s1 c1.t.ctx k (some 2) = .error code → Claim.gone run s s1 c c1 q g code) ∧
        (legal → idle → live → stagingBusy s1 (progDie e.record) p = true → Claim.answers run s s1 c c1 q 0x63 []) ∧
        (legal → idle → live → stagingBusy s1 (progDie e.record) p = false → ¬room → Claim.answers run s s1 c c1 q 0x64 []) ∧
        (legal → idle → live → stagingBusy s1 (progDie e.record) p = false → room → c1.g.peerFail = [] →
          ∀ s2 c2, releaseAt s1 c1.ref c1.t.core c1.n.x .dev = .done s2 → cur? s2 = some c2 → c2.n = c.n → resultGate c2 .none = none →
            ∃ t g' r, exec run s = .next t ∧ t.group? c.ref = some g' ∧
              OnlyGroup { s2 with runs := t.runs, roster := t.roster, nameCache := t.nameCache, islands := t.islands } t c.ref ∧
              Pends { s2 with seqN := s2.seqN + 1 } c2 c2.g g' .none (reasonWs q 0) ∧ t.runs = s2.runs ++ [r] ∧
              (r.prog, r.die, r.ctx, r.ether, r.job, r.base, r.rank, r.n) =
                (e.name, progDie e.record, e.owner, x.msb, job, (x.extractLsb' 16 12).toNat, rank, count) ∧
              (r.step, r.loops, r.code, r.late) = (0, [], 0, false) ∧ r.time0 = c1.g.sreg sc.toNat ∧ r.width = width ∧
              r.skew = decide (width = 0 ∨ width < s2.skew.toNat))) ∧
      (∀ e, resolve s1 c1.t.ctx n (some 4) = .ok e →
        ((∀ r ∈ s1.runs, r.prog ≠ n) → Claim.answers stop s s1 c c1 q 0x62 []) ∧
        (∀ r, s1.runs.find? (fun r => r.prog == n) = some r →
          (r.midBlock = true → ∃ t g', exec stop s = .next t ∧ OnlyGroup { s1 with runs := t.runs } t c.ref ∧ t.group? c.ref = some g' ∧
            Moved { c1.g with pend := c1.g.pend ++ [pends false], sb := g'.sb } g' ∧
            t.runs = s1.runs.map fun y => if y.id = r.id then
              { y with stoppers := y.stoppers ++ [(c1.ref, s1.seqN)], stopAt := some (y.stopAt.getD y.blockEnd) } else y) ∧
          (r.midBlock = false → ∃ t g', exec stop s = .next t ∧ t.group? c.ref = some g' ∧ pends true ∈ g'.pend ∧
            Claim.runEnded s1 t { r with code := if r.code = 0 then 0x4A else r.code } 3))))

/-- XCOPY, XFORM, XSTAT, CPRUN, CPSTAT and CPSTOP (R284, R288, R290, R300, R418 to R420): the claims EngineWords and ControlProgramWords together. -/
def Obligations.EngineAndProgramWords : Prop := Claim.EngineWords ∧ Claim.ControlProgramWords

/-! ### Names -/

/-- NNEW (R276): the class and privilege checks, the image's alignment, the record's checks, the claims in their order with the
reason each gives, and for the classes whose record alone decides (a tensor outside the banks, a control window, a space, a
context, a pigeonhole), the entry that is inserted. -/
def Claim.NewNames : Prop :=
  ∀ (s : State) (c : Cur) (h : Head) (q : BitVec 3) (kd : BitVec 4) (cls : BitVec 8) (sa : BitVec 6), cur? s = some c → resultGate c .none = none →
    let i := Instr.nnew h q kd cls sa
    let k := cls.toNat
    let va := c.g.sreg sa.toNat
    (k < 1 ∨ 9 < k → Claim.answers i s (dropFetched s (wordKey c.ref)) c c q 6 [.k kd 0]) ∧
    ((k = 1 ∨ k = 6 ∨ k = 7 ∨ k = 8) → isManager s c.t.ctx = false → Faults i s c .priv) ∧
    (1 ≤ k → k ≤ 9 → (k = 1 ∨ k = 6 ∨ k = 7 ∨ k = 8 → isManager s c.t.ctx = true) → c.g.peerFail = [] →
      ∀ s1 c1 s2 c2, Claim.pinned s s1 c c1 → releaseAt s1 c1.ref c1.t.core c1.n.x .dev = .done s2 → cur? s2 = some c2 → c2.n = c.n →
        (va.toNat % 16 ≠ 0 → exec i s = .next (trapAll s2 c2 c2.n.x .align 0 va)) ∧
        (va.toNat % 16 = 0 → ∀ (img : List Byte), img.length = 48 →
          (∀ (K : State → List Byte → State), withBulk s2 c2 h va 16 48 K = K s2 img) →
          let r : BitVec 352 := (BitVec.ofNat 384 (leNat img)).setWidth 352
          let clean := (BitVec.ofNat 384 (leNat img)).extractLsb' 352 32 = 0
          let fails := fun (code : Nat) => Claim.answers i s (dropFetched s2 (wordKey c2.ref)) c c2 q code [.k kd 0]
          let plain := (k = 2 ∧ tensorOk r = true ∧ tCb r = false) ∨ (k = 3 ∧ pigOk s2 r = true) ∨ (k = 6 ∧ windowRecOk s2 c2.t.ctx r = true)
          let space := k = 1 ∧ spaceOk r = true
          let context := k = 7 ∧ contextOk s2 [c2.t.ctx] r = true
          resultGate c2 .none = none →
          (¬clean ∨ (k = 1 ∧ spaceOk r = false) ∨ (k = 2 ∧ tensorOk r = false) ∨
            (k = 3 ∧ pigOk s2 r = false) ∨ (k = 6 ∧ windowRecOk s2 c2.t.ctx r = false) ∨ (k = 7 ∧ contextOk s2 [c2.t.ctx] r = false) ∨
            (k = 9 ∧ meetingOk s2 r = false) → fails 0x07) ∧
          (clean → (space → cleanSlot s2 = none → fails 0x08) ∧ (context → freeCtx s2 = none → fails 0x0C) ∧
            (plain ∨ (space ∧ cleanSlot s2 ≠ none) ∨ (context ∧ freeCtx s2 ≠ none) → 2 ^ 24 ≤ s2.roster.length → fails 0x09)) ∧
          (clean → s2.roster.length < 2 ^ 24 → plain ∨ (space ∧ cleanSlot s2 ≠ none) →
            let name : Name := cls ++ s2.devno ++ s2.serial ++ s2.nameCnt
            ∃ t g' e, exec i s = .next t ∧ t.group? c.ref = some g' ∧ Pends (dropFetched s2 (wordKey c2.ref)) c2 c2.g g' .none (reasonWs q 0 ++ [.k kd name]) ∧
              entryOf t name = some e ∧ (e.name, e.dying, e.owner, e.hold, e.record) = (name, false, c2.t.ctx, 0, r) ∧
              (∀ n, cleanSlot s2 = some n → space → e.obj = .space n) ∧ t.nameCnt = s2.nameCnt + 1 ∧
              ∀ m, m ≠ name.toNat → mfind t.roster m = mfind s2.roster m)))

/-- NKILL, NRES, NMOV and NINFO (R277, R279). -/
def Claim.NameWords : Prop :=
  ∀ (s : State) (c : Cur) (h : Head) (q : BitVec 3) (g : Bool) (kd ka : BitVec 4) (sd : BitVec 6) (item : BitVec 8), cur? s = some c →
    resultGate c .none = none →
    let n := c.g.name ka.toNat
    (∀ code, resolve s c.t.ctx n none = .error code →
      (∀ i ∈ [Instr.nkill h q g ka, .nres h q g ka, .ninfo h q g ka sd item], Claim.gone i s s c c q g code) ∧
      (g = false → Claim.answers (.nmov h q g kd ka) s s c c q code [.k kd n]) ∧
      (g = true → exec (.nmov h q g kd ka) s =
        .next (trapAll (addPend s c .none true [.k kd n]) (refresh (addPend s c .none true [.k kd n]) c) c.n.x .nameGone 0 0))) ∧
    (∀ e, resolve s c.t.ctx n none = .ok e →
      Claim.answers (.nmov h q g kd ka) s s c c q 0 [.k kd n] ∧
      (∃ t g', exec (.nres h q g ka) s = .next t ∧ OnlyGroup { s with nameCache := t.nameCache } t c.ref ∧ t.group? c.ref = some g' ∧
        Pends s c c.g g' .none (reasonWs q 0) ∧ (c.t.core, n) ∈ t.nameCache ∧ ∀ p ∈ t.nameCache, p ∈ s.nameCache ∨ p = (c.t.core, n)) ∧
      (∃ x, (∃ t g', exec (.ninfo h q g ka sd item) s = .next t ∧ t.group? c.ref = some g' ∧
          ∃ k, g'.pend = c.g.pend ++ [⟨k, slotOf c, .none, c.n.pc, reasonWs q 0 ++ [.s sd x], true, false⟩]) ∧
        (item = 0 → x.toNat = nameClass n + 2 ^ 8 + e.owner * 2 ^ 16 ∨ 2 ^ 48 ≤ e.owner ∨ e.name ≠ n) ∧
        (16 ≤ item.toNat → ∀ j, j < 64 → x.getLsbD j = e.record.getLsbD (64 * (item.toNat - 16) + j))) ∧
      (nameInUse s e = true → Claim.answers (.nkill h q g ka) s s c c q 0x0B []) ∧
      (nameInUse s e = false → ∀ s1 c1, Claim.pinned s s1 c c1 → (entryOf s1 n).isSome = true →
        (∀ e, entryOf s1 n = some e → ∀ tm it al ws, e.obj ≠ .pigeon tm it al ws) →
        ∃ t g', exec (.nkill h q g ka) s = .next t ∧ t.group? c.ref = some g' ∧
          (∃ r, g'.pend = c1.g.pend ++ [r] ∧ r.ready = false ∧ r.writes = reasonWs q 0 ∧ r.id = s1.seqN) ∧
          (entryOf t n).map (·.dying) = some true ∧ (∀ p ∈ t.nameCache, p.2 ≠ n) ∧ ∀ m, m ≠ n.toNat → mfind t.roster m = mfind s1.roster m))

/-- NLD, NST and NCAS (R280 to R282): the name loaded, with its reason; the name stored, with tag 0; and the exchange, which
happens where the place holds the expected name, and with .live only for a name that resolves. -/
def Claim.NamesInMemory : Prop :=
  ∀ (s : State) (c : Cur) (h : Head) (q : BitVec 3) (o : MOrd) (k k' : BitVec 4) (m : MemOp) (live : Bool), cur? s = some c →
    c.g.peerFail = [] → resultGate c .none = none →
    let va := memAddr c.g m 0
    (∀ gr u, readFor s c.ref c.who va 16 16 .read false (.lanes c.ref c.n.x) = (.gran gr, u) → gr.poison = false → u.group? c.ref = some c.g →
      let n := nameOfGran gr
      Claim.answers (.nld h q o k m) s (withAcquire u c o) c c q (match resolve u c.t.ctx n none with
        | .error code => code
        | .ok _ => 0) [.k k n]) ∧
    (∀ s1 c1 s2 c2 p u, Claim.released s s1 c c1 (peerOrd s c o [va.toNat]) →
      let n := c.g.name k.toNat
      let code := resolveCode s1 c1.t.ctx n
      (o.hint = 2 → code ≠ 0 → exec (.nst h q o k m) s = .next (trapAll s1 c1 c1.n.x .nameGone 0 va)) ∧
      (o.hint ≠ 2 ∨ code = 0 → Claim.pinned s1 s2 c1 c2 → resultGate c2 .none = none → unpinned c2 = false → c2.t.uncommitted = [] →
        storeFor s2 c2.who va 16 .write c2.t.id (.lanes c2.ref c2.n.x) [] = (p, u) →
        (∃ loc, p = .window loc) ∨ (∃ x, p = .mem (some x) ∧ x.peer = false) ∨ p = .mem none →
        let w := laneWrite u.seqN c2.ref ((lanesOf c2.n.x).headD 0) c2.t.slot (putVa p va.toNat) 16 n.toNat (zeroTags 16)
        Claim.from (.nst h q o k m) s u c fun g' => Pends u c2 { c2.g with storeQ := c2.g.storeQ ++ [w] } g' .none (reasonWs q code))) ∧
    (∀ s3 c3, Claim.readied s s3 c c3 o [va.toNat] → resultGate c3 .none = none →
      let i := Instr.ncas h live q o k k' m
      let new := c3.g.name k.toNat
      let code := if live then resolveCode s3 c3.t.ctx new else 0
      let want := c3.g.name k'.toNat
      (code ≠ 0 → o.hint ≠ 2 → Claim.answers i s s3 c c3 q code []) ∧
      (code ≠ 0 → o.hint = 2 → exec i s = .next (trapAll s3 c3 c3.n.x .nameGone 0 va)) ∧
      (∀ gr u, code = 0 → readFor s3 c3.ref c3.who va 16 16 .rmw false (.lanes c3.ref c3.n.x) = (.gran gr, u) → u.group? c.ref = some c3.g →
        (∀ loc, (check189 u c3.who va 16 .rmw).1 = .window loc → gr.poison = false →
          let old := nameOfGran gr
          (old ≠ want → Claim.answers i s (withAcquire u c3 o) c c3 q 0x0A [.k k' old]) ∧
          (old = want → ∃ t g', exec i s = .next t ∧ t.group? c.ref = some g' ∧ Pends u c3 c3.g g' .none (reasonWs q 0 ++ [.k k' old]) ∧
            OnlyGroup { withAcquire u c3 o with mem := t.mem, tags := t.tags, poison := t.poison } t c.ref ∧ natAt t loc 16 = new.toNat ∧
            ∀ a, a < loc ∨ loc + 16 ≤ a → byteAt t a = byteAt u a)) ∧
        (∀ x t1 g2 t2, (check189 u c3.who va 16 .rmw).1 = .mem x → rmwBar u c3.t.core (lineKey c3.t.slot va.toNat) o.scope = (false, t1) →
          rmwTake t1 c3.ref c3.who x va.toNat o.scope = (g2, t2) → g2.poison = false →
          let old := nameOfGran g2
          let w := laneWrite t2.seqN c3.ref (firstLane c3.n.x) c3.t.slot va.toNat 16 new.toNat (zeroTags 16)
          let put := rmwPut t2 c3.who x o.scope w
          (old ≠ want → t2.group? c.ref = some c3.g → Claim.answers i s (withAcquire t2 c3 o) c c3 q 0x0A [.k k' old]) ∧
          (old = want → put.group? c.ref = some c3.g → Claim.answers i s (withAcquire put c3 o) c c3 q 0 [.k k' old]))))

/-- NNEW, NKILL, NRES, NMOV, NINFO, NLD, NST and NCAS (R276 to R282): the claims NewNames, NameWords and NamesInMemory together. -/
def Obligations.NameInstructions : Prop := Claim.NewNames ∧ Claim.NameWords ∧ Claim.NamesInMemory

/-! ### Origin tags -/

/-- Tags of results and of granules (R351, R353): under BLAME the first exceptional source's tag when it has E, else born;
under BIRTH born; under PASS the first source's, E set where the result alone is exceptional; under KEEP the old one unless
the result is exceptional; and a write's tag merged with its granule's. -/
def Obligations.TagRules : Prop :=
  (∀ (l : List TSrc) (exc : Bool) (old : Tag),
    let first := l.find? (·.exc)
    let blame := if exc = true then (match first with
      | some f => if f.tag.msb = true then TagSrc.known f.tag else .born true
      | none => .born true) else .born false
    tagResult .blame l exc old = blame ∧ tagResult .birth l exc old = .born exc ∧ tagResult .pass [] exc old = .known 0 ∧
    (∀ f r, l = f :: r → ∃ t : Tag, tagResult .pass l exc old = .known t ∧ (∀ k, k < 15 → t.getLsbD k = f.tag.getLsbD k) ∧
      (t.msb = true ↔ f.tag.msb = true ∨ (exc = true ∧ first = none))) ∧
    tagResult .keep l exc old = if exc = true then blame else .known old) ∧
  (∀ (old : Tag) (ws : List Tag) (whole : Bool),
    (∀ l t r, ws = l ++ t :: r → (∀ x ∈ l, x.msb = false) → t.msb = true → storeMerge old ws whole = t) ∧
    ((∀ x ∈ ws, x.msb = false) → old.msb = true → whole = false → storeMerge old ws whole = old) ∧
    (∀ t r, ws = t :: r → (∀ x ∈ ws, x.msb = false) → (old.msb = false ∨ whole = true) → storeMerge old ws whole = t))

/-- A trap of some lanes of X is owed (R327): the group leaves its clause, the lanes stand on the word, and the request
holds what trap entry writes. -/
def Claim.trapped (s t : State) (c : Cur) (imm : BitVec 8) (cause : Cause) (more : Bool) (ls : List TrapLane) : Prop :=
  ∃ g', OnlyGroup s t c.ref ∧ t.group? c.ref = some g' ∧ g'.trapReq = some ⟨cause, imm, more, ls, 0, 0, (0, 0, 0), c.n⟩ ∧
    g' = { c.g with lanes := g'.lanes, clause := none, trapReq := g'.trapReq, readyAt := g'.readyAt } ∧
    ∀ (i : Nat) (l : Lane), c.g.lanes[i]? = some l → c.n.x.getLsbD i = true → (∃ p ∈ ls, p.lane = i) →
      g'.lanes[i]? = some { l with pc := c.n.pc, ins := some ⟨c.n.hdr, c.n.head⟩ }

/-- TGET, TSET, TCHK and TORG (R358 to R360, R364): the tag as a value; the tag replaced, the lane's bits kept; a trap of
the lanes whose source is exceptional; and the states of a handle. -/
def Claim.TagWords : Prop :=
  ∀ (s : State) (c : Cur) (h : Head) (t : VType) (vd : BitVec 8) (a : Src) (q : BitVec 3) (sd sa : BitVec 6), cur? s = some c →
    (c.vOk vd.toNat false = true → c.srcOk .i32 a = true →
      Claim.vec (.tget h vd a) s c h .i32 vd (fun k => [⟨srcTag c.g .i32 a k, (srcTag c.g .i32 a k).msb⟩])
        (fun k => (srcTag c.g .i32 a k).toNat) (fun _ => false)) ∧
    (c.vOk vd.toNat false = true → c.srcOk .i32 a = true →
      ∀ p ∈ [(TSetF.reg a, fun (k : Nat) (x : Tag) => x = BitVec.ofNat 16 (readSrc c.g .i32 a k)), (.born, fun _ x => x.msb = false),
          (.clre, fun k x => x = c.g.vtag vd.toNat k &&& 0x7FFF)],
        CompletesBirth (.tset h vd p.1) s c fun g' => WritesV c.g g' false vd.toNat (c.active h) (fun k => (c.g.vreg vd.toNat k).toNat) p.2) ∧
    (c.srcOk t a = true →
      ((∀ k, k < 64 → (c.active h).getLsbD k = true → (srcOf c.g t a k).exc = false) → Completes (.tchk h t a) s c (Moved c.g)) ∧
      ((∃ k, k < 64 ∧ (c.active h).getLsbD k = true ∧ (srcOf c.g t a k).exc = true) → c.g.inTrap = false → Standing c →
        ∃ u ro ls, exec (.tchk h t a) s = .next u ∧ Claim.trapped { s with roster := ro } u c 0 .tagCheck false ls ∧
          (∀ k, (∃ p ∈ ls, p.lane = k) ↔ k < 64 ∧ (c.active h).getLsbD k = true ∧ (srcOf c.g t a k).exc = true) ∧
          ∀ p ∈ ls, p.tpc = (afterWord c.n).1 ∧ p.faultva = 0 ∧ p.ttag.msb = true ∧
            ((srcTag c.g t a p.lane).msb = true → p.ttag = srcTag c.g t a p.lane))) ∧
    (resultGate c .none = none →
      let tag := (c.g.sreg sa.toNat).setWidth 16
      let n := tag.toNat % 2 ^ 15
      let says_ := fun (code : Nat) (x y : Word) => ∃ u g' k, exec (.torg h q sd sa) s = .next u ∧ u.group? c.ref = some g' ∧
        g'.pend = c.g.pend ++ [⟨k, slotOf c, .none, c.n.pc, reasonWs q code ++ [.s sd x, .s (sd + 1) y], true, false⟩]
      (n = 0 → says_ 0x50 0 0) ∧ (n = 0x7FFF → says_ 0x51 0 0) ∧ (n ≠ 0 → rollOf s c.l.roll = none → says_ 0x51 0 0) ∧
      ∀ r, rollOf s c.l.roll = some r → n ≠ 0 → n ≠ 0x7FFF →
        (r.broken = true → says_ 0x51 0 0) ∧ (r.broken = false → r.entries.length < n → says_ 0x52 0 0) ∧
        (∀ e, r.broken = false → r.entries[n - 1]? = some e → (∀ x ∈ r.entries, x.written = true) → flushRoll s c.l.roll = s →
          ∃ y : Word, says_ 0 e.site y ∧ (y.extractLsb' 0 32).toNat = e.team % 2 ^ 32 ∧ (y.extractLsb' 32 5).toNat = e.grp % 32 ∧
            (y.extractLsb' 37 2).toNat = e.role % 4 ∧ y.extractLsb' 39 8 = 0 ∧ y.getLsbD 47 = tag.msb ∧
            (y.extractLsb' 48 16).toNat = e.births % 2 ^ 16))

/-- TLDG and TSTG (R361 to R363): a granule's tag loaded as a value; a granule's tag queued to be replaced, no byte written. -/
def Claim.TagMemory : Prop :=
  (∀ (s : State) (c : Cur) (h : Head) (o : MOrd) (d : BitVec 8) (m : MemOp), cur? s = some c → c.g.peerFail = [] →
    c.vOk d.toNat false = true → c.idxOk m = true →
    (resultGate c .none = none →
      let a := (lanesOf (c.active h)).foldl (tldgLane c h d.toNat m) (LoadAcc.start s)
      a.line = none → a.peers = [] → a.parks = [] → a.traps = [] → a.poison = [] → a.s.group? c.ref = some c.g →
        Claim.from (.tldg h o d m) s (withAcquire a.s c o) c fun g' => Pends a.s c c.g g' .none a.ws) ∧
    (∀ s1 c1, Claim.released s s1 c c1 (peerOrd s c o (Claim.places c h m)) →
      let a := (lanesOf (c1.active h)).foldl (tstgLane c1 d.toNat m) (StoreAcc.start s1)
      storePins c1 a = false → unpinned c1 = false → c1.t.uncommitted = [] → a.parks = [] → a.traps = [] → a.s.group? c.ref = some c1.g →
        Claim.from (.tstg h o d m) s a.s c (Moved { c1.g with storeQ := c1.g.storeQ ++ a.out.map Prod.snd }))) ∧
  (∀ (c : Cur) (h : Head) (d : Nat) (m : MemOp) (a : LoadAcc) (i : Nat) (g : Gran) (u : State), a.peers = [] →
    let va := memAddr c.g m i
    readFor a.s c.ref c.who va 16 16 .read false (.lanes c.ref (maskOf [i])) = (.gran g, u) → g.poison = false →
      (tldgLane c h d m a i).ws = a.ws ++ putV false d i g.tag.toNat (match h.rule with
        | .pass => .known g.tag
        | .keep => .known (c.g.vtag d i)
        | _ => .born false)) ∧
  (∀ (c : Cur) (d : Nat) (m : MemOp) (a : StoreAcc) (i loc : Nat) (u : State),
    let va := memAddr c.g m i
    let t : Tag := (c.g.vreg d i).setWidth 16
    let b := tstgLane c d m a i
    storeFor a.s c.who va 16 .write c.t.id (.lanes c.ref (maskOf [i])) a.extra = (.window loc, u) →
      (c.l.kernel.trapstore = true → t.msb = true → b = { a with s := u, traps := a.traps ++ [⟨i, .tagStore, t, va⟩] }) ∧
      (c.l.kernel.trapstore = false ∨ t.msb = false → ∃ w, b = { a with s := u, out := a.out ++ [(.window loc, w)] } ∧
        w.bytes = [] ∧ w.tags = [] ∧ w.tstg = some t))

/-- TGET, TSET, TCHK, TORG, TLDG and TSTG (R358 to R364): the claims TagWords and TagMemory together. -/
def Obligations.TagInstructions : Prop := Claim.TagWords ∧ Claim.TagMemory

/-! ### Reversible words -/

/-- A forward form's issue completes (R372, R376): the newest frame holds an entry for every active lane, and vd its
results. -/
def Claim.forward (i : Instr) (s : State) (c : Cur) (h : Head) (vd : BitVec 8) (a : Src) (fmt : BitVec 8) (op : Nat) (rs : Bool)
    (srcs : Nat → List TSrc) (y : Nat → Nat) (exc : Nat → Bool) (kept : Nat → KeptBits) : Prop :=
  CompletesBirth i s c fun g' => ∃ es : List Word, es.length = c.width ∧
    (∀ k, k < c.width → es[k]? = some (if (c.active h).getLsbD k = true then entryWord (kept k).u (kept k).w (srcTag c.g .f32 a k) (kept k).pay else 0)) ∧
    WritesV { Claim.drawn c.g (c.active h) rs with slate := { c.g.slate with
        chip := ⟨frameHead (c.g.slate.pushes + 1) 0 fmt c.width op es, es⟩ :: c.g.slate.chip, pushes := c.g.slate.pushes + 1
        shadow := c.g.slate.shadow.filter (fun p => p.1 != c.n.pc) } } g' false vd.toNat (c.active h) y fun k tag =>
      ∃ n, tag = TagSrc.tag n (tagResult h.rule (srcs k) (exc k) (c.g.vtag vd.toNat k))

/-- RVMUL, RVADD, RVNAR and RVMAX0 (R372, R376 to R382): a frame pushed on the chip, and the results. -/
def Obligations.ForwardForms : Prop :=
  ∀ (s : State) (c : Cur) (h : Head) (vd fmt : BitVec 8) (a b : Src) (rnd : Rnd) (sat : Bool), cur? s = some c → c.vOk vd.toNat false = true →
    c.srcOk .f32 a = true → c.srcOk .f32 b = true → replayOf c = none →
    let x := readSrc c.g .f32 a
    let z := readSrc c.g .f32 b
    let all := [Instr.rvmul h .f32 vd a b rnd, .rvmul h .i32 vd a b rnd, .rvadd h vd a b rnd, .rvnar h fmt vd a rnd sat, .rvmax0 h vd a]
    let room := c.g.slate.chip.length < chipCap c.l.kernel
    (¬room → regionCap c.l.kernel ≤ c.g.slate.inmem → ∀ i ∈ all, Faults i s c .slateOverflow) ∧
    (¬room → c.g.slate.inmem < regionCap c.l.kernel → chipCap c.l.kernel ≠ 0 → ∀ i ∈ all, exec i s = .next (blockWord s c .spill)) ∧
    (room →
      (let float := fun (i : Instr) (code : Nat) (op : FpOp) (keep : Nat → Nat → Nat → KeptBits) =>
        let lane := fun k => fpLane s c .f32 ⟨rnd, false, false⟩ op k [x k, z k]
        let e := fun k => fpElem .f32 (laneRd s c rnd false 1 k 0) false op [x k % 2 ^ 32, z k % 2 ^ 32]
        Claim.unstruck s c h lane → ∃ y : Nat → Nat, (∀ k, y k = (e k).1 % 2 ^ 32) ∧
          Claim.forward i s c h vd a 0x02 code (rnd == .rs) (fun k => [srcOf c.g .f32 a k, srcOf c.g .f32 b k]) y (fun k => (e k).2)
            (fun k => keep (x k) (z k) (y k))
       float (.rvmul h .f32 vd a b rnd) 1 .mul keepMul ∧ float (.rvadd h vd a b rnd) 3 .add keepAdd) ∧
      Claim.forward (.rvmul h .i32 vd a b rnd) s c h vd a 0x0C 2 false (fun k => [srcOf c.g .i32 a k, srcOf c.g .i32 b k])
        (fun k => (mulInt (readSrc c.g .i32 a k) (readSrc c.g .i32 b k)).1) (fun _ => false)
        (fun k => (mulInt (readSrc c.g .i32 a k) (readSrc c.g .i32 b k)).2) ∧
      (let n := fun k => convertF .f32 (fmtOf fmt) (laneRd s c rnd sat 1 k 0) false (x k)
       Claim.forward (.rvnar h fmt vd a rnd sat) s c h vd a fmt 4 (rnd == .rs) (fun k => [srcOf c.g .f32 a k])
         (fun k => placeF (fmtOf fmt) (n k).1) (fun k => (n k).2) (fun k => keepNar (fmtOf fmt) (x k) (n k).1 (n k).2)) ∧
      Claim.forward (.rvmax0 h vd a) s c h vd a 0x02 5 false (fun k => [srcOf c.g .f32 a k]) (fun k => (maxZero (x k)).1)
        (fun k => specialF .f32 (maxZero (x k)).1) (fun k => (maxZero (x k)).2))

/-- UNMUL, UNADD, UNNAR and UNMAX0 (R384, R385, R386): with the newest frame on chip, its op, format and width are checked,
it is popped, and each active lane with an entry is rebuilt, exceptional as R83 says, which calls an integer division by zero so. -/
def Claim.UndoForms : Prop :=
  ∀ (s : State) (c : Cur) (h : Head) (vd fmt : BitVec 8) (a b : Src), cur? s = some c → c.vOk vd.toNat false = true →
    c.srcOk .f32 a = true → c.srcOk .f32 b = true → resultGate c .none = none →
    let y := readSrc c.g .f32 a
    let z := readSrc c.g .f32 b
    let special := fun (_ : Nat) (_ : Word) (out : Nat) => specialF .f32 out
    let byZero := fun (k : Nat) (e : Word) (_ : Nat) => !entryW e && readSrc c.g .i32 b k % 2 ^ 32 == 0
    let four := [(Instr.unmul h .f32 vd a b, ((0x02 : BitVec 8), 1, special), fun k p => undoMul (y k) (z k) p),
      (.unmul h .i32 vd a b, (0x0C, 2, byZero), fun k p => undoMulInt (readSrc c.g .i32 a k) (readSrc c.g .i32 b k) p),
      (.unadd h vd a b, (0x02, 3, special), fun k p => undoAdd (y k) (z k) p),
      (.unnar h fmt vd a, (fmt, 4, special), fun k p => undoNar (fmtOf fmt) (readFmt c.g fmt a k) p),
      (.unmax0 h vd a, (0x02, 5, special), fun k _ => y k)]
    ∀ p ∈ four,
      (c.g.slate.chip = [] → c.g.slate.inmem = 0 → Faults p.1 s c .slateUnderflow) ∧
      ∀ f rest, c.g.slate.chip = f :: rest →
        let fits := headOp f.head = p.2.1.2.1 ∧ headFmt f.head = p.2.1.1 ∧ headWidth f.head = widthCode c.width
        (¬fits → Faults p.1 s c .slateOrder) ∧
        (fits → ∃ ws, Completes p.1 s c (fun g' => Pends s c { c.g with slate := { c.g.slate with chip := rest } } g' .none ws) ∧
          ∀ r k v t, .v r k v t ∈ ws ↔ k < 64 ∧ (c.active h).getLsbD k = true ∧ r = vd.toNat ∧ ∃ e, f.entries.getD k 0 = e ∧ entryV e = true ∧
            let out := if entryW e = true then entryPay e else p.2.2 k (entryPay e)
            v = BitVec.ofNat 32 out ∧ t = undoTag h.rule e (p.2.1.2.2 k e out) (c.g.vtag vd.toNat k))

/-- R385: with the y and b of the forward issue the undo gives back the source bit for bit; RVNAR's to f16 and
bf16; an addition's −0 apart, where the table's exact zero gives +0. -/
def Obligations.UndoGivesBackSource : Prop :=
  ∀ (a b : Nat) (rd : Rd) (f : NF), a < 2 ^ 32 → b < 2 ^ 32 →
    let back := fun (k : KeptBits) (z : Nat) => (if k.w = true then k.pay else z) = a
    (let y := (fpElem .f32 rd false .mul [a, b]).1
     back (keepMul a b y) (undoMul y b (keepMul a b y).pay)) ∧
    (let y := (fpElem .f32 rd false .add [a, b]).1
     a ≠ 2 ^ 31 → back (keepAdd a b y) (undoAdd y b (keepAdd a b y).pay)) ∧
    back (mulInt a b).2 (undoMulInt (mulInt a b).1 b (mulInt a b).2.pay) ∧
    (let n := convertF .f32 f rd false a
     f = .f16 ∨ f = .bf16 → back (keepNar f a n.1 n.2) (undoNar f n.1 (keepNar f a n.1 n.2).pay)) ∧
    back (maxZero a).2 (maxZero a).1

/-- SLMARK, SLDROP and SLDEPTH (R387 to R390) with the frames concerned on chip. -/
def Claim.SlateMarks : Prop :=
  ∀ (s : State) (c : Cur) (h : Head) (id : BitVec 16) (d : BitVec 6), cur? s = some c →
    let x := c.g.slate
    let zeros := List.replicate c.width (0 : Word)
    (x.chip.length < chipCap c.l.kernel → Completes (.slmark h id) s c (Moved { c.g with slate := { x with
      chip := ⟨frameHead (x.pushes + 1) id 0 c.width 15 zeros, zeros⟩ :: x.chip, pushes := x.pushes + 1 } })) ∧
    (∀ l f r, x.chip = l ++ f :: r → headOp f.head = 15 → headMark f.head = id → (∀ y ∈ l, ¬(headOp y.head = 15 ∧ headMark y.head = id)) →
      Completes (.sldrop h id) s c (Moved { c.g with slate := { x with chip := r } })) ∧
    ((∀ y ∈ x.chip, ¬(headOp y.head = 15 ∧ headMark y.head = id)) → x.inmem = 0 → Faults (.sldrop h id) s c .slateUnderflow) ∧
    (resultGate c .none = none → ∃ w : Word, Completes (.sldepth h d) s c (fun g' => Pends s c c.g g' .none [.s d w]) ∧
      w.extractLsb' 56 8 = 0 ∧ (w.extractLsb' 28 28).toNat = x.inmem % 2 ^ 28 ∧ (w.extractLsb' 0 28).toNat = (x.chip.length + x.inmem) % 2 ^ 28)

/-- UNMUL, UNADD, UNNAR, UNMAX0, SLMARK, SLDROP and SLDEPTH (R384 to R390): the claims UndoForms and SlateMarks together. -/
def Obligations.UndoFormsAndMarks : Prop := Claim.UndoForms ∧ Claim.SlateMarks

/-! ### Traps and launches -/

/-- TRAP, BRK and TRET (R331 to R333); in a handler a further trap ends the team with TRAP_STATE (R330); the lowest
trapping lane's cause enters, and lanes of another cause stay on the word (R327). -/
def Claim.TrapWords : Prop :=
  (∀ (s : State) (c : Cur) (h : Head) (code : BitVec 8), cur? s = some c → c.n.x ≠ 0 →
    let lanes := fun (tpc : Word) => (lanesOf c.n.x).map fun i => (⟨i, tpc, 0, 0⟩ : TrapLane)
    (c.g.inTrap = false → Standing c →
      (∃ t, exec (.trap h code) s = .next t ∧ Claim.trapped s t c code .trap false (lanes (nextHeader c.n))) ∧
      (∃ t, exec (.brk h) s = .next t ∧ Claim.trapped s t c 0 .brk false (lanes (afterWord c.n).1))) ∧
    (c.g.inTrap = true → ∀ i ∈ [Instr.trap h code, .brk h], ∃ e, exec i s = .next (endTeam s c.t.id e) ∧ e.cause = .trapState)) ∧
  (∀ (s : State) (c : Cur) (imm : BitVec 8) (tpc : Word) (ts rest : List LaneTrap) (t0 : LaneTrap), cur? s = some c → Standing c →
    c.g.inTrap = false → byLane ts = t0 :: rest →
    (t0 ∈ ts ∧ ∀ t ∈ ts, t.lane < 64 → t0.lane ≤ t.lane) ∧
    ∃ more, (more = true ↔ ∃ t ∈ rest, t.cause ≠ t0.cause) ∧ Claim.trapped s (raiseTraps s c imm tpc 0 0 (0, 0, 0) ts) c imm t0.cause more
      (((t0 :: rest).filter (fun t => t.cause == t0.cause)).map fun t => ⟨t.lane, tpc, t.ttag, t.faultva⟩)) ∧
  (∀ (s : State) (c : Cur) (h : Head), cur? s = some c →
    let ls := (lanesOf c.n.x).filterMap (fun i => c.g.lane i)
    (c.g.inTrap = false ∨ c.n.x ≠ c.g.live ∨ badSaved c.g.saved = true ∨ (∃ l ∈ ls, l.depth ≠ l.depthAt) → Faults (.tret h) s c .trapState) ∧
    (c.g.inTrap = true → c.n.x = c.g.live → badSaved c.g.saved = false → (∀ l ∈ ls, l.depth = l.depthAt) →
      (∀ l ∈ ls, Back.isFault (backOf s c l) = false) →
      ((∃ l ∈ ls, Back.isIllegal (backOf s c l) = true) → Faults (.tret h) s c .illegalClause) ∧
      ((∀ l ∈ ls, Back.isIllegal (backOf s c l) = false) → c.g.pend ≠ [] → exec (.tret h) s = .next (blockWord s c .tretDrain)) ∧
      ((∀ l ∈ ls, Back.isIllegal (backOf s c l) = false) → c.g.pend = [] → Standing c →
        ∃ t g', exec (.tret h) s = .next t ∧ OnlyGroup s t c.ref ∧ t.group? c.ref = some g' ∧ g'.inTrap = false ∧
          g'.loops = savedLoops c.g.saved ∧ g'.clause = none ∧ (g'.s, g'.p, g'.q, g'.k, g'.v, g'.vt) = (c.g.s, c.g.p, c.g.q, c.g.k, c.g.v, c.g.vt) ∧
          ∀ (i : Nat) (l : Lane), c.g.lanes[i]? = some l → ∃ l', g'.lanes[i]? = some l' ∧
            (c.n.x.getLsbD i = true → l' = { l with pc := l.tpc, ins := Back.place (backOf s c l), trap := .none, st := l'.st } ∧
              (l'.st = .ready ∨ l'.st = .loopHeld l.tpc)) ∧
            (c.n.x.getLsbD i = false → l.trap = .held → l'.trap = .none ∧ l'.pc = l.pc))))

/-- LAUNCH (R159, R160): its address checks, and the packet that joins the context's queue. -/
def Claim.LaunchWord : Prop :=
  ∀ (s : State) (c : Cur) (h : Head) (a : BitVec 6), cur? s = some c →
    let va := c.g.sreg a.toNat
    let i := Instr.launch h a
    (va.toNat % 64 ≠ 0 → exec i s = .next (trapAll s c c.n.x .align 0 va)) ∧
    (va.toNat % 64 = 0 → 2 ^ 55 ≤ va.toNat → exec i s = .next (trapAll s c c.n.x .badAddress 0 va)) ∧
    (va.toNat % 64 = 0 → va.toNat < 2 ^ 55 → c.g.peerFail = [] → ∀ s1 c1 s2 c2, Claim.pinned s s1 c c1 →
      releaseAt s1 c.ref c.t.core c.n.x .dev = .done s2 → cur? s2 = some c2 → c2.n = c.n →
      let mine := (s2.launches.filter (fun l => l.ctx == c2.t.ctx && l.holdsEntry)).length
      (256 ≤ mine → exec i s = .next (blockWord s2 c2 .launchQ)) ∧
      (∀ b : List Byte, mine < 256 → (∀ (K : State → List Byte → State), withBulk s2 c2 h va 64 64 K = K s2 b) →
        ∃ t g' l, exec i s = .next t ∧ OnlyGroup { s2 with launches := t.launches, fetched := t.fetched } t c.ref ∧ t.group? c.ref = some g' ∧
          Moved c2.g g' ∧ t.launches = s2.launches ++ [l] ∧ (l.ctx, l.src, l.stage, l.order) = (c2.t.ctx, va.toNat, .queued, s2.seqN) ∧
          l.packet = BitVec.ofNat 512 (leNat b)))

/-- TRAP, BRK, TRET and LAUNCH (R159, R160, R327 to R333): the claims TrapWords and LaunchWord together. -/
def Obligations.TrapsAndLaunches : Prop := Claim.TrapWords ∧ Claim.LaunchWord

/-! ### Events of the pipes and of the memory side -/

/-- A group's wait ends: it is eligible from now on, and nothing else of it changes (R168). -/
def Claim.wakes (i : Instr) (s : State) (r : GRef) (g : Group) : Prop :=
  ∃ t, exec i s = .next t ∧ OnlyGroup s t r ∧ t.group? r = some { g with wait := none, readyAt := s.seqN }

/-- CLAUSE_ENTRY and OVERRUN (R48, R49, R128, R153, R168): the group that became ready first, of several the next in rotation after
the one last served, enters the clause at the lowest place of its ready lanes, with X the lanes that stand there; a header that is none ends its team; a word with no issues left. -/
def Claim.ClauseEntry : Prop :=
  (∀ (s s1 : State) (core pipe : Nat) (t : Team) (g : Group) (pc : Word) (x : Mask) (w : Word), pipe < 4 → pipeBusy s core pipe = false →
    pickGroup (lastServed s core pipe) (eligibles s core) = some (t, g) → s.group? ⟨t.id, g.grp⟩ = some g → s.team? t.id = some t →
    issueAt g = some (pc, none, x) →
    (∀ p ∈ eligibles s core, g.readyAt ≤ p.2.readyAt ∧
      (p.2.readyAt = g.readyAt → turnOf (lastServed s core pipe) g.grp ≤ turnOf (lastServed s core pipe) p.2.grp)) ∧
    (∀ i, i < 64 → g.ready.getLsbD i = true → ∃ l, g.lane i = some l ∧ pc.toNat ≤ l.pc.toNat ∧ (x.getLsbD i = true ↔ l.pc = pc ∧ l.ins = none)) ∧
    (t.ending = none → pc.toNat % 8 ≠ 0 ∨ (fetchWord s t.core t.slot pc = (.word w, s1) ∧ decodeHeader w = none) →
      ∃ u e, exec (.clauseEntry core pipe) s = .next u ∧ (u.team? t.id).map (·.ending) = some (some e) ∧ e.cause = .illegalClause ∧ e.pc = pc) ∧
    (pc.toNat % 8 = 0 → fetchWord s t.core t.slot pc = (.word w, s1) → ∀ hd, decodeHeader w = some hd →
      ∃ u, exec (.clauseEntry core pipe) s = .next u ∧ OnlyGroup { s1 with served := u.served } u ⟨t.id, g.grp⟩ ∧
        u.group? ⟨t.id, g.grp⟩ = some { g with clause := some ⟨pc, hd, x, 0, pipe, false⟩ } ∧ ⟨t.id, g.grp⟩ ∈ u.issuing ∧
        lastServed u t.core pipe = g.grp)) ∧
  (∀ (s : State) (r : GRef) (t : Team) (g : Group) (cl : Clause), s.team? r.team = some t → t.ending = none → s.group? r = some g →
    g.clause = some cl → g.ylddl = 0 → cl.redo = false → g.wait = none →
    ∃ u e, exec (.overrun r) s = .next u ∧ (u.team? r.team).map (·.ending) = some (some e) ∧ e.cause = .overrun ∧ e.pc = cl.pc)

/-- RESULT_RETURN, SWITCH_WAKE, QUEUE_ENTRY_FREE and YLD_DRAIN_COMPLETE (R51 to R55, R81, R154): the results of a queue return in issue
order. -/
def Claim.ResultEvents : Prop :=
  ∀ (s : State) (r : GRef) (g : Group), s.group? r = some g →
    (∀ n p, g.pend.find? (fun p => p.id == n && p.ready && g.queueHead p) = some p → ∃ t g' k, exec (.resultReturn r n) s = .next t ∧ OnlyGroupBirth s t r ∧
      t.group? r = some g' ∧ g'.pend = g.pend.filter (fun q => q.id != n) ∧
      (∀ j, mget 0 g'.sb j = mget 0 g.sb j - if p.slot = some j then 1 else 0) ∧
      g' = { Group.writes k (g.dropPend p) p.writes with wait := g'.wait, readyAt := g'.readyAt }) ∧
    (∀ w t, g.wait = some w → s.team? r.team = some t →
      (w.why = .switch → g.pend = [] → Claim.wakes (.switchWake r) s r g) ∧
      (∀ sc, w.why = .acquire sc → (∀ p ∈ g.pend, p.ready = true) → ∃ u, exec (.switchWake r) s = .next u ∧ (u.group? r).map (·.wait) = some none ∧
        u.stale = Claim.copies s t.core sc) ∧
      (w.why = .sfuFull → (g.pend.filter (fun p => p.queue == .sfu)).length < 16 → Claim.wakes (.queueEntryFree r) s r g) ∧
      (w.why = .cvtFull → (g.pend.filter (fun p => p.queue == .cvt)).length < 16 → Claim.wakes (.queueEntryFree r) s r g) ∧
      (w.why = .yldDrain → g.pend = [] → t.preempt = false → Claim.wakes (.yldDrainComplete r) s r g) ∧
      (w.why = .yldDrain → g.pend = [] → t.preempt = true → ∃ u, exec (.yldDrainComplete r) s = .next u ∧ OnlyGroup s u r ∧
        u.group? r = some { g with wait := some ⟨.preempt, w.now⟩ }))

/-- JOIN_RELEASE, LOOP_END_STEP and DEFER_RELEASE (R143 to R149): every live lane held, the lowest point at a JOIN; at the
innermost loop's end, another pass, the loop's end, or LOOP_DIVERGED; and the deferred lanes that all others have passed, together. -/
def Claim.LaneReleases : Prop :=
  ∀ (s : State) (r : GRef) (t : Team) (l : Launch) (g : Group), s.team? r.team = some t → s.launch? t.launch = some l → s.group? r = some g →
    let k := l.kernel
    let live := fun (i : Nat) (x : Lane) => g.live.getLsbD i = true ∧ g.lanes[i]? = some x
    let held := g.live ≠ 0 ∧ ∀ i x, live i x → (LState.point x.st).isSome = true
    let lanes := fun (e : Instr) (loops : List LoopEntry) (P : Nat → Lane → Lane → Prop) => ∃ u g', exec e s = .next u ∧ OnlyGroup s u r ∧
      u.group? r = some g' ∧ g' = { g with lanes := g'.lanes, loops := loops, readyAt := s.seqN } ∧ g'.lanes.length = g.lanes.length ∧
      ∀ (i : Nat) (x : Lane), g.lanes[i]? = some x → ∃ y, g'.lanes[i]? = some y ∧ P i x y
    (∀ h, held → (∃ i x, live i x ∧ x.st = .joinHeld h) → (∀ i x p, live i x → LState.point x.st = some p → h.toNat ≤ p.toNat) →
      (∀ i x, live i x → x.st ≠ .loopHeld h) →
      lanes (.joinRelease r) g.loops fun i x y => if g.live.getLsbD i = true ∧ x.st = .joinHeld h then Takes k g.loops x.pc { x with st := .ready } y else y = x) ∧
    (∀ e rest, g.loops = e :: rest → held → (∀ i x, live i x → x.st = .loopHeld (textWord k e.stop)) →
      (1 < e.remaining → lanes (.loopEndStep r) ({ e with remaining := e.remaining - 1 } :: rest) fun i x y =>
        if g.live.getLsbD i = true then y = { x with pc := textWord k e.start, ins := none, st := .ready } else y = x) ∧
      (e.remaining ≤ 1 → (∀ e2 r2, rest = e2 :: r2 → ¬(e2.stop = e.stop ∧ e2.depth = e.depth)) → lanes (.loopEndStep r) rest fun i x y =>
        if g.live.getLsbD i = true then y = { x with st := .ready } else y = x)) ∧
    (t.ending = none → ∀ e rest h, g.loops = e :: rest → held → (∃ i x, live i x ∧ x.st = .loopHeld h) →
      (∀ i x p, live i x → LState.point x.st = some p → h.toNat ≤ p.toNat ∧ x.st ≠ .joinHeld h) → (∃ i x, live i x ∧ x.st ≠ .loopHeld h) →
      ∃ u d, exec (.loopEndStep r) s = .next u ∧ (u.team? r.team).map (·.ending) = some (some d) ∧ d.cause = .loopDiverged) ∧
    (let due := fun (i : Nat) (x : Lane) => live i x ∧ ∃ d seen, x.st = .deferred d seen ∧
       ∀ j y, live j y → j = i ∨ seen.getLsbD j = true ∨ (∃ a b, y.st = .deferred a b) ∨ (LState.point y.st).isSome = true
     ∀ i x, i < 64 → due i x →
      lanes (.deferRelease r i) g.loops fun j y z => (due j y → Takes k g.loops y.pc { y with st := .ready } z) ∧ (¬due j y → z = y))

/-- The events of clauses and results (R48 to R55, R81, R128, R143 to R149, R153, R154, R168): the claims ClauseEntry, ResultEvents and LaneReleases together. -/
def Obligations.IssueEvents : Prop := Claim.ClauseEntry ∧ Claim.ResultEvents ∧ Claim.LaneReleases

/-- The fault path (R216, R217, R433, R434): DIE_FAULT_WALK, FAULT_RECORD_WRITE, RESOLVE_RETRY, RESOLVE_REFUSE of a store's
page, the rings' consumer counts, and ERROR_RECORD_FORWARD. -/
def Obligations.FaultPath : Prop :=
  ∀ (s : State) (f : FaultReq), s.faults.find? (fun x => x.id == f.id) = some f →
    (f.cause = none → (∀ k ∈ kindsOf f.kinds, ∃ x, translatePure s f.slot (f.page * 4096) k = .ok x) →
      ∃ t, exec (.dieFaultWalk f.id) s = .next t ∧ t = f.who.foldl replayWaiter { s with faults := s.faults.filter (fun x => x.id != f.id) }) ∧
    (f.cause = none → ∀ l k r code, kindsOf f.kinds = l ++ k :: r → (∀ j ∈ l, ∃ x, translatePure s f.slot (f.page * 4096) j = .ok x) →
      translatePure s f.slot (f.page * 4096) k = .error code → ∃ t, exec (.dieFaultWalk f.id) s = .next t ∧
        t = { s with faults := t.faults } ∧ t.faults.length = s.faults.length ∧ ∃ x ∈ t.faults, x = { f with cause := some code }) ∧
    (∀ code, f.cause = some code → f.seq = none → (s.ctrl.frprod - s.ctrl.frcons).toNat < s.ctrl.frsize.toNat →
      let n := mget 0 s.faultSeq f.die + 1
      let pa := s.ctrl.frbase.toNat + 48 * (s.ctrl.frprod.toNat % s.ctrl.frsize.toNat)
      ∃ t, exec (.faultRecordWrite f.id) s = .next t ∧
        t = { s with mem := t.mem, ctrl := { s.ctrl with frprod := s.ctrl.frprod + 1 }, faultSeq := t.faultSeq, faults := t.faults } ∧
        (∃ x ∈ t.faults, x = { f with seq := some n }) ∧ mget 0 t.faultSeq f.die = n ∧ natAt t (hostLoc pa) 48 = (faultRecord f code n).toNat ∧
        ∀ a, a < hostLoc pa ∨ hostLoc pa + 48 ≤ a → byteAt t a = byteAt s a) ∧
    (∀ n : Word, s.faults.find? (fun x => x.die == f.die && x.seq == some n.toNat) = some f →
      exec (.resolveRetry f.die n) s = .next (f.who.foldl replayWaiter { s with faults := s.faults.filter (fun x => x.id != f.id) }) ∧
      (∀ team t, f.who = [.store team] → s.cells = [] → s.team? team = some t → t.ending = none → ∃ u e, exec (.resolveRefuse f.die n) s = .next u ∧
        (∀ x ∈ u.faults, x.id ≠ f.id) ∧ (u.team? team).map (·.ending) = some (some e) ∧ e.cause = .faultUnmapped ∧ e.va = f.page * 4096)) ∧
    (s.ctrl.status = 2 → ∀ x : Word, exec (.faultRingConsume x) s = .next { s with ctrl := { s.ctrl with frcons := x } } ∧
      exec (.errorRingConsume x) s = .next { s with ctrl := { s.ctrl with ercons := x } }) ∧
    (∀ r rest, s.errBuf = r :: rest → (s.ctrl.erprod - s.ctrl.ercons).toNat < s.ctrl.ersize.toNat →
      let pa := hostLoc (s.ctrl.erbase.toNat + 64 * (s.ctrl.erprod.toNat % s.ctrl.ersize.toNat))
      ∃ t, exec .errorRecordForward s = .next t ∧ t = { s with mem := t.mem, errBuf := rest, ctrl := { s.ctrl with erprod := s.ctrl.erprod + 1 } } ∧
        natAt t pa 64 = r.toNat ∧ ∀ a, a < pa ∨ pa + 64 ≤ a → byteAt t a = byteAt s a)

/-- The store queue, ownership, copies and reductions (R191 to R193, R207, R226): STORE_QUEUE_DRAIN, OWNERSHIP_GRANT,
INVALIDATION_RECEIVE, RED_ARRIVAL and IINV_ACK. -/
def Claim.CoherenceEvents : Prop :=
  (∀ (s : State) (r : GRef) (t : Team) (g : Group) (w : GWrite) (rest : List GWrite), s.team? r.team = some t → s.group? r = some g →
    g.storeQ = w :: rest → unbound s r = false → heldBack s t.core w = false →
    let gives := fun (P : State → Prop) => ∃ u, exec (.storeQueueDrain r) s = .next u ∧ u.group? r = some { g with storeQ := rest } ∧ P u
    (∀ cl off, zoneOf t.core w.va = .window cl off → gives fun u =>
      granAt u (sramLoc cl off) = Gran.write true (granAt s (sramLoc cl off)) w ∧ ∀ a, a / 16 ≠ sramLoc cl off / 16 → byteAt u a = byteAt s a) ∧
    (zoneOf t.core w.va = .mapped → ∀ x s1, translate (s.modGroup r (fun g => { g with storeQ := rest })) w.slot w.va .write = (.ok x, s1) →
      x.peer = false →
      let v := aliasFill s1 w.slot w.va x
      (ownsLine v t.core w.line = true → redAhead v t.core w = false → gives fun u =>
        granAt u (x.loc w.va) = Gran.write x.tagged (granAt v (x.loc w.va)) w ∧ ∀ a, a / 16 ≠ x.loc w.va / 16 → byteAt u a = byteAt v a) ∧
      (ownsLine v t.core w.line = false ∨ redAhead v t.core w = true → gives fun u => u.ev = v.ev ++ [⟨t.core, .core, w⟩] ∧
        (∀ e ∈ v.ev, e ∈ s.ev) ∧ inL1 u t.core w.line = true))) ∧
  (∀ (s : State) (core line : Nat) (x : Xlat) (s1 : State), let ws := grantWrites s core line
    ws ≠ [] → engineOwns s line = false →
    (∀ w ∈ ws, waitsPage s w.slot w.va (.store w.g.team) = false ∧ heldCommit s w.g.team = false ∧ ∀ q ∈ s.redQ, q.g ≠ w.g) →
    translate s (lineSlot line) (lineVa line) .write = (.ok x, s1) → x.peer = false → s.cells = [] → s.hostHeld = [] →
    ∃ t, exec (.ownershipGrant core line) s = .next t ∧ (∀ e ∈ t.ev, grantable core line e = false) ∧
      (∃ l ∈ t.cdir, l.key = line ∧ l.has core = true ∧ l.st = .M)) ∧
  (∀ (s : State) (core line : Nat),
    ((staleOf s core line).isSome = true → ∃ t, exec (.invalidationReceive core line) s = .next t ∧ t = { s with stale := t.stale } ∧
      ∀ l, l ∈ t.stale ↔ l ∈ s.stale ∧ ¬(l.core = core ∧ lineKey l.slot l.va = line)) ∧
    ((staleOf s core line).isSome = false → inL1 s core line = true → (∃ e ∈ s.ev, e.w.line = line ∧ e.core ≠ core) →
      (∃ x, locate s (lineSlot line) (lineVa line) = some x) → ∃ t l, exec (.invalidationReceive core line) s = .next t ∧
        t.stale = s.stale ++ [l] ∧ l.core = core ∧ lineKey l.slot l.va = line ∧ (∀ a, byteAt t a = byteAt s a) ∧
        ∀ c, inL1 t c line = true → inL1 s c line = true ∧ (c = core → ∃ e ∈ s.ev, e.w.line = line ∧ e.core = core))) ∧
  (∀ (s : State) (q : RedReq) (cl off : Nat), s.redQ.find? (fun p => p.id == q.id) = some q → redBlocked s q = false →
    zoneOf q.core q.va = .window cl off → engineOwns s (granKey (sramLoc cl off)) = false → s.cells = [] → s.hostHeld = [] →
    ∃ t, exec (.redArrival q.id) s = .next t ∧ (∀ p ∈ t.redQ, p.id ≠ q.id) ∧
      granAt t (sramLoc cl off) = Gran.write true (granAt (redWrite s q (granAt s (sramLoc cl off))).2 (sramLoc cl off)) (redWrite s q (granAt s (sramLoc cl off))).1 ∧
      ∀ a, a / 16 ≠ sramLoc cl off / 16 → byteAt t a = byteAt s a) ∧
  (∀ (s : State) (r : GRef) (g : Group) (w : Waiting), s.group? r = some g → g.wait = some w → w.why = .iinv → Claim.wakes (.iinvAck r) s r g)

/-- Recalls and invalidations (R191, R195, R209, R212): no L1 holds the line but one with an early-visible write of it still on its
way; a second name replaces the first; an invalidation leaves no entry of a TLB or walk cache that it names. -/
def Claim.Recalls : Prop :=
  (∀ (s : State) (line : Nat),
    let gone := fun (t : State) => ∀ core, inL1 t core line = true → ∃ e ∈ t.ev, e.core = core ∧ e.w.line = line
    (∀ x, locate s (lineSlot line) (lineVa line) = some x → x.peer = false) →
    (∃ t, exec (.directoryRecall line) s = .next t ∧ gone t) ∧ (∃ t, exec (.directoryEviction line) s = .next t ∧ gone t) ∧
    (∀ p slot va, s.aliases.find? (fun a => a.1 == p) = some (p, slot, va) → lineKey slot va = line →
      ∃ t, exec (.aliasRecordDrop p) s = .next t ∧ gone t ∧ ∀ a ∈ t.aliases, a.1 ≠ p)) ∧
  (∀ (s : State) (line slot : Nat) (va : Word) (x : Xlat) (s1 : State), va.toNat < 2 ^ 55 → translate s slot va.toNat .read = (.ok x, s1) →
    x.peer = false → x.loc va.toNat / 128 = line → ∃ t, exec (.aliasRecall line slot va) s = .next t ∧
      t.aliases.find? (fun a => a.1 == line) = some (line, slot, va.toNat / 128 * 128)) ∧
  (∀ (s : State) (asid : BitVec 16) (va : Word), (∀ l ∈ s.cdir, l.va < 2 ^ 56) → (∀ e ∈ s.ev, e.w.va < 2 ^ 56) → (∀ l ∈ s.stale, l.va < 2 ^ 56) →
    (∃ t, exec (.tlbInvalidation .all) s = .next t ∧ t.tlb = [] ∧ t.walks = [] ∧ t.icache = []) ∧
    (∃ t, exec (.tlbInvalidation (.byAsid asid)) s = .next t ∧ ∀ n ∈ asidSlots s asid, (∀ x ∈ t.tlb, x.slot ≠ n) ∧ ∀ x ∈ t.walks, x.slot ≠ n) ∧
    (∃ t, exec (.tlbInvalidation (.byVa asid va)) s = .next t ∧ ∀ n ∈ asidSlots s asid,
      ∀ x ∈ t.tlb, ¬(x.slot = n ∧ x.page / x.size = va.toNat / 4096 / x.size)) ∧
    exec .tlbSync s = .next { s with hostOut := s.hostOut ++ [.synced] }) ∧
  (∀ (s : State) (pa : Nat) (b : Bool), ∃ t, exec (.hostMemorySnoop pa b) s = .next t ∧ t.hostOut = s.hostOut ++ [.snooped pa] ∧
    (b = true → ∀ a ∈ t.aliases, a.1 ≠ hostLoc pa / 128))

/-- The events of lines, copies and recalls (R191 to R195, R207, R209, R212, R226): the claims CoherenceEvents and Recalls together. -/
def Obligations.LineEvents : Prop := Claim.CoherenceEvents ∧ Claim.Recalls

/-- The host's accesses, the scrubber and lost lines (R195, R220, R341, R356, R435): a write's bytes with its words' tags 0, merged;
a read of data alone; an access to a line that an engine owns is held; a block read is counted by its sectors, and one that cannot be
corrected is poisoned and counted; LOST_WRITE and POISON of the teams concerned. -/
def Obligations.HostAccesses : Prop :=
  (∀ (s : State) (pa : Nat) (data : List Byte), readyDev s = true → hostMay pa data.length = true →
    (locOwned s pa data.length = false → s.aliases = [] →
      ∃ t, exec (.hostWrite pa data) s = .next t ∧ t = { s with mem := t.mem, tags := t.tags, poison := t.poison } ∧
        ∀ a, byteAt t a = if pa ≤ a ∧ a < pa + data.length then data.getD (a - pa) 0 else byteAt s a) ∧
    (locOwned s pa data.length = true → exec (.hostWrite pa data) s = .next { s with hostHeld := s.hostHeld ++ [.write pa data] })) ∧
  (∀ (s : State) (pa n : Nat), readyDev s = true → hostMay pa n = true →
    (locOwned s pa n = false → exec (.hostRead (.memory pa) n) s = .next { s with hostOut := s.hostOut ++ [.data pa (bytesAt s pa n)] }) ∧
    (locOwned s pa n = true → exec (.hostRead (.memory pa) n) s = .next { s with hostHeld := s.hostHeld ++ [.read pa n] })) ∧
  (∀ (s : State) (block : Nat) (bad : List Nat) (fixed : List (Nat × Nat)), block * 512 < 8 * (56 * 2 ^ 30) →
    let key := block * 512 / (56 * 2 ^ 30) / 2 * 64 + 5
    (∃ t, exec (.scrubPass block [] []) s = .next t ∧ t = { s with counters := t.counters } ∧
      mget 0 t.counters key = (mget 0 s.counters key + (blockCode s block).2) % 2 ^ 64) ∧
    (∀ u, u.1 ≤ 5 → u.2 < 2 ^ 12 → ∃ t, exec (.scrubPass block [u] []) s = .next t ∧ t.errSeq = s.errSeq + (if s.errBuf.length < 1024 then 1 else 0)) ∧
    (bad ≠ [] → ∃ t, exec (.scrubPass block fixed bad) s = .next t ∧ (∀ a, byteAt t a = byteAt s a) ∧
      (∀ i, i < 32 → mget false t.poison (block * 32 + i) = true) ∧
      ∀ k, (k < block * 32 ∨ block * 32 + 32 ≤ k) → mget false t.poison k = mget false s.poison k)) ∧
  (∀ (s : State) (team addr : Nat) (t : Team) (w : GWrite), s.team? team = some t → t.ending = none →
    t.uncommitted.find? (fun w => w.va / 128 == addr / 128) = some w →
    ∃ u e, exec (.dirtyEvictionError (.uncommitted team addr)) s = .next u ∧ (u.team? team).map (·.ending) = some (some e) ∧ e.cause = .poison ∧
      (e.relaunch = true ↔ t.relaunches < 2)) ∧
  (∀ (s : State) (slice : Nat) (t : Team), t ∈ s.teams → s.team? t.id = some t → t.ending = none →
    (∃ d ∈ s.dirty, d.1 = slice ∧ t.ctx ∈ ctxsOfSlot s d.2) →
    ∃ u e, exec (.dirtyEvictionError (.l2 slice)) s = .next u ∧ (u.team? t.id).map (·.ending) = some (some e) ∧ e.cause = .lostWrite)

/-! ### Events of the engines and of waiting groups -/

/-- No line of a place is known under another name (R209). -/
def Claim.sole (s : State) (slot va : Nat) (x : Xlat) : Prop :=
  ∀ a, s.aliases.find? (fun a => a.1 == x.loc va / 128) = some a → a.2 = (slot, va / 128 * 128)

/-- ENGINE_COMMAND_START, ENGINE_START_TIME and CB_FULL_TIMEOUT (R284, R295, R297, R298): the first command that has not
begun begins, waits for its start time, or waits for a slot of its circular buffer, which it reserves. -/
def Claim.EngineStarts : Prop :=
  ∀ (s : State) (c : Cmd), headCmd s c.eng = some c → (s.cmds.filter (fun x => x.eng == c.eng && x.stage == .running)).length < 4 →
    let each := fun (f : Cmd → Cmd) => s.cmds.map fun x => if x.id = c.id then f x else x
    let sets := fun (i : Instr) (f : Cmd → Cmd) => exec i s = .next { s with cmds := each f }
    (c.stage = .queued → tCb c.drec = false →
      (c.start = none → sets (.engineCommandStart c.eng) fun x => { x with stage := .running, late := false }) ∧
      (∀ t, c.start = some t → c.full = none →
        (s.time.toNat < t.toNat → sets (.engineCommandStart c.eng) fun x => { x with stage := .held }) ∧
        (t.toNat ≤ s.time.toNat → sets (.engineCommandStart c.eng) fun x => { x with stage := .running, late := true }))) ∧
    (∀ t, c.stage = .held → tCb c.drec = false → c.start = some t → t.toNat ≤ s.time.toNat →
      sets (.engineStartTime c.eng) fun x => { x with stage := .running, start := none, late := false }) ∧
    (∀ e p r f, c.stage = .queued → c.start = none → tCb c.drec = true → entryOf s c.dname = some e → e.obj = .cb p r f →
      (r.length + f.length < tDim c.drec 2 → ∃ t, exec (.engineCommandStart c.eng) s = .next t ∧
        t = { s with roster := t.roster, cmds := each fun x => { x with stage := .running, late := false, cbSlot := some p, full := none, lines := slotKeys c.drec p } } ∧
        entryOf t c.dname = some { e with obj := .cb ((p + 1) % tDim c.drec 2) (r ++ [(p, false)]) f }) ∧
      (tDim c.drec 2 ≤ r.length + f.length → sets (.engineCommandStart c.eng) fun x => { x with full := some (x.full.getD s.time) })) ∧
    (∀ t, s.cmd? c.id = some c → c.full = some t → c.stage = .queued → 100000 ≤ (s.time - t).toNat →
      sets (.cbFullTimeout c.id) fun x =>
        { x with stage := .running, full := none, stop := some 0x40, offset := 0, ack := some 0, emul := true })

/-- ENGINE_COMMAND_END, TRANSFORM_SPILL_REPLAY and EMULATED_TILE_OP (R113, R298 to R305): a box that meets no halt is written
and its command ends, its cell, if it has one, taking the count, the error count and the status in one step. -/
def Claim.EngineCommands : Prop :=
  (∀ (s : State) (c : Cmd), s.cmd? c.id = some c → c.stage = .running → c.native = true → askedPeer s c.id = false →
    let ended := fun (t : State) => (∀ x ∈ t.cmds, x.id ≠ c.id) ∧
      (t.group? c.g).map (·.xrec) = (s.group? c.g).map (fun g => g.xrec.map fun x =>
        if x.cmd = c.id then { x with done := true, offset := if c.stop.isSome then c.offset else boxSize c.ext, status := c.status } else x) ∧
      ∀ e p r f, entryOf s c.dname = some e → e.obj = .cb p r f → ∀ i, c.cbSlot = some i → ∃ l m, r.map (fun x => if x.1 = i then (i, true) else x) = l ++ m ∧
        (∀ x ∈ l, x.2 = true) ∧ (∀ x, m.head? = some x → x.2 = false) ∧ entryOf t c.dname = some { e with obj := .cb p m (f ++ l.map Prod.fst) }
    (∀ c', c.ack ≠ some c.offset →
      let b := boxEls s c c.ext
      let keep := fun (y : Cmd) => { y with got := b.got, poisoned := y.poisoned || b.got.any (·.poison) }
      let a := firstHalt c (b.s.modCmd c.id keep) b.els
      b.halt = none → a.first = none →
      let s3 := releaseWritten (endBox (writeEls a.s (keep c) b.els) (keep c) b.n none) c.id
      s3.cmd? c.id = some c' → c'.boxDone s3 = true → (∀ x ∈ s3.spills, x.cmd ≠ c.id) →
      c'.offset = b.n ∧ exec (.engineCommandEnd c.id) s = .next (finishCmd s3 c')) ∧
    (c.ack = some c.offset → (∀ x ∈ s.spills, x.cmd ≠ c.id) → s.cells = [] → s.hostHeld = [] →
      (c.cell = 0 → ∃ t, exec (.engineCommandEnd c.id) s = .next t ∧ ended t ∧ ∀ a, byteAt t a = byteAt s a) ∧
      (∀ loc u, let v := releaseWritten s c.id
        c.cell ≠ 0 → waitsPage v c.slot c.cell.toNat (.cmd c.id) = false → check189 v c.who c.cell 8 .rmw = (.window loc, u) →
        engineOwns u (granKey loc) = false →
        let code := c.status % 256
        ∃ t, exec (.engineCommandEnd c.id) s = .next t ∧ ended t ∧ natAt t loc 4 = (natAt s loc 4 + 1) % 2 ^ 32 ∧
          natAt t (loc + 4) 2 = min 0xFFFF (natAt s (loc + 4) 2 + if code = 0 then 0 else 1) ∧ natAt t (loc + 6) 2 = c.status % 2 ^ 16 ∧
          ∀ a, a < loc ∨ loc + 8 ≤ a → byteAt t a = byteAt s a))) ∧
  (∀ (s : State) (c : Cmd) (d : DstEl) (loc : Nat) (u : State), c.place s (d.va / 16 * 16) = (.window loc, u) → loc % 16 = 0 → d.va % 16 + d.n ≤ 16 →
    cmdHandle s c [d] = (0, s) → ∃ t, t = writeEls s c [d] ∧ natAt t (loc + d.va % 16) d.n = d.x % 2 ^ (8 * d.n) ∧
      ∀ a, a < loc + d.va % 16 ∨ loc + d.va % 16 + d.n ≤ a → byteAt t a = byteAt s a) ∧
  (∀ (s u : State) (c : Cmd) (x : Spill) (y : Xlat), s.cmd? c.id = some c → s.spills = [x] → x.cmd = c.id → waitsPage s c.slot x.va (.cmd c.id) = false →
    engPlace s c.who x.va .write = (.mem y, u) → y.peer = false → Claim.sole u c.slot x.va y →
    s.cells = [] → s.hostHeld = [] →
    let loc := y.loc (x.va / 16 * 16)
    ∃ t, exec (.transformSpillReplay c.id) s = .next t ∧ t.spills = [] ∧ (∀ a, a / 16 ≠ loc / 16 → byteAt t a = byteAt u a) ∧
      ∀ j b, j < 16 → x.bytes.find? (fun p => p.1 == j) = some (j, b) → (x.bytes.map Prod.fst).Nodup → byteAt t (loc + j) = b) ∧
  (∀ (s : State) (n : Nat),
    (∀ c, s.cmd? n = some c → c.stage = .running → c.native = false → ∃ t, exec (.emulatedTileOp n) s = .next t ∧
      t = { s with counters := t.counters, cmds := s.cmds.map fun x => if x.id = n then { x with emul := true } else x } ∧
      mget 0 t.counters (engDie c.eng * 64) = (mget 0 s.counters (engDie c.eng * 64) + 1) % 2 ^ 64) ∧
    (∀ m, s.cmd? n = none → s.mmas.find? (fun m => m.id == n) = some m → m.native = false → ∃ t, exec (.emulatedTileOp n) s = .next t ∧
      t = { s with counters := t.counters, mmas := s.mmas.map fun x => if x.id = n then { x with emul := true } else x } ∧
      mget 0 t.counters (dieOf m.core * 64) = (mget 0 s.counters (dieOf m.core * 64) + 1) % 2 ^ 64))

/-- MMA_EXECUTE, AACQ_COMPLETE and AREL_HANDOVER (R311, R315, R317, R318, R323): the first MMA of its slot's order adds its
blocks to each element of its rows and columns; the slot's first waiting AACQ takes it, and a later one finds it held; a
slot given to the engine goes over once no lane of the giver's earlier ALDs is parked on it. -/
def Claim.MatrixEvents : Prop :=
  (∀ (s s1 : State) (m : Mma) (ca cb : Nat) (blocks : List Block) (a : Acc), s.mmas.find? (fun x => x.id == m.id) = some m →
    (s.mmas.filter (fun x => x.core == m.core && x.phys == m.phys)).head? = some m → m.native = true → askedPeer s m.id = false →
    (∃ t, s.team? m.g.team = some t ∧ t.ending = none) → oldestSlot s m.aName m.a = some ca → oldestSlot s m.bName m.b = some cb →
    fetchAll s m ca cb = (blocks, none, s1) → mfind s1.accs (accKey m.core m.phys) = some a → s1.upsets = [] →
    ∃ t b, exec (.mmaExecute m.id) s = .next t ∧ (∀ x ∈ t.mmas, x.id ≠ m.id) ∧ mfind t.accs (accKey m.core m.phys) = some b ∧
      (b.token, b.waits, b.team) = (a.token, a.waits, a.team) ∧ (∀ k, k ≠ accKey m.core m.phys → mfind t.accs k = mfind s1.accs k) ∧
      (∀ n, byteAt t n = byteAt s1 n) ∧
      ∀ r n, r < 64 → n < 256 → b.elem r n = match m.rowList.findIdx? (· == r) with
        | some i => if n < m.cols then BitVec.ofNat 32 (blocks.foldl (fun z x => (addBlock z (colOf x.a i) (colOf x.b n)).2.1) (a.elem r n).toNat) else a.elem r n
        | none => a.elem r n) ∧
  (∀ (s : State) (r : GRef) (t : Team) (g : Group) (w : Waiting) (p : Nat) (a : Acc) (c : Cur), s.team? r.team = some t → s.group? r = some g →
    g.wait = some w → w.why = .aacq p → mfind s.accs (accKey t.core p) = some a → a.event = none →
    (∀ m ∈ s.mmas, ¬(m.core = t.core ∧ m.phys = p)) → curAt s w.now = some c → c.ref = r → g.grp = r.grp →
    (a.waits = [r.grp] → ∃ u g', exec (.aacqComplete r) s = .next u ∧ u.group? r = some g' ∧ Moved g g' ∧ g'.wait ≠ some w ∧
      mfind u.accs (accKey t.core p) = some { a with token := .held r.grp, event := none, shadows := 0, waits := [] } ∧
      ∀ k, k ≠ accKey t.core p → mfind u.accs k = mfind s.accs k) ∧
    (∀ n, n ≠ r.grp → a.waits = [r.grp, n] → t.ending = none → (∃ g2 w2, s.group? ⟨r.team, n⟩ = some g2 ∧ g2.wait = some w2) →
      ∃ u e, exec (.aacqComplete r) s = .next u ∧ (u.team? r.team).map (·.ending) = some (some e) ∧ e.cause = .accToken ∧ e.g = ⟨r.team, n⟩)) ∧
  (∀ (s : State) (core slot g : Nat) (a : Acc), mfind s.accs (accKey core slot) = some a → a.token = .leaving g →
    ((∃ p ∈ a.parked, p.1 = g) → exec (.arelHandover core slot) s = .next s) ∧ ((∀ p ∈ a.parked, p.1 ≠ g) →
    ∃ t, exec (.arelHandover core slot) s = .next t ∧ mfind t.accs (accKey core slot) = some { a with token := .engine } ∧
      (∀ k, k ≠ accKey core slot → mfind t.accs k = mfind s.accs k) ∧
      ((∀ x w, s.group? ⟨a.team, g⟩ = some x → x.wait = some w → w.why ≠ .arel slot) → t = { s with accs := t.accs }) ∧
      ∀ x w, s.group? ⟨a.team, g⟩ = some x → x.wait = some w → w.why = .arel slot →
        OnlyGroup { s with accs := t.accs } t ⟨a.team, g⟩ ∧ t.group? ⟨a.team, g⟩ = some { x with wait := none, readyAt := s.seqN }))

/-- The events of the tile engines and the matrix engine (R113, R284, R295 to R305, R311 to R323): the claims EngineStarts, EngineCommands and MatrixEvents together. -/
def Obligations.EngineEvents : Prop := Claim.EngineStarts ∧ Claim.EngineCommands ∧ Claim.MatrixEvents

/-- ENGINE_QUEUE_WAKE, MATRIX_QUEUE_WAKE, LAUNCH_QUEUE_WAKE, QUEUE_WAKE, CWAIT_WAKE, CWAIT_TIMEOUT and BELL_RELEASE (R233,
R237, R238, R284, R308): each ends the wait of a group whose queue has room, whose pigeonhole can serve it, whose cell is
written, whose deadline has come, or whose barrier is full. -/
def Claim.GroupWakes : Prop :=
  ∀ (s : State) (r : GRef) (t : Team) (g : Group) (w : Waiting), s.team? r.team = some t → s.group? r = some g → g.wait = some w →
    (∀ e, w.why = .engine e → (s.cmds.filter (fun c => c.eng == e)).length < (match e with
        | .copy _ => 64
        | .xform .. => 32) → Claim.wakes (.engineQueueWake r) s r g) ∧
    (w.why = .matrix → (s.mmas.filter (fun m => m.core == t.core)).length < 32 → Claim.wakes (.matrixQueueWake r) s r g) ∧
    (w.why = .launchQ → 0 < queueRoom s t.ctx → Claim.wakes (.launchQueueWake r) s r g) ∧
    (∀ n e tm items allow l push rest, entryOf s n = some e → e.obj = .pigeon tm items allow (l ++ (r, push) :: rest) →
      (∀ x ∈ l, servable s e items allow x = false ∨ ∀ y, s.group? x.1 = some y → y.wait = none) →
      (push = true → items.length < pigCap e.record ∧ 0 < allowOf allow (producerOf s r) (pigAllow e.record)) → (push = false → items ≠ []) →
      Claim.wakes (.queueWake n) s r g) ∧
    (∀ va seen l gr u, w.why = .cwait va seen → s.launch? t.launch = some l →
      readFor s r ⟨t.core, t.ctx, t.slot⟩ va 8 8 .read false (.lanes r w.now.x) = (.gran gr, u) → w.now.g = r → g.grp = r.grp → t.id = r.team →
      (gr.poison = true ∨ gr.slice (va.toNat % 16) 8 ≠ seen) → Claim.wakes (.cwaitWake r) s r g) ∧
    (∀ va seen d, w.why = .cwait va seen → g.cwaitDl = some d → d ≤ s.time.toNat → Claim.wakes (.cwaitTimeout r) s r g) ∧
    (∀ b, (∀ x ∈ t.groups, x.ended = false → (b = 0 ∨ x.role + 1 = b) → (b, x.grp) ∈ t.arrived) →
      (∀ n, (b, n) ∈ t.arrived → ∃ x y c, s.group? ⟨r.team, n⟩ = some x ∧ x.wait = some y ∧ y.why = .bell b ∧ curAt s y.now = some c ∧ c.ref = ⟨r.team, n⟩) →
      ∃ u v, exec (.bellRelease r.team b) s = .next u ∧ u.team? r.team = some v ∧ (∀ p, p ∈ v.arrived ↔ p ∈ t.arrived ∧ p.1 ≠ b) ∧
        ∀ n x, (b, n) ∈ t.arrived → s.group? ⟨r.team, n⟩ = some x → ∃ x', u.group? ⟨r.team, n⟩ = some x' ∧ Moved x x' ∧
          ∀ y, x'.wait = some y → y.why ≠ .bell b)

/-- SLATE_SPILL (R372): the oldest frame on chip goes to memory at position inmem, which rises by one. -/
def Claim.SlateSpills : Prop :=
  ∀ (s : State) (r : GRef) (g : Group) (w : Waiting) (c : Cur) (f : Frame) (l : List Frame), s.group? r = some g → g.wait = some w → w.why = .spill →
    curAt s w.now = some c → c.ref = r → g.slate.chip = l ++ [f] →
    let a := (frameWrites s c g.slate.inmem f).foldl (spillGran c) ⟨wake s r, [], false, none, []⟩
    ∀ g1, a.trap = none → a.park = false → a.s.group? r = some g1 → g1.slate = g.slate →
      ∃ t g', exec (.slateSpill r) s = .next t ∧ t.group? r = some g' ∧ g'.wait = g1.wait ∧
        g'.slate = { g.slate with chip := l, inmem := g.slate.inmem + 1, spills := g.slate.spills + 1 } ∧
        g' = { g1 with storeQ := g'.storeQ, slate := g'.slate }

/-- The events that end a wait, and SLATE_SPILL (R233, R237, R238, R284, R308, R372): the claims GroupWakes and SlateSpills together. -/
def Obligations.WaitsAndSpills : Prop := Claim.GroupWakes ∧ Claim.SlateSpills

/-- TRAP_ENTRY (R326, R328): a drained group's trapping lanes enter the handler, every other live lane is trap-held, the live
loop entries are saved and emptied; without a handler, or with one outside the text, the team ends. -/
def Obligations.TrapEntry : Prop :=
  ∀ (s : State) (r : GRef) (t : Team) (l : Launch) (g : Group) (q : TrapReq), s.team? r.team = some t → s.launch? t.launch = some l →
    s.group? r = some g → g.trapReq = some q → g.pend = [] →
    (g.traph ≠ 0 → g.traph.toNat < l.kernel.twords → ∃ u g', exec (.trapEntry r) s = .next u ∧ OnlyGroup s u r ∧ u.group? r = some g' ∧
      g' = { g with lanes := g'.lanes, loops := [], saved := g'.saved, inTrap := true, tcause := g'.tcause, ssyn := g'.ssyn, sunit := g'.sunit
                    stilex := g'.stilex, stiley := g'.stiley, stilek := g'.stilek, trapReq := none, wait := none, readyAt := g'.readyAt } ∧
      (∀ i, i < 4 → g'.saved[i]? = some (match g.loops[i]? with
        | some e => e.word
        | none => 0)) ∧
      g'.tcause = (0 : BitVec 15) ++ BitVec.ofBool q.more ++ q.imm ++ BitVec.ofNat 8 q.cause.code ∧
      (if q.cause = .shadow then g'.ssyn = q.ssyn ∧ g'.sunit = q.sunit ∧ g'.stilex = BitVec.ofNat 32 q.stile.1 ∧
          g'.stiley = BitVec.ofNat 32 q.stile.2.1 ∧ g'.stilek = BitVec.ofNat 32 q.stile.2.2
        else (g'.ssyn, g'.sunit, g'.stilex, g'.stiley, g'.stilek) = (g.ssyn, g.sunit, g.stilex, g.stiley, g.stilek)) ∧
      g'.lanes.length = g.lanes.length ∧ ∀ i x, i < 64 → g.lanes[i]? = some x → ∃ y, g'.lanes[i]? = some y ∧
        match q.lanes.find? (fun t => t.lane == i) with
        | some t => y = { x with trap := .handling, st := .ready, pc := textWord l.kernel g.traph.toNat, ins := none, tpc := t.tpc, ttag := t.ttag
                                 faultva := t.faultva, depthAt := x.depth, trapAt := some (q.now.pc, ⟨q.now.hdr, q.now.head⟩) }
        | none => y = if x.st = .exited then x else { x with trap := .held }) ∧
    (t.ending = none → g.traph = 0 ∨ l.kernel.twords ≤ g.traph.toNat → ∃ u e, exec (.trapEntry r) s = .next u ∧
      (u.team? r.team).map (·.ending) = some (some e) ∧ e.g = r ∧ e.cause = if g.traph = 0 then q.cause else .trapState)

/-! ### Teams and launches -/

/-- A team that leaves the package: none of its resources remains (R334). -/
def Claim.left (u : State) (t : Team) : Prop :=
  (∀ x ∈ u.teams, x.id ≠ t.id) ∧ (∀ p ∈ u.accs, p.2.team ≠ t.id) ∧ (∀ m ∈ u.mmas, m.g.team ≠ t.id) ∧ ∀ r ∈ u.issuing, r.team ≠ t.id

/-- TEAM_FAULT_END and RELAUNCH (R334, R339, R343): the team leaves, its end is recorded, and its launch counts a faulted
team, or holds it to place again elsewhere; the launch keeps the number of the record, which the host is to find first. -/
def Claim.TeamFaults : Prop :=
  ∀ (s : State) (t : Team) (e : Ending), s.team? t.id = some t → t.ending = some e → storesHeld s t.id = false →
    let v := freeTeam s t
    let recorded := fun (u : State) (kind : Nat) => v.errBuf.length < 1024 →
      u.errBuf = v.errBuf ++ [(endRecord t e kind).pack v.time (v.errSeq + 1)] ∧ u.errSeq = v.errSeq + 1
    Claim.left v t ∧ (endRecord t e 1).cause = e.cause.code ∧ (endRecord t e 1).team = t.idx ∧ (endRecord t e 1).va = e.va ∧
    (e.relaunch = false → ∃ u, exec (.teamFaultEnd t.id) s = .next u ∧ Claim.left u t ∧ recorded u 1 ∧ (∀ a, byteAt u a = byteAt v a) ∧
      ∀ l, v.launch? t.launch = some l →
        u.launch? t.launch = some { l with ended := l.ended + 1, faulted := l.faulted + 1, recs := u.errSeq
                                           gone := l.gone.map fun x => if x.id = t.id then { x with failed := true } else x }) ∧
    (e.relaunch = true → ∃ u, exec (.relaunch t.id) s = .next u ∧ Claim.left u t ∧ recorded u 2 ∧ (∀ a, byteAt u a = byteAt v a) ∧
      ∀ l, v.launch? t.launch = some l →
        u.launch? t.launch = some { l with again := l.again ++ [(t.idx, t.relaunches + 1, clusterOf t.core)], recs := u.errSeq })

/-- GROUP_END and TEAM_END_EXIT (R152, R323, R336, R392): a group with every lane exited and nothing outstanding ends, its slots
unclaimed and its frames gone; a team whose groups have all ended commits and leaves. -/
def Claim.TeamEnds : Prop :=
  (∀ (s : State) (r : GRef) (g : Group), s.group? r = some g → g.ended = false → g.pend = [] → g.trapReq = none → g.clause = none →
    (∀ l ∈ g.lanes, l.st = .exited) → ∃ u, exec (.groupEnd r) s = .next u ∧
      u.group? r = some { g with ended := true, wait := none, slate := { g.slate with chip := [], inmem := 0 } } ∧
      (∀ p ∈ u.accs, p.2.team = r.team → p.2.token ≠ .held r.grp ∧ p.2.token ≠ .leaving r.grp) ∧
      (g.peerFail = [] → (u.team? r.team).map (·.ending) = (s.team? r.team).map (·.ending)) ∧
      (∀ f rest t, g.peerFail = f :: rest → s.team? r.team = some t → t.ending = none →
        ∃ e, (u.team? r.team).map (·.ending) = some (some e) ∧ e.cause = f.1 ∧ e.va = f.2.2.1 ∧ e.lane = f.2.2.2)) ∧
  (∀ (s s1 : State) (t t1 : Team) (l : Launch), s.team? t.id = some t → s.launch? t.launch = some l → (∀ g ∈ t.groups, g.ended = true) →
    t.ending = none → storesHeld s t.id = false →
    s1 = (if l.kernel.replayable = true ∧ t.pinned = false then commitTeam s t.id else if t.committing = true then grantAll s t.core else s) →
    commitLeft s1 t.id = [] → s1.team? t.id = some t1 → ∃ u, exec (.teamEndExit t.id) s = .next u ∧ Claim.left u t1 ∧
      (∀ a, byteAt u a = byteAt (freeTeam s1 t1) a) ∧
      ∀ y, (freeTeam s1 t1).launch? t1.launch = some y → u.launch? t1.launch = some { y with ended := y.ended + 1 })

/-- TEAM_FAULT_END, RELAUNCH, GROUP_END and TEAM_END_EXIT (R152, R323, R334, R336, R339, R343, R392): the claims TeamFaults and TeamEnds together. -/
def Obligations.TeamsLeaving : Prop := Claim.TeamFaults ∧ Claim.TeamEnds

/-- LAUNCH_WINDOW_WRITE and LAUNCH_ACCEPT (R155 to R161): a packet joins its context's queue; the first is checked, and is
refused with its code, or takes its kernel, its roll and its parameters and waits for its dependence. -/
def Claim.LaunchQueue : Prop :=
  (∀ (s : State) (ctx off : Nat) (data : List Byte),
    (readyDev s = false ∨ 64 ≤ ctx → exec (.launchWindowWrite ctx off data) s = .next s) ∧
    (readyDev s = true → ctx < 64 → off = 0 → data.length = 64 → ctxLive s ctx = true → 0 < queueRoom s ctx → ∃ l, exec (.launchWindowWrite ctx off data) s =
      .next { s with launches := s.launches ++ [l], seqN := s.seqN + 1 } ∧
      (l.ctx, l.src, l.packet, l.stage, l.placed, l.ended) = (ctx, 0, BitVec.ofNat 512 (leNat data), .queued, 0, 0)) ∧
    (readyDev s = true → ctx < 64 → off ≠ 0 ∨ data.length ≠ 64 ∨ ctxLive s ctx = false ∨ queueRoom s ctx = 0 → ∃ t, exec (.launchWindowWrite ctx off data) s = .next t ∧
      t = { s with errBuf := t.errBuf, errSeq := t.errSeq, ctrl := t.ctrl } ∧ (s.errBuf.length < 1024 → t.errSeq = s.errSeq + 1))) ∧
  (∀ (s : State) (l : Launch), s.launches.find? (fun x => x.ctx == l.ctx && x.stage == .queued) = some l → waitsOn s (.launch l.id) = false →
    let run := fun (u : State) => exec (.launchAccept l.ctx) s = .next u
    (packetOk l.packet = false → run (refuseLaunch s l 0x03)) ∧
    (packetOk l.packet = true → pk l.packet 256 56 % 64 ≠ 0 ∨ l.bad = true → run (refuseLaunch s l 0x07)) ∧
    (packetOk l.packet = true → pk l.packet 256 56 % 64 = 0 → zoneOf (l.who s).core (pk l.packet 256 56) = .mapped → l.bad = false → l.params ≠ [] →
      run (acceptCells s l)) ∧
    (let va := pk l.packet 256 56
     let r := devRead s l.id (l.who s) va 64
     packetOk l.packet = true → va % 64 = 0 → zoneOf (l.who s).core va = .mapped → l.bad = false → l.params = [] →
      r.bad = false → r.wait = none → r.peers = [] → r.busy = false → l.killed = false → l.depCell = 0 → (words8 r.out).getD 7 0 = 0 →
      let l' := { l with params := words8 r.out }
      let z := (dropFetched r.s l.id).modLaunch l.id fun _ => l'
      let rname := l.packet.extractLsb' 128 128
      (∀ code, resolve z l.ctx (l.packet.extractLsb' 0 128) (some 8) = .error code → run (refuseLaunch z l' 0x01)) ∧
      ∀ e k0, resolve z l.ctx (l.packet.extractLsb' 0 128) (some 8) = .ok e → e.obj = .kernel k0 →
        let k := { k0 with
          replayable := k0.replayable || l.packet.getLsbD 315
          trapstore := k0.trapstore || l.packet.getLsbD 316
          deadline := if pk l.packet 432 16 = 0 then k0.deadline else pk l.packet 432 16 }
        let rollOk := rname = 0 ∨ ∃ y, resolve z l.ctx rname (some 5) = .ok y ∧ y.owner = l.ctx
        let size := match ctxEntry z l.ctx with
          | some c => segSize c.record
          | none => 0
        (¬rollOk → run (refuseLaunch z l' 0x02)) ∧ (rollOk → tooBig k = true → run (refuseLaunch z l' 0x04)) ∧
        (rollOk → tooBig k = false → size < k.need → run (refuseLaunch z l' 0x05)) ∧
        (rollOk → tooBig k = false → k.need ≤ size → rname ≠ 0 → z.launch? l.id = some l' → ∃ u x, run u ∧ u.launch? l.id = some x ∧
          x = { l' with kernel := k, kname := e.name, roll := rname, fresh := false, stage := .eligible, eligAt := s.time, placedAt := s.time, order := x.order }))) ∧
  (∀ (s : State) (l : Launch) (code : Nat), l.killed = false → l.cell = 0 ∨ code = 0x03 ∨ code = 0x07 → ∃ t, refuseLaunch s l code = t ∧ (∀ x ∈ t.launches, x.id ≠ l.id) ∧
    (∀ a, byteAt t a = byteAt s a) ∧ (s.errBuf.length < 1024 → t.errSeq = s.errSeq + 1))

/-- DEPENDENCE_MET and LAUNCH_COMPLETE (R158, R161): a launch is eligible once its cell has reached its target; when every team has
ended, its roll's table is complete and the records of their ends are in the host's ring, its roll is freed and its cell told. -/
def Claim.LaunchCells : Prop :=
  (∀ (s s1 : State) (l : Launch) (x : Xlat), s.launches.find? (fun y => y.id == l.id && y.stage == .waiting) = some l → l.roll ≠ 0 →
    waitsOn s (.launch l.id) = false → s.modLaunch l.id (fun _ => l) = s → l.depCell ≠ 0 → launchCell s (l.who s) l.depCell .read = (.at_ x, s1) →
    engineOwns s1 (lineKey (ctxSlot s1 l.ctx) l.depCell) = false → l.target ≤ natAt s1 (x.loc l.depCell) 4 → s1.launch? l.id = some l →
    let errs := natAt s1 (x.loc l.depCell + 4) 2
    (l.errstop = false ∨ errs = 0 → ∃ u y, exec (.dependenceMet l.id) s = .next u ∧ u.launch? l.id = some y ∧
      y = { l with stage := .eligible, eligAt := s.time, placedAt := s.time, order := y.order } ∧ ∀ a, byteAt u a = byteAt s1 a) ∧
    (l.errstop = true → errs ≠ 0 → exec (.dependenceMet l.id) s = .next (refuseLaunch s1 l 0x06))) ∧
  (∀ (s : State) (l : Launch), s.launch? l.id = some l → l.stage = .eligible → l.total ≤ l.placed → l.total ≤ l.ended →
    (∀ t ∈ s.teams, t.launch ≠ l.id) → (∀ e ∈ s.ev, l.left e.w.g.team = false) →
    let z := flushRoll s l.roll
    let v := dropLaunch z l
    (leftBehind z l = true ∨ (rollOf z l.roll).any rollLags = true ∨ recordsWait z l = true → exec (.launchComplete l.id) s = .next z) ∧
    (leftBehind z l = false → (rollOf z l.roll).any rollLags = false → recordsWait z l = false →
    (∀ x ∈ v.launches, x.id ≠ l.id) ∧ (l.fresh = true → l.roll ≠ 0 → entryOf v l.roll = none) ∧
    (l.cell = 0 → exec (.launchComplete l.id) s = .next v) ∧
    (∀ x u, l.cell ≠ 0 → l.cell < 2 ^ 55 → check189 v ⟨l.home * 64, l.ctx, ctxSlot v l.ctx⟩ (BitVec.ofNat 64 l.cell) 8 .rmw = (.mem x, u) →
      x.peer = false → x.host = false → engineOwns u (lineKey (ctxSlot v l.ctx) l.cell) = false → u.ev = [] → Claim.sole u (ctxSlot v l.ctx) l.cell x →
      let loc := x.loc l.cell
      ∃ t, exec (.launchComplete l.id) s = .next t ∧ (∀ y ∈ t.launches, y.id ≠ l.id) ∧ natAt t loc 4 = (natAt u loc 4 + 1) % 2 ^ 32 ∧
        natAt t (loc + 4) 2 = min 0xFFFF (natAt u (loc + 4) 2 + l.faulted) ∧ natAt t (loc + 6) 2 = (if l.faulted = 0 then 0 else 0x10) ∧
        ∀ a, a < loc ∨ loc + 8 ≤ a → byteAt t a = byteAt u a)))

/-- LAUNCH_WINDOW_WRITE, LAUNCH_ACCEPT, DEPENDENCE_MET and LAUNCH_COMPLETE (R155 to R161): the claims LaunchQueue and LaunchCells together. -/
def Obligations.Launches : Prop := Claim.LaunchQueue ∧ Claim.LaunchCells

/-- TEAM_PLACE (R130, R157, R162 to R167): the team that a die places next starts with its groups at the text's first word, the
parameters in s0 to s6 and the kernel's data in s7, every other register 0. -/
def Claim.TeamPlacement : Prop :=
  ∀ (s : State) (die core : Nat) (l : Launch) (off seg : Nat), die < 4 → chooseLaunch s die = some (l, core) → s.launch? l.id = some l →
    scratchPlace s (clusterOf core) l.kernel.scratch = some off → freeSeg s l.ctx = some seg →
    let starts := fun (idx again : Nat) (coord : Nat × Nat × Nat) (P : Launch → Prop) => ∃ u t x, exec (.teamPlace die) s = .next u ∧
      u.teams = s.teams ++ [t] ∧ u.launch? l.id = some x ∧ P x ∧
      (t.launch, t.ctx, t.idx, t.coord, t.core, t.seg, t.scratch, t.relaunches) = (l.id, l.ctx, idx, coord, core, seg, off, again) ∧
      (t.saved, t.pinned, t.committing, t.uncommitted, t.ending, t.preempt) = (false, false, false, [], none, false) ∧
      t.groups.length = (l.kernel.roles.map Prod.fst).sum ∧
      (∀ (i : Nat) (g : Group), t.groups[i]? = some g → g.grp = i ∧ g.lanes.length = l.kernel.width ∧ g.ended = false ∧ g.loops = [] ∧ g.inTrap = false ∧
        g.traph = 0 ∧ g.ylddl = l.kernel.deadline ∧ g.wait = none ∧ g.pend = [] ∧ g.storeQ = [] ∧
        (∀ y ∈ g.lanes, y.pc = l.kernel.text ∧ y.st = .ready ∧ y.trap = .none ∧ y.depth = 0) ∧
        (∀ r, g.sreg r = if r = 7 then l.kernel.data else if r = 6 ∧ l.kernel.scratch ≠ 0 then BitVec.ofNat 64 (0xFD * 2 ^ 48 + off)
          else if r < 7 then l.params.getD r 0 else 0) ∧
        ∀ r i, g.vreg r i = 0 ∧ g.vtag r i = 0) ∧
      t.accs.length ≤ l.kernel.acc ∧ (∀ p ∈ t.accs, ∃ a, mfind u.accs (accKey core p) = some a ∧ a.token = .unclaimed ∧ a.team = t.id)
    (∀ d p, nextTeam s l = .fresh d p → starts (linear l p) 0 p fun x =>
      x = { l with pos := d + 1, placed := l.placed + 1, placedAt := s.time, starved := false }) ∧
    (∀ i n a, nextTeam s l = .again i n a → starts i n (coordOf l i) fun x =>
      x = { l with again := l.again.drop 1, placedAt := s.time, starved := false })

/-- LAUNCH_WAIT_2MS, PREEMPT_REQUEST and FLOOR_SHARE_TIMEOUT (R167, R169, R172): a launch that has waited holds its dies; a team is asked
to leave for a launch of higher priority, or, the one that has run longest, for a saved team that has waited 2 ms, which gets its core. -/
def Claim.SchedulerTimers : Prop :=
  (∀ (s : State) (l : Launch), s.launch? l.id = some l → l.stage = .eligible → nextTeam s l ≠ .none →
    max l.eligAt.toNat l.placedAt.toNat + 2000000 ≤ s.time.toNat → ∃ t, exec (.launchWait2ms l.id) s = .next t ∧
      t = { s with launches := t.launches } ∧ t.launch? l.id = some { l with starved := true }) ∧
  (∀ (s : State) (t : Team) (l : Launch), s.team? t.id = some t → l ∈ s.launches → l.stage = .eligible → nextTeam s l ≠ .none →
    (∀ d, d < 4 → coreFor s l d = none) → teamPriority s t < l.priority → lowestTeam s (onDies s l) = some t → t.ending = none →
    ∃ u, exec (.preemptRequest t.id) s = .next u ∧ u = { s with teams := u.teams } ∧ u.team? t.id = some { t with preempt := true }) ∧
  (∀ (s : State) (t : Team) (l : Launch), s.team? t.id = some t → s.launch? t.launch = some l → t.saved = true → t.ending = none →
    t.savedAt.toNat + 2000000 ≤ s.time.toNat → (∀ y ∈ s.teams, y.saved = false → l.onDie (dieOf y.core) = true → y.preempt = false) →
    (∀ c, c < 256 → fitsResume s l t c = false) →
    (∃ y ∈ s.teams, y.saved = false ∧ l.onDie (dieOf y.core) = true ∧ y.floor = [] ∧ y.ending = none) → (s.teams.Pairwise fun a b => a.id ≠ b.id) →
    ∃ u y, exec (.floorShareTimeout t.id) s = .next u ∧ u = { s with teams := u.teams } ∧ y ∈ s.teams ∧ y.saved = false ∧
      l.onDie (dieOf y.core) = true ∧ y.floor = [] ∧ u.team? y.id = some { y with preempt := true } ∧
      (∀ z ∈ s.teams, z.saved = false → l.onDie (dieOf z.core) = true → z.floor = [] → z.ending = none → y.order ≤ z.order) ∧
      u.team? t.id = some { t with favour := some y.core } ∧ ∀ n, n ≠ y.id → n ≠ t.id → u.team? n = s.team? n)

/-- TEAM_PLACE and the timers of scheduling (R130, R157, R162 to R169, R172): the claims TeamPlacement and SchedulerTimers together. -/
def Obligations.Placement : Prop := Claim.TeamPlacement ∧ Claim.SchedulerTimers

/-- TEAM_SAVE and TEAM_RESUME (R169 to R172): a team whose groups stand at points leaves its core with everything it holds;
it comes back on a core that fits it, and a changed save area ends it. -/
def Obligations.SaveAndResume : Prop :=
  (∀ (s s1 s2 : State) (t : Team) (l : Launch), s.team? t.id = some t → s.launch? t.launch = some l → readyToSave s t = true →
    checkPages s t .write (savePages s t l.kernel) = .ok s1 → s1.team? t.id = some t → saveRelease s1 t = .done s2 →
    ∃ u t', exec (.teamSave t.id) s = .next u ∧ u.team? t.id = some t' ∧ t'.saved = true ∧ t'.preempt = false ∧ t'.accs = [] ∧ t'.savedAt = s.time ∧
      (t'.idx, t'.coord, t'.seg, t'.scratch, t'.relaunches, t'.pinned) = (t.idx, t.coord, t.seg, t.scratch, t.relaunches, t.pinned) ∧
      (∀ p ∈ u.accs, p.2.team ≠ t.id) ∧ (∀ r ∈ u.issuing, r.team ≠ t.id) ∧ t'.groups.length = t.groups.length ∧
      ∀ (i : Nat) (g : Group), t.groups[i]? = some g → ∃ g' : Group, t'.groups[i]? = some g' ∧ g'.wait = none ∧ g'.clause = none ∧ g'.xrec = [] ∧
        (g'.s, g'.v, g'.vt, g'.p, g'.q, g'.k) = (g.s, g.v, g.vt, g.p, g.q, g.k) ∧
        (g'.loops, g'.saved, g'.inTrap, g'.traph, g'.tcause, g'.nstat, g'.ylddl, g'.slate) =
          (g.loops, g.saved, g.inTrap, g.traph, g.tcause, g.nstat, g.ylddl, g.slate) ∧
        ∀ (j : Nat) (x : Lane), g.lanes[j]? = some x → ∃ y : Lane, g'.lanes[j]? = some y ∧ x = { y with pc := x.pc, ins := x.ins }) ∧
  (∀ (s s1 : State) (t : Team) (l : Launch) (core : Nat), s.team? t.id = some t → s.launch? t.launch = some l → t.saved = true → t.ending = none →
    core ∈ resumeCores s l t → resumeTurn s l t core = true → checkPages s t .read (savePages s t l.kernel) = .ok s1 →
    s1.team? t.id = some t → s1.time = s.time →
    ((∀ p ∈ t.image, saveByte s1 t.slot p.1 = (p.2, false)) → ∃ u t', exec (.teamResume t.id core) s = .next u ∧ u.team? t.id = some t' ∧
      t'.saved = false ∧ t'.core = core ∧ (t'.idx, t'.coord, t'.seg, t'.scratch) = (t.idx, t.coord, t.seg, t.scratch) ∧
      (if t.favour ≠ none ∨ t.savedAt.toNat + 2000000 ≤ s.time.toNat then (∀ n, n ∈ t'.floor ↔ ∃ g ∈ t.groups, g.ended = false ∧ g.grp = n) else t'.floor = []) ∧ t'.groups.length = t.groups.length ∧
      ∀ (i : Nat) (g : Group), t.groups[i]? = some g → ∃ g' : Group, t'.groups[i]? = some g' ∧ g' = { g with readyAt := g'.readyAt }) ∧
    ((∃ p ∈ t.image, saveByte s1 t.slot p.1 ≠ (p.2, false)) → ∃ u e, exec (.teamResume t.id core) s = .next u ∧
      (u.team? t.id).map (·.ending) = some (some e) ∧ e.cause = .saveCorrupt))

/-- NKILL_COMPLETE and ROLL_ENTRY_WRITE (R277, R278, R348, R350): a dying name that nothing uses is retired and its killer's result
returns; the first entry not yet written reaches its roll's table. -/
def Obligations.NameEvents : Prop :=
  (∀ (s : State) (e : Entry), entryOf s e.name = some e → e.dying = true → nameBusy s e = false →
    (runsOf s e ≠ [] → exec (.nkillComplete e.name) s = .next ((runsOf s e).foldl stopRun s)) ∧ (runsOf s e = [] →
    ∃ u, exec (.nkillComplete e.name) s = .next u ∧ entryOf u e.name = none ∧
      ((∀ n, e.obj ≠ .space n) → (∀ m, e.obj ≠ .meeting m) →
        (∀ n, n ≠ e.name.toNat → mfind u.roster n = mfind s.roster n) ∧ (∀ a, byteAt u a = byteAt s a) ∧
        (e.killer = none → u = { s with roster := u.roster }) ∧
        (∀ r id g, e.killer = some (r, id) → r.team ≠ 0 → s.group? r = some g →
          u.group? r = some { g with pend := g.pend.map fun p => if p.id = id then { p with ready := true } else p }) ∧
        ∀ n id, e.killer = some (⟨0, n⟩, id) → u.ctrl.mbbusy = false ∧ u.ctrl.mbresp.getD 0 1 = 0))) ∧
  (∀ (s : State) (n : Name) (e : Entry) (r : Roll) (i : Nat) (x : RollEntry), entryOf s n = some e → e.obj = .roll r → r.broken = false →
    r.entries[i]? = some x → x.written = false → (∀ j y, j < i → r.entries[j]? = some y → y.written = true) →
    x.site.toNat < 2 ^ 56 → x.team < 2 ^ 32 → x.grp < 32 → x.role < 4 → x.births < 2 ^ 16 →
    let bits := x.site.toNat + 2 ^ 72 * x.team + 2 ^ 104 * x.grp + 2 ^ 109 * x.role + 2 ^ 111 + 2 ^ 112 * x.births
    let marked := fun (u : State) => entryOf u n = some { e with obj := .roll { r with entries := r.entries.modify i fun y => { y with written := true } } }
    (r.fresh = true → ∃ u, exec (.rollEntryWrite n) s = .next u ∧ marked u ∧ natAt u (freshTable r.table + 16 * i) 16 = bits ∧
      ∀ a, a < freshTable r.table + 16 * i ∨ freshTable r.table + 16 * i + 16 ≤ a → byteAt u a = byteAt s a) ∧
    (∀ y s1, r.fresh = false →
      let slot := ctxSlot s e.owner
      let va := r.table + 16 * i
      va % 16 = 0 → zoneOf 0 va = .mapped → waitsPage s slot va (.roll n) = false → translate s slot va .write = (.ok y, s1) → y.peer = false →
      engineOwns s1 (lineKey slot va) = false → s1.ev = [] → Claim.sole s1 slot va y → s1.roster = s.roster →
      ∃ u, exec (.rollEntryWrite n) s = .next u ∧ marked u ∧ natAt u (y.loc va) 16 = bits ∧
        ∀ a, a < y.loc va ∨ y.loc va + 16 ≤ a → byteAt u a = byteAt s1 a))

/-! ### Collective programs -/

/-- The run's current step, and nothing that the step waits for (R393, R414). -/
def Claim.stepOf (s : State) (n op : Nat) (c : Cp) : Prop :=
  cpOf s n = some c ∧ c.r.id = n ∧ c.x.op = op ∧ c.r.sent = none ∧ askedPeer s n = false ∧ waitsOn s (.run n) = false

/-- From `v` the step ends with `code`: a stopping code stops the run; with any other it goes on at `next`, but a run that
CPSTOP stops at the end of its block ends there (R400, R415, R420). -/
def Claim.stepEnds (v u : State) (n code next : Nat) : Prop :=
  u = endCpStep v n code next ∧ ∀ r, v.run? n = some r →
    let r' := { r with code := if r.code = 0 then code else r.code }
    (code ∈ [0x41, 0x42, 0x43, 0x44, 0x48, 0x4A] → Claim.runEnded v u r' 3) ∧
    (code ∉ [0x41, 0x42, 0x43, 0x44, 0x48, 0x4A] → r.stopAt ≠ none →
      Claim.runEnded v u { r' with code := if r'.code = 0 then 0x4A else r'.code } 3) ∧
    (code ∉ [0x41, 0x42, 0x43, 0x44, 0x48, 0x4A] → r.stopAt = none → u.run? n =
      some { r' with step := next, since := none, got := none, sent := none, lines := [], offset := 0, ack := none, stop := none, marks := [] })

/-- The writes of a range that the step has still to make: those of a run that CPSTOP stops end with its block. -/
def Claim.rest (c : Cp) (els : List DstEl) : List DstEl := els.filter (fun y => c.r.offset ≤ y.e && c.r.stopAt.all (decide <| y.e < ·))

/-- CP_SEND (R397 to R399, R402, R410, R411, R421, R440): A's range goes to the peer, whole, with the next number of its pair; a rank beyond
the run skips the step, a range beyond its buffer, a dead link or a peer of another make stops the run; after the fallback the step waits for
the receiver's ready message. That a message too long for a datagram ends the run with BADSIZE is the model's choice (entry 52). -/
def Claim.CollectiveSend : Prop :=
  ∀ (s : State) (n : Nat) (c : Cp), Claim.stepOf s n 1 c →
    let ends := fun (v : State) (code : Nat) => ∃ u, exec (.cpSend n) s = .next u ∧ Claim.stepEnds v u n code (c.r.step + 1)
    (c.peer = none → ends s 0) ∧
    ∀ p d, c.peer = some p → cpData s (c.entry c.x.a) = some d →
      (c.first + (c.x.count + 1) > d.size → ends s 0x48) ∧
      ∀ s1 l, c.first + (c.x.count + 1) ≤ d.size → (∀ K : State → List SrcEl → State, Cp.read c (Cp.begin c s []) d c.range K = K s1 l) →
        let slot := if c.x.b = 0 then none else match c.entry c.x.b with
          | .slot z => some z
          | _ => none
        p ≠ c.r.rank → (Cp.route c s1 p = none → ends s1 0x41) ∧
        ∀ x port, Cp.route c s1 p = some (x, port) →
          let fits := fmtWidth d.fmt / 8 * l.length ≤ 8192
          (c.r.ether = false → mget 0 s1.peerMake x = 1 → ends s1 0x44) ∧ (c.r.ether = true → ¬fits → ends s1 0x48) ∧
          (c.r.ether = false ∧ mget 0 s1.peerMake x ≠ 1 ∨ c.r.ether = true ∧ fits →
            Cp.awaitsReady c s1 p slot = true ∨ c.r.ether = false ∧ 256 ≤ egress s1 c.r.die port x → exec (.cpSend n) s = .next s1) ∧
          (c.r.ether = false ∧ mget 0 s1.peerMake x ≠ 1 ∨ c.r.ether = true ∧ fits → Cp.awaitsReady c s1 p slot = false →
          c.r.ether = true ∨ egress s1 c.r.die port x < 256 → ∃ u o m, exec (.cpSend n) s = .next u ∧ u.peerOut = s1.peerOut ++ [o] ∧ o.msg = some m ∧
            (o.dst, o.die, o.accel, o.port, o.ether, o.sent, o.busy) = (.run n, c.r.die, x, port, c.r.ether, s1.time, none) ∧
            o.timeout = (if c.r.ether then 100000 else peerTimeoutOf s1 x) ∧
            (m.job, m.src, m.dst, m.format, m.exact, m.counts) = (c.r.job, c.r.rank, p, d.fmt, false, []) ∧ m.elems = l.map (fun y => BitVec.ofNat 64 (d.code y)) ∧
            m.seq = mget 0 s1.msgSeq (msgKey c.r.job c.r.rank p) + 1 ∧ (∀ a, byteAt u a = byteAt s1 a) ∧
            ∀ r, s1.run? n = some r → u.run? n = some { r with sent := some o.id, code := if r.code = 0 ∧ (∃ y ∈ l, y.poison = true) then 0x45 else r.code })

/-- CP_RECV, CP_RRS and CP_RRED (R397, R403 to R408): a step waits for the next message of its peer; one of another format or length stops
the run; else B's range becomes the message, the message combined with A's range goes on, or B's range becomes the combination. -/
def Claim.CollectiveReceive : Prop :=
  ∀ (s : State) (n p : Nat) (c : Cp) (a b : CpData), cpOf s n = some c → c.peer = some p →
    let same := fun (m : EngMsg) (d : CpData) => m.format = d.fmt ∧ m.elems.length = c.x.count + 1
    let ends := fun (i : Instr) (v : State) (code : Nat) => ∃ u, exec i s = .next u ∧ Claim.stepEnds v u n code (c.r.step + 1)
    (Claim.stepOf s n 2 c → cpData s (c.entry c.x.b) = some b → c.first + (c.x.count + 1) ≤ b.size →
      let s1 := Cp.beginRecv c s (if b.staged then [] else (b.vas c.range).map Prod.fst) p
      (Cp.begun c s1 = false → exec (.cpRecv n) s = .next s1) ∧ (Cp.begun c s1 = true →
      (c.r.got = none → nextHeld s1 c.r.job p c.r.rank = none → exec (.cpRecv n) s = .next s1) ∧
      (∀ m, c.r.got = some m → ¬same m b → ends (.cpRecv n) s1 0x48) ∧
      (∀ m s2, c.r.got = some m → same m b →
        let els := Claim.rest c (Cp.els c b (flatRec b.fmt 0 1) true c.first (msgVals (fmtOf b.fmt) b.fmt b.fmt m (c.x.count + 1)))
        cpHalt c.r els s1 = (none, s2) → ends (.cpRecv n) (cpPut s2 c.r els) 0) ∧
      (∀ h s2, c.r.got = none → nextHeld s1 c.r.job p c.r.rank = some h → same h.msg b →
        s2 = { s1 with heldMsgs := s1.heldMsgs.erase h, runs := s1.runs.map fun r => if r.id = n then { r with got := some h.msg } else r } →
        let els := Claim.rest c (Cp.els c b (flatRec b.fmt 0 1) true c.first (msgVals (fmtOf b.fmt) b.fmt b.fmt h.msg (c.x.count + 1)))
        ∀ s3, cpHalt c.r els s2 = (none, s3) → ends (.cpRecv n) (cpPut s3 c.r els) 0))) ∧
    (cpData s (c.entry c.x.a) = some a → redFmt a.fmt = true → c.first + (c.x.count + 1) ≤ a.size → c.x.skip = false → ∀ m s1 l, c.r.got = some m →
      let z := combineAll (fmtOf a.fmt) c.x.rop (Cp.own c a false l (c.range.map fun _ => (1, false))) (Cp.theirs c (fmtOf a.fmt) false m)
      (Claim.stepOf s n 3 c → Cp.begun c (Cp.beginRecv c s [] p) = true →
        (∀ K : State → List SrcEl → State, Cp.read c (Cp.beginRecv c s [] p) a c.range K = K s1 l) →
        (¬same m a → ends (.cpRrs n) s1 0x48) ∧
        ∀ x port, same m a →
          let next := ((2 * (c.r.rank : Int) - p) % c.r.n).toNat
          next ≠ c.r.rank → Cp.route c s1 next = some (x, port) → c.r.ether = true ∨ mget 0 s1.peerMake x ≠ 1 →
          (c.r.ether = true → (if (fmtOf a.fmt).floating then fmtWidth a.fmt / 8 else 8) * z.length ≤ 8192) →
          c.r.ether = true ∨ egress s1 c.r.die port x < 256 → ∃ u o y, exec (.cpRrs n) s = .next u ∧ u.peerOut = s1.peerOut ++ [o] ∧ o.msg = some y ∧
            (o.dst, o.accel, o.port) = (.run n, x, port) ∧ (y.job, y.src, y.dst, y.format) = (c.r.job, c.r.rank, next, a.fmt) ∧
            y.elems = z.map (fun q => Part.word (fmtOf a.fmt) q.1) ∧ y.exact = !(fmtOf a.fmt).floating) ∧
      (Claim.stepOf s n 4 c → cpData s (c.entry c.x.b) = some b → redFmt b.fmt = true → c.first + (c.x.count + 1) ≤ b.size →
        let s0 := Cp.beginRecv c s (if b.staged then [] else (b.vas c.range).map Prod.fst) p
        Cp.begun c s0 = true → (∀ K : State → List SrcEl → State, Cp.read c s0 a c.range K = K s1 l) →
        (¬same m a → ends (.cpRred n) s1 0x48) ∧
        ∀ s2, same m a →
          let els := Claim.rest c (Cp.els c b (flatRec a.fmt 0 1) true c.first
            (List.zipWith (fun (q : Part × Nat) bad => partVal (fmtOf a.fmt) b.fmt a.fmt q.1 bad) z (l.map fun y => y.poison)))
          cpHalt c.r els s1 = (none, s2) → l.length = c.x.count + 1 →
          ends (.cpRred n) (cpPut s2 c.r els) (if ∃ y ∈ l, y.poison = true then 0x45 else 0)))

/-- CP_COPY and CP_HALT (R397, R400, R413, R415): a copy converts A's range into B's; a copy from a meeting slot waits for its close; a
halted run has its cell signalled, and keeps its code. -/
def Claim.CollectiveCopy : Prop :=
  ∀ (s : State) (n : Nat) (c : Cp),
    (∀ a b s1 l s2, Claim.stepOf s n 5 c → (∀ m, c.entry c.x.a ≠ .slot m) → cpData s (c.entry c.x.a) = some a → cpData s (c.entry c.x.b) = some b →
      (a.size < c.first + (c.x.count + 1) ∨ b.size < c.first + (c.x.count + 1) →
        ∃ u, exec (.cpCopy n) s = .next u ∧ Claim.stepEnds s u n 0x48 (c.r.step + 1)) ∧
      (c.first + (c.x.count + 1) ≤ a.size → c.first + (c.x.count + 1) ≤ b.size →
        (∀ K : State → List SrcEl → State, Cp.read c (Cp.begin c s (if b.staged then [] else (b.vas c.range).map Prod.fst)) a c.range K = K s1 l) →
        let els := Claim.rest c (Cp.els c b a.img false c.first (l.map fun x => ⟨x, false⟩))
        cpHalt c.r els s1 = (none, s2) → ∃ u, exec (.cpCopy n) s = .next u ∧
          Claim.stepEnds (cpPut s2 c.r els) u n (if ∃ x ∈ l, x.poison = true then 0x45 else 0) (c.r.step + 1))) ∧
    (∀ m b e y, Claim.stepOf s n 5 c → c.entry c.x.a = .slot m → cpData s (c.entry c.x.b) = some b → c.r.got = none → c.r.since = none →
      resolve s c.r.ctx m (some 9) = .ok e → e.obj = .meeting y → y.contribs < slotMembers e.record →
      (slotDie e.record ≠ c.r.die → ∃ u, exec (.cpCopy n) s = .next u ∧ Claim.stepEnds s u n 0x49 (c.r.step + 1)) ∧
      (slotDie e.record = c.r.die → slotSkip e.record = false → c.first + (c.x.count + 1) ≤ slotElems e.record → c.first + (c.x.count + 1) ≤ b.size →
        ∃ u e', exec (.cpCopy n) s = .next u ∧ entryOf u m = some e' ∧ e'.obj = .meeting { y with readers := y.readers ++ [n] })) ∧
    (Claim.stepOf s n 0 c →
      let v := endRun s c.r 2
      Claim.runEnded s v c.r 2 ∧ (c.x.count ≠ 1 → exec (.cpHalt n) s = .next v) ∧
      ∀ va loc u, c.x.count = 1 → c.entry c.x.a = .cell va → va / 2 ^ 48 ≠ 0xFD →
        check189 { v with cells := v.cells ++ [⟨.run n, c.r.die, c.r.ctx, c.r.slot, va, 1, 0, 0, 0⟩] } c.r.who (BitVec.ofNat 64 va) 8 .rmw = (.window loc, u) →
        engineOwns u (granKey loc) = false → ∃ t, exec (.cpHalt n) s = .next t ∧ (∀ r ∈ t.runs, r.id ≠ n) ∧ natAt t loc 4 = (natAt v loc 4 + 1) % 2 ^ 32 ∧
          ∀ a, a < loc ∨ loc + 4 ≤ a → byteAt t a = byteAt v a)

/-- CP_WAIT_CELL, CP_WAIT_TIMED, CP_LOOP, CP_ENDL and CP_SIGNAL (R400, R409, R410, R416). -/
def Claim.CollectiveControl : Prop :=
  ∀ (s : State) (n : Nat) (c : Cp),
    let ends := fun (i : Instr) (v : State) (next : Nat) => ∃ u, exec i s = .next u ∧ Claim.stepEnds v u n 0 next
    let loops := fun (l : List CpLoopSt) => { s with runs := s.runs.map fun r => if r.id = n then { r with loops := l } else r }
    (∀ va loc u, Claim.stepOf s n 6 c → c.x.timed = false → c.entry c.x.a = .cell va → va / 2 ^ 48 ≠ 0xFD →
      check189 s c.r.who (BitVec.ofNat 64 va) 8 .read = (.window loc, u) →
      (c.x.count ≤ natAt u loc 4 → (granAt u loc).poison = false → ends (.cpWaitCell n) u (c.r.step + 1)) ∧
      (natAt u loc 4 < c.x.count → exec (.cpWaitCell n) s = .next u)) ∧
    (Claim.stepOf s n 6 c → c.x.timed = true →
      let due := c.r.time0.toNat + (c.x.offset + c.chunk) * c.r.width
      let v := if c.r.since.isSome then s else { s with runs := s.runs.map fun r => if r.id = n then
        { r with since := some s.time, skew := r.skew || decide (r.width = 0 ∨ r.width < s.skew.toNat), late := r.late || decide (due < s.time.toNat) } else r }
      (due ≤ s.time.toNat → ends (.cpWaitTimed n) v (c.r.step + 1)) ∧ (s.time.toNat < due → exec (.cpWaitTimed n) s = .next v)) ∧
    (Claim.stepOf s n 7 c →
      let trips := if c.x.count = 0xFFFF then c.r.n - 1 else c.x.count + 1
      (trips = 0 → ends (.cpLoop n) s (endlOf c.p.steps c.x.ctr c.r.step + 1)) ∧
      (trips ≠ 0 → (∀ r ∈ s.runs, r.id = n → r = c.r) → ends (.cpLoop n) (loops (⟨c.x.ctr, 1, trips, c.r.step⟩ :: c.r.loops)) (c.r.step + 1))) ∧
    (∀ l rest, Claim.stepOf s n 8 c → c.r.loops = l :: rest →
      (l.value < l.trips → ends (.cpEndl n) (loops ({ l with value := l.value + 1 } :: rest)) (l.step + 1)) ∧
      (l.trips ≤ l.value → ends (.cpEndl n) (loops rest) (c.r.step + 1))) ∧
    (∀ va loc u, Claim.stepOf s n 9 c → c.entry c.x.a = .cell va → va / 2 ^ 48 ≠ 0xFD →
      check189 s c.r.who (BitVec.ofNat 64 va) 8 .rmw = (.window loc, u) → engineOwns u (granKey loc) = false →
      ∃ v, ends (.cpSignal n) v (c.r.step + 1) ∧ natAt v loc 4 = (natAt u loc 4 + c.x.count + 1) % 2 ^ 32 ∧
        ∀ a, a < loc ∨ loc + 4 ≤ a → byteAt v a = byteAt u a)

/-- The steps of a control program (R397 to R416): the claims CollectiveSend, CollectiveReceive, CollectiveCopy and CollectiveControl together. -/
def Obligations.CollectiveSteps : Prop := Claim.CollectiveSend ∧ Claim.CollectiveReceive ∧ Claim.CollectiveCopy ∧ Claim.CollectiveControl

/-- What a device answers to a message or a contribution: nothing while the port's transmit gate is closed (R444). -/
def Claim.reply (u : State) (port : Nat) (o : HostOut) : State := if port ∈ u.portsUp then { u with hostOut := u.hostOut ++ [o] } else u

/-- ENGINE_MESSAGE_ARRIVAL, MESSAGE_DISCARD and RECV_TIMEOUT (R403, R404, R421, R426, R438, R444): a message reaches a step that waits for it,
or its die's pool, or is refused; one sent again is answered and not delivered again; it is discarded after 10 ms without a run; a step has
waited 100 ms. -/
def Claim.MessageEvents : Prop :=
  (∀ (s : State) (f : MsgFrom) (m : EngMsg),
    let told := fun (u : State) (ok : Bool) => exec (.engineMessageArrival f m) s = .next (Claim.reply u f.port (.message f.port m.job m.src m.dst ok 0))
    let kept := fun (u : State) => { u with kept := keepAnswer s.kept ⟨f.requester, f.port, f.seq, []⟩ }
    let run := s.runs.find? (fun r => r.job == m.job && r.rank == m.dst)
    let die := match run with
      | some r => r.die
      | none => if f.port < 16 then f.port / 4 else f.port % 4
    (∀ k, keptFor s f = some k → told s true) ∧
    (keptFor s f = none → otherMake s f = true → told s false) ∧
    (keptFor s f = none → otherMake s f = false →
      (m.elems = [] → told (kept { s with readies := s.readies ++ [(m.job, m.src, m.dst)] }) true) ∧
      (∀ r, m.elems ≠ [] → run = some r → awaits s r m.src = true →
        told (kept { s with runs := s.runs.map fun x => if x.id = r.id then { x with got := some m } else x }) true) ∧
      (m.elems ≠ [] → (∀ r, run = some r → awaits s r m.src = false) →
        (((s.heldMsgs.filter (fun h => h.die == die)).map (fun h => msgBytes h.msg)).sum + msgBytes m ≤ 2 ^ 20 →
          told (kept { s with heldMsgs := s.heldMsgs ++ [⟨die, s.seqN, m, s.time⟩], seqN := s.seqN + 1 }) true) ∧
        (2 ^ 20 < ((s.heldMsgs.filter (fun h => h.die == die)).map (fun h => msgBytes h.msg)).sum + msgBytes m → told s false)))) ∧
  (∀ (s : State) (h : Held), s.heldMsgs.find? (fun x => x.die == h.die && x.n == h.n) = some h →
    (∀ r ∈ s.runs, ¬(r.job = h.msg.job ∧ r.rank = h.msg.dst)) → 10000000 ≤ (s.time - h.time).toNat →
    ∃ t, exec (.messageDiscard h.die h.n) s = .next t ∧ t = { s with heldMsgs := s.heldMsgs.erase h, counters := t.counters } ∧
      mget 0 t.counters (h.die * 64 + 8) = (mget 0 s.counters (h.die * 64 + 8) + 1) % 2 ^ 64) ∧
  (∀ (s : State) (n p : Nat) (c : Cp) (t : Word), cpOf s n = some c → c.r.id = n → c.x.op ∈ [2, 3, 4] → c.peer = some p → c.r.since = some t → c.r.got = none →
    (∀ h ∈ s.heldMsgs, ¬(h.msg.job = c.r.job ∧ h.msg.src = p ∧ h.msg.dst = c.r.rank)) → 100000000 ≤ (s.time - t).toNat →
    ∃ u, exec (.recvTimeout n) s = .next u ∧ Claim.stepEnds s u n 0x42 (c.r.step + 1))

/-- SLOT_CONTRIBUTION, SLOT_CLOSE and SLOT_DEADLINE (R405, R407, R408, R411 to R413, R421, R426): each contribution is combined into the
slot's partials and counted, and one sent again takes the kept answer; at the last, or at the deadline with fewer, the slot's readers take its
range, with the elements that the close clamps, and its name is killed. -/
def Claim.MeetingSlots : Prop :=
  (∀ (s : State) (f : MsgFrom) (c : Contrib),
    let told := fun (u : State) (code : Nat) => Claim.reply u f.port (.message f.port 0 0 0 (code == 0) code)
    let kept := fun (u : State) (code : Nat) => { u with kept := keepAnswer s.kept ⟨f.requester, f.port, f.seq, natBytes 1 code⟩ }
    let run := fun (u : State) => exec (.slotContribution ⟨f, c⟩) s = .next u
    (∀ k, keptFor s f = some k → run (told s (leNat k.data))) ∧
    (keptFor s f = none → otherMake s f = true → run (told s 0x44)) ∧
    (keptFor s f = none → otherMake s f = false →
      (∀ code, slotReason s none c.slot = code → code ≠ 0 → run (told (kept s code) code)) ∧
      (∀ e m, slotReason s none c.slot = 0 → entryOf s c.slot = some e → e.obj = .meeting m →
        (slotMembers e.record ≤ m.contribs → run (told (kept s 0x01) 0x01)) ∧
        (m.contribs < slotMembers e.record → c.elems.length ≠ slotElems e.record ∨ fmtCodeOk c.format = false → run (told (kept s 0x48) 0x48)) ∧
        (m.contribs < slotMembers e.record → c.elems.length = slotElems e.record → fmtCodeOk c.format = true → c.format ≠ 0x05 →
          ∃ t m', run t ∧ t = { told (kept s 0) 0 with roster := t.roster } ∧
            entryOf t c.slot = some { e with obj := .meeting m' } ∧ m'.contribs = m.contribs + 1 ∧ m'.readers = m.readers ∧
            ∀ i, i < slotElems e.record →
              m'.parts.getD i .absent = combineParts (fmtOf (slotFmt e.record)) (slotOp e.record) (m.parts.getD i .absent) (contribPart e.record c i).1 ∧
              m'.counts.getD i 0 = m.counts.getD i 0 + (contribPart e.record c i).2)))) ∧
  (∀ (s : State) (n : Name) (e : Entry) (m : Meet), entryOf s n = some e → e.obj = .meeting m → slotCell e.record = 0 →
    let closes := fun (i : Instr) => ∃ t, exec i s = .next t ∧ entryOf t n = some { e with obj := .plain, dying := true } ∧ (∀ p ∈ t.nameCache, p.2 ≠ n) ∧
      t.runs = s.runs.map (fun r => if r.id ∈ m.readers then { r with got := some (slotRange e.record m), marks := slotMarks e.record m } else r) ∧
      ∀ a, a < stagingLoc (slotDie e.record) (slotOff e.record) ∨ stagingLoc (slotDie e.record) (slotOff e.record) + slotArea e.record ≤ a →
        byteAt t a = byteAt s a
    (slotMembers e.record ≤ m.contribs → closes (.slotClose n)) ∧
    (m.contribs < slotMembers e.record → (slotDeadlineOf e.record).toNat ≤ s.time.toNat → closes (.slotDeadline n)))

/-- The events of messages and of meeting slots (R403 to R405, R411 to R413, R438): the claims MessageEvents and MeetingSlots together. -/
def Obligations.MessagesAndMeetings : Prop := Claim.MessageEvents ∧ Claim.MeetingSlots

/-! ### Peers and links -/

/-- PEER_REQUEST_ARRIVAL (R356, R423, R425, R426, R439, R444): a request that its window admits is performed under the window's space, and
the last answer of a request already performed is given again; what fails a check is answered with an error, a 257th with the busy mark; the
requester's make is that of its link. -/
def Claim.PeerRequests : Prop :=
  ∀ (s : State) (q : PeerReq),
    let porut := !otherMake s (reqSrc q)
    let out := fun (u : State) (b : List Byte) (error poison busy : Bool) =>
      Claim.reply { u with peerIn := u.peerIn.filter (fun x => !sameReq q x) } q.port (.peer q.requester q.seq b error poison busy)
    let answers := fun (b : List Byte) (error poison busy : Bool) => exec (.peerRequestArrival q) s = .next (out s b error poison busy)
    let hit := if porut = true then keptFor s (reqSrc q) else none
    let waiting := s.peerIn.any (sameReq q)
    (∀ k, hit = some k → answers k.data false false false) ∧
    (hit = none → waiting = false → 256 ≤ (s.peerIn.filter (fun x => x.requester == q.requester)).length → answers [] true false true) ∧
    (hit = none → waiting = true ∨ (s.peerIn.filter (fun x => x.requester == q.requester)).length < 256 →
      (exportWindow s q = none → answers [] true false false) ∧
      ∀ e, exportWindow s q = some e →
        (windowAdmits e.record q porut = false → answers [] true false false) ∧
        ∀ sp slot x s1, windowAdmits e.record q porut = true → entryOf s (e.record.extractLsb' 96 128) = some sp → sp.obj = .space slot →
          let va := fld e.record 224 56 + q.addr % 2 ^ 44
          zoneOf 0 va = .mapped → waitsPage s slot va (.peer q.requester q.port q.seq) = false → translate s slot va (PeerOp.ak q.op) = (.ok x, s1) →
          x.peer = false → engineOwns s1 (lineKey slot va) = false → s1.ev = [] →
          let loc := x.loc va
          let n := PeerOp.size q.op
          (∀ p ∈ pieces loc n, (granAt s1 p.1).poison = false) →
          let old := bytesAt s1 loc n
          let does := fun (b : List Byte) (new : List Byte) => new.length = n → ∃ u, exec (.peerRequestArrival q) s = .next u ∧
            u.hostOut = (if q.port ∈ s1.portsUp then s1.hostOut ++ [.peer q.requester q.seq b false false false] else s1.hostOut) ∧ (∀ y ∈ u.peerIn, sameReq q y = false) ∧
            (∀ a, byteAt u a = if loc ≤ a ∧ a < loc + n then new.getD (a - loc) 0 else byteAt s1 a) ∧
            (porut = true → PeerOp.ak q.op ≠ .read → ⟨q.requester, q.port, q.seq, b⟩ ∈ u.kept)
          (∀ k, q.op = .read k → does old old) ∧ (∀ d e1, q.op = .write d e1 → does [] d) ∧
          (∀ f w v, q.op = .atomic f w v → does old (natBytes n (atomElem f w (leNat old) v.toNat).1)) ∧
          (∀ w a b, q.op = .cas w a b → does old (if leNat old = a.toNat % 2 ^ (8 * n) then natBytes n b.toNat else old)) ∧
          (∀ f w v, q.op = .red f w v → does [] (natBytes n (redElem f w (leNat old) v.toNat).1)) ∧
          ∀ a b, q.op = .casName a b → does old (if leNat old = a.toNat then natBytes 16 b.toNat else old))

/-- PEER_RESPONSE, PEER_TIMEOUT, PEER_BUSY_RETRY and DATAGRAM_RESEND (R424, R425, R440): an answer completes what its request began; an
error, or a timeout, is that of the access; a store that fails once its team has left counts the team as faulted, with a record. -/
def Claim.PeerAnswers : Prop :=
  ∀ (s : State) (p : PeerOut), s.peerOut.find? (fun x => x.id == p.id) = some p →
    let v := dropReq s p.id
    let marks := fun (b : Option Word) => { s with peerOut := s.peerOut.map fun x => if x.id = p.id then { x with busy := b } else x }
    let both := fun (code : PeerAns) (P : State → Prop) => ∃ u, exec (.peerResponse p.id code) s = .next u ∧ (∀ x ∈ u.peerOut, x.id ≠ p.id) ∧ P u
    let timely := (s.time - p.sent).toNat < p.timeout
    exec (.peerResponse p.id (.error true true)) s = .next (marks (some s.time)) ∧
    (∀ t, p.busy = some t → 1000 ≤ (s.time - t).toNat → timely → exec (.peerBusyRetry p.id) s = .next (marks none)) ∧
    (p.ether = true → timely → (∀ x ∈ s.peerOut, x.id = p.id → x = p) → exec (.datagramResend p.id) s = .next (marks none)) ∧
    (∀ now id d z va g b, p.dst = .loadS now id d z va → s.group? now.g = some g →
      both (.data b) fun u => ∃ g', u.group? now.g = some g' ∧ g' = { g with pend := g'.pend, wait := g'.wait, readyAt := g'.readyAt } ∧
        g'.pend = g.pend.map fun x => if x.id = id then { x with
          writes := x.writes ++ [.s d (BitVec.ofNat 64 (MSize.extend z (leNat (b.take (MSize.bytes z)))))]
          ready := x.ready || !v.peerOut.any (fun y => PeerDst.pend y.dst == some (now.g, id)) } else x) ∧
    (∀ now id lane d z rule va itag g b, p.dst = .loadV now id lane d z rule va itag → s.group? now.g = some g →
      both (.data b) fun u => ∃ g', u.group? now.g = some g' ∧ g' = { g with pend := g'.pend, wait := g'.wait, readyAt := g'.readyAt } ∧
        g'.pend = g.pend.map fun x => if x.id = id then { x with
          writes := x.writes ++ putV z.wide d lane (MSize.extend z (leNat (b.take (MSize.bytes z)))) (loadTag rule 0 (oldTag g z.wide d lane))
          ready := x.ready || !v.peerOut.any (fun y => PeerDst.pend y.dst == some (now.g, id)) } else x) ∧
    (∀ n va b, p.dst = .cmd n va ∨ p.dst = .mma n va → both (.data b) fun u => u.fetched = s.fetched ++ [(n, va, b)]) ∧
    (∀ g lane va x, p.dst = .store g lane va → s.group? g = some x → (∃ t, s.team? g.team = some t ∧ t.ending = none) →
      both .done (fun u => ∀ a, byteAt u a = byteAt s a) ∧
      (x.ended = false → both (.error false false) fun u => ∃ x', u.group? g = some x' ∧ x'.peerFail = x.peerFail ++ [(.badAddress, p.window, va, lane)]) ∧
      (x.ended = false → ¬timely → ∃ u x', exec (.peerTimeout p.id) s = .next u ∧ (∀ y ∈ u.peerOut, y.id ≠ p.id) ∧ u.group? g = some x' ∧
        x'.peerFail = x.peerFail ++ [(.peerTimeout, p.window, va, lane)]) ∧
      (x.ended = true → both (.error false false) fun u => ∃ e, (u.team? g.team).map (·.ending) = some (some e) ∧ e.cause = .badAddress ∧ e.va = va ∧ e.lane = lane)) ∧
    (∀ g lane va l x, p.dst = .store g lane va → s.team? g.team = none → s.launches.find? (fun l => l.left g.team) = some l → s.launch? l.id = some l →
      l.gone.find? (fun x => x.id == g.team && !x.failed) = some x → both (.error false false) fun u => (s.errBuf.length < 1024 → u.errSeq = s.errSeq + 1) ∧
        ∃ y, u.launch? l.id = some y ∧ y.faulted = l.faulted + 1 ∧ y.ended = l.ended) ∧
    (∀ n va c, p.dst = .cmd n va → s.cmd? n = some c → c.stop = none → ¬timely → ∃ u, exec (.peerTimeout p.id) s = .next u ∧
      (∀ y ∈ u.peerOut, y.id ≠ p.id) ∧ u.cmd? n = some { c with stop := some 0x42, ack := none }) ∧
    (∀ n r, p.dst = .run n → s.run? n = some r → r.id = n →
      (both .done fun u => ∃ w, Claim.stepEnds v w n 0 (r.step + 1) ∧ ∀ a, byteAt u a = byteAt w a) ∧
      (∀ b, both (.data b) fun u => ∃ w, Claim.stepEnds v w n (leNat b) (r.step + 1) ∧ ∀ a, byteAt u a = byteAt w a) ∧
      (¬timely → ∃ u w, exec (.peerTimeout p.id) s = .next u ∧ Claim.stepEnds v w n 0x42 0 ∧ ∀ a, byteAt u a = byteAt w a))

/-- LINK_BRINGUP, PORT_DOWN and TIME_SYNC (R429, R439, R440, R446): a port trains up once the device has come up, and learns its peer's make. -/
def Claim.Links : Prop :=
  ∀ (s : State) (port vendor accel : Nat) (time skew : Word),
    (20 ≤ port ∨ readyDev s = false → exec (.linkBringup port vendor accel) s = .next s) ∧
    (port < 20 → readyDev s = true → ∃ t, exec (.linkBringup port vendor accel) s = .next t ∧ t = { s with portsUp := t.portsUp, peerMake := t.peerMake } ∧
      (∀ x, x ∈ t.portsUp ↔ x ∈ s.portsUp ∨ x = port) ∧ (16 ≤ port → t.peerMake = s.peerMake) ∧
      (port < 16 → mget 0 t.peerMake accel = if vendor = Config.vendorId then 0 else 1)) ∧
    (∃ t, exec (.portDown port) s = .next t ∧ t = { s with portsUp := t.portsUp } ∧ ∀ x, x ∈ t.portsUp ↔ x ∈ s.portsUp ∧ x ≠ port) ∧
    exec (.timeSync time skew) s = .next { s with time := time, skew := skew }

/-- Requests and answers between packages, and the links (R356, R423 to R426, R439, R440, R446): the claims PeerRequests, PeerAnswers and Links together. -/
def Obligations.PeerTraffic : Prop := Claim.PeerRequests ∧ Claim.PeerAnswers ∧ Claim.Links

/-! ### The device -/

/-- RESET (R429 to R431, R441, R442): nothing stays resident; host memory stays, and the dump region unless the reset is cold; each image
is checked against its anti-rollback counter, and an accepted one raises it and extends its measurement register; the first step that fails
gives the recovery code, and a reset whose steps all succeed makes the device ready with its record's numbers and a new serial number. -/
def Claim.DeviceReset : Prop :=
  (∀ (s : State) (cold : Bool) (b : BootInfo), MemOk s → ∃ t, exec (.reset cold b) s = .next t ∧ MemOk t ∧
    (t.teams = [] ∧ t.launches = [] ∧ t.roster = [] ∧ t.cmds = [] ∧ t.mmas = [] ∧ t.runs = [] ∧ t.accs = [] ∧ t.faults = [] ∧ t.cdir = [] ∧ t.hdir = [] ∧
      t.ev = [] ∧ t.tlb = [] ∧ t.peerOut = [] ∧ t.peerIn = [] ∧ t.portsUp = [] ∧ t.errBuf = [] ∧ t.banks = [] ∧ t.stopped = false) ∧ t.time = s.time ∧
    (∀ a, byteAt t a = if (2 ^ 56 ≤ a ∧ a < 2 ^ 57) ∨ (cold = false ∧ dumpBase ≤ a ∧ a < dumpBase + dumpSize) then byteAt s a else 0) ∧
    let f := bootFlash s b
    let code := if f.code ≠ 0 then f.code else if b.hbmOk = false then 0x06 else if b.d2dOk = false then 0x07 else if b.devno = 0xFFFF then 0x08
      else if 1023 < b.accel.toNat then 0x09 else 0
    t.ctrl.recovery = code ∧ t.ctrl.status = (if code = 0 then 2 else 1) ∧ t.rollback = f.rollback ∧ t.measure = f.measure ∧
    t.serial = (if code = 1 then s.serial else s.serial + 1) ∧ (code = 0 → t.ctrl = Ctrl.reset ∧ t.devno = b.devno ∧ t.accel.toNat = b.accel.toNat)) ∧
  (∀ (s : State) (b : BootInfo), (b.flashOk = false → (bootFlash s b).code = 0x01) ∧
    ∀ (sig old : Nat) (a : BootAcc) (x : BootImage), a.code = 0 → (x.signed = false → bootImage sig old a x = { a with code := sig }) ∧
      (x.signed = true → x.version < a.rollback.getD x.counter 0 → bootImage sig old a x = { a with code := old }) ∧
      (x.signed = true → a.rollback.getD x.counter 0 ≤ x.version → x.counter < a.rollback.length → x.register < a.measure.length →
        (bootImage sig old a x).code = 0 ∧ (bootImage sig old a x).rollback.getD x.counter 0 = x.version ∧
        (bootImage sig old a x).measure.getD x.register 0 = extendMeasure (a.measure.getD x.register 0) x.digest ∧
        (∀ i, i ≠ x.counter → (bootImage sig old a x).rollback[i]? = a.rollback[i]?) ∧
        ∀ i, i ≠ x.register → (bootImage sig old a x).measure[i]? = a.measure[i]?))

/-- FATAL_ERROR, FREQUENCY_CHANGE and FIRMWARE_REFUSED (R26, R343, R444, R445, R449): a fatal error stops the package with its dump; an island's
setting takes effect between clauses; an access of firmware outside its window is recorded. -/
def Claim.DeviceEvents : Prop :=
  ∀ (s : State) (island mhz mv die : Nat) (gate : Bool) (addr : Word),
    (∃ t, exec .fatalError s = .next t ∧ t.stopped = true ∧ t.dumped = true ∧ natAt t dumpBase 8 = 1 + s.serial.toNat * 2 ^ 8 ∧
      ((∀ c b l, s.agenda ≠ .reset c b :: l) → step t = .fault .stopped)) ∧
    (∃ t, exec (.frequencyChange island mhz mv gate) s = .next t ∧ t = { s with islands := t.islands } ∧ t.islands.length = s.islands.length ∧
      (∀ j, j ≠ island → t.islands[j]? = s.islands[j]?) ∧ ∀ x, s.islands[island]? = some x → ∃ y, t.islands[island]? = some y ∧
        (betweenClauses s island = true → y.mhz ≤ mhz ∧ y.mv ≤ mv ∧ y.want = none ∧ (islandBusy s island = true → y.gated = false) ∧
          (islandBusy s island = false → y.gated = gate)) ∧ (betweenClauses s island = false → y = { x with want := some (mhz, mv, gate) })) ∧
    (4 ≤ die ∨ firmwareMay die addr.toNat = true → exec (.firmwareRefused die addr) s = .next s) ∧
    (die < 4 → firmwareMay die addr.toNat = false → s.errBuf.length < 1024 → ∃ t r, exec (.firmwareRefused die addr) s = .next t ∧ t = { s with errBuf := s.errBuf ++ [r], errSeq := s.errSeq + 1 })

/-- RESET and the events of the device (R429 to R431, R441, R444, R445, R449): the claims DeviceReset and DeviceEvents together. -/
def Obligations.DeviceLife : Prop := Claim.DeviceReset ∧ Claim.DeviceEvents

/-- CONTROL_REGISTER_WRITE and the control space's part of HOST_READ (R160, R429, R431 to R436): the rings' bases and sizes while they are
empty, the mailbox's command and its doorbell; a read of a register, of a launch window's free entries, or of an offset with neither, which
reads zero; in recovery only STATUS and the mailbox answer. -/
def Obligations.ControlRegisters : Prop :=
  (∀ (s : State) (off size : Nat),
    let reads := fun (v : Nat) => exec (.hostRead (.control off) size) s = .next { s with hostOut := s.hostOut ++ [.control off (natBytes size v)] }
    let answers := s.ctrl.status = 2 ∨ off = 0x40000 ∨ 0x41000 ≤ off
    (¬answers → exec (.hostRead (.control off) size) s = .next s) ∧
    (answers → size = 8 → (off = 0x40000 → reads (s.ctrl.status + s.ctrl.recovery * 2 ^ 8)) ∧ (off = 0x40008 → reads 0x6FA0000000) ∧
      (off = 0x40110 → reads s.ctrl.frprod.toNat) ∧ (off = 0x40210 → reads s.ctrl.erprod.toNat) ∧ (off = 0x40220 → reads s.ctrl.erlost.toNat) ∧
      (off = 0x410C0 → reads (if s.ctrl.mbbusy then 1 else 0)) ∧
      (off < 0x40000 → reads (if off % 0x1000 = 0x40 then queueRoom s (off / 0x1000) % 2 ^ 64 else 0)) ∧
      (0x40000 ≤ off → (∀ r ∈ ctrlRegs s, r.1 ≠ off) → reads 0)) ∧
    (answers → off = 0x41080 → size = 64 → reads (leNat (s.ctrl.mbresp.flatMap fun w => natBytes 8 w.toNat)))) ∧
  ∀ (s : State) (data : List Byte),
    let x : Word := BitVec.ofNat 64 (leNat data)
    let wr := fun (off size : Nat) => exec (.controlRegisterWrite off size data) s
    let sized := ∃ i, i < 11 ∧ x.toNat = 64 * 2 ^ i
    (data.length = 8 → s.ctrl.status = 2 →
      (s.ctrl.frprod = s.ctrl.frcons → x.toNat % 4096 = 0 → wr 0x40100 8 = .next { s with ctrl := { s.ctrl with frbase := x } }) ∧
      (s.ctrl.frprod = s.ctrl.frcons → sized → wr 0x40108 8 = .next { s with ctrl := { s.ctrl with frsize := x } }) ∧
      (s.ctrl.frprod ≠ s.ctrl.frcons → wr 0x40100 8 = .next s ∧ wr 0x40108 8 = .next s) ∧
      (s.ctrl.erprod = s.ctrl.ercons → x.toNat % 4096 = 0 → wr 0x40200 8 = .next { s with ctrl := { s.ctrl with erbase := x } }) ∧
      (s.ctrl.erprod = s.ctrl.ercons → sized → wr 0x40208 8 = .next { s with ctrl := { s.ctrl with ersize := x } }) ∧
      (s.ctrl.erprod ≠ s.ctrl.ercons → wr 0x40200 8 = .next s ∧ wr 0x40208 8 = .next s) ∧
      (¬sized → wr 0x40108 8 = .next s ∧ wr 0x40208 8 = .next s) ∧
      wr 0x40118 8 = .next { s with ctrl := { s.ctrl with frcons := x } } ∧ wr 0x40218 8 = .next { s with ctrl := { s.ctrl with ercons := x } }) ∧
    (data.length = 64 → s.ctrl.mbbusy = false → wr 0x41000 64 = .next { s with ctrl := { s.ctrl with mbcmd := words8 data } }) ∧
    (data.length = 64 → s.ctrl.mbbusy = true → wr 0x41000 64 = .next s) ∧
    (data.length = 8 →
      let code := ((s.ctrl.mbcmd.getD 0 0).extractLsb' 0 8).toNat
      let told := fun (k : Word) => { s with ctrl := { s.ctrl with mbresp := [k, 0, 0, 0, 0, 0, 0, 0], mbbusy := false } }
      (s.ctrl.mbbusy = true → wr 0x41040 8 = .next s) ∧
      (s.ctrl.mbbusy = false → s.ctrl.status ≠ 2 → code ≠ 8 → wr 0x41040 8 = .next (told 3)) ∧
      (s.ctrl.mbbusy = false → s.ctrl.status = 2 → code < 1 ∨ 10 < code → wr 0x41040 8 = .next (told 1)) ∧
      (s.ctrl.mbbusy = false → s.ctrl.status = 2 ∨ code = 8 → 1 ≤ code → code ≤ 10 → wr 0x41040 8 = .next { s with ctrl := { s.ctrl with mbbusy := true } })) ∧
    (data.length = 16 → s.ctrl.status = 2 →
      let m : BitVec 128 := BitVec.ofNat 128 (leNat data)
      let die := (m.extractLsb' 64 2).toNat
      (m.extractLsb' 67 61 ≠ 0 → wr 0x40120 16 = .next s) ∧ (m.extractLsb' 67 61 = 0 → m.getLsbD 66 = false → wr 0x40120 16 = exec (.resolveRetry die (m.extractLsb' 0 64)) s) ∧
      (m.extractLsb' 67 61 = 0 → m.getLsbD 66 = true → wr 0x40120 16 = exec (.resolveRefuse die (m.extractLsb' 0 64)) s))

/-- A mailbox command's answer: its status, its results, and the mailbox free again (R436). -/
def Claim.told (u : State) (status : Nat) (ws : List Word) : Prop :=
  u.ctrl.mbbusy = false ∧ u.ctrl.mbresp = (BitVec.ofNat 64 status :: ws ++ List.replicate 8 0).take 8

/-- The mailbox's commands (R436, R438, R443, R446, R448): PREEMPT, KILL, PEERTIME, ENDPOINT, COUNTERS, AGEING, DUMP and ATTEST. -/
def Claim.MailboxCommands : Prop :=
  ∀ (s : State), s.ctrl.mbbusy = true →
    let arg := fun (i : Nat) => s.ctrl.mbcmd.getD i 0
    let runs := fun (i : Instr) (code : Nat) (P : State → Prop) => ((arg 0).extractLsb' 0 8).toNat = code → ∃ u, exec i s = .next u ∧ P u
    let frame := fun (u : State) (pa n : Nat) => ∀ a, a < hostLoc pa ∨ hostLoc pa + n ≤ a → byteAt u a = byteAt s a
    (runs .preempt 1 fun u => (mbContext s = none → Claim.told u 2 []) ∧ ∀ i, mbContext s = some i → Claim.told u 0 [] ∧
      ∀ t, s.team? t.id = some t → t.ctx = i → t.saved = false → t.ending = none → u.team? t.id = some { t with preempt := true }) ∧
    (runs .kill 2 fun u => (mbContext s = none → Claim.told u 2 []) ∧ ∀ i, mbContext s = some i → Claim.told u 0 [] ∧
      (∀ l ∈ u.launches, l.ctx = i → l.killed = true ∨ l.placed = l.total ∧ l.again = []) ∧
      ∀ t, s.team? t.id = some t → t.ctx = i → t.ending = none → ∃ e, (u.team? t.id).map (·.ending) = some (some e) ∧ e.cause = .killed) ∧
    (runs .peertime 3 fun u => let a := (arg 1).toNat; let t := (arg 2).toNat
      (a ≤ 1023 → 1000 ≤ t → t ≤ 100000000 → Claim.told u 0 [] ∧ mget 100000 u.peerTimeouts a = t ∧
        ∀ b, b ≠ a → mget 100000 u.peerTimeouts b = mget 100000 s.peerTimeouts b) ∧
      (1023 < a ∨ t < 1000 ∨ 100000000 < t → Claim.told u 2 [] ∧ u.peerTimeouts = s.peerTimeouts)) ∧
    (runs .endpoint 4 fun u => let i := (arg 1).toNat; let p := (arg 3).toNat
      (i ≤ 4095 → p ≤ 3 → (arg 2).toNat < 2 ^ 48 → Claim.told u 0 [] ∧ ∀ e, e ∈ u.endpoints ↔ (e ∈ s.endpoints ∧ e.index ≠ i) ∨ e = ⟨i, (arg 2).setWidth 48, p⟩) ∧
      (4095 < i ∨ 3 < p ∨ 2 ^ 48 ≤ (arg 2).toNat → Claim.told u 2 [] ∧ u.endpoints = s.endpoints)) ∧
    (runs .counters 5 fun u => let d := (arg 1).toNat; let pa := (arg 2).toNat
      (3 < d ∨ 2 ^ 56 < pa + 512 → Claim.told u 2 []) ∧ (d ≤ 3 → pa + 512 ≤ 2 ^ 56 → Claim.told u 0 [] ∧ frame u pa 512 ∧
        (∀ k, k = 0 ∨ k = 7 ∨ k = 8 → natAt u (hostLoc pa + 8 * k) 8 = mget 0 s.counters (d * 64 + k) % 2 ^ 64) ∧
        natAt u (hostLoc pa + 72) 8 = s.skew.toNat ∧ natAt u (hostLoc pa + 80) 8 = mget 0 s.faultSeq d % 2 ^ 64 ∧
        ∀ k, 11 ≤ k → k < 64 → natAt u (hostLoc pa + 8 * k) 8 = 0)) ∧
    (runs .ageing 6 fun u => let pa := (arg 1).toNat
      (2 ^ 56 < pa + 1024 → Claim.told u 2 []) ∧ (pa + 1024 ≤ 2 ^ 56 → Claim.told u 0 [] ∧ frame u pa 1024 ∧
        ∀ k, k < 128 → natAt u (hostLoc pa + 8 * k) 8 < 2 ^ 16)) ∧
    (runs .dump 7 fun u => let pa := (arg 1).toNat; let n := (arg 2).toNat
      (dumpSize < n ∨ 2 ^ 56 < pa + n → Claim.told u 2 []) ∧ (n ≤ dumpSize → pa + n ≤ 2 ^ 56 → Claim.told u 0 [] ∧ frame u pa n ∧
        ∀ i, i < n → byteAt u (hostLoc pa + i) = if s.dumped = true then byteAt s (dumpBase + i) else 0)) ∧
    (runs .attest 8 fun u => let pa := hostLoc (arg 5).toNat
      (2 ^ 56 < (arg 5).toNat + 8704 → Claim.told u 2 []) ∧ ((arg 5).toNat + 8704 ≤ 2 ^ 56 →
      Claim.told u 0 [] ∧ (∀ i, i < 4 → natAt u (pa + 8 * i) 8 = (arg (1 + i)).toNat) ∧ natAt u (pa + 32) 8 = s.devno.toNat + s.accel.toNat * 2 ^ 16 ∧
      natAt u (pa + 40) 8 = s.serial.toNat ∧ (s.measure.length = 16 → s.rollback.length = 64 → frame u (arg 5).toNat 8704 ∧
        (∃ n, ∀ i, i < 7856 → byteAt u (pa + 848 + i) = Config.slhSign identityKey (bytesAt u pa 848) n i) ∧
        (∀ i m, s.measure[i]? = some m → natAt u (pa + 48 + 32 * i) 32 = m.toNat) ∧ ∀ i v, s.rollback[i]? = some v → natAt u (pa + 560 + 4 * i) 4 = v % 2 ^ 32)))

/-- NAMEOBJ and KILLOBJ (R436, R437): a name made of an image in host memory for a context, and the shoot-down of any name, whose answer
comes with NKILL_COMPLETE. -/
def Claim.MailboxNames : Prop :=
  ∀ (s : State), s.ctrl.mbbusy = true →
    let arg := fun (i : Nat) => s.ctrl.mbcmd.getD i 0
    let code := ((arg 0).extractLsb' 0 8).toNat
    (code = 9 → waitsOn s .mailbox = false →
      let cls := ((arg 1).extractLsb' 0 8).toNat
      let owner := ((arg 1).extractLsb' 8 8).toNat
      let pa := (arg 2).toNat
      let img := BitVec.ofNat 384 (natAt s (hostLoc pa) 48)
      let r : BitVec 352 := img.setWidth 352
      let tells := fun (status : Nat) => ∃ u, exec .nameobj s = .next u ∧ Claim.told u status [] ∧ u.roster = s.roster
      (pa % 16 ≠ 0 ∨ 2 ^ 56 < pa + 48 ∨ ownerOk s cls owner = false → tells 2) ∧
      (pa % 16 = 0 → pa + 48 ≤ 2 ^ 56 → ownerOk s cls owner = true → cls < 1 ∨ 9 < cls → tells 0x600) ∧
      (pa % 16 = 0 → pa + 48 ≤ 2 ^ 56 → ownerOk s cls owner = true → cls = 2 → img.extractLsb' 352 32 ≠ 0 ∨ tensorOk r = false → tells 0x700) ∧
      (pa % 16 = 0 → pa + 48 ≤ 2 ^ 56 → ownerOk s cls owner = true → cls = 2 → img.extractLsb' 352 32 = 0 → tensorOk r = true → tCb r = false → s.roster.length < 2 ^ 24 →
        let name : Name := (2 : BitVec 8) ++ s.devno ++ s.serial ++ s.nameCnt
        ∃ u e, exec .nameobj s = .next u ∧ Claim.told u 0 [name.extractLsb' 0 64, name.extractLsb' 64 64] ∧ entryOf u name = some e ∧
          (e.name, e.dying, e.owner, e.hold, e.record) = (name, false, owner, 0, r) ∧ u.nameCnt = s.nameCnt + 1 ∧
          ∀ m, m ≠ name.toNat → mfind u.roster m = mfind s.roster m)) ∧
    (code = 10 →
      let n : Name := arg 2 ++ arg 1
      let tells := fun (status : Nat) => ∃ u, exec .killobj s = .next u ∧ Claim.told u status [] ∧ u.roster = s.roster
      (n = 0 → tells 0x300) ∧ (n ≠ 0 → nameDevice n ≠ s.devno → tells 0x200) ∧ (n ≠ 0 → nameDevice n = s.devno → entryOf s n = none → tells 0x100) ∧
      ∀ e, n ≠ 0 → nameDevice n = s.devno → entryOf s n = some e → e.dying = false →
        (nameInUse s e = true → tells 0xB00) ∧
        (nameInUse s e = false → ∃ u e', exec .killobj s = .next u ∧ entryOf u n = some e' ∧ e'.dying = true ∧ e'.killer = some (⟨0, 0⟩, 0) ∧
          (∀ p ∈ u.nameCache, p.2 ≠ n) ∧ u.ctrl = s.ctrl ∧ ∀ m, m ≠ n.toNat → mfind u.roster m = mfind s.roster m))

/-- The mailbox's commands (R436 to R438, R443, R446, R448): the claims MailboxCommands and MailboxNames together. -/
def Obligations.Mailbox : Prop := Claim.MailboxCommands ∧ Claim.MailboxNames

/-! ### The whole machine -/

/-- The state after reset (R196, R429, R432, R433, R442): the device is ready, nothing is resident, the rings and the mailbox read 0, the
banks have their modes, and memory is in canonical form with nothing listed. The zeros of registers that the rules do not
name are the model's choice (log entry 2). -/
def Obligations.ResetState : Prop :=
  let s := State.reset
  MemOk s ∧ (∀ a, byteAt s a = 0) ∧ s.ctrl.status = 2 ∧ s.ctrl.recovery = 0 ∧ s.stopped = false ∧ s.teams = [] ∧ s.launches = [] ∧ s.roster = [] ∧
  (s.ctrl.frbase, s.ctrl.frsize, s.ctrl.frprod, s.ctrl.frcons) = (0, 0, 0, 0) ∧
  (s.ctrl.erbase, s.ctrl.ersize, s.ctrl.erprod, s.ctrl.ercons, s.ctrl.erlost) = (0, 0, 0, 0, 0) ∧ s.ctrl.mbbusy = false ∧
  (∀ cl b, b < 64 → bankMode s cl b = if b < 48 then .scratch else if b < 56 then .fifo else .cache) ∧ s.endpoints = [] ∧
  (∀ a, mget 100000 s.peerTimeouts a = 100000) ∧ SafeStep s

/-- Every step keeps memory, its tags and its poison in canonical form. -/
def Obligations.StepKeepsMemory : Prop := ∀ (s t : State), MemOk s → step s = .next t → MemOk t

/-- A well-formed instruction word is read back from its encoding, with every operand at every value its encoding admits. -/
def Obligations.EncodeDecode : Prop := ∀ (i : Instr) (w : Word), i.WellFormed → encode i = some w → decode w = .ok i

/-- A word that decodes is the encoding of what it decodes to: no two words mean the same, and no bit is ignored; and what is
decoded is well formed. -/
def Obligations.DecodeEncode : Prop := ∀ (w : Word) (i : Instr), decode w = .ok i → i.WellFormed ∧ encode i = some w

/-- A step performs the word it decodes (R50, R79, R153). When nothing stands on the agenda and the turn is a word's, the first
group of those in a clause whom nothing keeps from issuing issues the word at its pc: if the word fetched there decodes to an
instruction of the clause's class, in its place, and the group's count allows it, the step is `exec` of that instruction, in
the state in which time has passed, the word is the current one, and one of the count is taken. The order of turns is the
model's own (log entry 1). And the state that `withFetchWord` makes is such a state, whatever state it starts from. -/
def Obligations.StepRunsDecoded : Prop :=
  (∀ (s s2 : State) (t : Team) (g : Group) (cl : Clause) (w : Word) (i : Instr),
    let s1 := { tick s with turn := s.turn + 1 }
    let r : GRef := ⟨t.id, g.grp⟩
    let n : Now := ⟨r, cl.hdr, cl.head, cl.pc, cl.x, cl.next + 1 == cl.head.count, cl.redo⟩
    let m := (w.extractLsb' 56 8).toNat
    s.stopped = false → s.agenda = [] → s.turn % 4 = 0 → s1.issuing.findSome? (canIssue s1) = some (t, g, cl) →
    (g.ylddl ≠ 0 ∨ cl.redo = true) →
    fetchWord { s1 with now := some n, issuing := s1.issuing.filter (fun x => x != r) ++ [r] } t.core t.slot n.pc = (.word w, s2) →
    decode w = .ok i → (majorInfo m).map Prod.snd = some cl.head.cls → (majorEnds m = true → n.last = true) →
    step s = exec i (if cl.redo then s2 else s2.modGroup r (fun g => { g with ylddl := g.ylddl - 1 }))) ∧
  (∀ (s : State) (w : Word) (i : Instr), decode w = .ok i →
    ∃ u c, step (s.withFetchWord 64 w.toNat) = exec i u ∧ cur? u = some c ∧ c.n.pc = placedText + 8 ∧ c.n.x = lowMask 16 ∧ c.n.last = true)

/-- Words of the spec's own examples, one of every family, and what they stand for. -/
def Obligations.DecodeExamples : Prop :=
  let h : Head := ⟨false, .blame, 0, false⟩
  let rel : MOrd := ⟨.dev, .relaxed, 0⟩
  decode 0x0201002C70000090#64 = .ok (.sadd h .wrap 11 7 (.i 144)) ∧
  decode 0x08001004A0800000#64 = .ok (.scmp h .lt 1 10 (.r 2)) ∧
  decode 0x110002000000000A#64 = .ok (.brv h 1 false 10) ∧
  decode 0x13000000FFFFFFFD#64 = .ok (.call h (-3)) ∧
  decode 0x1B00000100000010#64 = .ok (.yld h true 16) ∧
  decode 0x20010003018003E8#64 = .ok (.vadd h .wrap .i32 3 (.v 3) (.i 1000)) ∧
  decode 0x300002160A054000#64 = .ok (.fadd h .f32 22 (.v 20) (.r (.v 21)) ⟨.rn, false, false⟩) ∧
  decode 0x3D00441E0A054041#64 = .ok (.cvtp h 0x44 30 (.v 20) (.v 21) 2 .rn false true) ∧
  decode 0x400801190A500000#64 = .ok (.vbal ⟨false, .blame, 2, false⟩ 25 (.v 20) (.c 0)) ∧
  decode 0x5100080050B00A00#64 = .ok (.vst h .b32 rel 20 ⟨11, .v 1, 2, false, 0⟩) ∧
  decode 0x0D0008102C9A0000#64 = .ok (.sld h .b32 ⟨.dev, .acq, 0⟩ 11 ⟨9, .none, 0, false, 0⟩) ∧
  decode 0x61000830789A0000#64 = .ok (.acas h .b32 ⟨.dev, .ar, 0⟩ 30 ⟨9, .none, 0, false, 0⟩) ∧
  decode 0x6200380050F00A00#64 = .ok (.red h .fadd .b32 rel 20 ⟨15, .v 1, 2, false, 0⟩) ∧
  decode 0x6500060880C00000#64 = .ok (.qpop h 3 true false 2 12) ∧
  decode 0x670000D000000E81#64 = .ok (.cwait h 0 false .clu .acq 14 (.i 1) none) ∧
  decode 0x7000100404A2C044#64 = .ok (.mma h true true true 0 1 10 11 4) ∧
  decode 0x7180000000000004#64 = .ok (.aacq ⟨true, .blame, 0, false⟩ 4) ∧
  decode 0x780004608CC34ECF#64 = .ok (.xcopy h ⟨2, .rz, true, false, 2, 3, 12, 13, 14, true, some 15⟩) ∧
  decode 0x7B00040141B05C00#64 = .ok (.cprun h 2 false 5 27 1 28) ∧
  decode 0x85001231149A0000#64 = .ok (.ncas h true 1 ⟨.dev, .ar, 0⟩ 4 5 ⟨9, .none, 0, false, 0⟩) ∧
  decode 0x8B000800A4800C00#64 = .ok (.tldg h rel 41 ⟨8, .v 1, 4, false, 0⟩) ∧
  decode 0x9000021E0A054000#64 = .ok (.rvmul h .f32 30 (.v 20) (.v 21) .rn) ∧
  decode 0x9600042010800000#64 = .ok (.unnar h 4 32 (.v 33)) ∧
  decode 0x9801000000000007#64 = .ok (.slmark h 7) ∧
  decode 0xA001000000000005#64 = .ok (.trap h 5) ∧
  decode 0xA4000000C0000000#64 = .ok (.launch h 12)

/-! ### Every form completes -/

/-- FADD, FSUB, FMUL, FFMA, FMINMAX, FCMP, FCLS, FDOT, SFU, RNG, CVT, CVTP, CVTX and FSCL complete whenever their registers are within
the group's budget (R31, R60), their queue has room (R81), and no unit's monitor finds an error (R105). -/
def Claim.FloatForms : Prop :=
  ∀ (s : State) (c : Cur) (h : Head) (t : VType) (vd dst src : BitVec 8) (p : BitVec 3) (a b x : Src) (y : VB) (m : FMod), cur? s = some c →
    (c.vOk vd.toNat (VType.isF64 t) = true → c.srcOk t a = true → c.vbOk t y = true →
      (∀ q ∈ [(Instr.fadd h t vd a y m, FpOp.add), (.fsub h t vd a y m, .sub), (.fmul h t vd a y m, .mul)],
        Claim.unstruck s c h (fun k => fpLane s c t m q.2 k [readSrc c.g t a k, readVB c.g t y k]) → GoesOn q.1 s c) ∧
      ∀ f, GoesOn (.fminmax h f t vd a y) s c) ∧
    (c.vOk vd.toNat (VType.isF64 t) = true → c.srcOk t a = true → c.srcOk t b = true → c.srcOk t x = true → ∀ f,
      Claim.unstruck s c h (fun k => fpLane s c t m (fmaOp f) k [readSrc c.g t a k, readSrc c.g t b k, readSrc c.g t x k]) →
        GoesOn (.ffma h f t vd a b x m) s c) ∧
    (c.srcOk t a = true → (∀ mask, GoesOn (.fcls h t p a mask) s c) ∧
      (c.vbOk t y = true → ∀ f, GoesOn (.fcmp h f t p a y) s c)) ∧
    (c.vOk vd.toNat false = true → (∀ f, GoesOn (.rng h f vd) s c) ∧
      (∀ f, c.srcOk .i32 a = true → c.srcOk .i32 b = true → c.srcOk .f32 x = true →
        Claim.unstruck s c h (dotLane s c f m a b x) → GoesOn (.fdot h f vd a b x m) s c) ∧
      (resultGate c .sfu = none → c.srcOk .f32 a = true →
        ∀ f, (f = .div → c.srcOk .f32 b = true) → GoesOn (.sfu h f vd a b m.ftz) s c)) ∧
    (resultGate c .cvt = none →
      (c.vOk vd.toNat (fmtWidth dst == 64) = true →
        (c.fmtOk src a = true → GoesOn (.cvt h dst vd a src m) s c) ∧
        (c.srcOk .i32 a = true → c.srcOk .n32 b = true → GoesOn (.cvtx h dst vd a b src m) s c)) ∧
      (c.vOk vd.toNat false = true →
        (c.fmtOk src a = true → c.fmtOk src b = true → ∀ hi, GoesOn (.cvtp h dst vd a b src m.rnd hi m.sat) s c) ∧
        (c.srcOk t a = true → c.srcOk t b = true → GoesOn (.fscl h (.apply t b m) vd a) s c) ∧
        (c.srcOk .f32 a = true → ∀ f, GoesOn (.fscl h (.comp f) vd a) s c)))

/-- VBAL, VMATCH, VVOTE, VSHFL, VXCH, VREDUCE, VSCAN and VLANE (R173 to R186), TGET, TSET, TCHK of lanes without an exceptional source and
TORG (R357 to R364) complete whenever their registers are within the group's budget. -/
def Claim.LaneForms : Prop :=
  ∀ (s : State) (c : Cur) (h : Head) (t : VType) (vd : BitVec 8) (p q : BitVec 3) (sd sa : BitVec 6) (a b x : Src) (m : FMod), cur? s = some c →
    (maskDestOk c vd = true → c.srcOk .n32 a = true → GoesOn (.vmatch h vd a) s c ∧
      (c.srcOk .n32 b = true → GoesOn (.vbal h vd a b) s c)) ∧
    (∀ f, f ≠ .count ∨ c.vOk vd.toNat false = true → GoesOn (.vvote h f vd p) s c) ∧
    (c.vOk vd.toNat (VType.isF64 t) = true → GoesOn (.vlane h .ins t vd a b) s c ∧
      (c.srcOk t a = true → c.srcOk .n32 b = true → ∀ f, GoesOn (.vshfl h f t vd a b) s c)) ∧
    (c.srcOk .n32 a = true → GoesOn (.vlane h .ext t vd a b) s c) ∧
    (c.vOk vd.toNat false = true →
      (c.srcOk .n32 a = true → c.srcOk .n32 b = true → GoesOn (.vxch h vd a b x) s c) ∧
      (c.srcOk t a = true → (∀ f, GoesOn (.vreduce h f t vd a m) s c) ∧ ∀ f, GoesOn (.vscan h f t vd a m.sat) s c) ∧
      (c.srcOk .i32 a = true → GoesOn (.tget h vd a) s c ∧ GoesOn (.tset h vd (.reg a)) s c) ∧
      GoesOn (.tset h vd .born) s c ∧ GoesOn (.tset h vd .clre) s c) ∧
    (c.srcOk t a = true → (∀ k, k < 64 → (c.active h).getLsbD k = true → (srcOf c.g t a k).exc = false) → GoesOn (.tchk h t a) s c) ∧
    (resultGate c .none = none → (c.g.sreg sa.toNat).setWidth 15 = 0 → GoesOn (.torg h q sd sa) s c)

/-- The reversible words (R367 to R390) complete: a forward form and SLMARK with room on chip for their frame, an undo form with the
frame it takes on chip, SLDROP with its marker there, and SLDEPTH. -/
def Claim.ReversibleForms : Prop :=
  ∀ (s : State) (c : Cur) (h : Head) (vd fmt : BitVec 8) (a b : Src) (rnd : Rnd) (sat : Bool) (id : BitVec 16) (d : BitVec 6), cur? s = some c →
    let chip := c.g.slate.chip
    (c.vOk vd.toNat false = true → c.srcOk .f32 a = true → chip.length < chipCap c.l.kernel → replayOf c = none →
      (c.srcOk .f32 b = true →
        (∀ q ∈ [(Instr.rvmul h .f32 vd a b rnd, FpOp.mul), (.rvadd h vd a b rnd, .add)],
          Claim.unstruck s c h (fun k => fpLane s c .f32 ⟨rnd, false, false⟩ q.2 k [readSrc c.g .f32 a k, readSrc c.g .f32 b k]) →
            GoesOn q.1 s c) ∧
        GoesOn (.rvmul h .i32 vd a b rnd) s c) ∧
      GoesOn (.rvnar h fmt vd a rnd sat) s c ∧ GoesOn (.rvmax0 h vd a) s c) ∧
    (∀ f rest, chip = f :: rest → c.vOk vd.toNat false = true → c.srcOk .f32 a = true → c.srcOk .f32 b = true → resultGate c .none = none →
      headWidth f.head = widthCode c.width →
      ∀ q ∈ [(Instr.unmul h .f32 vd a b, (1, (0x02 : BitVec 8))), (.unmul h .i32 vd a b, (2, 0x0C)), (.unadd h vd a b, (3, 0x02)),
          (.unnar h fmt vd a, (4, fmt)), (.unmax0 h vd a, (5, 0x02))],
        headOp f.head = q.2.1 → headFmt f.head = q.2.2 → GoesOn q.1 s c) ∧
    (chip.length < chipCap c.l.kernel → GoesOn (.slmark h id) s c) ∧
    ((∃ f ∈ chip, headOp f.head = 15 ∧ headMark f.head = id) → GoesOn (.sldrop h id) s c) ∧
    (resultGate c .none = none → GoesOn (.sldepth h d) s c)

/-- The lanes of a set access bytes of the SRAM window that the context may reach, aligned, which no engine's command owns and no
poison marks (R187 to R189, R285, R338). -/
def Claim.onWindow (s : State) (c : Cur) (on : Nat → Prop) (m : MemOp) (n : Nat) (k : AK) : Prop :=
  ∀ i, i < 64 → on i → ∃ loc, check189 s c.who (memAddr c.g m i) n k = (.window loc, s) ∧ engineOwns s (granKey loc) = false ∧
    poisoned s (loc / 16) = false

/-- Loads, stores, atomics, REDs and the tag words of memory complete on a window, with nothing of the group's still on its way and no
order asked for (R188, R198 to R202, R222 to R227, R361 to R363). -/
def Claim.MemoryForms : Prop :=
  ∀ (s : State) (c : Cur) (h : Head) (z : MSize) (o : MOrd) (d : BitVec 8) (e : BitVec 6) (m : MemOp), cur? s = some c →
    o.order = .relaxed → c.g.peerFail = [] → (∀ q ∈ s.redQ, q.g ≠ c.ref) → unbound s c.ref = false → c.g.storeQ = [] →
    unpinned c = false → c.t.committing = false → c.l.kernel.trapstore = false → resultGate c .none = none →
    let on := fun (n : Nat) (k : AK) => c.idxOk m = true ∧ Claim.onWindow s c (fun i => (c.active h).getLsbD i = true) m n k
    let one := fun (n : Nat) (k : AK) => Claim.onWindow s c (fun i => i = 0) m n k
    (c.vOk d.toNat z.wide = true →
      (on (MSize.bytes z) .read → GoesOn (.vld h z o d m) s c) ∧ (on (MSize.bytes z) .write → GoesOn (.vst h z o d m) s c) ∧
      (on (if z.wide then 8 else 4) .rmw → (∀ f, GoesOn (.atom h f z o d m) s c) ∧ ∀ f, GoesOn (.red h f z o d m) s c)) ∧
    (c.vOk (d.toNat + if z.wide then 2 else 1) z.wide = true → on (if z.wide then 8 else 4) .rmw → GoesOn (.acas h z o d m) s c) ∧
    (one (MSize.bytes z) .read → GoesOn (.sld h z o e m) s c) ∧ (one (MSize.bytes z) .write → GoesOn (.sst h z o e m) s c) ∧
    (c.vOk d.toNat false = true → (on 16 .read → GoesOn (.tldg h o d m) s c) ∧ (on 16 .write → GoesOn (.tstg h o d m) s c)) ∧
    (c.idxOk m = true → (∀ x, GoesOn (.pref h x m) s c) ∧ ∀ p, GoesOn (.probe h z p m) s c) ∧
    (∀ sc, GoesOn (.fence h sc .relaxed) s c) ∧ GoesOn (.commit h) s c

/-- Words complete under conditions on the state and the operands alone, those the spec gives for their normal execution (R31, R60, R81, R105,
R188, R189): the claims FloatForms, LaneForms, ReversibleForms and MemoryForms together. -/
def Obligations.FormsComplete : Prop := Claim.FloatForms ∧ Claim.LaneForms ∧ Claim.ReversibleForms ∧ Claim.MemoryForms
end

