-- ==== Sys2Proof/Laws/Map.lean ====
section
/-! SUPPORT. Laws of the sparse maps: reading after writing, and the canonical form. -/

namespace Sys2Proof.Machine

open Sys2Proof

variable {α : Type} (d : α)

theorem mget_minsert (m : SMap α) (k j : Nat) (v : α) :
    mget d (minsert k v m) j = if j = k then v else mget d m j := by
  induction m with
  | nil => simp only [minsert, mget]; split_ifs <;> first | rfl | omega
  | cons p r ih =>
    obtain ⟨a, x⟩ := p
    simp only [minsert]
    split_ifs <;> simp only [mget, ih] <;> split_ifs <;> first | rfl | omega

/-- What is left after the keys up to `k` reads as before above `k`. -/
theorem mget_dropWhile (r : SMap α) (k j : Nat) (h : k < j) :
    mget d (r.dropWhile (fun p => decide (p.1 ≤ k))) j = mget d r j := by
  induction r with
  | nil => rfl
  | cons p r ih =>
    obtain ⟨a, x⟩ := p
    by_cases hk : a ≤ k
    · simp only [List.dropWhile_cons, hk, decide_true, if_true, mget, ih]; split_ifs <;> first | rfl | omega
    · simp only [List.dropWhile_cons, hk, decide_false, Bool.false_eq_true, if_false]

theorem mget_dropWhile_le (r : SMap α) (k j : Nat) (h : j ≤ k) :
    mget d (r.dropWhile (fun p => decide (p.1 ≤ k))) j = d := by
  induction r with
  | nil => rfl
  | cons p r ih =>
    obtain ⟨a, x⟩ := p
    by_cases hk : a ≤ k
    · simp only [List.dropWhile_cons, hk, decide_true, if_true, ih]
    · simp only [List.dropWhile_cons, hk, decide_false, Bool.false_eq_true, if_false, mget]; split_ifs <;> first | rfl | omega

theorem mget_merase (m : SMap α) (k j : Nat) :
    mget d (merase k m) j = if j = k then d else mget d m j := by
  induction m with
  | nil => simp [merase, mget]
  | cons p r ih =>
    obtain ⟨a, x⟩ := p
    simp only [merase]
    by_cases h1 : k < a
    · rw [if_pos h1]; simp only [mget]; split_ifs <;> first | rfl | omega
    · rw [if_neg h1]
      by_cases h2 : k = a
      · rw [if_pos h2]
        by_cases h3 : j ≤ k
        · rw [mget_dropWhile_le d r k j h3]; simp only [mget]; split_ifs <;> first | rfl | omega
        · rw [mget_dropWhile d r k j (by omega)]; simp only [mget]; split_ifs <;> first | rfl | omega
      · rw [if_neg h2]; simp only [mget, ih]; split_ifs <;> first | rfl | omega

/-- Reading after writing, for every list. -/
theorem mget_mput [DecidableEq α] (m : SMap α) (k j : Nat) (v : α) :
    mget d (mput d m k v) j = if j = k then v else mget d m j := by
  unfold mput
  by_cases h : v = d
  · rw [if_pos h, mget_merase, h]
  · rw [if_neg h, mget_minsert]

@[simp] theorem mget_mput_same [DecidableEq α] (m : SMap α) (k : Nat) (v : α) : mget d (mput d m k v) k = v := by
  rw [mget_mput, if_pos rfl]

theorem mget_mput_ne [DecidableEq α] (m : SMap α) {k j : Nat} (v : α) (h : j ≠ k) :
    mget d (mput d m k v) j = mget d m j := by rw [mget_mput, if_neg h]

/-! ### The canonical form -/

theorem mwfFrom_mono [DecidableEq α] {m : SMap α} {lo lo' : Nat} (hl : lo' ≤ lo) (h : mwfFrom d lo m = true) :
    mwfFrom d lo' m = true := by
  cases m with
  | nil => rfl
  | cons p r =>
    obtain ⟨a, x⟩ := p
    simp only [mwfFrom, Bool.and_eq_true, decide_eq_true_eq] at h ⊢
    exact ⟨⟨by omega, h.1.2⟩, h.2⟩

theorem mwfFrom_minsert [DecidableEq α] {m : SMap α} {lo k : Nat} {v : α} (hv : v ≠ d) (hk : lo ≤ k)
    (h : mwfFrom d lo m = true) : mwfFrom d lo (minsert k v m) = true := by
  induction m generalizing lo with
  | nil => simp [minsert, mwfFrom, hv, hk]
  | cons p r ih =>
    obtain ⟨a, x⟩ := p
    simp only [mwfFrom, Bool.and_eq_true, decide_eq_true_eq] at h
    simp only [minsert]
    split_ifs with h1 h2
    · simp only [mwfFrom, Bool.and_eq_true, decide_eq_true_eq, bne_iff_ne, ne_eq]
      exact ⟨⟨hk, hv⟩, ⟨by omega, by simpa using h.1.2⟩, h.2⟩
    · subst h2
      simp only [mwfFrom, Bool.and_eq_true, decide_eq_true_eq, bne_iff_ne, ne_eq]
      exact ⟨⟨hk, hv⟩, h.2⟩
    · simp only [mwfFrom, Bool.and_eq_true, decide_eq_true_eq]
      exact ⟨h.1, ih (by omega) h.2⟩

theorem mwfFrom_dropWhile [DecidableEq α] {m : SMap α} {lo : Nat} (f : Nat × α → Bool) (h : mwfFrom d lo m = true) :
    mwfFrom d lo (m.dropWhile f) = true := by
  induction m generalizing lo with
  | nil => rfl
  | cons p r ih =>
    obtain ⟨a, x⟩ := p
    simp only [List.dropWhile_cons]
    split_ifs
    · simp only [mwfFrom, Bool.and_eq_true, decide_eq_true_eq] at h
      exact mwfFrom_mono d (by omega) (ih h.2)
    · exact h

theorem mwfFrom_filter [DecidableEq α] {m : SMap α} {lo : Nat} (f : Nat × α → Bool) (h : mwfFrom d lo m = true) :
    mwfFrom d lo (m.filter f) = true := by
  induction m generalizing lo with
  | nil => rfl
  | cons p r ih =>
    obtain ⟨a, x⟩ := p
    simp only [mwfFrom, Bool.and_eq_true, decide_eq_true_eq] at h
    simp only [List.filter_cons]
    split_ifs
    · simp only [mwfFrom, Bool.and_eq_true, decide_eq_true_eq]
      exact ⟨h.1, ih h.2⟩
    · exact mwfFrom_mono d (by omega) (ih h.2)

theorem mwfFrom_merase [DecidableEq α] {m : SMap α} {lo k : Nat} (h : mwfFrom d lo m = true) :
    mwfFrom d lo (merase k m) = true := by
  induction m generalizing lo with
  | nil => rfl
  | cons p r ih =>
    obtain ⟨a, x⟩ := p
    have h' := h
    simp only [mwfFrom, Bool.and_eq_true, decide_eq_true_eq] at h
    simp only [merase]
    split_ifs
    · exact h'
    · exact mwfFrom_dropWhile d _ (mwfFrom_mono d (by omega) h.2)
    · simp only [mwfFrom, Bool.and_eq_true, decide_eq_true_eq]
      exact ⟨h.1, ih h.2⟩

theorem mwf_mput [DecidableEq α] {m : SMap α} (k : Nat) (v : α) (h : mwf d m = true) : mwf d (mput d m k v) = true := by
  unfold mput
  split_ifs with hv
  · exact mwfFrom_merase d h
  · exact mwfFrom_minsert d hv (Nat.zero_le k) h

theorem mwf_filter [DecidableEq α] {m : SMap α} (f : Nat × α → Bool) (h : mwf d m = true) : mwf d (m.filter f) = true :=
  mwfFrom_filter d f h

theorem mwf_nil [DecidableEq α] : mwf d ([] : SMap α) = true := rfl

end Sys2Proof.Machine
end

