-- ==== Sys2Proof/Laws/Ops.lean ====
section
/-! SUPPORT. What each shared operation of Machine/Ops can do. -/

namespace Sys2Proof.Machine

open Sys2Proof

/-! ### Lookup after an update -/

theorem find?_map_key {α : Type} (l : List α) (key : α → Nat) (n k : Nat) (f : α → α) (hf : ∀ x, key (f x) = key x) :
    (l.map (fun x => if key x == n then f x else x)).find? (fun x => key x == k) =
      (l.find? (fun x => key x == k)).map (fun x => if key x == n then f x else x) := by
  induction l with
  | nil => rfl
  | cons a r ih =>
    simp only [List.map_cons, List.find?_cons]
    have : key (if key a == n then f a else a) = key a := by split <;> simp [hf]
    rw [this]
    split
    · rfl
    · exact ih

theorem team?_modTeam (s : State) (id : Nat) (f : Team → Team) (hf : ∀ t, (f t).id = t.id) (n : Nat) :
    (s.modTeam id f).team? n = (s.team? n).map (fun t => if t.id == id then f t else t) :=
  find?_map_key s.teams (·.id) id n f hf

theorem group?_modGroup' (t : Team) (n : Nat) (f : Group → Group) (hf : ∀ g, (f g).grp = g.grp) (k : Nat) :
    (t.modGroup n f).group? k = (t.group? k).map (fun g => if g.grp == n then f g else g) :=
  find?_map_key t.groups (·.grp) n k f hf

theorem team?_id {s : State} {n : Nat} {t : Team} (h : s.team? n = some t) : t.id = n := by
  have := List.find?_some h
  simpa using this

theorem group?_grp {t : Team} {n : Nat} {g : Group} (h : t.group? n = some g) : g.grp = n := by
  have := List.find?_some h
  simpa using this

/-- A group's update is seen in that group. -/
theorem group?_modGroup_same {s : State} {r : GRef} {g : Group} (f : Group → Group) (hf : ∀ g, (f g).grp = g.grp)
    (h : s.group? r = some g) : (s.modGroup r f).group? r = some (f g) := by
  unfold State.group? at h ⊢
  rw [State.modGroup, team?_modTeam s r.team (fun t => t.modGroup r.grp f) (fun _ => rfl)]
  cases ht : s.team? r.team with
  | none => rw [ht] at h; cases h
  | some t =>
    rw [ht] at h
    simp only [Option.bind_some] at h
    simp only [Option.map_some, Option.bind_some, team?_id ht, beq_self_eq_true, if_true]
    rw [group?_modGroup' t _ f hf, h]
    simp [group?_grp h]

/-- A group's update is not seen in another group. -/
theorem group?_modGroup_ne {s : State} {r r' : GRef} (f : Group → Group) (hf : ∀ g, (f g).grp = g.grp) (h : r' ≠ r) :
    (s.modGroup r f).group? r' = s.group? r' := by
  unfold State.group?
  rw [State.modGroup, team?_modTeam s r.team (fun t => t.modGroup r.grp f) (fun _ => rfl)]
  cases ht : s.team? r'.team with
  | none => rfl
  | some t =>
    simp only [Option.map_some, Option.bind_some, team?_id ht]
    by_cases hn : r'.team = r.team
    · simp only [hn, beq_self_eq_true, if_true]
      rw [group?_modGroup' t _ f hf]
      cases hg : t.group? r'.grp with
      | none => rfl
      | some g =>
        have : r'.grp ≠ r.grp := fun e => h (by cases r; cases r'; simp_all)
        simp [group?_grp hg, this]
    · simp [hn]

theorem team?_modGroup_ne {s : State} {r : GRef} (f : Group → Group) {n : Nat} (h : n ≠ r.team) :
    (s.modGroup r f).team? n = s.team? n := by
  rw [State.modGroup, team?_modTeam s r.team (fun t => t.modGroup r.grp f) (fun _ => rfl)]
  cases ht : s.team? n with
  | none => rfl
  | some t => simp [team?_id ht, h]

/-! ### What is confined to one group -/

theorem cur?_some {s : State} {c : Cur} (h : cur? s = some c) :
    s.now = some c.n ∧ s.team? c.n.g.team = some c.t ∧ c.t.group? c.n.g.grp = some c.g ∧ s.launch? c.t.launch = some c.l := by
  unfold cur? at h
  cases hn : s.now with
  | none => rw [hn] at h; cases h
  | some n =>
    rw [hn, Option.bind_some] at h
    cases ht : s.team? n.g.team with
    | none => rw [ht] at h; cases h
    | some t =>
      rw [ht, Option.bind_some] at h
      cases hg : t.group? n.g.grp with
      | none => rw [hg] at h; cases h
      | some g =>
        rw [hg, Option.bind_some] at h
        cases hl : s.launch? t.launch with
        | none => rw [hl] at h; cases h
        | some l =>
          rw [hl, Option.map_some, Option.some.injEq] at h
          subst h
          exact ⟨rfl, ht, hg, hl⟩

theorem cur?_group {s : State} {c : Cur} (h : cur? s = some c) : s.group? c.ref = some c.g := by
  obtain ⟨-, ht, hg, -⟩ := cur?_some h
  simp only [State.group?, Cur.ref, ht, Option.bind_some, hg]

theorem onlyGroup_intro {s t : State} {r : GRef} {ts : List Team} {is : List GRef} {q : Nat}
    (h : t = { s with teams := ts, issuing := is, seqN := q })
    (h1 : ∀ n, n ≠ r.team → t.team? n = s.team? n) (h2 : ∀ r', r' ≠ r → t.group? r' = s.group? r')
    (h3 : ∀ a, s.team? r.team = some a → ∃ b, t.team? r.team = some b ∧ b = { a with groups := b.groups, floor := b.floor }) :
    OnlyGroup s t r := ⟨by subst h; rfl, h1, h2, h3⟩

theorem OnlyGroup.refl (s : State) (r : GRef) : OnlyGroup s s r :=
  ⟨rfl, fun _ _ => rfl, fun _ _ => rfl, fun a h => ⟨a, h, rfl⟩⟩

theorem OnlyGroup.trans {s t u : State} {r : GRef} (h : OnlyGroup s t r) (k : OnlyGroup t u r) : OnlyGroup s u r := by
  refine ⟨?_, fun n hn => (k.2.1 n hn).trans (h.2.1 n hn), fun r' hr => (k.2.2.1 r' hr).trans (h.2.2.1 r' hr), ?_⟩
  · have h1 := h.1
    have k1 := k.1
    generalize t.teams = a, t.issuing = b, t.seqN = d at h1
    generalize u.teams = a', u.issuing = b', u.seqN = d' at k1 ⊢
    subst h1
    exact k1
  · intro a ha
    obtain ⟨b, hb, eb⟩ := h.2.2.2 a ha
    obtain ⟨c, hc, ec⟩ := k.2.2.2 b hb
    refine ⟨c, hc, ?_⟩
    generalize b.groups = x, b.floor = y at eb
    generalize c.groups = x', c.floor = y' at ec ⊢
    subst eb
    exact ec

theorem OnlyGroup.mod (s : State) (r : GRef) (f : Group → Group) (hf : ∀ g, (f g).grp = g.grp) :
    OnlyGroup s (s.modGroup r f) r := by
  refine onlyGroup_intro (ts := (s.modGroup r f).teams) (is := s.issuing) (q := s.seqN) rfl
    (fun n hn => team?_modGroup_ne f hn) (fun r' hr => group?_modGroup_ne f hf hr) ?_
  intro a ha
  rw [State.modGroup, team?_modTeam s r.team (fun t => t.modGroup r.grp f) (fun _ => rfl), ha]
  exact ⟨_, rfl, by simp [team?_id ha, Team.modGroup]⟩

theorem OnlyGroup.book (s : State) (r : GRef) (is : List GRef) (q : Nat) : OnlyGroup s { s with issuing := is, seqN := q } r :=
  ⟨rfl, fun _ _ => rfl, fun _ _ => rfl, fun a h => ⟨a, h, rfl⟩⟩

theorem OnlyGroup.standAt (s : State) (r : GRef) : OnlyGroup s (standAt s r) r := by
  unfold Machine.standAt
  refine onlyGroup_intro (is := s.issuing) (q := s.seqN) rfl ?_ ?_ ?_
  · intro n hn
    rw [team?_modTeam s r.team (fun t => { t with floor := t.floor.filter (fun n => n != r.grp) }) (fun _ => rfl)]
    cases ht : s.team? n with
    | none => rfl
    | some t => simp [team?_id ht, hn]
  · intro r' _
    unfold State.group?
    rw [team?_modTeam s r.team (fun t => { t with floor := t.floor.filter (fun n => n != r.grp) }) (fun _ => rfl)]
    cases ht : s.team? r'.team with
    | none => rfl
    | some t => simp only [Option.map_some, Option.bind_some]; split <;> rfl
  · intro a ha
    rw [team?_modTeam s r.team (fun t => { t with floor := t.floor.filter (fun n => n != r.grp) }) (fun _ => rfl), ha]
    exact ⟨_, rfl, by simp [team?_id ha]⟩

theorem group?_standAt (s : State) (r r' : GRef) : (standAt s r).group? r' = s.group? r' := by
  unfold standAt State.group?
  rw [team?_modTeam s r.team (fun t => { t with floor := t.floor.filter (fun n => n != r.grp) }) (fun _ => rfl)]
  cases ht : s.team? r'.team with
  | none => rfl
  | some t => simp only [Option.map_some, Option.bind_some]; split <;> rfl

/-! ### Leaving and ending a clause, ending a word -/

theorem LanesMoved.refl (l : List Lane) : LanesMoved l l := ⟨rfl, fun _ x h => ⟨x, h, rfl⟩⟩

theorem LanesMoved.trans {a b c : List Lane} (h : LanesMoved a b) (k : LanesMoved b c) : LanesMoved a c := by
  refine ⟨k.1.trans h.1, fun i x hx => ?_⟩
  obtain ⟨y, hy, ey⟩ := k.2 i x hx
  obtain ⟨z, hz, ez⟩ := h.2 i y hy
  refine ⟨z, hz, ?_⟩
  rw [ey, ez]

theorem Moved.refl (g : Group) : Moved g g := ⟨rfl, LanesMoved.refl _⟩

theorem Moved.trans {a b c : Group} (h : Moved a b) (k : Moved b c) : Moved a c := by
  refine ⟨?_, h.2.trans k.2⟩
  have h1 := h.1
  have k1 := k.1
  generalize b.lanes = x1, b.clause = x2, b.wait = x3, b.readyAt = x4 at h1
  generalize c.lanes = y1, c.clause = y2, c.wait = y3, c.readyAt = y4 at k1 ⊢
  subst h1
  exact k1

/-- A function that moves a lane. -/
def MovesLane (f : Nat → Lane → Lane) : Prop := ∀ i x, f i x = { x with pc := (f i x).pc, ins := (f i x).ins, st := (f i x).st }

theorem mapLanes_length (m : Mask) (f : Nat → Lane → Lane) (k : Nat) (l : List Lane) :
    (mapLanes m f k l).length = l.length := by
  induction l generalizing k with
  | nil => rfl
  | cons a r ih => simp [mapLanes, ih]

theorem mapLanes_getElem? (m : Mask) (f : Nat → Lane → Lane) (k i : Nat) (l : List Lane) :
    (mapLanes m f k l)[i]? = (l[i]?).map (fun x => if m.getLsbD (k + i) then f (k + i) x else x) := by
  induction l generalizing k i with
  | nil => simp [mapLanes]
  | cons a r ih =>
    cases i with
    | zero => simp [mapLanes]
    | succ i => simp [mapLanes, ih, Nat.add_assoc, Nat.add_comm 1 i]

theorem LanesMoved.mapLanes (m : Mask) (f : Nat → Lane → Lane) (hf : MovesLane f) (l : List Lane) :
    LanesMoved l (mapLanes m f 0 l) := by
  refine ⟨mapLanes_length m f 0 l, fun i x hx => ?_⟩
  rw [mapLanes_getElem?] at hx
  cases hl : l[i]? with
  | none => rw [hl] at hx; cases hx
  | some y =>
    rw [hl, Option.map_some, Option.some.injEq] at hx
    refine ⟨y, rfl, ?_⟩
    subst hx
    split
    · exact hf _ y
    · rfl

theorem LanesMoved.noteIssue (hdr : Word) (x : Mask) (l : List Lane) : LanesMoved l (l.map (noteIssue hdr x)) := by
  refine ⟨by simp, fun i y hy => ?_⟩
  rw [List.getElem?_map] at hy
  cases hl : l[i]? with
  | none => rw [hl] at hy; cases hy
  | some z =>
    rw [hl, Option.map_some, Option.some.injEq] at hy
    refine ⟨z, rfl, ?_⟩
    subst hy
    unfold Machine.noteIssue
    split
    · split <;> rfl
    · rfl

theorem goTo_moves (loops : List LoopEntry) (k : Kernel) (pc : Nat → Lane → Word) (ins : Nat → Lane → Option Inside) :
    MovesLane (fun i l => l.goTo loops k (pc i l) (ins i l)) := by
  intro i x
  simp only [Lane.goTo]
  split
  · split <;> rfl
  · rfl

theorem leaveClause_spec (s : State) (r : GRef) {g : Group} (h : s.group? r = some g) :
    OnlyGroup s (leaveClause s r) r ∧
    (leaveClause s r).group? r = some { g with clause := none, readyAt := s.seqN } := by
  have o1 : OnlyGroup s { s.modGroup r (fun g => { g with clause := none, readyAt := s.seqN }) with
      issuing := s.issuing.filter (fun x => x != r), seqN := s.seqN + 1 } r :=
    (OnlyGroup.mod s r (fun g => { g with clause := none, readyAt := s.seqN }) (fun _ => rfl)).trans
      (OnlyGroup.book (s.modGroup r (fun g => { g with clause := none, readyAt := s.seqN })) r
        (s.issuing.filter (fun x => x != r)) (s.seqN + 1))
  have g1 : ({ s.modGroup r (fun g => { g with clause := none, readyAt := s.seqN }) with
      issuing := s.issuing.filter (fun x => x != r), seqN := s.seqN + 1 } : State).group? r =
      some { g with clause := none, readyAt := s.seqN } :=
    group?_modGroup_same (fun g => { g with clause := none, readyAt := s.seqN }) (fun _ => rfl) h
  unfold leaveClause
  simp only [g1]
  split
  · exact ⟨o1.trans (OnlyGroup.standAt _ r), by rw [group?_standAt, g1]⟩
  · exact ⟨o1, g1⟩

/-- What the end of a clause does: the lanes of its X go where `dest` takes them. -/
theorem endClause_spec (s : State) (c : Cur) (dest : Nat → Lane → Lane) (hd : MovesLane dest) {g : Group}
    (h : s.group? c.ref = some g) :
    OnlyGroup s (endClause s c dest) c.ref ∧ ∃ g', (endClause s c dest).group? c.ref = some g' ∧ Moved g g' ∧
      g'.clause = none ∧ (∀ cl, g.clause = some cl → g'.lanes = (mapLanes cl.x dest 0 g.lanes).map (noteIssue c.n.hdr cl.x)) ∧
      g'.wait = g.wait := by
  unfold endClause
  have hm := group?_modGroup_same (s := s) (r := c.ref) (fun g => match g.clause with
    | some cl => { (g.modLanes cl.x dest) with
        lanes := (mapLanes cl.x dest 0 g.lanes).map (noteIssue c.n.hdr cl.x) }
    | none => g) (by intro g; dsimp only; split <;> rfl) h
  have om := OnlyGroup.mod s c.ref (fun g => match g.clause with
    | some cl => { (g.modLanes cl.x dest) with
        lanes := (mapLanes cl.x dest 0 g.lanes).map (noteIssue c.n.hdr cl.x) }
    | none => g) (by intro g; dsimp only; split <;> rfl)
  obtain ⟨o, e⟩ := leaveClause_spec _ c.ref hm
  refine ⟨om.trans o, _, e, ?_, rfl, ?_, ?_⟩
  · cases hc : g.clause with
    | none => exact ⟨rfl, by simpa [hc] using LanesMoved.refl _⟩
    | some cl =>
      refine ⟨rfl, ?_⟩
      simp only
      exact (LanesMoved.mapLanes cl.x dest hd g.lanes).trans (LanesMoved.noteIssue _ _ _)
  · intro cl hc
    simp only [hc]
  · cases hc : g.clause <;> rfl

theorem switchMark_moved (h : Head) (n : Now) (g : Group) : Moved g (switchMark h n g) := by
  unfold switchMark
  split
  · exact ⟨rfl, LanesMoved.refl _⟩
  · exact Moved.refl g

/-- What the end of a word does. -/
theorem finish_spec (s : State) (c : Cur) (h : Head) {g : Group} (hg : s.group? c.ref = some g) :
    OnlyGroup s (finish s c h) c.ref ∧ ∃ g', (finish s c h).group? c.ref = some g' ∧ Moved g g' := by
  have hs : (c.mod s (switchMark h c.n)).group? c.ref = some (switchMark h c.n g) :=
    group?_modGroup_same _ (fun g => by unfold switchMark; split <;> rfl) hg
  have os : OnlyGroup s (c.mod s (switchMark h c.n)) c.ref :=
    OnlyGroup.mod s c.ref _ (fun g => by unfold switchMark; split <;> rfl)
  unfold finish
  split
  · obtain ⟨o, g', e, m, -⟩ := endClause_spec _ c (fun _ l => l.goTo c.g.loops c.l.kernel (nextHeader c.n) none)
      (goTo_moves c.g.loops c.l.kernel (fun _ _ => nextHeader c.n) (fun _ _ => none)) hs
    exact ⟨os.trans o, g', e, (switchMark_moved h c.n g).trans m⟩
  · refine ⟨os.trans (OnlyGroup.mod _ c.ref _ (fun _ => rfl)), _,
      group?_modGroup_same (fun g => { g with clause := g.clause.map (fun cl =>
        { cl with next := (c.n.pc - c.n.hdr).toNat / 8, redo := false }) }) (fun _ => rfl) hs,
      (switchMark_moved h c.n g).trans ⟨rfl, LanesMoved.refl _⟩⟩

/-- A word that changes registers of its group: it completes, and changes nothing but what `f` does. -/
theorem regWord_spec {s : State} {c : Cur} (h : Head) (f : Cur → Group → Group) (hf : ∀ g, (f c g).grp = g.grp)
    (hc : cur? s = some c) :
    ∃ t g', regWord s h f = .next t ∧ OnlyGroup s t c.ref ∧ t.group? c.ref = some g' ∧ Moved (f c c.g) g' := by
  obtain ⟨o, g', e, m⟩ := finish_spec (c.mod s (f c)) c h (group?_modGroup_same (f c) hf (cur?_group hc))
  exact ⟨_, g', by simp only [regWord, onCur, hc], (OnlyGroup.mod s c.ref (f c) hf).trans o, e, m⟩

/-! ### Registers -/

@[simp] theorem sreg_setS (g : Group) (d r : Nat) (x : Word) : (g.setS d x).sreg r = if r = d then x else g.sreg r :=
  mget_mput 0 g.s d r x

theorem bool_setQ (g : Group) (d r : Nat) (x : Bool) :
    (g.setQ d x).bool r = (decide (r = 0) || if r = d then x else g.bool r) := by
  unfold Group.setQ Group.bool
  by_cases hd : d = 0
  · have hb : (d == 0) = true := by simp [hd]
    rw [if_pos hb]
    by_cases hr : r = 0
    · simp [hr]
    · have hrd : r ≠ d := by omega
      rw [if_neg hrd]
      simp [hr]
  · have hb : ¬((d == 0) = true) := by simp [hd]
    rw [if_neg hb]
    simp only [mget_mput]
    by_cases hr : r = 0
    · simp [hr]
    · by_cases hrd : r = d <;> simp [hr, hrd]
      simp [hd]

theorem moved_lane {g g' : Group} (h : Moved g g') : g' = { g with lanes := g'.lanes, clause := g'.clause, wait := g'.wait, readyAt := g'.readyAt } := h.1

theorem writesS_of_moved {g g' : Group} {d : Nat} {x : Word} (h : Moved (g.setS d x) g') : WritesS g g' d x := by
  have e := h.1
  have es : g'.s = mput 0 g.s d x := by rw [e]; rfl
  refine ⟨⟨?_, h.2⟩, ?_, fun r hr => ?_⟩
  · rw [es]; exact e
  · show mget 0 g'.s d = x
    rw [es, mget_mput, if_pos rfl]
  · show mget 0 g'.s r = mget 0 g.s r
    rw [es, mget_mput, if_neg hr]

theorem writesQ_of_moved {g g' : Group} {d : Nat} {x : Bool} (h : Moved (g.setQ d x) g') : WritesQ g g' d x := by
  have e := h.1
  have es : g'.q = (g.setQ d x).q := by rw [e]
  have eb : ∀ r, g'.bool r = (g.setQ d x).bool r := fun r => by unfold Group.bool; rw [es]
  refine ⟨⟨?_, ?_⟩, ?_, ?_, ?_⟩
  · rw [es, e]; unfold Group.setQ; split <;> rfl
  · have := h.2
    have el : (g.setQ d x).lanes = g.lanes := by unfold Group.setQ; split <;> rfl
    rw [el] at this
    exact this
  · intro hd; rw [eb, bool_setQ]; simp [hd]
  · rw [eb, bool_setQ]; simp
  · intro r hr
    rw [eb, bool_setQ, if_neg hr]
    cases r with
    | zero => simp [Group.bool]
    | succ n => simp

/-- A word that writes one scalar register. -/
theorem completes_sWord {i : Instr} {s : State} {c : Cur} {h : Head} {d : BitVec 6} {f : Group → Word}
    (hi : exec i s = sWord s h d f) (hc : cur? s = some c) :
    Completes i s c fun g' => WritesS c.g g' d.toNat (f c.g) := by
  obtain ⟨t, g', e, o, eg, m⟩ := regWord_spec h (fun _ g => g.setS d.toNat (f g)) (fun _ => rfl) hc
  exact ⟨t, g', hi.trans e, o, eg, writesS_of_moved m⟩

/-- A word that writes one boolean register. -/
theorem completes_qWord {i : Instr} {s : State} {c : Cur} {h : Head} {q : Nat} {f : Group → Bool}
    (hi : exec i s = regWord s h fun _ g => g.setQ q (f g)) (hc : cur? s = some c) :
    Completes i s c fun g' => WritesQ c.g g' q (f c.g) := by
  obtain ⟨t, g', e, o, eg, m⟩ := regWord_spec h (fun _ g => g.setQ q (f g))
    (fun g => by unfold Group.setQ; split <;> rfl) hc
  exact ⟨t, g', hi.trans e, o, eg, writesQ_of_moved m⟩

end Sys2Proof.Machine
end

