-- ==== Sys2Proof/Laws/Words.lean ====
section
/-! SUPPORT. What the operations of Machine/Words can do. -/

namespace Sys2Proof.Machine

open Sys2Proof

theorem mfind_minsert {α : Type} (m : SMap α) (k j : Nat) (v : α) :
    mfind (minsert k v m) j = if j = k then some v else mfind m j := by
  induction m with
  | nil => simp only [minsert, mfind]; split_ifs <;> first | rfl | omega
  | cons p r ih =>
    obtain ⟨a, x⟩ := p
    simp only [minsert]
    split_ifs <;> simp only [mfind, ih] <;> split_ifs <;> first | rfl | omega

/-- A birth changes one roll's entry in the roster. -/
theorem intern_spec (s : State) (b : Birth) (site : Word) (first : Bool) :
    ∃ ro, (intern s b site first).2 = { s with roster := ro } ∧
      ∀ n, n ≠ b.roll.toNat → mfind ro n = mfind s.roster n := by
  unfold intern
  split
  · split
    · exact ⟨_, rfl, fun n hn => by rw [mfind_minsert, if_neg hn]⟩
    · exact ⟨s.roster, rfl, fun _ _ => rfl⟩
  · exact ⟨s.roster, rfl, fun _ _ => rfl⟩

theorem bornHandle_spec (s : State) (r : GRef) (site : Word) (ws : List RegW) :
    ∃ ro, (bornHandle s r site ws).2 = { s with roster := ro } ∧
      ∀ n, n ≠ (birthOf s r).roll.toNat → mfind ro n = mfind s.roster n := by
  unfold bornHandle bornHandleOf
  split
  · exact intern_spec s _ site _
  · exact ⟨s.roster, rfl, fun _ _ => rfl⟩

theorem write_grp (h : Nat) (g : Group) (w : RegW) : (Group.write h g w).grp = g.grp := by
  cases w <;> simp only [Group.write, Group.setV, Group.setS, Group.setQ, Group.setP, Group.setK, Group.setN] <;>
    first | rfl | (split <;> rfl)

theorem writes_grp (h : Nat) (ws : List RegW) (g : Group) : (Group.writes h g ws).grp = g.grp := by
  unfold Group.writes
  induction ws generalizing g with
  | nil => rfl
  | cons w r ih => rw [List.foldl_cons, ih, write_grp]

theorem onlyGroup_congr {s s' t : State} {r : GRef} (h : OnlyGroup s t r) (e : s' = s) : OnlyGroup s' t r := e ▸ h

/-- A fixed-latency word: its registers are written, a birth may be counted, and the word is done. -/
theorem fixedDone_spec {s : State} {c : Cur} (h : Head) (ws : List RegW) (hc : cur? s = some c) :
    ∃ n g', OnlyGroupBirth s (fixedDone s c h ws) c.ref ∧ (fixedDone s c h ws).group? c.ref = some g' ∧
      Moved (Group.writes n c.g ws) g' ∧ n = (bornHandle s c.ref c.n.pc ws).1 := by
  obtain ⟨ro, e, hro⟩ := bornHandle_spec s c.ref c.n.pc ws
  have hg : ({ s with roster := ro } : State).group? c.ref = some c.g := cur?_group hc
  obtain ⟨o, g', eg, m⟩ := finish_spec (c.mod { s with roster := ro } (fun g => Group.writes (bornHandle s c.ref c.n.pc ws).1 g ws)) c h
    (group?_modGroup_same (fun g => Group.writes (bornHandle s c.ref c.n.pc ws).1 g ws) (writes_grp _ ws) hg)
  have om := (OnlyGroup.mod { s with roster := ro } c.ref
    (fun g => Group.writes (bornHandle s c.ref c.n.pc ws).1 g ws) (writes_grp _ ws)).trans o
  have ef : fixedDone s c h ws =
      finish (c.mod { s with roster := ro } (fun g => Group.writes (bornHandle s c.ref c.n.pc ws).1 g ws)) c h := by
    unfold fixedDone
    rw [← e]
  rw [ef]
  have er : (finish (c.mod { s with roster := ro } (fun g => Group.writes (bornHandle s c.ref c.n.pc ws).1 g ws)) c h).roster = ro := by
    have := om.1
    rw [this]
  refine ⟨_, g', ⟨?_, ?_⟩, eg, m, rfl⟩
  · rw [er]; exact om
  · rw [er]; exact hro

/-! ### Reading after the writes of a word -/

theorem vreg_setV (g : Group) (r lane r' lane' : Nat) (x : Lane32) (t : Tag) (hl : lane < 64) (hl' : lane' < 64) :
    (g.setV r lane x t).vreg r' lane' = (if r' = r ∧ lane' = lane then x else g.vreg r' lane') ∧
    (g.setV r lane x t).vtag r' lane' = (if r' = r ∧ lane' = lane then t else g.vtag r' lane') := by
  have hk : (64 * r' + lane' = 64 * r + lane) ↔ (r' = r ∧ lane' = lane) := by omega
  constructor
  · show mget 0 (mput 0 g.v (64 * r + lane) x) (64 * r' + lane') = _
    rw [mget_mput]; simp only [hk]; rfl
  · show mget 0 (mput 0 g.vt (64 * r + lane) t) (64 * r' + lane') = _
    rw [mget_mput]; simp only [hk]; rfl

/-- The writes of one lane to v `d`, or to its pair. -/
theorem writes_putV (n : Nat) (g : Group) (pair : Bool) (d lane x : Nat) (t : TagSrc) (hl : lane < 64) :
    let g' := Group.writes n g (putV pair d lane x t)
    g' = { g with v := g'.v, vt := g'.vt } ∧
    (∀ r i, i < 64 → g'.vreg r i = (if r = d ∧ i = lane then BitVec.ofNat 32 x
      else if pair = true ∧ r = d + 1 ∧ i = lane then BitVec.ofNat 32 (x / 2 ^ 32) else g.vreg r i) ∧
      g'.vtag r i = (if (r = d ∨ (pair = true ∧ r = d + 1)) ∧ i = lane then TagSrc.tag n t else g.vtag r i)) := by
  cases pair with
  | false =>
    refine ⟨rfl, fun r i hi => ?_⟩
    have := vreg_setV g d lane r i (BitVec.ofNat 32 x) (TagSrc.tag n t) hl hi
    simpa [putV, Group.writes, Group.write] using this
  | true =>
    refine ⟨rfl, fun r i hi => ?_⟩
    have h1 := vreg_setV (g.setV d lane (BitVec.ofNat 32 x) (TagSrc.tag n t)) (d + 1) lane r i
      (BitVec.ofNat 32 (x / 2 ^ 32)) (TagSrc.tag n t) hl hi
    have h2 := vreg_setV g d lane r i (BitVec.ofNat 32 x) (TagSrc.tag n t) hl hi
    simp only [putV, Group.writes, Group.write, if_true, List.foldl_cons, List.foldl_nil]
    rw [h1.1, h1.2, h2.1, h2.2]
    constructor
    · by_cases hr : r = d + 1 <;> by_cases hi : i = lane <;> simp [hr, hi]
    · by_cases hr : r = d + 1 <;> by_cases hr' : r = d <;> by_cases hi : i = lane <;> simp [hr, hr', hi]

theorem lanesOf_mem {m : Mask} {i : Nat} : i ∈ lanesOf m ↔ i < 64 ∧ m.getLsbD i = true := by
  simp [lanesOf]

theorem lanesOf_nodup (m : Mask) : (lanesOf m).Nodup := List.Nodup.filter _ List.nodup_range

/-- The writes of a list of distinct lanes to one vector destination. -/
theorem writes_lanes (n : Nat) (pair : Bool) (d : Nat) (x : Nat → Nat) (t : Nat → TagSrc) (l : List Nat)
    (hn : l.Nodup) (hl : ∀ i ∈ l, i < 64) (g : Group) :
    let g' := Group.writes n g (l.flatMap (fun i => putV pair d i (x i) (t i)))
    g' = { g with v := g'.v, vt := g'.vt } ∧
    (∀ r i, i < 64 → g'.vreg r i = (if i ∈ l then (if r = d then BitVec.ofNat 32 (x i)
      else if pair = true ∧ r = d + 1 then BitVec.ofNat 32 (x i / 2 ^ 32) else g.vreg r i) else g.vreg r i) ∧
      g'.vtag r i = (if i ∈ l ∧ (r = d ∨ (pair = true ∧ r = d + 1)) then TagSrc.tag n (t i) else g.vtag r i)) := by
  induction l generalizing g with
  | nil => exact ⟨rfl, fun r i _ => by simp [Group.writes]⟩
  | cons a l ih =>
    have hw : Group.writes n g ((a :: l).flatMap (fun i => putV pair d i (x i) (t i))) =
        Group.writes n (Group.writes n g (putV pair d a (x a) (t a))) (l.flatMap (fun i => putV pair d i (x i) (t i))) := by
      simp [Group.writes, List.flatMap_cons, List.foldl_append]
    obtain ⟨e1, r1⟩ := writes_putV n g pair d a (x a) (t a) (hl a (by simp))
    obtain ⟨e2, r2⟩ := ih (List.nodup_cons.mp hn).2 (fun i hi => hl i (by simp [hi])) (Group.writes n g (putV pair d a (x a) (t a)))
    rw [hw]
    refine ⟨?_, fun r i hi => ?_⟩
    · rw [e1] at e2 ⊢
      exact e2
    · have ha : a ∉ l := (List.nodup_cons.mp hn).1
      rw [(r2 r i hi).1, (r2 r i hi).2, (r1 r i hi).1, (r1 r i hi).2]
      by_cases h1 : i = a
      · subst h1
        simp [ha]
      · simp [h1]

/-- A vector destination after the writes of a word's lanes. -/
theorem writesV_of_moved {g g' : Group} {n : Nat} {pair : Bool} {d : Nat} {m : Mask} {x : Nat → Nat} {t : Nat → TagSrc}
    {tg : Nat → Tag → Prop}
    (h : Moved (Group.writes n g ((lanesOf m).flatMap (fun i => putV pair d i (x i) (t i)))) g')
    (ht : ∀ i, i < 64 → m.getLsbD i = true → tg i (TagSrc.tag n (t i))) : WritesV g g' pair d m x tg := by
  obtain ⟨e, r⟩ := writes_lanes n pair d x t (lanesOf m) (lanesOf_nodup m) (fun i hi => (lanesOf_mem.mp hi).1) g
  obtain ⟨e', hl⟩ := h
  have ev : g'.v = (Group.writes n g ((lanesOf m).flatMap (fun i => putV pair d i (x i) (t i)))).v := by rw [e']
  have et : g'.vt = (Group.writes n g ((lanesOf m).flatMap (fun i => putV pair d i (x i) (t i)))).vt := by rw [e']
  have rv : ∀ r i, g'.vreg r i = (Group.writes n g ((lanesOf m).flatMap (fun i => putV pair d i (x i) (t i)))).vreg r i :=
    fun r i => by unfold Group.vreg; rw [ev]
  have rt : ∀ r i, g'.vtag r i = (Group.writes n g ((lanesOf m).flatMap (fun i => putV pair d i (x i) (t i)))).vtag r i :=
    fun r i => by unfold Group.vtag; rw [et]
  refine ⟨⟨?_, ?_⟩, fun i hi hm => ?_, fun k i hi hk => ?_⟩
  · rw [ev, et]
    have := e'
    rw [e] at this
    exact this
  · have := hl
    rw [e] at this
    exact this
  · have hmem : i ∈ lanesOf m := lanesOf_mem.mpr ⟨hi, hm⟩
    refine ⟨?_, ?_, fun hp => ⟨?_, ?_⟩⟩
    · rw [rv, (r d i hi).1, if_pos hmem, if_pos rfl]
    · rw [rt, (r d i hi).2, if_pos ⟨hmem, Or.inl rfl⟩]; exact ht i hi hm
    · rw [rv, (r (d + 1) i hi).1, if_pos hmem, if_neg (by omega), if_pos ⟨hp, rfl⟩]
    · rw [rt, (r (d + 1) i hi).2, if_pos ⟨hmem, Or.inr ⟨hp, rfl⟩⟩, rt, (r d i hi).2, if_pos ⟨hmem, Or.inl rfl⟩]
  · rw [rv, rt, (r k i hi).1, (r k i hi).2]
    rcases hk with hm | ⟨h1, h2⟩
    · have : i ∉ lanesOf m := fun hi' => by rw [(lanesOf_mem.mp hi').2] at hm; cases hm
      simp [this]
    · simp only [h1, if_false, false_or]
      have : ¬(pair = true ∧ k = d + 1) := fun hh => h2 hh.1 hh.2
      simp [this]

/-- A fixed-latency word that writes a vector destination in its active lanes. -/
theorem completes_vec {i : Instr} {s : State} {c : Cur} {h : Head} {ok : Cur → Bool} {pair : Bool} {d : Nat}
    {x : Cur → Nat → Nat} {t : Cur → Nat → TagSrc}
    (hi : exec i s = fixedWord s h ok fun c => (lanesOf (c.active h)).flatMap fun k => putV pair d k (x c k) (t c k))
    (hc : cur? s = some c) (hok : ok c = true) :
    CompletesBirth i s c fun g' => WritesV c.g g' pair d (c.active h) (x c) fun k tag => ∃ n, tag = TagSrc.tag n (t c k) := by
  obtain ⟨n, g', o, eg, m, -⟩ := fixedDone_spec h ((lanesOf (c.active h)).flatMap fun k => putV pair d k (x c k) (t c k)) hc
  refine ⟨_, g', hi.trans ?_, o, eg, writesV_of_moved m fun k _ _ => ⟨n, rfl⟩⟩
  simp only [fixedWord, onCur, hc, hok, if_true]

/-- A variable-latency word that its queue and its slot have room for. -/
theorem completes_pend {i : Instr} {s : State} {c : Cur} {h : Head} {q : ResQ} {ws : List RegW}
    (hi : exec i s = .next (resultDone s c h q ws)) (hc : cur? s = some c) (hq : resultGate c q = none) :
    Completes i s c fun g' => Pends s c c.g g' q ws := by
  have hg : ({ s with seqN := s.seqN + 1 } : State).group? c.ref = some c.g := cur?_group hc
  let f : Group → Group := fun g => { g with
    pend := g.pend ++ [⟨s.seqN, slotOf c, q, c.n.pc, ws, true, false⟩]
    sb := match slotOf c with
      | some n => mput 0 g.sb n (mget 0 g.sb n + 1)
      | none => g.sb }
  have ha : addPend s c q true ws = c.mod { s with seqN := s.seqN + 1 } f := rfl
  have ho : OnlyGroup s { s with seqN := s.seqN + 1 } c.ref := OnlyGroup.book s c.ref s.issuing (s.seqN + 1)
  obtain ⟨o, g', eg, m⟩ := finish_spec (c.mod { s with seqN := s.seqN + 1 } f) c h (group?_modGroup_same f (fun _ => rfl) hg)
  refine ⟨_, g', hi, ?_, ?_, ?_⟩
  · simp only [resultDone, hq]
    rw [ha]
    exact ho.trans ((OnlyGroup.mod { s with seqN := s.seqN + 1 } c.ref f (fun _ => rfl)).trans o)
  · simp only [resultDone, hq]
    rw [ha]
    exact eg
  · have es : g'.sb = (f c.g).sb := by rw [m.1]
    refine ⟨⟨?_, m.2⟩, fun n => ?_⟩
    · rw [es]; exact m.1
    · rw [es]
      show mget 0 (match slotOf c with
        | some n => mput 0 c.g.sb n (mget 0 c.g.sb n + 1)
        | none => c.g.sb) n = _
      cases hs : slotOf c with
      | none => simp
      | some k =>
        simp only [mget_mput]
        by_cases hk : n = k
        · simp [hk]
        · have : ¬(some k = some n) := fun e => hk (Option.some.inj e).symm
          simp [hk, this]

end Sys2Proof.Machine
end

