-- ==== Sys2Proof/Laws/Completion.lean ====
section
/-! SUPPORT. Words that go on: what `finish`, a fixed-latency word and an outstanding result leave of the clause. -/

namespace Sys2Proof.Machine

open Sys2Proof

/-- Where a word that is done leaves its clause. -/
theorem finish_clause (s : State) (c : Cur) (h : Head) {g : Group} (hg : s.group? c.ref = some g) :
    ∃ g', (finish s c h).group? c.ref = some g' ∧ g'.trapReq = g.trapReq ∧
      g'.clause = (if c.n.last then none
        else g.clause.map fun cl => { cl with next := (c.n.pc - c.n.hdr).toNat / 8, redo := false }) := by
  have hs : (c.mod s (switchMark h c.n)).group? c.ref = some (switchMark h c.n g) :=
    group?_modGroup_same _ (fun g => by unfold switchMark; split <;> rfl) hg
  have hc : (switchMark h c.n g).clause = g.clause := by unfold switchMark; split <;> rfl
  have ht : (switchMark h c.n g).trapReq = g.trapReq := by unfold switchMark; split <;> rfl
  unfold finish
  split
  · obtain ⟨o, g', e, m, h1, h2, h3⟩ := endClause_spec _ c (fun _ l => l.goTo c.g.loops c.l.kernel (nextHeader c.n) none)
      (goTo_moves c.g.loops c.l.kernel (fun _ _ => nextHeader c.n) (fun _ _ => none)) hs
    exact ⟨g', e, by rw [m.1, ht], h1⟩
  · exact ⟨_, group?_modGroup_same (fun g => { g with clause := g.clause.map (fun cl =>
        { cl with next := (c.n.pc - c.n.hdr).toNat / 8, redo := false }) }) (fun _ => rfl) hs, ht, by simp [hc]⟩

/-- The group's team ends neither more nor less. -/
theorem OnlyGroup.ending {s t : State} {r : GRef} (h : OnlyGroup s t r) :
    (t.team? r.team).map (·.ending) = (s.team? r.team).map (·.ending) ∨ s.team? r.team = none := by
  cases e : s.team? r.team with
  | none => right; rfl
  | some a =>
    left
    obtain ⟨b, hb, eb⟩ := h.2.2.2 a e
    rw [hb]; rw [eb]; rfl

theorem cur?_team {s : State} {c : Cur} (h : cur? s = some c) : s.team? c.ref.team = some c.t := (cur?_some h).2.1

theorem goesOn_finish {i : Instr} {s s1 : State} {c : Cur} {h : Head} {g : Group} (hi : exec i s = .next (finish s1 c h))
    (hg : s1.group? c.ref = some g) (h1 : g.trapReq = c.g.trapReq) (h2 : g.clause = c.g.clause)
    (h3 : (s1.team? c.ref.team).map (·.ending) = some c.t.ending) : GoesOn i s c := by
  obtain ⟨g', e, a, b⟩ := finish_clause s1 c h hg
  obtain ⟨o, -⟩ := finish_spec s1 c h hg
  refine ⟨_, g', hi, e, a.trans h1, ?_, by rw [b, h2]⟩
  rcases OnlyGroup.ending o with hh | hh
  · rw [hh, h3]
  · rw [hh] at h3; simp at h3

theorem writes_keep (n : Nat) (ws : List RegW) (g : Group) :
    (Group.writes n g ws).trapReq = g.trapReq ∧ (Group.writes n g ws).clause = g.clause := by
  unfold Group.writes
  induction ws generalizing g with
  | nil => exact ⟨rfl, rfl⟩
  | cons w r ih =>
    rw [List.foldl_cons, (ih _).1, (ih _).2]
    cases w <;> simp only [Group.write, Group.setV, Group.setS, Group.setQ, Group.setP, Group.setK, Group.setN] <;>
      first | exact ⟨trivial, trivial⟩ | exact ⟨rfl, rfl⟩ | (split <;> exact ⟨rfl, rfl⟩)

theorem goesOn_fixedDone {i : Instr} {s s1 : State} {c : Cur} {h : Head} {g : Group} {ws : List RegW}
    (hs : s1.group? c.ref = some g) (ht : (s1.team? c.ref.team).map (·.ending) = some c.t.ending)
    (h1 : g.trapReq = c.g.trapReq) (h2 : g.clause = c.g.clause)
    (hi : exec i s = .next (fixedDone s1 c h ws)) : GoesOn i s c := by
  obtain ⟨ro, e, -⟩ := bornHandle_spec s1 c.ref c.n.pc ws
  have ef : fixedDone s1 c h ws =
      finish (c.mod { s1 with roster := ro } (fun g => Group.writes (bornHandle s1 c.ref c.n.pc ws).1 g ws)) c h := by
    unfold fixedDone; rw [← e]
  rw [ef] at hi
  refine goesOn_finish hi (group?_modGroup_same _ (writes_grp _ ws) (s := { s1 with roster := ro }) hs)
    ((writes_keep _ ws g).1.trans h1) ((writes_keep _ ws g).2.trans h2) ?_
  rcases OnlyGroup.ending (OnlyGroup.mod { s1 with roster := ro } c.ref (fun g => Group.writes (bornHandle s1 c.ref c.n.pc ws).1 g ws) (writes_grp _ ws)) with hh | hh
  · exact hh.trans ht
  · rw [show ({ s1 with roster := ro } : State).team? c.ref.team = s1.team? c.ref.team from rfl] at hh
    rw [hh] at ht; simp at ht

/-- A state reached within a word, in which its group and its team are as they were for what `GoesOn` says. -/
structure OnCourse (s1 : State) (c : Cur) : Prop where
  ex : ∃ g, s1.group? c.ref = some g ∧ g.trapReq = c.g.trapReq ∧ g.clause = c.g.clause
  en : (s1.team? c.ref.team).map (·.ending) = some c.t.ending

theorem OnCourse.base {s : State} {c : Cur} (hc : cur? s = some c) : OnCourse s c :=
  ⟨⟨_, cur?_group hc, rfl, rfl⟩, by rw [cur?_team hc]; rfl⟩

theorem OnCourse.mod {s : State} {c : Cur} (f : Group → Group) (hr : OnCourse s c) (hf : ∀ g, (f g).grp = g.grp)
    (h1 : ∀ g, (f g).trapReq = g.trapReq ∧ (f g).clause = g.clause) : OnCourse (c.mod s f) c := by
  obtain ⟨⟨g, a, b, d⟩, e⟩ := hr
  refine ⟨⟨_, group?_modGroup_same f hf a, (h1 g).1.trans b, (h1 g).2.trans d⟩, ?_⟩
  rcases OnlyGroup.ending (OnlyGroup.mod s c.ref f hf) with hh | hh
  · exact hh.trans e
  · rw [hh] at e; simp at e

theorem OnCourse.done {i : Instr} {s s1 : State} {c : Cur} {h : Head} (hr : OnCourse s1 c)
    (hi : exec i s = .next (finish s1 c h)) : GoesOn i s c := by
  obtain ⟨⟨g, a, b, d⟩, e⟩ := hr
  exact goesOn_finish hi a b d e

/-- Only teams matter. -/
theorem OnCourse.congr {s t : State} {c : Cur} (hr : OnCourse s c) (h : t.teams = s.teams) : OnCourse t c := by
  have e1 : ∀ n, t.team? n = s.team? n := fun n => by unfold State.team?; rw [h]
  have e2 : t.group? c.ref = s.group? c.ref := by unfold State.group?; rw [e1]
  exact ⟨by rw [e2]; exact hr.ex, by rw [e1]; exact hr.en⟩

theorem OnCourse.fixed {s1 : State} {c : Cur} {h : Head} (hr : OnCourse s1 c) {i : Instr} {s : State}
    (hi : ∃ ws, exec i s = .next (fixedDone s1 c h ws)) : GoesOn i s c := by
  obtain ⟨ws, hi⟩ := hi
  obtain ⟨⟨g, a, b, d⟩, e⟩ := hr
  exact goesOn_fixedDone a e b d hi

theorem goesOn_fixedWord {i : Instr} {s : State} {c : Cur} {h : Head} {ok : Cur → Bool} {f : Cur → List RegW} (hc : cur? s = some c)
    (hok : ok c = true) (hi : exec i s = fixedWord s h ok f) : GoesOn i s c := by
  refine (OnCourse.base hc).fixed (h := h) ⟨f c, ?_⟩
  rw [hi]; unfold fixedWord onCur; rw [hc]; simp [hok]

theorem OnCourse.result {s1 : State} {c : Cur} {h : Head} {q : ResQ} (hr : OnCourse s1 c) {i : Instr} {s : State}
    (hq : resultGate c q = none) (hi : ∃ ws, exec i s = .next (resultDone s1 c h q ws)) : GoesOn i s c := by
  obtain ⟨ws, hi⟩ := hi
  unfold resultDone at hi
  rw [hq] at hi
  refine OnCourse.done (OnCourse.mod _ (hr.congr (t := { s1 with seqN := s1.seqN + 1 }) rfl) ?_ ?_) hi
  · intro g; rfl
  · intro g; exact ⟨rfl, rfl⟩

theorem OnCourse.draws {s1 : State} {c : Cur} (hr : OnCourse s1 c) (m : Mask) : OnCourse (countDraws s1 c m) c :=
  OnCourse.mod _ hr (fun _ => rfl) (fun _ => ⟨rfl, rfl⟩)

theorem OnCourse.drawn {s1 : State} {c : Cur} (hr : OnCourse s1 c) (h : Head) (r : Rnd) : OnCourse (drawn s1 c h r) c := by
  unfold Machine.drawn; split
  · exact hr.draws _
  · exact hr

theorem OnCourse.cvt {s1 : State} {c : Cur} {h : Head} (hr : OnCourse s1 c) {i : Instr} {s : State} {r : Rnd}
    (hq : resultGate c .cvt = none) (hi : ∃ ws, exec i s = .next (cvtWord s1 c h r ws)) : GoesOn i s c := by
  obtain ⟨ws, hi⟩ := hi
  unfold cvtWord at hi
  rw [hq] at hi
  exact (hr.drawn h r).result hq ⟨_, hi⟩

end Sys2Proof.Machine
end

