-- ==== Sys2Proof/Laws/Memory.lean ====
section
/-! SUPPORT. Memory: a byte read after a write, granules, and the canonical form that every operation keeps. -/

set_option Elab.async false

namespace Sys2Proof.Machine

open Sys2Proof

/-! ### Bytes -/

theorem mget_putBytes (m : SMap Byte) (a : Nat) (l : List Byte) (j : Nat) :
    mget unlistedByte (putBytes m a l) j =
      if a ≤ j ∧ j < a + l.length then l.getD (j - a) unlistedByte else mget unlistedByte m j := by
  induction l generalizing m a with
  | nil => simp only [putBytes, List.length_nil]; split_ifs <;> first | rfl | omega
  | cons b r ih =>
    simp only [putBytes, ih, mget_mput, List.length_cons]
    by_cases h : j = a
    · subst h
      simp
    · by_cases h1 : a + 1 ≤ j ∧ j < a + 1 + r.length
      · rw [if_pos h1, if_pos (by omega)]
        obtain ⟨k, rfl⟩ : ∃ k, j = a + 1 + k := ⟨j - (a + 1), by omega⟩
        have e1 : a + 1 + k - (a + 1) = k := by omega
        have e2 : a + 1 + k - a = k + 1 := by omega
        rw [e1, e2, List.getD_cons_succ]
      · rw [if_neg h1, if_neg h, if_neg (by omega)]

/-- A byte read after a write: the byte written there, else the old one. -/
theorem byteAt_putMem (s : State) (a : Nat) (l : List Byte) (j : Nat) :
    byteAt (s.putMem a l) j = if a ≤ j ∧ j < a + l.length then l.getD (j - a) unlistedByte else byteAt s j :=
  mget_putBytes s.mem a l j

/-- A write leaves every other byte alone. -/
theorem byteAt_putMem_out (s : State) {a : Nat} {l : List Byte} {j : Nat} (h : j < a ∨ a + l.length ≤ j) :
    byteAt (s.putMem a l) j = byteAt s j := by
  rw [byteAt_putMem, if_neg (by omega)]

/-- What was written is read back. -/
theorem bytesAt_putMem_same (s : State) (a : Nat) (l : List Byte) : bytesAt (s.putMem a l) a l.length = l := by
  apply List.ext_getElem
  · simp [bytesAt]
  · intro i h1 h2
    simp only [bytesAt, List.getElem_map, List.getElem_range, byteAt_putMem]
    rw [if_pos (by omega)]
    simp [List.getD_eq_getElem?_getD, h2]

theorem overlay_length (b : List Byte) (w : List (Nat × Byte)) : (overlay b w).length = b.length := by
  simp [overlay]

theorem overlay_getElem? (b : List Byte) (w : List (Nat × Byte)) (i : Nat) :
    (overlay b w)[i]? = b[i]?.map (fun y => match w.find? (fun p => p.1 == i) with
      | some p => p.2
      | none => y) := by
  unfold overlay
  exact List.getElem?_mapIdx.trans (by cases b[i]? <;> rfl)

@[simp] theorem bytesAt_length (s : State) (a n : Nat) : (bytesAt s a n).length = n := by simp [bytesAt]

theorem bytesAt_getD (s : State) (a n i : Nat) (h : i < n) (d : Byte) : (bytesAt s a n).getD i d = byteAt s (a + i) := by
  simp [bytesAt, List.getD_eq_getElem?_getD, h]

theorem natBytes_length (n x : Nat) : (natBytes n x).length = n := by
  induction n generalizing x with
  | zero => rfl
  | succ n ih => simp [natBytes, ih]

theorem leNat_natBytes (n x : Nat) : leNat (natBytes n x) = x % 256 ^ n := by
  induction n generalizing x with
  | zero => simp [natBytes, leNat, Nat.mod_one]
  | succ n ih =>
    simp only [natBytes, leNat, ih, BitVec.toNat_ofNat]
    have e : 256 ^ (n + 1) = 256 * 256 ^ n := by rw [Nat.pow_succ, Nat.mul_comm]
    rw [e, Nat.mod_mul]

/-- A number written is read back, modulo its width (R3). -/
theorem natAt_putMem (s : State) (a n x : Nat) : natAt (s.putMem a (natBytes n x)) a n = x % 256 ^ n := by
  have h := bytesAt_putMem_same s a (natBytes n x)
  rw [natBytes_length] at h
  rw [natAt, h, leNat_natBytes]

/-! ### Granules -/

theorem granAt_bytes_length (s : State) (a : Nat) : (granAt s a).bytes.length = 16 := bytesAt_length s _ 16

theorem byteAt_putGran_out (s : State) {a : Nat} {g : Gran} {j : Nat} (hl : g.bytes.length = 16) (h : j / 16 ≠ a / 16) :
    byteAt (putGran s a g) j = byteAt s j := by
  have : byteAt (putGran s a g) j = byteAt (s.putMem (granLoc a) g.bytes) j := rfl
  rw [this]
  exact byteAt_putMem_out s (by unfold granLoc; omega)

theorem tag_putGran (s : State) (a k : Nat) (g : Gran) :
    mget 0 (putGran s a g).tags k = if k = a / 16 then g.tag else mget 0 s.tags k := mget_mput 0 s.tags _ _ _

theorem poisoned_putGran (s : State) (a k : Nat) (g : Gran) :
    poisoned (putGran s a g) k = if k = a / 16 then g.poison else poisoned s k := mget_mput false s.poison _ _ _

/-- The granule stored is the granule read. -/
theorem granAt_putGran_same (s : State) (a : Nat) (g : Gran) (hl : g.bytes.length = 16) : granAt (putGran s a g) a = g := by
  have h1 : bytesAt (putGran s a g) (granLoc a) 16 = g.bytes := by
    have := bytesAt_putMem_same s (granLoc a) g.bytes
    rw [hl] at this
    exact this
  have h2 := tag_putGran s a (a / 16) g
  have h3 := poisoned_putGran s a (a / 16) g
  rw [if_pos rfl] at h2 h3
  unfold granAt
  rw [h1, h2, h3]

/-- Another granule reads as before. -/
theorem granAt_putGran_ne (s : State) {a j : Nat} (g : Gran) (hl : g.bytes.length = 16) (h : j / 16 ≠ a / 16) :
    granAt (putGran s a g) j = granAt s j := by
  have h1 : bytesAt (putGran s a g) (granLoc j) 16 = bytesAt s (granLoc j) 16 := by
    unfold bytesAt
    refine List.map_congr_left fun i hi => ?_
    rw [List.mem_range] at hi
    exact byteAt_putGran_out s hl (by unfold granLoc; omega)
  have h2 := tag_putGran s a (j / 16) g
  have h3 := poisoned_putGran s a (j / 16) g
  rw [if_neg h] at h2 h3
  unfold granAt
  rw [h1, h2, h3]

theorem gwrite_bytes_length (tagged : Bool) (g : Gran) (w : GWrite) : (Gran.write tagged g w).bytes.length = g.bytes.length := by
  unfold Gran.write
  split
  · rfl
  · exact overlay_length _ _

/-- A write performed leaves every other granule alone. -/
theorem granAt_performAt_ne (s : State) {a j : Nat} (tagged : Bool) (w : GWrite) (h : j / 16 ≠ a / 16) :
    granAt (performAt s a tagged w) j = granAt s j :=
  granAt_putGran_ne s _ (by rw [gwrite_bytes_length, granAt_bytes_length]) h

/-- The granule of a write performed. -/
theorem granAt_performAt_same (s : State) (a : Nat) (tagged : Bool) (w : GWrite) :
    granAt (performAt s a tagged w) a = Gran.write tagged (granAt s a) w :=
  granAt_putGran_same s a _ (by rw [gwrite_bytes_length, granAt_bytes_length])

/-- A byte that a write performed does not name reads as before. -/
theorem byteAt_performAt (s : State) (a : Nat) (tagged : Bool) (w : GWrite) (j : Nat)
    (h : j / 16 ≠ a / 16 ∨ w.tstg.isSome ∨ w.bytes.find? (fun p => p.1 == j % 16) = none) :
    byteAt (performAt s a tagged w) j = byteAt s j := by
  by_cases hj : j / 16 = a / 16
  · have hr : byteAt (performAt s a tagged w) j = byteAt (s.putMem (granLoc a) (Gran.write tagged (granAt s a) w).bytes) j := rfl
    have hlen : (Gran.write tagged (granAt s a) w).bytes.length = 16 := by rw [gwrite_bytes_length, granAt_bytes_length]
    rw [hr, byteAt_putMem, hlen, if_pos (by unfold granLoc; omega)]
    have hk : j - granLoc a = j % 16 := by unfold granLoc; omega
    have hb : (granAt s a).bytes.getD (j % 16) unlistedByte = byteAt s j := by
      have := bytesAt_getD s (granLoc a) 16 (j % 16) (by omega) unlistedByte
      rw [show (granAt s a).bytes = bytesAt s (granLoc a) 16 from rfl, this]
      congr 1
      unfold granLoc; omega
    rw [hk]
    unfold Gran.write
    split
    · exact hb
    · rename_i hn
      have hf : w.bytes.find? (fun p => p.1 == j % 16) = none := by
        rcases h with h | h | h
        · exact absurd hj h
        · rw [hn] at h; cases h
        · exact h
      simp only
      rw [List.getD_eq_getElem?_getD, overlay_getElem?, hf]
      rw [List.getD_eq_getElem?_getD] at hb
      rw [← hb]
      cases (granAt s a).bytes[j % 16]? <;> rfl
  · exact byteAt_putGran_out s (by rw [gwrite_bytes_length, granAt_bytes_length]) hj

/-! ### The canonical form -/

theorem wf_putBytes {m : SMap Byte} (a : Nat) (l : List Byte) (h : Memory.wf m) : Memory.wf (putBytes m a l) := by
  induction l generalizing m a with
  | nil => exact h
  | cons b r ih => exact ih (a + 1) (mwf_mput unlistedByte a b h)

theorem MemOk.congr {s t : State} (h : MemOk s) (h1 : t.mem = s.mem) (h2 : t.tags = s.tags) (h3 : t.poison = s.poison) : MemOk t := by
  unfold MemOk at h ⊢
  rw [h1, h2, h3]
  exact h

theorem MemOk.putMem {s : State} (h : MemOk s) (a : Nat) (l : List Byte) : MemOk (s.putMem a l) :=
  ⟨wf_putBytes a l h.1, h.2.1, h.2.2⟩

theorem MemOk.putGran {s : State} (h : MemOk s) (a : Nat) (g : Gran) : MemOk (Machine.putGran s a g) :=
  ⟨wf_putBytes _ _ h.1, mwf_mput 0 _ _ h.2.1, mwf_mput false _ _ h.2.2⟩

theorem MemOk.performAt {s : State} (h : MemOk s) (a : Nat) (tagged : Bool) (w : GWrite) : MemOk (Machine.performAt s a tagged w) :=
  h.putGran a _

theorem mwf_foldl_true {m : SMap Bool} (l : List Nat) (h : mwf false m = true) :
    mwf false (l.foldl (fun m k => mput false m k true) m) = true := by
  induction l generalizing m with
  | nil => exact h
  | cons k r ih => exact ih (mwf_mput false k true h)

/-- A fold whose step keeps the form keeps it. -/
theorem MemOk.foldl {α : Type} {f : State → α → State} (hf : ∀ s a, MemOk s → MemOk (f s a)) (l : List α) {s : State} (h : MemOk s) :
    MemOk (l.foldl f s) := by
  induction l generalizing s with
  | nil => exact h
  | cons a r ih => exact ih (hf s a h)

theorem MemOk.filter {s : State} (h : MemOk s) (f : Nat × Byte → Bool) (g : Nat × Tag → Bool) (k : Nat × Bool → Bool) :
    MemOk { s with mem := s.mem.filter f, tags := s.tags.filter g, poison := s.poison.filter k } :=
  ⟨mwf_filter unlistedByte f h.1, mwf_filter 0 g h.2.1, mwf_filter false k h.2.2⟩

theorem memOk_reset : MemOk State.reset := ⟨rfl, rfl, rfl⟩

theorem MemOk.modTeam {s : State} (h : MemOk s) (n : Nat) (f : Team → Team) : MemOk (s.modTeam n f) := h
theorem MemOk.modGroup {s : State} (h : MemOk s) (r : GRef) (f : Group → Group) : MemOk (s.modGroup r f) := h

end Sys2Proof.Machine
end

