-- ==== Sys2Proof/Laws/PerInstr.lean ====
section
/-! SUPPORT. Families of statements about every instruction as syntax: one lemma per constructor. -/

set_option Elab.async false

namespace Sys2Proof.Laws.KnownMajor

open Sys2Proof

/-- What the encoder takes for an instruction word is a major that the table of majors has, of eight bits (R46, R77). -/
def Statement (i : Instr) : Prop :=
  ∀ (m : Nat) (h : Head) (b : BitVec 49), encodeParts i = some (m, h, b) → m < 256 ∧ (majorInfo m).isSome = true

theorem of_major {i : Instr} {k : Nat} (hk : ((encodeParts i).map Prod.fst).getD k = k)
    (h0 : k < 256 ∧ (majorInfo k).isSome = true) : Statement i := by
  intro m h b e
  rw [e] at hk
  simp only [Option.map_some, Option.getD_some] at hk
  subst hk
  exact h0

theorem nop (h : Head) : Statement (.nop h) := of_major (k := 0x00) rfl (by decide)
theorem smovReg (h : Head) (d : BitVec 6) (a : BitVec 6) : Statement (.smovReg h d a) := of_major (k := 0x01) rfl (by decide)
theorem smovImm (h : Head) (d : BitVec 6) (imm : BitVec 32) : Statement (.smovImm h d imm) := of_major (k := 0x01) rfl (by decide)
theorem smovHi (h : Head) (d : BitVec 6) (imm : BitVec 32) : Statement (.smovHi h d imm) := of_major (k := 0x01) rfl (by decide)
theorem sadd (h : Head) (f : FitS) (d : BitVec 6) (a : BitVec 6) (b : SB) : Statement (.sadd h f d a b) := of_major (k := 0x02) rfl (by decide)
theorem ssub (h : Head) (f : FitS) (d : BitVec 6) (a : BitVec 6) (b : SB) : Statement (.ssub h f d a b) := of_major (k := 0x03) rfl (by decide)
theorem smul (h : Head) (f : MulF) (d : BitVec 6) (a : BitVec 6) (b : SB) : Statement (.smul h f d a b) := of_major (k := 0x04) rfl (by decide)
theorem sdiv (h : Head) (f : DivF) (d : BitVec 6) (a : BitVec 6) (b : SB) : Statement (.sdiv h f d a b) := of_major (k := 0x05) rfl (by decide)
theorem slog (h : Head) (f : LogF) (d : BitVec 6) (a : BitVec 6) (b : SB) : Statement (.slog h f d a b) := of_major (k := 0x06) rfl (by decide)
theorem ssh (h : Head) (f : ShF) (d : BitVec 6) (a : BitVec 6) (b : SB) : Statement (.ssh h f d a b) := of_major (k := 0x07) rfl (by decide)
theorem scmp (h : Head) (f : SCmpF) (q : BitVec 3) (a : BitVec 6) (b : SB) : Statement (.scmp h f q a b) := of_major (k := 0x08) rfl (by decide)
theorem ssel (h : Head) (c : BitVec 3) (d : BitVec 6) (a : BitVec 6) (b : SB) : Statement (.ssel h c d a b) := of_major (k := 0x09) rfl (by decide)
theorem sbit (h : Head) (f : SBitF) (d : BitVec 6) (a : BitVec 6) (w : SBitW) : Statement (.sbit h f d a w) := of_major (k := 0x0A) (by simp only [encodeParts]; repeat' split; all_goals rfl) (by decide)
theorem sminmax (h : Head) (f : SMinMaxF) (d : BitVec 6) (a : BitVec 6) (b : SB) : Statement (.sminmax h f d a b) := of_major (k := 0x0B) rfl (by decide)
theorem qlog (h : Head) (f : QLogF) (d : BitVec 3) (a : BitVec 3) (b : BitVec 3) : Statement (.qlog h f d a b) := of_major (k := 0x0C) rfl (by decide)
theorem sld (h : Head) (z : MSize) (o : MOrd) (d : BitVec 6) (m : MemOp) : Statement (.sld h z o d m) := of_major (k := 0x0D) rfl (by decide)
theorem sst (h : Head) (z : MSize) (o : MOrd) (d : BitVec 6) (m : MemOp) : Statement (.sst h z o d m) := of_major (k := 0x0E) rfl (by decide)
theorem braCond (h : Head) (q : BitVec 3) (n : Bool) (off : BitVec 32) : Statement (.braCond h q n off) := of_major (k := 0x10) rfl (by decide)
theorem braAlways (h : Head) (off : BitVec 32) : Statement (.braAlways h off) := of_major (k := 0x10) rfl (by decide)
theorem brv (h : Head) (p : BitVec 3) (n : Bool) (off : BitVec 32) : Statement (.brv h p n off) := of_major (k := 0x11) rfl (by decide)
theorem jmpv (h : Head) (v : BitVec 8) : Statement (.jmpv h v) := of_major (k := 0x12) rfl (by decide)
theorem call (h : Head) (off : BitVec 32) : Statement (.call h off) := of_major (k := 0x13) rfl (by decide)
theorem callv (h : Head) (v : BitVec 8) : Statement (.callv h v) := of_major (k := 0x14) rfl (by decide)
theorem ret (h : Head) : Statement (.ret h) := of_major (k := 0x15) rfl (by decide)
theorem join (h : Head) : Statement (.join h) := of_major (k := 0x16) rfl (by decide)
theorem defer (h : Head) : Statement (.defer h) := of_major (k := 0x17) rfl (by decide)
theorem loopScalar (h : Head) (s : BitVec 6) (off : BitVec 32) : Statement (.loopScalar h s off) := of_major (k := 0x18) rfl (by decide)
theorem loopImm (h : Head) (n : BitVec 8) (off : BitVec 32) : Statement (.loopImm h n off) := of_major (k := 0x18) rfl (by decide)
theorem lbrk (h : Head) (n : BitVec 2) : Statement (.lbrk h n) := of_major (k := 0x19) rfl (by decide)
theorem exit (h : Head) : Statement (.exit h) := of_major (k := 0x1A) rfl (by decide)
theorem yld (h : Head) (spin : Bool) (n : BitVec 16) : Statement (.yld h spin n) := of_major (k := 0x1B) rfl (by decide)
theorem srd (h : Head) (scalar : Bool) (vd : BitVec 8) (reg : BitVec 6) : Statement (.srd h scalar vd reg) := of_major (k := 0xA2) rfl (by decide)
theorem swr (h : Head) (scalar : Bool) (reg : BitVec 6) (a : Src) : Statement (.swr h scalar reg a) := of_major (k := 0xA3) rfl (by decide)
theorem vadd (h : Head) (f : FitV) (t : VType) (vd : BitVec 8) (a : Src) (b : VB) : Statement (.vadd h f t vd a b) := of_major (k := 0x20) (by simp only [encodeParts, eV2]; repeat' split; all_goals rfl) (by decide)
theorem vsub (h : Head) (f : FitV) (t : VType) (vd : BitVec 8) (a : Src) (b : VB) : Statement (.vsub h f t vd a b) := of_major (k := 0x21) (by simp only [encodeParts, eV2]; repeat' split; all_goals rfl) (by decide)
theorem vmul (h : Head) (f : MulF) (t : VType) (vd : BitVec 8) (a : Src) (b : VB) : Statement (.vmul h f t vd a b) := of_major (k := 0x22) (by simp only [encodeParts, eV2]; repeat' split; all_goals rfl) (by decide)
theorem vmad (h : Head) (t : VType) (vd : BitVec 8) (a : Src) (b : Src) (c : Src) : Statement (.vmad h t vd a b c) := of_major (k := 0x23) rfl (by decide)
theorem vlog (h : Head) (f : LogF) (t : VType) (vd : BitVec 8) (a : Src) (b : VB) : Statement (.vlog h f t vd a b) := of_major (k := 0x24) (by simp only [encodeParts, eV2]; repeat' split; all_goals rfl) (by decide)
theorem vsh (h : Head) (f : ShF) (t : VType) (vd : BitVec 8) (a : Src) (b : VB) : Statement (.vsh h f t vd a b) := of_major (k := 0x25) (by simp only [encodeParts, eV2]; repeat' split; all_goals rfl) (by decide)
theorem vminmax (h : Head) (f : MinMaxF) (t : VType) (vd : BitVec 8) (a : Src) (b : VB) : Statement (.vminmax h f t vd a b) := of_major (k := 0x26) (by simp only [encodeParts, eV2]; repeat' split; all_goals rfl) (by decide)
theorem vabs (h : Head) (f : AbsF) (t : VType) (vd : BitVec 8) (a : Src) : Statement (.vabs h f t vd a) := of_major (k := 0x27) rfl (by decide)
theorem vcmp (h : Head) (f : CmpF) (t : VType) (p : BitVec 3) (a : Src) (b : VB) : Statement (.vcmp h f t p a b) := of_major (k := 0x28) (by simp only [encodeParts, eV2]; repeat' split; all_goals rfl) (by decide)
theorem vsel (h : Head) (t : VType) (vd : BitVec 8) (a : Src) (b : Src) (p : BitVec 3) : Statement (.vsel h t vd a b p) := of_major (k := 0x29) rfl (by decide)
theorem vbit (h : Head) (f : VBitF) (t : VType) (vd : BitVec 8) (a : Src) : Statement (.vbit h f t vd a) := of_major (k := 0x2A) rfl (by decide)
theorem vbfe (h : Head) (t : VType) (vd : BitVec 8) (a : Src) (b : Src) (c : Src) : Statement (.vbfe h t vd a b c) := of_major (k := 0x2B) rfl (by decide)
theorem vbfi (h : Head) (t : VType) (vd : BitVec 8) (a : Src) (b : Src) (c : Src) : Statement (.vbfi h t vd a b c) := of_major (k := 0x2C) rfl (by decide)
theorem vmov (h : Head) (t : VType) (vd : BitVec 8) (f : VMovF) : Statement (.vmov h t vd f) := of_major (k := 0x2D) (by simp only [encodeParts]; repeat' split; all_goals rfl) (by decide)
theorem vdiv (h : Head) (f : DivF) (vd : BitVec 8) (a : Src) (b : Src) : Statement (.vdiv h f vd a b) := of_major (k := 0x2E) rfl (by decide)
theorem fadd (h : Head) (t : VType) (vd : BitVec 8) (a : Src) (b : VB) (m : FMod) : Statement (.fadd h t vd a b m) := of_major (k := 0x30) (by simp only [encodeParts, eV2]; repeat' split; all_goals rfl) (by decide)
theorem fsub (h : Head) (t : VType) (vd : BitVec 8) (a : Src) (b : VB) (m : FMod) : Statement (.fsub h t vd a b m) := of_major (k := 0x31) (by simp only [encodeParts, eV2]; repeat' split; all_goals rfl) (by decide)
theorem fmul (h : Head) (t : VType) (vd : BitVec 8) (a : Src) (b : VB) (m : FMod) : Statement (.fmul h t vd a b m) := of_major (k := 0x32) (by simp only [encodeParts, eV2]; repeat' split; all_goals rfl) (by decide)
theorem ffma (h : Head) (f : FmaF) (t : VType) (vd : BitVec 8) (a : Src) (b : Src) (c : Src) (m : FMod) : Statement (.ffma h f t vd a b c m) := of_major (k := 0x33) rfl (by decide)
theorem fminmax (h : Head) (f : FMinMaxF) (t : VType) (vd : BitVec 8) (a : Src) (b : VB) : Statement (.fminmax h f t vd a b) := of_major (k := 0x34) (by simp only [encodeParts, eV2]; repeat' split; all_goals rfl) (by decide)
theorem fcmp (h : Head) (f : FCmpF) (t : VType) (p : BitVec 3) (a : Src) (b : VB) : Statement (.fcmp h f t p a b) := of_major (k := 0x35) (by simp only [encodeParts, eV2]; repeat' split; all_goals rfl) (by decide)
theorem fcls (h : Head) (t : VType) (p : BitVec 3) (a : Src) (mask : BitVec 10) : Statement (.fcls h t p a mask) := of_major (k := 0x36) rfl (by decide)
theorem fdot (h : Head) (f : FDotF) (vd : BitVec 8) (a : Src) (b : Src) (c : Src) (m : FMod) : Statement (.fdot h f vd a b c m) := of_major (k := 0x37) (by simp only [encodeParts]; repeat' split; all_goals rfl) (by decide)
theorem sfu (h : Head) (f : SfuF) (vd : BitVec 8) (a : Src) (b : Src) (ftz : Bool) : Statement (.sfu h f vd a b ftz) := of_major (k := 0x38) rfl (by decide)
theorem rng (h : Head) (f : RngF) (vd : BitVec 8) : Statement (.rng h f vd) := of_major (k := 0x39) (by simp only [encodeParts]; repeat' split; all_goals rfl) (by decide)
theorem cvt (h : Head) (dst : BitVec 8) (vd : BitVec 8) (a : Src) (src : BitVec 8) (m : FMod) : Statement (.cvt h dst vd a src m) := of_major (k := 0x3C) rfl (by decide)
theorem cvtp (h : Head) (dst : BitVec 8) (vd : BitVec 8) (a : Src) (b : Src) (src : BitVec 8) (rnd : Rnd) (hi : Bool) (sat : Bool) : Statement (.cvtp h dst vd a b src rnd hi sat) := of_major (k := 0x3D) rfl (by decide)
theorem cvtx (h : Head) (dst : BitVec 8) (vd : BitVec 8) (a : Src) (b : Src) (src : BitVec 8) (m : FMod) : Statement (.cvtx h dst vd a b src m) := of_major (k := 0x3E) rfl (by decide)
theorem fscl (h : Head) (f : FSclF) (vd : BitVec 8) (a : Src) : Statement (.fscl h f vd a) := of_major (k := 0x3F) (by simp only [encodeParts]; repeat' split; all_goals rfl) (by decide)
theorem vbal (h : Head) (vd : BitVec 8) (a : Src) (b : Src) : Statement (.vbal h vd a b) := of_major (k := 0x40) rfl (by decide)
theorem vvote (h : Head) (f : VoteF) (dst : BitVec 8) (p : BitVec 3) : Statement (.vvote h f dst p) := of_major (k := 0x41) rfl (by decide)
theorem vshfl (h : Head) (f : ShflF) (t : VType) (vd : BitVec 8) (a : Src) (b : Src) : Statement (.vshfl h f t vd a b) := of_major (k := 0x42) rfl (by decide)
theorem vxch (h : Head) (vd : BitVec 8) (a : Src) (b : Src) (c : Src) : Statement (.vxch h vd a b c) := of_major (k := 0x43) rfl (by decide)
theorem vreduce (h : Head) (f : RedF) (t : VType) (vd : BitVec 8) (a : Src) (m : FMod) : Statement (.vreduce h f t vd a m) := of_major (k := 0x44) rfl (by decide)
theorem vscan (h : Head) (f : ScanF) (t : VType) (vd : BitVec 8) (a : Src) (sat : Bool) : Statement (.vscan h f t vd a sat) := of_major (k := 0x45) rfl (by decide)
theorem vmatch (h : Head) (vd : BitVec 8) (a : Src) : Statement (.vmatch h vd a) := of_major (k := 0x46) rfl (by decide)
theorem vlane (h : Head) (f : VLaneF) (t : VType) (vd : BitVec 8) (a : Src) (b : Src) : Statement (.vlane h f t vd a b) := of_major (k := 0x47) rfl (by decide)
theorem vld (h : Head) (z : MSize) (o : MOrd) (d : BitVec 8) (m : MemOp) : Statement (.vld h z o d m) := of_major (k := 0x50) rfl (by decide)
theorem vst (h : Head) (z : MSize) (o : MOrd) (d : BitVec 8) (m : MemOp) : Statement (.vst h z o d m) := of_major (k := 0x51) rfl (by decide)
theorem pref (h : Head) (hint : BitVec 2) (m : MemOp) : Statement (.pref h hint m) := of_major (k := 0x52) rfl (by decide)
theorem probe (h : Head) (z : MSize) (p : BitVec 3) (m : MemOp) : Statement (.probe h z p m) := of_major (k := 0x53) rfl (by decide)
theorem bankcfg (h : Head) (q : BitVec 3) (sb : BitVec 6) (mode : BankMode) : Statement (.bankcfg h q sb mode) := of_major (k := 0x54) rfl (by decide)
theorem iinv (h : Head) (m : MemOp) : Statement (.iinv h m) := of_major (k := 0x55) rfl (by decide)
theorem atom (h : Head) (f : AtomF) (z : MSize) (o : MOrd) (d : BitVec 8) (m : MemOp) : Statement (.atom h f z o d m) := of_major (k := 0x60) rfl (by decide)
theorem acas (h : Head) (z : MSize) (o : MOrd) (d : BitVec 8) (m : MemOp) : Statement (.acas h z o d m) := of_major (k := 0x61) rfl (by decide)
theorem red (h : Head) (f : RedMF) (z : MSize) (o : MOrd) (d : BitVec 8) (m : MemOp) : Statement (.red h f z o d m) := of_major (k := 0x62) rfl (by decide)
theorem fence (h : Head) (sc : Scope) (o : Ord) : Statement (.fence h sc o) := of_major (k := 0x63) rfl (by decide)
theorem qpush (h : Head) (q : BitVec 3) (t : Bool) (g : Bool) (kx : BitVec 4) (sa : BitVec 6) : Statement (.qpush h q t g kx sa) := of_major (k := 0x64) rfl (by decide)
theorem qpop (h : Head) (q : BitVec 3) (t : Bool) (g : Bool) (kx : BitVec 4) (sa : BitVec 6) : Statement (.qpop h q t g kx sa) := of_major (k := 0x65) rfl (by decide)
theorem qallowGrant (h : Head) (q : BitVec 3) (g : Bool) (kx : BitVec 4) (sa : BitVec 6) (sb : BitVec 6) : Statement (.qallowGrant h q g kx sa sb) := of_major (k := 0x66) rfl (by decide)
theorem qallowRead (h : Head) (q : BitVec 3) (g : Bool) (kx : BitVec 4) (sa : BitVec 6) : Statement (.qallowRead h q g kx sa) := of_major (k := 0x66) rfl (by decide)
theorem cwait (h : Head) (q : BitVec 3) (t : Bool) (sc : Scope) (o : Ord) (cell : BitVec 6) (x : CVal) (tmo : Option (BitVec 6)) : Statement (.cwait h q t sc o cell x tmo) := of_major (k := 0x67) rfl (by decide)
theorem carr (h : Head) (sc : Scope) (o : Ord) (cell : BitVec 6) (x : CVal) : Statement (.carr h sc o cell x) := of_major (k := 0x68) rfl (by decide)
theorem crst (h : Head) (cell : BitVec 6) : Statement (.crst h cell) := of_major (k := 0x69) rfl (by decide)
theorem tbar (h : Head) (role : Option (BitVec 2)) : Statement (.tbar h role) := of_major (k := 0x6A) (by simp only [encodeParts]; repeat' split; all_goals rfl) (by decide)
theorem commit (h : Head) : Statement (.commit h) := of_major (k := 0x6B) rfl (by decide)
theorem mma (h : Head) (scaled : Bool) (g : Bool) (pop : Bool) (kx : BitVec 4) (ky : BitVec 4) (sa : BitVec 6) (sb : BitVec 6) (slot : BitVec 6) : Statement (.mma h scaled g pop kx ky sa sb slot) := of_major (k := 0x70) rfl (by decide)
theorem aacq (h : Head) (slot : BitVec 6) : Statement (.aacq h slot) := of_major (k := 0x71) rfl (by decide)
theorem arel (h : Head) (slot : BitVec 6) : Statement (.arel h slot) := of_major (k := 0x72) rfl (by decide)
theorem ald (h : Head) (o : MOrd) (slot : BitVec 6) (m : MemOp) : Statement (.ald h o slot m) := of_major (k := 0x73) rfl (by decide)
theorem ast (h : Head) (o : MOrd) (slot : BitVec 6) (m : MemOp) : Statement (.ast h o slot m) := of_major (k := 0x74) rfl (by decide)
theorem azero (h : Head) (slot : BitVec 6) : Statement (.azero h slot) := of_major (k := 0x75) rfl (by decide)
theorem adrnStore (h : Head) (o : MOrd) (slot : BitVec 6) (m : MemOp) : Statement (.adrnStore h o slot m) := of_major (k := 0x76) rfl (by decide)
theorem adrnFadd (h : Head) (o : MOrd) (slot : BitVec 6) (m : MemOp) : Statement (.adrnFadd h o slot m) := of_major (k := 0x76) rfl (by decide)
theorem xcopy (h : Head) (x : XArgs) : Statement (.xcopy h x) := of_major (k := 0x78) rfl (by decide)
theorem xformDec (h : Head) (x : XArgs) : Statement (.xformDec h x) := of_major (k := 0x79) rfl (by decide)
theorem xformPerm (h : Head) (x : XArgs) : Statement (.xformPerm h x) := of_major (k := 0x79) rfl (by decide)
theorem xformCvt (h : Head) (x : XArgs) : Statement (.xformCvt h x) := of_major (k := 0x79) rfl (by decide)
theorem xformFill (h : Head) (x : XArgs) : Statement (.xformFill h x) := of_major (k := 0x79) rfl (by decide)
theorem xstat (h : Head) (sa : BitVec 6) (sc : BitVec 6) : Statement (.xstat h sa sc) := of_major (k := 0x7A) rfl (by decide)
theorem cprun (h : Head) (q : BitVec 3) (g : Bool) (kx : BitVec 4) (sa : BitVec 6) (sb : BitVec 6) (sc : BitVec 6) : Statement (.cprun h q g kx sa sb sc) := of_major (k := 0x7B) rfl (by decide)
theorem cpstat (h : Head) (q : BitVec 3) (g : Bool) (kx : BitVec 4) (sa : BitVec 6) : Statement (.cpstat h q g kx sa) := of_major (k := 0x7C) rfl (by decide)
theorem cpstop (h : Head) (q : BitVec 3) (g : Bool) (kx : BitVec 4) : Statement (.cpstop h q g kx) := of_major (k := 0x7D) rfl (by decide)
theorem nnew (h : Head) (q : BitVec 3) (kd : BitVec 4) (cls : BitVec 8) (sa : BitVec 6) : Statement (.nnew h q kd cls sa) := of_major (k := 0x80) rfl (by decide)
theorem nkill (h : Head) (q : BitVec 3) (g : Bool) (ka : BitVec 4) : Statement (.nkill h q g ka) := of_major (k := 0x81) rfl (by decide)
theorem nres (h : Head) (q : BitVec 3) (g : Bool) (ka : BitVec 4) : Statement (.nres h q g ka) := of_major (k := 0x82) rfl (by decide)
theorem nmov (h : Head) (q : BitVec 3) (g : Bool) (kd : BitVec 4) (ka : BitVec 4) : Statement (.nmov h q g kd ka) := of_major (k := 0x86) rfl (by decide)
theorem ninfo (h : Head) (q : BitVec 3) (g : Bool) (ka : BitVec 4) (sd : BitVec 6) (item : BitVec 8) : Statement (.ninfo h q g ka sd item) := of_major (k := 0x87) rfl (by decide)
theorem nld (h : Head) (q : BitVec 3) (o : MOrd) (kd : BitVec 4) (m : MemOp) : Statement (.nld h q o kd m) := of_major (k := 0x83) rfl (by decide)
theorem nst (h : Head) (q : BitVec 3) (o : MOrd) (kx : BitVec 4) (m : MemOp) : Statement (.nst h q o kx m) := of_major (k := 0x84) rfl (by decide)
theorem ncas (h : Head) (live : Bool) (q : BitVec 3) (o : MOrd) (knew : BitVec 4) (kexp : BitVec 4) (m : MemOp) : Statement (.ncas h live q o knew kexp m) := of_major (k := 0x85) rfl (by decide)
theorem tget (h : Head) (vd : BitVec 8) (a : Src) : Statement (.tget h vd a) := of_major (k := 0x88) rfl (by decide)
theorem tset (h : Head) (vd : BitVec 8) (f : TSetF) : Statement (.tset h vd f) := of_major (k := 0x89) (by simp only [encodeParts]; repeat' split; all_goals rfl) (by decide)
theorem tchk (h : Head) (t : VType) (a : Src) : Statement (.tchk h t a) := of_major (k := 0x8A) rfl (by decide)
theorem tldg (h : Head) (o : MOrd) (d : BitVec 8) (m : MemOp) : Statement (.tldg h o d m) := of_major (k := 0x8B) rfl (by decide)
theorem tstg (h : Head) (o : MOrd) (d : BitVec 8) (m : MemOp) : Statement (.tstg h o d m) := of_major (k := 0x8C) rfl (by decide)
theorem torg (h : Head) (q : BitVec 3) (sd : BitVec 6) (sa : BitVec 6) : Statement (.torg h q sd sa) := of_major (k := 0x8D) rfl (by decide)
theorem rvmul (h : Head) (t : VType) (vd : BitVec 8) (a : Src) (b : Src) (rnd : Rnd) : Statement (.rvmul h t vd a b rnd) := of_major (k := 0x90) rfl (by decide)
theorem rvadd (h : Head) (vd : BitVec 8) (a : Src) (b : Src) (rnd : Rnd) : Statement (.rvadd h vd a b rnd) := of_major (k := 0x91) rfl (by decide)
theorem rvnar (h : Head) (fmt : BitVec 8) (vd : BitVec 8) (a : Src) (rnd : Rnd) (sat : Bool) : Statement (.rvnar h fmt vd a rnd sat) := of_major (k := 0x92) rfl (by decide)
theorem rvmax0 (h : Head) (vd : BitVec 8) (a : Src) : Statement (.rvmax0 h vd a) := of_major (k := 0x93) rfl (by decide)
theorem unmul (h : Head) (t : VType) (vd : BitVec 8) (a : Src) (b : Src) : Statement (.unmul h t vd a b) := of_major (k := 0x94) rfl (by decide)
theorem unadd (h : Head) (vd : BitVec 8) (a : Src) (b : Src) : Statement (.unadd h vd a b) := of_major (k := 0x95) rfl (by decide)
theorem unnar (h : Head) (fmt : BitVec 8) (vd : BitVec 8) (a : Src) : Statement (.unnar h fmt vd a) := of_major (k := 0x96) rfl (by decide)
theorem unmax0 (h : Head) (vd : BitVec 8) (a : Src) : Statement (.unmax0 h vd a) := of_major (k := 0x97) rfl (by decide)
theorem slmark (h : Head) (id : BitVec 16) : Statement (.slmark h id) := of_major (k := 0x98) rfl (by decide)
theorem sldrop (h : Head) (id : BitVec 16) : Statement (.sldrop h id) := of_major (k := 0x99) rfl (by decide)
theorem sldepth (h : Head) (d : BitVec 6) : Statement (.sldepth h d) := of_major (k := 0x9A) rfl (by decide)
theorem trap (h : Head) (cause : BitVec 8) : Statement (.trap h cause) := of_major (k := 0xA0) rfl (by decide)
theorem tret (h : Head) : Statement (.tret h) := of_major (k := 0xA1) rfl (by decide)
theorem brk (h : Head) : Statement (.brk h) := of_major (k := 0xA5) rfl (by decide)
theorem launch (h : Head) (a : BitVec 6) : Statement (.launch h a) := of_major (k := 0xA4) rfl (by decide)
theorem clauseEntry (core : Nat) (pipe : Nat) : Statement (.clauseEntry core pipe) := fun _ _ _ e => nomatch e
theorem overrun (g : GRef) : Statement (.overrun g) := fun _ _ _ e => nomatch e
theorem resultReturn (g : GRef) (n : Nat) : Statement (.resultReturn g n) := fun _ _ _ e => nomatch e
theorem switchWake (g : GRef) : Statement (.switchWake g) := fun _ _ _ e => nomatch e
theorem queueEntryFree (g : GRef) : Statement (.queueEntryFree g) := fun _ _ _ e => nomatch e
theorem yldDrainComplete (g : GRef) : Statement (.yldDrainComplete g) := fun _ _ _ e => nomatch e
theorem joinRelease (g : GRef) : Statement (.joinRelease g) := fun _ _ _ e => nomatch e
theorem loopEndStep (g : GRef) : Statement (.loopEndStep g) := fun _ _ _ e => nomatch e
theorem deferRelease (g : GRef) (lane : Nat) : Statement (.deferRelease g lane) := fun _ _ _ e => nomatch e
theorem dieFaultWalk (n : Nat) : Statement (.dieFaultWalk n) := fun _ _ _ e => nomatch e
theorem faultRecordWrite (n : Nat) : Statement (.faultRecordWrite n) := fun _ _ _ e => nomatch e
theorem storeQueueDrain (g : GRef) : Statement (.storeQueueDrain g) := fun _ _ _ e => nomatch e
theorem ownershipGrant (core : Nat) (line : Nat) : Statement (.ownershipGrant core line) := fun _ _ _ e => nomatch e
theorem invalidationReceive (core : Nat) (line : Nat) : Statement (.invalidationReceive core line) := fun _ _ _ e => nomatch e
theorem directoryRecall (line : Nat) : Statement (.directoryRecall line) := fun _ _ _ e => nomatch e
theorem directoryEviction (line : Nat) : Statement (.directoryEviction line) := fun _ _ _ e => nomatch e
theorem aliasRecall (line : Nat) (slot : Nat) (va : Word) : Statement (.aliasRecall line slot va) := fun _ _ _ e => nomatch e
theorem aliasRecordDrop (line : Nat) : Statement (.aliasRecordDrop line) := fun _ _ _ e => nomatch e
theorem redArrival (n : Nat) : Statement (.redArrival n) := fun _ _ _ e => nomatch e
theorem iinvAck (g : GRef) : Statement (.iinvAck g) := fun _ _ _ e => nomatch e
theorem tlbInvalidation (k : TlbInv) : Statement (.tlbInvalidation k) := fun _ _ _ e => nomatch e
theorem tlbSync : Statement (.tlbSync) := fun _ _ _ e => nomatch e
theorem hostWrite (pa : Nat) (data : List Byte) : Statement (.hostWrite pa data) := fun _ _ _ e => nomatch e
theorem hostRead (p : HostPlace) (size : Nat) : Statement (.hostRead p size) := fun _ _ _ e => nomatch e
theorem scrubPass (block : Nat) (corrected : List (Nat × Nat)) (bad : List Nat) : Statement (.scrubPass block corrected bad) := fun _ _ _ e => nomatch e
theorem dirtyEvictionError (x : LostLine) : Statement (.dirtyEvictionError x) := fun _ _ _ e => nomatch e
theorem engineCommandStart (e : EngRef) : Statement (.engineCommandStart e) := fun _ _ _ e => nomatch e
theorem engineStartTime (e : EngRef) : Statement (.engineStartTime e) := fun _ _ _ e => nomatch e
theorem cbFullTimeout (cmd : Nat) : Statement (.cbFullTimeout cmd) := fun _ _ _ e => nomatch e
theorem engineCommandEnd (cmd : Nat) : Statement (.engineCommandEnd cmd) := fun _ _ _ e => nomatch e
theorem transformSpillReplay (cmd : Nat) : Statement (.transformSpillReplay cmd) := fun _ _ _ e => nomatch e
theorem engineQueueWake (g : GRef) : Statement (.engineQueueWake g) := fun _ _ _ e => nomatch e
theorem emulatedTileOp (cmd : Nat) : Statement (.emulatedTileOp cmd) := fun _ _ _ e => nomatch e
theorem mmaExecute (mma : Nat) : Statement (.mmaExecute mma) := fun _ _ _ e => nomatch e
theorem matrixQueueWake (g : GRef) : Statement (.matrixQueueWake g) := fun _ _ _ e => nomatch e
theorem aacqComplete (g : GRef) : Statement (.aacqComplete g) := fun _ _ _ e => nomatch e
theorem arelHandover (core : Nat) (slot : Nat) : Statement (.arelHandover core slot) := fun _ _ _ e => nomatch e
theorem queueWake (pigeonhole : Name) : Statement (.queueWake pigeonhole) := fun _ _ _ e => nomatch e
theorem cwaitWake (g : GRef) : Statement (.cwaitWake g) := fun _ _ _ e => nomatch e
theorem cwaitTimeout (g : GRef) : Statement (.cwaitTimeout g) := fun _ _ _ e => nomatch e
theorem bellRelease (team : Nat) (bell : Nat) : Statement (.bellRelease team bell) := fun _ _ _ e => nomatch e
theorem launchQueueWake (g : GRef) : Statement (.launchQueueWake g) := fun _ _ _ e => nomatch e
theorem slateSpill (g : GRef) : Statement (.slateSpill g) := fun _ _ _ e => nomatch e
theorem trapEntry (g : GRef) : Statement (.trapEntry g) := fun _ _ _ e => nomatch e
theorem teamFaultEnd (team : Nat) : Statement (.teamFaultEnd team) := fun _ _ _ e => nomatch e
theorem relaunch (team : Nat) : Statement (.relaunch team) := fun _ _ _ e => nomatch e
theorem groupEnd (g : GRef) : Statement (.groupEnd g) := fun _ _ _ e => nomatch e
theorem teamEndExit (team : Nat) : Statement (.teamEndExit team) := fun _ _ _ e => nomatch e
theorem launchWindowWrite (ctx : Nat) (off : Nat) (data : List Byte) : Statement (.launchWindowWrite ctx off data) := fun _ _ _ e => nomatch e
theorem launchAccept (ctx : Nat) : Statement (.launchAccept ctx) := fun _ _ _ e => nomatch e
theorem dependenceMet (launch : Nat) : Statement (.dependenceMet launch) := fun _ _ _ e => nomatch e
theorem teamPlace (die : Nat) : Statement (.teamPlace die) := fun _ _ _ e => nomatch e
theorem launchWait2ms (launch : Nat) : Statement (.launchWait2ms launch) := fun _ _ _ e => nomatch e
theorem preemptRequest (team : Nat) : Statement (.preemptRequest team) := fun _ _ _ e => nomatch e
theorem teamSave (team : Nat) : Statement (.teamSave team) := fun _ _ _ e => nomatch e
theorem teamResume (team : Nat) (core : Nat) : Statement (.teamResume team core) := fun _ _ _ e => nomatch e
theorem floorShareTimeout (team : Nat) : Statement (.floorShareTimeout team) := fun _ _ _ e => nomatch e
theorem launchComplete (launch : Nat) : Statement (.launchComplete launch) := fun _ _ _ e => nomatch e
theorem nkillComplete (name : Name) : Statement (.nkillComplete name) := fun _ _ _ e => nomatch e
theorem rollEntryWrite (roll : Name) : Statement (.rollEntryWrite roll) := fun _ _ _ e => nomatch e
theorem errorRecordForward : Statement (.errorRecordForward) := fun _ _ _ e => nomatch e
theorem cpHalt (run : Nat) : Statement (.cpHalt run) := fun _ _ _ e => nomatch e
theorem cpSend (run : Nat) : Statement (.cpSend run) := fun _ _ _ e => nomatch e
theorem cpRecv (run : Nat) : Statement (.cpRecv run) := fun _ _ _ e => nomatch e
theorem cpRrs (run : Nat) : Statement (.cpRrs run) := fun _ _ _ e => nomatch e
theorem cpRred (run : Nat) : Statement (.cpRred run) := fun _ _ _ e => nomatch e
theorem cpCopy (run : Nat) : Statement (.cpCopy run) := fun _ _ _ e => nomatch e
theorem cpWaitCell (run : Nat) : Statement (.cpWaitCell run) := fun _ _ _ e => nomatch e
theorem cpWaitTimed (run : Nat) : Statement (.cpWaitTimed run) := fun _ _ _ e => nomatch e
theorem cpLoop (run : Nat) : Statement (.cpLoop run) := fun _ _ _ e => nomatch e
theorem cpEndl (run : Nat) : Statement (.cpEndl run) := fun _ _ _ e => nomatch e
theorem cpSignal (run : Nat) : Statement (.cpSignal run) := fun _ _ _ e => nomatch e
theorem engineMessageArrival (f : MsgFrom) (m : EngMsg) : Statement (.engineMessageArrival f m) := fun _ _ _ e => nomatch e
theorem messageDiscard (die : Nat) (n : Nat) : Statement (.messageDiscard die n) := fun _ _ _ e => nomatch e
theorem recvTimeout (run : Nat) : Statement (.recvTimeout run) := fun _ _ _ e => nomatch e
theorem slotContribution (c : SentContrib) : Statement (.slotContribution c) := fun _ _ _ e => nomatch e
theorem slotClose (slot : Name) : Statement (.slotClose slot) := fun _ _ _ e => nomatch e
theorem slotDeadline (slot : Name) : Statement (.slotDeadline slot) := fun _ _ _ e => nomatch e
theorem peerRequestArrival (r : PeerReq) : Statement (.peerRequestArrival r) := fun _ _ _ e => nomatch e
theorem peerResponse (req : Nat) (a : PeerAns) : Statement (.peerResponse req a) := fun _ _ _ e => nomatch e
theorem peerTimeout (req : Nat) : Statement (.peerTimeout req) := fun _ _ _ e => nomatch e
theorem peerBusyRetry (req : Nat) : Statement (.peerBusyRetry req) := fun _ _ _ e => nomatch e
theorem linkBringup (port : Nat) (vendor : Nat) (accel : Nat) : Statement (.linkBringup port vendor accel) := fun _ _ _ e => nomatch e
theorem portDown (port : Nat) : Statement (.portDown port) := fun _ _ _ e => nomatch e
theorem datagramResend (req : Nat) : Statement (.datagramResend req) := fun _ _ _ e => nomatch e
theorem timeSync (time : Word) (skew : Word) : Statement (.timeSync time skew) := fun _ _ _ e => nomatch e
theorem reset (cold : Bool) (b : BootInfo) : Statement (.reset cold b) := fun _ _ _ e => nomatch e
theorem fatalError : Statement (.fatalError) := fun _ _ _ e => nomatch e
theorem frequencyChange (island : Nat) (mhz : Nat) (mv : Nat) (gate : Bool) : Statement (.frequencyChange island mhz mv gate) := fun _ _ _ e => nomatch e
theorem firmwareRefused (die : Nat) (addr : Word) : Statement (.firmwareRefused die addr) := fun _ _ _ e => nomatch e
theorem resolveRetry (die : Nat) (seq : Word) : Statement (.resolveRetry die seq) := fun _ _ _ e => nomatch e
theorem resolveRefuse (die : Nat) (seq : Word) : Statement (.resolveRefuse die seq) := fun _ _ _ e => nomatch e
theorem faultRingConsume (x : Word) : Statement (.faultRingConsume x) := fun _ _ _ e => nomatch e
theorem errorRingConsume (x : Word) : Statement (.errorRingConsume x) := fun _ _ _ e => nomatch e
theorem controlRegisterWrite (off : Nat) (size : Nat) (data : List Byte) : Statement (.controlRegisterWrite off size data) := fun _ _ _ e => nomatch e
theorem preempt : Statement (.preempt) := fun _ _ _ e => nomatch e
theorem kill : Statement (.kill) := fun _ _ _ e => nomatch e
theorem peertime : Statement (.peertime) := fun _ _ _ e => nomatch e
theorem endpoint : Statement (.endpoint) := fun _ _ _ e => nomatch e
theorem counters : Statement (.counters) := fun _ _ _ e => nomatch e
theorem ageing : Statement (.ageing) := fun _ _ _ e => nomatch e
theorem dump : Statement (.dump) := fun _ _ _ e => nomatch e
theorem attest : Statement (.attest) := fun _ _ _ e => nomatch e
theorem nameobj : Statement (.nameobj) := fun _ _ _ e => nomatch e
theorem killobj : Statement (.killobj) := fun _ _ _ e => nomatch e
theorem hostMemorySnoop (pa : Nat) (invalidate : Bool) : Statement (.hostMemorySnoop pa invalidate) := fun _ _ _ e => nomatch e

end Sys2Proof.Laws.KnownMajor
end

