-- ==== Sys2Proof/Laws/State.lean ====
section
/-! SUPPORT. What each update of the state leaves as it was, field by field. -/

set_option Elab.async false

namespace Sys2Proof.Machine

open Sys2Proof

/-! ### A team -/

@[simp] theorem State.modTeam_agenda (s : State) (n : Nat) (f : Team → Team) : (s.modTeam n f).agenda = s.agenda := rfl
@[simp] theorem State.modTeam_freeN (s : State) (n : Nat) (f : Team → Team) : (s.modTeam n f).freeN = s.freeN := rfl
@[simp] theorem State.modTeam_seqN (s : State) (n : Nat) (f : Team → Team) : (s.modTeam n f).seqN = s.seqN := rfl
@[simp] theorem State.modTeam_turn (s : State) (n : Nat) (f : Team → Team) : (s.modTeam n f).turn = s.turn := rfl
@[simp] theorem State.modTeam_now (s : State) (n : Nat) (f : Team → Team) : (s.modTeam n f).now = s.now := rfl
@[simp] theorem State.modTeam_issuing (s : State) (n : Nat) (f : Team → Team) : (s.modTeam n f).issuing = s.issuing := rfl
@[simp] theorem State.modTeam_served (s : State) (n : Nat) (f : Team → Team) : (s.modTeam n f).served = s.served := rfl
@[simp] theorem State.modTeam_time (s : State) (n : Nat) (f : Team → Team) : (s.modTeam n f).time = s.time := rfl
@[simp] theorem State.modTeam_skew (s : State) (n : Nat) (f : Team → Team) : (s.modTeam n f).skew = s.skew := rfl
@[simp] theorem State.modTeam_mem (s : State) (n : Nat) (f : Team → Team) : (s.modTeam n f).mem = s.mem := rfl
@[simp] theorem State.modTeam_tags (s : State) (n : Nat) (f : Team → Team) : (s.modTeam n f).tags = s.tags := rfl
@[simp] theorem State.modTeam_poison (s : State) (n : Nat) (f : Team → Team) : (s.modTeam n f).poison = s.poison := rfl
@[simp] theorem State.modTeam_blocks (s : State) (n : Nat) (f : Team → Team) : (s.modTeam n f).blocks = s.blocks := rfl
@[simp] theorem State.modTeam_cdir (s : State) (n : Nat) (f : Team → Team) : (s.modTeam n f).cdir = s.cdir := rfl
@[simp] theorem State.modTeam_hdir (s : State) (n : Nat) (f : Team → Team) : (s.modTeam n f).hdir = s.hdir := rfl
@[simp] theorem State.modTeam_ev (s : State) (n : Nat) (f : Team → Team) : (s.modTeam n f).ev = s.ev := rfl
@[simp] theorem State.modTeam_stale (s : State) (n : Nat) (f : Team → Team) : (s.modTeam n f).stale = s.stale := rfl
@[simp] theorem State.modTeam_icache (s : State) (n : Nat) (f : Team → Team) : (s.modTeam n f).icache = s.icache := rfl
@[simp] theorem State.modTeam_tlb (s : State) (n : Nat) (f : Team → Team) : (s.modTeam n f).tlb = s.tlb := rfl
@[simp] theorem State.modTeam_walks (s : State) (n : Nat) (f : Team → Team) : (s.modTeam n f).walks = s.walks := rfl
@[simp] theorem State.modTeam_aliases (s : State) (n : Nat) (f : Team → Team) : (s.modTeam n f).aliases = s.aliases := rfl
@[simp] theorem State.modTeam_dirty (s : State) (n : Nat) (f : Team → Team) : (s.modTeam n f).dirty = s.dirty := rfl
@[simp] theorem State.modTeam_redQ (s : State) (n : Nat) (f : Team → Team) : (s.modTeam n f).redQ = s.redQ := rfl
@[simp] theorem State.modTeam_faults (s : State) (n : Nat) (f : Team → Team) : (s.modTeam n f).faults = s.faults := rfl
@[simp] theorem State.modTeam_faultSeq (s : State) (n : Nat) (f : Team → Team) : (s.modTeam n f).faultSeq = s.faultSeq := rfl
@[simp] theorem State.modTeam_banks (s : State) (n : Nat) (f : Team → Team) : (s.modTeam n f).banks = s.banks := rfl
@[simp] theorem State.modTeam_roster (s : State) (n : Nat) (f : Team → Team) : (s.modTeam n f).roster = s.roster := rfl
@[simp] theorem State.modTeam_nameCnt (s : State) (n : Nat) (f : Team → Team) : (s.modTeam n f).nameCnt = s.nameCnt := rfl
@[simp] theorem State.modTeam_serial (s : State) (n : Nat) (f : Team → Team) : (s.modTeam n f).serial = s.serial := rfl
@[simp] theorem State.modTeam_devno (s : State) (n : Nat) (f : Team → Team) : (s.modTeam n f).devno = s.devno := rfl
@[simp] theorem State.modTeam_accel (s : State) (n : Nat) (f : Team → Team) : (s.modTeam n f).accel = s.accel := rfl
@[simp] theorem State.modTeam_nameCache (s : State) (n : Nat) (f : Team → Team) : (s.modTeam n f).nameCache = s.nameCache := rfl
@[simp] theorem State.modTeam_launches (s : State) (n : Nat) (f : Team → Team) : (s.modTeam n f).launches = s.launches := rfl
@[simp] theorem State.modTeam_dispPos (s : State) (n : Nat) (f : Team → Team) : (s.modTeam n f).dispPos = s.dispPos := rfl
@[simp] theorem State.modTeam_accs (s : State) (n : Nat) (f : Team → Team) : (s.modTeam n f).accs = s.accs := rfl
@[simp] theorem State.modTeam_cmds (s : State) (n : Nat) (f : Team → Team) : (s.modTeam n f).cmds = s.cmds := rfl
@[simp] theorem State.modTeam_spills (s : State) (n : Nat) (f : Team → Team) : (s.modTeam n f).spills = s.spills := rfl
@[simp] theorem State.modTeam_fetched (s : State) (n : Nat) (f : Team → Team) : (s.modTeam n f).fetched = s.fetched := rfl
@[simp] theorem State.modTeam_mmas (s : State) (n : Nat) (f : Team → Team) : (s.modTeam n f).mmas = s.mmas := rfl
@[simp] theorem State.modTeam_runs (s : State) (n : Nat) (f : Team → Team) : (s.modTeam n f).runs = s.runs := rfl
@[simp] theorem State.modTeam_heldMsgs (s : State) (n : Nat) (f : Team → Team) : (s.modTeam n f).heldMsgs = s.heldMsgs := rfl
@[simp] theorem State.modTeam_readies (s : State) (n : Nat) (f : Team → Team) : (s.modTeam n f).readies = s.readies := rfl
@[simp] theorem State.modTeam_cells (s : State) (n : Nat) (f : Team → Team) : (s.modTeam n f).cells = s.cells := rfl
@[simp] theorem State.modTeam_peerOut (s : State) (n : Nat) (f : Team → Team) : (s.modTeam n f).peerOut = s.peerOut := rfl
@[simp] theorem State.modTeam_peerIn (s : State) (n : Nat) (f : Team → Team) : (s.modTeam n f).peerIn = s.peerIn := rfl
@[simp] theorem State.modTeam_kept (s : State) (n : Nat) (f : Team → Team) : (s.modTeam n f).kept = s.kept := rfl
@[simp] theorem State.modTeam_peerTimeouts (s : State) (n : Nat) (f : Team → Team) : (s.modTeam n f).peerTimeouts = s.peerTimeouts := rfl
@[simp] theorem State.modTeam_peerMake (s : State) (n : Nat) (f : Team → Team) : (s.modTeam n f).peerMake = s.peerMake := rfl
@[simp] theorem State.modTeam_peerSeq (s : State) (n : Nat) (f : Team → Team) : (s.modTeam n f).peerSeq = s.peerSeq := rfl
@[simp] theorem State.modTeam_msgSeq (s : State) (n : Nat) (f : Team → Team) : (s.modTeam n f).msgSeq = s.msgSeq := rfl
@[simp] theorem State.modTeam_portsUp (s : State) (n : Nat) (f : Team → Team) : (s.modTeam n f).portsUp = s.portsUp := rfl
@[simp] theorem State.modTeam_endpoints (s : State) (n : Nat) (f : Team → Team) : (s.modTeam n f).endpoints = s.endpoints := rfl
@[simp] theorem State.modTeam_errBuf (s : State) (n : Nat) (f : Team → Team) : (s.modTeam n f).errBuf = s.errBuf := rfl
@[simp] theorem State.modTeam_errSeq (s : State) (n : Nat) (f : Team → Team) : (s.modTeam n f).errSeq = s.errSeq := rfl
@[simp] theorem State.modTeam_ctrl (s : State) (n : Nat) (f : Team → Team) : (s.modTeam n f).ctrl = s.ctrl := rfl
@[simp] theorem State.modTeam_counters (s : State) (n : Nat) (f : Team → Team) : (s.modTeam n f).counters = s.counters := rfl
@[simp] theorem State.modTeam_dumped (s : State) (n : Nat) (f : Team → Team) : (s.modTeam n f).dumped = s.dumped := rfl
@[simp] theorem State.modTeam_rollback (s : State) (n : Nat) (f : Team → Team) : (s.modTeam n f).rollback = s.rollback := rfl
@[simp] theorem State.modTeam_measure (s : State) (n : Nat) (f : Team → Team) : (s.modTeam n f).measure = s.measure := rfl
@[simp] theorem State.modTeam_islands (s : State) (n : Nat) (f : Team → Team) : (s.modTeam n f).islands = s.islands := rfl
@[simp] theorem State.modTeam_hostOut (s : State) (n : Nat) (f : Team → Team) : (s.modTeam n f).hostOut = s.hostOut := rfl
@[simp] theorem State.modTeam_hostHeld (s : State) (n : Nat) (f : Team → Team) : (s.modTeam n f).hostHeld = s.hostHeld := rfl
@[simp] theorem State.modTeam_upsets (s : State) (n : Nat) (f : Team → Team) : (s.modTeam n f).upsets = s.upsets := rfl
@[simp] theorem State.modTeam_stopped (s : State) (n : Nat) (f : Team → Team) : (s.modTeam n f).stopped = s.stopped := rfl

/-! ### A group -/

@[simp] theorem State.modGroup_agenda (s : State) (r : GRef) (f : Group → Group) : (s.modGroup r f).agenda = s.agenda := rfl
@[simp] theorem State.modGroup_freeN (s : State) (r : GRef) (f : Group → Group) : (s.modGroup r f).freeN = s.freeN := rfl
@[simp] theorem State.modGroup_seqN (s : State) (r : GRef) (f : Group → Group) : (s.modGroup r f).seqN = s.seqN := rfl
@[simp] theorem State.modGroup_turn (s : State) (r : GRef) (f : Group → Group) : (s.modGroup r f).turn = s.turn := rfl
@[simp] theorem State.modGroup_now (s : State) (r : GRef) (f : Group → Group) : (s.modGroup r f).now = s.now := rfl
@[simp] theorem State.modGroup_issuing (s : State) (r : GRef) (f : Group → Group) : (s.modGroup r f).issuing = s.issuing := rfl
@[simp] theorem State.modGroup_served (s : State) (r : GRef) (f : Group → Group) : (s.modGroup r f).served = s.served := rfl
@[simp] theorem State.modGroup_time (s : State) (r : GRef) (f : Group → Group) : (s.modGroup r f).time = s.time := rfl
@[simp] theorem State.modGroup_skew (s : State) (r : GRef) (f : Group → Group) : (s.modGroup r f).skew = s.skew := rfl
@[simp] theorem State.modGroup_mem (s : State) (r : GRef) (f : Group → Group) : (s.modGroup r f).mem = s.mem := rfl
@[simp] theorem State.modGroup_tags (s : State) (r : GRef) (f : Group → Group) : (s.modGroup r f).tags = s.tags := rfl
@[simp] theorem State.modGroup_poison (s : State) (r : GRef) (f : Group → Group) : (s.modGroup r f).poison = s.poison := rfl
@[simp] theorem State.modGroup_blocks (s : State) (r : GRef) (f : Group → Group) : (s.modGroup r f).blocks = s.blocks := rfl
@[simp] theorem State.modGroup_cdir (s : State) (r : GRef) (f : Group → Group) : (s.modGroup r f).cdir = s.cdir := rfl
@[simp] theorem State.modGroup_hdir (s : State) (r : GRef) (f : Group → Group) : (s.modGroup r f).hdir = s.hdir := rfl
@[simp] theorem State.modGroup_ev (s : State) (r : GRef) (f : Group → Group) : (s.modGroup r f).ev = s.ev := rfl
@[simp] theorem State.modGroup_stale (s : State) (r : GRef) (f : Group → Group) : (s.modGroup r f).stale = s.stale := rfl
@[simp] theorem State.modGroup_icache (s : State) (r : GRef) (f : Group → Group) : (s.modGroup r f).icache = s.icache := rfl
@[simp] theorem State.modGroup_tlb (s : State) (r : GRef) (f : Group → Group) : (s.modGroup r f).tlb = s.tlb := rfl
@[simp] theorem State.modGroup_walks (s : State) (r : GRef) (f : Group → Group) : (s.modGroup r f).walks = s.walks := rfl
@[simp] theorem State.modGroup_aliases (s : State) (r : GRef) (f : Group → Group) : (s.modGroup r f).aliases = s.aliases := rfl
@[simp] theorem State.modGroup_dirty (s : State) (r : GRef) (f : Group → Group) : (s.modGroup r f).dirty = s.dirty := rfl
@[simp] theorem State.modGroup_redQ (s : State) (r : GRef) (f : Group → Group) : (s.modGroup r f).redQ = s.redQ := rfl
@[simp] theorem State.modGroup_faults (s : State) (r : GRef) (f : Group → Group) : (s.modGroup r f).faults = s.faults := rfl
@[simp] theorem State.modGroup_faultSeq (s : State) (r : GRef) (f : Group → Group) : (s.modGroup r f).faultSeq = s.faultSeq := rfl
@[simp] theorem State.modGroup_banks (s : State) (r : GRef) (f : Group → Group) : (s.modGroup r f).banks = s.banks := rfl
@[simp] theorem State.modGroup_roster (s : State) (r : GRef) (f : Group → Group) : (s.modGroup r f).roster = s.roster := rfl
@[simp] theorem State.modGroup_nameCnt (s : State) (r : GRef) (f : Group → Group) : (s.modGroup r f).nameCnt = s.nameCnt := rfl
@[simp] theorem State.modGroup_serial (s : State) (r : GRef) (f : Group → Group) : (s.modGroup r f).serial = s.serial := rfl
@[simp] theorem State.modGroup_devno (s : State) (r : GRef) (f : Group → Group) : (s.modGroup r f).devno = s.devno := rfl
@[simp] theorem State.modGroup_accel (s : State) (r : GRef) (f : Group → Group) : (s.modGroup r f).accel = s.accel := rfl
@[simp] theorem State.modGroup_nameCache (s : State) (r : GRef) (f : Group → Group) : (s.modGroup r f).nameCache = s.nameCache := rfl
@[simp] theorem State.modGroup_launches (s : State) (r : GRef) (f : Group → Group) : (s.modGroup r f).launches = s.launches := rfl
@[simp] theorem State.modGroup_dispPos (s : State) (r : GRef) (f : Group → Group) : (s.modGroup r f).dispPos = s.dispPos := rfl
@[simp] theorem State.modGroup_accs (s : State) (r : GRef) (f : Group → Group) : (s.modGroup r f).accs = s.accs := rfl
@[simp] theorem State.modGroup_cmds (s : State) (r : GRef) (f : Group → Group) : (s.modGroup r f).cmds = s.cmds := rfl
@[simp] theorem State.modGroup_spills (s : State) (r : GRef) (f : Group → Group) : (s.modGroup r f).spills = s.spills := rfl
@[simp] theorem State.modGroup_fetched (s : State) (r : GRef) (f : Group → Group) : (s.modGroup r f).fetched = s.fetched := rfl
@[simp] theorem State.modGroup_mmas (s : State) (r : GRef) (f : Group → Group) : (s.modGroup r f).mmas = s.mmas := rfl
@[simp] theorem State.modGroup_runs (s : State) (r : GRef) (f : Group → Group) : (s.modGroup r f).runs = s.runs := rfl
@[simp] theorem State.modGroup_heldMsgs (s : State) (r : GRef) (f : Group → Group) : (s.modGroup r f).heldMsgs = s.heldMsgs := rfl
@[simp] theorem State.modGroup_readies (s : State) (r : GRef) (f : Group → Group) : (s.modGroup r f).readies = s.readies := rfl
@[simp] theorem State.modGroup_cells (s : State) (r : GRef) (f : Group → Group) : (s.modGroup r f).cells = s.cells := rfl
@[simp] theorem State.modGroup_peerOut (s : State) (r : GRef) (f : Group → Group) : (s.modGroup r f).peerOut = s.peerOut := rfl
@[simp] theorem State.modGroup_peerIn (s : State) (r : GRef) (f : Group → Group) : (s.modGroup r f).peerIn = s.peerIn := rfl
@[simp] theorem State.modGroup_kept (s : State) (r : GRef) (f : Group → Group) : (s.modGroup r f).kept = s.kept := rfl
@[simp] theorem State.modGroup_peerTimeouts (s : State) (r : GRef) (f : Group → Group) : (s.modGroup r f).peerTimeouts = s.peerTimeouts := rfl
@[simp] theorem State.modGroup_peerMake (s : State) (r : GRef) (f : Group → Group) : (s.modGroup r f).peerMake = s.peerMake := rfl
@[simp] theorem State.modGroup_peerSeq (s : State) (r : GRef) (f : Group → Group) : (s.modGroup r f).peerSeq = s.peerSeq := rfl
@[simp] theorem State.modGroup_msgSeq (s : State) (r : GRef) (f : Group → Group) : (s.modGroup r f).msgSeq = s.msgSeq := rfl
@[simp] theorem State.modGroup_portsUp (s : State) (r : GRef) (f : Group → Group) : (s.modGroup r f).portsUp = s.portsUp := rfl
@[simp] theorem State.modGroup_endpoints (s : State) (r : GRef) (f : Group → Group) : (s.modGroup r f).endpoints = s.endpoints := rfl
@[simp] theorem State.modGroup_errBuf (s : State) (r : GRef) (f : Group → Group) : (s.modGroup r f).errBuf = s.errBuf := rfl
@[simp] theorem State.modGroup_errSeq (s : State) (r : GRef) (f : Group → Group) : (s.modGroup r f).errSeq = s.errSeq := rfl
@[simp] theorem State.modGroup_ctrl (s : State) (r : GRef) (f : Group → Group) : (s.modGroup r f).ctrl = s.ctrl := rfl
@[simp] theorem State.modGroup_counters (s : State) (r : GRef) (f : Group → Group) : (s.modGroup r f).counters = s.counters := rfl
@[simp] theorem State.modGroup_dumped (s : State) (r : GRef) (f : Group → Group) : (s.modGroup r f).dumped = s.dumped := rfl
@[simp] theorem State.modGroup_rollback (s : State) (r : GRef) (f : Group → Group) : (s.modGroup r f).rollback = s.rollback := rfl
@[simp] theorem State.modGroup_measure (s : State) (r : GRef) (f : Group → Group) : (s.modGroup r f).measure = s.measure := rfl
@[simp] theorem State.modGroup_islands (s : State) (r : GRef) (f : Group → Group) : (s.modGroup r f).islands = s.islands := rfl
@[simp] theorem State.modGroup_hostOut (s : State) (r : GRef) (f : Group → Group) : (s.modGroup r f).hostOut = s.hostOut := rfl
@[simp] theorem State.modGroup_hostHeld (s : State) (r : GRef) (f : Group → Group) : (s.modGroup r f).hostHeld = s.hostHeld := rfl
@[simp] theorem State.modGroup_upsets (s : State) (r : GRef) (f : Group → Group) : (s.modGroup r f).upsets = s.upsets := rfl
@[simp] theorem State.modGroup_stopped (s : State) (r : GRef) (f : Group → Group) : (s.modGroup r f).stopped = s.stopped := rfl

/-! ### A launch -/

@[simp] theorem State.modLaunch_agenda (s : State) (n : Nat) (f : Launch → Launch) : (s.modLaunch n f).agenda = s.agenda := rfl
@[simp] theorem State.modLaunch_freeN (s : State) (n : Nat) (f : Launch → Launch) : (s.modLaunch n f).freeN = s.freeN := rfl
@[simp] theorem State.modLaunch_seqN (s : State) (n : Nat) (f : Launch → Launch) : (s.modLaunch n f).seqN = s.seqN := rfl
@[simp] theorem State.modLaunch_turn (s : State) (n : Nat) (f : Launch → Launch) : (s.modLaunch n f).turn = s.turn := rfl
@[simp] theorem State.modLaunch_now (s : State) (n : Nat) (f : Launch → Launch) : (s.modLaunch n f).now = s.now := rfl
@[simp] theorem State.modLaunch_issuing (s : State) (n : Nat) (f : Launch → Launch) : (s.modLaunch n f).issuing = s.issuing := rfl
@[simp] theorem State.modLaunch_served (s : State) (n : Nat) (f : Launch → Launch) : (s.modLaunch n f).served = s.served := rfl
@[simp] theorem State.modLaunch_time (s : State) (n : Nat) (f : Launch → Launch) : (s.modLaunch n f).time = s.time := rfl
@[simp] theorem State.modLaunch_skew (s : State) (n : Nat) (f : Launch → Launch) : (s.modLaunch n f).skew = s.skew := rfl
@[simp] theorem State.modLaunch_mem (s : State) (n : Nat) (f : Launch → Launch) : (s.modLaunch n f).mem = s.mem := rfl
@[simp] theorem State.modLaunch_tags (s : State) (n : Nat) (f : Launch → Launch) : (s.modLaunch n f).tags = s.tags := rfl
@[simp] theorem State.modLaunch_poison (s : State) (n : Nat) (f : Launch → Launch) : (s.modLaunch n f).poison = s.poison := rfl
@[simp] theorem State.modLaunch_blocks (s : State) (n : Nat) (f : Launch → Launch) : (s.modLaunch n f).blocks = s.blocks := rfl
@[simp] theorem State.modLaunch_cdir (s : State) (n : Nat) (f : Launch → Launch) : (s.modLaunch n f).cdir = s.cdir := rfl
@[simp] theorem State.modLaunch_hdir (s : State) (n : Nat) (f : Launch → Launch) : (s.modLaunch n f).hdir = s.hdir := rfl
@[simp] theorem State.modLaunch_ev (s : State) (n : Nat) (f : Launch → Launch) : (s.modLaunch n f).ev = s.ev := rfl
@[simp] theorem State.modLaunch_stale (s : State) (n : Nat) (f : Launch → Launch) : (s.modLaunch n f).stale = s.stale := rfl
@[simp] theorem State.modLaunch_icache (s : State) (n : Nat) (f : Launch → Launch) : (s.modLaunch n f).icache = s.icache := rfl
@[simp] theorem State.modLaunch_tlb (s : State) (n : Nat) (f : Launch → Launch) : (s.modLaunch n f).tlb = s.tlb := rfl
@[simp] theorem State.modLaunch_walks (s : State) (n : Nat) (f : Launch → Launch) : (s.modLaunch n f).walks = s.walks := rfl
@[simp] theorem State.modLaunch_aliases (s : State) (n : Nat) (f : Launch → Launch) : (s.modLaunch n f).aliases = s.aliases := rfl
@[simp] theorem State.modLaunch_dirty (s : State) (n : Nat) (f : Launch → Launch) : (s.modLaunch n f).dirty = s.dirty := rfl
@[simp] theorem State.modLaunch_redQ (s : State) (n : Nat) (f : Launch → Launch) : (s.modLaunch n f).redQ = s.redQ := rfl
@[simp] theorem State.modLaunch_faults (s : State) (n : Nat) (f : Launch → Launch) : (s.modLaunch n f).faults = s.faults := rfl
@[simp] theorem State.modLaunch_faultSeq (s : State) (n : Nat) (f : Launch → Launch) : (s.modLaunch n f).faultSeq = s.faultSeq := rfl
@[simp] theorem State.modLaunch_banks (s : State) (n : Nat) (f : Launch → Launch) : (s.modLaunch n f).banks = s.banks := rfl
@[simp] theorem State.modLaunch_roster (s : State) (n : Nat) (f : Launch → Launch) : (s.modLaunch n f).roster = s.roster := rfl
@[simp] theorem State.modLaunch_nameCnt (s : State) (n : Nat) (f : Launch → Launch) : (s.modLaunch n f).nameCnt = s.nameCnt := rfl
@[simp] theorem State.modLaunch_serial (s : State) (n : Nat) (f : Launch → Launch) : (s.modLaunch n f).serial = s.serial := rfl
@[simp] theorem State.modLaunch_devno (s : State) (n : Nat) (f : Launch → Launch) : (s.modLaunch n f).devno = s.devno := rfl
@[simp] theorem State.modLaunch_accel (s : State) (n : Nat) (f : Launch → Launch) : (s.modLaunch n f).accel = s.accel := rfl
@[simp] theorem State.modLaunch_nameCache (s : State) (n : Nat) (f : Launch → Launch) : (s.modLaunch n f).nameCache = s.nameCache := rfl
@[simp] theorem State.modLaunch_teams (s : State) (n : Nat) (f : Launch → Launch) : (s.modLaunch n f).teams = s.teams := rfl
@[simp] theorem State.modLaunch_dispPos (s : State) (n : Nat) (f : Launch → Launch) : (s.modLaunch n f).dispPos = s.dispPos := rfl
@[simp] theorem State.modLaunch_accs (s : State) (n : Nat) (f : Launch → Launch) : (s.modLaunch n f).accs = s.accs := rfl
@[simp] theorem State.modLaunch_cmds (s : State) (n : Nat) (f : Launch → Launch) : (s.modLaunch n f).cmds = s.cmds := rfl
@[simp] theorem State.modLaunch_spills (s : State) (n : Nat) (f : Launch → Launch) : (s.modLaunch n f).spills = s.spills := rfl
@[simp] theorem State.modLaunch_fetched (s : State) (n : Nat) (f : Launch → Launch) : (s.modLaunch n f).fetched = s.fetched := rfl
@[simp] theorem State.modLaunch_mmas (s : State) (n : Nat) (f : Launch → Launch) : (s.modLaunch n f).mmas = s.mmas := rfl
@[simp] theorem State.modLaunch_runs (s : State) (n : Nat) (f : Launch → Launch) : (s.modLaunch n f).runs = s.runs := rfl
@[simp] theorem State.modLaunch_heldMsgs (s : State) (n : Nat) (f : Launch → Launch) : (s.modLaunch n f).heldMsgs = s.heldMsgs := rfl
@[simp] theorem State.modLaunch_readies (s : State) (n : Nat) (f : Launch → Launch) : (s.modLaunch n f).readies = s.readies := rfl
@[simp] theorem State.modLaunch_cells (s : State) (n : Nat) (f : Launch → Launch) : (s.modLaunch n f).cells = s.cells := rfl
@[simp] theorem State.modLaunch_peerOut (s : State) (n : Nat) (f : Launch → Launch) : (s.modLaunch n f).peerOut = s.peerOut := rfl
@[simp] theorem State.modLaunch_peerIn (s : State) (n : Nat) (f : Launch → Launch) : (s.modLaunch n f).peerIn = s.peerIn := rfl
@[simp] theorem State.modLaunch_kept (s : State) (n : Nat) (f : Launch → Launch) : (s.modLaunch n f).kept = s.kept := rfl
@[simp] theorem State.modLaunch_peerTimeouts (s : State) (n : Nat) (f : Launch → Launch) : (s.modLaunch n f).peerTimeouts = s.peerTimeouts := rfl
@[simp] theorem State.modLaunch_peerMake (s : State) (n : Nat) (f : Launch → Launch) : (s.modLaunch n f).peerMake = s.peerMake := rfl
@[simp] theorem State.modLaunch_peerSeq (s : State) (n : Nat) (f : Launch → Launch) : (s.modLaunch n f).peerSeq = s.peerSeq := rfl
@[simp] theorem State.modLaunch_msgSeq (s : State) (n : Nat) (f : Launch → Launch) : (s.modLaunch n f).msgSeq = s.msgSeq := rfl
@[simp] theorem State.modLaunch_portsUp (s : State) (n : Nat) (f : Launch → Launch) : (s.modLaunch n f).portsUp = s.portsUp := rfl
@[simp] theorem State.modLaunch_endpoints (s : State) (n : Nat) (f : Launch → Launch) : (s.modLaunch n f).endpoints = s.endpoints := rfl
@[simp] theorem State.modLaunch_errBuf (s : State) (n : Nat) (f : Launch → Launch) : (s.modLaunch n f).errBuf = s.errBuf := rfl
@[simp] theorem State.modLaunch_errSeq (s : State) (n : Nat) (f : Launch → Launch) : (s.modLaunch n f).errSeq = s.errSeq := rfl
@[simp] theorem State.modLaunch_ctrl (s : State) (n : Nat) (f : Launch → Launch) : (s.modLaunch n f).ctrl = s.ctrl := rfl
@[simp] theorem State.modLaunch_counters (s : State) (n : Nat) (f : Launch → Launch) : (s.modLaunch n f).counters = s.counters := rfl
@[simp] theorem State.modLaunch_dumped (s : State) (n : Nat) (f : Launch → Launch) : (s.modLaunch n f).dumped = s.dumped := rfl
@[simp] theorem State.modLaunch_rollback (s : State) (n : Nat) (f : Launch → Launch) : (s.modLaunch n f).rollback = s.rollback := rfl
@[simp] theorem State.modLaunch_measure (s : State) (n : Nat) (f : Launch → Launch) : (s.modLaunch n f).measure = s.measure := rfl
@[simp] theorem State.modLaunch_islands (s : State) (n : Nat) (f : Launch → Launch) : (s.modLaunch n f).islands = s.islands := rfl
@[simp] theorem State.modLaunch_hostOut (s : State) (n : Nat) (f : Launch → Launch) : (s.modLaunch n f).hostOut = s.hostOut := rfl
@[simp] theorem State.modLaunch_hostHeld (s : State) (n : Nat) (f : Launch → Launch) : (s.modLaunch n f).hostHeld = s.hostHeld := rfl
@[simp] theorem State.modLaunch_upsets (s : State) (n : Nat) (f : Launch → Launch) : (s.modLaunch n f).upsets = s.upsets := rfl
@[simp] theorem State.modLaunch_stopped (s : State) (n : Nat) (f : Launch → Launch) : (s.modLaunch n f).stopped = s.stopped := rfl

/-! ### Memory -/

@[simp] theorem State.putMem_agenda (s : State) (a : Nat) (b : List Byte) : (s.putMem a b).agenda = s.agenda := rfl
@[simp] theorem State.putMem_freeN (s : State) (a : Nat) (b : List Byte) : (s.putMem a b).freeN = s.freeN := rfl
@[simp] theorem State.putMem_seqN (s : State) (a : Nat) (b : List Byte) : (s.putMem a b).seqN = s.seqN := rfl
@[simp] theorem State.putMem_turn (s : State) (a : Nat) (b : List Byte) : (s.putMem a b).turn = s.turn := rfl
@[simp] theorem State.putMem_now (s : State) (a : Nat) (b : List Byte) : (s.putMem a b).now = s.now := rfl
@[simp] theorem State.putMem_issuing (s : State) (a : Nat) (b : List Byte) : (s.putMem a b).issuing = s.issuing := rfl
@[simp] theorem State.putMem_served (s : State) (a : Nat) (b : List Byte) : (s.putMem a b).served = s.served := rfl
@[simp] theorem State.putMem_time (s : State) (a : Nat) (b : List Byte) : (s.putMem a b).time = s.time := rfl
@[simp] theorem State.putMem_skew (s : State) (a : Nat) (b : List Byte) : (s.putMem a b).skew = s.skew := rfl
@[simp] theorem State.putMem_tags (s : State) (a : Nat) (b : List Byte) : (s.putMem a b).tags = s.tags := rfl
@[simp] theorem State.putMem_poison (s : State) (a : Nat) (b : List Byte) : (s.putMem a b).poison = s.poison := rfl
@[simp] theorem State.putMem_blocks (s : State) (a : Nat) (b : List Byte) : (s.putMem a b).blocks = s.blocks := rfl
@[simp] theorem State.putMem_cdir (s : State) (a : Nat) (b : List Byte) : (s.putMem a b).cdir = s.cdir := rfl
@[simp] theorem State.putMem_hdir (s : State) (a : Nat) (b : List Byte) : (s.putMem a b).hdir = s.hdir := rfl
@[simp] theorem State.putMem_ev (s : State) (a : Nat) (b : List Byte) : (s.putMem a b).ev = s.ev := rfl
@[simp] theorem State.putMem_stale (s : State) (a : Nat) (b : List Byte) : (s.putMem a b).stale = s.stale := rfl
@[simp] theorem State.putMem_icache (s : State) (a : Nat) (b : List Byte) : (s.putMem a b).icache = s.icache := rfl
@[simp] theorem State.putMem_tlb (s : State) (a : Nat) (b : List Byte) : (s.putMem a b).tlb = s.tlb := rfl
@[simp] theorem State.putMem_walks (s : State) (a : Nat) (b : List Byte) : (s.putMem a b).walks = s.walks := rfl
@[simp] theorem State.putMem_aliases (s : State) (a : Nat) (b : List Byte) : (s.putMem a b).aliases = s.aliases := rfl
@[simp] theorem State.putMem_dirty (s : State) (a : Nat) (b : List Byte) : (s.putMem a b).dirty = s.dirty := rfl
@[simp] theorem State.putMem_redQ (s : State) (a : Nat) (b : List Byte) : (s.putMem a b).redQ = s.redQ := rfl
@[simp] theorem State.putMem_faults (s : State) (a : Nat) (b : List Byte) : (s.putMem a b).faults = s.faults := rfl
@[simp] theorem State.putMem_faultSeq (s : State) (a : Nat) (b : List Byte) : (s.putMem a b).faultSeq = s.faultSeq := rfl
@[simp] theorem State.putMem_banks (s : State) (a : Nat) (b : List Byte) : (s.putMem a b).banks = s.banks := rfl
@[simp] theorem State.putMem_roster (s : State) (a : Nat) (b : List Byte) : (s.putMem a b).roster = s.roster := rfl
@[simp] theorem State.putMem_nameCnt (s : State) (a : Nat) (b : List Byte) : (s.putMem a b).nameCnt = s.nameCnt := rfl
@[simp] theorem State.putMem_serial (s : State) (a : Nat) (b : List Byte) : (s.putMem a b).serial = s.serial := rfl
@[simp] theorem State.putMem_devno (s : State) (a : Nat) (b : List Byte) : (s.putMem a b).devno = s.devno := rfl
@[simp] theorem State.putMem_accel (s : State) (a : Nat) (b : List Byte) : (s.putMem a b).accel = s.accel := rfl
@[simp] theorem State.putMem_nameCache (s : State) (a : Nat) (b : List Byte) : (s.putMem a b).nameCache = s.nameCache := rfl
@[simp] theorem State.putMem_launches (s : State) (a : Nat) (b : List Byte) : (s.putMem a b).launches = s.launches := rfl
@[simp] theorem State.putMem_teams (s : State) (a : Nat) (b : List Byte) : (s.putMem a b).teams = s.teams := rfl
@[simp] theorem State.putMem_dispPos (s : State) (a : Nat) (b : List Byte) : (s.putMem a b).dispPos = s.dispPos := rfl
@[simp] theorem State.putMem_accs (s : State) (a : Nat) (b : List Byte) : (s.putMem a b).accs = s.accs := rfl
@[simp] theorem State.putMem_cmds (s : State) (a : Nat) (b : List Byte) : (s.putMem a b).cmds = s.cmds := rfl
@[simp] theorem State.putMem_spills (s : State) (a : Nat) (b : List Byte) : (s.putMem a b).spills = s.spills := rfl
@[simp] theorem State.putMem_fetched (s : State) (a : Nat) (b : List Byte) : (s.putMem a b).fetched = s.fetched := rfl
@[simp] theorem State.putMem_mmas (s : State) (a : Nat) (b : List Byte) : (s.putMem a b).mmas = s.mmas := rfl
@[simp] theorem State.putMem_runs (s : State) (a : Nat) (b : List Byte) : (s.putMem a b).runs = s.runs := rfl
@[simp] theorem State.putMem_heldMsgs (s : State) (a : Nat) (b : List Byte) : (s.putMem a b).heldMsgs = s.heldMsgs := rfl
@[simp] theorem State.putMem_readies (s : State) (a : Nat) (b : List Byte) : (s.putMem a b).readies = s.readies := rfl
@[simp] theorem State.putMem_cells (s : State) (a : Nat) (b : List Byte) : (s.putMem a b).cells = s.cells := rfl
@[simp] theorem State.putMem_peerOut (s : State) (a : Nat) (b : List Byte) : (s.putMem a b).peerOut = s.peerOut := rfl
@[simp] theorem State.putMem_peerIn (s : State) (a : Nat) (b : List Byte) : (s.putMem a b).peerIn = s.peerIn := rfl
@[simp] theorem State.putMem_kept (s : State) (a : Nat) (b : List Byte) : (s.putMem a b).kept = s.kept := rfl
@[simp] theorem State.putMem_peerTimeouts (s : State) (a : Nat) (b : List Byte) : (s.putMem a b).peerTimeouts = s.peerTimeouts := rfl
@[simp] theorem State.putMem_peerMake (s : State) (a : Nat) (b : List Byte) : (s.putMem a b).peerMake = s.peerMake := rfl
@[simp] theorem State.putMem_peerSeq (s : State) (a : Nat) (b : List Byte) : (s.putMem a b).peerSeq = s.peerSeq := rfl
@[simp] theorem State.putMem_msgSeq (s : State) (a : Nat) (b : List Byte) : (s.putMem a b).msgSeq = s.msgSeq := rfl
@[simp] theorem State.putMem_portsUp (s : State) (a : Nat) (b : List Byte) : (s.putMem a b).portsUp = s.portsUp := rfl
@[simp] theorem State.putMem_endpoints (s : State) (a : Nat) (b : List Byte) : (s.putMem a b).endpoints = s.endpoints := rfl
@[simp] theorem State.putMem_errBuf (s : State) (a : Nat) (b : List Byte) : (s.putMem a b).errBuf = s.errBuf := rfl
@[simp] theorem State.putMem_errSeq (s : State) (a : Nat) (b : List Byte) : (s.putMem a b).errSeq = s.errSeq := rfl
@[simp] theorem State.putMem_ctrl (s : State) (a : Nat) (b : List Byte) : (s.putMem a b).ctrl = s.ctrl := rfl
@[simp] theorem State.putMem_counters (s : State) (a : Nat) (b : List Byte) : (s.putMem a b).counters = s.counters := rfl
@[simp] theorem State.putMem_dumped (s : State) (a : Nat) (b : List Byte) : (s.putMem a b).dumped = s.dumped := rfl
@[simp] theorem State.putMem_rollback (s : State) (a : Nat) (b : List Byte) : (s.putMem a b).rollback = s.rollback := rfl
@[simp] theorem State.putMem_measure (s : State) (a : Nat) (b : List Byte) : (s.putMem a b).measure = s.measure := rfl
@[simp] theorem State.putMem_islands (s : State) (a : Nat) (b : List Byte) : (s.putMem a b).islands = s.islands := rfl
@[simp] theorem State.putMem_hostOut (s : State) (a : Nat) (b : List Byte) : (s.putMem a b).hostOut = s.hostOut := rfl
@[simp] theorem State.putMem_hostHeld (s : State) (a : Nat) (b : List Byte) : (s.putMem a b).hostHeld = s.hostHeld := rfl
@[simp] theorem State.putMem_upsets (s : State) (a : Nat) (b : List Byte) : (s.putMem a b).upsets = s.upsets := rfl
@[simp] theorem State.putMem_stopped (s : State) (a : Nat) (b : List Byte) : (s.putMem a b).stopped = s.stopped := rfl

/-! ### A granule -/

@[simp] theorem putGran_agenda (s : State) (a : Nat) (g : Gran) : (putGran s a g).agenda = s.agenda := rfl
@[simp] theorem putGran_freeN (s : State) (a : Nat) (g : Gran) : (putGran s a g).freeN = s.freeN := rfl
@[simp] theorem putGran_seqN (s : State) (a : Nat) (g : Gran) : (putGran s a g).seqN = s.seqN := rfl
@[simp] theorem putGran_turn (s : State) (a : Nat) (g : Gran) : (putGran s a g).turn = s.turn := rfl
@[simp] theorem putGran_now (s : State) (a : Nat) (g : Gran) : (putGran s a g).now = s.now := rfl
@[simp] theorem putGran_issuing (s : State) (a : Nat) (g : Gran) : (putGran s a g).issuing = s.issuing := rfl
@[simp] theorem putGran_served (s : State) (a : Nat) (g : Gran) : (putGran s a g).served = s.served := rfl
@[simp] theorem putGran_time (s : State) (a : Nat) (g : Gran) : (putGran s a g).time = s.time := rfl
@[simp] theorem putGran_skew (s : State) (a : Nat) (g : Gran) : (putGran s a g).skew = s.skew := rfl
@[simp] theorem putGran_blocks (s : State) (a : Nat) (g : Gran) : (putGran s a g).blocks = s.blocks := rfl
@[simp] theorem putGran_cdir (s : State) (a : Nat) (g : Gran) : (putGran s a g).cdir = s.cdir := rfl
@[simp] theorem putGran_hdir (s : State) (a : Nat) (g : Gran) : (putGran s a g).hdir = s.hdir := rfl
@[simp] theorem putGran_ev (s : State) (a : Nat) (g : Gran) : (putGran s a g).ev = s.ev := rfl
@[simp] theorem putGran_stale (s : State) (a : Nat) (g : Gran) : (putGran s a g).stale = s.stale := rfl
@[simp] theorem putGran_icache (s : State) (a : Nat) (g : Gran) : (putGran s a g).icache = s.icache := rfl
@[simp] theorem putGran_tlb (s : State) (a : Nat) (g : Gran) : (putGran s a g).tlb = s.tlb := rfl
@[simp] theorem putGran_walks (s : State) (a : Nat) (g : Gran) : (putGran s a g).walks = s.walks := rfl
@[simp] theorem putGran_aliases (s : State) (a : Nat) (g : Gran) : (putGran s a g).aliases = s.aliases := rfl
@[simp] theorem putGran_dirty (s : State) (a : Nat) (g : Gran) : (putGran s a g).dirty = s.dirty := rfl
@[simp] theorem putGran_redQ (s : State) (a : Nat) (g : Gran) : (putGran s a g).redQ = s.redQ := rfl
@[simp] theorem putGran_faults (s : State) (a : Nat) (g : Gran) : (putGran s a g).faults = s.faults := rfl
@[simp] theorem putGran_faultSeq (s : State) (a : Nat) (g : Gran) : (putGran s a g).faultSeq = s.faultSeq := rfl
@[simp] theorem putGran_banks (s : State) (a : Nat) (g : Gran) : (putGran s a g).banks = s.banks := rfl
@[simp] theorem putGran_roster (s : State) (a : Nat) (g : Gran) : (putGran s a g).roster = s.roster := rfl
@[simp] theorem putGran_nameCnt (s : State) (a : Nat) (g : Gran) : (putGran s a g).nameCnt = s.nameCnt := rfl
@[simp] theorem putGran_serial (s : State) (a : Nat) (g : Gran) : (putGran s a g).serial = s.serial := rfl
@[simp] theorem putGran_devno (s : State) (a : Nat) (g : Gran) : (putGran s a g).devno = s.devno := rfl
@[simp] theorem putGran_accel (s : State) (a : Nat) (g : Gran) : (putGran s a g).accel = s.accel := rfl
@[simp] theorem putGran_nameCache (s : State) (a : Nat) (g : Gran) : (putGran s a g).nameCache = s.nameCache := rfl
@[simp] theorem putGran_launches (s : State) (a : Nat) (g : Gran) : (putGran s a g).launches = s.launches := rfl
@[simp] theorem putGran_teams (s : State) (a : Nat) (g : Gran) : (putGran s a g).teams = s.teams := rfl
@[simp] theorem putGran_dispPos (s : State) (a : Nat) (g : Gran) : (putGran s a g).dispPos = s.dispPos := rfl
@[simp] theorem putGran_accs (s : State) (a : Nat) (g : Gran) : (putGran s a g).accs = s.accs := rfl
@[simp] theorem putGran_cmds (s : State) (a : Nat) (g : Gran) : (putGran s a g).cmds = s.cmds := rfl
@[simp] theorem putGran_spills (s : State) (a : Nat) (g : Gran) : (putGran s a g).spills = s.spills := rfl
@[simp] theorem putGran_fetched (s : State) (a : Nat) (g : Gran) : (putGran s a g).fetched = s.fetched := rfl
@[simp] theorem putGran_mmas (s : State) (a : Nat) (g : Gran) : (putGran s a g).mmas = s.mmas := rfl
@[simp] theorem putGran_runs (s : State) (a : Nat) (g : Gran) : (putGran s a g).runs = s.runs := rfl
@[simp] theorem putGran_heldMsgs (s : State) (a : Nat) (g : Gran) : (putGran s a g).heldMsgs = s.heldMsgs := rfl
@[simp] theorem putGran_readies (s : State) (a : Nat) (g : Gran) : (putGran s a g).readies = s.readies := rfl
@[simp] theorem putGran_cells (s : State) (a : Nat) (g : Gran) : (putGran s a g).cells = s.cells := rfl
@[simp] theorem putGran_peerOut (s : State) (a : Nat) (g : Gran) : (putGran s a g).peerOut = s.peerOut := rfl
@[simp] theorem putGran_peerIn (s : State) (a : Nat) (g : Gran) : (putGran s a g).peerIn = s.peerIn := rfl
@[simp] theorem putGran_kept (s : State) (a : Nat) (g : Gran) : (putGran s a g).kept = s.kept := rfl
@[simp] theorem putGran_peerTimeouts (s : State) (a : Nat) (g : Gran) : (putGran s a g).peerTimeouts = s.peerTimeouts := rfl
@[simp] theorem putGran_peerMake (s : State) (a : Nat) (g : Gran) : (putGran s a g).peerMake = s.peerMake := rfl
@[simp] theorem putGran_peerSeq (s : State) (a : Nat) (g : Gran) : (putGran s a g).peerSeq = s.peerSeq := rfl
@[simp] theorem putGran_msgSeq (s : State) (a : Nat) (g : Gran) : (putGran s a g).msgSeq = s.msgSeq := rfl
@[simp] theorem putGran_portsUp (s : State) (a : Nat) (g : Gran) : (putGran s a g).portsUp = s.portsUp := rfl
@[simp] theorem putGran_endpoints (s : State) (a : Nat) (g : Gran) : (putGran s a g).endpoints = s.endpoints := rfl
@[simp] theorem putGran_errBuf (s : State) (a : Nat) (g : Gran) : (putGran s a g).errBuf = s.errBuf := rfl
@[simp] theorem putGran_errSeq (s : State) (a : Nat) (g : Gran) : (putGran s a g).errSeq = s.errSeq := rfl
@[simp] theorem putGran_ctrl (s : State) (a : Nat) (g : Gran) : (putGran s a g).ctrl = s.ctrl := rfl
@[simp] theorem putGran_counters (s : State) (a : Nat) (g : Gran) : (putGran s a g).counters = s.counters := rfl
@[simp] theorem putGran_dumped (s : State) (a : Nat) (g : Gran) : (putGran s a g).dumped = s.dumped := rfl
@[simp] theorem putGran_rollback (s : State) (a : Nat) (g : Gran) : (putGran s a g).rollback = s.rollback := rfl
@[simp] theorem putGran_measure (s : State) (a : Nat) (g : Gran) : (putGran s a g).measure = s.measure := rfl
@[simp] theorem putGran_islands (s : State) (a : Nat) (g : Gran) : (putGran s a g).islands = s.islands := rfl
@[simp] theorem putGran_hostOut (s : State) (a : Nat) (g : Gran) : (putGran s a g).hostOut = s.hostOut := rfl
@[simp] theorem putGran_hostHeld (s : State) (a : Nat) (g : Gran) : (putGran s a g).hostHeld = s.hostHeld := rfl
@[simp] theorem putGran_upsets (s : State) (a : Nat) (g : Gran) : (putGran s a g).upsets = s.upsets := rfl
@[simp] theorem putGran_stopped (s : State) (a : Nat) (g : Gran) : (putGran s a g).stopped = s.stopped := rfl

/-! ### An accumulator -/

@[simp] theorem State.modAcc_agenda (s : State) (n : Nat) (f : Acc → Acc) : (s.modAcc n f).agenda = s.agenda := by unfold State.modAcc; split <;> rfl
@[simp] theorem State.modAcc_freeN (s : State) (n : Nat) (f : Acc → Acc) : (s.modAcc n f).freeN = s.freeN := by unfold State.modAcc; split <;> rfl
@[simp] theorem State.modAcc_seqN (s : State) (n : Nat) (f : Acc → Acc) : (s.modAcc n f).seqN = s.seqN := by unfold State.modAcc; split <;> rfl
@[simp] theorem State.modAcc_turn (s : State) (n : Nat) (f : Acc → Acc) : (s.modAcc n f).turn = s.turn := by unfold State.modAcc; split <;> rfl
@[simp] theorem State.modAcc_now (s : State) (n : Nat) (f : Acc → Acc) : (s.modAcc n f).now = s.now := by unfold State.modAcc; split <;> rfl
@[simp] theorem State.modAcc_issuing (s : State) (n : Nat) (f : Acc → Acc) : (s.modAcc n f).issuing = s.issuing := by unfold State.modAcc; split <;> rfl
@[simp] theorem State.modAcc_served (s : State) (n : Nat) (f : Acc → Acc) : (s.modAcc n f).served = s.served := by unfold State.modAcc; split <;> rfl
@[simp] theorem State.modAcc_time (s : State) (n : Nat) (f : Acc → Acc) : (s.modAcc n f).time = s.time := by unfold State.modAcc; split <;> rfl
@[simp] theorem State.modAcc_skew (s : State) (n : Nat) (f : Acc → Acc) : (s.modAcc n f).skew = s.skew := by unfold State.modAcc; split <;> rfl
@[simp] theorem State.modAcc_mem (s : State) (n : Nat) (f : Acc → Acc) : (s.modAcc n f).mem = s.mem := by unfold State.modAcc; split <;> rfl
@[simp] theorem State.modAcc_tags (s : State) (n : Nat) (f : Acc → Acc) : (s.modAcc n f).tags = s.tags := by unfold State.modAcc; split <;> rfl
@[simp] theorem State.modAcc_poison (s : State) (n : Nat) (f : Acc → Acc) : (s.modAcc n f).poison = s.poison := by unfold State.modAcc; split <;> rfl
@[simp] theorem State.modAcc_blocks (s : State) (n : Nat) (f : Acc → Acc) : (s.modAcc n f).blocks = s.blocks := by unfold State.modAcc; split <;> rfl
@[simp] theorem State.modAcc_cdir (s : State) (n : Nat) (f : Acc → Acc) : (s.modAcc n f).cdir = s.cdir := by unfold State.modAcc; split <;> rfl
@[simp] theorem State.modAcc_hdir (s : State) (n : Nat) (f : Acc → Acc) : (s.modAcc n f).hdir = s.hdir := by unfold State.modAcc; split <;> rfl
@[simp] theorem State.modAcc_ev (s : State) (n : Nat) (f : Acc → Acc) : (s.modAcc n f).ev = s.ev := by unfold State.modAcc; split <;> rfl
@[simp] theorem State.modAcc_stale (s : State) (n : Nat) (f : Acc → Acc) : (s.modAcc n f).stale = s.stale := by unfold State.modAcc; split <;> rfl
@[simp] theorem State.modAcc_icache (s : State) (n : Nat) (f : Acc → Acc) : (s.modAcc n f).icache = s.icache := by unfold State.modAcc; split <;> rfl
@[simp] theorem State.modAcc_tlb (s : State) (n : Nat) (f : Acc → Acc) : (s.modAcc n f).tlb = s.tlb := by unfold State.modAcc; split <;> rfl
@[simp] theorem State.modAcc_walks (s : State) (n : Nat) (f : Acc → Acc) : (s.modAcc n f).walks = s.walks := by unfold State.modAcc; split <;> rfl
@[simp] theorem State.modAcc_aliases (s : State) (n : Nat) (f : Acc → Acc) : (s.modAcc n f).aliases = s.aliases := by unfold State.modAcc; split <;> rfl
@[simp] theorem State.modAcc_dirty (s : State) (n : Nat) (f : Acc → Acc) : (s.modAcc n f).dirty = s.dirty := by unfold State.modAcc; split <;> rfl
@[simp] theorem State.modAcc_redQ (s : State) (n : Nat) (f : Acc → Acc) : (s.modAcc n f).redQ = s.redQ := by unfold State.modAcc; split <;> rfl
@[simp] theorem State.modAcc_faults (s : State) (n : Nat) (f : Acc → Acc) : (s.modAcc n f).faults = s.faults := by unfold State.modAcc; split <;> rfl
@[simp] theorem State.modAcc_faultSeq (s : State) (n : Nat) (f : Acc → Acc) : (s.modAcc n f).faultSeq = s.faultSeq := by unfold State.modAcc; split <;> rfl
@[simp] theorem State.modAcc_banks (s : State) (n : Nat) (f : Acc → Acc) : (s.modAcc n f).banks = s.banks := by unfold State.modAcc; split <;> rfl
@[simp] theorem State.modAcc_roster (s : State) (n : Nat) (f : Acc → Acc) : (s.modAcc n f).roster = s.roster := by unfold State.modAcc; split <;> rfl
@[simp] theorem State.modAcc_nameCnt (s : State) (n : Nat) (f : Acc → Acc) : (s.modAcc n f).nameCnt = s.nameCnt := by unfold State.modAcc; split <;> rfl
@[simp] theorem State.modAcc_serial (s : State) (n : Nat) (f : Acc → Acc) : (s.modAcc n f).serial = s.serial := by unfold State.modAcc; split <;> rfl
@[simp] theorem State.modAcc_devno (s : State) (n : Nat) (f : Acc → Acc) : (s.modAcc n f).devno = s.devno := by unfold State.modAcc; split <;> rfl
@[simp] theorem State.modAcc_accel (s : State) (n : Nat) (f : Acc → Acc) : (s.modAcc n f).accel = s.accel := by unfold State.modAcc; split <;> rfl
@[simp] theorem State.modAcc_nameCache (s : State) (n : Nat) (f : Acc → Acc) : (s.modAcc n f).nameCache = s.nameCache := by unfold State.modAcc; split <;> rfl
@[simp] theorem State.modAcc_launches (s : State) (n : Nat) (f : Acc → Acc) : (s.modAcc n f).launches = s.launches := by unfold State.modAcc; split <;> rfl
@[simp] theorem State.modAcc_teams (s : State) (n : Nat) (f : Acc → Acc) : (s.modAcc n f).teams = s.teams := by unfold State.modAcc; split <;> rfl
@[simp] theorem State.modAcc_dispPos (s : State) (n : Nat) (f : Acc → Acc) : (s.modAcc n f).dispPos = s.dispPos := by unfold State.modAcc; split <;> rfl
@[simp] theorem State.modAcc_cmds (s : State) (n : Nat) (f : Acc → Acc) : (s.modAcc n f).cmds = s.cmds := by unfold State.modAcc; split <;> rfl
@[simp] theorem State.modAcc_spills (s : State) (n : Nat) (f : Acc → Acc) : (s.modAcc n f).spills = s.spills := by unfold State.modAcc; split <;> rfl
@[simp] theorem State.modAcc_fetched (s : State) (n : Nat) (f : Acc → Acc) : (s.modAcc n f).fetched = s.fetched := by unfold State.modAcc; split <;> rfl
@[simp] theorem State.modAcc_mmas (s : State) (n : Nat) (f : Acc → Acc) : (s.modAcc n f).mmas = s.mmas := by unfold State.modAcc; split <;> rfl
@[simp] theorem State.modAcc_runs (s : State) (n : Nat) (f : Acc → Acc) : (s.modAcc n f).runs = s.runs := by unfold State.modAcc; split <;> rfl
@[simp] theorem State.modAcc_heldMsgs (s : State) (n : Nat) (f : Acc → Acc) : (s.modAcc n f).heldMsgs = s.heldMsgs := by unfold State.modAcc; split <;> rfl
@[simp] theorem State.modAcc_readies (s : State) (n : Nat) (f : Acc → Acc) : (s.modAcc n f).readies = s.readies := by unfold State.modAcc; split <;> rfl
@[simp] theorem State.modAcc_cells (s : State) (n : Nat) (f : Acc → Acc) : (s.modAcc n f).cells = s.cells := by unfold State.modAcc; split <;> rfl
@[simp] theorem State.modAcc_peerOut (s : State) (n : Nat) (f : Acc → Acc) : (s.modAcc n f).peerOut = s.peerOut := by unfold State.modAcc; split <;> rfl
@[simp] theorem State.modAcc_peerIn (s : State) (n : Nat) (f : Acc → Acc) : (s.modAcc n f).peerIn = s.peerIn := by unfold State.modAcc; split <;> rfl
@[simp] theorem State.modAcc_kept (s : State) (n : Nat) (f : Acc → Acc) : (s.modAcc n f).kept = s.kept := by unfold State.modAcc; split <;> rfl
@[simp] theorem State.modAcc_peerTimeouts (s : State) (n : Nat) (f : Acc → Acc) : (s.modAcc n f).peerTimeouts = s.peerTimeouts := by unfold State.modAcc; split <;> rfl
@[simp] theorem State.modAcc_peerMake (s : State) (n : Nat) (f : Acc → Acc) : (s.modAcc n f).peerMake = s.peerMake := by unfold State.modAcc; split <;> rfl
@[simp] theorem State.modAcc_peerSeq (s : State) (n : Nat) (f : Acc → Acc) : (s.modAcc n f).peerSeq = s.peerSeq := by unfold State.modAcc; split <;> rfl
@[simp] theorem State.modAcc_msgSeq (s : State) (n : Nat) (f : Acc → Acc) : (s.modAcc n f).msgSeq = s.msgSeq := by unfold State.modAcc; split <;> rfl
@[simp] theorem State.modAcc_portsUp (s : State) (n : Nat) (f : Acc → Acc) : (s.modAcc n f).portsUp = s.portsUp := by unfold State.modAcc; split <;> rfl
@[simp] theorem State.modAcc_endpoints (s : State) (n : Nat) (f : Acc → Acc) : (s.modAcc n f).endpoints = s.endpoints := by unfold State.modAcc; split <;> rfl
@[simp] theorem State.modAcc_errBuf (s : State) (n : Nat) (f : Acc → Acc) : (s.modAcc n f).errBuf = s.errBuf := by unfold State.modAcc; split <;> rfl
@[simp] theorem State.modAcc_errSeq (s : State) (n : Nat) (f : Acc → Acc) : (s.modAcc n f).errSeq = s.errSeq := by unfold State.modAcc; split <;> rfl
@[simp] theorem State.modAcc_ctrl (s : State) (n : Nat) (f : Acc → Acc) : (s.modAcc n f).ctrl = s.ctrl := by unfold State.modAcc; split <;> rfl
@[simp] theorem State.modAcc_counters (s : State) (n : Nat) (f : Acc → Acc) : (s.modAcc n f).counters = s.counters := by unfold State.modAcc; split <;> rfl
@[simp] theorem State.modAcc_dumped (s : State) (n : Nat) (f : Acc → Acc) : (s.modAcc n f).dumped = s.dumped := by unfold State.modAcc; split <;> rfl
@[simp] theorem State.modAcc_rollback (s : State) (n : Nat) (f : Acc → Acc) : (s.modAcc n f).rollback = s.rollback := by unfold State.modAcc; split <;> rfl
@[simp] theorem State.modAcc_measure (s : State) (n : Nat) (f : Acc → Acc) : (s.modAcc n f).measure = s.measure := by unfold State.modAcc; split <;> rfl
@[simp] theorem State.modAcc_islands (s : State) (n : Nat) (f : Acc → Acc) : (s.modAcc n f).islands = s.islands := by unfold State.modAcc; split <;> rfl
@[simp] theorem State.modAcc_hostOut (s : State) (n : Nat) (f : Acc → Acc) : (s.modAcc n f).hostOut = s.hostOut := by unfold State.modAcc; split <;> rfl
@[simp] theorem State.modAcc_hostHeld (s : State) (n : Nat) (f : Acc → Acc) : (s.modAcc n f).hostHeld = s.hostHeld := by unfold State.modAcc; split <;> rfl
@[simp] theorem State.modAcc_upsets (s : State) (n : Nat) (f : Acc → Acc) : (s.modAcc n f).upsets = s.upsets := by unfold State.modAcc; split <;> rfl
@[simp] theorem State.modAcc_stopped (s : State) (n : Nat) (f : Acc → Acc) : (s.modAcc n f).stopped = s.stopped := by unfold State.modAcc; split <;> rfl

/-! ### A command -/

@[simp] theorem State.modCmd_agenda (s : State) (n : Nat) (f : Cmd → Cmd) : (s.modCmd n f).agenda = s.agenda := rfl
@[simp] theorem State.modCmd_freeN (s : State) (n : Nat) (f : Cmd → Cmd) : (s.modCmd n f).freeN = s.freeN := rfl
@[simp] theorem State.modCmd_seqN (s : State) (n : Nat) (f : Cmd → Cmd) : (s.modCmd n f).seqN = s.seqN := rfl
@[simp] theorem State.modCmd_turn (s : State) (n : Nat) (f : Cmd → Cmd) : (s.modCmd n f).turn = s.turn := rfl
@[simp] theorem State.modCmd_now (s : State) (n : Nat) (f : Cmd → Cmd) : (s.modCmd n f).now = s.now := rfl
@[simp] theorem State.modCmd_issuing (s : State) (n : Nat) (f : Cmd → Cmd) : (s.modCmd n f).issuing = s.issuing := rfl
@[simp] theorem State.modCmd_served (s : State) (n : Nat) (f : Cmd → Cmd) : (s.modCmd n f).served = s.served := rfl
@[simp] theorem State.modCmd_time (s : State) (n : Nat) (f : Cmd → Cmd) : (s.modCmd n f).time = s.time := rfl
@[simp] theorem State.modCmd_skew (s : State) (n : Nat) (f : Cmd → Cmd) : (s.modCmd n f).skew = s.skew := rfl
@[simp] theorem State.modCmd_mem (s : State) (n : Nat) (f : Cmd → Cmd) : (s.modCmd n f).mem = s.mem := rfl
@[simp] theorem State.modCmd_tags (s : State) (n : Nat) (f : Cmd → Cmd) : (s.modCmd n f).tags = s.tags := rfl
@[simp] theorem State.modCmd_poison (s : State) (n : Nat) (f : Cmd → Cmd) : (s.modCmd n f).poison = s.poison := rfl
@[simp] theorem State.modCmd_blocks (s : State) (n : Nat) (f : Cmd → Cmd) : (s.modCmd n f).blocks = s.blocks := rfl
@[simp] theorem State.modCmd_cdir (s : State) (n : Nat) (f : Cmd → Cmd) : (s.modCmd n f).cdir = s.cdir := rfl
@[simp] theorem State.modCmd_hdir (s : State) (n : Nat) (f : Cmd → Cmd) : (s.modCmd n f).hdir = s.hdir := rfl
@[simp] theorem State.modCmd_ev (s : State) (n : Nat) (f : Cmd → Cmd) : (s.modCmd n f).ev = s.ev := rfl
@[simp] theorem State.modCmd_stale (s : State) (n : Nat) (f : Cmd → Cmd) : (s.modCmd n f).stale = s.stale := rfl
@[simp] theorem State.modCmd_icache (s : State) (n : Nat) (f : Cmd → Cmd) : (s.modCmd n f).icache = s.icache := rfl
@[simp] theorem State.modCmd_tlb (s : State) (n : Nat) (f : Cmd → Cmd) : (s.modCmd n f).tlb = s.tlb := rfl
@[simp] theorem State.modCmd_walks (s : State) (n : Nat) (f : Cmd → Cmd) : (s.modCmd n f).walks = s.walks := rfl
@[simp] theorem State.modCmd_aliases (s : State) (n : Nat) (f : Cmd → Cmd) : (s.modCmd n f).aliases = s.aliases := rfl
@[simp] theorem State.modCmd_dirty (s : State) (n : Nat) (f : Cmd → Cmd) : (s.modCmd n f).dirty = s.dirty := rfl
@[simp] theorem State.modCmd_redQ (s : State) (n : Nat) (f : Cmd → Cmd) : (s.modCmd n f).redQ = s.redQ := rfl
@[simp] theorem State.modCmd_faults (s : State) (n : Nat) (f : Cmd → Cmd) : (s.modCmd n f).faults = s.faults := rfl
@[simp] theorem State.modCmd_faultSeq (s : State) (n : Nat) (f : Cmd → Cmd) : (s.modCmd n f).faultSeq = s.faultSeq := rfl
@[simp] theorem State.modCmd_banks (s : State) (n : Nat) (f : Cmd → Cmd) : (s.modCmd n f).banks = s.banks := rfl
@[simp] theorem State.modCmd_roster (s : State) (n : Nat) (f : Cmd → Cmd) : (s.modCmd n f).roster = s.roster := rfl
@[simp] theorem State.modCmd_nameCnt (s : State) (n : Nat) (f : Cmd → Cmd) : (s.modCmd n f).nameCnt = s.nameCnt := rfl
@[simp] theorem State.modCmd_serial (s : State) (n : Nat) (f : Cmd → Cmd) : (s.modCmd n f).serial = s.serial := rfl
@[simp] theorem State.modCmd_devno (s : State) (n : Nat) (f : Cmd → Cmd) : (s.modCmd n f).devno = s.devno := rfl
@[simp] theorem State.modCmd_accel (s : State) (n : Nat) (f : Cmd → Cmd) : (s.modCmd n f).accel = s.accel := rfl
@[simp] theorem State.modCmd_nameCache (s : State) (n : Nat) (f : Cmd → Cmd) : (s.modCmd n f).nameCache = s.nameCache := rfl
@[simp] theorem State.modCmd_launches (s : State) (n : Nat) (f : Cmd → Cmd) : (s.modCmd n f).launches = s.launches := rfl
@[simp] theorem State.modCmd_teams (s : State) (n : Nat) (f : Cmd → Cmd) : (s.modCmd n f).teams = s.teams := rfl
@[simp] theorem State.modCmd_dispPos (s : State) (n : Nat) (f : Cmd → Cmd) : (s.modCmd n f).dispPos = s.dispPos := rfl
@[simp] theorem State.modCmd_accs (s : State) (n : Nat) (f : Cmd → Cmd) : (s.modCmd n f).accs = s.accs := rfl
@[simp] theorem State.modCmd_spills (s : State) (n : Nat) (f : Cmd → Cmd) : (s.modCmd n f).spills = s.spills := rfl
@[simp] theorem State.modCmd_fetched (s : State) (n : Nat) (f : Cmd → Cmd) : (s.modCmd n f).fetched = s.fetched := rfl
@[simp] theorem State.modCmd_mmas (s : State) (n : Nat) (f : Cmd → Cmd) : (s.modCmd n f).mmas = s.mmas := rfl
@[simp] theorem State.modCmd_runs (s : State) (n : Nat) (f : Cmd → Cmd) : (s.modCmd n f).runs = s.runs := rfl
@[simp] theorem State.modCmd_heldMsgs (s : State) (n : Nat) (f : Cmd → Cmd) : (s.modCmd n f).heldMsgs = s.heldMsgs := rfl
@[simp] theorem State.modCmd_readies (s : State) (n : Nat) (f : Cmd → Cmd) : (s.modCmd n f).readies = s.readies := rfl
@[simp] theorem State.modCmd_cells (s : State) (n : Nat) (f : Cmd → Cmd) : (s.modCmd n f).cells = s.cells := rfl
@[simp] theorem State.modCmd_peerOut (s : State) (n : Nat) (f : Cmd → Cmd) : (s.modCmd n f).peerOut = s.peerOut := rfl
@[simp] theorem State.modCmd_peerIn (s : State) (n : Nat) (f : Cmd → Cmd) : (s.modCmd n f).peerIn = s.peerIn := rfl
@[simp] theorem State.modCmd_kept (s : State) (n : Nat) (f : Cmd → Cmd) : (s.modCmd n f).kept = s.kept := rfl
@[simp] theorem State.modCmd_peerTimeouts (s : State) (n : Nat) (f : Cmd → Cmd) : (s.modCmd n f).peerTimeouts = s.peerTimeouts := rfl
@[simp] theorem State.modCmd_peerMake (s : State) (n : Nat) (f : Cmd → Cmd) : (s.modCmd n f).peerMake = s.peerMake := rfl
@[simp] theorem State.modCmd_peerSeq (s : State) (n : Nat) (f : Cmd → Cmd) : (s.modCmd n f).peerSeq = s.peerSeq := rfl
@[simp] theorem State.modCmd_msgSeq (s : State) (n : Nat) (f : Cmd → Cmd) : (s.modCmd n f).msgSeq = s.msgSeq := rfl
@[simp] theorem State.modCmd_portsUp (s : State) (n : Nat) (f : Cmd → Cmd) : (s.modCmd n f).portsUp = s.portsUp := rfl
@[simp] theorem State.modCmd_endpoints (s : State) (n : Nat) (f : Cmd → Cmd) : (s.modCmd n f).endpoints = s.endpoints := rfl
@[simp] theorem State.modCmd_errBuf (s : State) (n : Nat) (f : Cmd → Cmd) : (s.modCmd n f).errBuf = s.errBuf := rfl
@[simp] theorem State.modCmd_errSeq (s : State) (n : Nat) (f : Cmd → Cmd) : (s.modCmd n f).errSeq = s.errSeq := rfl
@[simp] theorem State.modCmd_ctrl (s : State) (n : Nat) (f : Cmd → Cmd) : (s.modCmd n f).ctrl = s.ctrl := rfl
@[simp] theorem State.modCmd_counters (s : State) (n : Nat) (f : Cmd → Cmd) : (s.modCmd n f).counters = s.counters := rfl
@[simp] theorem State.modCmd_dumped (s : State) (n : Nat) (f : Cmd → Cmd) : (s.modCmd n f).dumped = s.dumped := rfl
@[simp] theorem State.modCmd_rollback (s : State) (n : Nat) (f : Cmd → Cmd) : (s.modCmd n f).rollback = s.rollback := rfl
@[simp] theorem State.modCmd_measure (s : State) (n : Nat) (f : Cmd → Cmd) : (s.modCmd n f).measure = s.measure := rfl
@[simp] theorem State.modCmd_islands (s : State) (n : Nat) (f : Cmd → Cmd) : (s.modCmd n f).islands = s.islands := rfl
@[simp] theorem State.modCmd_hostOut (s : State) (n : Nat) (f : Cmd → Cmd) : (s.modCmd n f).hostOut = s.hostOut := rfl
@[simp] theorem State.modCmd_hostHeld (s : State) (n : Nat) (f : Cmd → Cmd) : (s.modCmd n f).hostHeld = s.hostHeld := rfl
@[simp] theorem State.modCmd_upsets (s : State) (n : Nat) (f : Cmd → Cmd) : (s.modCmd n f).upsets = s.upsets := rfl
@[simp] theorem State.modCmd_stopped (s : State) (n : Nat) (f : Cmd → Cmd) : (s.modCmd n f).stopped = s.stopped := rfl

/-! ### A run -/

@[simp] theorem State.modRun_agenda (s : State) (n : Nat) (f : Run → Run) : (s.modRun n f).agenda = s.agenda := rfl
@[simp] theorem State.modRun_freeN (s : State) (n : Nat) (f : Run → Run) : (s.modRun n f).freeN = s.freeN := rfl
@[simp] theorem State.modRun_seqN (s : State) (n : Nat) (f : Run → Run) : (s.modRun n f).seqN = s.seqN := rfl
@[simp] theorem State.modRun_turn (s : State) (n : Nat) (f : Run → Run) : (s.modRun n f).turn = s.turn := rfl
@[simp] theorem State.modRun_now (s : State) (n : Nat) (f : Run → Run) : (s.modRun n f).now = s.now := rfl
@[simp] theorem State.modRun_issuing (s : State) (n : Nat) (f : Run → Run) : (s.modRun n f).issuing = s.issuing := rfl
@[simp] theorem State.modRun_served (s : State) (n : Nat) (f : Run → Run) : (s.modRun n f).served = s.served := rfl
@[simp] theorem State.modRun_time (s : State) (n : Nat) (f : Run → Run) : (s.modRun n f).time = s.time := rfl
@[simp] theorem State.modRun_skew (s : State) (n : Nat) (f : Run → Run) : (s.modRun n f).skew = s.skew := rfl
@[simp] theorem State.modRun_mem (s : State) (n : Nat) (f : Run → Run) : (s.modRun n f).mem = s.mem := rfl
@[simp] theorem State.modRun_tags (s : State) (n : Nat) (f : Run → Run) : (s.modRun n f).tags = s.tags := rfl
@[simp] theorem State.modRun_poison (s : State) (n : Nat) (f : Run → Run) : (s.modRun n f).poison = s.poison := rfl
@[simp] theorem State.modRun_blocks (s : State) (n : Nat) (f : Run → Run) : (s.modRun n f).blocks = s.blocks := rfl
@[simp] theorem State.modRun_cdir (s : State) (n : Nat) (f : Run → Run) : (s.modRun n f).cdir = s.cdir := rfl
@[simp] theorem State.modRun_hdir (s : State) (n : Nat) (f : Run → Run) : (s.modRun n f).hdir = s.hdir := rfl
@[simp] theorem State.modRun_ev (s : State) (n : Nat) (f : Run → Run) : (s.modRun n f).ev = s.ev := rfl
@[simp] theorem State.modRun_stale (s : State) (n : Nat) (f : Run → Run) : (s.modRun n f).stale = s.stale := rfl
@[simp] theorem State.modRun_icache (s : State) (n : Nat) (f : Run → Run) : (s.modRun n f).icache = s.icache := rfl
@[simp] theorem State.modRun_tlb (s : State) (n : Nat) (f : Run → Run) : (s.modRun n f).tlb = s.tlb := rfl
@[simp] theorem State.modRun_walks (s : State) (n : Nat) (f : Run → Run) : (s.modRun n f).walks = s.walks := rfl
@[simp] theorem State.modRun_aliases (s : State) (n : Nat) (f : Run → Run) : (s.modRun n f).aliases = s.aliases := rfl
@[simp] theorem State.modRun_dirty (s : State) (n : Nat) (f : Run → Run) : (s.modRun n f).dirty = s.dirty := rfl
@[simp] theorem State.modRun_redQ (s : State) (n : Nat) (f : Run → Run) : (s.modRun n f).redQ = s.redQ := rfl
@[simp] theorem State.modRun_faults (s : State) (n : Nat) (f : Run → Run) : (s.modRun n f).faults = s.faults := rfl
@[simp] theorem State.modRun_faultSeq (s : State) (n : Nat) (f : Run → Run) : (s.modRun n f).faultSeq = s.faultSeq := rfl
@[simp] theorem State.modRun_banks (s : State) (n : Nat) (f : Run → Run) : (s.modRun n f).banks = s.banks := rfl
@[simp] theorem State.modRun_roster (s : State) (n : Nat) (f : Run → Run) : (s.modRun n f).roster = s.roster := rfl
@[simp] theorem State.modRun_nameCnt (s : State) (n : Nat) (f : Run → Run) : (s.modRun n f).nameCnt = s.nameCnt := rfl
@[simp] theorem State.modRun_serial (s : State) (n : Nat) (f : Run → Run) : (s.modRun n f).serial = s.serial := rfl
@[simp] theorem State.modRun_devno (s : State) (n : Nat) (f : Run → Run) : (s.modRun n f).devno = s.devno := rfl
@[simp] theorem State.modRun_accel (s : State) (n : Nat) (f : Run → Run) : (s.modRun n f).accel = s.accel := rfl
@[simp] theorem State.modRun_nameCache (s : State) (n : Nat) (f : Run → Run) : (s.modRun n f).nameCache = s.nameCache := rfl
@[simp] theorem State.modRun_launches (s : State) (n : Nat) (f : Run → Run) : (s.modRun n f).launches = s.launches := rfl
@[simp] theorem State.modRun_teams (s : State) (n : Nat) (f : Run → Run) : (s.modRun n f).teams = s.teams := rfl
@[simp] theorem State.modRun_dispPos (s : State) (n : Nat) (f : Run → Run) : (s.modRun n f).dispPos = s.dispPos := rfl
@[simp] theorem State.modRun_accs (s : State) (n : Nat) (f : Run → Run) : (s.modRun n f).accs = s.accs := rfl
@[simp] theorem State.modRun_cmds (s : State) (n : Nat) (f : Run → Run) : (s.modRun n f).cmds = s.cmds := rfl
@[simp] theorem State.modRun_spills (s : State) (n : Nat) (f : Run → Run) : (s.modRun n f).spills = s.spills := rfl
@[simp] theorem State.modRun_fetched (s : State) (n : Nat) (f : Run → Run) : (s.modRun n f).fetched = s.fetched := rfl
@[simp] theorem State.modRun_mmas (s : State) (n : Nat) (f : Run → Run) : (s.modRun n f).mmas = s.mmas := rfl
@[simp] theorem State.modRun_heldMsgs (s : State) (n : Nat) (f : Run → Run) : (s.modRun n f).heldMsgs = s.heldMsgs := rfl
@[simp] theorem State.modRun_readies (s : State) (n : Nat) (f : Run → Run) : (s.modRun n f).readies = s.readies := rfl
@[simp] theorem State.modRun_cells (s : State) (n : Nat) (f : Run → Run) : (s.modRun n f).cells = s.cells := rfl
@[simp] theorem State.modRun_peerOut (s : State) (n : Nat) (f : Run → Run) : (s.modRun n f).peerOut = s.peerOut := rfl
@[simp] theorem State.modRun_peerIn (s : State) (n : Nat) (f : Run → Run) : (s.modRun n f).peerIn = s.peerIn := rfl
@[simp] theorem State.modRun_kept (s : State) (n : Nat) (f : Run → Run) : (s.modRun n f).kept = s.kept := rfl
@[simp] theorem State.modRun_peerTimeouts (s : State) (n : Nat) (f : Run → Run) : (s.modRun n f).peerTimeouts = s.peerTimeouts := rfl
@[simp] theorem State.modRun_peerMake (s : State) (n : Nat) (f : Run → Run) : (s.modRun n f).peerMake = s.peerMake := rfl
@[simp] theorem State.modRun_peerSeq (s : State) (n : Nat) (f : Run → Run) : (s.modRun n f).peerSeq = s.peerSeq := rfl
@[simp] theorem State.modRun_msgSeq (s : State) (n : Nat) (f : Run → Run) : (s.modRun n f).msgSeq = s.msgSeq := rfl
@[simp] theorem State.modRun_portsUp (s : State) (n : Nat) (f : Run → Run) : (s.modRun n f).portsUp = s.portsUp := rfl
@[simp] theorem State.modRun_endpoints (s : State) (n : Nat) (f : Run → Run) : (s.modRun n f).endpoints = s.endpoints := rfl
@[simp] theorem State.modRun_errBuf (s : State) (n : Nat) (f : Run → Run) : (s.modRun n f).errBuf = s.errBuf := rfl
@[simp] theorem State.modRun_errSeq (s : State) (n : Nat) (f : Run → Run) : (s.modRun n f).errSeq = s.errSeq := rfl
@[simp] theorem State.modRun_ctrl (s : State) (n : Nat) (f : Run → Run) : (s.modRun n f).ctrl = s.ctrl := rfl
@[simp] theorem State.modRun_counters (s : State) (n : Nat) (f : Run → Run) : (s.modRun n f).counters = s.counters := rfl
@[simp] theorem State.modRun_dumped (s : State) (n : Nat) (f : Run → Run) : (s.modRun n f).dumped = s.dumped := rfl
@[simp] theorem State.modRun_rollback (s : State) (n : Nat) (f : Run → Run) : (s.modRun n f).rollback = s.rollback := rfl
@[simp] theorem State.modRun_measure (s : State) (n : Nat) (f : Run → Run) : (s.modRun n f).measure = s.measure := rfl
@[simp] theorem State.modRun_islands (s : State) (n : Nat) (f : Run → Run) : (s.modRun n f).islands = s.islands := rfl
@[simp] theorem State.modRun_hostOut (s : State) (n : Nat) (f : Run → Run) : (s.modRun n f).hostOut = s.hostOut := rfl
@[simp] theorem State.modRun_hostHeld (s : State) (n : Nat) (f : Run → Run) : (s.modRun n f).hostHeld = s.hostHeld := rfl
@[simp] theorem State.modRun_upsets (s : State) (n : Nat) (f : Run → Run) : (s.modRun n f).upsets = s.upsets := rfl
@[simp] theorem State.modRun_stopped (s : State) (n : Nat) (f : Run → Run) : (s.modRun n f).stopped = s.stopped := rfl

/-! ### A roster entry -/

@[simp] theorem State.modEntry_agenda (s : State) (n : Name) (f : Entry → Entry) : (s.modEntry n f).agenda = s.agenda := by unfold State.modEntry; split <;> rfl
@[simp] theorem State.modEntry_freeN (s : State) (n : Name) (f : Entry → Entry) : (s.modEntry n f).freeN = s.freeN := by unfold State.modEntry; split <;> rfl
@[simp] theorem State.modEntry_seqN (s : State) (n : Name) (f : Entry → Entry) : (s.modEntry n f).seqN = s.seqN := by unfold State.modEntry; split <;> rfl
@[simp] theorem State.modEntry_turn (s : State) (n : Name) (f : Entry → Entry) : (s.modEntry n f).turn = s.turn := by unfold State.modEntry; split <;> rfl
@[simp] theorem State.modEntry_now (s : State) (n : Name) (f : Entry → Entry) : (s.modEntry n f).now = s.now := by unfold State.modEntry; split <;> rfl
@[simp] theorem State.modEntry_issuing (s : State) (n : Name) (f : Entry → Entry) : (s.modEntry n f).issuing = s.issuing := by unfold State.modEntry; split <;> rfl
@[simp] theorem State.modEntry_served (s : State) (n : Name) (f : Entry → Entry) : (s.modEntry n f).served = s.served := by unfold State.modEntry; split <;> rfl
@[simp] theorem State.modEntry_time (s : State) (n : Name) (f : Entry → Entry) : (s.modEntry n f).time = s.time := by unfold State.modEntry; split <;> rfl
@[simp] theorem State.modEntry_skew (s : State) (n : Name) (f : Entry → Entry) : (s.modEntry n f).skew = s.skew := by unfold State.modEntry; split <;> rfl
@[simp] theorem State.modEntry_mem (s : State) (n : Name) (f : Entry → Entry) : (s.modEntry n f).mem = s.mem := by unfold State.modEntry; split <;> rfl
@[simp] theorem State.modEntry_tags (s : State) (n : Name) (f : Entry → Entry) : (s.modEntry n f).tags = s.tags := by unfold State.modEntry; split <;> rfl
@[simp] theorem State.modEntry_poison (s : State) (n : Name) (f : Entry → Entry) : (s.modEntry n f).poison = s.poison := by unfold State.modEntry; split <;> rfl
@[simp] theorem State.modEntry_blocks (s : State) (n : Name) (f : Entry → Entry) : (s.modEntry n f).blocks = s.blocks := by unfold State.modEntry; split <;> rfl
@[simp] theorem State.modEntry_cdir (s : State) (n : Name) (f : Entry → Entry) : (s.modEntry n f).cdir = s.cdir := by unfold State.modEntry; split <;> rfl
@[simp] theorem State.modEntry_hdir (s : State) (n : Name) (f : Entry → Entry) : (s.modEntry n f).hdir = s.hdir := by unfold State.modEntry; split <;> rfl
@[simp] theorem State.modEntry_ev (s : State) (n : Name) (f : Entry → Entry) : (s.modEntry n f).ev = s.ev := by unfold State.modEntry; split <;> rfl
@[simp] theorem State.modEntry_stale (s : State) (n : Name) (f : Entry → Entry) : (s.modEntry n f).stale = s.stale := by unfold State.modEntry; split <;> rfl
@[simp] theorem State.modEntry_icache (s : State) (n : Name) (f : Entry → Entry) : (s.modEntry n f).icache = s.icache := by unfold State.modEntry; split <;> rfl
@[simp] theorem State.modEntry_tlb (s : State) (n : Name) (f : Entry → Entry) : (s.modEntry n f).tlb = s.tlb := by unfold State.modEntry; split <;> rfl
@[simp] theorem State.modEntry_walks (s : State) (n : Name) (f : Entry → Entry) : (s.modEntry n f).walks = s.walks := by unfold State.modEntry; split <;> rfl
@[simp] theorem State.modEntry_aliases (s : State) (n : Name) (f : Entry → Entry) : (s.modEntry n f).aliases = s.aliases := by unfold State.modEntry; split <;> rfl
@[simp] theorem State.modEntry_dirty (s : State) (n : Name) (f : Entry → Entry) : (s.modEntry n f).dirty = s.dirty := by unfold State.modEntry; split <;> rfl
@[simp] theorem State.modEntry_redQ (s : State) (n : Name) (f : Entry → Entry) : (s.modEntry n f).redQ = s.redQ := by unfold State.modEntry; split <;> rfl
@[simp] theorem State.modEntry_faults (s : State) (n : Name) (f : Entry → Entry) : (s.modEntry n f).faults = s.faults := by unfold State.modEntry; split <;> rfl
@[simp] theorem State.modEntry_faultSeq (s : State) (n : Name) (f : Entry → Entry) : (s.modEntry n f).faultSeq = s.faultSeq := by unfold State.modEntry; split <;> rfl
@[simp] theorem State.modEntry_banks (s : State) (n : Name) (f : Entry → Entry) : (s.modEntry n f).banks = s.banks := by unfold State.modEntry; split <;> rfl
@[simp] theorem State.modEntry_nameCnt (s : State) (n : Name) (f : Entry → Entry) : (s.modEntry n f).nameCnt = s.nameCnt := by unfold State.modEntry; split <;> rfl
@[simp] theorem State.modEntry_serial (s : State) (n : Name) (f : Entry → Entry) : (s.modEntry n f).serial = s.serial := by unfold State.modEntry; split <;> rfl
@[simp] theorem State.modEntry_devno (s : State) (n : Name) (f : Entry → Entry) : (s.modEntry n f).devno = s.devno := by unfold State.modEntry; split <;> rfl
@[simp] theorem State.modEntry_accel (s : State) (n : Name) (f : Entry → Entry) : (s.modEntry n f).accel = s.accel := by unfold State.modEntry; split <;> rfl
@[simp] theorem State.modEntry_nameCache (s : State) (n : Name) (f : Entry → Entry) : (s.modEntry n f).nameCache = s.nameCache := by unfold State.modEntry; split <;> rfl
@[simp] theorem State.modEntry_launches (s : State) (n : Name) (f : Entry → Entry) : (s.modEntry n f).launches = s.launches := by unfold State.modEntry; split <;> rfl
@[simp] theorem State.modEntry_teams (s : State) (n : Name) (f : Entry → Entry) : (s.modEntry n f).teams = s.teams := by unfold State.modEntry; split <;> rfl
@[simp] theorem State.modEntry_dispPos (s : State) (n : Name) (f : Entry → Entry) : (s.modEntry n f).dispPos = s.dispPos := by unfold State.modEntry; split <;> rfl
@[simp] theorem State.modEntry_accs (s : State) (n : Name) (f : Entry → Entry) : (s.modEntry n f).accs = s.accs := by unfold State.modEntry; split <;> rfl
@[simp] theorem State.modEntry_cmds (s : State) (n : Name) (f : Entry → Entry) : (s.modEntry n f).cmds = s.cmds := by unfold State.modEntry; split <;> rfl
@[simp] theorem State.modEntry_spills (s : State) (n : Name) (f : Entry → Entry) : (s.modEntry n f).spills = s.spills := by unfold State.modEntry; split <;> rfl
@[simp] theorem State.modEntry_fetched (s : State) (n : Name) (f : Entry → Entry) : (s.modEntry n f).fetched = s.fetched := by unfold State.modEntry; split <;> rfl
@[simp] theorem State.modEntry_mmas (s : State) (n : Name) (f : Entry → Entry) : (s.modEntry n f).mmas = s.mmas := by unfold State.modEntry; split <;> rfl
@[simp] theorem State.modEntry_runs (s : State) (n : Name) (f : Entry → Entry) : (s.modEntry n f).runs = s.runs := by unfold State.modEntry; split <;> rfl
@[simp] theorem State.modEntry_heldMsgs (s : State) (n : Name) (f : Entry → Entry) : (s.modEntry n f).heldMsgs = s.heldMsgs := by unfold State.modEntry; split <;> rfl
@[simp] theorem State.modEntry_readies (s : State) (n : Name) (f : Entry → Entry) : (s.modEntry n f).readies = s.readies := by unfold State.modEntry; split <;> rfl
@[simp] theorem State.modEntry_cells (s : State) (n : Name) (f : Entry → Entry) : (s.modEntry n f).cells = s.cells := by unfold State.modEntry; split <;> rfl
@[simp] theorem State.modEntry_peerOut (s : State) (n : Name) (f : Entry → Entry) : (s.modEntry n f).peerOut = s.peerOut := by unfold State.modEntry; split <;> rfl
@[simp] theorem State.modEntry_peerIn (s : State) (n : Name) (f : Entry → Entry) : (s.modEntry n f).peerIn = s.peerIn := by unfold State.modEntry; split <;> rfl
@[simp] theorem State.modEntry_kept (s : State) (n : Name) (f : Entry → Entry) : (s.modEntry n f).kept = s.kept := by unfold State.modEntry; split <;> rfl
@[simp] theorem State.modEntry_peerTimeouts (s : State) (n : Name) (f : Entry → Entry) : (s.modEntry n f).peerTimeouts = s.peerTimeouts := by unfold State.modEntry; split <;> rfl
@[simp] theorem State.modEntry_peerMake (s : State) (n : Name) (f : Entry → Entry) : (s.modEntry n f).peerMake = s.peerMake := by unfold State.modEntry; split <;> rfl
@[simp] theorem State.modEntry_peerSeq (s : State) (n : Name) (f : Entry → Entry) : (s.modEntry n f).peerSeq = s.peerSeq := by unfold State.modEntry; split <;> rfl
@[simp] theorem State.modEntry_msgSeq (s : State) (n : Name) (f : Entry → Entry) : (s.modEntry n f).msgSeq = s.msgSeq := by unfold State.modEntry; split <;> rfl
@[simp] theorem State.modEntry_portsUp (s : State) (n : Name) (f : Entry → Entry) : (s.modEntry n f).portsUp = s.portsUp := by unfold State.modEntry; split <;> rfl
@[simp] theorem State.modEntry_endpoints (s : State) (n : Name) (f : Entry → Entry) : (s.modEntry n f).endpoints = s.endpoints := by unfold State.modEntry; split <;> rfl
@[simp] theorem State.modEntry_errBuf (s : State) (n : Name) (f : Entry → Entry) : (s.modEntry n f).errBuf = s.errBuf := by unfold State.modEntry; split <;> rfl
@[simp] theorem State.modEntry_errSeq (s : State) (n : Name) (f : Entry → Entry) : (s.modEntry n f).errSeq = s.errSeq := by unfold State.modEntry; split <;> rfl
@[simp] theorem State.modEntry_ctrl (s : State) (n : Name) (f : Entry → Entry) : (s.modEntry n f).ctrl = s.ctrl := by unfold State.modEntry; split <;> rfl
@[simp] theorem State.modEntry_counters (s : State) (n : Name) (f : Entry → Entry) : (s.modEntry n f).counters = s.counters := by unfold State.modEntry; split <;> rfl
@[simp] theorem State.modEntry_dumped (s : State) (n : Name) (f : Entry → Entry) : (s.modEntry n f).dumped = s.dumped := by unfold State.modEntry; split <;> rfl
@[simp] theorem State.modEntry_rollback (s : State) (n : Name) (f : Entry → Entry) : (s.modEntry n f).rollback = s.rollback := by unfold State.modEntry; split <;> rfl
@[simp] theorem State.modEntry_measure (s : State) (n : Name) (f : Entry → Entry) : (s.modEntry n f).measure = s.measure := by unfold State.modEntry; split <;> rfl
@[simp] theorem State.modEntry_islands (s : State) (n : Name) (f : Entry → Entry) : (s.modEntry n f).islands = s.islands := by unfold State.modEntry; split <;> rfl
@[simp] theorem State.modEntry_hostOut (s : State) (n : Name) (f : Entry → Entry) : (s.modEntry n f).hostOut = s.hostOut := by unfold State.modEntry; split <;> rfl
@[simp] theorem State.modEntry_hostHeld (s : State) (n : Name) (f : Entry → Entry) : (s.modEntry n f).hostHeld = s.hostHeld := by unfold State.modEntry; split <;> rfl
@[simp] theorem State.modEntry_upsets (s : State) (n : Name) (f : Entry → Entry) : (s.modEntry n f).upsets = s.upsets := by unfold State.modEntry; split <;> rfl
@[simp] theorem State.modEntry_stopped (s : State) (n : Name) (f : Entry → Entry) : (s.modEntry n f).stopped = s.stopped := by unfold State.modEntry; split <;> rfl

/-! ### A team's group -/

@[simp] theorem Team.modGroup_id (t : Team) (n : Nat) (f : Group → Group) : (t.modGroup n f).id = t.id := rfl
@[simp] theorem Team.modGroup_launch (t : Team) (n : Nat) (f : Group → Group) : (t.modGroup n f).launch = t.launch := rfl
@[simp] theorem Team.modGroup_ctx (t : Team) (n : Nat) (f : Group → Group) : (t.modGroup n f).ctx = t.ctx := rfl
@[simp] theorem Team.modGroup_slot (t : Team) (n : Nat) (f : Group → Group) : (t.modGroup n f).slot = t.slot := rfl
@[simp] theorem Team.modGroup_idx (t : Team) (n : Nat) (f : Group → Group) : (t.modGroup n f).idx = t.idx := rfl
@[simp] theorem Team.modGroup_coord (t : Team) (n : Nat) (f : Group → Group) : (t.modGroup n f).coord = t.coord := rfl
@[simp] theorem Team.modGroup_core (t : Team) (n : Nat) (f : Group → Group) : (t.modGroup n f).core = t.core := rfl
@[simp] theorem Team.modGroup_saved (t : Team) (n : Nat) (f : Group → Group) : (t.modGroup n f).saved = t.saved := rfl
@[simp] theorem Team.modGroup_seg (t : Team) (n : Nat) (f : Group → Group) : (t.modGroup n f).seg = t.seg := rfl
@[simp] theorem Team.modGroup_scratch (t : Team) (n : Nat) (f : Group → Group) : (t.modGroup n f).scratch = t.scratch := rfl
@[simp] theorem Team.modGroup_accs (t : Team) (n : Nat) (f : Group → Group) : (t.modGroup n f).accs = t.accs := rfl
@[simp] theorem Team.modGroup_relaunches (t : Team) (n : Nat) (f : Group → Group) : (t.modGroup n f).relaunches = t.relaunches := rfl
@[simp] theorem Team.modGroup_pinned (t : Team) (n : Nat) (f : Group → Group) : (t.modGroup n f).pinned = t.pinned := rfl
@[simp] theorem Team.modGroup_committing (t : Team) (n : Nat) (f : Group → Group) : (t.modGroup n f).committing = t.committing := rfl
@[simp] theorem Team.modGroup_uncommitted (t : Team) (n : Nat) (f : Group → Group) : (t.modGroup n f).uncommitted = t.uncommitted := rfl
@[simp] theorem Team.modGroup_ending (t : Team) (n : Nat) (f : Group → Group) : (t.modGroup n f).ending = t.ending := rfl
@[simp] theorem Team.modGroup_preempt (t : Team) (n : Nat) (f : Group → Group) : (t.modGroup n f).preempt = t.preempt := rfl
@[simp] theorem Team.modGroup_floor (t : Team) (n : Nat) (f : Group → Group) : (t.modGroup n f).floor = t.floor := rfl
@[simp] theorem Team.modGroup_placedAt (t : Team) (n : Nat) (f : Group → Group) : (t.modGroup n f).placedAt = t.placedAt := rfl
@[simp] theorem Team.modGroup_order (t : Team) (n : Nat) (f : Group → Group) : (t.modGroup n f).order = t.order := rfl
@[simp] theorem Team.modGroup_savedAt (t : Team) (n : Nat) (f : Group → Group) : (t.modGroup n f).savedAt = t.savedAt := rfl
@[simp] theorem Team.modGroup_favour (t : Team) (n : Nat) (f : Group → Group) : (t.modGroup n f).favour = t.favour := rfl
@[simp] theorem Team.modGroup_image (t : Team) (n : Nat) (f : Group → Group) : (t.modGroup n f).image = t.image := rfl
@[simp] theorem Team.modGroup_accSave (t : Team) (n : Nat) (f : Group → Group) : (t.modGroup n f).accSave = t.accSave := rfl
@[simp] theorem Team.modGroup_scratchSave (t : Team) (n : Nat) (f : Group → Group) : (t.modGroup n f).scratchSave = t.scratchSave := rfl
@[simp] theorem Team.modGroup_arrived (t : Team) (n : Nat) (f : Group → Group) : (t.modGroup n f).arrived = t.arrived := rfl

/-! ### Lanes -/

@[simp] theorem Group.modLanes_grp (g : Group) (m : Mask) (f : Nat → Lane → Lane) : (g.modLanes m f).grp = g.grp := rfl
@[simp] theorem Group.modLanes_role (g : Group) (m : Mask) (f : Nat → Lane → Lane) : (g.modLanes m f).role = g.role := rfl
@[simp] theorem Group.modLanes_regs (g : Group) (m : Mask) (f : Nat → Lane → Lane) : (g.modLanes m f).regs = g.regs := rfl
@[simp] theorem Group.modLanes_v (g : Group) (m : Mask) (f : Nat → Lane → Lane) : (g.modLanes m f).v = g.v := rfl
@[simp] theorem Group.modLanes_vt (g : Group) (m : Mask) (f : Nat → Lane → Lane) : (g.modLanes m f).vt = g.vt := rfl
@[simp] theorem Group.modLanes_s (g : Group) (m : Mask) (f : Nat → Lane → Lane) : (g.modLanes m f).s = g.s := rfl
@[simp] theorem Group.modLanes_p (g : Group) (m : Mask) (f : Nat → Lane → Lane) : (g.modLanes m f).p = g.p := rfl
@[simp] theorem Group.modLanes_q (g : Group) (m : Mask) (f : Nat → Lane → Lane) : (g.modLanes m f).q = g.q := rfl
@[simp] theorem Group.modLanes_k (g : Group) (m : Mask) (f : Nat → Lane → Lane) : (g.modLanes m f).k = g.k := rfl
@[simp] theorem Group.modLanes_loops (g : Group) (m : Mask) (f : Nat → Lane → Lane) : (g.modLanes m f).loops = g.loops := rfl
@[simp] theorem Group.modLanes_saved (g : Group) (m : Mask) (f : Nat → Lane → Lane) : (g.modLanes m f).saved = g.saved := rfl
@[simp] theorem Group.modLanes_inTrap (g : Group) (m : Mask) (f : Nat → Lane → Lane) : (g.modLanes m f).inTrap = g.inTrap := rfl
@[simp] theorem Group.modLanes_traph (g : Group) (m : Mask) (f : Nat → Lane → Lane) : (g.modLanes m f).traph = g.traph := rfl
@[simp] theorem Group.modLanes_tcause (g : Group) (m : Mask) (f : Nat → Lane → Lane) : (g.modLanes m f).tcause = g.tcause := rfl
@[simp] theorem Group.modLanes_ssyn (g : Group) (m : Mask) (f : Nat → Lane → Lane) : (g.modLanes m f).ssyn = g.ssyn := rfl
@[simp] theorem Group.modLanes_sunit (g : Group) (m : Mask) (f : Nat → Lane → Lane) : (g.modLanes m f).sunit = g.sunit := rfl
@[simp] theorem Group.modLanes_stilex (g : Group) (m : Mask) (f : Nat → Lane → Lane) : (g.modLanes m f).stilex = g.stilex := rfl
@[simp] theorem Group.modLanes_stiley (g : Group) (m : Mask) (f : Nat → Lane → Lane) : (g.modLanes m f).stiley = g.stiley := rfl
@[simp] theorem Group.modLanes_stilek (g : Group) (m : Mask) (f : Nat → Lane → Lane) : (g.modLanes m f).stilek = g.stilek := rfl
@[simp] theorem Group.modLanes_nstat (g : Group) (m : Mask) (f : Nat → Lane → Lane) : (g.modLanes m f).nstat = g.nstat := rfl
@[simp] theorem Group.modLanes_ylddl (g : Group) (m : Mask) (f : Nat → Lane → Lane) : (g.modLanes m f).ylddl = g.ylddl := rfl
@[simp] theorem Group.modLanes_cwaitDl (g : Group) (m : Mask) (f : Nat → Lane → Lane) : (g.modLanes m f).cwaitDl = g.cwaitDl := rfl
@[simp] theorem Group.modLanes_clause (g : Group) (m : Mask) (f : Nat → Lane → Lane) : (g.modLanes m f).clause = g.clause := rfl
@[simp] theorem Group.modLanes_sb (g : Group) (m : Mask) (f : Nat → Lane → Lane) : (g.modLanes m f).sb = g.sb := rfl
@[simp] theorem Group.modLanes_pend (g : Group) (m : Mask) (f : Nat → Lane → Lane) : (g.modLanes m f).pend = g.pend := rfl
@[simp] theorem Group.modLanes_wait (g : Group) (m : Mask) (f : Nat → Lane → Lane) : (g.modLanes m f).wait = g.wait := rfl
@[simp] theorem Group.modLanes_trapReq (g : Group) (m : Mask) (f : Nat → Lane → Lane) : (g.modLanes m f).trapReq = g.trapReq := rfl
@[simp] theorem Group.modLanes_storeQ (g : Group) (m : Mask) (f : Nat → Lane → Lane) : (g.modLanes m f).storeQ = g.storeQ := rfl
@[simp] theorem Group.modLanes_slate (g : Group) (m : Mask) (f : Nat → Lane → Lane) : (g.modLanes m f).slate = g.slate := rfl
@[simp] theorem Group.modLanes_xrec (g : Group) (m : Mask) (f : Nat → Lane → Lane) : (g.modLanes m f).xrec = g.xrec := rfl
@[simp] theorem Group.modLanes_peerFail (g : Group) (m : Mask) (f : Nat → Lane → Lane) : (g.modLanes m f).peerFail = g.peerFail := rfl
@[simp] theorem Group.modLanes_readyAt (g : Group) (m : Mask) (f : Nat → Lane → Lane) : (g.modLanes m f).readyAt = g.readyAt := rfl
@[simp] theorem Group.modLanes_ended (g : Group) (m : Mask) (f : Nat → Lane → Lane) : (g.modLanes m f).ended = g.ended := rfl
@[simp] theorem Group.modLanes_callSpills (g : Group) (m : Mask) (f : Nat → Lane → Lane) : (g.modLanes m f).callSpills = g.callSpills := rfl
@[simp] theorem Group.modLanes_callFills (g : Group) (m : Mask) (f : Nat → Lane → Lane) : (g.modLanes m f).callFills = g.callFills := rfl

/-! ### A scalar register -/

@[simp] theorem Group.setS_grp (g : Group) (d : Nat) (x : Word) : (g.setS d x).grp = g.grp := rfl
@[simp] theorem Group.setS_role (g : Group) (d : Nat) (x : Word) : (g.setS d x).role = g.role := rfl
@[simp] theorem Group.setS_regs (g : Group) (d : Nat) (x : Word) : (g.setS d x).regs = g.regs := rfl
@[simp] theorem Group.setS_lanes (g : Group) (d : Nat) (x : Word) : (g.setS d x).lanes = g.lanes := rfl
@[simp] theorem Group.setS_v (g : Group) (d : Nat) (x : Word) : (g.setS d x).v = g.v := rfl
@[simp] theorem Group.setS_vt (g : Group) (d : Nat) (x : Word) : (g.setS d x).vt = g.vt := rfl
@[simp] theorem Group.setS_p (g : Group) (d : Nat) (x : Word) : (g.setS d x).p = g.p := rfl
@[simp] theorem Group.setS_q (g : Group) (d : Nat) (x : Word) : (g.setS d x).q = g.q := rfl
@[simp] theorem Group.setS_k (g : Group) (d : Nat) (x : Word) : (g.setS d x).k = g.k := rfl
@[simp] theorem Group.setS_loops (g : Group) (d : Nat) (x : Word) : (g.setS d x).loops = g.loops := rfl
@[simp] theorem Group.setS_saved (g : Group) (d : Nat) (x : Word) : (g.setS d x).saved = g.saved := rfl
@[simp] theorem Group.setS_inTrap (g : Group) (d : Nat) (x : Word) : (g.setS d x).inTrap = g.inTrap := rfl
@[simp] theorem Group.setS_traph (g : Group) (d : Nat) (x : Word) : (g.setS d x).traph = g.traph := rfl
@[simp] theorem Group.setS_tcause (g : Group) (d : Nat) (x : Word) : (g.setS d x).tcause = g.tcause := rfl
@[simp] theorem Group.setS_ssyn (g : Group) (d : Nat) (x : Word) : (g.setS d x).ssyn = g.ssyn := rfl
@[simp] theorem Group.setS_sunit (g : Group) (d : Nat) (x : Word) : (g.setS d x).sunit = g.sunit := rfl
@[simp] theorem Group.setS_stilex (g : Group) (d : Nat) (x : Word) : (g.setS d x).stilex = g.stilex := rfl
@[simp] theorem Group.setS_stiley (g : Group) (d : Nat) (x : Word) : (g.setS d x).stiley = g.stiley := rfl
@[simp] theorem Group.setS_stilek (g : Group) (d : Nat) (x : Word) : (g.setS d x).stilek = g.stilek := rfl
@[simp] theorem Group.setS_nstat (g : Group) (d : Nat) (x : Word) : (g.setS d x).nstat = g.nstat := rfl
@[simp] theorem Group.setS_ylddl (g : Group) (d : Nat) (x : Word) : (g.setS d x).ylddl = g.ylddl := rfl
@[simp] theorem Group.setS_cwaitDl (g : Group) (d : Nat) (x : Word) : (g.setS d x).cwaitDl = g.cwaitDl := rfl
@[simp] theorem Group.setS_clause (g : Group) (d : Nat) (x : Word) : (g.setS d x).clause = g.clause := rfl
@[simp] theorem Group.setS_sb (g : Group) (d : Nat) (x : Word) : (g.setS d x).sb = g.sb := rfl
@[simp] theorem Group.setS_pend (g : Group) (d : Nat) (x : Word) : (g.setS d x).pend = g.pend := rfl
@[simp] theorem Group.setS_wait (g : Group) (d : Nat) (x : Word) : (g.setS d x).wait = g.wait := rfl
@[simp] theorem Group.setS_trapReq (g : Group) (d : Nat) (x : Word) : (g.setS d x).trapReq = g.trapReq := rfl
@[simp] theorem Group.setS_storeQ (g : Group) (d : Nat) (x : Word) : (g.setS d x).storeQ = g.storeQ := rfl
@[simp] theorem Group.setS_slate (g : Group) (d : Nat) (x : Word) : (g.setS d x).slate = g.slate := rfl
@[simp] theorem Group.setS_xrec (g : Group) (d : Nat) (x : Word) : (g.setS d x).xrec = g.xrec := rfl
@[simp] theorem Group.setS_peerFail (g : Group) (d : Nat) (x : Word) : (g.setS d x).peerFail = g.peerFail := rfl
@[simp] theorem Group.setS_readyAt (g : Group) (d : Nat) (x : Word) : (g.setS d x).readyAt = g.readyAt := rfl
@[simp] theorem Group.setS_ended (g : Group) (d : Nat) (x : Word) : (g.setS d x).ended = g.ended := rfl
@[simp] theorem Group.setS_callSpills (g : Group) (d : Nat) (x : Word) : (g.setS d x).callSpills = g.callSpills := rfl
@[simp] theorem Group.setS_callFills (g : Group) (d : Nat) (x : Word) : (g.setS d x).callFills = g.callFills := rfl

/-! ### A vector register -/

@[simp] theorem Group.setV_grp (g : Group) (d lane : Nat) (x : Lane32) (t : Tag) : (g.setV d lane x t).grp = g.grp := rfl
@[simp] theorem Group.setV_role (g : Group) (d lane : Nat) (x : Lane32) (t : Tag) : (g.setV d lane x t).role = g.role := rfl
@[simp] theorem Group.setV_regs (g : Group) (d lane : Nat) (x : Lane32) (t : Tag) : (g.setV d lane x t).regs = g.regs := rfl
@[simp] theorem Group.setV_lanes (g : Group) (d lane : Nat) (x : Lane32) (t : Tag) : (g.setV d lane x t).lanes = g.lanes := rfl
@[simp] theorem Group.setV_s (g : Group) (d lane : Nat) (x : Lane32) (t : Tag) : (g.setV d lane x t).s = g.s := rfl
@[simp] theorem Group.setV_p (g : Group) (d lane : Nat) (x : Lane32) (t : Tag) : (g.setV d lane x t).p = g.p := rfl
@[simp] theorem Group.setV_q (g : Group) (d lane : Nat) (x : Lane32) (t : Tag) : (g.setV d lane x t).q = g.q := rfl
@[simp] theorem Group.setV_k (g : Group) (d lane : Nat) (x : Lane32) (t : Tag) : (g.setV d lane x t).k = g.k := rfl
@[simp] theorem Group.setV_loops (g : Group) (d lane : Nat) (x : Lane32) (t : Tag) : (g.setV d lane x t).loops = g.loops := rfl
@[simp] theorem Group.setV_saved (g : Group) (d lane : Nat) (x : Lane32) (t : Tag) : (g.setV d lane x t).saved = g.saved := rfl
@[simp] theorem Group.setV_inTrap (g : Group) (d lane : Nat) (x : Lane32) (t : Tag) : (g.setV d lane x t).inTrap = g.inTrap := rfl
@[simp] theorem Group.setV_traph (g : Group) (d lane : Nat) (x : Lane32) (t : Tag) : (g.setV d lane x t).traph = g.traph := rfl
@[simp] theorem Group.setV_tcause (g : Group) (d lane : Nat) (x : Lane32) (t : Tag) : (g.setV d lane x t).tcause = g.tcause := rfl
@[simp] theorem Group.setV_ssyn (g : Group) (d lane : Nat) (x : Lane32) (t : Tag) : (g.setV d lane x t).ssyn = g.ssyn := rfl
@[simp] theorem Group.setV_sunit (g : Group) (d lane : Nat) (x : Lane32) (t : Tag) : (g.setV d lane x t).sunit = g.sunit := rfl
@[simp] theorem Group.setV_stilex (g : Group) (d lane : Nat) (x : Lane32) (t : Tag) : (g.setV d lane x t).stilex = g.stilex := rfl
@[simp] theorem Group.setV_stiley (g : Group) (d lane : Nat) (x : Lane32) (t : Tag) : (g.setV d lane x t).stiley = g.stiley := rfl
@[simp] theorem Group.setV_stilek (g : Group) (d lane : Nat) (x : Lane32) (t : Tag) : (g.setV d lane x t).stilek = g.stilek := rfl
@[simp] theorem Group.setV_nstat (g : Group) (d lane : Nat) (x : Lane32) (t : Tag) : (g.setV d lane x t).nstat = g.nstat := rfl
@[simp] theorem Group.setV_ylddl (g : Group) (d lane : Nat) (x : Lane32) (t : Tag) : (g.setV d lane x t).ylddl = g.ylddl := rfl
@[simp] theorem Group.setV_cwaitDl (g : Group) (d lane : Nat) (x : Lane32) (t : Tag) : (g.setV d lane x t).cwaitDl = g.cwaitDl := rfl
@[simp] theorem Group.setV_clause (g : Group) (d lane : Nat) (x : Lane32) (t : Tag) : (g.setV d lane x t).clause = g.clause := rfl
@[simp] theorem Group.setV_sb (g : Group) (d lane : Nat) (x : Lane32) (t : Tag) : (g.setV d lane x t).sb = g.sb := rfl
@[simp] theorem Group.setV_pend (g : Group) (d lane : Nat) (x : Lane32) (t : Tag) : (g.setV d lane x t).pend = g.pend := rfl
@[simp] theorem Group.setV_wait (g : Group) (d lane : Nat) (x : Lane32) (t : Tag) : (g.setV d lane x t).wait = g.wait := rfl
@[simp] theorem Group.setV_trapReq (g : Group) (d lane : Nat) (x : Lane32) (t : Tag) : (g.setV d lane x t).trapReq = g.trapReq := rfl
@[simp] theorem Group.setV_storeQ (g : Group) (d lane : Nat) (x : Lane32) (t : Tag) : (g.setV d lane x t).storeQ = g.storeQ := rfl
@[simp] theorem Group.setV_slate (g : Group) (d lane : Nat) (x : Lane32) (t : Tag) : (g.setV d lane x t).slate = g.slate := rfl
@[simp] theorem Group.setV_xrec (g : Group) (d lane : Nat) (x : Lane32) (t : Tag) : (g.setV d lane x t).xrec = g.xrec := rfl
@[simp] theorem Group.setV_peerFail (g : Group) (d lane : Nat) (x : Lane32) (t : Tag) : (g.setV d lane x t).peerFail = g.peerFail := rfl
@[simp] theorem Group.setV_readyAt (g : Group) (d lane : Nat) (x : Lane32) (t : Tag) : (g.setV d lane x t).readyAt = g.readyAt := rfl
@[simp] theorem Group.setV_ended (g : Group) (d lane : Nat) (x : Lane32) (t : Tag) : (g.setV d lane x t).ended = g.ended := rfl
@[simp] theorem Group.setV_callSpills (g : Group) (d lane : Nat) (x : Lane32) (t : Tag) : (g.setV d lane x t).callSpills = g.callSpills := rfl
@[simp] theorem Group.setV_callFills (g : Group) (d lane : Nat) (x : Lane32) (t : Tag) : (g.setV d lane x t).callFills = g.callFills := rfl

/-! ### A boolean register -/

@[simp] theorem Group.setQ_grp (g : Group) (d : Nat) (x : Bool) : (g.setQ d x).grp = g.grp := by unfold Group.setQ; split <;> rfl
@[simp] theorem Group.setQ_role (g : Group) (d : Nat) (x : Bool) : (g.setQ d x).role = g.role := by unfold Group.setQ; split <;> rfl
@[simp] theorem Group.setQ_regs (g : Group) (d : Nat) (x : Bool) : (g.setQ d x).regs = g.regs := by unfold Group.setQ; split <;> rfl
@[simp] theorem Group.setQ_lanes (g : Group) (d : Nat) (x : Bool) : (g.setQ d x).lanes = g.lanes := by unfold Group.setQ; split <;> rfl
@[simp] theorem Group.setQ_v (g : Group) (d : Nat) (x : Bool) : (g.setQ d x).v = g.v := by unfold Group.setQ; split <;> rfl
@[simp] theorem Group.setQ_vt (g : Group) (d : Nat) (x : Bool) : (g.setQ d x).vt = g.vt := by unfold Group.setQ; split <;> rfl
@[simp] theorem Group.setQ_s (g : Group) (d : Nat) (x : Bool) : (g.setQ d x).s = g.s := by unfold Group.setQ; split <;> rfl
@[simp] theorem Group.setQ_p (g : Group) (d : Nat) (x : Bool) : (g.setQ d x).p = g.p := by unfold Group.setQ; split <;> rfl
@[simp] theorem Group.setQ_k (g : Group) (d : Nat) (x : Bool) : (g.setQ d x).k = g.k := by unfold Group.setQ; split <;> rfl
@[simp] theorem Group.setQ_loops (g : Group) (d : Nat) (x : Bool) : (g.setQ d x).loops = g.loops := by unfold Group.setQ; split <;> rfl
@[simp] theorem Group.setQ_saved (g : Group) (d : Nat) (x : Bool) : (g.setQ d x).saved = g.saved := by unfold Group.setQ; split <;> rfl
@[simp] theorem Group.setQ_inTrap (g : Group) (d : Nat) (x : Bool) : (g.setQ d x).inTrap = g.inTrap := by unfold Group.setQ; split <;> rfl
@[simp] theorem Group.setQ_traph (g : Group) (d : Nat) (x : Bool) : (g.setQ d x).traph = g.traph := by unfold Group.setQ; split <;> rfl
@[simp] theorem Group.setQ_tcause (g : Group) (d : Nat) (x : Bool) : (g.setQ d x).tcause = g.tcause := by unfold Group.setQ; split <;> rfl
@[simp] theorem Group.setQ_ssyn (g : Group) (d : Nat) (x : Bool) : (g.setQ d x).ssyn = g.ssyn := by unfold Group.setQ; split <;> rfl
@[simp] theorem Group.setQ_sunit (g : Group) (d : Nat) (x : Bool) : (g.setQ d x).sunit = g.sunit := by unfold Group.setQ; split <;> rfl
@[simp] theorem Group.setQ_stilex (g : Group) (d : Nat) (x : Bool) : (g.setQ d x).stilex = g.stilex := by unfold Group.setQ; split <;> rfl
@[simp] theorem Group.setQ_stiley (g : Group) (d : Nat) (x : Bool) : (g.setQ d x).stiley = g.stiley := by unfold Group.setQ; split <;> rfl
@[simp] theorem Group.setQ_stilek (g : Group) (d : Nat) (x : Bool) : (g.setQ d x).stilek = g.stilek := by unfold Group.setQ; split <;> rfl
@[simp] theorem Group.setQ_nstat (g : Group) (d : Nat) (x : Bool) : (g.setQ d x).nstat = g.nstat := by unfold Group.setQ; split <;> rfl
@[simp] theorem Group.setQ_ylddl (g : Group) (d : Nat) (x : Bool) : (g.setQ d x).ylddl = g.ylddl := by unfold Group.setQ; split <;> rfl
@[simp] theorem Group.setQ_cwaitDl (g : Group) (d : Nat) (x : Bool) : (g.setQ d x).cwaitDl = g.cwaitDl := by unfold Group.setQ; split <;> rfl
@[simp] theorem Group.setQ_clause (g : Group) (d : Nat) (x : Bool) : (g.setQ d x).clause = g.clause := by unfold Group.setQ; split <;> rfl
@[simp] theorem Group.setQ_sb (g : Group) (d : Nat) (x : Bool) : (g.setQ d x).sb = g.sb := by unfold Group.setQ; split <;> rfl
@[simp] theorem Group.setQ_pend (g : Group) (d : Nat) (x : Bool) : (g.setQ d x).pend = g.pend := by unfold Group.setQ; split <;> rfl
@[simp] theorem Group.setQ_wait (g : Group) (d : Nat) (x : Bool) : (g.setQ d x).wait = g.wait := by unfold Group.setQ; split <;> rfl
@[simp] theorem Group.setQ_trapReq (g : Group) (d : Nat) (x : Bool) : (g.setQ d x).trapReq = g.trapReq := by unfold Group.setQ; split <;> rfl
@[simp] theorem Group.setQ_storeQ (g : Group) (d : Nat) (x : Bool) : (g.setQ d x).storeQ = g.storeQ := by unfold Group.setQ; split <;> rfl
@[simp] theorem Group.setQ_slate (g : Group) (d : Nat) (x : Bool) : (g.setQ d x).slate = g.slate := by unfold Group.setQ; split <;> rfl
@[simp] theorem Group.setQ_xrec (g : Group) (d : Nat) (x : Bool) : (g.setQ d x).xrec = g.xrec := by unfold Group.setQ; split <;> rfl
@[simp] theorem Group.setQ_peerFail (g : Group) (d : Nat) (x : Bool) : (g.setQ d x).peerFail = g.peerFail := by unfold Group.setQ; split <;> rfl
@[simp] theorem Group.setQ_readyAt (g : Group) (d : Nat) (x : Bool) : (g.setQ d x).readyAt = g.readyAt := by unfold Group.setQ; split <;> rfl
@[simp] theorem Group.setQ_ended (g : Group) (d : Nat) (x : Bool) : (g.setQ d x).ended = g.ended := by unfold Group.setQ; split <;> rfl
@[simp] theorem Group.setQ_callSpills (g : Group) (d : Nat) (x : Bool) : (g.setQ d x).callSpills = g.callSpills := by unfold Group.setQ; split <;> rfl
@[simp] theorem Group.setQ_callFills (g : Group) (d : Nat) (x : Bool) : (g.setQ d x).callFills = g.callFills := by unfold Group.setQ; split <;> rfl

/-! ### A predicate register -/

@[simp] theorem Group.setP_grp (g : Group) (d : Nat) (m x : Mask) : (g.setP d m x).grp = g.grp := by unfold Group.setP; split <;> rfl
@[simp] theorem Group.setP_role (g : Group) (d : Nat) (m x : Mask) : (g.setP d m x).role = g.role := by unfold Group.setP; split <;> rfl
@[simp] theorem Group.setP_regs (g : Group) (d : Nat) (m x : Mask) : (g.setP d m x).regs = g.regs := by unfold Group.setP; split <;> rfl
@[simp] theorem Group.setP_lanes (g : Group) (d : Nat) (m x : Mask) : (g.setP d m x).lanes = g.lanes := by unfold Group.setP; split <;> rfl
@[simp] theorem Group.setP_v (g : Group) (d : Nat) (m x : Mask) : (g.setP d m x).v = g.v := by unfold Group.setP; split <;> rfl
@[simp] theorem Group.setP_vt (g : Group) (d : Nat) (m x : Mask) : (g.setP d m x).vt = g.vt := by unfold Group.setP; split <;> rfl
@[simp] theorem Group.setP_s (g : Group) (d : Nat) (m x : Mask) : (g.setP d m x).s = g.s := by unfold Group.setP; split <;> rfl
@[simp] theorem Group.setP_q (g : Group) (d : Nat) (m x : Mask) : (g.setP d m x).q = g.q := by unfold Group.setP; split <;> rfl
@[simp] theorem Group.setP_k (g : Group) (d : Nat) (m x : Mask) : (g.setP d m x).k = g.k := by unfold Group.setP; split <;> rfl
@[simp] theorem Group.setP_loops (g : Group) (d : Nat) (m x : Mask) : (g.setP d m x).loops = g.loops := by unfold Group.setP; split <;> rfl
@[simp] theorem Group.setP_saved (g : Group) (d : Nat) (m x : Mask) : (g.setP d m x).saved = g.saved := by unfold Group.setP; split <;> rfl
@[simp] theorem Group.setP_inTrap (g : Group) (d : Nat) (m x : Mask) : (g.setP d m x).inTrap = g.inTrap := by unfold Group.setP; split <;> rfl
@[simp] theorem Group.setP_traph (g : Group) (d : Nat) (m x : Mask) : (g.setP d m x).traph = g.traph := by unfold Group.setP; split <;> rfl
@[simp] theorem Group.setP_tcause (g : Group) (d : Nat) (m x : Mask) : (g.setP d m x).tcause = g.tcause := by unfold Group.setP; split <;> rfl
@[simp] theorem Group.setP_ssyn (g : Group) (d : Nat) (m x : Mask) : (g.setP d m x).ssyn = g.ssyn := by unfold Group.setP; split <;> rfl
@[simp] theorem Group.setP_sunit (g : Group) (d : Nat) (m x : Mask) : (g.setP d m x).sunit = g.sunit := by unfold Group.setP; split <;> rfl
@[simp] theorem Group.setP_stilex (g : Group) (d : Nat) (m x : Mask) : (g.setP d m x).stilex = g.stilex := by unfold Group.setP; split <;> rfl
@[simp] theorem Group.setP_stiley (g : Group) (d : Nat) (m x : Mask) : (g.setP d m x).stiley = g.stiley := by unfold Group.setP; split <;> rfl
@[simp] theorem Group.setP_stilek (g : Group) (d : Nat) (m x : Mask) : (g.setP d m x).stilek = g.stilek := by unfold Group.setP; split <;> rfl
@[simp] theorem Group.setP_nstat (g : Group) (d : Nat) (m x : Mask) : (g.setP d m x).nstat = g.nstat := by unfold Group.setP; split <;> rfl
@[simp] theorem Group.setP_ylddl (g : Group) (d : Nat) (m x : Mask) : (g.setP d m x).ylddl = g.ylddl := by unfold Group.setP; split <;> rfl
@[simp] theorem Group.setP_cwaitDl (g : Group) (d : Nat) (m x : Mask) : (g.setP d m x).cwaitDl = g.cwaitDl := by unfold Group.setP; split <;> rfl
@[simp] theorem Group.setP_clause (g : Group) (d : Nat) (m x : Mask) : (g.setP d m x).clause = g.clause := by unfold Group.setP; split <;> rfl
@[simp] theorem Group.setP_sb (g : Group) (d : Nat) (m x : Mask) : (g.setP d m x).sb = g.sb := by unfold Group.setP; split <;> rfl
@[simp] theorem Group.setP_pend (g : Group) (d : Nat) (m x : Mask) : (g.setP d m x).pend = g.pend := by unfold Group.setP; split <;> rfl
@[simp] theorem Group.setP_wait (g : Group) (d : Nat) (m x : Mask) : (g.setP d m x).wait = g.wait := by unfold Group.setP; split <;> rfl
@[simp] theorem Group.setP_trapReq (g : Group) (d : Nat) (m x : Mask) : (g.setP d m x).trapReq = g.trapReq := by unfold Group.setP; split <;> rfl
@[simp] theorem Group.setP_storeQ (g : Group) (d : Nat) (m x : Mask) : (g.setP d m x).storeQ = g.storeQ := by unfold Group.setP; split <;> rfl
@[simp] theorem Group.setP_slate (g : Group) (d : Nat) (m x : Mask) : (g.setP d m x).slate = g.slate := by unfold Group.setP; split <;> rfl
@[simp] theorem Group.setP_xrec (g : Group) (d : Nat) (m x : Mask) : (g.setP d m x).xrec = g.xrec := by unfold Group.setP; split <;> rfl
@[simp] theorem Group.setP_peerFail (g : Group) (d : Nat) (m x : Mask) : (g.setP d m x).peerFail = g.peerFail := by unfold Group.setP; split <;> rfl
@[simp] theorem Group.setP_readyAt (g : Group) (d : Nat) (m x : Mask) : (g.setP d m x).readyAt = g.readyAt := by unfold Group.setP; split <;> rfl
@[simp] theorem Group.setP_ended (g : Group) (d : Nat) (m x : Mask) : (g.setP d m x).ended = g.ended := by unfold Group.setP; split <;> rfl
@[simp] theorem Group.setP_callSpills (g : Group) (d : Nat) (m x : Mask) : (g.setP d m x).callSpills = g.callSpills := by unfold Group.setP; split <;> rfl
@[simp] theorem Group.setP_callFills (g : Group) (d : Nat) (m x : Mask) : (g.setP d m x).callFills = g.callFills := by unfold Group.setP; split <;> rfl

/-! ### A name register -/

@[simp] theorem Group.setK_grp (g : Group) (d : Nat) (x : Name) : (g.setK d x).grp = g.grp := rfl
@[simp] theorem Group.setK_role (g : Group) (d : Nat) (x : Name) : (g.setK d x).role = g.role := rfl
@[simp] theorem Group.setK_regs (g : Group) (d : Nat) (x : Name) : (g.setK d x).regs = g.regs := rfl
@[simp] theorem Group.setK_lanes (g : Group) (d : Nat) (x : Name) : (g.setK d x).lanes = g.lanes := rfl
@[simp] theorem Group.setK_v (g : Group) (d : Nat) (x : Name) : (g.setK d x).v = g.v := rfl
@[simp] theorem Group.setK_vt (g : Group) (d : Nat) (x : Name) : (g.setK d x).vt = g.vt := rfl
@[simp] theorem Group.setK_s (g : Group) (d : Nat) (x : Name) : (g.setK d x).s = g.s := rfl
@[simp] theorem Group.setK_p (g : Group) (d : Nat) (x : Name) : (g.setK d x).p = g.p := rfl
@[simp] theorem Group.setK_q (g : Group) (d : Nat) (x : Name) : (g.setK d x).q = g.q := rfl
@[simp] theorem Group.setK_loops (g : Group) (d : Nat) (x : Name) : (g.setK d x).loops = g.loops := rfl
@[simp] theorem Group.setK_saved (g : Group) (d : Nat) (x : Name) : (g.setK d x).saved = g.saved := rfl
@[simp] theorem Group.setK_inTrap (g : Group) (d : Nat) (x : Name) : (g.setK d x).inTrap = g.inTrap := rfl
@[simp] theorem Group.setK_traph (g : Group) (d : Nat) (x : Name) : (g.setK d x).traph = g.traph := rfl
@[simp] theorem Group.setK_tcause (g : Group) (d : Nat) (x : Name) : (g.setK d x).tcause = g.tcause := rfl
@[simp] theorem Group.setK_ssyn (g : Group) (d : Nat) (x : Name) : (g.setK d x).ssyn = g.ssyn := rfl
@[simp] theorem Group.setK_sunit (g : Group) (d : Nat) (x : Name) : (g.setK d x).sunit = g.sunit := rfl
@[simp] theorem Group.setK_stilex (g : Group) (d : Nat) (x : Name) : (g.setK d x).stilex = g.stilex := rfl
@[simp] theorem Group.setK_stiley (g : Group) (d : Nat) (x : Name) : (g.setK d x).stiley = g.stiley := rfl
@[simp] theorem Group.setK_stilek (g : Group) (d : Nat) (x : Name) : (g.setK d x).stilek = g.stilek := rfl
@[simp] theorem Group.setK_nstat (g : Group) (d : Nat) (x : Name) : (g.setK d x).nstat = g.nstat := rfl
@[simp] theorem Group.setK_ylddl (g : Group) (d : Nat) (x : Name) : (g.setK d x).ylddl = g.ylddl := rfl
@[simp] theorem Group.setK_cwaitDl (g : Group) (d : Nat) (x : Name) : (g.setK d x).cwaitDl = g.cwaitDl := rfl
@[simp] theorem Group.setK_clause (g : Group) (d : Nat) (x : Name) : (g.setK d x).clause = g.clause := rfl
@[simp] theorem Group.setK_sb (g : Group) (d : Nat) (x : Name) : (g.setK d x).sb = g.sb := rfl
@[simp] theorem Group.setK_pend (g : Group) (d : Nat) (x : Name) : (g.setK d x).pend = g.pend := rfl
@[simp] theorem Group.setK_wait (g : Group) (d : Nat) (x : Name) : (g.setK d x).wait = g.wait := rfl
@[simp] theorem Group.setK_trapReq (g : Group) (d : Nat) (x : Name) : (g.setK d x).trapReq = g.trapReq := rfl
@[simp] theorem Group.setK_storeQ (g : Group) (d : Nat) (x : Name) : (g.setK d x).storeQ = g.storeQ := rfl
@[simp] theorem Group.setK_slate (g : Group) (d : Nat) (x : Name) : (g.setK d x).slate = g.slate := rfl
@[simp] theorem Group.setK_xrec (g : Group) (d : Nat) (x : Name) : (g.setK d x).xrec = g.xrec := rfl
@[simp] theorem Group.setK_peerFail (g : Group) (d : Nat) (x : Name) : (g.setK d x).peerFail = g.peerFail := rfl
@[simp] theorem Group.setK_readyAt (g : Group) (d : Nat) (x : Name) : (g.setK d x).readyAt = g.readyAt := rfl
@[simp] theorem Group.setK_ended (g : Group) (d : Nat) (x : Name) : (g.setK d x).ended = g.ended := rfl
@[simp] theorem Group.setK_callSpills (g : Group) (d : Nat) (x : Name) : (g.setK d x).callSpills = g.callSpills := rfl
@[simp] theorem Group.setK_callFills (g : Group) (d : Nat) (x : Name) : (g.setK d x).callFills = g.callFills := rfl

/-! ### NSTAT -/

@[simp] theorem Group.setN_grp (g : Group) (n : Nat) : (g.setN n).grp = g.grp := rfl
@[simp] theorem Group.setN_role (g : Group) (n : Nat) : (g.setN n).role = g.role := rfl
@[simp] theorem Group.setN_regs (g : Group) (n : Nat) : (g.setN n).regs = g.regs := rfl
@[simp] theorem Group.setN_lanes (g : Group) (n : Nat) : (g.setN n).lanes = g.lanes := rfl
@[simp] theorem Group.setN_v (g : Group) (n : Nat) : (g.setN n).v = g.v := rfl
@[simp] theorem Group.setN_vt (g : Group) (n : Nat) : (g.setN n).vt = g.vt := rfl
@[simp] theorem Group.setN_s (g : Group) (n : Nat) : (g.setN n).s = g.s := rfl
@[simp] theorem Group.setN_p (g : Group) (n : Nat) : (g.setN n).p = g.p := rfl
@[simp] theorem Group.setN_q (g : Group) (n : Nat) : (g.setN n).q = g.q := rfl
@[simp] theorem Group.setN_k (g : Group) (n : Nat) : (g.setN n).k = g.k := rfl
@[simp] theorem Group.setN_loops (g : Group) (n : Nat) : (g.setN n).loops = g.loops := rfl
@[simp] theorem Group.setN_saved (g : Group) (n : Nat) : (g.setN n).saved = g.saved := rfl
@[simp] theorem Group.setN_inTrap (g : Group) (n : Nat) : (g.setN n).inTrap = g.inTrap := rfl
@[simp] theorem Group.setN_traph (g : Group) (n : Nat) : (g.setN n).traph = g.traph := rfl
@[simp] theorem Group.setN_tcause (g : Group) (n : Nat) : (g.setN n).tcause = g.tcause := rfl
@[simp] theorem Group.setN_ssyn (g : Group) (n : Nat) : (g.setN n).ssyn = g.ssyn := rfl
@[simp] theorem Group.setN_sunit (g : Group) (n : Nat) : (g.setN n).sunit = g.sunit := rfl
@[simp] theorem Group.setN_stilex (g : Group) (n : Nat) : (g.setN n).stilex = g.stilex := rfl
@[simp] theorem Group.setN_stiley (g : Group) (n : Nat) : (g.setN n).stiley = g.stiley := rfl
@[simp] theorem Group.setN_stilek (g : Group) (n : Nat) : (g.setN n).stilek = g.stilek := rfl
@[simp] theorem Group.setN_ylddl (g : Group) (n : Nat) : (g.setN n).ylddl = g.ylddl := rfl
@[simp] theorem Group.setN_cwaitDl (g : Group) (n : Nat) : (g.setN n).cwaitDl = g.cwaitDl := rfl
@[simp] theorem Group.setN_clause (g : Group) (n : Nat) : (g.setN n).clause = g.clause := rfl
@[simp] theorem Group.setN_sb (g : Group) (n : Nat) : (g.setN n).sb = g.sb := rfl
@[simp] theorem Group.setN_pend (g : Group) (n : Nat) : (g.setN n).pend = g.pend := rfl
@[simp] theorem Group.setN_wait (g : Group) (n : Nat) : (g.setN n).wait = g.wait := rfl
@[simp] theorem Group.setN_trapReq (g : Group) (n : Nat) : (g.setN n).trapReq = g.trapReq := rfl
@[simp] theorem Group.setN_storeQ (g : Group) (n : Nat) : (g.setN n).storeQ = g.storeQ := rfl
@[simp] theorem Group.setN_slate (g : Group) (n : Nat) : (g.setN n).slate = g.slate := rfl
@[simp] theorem Group.setN_xrec (g : Group) (n : Nat) : (g.setN n).xrec = g.xrec := rfl
@[simp] theorem Group.setN_peerFail (g : Group) (n : Nat) : (g.setN n).peerFail = g.peerFail := rfl
@[simp] theorem Group.setN_readyAt (g : Group) (n : Nat) : (g.setN n).readyAt = g.readyAt := rfl
@[simp] theorem Group.setN_ended (g : Group) (n : Nat) : (g.setN n).ended = g.ended := rfl
@[simp] theorem Group.setN_callSpills (g : Group) (n : Nat) : (g.setN n).callSpills = g.callSpills := rfl
@[simp] theorem Group.setN_callFills (g : Group) (n : Nat) : (g.setN n).callFills = g.callFills := rfl

end Sys2Proof.Machine
end

