-- ==== Sys2Proof/Laws/Traps.lean ====
section
/-! SUPPORT. What waiting, parking, faulting and trapping can do: each shared operation said once. -/

set_option Elab.async false

namespace Sys2Proof.Machine

open Sys2Proof

theorem modGroup_spec {s : State} {r : GRef} {g : Group} (f : Group → Group) (hf : ∀ g, (f g).grp = g.grp)
    (h : s.group? r = some g) : OnlyGroup s (s.modGroup r f) r ∧ (s.modGroup r f).group? r = some (f g) :=
  ⟨OnlyGroup.mod s r f hf, group?_modGroup_same f hf h⟩

theorem curMod_spec {s : State} {c : Cur} {g : Group} (f : Group → Group) (hf : ∀ g, (f g).grp = g.grp)
    (h : s.group? c.ref = some g) : OnlyGroup s (c.mod s f) c.ref ∧ (c.mod s f).group? c.ref = some (f g) :=
  modGroup_spec f hf h

/-! ### Waiting (R168) -/

/-- A wait that begins: the group alone, and of it the wait alone. -/
theorem waitFor_spec {s : State} {c : Cur} {g : Group} (w : Why) (h : s.group? c.ref = some g) :
    OnlyGroup s (waitFor s c w) c.ref ∧ (waitFor s c w).group? c.ref = some { g with wait := some ⟨w, c.n⟩ } :=
  curMod_spec (fun g => { g with wait := some ⟨w, c.n⟩ }) (fun _ => rfl) h

/-- A wait that ends: the group is eligible from now on. -/
theorem wake_spec {s : State} {r : GRef} {g : Group} (h : s.group? r = some g) :
    OnlyGroup s (wake s r) r ∧ (wake s r).group? r = some { g with wait := none, readyAt := s.seqN } := by
  obtain ⟨o, e⟩ := modGroup_spec (fun g => { g with wait := none, readyAt := s.seqN }) (fun _ => rfl) h
  exact ⟨o.trans (OnlyGroup.book _ r s.issuing (s.seqN + 1)), e⟩

/-- A word that is blocked: it is issued again, uncounted, when its wait ends. -/
theorem blockWord_spec {s : State} {c : Cur} {g : Group} (w : Why) (h : s.group? c.ref = some g) :
    OnlyGroup s (blockWord s c w) c.ref ∧ (blockWord s c w).group? c.ref =
      some { g with wait := some ⟨w, c.n⟩, clause := g.clause.map (fun cl => { cl with redo := true }) } := by
  unfold blockWord
  by_cases hp : Why.point w = true
  · simp only [hp, if_true]
    have h' : (standAt s c.ref).group? c.ref = some g := by rw [group?_standAt, h]
    obtain ⟨o, e⟩ := curMod_spec (c := c) (fun g => { g with wait := some ⟨w, c.n⟩, clause := g.clause.map (fun cl => { cl with redo := true }) })
      (fun _ => rfl) h'
    exact ⟨(OnlyGroup.standAt s c.ref).trans o, e⟩
  · simp only [hp, Bool.false_eq_true, if_false]
    exact curMod_spec (c := c) (fun g => { g with wait := some ⟨w, c.n⟩, clause := g.clause.map (fun cl => { cl with redo := true }) })
      (fun _ => rfl) h

/-! ### Parking (R214) -/

/-- Lanes that park stand on the word, outside X; the others stay as they were. -/
theorem parkLanes_spec {s : State} {c : Cur} {g : Group} (m : Mask) (h : s.group? c.ref = some g) :
    OnlyGroup s (parkLanes s c m) c.ref ∧ ∃ g', (parkLanes s c m).group? c.ref = some g' ∧ Moved g g' ∧
      (m ≠ 0 → g'.clause = g.clause.map (fun cl => { cl with x := cl.x &&& ~~~m })) ∧
      ∀ (i : Nat) (l : Lane), g.lanes[i]? = some l → g'.lanes[i]? = some
        (if m.getLsbD i then { l with st := .parked, pc := c.n.pc, ins := some ⟨c.n.hdr, c.n.head⟩ } else l) := by
  unfold parkLanes
  by_cases hm : m = 0
  · subst hm
    refine ⟨OnlyGroup.refl s _, g, h, Moved.refl g, fun k => absurd rfl k, fun i l hl => ?_⟩
    simp [hl]
  · rw [if_neg (by simpa using hm)]
    obtain ⟨o, e⟩ := curMod_spec (c := c) (fun g => { g with
      clause := g.clause.map (fun cl => { cl with x := cl.x &&& ~~~m })
      lanes := mapLanes m (fun _ l => { l with st := .parked, pc := c.n.pc, ins := some ⟨c.n.hdr, c.n.head⟩ }) 0 g.lanes })
      (fun _ => rfl) h
    refine ⟨o, _, e, ⟨rfl, LanesMoved.mapLanes m _ (fun _ _ => rfl) g.lanes⟩, fun _ => rfl, fun i l hl => ?_⟩
    simp only [mapLanes_getElem?, hl, Option.map_some, Nat.zero_add]

/-! ### Faults (R334) -/

/-- A fault marks its team, once; nothing else of the state changes. -/
theorem endTeam_team? (s : State) (n : Nat) (e : Ending) (k : Nat) :
    (endTeam s n e).team? k = (s.team? k).map (fun t =>
      if t.id = n ∧ t.ending = none then { t with ending := some e } else t) := by
  unfold endTeam
  rw [team?_modTeam s n _ (fun t => by split <;> rfl)]
  congr 1
  funext t
  by_cases h : t.id = n
  · simp only [h, beq_self_eq_true, if_true, true_and]
    cases t.ending <;> simp
  · simp [h]

theorem endTeam_frame (s : State) (n : Nat) (e : Ending) : endTeam s n e = { s with teams := (endTeam s n e).teams } := rfl

theorem wordFault_frame (s : State) (c : Cur) (x : Cause) : wordFault s c x = { s with teams := (wordFault s c x).teams } := rfl

/-! ### User traps (R327, R330) -/

/-- The end of a clause some of whose lanes stay on the word. -/
theorem splitClause_spec {s : State} {c : Cur} {g : Group} (stay : Mask) (go : Nat → Lane → Lane) (hgo : MovesLane go)
    (h : s.group? c.ref = some g) :
    OnlyGroup s (splitClause s c stay go) c.ref ∧
    ∃ g', (splitClause s c stay go).group? c.ref = some g' ∧ Moved g g' ∧ g'.clause = none ∧ g'.wait = g.wait := by
  have hm : MovesLane (fun i l => if stay.getLsbD i then { l with pc := c.n.pc, ins := some ⟨c.n.hdr, c.n.head⟩ } else go i l) := by
    intro i x
    dsimp only
    split
    · rfl
    · exact hgo i x
  obtain ⟨o, g', e, m, hc, -, hw⟩ := endClause_spec s c _ hm h
  exact ⟨o, g', e, m, hc, hw⟩

/-- Lanes that trap: outside a handler the request is recorded with the cause of the lowest of them and the lanes of
that cause, and the clause ends. -/
theorem raiseTrapsGo_spec {s : State} {c : Cur} {g : Group} {go : Nat → Lane → Lane} (hgo : MovesLane go) (imm : BitVec 8)
    (tpc ssyn : Word) (sunit : Lane32) (stile : Nat × Nat × Nat) (l : List LaneTrap) (t0 : LaneTrap) (ts : List LaneTrap)
    (ht : byLane l = t0 :: ts) (h : s.group? c.ref = some g) (hi : c.g.inTrap = false) :
    OnlyGroup s (raiseTrapsGo go s c imm tpc ssyn sunit stile l) c.ref ∧
    ∃ g' r, (raiseTrapsGo go s c imm tpc ssyn sunit stile l).group? c.ref = some { g' with trapReq := some r } ∧
      Moved g g' ∧ g'.clause = none ∧ r.cause = t0.cause ∧ r.imm = imm ∧ r.now = c.n ∧
      r.lanes = ((t0 :: ts).filter (fun t => t.cause == t0.cause)).map (fun t => ⟨t.lane, tpc, t.ttag, t.faultva⟩) := by
  obtain ⟨o, g', e, m, hc, -⟩ := splitClause_spec (c := c) (maskOf ((t0 :: ts).map (·.lane))) go hgo h
  simp only [raiseTrapsGo, ht, hi, Bool.false_eq_true, if_false]
  obtain ⟨o2, e2⟩ := curMod_spec (c := c) (fun g => { g with trapReq := some (⟨t0.cause, imm,
    ((t0 :: ts).filter (fun t => t.cause == t0.cause)).length != (t0 :: ts).length,
    ((t0 :: ts).filter (fun t => t.cause == t0.cause)).map (fun t => ⟨t.lane, tpc, t.ttag, t.faultva⟩),
    ssyn, sunit, stile, c.n⟩ : TrapReq) }) (fun _ => rfl) e
  exact ⟨o.trans o2, g', _, e2, m, hc, rfl, rfl, rfl, rfl⟩

/-- In a handler a further trap ends the team with TRAP_STATE. -/
theorem raiseTrapsGo_inTrap {s : State} {c : Cur} {go : Nat → Lane → Lane} (imm : BitVec 8) (tpc ssyn : Word) (sunit : Lane32)
    (stile : Nat × Nat × Nat) (l : List LaneTrap) (t0 : LaneTrap) (ts : List LaneTrap) (ht : byLane l = t0 :: ts)
    (hi : c.g.inTrap = true) :
    raiseTrapsGo go s c imm tpc ssyn sunit stile l =
      endTeam s c.t.id ⟨.trapState, false, c.ref, t0.lane, t0.faultva.toNat, c.n.pc, t0.ttag, 0, 0⟩ := by
  simp only [raiseTrapsGo, ht, hi, if_true]

theorem goAfter_moves (c : Cur) : MovesLane (goAfter c) :=
  goTo_moves c.g.loops c.l.kernel (fun _ _ => (afterWord c.n).1) (fun _ _ => (afterWord c.n).2)

theorem moved_trapReq {g g' : Group} (h : Moved g g') : g'.trapReq = g.trapReq ∧ Moved { g with trapReq := g'.trapReq } g' := by
  have e : g'.trapReq = g.trapReq := by rw [h.1]
  exact ⟨e, by rw [e]; exact h⟩

/-! ### The end of a word some of whose lanes park or trap -/

/-- With no lane that parks or traps, the word is done. -/
theorem settle_none (s : State) (c : Cur) (h : Head) : settle s c h 0 [] = finish s c h := by
  simp [settle, parkLanes]

/-- Whatever its lanes do, the word is confined to its group, outside a handler. -/
theorem settle_spec {s : State} {c : Cur} {h : Head} {g : Group} (parks : Mask) (traps : List LaneTrap)
    (hg : s.group? c.ref = some g) (hi : c.g.inTrap = false) :
    OnlyGroup s (settle s c h parks traps) c.ref ∧
    ∃ g', (settle s c h parks traps).group? c.ref = some g' ∧ Moved { g with trapReq := g'.trapReq } g' ∧
      (traps = [] → g'.trapReq = g.trapReq) := by
  obtain ⟨o1, g1, e1, m1, -, -⟩ := parkLanes_spec (c := c) parks hg
  unfold settle
  cases traps with
  | nil =>
    dsimp only
    split
    · obtain ⟨o2, e2⟩ := leaveClause_spec _ c.ref e1
      have m : Moved g { g1 with clause := none, readyAt := (parkLanes s c parks).seqN } :=
        m1.trans ⟨rfl, LanesMoved.refl _⟩
      exact ⟨o1.trans o2, _, e2, (moved_trapReq m).2, fun _ => (moved_trapReq m).1⟩
    · obtain ⟨o2, g2, e2, m2⟩ := finish_spec (parkLanes s c parks) c h e1
      have m := m1.trans m2
      exact ⟨o1.trans o2, g2, e2, (moved_trapReq m).2, fun _ => (moved_trapReq m).1⟩
  | cons t0 ts =>
    dsimp only
    cases hb : byLane (t0 :: ts) with
    | nil =>
      have e : trapWord (parkLanes s c parks) c (t0 :: ts) = parkLanes s c parks := by
        simp only [trapWord, raiseTraps, raiseTrapsGo, hb]
      rw [e]
      exact ⟨o1, g1, e1, (moved_trapReq m1).2, fun k => by cases k⟩
    | cons u0 us =>
      obtain ⟨o2, g2, r, e2, m2, -⟩ := raiseTrapsGo_spec (goAfter_moves c) 0 c.n.pc 0 0 (0, 0, 0) (t0 :: ts) u0 us hb e1 hi
      have m := m1.trans m2
      refine ⟨o1.trans o2, _, e2, ⟨?_, m.2⟩, fun k => by cases k⟩
      have hm := m.1
      generalize g2.lanes = a, g2.clause = b, g2.wait = w, g2.readyAt = y at hm ⊢
      subst hm
      rfl

end Sys2Proof.Machine
end

