-- ==== Sys2Proof/Tests/Slice0.lean ====
section
/-! SUPPORT. Tests: words decoded as the spec writes them, ill-formed terms refused, one step of some words and events,
and for every statement with hypotheses a state that meets them. -/

set_option Elab.async false

open Sys2Proof Sys2Proof.Machine

/-- A plain head: no switch marker, BLAME, no guard. -/
def hd : Head := ⟨false, .blame, 0, false⟩

/-! ### Decoding: words written out from the tables of R57 to R75 and the spec's examples -/

/-- Scalar words: NOP, SMOV, SADD, SSUB, SMUL, SDIV, SLOG, SSH (R46, R68). -/
theorem test_decode_scalar :
    decode 0x0000000000000000#64 = .ok (.nop hd) ∧
    decode 0x0100001490000000#64 = .ok (.smovReg hd 5 9) ∧
    decode 0x010108FC80000001#64 = .ok (.smovImm hd 63 0x80000001) ∧
    decode 0x01011004DEADBEEF#64 = .ok (.smovHi hd 1 0xDEADBEEF) ∧
    decode 0x0201002C70000090#64 = .ok (.sadd hd .wrap 11 7 (.i 144)) ∧
    decode 0x0300100420C00000#64 = .ok (.ssub hd .satn 1 2 (.r 3)) ∧
    decode 0x0400088628C00000#64 = .ok (.smul hd .hii 33 34 (.r 35)) ∧
    decode 0x050118105FFFFFFF#64 = .ok (.sdiv hd .remn 4 5 (.i (-1))) ∧
    decode 0x060018042F800000#64 = .ok (.slog hd .andn 1 2 (.r 62)) ∧
    decode 0x070120042000003F#64 = .ok (.ssh hd .ror 1 2 (.i 63)) := by
  decide

/-- Scalar words: SCMP, SSEL, SBIT, SMINMAX, QLOG, SLD, SST (R46, R68, R70, R71). -/
theorem test_decode_scalar_2 :
    decode 0x08001004A0800000#64 = .ok (.scmp hd .lt 1 10 (.r 2)) ∧
    decode 0x0900032092800000#64 = .ok (.ssel hd 3 8 9 (.r 10)) ∧
    decode 0x0A00082090000000#64 = .ok (.sbit hd .clz 8 9 .none) ∧
    decode 0x0A002820928B0000#64 = .ok (.sbit hd .bfi 8 9 (.regs 10 11)) ∧
    decode 0x0A01202090001007#64 = .ok (.sbit hd .bfe 8 9 (.imm 7 64)) ∧
    decode 0x0B00102092800000#64 = .ok (.sminmax hd .minn 8 9 (.r 10)) ∧
    decode 0x0C00101C10800000#64 = .ok (.qlog hd .xor 7 1 2) ∧
    decode 0x0D0008102C9A0000#64 = .ok (.sld hd .b32 ⟨.dev, .acq, 0⟩ 11 ⟨9, .none, 0, false, 0⟩) ∧
    decode 0x0E000B6430981B00#64 = .ok (.sst hd .b64 ⟨.sys, .rel, 1⟩ 12 ⟨9, .s 3, 3, false, 0⟩) := by
  decide

/-- Control flow (R46, R69). -/
theorem test_decode_control :
    decode 0x1000070000000005#64 = .ok (.braCond hd 3 true 5) ∧
    decode 0x10001000FFFFFFFE#64 = .ok (.braAlways hd (-2)) ∧
    decode 0x110002000000000A#64 = .ok (.brv hd 1 false 10) ∧
    decode 0x120800C800000000#64 = .ok (.jmpv ⟨false, .blame, 2, false⟩ 200) ∧
    decode 0x13000000FFFFFFFD#64 = .ok (.call hd (-3)) ∧
    decode 0x1400000300000000#64 = .ok (.callv hd 3) ∧
    decode 0x1500000000000000#64 = .ok (.ret hd) ∧
    decode 0x1600000000000000#64 = .ok (.join hd) ∧
    decode 0x1700000000000000#64 = .ok (.defer hd) ∧
    decode 0x1800000300000008#64 = .ok (.loopScalar hd 3 8) ∧
    decode 0x180010FF00000008#64 = .ok (.loopImm hd 255 8) ∧
    decode 0x1900000300000000#64 = .ok (.lbrk hd 3) ∧
    decode 0x1A00000000000000#64 = .ok (.exit hd) ∧
    decode 0x1B00000100000010#64 = .ok (.yld hd true 16) := by
  decide

/-- Special registers (R75): SRD and SWR. -/
theorem test_decode_special :
    decode 0xA20000280002C000#64 = .ok (.srd hd false 40 11) ∧
    decode 0xA200010900078000#64 = .ok (.srd hd true 9 30) ∧
    decode 0xA300010082044000#64 = .ok (.swr hd true 17 (.s 4)) ∧
    decode 0xA3000000B007C000#64 = .ok (.swr hd false 31 .lane) := by
  decide

/-- Vector integer words (R63, R64, R85, R87, R89, R90). -/
theorem test_decode_vector :
    decode 0x20010003018003E8#64 = .ok (.vadd hd .wrap .i32 3 (.v 3) (.i 1000)) ∧
    decode 0x21000E010140C000#64 = .ok (.vsub hd .sat .i16x2 1 (.v 2) (.r (.s 3))) ∧
    decode 0x220011010157C000#64 = .ok (.vmul hd .hin .n32 1 (.v 2) (.r (.c 31))) ∧
    decode 0x230000010100C080#64 = .ok (.vmad hd .i32 1 (.v 2) (.v 3) (.v 4)) ∧
    decode 0x240127010100007F#64 = .ok (.vlog hd .orn .i8x4 1 (.v 2) (.i 0x7F)) ∧
    decode 0x2500100101580000#64 = .ok (.vsh hd .sra .i32 1 (.v 2) (.r .lane)) ∧
    decode 0x260009010100C000#64 = .ok (.vminmax hd .max .n32 1 (.v 2) (.r (.v 3))) ∧
    decode 0x2700100101000000#64 = .ok (.vabs hd .abssat .i32 1 (.v 2)) ∧
    decode 0x280019070100C000#64 = .ok (.vcmp hd .le .n32 7 (.v 2) (.r (.v 3))) ∧
    decode 0x29000302020180A0#64 = .ok (.vsel hd .f64 2 (.v 4) (.v 6) 5) := by
  decide

/-- Further vector integer words (R88 to R90). -/
theorem test_decode_vector_2 :
    decode 0x2A00180101000000#64 = .ok (.vbit hd .brev .i32 1 (.v 2)) ∧
    decode 0x2B0001010100C080#64 = .ok (.vbfe hd .n32 1 (.v 2) (.v 3) (.v 4)) ∧
    decode 0x2C0000010100C080#64 = .ok (.vbfi hd .i32 1 (.v 2) (.v 3) (.v 4)) ∧
    decode 0x2D40020101000000#64 = .ok (.vmov ⟨false, .pass, 0, false⟩ .f32 1 (.reg (.v 2))) ∧
    decode 0x2D010A01001FC000#64 = .ok (.vmov hd .f32 1 (.imm 0x1FC000)) ∧
    decode 0x2D00100100000000#64 = .ok (.vmov hd .i32 1 .lane) ∧
    decode 0x2D00180183800000#64 = .ok (.vmov hd .i32 1 (.scalar 7)) ∧
    decode 0x2E0010010100C000#64 = .ok (.vdiv hd .remi 1 (.v 2) (.v 3)) := by
  decide

/-- Floating-point words (R65, R67, R91, R95, R96, R100, R104). -/
theorem test_decode_float :
    decode 0x300002160A054000#64 = .ok (.fadd hd .f32 22 (.v 20) (.r (.v 21)) ⟨.rn, false, false⟩) ∧
    decode 0x310004010100C012#64 = .ok (.fsub hd .f16x2 1 (.v 2) (.r (.v 3)) ⟨.rs, true, false⟩) ∧
    decode 0x320002170B058000#64 = .ok (.fmul hd .f32 23 (.v 22) (.r (.v 22)) ⟨.rn, false, false⟩) ∧
    decode 0x33000A0804828164#64 = .ok (.ffma hd .pm .f32 8 (.v 9) (.v 10) (.v 11) ⟨.rz, false, false⟩) ∧
    decode 0x340025010100C000#64 = .ok (.fminmax hd .maxabs .bf16x2 1 (.v 2) (.r (.v 3))) ∧
    decode 0x35003A0301010000#64 = .ok (.fcmp hd .ueq .f32 3 (.v 2) (.r (.v 4))) ∧
    decode 0x3601030301000203#64 = .ok (.fcls hd .f64 3 (.v 2) 0x203) ∧
    decode 0x370016010100C080#64 = .ok (.fdot hd (.b8 6) 1 (.v 2) (.v 3) (.v 4) ⟨.rn, false, false⟩) ∧
    decode 0x380042010100C002#64 = .ok (.sfu hd .div 1 (.v 2) (.v 3) true) ∧
    decode 0x39000A2900000000#64 = .ok (.rng hd .unif 41) := by
  decide

/-- Conversions (R66, R112, R120 to R124). -/
theorem test_decode_convert :
    decode 0x3C0004010100004C#64 = .ok (.cvt hd 4 1 (.v 2) 2 ⟨.ru, false, false⟩) ∧
    decode 0x3D00441E0A054041#64 = .ok (.cvtp hd 0x44 30 (.v 20) (.v 21) 2 .rn false true) ∧
    decode 0x3E0002010100C881#64 = .ok (.cvtx hd 2 1 (.v 2) (.v 3) 0x44 ⟨.rn, false, true⟩) ∧
    decode 0x3F000228148A8001#64 = .ok (.fscl hd (.apply .f32 (.v 42) ⟨.rn, false, true⟩) 40 (.v 41)) ∧
    decode 0x3F000A2B16000000#64 = .ok (.fscl hd (.comp 2) 43 (.v 44)) := by
  decide

/-- Cross-lane words (R175). -/
theorem test_decode_cross_lane :
    decode 0x400801190A500000#64 = .ok (.vbal ⟨false, .blame, 2, false⟩ 25 (.v 20) (.c 0)) ∧
    decode 0x4100080501800000#64 = .ok (.vvote hd .all 5 3) ∧
    decode 0x42001B0202018000#64 = .ok (.vshfl hd .xor .f64 2 (.v 4) (.v 6)) ∧
    decode 0x430001160A436240#64 = .ok (.vxch hd 22 (.v 20) (.s 13) (.s 18)) ∧
    decode 0x4400320101000006#64 = .ok (.vreduce hd .fadd .f32 1 (.v 2) ⟨.rz, true, false⟩) ∧
    decode 0x4500080101000001#64 = .ok (.vscan hd .eadd .i32 1 (.v 2) true) ∧
    decode 0x4600010202000000#64 = .ok (.vmatch hd 2 (.v 4)) ∧
    decode 0x470002018150C000#64 = .ok (.vlane hd .ins .f32 1 (.s 2) (.c 3)) ∧
    decode 0x470009090140C000#64 = .ok (.vlane hd .ext .n32 9 (.v 2) (.s 3)) := by
  decide

/-- Memory words (R70, R71). -/
theorem test_decode_memory :
    decode 0x5000080050800A00#64 = .ok (.vld hd .b32 ⟨.dev, .relaxed, 0⟩ 20 ⟨8, .v 1, 2, false, 0⟩) ∧
    decode 0x5100080050B00A00#64 = .ok (.vst hd .b32 ⟨.dev, .relaxed, 0⟩ 20 ⟨11, .v 1, 2, false, 0⟩) ∧
    decode 0x5200000400800A40#64 = .ok (.pref hd 1 ⟨8, .v 1, 2, false, -64⟩) ∧
    decode 0x530008000C800A00#64 = .ok (.probe hd .b32 3 ⟨8, .v 1, 2, false, 0⟩) ∧
    decode 0x54000000088A0001#64 = .ok (.bankcfg hd 2 8 .scratch) ∧
    decode 0x55000000008A003F#64 = .ok (.iinv hd ⟨8, .none, 0, false, 63⟩) ∧
    decode 0x5000020C0C082880#64 = .ok (.vld hd .n8 ⟨.dev, .relaxed, 3⟩ 3 ⟨0, .s 5, 0, true, 0⟩) := by
  decide

/-- Atomics and reductions at memory (R70, R71, R222, R226). -/
theorem test_decode_atomic :
    decode 0x6000080050800A00#64 = .ok (.atom hd .add .b32 ⟨.dev, .relaxed, 0⟩ 20 ⟨8, .v 1, 2, false, 0⟩) ∧
    decode 0x61000830789A0000#64 = .ok (.acas hd .b32 ⟨.dev, .ar, 0⟩ 30 ⟨9, .none, 0, false, 0⟩) ∧
    decode 0x6200380050F00A00#64 = .ok (.red hd .fadd .b32 ⟨.dev, .relaxed, 0⟩ 20 ⟨15, .v 1, 2, false, 0⟩) ∧
    decode 0x6300003000000080#64 = .ok (.fence hd .dev .ar) := by
  decide

/-- Synchronisation words (R72, R73). -/
theorem test_decode_sync :
    decode 0x6400000080C00000#64 = .ok (.qpush hd 0 false false 2 12) ∧
    decode 0x6500060880C00000#64 = .ok (.qpop hd 3 true false 2 12) ∧
    decode 0x6600020480310000#64 = .ok (.qallowGrant hd 1 true 2 3 4) ∧
    decode 0x6600120080300000#64 = .ok (.qallowRead hd 1 false 2 3) ∧
    decode 0x670000D000000E81#64 = .ok (.cwait hd 0 false .clu .acq 14 (.i 1) none) ∧
    decode 0x67000A0804310E00#64 = .ok (.cwait hd 5 true .dev .relaxed 14 (.r 3) (some 4)) ∧
    decode 0x6800002000000E81#64 = .ok (.carr hd .dev .rel 14 (.i 1)) ∧
    decode 0x6900000000000E00#64 = .ok (.crst hd 14) ∧
    decode 0x6A00100000000002#64 = .ok (.tbar hd (some 2)) ∧
    decode 0x6B00000000000000#64 = .ok (.commit hd) := by
  decide

/-- Matrix words (R71, R73). -/
theorem test_decode_matrix :
    decode 0x7000100404A2C044#64 = .ok (.mma hd true true true 0 1 10 11 4) ∧
    decode 0x7180000000000004#64 = .ok (.aacq ⟨true, .blame, 0, false⟩ 4) ∧
    decode 0x7200000000000004#64 = .ok (.arel hd 4) ∧
    decode 0x7300000010EA0000#64 = .ok (.ald hd ⟨.dev, .relaxed, 0⟩ 4 ⟨14, .none, 0, false, 0⟩) ∧
    decode 0x7400000010EA0000#64 = .ok (.ast hd ⟨.dev, .relaxed, 0⟩ 4 ⟨14, .none, 0, false, 0⟩) ∧
    decode 0x7500000000000004#64 = .ok (.azero hd 4) ∧
    decode 0x7600000010FA0000#64 = .ok (.adrnStore hd ⟨.dev, .relaxed, 0⟩ 4 ⟨15, .none, 0, false, 0⟩) ∧
    decode 0x7600100010FA0000#64 = .ok (.adrnFadd hd ⟨.dev, .relaxed, 0⟩ 4 ⟨15, .none, 0, false, 0⟩) := by
  decide

/-- Engine words and control programs (R73). -/
theorem test_decode_engine :
    decode 0x780004608CC34ECF#64 = .ok (.xcopy hd ⟨2, .rz, true, false, 2, 3, 12, 13, 14, true, some 15⟩) ∧
    decode 0x790000008CC34E00#64 = .ok (.xformDec hd ⟨0, .rn, false, false, 2, 3, 12, 13, 14, false, none⟩) ∧
    decode 0x790010048CC34E00#64 = .ok (.xformPerm hd ⟨0, .rn, false, true, 2, 3, 12, 13, 14, false, none⟩) ∧
    decode 0x790028E08CC34E00#64 = .ok (.xformCvt hd ⟨4, .ru, true, false, 2, 3, 12, 13, 14, false, none⟩) ∧
    decode 0x7900300080C34E00#64 = .ok (.xformFill hd ⟨0, .rn, false, false, 2, 0, 12, 13, 14, false, none⟩) ∧
    decode 0x7A00000001400E00#64 = .ok (.xstat hd 20 14) ∧
    decode 0x7B00040141B05C00#64 = .ok (.cprun hd 2 false 5 27 1 28) ∧
    decode 0x7C00060141600000#64 = .ok (.cpstat hd 3 false 5 22) ∧
    decode 0x7D00020140000000#64 = .ok (.cpstop hd 1 false 5) := by
  decide

/-- Name words (R71, R74). -/
theorem test_decode_names :
    decode 0x8000022000C02000#64 = .ok (.nnew hd 1 2 0x02 12) ∧
    decode 0x8180020200000000#64 = .ok (.nkill ⟨true, .blame, 0, false⟩ 1 false 2) ∧
    decode 0x8200060100000000#64 = .ok (.nres hd 3 false 1) ∧
    decode 0x83000400C08A0000#64 = .ok (.nld hd 2 ⟨.dev, .relaxed, 0⟩ 3 ⟨8, .none, 0, false, 0⟩) ∧
    decode 0x84000408C08A0000#64 = .ok (.nst hd 2 ⟨.dev, .relaxed, 2⟩ 3 ⟨8, .none, 0, false, 0⟩) ∧
    decode 0x85001231149A0000#64 = .ok (.ncas hd true 1 ⟨.dev, .ar, 0⟩ 4 5 ⟨9, .none, 0, false, 0⟩) ∧
    decode 0x8600032300000000#64 = .ok (.nmov hd 1 true 2 3) ∧
    decode 0x8700000250001000#64 = .ok (.ninfo hd 0 false 2 20 1) := by
  decide

/-- Origin tag words (R357, R361). -/
theorem test_decode_tags :
    decode 0x880001280A800000#64 = .ok (.tget hd 40 (.v 21)) ∧
    decode 0x8900011E84800000#64 = .ok (.tset hd 30 (.reg (.s 9))) ∧
    decode 0x8908091400000000#64 = .ok (.tset ⟨false, .blame, 2, false⟩ 20 .born) ∧
    decode 0x8900111E00000000#64 = .ok (.tset hd 30 .clre) ∧
    decode 0x8A0002000A800000#64 = .ok (.tchk hd .f32 (.v 21)) ∧
    decode 0x8B000800A4800C00#64 = .ok (.tldg hd ⟨.dev, .relaxed, 0⟩ 41 ⟨8, .v 1, 4, false, 0⟩) ∧
    decode 0x8C000800A8900C00#64 = .ok (.tstg hd ⟨.dev, .relaxed, 0⟩ 42 ⟨9, .v 1, 4, false, 0⟩) ∧
    decode 0x8D00060059400000#64 = .ok (.torg hd 3 22 20) := by
  decide

/-- Reversible words (R66, R376). -/
theorem test_decode_reversible :
    decode 0x9000021E0A054000#64 = .ok (.rvmul hd .f32 30 (.v 20) (.v 21) .rn) ∧
    decode 0x9100021F0F058000#64 = .ok (.rvadd hd 31 (.v 30) (.v 22) .rn) ∧
    decode 0x9200042110000000#64 = .ok (.rvnar hd 4 33 (.v 32) .rn false) ∧
    decode 0x930002200F800000#64 = .ok (.rvmax0 hd 32 (.v 31)) ∧
    decode 0x940002280F054000#64 = .ok (.unmul hd .f32 40 (.v 30) (.v 21)) ∧
    decode 0x9500021E0F858000#64 = .ok (.unadd hd 30 (.v 31) (.v 22)) ∧
    decode 0x9600042010800000#64 = .ok (.unnar hd 4 32 (.v 33)) ∧
    decode 0x9700021F10000000#64 = .ok (.unmax0 hd 31 (.v 32)) ∧
    decode 0x9801000000000007#64 = .ok (.slmark hd 7) ∧
    decode 0x9901000000000007#64 = .ok (.sldrop hd 7) ∧
    decode 0x9A00005000000000#64 = .ok (.sldepth hd 20) := by
  decide

/-- Traps and launches (R68). -/
theorem test_decode_trap :
    decode 0xA001000000000005#64 = .ok (.trap hd 5) ∧
    decode 0xA100000000000000#64 = .ok (.tret hd) ∧
    decode 0xA500000000000000#64 = .ok (.brk hd) ∧
    decode 0xA4000000C0000000#64 = .ok (.launch hd 12) := by
  decide

/-! ### Ill-formed terms -/

/-- The type rules (R78): a type that the instruction does not accept. -/
theorem test_ill_types :
    [Instr.vadd hd .wrap .f32 1 (.v 2) (.r (.v 3)), .vsub hd .wrap .f64 2 (.v 2) (.r (.v 4)), .vlog hd .and .f16x2 1 (.v 2) (.r (.v 3)),
      .vsh hd .shl .bf16x2 1 (.v 2) (.r (.v 3)), .vminmax hd .min .f32 1 (.v 2) (.r (.v 3)), .vmul hd .lo .f32 1 (.v 2) (.r (.v 3)),
      .vmul hd .hii .i16x2 1 (.v 2) (.r (.v 3)), .vmad hd .i8x4 1 (.v 2) (.v 3) (.v 4), .vcmp hd .eq .f32 1 (.v 2) (.r (.v 3)),
      .vbit hd .popc .i16x2 1 (.v 2), .vbfe hd .f32 1 (.v 2) (.v 3) (.v 4), .vbfi hd .f32 1 (.v 2) (.v 3) (.v 4),
      .vabs hd .abs .n32 1 (.v 2), .fadd hd .i32 1 (.v 2) (.r (.v 3)) ⟨.rn, false, false⟩,
      .fsub hd .n32 1 (.v 2) (.r (.v 3)) ⟨.rn, false, false⟩, .fmul hd .i16x2 1 (.v 2) (.r (.v 3)) ⟨.rn, false, false⟩,
      .ffma hd .pp .i8x4 1 (.v 2) (.v 3) (.v 4) ⟨.rn, false, false⟩, .fminmax hd .min .i32 1 (.v 2) (.r (.v 3)),
      .fcmp hd .eq .f16x2 1 (.v 2) (.r (.v 3)), .fcls hd .bf16x2 1 (.v 2) 0, .fdot hd (.b8 7) 1 (.v 2) (.v 3) (.v 4) ⟨.rn, false, false⟩,
      .fscl hd (.apply .f64 (.v 2) ⟨.rn, false, false⟩) 2 (.v 4), .fscl hd (.comp 7) 1 (.v 2), .vreduce hd .fadd .i32 1 (.v 2) ⟨.rn, false, false⟩,
      .vreduce hd .addi .f32 1 (.v 2) ⟨.rn, false, false⟩, .vscan hd .iadd .f32 1 (.v 2) false, .vlane hd .ext .f32 1 (.v 2) (.s 3),
      .rvmul hd .n32 1 (.v 2) (.v 3) .rn, .unmul hd .f64 2 (.v 4) (.v 6)].all (fun i => !i.typeOk) = true := by
  decide

/-- A tag rule where no tag is written (R58), a guard on a scalar-only word (R59), PASS where it is not allowed. -/
theorem test_ill_heads :
    (let rule : Head := ⟨false, .keep, 0, false⟩
     let pass : Head := ⟨false, .pass, 0, false⟩
     let guard : Head := ⟨false, .blame, 1, false⟩
     [Instr.nop rule, .commit guard, .tret guard, .brk rule, .ret guard, .join rule, .defer guard, .exit rule, .smovReg rule 1 2,
      .smovImm guard 1 2, .smovHi rule 1 2, .sadd rule .wrap 1 2 (.r 3), .ssub guard .wrap 1 2 (.r 3), .smul rule .lo 1 2 (.r 3),
      .sdiv guard .divi 1 2 (.r 3), .slog rule .and 1 2 (.r 3), .ssh guard .shl 1 2 (.r 3), .sminmax rule .mini 1 2 (.r 3),
      .ssel guard 1 1 2 (.r 3), .scmp rule .eq 1 2 (.r 3), .sbit guard .popc 1 2 .none, .qlog rule .and 1 2 3,
      .braCond guard 1 false 1, .braAlways rule 1, .call guard 1, .loopScalar rule 1 1, .loopImm guard 1 1, .lbrk rule 1,
      .brv rule 1 false 1, .jmpv rule 1, .callv rule 1, .yld guard false 1, .srd guard true 1 1, .srd pass false 1 0,
      .swr rule false 31 (.v 1), .vcmp rule .eq .i32 1 (.v 2) (.r (.v 3)), .fcmp rule .eq .f32 1 (.v 2) (.r (.v 3)),
      .fcls rule .f32 1 (.v 2) 0, .rng pass .raw 1, .vvote pass .count 1 1, .vvote rule .any 1 1, .vlane guard .ext .i32 1 (.v 2) (.s 3),
      .vst rule .b32 ⟨.dev, .relaxed, 0⟩ 1 ⟨1, .none, 0, false, 0⟩, .pref rule 0 ⟨1, .none, 0, false, 0⟩,
      .probe rule .b32 1 ⟨1, .none, 0, false, 0⟩, .bankcfg guard 1 1 .cache, .iinv rule ⟨1, .none, 0, false, 0⟩,
      .red rule .add .b32 ⟨.dev, .relaxed, 0⟩ 1 ⟨1, .none, 0, false, 0⟩, .fence guard .dev .ar, .qpush rule 1 false false 1 1,
      .qpop guard 1 false false 1 1, .qallowGrant rule 1 false 1 1 1, .qallowRead guard 1 false 1 1,
      .cwait rule 0 false .dev .relaxed 1 (.i 1) none, .carr guard .dev .relaxed 1 (.i 1), .crst rule 1, .tbar guard none, .aacq rule 1,
      .arel guard 1, .xstat rule 1 1, .mma pass false false false 0 1 1 2 3, .mma guard false false false 0 1 1 2 3, .azero guard 1,
      .ast rule ⟨.dev, .relaxed, 0⟩ 1 ⟨1, .none, 0, false, 0⟩, .adrnStore rule ⟨.dev, .relaxed, 0⟩ 1 ⟨1, .none, 0, false, 0⟩,
      .adrnFadd rule ⟨.dev, .relaxed, 0⟩ 1 ⟨1, .none, 0, false, 0⟩, .xcopy guard ⟨0, .rn, false, false, 1, 2, 3, 4, 5, false, none⟩,
      .xformDec rule ⟨0, .rn, false, false, 1, 2, 3, 4, 5, false, none⟩, .xformPerm guard ⟨0, .rn, false, false, 1, 2, 3, 4, 5, false, none⟩,
      .xformCvt rule ⟨0, .rn, false, false, 1, 2, 3, 4, 5, false, none⟩, .xformFill guard ⟨0, .rn, false, false, 1, 0, 3, 4, 5, false, none⟩,
      .cprun rule 1 false 1 2 3 4, .cpstat guard 1 false 1 2, .cpstop rule 1 false 1, .nnew guard 1 1 1 1, .nkill rule 1 false 1,
      .nres guard 1 false 1, .nmov rule 1 false 1 2, .ninfo guard 1 false 1 2 0, .nld rule 1 ⟨.dev, .relaxed, 0⟩ 1 ⟨1, .none, 0, false, 0⟩,
      .nst guard 1 ⟨.dev, .relaxed, 0⟩ 1 ⟨1, .none, 0, false, 0⟩, .ncas rule false 1 ⟨.dev, .relaxed, 0⟩ 1 2 ⟨1, .none, 0, false, 0⟩,
      .tset rule 1 .born, .tchk rule .f32 (.v 1), .tstg rule ⟨.dev, .relaxed, 0⟩ 1 ⟨1, .none, 0, false, 0⟩, .torg guard 1 1 2,
      .slmark rule 1, .sldrop guard 1, .sldepth rule 1, .trap guard 1, .launch rule 1].all (fun i => !i.wf)) = true := by
  decide

/-- Operands of scalar, control and vector words: hard-wired destinations, odd pairs, reserved immediate bits, modifiers. -/
theorem test_ill_operands :
    (let m : FMod := ⟨.rn, false, false⟩
     let rs : FMod := ⟨.rs, false, false⟩
     let sat : FMod := ⟨.rn, false, true⟩
     let ftz : FMod := ⟨.rn, true, false⟩
     [Instr.scmp hd .eq 0 2 (.r 3), .sbit hd .bfe 1 2 .none, .sbit hd .popc 1 2 (.regs 3 4), .qlog hd .and 0 2 3, .qlog hd .not 1 2 3,
      .yld hd false 0, .srd hd false 1 33, .srd hd true 64 1, .srd hd true 1 0, .srd hd false 1 11, .swr hd false 33 (.v 1),
      .swr hd false 31 (.s 1), .swr hd true 31 (.v 1), .swr hd false 17 (.v 1), .swr hd true 31 .lane,
      .vadd hd .wrap .i16x2 1 (.v 2) (.i 0x10000), .vsub hd .wrap .i8x4 1 (.v 2) (.i 0x100), .vmul hd .lo .i8x4 1 (.v 2) (.i 0x100),
      .vcmp hd .eq .i32 0 (.v 2) (.r (.v 3)), .vsel hd .f64 1 (.v 2) (.v 4) 1, .vmov hd .f64 2 (.reg (.v 3)), .vmov hd .i32 1 (.reg (.s 1)),
      .vmov hd .i8x4 1 (.imm 0x100), .vmov hd .f64 1 .lane, .fadd hd .f64 2 (.v 3) (.r (.v 4)) m, .fadd hd .f64 2 (.v 4) (.r (.v 5)) m,
      .fsub hd .f64 2 (.v 4) (.r (.v 6)) rs, .fmul hd .f32 1 (.v 2) (.r (.v 3)) sat, .fadd hd .f32 1 (.v 2) (.i 0) ftz,
      .ffma hd .pp .f64 2 (.v 4) (.v 6) (.v 7) m, .fminmax hd .min .f64 2 (.v 3) (.r (.v 4)), .fcmp hd .eq .f32 0 (.v 2) (.r (.v 3)),
      .fcmp hd .eq .f64 1 (.v 2) (.r (.v 3)), .fcls hd .f32 0 (.v 2) 0, .fcls hd .f64 1 (.v 3) 0, .fdot hd .f16 1 (.v 2) (.v 3) (.v 4) sat,
      .sfu hd .rcp 1 (.v 2) (.v 3) false, .cvt hd 0 1 (.v 2) 2 m, .cvt hd 5 1 (.v 2) 2 m, .cvt hd 2 1 (.v 2) 0x60 m, .cvt hd 1 2 (.v 4) 2 rs,
      .cvt hd 8 1 (.v 2) 9 ftz, .cvt hd 1 1 (.v 2) 2 m, .cvt hd 2 1 (.v 3) 1 m, .cvtp hd 2 1 (.v 2) (.v 3) 2 .rn false false,
      .cvtp hd 3 1 (.v 2) (.v 4) 1 .rn false false, .cvtp hd 3 1 (.v 2) (.v 3) 2 .rn true false, .cvtx hd 2 1 (.v 2) (.v 3) 2 m,
      .cvtx hd 1 1 (.v 2) (.v 3) 3 m, .fscl hd (.apply .f32 (.v 3) ftz) 1 (.v 2), .vvote hd .any 8 1, .vvote hd .all 0 1,
      .vshfl hd .idx .f64 1 (.v 2) (.v 4), .vxch hd 1 (.v 2) (.v 3) (.v 4), .vreduce hd .min .i32 1 (.v 2) sat, .vreduce hd .addi .i32 1 (.v 2) ftz,
      .vreduce hd .fadd .f32 1 (.v 2) rs, .vscan hd .imax .i32 1 (.v 2) true, .vlane hd .ins .i32 1 (.v 2) (.s 3),
      .vlane hd .ins .i32 1 (.s 2) (.v 3), .vlane hd .ext .i32 64 (.v 2) (.s 3), .vlane hd .ext .i32 1 (.s 2) (.s 3),
      .tchk hd .f32 (.s 1), .tchk hd .f64 (.v 1), .torg hd 1 63 1, .rvmul hd .i32 1 (.v 2) (.v 3) .rz, .rvnar hd 2 1 (.v 2) .rn false,
      .unnar hd 5 1 (.v 2)].all (fun i => !i.wf)) = true := by
  decide

/-- Operands of memory, synchronisation, engine and name words: orders, scopes, hints, scales, pairs (R70, R71, R73). -/
theorem test_ill_memory :
    (let p : MemOp := ⟨1, .none, 0, false, 0⟩
     let vx : MemOp := ⟨1, .v 1, 0, false, 0⟩
     let far : MemOp := ⟨1, .none, 5, false, 0⟩
     let nb : MemOp := ⟨1, .none, 0, true, 0⟩
     let x : MOrd := ⟨.dev, .relaxed, 0⟩
     let rel : MOrd := ⟨.dev, .rel, 0⟩
     let acq : MOrd := ⟨.dev, .acq, 0⟩
     let wide : MOrd := ⟨.clu, .relaxed, 0⟩
     let ro : MOrd := ⟨.dev, .relaxed, 2⟩
     [Instr.sld hd .b32 rel 1 p, .sld hd .b32 x 1 vx, .sst hd .b32 acq 1 p, .sst hd .b32 ro 1 p, .vld hd .b32 wide 1 p, .vld hd .b64 x 1 p,
      .vld hd .b32 x 1 far, .vld hd .b32 x 1 nb, .vst hd .b32 acq 1 p, .vst hd .b32 ro 1 p, .vst hd .b64 x 1 p, .pref hd 2 p, .pref hd 0 far,
      .probe hd .b32 0 p, .probe hd .b32 1 nb, .bankcfg hd 0 1 .cache, .iinv hd far, .atom hd .add .i8 x 1 p, .atom hd .add .b32 ro 1 p,
      .atom hd .add .b64 x 1 p, .acas hd .n16 x 1 p, .acas hd .b64 x 1 p, .red hd .add .b32 acq 1 p, .red hd .add .i16 x 1 p,
      .red hd .add .b64 x 1 p, .fence hd .dev .relaxed, .cwait hd 0 false .dev .rel 1 (.i 1) none, .carr hd .dev .acq 1 (.i 1),
      .ald hd rel 1 p, .ald hd ro 1 p, .ald hd x 1 vx, .ast hd acq 1 p, .adrnStore hd acq 1 p, .adrnFadd hd ro 1 p,
      .xcopy hd ⟨0, .rs, false, false, 1, 2, 3, 4, 5, false, none⟩, .xformPerm hd ⟨0, .rn, false, false, 1, 2, 3, 4, 5, true, none⟩,
      .xformCvt hd ⟨0, .rs, false, false, 1, 2, 3, 4, 5, false, none⟩, .xformDec hd ⟨0, .rz, false, false, 1, 2, 3, 4, 5, false, none⟩,
      .xformFill hd ⟨0, .rn, false, false, 1, 2, 3, 4, 5, false, none⟩, .xformFill hd ⟨0, .rn, true, false, 1, 0, 3, 4, 5, false, none⟩,
      .ninfo hd 1 false 1 2 3, .ninfo hd 1 false 1 2 22, .nld hd 1 rel 1 p, .nld hd 1 x 1 vx, .nst hd 1 acq 1 p, .nst hd 1 ⟨.dev, .relaxed, 1⟩ 1 p,
      .ncas hd false 1 ⟨.dev, .relaxed, 1⟩ 1 2 p, .ncas hd false 1 x 1 2 vx, .tldg hd rel 1 p, .tldg hd ro 1 p, .tstg hd acq 1 p,
      .tstg hd ro 1 far].all (fun i => !i.wf)) = true := by
  decide

/-! ### States of one group

The group stands in the last word of a one-word clause at the start of its text, on core 0, in context 0, with 16 lanes. -/

/-- The group's place. -/
def Demo.ref : GRef := ⟨1, 0⟩

/-- The group, with its kernel, its team and itself changed, and X the lanes of `x`. -/
def Demo.st (k : Kernel → Kernel) (t : Team → Team) (g : Group → Group) (x : Mask) : State :=
  let s := State.reset.withFetchWord 64 0
  let inX := fun (y : Group) => { y with clause := y.clause.map (fun cl => { cl with x := x }) }
  { s with
    now := some ⟨Demo.ref, placedText, placedHeader 0, placedText + 8, x, true, false⟩
    launches := s.launches.map (fun l => { l with kernel := k l.kernel })
    teams := s.teams.map (fun y => t { y with groups := y.groups.map (fun y => g (inX y)) }) }

/-- All lanes in X. -/
def Demo.all : Mask := lowMask 16

/-- The plain group. -/
def Demo.s0 : State := Demo.st id id id Demo.all

/-- The group changed alone. -/
def Demo.grp (g : Group → Group) : State := Demo.st id id g Demo.all

/-- The current word's context; of the plain group where there is none. -/
def Demo.cur (s : State) : Cur :=
  match cur? s with
  | some c => c
  | none => ⟨⟨Demo.ref, 0, placedHeader 0, 0, 0, true, false⟩, placedTeam s 0, placedGroup s 0, placedLaunch s⟩

/-- What the instruction leaves of the state and the group. -/
def Demo.after (i : Instr) (s : State) (P : State → Group → Bool) : Bool :=
  match exec i s with
  | .next t => match t.group? Demo.ref with
    | some g => P t g
    | none => false
  | _ => false

/-- Some lane is as `P` says. -/
def Demo.lane (g : Group) (i : Nat) (P : Lane → Bool) : Bool :=
  match g.lanes[i]? with
  | some l => P l
  | none => false

/-- The group is in the clause with X its ready lanes. -/
def Demo.stands (c : Cur) : Bool := c.g.clause.map (·.x) == some c.n.x && c.g.lanes.all (fun l => l.st == .ready)

theorem Demo.of_all {L : List Lane} {P : Lane → Bool} (h : L.all P = true) {i : Nat} {l : Lane} (hl : L[i]? = some l) : P l = true :=
  List.all_eq_true.mp h l (List.mem_of_getElem? hl)

theorem Demo.standing {c : Cur} (h : Demo.stands c = true) : Standing c := by
  simp only [Demo.stands, Bool.and_eq_true, beq_iff_eq, Option.map_eq_some_iff] at h
  obtain ⟨⟨cl, h1, h2⟩, h3⟩ := h
  exact ⟨cl, h1, h2, fun i l _ hl => by simpa using Demo.of_all h3 hl⟩

theorem Demo.below16 {m : Mask} (h : m &&& Demo.all = m) {k : Nat} (hk : m.getLsbD k = true) : k < 16 := by
  by_contra hn
  have h64 : k < 64 := BitVec.lt_of_getLsbD hk
  have ha : ∀ j : Fin 64, 16 ≤ j.val → Demo.all.getLsbD j.val = false := by decide
  rw [← h, BitVec.getLsbD_and, ha ⟨k, h64⟩ (Nat.le_of_not_lt hn)] at hk
  simp at hk

/-! ### States that meet the statements' hypotheses: scalar and vector words -/

/-- ScalarAddsAndMoves, ScalarDivision, ScalarBitsAndBooleans and ScalarFields: any current word. -/
theorem meets_word : cur? Demo.s0 = some (Demo.cur Demo.s0) := by decide +kernel

/-- ScalarDivision's clauses: a zero divisor with a dividend of either sign, the overflow, and an ordinary pair. -/
theorem meets_ScalarDivision :
    let s := Demo.grp (fun g => ((g.setS 1 0).setS 2 (-1)).setS 3 (BitVec.ofNat 64 (2 ^ 63)))
    let c := Demo.cur s
    cur? s = some c ∧ Claim.sb c.g (.r 1) = 0 ∧ 0 ≤ (c.g.sreg 1).toInt ∧ (c.g.sreg 2).toInt < 0 ∧
    ((c.g.sreg 3).toInt = -2 ^ 63 ∧ (Claim.sb c.g (.r 2)).toInt = -1) ∧
    (Claim.sb c.g (.i 7) ≠ 0 ∧ ¬((c.g.sreg 3).toInt = -2 ^ 63 ∧ (Claim.sb c.g (.i 7)).toInt = -1)) := by
  decide +kernel

/-- ScalarFields: a field past the end, an empty one, and one cut at bit 63. -/
theorem meets_ScalarFields :
    let s := Demo.grp (fun g => (g.setS 1 64).setS 2 63)
    let c := Demo.cur s
    cur? s = some c ∧ (c.g.sreg 1).toNat ≥ 64 ∧ ((0 : BitVec 7).toNat = 0) ∧ (c.g.sreg 2).toNat < 64 ∧ (c.g.sreg 2).toNat ≠ 0 := by
  decide +kernel

/-- The vector statements: the operands are within the role's registers, at its last pair. -/
theorem meets_vector :
    let c := Demo.cur Demo.s0
    cur? Demo.s0 = some c ∧ Claim.isInt .i8x4 ∧ c.vOk 255 (VType.isF64 .i8x4) = true ∧ c.srcOk .i8x4 (.v 255) = true ∧
    c.vbOk .i8x4 (.i 255) = true ∧ c.srcOk .i8x4 .lane = true ∧ c.vOk 254 (VType.isF64 .f64) = true ∧ c.srcOk .f64 (.v 254) = true ∧
    c.vbOk .f64 (.r (.v 0)) = true ∧ c.srcOk .n32 (.v 255) = true ∧ c.srcOk .i32 (.c 31) = true ∧ Claim.isFloat .f64 ∧
    c.srcOk .f32 (.s 63) = true := by
  simp only [Claim.isInt, Claim.isFloat]
  decide +kernel

/-- VectorArithmetic, DotProductAndFunctions and ConversionResults: room in the queues, and formats that are read. -/
theorem meets_queues :
    let c := Demo.cur Demo.s0
    resultGate c .sfu = none ∧ resultGate c .cvt = none ∧ resultGate c .none = none ∧ c.fmtOk 2 (.v 255) = true ∧ c.fmtOk 1 (.v 254) = true ∧
    c.fmtOk 0x44 (.v 1) = true ∧ (fmtOf 0x44).w = 8 ∧ (fmtOf 4).w = 16 ∧ maskDestOk c 255 = true ∧ lanesOf (c.active hd) ≠ [] := by
  decide +kernel

/-- FloatResults: no error is about to strike, and every lane passes its check. -/
theorem meets_FloatArithmetic :
    let s := Demo.s0
    let c := Demo.cur s
    Claim.unstruck s c hd (fun k => fpLane s c .f32 ⟨.rn, false, false⟩ .add k [readSrc c.g .f32 (.c 1) k, readVB c.g .f32 (.r (.c 31)) k]) := by
  have h : ∀ k, k < 16 → badElem (fpLane Demo.s0 (Demo.cur Demo.s0) .f32 ⟨.rn, false, false⟩ .add k
      [readSrc (Demo.cur Demo.s0).g .f32 (.c 1) k, readVB (Demo.cur Demo.s0).g .f32 (.r (.c 31)) k]) = none := by decide +kernel
  exact ⟨by decide +kernel, fun k hk => h k (Demo.below16 (by decide +kernel) hk)⟩

/-- DotProductAndFunctions: the same of FDOT. -/
theorem meets_DotProduct :
    let s := Demo.s0
    let c := Demo.cur s
    Claim.unstruck s c hd (dotLane s c .bf16 ⟨.rn, false, false⟩ (.c 1) (.c 2) (.c 31)) := by
  have h : ∀ k, k < 16 → badElem (dotLane Demo.s0 (Demo.cur Demo.s0) .bf16 ⟨.rn, false, false⟩ (.c 1) (.c 2) (.c 31) k) = none := by decide +kernel
  exact ⟨by decide +kernel, fun k hk => h k (Demo.below16 (by decide +kernel) hk)⟩

/-- FloatResults, FloatCompare, FloatMinMaxClass and DotProductAndFunctions: NaNs, infinities, zeros and numbers. -/
theorem meets_FloatElement :
    (decF .f32 0x7FC00001).isNan = true ∧ (decF .f32 0x3F800000).isNan = false ∧ decF .f32 0xFF800000 = .inf true ∧
    decF .f32 0x7F800000 = .inf false ∧ (∃ e, decF .f32 0x80000000 = .fin true 0 e) ∧ (∃ m e, decF .f32 1 = .fin false m e) ∧
    (∃ v ∈ [0x3F80] ++ [0x7FC0], (decF .bf16 v).isNan = true) := by
  refine ⟨by decide +kernel, by decide +kernel, by decide +kernel, by decide +kernel, ⟨_, rfl⟩, ⟨_, _, rfl⟩, 0x7FC0, by decide, by decide +kernel⟩

/-- LaneExchange: a lane number inside the group and one past its end; a distance of VXCH and one that is none. -/
theorem meets_LaneExchange :
    let c := Demo.cur Demo.s0
    readSrc c.g .n32 (.c 15) 0 < c.width ∧ ¬readSrc c.g .n32 (.c 16) 0 < c.width ∧ readSrc c.g .n32 (.c 8) 0 = 8 ∧ (8 ^^^ 7 : Nat) < c.width ∧
    readSrc c.g .n32 (.c 3) 0 = 3 := by
  decide +kernel

/-! #### Results -/

/-- R131, R33: `SADD s11, s7, 144`; .sati at the top; SSUB .satn below 0; a register that is also the destination. -/
theorem test_sadd :
    let s := Demo.grp (fun g => (g.setS 7 0x1000).setS 1 (BitVec.ofNat 64 (2 ^ 63 - 1)))
    (Demo.after (.sadd hd .wrap 11 7 (.i 144)) s (fun _ g => g.sreg 11 == 0x1090 && g.sreg 7 == 0x1000) &&
      Demo.after (.sadd hd .sati 1 1 (.r 1)) s (fun _ g => g.sreg 1 == BitVec.ofNat 64 (2 ^ 63 - 1)) &&
      Demo.after (.ssub hd .satn 2 7 (.i 0x1001)) s (fun _ g => g.sreg 2 == 0)) = true := by
  decide +kernel

/-- R131: the high half of a signed product; a shift by 64; a rotation; the smaller of two signed values. -/
theorem test_scalar_arithmetic :
    let s := Demo.grp (fun g => (g.setS 1 (-1)).setS 2 0x8000000000000001)
    (Demo.after (.smul hd .hii 3 1 (.i 5)) s (fun _ g => g.sreg 3 == -1) &&
      Demo.after (.smul hd .hin 3 1 (.i 5)) s (fun _ g => g.sreg 3 == 4) &&
      Demo.after (.ssh hd .sra 3 2 (.i 64)) s (fun _ g => g.sreg 3 == -1) &&
      Demo.after (.ssh hd .shl 3 2 (.i 64)) s (fun _ g => g.sreg 3 == 0) &&
      Demo.after (.ssh hd .rol 3 2 (.i 1)) s (fun _ g => g.sreg 3 == 3) &&
      Demo.after (.slog hd .andn 3 1 (.r 2)) s (fun _ g => g.sreg 3 == 0x7FFFFFFFFFFFFFFE) &&
      Demo.after (.sminmax hd .mini 3 1 (.r 7)) s (fun _ g => g.sreg 3 == -1) &&
      Demo.after (.smovHi hd 1 0x12345678) s (fun _ g => g.sreg 1 == 0x12345678FFFFFFFF)) = true := by
  decide +kernel

/-- R132: division by zero and the overflow. -/
theorem test_sdiv :
    let s := Demo.grp (fun g => (g.setS 1 (-7)).setS 2 (BitVec.ofNat 64 (2 ^ 63)))
    (Demo.after (.sdiv hd .divi 3 1 (.i 0)) s (fun _ g => g.sreg 3 == BitVec.ofNat 64 (2 ^ 63)) &&
      Demo.after (.sdiv hd .divn 3 1 (.i 0)) s (fun _ g => g.sreg 3 == -1) &&
      Demo.after (.sdiv hd .divi 3 1 (.i 2)) s (fun _ g => g.sreg 3 == -3) &&
      Demo.after (.sdiv hd .remi 3 1 (.i 2)) s (fun _ g => g.sreg 3 == -1) &&
      Demo.after (.sdiv hd .divi 3 2 (.i (-1))) s (fun _ g => g.sreg 3 == BitVec.ofNat 64 (2 ^ 63 - 1)) &&
      Demo.after (.sdiv hd .remi 3 2 (.i (-1))) s (fun _ g => g.sreg 3 == 0)) = true := by
  decide +kernel

/-- R133, R131: a field cut at bit 63, an empty field; the counts. -/
theorem test_sbit :
    let s := Demo.grp (fun g => (g.setS 1 0x8000000000000010).setS 2 (-1))
    (Demo.after (.sbit hd .bfe 3 1 (.imm 60 64)) s (fun _ g => g.sreg 3 == 8) &&
      Demo.after (.sbit hd .bfi 2 1 (.imm 4 8)) s (fun _ g => g.sreg 2 == 0xFFFFFFFFFFFFF10F) &&
      Demo.after (.sbit hd .bfe 3 1 (.imm 4 0)) s (fun _ g => g.sreg 3 == 0) &&
      Demo.after (.sbit hd .clz 3 7 .none) s (fun _ g => g.sreg 3 == 64) &&
      Demo.after (.sbit hd .ctz 3 1 .none) s (fun _ g => g.sreg 3 == 4) &&
      Demo.after (.sbit hd .popc 3 1 .none) s (fun _ g => g.sreg 3 == 2) &&
      Demo.after (.sbit hd .brev 3 1 .none) s (fun _ g => g.sreg 3 == 0x0800000000000001)) = true := by
  decide +kernel

/-- R131, R30: signed and natural comparison differ; q logic; q0 reads as true. -/
theorem test_scmp :
    let s := Demo.grp (fun g => g.setS 1 (-1))
    (Demo.after (.scmp hd .lt 1 1 (.i 0)) s (fun _ g => g.bool 1) && Demo.after (.scmp hd .nlt 1 1 (.i 0)) s (fun _ g => !g.bool 1) &&
      Demo.after (.qlog hd .xor 2 0 1) s (fun _ g => g.bool 2) && Demo.after (.ssel hd 1 3 1 (.i 9)) s (fun _ g => g.sreg 3 == 9)) = true := by
  decide +kernel

/-- R86: a packed sum wraps within its element; .sat of naturals; a product's high half; the lane index. -/
theorem test_vadd :
    let s := Demo.grp (fun g => (g.setV 1 3 0x7FFF0001 0).setV 2 3 0x0001FFFF 0)
    (Demo.after (.vadd hd .wrap .i16x2 5 (.v 1) (.r (.v 2))) s (fun _ g => g.vreg 5 3 == 0x80000000) &&
      Demo.after (.vadd hd .sat .i16x2 5 (.v 1) (.r (.v 2))) s (fun _ g => g.vreg 5 3 == 0x7FFF0000) &&
      Demo.after (.vsub hd .sat .n32 5 .lane (.i 4)) s (fun _ g => g.vreg 5 3 == 0 && g.vreg 5 9 == 5) &&
      Demo.after (.vmul hd .hii .i32 5 (.v 1) (.i (-2))) s (fun _ g => g.vreg 5 3 == 0xFFFFFFFF) &&
      Demo.after (.vmad hd .i32 5 .lane .lane (.c 16)) s (fun _ g => g.vreg 5 3 == 8)) = true := by
  decide +kernel

/-- R86, R87, R89: element shifts, a signed field, the halves of VABS, a selection by p, an immediate of f32. -/
theorem test_vector :
    let s := Demo.grp (fun g => (g.setV 1 3 0x80FF0180 0))
    (Demo.after (.vsh hd .sra .i8x4 5 (.v 1) (.r (.c 4))) s (fun _ g => g.vreg 5 3 == 0xF8FF00F8) &&
      Demo.after (.vabs hd .abs .i8x4 5 (.v 1)) s (fun _ g => g.vreg 5 3 == 0x80010180) &&
      Demo.after (.vabs hd .abssat .i8x4 5 (.v 1)) s (fun _ g => g.vreg 5 3 == 0x7F01017F) &&
      Demo.after (.vbfe hd .i32 5 (.v 1) (.c 4) (.c 4)) s (fun _ g => g.vreg 5 3 == 0xFFFFFFF8) &&
      Demo.after (.vbit hd .ctz .i32 5 (.v 1)) s (fun _ g => g.vreg 5 3 == 7 && g.vreg 5 4 == 32) &&
      Demo.after (.vcmp hd .lt .i32 1 .lane (.i 3)) s (fun _ g => g.pred 1 == 7) &&
      Demo.after (.vmov hd .f32 5 (.imm 0x1FC000)) s (fun _ g => g.vreg 5 0 == 0x3F800000) &&
      Demo.after (.vlog hd .xnor .i32 5 (.v 1) (.r (.c 0))) s (fun _ g => g.vreg 5 3 == 0x7F00FE7F)) = true := by
  decide +kernel

/-- R92, R94, R95, R96: an exact sum, a fused difference rounded towards zero, the maximum of magnitudes, an unordered comparison. -/
theorem test_float :
    let s := Demo.grp (fun g => (g.setV 1 3 0x3F800001 0).setV 2 3 0x7FC00001 0)
    (Demo.after (.fadd hd .f32 5 (.c 1) (.r (.c 2)) ⟨.rn, false, false⟩) s (fun _ g => g.vreg 5 3 == 0x40400000) &&
      Demo.after (.ffma hd .pm .f32 5 (.v 1) (.v 1) (.c 1) ⟨.rz, false, false⟩) s (fun _ g => g.vreg 5 3 == 0x34800000) &&
      Demo.after (.fminmax hd .maxabs .f32 5 (.c 17) (.r (.c 1))) s (fun _ g => g.vreg 5 3 == 0x40000000) &&
      Demo.after (.fcmp hd .ult .f32 1 (.v 2) (.r (.c 1))) s (fun _ g => (g.pred 1).getLsbD 3) &&
      Demo.after (.fcls hd .f32 1 (.v 2) 0x002) s (fun _ g => g.pred 1 == 8) &&
      Demo.after (.fmul hd .f16x2 5 (.c 1) (.r (.c 25)) ⟨.rn, false, false⟩) s (fun _ g => g.vreg 5 3 == 0x34003400)) = true := by
  decide +kernel

/-- R178, R179, R181, R182, R184, R186: equal lanes, a vote, a rotation of lanes with its edge, a sum, an exclusive prefix. -/
theorem test_cross_lane :
    let s := Demo.grp (fun g => (g.setP 1 Demo.all 0xFF))
    (Demo.after (.vmatch hd 5 (.v 1)) s (fun _ g => g.vreg 5 3 == 0xFFFF) &&
      Demo.after (.vvote hd .all 2 1) s (fun _ g => !g.bool 2) && Demo.after (.vvote hd .any 2 1) s (fun _ g => g.bool 2) &&
      Demo.after (.vshfl hd .down .i32 5 .lane (.c 1)) s (fun _ g => g.vreg 5 3 == 4 && g.vreg 5 15 == 15) &&
      Demo.after (.vreduce hd .addi .i32 5 .lane ⟨.rn, false, false⟩) s (fun _ g => g.vreg 5 0 == 120) &&
      Demo.after (.vscan hd .eadd .i32 5 .lane false) s (fun _ g => g.vreg 5 0 == 0 && g.vreg 5 4 == 6) &&
      Demo.after (.vlane hd .ext .i32 9 (.v 1) (.c 16)) s (fun _ g => g.sreg 9 == 0)) = true := by
  decide +kernel

/-! ### Control flow -/

/-- Branches, CallsAndReturns and LoopsAndHolds: the group stands in the last word of its clause. -/
theorem meets_Standing : cur? Demo.s0 = some (Demo.cur Demo.s0) ∧ Standing (Demo.cur Demo.s0) ∧ (Demo.cur Demo.s0).n.last = true ∧
    (Demo.cur Demo.s0).g.inTrap = false :=
  ⟨by decide +kernel, Demo.standing (by decide +kernel), by decide +kernel, by decide +kernel⟩

/-- The group inside a loop over the words 0 to 5 of a text of 1000 words. -/
def Demo.loop (x : Mask) : State :=
  Demo.st (fun k => { k with twords := 1000 }) id (fun g => { g with loops := [⟨3, 0, 0, 5⟩, ⟨2, 0, 0, 7⟩] }) x

/-- Branches: a target outside the bodies, with every live lane of the group going, and with half of them. -/
theorem meets_UniformBranches :
    (let c := Demo.cur (Demo.loop Demo.all)
     cur? (Demo.loop Demo.all) = some c ∧ Standing c ∧ c.n.last = true ∧ Claim.escapes c (fun i => c.n.x.getLsbD i = true) (fun _ => c.n.hdr + 800) ∧
      c.n.x = c.g.live ∧ (∀ e rest, c.g.loops = e :: rest → ∀ i l, i < 64 → c.n.x.getLsbD i = true → c.g.lanes[i]? = some l → l.depth = e.depth) ∧
      c.g.bool 0 ≠ false) ∧
    (let c := Demo.cur (Demo.loop (lowMask 8))
     cur? (Demo.loop (lowMask 8)) = some c ∧ Standing c ∧ Claim.escapes c (fun i => c.n.x.getLsbD i = true) (fun _ => c.n.hdr + 800) ∧ c.n.x ≠ c.g.live) := by
  refine ⟨⟨by decide +kernel, Demo.standing (by decide +kernel), by decide +kernel,
    ⟨⟨3, 0, 0, 5⟩, [⟨2, 0, 0, 7⟩], 0, startLane placedText, by decide +kernel, by decide, by decide +kernel, by decide +kernel, by decide, .inr (by decide +kernel)⟩,
    by decide +kernel, fun e rest he i l _ _ hl => ?_, by decide +kernel⟩, ⟨by decide +kernel, Demo.standing (by decide +kernel),
    ⟨⟨3, 0, 0, 5⟩, [⟨2, 0, 0, 7⟩], 0, startLane placedText, by decide +kernel, by decide, by decide +kernel, by decide +kernel, by decide, .inr (by decide +kernel)⟩,
    by decide +kernel⟩⟩
  have h1 : (Demo.cur (Demo.loop Demo.all)).g.loops = [⟨3, 0, 0, 5⟩, ⟨2, 0, 0, 7⟩] := by decide +kernel
  rw [h1] at he
  have hd : e.depth = 0 := by cases he; rfl
  have h2 : (Demo.cur (Demo.loop Demo.all)).g.lanes.all (fun l => l.depth == 0) = true := by decide +kernel
  rw [hd]
  simpa using Demo.of_all h2 hl

/-- Branches: a branch of the lanes out of a loop they are in; with no loop entry nothing is left. -/
theorem meets_LaneBranches :
    (let c := Demo.cur (Demo.loop Demo.all)
     Claim.escapes c (fun i => (c.active hd).getLsbD i = true ∧ (c.g.pred 0).getLsbD i ≠ false) (fun _ => c.n.hdr + 800)) ∧
    (¬Claim.escapes (Demo.cur Demo.s0) (fun _ => True) (fun _ => 0)) := by
  refine ⟨⟨⟨3, 0, 0, 5⟩, [⟨2, 0, 0, 7⟩], 0, startLane placedText, by decide +kernel, by decide, by decide +kernel, by decide +kernel, by decide,
    .inr (by decide +kernel)⟩, fun h => ?_⟩
  obtain ⟨e, rest, i, l, h, -⟩ := h
  have h1 : (Demo.cur Demo.s0).g.loops = [] := by decide +kernel
  rw [h1] at h
  cases h

/-- Branches and CallsAndReturns: a register beyond the role's, an index in the text (the last word), one past it, an index out of a loop. -/
theorem meets_indirect :
    (let c := Demo.cur (Demo.grp (fun g => { g with regs := 8 }))
     c.vOk 7 false = true ∧ c.vOk 8 false = false) ∧
    (let c := Demo.cur (Demo.grp (fun g => g.setV 1 3 2 0))
     (c.active hd).getLsbD 3 = true ∧ c.l.kernel.twords ≤ (c.g.vreg 1 3).toNat ∧ (c.g.vreg 1 2).toNat < c.l.kernel.twords) ∧
    (let c := Demo.cur (Demo.st (fun k => { k with twords := 1000 }) id (fun g => ({ g with loops := [⟨3, 0, 0, 5⟩] }).setV 1 3 999 0) Demo.all)
     Claim.escapes c (fun i => (c.active hd).getLsbD i = true ∧ ¬c.l.kernel.twords ≤ (c.g.vreg 1 i).toNat)
      (fun i => textWord c.l.kernel (c.g.vreg 1 i).toNat)) := by
  refine ⟨by decide +kernel, by decide +kernel, ⟨⟨3, 0, 0, 5⟩, [], 3, startLane placedText, by decide +kernel, by decide, by decide +kernel, by decide +kernel,
    by decide, .inr (by decide +kernel)⟩⟩

/-- The group with lane 3 changed. -/
def Demo.lane3 (k : Kernel → Kernel) (f : Lane → Lane) (x : Mask) : State :=
  Demo.st k id (fun g => g.modLanes (BitVec.twoPow 64 3) (fun _ l => f l)) x

/-- CallsAndReturns: a lane at the maximum depth, and lanes below it with room on chip. -/
theorem meets_Calls :
    (let c := Demo.cur (Demo.lane3 id (fun l => { l with calls := [0, 0, 0, 0] }) Demo.all)
     Demo.lane c.g 3 (fun l => decide (c.l.kernel.maxDepth < l.depth + 1)) = true ∧ c.n.x.getLsbD 3 = true) ∧
    (let c := Demo.cur Demo.s0
     ∀ (i : Nat) (l : Lane), i < 64 → c.n.x.getLsbD i = true → c.g.lanes[i]? = some l → l.depth + 1 ≤ c.l.kernel.maxDepth ∧ l.calls.length < 4) := by
  refine ⟨by decide +kernel, fun i l _ _ hl => ?_⟩
  have h : (Demo.cur Demo.s0).g.lanes.all (fun l => decide (l.depth + 1 ≤ (Demo.cur Demo.s0).l.kernel.maxDepth ∧ l.calls.length < 4)) = true := by
    decide +kernel
  simpa using Demo.of_all h hl

/-- One lane of X with four entries on chip, below its maximum depth; the space maps nothing, so the spill is a held store. -/
def Demo.spill : State := Demo.lane3 (fun k => { k with callspill := 8 }) (fun l => { l with calls := [8, 16, 24, 32] }) (BitVec.twoPow 64 3)

/-- CallsAndReturns: a call that spills. -/
theorem meets_CallSpills :
    let s := Demo.spill
    let c := Demo.cur s
    cur? s = some c ∧ Standing c ∧ c.n.last = true ∧ c.n.x = BitVec.twoPow 64 3 ∧
    Demo.lane c.g 3 (fun l => l.calls == [8, 16, 24, 32] && decide (l.depth + 1 ≤ c.l.kernel.maxDepth)) = true ∧
    (storeFor s c.who (callPlace s c.t c.l.kernel c.g.grp 3 0) 8 .write c.t.id (.lanes c.ref (maskOf [3])) []).1 = .mem none ∧
    c.l.kernel.trapstore = false :=
  ⟨by decide +kernel, Demo.standing (by decide +kernel), by decide +kernel, by decide +kernel, by decide +kernel, by decide +kernel, by decide +kernel⟩

/-- A page of the plain group's space that is mapped, in the translations kept (R212). -/
def Demo.page (page frame : Nat) : Xlat := ⟨stackPort 0 (4096 * page), 0, page, frame, 1, false, false, true, true, true, true, true, false⟩

/-- The page in the TLB of every stack port (R208). -/
def Demo.map (page frame : Nat) : List Xlat := (List.range 8).map (fun port => { Demo.page page frame with port := port })

/-- A lane whose one entry is off chip, in a mapped page (its region starts at byte 27392 of the segment). -/
def Demo.fill : State :=
  { Demo.lane3 (fun k => { k with callspill := 8 }) (fun l => { l with spilled := 1 }) (BitVec.twoPow 64 3) with tlb := Demo.map 6 16 }

/-- CallsAndReturns: RET of a governed lane, of lanes at depth 0 or with their entry on chip, and of one whose entry is off chip. -/
theorem meets_Returns :
    (let c := Demo.cur (Demo.loop Demo.all)
     c.g.loops.head?.map (·.depth) = some 0 ∧ c.n.x.getLsbD 0 = true ∧ Demo.lane c.g 0 (fun l => l.depth == 0) = true) ∧
    (let c := Demo.cur (Demo.lane3 id (fun l => { l with calls := [placedText] }) Demo.all)
     c.g.loops = [] ∧ Demo.lane c.g 3 (fun l => l.calls == [placedText]) = true ∧ (placedText - c.l.kernel.text).toNat / 8 < c.l.kernel.twords) ∧
    (let s := Demo.fill
     let c := Demo.cur s
     let va := callPlace s c.t c.l.kernel c.g.grp 3 0
     let r := readFor s c.ref c.who va 8 8 .read false (.lanes c.ref (maskOf [3]))
     cur? s = some c ∧ Standing c ∧ c.n.x = BitVec.twoPow 64 3 ∧ Demo.lane c.g 3 (fun l => l.calls == [] && decide (0 < l.spilled)) = true ∧
      (match r.1 with
       | .gran g => !g.poison
       | _ => false) = true ∧ r.2.group? c.ref = some c.g) := by
  refine ⟨by decide +kernel, by decide +kernel, by decide +kernel, Demo.standing (by decide +kernel), by decide +kernel, by decide +kernel, by decide +kernel, by decide +kernel⟩

/-- LoopsAndHolds: EXIT in a handler, with results outstanding and without. -/
theorem meets_HeldLanes :
    (let c := Demo.cur (Demo.grp (fun g => { g with inTrap := true, lanes := g.lanes.map (fun l => { l with trap := .handling }) }))
     c.g.inTrap = true ∧ c.n.x = c.g.live ∧ c.g.lanes.length ≤ 64 ∧ c.g.pend = [] ∧ badSaved c.g.saved = false) ∧
    (let c := Demo.cur (Demo.grp (fun g => { g with
       inTrap := true, lanes := g.lanes.map (fun l => { l with trap := .handling }), pend := [⟨0, none, .none, 0, [], false, false⟩] }))
     c.g.inTrap = true ∧ c.n.x = c.g.live ∧ c.g.pend ≠ []) := by
  decide +kernel

/-- LoopsAndHolds: LOOP's clauses: a stop that is not ahead and a count past 1048575; some lanes away; four entries; an enclosing body. -/
theorem meets_LoopStart :
    (let c := Demo.cur Demo.s0
     (textIndex c.l.kernel c.n.hdr : Int) + (2 : BitVec 32).toInt ≤ (textIndex c.l.kernel (nextHeader c.n) : Int) ∧
      ¬((textIndex c.l.kernel c.n.hdr : Int) + (3 : BitVec 32).toInt ≤ (textIndex c.l.kernel (nextHeader c.n) : Int)) ∧
      c.n.x = c.g.live ∧ aside c.g = false ∧ c.n.x ≠ 0 ∧ c.g.loops.length < 4 ∧
      ∀ (i : Nat) (l : Lane), i < 64 → c.n.x.getLsbD i = true → c.g.lanes[i]? = some l → l.depth = 0) ∧
    (let c := Demo.cur (Demo.grp (fun g => g.setS 1 1048576))
     1048575 < (c.g.sreg 1).toNat) ∧
    (let c := Demo.cur (Demo.loop (lowMask 8))
     c.n.x ≠ c.g.live) ∧
    (let c := Demo.cur (Demo.grp (fun g => { g with loops := List.replicate 4 ⟨1, 0, 0, 5⟩ }))
     4 ≤ c.g.loops.length) ∧
    (let c := Demo.cur (Demo.loop Demo.all)
     (∃ e ∈ c.g.loops, e.depth = 0 ∧ (e.stop : Int) < 6) ∧ ∀ e ∈ c.g.loops, e.depth = 0 → (5 : Int) ≤ (e.stop : Int)) := by
  refine ⟨⟨by decide +kernel, by decide +kernel, by decide +kernel, by decide +kernel, by decide +kernel, by decide +kernel, fun i l _ _ hl => ?_⟩,
    by decide +kernel, by decide +kernel, by decide +kernel, ?_⟩
  · have h : (Demo.cur Demo.s0).g.lanes.all (fun l => l.depth == 0) = true := by decide +kernel
    simpa using Demo.of_all h hl
  · have h : (Demo.cur (Demo.loop Demo.all)).g.loops = [⟨3, 0, 0, 5⟩, ⟨2, 0, 0, 7⟩] := by decide +kernel
    intro c
    rw [show c.g.loops = _ from h]
    decide

/-- LoopsAndHolds: LBRK of one level inside its loop, of too many levels, and with lanes away; YLD with and without a request to leave. -/
theorem meets_LoopBreakAndYield :
    (let c := Demo.cur (Demo.loop Demo.all)
     c.n.x = c.g.live ∧ aside c.g = false ∧ (0 : BitVec 2).toNat < c.g.loops.length ∧ ¬(3 : BitVec 2).toNat < c.g.loops.length ∧
      c.g.loops[0]? = some ⟨3, 0, 0, 5⟩ ∧ c.g.lanes.all (fun l => l.depth == 0) = true ∧ c.g.pend = [] ∧ c.t.preempt = false) ∧
    (let c := Demo.cur (Demo.loop (lowMask 8))
     ¬(c.n.x = c.g.live ∧ aside c.g = false)) ∧
    (let c := Demo.cur (Demo.st id (fun t => { t with preempt := true }) id Demo.all)
     c.t.preempt = true ∧ c.g.pend = []) ∧
    (let s := Demo.s0
     let t := { placedTeam s 0 with id := 99, launch := 1, saved := true }
     let s := { s with teams := s.teams ++ [t], launches := s.launches.map (fun l => { l with packet := BitVec.allOnes 512 }) }
     let c := Demo.cur s
     c.t.floor = [] ∧ (savedWaits s (dieOf c.t.core)).isSome = true) := by
  decide +kernel

/-- SpecialRegisters: a wide register and a narrow one; writes that are allowed and not; a pair at the last register. -/
theorem meets_SpecialRegisters :
    let s := Demo.s0
    let c := Demo.cur s
    cur? s = some c ∧ c.vOk 254 (sregWide 11) = true ∧ c.vOk 255 (sregWide 30) = true ∧
    (Demo.cur (Demo.grp (fun g => { g with regs := 8 }))).vOk 8 (sregWide 30) = false ∧
    (Demo.cur (Demo.grp (fun g => { g with inTrap := true }))).g.inTrap = true ∧ (c.active hd).getLsbD 0 = true ∧
    (Demo.cur (Demo.grp (fun g => g.setP 1 Demo.all 0))).active ⟨false, .blame, 1, false⟩ = 0 := by
  decide +kernel

/-! #### Results -/

/-- R138, R141, R148, R143: a branch back over three words, a call, a loop's entry, a join. -/
theorem test_control :
    (Demo.after (.braAlways hd (-3)) Demo.s0 (fun _ g => g.clause.isNone && Demo.lane g 5 (fun l => l.pc == placedText - 24 && l.st == .ready)) &&
      Demo.after (.brv hd 1 false 9) (Demo.grp (fun g => g.setP 1 Demo.all 2)) (fun _ g =>
        Demo.lane g 1 (fun l => l.pc == placedText + 72) && Demo.lane g 0 (fun l => l.pc == placedText + 16)) &&
      Demo.after (.call hd 4) Demo.s0 (fun _ g => Demo.lane g 0 (fun l => l.pc == placedText + 32 && l.calls == [placedText + 16])) &&
      Demo.after (.loopImm hd 7 5) Demo.s0 (fun _ g => g.loops == [⟨7, 0, 2, 5⟩]) &&
      Demo.after (.loopImm hd 0 5) Demo.s0 (fun _ g => g.loops == [] && Demo.lane g 0 (fun l => l.pc == placedText + 40)) &&
      Demo.after (.join hd) Demo.s0 (fun _ g => Demo.lane g 0 (fun l => l.st == .joinHeld (placedText + 8))) &&
      Demo.after (.lbrk hd 0) (Demo.loop Demo.all) (fun _ g => g.loops == [⟨2, 0, 0, 7⟩] && Demo.lane g 2 (fun l => l.pc == placedText + 40)) &&
      Demo.after (.exit hd) Demo.s0 (fun _ g => Demo.lane g 0 (fun l => l.st == .exited))) = true := by
  decide +kernel

/-- R134, R135, R76: the clause's header, WIDTH, a write of TRAPH by the lowest active lane, and one that needs a handler. -/
theorem test_special :
    (Demo.after (.srd hd false 4 12) Demo.s0 (fun _ g => g.vreg 4 5 == 0x10000000 && g.vreg 5 5 == 0) &&
      Demo.after (.srd hd true 9 1) Demo.s0 (fun _ g => g.sreg 9 == 16) &&
      Demo.after (.swr ⟨false, .blame, 1, true⟩ false 31 .lane) (Demo.grp (fun g => g.setP 1 Demo.all 3)) (fun _ g => g.nstat == 2) &&
      (match exec (.swr hd true 19 (.s 1)) Demo.s0 with
       | .next t => t.teams.all (fun t => t.ending.isSome)
       | _ => false)) = true := by
  decide +kernel

/-! ### Memory, atomics and synchronisation -/

/-- A name of a class, with the device number of reset. -/
def Demo.name (cls n : Nat) : Name := BitVec.ofNat 128 (cls * 2 ^ 120 + n)

/-- Its entry, owned by context 0. -/
def Demo.entry (cls n : Nat) (record : BitVec 352) (obj : Obj) : Entry := ⟨Demo.name cls n, false, 0, 0, record, obj, none⟩

/-- The entries are in the roster. -/
def Demo.with (s : State) (es : List Entry) : State := { s with roster := es.foldl (fun m e => minsert e.name.toNat e m) s.roster }

/-- The context's record, with its manager and bank bits. -/
def Demo.context : Entry := Demo.entry 7 1 (BitVec.twoPow 352 288) (.context 0)

/-- Page 6 is mapped to frame 16, s1 points into it, and s2 into the group's scratchpad. -/
def Demo.mem (g : Group → Group) : State :=
  { Demo.st (fun k => { k with scratch := 4096 }) id (fun y => g ((y.setS 1 0x6010).setS 2 (BitVec.ofNat 64 (0xFD * 2 ^ 48)))) Demo.all with
    tlb := Demo.map 6 16 }

/-- The memory operands of s1 and s2. -/
def Demo.at1 : MemOp := ⟨1, .none, 0, false, 0⟩
def Demo.at2 : MemOp := ⟨2, .none, 0, false, 0⟩

/-- Whether a synchronising step is done in a state that satisfies `P`. -/
def Demo.done (y : Sync) (P : State → Bool) : Bool :=
  match y with
  | .done t => P t
  | _ => false

/-- A word written at 8 bytes into the granule at `va`. -/
def Demo.write (va : Nat) : GWrite :=
  ⟨0, Demo.ref, 0, 0, va, [(8, 1), (9, 2), (10, 3), (11, 4)], [(8, 5), (9, 5), (10, 5), (11, 5)], none, false, [8]⟩

/-- AddressChecks: each place of the map, at its edges, and the store queue over a window. -/
theorem meets_AddressChecks :
    let s := Demo.mem id
    let c := Demo.cur s
    let at_ := fun (a : Nat) (n : Nat) => (check189 s c.who (BitVec.ofNat 64 a) n .read).1
    cur? s = some c ∧ at_ (2 ^ 56) 4 = .badAddress ∧ at_ (2 ^ 55) 4 = .badAddress ∧ at_ (0xFD * 2 ^ 48 + 4096) 4 = .badAddress ∧
    at_ (0xFD * 2 ^ 48 + 4094) 4 = .align ∧ at_ (0xFD * 2 ^ 48 + 4092) 4 = .window (sramLoc 0 4092) ∧ at_ (0xFE * 2 ^ 48 + 8) 8 = .window (sramLoc 0 8) ∧
    at_ (2 ^ 55 - 1) 2 = .align ∧ at_ 0x6010 16 = .mem (Demo.page 6 16) ∧ at_ (2 ^ 55 - 4) 4 = .fault 1 ∧ engineOwns s (granKey (sramLoc 0 8)) = false ∧
    s.redQ = [] := by
  decide +kernel

theorem meets_AddressChecks_queue :
    let s := Demo.mem (fun g => { g with storeQ := [Demo.write (windowVa 0 16), Demo.write (windowVa 0 0)] })
    let c := Demo.cur s
    s.group? Demo.ref = some c.g ∧ c.g.storeQ.filter (fun w => w.va == windowVa 0 0 / 16 * 16) = [] ++ [Demo.write (windowVa 0 0)] ∧
    c.g.storeQ.filter (fun w => w.va == windowVa 0 32 / 16 * 16) = [] := by
  decide +kernel

/-- LoadsAndStores: loads of a mapped page by every lane, of a poisoned granule, a misaligned one, an unmapped one, and one an engine owns. -/
theorem meets_Loads :
    (let s := Demo.mem id
     let c := Demo.cur s
     let a := (lanesOf (c.active hd)).foldl (loadLane c Demo.at1 4 false (fun i g off => putV false 4 i (g.slice off 4) (.known g.tag))) (LoadAcc.start s)
     cur? s = some c ∧ c.g.peerFail = [] ∧ c.vOk 4 false = true ∧ c.idxOk Demo.at1 = true ∧ resultGate c .none = none ∧ a.line = none ∧ a.peers = [] ∧
      a.parks = [] ∧ a.traps = [] ∧ a.poison = [] ∧ a.s.group? c.ref = some c.g) ∧
    (let read := fun (s : State) (va : Word) (n : Nat) => (readFor s Demo.ref (Demo.cur s).who va n n .read false (.lanes Demo.ref (maskOf [3]))).1
     (match read (Demo.mem id) 0x6010 4 with
      | .gran g => !g.poison
      | _ => false) = true ∧
     (match read { Demo.mem id with poison := [(0x1001, true)] } 0x6010 4 with
      | .gran g => g.poison
      | _ => false) = true ∧
     read (Demo.mem id) 0x6012 4 = .trap .align ∧ read (Demo.mem id) 0x7000 4 = .park ∧
     read { Demo.mem id with cmds := [⟨0, .copy 0, .copy, Demo.ref, 0, 0, 0, 0, 0, 0, 0, 0, 0, .rn, false, false, 0, none, 0, .running, false, none, none, [], 0,
       false, none, [lineKey 0 0x6000], none, birthOf (Demo.mem id) Demo.ref, none, false⟩] } 0x6010 4 = .line (lineKey 0 0x6000)) := by
  decide +kernel

/-- LoadsAndStores: stores of every lane to a mapped page; a trap; a held store; a window; an exceptional tag under trap-store. -/
theorem meets_Stores :
    (let s := Demo.mem id
     let c := Demo.cur s
     let a := (lanesOf (c.active hd)).foldl (storeLane c 4 (memAddr c.g Demo.at1) (idxTag c.g Demo.at1) (storeData c .b32 4)) (StoreAcc.start s)
     Claim.released s s c c ⟨.dev, .relaxed, 0⟩ ∧ storePins c a = false ∧ a.parks = [] ∧ a.traps = [] ∧ a.s.group? c.ref = some c.g ∧ unpinned c = false) ∧
    (let s := Demo.mem id
     let c := Demo.cur s
     let put := fun (va : Word) => (storeFor s c.who va 4 .write c.t.id (.lanes c.ref (maskOf [3])) []).1
     put 0x6012 = .trap .align ∧ put 0x7000 = .mem none ∧ put 0x6010 = .mem (some (Demo.page 6 16)) ∧
     put (BitVec.ofNat 64 (0xFD * 2 ^ 48)) = .window (sramLoc 0 0)) ∧
    (let c := Demo.cur (Demo.st (fun k => { k with trapstore := true }) id (fun g => g.setV 4 3 0 0x8001) Demo.all)
     c.l.kernel.trapstore = true ∧ [((0 : Nat), c.g.vtag 4 3)].find? (fun p => p.2.msb) = some (0, 0x8001)) ∧
    (let s := Demo.mem id
     let c := Demo.cur s
     Demo.done (releaseAt s c.ref c.t.core c.n.x .dev) (fun t => cur? t == some c) = true) := by
  refine ⟨⟨⟨by decide +kernel, rfl, .inl ⟨.inl rfl, rfl⟩⟩, by decide +kernel, by decide +kernel, by decide +kernel, by decide +kernel, by decide +kernel⟩,
    by decide +kernel, by decide +kernel, by decide +kernel⟩

/-- LoadsAndStores: a store parks when 64 lines of its core wait on the fault path (R215). -/
theorem meets_Stores_full :
    let s := Demo.mem (fun g => { g with storeQ := (List.range 64).map (fun n => Demo.write (0x7000 + 128 * n)) })
    let c := Demo.cur s
    let s1 := [0x7000, 0x8000, 0x9000].foldl (fun s va => coreFault s c.who va .write (.store 1)) s
    (storeFor s1 c.who 0x9000 4 .write c.t.id (.lanes c.ref (maskOf [3])) []).1 = .park := by
  decide +kernel

/-- PerformedWrites: a write of bytes, and one of a tag alone. -/
theorem meets_PerformedWrites : (Demo.write 0).tstg = none ∧ { Demo.write 0 with tstg := some 7 }.tstg = some 7 ∧ MemOk State.reset := by
  refine ⟨rfl, rfl, ?_⟩
  simp only [MemOk]
  decide +kernel

/-- HintsAndBankModes: a context that may set banks and one that may not; a bank that is free and has another mode; IINV's release. -/
theorem meets_BankModes :
    (let s := Demo.s0
     mayConfigBanks s (Demo.cur s).t.ctx = false) ∧
    (let s := Demo.with (Demo.grp (fun g => g.setS 1 63)) [Demo.context]
     let c := Demo.cur s
     cur? s = some c ∧ mayConfigBanks s c.t.ctx = true ∧ Demo.done (pinFirst s c) (fun t => cur? t == some c) = true ∧ resultGate c .none = none ∧
      Memory.wf s.mem ∧ bankMode s 0 63 = .cache ∧ bankFree s 0 63 = true ∧ (c.g.sreg 1).toNat ≤ 63) ∧
    (let c := Demo.cur (Demo.mem id)
     c.idxOk Demo.at1 = true ∧ c.g.wait = none ∧ c.g.peerFail = []) := by
  decide +kernel

/-- AtomicsAndReductions: an atomic word on a scratchpad word, and REDs to a page and to a held one. -/
theorem meets_Atomics :
    let s := Demo.mem id
    let c := Demo.cur s
    let a := (lanesOf (c.active hd)).foldl (rmwLane c hd false .dev 4 Demo.at2 (fun _ => .atomic .add false 1)
      (fun _ => none) (fun i old g => atomOut .add false (regOperand c.g false 4 i).1 (regOperand c.g false 4 i).2 old g)) (LoadAcc.start s)
    let r := readFor s c.ref c.who (memAddr c.g Demo.at2 3) 4 4 .rmw false (.lanes c.ref (maskOf [3]))
    cur? s = some c ∧ c.idxOk Demo.at2 = true ∧ c.vOk 4 false = true ∧ c.vOk 5 false = true ∧
    Demo.done (pinFirst s c) (fun t => cur? (drainGroup t c.ref) == some c) = true ∧ resultGate c .none = none ∧
    a.line = none ∧ a.peers = [] ∧ a.parks = [] ∧ a.traps = [] ∧ a.poison = [] ∧ (a.s.group? c.ref == some c.g) = true ∧
    (match r.1 with
     | .gran g => !g.poison
     | _ => false) = true ∧ (check189 r.2 c.who (memAddr c.g Demo.at2 3) 4 .rmw).1 = .window (sramLoc 0 0) ∧
    (storeFor s c.who 0x6010 4 .rmw c.t.id (.lanes c.ref (maskOf [3])) []).1 = .mem (some (Demo.page 6 16)) := by
  decide +kernel

/-- FencesAndCommits: a fence whose release is done with nothing outstanding and with a result outstanding; a commit that is done. -/
theorem meets_FencesAndCommits :
    (let s := Demo.mem id
     let c := Demo.cur s
     Demo.done (releaseAt s c.ref c.t.core c.n.x .clu) (fun t => cur? t == some c) = true ∧ (∀ p ∈ c.g.pend, p.ready = true) ∧
      Demo.done (pinFirst s c) (fun t => cur? t == some c) = true ∧ c.l.kernel.replayable = false ∧ c.t.committing = false) ∧
    (let s := Demo.mem (fun g => { g with pend := [⟨0, none, .none, 0, [], false, false⟩] })
     let c := Demo.cur s
     Demo.done (releaseAt s c.ref c.t.core c.n.x .dev) (fun t => cur? t == some c) = true ∧ ∃ p ∈ c.g.pend, p.ready = false) := by
  decide +kernel

/-- A pigeonhole of four entries whose producers may push two, with `items` in it. -/
def Demo.pig (items : List Word) (allow : List (Word × Nat)) : State :=
  Demo.with (Demo.grp (fun g => g.setK 2 (Demo.name 3 9))) [Demo.entry 3 9 (BitVec.ofNat 352 (4 * 2 ^ 29 + 2 * 2 ^ 45 + 2 ^ 61)) (.pigeon 0 items allow [])]

/-- QueuesAndCells: a name that is none; pigeonholes that are empty, full, and held by 64 other producers, and an allowance used up. -/
theorem meets_Pigeonholes :
    (let s := Demo.s0
     let c := Demo.cur s
     resolve s c.t.ctx (c.g.name 2) (some 3) = .error 3) ∧
    (let s := Demo.pig [7] []
     let c := Demo.cur s
     let e := Demo.entry 3 9 (BitVec.ofNat 352 (4 * 2 ^ 29 + 2 * 2 ^ 45 + 2 ^ 61)) (.pigeon 0 [7] [] [])
     cur? s = some c ∧ resolve s c.t.ctx (c.g.name 2) (some 3) = .ok e ∧ pigCap e.record = 4 ∧ allowOf [] (producerId c) (pigAllow e.record) = 2 ∧
      c.l.kernel.replayable = false ∧ c.t.committing = false ∧ resultGate c .none = none ∧
      (let s0 := s.modEntry (c.g.name 2) (fun e => { e with obj := .pigeon 0 [7] [(producerId c, 2)] [] })
       ensureAllow [] (producerId c) 2 = some [(producerId c, 2)] ∧
       Demo.done (pigPin s0 c e.record) (fun s1 => cur? s1 == some c && Demo.done (releaseAt s1 c.ref c.t.core c.n.x (pigScope e.record))
         (fun s2 => cur? s2 == some c && (entryOf s2 (c.g.name 2)).isSome)) = true)) ∧
    (let c := Demo.cur (Demo.pig [1, 2, 3, 4] [(0, 0)])
     producerId c = 0 ∧ pigCap (BitVec.ofNat 352 (4 * 2 ^ 29)) ≤ [1, 2, 3, 4].length ∧ allowOf [((0 : Word), 0)] (producerId c) 2 = 0) ∧
    (let allow := (List.range 64).map (fun n => (BitVec.ofNat 64 (n + 1), 2))
     ¬((∃ p ∈ allow, p.1 = 0) ∨ allow.length < 64)) := by
  decide +kernel

/-- QueuesAndCells: a count cell in the scratchpad that is reached and one that is not; a deadline that has come; a barrier. -/
theorem meets_CountCells :
    (let s := Demo.mem id
     let c := Demo.cur s
     let r := readFor s c.ref c.who (c.g.sreg 2) 8 8 .read false (.lanes c.ref c.n.x)
     cur? s = some c ∧ c.g.peerFail = [] ∧ Demo.done (pinFirst s c) (fun t => cur? (applyReds (drainGroup t c.ref) c.ref) == some c) = true ∧
      (check189 s c.who (c.g.sreg 2) 8 .rmw).1 = .window (sramLoc 0 0) ∧ engineOwns s (granKey (sramLoc 0 0)) = false ∧
      (match r.1 with
       | .gran g => !g.poison && g.slice 0 4 == 0
       | _ => false) = true ∧ (r.2.group? c.ref == some c.g) = true ∧ roleOk none c = true ∧
      Demo.done (releaseAt s c.ref c.t.core c.n.x .core) (fun t => cur? t == some c) = true) ∧
    (let s := Demo.mem (fun g => { g with cwaitDl := some 0 })
     (0 : Nat) ≤ s.time.toNat ∧ (Demo.cur s).g.cwaitDl.getD (s.time.toNat + 5) = 0) := by
  decide +kernel

/-! #### Results -/

/-- R199, R200, R192: a store to the scratchpad is queued, and a load of it sees the queue; a byte is sign-extended. -/
theorem test_memory :
    (let s := Demo.mem (fun g => { g with storeQ := [Demo.write (windowVa 0 0)] })
     Demo.after (.vld hd .b32 ⟨.dev, .relaxed, 0⟩ 4 ⟨2, .none, 0, false, 8⟩) s (fun _ g =>
       (g.pend.flatMap (·.writes)).contains (.v 4 3 0x04030201 (.known 5)))) = true ∧
    (let s := { Demo.mem id with mem := [(65552, 0x80)] }
     Demo.after (.sld hd .i8 ⟨.dev, .relaxed, 0⟩ 4 Demo.at1) s (fun _ g =>
       g.pend.flatMap (·.writes) == [.s 4 (-128)])) = true ∧
    (Demo.after (.vst hd .b32 ⟨.dev, .relaxed, 0⟩ 4 Demo.at2) (Demo.mem (fun g => (g.setV 4 15 0xAABBCCDD 0x7))) (fun _ g =>
       match g.storeQ with
       | [w] => w.bytes == [(0, 0xDD), (1, 0xCC), (2, 0xBB), (3, 0xAA)] && w.tags == [(0, 7), (1, 7), (2, 7), (3, 7)]
       | _ => false)) = true := by
  decide +kernel

/-- R222, R224: sixteen lanes add to one scratchpad word; a comparison that fails leaves it. -/
theorem test_atomics :
    (Demo.after (.atom hd .add .b32 ⟨.dev, .relaxed, 0⟩ 4 Demo.at2) (Demo.mem (fun g => (List.range 16).foldl (fun g i => g.setV 4 i 3 0) g)) (fun t g =>
       natAt t (sramLoc 0 0) 4 == 48 && (g.pend.flatMap (·.writes)).any (fun w => match w with
        | .v 4 15 x _ => x == 45
        | _ => false))) = true ∧
    (Demo.after (.acas hd .b32 ⟨.dev, .relaxed, 0⟩ 4 Demo.at2) (Demo.mem (fun g => (g.setV 4 0 1 0).setV 5 0 9 0)) (fun t _ =>
       natAt t (sramLoc 0 0) 4 == 0)) = true := by
  decide +kernel

/-- R230, R235: a pop takes the oldest entry; an arrival adds to the count. -/
theorem test_sync :
    Demo.after (.qpop hd 3 true false 2 12) (Demo.pig [7, 8] []) (fun t g =>
      (entryOf t (Demo.name 3 9)).map (·.obj) == some (.pigeon 0 [8] [] []) && (g.pend.flatMap (·.writes)).contains (.s 12 7)) = true ∧
    Demo.after (.carr hd .dev .relaxed 2 (.i 5)) (Demo.mem id) (fun t _ => natAt t (sramLoc 0 0) 4 == 5) = true ∧
    Demo.after (.cwait hd 3 true .dev .relaxed 2 (.i 1) none) (Demo.mem id) (fun _ g =>
      g.pend.flatMap (·.writes) == reasonWs 3 0x24) = true := by
  decide +kernel

/-! ### The matrix engine, engines, control programs and names -/

/-- The team's one slot, physical slot 5, with a token. -/
def Demo.slot (token : Token) (event : Option AccEvent) (waits : List Nat) : Acc := ⟨1, token, [], 0, [], [], event, 0, waits, []⟩
def Demo.accIn (a : Acc) (g : Group → Group) (x : Mask) : State :=
  { Demo.st (fun k => { k with acc := 1 }) (fun t => { t with accs := [5] }) g x with accs := [(5, a)], tlb := Demo.map 6 16 }
def Demo.acc (a : Acc) (g : Group → Group) : State := Demo.accIn a g Demo.all

/-- Accumulators: a slot outside the team's, and one inside with each token. -/
theorem meets_AccumulatorTokens :
    (let c := Demo.cur (Demo.acc (Demo.slot (.held 0) none []) id)
     cur? (Demo.acc (Demo.slot (.held 0) none []) id) = some c ∧ c.l.kernel.acc ≤ 1 ∧ 0 < c.l.kernel.acc ∧ c.t.accs[0]? = some 5 ∧ c.g.grp = 0 ∧
      mfind (Demo.acc (Demo.slot (.held 0) none []) id).accs (c.t.core * 64 + 5) = some (Demo.slot (.held 0) none [])) ∧
    ([Token.unclaimed, .held 0, .held 1, .leaving 0, .leaving 1, .engine].all (fun tok =>
      mfind (Demo.acc (Demo.slot tok none []) id).accs 5 == some (Demo.slot tok none []))) = true ∧
    (let a := Demo.slot .engine (some ⟨.poison, 0, 0, 0, 0, (0, 0, 0)⟩) []
     a.token = .engine ∧ a.waits = [] ∧ (∀ m ∈ (Demo.acc a id).mmas, ¬(m.core = 0 ∧ m.phys = 5)) ∧ a.event = some ⟨.poison, 0, 0, 0, 0, (0, 0, 0)⟩) ∧
    (Demo.slot .engine none [1]).waits ≠ [] := by
  decide +kernel

/-- A tensor record of rank 2: its base, format, extents and the stride of its rows. -/
def Demo.tensor (base fmt d0 d1 stride : Nat) : BitVec 352 :=
  BitVec.ofNat 352 (base + fmt * 2 ^ 56 + d0 * 2 ^ 64 + d1 * 2 ^ 88 + stride * 2 ^ 160 + 2 ^ 346)

/-- Two tensors in k0 and k1: 64 by 64 of bf16, and of f32. -/
def Demo.tensors (s : State) : State :=
  (Demo.with s [Demo.entry 2 10 (Demo.tensor 0x6000 4 64 64 128) .plain, Demo.entry 2 11 (Demo.tensor 0x6000 2 64 64 256) .plain]).modGroup Demo.ref
    (fun g => (g.setK 0 (Demo.name 2 10)).setK 1 (Demo.name 2 11))

/-- MatrixProducts: names that resolve and not, coordinates inside and past the end, formats that multiply and not, a full queue. -/
theorem meets_MatrixIssue :
    let s := Demo.tensors (Demo.acc (Demo.slot .engine none []) (fun g => (g.setS 3 64).setS 4 63))
    let c := Demo.cur s
    let r := Demo.tensor 0x6000 4 64 64 128
    let m : Mma := ⟨0, 0, 5, Demo.ref, 0, 0, r, r, 0, 0, 0, 0, false, false, 0, .blame, 0, birthOf s Demo.ref, false, none⟩
    cur? s = some c ∧ resolve s c.t.ctx (c.g.name 0) (some 2) = .ok (Demo.entry 2 10 r .plain) ∧ resolve s c.t.ctx (c.g.name 2) (some 2) = .error 3 ∧
    ((c.g.sreg 4).extractLsb' 0 24).toNat < tExt r 0 ∧ ¬((c.g.sreg 3).extractLsb' 0 24).toNat < tExt r 0 ∧ tCb r = false ∧ tRank r = 2 ∧
    mmaShapeOk r r = true ∧ mmaShapeOk r (Demo.tensor 0x6000 2 64 64 256) = false ∧ (s.mmas.filter (fun m => m.core == c.t.core)).length < 32 ∧
    32 ≤ ((List.replicate 32 m).filter (fun m => m.core == c.t.core)).length ∧ Demo.done (pinFirst s c) (fun t => cur? t == some c) = true := by
  decide +kernel

/-- MatrixProducts: values of MMA that are NaN, and numbers whose sum is one of binary32. -/
theorem meets_MatrixValues :
    (decF .f32 0x7FC00000).isNan = true ∧ (decF .f32 0x3F800000).special = false ∧
    (∀ v ∈ [(⟨.fin false 1 0, 0, false, false⟩ : TEl)] ++ [⟨.fin false 1 1, 0, false, false⟩], v.v.special = false) := by
  decide +kernel

/-- Accumulators: rows at a pitch of 1024 bytes from a mapped page, and a pitch that is too small. -/
theorem meets_AccumulatorMemory :
    let s := Demo.accIn (Demo.slot (.held 0) none []) (fun g => (g.setS 1 0x6000).setS 2 64) 1
    let s := { s with tlb := (List.range 20).flatMap (fun i => Demo.map (6 + i) (16 + i)) }
    let c := Demo.cur s
    let m2 : MemOp := ⟨1, .s 2, 4, false, 0⟩
    let r := (lanesOf (c.active hd)).foldl (aldLane c m2) ⟨s, [], [], [], [], none, []⟩
    let x := (lanesOf (c.active hd)).foldl (astLane s.seqN c m2 (Demo.slot (.held 0) none [])) (AstAcc.start s)
    cur? s = some c ∧ c.g.peerFail = [] ∧ mfind s.accs 5 = some (Demo.slot (.held 0) none []) ∧ c.g.grp = 0 ∧ pitchBad c.g m2 = false ∧
    pitchBad c.g ⟨1, .s 2, 0, false, 0⟩ = true ∧ r.line = none ∧ r.peers = [] ∧ r.parks = [] ∧ r.traps = [] ∧ r.poison = [] ∧
    (r.s.group? c.ref == some c.g) = true ∧ mfind r.s.accs 5 = some (Demo.slot (.held 0) none []) ∧
    x.st.parks = [] ∧ x.st.traps = [] ∧ x.poison = [] ∧ storePins c x.st = false ∧ unpinned c = false ∧ (x.st.s.group? c.ref == some c.g) = true ∧
    c.l.kernel.replayable = false ∧ c.t.committing = false ∧ c.g.storeQ = [] := by
  decide +kernel

/-- EngineAndProgramWords: a copy between two tensors with a cell, one out of its extents, one of shapes that do not fit, a name that is none. -/
theorem meets_EngineWords :
    let s := Demo.tensors (Demo.acc (Demo.slot .engine none []) (fun g => (g.setS 1 0x6000).setS 3 64))
    let c := Demo.cur s
    let a := Demo.tensor 0x6000 4 64 64 128
    let b := Demo.tensor 0x6000 2 64 64 256
    cur? s = some c ∧ resultGate c .none = none ∧ resolve s c.t.ctx (c.g.name 0) (some 2) = .ok (Demo.entry 2 10 a .plain) ∧
    resolve s c.t.ctx (c.g.name 1) (some 2) = .ok (Demo.entry 2 11 b .plain) ∧ resolve s c.t.ctx (c.g.name 5) (some 2) = .error 3 ∧
    (checkCell s c.who (c.g.sreg 1)).1 = .ok ∧ (checkCell s c.who (c.g.sreg 0)).1 = .ok ∧
    coordOk .copy a (c.g.sreg 0) = true ∧ coordOk .copy a (c.g.sreg 3) = false ∧ shapeOk .copy false a b 0 0 = true ∧
    shapeOk .dec false a b 0 0 = false ∧ engRoom s (engineOf .copy c.t.core) = true ∧
    Demo.done (pinFirst s c) (fun t => cur? t == some c) = true := by
  decide +kernel

/-- A program of one HALT step in k5, its engine on die 0, with s1 and s2 the arguments of CPRUN: job 3, rank 1 of 2 members. -/
def Demo.prog (p : CpProg) : State :=
  (Demo.with (Demo.grp (fun g => (g.setS 1 (BitVec.ofNat 64 (3 * 2 ^ 32 + 1))).setS 2 2)) [Demo.entry 4 12 0 (.prog p)]).modGroup Demo.ref
    (fun g => g.setK 5 (Demo.name 4 12))

/-- A run of that program. -/
def Demo.run (rank : Nat) : Run :=
  ⟨1, Demo.name 4 12, 0, 0, 0, false, 3, 0, rank, 2, 0, 0, 0, [], 0, false, false, none, none, none, [], 0, 0, none, none, [], none, []⟩

/-- EngineAndProgramWords: CPRUN's checks in their order, each met; CPSTAT of an idle and of a running program; CPSTOP. -/
theorem meets_ControlProgramWords :
    (let s := Demo.prog ⟨[0], [], 0, 0, 0, false, false, 0⟩
     let c := Demo.cur s
     let x := c.g.sreg 1
     let y := c.g.sreg 2
     let e := Demo.entry 4 12 0 (.prog ⟨[0], [], 0, 0, 0, false, false, 0⟩)
     cur? s = some c ∧ resultGate c .none = none ∧ resolve s c.t.ctx (c.g.name 5) (some 4) = .ok e ∧ resolve s c.t.ctx (c.g.name 6) (some 4) = .error 3 ∧
      x.extractLsb' 48 15 = 0 ∧ x.extractLsb' 28 4 = 0 ∧ x.extractLsb' 12 4 = 0 ∧ y.extractLsb' 16 16 = 0 ∧ (y.extractLsb' 0 16).toNat = 2 ∧
      (x.extractLsb' 0 12).toNat = 1 ∧ CpStep.isPeer (cpStep 0) = false ∧ s.runs = [] ∧ tensorNames [] = [] ∧
      stagingBusy s 0 ⟨[0], [], 0, 0, 0, false, false, 0⟩ = false ∧ c.g.peerFail = [] ∧
      Demo.done (pinFirst s c) (fun s1 => cur? s1 == some c && Demo.done (releaseAt s1 c.ref c.t.core c.n.x .dev) (fun s2 => cur? s2 == some c)) = true ∧
      progOf s (c.g.name 5) = some (0, ⟨[0], [], 0, 0, 0, false, false, 0⟩)) ∧
    (let s := { Demo.prog ⟨[0], [], 1, 0, 0, false, false, 0⟩ with runs := [Demo.run 1] }
     let c := Demo.cur s
     s.runs.find? (fun r => r.prog == c.g.name 5) = some (Demo.run 1) ∧ ¬(∀ r ∈ s.runs, r.job ≠ 3 ∨ r.rank ≠ 1) ∧
      Demo.done (pinFirst s c) (fun s1 => (cur? (stopRun s1 (Demo.run 1))).isSome) = true) ∧
    (let s := { Demo.prog ⟨[0], [], 0, 0, 0, false, false, 0⟩ with runs := (List.range 16).map (fun i => Demo.run (i + 2)) }
     ¬(s.runs.filter (fun r => r.die == 0)).length < 16 ∧ ∀ r ∈ s.runs, r.job ≠ 3 ∨ r.rank ≠ 1) ∧
    (let s := Demo.prog ⟨[0], [Demo.name 2 99], 0, 0, 0, false, false, 0⟩
     tensorNames [Demo.name 2 99] = [] ++ Demo.name 2 99 :: [] ∧ resolve s 0 (Demo.name 2 99) (some 2) = .error 1) := by
  decide +kernel

/-- NameInstructions: NNEW's image in a mapped page, misaligned, and of a class it may not make. -/
theorem meets_NewNames :
    (let s := Demo.mem id
     let c := Demo.cur s
     cur? s = some c ∧ resultGate c .none = none ∧ isManager s c.t.ctx = false ∧ c.g.peerFail = [] ∧
      Demo.done (pinFirst s c) (fun s1 => cur? s1 == some c && Demo.done (releaseAt s1 c.ref c.t.core c.n.x .dev) (fun s2 => cur? s2 == some c)) = true ∧
      (c.g.sreg 1).toNat % 16 = 0 ∧ s.roster.length < 2 ^ 24 ∧ tensorOk (Demo.tensor 0x6000 4 64 64 128) = true ∧
      tCb (Demo.tensor 0x6000 4 64 64 128) = false ∧ tensorOk 0 = false ∧ spaceOk 1 = false) ∧
    (isManager (Demo.with Demo.s0 [Demo.entry 7 1 (BitVec.twoPow 352 289) (.context 0)]) 0 = true) := by
  decide +kernel

/-- NameInstructions: the bytes of an image in the scratchpad are read as they stand. -/
theorem meets_NewNames_image :
    let s := Demo.mem id
    let c := Demo.cur s
    c.g.sreg 2 = BitVec.ofNat 64 (0xFD * 2 ^ 48) ∧ (c.g.sreg 2).toNat % 16 = 0 ∧ ∀ (K : State → List Byte → State),
      withBulk s c hd (BitVec.ofNat 64 (0xFD * 2 ^ 48)) 16 48 K = K s (List.replicate 48 0) := by
  refine ⟨by decide +kernel, by decide +kernel, fun K => ?_⟩
  have h : ((check189 (Demo.mem id) (Demo.cur (Demo.mem id)).who (BitVec.ofNat 64 (0xFD * 2 ^ 48)) 16 .read).1 == .badAddress) = false ∧
      ((check189 (Demo.mem id) (Demo.cur (Demo.mem id)).who (BitVec.ofNat 64 (0xFD * 2 ^ 48)) 16 .read).1 == .align) = false := by decide +kernel
  have e : (pieces (BitVec.ofNat 64 (0xFD * 2 ^ 48)).toNat 48).foldl (bulkPiece (Demo.cur (Demo.mem id)))
      ⟨Demo.mem id, [], none, false, none, none, []⟩ = ⟨Demo.mem id, List.replicate 48 0, none, false, none, none, []⟩ := by decide +kernel
  simp only [withBulk, h.1, h.2, e, Bool.false_eq_true, if_false]

/-- NameInstructions: a live name and none; a name in use; a manager's own name that is not; a name in memory. -/
theorem meets_NameWords :
    (let s := Demo.tensors Demo.s0
     let c := Demo.cur s
     cur? s = some c ∧ resultGate c .none = none ∧ resolve s c.t.ctx (c.g.name 0) none = .ok (Demo.entry 2 10 (Demo.tensor 0x6000 4 64 64 128) .plain) ∧
      resolve s c.t.ctx (c.g.name 7) none = .error 3 ∧ nameInUse s (Demo.entry 2 10 (Demo.tensor 0x6000 4 64 64 128) .plain) = false ∧
      Demo.done (pinFirst s c) (fun t => cur? t == some c && (entryOf t (c.g.name 0)).map (·.obj) == some .plain) = true) ∧
    (let s := Demo.with Demo.s0 [Demo.entry 7 1 0 (.context 0)]
     nameInUse s (Demo.entry 7 1 0 (.context 0)) = true) ∧
    (let s := Demo.mem id
     let c := Demo.cur s
     let r := readFor s c.ref c.who (memAddr c.g Demo.at2 0) 16 16 .read false (.lanes c.ref c.n.x)
     let w := readFor s c.ref c.who (memAddr c.g Demo.at2 0) 16 16 .rmw false (.lanes c.ref c.n.x)
     (match r.1 with
      | .gran g => !g.poison && nameOfGran g == 0
      | _ => false) = true ∧ r.2 = s ∧ (match w.1 with
      | .gran g => !g.poison
      | _ => false) = true ∧ (check189 w.2 c.who (memAddr c.g Demo.at2 0) 16 .rmw).1 = .window (sramLoc 0 0) ∧ unpinned c = false ∧ c.g.storeQ = [] ∧
      resolveCode s c.t.ctx 0 = 3 ∧ Demo.done (pinFirst s c) (fun t => cur? (drainGroup t c.ref) == some c) = true ∧ c.g.name 3 = 0 ∧
      (Demo.cur (Demo.mem (fun g => g.setK 3 1))).g.name 3 ≠ 0) := by
  decide +kernel

/-! #### Results -/

/-- R307, R318: the slot given up; another group's slot; a row of zeros. -/
theorem test_accumulator :
    Demo.after (.arel hd 0) (Demo.acc (Demo.slot (.held 0) none []) id) (fun t _ => (mfind t.accs 5).map (·.token) == some .engine) = true ∧
    Demo.after (.azero hd 0) (Demo.accIn { Demo.slot .unclaimed none [] with data := [(0, 5)] } id 1) (fun t _ =>
      (mfind t.accs 5).map (fun a => (a.token, a.elem 0 0)) == some (.held 0, 0)) = true ∧
    (match exec (.arel hd 0) (Demo.acc (Demo.slot (.held 1) none []) id) with
     | .next t => t.teams.all (fun t => t.ending.isSome)
     | _ => false) = true := by
  decide +kernel

/-- R277, R279, R262: NINFO's class and owner, NKILL's mark, a null name's reason. -/
theorem test_names :
    Demo.after (.ninfo hd 3 false 0 20 0) (Demo.tensors Demo.s0) (fun _ g => (g.pend.flatMap (·.writes)).contains (.s 20 0x102)) = true ∧
    Demo.after (.nkill hd 3 false 0) (Demo.tensors Demo.s0) (fun t _ => (entryOf t (Demo.name 2 10)).map (·.dying) == some true) = true ∧
    Demo.after (.nres hd 3 false 7) Demo.s0 (fun _ g => g.pend.flatMap (·.writes) == reasonWs 3 3) = true := by
  decide +kernel

/-! ### Tags, the slate, traps and launches -/

/-- TagRules: the first exceptional source with E and without, and writes with and without E over a granule. -/
theorem meets_TagRules :
    (([⟨1, false⟩, ⟨2, true⟩] : List TSrc).find? (·.exc) = some ⟨2, true⟩) ∧ (([⟨1, false⟩] : List TSrc).find? (·.exc) = none) ∧
    ([1, 0x8002] : List Tag) = [1] ++ 0x8002 :: [] ∧ ([1] : List Tag).all (fun x => !x.msb) = true ∧ (0x8002 : Tag).msb = true ∧
    ([1, 2] : List Tag).all (fun x => !x.msb) = true ∧ (0x8003 : Tag).msb = true ∧ (3 : Tag).msb = false := by
  decide +kernel

/-- The launch's roll, with its entries. -/
def Demo.roll (es : List RollEntry) (broken : Bool) (tag : Word) : State :=
  let s := Demo.with (Demo.grp (fun g => g.setS 20 tag)) [Demo.entry 5 3 0 (.roll ⟨true, 0, 10, es, broken⟩)]
  { s with launches := s.launches.map (fun l => { l with roll := Demo.name 5 3 }) }

/-- TagInstructions: an exceptional source and none; handles of every state: 0, 0x7FFF, of no roll, of a broken one, past its end, and its last. -/
theorem meets_TagWords :
    (let c := Demo.cur Demo.s0
     cur? Demo.s0 = some c ∧ c.srcOk .f32 (.v 1) = true ∧ (∀ k, k < 64 → (c.active hd).getLsbD k = true → (srcOf c.g .f32 (.v 1) k).exc = false) ∧
      rollOf Demo.s0 c.l.roll = none) ∧
    (let c := Demo.cur (Demo.grp (fun g => g.setV 1 3 0x7FC00000 0x8001))
     (c.active hd).getLsbD 3 = true ∧ (srcOf c.g .f32 (.v 1) 3).exc = true ∧ c.g.inTrap = false ∧ Demo.stands c = true) ∧
    (let e : RollEntry := ⟨0x10000008, 0, 0, 0, 3, 0, true⟩
     let s := flushRoll (Demo.roll [e] false 1) (Demo.name 5 3)
     let c := Demo.cur s
     cur? s = some c ∧ rollOf s c.l.roll = some ⟨true, 0, 10, [e], false⟩ ∧ ((c.g.sreg 20).setWidth 16 : BitVec 16).toNat % 2 ^ 15 = 1 ∧
      [e][1 - 1]? = some e ∧ (∀ x ∈ [e], x.written = true) ∧ flushRoll s c.l.roll = s ∧ resultGate c .none = none) ∧
    (let c := Demo.cur (Demo.roll [] false 0x7FFF)
     ((c.g.sreg 20).setWidth 16 : BitVec 16).toNat % 2 ^ 15 = 0x7FFF) ∧
    (let s := Demo.roll [] false 0x8002
     rollOf s (Demo.cur s).l.roll = some ⟨true, 0, 10, [], false⟩ ∧ (([] : List RollEntry).length < 2)) ∧
    (let s := Demo.roll [] true 2
     rollOf s (Demo.cur s).l.roll = some ⟨true, 0, 10, [], true⟩) := by
  decide +kernel

/-- TagInstructions: TLDG and TSTG of a granule of the scratchpad. -/
theorem meets_TagMemory :
    (let s := Demo.mem id
     let c := Demo.cur s
     let a := (lanesOf (c.active hd)).foldl (tldgLane c hd 4 Demo.at2) (LoadAcc.start s)
     let b := (lanesOf (c.active hd)).foldl (tstgLane c 4 Demo.at2) (StoreAcc.start s)
     cur? s = some c ∧ c.g.peerFail = [] ∧ c.vOk 4 false = true ∧ c.idxOk Demo.at2 = true ∧ resultGate c .none = none ∧ a.line = none ∧ a.peers = [] ∧
      a.parks = [] ∧ a.traps = [] ∧ a.poison = [] ∧ (a.s.group? c.ref == some c.g) = true ∧ storePins c b = false ∧ unpinned c = false ∧
      b.parks = [] ∧ b.traps = [] ∧ (b.s.group? c.ref == some c.g) = true ∧
      (match (readFor s c.ref c.who (memAddr c.g Demo.at2 0) 16 16 .read false (.lanes c.ref (maskOf [0]))).1 with
       | .gran g => !g.poison
       | _ => false) = true ∧
      (storeFor s c.who (memAddr c.g Demo.at2 0) 16 .write c.t.id (.lanes c.ref (maskOf [0])) []).1 = .window (sramLoc 0 0) ∧
      c.l.kernel.trapstore = false) ∧
    (let c := Demo.cur (Demo.st (fun k => { k with trapstore := true }) id (fun g => g.setV 4 0 0x8001 0) Demo.all)
     c.l.kernel.trapstore = true ∧ ((c.g.vreg 4 0).setWidth 16 : Tag).msb = true) := by
  decide +kernel

/-- A kernel with room for two frames on chip, and the slate `x`. -/
def Demo.slate (k : Kernel → Kernel) (x : Slate) : State := Demo.st (fun y => k { y with slateOn := 272 }) id (fun g => { g with slate := x }) Demo.all

/-- A frame of an op of the group's width. -/
def Demo.frame (op : Nat) (mark : BitVec 16) (fmt : BitVec 8) : Frame := ⟨frameHead 1 mark fmt 16 op (List.replicate 16 0), List.replicate 16 0⟩

/-- ForwardForms: room on chip; none, with room in memory and without. -/
theorem meets_ForwardForms :
    (let c := Demo.cur (Demo.slate id ⟨[], 0, 0, 0, 0, []⟩)
     cur? (Demo.slate id ⟨[], 0, 0, 0, 0, []⟩) = some c ∧ replayOf c = none ∧ c.g.slate.chip.length < chipCap c.l.kernel ∧ c.vOk 30 false = true ∧
      c.srcOk .f32 (.v 20) = true) ∧
    (let f := Demo.frame 1 0 2
     let c := Demo.cur (Demo.slate (fun k => { k with slateMem := 4096 }) ⟨[f, f], 0, 2, 0, 0, []⟩)
     ¬c.g.slate.chip.length < chipCap c.l.kernel ∧ c.g.slate.inmem < regionCap c.l.kernel ∧ chipCap c.l.kernel ≠ 0) ∧
    (let f := Demo.frame 1 0 2
     let c := Demo.cur (Demo.slate id ⟨[f, f], 0, 2, 0, 0, []⟩)
     ¬c.g.slate.chip.length < chipCap c.l.kernel ∧ regionCap c.l.kernel ≤ c.g.slate.inmem) := by
  decide +kernel

/-- ForwardForms: no error strikes a product. -/
theorem meets_ForwardForms_float :
    let s := Demo.slate id ⟨[], 0, 0, 0, 0, []⟩
    let c := Demo.cur s
    Claim.unstruck s c hd (fun k => fpLane s c .f32 ⟨.rn, false, false⟩ .mul k [readSrc c.g .f32 (.c 3) k, readSrc c.g .f32 (.c 5) k]) := by
  have h : ∀ k, k < 16 → badElem (fpLane (Demo.slate id ⟨[], 0, 0, 0, 0, []⟩) (Demo.cur (Demo.slate id ⟨[], 0, 0, 0, 0, []⟩)) .f32 ⟨.rn, false, false⟩ .mul k
      [readSrc (Demo.cur (Demo.slate id ⟨[], 0, 0, 0, 0, []⟩)).g .f32 (.c 3) k, readSrc (Demo.cur (Demo.slate id ⟨[], 0, 0, 0, 0, []⟩)).g .f32 (.c 5) k]) = none := by
    decide +kernel
  exact ⟨by decide +kernel, fun k hk => h k (Demo.below16 (by decide +kernel) hk)⟩

/-- UndoFormsAndMarks: no frame; the newest of the word's op, and of another; a marker under it. -/
theorem meets_UndoForms :
    (let c := Demo.cur Demo.s0
     c.g.slate.chip = [] ∧ c.g.slate.inmem = 0 ∧ resultGate c .none = none) ∧
    (let f := Demo.frame 1 0 2
     headOp f.head = 1 ∧ headFmt f.head = 0x02 ∧ headWidth f.head = widthCode 16 ∧ headOp f.head ≠ 3) ∧
    (let f := Demo.frame 1 0 2
     let m := Demo.frame 15 7 0
     let c := Demo.cur (Demo.slate id ⟨[f, m], 0, 2, 0, 0, []⟩)
     c.g.slate.chip = [f] ++ m :: [] ∧ headOp m.head = 15 ∧ headMark m.head = 7 ∧ (∀ y ∈ [f], ¬(headOp y.head = 15 ∧ headMark y.head = 7)) ∧
      (∀ y ∈ c.g.slate.chip, ¬(headOp y.head = 15 ∧ headMark y.head = 8)) ∧ c.g.slate.inmem = 0) := by
  decide +kernel

/-- UndoGivesBackSource: any two words of 32 bits. -/
theorem meets_UndoGivesBackSource : (0xFFFFFFFF : Nat) < 2 ^ 32 ∧ (0x3F800000 : Nat) ≠ 2 ^ 31 := by decide

/-- The group in a handler, every lane handling, with its clause's header as its return place. -/
def Demo.handler (g : Group → Group) : State :=
  Demo.grp (fun y => g { y with inTrap := true, lanes := y.lanes.map (fun l => { l with trap := .handling, tpc := placedText }) })

/-- TrapsAndLaunches: a trap outside a handler and in one; TRET with results outstanding, with a place that is none, and to its clause. -/
theorem meets_TrapWords :
    (let c := Demo.cur Demo.s0
     cur? Demo.s0 = some c ∧ c.n.x ≠ 0 ∧ c.g.inTrap = false ∧ Demo.stands c = true) ∧
    (let s := Demo.handler id
     let c := Demo.cur s
     let ls := (lanesOf c.n.x).filterMap (fun i => c.g.lane i)
     cur? s = some c ∧ c.n.x ≠ 0 ∧ c.g.inTrap = true ∧ c.n.x = c.g.live ∧ badSaved c.g.saved = false ∧ (∀ l ∈ ls, l.depth = l.depthAt) ∧
      (∀ l ∈ ls, Back.isFault (backOf s c l) = false) ∧ (∀ l ∈ ls, Back.isIllegal (backOf s c l) = false) ∧ c.g.pend = [] ∧ Demo.stands c = true) ∧
    (let s := Demo.handler (fun g => { g with pend := [⟨0, none, .none, 0, [], false, false⟩] })
     (Demo.cur s).g.pend ≠ []) ∧
    (let s := Demo.handler (fun g => { g with lanes := g.lanes.map (fun l => { l with tpc := 4 }) })
     let c := Demo.cur s
     let ls := (lanesOf c.n.x).filterMap (fun i => c.g.lane i)
     (∀ l ∈ ls, Back.isFault (backOf s c l) = false) ∧ ∃ l ∈ ls, Back.isIllegal (backOf s c l) = true) := by
  decide +kernel

/-- TrapsAndLaunches: a packet misaligned, above the map, and in a page that is mapped; a queue that is full. -/
theorem meets_LaunchWord :
    let s0 := Demo.mem (fun g => g.setS 1 0x6000)
    let s := ((pieces 0x6000 64).foldl (bulkPiece (Demo.cur s0)) ⟨s0, [], none, false, none, none, []⟩).s
    let c := Demo.cur s
    let full : Launch := { placedLaunch s with stage := .queued }
    cur? s = some c ∧ (c.g.sreg 1).toNat % 64 = 0 ∧ (c.g.sreg 1).toNat < 2 ^ 55 ∧ c.g.peerFail = [] ∧ (0x6010 : Nat) % 64 ≠ 0 ∧
    (c.g.sreg 2).toNat % 64 = 0 ∧ 2 ^ 55 ≤ (c.g.sreg 2).toNat ∧
    Demo.done (pinFirst s c) (fun s1 => cur? s1 == some c && Demo.done (releaseAt s1 c.ref c.t.core c.n.x .dev) (fun s2 => s2 == s)) = true ∧
    (s.launches.filter (fun l => l.ctx == c.t.ctx && l.holdsEntry)).length < 256 ∧
    256 ≤ ((List.replicate 256 full).filter (fun l => l.ctx == c.t.ctx && l.holdsEntry)).length ∧
    (pieces 0x6000 64).foldl (bulkPiece c) ⟨s, [], none, false, none, none, []⟩ = ⟨s, List.replicate 64 0, none, false, none, none, []⟩ := by
  decide +kernel

/-! #### Results -/

/-- R358 to R360: the tag as a value; E cleared; R351: an addition of a tagged NaN keeps the NaN's tag under BLAME. -/
theorem test_tags :
    (let s := Demo.grp (fun g => (g.setV 21 3 0x7FC00000 0x8005).setV 30 3 9 0x8006)
     Demo.after (.tget hd 40 (.v 21)) s (fun _ g => g.vreg 40 3 == 0x8005) &&
      Demo.after (.tset hd 30 .clre) s (fun _ g => g.vtag 30 3 == 6 && g.vreg 30 3 == 9) &&
      Demo.after (.fadd hd .f32 22 (.c 1) (.r (.v 21)) ⟨.rn, false, false⟩) s (fun _ g => g.vtag 22 3 == 0x8005)) = true ∧
    (Demo.after (.tchk hd .f32 (.v 21)) (Demo.grp (fun g => g.setV 21 3 0x7FC00000 0x8005)) (fun _ g =>
       g.trapReq.map (fun r => (r.cause, r.lanes.map (fun p => (p.lane, p.ttag)))) == some (.tagCheck, [(3, 0x8005)]))) = true := by
  decide +kernel

/-- R376, R384: a product and its undoing; R388: a marker dropped with the frames above it. -/
theorem test_slate :
    (let s := Demo.slate id ⟨[], 0, 0, 0, 0, []⟩
     Demo.after (.rvmul hd .f32 30 (.c 3) (.c 2) .rn) s (fun _ g => g.vreg 30 5 == 0x40C00000 && g.slate.chip.length == 1 && g.slate.pushes == 1)) = true ∧
    (let f : Frame := ⟨frameHead 1 0 2 16 1 [], (List.replicate 16 (entryWord false false 0x12 0))⟩
     let s := Demo.st id id (fun g => { g with slate := ⟨[f], 0, 1, 0, 0, []⟩ }) Demo.all
     Demo.after (.unmul hd .f32 40 (.c 6) (.c 2)) s (fun _ g => g.slate.chip == [] && (g.pend.flatMap (·.writes)).any (fun w => match w with
       | .v 40 5 x _ => x == 0x40400000
       | _ => false))) = true ∧
    (Demo.after (.sldrop hd 7) (Demo.slate id ⟨[Demo.frame 1 0 2, Demo.frame 15 7 0], 0, 2, 0, 0, []⟩) (fun _ g => g.slate.chip == [])) = true := by
  decide +kernel

/-- R331, R330: TRAP 5 is owed to every lane with its return place after the word; in a handler the team ends. -/
theorem test_trap :
    Demo.after (.trap hd 5) Demo.s0 (fun _ g => (g.trapReq.map (fun r => (r.cause, r.imm, r.lanes.length, (r.lanes.headD ⟨0, 0, 0, 0⟩).tpc))) ==
      some (.trap, 5, 16, placedText + 16)) = true ∧
    (match exec (.brk hd) (Demo.handler id) with
     | .next t => t.teams.all (fun t => (t.ending.map (·.cause)) == some .trapState)
     | _ => false) = true ∧
    Demo.after (.tret hd) (Demo.handler id) (fun _ g => !g.inTrap && Demo.lane g 3 (fun l => l.pc == placedText && l.trap == .none)) = true := by
  decide +kernel

/-! ### Events of the pipes and of the memory side -/

/-- The space of slot 0, whose tables map the first GiB to itself. -/
def Demo.space (s : State) : State :=
  Demo.with { s with mem := [(0x1000, 1), (0x1001, 0x20), (0x2000, 0xFB)] } [Demo.entry 1 1 1 (.space 0)]

/-- The group before its clause. -/
def Demo.waiting (g : Group → Group) : State := { Demo.grp (fun y => g { y with clause := none }) with now := none, issuing := [] }

/-- IssueEvents: a group that enters the clause of its text, one that stands where no header is, and one with no issues left. -/
theorem meets_ClauseEntry :
    (let s := Demo.waiting id
     match pickGroup 0 (eligibles s 0) with
     | some (t, g) => decide (pipeBusy s 0 3 = false ∧ s.group? ⟨t.id, g.grp⟩ = some g ∧ s.team? t.id = some t ∧
         issueAt g = some (placedText, none, Demo.all) ∧ t.ending = none ∧ placedText.toNat % 8 = 0 ∧
         fetchWord s t.core t.slot placedText = (.word (encodeHeader (placedHeader 0)), s) ∧ decodeHeader (encodeHeader (placedHeader 0)) = some (placedHeader 0))
     | none => false) = true ∧
    (let s := Demo.waiting (fun g => { g with lanes := g.lanes.map (fun l => { l with pc := placedText + 8 }) })
     match pickGroup 0 (eligibles s 0) with
     | some (t, g) => decide (issueAt g = some (placedText + 8, none, Demo.all) ∧ fetchWord s t.core t.slot (placedText + 8) = (.word 0, s) ∧
         decodeHeader 0 = none)
     | none => false) = true ∧
    (let s := Demo.grp (fun g => { g with ylddl := 0 })
     (s.team? 1).map (·.ending) = some none ∧ (s.group? Demo.ref).map (fun g => (g.ylddl, g.wait, g.clause.map (·.redo))) = some (0, none, some false)) := by
  decide +kernel

/-- IssueEvents: a result that is back, and each wait that its event may end. -/
theorem meets_ResultEvents :
    (let p : PendRes := ⟨4, some 7, .none, 0, [.s 5 9], true, false⟩
     let s := Demo.waiting (fun g => { g with pend := [p] })
     (s.group? Demo.ref).map (fun g => g.pend.find? (fun p => p.id == 4 && p.ready)) = some (some p)) ∧
    ([Why.switch, .acquire .clu, .sfuFull, .cvtFull, .yldDrain].all (fun w =>
      let s := Demo.waiting (fun g => { g with wait := some ⟨w, (Demo.cur Demo.s0).n⟩ })
      (s.group? Demo.ref).map (fun g => (g.wait.map (·.why), g.pend)) == some (some w, []) && (s.team? 1).map (·.preempt) == some false)) = true ∧
    (((Demo.st id (fun t => { t with preempt := true }) id Demo.all).team? 1).map (·.preempt) = some true) := by
  decide +kernel

/-- IssueEvents: all lanes held at a JOIN; at the end of a loop with passes left and with none; at two points; a deferred lane passed by all others. -/
theorem meets_LaneReleases :
    (let s := Demo.waiting (fun g => { g with lanes := g.lanes.map (fun l => { l with st := .joinHeld 8 }) })
     (s.group? Demo.ref).map (fun g => (g.live == Demo.all, g.lanes.all (fun l => l.st == .joinHeld 8))) = some (true, true)) ∧
    ([1, 2].all (fun n =>
      let s := Demo.waiting (fun g => { g with loops := [⟨n, 0, 0, 5⟩], lanes := g.lanes.map (fun l => { l with st := .loopHeld (placedText + 40) }) })
      (s.group? Demo.ref).map (fun g => (g.loops, g.lanes.all (fun l => l.st == .loopHeld (textWord placedKernel 5)))) == some ([⟨n, 0, 0, 5⟩], true))) = true ∧
    (let s := Demo.waiting (fun g => { g with
       loops := [⟨2, 0, 0, 5⟩], lanes := g.lanes.mapIdx (fun i l => { l with st := if i = 0 then .loopHeld (placedText + 24) else .joinHeld (placedText + 40) }) })
     (s.group? Demo.ref).map (fun g => (Demo.lane g 0 (fun l => l.st == .loopHeld (placedText + 24)), Demo.lane g 1 (fun l => l.st != .loopHeld (placedText + 24)),
       g.lanes.all (fun l => (LState.point l.st).isSome))) = some (true, true, true)) ∧
    (let s := Demo.waiting (fun g => { g with lanes := g.lanes.mapIdx (fun i l => if i = 0 then { l with st := .deferred placedText 0xFFFE } else l) })
     (s.group? Demo.ref).map (fun g => (Demo.lane g 0 (fun l => l.st == .deferred placedText 0xFFFE && g.inScope l),
       (List.range 16).all (fun j => j == 0 || (0xFFFE : Mask).getLsbD j))) = some (true, true)) := by
  decide +kernel

/-- A request for page 9 of slot 0, not yet walked, failed, and recorded. -/
def Demo.fault (who : List Waiter) (cause seq : Option Nat) : FaultReq := ⟨3, 0, 0, 0, 9, 3, [0], 0, who, 0, cause, seq⟩

/-- FaultPath: the page is mapped, and is not; a ring with room; a store's team; a record that waits. -/
theorem meets_FaultPath :
    (let s := { Demo.space Demo.s0 with faults := [Demo.fault [] none none] }
     s.faults.find? (fun x => x.id == 3) = some (Demo.fault [] none none) ∧
      ((kindsOf 3).all (fun k => match translatePure s 0 (9 * 4096) k with
        | .ok _ => true
        | _ => false)) = true) ∧
    ((kindsOf 3 = [] ++ .read :: [.write]) ∧ (match translatePure Demo.s0 0 (9 * 4096) .read with
        | .error c => c == 1
        | _ => false) = true) ∧
    (let c : Ctrl := { Ctrl.reset with frbase := 0x3000, frsize := 16, frprod := 15, erbase := 0x4000, ersize := 16 }
     let s := { Demo.s0 with ctrl := c, faults := [Demo.fault [] (some 1) none], errBuf := [5] }
     (s.ctrl.frprod - s.ctrl.frcons).toNat < s.ctrl.frsize.toNat ∧ (s.ctrl.erprod - s.ctrl.ercons).toNat < s.ctrl.ersize.toNat ∧ s.ctrl.status = 2 ∧
      s.errBuf = 5 :: []) ∧
    (let f := Demo.fault [.store 1] (some 1) (some 4)
     let s := { Demo.s0 with faults := [f] }
     s.faults.find? (fun x => x.die == f.die && x.seq == some (4 : Word).toNat) = some f ∧ f.who = [.store 1] ∧ (s.team? 1).map (·.ending) = some none) := by
  decide +kernel

/-- LineEvents: queued stores to a window and to a page; a line to grant; a stale copy; a RED of a window; a group that waits for its IINV. -/
theorem meets_CoherenceEvents :
    (let w := Demo.write (windowVa 0 16)
     let s := Demo.mem (fun g => { g with storeQ := [w] })
     (s.group? Demo.ref).map (·.storeQ) = some (w :: []) ∧ zoneOf 0 w.va = .window 0 16 ∧ engineOwns s (granKey (sramLoc 0 16)) = false ∧ s.peerOut = []) ∧
    (let w := Demo.write 0x6010
     let s := Demo.mem (fun g => { g with storeQ := [w] })
     zoneOf 0 w.va = .mapped ∧ (match (translate s 0 w.va .write).1 with
      | .ok x => !x.peer
      | _ => false) = true) ∧
    (let s := { Demo.mem id with ev := [⟨0, .core, Demo.write 0x6010⟩] }
     let line := lineKey 0 0x6010
     grantWrites s 0 line = [Demo.write 0x6010] ∧ engineOwns s line = false ∧ waitsPage s 0 0x6010 (.store 1) = false ∧
      (match (translate s (lineSlot line) (lineVa line) .write).1 with
       | .ok x => !x.peer
       | _ => false) = true) ∧
    (let l : StaleLine := ⟨0, false, 0, 0x6000, [], []⟩
     l ∈ [l] ∧ l.core = 0 ∧ lineKey l.slot l.va = lineKey 0 0x6000) ∧
    (let q : RedReq := ⟨2, Demo.ref, 0, 0, 0, windowVa 0 32, .add, false, 1, 0, 0, birthOf Demo.s0 Demo.ref, 0, false⟩
     let s := { Demo.mem id with redQ := [q] }
     s.redQ.find? (fun p => p.id == q.id) = some q ∧ redBlocked s q = false ∧ zoneOf q.core q.va = .window 0 32 ∧
      engineOwns s (granKey (sramLoc 0 32)) = false) ∧
    (let s := Demo.waiting (fun g => { g with wait := some ⟨.iinv, (Demo.cur Demo.s0).n⟩ })
     (s.group? Demo.ref).map (fun g => g.wait.map (·.why)) = some (some .iinv)) := by
  decide +kernel

/-- LineEvents: a line of a mapped page, recorded under one of its names; addresses within the map. -/
theorem meets_Recalls :
    let s := { Demo.mem id with aliases := [(512, 0, 0x6000)], cdir := [⟨0, 0, 0x6000, .S, 1, 1⟩] }
    (match locate s (lineSlot (lineKey 0 0x6000)) (lineVa (lineKey 0 0x6000)) with
     | some x => !x.peer
     | none => false) = true ∧ inL1 s 0 (lineKey 0 0x6000) = true ∧ s.aliases.find? (fun a => a.1 == 512) = some (512, 0, 0x6000) ∧
    (match (translate s 0 0x6010 .read).1 with
     | .ok x => !x.peer && x.loc 0x6010 / 128 == 512
     | _ => false) = true ∧ (0x6010 : Word).toNat < 2 ^ 55 ∧ (∀ l ∈ s.cdir, l.va < 2 ^ 56) ∧ s.ev = [] ∧ s.stale = [] := by
  decide +kernel

/-- HostAccesses: places the host may reach, at the edge of the reserved area; blocks; an uncommitted write; a context of a lost slice. -/
theorem meets_HostAccesses :
    hostMay (rsvBase - 4) 4 = true ∧ hostMay (2 ^ 56) 8 = true ∧ locOwned State.reset (rsvBase - 4) 4 = false ∧ State.reset.aliases = [] ∧
    (8 * (56 * 2 ^ 30) / 512 - 1) * 512 < 8 * (56 * 2 ^ 30) ∧
    (let s := Demo.st id (fun t => { t with uncommitted := [Demo.write 0x6010] }) id Demo.all
     (s.team? 1).map (fun t => (t.ending, t.uncommitted.find? (fun w => w.va / 128 == 0x6000 / 128))) = some (none, some (Demo.write 0x6010))) ∧
    (let s := Demo.with { Demo.s0 with dirty := [(7, 0)] } [Demo.context]
     s.teams.all (fun t => s.team? t.id == some t && t.ending.isNone && decide (∃ d ∈ s.dirty, d.1 = 7 ∧ t.ctx ∈ ctxsOfSlot s d.2)) = true) := by
  decide +kernel

/-! #### Results -/

/-- What an event leaves. -/
def Demo.left (i : Instr) (s : State) (P : State → Bool) : Bool :=
  match exec i s with
  | .next t => P t
  | _ => false

/-- R48, R128: the group enters its clause with every lane; R51: a result is written and its slot falls; R147: a pass less, back at the start. -/
theorem test_issue_events :
    Demo.left (.clauseEntry 0 2) (Demo.waiting id) (fun t => (t.group? Demo.ref).map (fun g => g.clause.map (fun c => (c.hdr, c.x, c.next, c.pipe))) ==
      some (some (placedText, Demo.all, 0, 2))) = true ∧
    Demo.left (.resultReturn Demo.ref 4) (Demo.waiting (fun g => { g with pend := [⟨4, some 7, .none, 0, [.s 5 9], true, false⟩], sb := [(7, 1)] })) (fun t =>
      (t.group? Demo.ref).map (fun g => (g.sreg 5, mget 0 g.sb 7, g.pend.length)) == some (9, 0, 0)) = true ∧
    Demo.left (.loopEndStep Demo.ref) (Demo.waiting (fun g => { g with
      loops := [⟨2, 0, 0, 5⟩], lanes := g.lanes.map (fun l => { l with st := .loopHeld (placedText + 40) }) })) (fun t =>
      (t.group? Demo.ref).map (fun g => (g.loops, g.lanes.all (fun l => l.pc == placedText && l.st == .ready))) == some ([⟨1, 0, 0, 5⟩], true)) = true := by
  decide +kernel

/-- R192, R216, R220, R434: a queued store reaches the bank; a mapped page is answered; the host's read; a failed walk's record, its first words. -/
theorem test_memory_events :
    Demo.left (.storeQueueDrain Demo.ref) (Demo.mem (fun g => { g with storeQ := [Demo.write (windowVa 0 16)] })) (fun t =>
      natAt t (sramLoc 0 24) 4 == 0x04030201 && mget 0 t.tags (sramLoc 0 16 / 16) == 5) = true ∧
    Demo.left (.dieFaultWalk 3) { Demo.space Demo.s0 with faults := [Demo.fault [] none none] } (fun t => t.faults == []) = true ∧
    Demo.left (.dieFaultWalk 3) { Demo.s0 with faults := [Demo.fault [] none none] } (fun t => t.faults.map (·.cause) == [some 1]) = true ∧
    Demo.left (.hostRead (.memory 0x1000) 2) { State.reset with mem := [(0x1000, 7)] } (fun t => t.hostOut == [.data 0x1000 [7, 0]]) = true := by
  decide +kernel


/-! ### Events of the engines and of waiting groups -/

/-- A running fill of four binary32 elements of a window by core 0. -/
def Demo.cmd (f : Cmd → Cmd) : Cmd :=
  let r := Demo.tensor (windowVa 0 0) 2 4 1 16
  f ⟨7, .xform 0 0, .fill, Demo.ref, 0, 0, 0, Demo.name 2 10, 0, r, r, 0, 0x3F800000, .rn, false, false, 0, none, 0, .running, false, none, none, [], 0,
    false, none, [], none, birthOf Demo.s0 Demo.ref, none, false⟩

/-- A circular buffer of two slots in k0. -/
def Demo.cbRec : BitVec 352 := BitVec.ofNat 352 (windowVa 0 0 + 2 * 2 ^ 56 + 4 * 2 ^ 64 + 1 * 2 ^ 88 + 2 * 2 ^ 112 + 16 * 2 ^ 160 + 16 * 2 ^ 200 + 2 * 2 ^ 346 + 2 ^ 348)

/-- EngineEvents: a command that begins, one that waits for its time and one whose time has come, one that takes a slot and one that finds none. -/
theorem meets_EngineStarts :
    (let c := Demo.cmd (fun c => { c with stage := .queued })
     let s := { Demo.s0 with cmds := [c] }
     headCmd s c.eng = some c ∧ (s.cmds.filter (fun x => x.eng == c.eng && x.stage == .running)).length < 4 ∧ tCb c.drec = false ∧ c.start = none ∧
      c.full = none) ∧
    (let c := Demo.cmd (fun c => { c with stage := .held, start := some 5 })
     let s := { Demo.s0 with cmds := [c], time := 5 }
     headCmd s c.eng = some c ∧ tCb c.drec = false ∧ c.start = some 5 ∧ (5 : Word).toNat ≤ s.time.toNat ∧ Demo.s0.time.toNat < (5 : Word).toNat) ∧
    ([([], [0]), ([(0, false)], [1])].all (fun q =>
      let c := Demo.cmd (fun c => { c with stage := .queued, drec := Demo.cbRec })
      let s := { Demo.with Demo.s0 [Demo.entry 2 10 Demo.cbRec (.cb 1 q.1 q.2)] with cmds := [c] }
      headCmd s c.eng == some c && tCb c.drec && entryOf s c.dname == some (Demo.entry 2 10 Demo.cbRec (.cb 1 q.1 q.2)) &&
        tDim c.drec 2 == 2)) = true ∧
    (let c := Demo.cmd (fun c => { c with stage := .queued, full := some 0 })
     let s := { Demo.s0 with cmds := [c], time := 100000 }
     s.cmd? c.id = some c ∧ headCmd s c.eng = some c ∧ 100000 ≤ (s.time - 0).toNat) := by
  decide +kernel

/-- The plain group, whose team has a scratchpad. -/
def Demo.s1 : State := Demo.mem id

/-- EngineEvents: a fill that writes its whole box, a command whose box is done with and without a cell, an element, a spill, an emulated command. -/
theorem meets_EngineCommands :
    (let c := Demo.cmd id
     let s := { Demo.s1 with cmds := [c] }
     let b := boxEls s c c.ext
     let keep := fun (y : Cmd) => { y with got := b.got, poisoned := y.poisoned || b.got.any (·.poison) }
     let f := firstHalt c (b.s.modCmd c.id keep) b.els
     let s3 := releaseWritten (endBox (writeEls f.s (keep c) b.els) (keep c) b.n none) c.id
     s.cmd? c.id = some c ∧ c.stage = .running ∧ c.native = true ∧ askedPeer s c.id = false ∧ c.ack ≠ some c.offset ∧ b.halt = none ∧ f.first = none ∧
      b.els.length = 4 ∧
      (s3.cmd? c.id).all (fun x => x.boxDone s3 && x.offset == 4) = true ∧ (s3.cmd? c.id).isSome = true ∧ s3.spills = [] ∧ natAt s3 (sramLoc 0 12) 4 = 0x3F800000) ∧
    ([0, windowVa 0 64].all (fun cell =>
      let c := Demo.cmd (fun c => { c with cell := BitVec.ofNat 64 cell, offset := 4, ack := some 4 })
      let s := { Demo.s1 with cmds := [c] }
      s.cmd? c.id == some c && c.native && !askedPeer s c.id && s.cells.isEmpty && !waitsPage s c.slot c.cell.toNat (.cmd c.id) &&
        (cell == 0 || (check189 s c.who c.cell 8 .rmw).1 == .window (sramLoc 0 64)))) = true ∧
    (let c := Demo.cmd id
     let d : DstEl := ⟨0, windowVa 0 4, 4, 9, .known 0, false⟩
     (c.place Demo.s1 (d.va / 16 * 16)).1 = .window (sramLoc 0 0) ∧ sramLoc 0 0 % 16 = 0 ∧ d.va % 16 + d.n ≤ 16 ∧ cmdHandle Demo.s1 c [d] = (0, Demo.s1)) ∧
    (let x : Spill := ⟨7, 0x6010, [(0, 1), (15, 2)], [], false, 0⟩
     let c := Demo.cmd id
     let s := { Demo.s1 with cmds := [c], spills := [x] }
     s.cmd? c.id = some c ∧ x.cmd = c.id ∧ waitsPage s c.slot x.va (.cmd c.id) = false ∧ (x.bytes.map Prod.fst).Nodup ∧ s.cells = [] ∧ s.hostHeld = [] ∧
      (match engPlace s c.who x.va .write with
       | (.mem y, u) => !y.peer && u.aliases.isEmpty
       | _ => false) = true) ∧
    (let c := Demo.cmd (fun c => { c with kind := .copy, drec := Demo.tensor (windowVa 0 0) 0x42 4 1 16 })
     let s := { Demo.s1 with cmds := [c] }
     s.cmd? 7 = some c ∧ c.stage = .running ∧ c.native = false) ∧
    (let r := Demo.tensor 0x6000 0x42 64 64 64
     let m : Mma := ⟨7, 0, 5, Demo.ref, 0, 0, r, r, 0, 0, 0, 0, false, false, 0, .blame, 0, birthOf Demo.s0 Demo.ref, false, none⟩
     let s := { Demo.s1 with mmas := [m] }
     s.cmd? 7 = none ∧ s.mmas.find? (fun m => m.id == 7) = some m ∧ m.native = false) := by
  decide +kernel

/-- EngineEvents: an MMA of one row and one column, whose tiles lie in a window; a slot that one group waits for, and two; a slot given up. -/
theorem meets_MatrixEvents :
    (let r := Demo.tensor (windowVa 0 0) 4 64 64 128
     let a := Demo.slot .engine none []
     let m : Mma := ⟨0, 0, 5, Demo.ref, 0, 0, r, r, 0, 0, 0, 0, false, false, 1, .blame, 0, birthOf Demo.s0 Demo.ref, false, none⟩
     let s := { Demo.s1 with accs := [(5, a)], mmas := [m] }
     let f := fetchAll s m 0 0
     s.mmas.find? (fun x => x.id == m.id) = some m ∧ (s.mmas.filter (fun x => x.core == m.core && x.phys == m.phys)).head? = some m ∧ m.native = true ∧
      askedPeer s m.id = false ∧ (s.team? m.g.team).map (·.ending) = some none ∧ oldestSlot s m.aName m.a = some 0 ∧ oldestSlot s m.bName m.b = some 0 ∧
      f.1.length = 1 ∧ f.2.1 = none ∧ mfind f.2.2.accs (accKey m.core m.phys) = some a ∧ f.2.2.upsets = []) ∧
    (let a := Demo.slot .engine none [0]
     let s0 := Demo.acc a id
     let n := (Demo.cur s0).n
     let s := { Demo.acc a (fun g => { g with clause := none, wait := some ⟨.aacq 5, n⟩ }) with now := none }
     (s.team? 1).isSome = true ∧ (s.group? Demo.ref).map (·.wait) = some (some ⟨.aacq 5, n⟩) ∧ mfind s.accs (accKey 0 5) = some a ∧ a.event = none ∧ s.mmas = [] ∧
      (curAt s n).map (·.ref) = some Demo.ref ∧ a.waits = [0]) ∧
    (let a := Demo.slot (.leaving 0) none []
     (mfind (Demo.acc a id).accs (accKey 0 5)).map (·.token) = some (.leaving 0)) := by
  decide +kernel

/-- EngineEvents: two groups that wait for one slot. -/
theorem meets_MatrixEvents_two :
    let a := Demo.slot .engine none [0, 1]
    let n := (Demo.cur (Demo.acc a id)).n
    let w : Waiting := ⟨.aacq 5, n⟩
    let s := { Demo.st (fun k => { k with acc := 1 }) (fun t => { t with accs := [5], groups := t.groups.flatMap (fun g => [g, { g with grp := 1 }]) })
      (fun g => { g with clause := none, wait := some w }) Demo.all with accs := [(5, a)], now := none }
    (s.team? 1).map (·.ending) = some none ∧ (s.group? ⟨1, 1⟩).map (·.wait) = some (some w) ∧ (s.group? Demo.ref).map (·.wait) = some (some w) ∧ (1 : Nat) ≠ 0 ∧
      (curAt s n).map (·.ref) = some Demo.ref := by
  decide +kernel

/-- A group that waits. -/
def Demo.waits (w : Why) (g : Group → Group) : State :=
  Demo.waiting (fun y => g { y with wait := some ⟨w, (Demo.cur Demo.s0).n⟩ })

/-- WaitsAndSpills: each wait that its event ends. -/
theorem meets_GroupWakes :
    ([Why.engine (.copy 0), .matrix, .launchQ].all (fun w =>
      let s := Demo.waits w id
      (s.team? 1).isSome && (s.group? Demo.ref).map (fun g => g.wait.map (·.why)) == some (some w) && s.cmds.isEmpty && s.mmas.isEmpty && decide (0 < queueRoom s 0))) = true ∧
    (let e := Demo.entry 3 8 (BitVec.ofNat 352 (4 * 2 ^ 29 + 2 * 2 ^ 45)) (.pigeon 0 [] [] ([] ++ (Demo.ref, true) :: []))
     let s := Demo.with (Demo.waits (.push (Demo.name 3 8)) id) [e]
     entryOf s (Demo.name 3 8) = some e ∧ 0 < pigCap e.record ∧ 0 < allowOf [] (producerOf s Demo.ref) (pigAllow e.record)) ∧
    (let s := { Demo.mem (fun g => { g with clause := none, wait := some ⟨.cwait (BitVec.ofNat 64 (0xFD * 2 ^ 48)) 7, (Demo.cur Demo.s0).n⟩, cwaitDl := some 0 }) with now := none }
     let r := readFor s Demo.ref ⟨0, 0, 0⟩ (BitVec.ofNat 64 (0xFD * 2 ^ 48)) 8 8 .read false (.lanes Demo.ref Demo.all)
     (s.team? 1).map (fun t => (t.core, t.ctx, t.slot, t.id)) = some (0, 0, 0, 1) ∧ ((s.team? 1).bind (fun t => s.launch? t.launch)).isSome = true ∧ (Demo.cur Demo.s0).n.g = Demo.ref ∧
      (match r.1 with
       | .gran gr => gr.slice 0 8 != 7
       | _ => false) = true ∧ (0 : Word).toNat ≤ s.time.toNat) ∧
    (let n := (Demo.cur Demo.s0).n
     let s := Demo.st id (fun t => { t with arrived := [(0, 0)] }) (fun g => { g with clause := none, wait := some ⟨.bell 0, n⟩ }) Demo.all
     (s.team? 1).map (fun t => (t.arrived, t.groups.all (fun x => !x.ended && s.group? ⟨1, x.grp⟩ == some x && x.wait == some ⟨.bell 0, n⟩ && x.grp == 0))) =
       some ([(0, 0)], true) ∧ (curAt s n).map (·.ref) = some Demo.ref) := by
  decide +kernel

/-- WaitsAndSpills: the oldest of two frames on chip, whose place in memory lies in a mapped page. -/
theorem meets_SlateSpills :
    let f := Demo.frame 1 0 2
    let h := Demo.frame 15 7 0
    let s := { Demo.st (id) id (fun g => { g with
        clause := none, slate := ⟨[] ++ [f], 0, 1, 0, 0, []⟩, wait := some ⟨.spill, (Demo.cur Demo.s0).n⟩ }) Demo.all with tlb := Demo.map 6 16, now := none }
    (match curAt s (Demo.cur Demo.s0).n, s.group? Demo.ref with
    | some c, some g =>
      let a := (frameWrites s c g.slate.inmem f).foldl (spillGran c) ⟨wake s Demo.ref, [], false, none, []⟩
      (c.ref == Demo.ref ∧ h.head != 1 && a.trap == none && a.park == false && (a.s.group? Demo.ref).map (·.slate) == some g.slate)
    | _, _ => false) = true := by
  decide +kernel

/-! #### Results -/

/-- R298, R299: a fill's box and its end; R318: AREL's slot is the engine's; R237: a deadline that has come ends the wait. -/
theorem test_engine_events :
    Demo.left (.engineCommandEnd 7) { Demo.s1 with cmds := [Demo.cmd id] } (fun t => t.cmds == [] && natAt t (sramLoc 0 12) 4 == 0x3F800000 && natAt t (sramLoc 0 16) 4 == 0) = true ∧
    Demo.left (.arelHandover 0 5) (Demo.acc (Demo.slot (.leaving 0) none []) id) (fun t => (mfind t.accs 5).map (·.token) == some .engine) = true ∧
    Demo.left (.cbFullTimeout 7) { Demo.s0 with time := 99999, cmds := [Demo.cmd (fun c => { c with stage := .queued, full := some 0 })] } (fun t =>
      t.cmds.map (·.stage) == [.queued]) = true := by
  decide +kernel

/-! ### Traps, teams and launches -/

/-- The group owes a trap of lane 2. -/
def Demo.owes (c : Cause) (traph : Word) : State :=
  Demo.st id id (fun g => { g with
    clause := none, traph := traph, loops := [⟨2, 0, 0, 1⟩]
    trapReq := some ⟨c, 5, false, [⟨2, placedText + 8, 7, 9⟩], 1, 2, (3, 4, 5), (Demo.cur Demo.s0).n⟩ }) Demo.all

/-- TrapEntry: a handler within the text, none, and one past its last word. -/
theorem meets_TrapEntry :
    (let s := Demo.owes .trap 1
     (s.team? 1).isSome = true ∧ ((s.team? 1).bind (fun t => s.launch? t.launch)).map (fun l => l.kernel.twords) = some 2 ∧
      (s.group? Demo.ref).map (fun g => (g.trapReq.map (·.cause), g.pend, g.traph)) = some (some .trap, [], 1) ∧ (1 : Word).toNat < 2) ∧
    ([(0 : Word), 2].all (fun h => ((Demo.owes .shadow h).team? 1).map (·.ending) == some none &&
      ((Demo.owes .shadow h).group? Demo.ref).map (·.traph) == some h)) = true := by
  decide +kernel

/-- How a team ends in a fault. -/
def Demo.ending (again : Bool) : Ending := ⟨.align, again, Demo.ref, 2, 0x6001, placedText + 8, 0, 0, 0⟩

/-- TeamsLeaving: a team that ends, and one to place again; a group whose lanes have exited; a team whose groups have ended, its lines committed and not. -/
theorem meets_TeamsLeaving :
    ([false, true].all (fun b =>
      let s := Demo.st id (fun t => { t with ending := some (Demo.ending b) }) id Demo.all
      match s.team? 1 with
      | some t => t.ending == some (Demo.ending b) && t.id == 1 && !storesHeld s t.id && decide ((freeTeam s t).errBuf.length < 1024) &&
          ((freeTeam s t).launch? t.launch).isSome
      | none => false)) = true ∧
    ([[], [(Cause.badAddress, 1, 2, 3)]].all (fun f =>
      let s := Demo.waiting (fun g => { g with lanes := g.lanes.map (fun l => { l with st := .exited }), peerFail := f })
      match s.group? Demo.ref with
      | some g => !g.ended && g.pend.isEmpty && g.trapReq.isNone && g.clause.isNone && g.lanes.all (fun l => l.st == .exited) && g.peerFail == f &&
          (s.team? 1).map (·.ending) == some none
      | none => false)) = true ∧
    ([false, true].all (fun b =>
      let s := Demo.space (Demo.st (fun k => { k with replayable := b }) (fun t => { t with uncommitted := if b then [Demo.write 0x6010] else [] })
        (fun g => { g with ended := true, clause := none }) Demo.all)
      match s.team? 1 with
      | some t => match s.launch? t.launch with
        | some l =>
          let s1 := if l.kernel.replayable = true ∧ t.pinned = false then commitTeam s t.id else if t.committing = true then grantAll s t.core else s
          t.groups.all (·.ended) && t.ending.isNone && !storesHeld s t.id && !t.committing && (commitLeft s1 t.id).isEmpty && (s1.team? t.id).isSome
        | none => false
      | none => false)) = true := by
  decide +kernel

/-- A packet of one team on die 0, its kernel, roll and parameters. -/
def Demo.packet (roll prm : Nat) : BitVec 512 :=
  BitVec.ofNat 512 ((Demo.name 8 20).toNat + 2 ^ 128 * roll + 2 ^ 256 * prm + 2 ^ 376 + 2 ^ 384 + 2 ^ 400 + 2 ^ 416)

/-- The context of slot 0 with three segments of eight pages; the kernel and the roll of the packet. -/
def Demo.job (f : State → State) : State :=
  Demo.with (f Demo.s1) [Demo.entry 1 1 1 (.space 0), Demo.entry 7 1 (BitVec.ofNat 352 ((Demo.name 1 1).toNat + 8 * 2 ^ 248 + 3 * 2 ^ 272)) (.context 0),
    Demo.entry 8 20 0 (.kernel placedKernel), Demo.entry 5 21 0 (.roll ⟨false, 0x6000, 4, [], false⟩)]

/-- A launch of that packet. -/
def Demo.launch (p : BitVec 512) (f : Launch → Launch) : Launch := f { queuedLaunch Demo.s1 0 0 p with id := 9 }

/-- Launches: a window write, and one refused; packets that are malformed, misaligned, of no kernel, of another roll, too big, and accepted. -/
theorem meets_LaunchQueue :
    (let s := Demo.job id
     (ctxEntry s 0).isSome = true ∧ 0 < queueRoom s 0 ∧ (List.replicate 64 (0 : Byte)).length = 64 ∧ s.errBuf.length < 1024) ∧
    ([0, Demo.packet 0 0x6010, Demo.packet 0 0x6000, Demo.packet (Demo.name 5 21).toNat 0x6000, Demo.packet 1 0x6000].all (fun p =>
      let l := Demo.launch p id
      let s := Demo.job (fun s => { s with launches := s.launches ++ [l] })
      s.launches.find? (fun x => x.ctx == l.ctx && x.stage == .queued) == some l && !waitsOn s (.launch l.id))) = true ∧
    packetOk 0 = false ∧ packetOk (Demo.packet 0 0x6010) = true ∧ pk (Demo.packet 0 0x6010) 256 56 % 64 ≠ 0 := by
  decide +kernel

/-- Launches: a launch whose parameters are read, with each of the answers of its last checks. -/
theorem meets_LaunchQueue_checks :
    let l := Demo.launch (Demo.packet (Demo.name 5 21).toNat 0x6000) id
    let s := Demo.job (fun s => { s with launches := s.launches ++ [l] })
    let r := devRead s l.id (l.who s) 0x6000 64
    pk l.packet 256 56 = 0x6000 ∧ zoneOf (l.who s).core 0x6000 = .mapped ∧ l.bad = false ∧ r.bad = false ∧ r.wait = none ∧ r.peers = [] ∧ l.depCell = 0 ∧
    (words8 r.out).getD 7 0 = 0 ∧ resolve r.s l.ctx (l.packet.extractLsb' 0 128) (some 8) = .ok (Demo.entry 8 20 0 (.kernel placedKernel)) ∧
    resolve r.s l.ctx (l.packet.extractLsb' 128 128) (some 5) = .ok (Demo.entry 5 21 0 (.roll ⟨false, 0x6000, 4, [], false⟩)) ∧
    resolve r.s l.ctx 1 (some 8) = .error 1 ∧ tooBig placedKernel = false ∧ tooBig { placedKernel with acc := 65 } = true ∧
    placedKernel.need ≤ 32768 ∧ 32768 < Kernel.need { placedKernel with roles := [(16, 256)], slateMem := 4096, slateOn := 64 } ∧
    (r.s.launch? l.id == some l) = true ∧ (ctxEntry r.s 0).map (fun c => segSize c.record) = some 32768 ∧ l.cell = 0 := by
  decide +kernel

/-- Launches: a cell that has reached its target, without errors and with some; a launch that has ended, its cell told. -/
theorem meets_LaunchCells :
    ([0, 1].all (fun e =>
      let l := Demo.launch (Demo.packet 1 0x6000 ||| BitVec.ofNat 512 (2 ^ 320 * 0x6008 + 2 ^ 448 * 3 + 2 ^ 317)) (fun l => { l with stage := .waiting, roll := 1 })
      let s := Demo.job (fun s => { s with launches := s.launches ++ [l], mem := [(0x10008, 3)] ++ (if e = 0 then [] else [(0x1000C, 1)]) })
      s.launches.find? (fun y => y.id == l.id && y.stage == .waiting) == some l && !waitsOn s (.launch l.id) && s.modLaunch l.id (fun _ => l) == s && l.depCell == 0x6008 &&
        l.target == 3 && l.errstop && (match launchCell s (l.who s) l.depCell .read with
          | (.at_ x, s1) => decide (3 ≤ natAt s1 (x.loc 0x6008) 4) && natAt s1 (x.loc 0x600C) 2 == e && s1.launch? l.id == some l
          | _ => false))) = true ∧
    ([0, 0x6010].all (fun cell =>
      let l := Demo.launch (Demo.packet 1 0x6000) (fun l => { l with
        stage := .eligible, roll := Demo.name 5 21, fresh := true, placed := 1, ended := 1, faulted := 2, params := [0, 0, 0, 0, 0, 0, 0, BitVec.ofNat 64 cell] })
      let s := Demo.job (fun s => { s with launches := s.launches ++ [l] })
      let v := dropLaunch s l
      s.launch? l.id == some l && decide (l.total ≤ l.placed ∧ l.total ≤ l.ended) && s.teams.all (fun t => t.launch != l.id) && s.ev.isEmpty && !leftBehind s l &&
        l.cell == cell && (cell == 0 || (match check189 v ⟨l.home * 64, l.ctx, ctxSlot v l.ctx⟩ (BitVec.ofNat 64 l.cell) 8 .rmw with
          | (.mem x, u) => !x.peer && !x.host && !engineOwns u (lineKey (ctxSlot v l.ctx) l.cell) && s.cells.isEmpty && u.ev.isEmpty
          | _ => false)))) = true := by
  decide +kernel

/-- A launch of four teams that is eligible, one placed. -/
def Demo.ready (f : Launch → Launch) : Launch :=
  Demo.launch (Demo.packet 1 0x6000 ||| BitVec.ofNat 512 (2 ^ 386)) (fun l => f { l with stage := .eligible, kernel := { placedKernel with scratch := 4096, acc := 1 }, pos := 1, placed := 1 })

/-- Placement: a fresh team and one to place again; a launch that has waited 2 ms; a launch of higher priority that finds no room. -/
theorem meets_Placement :
    ([[], [(0, 1, 7)]].all (fun again =>
      let l := Demo.ready (fun l => { l with again := again })
      let s := Demo.job (fun s => { s with launches := s.launches ++ [l] })
      match chooseLaunch s 0 with
      | some (y, core) => y == l && s.launch? l.id == some l && (scratchPlace s (clusterOf core) l.kernel.scratch).isSome && (freeSeg s l.ctx).isSome &&
          (match nextTeam s l with
           | .fresh d p => again.isEmpty && (d, p) == (1, (1, 0, 0))
           | .again i n a => (i, n, a) == (0, 1, 7)
           | _ => false)
      | none => false)) = true ∧
    (let l := Demo.ready id
     let s := Demo.job (fun s => { s with launches := s.launches ++ [l], time := 2000000 })
     s.launch? l.id = some l ∧ nextTeam s l ≠ .none ∧ max l.eligAt.toNat l.placedAt.toNat + 2000000 ≤ s.time.toNat) := by
  decide +kernel

/-- Placement: a launch of priority 1 whose team no core can take; the team that is asked to leave for it, and for a saved team. -/
theorem meets_SchedulerTimers :
    (let l := Demo.launch (Demo.packet 1 0x6000 ||| BitVec.ofNat 512 (2 ^ 312)) (fun l => { l with stage := .eligible, kernel := { placedKernel with acc := 65 } })
     let s := Demo.job (fun s => { s with launches := Demo.s1.launches.map (fun l => { l with packet := BitVec.ofNat 512 (2 ^ 376) }) ++ [l] })
     l ∈ s.launches ∧ nextTeam s l ≠ .none ∧ ([0, 1, 2, 3].all (fun d => (coreFor s l d).isNone)) = true ∧
      (match s.team? 1 with
       | some t => decide (teamPriority s t < l.priority) && lowestTeam s (onDies s l) == some t
       | none => false) = true) ∧
    (let s := Demo.job (fun s => { s with
       time := 2000000, launches := Demo.s1.launches.map (fun l => { l with packet := BitVec.ofNat 512 (2 ^ 376), kernel := { l.kernel with acc := 65 } })
       teams := s.teams.flatMap (fun t => [t, { t with id := 2, saved := true }]) })
     match s.team? 2 with
     | some t => match s.launch? t.launch with
       | some l => t.saved && t.ending.isNone && decide (t.savedAt.toNat + 2000000 ≤ s.time.toNat) && (List.range 256).all (fun c => !fitsResume s l t c) &&
           s.teams.all (fun y => y.saved || !y.preempt) && s.teams.any (fun y => !y.saved && l.onDie (dieOf y.core) && y.floor.isEmpty && y.ending.isNone)
       | none => false
     | none => false) = true := by
  decide +kernel

/-- A team that waits at a point and is asked to leave. -/
def Demo.leaving (f : Team → Team) : State :=
  Demo.job (fun s => { s with tlb := [], mem := [(0x1000, 1), (0x1001, 0x20), (0x2000, 0xFB)], teams := s.teams.map (fun t => f { t with
    preempt := true, groups := t.groups.map (fun g => { g with clause := none, wait := some ⟨.preempt, (Demo.cur Demo.s0).n⟩ }) }) })

/-- SaveAndResume: a team ready to leave, its pages mapped; a saved team that fits a core, its image as it stands in memory, and changed. -/
theorem meets_SaveAndResume :
    (let s := Demo.leaving id
     match s.team? 1 with
     | some t => match s.launch? t.launch with
       | some l => readyToSave s t && (match checkPages s t .write (savePages s t l.kernel) with
         | .ok s1 => s1.team? t.id == some t
         | _ => false)
       | none => false
     | none => false) = true ∧
    ([0, 1].all (fun b =>
      let s := Demo.leaving (fun t => { t with preempt := false, saved := true, image := [(0x6000, b)], groups := t.groups.map (fun g => { g with wait := none }) })
      let s : State := { s with time := 2000000, launches := s.launches.map (fun l => { l with packet := BitVec.ofNat 512 (2 ^ 376) }) }
      match s.team? 1 with
      | some t => match s.launch? t.launch with
        | some l => fitsResume s l t 0 && decide (t.savedAt.toNat + 2000000 ≤ s.time.toNat) && t.ending.isNone &&
            (match checkPages s t .read (savePages s t l.kernel) with
             | .ok s1 => s1.team? t.id == some t && s1.time == s.time && (saveByte s1 t.slot 0x6000 == (b, false)) == (b == 0)
             | _ => false)
        | none => false
      | none => false)) = true := by
  decide +kernel

/-- NameEvents: a dying name that nothing uses; a roll's first entry, of a fresh table and of one in a mapped page. -/
theorem meets_NameEvents :
    (let e := { Demo.entry 2 10 0 .plain with dying := true, killer := some (Demo.ref, 4) }
     let s := Demo.with Demo.s0 [e]
     entryOf s e.name = some e ∧ nameBusy s e = false ∧ e.obj = .plain ∧ runsOf s e = [] ∧ (s.group? Demo.ref).isSome = true) ∧
    (let e := { Demo.entry 4 12 0 (.prog ⟨[0], [], 1, 0, 0, false, false, 0⟩) with dying := true, killer := some (Demo.ref, 4) }
     let s := { Demo.with Demo.s0 [e] with runs := [Demo.run 0] }
     entryOf s e.name = some e ∧ nameBusy s e = false ∧ runsOf s e = [Demo.run 0]) ∧
    ([true, false].all (fun b =>
      let x : RollEntry := ⟨placedText, 1, 0, 0, 1, 0, false⟩
      let e := Demo.entry 5 21 0 (.roll ⟨b, if b then 0 else 0x6000, 4, [x], false⟩)
      let s := Demo.with Demo.s1 [Demo.entry 1 1 1 (.space 0), e, Demo.entry 7 1 (BitVec.ofNat 352 (Demo.name 1 1).toNat) (.context 0)]
      entryOf s e.name == some e && x.site.toNat < 2 ^ 56 && (b || (zoneOf 0 0x6000 == .mapped && ctxSlot s e.owner == 0 && !waitsPage s 0 0x6000 (.roll e.name) &&
        (match translate s 0 0x6000 .write with
         | (.ok y, s1) => !y.peer && !engineOwns s1 (lineKey 0 0x6000) && s1.ev.isEmpty && s1.aliases.isEmpty && s1.roster == s.roster
         | _ => false))))) = true := by
  decide +kernel

/-! #### Results -/

/-- R326: the lane enters the handler and the others are held; R334: a faulted team is counted; R167: a fresh team's place and registers. -/
theorem test_team_events :
    Demo.left (.trapEntry Demo.ref) (Demo.owes .trap 1) (fun t => (t.group? Demo.ref).map (fun g =>
      (g.inTrap, g.tcause, Demo.lane g 2 (fun l => l.pc == placedText + 8 && l.tpc == placedText + 8), Demo.lane g 0 (fun l => l.trap == .held), g.loops)) ==
        some (true, 0x501, true, true, [])) = true ∧
    Demo.left (.teamFaultEnd 1) (Demo.st id (fun t => { t with ending := some (Demo.ending false) }) id Demo.all) (fun t =>
      t.teams == [] && t.launches.map (fun l => (l.ended, l.faulted)) == [(1, 1)] && t.errBuf.length == 1) = true ∧
    Demo.left (.teamPlace 0) (Demo.job (fun s => { s with launches := s.launches ++ [Demo.ready (fun l => { l with params := [5] })] })) (fun t =>
      (t.teams.drop 1).map (fun y => (y.coord, y.scratch, y.seg, y.groups.map (fun g => (g.sreg 0, g.sreg 6 == BitVec.ofNat 64 (0xFD * 2 ^ 48 + y.scratch)))))
        == [((1, 0, 0), 4096, 1, [(5, true)])]) = true := by
  decide +kernel

/-! ### Control programs, messages, meeting slots and peers -/

/-- A step word: op, peer, A, B, timed, count. -/
def Demo.step (op peer a b timed count : Nat) : Word :=
  BitVec.ofNat 64 (op * 2 ^ 60 + peer * 2 ^ 44 + a * 2 ^ 40 + b * 2 ^ 36 + timed * 2 ^ 32 + count)

/-- A table of two staging regions of four binary32 elements, a cell and a meeting slot. -/
def Demo.table : List Name :=
  [BitVec.ofNat 128 (0xF0 * 2 ^ 120 + 16 * 2 ^ 32 + 2 * 2 ^ 24), BitVec.ofNat 128 (0xF0 * 2 ^ 120 + 16 * 2 ^ 32 + 2 * 2 ^ 24 + 256),
    BitVec.ofNat 128 (0xF1 * 2 ^ 120 + windowVa 0 64), Demo.name 9 30]

/-- A run of rank 0 of 2 whose current step is `w`. -/
def Demo.cpState (w : Word) (f : Run → Run) (s : State) : State :=
  { Demo.with s [Demo.entry 4 12 0 (.prog ⟨[w, 0], Demo.table, 1, 0, 0, false, false, 0⟩)] with runs := [f (Demo.run 0)] }

/-- A message of rank 1 to rank 0. -/
def Demo.msg (elems : List Word) : EngMsg := ⟨3, 1, 0, 1, 2, false, elems, []⟩

/-- The step is `op`, owed nothing, and names rank 1. -/
def Demo.stepIs (s : State) (op : Nat) : Bool :=
  match cpOf s 1 with
  | some c => c.r.id == 1 && c.x.op == op && c.r.sent.isNone && !askedPeer s 1 && !waitsOn s (.run 1) && (op == 0 || op ≥ 5 || c.peer == some 1)
  | none => false

/-- CollectiveSteps: sends, to a rank beyond the run too; receives with a message, with another's shape and with none; reductions. -/
theorem meets_CollectivePeers :
    ([1, 2, 3, 4].all (fun op => Demo.stepIs (Demo.cpState (Demo.step op 1 0 (if op = 1 ∨ op = 3 then 0 else 1) 0 3) id Demo.s1) op)) = true ∧
    ((cpOf (Demo.cpState (Demo.step 1 2 0 0 0 3) id Demo.s1) 1).map (·.peer) = some none) ∧
    ([0, 1].all (fun i => (cpData Demo.s1 (cpEntry Demo.table i)).any (fun d => d.size == 4 && d.staged && redFmt d.fmt && d.fmt == 2))) = true ∧
    (let s := { Demo.cpState (Demo.step 1 1 0 0 0 3) id Demo.s1 with portsUp := [1] }
     (cpOf s 1).map (fun c => (c.first, c.x.count, c.route s 1, egress s c.r.die 1 1)) = some (0, 3, some (1, 1), 0) ∧ mget 0 s.peerMake 1 ≠ 1) ∧
    (cpOf (Demo.cpState (Demo.step 1 1 0 0 0 3) id Demo.s1) 1).map (fun c => c.route Demo.s1 1) = some none := by
  decide +kernel

/-- CollectiveSteps: a message that waits, and none; its length right and wrong. -/
theorem meets_CollectiveMessages :
    (let s := { Demo.cpState (Demo.step 2 1 0 1 0 3) id Demo.s1 with heldMsgs := [⟨0, 0, Demo.msg [1, 2, 3, 4], 0⟩] }
     nextHeld s 3 1 0 = some ⟨0, 0, Demo.msg [1, 2, 3, 4], 0⟩ ∧ nextHeld Demo.s1 3 1 0 = none ∧ (Demo.msg [1, 2, 3, 4]).elems.length = 3 + 1 ∧
      (Demo.msg [1]).elems.length ≠ 3 + 1) := by
  decide +kernel

/-- CollectiveSteps: what the step of `s` reads of its buffer. -/
theorem meets_CollectiveReads :
    let s := Demo.cpState (Demo.step 5 0 0 1 0 3) id Demo.s1
    ∀ c d, cpOf s 1 = some c → cpData s (c.entry 0) = some d → ∀ (K : State → List SrcEl → State),
      Cp.read c (Cp.begin c s []) d c.range K = K (Cp.begin c s []) (List.replicate 4 ⟨0, .fin false 0 (-149), 0, false⟩) := by
  intro s c d hc hd K
  have e : (cpOf s 1).all (fun c => (cpData s (c.entry 0)).all (fun d =>
      (c.range.foldl (fun (a : State × List SrcEl × Option ERead) (e : Nat) =>
        if a.2.2.isSome then a
        else match cpRead a.1 c.r d e with
          | (.ok x, s) => (s, a.2.1 ++ [x], none)
          | (.error x, s) => (s, a.2.1, some x)) (Cp.begin c s [], [], none)) ==
        (Cp.begin c s [], List.replicate 4 ⟨0, .fin false 0 (-149), 0, false⟩, none))) = true := by decide +kernel
  rw [hc, Option.all_some, hd, Option.all_some, beq_iff_eq] at e
  have h : ∀ R : State × List SrcEl × Option ERead, R = (Cp.begin c s [], List.replicate 4 ⟨0, .fin false 0 (-149), 0, false⟩, none) →
      (match R with
        | (s, l, none) => K s l
        | (s, _, some x) => c.halt s d c.range x) = K (Cp.begin c s []) (List.replicate 4 ⟨0, .fin false 0 (-149), 0, false⟩) := by
    intro R hR
    rw [hR]
  exact h _ e

/-- CollectiveSteps: writes of four elements to staging, none of which halts; a copy from a slot that is still open, on its die and on another. -/
theorem meets_CollectiveCopy :
    (let s := Demo.cpState (Demo.step 5 0 0 1 0 3) id Demo.s1
     Demo.stepIs s 5 = true ∧ (match cpOf s 1 with
      | some c => (match cpData s (c.entry 1) with
        | some d => (cpHalt c.r ((Cp.els c d (flatRec d.fmt 0 1) false c.first (List.replicate 4 ⟨⟨0, .fin false 0 0, 0, false⟩, false⟩)).filter (fun y => c.r.offset ≤ y.e)) s).1 == none
        | none => false)
      | none => false) = true) ∧
    ((cpOf (Demo.cpState (Demo.step 5 0 0 1 0 4) id Demo.s1) 1).map (fun c => c.first + (c.x.count + 1)) = some 5) ∧
    ([0, 1].all (fun die =>
      let e := Demo.entry 9 30 (BitVec.ofNat 352 (die * 2 ^ 23 + 4 * 2 ^ 25 + 2 * 2 ^ 45 + 2 * 2 ^ 56)) (.meeting ⟨1, [], [], []⟩)
      let s := Demo.with (Demo.cpState (Demo.step 5 0 3 1 0 3) id Demo.s1) [e]
      Demo.stepIs s 5 && (match cpOf s 1, resolve s 0 (Demo.name 9 30) (some 9) with
        | some c, .ok y => c.entry c.x.a == .slot (Demo.name 9 30) && c.r.got.isNone && c.r.since.isNone && y == e && decide (1 < slotMembers e.record) &&
            slotDie e.record == die && !slotSkip e.record && slotElems e.record == 4
        | _, _ => false))) = true := by
  decide +kernel

/-- CollectiveSteps: a halt, with a cell and without; waits for a cell and for a time, met and not; a loop of passes and of none; its end; a signal. -/
theorem meets_CollectiveControl :
    (let s := Demo.cpState (Demo.step 0 0 2 0 0 1) id Demo.s1
     Demo.stepIs s 0 = true ∧ (cpOf s 1).map (fun c => (c.x.count, c.entry c.x.a)) = some (1, .cell (windowVa 0 64)) ∧ windowVa 0 64 / 2 ^ 48 ≠ 0xFD ∧
      (cpOf s 1).map (fun c => let v := endRun s c.r 2
        ((check189 { v with cells := v.cells ++ [⟨.run 1, c.r.die, c.r.ctx, c.r.slot, windowVa 0 64, 1, 0, 0, 0⟩] } c.r.who (BitVec.ofNat 64 (windowVa 0 64)) 8 .rmw).1,
          engineOwns v (granKey (sramLoc 0 64)))) = some (.window (sramLoc 0 64), false)) ∧
    (let s := Demo.cpState (Demo.step 6 0 2 0 0 1) id Demo.s1
     Demo.stepIs s 6 = true ∧ (cpOf s 1).map (fun c => (c.x.timed, c.x.count, (check189 s c.r.who (BitVec.ofNat 64 (windowVa 0 64)) 8 .read).1)) =
       some (false, 1, .window (sramLoc 0 64)) ∧ natAt s (sramLoc 0 64) 4 < 1 ∧ 1 ≤ natAt { s with mem := [(sramLoc 0 64, 1)] } (sramLoc 0 64) 4) ∧
    ([0, 1].all (fun t =>
      let s := Demo.cpState (Demo.step 6 0 0 0 1 0) (fun r => { r with time0 := 1 }) { Demo.s1 with time := BitVec.ofNat 64 t }
      Demo.stepIs s 6 && (cpOf s 1).any (fun c => c.x.timed && c.r.time0.toNat + (c.x.offset + c.chunk) * c.r.width == 1))) = true ∧
    ([1, 2].all (fun n => Demo.stepIs (Demo.cpState (Demo.step 7 0 0 0 0 0xFFFF) (fun r => { r with n := n }) Demo.s1) 7)) = true ∧
    ([1, 2].all (fun v => Demo.stepIs (Demo.cpState (Demo.step 8 0 0 0 0 0) (fun r => { r with loops := [⟨0, v, 2, 0⟩] }) Demo.s1) 8)) = true ∧
    (let s := Demo.cpState (Demo.step 9 0 2 0 0 1) id Demo.s1
     Demo.stepIs s 9 = true ∧ engineOwns s (granKey (sramLoc 0 64)) = false) := by
  decide +kernel

/-- MessagesAndMeetings: a message a step waits for, one no run waits for, and a full pool; one to discard; a step that has waited 100 ms. -/
theorem meets_MessageEvents :
    (let s := Demo.cpState (Demo.step 2 1 0 1 0 3) (fun r => { r with since := some 0 }) Demo.s1
     (s.runs.find? (fun r => r.job == 3 && r.rank == 0)).map (fun r => awaits s r 1) = some true ∧ (Demo.msg [1]).elems ≠ []) ∧
    (let f : MsgFrom := ⟨9, 1, 5⟩
     Demo.s1.runs = [] ∧ msgBytes (Demo.msg [1]) ≤ 2 ^ 20 ∧ Demo.s1.heldMsgs = [] ∧ keptFor Demo.s1 f = none ∧ otherMake Demo.s1 f = false ∧
      (readyMsg 3 1 0).elems = [] ∧ otherMake { Demo.s1 with peerMake := [(9, 1)] } f = true ∧
      keptFor { Demo.s1 with kept := [⟨9, 1, 5, []⟩] } f = some ⟨9, 1, 5, []⟩) ∧
    2 ^ 20 < (((List.replicate 1024 (⟨0, 4, Demo.msg (List.replicate 256 0), 0⟩ : Held)).filter (fun h => h.die == 0)).map (fun h => msgBytes h.msg)).sum +
      msgBytes (Demo.msg [1]) ∧
    (let h : Held := ⟨0, 4, Demo.msg [1], 0⟩
     let s := { Demo.s1 with heldMsgs := [h], time := 10000000 }
     s.heldMsgs.find? (fun x => x.die == 0 && x.n == 4) = some h ∧ s.runs = [] ∧ 10000000 ≤ (s.time - h.time).toNat) ∧
    (let s := Demo.cpState (Demo.step 2 1 0 1 0 3) (fun r => { r with since := some 0 }) { Demo.s1 with time := 100000000 }
     Demo.stepIs s 2 = true ∧ (cpOf s 1).map (fun c => (c.r.since, c.r.got)) = some (some 0, none) ∧ s.heldMsgs = [] ∧ 100000000 ≤ (s.time - 0).toNat) := by
  decide +kernel

/-- A meeting slot of two members and one element of binary32 on die 0, with a deadline. -/
def Demo.meet (m : Meet) : Entry := Demo.entry 9 30 (BitVec.ofNat 352 (1 * 2 ^ 25 + 2 * 2 ^ 45 + 2 * 2 ^ 56 + 5 * 2 ^ 72)) (.meeting m)

/-- MessagesAndMeetings: names that are no slot; contributions that fit and that do not; a slot with all of them, and one past its deadline. -/
theorem meets_MeetingSlots :
    (let f : MsgFrom := ⟨9, 1, 5⟩
     keptFor Demo.s1 f = none ∧ otherMake Demo.s1 f = false ∧ otherMake { Demo.s1 with peerMake := [(9, 1)] } f = true ∧
      keptFor { Demo.s1 with kept := [⟨9, 1, 5, [7]⟩] } f = some ⟨9, 1, 5, [7]⟩) ∧
    slotReason Demo.s1 none 0 = 3 ∧ (0 : Name) ≠ 1 ∧
    (let e := Demo.meet ⟨1, [], [], []⟩
     let s := { Demo.with Demo.s1 [e] with time := 5 }
     slotReason s none (Demo.name 9 30) = 0 ∧ entryOf s (Demo.name 9 30) = some e ∧ 1 < slotMembers e.record ∧ slotElems e.record = 1 ∧ fmtCodeOk 2 = true ∧
      (2 : BitVec 8) ≠ 5 ∧ fmtCodeOk 0xFF = false ∧ slotCell e.record = 0 ∧ (slotDeadlineOf e.record).toNat ≤ s.time.toNat) ∧
    (let e := Demo.meet ⟨2, [], [], [1]⟩
     slotMembers e.record ≤ 2) := by
  decide +kernel

/-! #### Peers -/

/-- An export window of index 3 onto page 6 of the space of slot 0, open to every requester. -/
def Demo.export : Entry :=
  Demo.entry 6 31 (BitVec.ofNat 352 (1 + 3 * 2 + 4096 * 2 ^ 35 + 7 * 2 ^ 91 + (Demo.name 1 1).toNat * 2 ^ 96 + 0x6000 * 2 ^ 224)) .plain

/-- A request at offset 16 of that window. -/
def Demo.req (op : PeerOp) : PeerReq := ⟨9, 0, 1, 3 * 2 ^ 44 + 16, op⟩

/-- PeerTraffic: a request whose answer was kept; a 257th; one of no window; one not admitted; each kind, admitted and in a mapped page. -/
theorem meets_PeerRequests :
    (let q := Demo.req (.write [1] false)
     let s := { Demo.s1 with kept := [⟨9, 0, 1, [7]⟩] }
     otherMake s (reqSrc q) = false ∧ keptFor s (reqSrc q) = some ⟨9, 0, 1, [7]⟩ ∧ otherMake { s with peerMake := [(9, 1)] } (reqSrc q) = true) ∧
    (let q := Demo.req (.read 4)
     256 ≤ ((List.replicate 256 { q with seq := 7 }).filter (fun x => x.requester == 9)).length ∧ sameReq q { q with seq := 7 } = false ∧
      exportWindow Demo.s1 q = none) ∧
    ([PeerOp.read 4, .write [1, 2] false, .atomic .add false 1, .cas true 1 2, .red .add false 1, .casName 0 1].all (fun op =>
      let q := Demo.req op
      let s := { Demo.with Demo.s1 [Demo.entry 1 1 1 (.space 0), Demo.export] with peerIn := [q], portsUp := [0] }
      exportWindow s q == some Demo.export && windowAdmits Demo.export.record q true && s.peerIn.any (sameReq q) &&
        (entryOf s (Demo.export.record.extractLsb' 96 128)).map (·.obj) == some (.space 0) && fld Demo.export.record 224 56 + q.addr % 2 ^ 44 == 0x6010 &&
        zoneOf 0 0x6010 == .mapped && !waitsPage s 0 0x6010 (.peer 9 0 1) && (match translate s 0 0x6010 (PeerOp.ak op) with
          | (.ok x, s1) => !x.peer && !engineOwns s1 (lineKey 0 0x6010) && s1.ev.isEmpty &&
              (pieces (x.loc 0x6010) (PeerOp.size op)).all (fun p => !(granAt s1 p.1).poison)
          | _ => false))) = true ∧
    windowAdmits Demo.export.record { Demo.req (.read 4) with addr := 3 * 2 ^ 44 + 4093 } true = false := by
  decide +kernel

/-- An outgoing request sent at 0 with a timeout of 100 µs. -/
def Demo.out (dst : PeerDst) : PeerOut := ⟨8, dst, 0, 2, 0, true, 3, 3 * 2 ^ 44, .read 4, none, 1, 0, 100000, none⟩

/-- PeerTraffic: each of the things a request may be owed to, in time and late. -/
theorem meets_PeerAnswers :
    (let n := (Demo.cur Demo.s0).n
     ([.loadS n 0 3 .b32 0, .loadV n 0 2 3 .b32 .blame 0 0, .cmd 7 0, .mma 7 0, .store Demo.ref 2 0x6010, .run 1].all (fun d =>
       let s := { Demo.cpState (Demo.step 1 1 0 0 0 3) id Demo.s0 with peerOut := [Demo.out d], time := 1000, cmds := [Demo.cmd id] }
       s.peerOut.find? (fun x => x.id == (Demo.out d).id) == some (Demo.out d) && decide (1000 ≤ (s.time - (Demo.out d).sent).toNat ∧
         (s.time - (Demo.out d).sent).toNat < (Demo.out d).timeout ∧ ¬(100000 : Nat) < (Demo.out d).timeout) && (s.group? n.g).map (·.ended) == some false &&
         (s.team? 1).map (·.ending) == some none && (s.cmd? 7).map (·.stop) == some none && (s.run? 1).map (·.id) == some 1)) = true) ∧
    ((Demo.grp (fun g => { g with ended := true })).group? Demo.ref).map (·.ended) = some true := by
  decide +kernel

/-! #### Results -/

/-- R398, R402: a send leaves with rank 1's message; R416: a signal adds; R403: a message reaches the step; R423: a peer's write. -/
theorem test_collective :
    Demo.left (.cpSend 1) { Demo.cpState (Demo.step 1 1 0 0 0 3) id Demo.s1 with portsUp := [1] } (fun t =>
      t.peerOut.map (fun o => (o.accel, o.port, o.msg.map (fun m => (m.src, m.dst, m.elems)))) == [(1, 1, some (0, 1, [0, 0, 0, 0]))]) = true ∧
    Demo.left (.cpSignal 1) (Demo.cpState (Demo.step 9 0 2 0 0 1) id Demo.s1) (fun t => natAt t (sramLoc 0 64) 4 == 2 && t.runs.map (·.step) == [1]) = true ∧
    Demo.left (.cpRecv 1) { Demo.cpState (Demo.step 2 1 0 1 0 3) id Demo.s1 with heldMsgs := [⟨0, 0, Demo.msg [1, 2, 3, 0xDEADBEEF], 0⟩] } (fun t =>
      natAt t (stagingLoc 0 256) 4 == 1 && natAt t (stagingLoc 0 268) 4 == 0xDEADBEEF && t.heldMsgs == []) = true := by
  decide +kernel

/-- R423, R424: a peer's atomic on a mapped page answers the old word; an error answer of a store is kept for its group. -/
theorem test_peers :
    Demo.left (.peerRequestArrival (Demo.req (.atomic .add false 5))) { Demo.with Demo.s1 [Demo.entry 1 1 1 (.space 0), Demo.export] with mem := [(0x10010, 3)], portsUp := [0] } (fun t =>
      t.hostOut == [.peer 9 1 [3, 0, 0, 0] false false false] && natAt t 0x10010 4 == 8) = true ∧
    Demo.left (.peerResponse 8 (.error false false)) { Demo.s0 with peerOut := [Demo.out (.store Demo.ref 2 0x6010)] } (fun t =>
      (t.group? Demo.ref).map (·.peerFail) == some [(.badAddress, 3, 0x6010, 2)]) = true := by
  decide +kernel

/-! ### The device, the mailbox and the whole machine -/

/-- DeviceLife: a state in canonical form; boots that are ready and that are not; an island busy and idle; room for a record. -/
theorem meets_DeviceLife :
    MemOk State.reset ∧
    (let x : BootImage := ⟨true, 5, 1, 7, 2⟩
     let b : BootInfo := ⟨true, [x], ⟨true, 5, 0, 9, 15⟩, true, true, 1, 1023⟩
     (bootFlash State.reset b).code = 0 ∧ b.devno ≠ 0xFFFF ∧ b.accel.toNat ≤ 1023 ∧ 1023 < (1024 : BitVec 16).toNat ∧
      (bootFlash State.reset { b with firmware := [x, { x with signed := false }] }).code = 2 ∧
      (bootFlash State.reset { b with firmware := [x, { x with version := 4 }] }).code = 3) ∧
    State.reset.errBuf.length < 1024 ∧ (State.reset.islands[0]?).isSome = true ∧ islandBusy State.reset 0 = false ∧ islandBusy Demo.s0 0 = true ∧
    (∀ c b l, State.reset.agenda ≠ .reset c b :: l) := by
  refine ⟨by simp only [MemOk]; decide +kernel, by decide +kernel, by decide +kernel, by decide +kernel, by decide +kernel, by decide +kernel, fun c b l h => ?_⟩
  have : State.reset.agenda = [] := by decide +kernel
  simp [this] at h

/-- The bytes of a number. -/
def Demo.bytes (n x : Nat) : List Byte := natBytes n x

/-- ControlRegisters: an empty ring and one that is not; values written that are aligned, sized, and neither; each state of the mailbox. -/
theorem meets_ControlRegisters :
    State.reset.ctrl.status = 2 ∧ State.reset.ctrl.frprod = State.reset.ctrl.frcons ∧ State.reset.ctrl.erprod = State.reset.ctrl.ercons ∧
    { State.reset.ctrl with frprod := 1 }.frprod ≠ State.reset.ctrl.frcons ∧ (Demo.bytes 8 4096).length = 8 ∧
    (BitVec.ofNat 64 (leNat (Demo.bytes 8 4096)) : Word).toNat % 4096 = 0 ∧ (BitVec.ofNat 64 (leNat (Demo.bytes 8 128)) : Word).toNat = 64 * 2 ^ 1 ∧
    (¬∃ i, i < 11 ∧ (65 : Nat) = 64 * 2 ^ i) ∧ (Demo.bytes 64 5).length = 64 ∧ State.reset.ctrl.mbbusy = false ∧ (Demo.bytes 16 5).length = 16 ∧
    ([0, 1, 10, 11].all (fun k => (((({ State.reset.ctrl with mbcmd := [BitVec.ofNat 64 k] }).mbcmd).getD 0 0).extractLsb' 0 8).toNat == k)) = true ∧
    (BitVec.ofNat 128 (2 ^ 66) : BitVec 128).getLsbD 66 = true ∧ (BitVec.ofNat 128 (2 ^ 66) : BitVec 128).extractLsb' 67 61 = 0 ∧
    (BitVec.ofNat 128 (2 ^ 67) : BitVec 128).extractLsb' 67 61 ≠ 0 := by
  refine ⟨by decide, by decide, by decide, by decide, by decide, by decide, by decide, fun ⟨i, _, h⟩ => by omega, by decide, by decide, by decide, by decide +kernel,
    by decide +kernel, by decide +kernel, by decide +kernel⟩

/-- A mailbox busy with a command. -/
def Demo.box (ws : List Nat) (s : State) : State := { s with ctrl := { s.ctrl with mbbusy := true, mbcmd := ws.map (BitVec.ofNat 64) } }

/-- Mailbox: each command, its argument in its range, at its edge, and outside. -/
theorem meets_MailboxCommands :
    ([1, 2, 3, 4, 5, 6, 7, 8].all (fun k => let s := Demo.box [k, 0] Demo.s0
      s.ctrl.mbbusy && ((s.ctrl.mbcmd.getD 0 0).extractLsb' 0 8).toNat == k)) = true ∧
    mbContext (Demo.box [1, 0] Demo.s0) = none ∧
    (let s := Demo.with (Demo.box [1, 0] Demo.s0) [Demo.context]
     mbContext s = some 0 ∧ s.teams.all (fun t => t.ctx == 0 && !t.saved && t.ending.isNone && s.team? t.id == some t) = true) ∧
    ((1023 : Nat) ≤ 1023 ∧ 1023 < 1024 ∧ 1000 ≤ 100000000) ∧ Demo.s0.measure.length = 16 ∧ Demo.s0.rollback.length = 64 := by
  decide +kernel

/-- Mailbox: a tensor's image for a context, its checks failed and passed; a name that is none, of another device, gone, in use and not. -/
theorem meets_MailboxNames :
    (let img := natBytes 48 (Demo.tensor 0x6000 4 64 64 128).toNat
     let s := { Demo.with (Demo.box [9, 2, 2 ^ 40] Demo.s0) [Demo.context] with mem := img.mapIdx (fun i b => (hostLoc (2 ^ 40) + i, b)) }
     let r : BitVec 352 := (BitVec.ofNat 384 (natAt s (hostLoc (2 ^ 40)) 48)).setWidth 352
     s.ctrl.mbbusy = true ∧ waitsOn s .mailbox = false ∧ ownerOk s 2 0 = true ∧ tensorOk r = true ∧ tCb r = false ∧ s.roster.length < 2 ^ 24 ∧
      ownerOk s 2 63 = false ∧ tensorOk 0 = false) ∧
    (let n := Demo.name 2 10
     let s := Demo.tensors (Demo.box [10, n.toNat % 2 ^ 64, n.toNat / 2 ^ 64] Demo.s0)
     s.ctrl.mbcmd.getD 2 0 ++ s.ctrl.mbcmd.getD 1 0 = n ∧ n ≠ 0 ∧ nameDevice n = s.devno ∧ nameDevice (n + (1 <<< 104)) ≠ s.devno ∧ entryOf s (Demo.name 2 99) = none ∧
      (match entryOf s n with
       | some e => !e.dying && !nameInUse s e
       | none => false) = true) := by
  decide +kernel

/-- StepKeepsMemory: the state after reset is in canonical form, and steps. -/
theorem meets_StepKeepsMemory : MemOk State.reset ∧ (match step State.reset with
    | .next _ => true
    | _ => false) = true := by
  simp only [MemOk]
  decide +kernel

/-- EncodeDecode and DecodeEncode: SADD s11, s7, 0x90, the spec's example. -/
theorem meets_EncodeDecode :
    (Instr.sadd hd .wrap 11 7 (.i 144)).WellFormed ∧ encode (.sadd hd .wrap 11 7 (.i 144)) = some 0x0201002C70000090 ∧
    decode 0x0201002C70000090 = .ok (.sadd hd .wrap 11 7 (.i 144)) := by
  refine ⟨⟨by decide, by decide⟩, by decide, by decide⟩

/-- StepRunsDecoded: the state that `withFetchWord` makes of reset, for the same word. -/
theorem meets_StepRunsDecoded :
    let s := State.reset.withFetchWord 64 0x0201002C70000090
    let s1 := { tick s with turn := s.turn + 1 }
    s.stopped = false ∧ s.agenda = [] ∧ s.turn % 4 = 0 ∧ decode 0x0201002C70000090 = .ok (.sadd hd .wrap 11 7 (.i 144)) ∧
    (match s1.issuing.findSome? (canIssue s1) with
     | some (t, g, cl) =>
       let r : GRef := ⟨t.id, g.grp⟩
       let n : Now := ⟨r, cl.hdr, cl.head, cl.pc, cl.x, cl.next + 1 == cl.head.count, cl.redo⟩
       g.ylddl != 0 && (majorInfo 0x02).map Prod.snd == some cl.head.cls && !majorEnds 0x02 &&
         (match (fetchWord { s1 with now := some n, issuing := s1.issuing.filter (fun x => x != r) ++ [r] } t.core t.slot n.pc).1 with
          | .word w => w == 0x0201002C70000090
          | _ => false)
     | none => false) = true := by
  decide +kernel

/-! #### Results -/

/-- R436: PEERTIME sets one accelerator's timeout; R432: a ring that is not empty keeps its base; R444: the device stops. -/
theorem test_device :
    Demo.left .peertime (Demo.box [3, 7, 1000] State.reset) (fun t => mget 100000 t.peerTimeouts 7 == 1000 && mget 100000 t.peerTimeouts 8 == 100000 && !t.ctrl.mbbusy) = true ∧
    Demo.left (.controlRegisterWrite 0x40100 8 (natBytes 8 0x2000)) { State.reset with ctrl := { Ctrl.reset with frprod := 1 } } (fun t => t.ctrl.frbase == 0) = true ∧
    Demo.left (.controlRegisterWrite 0x40100 8 (natBytes 8 0x2000)) State.reset (fun t => t.ctrl.frbase == 0x2000) = true ∧
    Demo.left .fatalError State.reset (fun t => t.stopped) = true := by
  decide +kernel

/-! ### Further states: the other clauses of the statements -/

/-- Page 6 is a page of peer 2, through the import window of index 0, whose port 1 is up. -/
def Demo.peer (s : State) : State :=
  { Demo.with s [Demo.entry 6 40 (BitVec.ofNat 352 (2 * 2 ^ 13 + 2 ^ 20 * 2 ^ 35 + 2 * 2 ^ 75)) .plain] with
    tlb := (Demo.map 6 0).map (fun x => { x with peer := true, frame := 0 }), portsUp := [1] }

/-- CallsAndReturns: CALLV with a lane whose target is past the text, and the others below their maximum depth. -/
theorem meets_Calls_targets :
    let c := Demo.cur (Demo.grp (fun g => g.setV 1 3 2 0))
    c.vOk 1 false = true ∧ (c.active hd).getLsbD 3 = true ∧ c.l.kernel.twords ≤ (c.g.vreg 1 3).toNat ∧ (c.g.vreg 1 2).toNat < c.l.kernel.twords ∧
    c.g.lanes.all (fun l => decide (l.depth + 1 ≤ c.l.kernel.maxDepth ∧ l.calls.length < 4)) = true := by
  decide +kernel

/-- CallsAndReturns: RET of a lane whose entry lies in a peer's memory, and in a page that its window does not reach. -/
theorem meets_Returns_peer :
    ([Demo.peer Demo.fill, { Demo.peer Demo.fill with roster := [] }].all (fun s =>
      let c := Demo.cur s
      let va := callPlace s c.t c.l.kernel c.g.grp 3 0
      match readFor s c.ref c.who va 8 8 .read false (.lanes c.ref (maskOf [3])) with
      | (.peer x, t) => (fetchedAt t (wordKey c.ref) va.toNat 8).isNone && (peerTarget t x va.toNat (.read 8)).isSome == !s.roster.isEmpty
      | _ => false)) = true := by
  decide +kernel

/-- LoadsAndStores: a load and a store of a peer's page. -/
theorem meets_Loads_peer :
    let s := Demo.peer (Demo.mem id)
    let c := Demo.cur s
    (match (readFor s c.ref c.who 0x6010 4 4 .read false (.lanes c.ref (maskOf [3]))).1 with
     | .peer x => (peerTarget s x 0x6010 (.read 4)).isSome
     | _ => false) = true ∧ c.t.uncommitted = [] ∧ peerOrd s c ⟨.dev, .relaxed, 0⟩ [0x6010] = ⟨.dev, .relaxed, 0⟩ := by
  decide +kernel

/-- HintsAndBankModes: a bank that leaves cache mode, its cluster's lines written back. -/
theorem meets_BankModes_cache :
    let s := Demo.with (Demo.grp (fun g => g.setS 1 63)) [Demo.context]
    (leaveCache s 0).group? Demo.ref = some (Demo.cur s).g ∧ MemOk (leaveCache s 0) := by
  simp only [MemOk]
  decide +kernel

/-- AtomicsAndReductions: the word of a mapped page at each scope's place; a value with E under trap-store. -/
theorem meets_Atomics_memory :
    (let s := Demo.mem id
     let c := Demo.cur s
     (match check189 s c.who 0x6010 4 .rmw with
      | (.mem x, t) => [Scope.core, .clu, .dev].all (fun sc => match rmwBar t c.t.core (lineKey c.t.slot 0x6010) sc with
         | (false, t1) => !(rmwTake t1 c.ref c.who x 0x6010 sc).1.poison
         | _ => false)
      | _ => false) = true ∧ unbound s c.ref = false ∧ Demo.done (pinFirst s c) (fun t => cur? (drainGroup t c.ref) == some c) = true) ∧
    (let c := Demo.cur (Demo.st (fun k => { k with trapstore := true }) id (fun g => g.setV 4 3 7 0x8001) Demo.all)
     c.l.kernel.trapstore = true ∧ (regOperand c.g false 4 3).2.msb = true ∧ (regOperand c.g false 4 2).2.msb = false) := by
  decide +kernel

/-- QueuesAndCells: what a cell's word needs of the group and its core. -/
theorem meets_CountCells_ready :
    let s := Demo.mem id
    let c := Demo.cur s
    unbound s c.ref = false ∧ Demo.done (pinFirst s c) (fun t => cur? (pushOwn t c.ref) == some c) = true ∧
    commitBefore s c.t.core (granKey (sramLoc 0 0)) (fun _ => true) = false ∧ redsOn s c.ref c.who (c.g.sreg 2).toNat = [] ∧
    (match check189 (Demo.mem (fun g => g.setS 2 0x7000)) c.who 0x7000 8 .read with
     | (.fault _, _) => true
     | _ => false) = true := by
  decide +kernel

/-- Accumulators: a slot with a lane parked on it by the group, and by another. -/
theorem meets_AccumulatorParked :
    ([0, 1].all (fun g =>
      let a := { Demo.slot (.held 0) none [] with parked := [(g, 3)] }
      mfind (Demo.acc a id).accs 5 == some a && a.parked.any (fun p => p.1 == 0) == (g == 0))) = true ∧
    (let a := Demo.slot (.leaving 0) none []
     (∀ y ∈ a.parked, ¬(y.1 = 0 ∧ (Demo.cur (Demo.acc a id)).n.x.getLsbD y.2 = true))) := by
  decide +kernel

/-- Accumulators: ADRN.fadd to mapped rows. -/
theorem meets_AccumulatorMemory_fadd :
    let s := Demo.accIn (Demo.slot (.held 0) none []) (fun g => (g.setS 1 0x6000).setS 2 64) 1
    let s := { s with tlb := (List.range 20).flatMap (fun i => Demo.map (6 + i) (16 + i)) }
    let c := Demo.cur s
    let m2 : MemOp := ⟨1, .s 2, 4, false, 0⟩
    let x := (lanesOf (c.active hd)).foldl (adrnLane s.seqN c m2 (Demo.slot (.held 0) none [])) (AstAcc.start s)
    unbound s c.ref = false ∧ x.st.parks = [] ∧ x.st.traps = [] ∧ x.poison = [] ∧ (x.st.s.group? c.ref == some c.g) = true ∧
    mfind x.st.s.accs 5 = some (Demo.slot (.held 0) none []) ∧
    Demo.done (pinFirst x.st.s c) (fun t => cur? (drainGroup t c.ref) == some c && mfind (drainGroup t c.ref).accs 5 == some (Demo.slot (.held 0) none [])) = true := by
  decide +kernel

/-- EngineAndProgramWords: CPSTOP of a run inside a block of 256 elements, and of one at a block's start. -/
theorem meets_ControlProgramWords_block :
    { Demo.run 1 with since := some 0, offset := 257 }.midBlock = true ∧ { Demo.run 1 with since := some 0, offset := 256 }.midBlock = false ∧
    { Demo.run 1 with since := some 0, offset := 257 }.blockEnd = 512 := by
  decide +kernel

/-- NameInstructions: no clean slot, no free context index, a roster that is full; a class that is none; and records that pass their checks. -/
theorem meets_NewNames_claims :
    freeCtx (Demo.with Demo.s0 ((List.range 64).map (fun n => Demo.entry 7 (n + 1) 0 (.context n)))) = none ∧
    freeCtx Demo.s0 = some 0 ∧ cleanSlot Demo.s0 = some 1 ∧ spaceOk 0 = true ∧ (0 < 1 ∧ 9 < 10) ∧
    (let s := Demo.with Demo.s0 [Demo.entry 1 1 1 (.space 0)]
     contextOk s [0] (BitVec.ofNat 352 ((Demo.name 1 1).toNat + 2 ^ 248 + 2 ^ 272)) = true) ∧
    windowRecOk Demo.s0 0 (BitVec.ofNat 352 (4096 * 2 ^ 35)) = true ∧ pigOk Demo.s0 0 = false ∧ meetingOk Demo.s0 0 = false := by
  decide +kernel

theorem meets_NewNames_full (e : Entry) :
    2 ^ 24 ≤ { Demo.s0 with roster := List.replicate (2 ^ 24) (0, e) }.roster.length ∧
    cleanSlot { Demo.s0 with roster := (List.range 4096).map (fun n => (n, { e with obj := .space n })) } = none := by
  refine ⟨Nat.le_of_eq (List.length_replicate ..).symm, ?_⟩
  simp only [cleanSlot, List.find?_eq_none, List.mem_range, List.map_map, Bool.and_eq_true, bne_iff_ne, ne_eq, Bool.not_eq_true', not_and, Bool.not_eq_false]
  intro n hn _
  exact List.any_eq_true.mpr ⟨{ e with obj := .space n }, List.mem_map.mpr ⟨n, List.mem_range.mpr hn, rfl⟩, by simp⟩

/-- TrapsAndLaunches: lanes of two causes, the lowest not the first of the list. -/
theorem meets_TrapWords_causes :
    let c := Demo.cur Demo.s0
    byLane [⟨5, .align, 0, 3⟩, ⟨2, .badAddress, 0, 4⟩] = ⟨2, .badAddress, 0, 4⟩ :: [⟨5, .align, 0, 3⟩] ∧ c.g.inTrap = false ∧ Demo.stands c = true := by
  decide +kernel

/-- IssueEvents: two groups whose clauses became ready together, the next in rotation after each of them. -/
theorem meets_ClauseEntry_rotation :
    let s := { Demo.st id (fun t => { t with groups := t.groups.flatMap (fun g => [g, { g with grp := 1 }]) }) (fun g => { g with clause := none }) Demo.all with
      now := none, issuing := [] }
    ((eligibles s 0).map (·.2.grp) = [0, 1] ∧ (eligibles s 0).all (fun p => p.2.readyAt == (Demo.cur Demo.s0).g.readyAt) = true) ∧ lastServed s 0 3 = 31 ∧
    (pickGroup (lastServed s 0 3) (eligibles s 0)).map (·.2.grp) = some 0 ∧
    (pickGroup (lastServed { s with served := [(3, 0)] } 0 3) (eligibles s 0)).map (·.2.grp) = some 1 := by
  decide +kernel

/-- IssueEvents: the oldest result of a queue, and one that an older one of its queue keeps back. -/
theorem meets_ResultEvents_queue :
    let p : PendRes := ⟨4, none, .sfu, 0, [.s 5 9], true, false⟩
    let q : PendRes := ⟨3, none, .cvt, 0, [], false, false⟩
    (let s := Demo.waiting (fun g => { g with pend := [q, p] })
     (s.group? Demo.ref).map (fun g => g.pend.find? (fun p => p.id == 4 && p.ready && g.queueHead p)) = some (some p)) ∧
    (let s := Demo.waiting (fun g => { g with pend := [{ q with queue := .sfu }, p] })
     (s.group? Demo.ref).map (fun g => g.queueHead p) = some false) := by
  decide +kernel

/-- IssueEvents: two deferred lanes that all others have passed, one that has not been passed. -/
theorem meets_LaneReleases_together :
    let s := Demo.waiting (fun g => { g with lanes := g.lanes.mapIdx (fun i l => { l with
      st := if i < 2 then .deferred placedText 0xFFF8 else if i = 2 then .deferred placedText 0 else .ready }) })
    (match s.group? Demo.ref with
    | some g =>
      let due := fun (i : Nat) => (g.lanes[i]?).any (fun x => g.live.getLsbD i && match x.st with
        | .deferred _ seen => (List.range g.lanes.length).all (fun j => j == i || seen.getLsbD j || (g.lanes[j]?).any (fun y => match y.st with
          | .deferred .. => true
          | z => (LState.point z).isSome))
        | _ => false)
      [0, 1, 2, 3].map due == [true, true, false, false]
    | none => false) = true := by
  decide +kernel

/-- LineEvents: nothing keeps a queued store back; a line owned, and not; a line another core has written. -/
theorem meets_CoherenceEvents_owned :
    (let w := Demo.write 0x6010
     let s := Demo.mem (fun g => { g with storeQ := [w] })
     let o := { s with cdir := [⟨0, 0, 0x6000, .M, 1, 1⟩] }
     [s, o].map (fun s => (unbound s Demo.ref, heldBack s 0 w, redAhead s 0 w, ownsLine s 0 w.line)) = [(false, false, false, false), (false, false, false, true)]) ∧
    (let s := { Demo.mem id with ev := [⟨0, .core, Demo.write 0x6010⟩] }
     s.hostHeld = [] ∧ s.cells = [] ∧ s.redQ = [] ∧ heldCommit s 1 = false) ∧
    (let s := { Demo.mem id with ev := [⟨8, .core, Demo.write 0x6010⟩], cdir := [⟨0, 0, 0x6000, .S, 1, 1⟩] }
     let line := lineKey 0 0x6010
     staleOf s 0 line = none ∧ inL1 s 0 line = true ∧ (s.ev.any (fun e => e.w.line == line && e.core != 0)) = true ∧
      (locate s (lineSlot line) (lineVa line)).isSome = true) ∧
    (let l : StaleLine := ⟨0, false, 0, 0x6000, [], []⟩
     (staleOf { Demo.mem id with stale := [l] } 0 (lineKey 0 0x6000)).isSome = true) := by
  decide +kernel

/-- HostAccesses: the device is ready; a line that a command still owns; a block whose error is mended, and one with errors that are not. -/
theorem meets_HostAccesses_held :
    readyDev Demo.s0 = true ∧
    (let s := { Demo.mem id with aliases := [(512, 0, 0x6000)], cmds := [Demo.cmd (fun c => { c with lines := [lineKey 0 0x6000] })] }
     hostMay 0x10010 4 = true ∧ locOwned s 0x10010 4 = true ∧ locOwned s 0x10100 4 = false) ∧
    ((0, 5).1 ≤ 5 ∧ (0, 5).2 < 2 ^ 12) ∧ [1] ≠ [] := by
  decide +kernel

/-- EngineEvents: a slot given up with a lane of the giver parked on it, and with another group's. -/
theorem meets_MatrixEvents_parked :
    [0, 1].all (fun g =>
      let a := { Demo.slot (.leaving 0) none [] with parked := [(g, 3)] }
      mfind (Demo.acc a id).accs (accKey 0 5) == some a && a.token == .leaving 0 && a.parked.any (fun p => p.1 == 0) == (g == 0)) = true := by
  decide +kernel

/-- Launches: the windows that answer and that do not; parameters that are read already; what a launch's end waits for. -/
theorem meets_LaunchQueue_live :
    (let s := Demo.job id
     readyDev s = true ∧ ctxLive s 0 = true ∧ ctxLive s 63 = false ∧ (64 : Nat) ≤ 64 ∧ 63 < 64) ∧
    readyDev { Demo.s0 with ctrl := { Demo.s0.ctrl with status := 1, recovery := 1 } } = false ∧
    (let l := Demo.launch (Demo.packet 0 0x6000) (fun l => { l with params := List.replicate 8 1 })
     let s := Demo.job (fun s => { s with launches := s.launches ++ [l] })
     s.launches.find? (fun x => x.ctx == l.ctx && x.stage == .queued) = some l ∧ waitsOn s (.launch l.id) = false ∧ packetOk l.packet = true ∧
      pk l.packet 256 56 % 64 = 0 ∧ zoneOf (l.who s).core (pk l.packet 256 56) = .mapped ∧ l.bad = false ∧ l.params ≠ [] ∧ l.killed = false) := by
  decide +kernel

theorem meets_LaunchCells_waits :
    let l := Demo.launch (Demo.packet 1 0x6000) (fun l => { l with
      stage := .eligible, roll := Demo.name 5 22, placed := 1, ended := 1, recs := 4, gone := [⟨5, 0, 0, 0, 0, false⟩] })
    let x : RollEntry := ⟨placedText, 1, 0, 0, 1, 0, false⟩
    let s := Demo.job (fun s => { s with launches := s.launches ++ [l] })
    let held := { s with redQ := [⟨2, ⟨5, 0⟩, 0, 0, 0, 0x6010, .add, false, 1, 0, 0, birthOf Demo.s0 Demo.ref, 0, false⟩] }
    let slow := Demo.with s [Demo.entry 5 22 0 (.roll ⟨false, 0x6000, 4, [x], false⟩)]
    let told := { s with errBuf := [BitVec.ofNat 512 (3 * 2 ^ 384)] }
    [s, held, slow, told].map (fun s => (leftBehind s l, (rollOf s l.roll).any rollLags, recordsWait s l)) =
      [(false, false, false), (true, false, false), (false, true, false), (false, false, true)] ∧
    s.launch? l.id = some l ∧ l.total ≤ l.placed ∧ l.total ≤ l.ended ∧ s.ev.all (fun e => !l.left e.w.g.team) = true := by
  decide +kernel

/-- SaveAndResume: the save's release is made; a core whose turn it is. -/
theorem meets_SaveAndResume_turn :
    (let s := Demo.leaving id
     match s.team? 1 with
     | some t => (match s.launch? t.launch with
       | some l => (match checkPages s t .write (savePages s t l.kernel) with
         | .ok s1 => Demo.done (saveRelease s1 t) (fun _ => true)
         | _ => false)
       | none => false)
     | none => false) = true ∧
    (let s := Demo.leaving (fun t => { t with preempt := false, saved := true, image := [(0x6000, 0)], groups := t.groups.map (fun g => { g with wait := none }) })
     let s : State := { s with time := 2000000, launches := s.launches.map (fun l => { l with packet := BitVec.ofNat 512 (2 ^ 376) }) }
     match s.team? 1 with
     | some t => (match s.launch? t.launch with
       | some l => (resumeCores s l t).contains 0 && resumeTurn s l t 0
       | none => false)
     | none => false) = true := by
  decide +kernel

/-- CollectiveSteps: a run over Ethernet, its message too long and not; a step that waits for its receiver's ready message; a full egress queue; a peer of another make. -/
theorem meets_CollectiveSend_ether :
    (let s := { Demo.cpState (Demo.step 1 1 0 0 0 3) (fun r => { r with ether := true }) { Demo.s1 with endpoints := [⟨1, 5, 0⟩] } with portsUp := [16] }
     (cpOf s 1).map (fun c => (c.r.ether, c.route s 1, c.awaitsReady s 1 none)) = some (true, some (1, 16), false)) ∧
    fmtWidth 2 / 8 * (List.replicate 4 (0 : Nat)).length ≤ 8192 ∧ ¬fmtWidth 2 / 8 * (List.replicate 2049 (0 : Nat)).length ≤ 8192 ∧
    (let s := { Demo.cpState (Demo.step 1 1 0 0 0 3) (fun r => { r with skew := true }) Demo.s1 with portsUp := [1] }
     (cpOf s 1).map (fun c => (c.route s 1, c.awaitsReady s 1 none, c.awaitsReady { s with readies := [(3, 1, 0)] } 1 none)) = some (some (1, 1), true, false)) ∧
    256 ≤ egress { Demo.s1 with peerOut := List.replicate 256 ⟨8, .run 1, 0, 1, 1, false, 3, 0, .read 4, none, 1, 0, 100000, none⟩ } 0 1 1 ∧
    mget 0 { Demo.s1 with peerMake := [(1, 1)] }.peerMake 1 = 1 := by
  decide +kernel

/-- CollectiveSteps: a receiving step that begins at once, and one whose ready message finds no room. -/
theorem meets_CollectiveReceive_begun :
    let s := { Demo.cpState (Demo.step 2 1 0 1 0 3) (fun r => { r with skew := true }) Demo.s1 with portsUp := [1] }
    let full := { s with peerOut := List.replicate 256 ⟨8, .run 9, 0, 1, 1, false, 3, 0, .read 4, none, 1, 0, 100000, none⟩ }
    [s, full].map (fun s => (cpOf s 1).map (fun c => Cp.begun c (Cp.beginRecv c s [] 1))) = [some true, some false] := by
  decide +kernel

/-- PeerTraffic: a request marked busy; a team that has left its launch, and a group that has ended; ports that train up and that do not. -/
theorem meets_PeerAnswers_late :
    (let p := { Demo.out (.store Demo.ref 2 0x6010) with busy := some 0 }
     let s := { Demo.s0 with peerOut := [p], time := 1000 }
     s.peerOut.find? (fun x => x.id == p.id) = some p ∧ 1000 ≤ (s.time - 0).toNat ∧ (s.time - p.sent).toNat < p.timeout) ∧
    (let x : Gone := ⟨5, 0, 0, 0, 0, false⟩
     let s := { Demo.s0 with launches := Demo.s0.launches.map (fun (l : Launch) => { l with gone := [x] }), peerOut := [Demo.out (.store ⟨5, 0⟩ 2 0x6010)] }
     s.team? 5 = none ∧ s.launches.any (fun l => l.left 5 && s.launch? l.id == some l && l.gone.find? (fun x => x.id == 5 && !x.failed) == some x) = true) ∧
    (let s := { Demo.grp (fun g => { g with ended := true }) with peerOut := [Demo.out (.store Demo.ref 2 0x6010)] }
     (s.group? Demo.ref).map (·.ended) = some true ∧ (s.team? 1).map (·.ending) = some none) ∧
    readyDev Demo.s0 = true ∧ (16 : Nat) < 20 ∧ (20 : Nat) ≤ 20 := by
  decide +kernel

/-- DeviceLife: an island whose cores stand between clauses, and one with a group inside its clause; an island gated and not; addresses of firmware. -/
theorem meets_DeviceEvents :
    betweenClauses Demo.s0 0 = false ∧ betweenClauses Demo.s0 2 = true ∧ islandBusy Demo.s0 0 = true ∧ islandBusy Demo.s0 2 = false ∧
    Demo.s0.islands.length = 128 ∧ firmwareMay 0 rsvBase = true ∧ firmwareMay 3 (dumpBase + dumpSize - 1) = true := by
  decide +kernel

theorem meets_DeviceEvents_refused : (4 : Nat) ≤ 4 ∧ firmwareMay 0 (BitVec.ofNat 64 (2 ^ 63)).toNat = false := by
  decide +kernel

/-- ControlRegisters: reads in recovery that answer and that do not; each kind of offset. -/
theorem meets_ControlRegisters_reads :
    (let s := { Demo.s0 with ctrl := { Demo.s0.ctrl with status := 1, recovery := 6 } }
     ¬(s.ctrl.status = 2 ∨ (0x40008 : Nat) = 0x40000 ∨ 0x41000 ≤ (0x40008 : Nat)) ∧ (s.ctrl.status = 2 ∨ (0x41080 : Nat) = 0x40000 ∨ 0x41000 ≤ (0x41080 : Nat))) ∧
    (Demo.s0.ctrl.status = 2 ∧ (0x3F040 : Nat) < 0x40000 ∧ 0x3F040 % 0x1000 = 0x40 ∧ 0x3F048 % 0x1000 ≠ 0x40) ∧
    ((ctrlRegs Demo.s0).all (fun r => r.1 != 0x40300)) = true := by
  decide +kernel

/-- FormsComplete: every lane of a word on a window that nothing owns; room on chip; the frame that an undo takes. -/
theorem meets_MemoryForms :
    let s := Demo.mem id
    let c := Demo.cur s
    cur? s = some c ∧ c.g.peerFail = [] ∧ s.redQ = [] ∧ unbound s c.ref = false ∧ c.g.storeQ = [] ∧ unpinned c = false ∧ c.t.committing = false ∧
    c.l.kernel.trapstore = false ∧ resultGate c .none = none ∧ c.idxOk Demo.at2 = true ∧
    Claim.onWindow s c (fun i => (c.active hd).getLsbD i = true) Demo.at2 4 .rmw := by
  refine ⟨by decide +kernel, by decide +kernel, by decide +kernel, by decide +kernel, by decide +kernel, by decide +kernel, by decide +kernel, by decide +kernel,
    by decide +kernel, by decide +kernel, fun i h _ => ⟨sramLoc 0 0, ?_, by decide +kernel, by decide +kernel⟩⟩
  have e : ∀ i < 64, (check189 (Demo.mem id) (Demo.cur (Demo.mem id)).who (memAddr (Demo.cur (Demo.mem id)).g Demo.at2 i) 4 .rmw ==
      (Acc189.window (sramLoc 0 0), Demo.mem id)) = true := by decide +kernel
  exact eq_of_beq (e i h)

theorem meets_ReversibleForms :
    (let f := Demo.frame 1 0 2
     let c := Demo.cur (Demo.slate id ⟨[f], 0, 1, 0, 0, []⟩)
     c.g.slate.chip = f :: [] ∧ c.vOk 30 false = true ∧ c.srcOk .f32 (.v 20) = true ∧ c.srcOk .f32 (.c 352) = true ∧ resultGate c .none = none ∧
      headWidth f.head = widthCode c.width ∧ headOp f.head = 1 ∧ headFmt f.head = 0x02 ∧ c.g.slate.chip.length < chipCap c.l.kernel ∧ replayOf c = none) ∧
    ([(2, (0x0C : BitVec 8)), (3, 0x02), (4, 4), (5, 0x02)].all (fun q => let f := Demo.frame q.1 0 q.2; headOp f.head == q.1 && headFmt f.head == q.2)) = true ∧
    (let m := Demo.frame 15 7 0
     headOp m.head = 15 ∧ headMark m.head = 7) := by
  decide +kernel
end

section
/-! SUPPORT. The device's life (19_device): what a reset keeps and what bring-up comes to, the header of the dump, the
setting of an island, and an access that firmware may not make. -/

namespace Sys2Proof.Machine

open Sys2Proof

/-! ### Keeping some keys of a canonical map -/

section Filter

variable {α : Type} [DecidableEq α] (d : α)

/-- Below the first key of a canonical map everything reads as the default. -/
theorem mget_of_lt_mwfFrom {m : SMap α} {lo j : Nat} (h : mwfFrom d lo m = true) (hj : j < lo) : mget d m j = d := by
  cases m with
  | nil => rfl
  | cons p r =>
    obtain ⟨a, x⟩ := p
    simp only [mwfFrom, Bool.and_eq_true, decide_eq_true_eq] at h
    rw [mget, if_pos (by omega)]

/-- A key kept reads as before, any other as the default. The form is needed: in another list a key dropped would show
what it hid. -/
theorem mget_filter_key {m : SMap α} {lo : Nat} (keep : Nat → Bool) (j : Nat) (h : mwfFrom d lo m = true) :
    mget d (m.filter (fun p => keep p.1)) j = if keep j = true then mget d m j else d := by
  induction m generalizing lo with
  | nil => simp [mget]
  | cons p r ih =>
    obtain ⟨a, x⟩ := p
    simp only [mwfFrom, Bool.and_eq_true, decide_eq_true_eq] at h
    obtain ⟨-, hr⟩ := h
    by_cases ha : keep a = true
    · rw [List.filter_cons_of_pos (by exact ha), mget, mget, ih hr]
      by_cases hj : keep j = true
      · simp only [hj, if_true]
      · have hne : j ≠ a := fun e => hj (e ▸ ha)
        simp [hj, hne]
    · rw [List.filter_cons_of_neg (by simpa using ha), ih hr, mget]
      have hlt : j < a → mget d r j = d := fun hj => mget_of_lt_mwfFrom d hr (by omega)
      split_ifs with hj h1 h2
      · exact hlt h1
      · exact absurd (h2 ▸ hj) ha
      · rfl
      · rfl

end Filter

/-! ### A number at the head of what is written -/

/-- The head of what was written is read back. -/
theorem bytesAt_putMem_append (s : State) (a : Nat) (l r : List Byte) : bytesAt (s.putMem a (l ++ r)) a l.length = l := by
  have h := bytesAt_putMem_same s a (l ++ r)
  rw [List.length_append, bytesAt, List.range_add, List.map_append] at h
  exact (List.append_inj h (by simp)).1

theorem natAt_putMem_append (s : State) (a n x : Nat) (r : List Byte) :
    natAt (s.putMem a (natBytes n x ++ r)) a n = x % 256 ^ n := by
  have h := bytesAt_putMem_append s a (natBytes n x) r
  rw [natBytes_length] at h
  rw [natAt, h, leNat_natBytes]

/-! ### Bring-up (R429, R431, R441, R442) -/

/-- Once a step of bring-up has failed, no image changes anything. -/
theorem bootImage_failed {a : BootAcc} (sig old : Nat) (x : BootImage) (h : a.code ≠ 0) : bootImage sig old a x = a := by
  simp [bootImage, h]

theorem bootImage_unsigned {a : BootAcc} {x : BootImage} (sig old : Nat) (h : a.code = 0) (hx : x.signed = false) :
    bootImage sig old a x = { a with code := sig } := by
  simp [bootImage, h, hx]

theorem bootImage_rolledBack {a : BootAcc} {x : BootImage} (sig old : Nat) (h : a.code = 0) (hx : x.signed = true)
    (hv : x.version < a.rollback.getD x.counter 0) : bootImage sig old a x = { a with code := old } := by
  rw [bootImage, if_neg (by simp [h]), if_neg (by simp [hx]), if_pos hv]

/-- An accepted image raises its counter and extends its register. -/
theorem bootImage_accepted {a : BootAcc} {x : BootImage} (sig old : Nat) (h : a.code = 0) (hx : x.signed = true)
    (hv : a.rollback.getD x.counter 0 ≤ x.version) :
    bootImage sig old a x = { a with
      rollback := a.rollback.modify x.counter (fun v => max v x.version)
      measure := a.measure.modify x.register (fun m => extendMeasure m x.digest) } := by
  rw [bootImage, if_neg (by simp [h]), if_neg (by simp [hx]), if_neg (by omega)]

theorem foldl_bootImage_failed {a : BootAcc} (sig old : Nat) (xs : List BootImage) (h : a.code ≠ 0) :
    xs.foldl (bootImage sig old) a = a := by
  induction xs with
  | nil => rfl
  | cons x xs ih => rw [List.foldl_cons, bootImage_failed sig old x h, ih]

/-- With the flash unreadable the code is FLASH_FAIL, whatever the images. -/
theorem bootFlash_unreadable (s : State) {b : BootInfo} (h : b.flashOk = false) : (bootFlash s b).code = 0x01 := by
  simp only [bootFlash, h, Bool.false_eq_true, if_false]
  rw [foldl_bootImage_failed _ _ _ (by simp), bootImage_failed _ _ _ (by simp)]

/-- An element within the list, after its modification. -/
theorem getD_modify_same {α : Type} (l : List α) (f : α → α) {i : Nat} (d : α) (h : i < l.length) :
    (l.modify i f).getD i d = f (l.getD i d) := by
  simp [List.getD_eq_getElem?_getD, h]

/-- The first step that fails gives the code (R429, R431). -/
theorem recoveryCode_eq (s : State) (b : BootInfo) :
    recoveryCode s b = if (bootFlash s b).code ≠ 0 then (bootFlash s b).code else if b.hbmOk = false then 0x06
      else if b.d2dOk = false then 0x07 else if b.devno = 0xFFFF then 0x08 else if 1023 < b.accel.toNat then 0x09 else 0 := by
  simp [recoveryCode]

/-- Bring-up succeeds only with an accelerator ID in R429's range. -/
theorem accel_le_of_recoveryCode_zero {s : State} {b : BootInfo} (h : recoveryCode s b = 0) : b.accel.toNat ≤ 1023 := by
  rw [recoveryCode_eq] at h
  by_contra ha
  rw [if_pos (show 1023 < b.accel.toNat by omega)] at h
  split_ifs at h
  contradiction

/-! ### The package after a reset -/

theorem keptPlace_iff (cold : Bool) (a : Nat) :
    keptPlace cold a = true ↔ (2 ^ 56 ≤ a ∧ a < 2 ^ 57) ∨ (cold = false ∧ dumpBase ≤ a ∧ a < dumpBase + dumpSize) := by
  simp [keptPlace, and_assoc]

theorem memOk_resetState {s : State} (cold : Bool) (b : BootInfo) (h : MemOk s) : MemOk (resetState cold b s) :=
  (h.filter (fun p => keptPlace cold p.1) (fun p => keptPlace cold (16 * p.1)) (fun p => keptPlace cold (16 * p.1))).congr rfl rfl rfl

/-- A kept place keeps its byte, every other one reads 0 (R449, and the log's entries 4 and 64). -/
theorem byteAt_resetState {s : State} (cold : Bool) (b : BootInfo) (h : MemOk s) (a : Nat) :
    byteAt (resetState cold b s) a = if keptPlace cold a = true then byteAt s a else 0 :=
  mget_filter_key unlistedByte (keptPlace cold) a h.1

theorem resetState_status (cold : Bool) (b : BootInfo) (s : State) :
    (resetState cold b s).ctrl.status = if recoveryCode s b = 0 then 2 else 1 := by
  simp [resetState]

theorem resetState_serial (cold : Bool) (b : BootInfo) (s : State) :
    (resetState cold b s).serial = if recoveryCode s b = 1 then s.serial else s.serial + 1 := by
  simp [resetState]

/-- A reset whose steps all succeed: the control registers after reset, and the configuration record's numbers. -/
theorem resetState_ready {s : State} {b : BootInfo} (cold : Bool) (h : recoveryCode s b = 0) :
    (resetState cold b s).ctrl = Ctrl.reset ∧ (resetState cold b s).devno = b.devno ∧
      (resetState cold b s).accel.toNat = b.accel.toNat := by
  have ha := accel_le_of_recoveryCode_zero h
  refine ⟨by simp [resetState, h, Ctrl.reset], by simp [resetState, h], ?_⟩
  have e : (resetState cold b s).accel = b.accel.setWidth 10 := by simp [resetState, h]
  rw [e, BitVec.toNat_setWidth, Nat.mod_eq_of_lt (by omega)]

theorem deviceReset : Claim.DeviceReset := by
  refine ⟨fun s cold b hm => ?_, fun s b => ⟨bootFlash_unreadable s, fun sig old a x h => ⟨bootImage_unsigned sig old h,
    bootImage_rolledBack sig old h, fun hx hv hc hr => ?_⟩⟩⟩
  · refine ⟨resetState cold b s, rfl, memOk_resetState cold b hm,
      ⟨rfl, rfl, rfl, rfl, rfl, rfl, rfl, rfl, rfl, rfl, rfl, rfl, rfl, rfl, rfl, rfl, rfl, rfl⟩, rfl, fun a => ?_, ?_⟩
    · simp only [byteAt_resetState cold b hm, keptPlace_iff]
    · simp only [← recoveryCode_eq s b]
      exact ⟨rfl, resetState_status cold b s, rfl, rfl, resetState_serial cold b s, resetState_ready cold⟩
  · rw [bootImage_accepted sig old h hx hv]
    refine ⟨h, ?_, getD_modify_same _ _ _ hr, fun i hi => List.getElem?_modify_ne _ _ hi.symm,
      fun i hi => List.getElem?_modify_ne _ _ hi.symm⟩
    exact (getD_modify_same _ _ _ hc).trans (max_eq_right hv)

/-! ### A fatal error (R449) -/

/-- The package after a fatal error. -/
def fatalState (s : State) : State :=
  { s.putMem dumpBase (dumpBytes s) with freeN := s.freeN + 4152, dumped := true, stopped := true }

theorem exec_fatalError (s : State) : exec .fatalError s = .next (fatalState s) := rfl

/-- The dump begins with the valid flag, and above it the boot serial. -/
theorem dumpBytes_header (s : State) : ∃ r, dumpBytes s = natBytes 8 (1 + s.serial.toNat * 2 ^ 8) ++ r :=
  ⟨_, by simp only [dumpBytes, List.append_assoc]; rfl⟩

theorem natAt_fatalState (s : State) : natAt (fatalState s) dumpBase 8 = 1 + s.serial.toNat * 2 ^ 8 := by
  obtain ⟨r, hr⟩ := dumpBytes_header s
  have hmem : natAt (fatalState s) dumpBase 8 = natAt (s.putMem dumpBase (dumpBytes s)) dumpBase 8 := rfl
  have hserial := s.serial.isLt
  rw [hmem, hr, natAt_putMem_append, Nat.mod_eq_of_lt (by omega)]

/-- A stopped package takes no step but a reset. -/
theorem step_stopped {s : State} (hs : s.stopped = true) (h : ∀ c b l, s.agenda ≠ .reset c b :: l) : step s = .fault .stopped := by
  have hr : mayRun s = false := by
    unfold mayRun
    rw [hs]
    split
    · exact absurd ‹_› (h _ _ _)
    · rfl
  rw [step, hr]
  rfl

/-! ### An island's setting (R26, R444, R445) -/

/-- An island after firmware's request: set within its ceilings when its cores stand between clauses, else waiting. -/
def requestedIsland (s : State) (i mhz mv : Nat) (gate : Bool) (x : Island) : Island :=
  if betweenClauses s i then ⟨min mhz (Config.ceilMhz i), min mv (Config.ceilMv i), gate && !islandBusy s i, none⟩
  else { x with want := some (mhz, mv, gate) }

theorem exec_frequencyChange (s : State) (i mhz mv : Nat) (gate : Bool) :
    exec (.frequencyChange i mhz mv gate) s =
      .next { s with islands := s.islands.modify i (requestedIsland s i mhz mv gate) } := by
  have h : exec (.frequencyChange i mhz mv gate) s = .next (settleIsland
    { s with islands := s.islands.modify i (fun x => { x with want := some (mhz, mv, gate) }) } i) := rfl
  rw [h, settleIsland]
  simp only [List.modify_modify_eq]
  rfl

theorem requestedIsland_between {s : State} {i : Nat} (mhz mv : Nat) (gate : Bool) (x : Island) (h : betweenClauses s i = true) :
    requestedIsland s i mhz mv gate x = ⟨min mhz (Config.ceilMhz i), min mv (Config.ceilMv i), gate && !islandBusy s i, none⟩ :=
  if_pos h

theorem requestedIsland_inside {s : State} {i : Nat} (mhz mv : Nat) (gate : Bool) (x : Island) (h : betweenClauses s i = false) :
    requestedIsland s i mhz mv gate x = { x with want := some (mhz, mv, gate) } :=
  if_neg (by simp [h])

/-! ### An access that firmware may not make (R343, R444) -/

/-- The record of a refused access: kind 8, cause PRIV, unit kind 5 with the die, and the address. -/
def refusedRecord (die : Nat) (addr : Word) : ErrRec :=
  { ErrRec.zero with kind := 8, cause := Cause.priv.code, unitKind := 5, unit := die, va := addr.toNat % 2 ^ 56 }

theorem exec_firmwareRefused (s : State) (die : Nat) (addr : Word) : exec (.firmwareRefused die addr) s =
    .next (if die ≥ 4 || firmwareMay die addr.toNat then s else postRecord s (refusedRecord die addr)) := rfl

/-- With room in the buffer a record takes the next number. -/
theorem postRecord_room {s : State} (r : ErrRec) (h : s.errBuf.length < 1024) :
    postRecord s r = { s with errBuf := s.errBuf ++ [r.pack s.time (s.errSeq + 1)], errSeq := s.errSeq + 1 } :=
  if_neg (by omega)

theorem deviceEvents : Claim.DeviceEvents := by
  refine fun s island mhz mv die gate addr => ⟨?fatal, ?frequency, ?allowed, ?refused⟩
  case fatal => exact ⟨fatalState s, exec_fatalError s, rfl, rfl, natAt_fatalState s, fun h => step_stopped rfl h⟩
  case frequency =>
    refine ⟨_, exec_frequencyChange s island mhz mv gate, rfl, List.length_modify _ _ _,
      fun j hj => List.getElem?_modify_ne _ _ hj.symm, fun x hx => ⟨requestedIsland s island mhz mv gate x, ?_, fun h => ?_,
        requestedIsland_inside mhz mv gate x⟩⟩
    · simp [hx]
    · rw [requestedIsland_between mhz mv gate x h]
      exact ⟨min_le_left _ _, min_le_left _ _, rfl, fun hb => by simp [hb], fun hb => by simp [hb]⟩
  case allowed =>
    intro h
    rw [exec_firmwareRefused, if_pos (by simpa using h)]
  case refused =>
    intro hd hw hroom
    refine ⟨_, (refusedRecord die addr).pack s.time (s.errSeq + 1), exec_firmwareRefused s die addr, ?_⟩
    rw [if_neg (by simp [hw, hd]), postRecord_room _ hroom]

/-- Settles O51: bring-up's steps one by one and a filter of the canonical memory for RESET; each event's next state
written out for the events. -/
theorem deviceLife : Obligations.DeviceLife := ⟨deviceReset, deviceEvents⟩

end Sys2Proof.Machine
end

section
/-! SUPPORT. Scalar words bit by bit (R131): the shifts and rotations, the counts of SBIT, and the booleans. -/

namespace Sys2Proof.Machine

open Sys2Proof

/-! ### Bits of a scalar result -/

theorem readSB_eq (g : Group) (b : SB) : readSB g b = Claim.sb g b := by cases b <;> rfl

/-- A scalar word whose result is given bit by bit. -/
theorem completes_bits {i : Instr} {s : State} {c : Cur} {h : Head} {d : BitVec 6} {f : Group → Word} {v : Nat → Bool}
    (hi : exec i s = sWord s h d f) (hc : cur? s = some c) (hv : ∀ k, k < 64 → (f c.g).getLsbD k = v k) :
    ∃ z : Word, (∀ k, k < 64 → z.getLsbD k = v k) ∧ Completes i s c fun g' => WritesS c.g g' d.toNat z :=
  ⟨f c.g, hv, completes_sWord hi hc⟩

theorem completes_slog_bits {s : State} {c : Cur} {v : Nat → Bool} (h : Head) (f : LogF) (d a : BitVec 6) (b : SB)
    (hc : cur? s = some c) (hv : ∀ k, k < 64 → (logic 64 f (c.g.sreg a.toNat) (Claim.sb c.g b)).getLsbD k = v k) :
    ∃ z : Word, (∀ k, k < 64 → z.getLsbD k = v k) ∧ Completes (.slog h f d a b) s c fun g' => WritesS c.g g' d.toNat z :=
  completes_bits (f := fun g => logic 64 f (g.sreg a.toNat) (readSB g b)) rfl hc (by rw [readSB_eq]; exact hv)

theorem completes_ssh_bits {s : State} {c : Cur} {v : Nat → Bool} (h : Head) (f : ShF) (d a : BitVec 6) (b : SB)
    (hc : cur? s = some c) (hv : ∀ k, k < 64 → (shift 64 f (c.g.sreg a.toNat) (Claim.sb c.g b).toNat).getLsbD k = v k) :
    ∃ z : Word, (∀ k, k < 64 → z.getLsbD k = v k) ∧ Completes (.ssh h f d a b) s c fun g' => WritesS c.g g' d.toNat z :=
  completes_bits (f := fun g => shift 64 f (g.sreg a.toNat) (readSB g b).toNat) rfl hc (by rw [readSB_eq]; exact hv)

/-! ### Shifts and rotations of every width -/

section Shift

variable {w : Nat} (a : BitVec w) (n : Nat) {k : Nat}

theorem getLsbD_shift_shl (hk : k < w) : (shift w .shl a n).getLsbD k = (decide (n ≤ k) && a.getLsbD (k - n)) := by
  rw [shift]
  split_ifs with hn
  · simp [show ¬n ≤ k by omega]
  · have e : decide (n ≤ k) = !decide (k < n) := by rw [← decide_not, decide_eq_decide]; omega
    rw [BitVec.getLsbD_shiftLeft, e, decide_eq_true hk, Bool.true_and]

theorem getLsbD_shift_shr : (shift w .shr a n).getLsbD k = (decide (k + n < w) && a.getLsbD (k + n)) := by
  rw [shift]
  split_ifs with hn
  · simp [show ¬k + n < w by omega]
  · rw [BitVec.getLsbD_ushiftRight, Nat.add_comm n k]
    by_cases hk : k + n < w
    · rw [decide_eq_true hk, Bool.true_and]
    · rw [decide_eq_false hk, Bool.false_and, BitVec.getLsbD_of_ge a _ (by omega)]

theorem getLsbD_shift_sra (hk : k < w) : (shift w .sra a n).getLsbD k = a.getLsbD (min (w - 1) (k + n)) := by
  have hm : a.msb = a.getLsbD (w - 1) := BitVec.msb_eq_getLsbD_last a
  rw [shift]
  split_ifs with hn ha
  · rw [min_eq_left (by omega), ← hm, ha]
    simp [hk]
  · rw [min_eq_left (by omega), ← hm, Bool.eq_false_of_not_eq_true ha]
    simp
  · rw [BitVec.getLsbD_sshiftRight, decide_eq_false (by omega), Bool.not_false, Bool.true_and, Nat.add_comm n k]
    split_ifs with hb
    · rw [min_eq_right (by omega)]
    · rw [min_eq_left (by omega), hm]

theorem getLsbD_shift_rol (hk : k < w) : (shift w .rol a n).getLsbD k = a.getLsbD ((k + (w - n % w)) % w) := by
  have hr : n % w < w := Nat.mod_lt _ (by omega)
  rw [shift, BitVec.getLsbD_rotateLeft, Nat.mod_mod]
  generalize n % w = r at hr ⊢
  by_cases hb : k < r
  · rw [decide_eq_true hb, cond_true, Nat.add_comm, Nat.mod_eq_of_lt (by omega)]
  · rw [decide_eq_false hb, cond_false, decide_eq_true hk, Bool.true_and, show k + (w - r) = k - r + w by omega,
      Nat.add_mod_right, Nat.mod_eq_of_lt (by omega)]

theorem getLsbD_shift_ror (hk : k < w) : (shift w .ror a n).getLsbD k = a.getLsbD ((k + n) % w) := by
  have hr : n % w < w := Nat.mod_lt _ (by omega)
  rw [shift, BitVec.getLsbD_rotateRight, Nat.mod_mod, Nat.add_mod, Nat.mod_eq_of_lt hk]
  generalize n % w = r at hr ⊢
  by_cases hb : k < w - r
  · rw [decide_eq_true hb, cond_true, Nat.add_comm, Nat.mod_eq_of_lt (by omega)]
  · rw [decide_eq_false hb, cond_false, decide_eq_true hk, Bool.true_and, show k + r = k - (w - r) + w by omega,
      Nat.add_mod_right, Nat.mod_eq_of_lt (by omega)]

end Shift

theorem scalarLogicShift : Claim.ScalarLogicShift := by
  intro s c h d a b hc
  refine ⟨?and, ?or, ?xor, ?andn, ?orn, ?xnor, ?shl, ?shr, ?sra, ?rol, ?ror⟩
  case and => exact completes_slog_bits h .and d a b hc fun k _ => by simp [logic]
  case or => exact completes_slog_bits h .or d a b hc fun k _ => by simp [logic]
  case xor => exact completes_slog_bits h .xor d a b hc fun k _ => by simp [logic]
  case andn => exact completes_slog_bits h .andn d a b hc fun k hk => by simp [logic, hk]
  case orn => exact completes_slog_bits h .orn d a b hc fun k hk => by simp [logic, hk]
  case xnor =>
    have hx : ∀ p q : Bool, (!(p ^^ q)) = (p == q) := by decide
    exact completes_slog_bits h .xnor d a b hc fun k hk => by
      rw [logic, BitVec.getLsbD_not, BitVec.getLsbD_xor, hx, decide_eq_true hk, Bool.true_and]
  case shl => exact completes_ssh_bits h .shl d a b hc fun k hk => getLsbD_shift_shl _ _ hk
  case shr => exact completes_ssh_bits h .shr d a b hc fun k _ => getLsbD_shift_shr _ _
  case sra => exact completes_ssh_bits h .sra d a b hc fun k hk => getLsbD_shift_sra _ _ hk
  case rol => exact completes_ssh_bits h .rol d a b hc fun k hk => getLsbD_shift_rol _ _ hk
  case ror => exact completes_ssh_bits h .ror d a b hc fun k hk => getLsbD_shift_ror _ _ hk

/-! ### The counts of SBIT, as recursions on the width -/

theorem popCount_eq (n x : Nat) : popCount n x = ((List.range n).filter (fun k => x.testBit k)).length := by
  induction n generalizing x with
  | zero => rfl
  | succ n ih =>
    have e : (fun k => (x / 2).testBit k) = (fun k => x.testBit k) ∘ Nat.succ := by
      funext k; exact (Nat.testBit_succ x k).symm
    rw [popCount, ih, List.range_succ_eq_map, List.filter_cons, List.filter_map, e, Nat.testBit_zero]
    rcases Nat.mod_two_eq_zero_or_one x with h | h <;> simp [h, Nat.add_comm]

theorem popCount_le (n x : Nat) : popCount n x ≤ n := by
  rw [popCount_eq]
  simpa using List.length_filter_le (fun k => x.testBit k) (List.range n)

theorem trailZeros_le (n x : Nat) : trailZeros n x ≤ n := by
  induction n generalizing x with
  | zero => exact le_refl 0
  | succ n ih =>
    rw [trailZeros]
    split
    · exact Nat.zero_le _
    · have := ih (x / 2)
      omega

/-- Below the count every bit is 0. -/
theorem testBit_of_lt_trailZeros {n x k : Nat} (h : k < trailZeros n x) : x.testBit k = false := by
  induction n generalizing x k with
  | zero => exact absurd h (Nat.not_lt_zero k)
  | succ n ih =>
    rw [trailZeros] at h
    split at h
    · exact absurd h (Nat.not_lt_zero k)
    next hx =>
      cases k with
      | zero => simpa [Nat.testBit_zero] using hx
      | succ k => rw [Nat.testBit_succ]; exact ih (by omega)

/-- At the count stands a 1, unless all `n` bits are 0. -/
theorem testBit_trailZeros {n x : Nat} (h : trailZeros n x < n) : x.testBit (trailZeros n x) = true := by
  induction n generalizing x with
  | zero => exact absurd h (Nat.not_lt_zero _)
  | succ n ih =>
    rw [trailZeros] at h ⊢
    split
    next hx => simpa [Nat.testBit_zero] using hx
    next hx =>
      rw [if_neg hx] at h
      rw [Nat.add_comm, Nat.testBit_succ]
      exact ih (by omega)

theorem reverseBits_lt (n x : Nat) : reverseBits n x < 2 ^ n := by
  induction n generalizing x with
  | zero => exact Nat.one_pos
  | succ n ih =>
    have h1 := ih (x / 2)
    have h2 : x % 2 * 2 ^ n ≤ 1 * 2 ^ n := Nat.mul_le_mul_right _ (by omega)
    rw [reverseBits, Nat.pow_succ]
    omega

theorem testBit_reverseBits {n x k : Nat} (h : k < n) : (reverseBits n x).testBit k = x.testBit (n - 1 - k) := by
  induction n generalizing x k with
  | zero => exact absurd h (Nat.not_lt_zero k)
  | succ n ih =>
    rw [reverseBits, Nat.mul_comm, Nat.testBit_two_pow_mul_add _ (reverseBits_lt n _)]
    by_cases hk : k < n
    · rw [if_pos hk, ih hk, ← Nat.testBit_succ, show (n - 1 - k).succ = n + 1 - 1 - k by omega]
    · obtain rfl : k = n := by omega
      simp [Nat.testBit_zero]

/-- Above the count's complement every bit is 0. -/
theorem testBit_of_leadZeros {n x k : Nat} (h : n - leadZeros n x ≤ k) (hk : k < n) : x.testBit k = false := by
  have hr : (reverseBits n x).testBit (n - 1 - k) = false := testBit_of_lt_trailZeros (n := n) (by unfold leadZeros at h; omega)
  rwa [testBit_reverseBits (by omega), show n - 1 - (n - 1 - k) = k by omega] at hr

theorem testBit_leadZeros {n x : Nat} (h : leadZeros n x < n) : x.testBit (n - 1 - leadZeros n x) = true := by
  rw [← testBit_reverseBits h]
  exact testBit_trailZeros h

theorem completes_count {s : State} {c : Cur} {f : SBitF} {n : Nat} (h : Head) (d a : BitVec 6) (hc : cur? s = some c)
    (hn : scalarBit c.g f (c.g.sreg d.toNat) (c.g.sreg a.toNat) .none = BitVec.ofNat 64 n) :
    Completes (.sbit h f d a .none) s c fun g' => WritesS c.g g' d.toNat (BitVec.ofNat 64 n) := by
  rw [← hn]
  exact completes_sWord (f := fun g => scalarBit g f (g.sreg d.toNat) (g.sreg a.toNat) .none) rfl hc

/-- A count of at most 64 is not cut by the register's width. -/
theorem toNat_ofNat_count {n : Nat} (h : n ≤ 64) : (BitVec.ofNat 64 n).toNat = n := by
  rw [BitVec.toNat_ofNat, Nat.mod_eq_of_lt (by omega)]

theorem scalarCounts : Claim.ScalarCounts := by
  intro s c h d a hc
  let x := (c.g.sreg a.toNat).toNat
  have hp := toNat_ofNat_count (popCount_le 64 x)
  have hl := toNat_ofNat_count (show leadZeros 64 x ≤ 64 from trailZeros_le 64 _)
  have ht := toNat_ofNat_count (trailZeros_le 64 x)
  refine ⟨⟨BitVec.ofNat 64 (popCount 64 x), ?popc, completes_count h d a hc rfl⟩,
    ⟨BitVec.ofNat 64 (leadZeros 64 x), ?clz⟩, ⟨BitVec.ofNat 64 (trailZeros 64 x), ?ctz⟩,
    BitVec.ofNat 64 (reverseBits 64 x), ?brev, completes_count h d a hc rfl⟩
  case popc => exact hp.trans (popCount_eq 64 x)
  case clz =>
    rw [hl]
    exact ⟨trailZeros_le 64 _, fun k => testBit_of_leadZeros, testBit_leadZeros, completes_count h d a hc rfl⟩
  case ctz =>
    rw [ht]
    exact ⟨trailZeros_le 64 _, fun k => testBit_of_lt_trailZeros, testBit_trailZeros, completes_count h d a hc rfl⟩
  case brev =>
    intro k hk
    rw [BitVec.getLsbD_ofNat, decide_eq_true hk, Bool.true_and, testBit_reverseBits hk]
    rfl

/-! ### Booleans -/

/-- A boolean word whose result holds as a relation does. -/
theorem completes_relation {i : Instr} {s : State} {c : Cur} {h : Head} {q : Nat} {f : Group → Bool} {z : Prop}
    (hi : exec i s = regWord s h fun _ g => g.setQ q (f g)) (hc : cur? s = some c) (hz : f c.g = true ↔ z) (w : Bool)
    (hw : w = true ↔ z) : Completes i s c fun g' => WritesQ c.g g' q w := by
  rw [show w = f c.g from Bool.eq_iff_iff.mpr (hw.trans hz.symm)]
  exact completes_qWord hi hc

theorem completes_scmp {s : State} {c : Cur} {z : Prop} (h : Head) (f : SCmpF) (q : BitVec 3) (a : BitVec 6) (b : SB)
    (hc : cur? s = some c) (hz : scalarCmp f (c.g.sreg a.toNat) (Claim.sb c.g b) = true ↔ z) (w : Bool) (hw : w = true ↔ z) :
    Completes (.scmp h f q a b) s c fun g' => WritesQ c.g g' q.toNat w :=
  completes_relation (f := fun g => scalarCmp f (g.sreg a.toNat) (readSB g b)) rfl hc (by rw [readSB_eq]; exact hz) w hw

theorem completes_qlog {s : State} {c : Cur} {z : Prop} (h : Head) (f : QLogF) (q m n : BitVec 3) (hc : cur? s = some c)
    (hz : qLogic f (c.g.bool m.toNat) (c.g.bool n.toNat) = true ↔ z) (w : Bool) (hw : w = true ↔ z) :
    Completes (.qlog h f q m n) s c fun g' => WritesQ c.g g' q.toNat w :=
  completes_relation (f := fun g => qLogic f (g.bool m.toNat) (g.bool n.toNat)) rfl hc hz w hw

theorem scalarBooleans : Claim.ScalarBooleans := by
  intro s c h a b q m n hc
  refine ⟨?eq, ?ne, ?lt, ?le, ?gt, ?ge, ?nlt, ?nle, ?ngt, ?nge, ?and, ?or, ?xor, ?not, ?mov⟩
  case eq => exact completes_scmp h .eq q a b hc (by simp [scalarCmp])
  case ne => exact completes_scmp h .ne q a b hc (by simp [scalarCmp])
  case lt => exact completes_scmp h .lt q a b hc (by simp [scalarCmp])
  case le => exact completes_scmp h .le q a b hc (by simp [scalarCmp])
  case gt => exact completes_scmp h .gt q a b hc (by simp [scalarCmp])
  case ge => exact completes_scmp h .ge q a b hc (by simp [scalarCmp])
  case nlt => exact completes_scmp h .nlt q a b hc (by simp [scalarCmp])
  case nle => exact completes_scmp h .nle q a b hc (by simp [scalarCmp])
  case ngt => exact completes_scmp h .ngt q a b hc (by simp [scalarCmp])
  case nge => exact completes_scmp h .nge q a b hc (by simp [scalarCmp])
  case and => exact completes_qlog h .and q m n hc (by simp [qLogic])
  case or => exact completes_qlog h .or q m n hc (by simp [qLogic])
  case xor => exact completes_qlog h .xor q m n hc (by simp [qLogic])
  case not => exact completes_qlog h .not q m n hc (by simp [qLogic])
  case mov => exact completes_qlog h .mov q m n hc (by simp [qLogic])

/-- Settles O4: each result bit by bit, the counts by recursion on the width, and the booleans as relations. -/
theorem scalarBitsAndBooleans : Obligations.ScalarBitsAndBooleans := ⟨scalarLogicShift, scalarCounts, scalarBooleans⟩

end Sys2Proof.Machine
end

section
/-! SUPPORT. The words of floating point, of conversions, across lanes, of tags and of the slate that go on: each comes to
`finish` in a state that is on course. -/

namespace Sys2Proof.Machine

open Sys2Proof

/-! ### The word of the issuing group -/

/-- What `exec` answers for a word of the current group, once the word's own case is known. -/
theorem exec_onCur {i : Instr} {s t : State} {c : Cur} {f : Cur → State} (hi : exec i s = onCur s f) (hc : cur? s = some c)
    (ht : f c = t) : exec i s = .next t := by
  rw [hi, onCur, hc, ← ht]

/-! ### Fixed-latency words -/

section Fixed

variable {s : State} {c : Cur} {h : Head} {t : VType} {vd : BitVec 8} {a b : Src} {y : VB}

theorem goesOn_fminmax (hc : cur? s = some c) (hv : c.vOk vd.toNat (VType.isF64 t) = true) (ha : c.srcOk t a = true)
    (hy : c.vbOk t y = true) (f : FMinMaxF) : GoesOn (.fminmax h f t vd a y) s c :=
  goesOn_fixedWord (ok := fun c => c.vOk vd.toNat (VType.isF64 t) && c.srcOk t a && c.vbOk t y) hc (by simp [hv, ha, hy]) rfl

theorem goesOn_fcls (hc : cur? s = some c) (ha : c.srcOk t a = true) (p : BitVec 3) (mask : BitVec 10) :
    GoesOn (.fcls h t p a mask) s c :=
  goesOn_fixedWord (ok := fun c => c.srcOk t a) hc ha rfl

theorem goesOn_fcmp (hc : cur? s = some c) (ha : c.srcOk t a = true) (hy : c.vbOk t y = true) (f : FCmpF) (p : BitVec 3) :
    GoesOn (.fcmp h f t p a y) s c :=
  goesOn_fixedWord (ok := fun c => c.srcOk t a && c.vbOk t y) hc (by simp [ha, hy]) rfl

theorem goesOn_rng (hc : cur? s = some c) (hv : c.vOk vd.toNat false = true) (f : RngF) : GoesOn (.rng h f vd) s c :=
  ((OnCourse.base hc).draws (c.active h)).fixed ⟨_, exec_onCur rfl hc (if_pos hv)⟩

end Fixed

/-! ### Monitored words (R105) -/

theorem struck_of_unhit {s : State} {core lane : Nat} (hu : ∀ u ∈ s.upsets, u.matrix = true ∨ u.core ≠ core ∨ u.lane ≠ lane)
    (i : Nat) (e : MonElem) : struck s core lane i e = e := by
  have hf : s.upsets.find? (fun u => !u.matrix && u.core == core && u.lane == lane && u.elem == i) = none := by
    rw [List.find?_eq_none]
    intro u hm
    rcases hu u hm with h | h | h <;> simp [h]
  simp [struck, upsetMask, hf]

/-- No hardware error strikes the lane: its elements are as the unit formed them. -/
theorem strike_of_unhit {s : State} {core : Nat} {l : MonLane}
    (hu : ∀ u ∈ s.upsets, u.matrix = true ∨ u.core ≠ core ∨ u.lane ≠ l.lane) : strike s core l = l := by
  have e : struck s core l.lane = fun _ e => e := by
    funext i e
    exact struck_of_unhit hu i e
  simp [strike, e, List.mapIdx_eq_zipIdx_map]

/-- In a word that no error strikes, the lanes are as formed and every one passes its check. -/
theorem strike_lanes_of_unstruck {s s1 : State} {c : Cur} {h : Head} {lane : Nat → MonLane} (hl : ∀ k, (lane k).lane = k)
    (hu : Claim.unstruck s c h lane) (hs : s1.upsets = s.upsets) :
    ((lanesOf (c.active h)).map lane).map (strike s1 c.t.core) = (lanesOf (c.active h)).map lane ∧
    ∀ l ∈ (lanesOf (c.active h)).map lane, badElem l = none := by
  obtain ⟨hit, good⟩ := hu
  refine ⟨?_, fun l hm => ?_⟩
  · rw [List.map_map]
    refine List.map_congr_left fun k hk => strike_of_unhit fun u hm => ?_
    rw [hl]
    refine (hit u (hs ▸ hm)).imp_right (Or.imp_right fun hn e => ?_)
    rw [e, (lanesOf_mem.mp hk).2] at hn
    contradiction
  · obtain ⟨k, hk, rfl⟩ := List.mem_map.mp hm
    exact good k (lanesOf_mem.mp hk).2

theorem OnCourse.writes {s : State} {c : Cur} (hr : OnCourse s c) (n : Nat) (ws : List RegW) :
    OnCourse (c.mod s fun g => Group.writes n g ws) c :=
  hr.mod _ (writes_grp n ws) (writes_keep n ws)

theorem OnCourse.bornHandle {s : State} {c : Cur} (hr : OnCourse s c) (r : GRef) (site : Word) (ws : List RegW) :
    OnCourse (bornHandle s r site ws).2 c := by
  obtain ⟨ro, e, -⟩ := bornHandle_spec s r site ws
  exact hr.congr (by rw [e])

/-- A monitored word that no error strikes is done in every lane. -/
theorem OnCourse.monitored {s s1 : State} {c : Cur} {h : Head} {lane : Nat → MonLane} (hr : OnCourse s1 c)
    (hl : ∀ k, (lane k).lane = k) (hu : Claim.unstruck s c h lane) (hs : s1.upsets = s.upsets) (major kind : Nat)
    (draws : Bool) (out : MonLane → List RegW) :
    ∃ t, OnCourse t c ∧ monitored s1 c h major kind draws ((lanesOf (c.active h)).map lane) out = finish t c h := by
  obtain ⟨hstrike, hgood⟩ := strike_lanes_of_unstruck hl hu hs
  have hbad : ((lanesOf (c.active h)).map lane).filter (fun l => (badElem l).isSome) = [] :=
    List.filter_eq_nil_iff.mpr fun l hm => by simp [hgood l hm]
  simp only [Machine.monitored, hstrike, hbad]
  refine ⟨_, OnCourse.writes ?_ _ _, rfl⟩
  have hspent := ((hr.bornHandle c.ref c.n.pc (((lanesOf (c.active h)).map lane).flatMap out)).congr
    (t := spendUpsets _ c.t.core (c.active h)) rfl)
  split
  · exact hspent.draws _
  · exact hspent

theorem goesOn_monitored {i : Instr} {s s1 : State} {c : Cur} {h : Head} {lane : Nat → MonLane} {major kind : Nat} {draws : Bool}
    {out : MonLane → List RegW} (hr : OnCourse s1 c) (hl : ∀ k, (lane k).lane = k) (hu : Claim.unstruck s c h lane)
    (hs : s1.upsets = s.upsets)
    (hi : exec i s = .next (monitored s1 c h major kind draws ((lanesOf (c.active h)).map lane) out)) : GoesOn i s c := by
  obtain ⟨t, ht, e⟩ := hr.monitored hl hu hs major kind draws out
  exact ht.done (hi.trans (by rw [e]))

/-- A word monitored in the state in which it is issued. -/
theorem goesOn_monitored_now {i : Instr} {s : State} {c : Cur} {h : Head} {lane : Nat → MonLane} {major kind : Nat}
    {draws : Bool} {out : MonLane → List RegW} (hc : cur? s = some c) (hl : ∀ k, (lane k).lane = k)
    (hu : Claim.unstruck s c h lane)
    (hi : exec i s = .next (monitored s c h major kind draws ((lanesOf (c.active h)).map lane) out)) : GoesOn i s c :=
  goesOn_monitored (OnCourse.base hc) hl hu rfl hi

section Monitored

variable {s : State} {c : Cur} {h : Head} {t : VType} {vd : BitVec 8} {a b x : Src} {y : VB} {m : FMod}

/-- FADD, FSUB and FMUL. -/
theorem goesOn_fpAB {i : Instr} {major kind : Nat} {op : FpOp} (hi : exec i s = fpAB s h major kind op t vd a y m)
    (hc : cur? s = some c) (hv : c.vOk vd.toNat (VType.isF64 t) = true) (ha : c.srcOk t a = true) (hy : c.vbOk t y = true)
    (hu : Claim.unstruck s c h (fun k => fpLane s c t m op k [readSrc c.g t a k, readVB c.g t y k])) : GoesOn i s c :=
  goesOn_monitored_now hc (fun _ => rfl) hu (exec_onCur hi hc (if_pos (by simp [hv, ha, hy])))

theorem goesOn_ffma (hc : cur? s = some c) (hv : c.vOk vd.toNat (VType.isF64 t) = true) (ha : c.srcOk t a = true)
    (hb : c.srcOk t b = true) (hx : c.srcOk t x = true) (f : FmaF)
    (hu : Claim.unstruck s c h (fun k => fpLane s c t m (fmaOp f) k [readSrc c.g t a k, readSrc c.g t b k, readSrc c.g t x k])) :
    GoesOn (.ffma h f t vd a b x m) s c :=
  goesOn_monitored_now hc (fun _ => rfl) hu (exec_onCur rfl hc (if_pos (by simp [hv, ha, hb, hx])))

theorem goesOn_fdot (hc : cur? s = some c) (hv : c.vOk vd.toNat false = true) (ha : c.srcOk .i32 a = true)
    (hb : c.srcOk .i32 b = true) (hx : c.srcOk .f32 x = true) (f : FDotF) (hu : Claim.unstruck s c h (dotLane s c f m a b x)) :
    GoesOn (.fdot h f vd a b x m) s c :=
  goesOn_monitored_now hc (fun _ => rfl) hu (exec_onCur rfl hc (if_pos (by simp [hv, ha, hb, hx])))

end Monitored

/-! ### Words of the queues (R81) -/

section Queues

variable {s : State} {c : Cur} {h : Head} {t : VType} {vd dst src : BitVec 8} {a b : Src} {m : FMod}

theorem goesOn_sfu (hc : cur? s = some c) (hq : resultGate c .sfu = none) (hv : c.vOk vd.toNat false = true)
    (ha : c.srcOk .f32 a = true) (f : SfuF) (hb : f = .div → c.srcOk .f32 b = true) (ftz : Bool) :
    GoesOn (.sfu h f vd a b ftz) s c := by
  refine (OnCourse.base hc).result hq ⟨_, exec_onCur rfl hc (if_pos ?_)⟩
  by_cases hf : f = .div
  · simp [hv, ha, hb hf]
  · simp [hv, ha, hf]

theorem goesOn_cvt (hc : cur? s = some c) (hq : resultGate c .cvt = none) (hv : c.vOk vd.toNat (fmtWidth dst == 64) = true)
    (ha : c.fmtOk src a = true) : GoesOn (.cvt h dst vd a src m) s c :=
  (OnCourse.base hc).cvt hq ⟨_, exec_onCur rfl hc (if_pos (by simp only [hv, ha, Bool.and_self]))⟩

theorem goesOn_cvtx (hc : cur? s = some c) (hq : resultGate c .cvt = none) (hv : c.vOk vd.toNat (fmtWidth dst == 64) = true)
    (ha : c.srcOk .i32 a = true) (hb : c.srcOk .n32 b = true) : GoesOn (.cvtx h dst vd a b src m) s c :=
  (OnCourse.base hc).cvt hq ⟨_, exec_onCur rfl hc (if_pos (by simp only [hv, ha, hb, Bool.and_self]))⟩

theorem goesOn_cvtp (hc : cur? s = some c) (hq : resultGate c .cvt = none) (hv : c.vOk vd.toNat false = true)
    (ha : c.fmtOk src a = true) (hb : c.fmtOk src b = true) (rnd : Rnd) (hi sat : Bool) :
    GoesOn (.cvtp h dst vd a b src rnd hi sat) s c :=
  (OnCourse.base hc).cvt hq ⟨_, exec_onCur rfl hc (if_pos (by simp only [hv, ha, hb, Bool.and_self]))⟩

theorem goesOn_fscl_apply (hc : cur? s = some c) (hq : resultGate c .cvt = none) (hv : c.vOk vd.toNat false = true)
    (ha : c.srcOk t a = true) (hb : c.srcOk t b = true) : GoesOn (.fscl h (.apply t b m) vd a) s c :=
  (OnCourse.base hc).cvt hq ⟨_, exec_onCur rfl hc (if_pos (by simp only [hv, ha, hb, Bool.and_self]))⟩

theorem goesOn_fscl_comp (hc : cur? s = some c) (hq : resultGate c .cvt = none) (hv : c.vOk vd.toNat false = true)
    (ha : c.srcOk .f32 a = true) (f : BitVec 3) : GoesOn (.fscl h (.comp f) vd a) s c :=
  (OnCourse.base hc).cvt hq ⟨_, exec_onCur rfl hc (if_pos (by simp only [hv, ha, Bool.and_self]))⟩

end Queues

theorem floatForms : Claim.FloatForms := by
  intro s c h t vd dst src p a b x y m hc
  refine ⟨fun hv ha hy => ⟨?arith, goesOn_fminmax hc hv ha hy⟩, fun hv ha hb hx f => goesOn_ffma hc hv ha hb hx f,
    fun ha => ⟨goesOn_fcls hc ha p, fun hy f => goesOn_fcmp hc ha hy f p⟩,
    fun hv => ⟨goesOn_rng hc hv, fun f ha hb hx => goesOn_fdot hc hv ha hb hx f,
      fun hq ha f hb => goesOn_sfu hc hq hv ha f hb m.ftz⟩,
    fun hq => ⟨fun hv => ⟨goesOn_cvt hc hq hv, goesOn_cvtx hc hq hv⟩,
      fun hv => ⟨fun ha hb hi => goesOn_cvtp hc hq hv ha hb m.rnd hi m.sat, goesOn_fscl_apply hc hq hv, goesOn_fscl_comp hc hq hv⟩⟩⟩
  intro q hq hu
  simp only [List.mem_cons, List.not_mem_nil, or_false] at hq
  rcases hq with rfl | rfl | rfl
  case inl => exact goesOn_fpAB (major := 0x30) (kind := 0) rfl hc hv ha hy hu
  case inr.inl => exact goesOn_fpAB (major := 0x31) (kind := 0) rfl hc hv ha hy hu
  case inr.inr => exact goesOn_fpAB (major := 0x32) (kind := 1) rfl hc hv ha hy hu

/-! ### Words across lanes and of tags -/

section Lanes

variable {s : State} {c : Cur} {h : Head} {t : VType} {vd : BitVec 8} {a b x : Src}

theorem goesOn_vmatch (hc : cur? s = some c) (hv : maskDestOk c vd = true) (ha : c.srcOk .n32 a = true) :
    GoesOn (.vmatch h vd a) s c :=
  goesOn_fixedWord (ok := fun c => maskDestOk c vd && c.srcOk .n32 a) hc (by simp [hv, ha]) rfl

theorem goesOn_vbal (hc : cur? s = some c) (hv : maskDestOk c vd = true) (ha : c.srcOk .n32 a = true)
    (hb : c.srcOk .n32 b = true) : GoesOn (.vbal h vd a b) s c :=
  goesOn_fixedWord (ok := fun c => maskDestOk c vd && c.srcOk .n32 a && c.srcOk .n32 b) hc (by simp [hv, ha, hb]) rfl

theorem goesOn_vvote (hc : cur? s = some c) (f : VoteF) (hv : f ≠ .count ∨ c.vOk vd.toNat false = true) (p : BitVec 3) :
    GoesOn (.vvote h f vd p) s c :=
  goesOn_fixedWord (ok := fun c => f != .count || c.vOk vd.toNat false) hc (by simpa using hv) rfl

theorem goesOn_vlane_ins (hc : cur? s = some c) (hv : c.vOk vd.toNat (VType.isF64 t) = true) :
    GoesOn (.vlane h .ins t vd a b) s c :=
  goesOn_fixedWord (ok := fun c => if VLaneF.ins == .ext then c.srcOk .n32 a else c.vOk vd.toNat (VType.isF64 t)) hc hv rfl

theorem goesOn_vlane_ext (hc : cur? s = some c) (ha : c.srcOk .n32 a = true) : GoesOn (.vlane h .ext t vd a b) s c :=
  goesOn_fixedWord (ok := fun c => if VLaneF.ext == .ext then c.srcOk .n32 a else c.vOk vd.toNat (VType.isF64 t)) hc ha rfl

theorem goesOn_vshfl (hc : cur? s = some c) (hv : c.vOk vd.toNat (VType.isF64 t) = true) (ha : c.srcOk t a = true)
    (hb : c.srcOk .n32 b = true) (f : ShflF) : GoesOn (.vshfl h f t vd a b) s c :=
  goesOn_fixedWord (ok := fun c => c.vOk vd.toNat (VType.isF64 t) && c.srcOk t a && c.srcOk .n32 b) hc
    (by simp [hv, ha, hb]) rfl

theorem goesOn_vxch (hc : cur? s = some c) (hv : c.vOk vd.toNat false = true) (ha : c.srcOk .n32 a = true)
    (hb : c.srcOk .n32 b = true) : GoesOn (.vxch h vd a b x) s c :=
  goesOn_fixedWord (ok := fun c => c.vOk vd.toNat false && c.srcOk .n32 a && c.srcOk .n32 b) hc (by simp [hv, ha, hb]) rfl

theorem goesOn_vreduce (hc : cur? s = some c) (hv : c.vOk vd.toNat false = true) (ha : c.srcOk t a = true) (f : RedF)
    (m : FMod) : GoesOn (.vreduce h f t vd a m) s c :=
  goesOn_fixedWord (ok := fun c => c.vOk vd.toNat false && c.srcOk t a) hc (by simp [hv, ha]) rfl

theorem goesOn_vscan (hc : cur? s = some c) (hv : c.vOk vd.toNat false = true) (ha : c.srcOk t a = true) (f : ScanF)
    (sat : Bool) : GoesOn (.vscan h f t vd a sat) s c :=
  goesOn_fixedWord (ok := fun c => c.vOk vd.toNat false && c.srcOk t a) hc (by simp [hv, ha]) rfl

theorem goesOn_tget (hc : cur? s = some c) (hv : c.vOk vd.toNat false = true) (ha : c.srcOk .i32 a = true) :
    GoesOn (.tget h vd a) s c :=
  goesOn_fixedWord (ok := fun c => c.vOk vd.toNat false && c.srcOk .i32 a) hc (by simp [hv, ha]) rfl

theorem goesOn_tset (hc : cur? s = some c) (hv : c.vOk vd.toNat false = true) (f : TSetF)
    (hf : ∀ a, f = .reg a → c.srcOk .i32 a = true) : GoesOn (.tset h vd f) s c := by
  refine goesOn_fixedWord hc ?_ rfl
  cases f with
  | reg a => simp [hv, hf a rfl]
  | born => simp [hv]
  | clre => simp [hv]

/-- TCHK goes on when no active lane's source is exceptional. -/
theorem goesOn_tchk (hc : cur? s = some c) (ha : c.srcOk t a = true)
    (hx : ∀ k, k < 64 → (c.active h).getLsbD k = true → (srcOf c.g t a k).exc = false) : GoesOn (.tchk h t a) s c := by
  have hbad : (lanesOf (c.active h)).filter (fun i => (srcOf c.g t a i).exc) = [] :=
    List.filter_eq_nil_iff.mpr fun k hk => by
      obtain ⟨h64, hact⟩ := lanesOf_mem.mp hk
      simp [hx k h64 hact]
  exact (OnCourse.base hc).done (h := h) (exec_onCur rfl hc (by simp [ha, hbad]))

/-- TORG of handle 0 gives reason 0x50. -/
theorem goesOn_torg_zero (hc : cur? s = some c) (hq : resultGate c .none = none) (q : BitVec 3) (sd sa : BitVec 6)
    (hn : (c.g.sreg sa.toNat).setWidth 15 = 0) : GoesOn (.torg h q sd sa) s c := by
  have h0 : ((c.g.sreg sa.toNat).setWidth 16).toNat % 2 ^ 15 = 0 := by
    have := congrArg BitVec.toNat hn
    simp only [BitVec.toNat_setWidth, BitVec.ofNat_eq_ofNat, BitVec.toNat_ofNat] at this ⊢
    omega
  exact (OnCourse.base hc).result hq ⟨_, exec_onCur rfl hc (if_pos (by rw [h0]; rfl))⟩

end Lanes

theorem laneForms : Claim.LaneForms := by
  intro s c h t vd p q sd sa a b x m hc
  refine ⟨fun hv ha => ⟨goesOn_vmatch hc hv ha, goesOn_vbal hc hv ha⟩, fun f hv => goesOn_vvote hc f hv p,
    fun hv => ⟨goesOn_vlane_ins hc hv, goesOn_vshfl hc hv⟩, goesOn_vlane_ext hc, fun hv => ⟨goesOn_vxch hc hv,
      fun ha => ⟨fun f => goesOn_vreduce hc hv ha f m, fun f => goesOn_vscan hc hv ha f m.sat⟩,
      fun ha => ⟨goesOn_tget hc hv ha, goesOn_tset hc hv _ ?_⟩, goesOn_tset hc hv _ ?_, goesOn_tset hc hv _ ?_⟩,
    goesOn_tchk hc, fun hq hn => goesOn_torg_zero hc hq q sd sa hn⟩
  · rintro _ ⟨rfl⟩; exact ha
  · rintro _ ⟨⟩
  · rintro _ ⟨⟩

/-! ### The slate (R369, R372, R373) -/

theorem OnCourse.slate {s : State} {c : Cur} (hr : OnCourse s c) (f : Slate → Slate) : OnCourse (c.slate s f) c :=
  hr.mod _ (fun _ => rfl) fun _ => ⟨rfl, rfl⟩

/-- With room on chip a push goes on at once. -/
theorem withPush_room {s : State} {c : Cur} (h : Head) (mark : BitVec 16) (fmt : BitVec 8) (op : Nat) (es : List Word)
    (k : State → State) (hroom : c.g.slate.chip.length < chipCap c.l.kernel) :
    ∃ f, withPush s c h mark fmt op es k = k (c.slate s f) :=
  ⟨_, if_pos hroom⟩

/-- With room on chip, and nothing to replay, the frame of a forward form is pushed. -/
theorem withFrame_room {s : State} {c : Cur} (h : Head) (fmt : BitVec 8) (op : Nat) (ls : List FwdLane) (bad : Mask)
    (k : State → State) (hroom : c.g.slate.chip.length < chipCap c.l.kernel) (hp : replayOf c = none) :
    ∃ f f', withFrame s c h fmt op ls bad k = k (c.slate (c.slate s f) f') := by
  obtain ⟨f, e⟩ := withPush_room (s := s) h 0 fmt op (entriesOf c.width ls) (fun s => k (c.slate s fun x => { x with
    shadow := x.shadow.filter (fun p => p.1 != c.n.pc) ++
      (if bad == 0 then [] else [(c.n.pc, c.g.slate.pushes + 1, bad)]) })) hroom
  exact ⟨f, _, by simp only [withFrame, hp]; exact e⟩

/-- A pop with a frame on chip takes the newest. -/
theorem withNewest_chip {s : State} {c : Cur} (h : Head) (k : State → Frame → State) {f : Frame} {rest : List Frame}
    (hf : c.g.slate.chip = f :: rest) : withNewest s c h k = k s f := by
  simp only [withNewest, hf]

section Forward

variable {i : Instr} {s : State} {c : Cur} {h : Head} {vd : BitVec 8} {a b : Src} {rnd : Rnd}

theorem goesOn_fwdMonitored {major kind opn : Nat} {op : FpOp} {keep : Nat → Nat → Nat → KeptBits} (hc : cur? s = some c)
    (hroom : c.g.slate.chip.length < chipCap c.l.kernel) (hp : replayOf c = none)
    (hu : Claim.unstruck s c h (fun k => fpLane s c .f32 ⟨rnd, false, false⟩ op k [readSrc c.g .f32 a k, readSrc c.g .f32 b k]))
    (hi : exec i s = .next (fwdMonitored s c h vd a b rnd major kind opn op keep)) : GoesOn i s c := by
  unfold fwdMonitored at hi
  obtain ⟨f, f', e⟩ := withFrame_room (s := s) h 0x02 opn _ _ _ hroom hp
  rw [e] at hi
  exact goesOn_monitored (((OnCourse.base hc).slate f).slate f') (fun _ => rfl) hu rfl hi

theorem goesOn_fwdPlain {fmt : BitVec 8} {opn : Nat} {srcs : Nat → List TSrc} {f : Nat → Nat × Bool × KeptBits}
    (hc : cur? s = some c) (hroom : c.g.slate.chip.length < chipCap c.l.kernel) (hp : replayOf c = none)
    (hi : exec i s = .next (fwdPlain s c h vd a fmt opn rnd srcs f)) : GoesOn i s c := by
  unfold fwdPlain at hi
  obtain ⟨p, p', e⟩ := withFrame_room (s := s) h fmt opn _ _ _ hroom hp
  rw [e] at hi
  exact ((((OnCourse.base hc).slate p).slate p').drawn h rnd).fixed ⟨_, hi⟩

/-- An undo form with its frame on chip. -/
theorem goesOn_undoWord {fmt : BitVec 8} {op : Nat} {exc : Nat → Word → Nat → Bool} {z : Nat → Nat → Nat} {f : Frame}
    {rest : List Frame} (hc : cur? s = some c) (hq : resultGate c .none = none) (hf : c.g.slate.chip = f :: rest)
    (hw : headWidth f.head = widthCode c.width) (ho : headOp f.head = op) (hm : headFmt f.head = fmt)
    (hi : exec i s = .next (undoWord s c h vd fmt op exc z)) : GoesOn i s c := by
  simp only [undoWord, hq, withNewest_chip h _ hf, hw, ho, hm, bne_self_eq_false, Bool.or_self, Bool.false_eq_true,
    if_false] at hi
  exact ((OnCourse.base hc).slate _).result hq ⟨_, hi⟩

/-- SLMARK with room on chip. -/
theorem goesOn_slmark (hc : cur? s = some c) (hroom : c.g.slate.chip.length < chipCap c.l.kernel) (id : BitVec 16) :
    GoesOn (.slmark h id) s c := by
  obtain ⟨f, e⟩ := withPush_room (s := s) h id 0 15 (List.replicate c.width 0) (fun s => finish s c h) hroom
  exact ((OnCourse.base hc).slate f).done (exec_onCur rfl hc e)

/-- SLDROP with its marker on chip. -/
theorem goesOn_sldrop (hc : cur? s = some c) (id : BitVec 16)
    (hm : ∃ f ∈ c.g.slate.chip, headOp f.head = 15 ∧ headMark f.head = id) : GoesOn (.sldrop h id) s c := by
  obtain ⟨f, hf, ho, hid⟩ := hm
  obtain ⟨j, hj⟩ : ∃ j, c.g.slate.chip.findIdx? (fun f => isMark id f.head) = some j := by
    rw [← Option.isSome_iff_exists, List.findIdx?_isSome, List.any_eq_true]
    exact ⟨f, hf, by simp [isMark, ho, hid]⟩
  exact ((OnCourse.base hc).slate fun x => { x with chip := x.chip.drop (j + 1) }).done (h := h)
    (exec_onCur rfl hc (by simp only [hj]))

theorem goesOn_sldepth (hc : cur? s = some c) (hq : resultGate c .none = none) (d : BitVec 6) : GoesOn (.sldepth h d) s c :=
  (OnCourse.base hc).result hq ⟨_, exec_onCur rfl hc rfl⟩

end Forward

theorem reversibleForms : Claim.ReversibleForms := by
  intro s c h vd fmt a b rnd sat id d hc
  refine ⟨fun hv ha hroom hp => ⟨fun hb => ⟨?forward, ?mulInt⟩, ?nar, ?max0⟩, ?undo,
    fun hroom => goesOn_slmark hc hroom id, goesOn_sldrop hc id, fun hq => goesOn_sldepth hc hq d⟩
  case forward =>
    intro q hq hu
    simp only [List.mem_cons, List.not_mem_nil, or_false] at hq
    rcases hq with rfl | rfl
    · exact goesOn_fwdMonitored hc hroom hp hu (exec_onCur rfl hc (by simp [hv, ha, hb]; rfl))
    · exact goesOn_fwdMonitored hc hroom hp hu (exec_onCur rfl hc (if_pos (by simp [hv, ha, hb])))
  case mulInt =>
    have ha' : c.srcOk .i32 a = true := ha
    have hb' : c.srcOk .i32 b = true := hb
    exact goesOn_fwdPlain hc hroom hp (exec_onCur rfl hc (by simp [hv, ha', hb']; rfl))
  case nar => exact goesOn_fwdPlain hc hroom hp (exec_onCur rfl hc (if_pos (by simp [hv, ha])))
  case max0 => exact goesOn_fwdPlain hc hroom hp (exec_onCur rfl hc (if_pos (by simp [hv, ha])))
  case undo =>
    intro f rest hf hv ha hb hq hw q hm ho hfm
    have ha' : c.srcOk .i32 a = true := ha
    have hb' : c.srcOk .i32 b = true := hb
    simp only [List.mem_cons, List.not_mem_nil, or_false] at hm
    rcases hm with rfl | rfl | rfl | rfl | rfl
    · exact goesOn_undoWord hc hq hf hw ho hfm (exec_onCur rfl hc (by simp [hv, ha, hb]; rfl))
    · exact goesOn_undoWord hc hq hf hw ho hfm (exec_onCur rfl hc (by simp [hv, ha', hb']; rfl))
    · exact goesOn_undoWord hc hq hf hw ho hfm (exec_onCur rfl hc (if_pos (by simp [hv, ha, hb])))
    · exact goesOn_undoWord hc hq hf hw ho hfm (exec_onCur rfl hc (if_pos (by simp [hv, ha])))
    · exact goesOn_undoWord hc hq hf hw ho hfm (exec_onCur rfl hc (if_pos (by simp [hv, ha])))

end Sys2Proof.Machine
end

section
/-! SUPPORT. The words of memory on a window that go on: what an access to a window depends on, what a word leaves of it,
and the folds over a word's lanes. -/

namespace Sys2Proof.Machine

open Sys2Proof

/-! ### The context of a word after an update of its own team or group -/

theorem refresh_cur {s : State} {c : Cur} (c0 : Cur) (hc : cur? s = some c) : refresh s c0 = c := by
  rw [refresh, hc, Option.getD_some]

theorem cur?_team_id {s : State} {c : Cur} (hc : cur? s = some c) : c.t.id = c.n.g.team :=
  team?_id (cur?_team hc)

theorem cur?_of_parts {s : State} {n : Now} {t : Team} {g : Group} {l : Launch} (hn : s.now = some n)
    (ht : s.team? n.g.team = some t) (hg : t.group? n.g.grp = some g) (hl : s.launch? t.launch = some l) :
    cur? s = some ⟨n, t, g, l⟩ := by
  simp only [cur?, hn, ht, hg, hl, Option.bind_some, Option.map_some]

theorem cur?_modTeam {s : State} {c : Cur} (f : Team → Team) (hc : cur? s = some c)
    (hf : ∀ t, (f t).id = t.id ∧ (f t).groups = t.groups ∧ (f t).launch = t.launch) :
    cur? (s.modTeam c.t.id f) = some { c with t := f c.t } := by
  obtain ⟨hn, ht, hg, hl⟩ := cur?_some hc
  refine cur?_of_parts hn ?_ ?_ ?_
  · rw [team?_modTeam s _ f (fun t => (hf t).1), ht, cur?_team_id hc]
    simp [team?_id ht]
  · rw [Team.group?, (hf c.t).2.1]
    exact hg
  · rw [(hf c.t).2.2]
    exact hl

theorem cur?_modGroup {s : State} {c : Cur} (f : Group → Group) (hc : cur? s = some c) (hf : ∀ g, (f g).grp = g.grp) :
    cur? (c.mod s f) = some { c with t := c.t.modGroup c.n.g.grp f, g := f c.g } := by
  obtain ⟨hn, ht, hg, hl⟩ := cur?_some hc
  refine cur?_of_parts hn ?_ ?_ hl
  · rw [Cur.mod, State.modGroup, team?_modTeam s _ (fun t => t.modGroup c.n.g.grp f) (fun _ => rfl), ht]
    simp [team?_id ht]
  · rw [group?_modGroup' c.t _ f hf, hg]
    simp [group?_grp hg]

/-- A word that goes on under a context that differs in its team's bookkeeping goes on. -/
theorem GoesOn.of_team {i : Instr} {s : State} {c : Cur} {t : Team} (ht : t.ending = c.t.ending)
    (hr : GoesOn i s { c with t := t }) : GoesOn i s c := by
  obtain ⟨u, g, hi, hg, htrap, hend, hcl⟩ := hr
  exact ⟨u, g, hi, hg, htrap, hend.trans (congrArg some ht), hcl⟩

/-! ### What an access to a window depends on (R188, R189, R285, R338) -/

/-- A window's granule is owned by name alone: no translation enters. -/
theorem sameLine_granKey (s : State) (loc j : Nat) : sameLine s (granKey loc) j = (granKey loc == j) := by
  simp [sameLine, granKey]

theorem engineOwns_granKey_congr {s t : State} (hc : t.cmds = s.cmds) (hr : t.runs = s.runs) (loc : Nat) :
    engineOwns t (granKey loc) = engineOwns s (granKey loc) := by
  have e : sameLine t (granKey loc) = sameLine s (granKey loc) := by
    funext j
    rw [sameLine_granKey, sameLine_granKey]
  simp only [engineOwns, e, hc, hr]

/-- An access that R189 sends to a window's bank, whose granule no engine owns and no poison marks. -/
def AtWindow (s : State) (w : Who) (va : Word) (n : Nat) (k : AK) : Prop :=
  ∃ loc, check189 s w va n k = (.window loc, s) ∧ engineOwns s (granKey loc) = false ∧ poisoned s (loc / 16) = false

/-- When R189 sends an access to a window. -/
theorem check189_window_iff {s : State} {w : Who} {va : Word} {n : Nat} {k : AK} {loc : Nat} :
    check189 s w va n k = (.window loc, s) ↔ ∃ cl off, zoneOf w.core va.toNat = .window cl off ∧
      windowOk s w.ctx cl off = true ∧ va.toNat % n = 0 ∧ sramLoc cl off = loc := by
  unfold check189
  cases zoneOf w.core va.toNat with
  | bad => simp
  | window cl off =>
    by_cases hw : windowOk s w.ctx cl off = true <;> by_cases ha : va.toNat % n = 0 <;> simp [hw, ha]
  | mapped =>
    by_cases ha : va.toNat % n = 0
    · simp only [ha, bne_self_eq_false, Bool.false_eq_true, if_false]
      split <;> simp
    · simp [ha]

/-- The state `t` gives every access to a window what `s` gives it. -/
structure SameWindows (s t : State) : Prop where
  window : ∀ ctx cl off, windowOk t ctx cl off = windowOk s ctx cl off
  engine : ∀ loc, engineOwns t (granKey loc) = engineOwns s (granKey loc)
  poison : ∀ k, poisoned s k = false → poisoned t k = false

theorem SameWindows.refl (s : State) : SameWindows s s := ⟨fun _ _ _ => rfl, fun _ => rfl, fun _ h => h⟩

theorem SameWindows.trans {s t u : State} (h : SameWindows s t) (k : SameWindows t u) : SameWindows s u :=
  ⟨fun ctx cl off => (k.window ctx cl off).trans (h.window ctx cl off), fun loc => (k.engine loc).trans (h.engine loc),
    fun x hx => k.poison x (h.poison x hx)⟩

theorem AtWindow.congr {s t : State} {w : Who} {va : Word} {n : Nat} {k : AK} (h : AtWindow s w va n k) (hs : SameWindows s t) :
    AtWindow t w va n k := by
  obtain ⟨loc, hl, he, hp⟩ := h
  obtain ⟨cl, off, hz, hw, ha, hloc⟩ := check189_window_iff.mp hl
  exact ⟨loc, check189_window_iff.mpr ⟨cl, off, hz, (hs.window _ _ _).trans hw, ha, hloc⟩, (hs.engine loc).trans he,
    hs.poison _ hp⟩

theorem sameWindows_modTeam (s : State) (n : Nat) (f : Team → Team) (hf : ∀ t, (f t).ctx = t.ctx ∧ (f t).saved = t.saved ∧
    (f t).core = t.core ∧ (f t).launch = t.launch ∧ (f t).scratch = t.scratch) : SameWindows s (s.modTeam n f) := by
  refine ⟨fun ctx cl off => ?_, engineOwns_granKey_congr rfl rfl, fun _ h => h⟩
  have e : ∀ t, inAllot (s.modTeam n f) (if t.id == n then f t else t) cl off = inAllot s t cl off := by
    intro t
    obtain ⟨-, h2, h3, h4, h5⟩ := hf t
    split
    · simp only [inAllot, h2, h3, h4, h5]; rfl
    · rfl
  have e' : ∀ t, (if t.id == n then f t else t).ctx = t.ctx := by
    intro t
    split
    · exact (hf t).1
    · rfl
  simp only [windowOk, State.modTeam, List.any_map, Function.comp_def] at e ⊢
  simp only [e, e']
  rfl

theorem sameWindows_modGroup (s : State) (r : GRef) (f : Group → Group) : SameWindows s (s.modGroup r f) :=
  sameWindows_modTeam s r.team _ fun _ => ⟨rfl, rfl, rfl, rfl, rfl⟩

theorem sameWindows_roster (s : State) (ro : SMap Entry) : SameWindows s { s with roster := ro } :=
  ⟨fun _ _ _ => rfl, engineOwns_granKey_congr rfl rfl, fun _ h => h⟩

theorem sameWindows_redQ (s : State) (q : List RedReq) (n : Nat) : SameWindows s { s with redQ := q, seqN := n } :=
  ⟨fun _ _ _ => rfl, engineOwns_granKey_congr rfl rfl, fun _ h => h⟩

/-- A write poisons nothing. -/
theorem gwrite_poison {tagged : Bool} {g : Gran} {w : GWrite} (h : g.poison = false) : (Gran.write tagged g w).poison = false := by
  unfold Gran.write
  split
  · exact h
  · simp [h]

theorem sameWindows_performAt (s : State) (loc : Nat) (tagged : Bool) (w : GWrite) : SameWindows s (performAt s loc tagged w) := by
  refine ⟨fun _ _ _ => rfl, engineOwns_granKey_congr rfl rfl, fun k h => ?_⟩
  rw [performAt, poisoned_putGran]
  split
  next hk =>
    subst hk
    exact gwrite_poison h
  next => exact h

/-! ### A group with nothing on its way -/

/-- The group is on course, with no RED on its way and no store in its queue. -/
structure Quiet (s : State) (c : Cur) : Prop where
  course : OnCourse s c
  reds : ∀ q ∈ s.redQ, q.g ≠ c.ref
  queue : ∀ g, s.group? c.ref = some g → g.storeQ = []

theorem Quiet.congr {s t : State} {c : Cur} (hq : Quiet s c) (ht : t.teams = s.teams) (hr : t.redQ = s.redQ) : Quiet t c := by
  have e : t.group? c.ref = s.group? c.ref := by unfold State.group? State.team?; rw [ht]
  exact ⟨hq.course.congr ht, hr ▸ hq.reds, e ▸ hq.queue⟩

theorem applyReds_none {s : State} {r : GRef} (h : ∀ q ∈ s.redQ, q.g ≠ r) : applyReds s r = s := by
  have e : s.redQ.filter (fun q => q.g == r) = [] := List.filter_eq_nil_iff.mpr fun q hq => by simpa using h q hq
  simp [applyReds, e]

/-- With no store in the group's queue a load of a window reads the bank. -/
theorem windowSeen_empty {s : State} {r : GRef} (loc : Nat) (h : ∀ g, s.group? r = some g → g.storeQ = []) :
    windowSeen s r loc = granAt s loc := by
  unfold windowSeen
  cases hg : s.group? r with
  | none => rfl
  | some g => simp [h g hg, inGran, overGran]

/-- A load of a window finds an unpoisoned granule, and changes nothing. -/
theorem readFor_window {s : State} {c : Cur} {w : Who} {va : Word} {n : Nat} {k : AK} (hw : AtWindow s w va n k) (hq : Quiet s c)
    (ro : Bool) (who : Waiter) : ∃ g, g.poison = false ∧ readFor s c.ref w va n n k ro who = (.gran g, s) := by
  obtain ⟨loc, hl, he, hp⟩ := hw
  refine ⟨granAt s loc, hp, ?_⟩
  simp only [readFor, hl, he, applyReds_none hq.reds, windowSeen_empty loc hq.queue, Bool.false_eq_true, if_false]

theorem storeFor_window {s : State} {w : Who} {va : Word} {n : Nat} {k : AK} (hw : AtWindow s w va n k) (team : Nat) (who : Waiter)
    (extra : List Nat) : ∃ loc, storeFor s w va n k team who extra = (.window loc, s) := by
  obtain ⟨loc, hl, -, -⟩ := hw
  exact ⟨loc, by simp only [storeFor, hl]⟩

/-! ### Updates that a word of memory makes of its group -/

theorem OnCourse.modTeam {s : State} {c : Cur} (hr : OnCourse s c) (n : Nat) (f : Team → Team)
    (hf : ∀ t, (f t).id = t.id ∧ (f t).groups = t.groups ∧ (f t).ending = t.ending) : OnCourse (s.modTeam n f) c := by
  obtain ⟨⟨g, hg, htrap, hcl⟩, hend⟩ := hr
  have e := team?_modTeam s n f (fun t => (hf t).1) c.ref.team
  refine ⟨⟨g, ?_, htrap, hcl⟩, ?_⟩
  · rw [State.group?, e, Option.bind_map, ← hg]
    refine congrArg (Option.bind _) (funext fun t => ?_)
    simp only [Function.comp_apply, Team.group?]
    split
    · rw [(hf t).2.1]
    · rfl
  · rw [e, Option.map_map, ← hend]
    refine congrArg (Option.map · _) (funext fun t => ?_)
    simp only [Function.comp_apply]
    split
    · exact (hf t).2.2
    · rfl

theorem OnCourse.queueWrite {s : State} {c : Cur} (hr : OnCourse s c) (held : Bool) (w : GWrite) :
    OnCourse (queueWrite s c held w) c := by
  unfold Machine.queueWrite
  split
  · exact hr.modTeam _ _ fun _ => ⟨rfl, rfl, rfl⟩
  · exact (hr.modTeam c.t.id (fun t => { t with uncommitted := t.uncommitted.filterMap (cutWrite w) })
      (fun _ => ⟨rfl, rfl, rfl⟩)).mod _ (fun _ => rfl) fun _ => ⟨rfl, rfl⟩

theorem OnCourse.queueWrites {s : State} {c : Cur} (hr : OnCourse s c) (ws : List (Put × GWrite)) :
    OnCourse (ws.foldl (fun s p => Machine.queueWrite s c (heldStore c p.1) p.2) s) c :=
  List.foldlRecOn (motive := fun s => OnCourse s c) ws _ hr fun _ hs _ _ => hs.queueWrite _ _

theorem OnCourse.addPend {s : State} {c : Cur} (hr : OnCourse s c) (q : ResQ) (ready : Bool) (ws : List RegW) :
    OnCourse (addPend s c q ready ws) c :=
  (hr.congr (t := { s with seqN := s.seqN + 1 }) rfl).mod _ (fun _ => rfl) fun _ => ⟨rfl, rfl⟩

theorem OnCourse.countPend {s : State} {c : Cur} (hr : OnCourse s c) (counted : Bool) : OnCourse (countPend s c counted) c := by
  unfold Machine.countPend
  split
  · exact hr.mod _ (fun _ => rfl) fun _ => ⟨rfl, rfl⟩
  · exact hr

/-! ### Words of memory with nothing of their group's on its way -/

/-- The word is the current one, and nothing of its group's is on its way: no failure to deliver, no RED, no load of a
peer, no store; its team holds no store back, its launch lets tags be stored, and its results have room. -/
structure AtRest (s : State) (c : Cur) : Prop where
  cur : cur? s = some c
  fails : c.g.peerFail = []
  reds : ∀ q ∈ s.redQ, q.g ≠ c.ref
  bound : unbound s c.ref = false
  queue : c.g.storeQ = []
  pinned : unpinned c = false
  committed : c.t.committing = false
  trapstore : c.l.kernel.trapstore = false
  room : resultGate c .none = none

section Words

variable {i : Instr} {s : State} {c : Cur} {h : Head}

theorem AtRest.quiet (hr : AtRest s c) : Quiet s c :=
  ⟨OnCourse.base hr.cur, hr.reds, fun g hg => by rw [cur?_group hr.cur, Option.some.injEq] at hg; rw [← hg, hr.queue]⟩

theorem deliverFail_none (release : Bool) (wins : List Nat) (hf : c.g.peerFail = []) : deliverFail s c release wins = none := by
  simp [deliverFail, hf]

/-- What `exec` answers for a word of memory of the current group, once the word's own case is known. -/
theorem exec_memWord {ok : Cur → Bool} {o : MOrd} {vas : Cur → List Nat} {k : Cur → State} {t : State}
    (hi : exec i s = memWord s h ok o vas k) (hr : AtRest s c) (hok : ok c = true) (ht : k c = t) : exec i s = .next t :=
  exec_onCur hi hr.cur (by simp only [hok, Bool.not_true, Bool.false_eq_true, if_false, deliverFail_none _ _ hr.fails, ht])

theorem withRelease_relaxed {o : MOrd} (ho : o.order = .relaxed) (vas : List Nat) (k : State → State) :
    withRelease s c (peerOrd s c o vas) k = k s := by
  simp [withRelease, peerOrd, ordRel, ho]

theorem withAcquire_relaxed {o : MOrd} (ho : o.order = .relaxed) : withAcquire s c o = s := by
  simp [withAcquire, ordAcq, ho]

/-- A word whose lanes neither park, trap nor meet poison is done. -/
theorem eatPoison_none (s : State) (c : Cur) (h : Head) : eatPoison s c h (maskOf []) [] [] = finish s c h :=
  settle_none s c h

/-- A word of memory that comes to its end in a state on course. -/
theorem goesOn_memWord (h : Head) {ok : Cur → Bool} {o : MOrd} {vas : Cur → List Nat} {k : Cur → State}
    (hi : exec i s = memWord s h ok o vas k) (hr : AtRest s c) (hok : ok c = true)
    (hk : ∃ t, OnCourse t c ∧ k c = finish t c h) : GoesOn i s c := by
  obtain ⟨t, ht, e⟩ := hk
  exact ht.done (exec_memWord hi hr hok e)

/-! ### Loads -/

/-- A loading word so far: every lane has found its granule, and windows give what they gave in `s`. -/
structure LoadClean (s : State) (c : Cur) (a : LoadAcc) : Prop where
  quiet : Quiet a.s c
  same : SameWindows s a.s
  parks : a.parks = []
  traps : a.traps = []
  poison : a.poison = []
  line : a.line = none
  peers : a.peers = []

theorem LoadClean.start (hq : Quiet s c) : LoadClean s c (LoadAcc.start s) :=
  ⟨hq, SameWindows.refl s, rfl, rfl, rfl, rfl, rfl⟩

/-- A lane's writes, and births counted, leave the word as clean as it was. -/
theorem LoadClean.setWrites {a : LoadAcc} (ha : LoadClean s c a) (ws : List RegW) (born : Bool) :
    LoadClean s c { a with ws := ws, born := born } := ⟨ha.quiet, ha.same, ha.parks, ha.traps, ha.poison, ha.line, ha.peers⟩

theorem LoadClean.loadLane {a : LoadAcc} {m : MemOp} {n lane : Nat} (ha : LoadClean s c a)
    (hw : AtWindow s c.who (memAddr c.g m lane) n .read) (ro : Bool) (f : Nat → Gran → Nat → List RegW) :
    LoadClean s c (loadLane c m n ro f a lane) := by
  obtain ⟨g, hg, e⟩ := readFor_window (hw.congr ha.same) ha.quiet ro (.lanes c.ref (maskOf [lane]))
  simp only [Machine.loadLane, e, hg, Bool.false_eq_true, if_false]
  exact ha.setWrites _ a.born

theorem LoadClean.tldgLane {a : LoadAcc} {m : MemOp} {lane : Nat} (ha : LoadClean s c a)
    (hw : AtWindow s c.who (memAddr c.g m lane) 16 .read) (d : Nat) : LoadClean s c (tldgLane c h d m a lane) := by
  have hb := ha.loadLane hw false (fun i g _ => putV false d i g.tag.toNat (tldgTag h.rule g.tag (c.g.vtag d i)))
  simp only [Machine.tldgLane, hb.peers]
  exact hb

/-- A fold over the active lanes, each on a window. -/
theorem LoadClean.lanes {a : LoadAcc} {f : LoadAcc → Nat → LoadAcc} {m : MemOp} {n : Nat} {k : AK} (ha : LoadClean s c a)
    (hw : Claim.onWindow s c (fun i => (c.active h).getLsbD i = true) m n k)
    (hf : ∀ a lane, LoadClean s c a → AtWindow s c.who (memAddr c.g m lane) n k → LoadClean s c (f a lane)) :
    LoadClean s c ((lanesOf (c.active h)).foldl f a) :=
  List.foldlRecOn (motive := LoadClean s c) _ f ha fun a ha lane hl =>
    hf a lane ha (hw lane (lanesOf_mem.mp hl).1 (lanesOf_mem.mp hl).2)

theorem goesOn_loadDone {s0 : State} {a : LoadAcc} {o : MOrd} {n : Nat} {dst : Nat → Nat → Word → PeerDst} (ha : LoadClean s0 c a)
    (ho : o.order = .relaxed) (hq : resultGate c .none = none) (hi : exec i s = .next (loadDone c h o n dst a)) : GoesOn i s c := by
  simp only [loadDone, ha.line, hq, ha.peers, ha.parks, ha.traps, ha.poison, withAcquire_relaxed ho, sendLoads, List.any_nil,
    List.isEmpty_nil, List.foldl_nil, Bool.and_self, Bool.not_true, Bool.and_false, Bool.false_eq_true, if_false,
    eatPoison_none] at hi
  exact (ha.quiet.course.addPend _ _ _).done hi

theorem goesOn_vld {z : MSize} {o : MOrd} {d : BitVec 8} {m : MemOp} (hr : AtRest s c) (ho : o.order = .relaxed)
    (hv : c.vOk d.toNat z.wide = true) (hx : c.idxOk m = true)
    (hw : Claim.onWindow s c (fun i => (c.active h).getLsbD i = true) m (MSize.bytes z) .read) : GoesOn (.vld h z o d m) s c :=
  goesOn_loadDone ((LoadClean.start hr.quiet).lanes hw fun _ _ ha hl => ha.loadLane hl _ _) ho hr.room
    (exec_memWord (h := h) rfl hr (by simp [hv, hx]) rfl)

theorem goesOn_tldg {o : MOrd} {d : BitVec 8} {m : MemOp} (hr : AtRest s c) (ho : o.order = .relaxed)
    (hv : c.vOk d.toNat false = true) (hx : c.idxOk m = true)
    (hw : Claim.onWindow s c (fun i => (c.active h).getLsbD i = true) m 16 .read) : GoesOn (.tldg h o d m) s c :=
  goesOn_loadDone ((LoadClean.start hr.quiet).lanes hw fun _ _ ha hl => ha.tldgLane hl _) ho hr.room
    (exec_memWord (h := h) rfl hr (by simp [hv, hx]) rfl)

theorem goesOn_sld {z : MSize} {o : MOrd} {e : BitVec 6} {m : MemOp} (hr : AtRest s c) (ho : o.order = .relaxed)
    (hw : AtWindow s c.who (memAddr c.g m 0) (MSize.bytes z) .read) : GoesOn (.sld h z o e m) s c := by
  obtain ⟨g, hg, er⟩ := readFor_window hw hr.quiet (o.hint.toNat ≥ 2) (.lanes c.ref c.n.x)
  refine goesOn_memWord h rfl hr rfl ⟨?_, ?course, ?done⟩
  case done =>
    simp only [hr.room, er, hg, Bool.false_eq_true, if_false, withAcquire_relaxed ho]
    rfl
  case course => exact hr.quiet.course.addPend _ _ _

/-! ### Stores -/

/-- A storing word so far: every lane has found its place, and windows give what they gave in `s`. -/
structure StoreClean (s : State) (c : Cur) (a : StoreAcc) : Prop where
  course : OnCourse a.s c
  same : SameWindows s a.s
  parks : a.parks = []
  traps : a.traps = []

theorem StoreClean.start (hr : OnCourse s c) : StoreClean s c (StoreAcc.start s) := ⟨hr, SameWindows.refl s, rfl, rfl⟩

theorem StoreClean.setOut {a : StoreAcc} (ha : StoreClean s c a) (out : List (Put × GWrite)) (extra : List Nat) :
    StoreClean s c { a with out := out, extra := extra } := ⟨ha.course, ha.same, ha.parks, ha.traps⟩

theorem StoreClean.storeLane {a : StoreAcc} {n lane : Nat} {addr : Nat → Word} (ha : StoreClean s c a)
    (ht : c.l.kernel.trapstore = false) (hw : AtWindow s c.who (addr lane) n .write) (itag : Nat → Tag)
    (data : Nat → Nat × List (Nat × Tag)) : StoreClean s c (storeLane c n addr itag data a lane) := by
  obtain ⟨loc, e⟩ := storeFor_window (hw.congr ha.same) c.t.id (.lanes c.ref (maskOf [lane])) a.extra
  simp only [Machine.storeLane, e, ht, Bool.false_eq_true, if_false]
  exact ha.setOut _ a.extra

theorem StoreClean.tstgLane {a : StoreAcc} {m : MemOp} {lane : Nat} (ha : StoreClean s c a) (ht : c.l.kernel.trapstore = false)
    (hw : AtWindow s c.who (memAddr c.g m lane) 16 .write) (d : Nat) : StoreClean s c (tstgLane c d m a lane) := by
  obtain ⟨loc, e⟩ := storeFor_window (hw.congr ha.same) c.t.id (.lanes c.ref (maskOf [lane])) a.extra
  simp only [Machine.tstgLane, e, ht, Bool.false_and, Bool.false_eq_true, if_false]
  exact ha.setOut _ a.extra

theorem StoreClean.lanes {a : StoreAcc} {f : StoreAcc → Nat → StoreAcc} {m : MemOp} {n : Nat} {k : AK} (ha : StoreClean s c a)
    (hw : Claim.onWindow s c (fun i => (c.active h).getLsbD i = true) m n k)
    (hf : ∀ a lane, StoreClean s c a → AtWindow s c.who (memAddr c.g m lane) n k → StoreClean s c (f a lane)) :
    StoreClean s c ((lanesOf (c.active h)).foldl f a) :=
  List.foldlRecOn (motive := StoreClean s c) _ f ha fun a ha lane hl =>
    hf a lane ha (hw lane (lanesOf_mem.mp hl).1 (lanesOf_mem.mp hl).2)

/-- The end of a storing word whose lanes neither park nor trap. -/
theorem StoreClean.settle_done {a : StoreAcc} (ha : StoreClean s c a) (t : State) :
    settle t c h (maskOf a.parks) a.traps = finish t c h := by
  rw [ha.parks, ha.traps]
  exact settle_none t c h

theorem StoreClean.storeDone {a : StoreAcc} (ha : StoreClean s c a) : ∃ t, OnCourse t c ∧ storeDone c h a = finish t c h :=
  ⟨_, ha.course.queueWrites (a.out.foldl addWrite []), ha.settle_done _⟩

theorem StoreClean.tstgDone {a : StoreAcc} (ha : StoreClean s c a) : ∃ t, OnCourse t c ∧ tstgDone c h a = finish t c h :=
  ⟨_, ha.course.queueWrites a.out, ha.settle_done _⟩

theorem heldStore_pinned (hp : unpinned c = false) (p : Put) : heldStore c p = false := by
  simp [heldStore, hp]

theorem pinningStore_pinned (hp : unpinned c = false) (p : Put) : pinningStore s c p = false := by
  simp [pinningStore, hp]

/-- A pinned team's store pins nothing. -/
theorem storePins_pinned (hp : unpinned c = false) (a : StoreAcc) : storePins c a = false := by
  have h0 : reserveFull a.s c [] = false := by
    unfold reserveFull
    split <;> simp
  simp [storePins, heldStore_pinned hp, pinningStore_pinned hp, h0]

theorem goesOn_vst {z : MSize} {o : MOrd} {d : BitVec 8} {m : MemOp} (hr : AtRest s c) (ho : o.order = .relaxed)
    (hv : c.vOk d.toNat z.wide = true) (hx : c.idxOk m = true)
    (hw : Claim.onWindow s c (fun i => (c.active h).getLsbD i = true) m (MSize.bytes z) .write) : GoesOn (.vst h z o d m) s c := by
  have ha := (StoreClean.start hr.quiet.course).lanes hw fun _ _ ha hl =>
    ha.storeLane hr.trapstore hl (idxTag c.g m) (storeData c z d.toNat)
  refine goesOn_memWord h rfl hr (by simp [hv, hx]) ?_
  simp only [withRelease_relaxed ho, refresh_cur c hr.cur, storeWord, storePins_pinned hr.pinned, Bool.false_eq_true, if_false]
  exact ha.storeDone

theorem goesOn_tstg {o : MOrd} {d : BitVec 8} {m : MemOp} (hr : AtRest s c) (ho : o.order = .relaxed)
    (hv : c.vOk d.toNat false = true) (hx : c.idxOk m = true)
    (hw : Claim.onWindow s c (fun i => (c.active h).getLsbD i = true) m 16 .write) : GoesOn (.tstg h o d m) s c := by
  have ha := (StoreClean.start hr.quiet.course).lanes hw fun _ _ ha hl => ha.tstgLane hr.trapstore hl d.toNat
  refine goesOn_memWord h rfl hr (by simp [hv, hx]) ?_
  simp only [withRelease_relaxed ho, refresh_cur c hr.cur, storePins_pinned hr.pinned, Bool.false_eq_true, if_false]
  exact ha.tstgDone

theorem goesOn_sst {z : MSize} {o : MOrd} {e : BitVec 6} {m : MemOp} (hr : AtRest s c) (ho : o.order = .relaxed)
    (hw : AtWindow s c.who (memAddr c.g m 0) (MSize.bytes z) .write) : GoesOn (.sst h z o e m) s c := by
  obtain ⟨loc, es⟩ := storeFor_window hw c.t.id (.lanes c.ref c.n.x) []
  refine goesOn_memWord h rfl hr rfl ⟨?_, ?course, ?done⟩
  case done =>
    simp only [withRelease_relaxed ho, refresh_cur c hr.cur, scalarStore, es, heldStore_pinned hr.pinned,
      pinningStore_pinned hr.pinned, Bool.false_and, Bool.or_self, Bool.false_eq_true, if_false]
    rfl
  case course => exact hr.quiet.course.queueWrite _ _

/-! ### Words that commit and drain first (R224, R227, R336) -/

/-- A team whose commit is done. -/
def committedTeam (t : Team) : Team := { t with committing := false }

/-- A group whose store queue has drained. -/
def drainedGroup (g : Group) : Group := { g with storeQ := [] }

theorem pinFirst_pinned (hr : AtRest s c) : pinFirst s c = .done (s.modTeam c.t.id committedTeam) := by
  have ht : s.team? c.t.id = some c.t := by
    rw [cur?_team_id hr.cur]
    exact cur?_team hr.cur
  simp only [pinFirst, hr.pinned, hr.committed, commitLeft, ht, Bool.false_eq_true, if_false]
  rfl

theorem drainGroup_empty {r : GRef} {g : Group} (hg : s.group? r = some g) (hq : g.storeQ = []) :
    drainGroup s r = s.modGroup r drainedGroup := by
  cases ht : s.team? r.team with
  | none =>
    rw [State.group?, ht] at hg
    cases hg
  | some t =>
    simp only [drainGroup, ht, hg, hq, drainList]
    rfl

theorem AtRest.afterCommit (hr : AtRest s c) :
    AtRest (s.modTeam c.t.id committedTeam) { c with t := committedTeam c.t } :=
  ⟨cur?_modTeam _ hr.cur fun _ => ⟨rfl, rfl, rfl⟩, hr.fails, hr.reds, hr.bound, hr.queue, hr.pinned, rfl, hr.trapstore, hr.room⟩

theorem AtRest.afterDrain (hr : AtRest s c) :
    AtRest (drainGroup s c.ref) { c with t := c.t.modGroup c.n.g.grp drainedGroup } := by
  have hd : drainedGroup c.g = c.g := by
    show { c.g with storeQ := [] } = { c.g with storeQ := c.g.storeQ }
    rw [hr.queue]
  have hc := cur?_modGroup drainedGroup hr.cur fun _ => rfl
  rw [hd] at hc
  rw [drainGroup_empty (cur?_group hr.cur) hr.queue]
  exact ⟨hc, hr.fails, hr.reds, hr.bound, hr.queue, hr.pinned, hr.committed, hr.trapstore, hr.room⟩

/-- The state in which an atomic or a RED takes effect, and its word's context there. -/
def syncedState (s : State) (c : Cur) : State := drainGroup (s.modTeam c.t.id committedTeam) c.ref
def syncedCur (c : Cur) : Cur := { c with t := (committedTeam c.t).modGroup c.n.g.grp drainedGroup }

theorem AtRest.synced (hr : AtRest s c) : AtRest (syncedState s c) (syncedCur c) := hr.afterCommit.afterDrain

/-- The pin and the drain of a word at rest. -/
theorem afterSync_pinFirst (hr : AtRest s c) (k : State → State) :
    afterSync c (pinFirst s c) k = k (s.modTeam c.t.id committedTeam) := by
  rw [pinFirst_pinned hr, afterSync]

theorem drainGroup_committed (s : State) (c : Cur) :
    drainGroup (s.modTeam c.t.id committedTeam) c.ref = syncedState s c := rfl

theorem sameWindows_synced (hr : AtRest s c) : SameWindows s (syncedState s c) := by
  have h1 : SameWindows s (s.modTeam c.t.id committedTeam) :=
    sameWindows_modTeam s _ _ fun _ => ⟨rfl, rfl, rfl, rfl, rfl⟩
  have h2 : (s.modTeam c.t.id committedTeam).group? c.ref = some c.g :=
    cur?_group (c := { c with t := committedTeam c.t }) hr.afterCommit.cur
  rw [syncedState, drainGroup_empty h2 hr.queue]
  exact h1.trans (sameWindows_modGroup _ _ _)

theorem onWindow_synced {on : Nat → Prop} {m : MemOp} {n : Nat} {k : AK} (hr : AtRest s c) (hw : Claim.onWindow s c on m n k) :
    Claim.onWindow (syncedState s c) (syncedCur c) on m n k := fun lane hl ho =>
  AtWindow.congr (s := s) (w := c.who) (va := memAddr c.g m lane) (hw lane hl ho) (sameWindows_synced hr)

/-- An atomic or a RED that comes to its end in a state on course. -/
theorem goesOn_synced {ok : Cur → Bool} {o : MOrd} {vas : Cur → List Nat} {k : Cur → State} (h : Head)
    (hi : exec i s = memWord s h ok o vas k) (hr : AtRest s c) (hok : ok c = true)
    (hk : ∃ t, OnCourse t (syncedCur c) ∧ k c = finish t (syncedCur c) h) : GoesOn i s c := by
  obtain ⟨t, ht, e⟩ := hk
  exact (ht.done (exec_memWord hi hr hok e)).of_team rfl

/-! ### Atomics -/

theorem wordTag_spec (s : State) (b : Birth) (site : Word) (first : Bool) (t : TagSrc) :
    ∃ ro, (wordTag s b site first t).2 = { s with roster := ro } := by
  cases t with
  | known x => exact ⟨s.roster, rfl⟩
  | born e =>
    obtain ⟨ro, hro, -⟩ := intern_spec s b site first
    exact ⟨ro, hro⟩

/-- A birth and a write at a window's bank leave the word as clean as it was. -/
theorem LoadClean.perform {a : LoadAcc} (ha : LoadClean s c a) (ro : SMap Entry) (loc : Nat) (w : GWrite) :
    LoadClean s c { a with s := performAt { a.s with roster := ro } loc true w } :=
  ⟨ha.quiet.congr rfl rfl, (ha.same.trans (sameWindows_roster a.s ro)).trans (sameWindows_performAt _ loc true w),
    ha.parks, ha.traps, ha.poison, ha.line, ha.peers⟩

theorem LoadClean.rmwLane {a : LoadAcc} {m : MemOp} {wide : Bool} {lane : Nat} (ha : LoadClean s c a)
    (ht : c.l.kernel.trapstore = false) (hw : AtWindow s c.who (memAddr c.g m lane) (if wide then 8 else 4) .rmw) (sc : Scope)
    (d : Nat) (op : Nat → PeerOp) (pre : Nat → Option TagSrc) (out : Nat → Nat → Tag → RmwOut) :
    LoadClean s c (rmwLane c h wide sc d m op pre out a lane) := by
  obtain ⟨g, hg, e⟩ := readFor_window (hw.congr ha.same) ha.quiet false (.lanes c.ref (maskOf [lane]))
  obtain ⟨loc, hl, -, -⟩ := hw.congr ha.same
  simp only [Machine.rmwLane, e, hl, hg, ht, Bool.false_and, Bool.false_eq_true, if_false]
  split
  next => exact ha.setWrites _ a.born
  next x t _ =>
    obtain ⟨ro, hro⟩ := wordTag_spec a.s (birthOf a.s c.ref) c.n.pc (!a.born) t
    simp only [hro]
    exact (ha.perform ro loc _).setWrites _ _

theorem goesOn_rmwWord {z : MSize} {o : MOrd} {d : BitVec 8} {m : MemOp} {ok : Cur → Bool} {op : Cur → Nat → PeerOp}
    {pre : Cur → Nat → Option TagSrc} {out : Cur → Nat → Nat → Tag → RmwOut} {dst : Cur → Nat → Nat → Word → PeerDst}
    (hi : exec i s = rmwWord s h z o d m ok op pre out dst) (hr : AtRest s c) (ho : o.order = .relaxed) (hok : ok c = true)
    (hw : Claim.onWindow s c (fun i => (c.active h).getLsbD i = true) m (if z.wide then 8 else 4) .rmw) : GoesOn i s c := by
  have hs := hr.synced
  have ha := (LoadClean.start hs.quiet).lanes (h := h) (onWindow_synced hr hw) fun _ _ ha hl =>
    ha.rmwLane (h := h) hs.trapstore hl o.scope d.toNat (op (syncedCur c)) (pre (syncedCur c)) (out (syncedCur c))
  refine goesOn_synced h hi hr hok ?_
  simp only [hr.bound, withRelease_relaxed ho, refresh_cur c hr.cur, afterSync_pinFirst hr, drainGroup_committed,
    refresh_cur c hs.cur, hs.room, ha.line, ha.peers, ha.parks, ha.traps, ha.poison, withAcquire_relaxed ho, sendRmws, List.any_nil,
    List.isEmpty_nil, List.foldl_nil, Bool.and_self, Bool.not_true, Bool.and_false, Bool.false_eq_true, if_false,
    eatPoison_none]
  exact ⟨_, (ha.quiet.course.addPend _ _ _).countPend _, rfl⟩

theorem goesOn_atom {z : MSize} {o : MOrd} {d : BitVec 8} {m : MemOp} (hr : AtRest s c) (ho : o.order = .relaxed)
    (hv : c.vOk d.toNat z.wide = true) (hx : c.idxOk m = true)
    (hw : Claim.onWindow s c (fun i => (c.active h).getLsbD i = true) m (if z.wide then 8 else 4) .rmw) (f : AtomF) :
    GoesOn (.atom h f z o d m) s c :=
  goesOn_rmwWord (i := .atom h f z o d m) (execAtom.eq_1 h f z o d m s) hr ho (by simp [hv, hx]) hw

theorem goesOn_acas {z : MSize} {o : MOrd} {d : BitVec 8} {m : MemOp} (hr : AtRest s c) (ho : o.order = .relaxed)
    (hv : c.vOk (d.toNat + if z.wide then 2 else 1) z.wide = true) (hx : c.idxOk m = true)
    (hw : Claim.onWindow s c (fun i => (c.active h).getLsbD i = true) m (if z.wide then 8 else 4) .rmw) :
    GoesOn (.acas h z o d m) s c :=
  goesOn_rmwWord (i := .acas h z o d m) (execAcas.eq_1 h z o d m s) hr ho (by simp [hv, hx]) hw

/-! ### REDs -/

theorem StoreClean.redLane {a : StoreAcc} {m : MemOp} {wide : Bool} {lane : Nat} (ha : StoreClean s c a)
    (ht : c.l.kernel.trapstore = false) (hw : AtWindow s c.who (memAddr c.g m lane) (if wide then 8 else 4) .rmw) (issue : Nat)
    (f : RedMF) (d : Nat) : StoreClean s c (redLane c issue f wide d m a lane) := by
  obtain ⟨loc, e⟩ := storeFor_window (hw.congr ha.same) c.t.id (.lanes c.ref (maskOf [lane])) []
  simp only [Machine.redLane, e, ht, Bool.false_and, Bool.false_eq_true, if_false]
  exact ⟨ha.course.congr rfl, ha.same.trans (sameWindows_redQ a.s _ _), ha.parks, ha.traps⟩

theorem goesOn_red {z : MSize} {o : MOrd} {d : BitVec 8} {m : MemOp} (hr : AtRest s c) (ho : o.order = .relaxed)
    (hv : c.vOk d.toNat z.wide = true) (hx : c.idxOk m = true)
    (hw : Claim.onWindow s c (fun i => (c.active h).getLsbD i = true) m (if z.wide then 8 else 4) .rmw) (f : RedMF) :
    GoesOn (.red h f z o d m) s c := by
  have hs := hr.synced
  have ha := (StoreClean.start hs.quiet.course).lanes (h := h) (onWindow_synced hr hw) fun _ _ ha hl =>
    ha.redLane hs.trapstore hl (syncedState s c).seqN f d.toNat
  refine goesOn_synced h rfl hr (by simp [hv, hx]) ?_
  simp only [hr.bound, withRelease_relaxed ho, refresh_cur c hr.cur, afterSync_pinFirst hr, drainGroup_committed,
    refresh_cur c hs.cur, Bool.false_eq_true, if_false]
  exact ⟨_, ha.course, ha.settle_done _⟩

/-! ### PREF, PROBE, FENCE and COMMIT -/

theorem goesOn_pref {m : MemOp} (hc : cur? s = some c) (hx : c.idxOk m = true) (hint : BitVec 2) :
    GoesOn (.pref h hint m) s c :=
  (OnCourse.base hc).done (exec_onCur rfl hc (if_pos hx))

theorem goesOn_probe {z : MSize} {m : MemOp} (hr : AtRest s c) (hx : c.idxOk m = true) (p : BitVec 3) :
    GoesOn (.probe h z p m) s c :=
  hr.quiet.course.result hr.room ⟨_, exec_onCur rfl hr.cur (if_pos hx)⟩

theorem goesOn_fence_relaxed (hr : AtRest s c) (sc : Scope) : GoesOn (.fence h sc .relaxed) s c :=
  goesOn_memWord h rfl hr rfl ⟨s, hr.quiet.course, congrArg (fun c => finish s c h) (refresh_cur c hr.cur)⟩

theorem goesOn_commit (hr : AtRest s c) : GoesOn (.commit h) s c := by
  have hs := hr.afterCommit
  refine GoesOn.of_team (t := committedTeam c.t) rfl (hs.quiet.course.done (h := h) (exec_onCur rfl hr.cur ?_))
  rw [afterSync_pinFirst hr, refresh_cur c hs.cur]

end Words

theorem memoryForms : Claim.MemoryForms := by
  intro s c h z o d e m hc ho hfails hreds hbound hqueue hpin hcommit htrap hroom
  have hr : AtRest s c := ⟨hc, hfails, hreds, hbound, hqueue, hpin, hcommit, htrap, hroom⟩
  refine ⟨fun hv => ⟨?load, ?store, ?rmw⟩, fun hv ⟨hx, hw⟩ => goesOn_acas hr ho hv hx hw,
    fun hw => goesOn_sld hr ho (hw 0 (by omega) rfl), fun hw => goesOn_sst hr ho (hw 0 (by omega) rfl),
    fun hv => ⟨fun ⟨hx, hw⟩ => goesOn_tldg hr ho hv hx hw, fun ⟨hx, hw⟩ => goesOn_tstg hr ho hv hx hw⟩,
    fun hx => ⟨goesOn_pref hc hx, goesOn_probe hr hx⟩, goesOn_fence_relaxed hr, goesOn_commit hr⟩
  case load => exact fun ⟨hx, hw⟩ => goesOn_vld hr ho hv hx hw
  case store => exact fun ⟨hx, hw⟩ => goesOn_vst hr ho hv hx hw
  case rmw => exact fun ⟨hx, hw⟩ => ⟨goesOn_atom hr ho hv hx hw, goesOn_red hr ho hv hx hw⟩

/-- Settles O60: every word comes to `finish` in a state on course, through the end its family of words shares. -/
theorem formsComplete : Obligations.FormsComplete := ⟨floatForms, laneForms, reversibleForms, memoryForms⟩

end Sys2Proof.Machine
end

section
/-! SUPPORT. The parts of an instruction word, each read back from what the encoder writes and written back from what the decoder
reads (R57, R60 to R74): code lists, operands, mod fields and the fields of each format. -/

namespace Sys2Proof

/-! ### Bits -/

theorem getLsbD_eq_iff {n : Nat} (w : BitVec n) (i : Nat) (b : Bool) :
    w.getLsbD i = b ↔ w.extractLsb' i 1 = BitVec.ofBool b := by
  have : w.extractLsb' i 1 = BitVec.ofBool (w.getLsbD i) := by
    ext j hj
    obtain rfl : j = 0 := by omega
    simp
  rw [this]
  cases b <;> cases w.getLsbD i <;> decide

theorem ofBool_getLsbD {n : Nat} (w : BitVec n) (i : Nat) : BitVec.ofBool (w.getLsbD i) = w.extractLsb' i 1 :=
  ((getLsbD_eq_iff w i _).mp rfl).symm

theorem setWidth_setWidth_of_lt {k n : Nat} {c : BitVec n} (h : c.toNat < 2 ^ k) : (c.setWidth k).setWidth n = c :=
  BitVec.eq_of_toNat_eq (by simp [Nat.mod_eq_of_lt h])

theorem setWidth_extractLsb'_of_lt {k n : Nat} {c : BitVec n} (h : c.toNat < 2 ^ k) : (c.extractLsb' 0 k).setWidth n = c :=
  BitVec.eq_of_toNat_eq (by simp [Nat.mod_eq_of_lt h])

theorem toNat_mod_lt {k : Nat} (c : BitVec k) (n j : Nat) (h : 2 ^ k ≤ j) : c.toNat % n < j :=
  (Nat.mod_le _ _).trans_lt (c.isLt.trans_le h)

theorem extractLsb'_setWidth_of_le {k n : Nat} (c : BitVec k) (h : k ≤ n) : (c.setWidth n).extractLsb' 0 k = c :=
  BitVec.eq_of_toNat_eq (by simp [Nat.mod_eq_of_lt (c.isLt.trans_le (Nat.pow_le_pow_right Nat.two_pos h))])

theorem toNat_mod_le {k : Nat} {c : BitVec k} {j : Nat} (n : Nat) (h : c.toNat ≤ j) : c.toNat % n ≤ j := (Nat.mod_le _ _).trans h

theorem bool_toNat_mod_le (b : Bool) (n : Nat) : b.toNat % n ≤ 1 := (Nat.mod_le _ _).trans (Bool.toNat_le b)

/-- The number of a special register stands in an operand field (R75). -/
theorem setWidth_special {x : BitVec 9} (h : x.toNat ≤ 32) : (x.setWidth 6).setWidth 9 = x := setWidth_setWidth_of_lt (by omega)

/-- A field of which bit 0 alone may be set. -/
theorem setWidth_ofBool_getElem {n : Nat} {x : BitVec n} (hn : 0 < n) (h : x.toNat < 2) : (BitVec.ofBool x[0]).setWidth n = x := by
  rw [← BitVec.getLsbD_eq_getElem, ofBool_getLsbD]
  exact setWidth_extractLsb'_of_lt h

/-- A func or a type of which 0 and 1 are the codes. -/
theorem ite_one_zero {n : Nat} {c : BitVec n} (h : c.toNat < 2) : (if c = 1#n then 1#n else 0#n) = c := by
  split
  next hc => exact hc.symm
  next hc =>
    refine (BitVec.eq_of_toNat_eq ?_).symm
    rcases n with _ | n
    · simp [BitVec.of_length_zero]
    · have : c.toNat ≠ 1 := fun h1 => hc (BitVec.eq_of_toNat_eq (by simp [h1]))
      simp; omega

theorem toNat_ite_one_zero (b : Bool) (n : Nat) : (if b then 1#n else 0#n).toNat ≤ 1 := by
  cases b
  · simp
  · exact (BitVec.toNat_ofNat ..).trans_le (Nat.mod_le _ _)

theorem ite_one_zero_beq {n : Nat} (hn : 0 < n) (b : Bool) : ((if b then 1#n else 0#n) == 1#n) = b := by
  cases b
  · simpa using hn.ne'
  · simp

/-! ### Code lists (R46, R47) -/

/-- A code list of `n` bits: each element stands in it once, and each position is a code. -/
structure Codes {α : Type} (n : Nat) (l : List α) : Prop where
  once : l.Nodup
  mem  : ∀ x, x ∈ l
  fits : l.length ≤ 2 ^ n

section Codes

variable {α : Type} [DecidableEq α] {n : Nat} {l : List α}

theorem Codes.toNat_codeOf (hl : Codes n l) (x : α) : (codeOf n l x).toNat = l.idxOf x :=
  Nat.mod_eq_of_lt ((List.idxOf_lt_length_of_mem (hl.mem x)).trans_le hl.fits)

theorem Codes.toNat_codeOf_lt (hl : Codes n l) (x : α) : (codeOf n l x).toNat < l.length := by
  rw [hl.toNat_codeOf]
  exact List.idxOf_lt_length_of_mem (hl.mem x)

@[simp] theorem Codes.getElem?_codeOf (hl : Codes n l) (x : α) : l[(codeOf n l x).toNat]? = some x := by
  rw [hl.toNat_codeOf, List.getElem?_idxOf (hl.mem x)]

theorem Codes.codeOf_eq (hl : Codes n l) {c : BitVec n} {x : α} (h : l[c.toNat]? = some x) : codeOf n l x = c := by
  obtain ⟨_, rfl⟩ := List.getElem?_eq_some_iff.mp h
  exact BitVec.eq_of_toNat_eq (by rw [hl.toNat_codeOf, hl.once.idxOf_getElem])

@[simp] theorem Codes.pick_codeOf (hl : Codes n l) (x : α) : pick l (codeOf n l x) = some x := hl.getElem?_codeOf x

theorem Codes.pick_eq_some_iff (hl : Codes n l) {c : BitVec n} {x : α} : pick l c = some x ↔ codeOf n l x = c :=
  ⟨hl.codeOf_eq, fun h => h ▸ hl.pick_codeOf x⟩

/-- A code whose list is read with a default, where the code is one of the list's. -/
theorem Codes.codeOf_getD (hl : Codes n l) {c : BitVec n} (d : α) (h : c.toNat < l.length) :
    codeOf n l ((l[c.toNat]?).getD d) = c :=
  hl.codeOf_eq (by simp [h])

end Codes

@[simp] theorem ruleL_codes : Codes 2 ruleL := ⟨by decide, fun x => by cases x <;> decide, by decide⟩
@[simp] theorem typeL_codes : Codes 3 typeL := ⟨by decide, fun x => by cases x <;> decide, by decide⟩
@[simp] theorem rndL_codes : Codes 3 rndL := ⟨by decide, fun x => by cases x <;> decide, by decide⟩
@[simp] theorem fitSL_codes : Codes 5 fitSL := ⟨by decide, fun x => by cases x <;> decide, by decide⟩
@[simp] theorem mulL_codes : Codes 5 mulL := ⟨by decide, fun x => by cases x <;> decide, by decide⟩
@[simp] theorem divL_codes : Codes 5 divL := ⟨by decide, fun x => by cases x <;> decide, by decide⟩
@[simp] theorem logL_codes : Codes 5 logL := ⟨by decide, fun x => by cases x <;> decide, by decide⟩
@[simp] theorem shL_codes : Codes 5 shL := ⟨by decide, fun x => by cases x <;> decide, by decide⟩
@[simp] theorem scmpL_codes : Codes 5 scmpL := ⟨by decide, fun x => by cases x <;> decide, by decide⟩
@[simp] theorem sbitL_codes : Codes 5 sbitL := ⟨by decide, fun x => by cases x <;> decide, by decide⟩
@[simp] theorem sminmaxL_codes : Codes 5 sminmaxL := ⟨by decide, fun x => by cases x <;> decide, by decide⟩
@[simp] theorem qlogL_codes : Codes 5 qlogL := ⟨by decide, fun x => by cases x <;> decide, by decide⟩
@[simp] theorem fitVL_codes : Codes 5 fitVL := ⟨by decide, fun x => by cases x <;> decide, by decide⟩
@[simp] theorem minmaxL_codes : Codes 5 minmaxL := ⟨by decide, fun x => by cases x <;> decide, by decide⟩
@[simp] theorem absL_codes : Codes 5 absL := ⟨by decide, fun x => by cases x <;> decide, by decide⟩
@[simp] theorem cmpL_codes : Codes 5 cmpL := ⟨by decide, fun x => by cases x <;> decide, by decide⟩
@[simp] theorem vbitL_codes : Codes 5 vbitL := ⟨by decide, fun x => by cases x <;> decide, by decide⟩
@[simp] theorem fmaL_codes : Codes 5 fmaL := ⟨by decide, fun x => by cases x <;> decide, by decide⟩
@[simp] theorem fminmaxL_codes : Codes 5 fminmaxL := ⟨by decide, fun x => by cases x <;> decide, by decide⟩
@[simp] theorem fcmpL_codes : Codes 5 fcmpL := ⟨by decide, fun x => by cases x <;> decide, by decide⟩
@[simp] theorem sfuL_codes : Codes 5 sfuL := ⟨by decide, fun x => by cases x <;> decide, by decide⟩
@[simp] theorem voteL_codes : Codes 5 voteL := ⟨by decide, fun x => by cases x <;> decide, by decide⟩
@[simp] theorem shflL_codes : Codes 5 shflL := ⟨by decide, fun x => by cases x <;> decide, by decide⟩
@[simp] theorem redL_codes : Codes 5 redL := ⟨by decide, fun x => by cases x <;> decide, by decide⟩
@[simp] theorem scanL_codes : Codes 5 scanL := ⟨by decide, fun x => by cases x <;> decide, by decide⟩
@[simp] theorem vlaneL_codes : Codes 5 vlaneL := ⟨by decide, fun x => by cases x <;> decide, by decide⟩
@[simp] theorem sizeL_codes : Codes 3 sizeL := ⟨by decide, fun x => by cases x <;> decide, by decide⟩
@[simp] theorem scopeL_codes : Codes 3 scopeL := ⟨by decide, fun x => by cases x <;> decide, by decide⟩
@[simp] theorem ordL_codes : Codes 2 ordL := ⟨by decide, fun x => by cases x <;> decide, by decide⟩
@[simp] theorem bankL_codes : Codes 7 bankL := ⟨by decide, fun x => by cases x <;> decide, by decide⟩
@[simp] theorem atomL_codes : Codes 5 atomL := ⟨by decide, fun x => by cases x <;> decide, by decide⟩
@[simp] theorem redML_codes : Codes 5 redML := ⟨by decide, fun x => by cases x <;> decide, by decide⟩

/-- Two bits of the offset hold the mode of BANKCFG, of which there are three (R196). -/
theorem codeOf_bankL {c : BitVec 7} (h : c.toNat < 3) : codeOf 7 bankL ((bankL[c.toNat % 4]?).getD .cache) = c := by
  rw [Nat.mod_eq_of_lt (by omega)]
  exact bankL_codes.codeOf_getD _ h

theorem codeOf_bankL_lt (x : BankMode) : (codeOf 7 bankL x).toNat < 3 := bankL_codes.toNat_codeOf_lt x

theorem getD_bankL (x : BankMode) : (bankL[(codeOf 7 bankL x).toNat % 4]?).getD .cache = x := by
  rw [Nat.mod_eq_of_lt ((codeOf_bankL_lt x).trans (by decide)), bankL_codes.getElem?_codeOf, Option.getD_some]

theorem decScope_codeOf (x : Scope) : decScope (codeOf 3 scopeL x) = x := by simp [decScope]

theorem codeOf_decScope {c : BitVec 3} (h : c.toNat ≤ 5) : codeOf 3 scopeL (decScope c) = c :=
  scopeL_codes.codeOf_getD _ (Nat.lt_succ_of_le h)

theorem codeOf_scope_le (x : Scope) : (codeOf 3 scopeL x).toNat ≤ 5 := Nat.le_of_lt_succ (scopeL_codes.toNat_codeOf_lt x)

@[simp] theorem codeOf_dev : codeOf 3 scopeL .dev = 0#3 := rfl

theorem decSize_codeOf (x : MSize) : decSize (codeOf 3 sizeL x) = x := by simp [decSize]

theorem codeOf_decSize {c : BitVec 3} (h : c.toNat ≤ 5) : codeOf 3 sizeL (decSize c) = c :=
  sizeL_codes.codeOf_getD _ (Nat.lt_succ_of_le h)

theorem codeOf_size_le (x : MSize) : (codeOf 3 sizeL x).toNat ≤ 5 := Nat.le_of_lt_succ (sizeL_codes.toNat_codeOf_lt x)

@[simp] theorem codeOf_relaxed : codeOf 2 ordL .relaxed = 0#2 := rfl

theorem decOrd_codeOf (x : Ord) : decOrd (codeOf 2 ordL x) = x := by simp [decOrd]

theorem codeOf_decOrd (c : BitVec 2) : codeOf 2 ordL (decOrd c) = c := ordL_codes.codeOf_getD _ c.isLt

/-! ### Operand codes (R60, R61, R70) -/

theorem toNat_encSrc (a : Src) : (encSrc a).toNat =
    match a with
    | .v r => r.toNat
    | .s r => 256 + r.toNat
    | .c n => 320 + n.toNat
    | .lane => 352 := by
  cases a with
  | lane => rfl
  | v r | s r | c n => simp only [encSrc, BitVec.toNat_ofNat]; omega

@[simp] theorem srcOk_encSrc (a : Src) : srcOk (encSrc a) = true := by
  cases a <;> simp only [srcOk, toNat_encSrc, decide_eq_true_eq] <;> omega

theorem encSrc_decSrc {c : BitVec 9} (h : srcOk c = true) : encSrc (decSrc c) = c := by
  simp only [srcOk, decide_eq_true_eq] at h
  apply BitVec.eq_of_toNat_eq
  unfold decSrc
  split_ifs <;> simp only [toNat_encSrc, BitVec.toNat_setWidth] <;> omega

theorem encSrc_injective : Function.Injective encSrc := by
  intro a b h
  replace h := congrArg BitVec.toNat h
  simp only [toNat_encSrc] at h
  cases a <;> cases b <;> simp only [Src.v.injEq, Src.s.injEq, Src.c.injEq, reduceCtorEq, ← BitVec.toNat_inj] at h ⊢ <;> omega

@[simp] theorem decSrc_encSrc (a : Src) : decSrc (encSrc a) = a := encSrc_injective (encSrc_decSrc (srcOk_encSrc a))

theorem encSrc_decSrc_of_lt {c : BitVec 9} (h : c.toNat < 352) : encSrc (decSrc c) = c :=
  encSrc_decSrc (decide_eq_true h.le)

/-- The scalar operands alone, as VMOV .scalar takes them (R89). -/
theorem encSrc_s_setWidth {c : BitVec 9} (h : 256 ≤ c.toNat) (h' : c.toNat < 320) : encSrc (.s (c.setWidth 6)) = c :=
  BitVec.eq_of_toNat_eq (by simp only [toNat_encSrc, BitVec.toNat_setWidth]; omega)

theorem encSrc_s_bounds (r : BitVec 6) : 256 ≤ (encSrc (.s r)).toNat ∧ (encSrc (.s r)).toNat < 320 := by
  simp only [toNat_encSrc]
  omega

theorem setWidth_encSrc_s (r : BitVec 6) : (encSrc (.s r)).setWidth 6 = r :=
  BitVec.eq_of_toNat_eq (by simp only [toNat_encSrc, BitVec.toNat_setWidth]; omega)

theorem toNat_encSrc_of_uniform {a : Src} (h : a.uniform = true) : (encSrc a).toNat < 352 := by
  cases a with
  | v r | lane => cases h
  | s r | c n => simp only [toNat_encSrc]; omega

theorem toNat_encIdx (x : MIdx) : (encIdx x).toNat =
    match x with
    | .v r => r.toNat
    | .s r => 256 + r.toNat
    | .none => 320 := by
  cases x with
  | none => rfl
  | v r | s r => simp only [encIdx, BitVec.toNat_ofNat]; omega

@[simp] theorem idxOk_encIdx (x : MIdx) : idxOk (encIdx x) = true := by
  cases x <;> simp only [idxOk, toNat_encIdx, decide_eq_true_eq] <;> omega

theorem encIdx_decIdx {c : BitVec 9} (h : idxOk c = true) : encIdx (decIdx c) = c := by
  simp only [idxOk, decide_eq_true_eq] at h
  apply BitVec.eq_of_toNat_eq
  unfold decIdx
  split_ifs <;> simp only [toNat_encIdx, BitVec.toNat_setWidth] <;> omega

theorem encIdx_injective : Function.Injective encIdx := by
  intro x y h
  replace h := congrArg BitVec.toNat h
  simp only [toNat_encIdx] at h
  cases x <;> cases y <;> simp only [MIdx.v.injEq, MIdx.s.injEq, reduceCtorEq, ← BitVec.toNat_inj] at h ⊢ <;> omega

@[simp] theorem decIdx_encIdx (x : MIdx) : decIdx (encIdx x) = x := encIdx_injective (encIdx_decIdx (idxOk_encIdx x))

/-! ### The mod field (R65) -/

@[simp] theorem modOk_encMod (m : FMod) : modOk (encMod m) = true := by
  obtain ⟨r, f, s⟩ := m
  cases r <;> cases f <;> cases s <;> decide

@[simp] theorem decMod_encMod (m : FMod) : decMod (encMod m) = m := by
  obtain ⟨r, f, s⟩ := m
  cases r <;> cases f <;> cases s <;> decide

theorem encMod_decMod : ∀ {c : BitVec 5}, modOk c = true → encMod (decMod c) = c := by decide

/-- A mod field that holds the rounding alone. -/
theorem encMod_rnd : ∀ {x : BitVec 5}, modOk x = true → x &&& 3 = 0 → encMod ⟨(decMod x).rnd, false, false⟩ = x := by decide

/-- A mod field without .ftz. -/
theorem encMod_rnd_sat : ∀ {x : BitVec 5}, modOk x = true → x &&& 2 = 0 → encMod ⟨(decMod x).rnd, false, x[0]⟩ = x := by
  decide

/-- A mod field that holds .ftz alone. -/
theorem encMod_ftz : ∀ {x : BitVec 5}, x &&& 29 = 0 → encMod ⟨.rn, x[1], false⟩ = x := by decide

theorem encMod_getElem_one (m : FMod) : (encMod m)[1] = m.ftz := congrArg FMod.ftz (decMod_encMod m)

theorem encMod_getElem_zero (m : FMod) : (encMod m)[0] = m.sat := congrArg FMod.sat (decMod_encMod m)

theorem encMod_and_three (r : Rnd) : encMod ⟨r, false, false⟩ &&& 3#5 = 0#5 := by cases r <;> decide

theorem encMod_and_two (r : Rnd) (s : Bool) : encMod ⟨r, false, s⟩ &&& 2#5 = 0#5 := by cases r <;> cases s <;> decide

theorem encMod_and_others (f : Bool) : encMod ⟨.rn, f, false⟩ &&& 29#5 = 0#5 := by cases f <;> decide

theorem encMod_parts {x : BitVec 5} (h : modOk x = true) : encMod ⟨(decMod x).rnd, x[1], x[0]⟩ = x := encMod_decMod h

/-! ### Fields of two parts -/

/-- The 32-bit immediate of SMOV stands in a and the low bits (R131). -/
theorem imm32_high {a : BitVec 6} (low : BitVec 28) (h : a.toNat < 16) :
    ((a.extractLsb' 0 4 ++ low : BitVec 32).extractLsb' 28 4).setWidth 6 = a := by
  rw [BitVec.extractLsb'_append_eq_left, setWidth_extractLsb'_of_lt h]

theorem imm32_low (x : BitVec 4) (low : BitVec 28) : (x ++ low : BitVec 32).extractLsb' 0 28 = low :=
  BitVec.extractLsb'_append_eq_right

theorem imm32_parts (x : BitVec 32) : ((x.extractLsb' 28 4).setWidth 6).extractLsb' 0 4 ++ x.extractLsb' 0 28 = x := by
  have h : ((x.extractLsb' 28 4).setWidth 6).extractLsb' 0 4 = x.extractLsb' 28 4 :=
    BitVec.eq_of_toNat_eq (by simp)
  rw [h]
  simp only [BitVec.extractLsb'_append_extractLsb'_eq_extractLsb']
  exact BitVec.extractLsb'_eq_self

/-- The two Ks of a memory word on names stand in d (R71). -/
theorem nibbles (d : BitVec 8) : d.extractLsb' 4 4 ++ d.extractLsb' 0 4 = d := by
  simp only [BitVec.extractLsb'_append_extractLsb'_eq_extractLsb']
  exact BitVec.extractLsb'_eq_self

theorem nibble_zero {d : BitVec 8} (h : d.extractLsb' 0 4 = 0) : d.extractLsb' 4 4 ++ 0#4 = d := by
  rw [← nibbles d, h]
  exact congrArg (· ++ 0#4) BitVec.extractLsb'_append_eq_left

@[simp] theorem nibble_high (x y : BitVec 4) : (x ++ y : BitVec 8).extractLsb' 4 4 = x := BitVec.extractLsb'_append_eq_left

@[simp] theorem nibble_low (x y : BitVec 4) : (x ++ y : BitVec 8).extractLsb' 0 4 = y := BitVec.extractLsb'_append_eq_right

/-- The two top bits of a field of 8 are flags of its own (R288, R308). -/
theorem flags_append (x : BitVec 8) : BitVec.ofBool x[7] ++ BitVec.ofBool x[6] ++ x.extractLsb' 0 6 = x := by
  simp only [← BitVec.getLsbD_eq_getElem, ofBool_getLsbD, BitVec.extractLsb'_append_extractLsb'_eq_extractLsb']
  exact BitVec.extractLsb'_eq_self

theorem flag_append (x : BitVec 8) : BitVec.ofBool x[7] ++ x.extractLsb' 0 7 = x := by
  simp only [← BitVec.getLsbD_eq_getElem, ofBool_getLsbD, BitVec.extractLsb'_append_extractLsb'_eq_extractLsb']
  exact BitVec.extractLsb'_eq_self

theorem flag_append_of_set {x : BitVec 8} (h : x[7] = true) : 1#1 ++ x.extractLsb' 0 7 = x := by
  have := flag_append x
  rwa [h] at this

theorem flags_append_of_clear {x : BitVec 8} (h : x[7] = false) : 0#1 ++ BitVec.ofBool x[6] ++ x.extractLsb' 0 6 = x := by
  have := flags_append x
  rwa [h] at this

theorem flag_append_clear {x : BitVec 2} (h : x[0] = false) : BitVec.ofBool x[1] ++ 0#1 = x := by
  revert x
  decide

theorem ofBool_getElem_zero : ∀ a : BitVec 1, BitVec.ofBool a[0] = a := by decide

@[simp] theorem flags_high (a b : BitVec 1) (x : BitVec 6) : (a ++ b ++ x : BitVec 8)[7] = a[0] := by
  rw [← BitVec.getLsbD_eq_getElem, getLsbD_eq_iff, ofBool_getElem_zero]
  simp only [BitVec.extractLsb'_append_eq_of_le, BitVec.extractLsb'_eq_self, Nat.reduceLeDiff, Nat.reduceSub]

@[simp] theorem flags_low (a b : BitVec 1) (x : BitVec 6) : (a ++ b ++ x : BitVec 8)[6] = b[0] := by
  rw [← BitVec.getLsbD_eq_getElem, getLsbD_eq_iff, ofBool_getElem_zero]
  simp only [BitVec.extractLsb'_append_eq_of_le, BitVec.extractLsb'_append_eq_of_add_le, BitVec.extractLsb'_eq_self,
    Nat.reduceLeDiff, Nat.reduceSub]

@[simp] theorem flags_rest (a b : BitVec 1) (x : BitVec 6) : (a ++ b ++ x : BitVec 8).extractLsb' 0 6 = x :=
  BitVec.extractLsb'_append_eq_right

@[simp] theorem flag_high (x : BitVec 7) : (1#1 ++ x : BitVec 8)[7] = true := by
  rw [← BitVec.getLsbD_eq_getElem, getLsbD_eq_iff]
  exact BitVec.extractLsb'_append_eq_left

@[simp] theorem flag_rest (x : BitVec 7) : (1#1 ++ x : BitVec 8).extractLsb' 0 7 = x := BitVec.extractLsb'_append_eq_right

/-- Position and width of SBIT's immediate form stand in its low 13 bits (R133). -/
theorem sbitImm_parts {low : BitVec 28} (h : low.toNat < 8192) : 0#15 ++ low.extractLsb' 6 7 ++ low.extractLsb' 0 6 = low := by
  have hz : 0#15 = low.extractLsb' 13 15 := BitVec.eq_of_toNat_eq (by
    simp only [BitVec.toNat_ofNat, BitVec.extractLsb'_toNat, Nat.shiftRight_eq_div_pow]
    omega)
  rw [hz]
  simp only [BitVec.extractLsb'_append_extractLsb'_eq_extractLsb']
  exact BitVec.extractLsb'_eq_self

@[simp] theorem sbitImm_pos (w : BitVec 7) (p : BitVec 6) : (0#15 ++ w ++ p : BitVec 28).extractLsb' 0 6 = p :=
  BitVec.extractLsb'_append_eq_right

@[simp] theorem sbitImm_width (w : BitVec 7) (p : BitVec 6) : (0#15 ++ w ++ p : BitVec 28).extractLsb' 6 7 = w := by
  simp only [BitVec.extractLsb'_append_eq_of_le, BitVec.extractLsb'_append_eq_of_add_le, BitVec.extractLsb'_eq_self,
    Nat.reduceLeDiff, Nat.reduceSub]

theorem sbitImm_lt (w : BitVec 7) (p : BitVec 6) : (0#15 ++ w ++ p : BitVec 28).toNat < 8192 := by
  have hw := w.isLt
  have hp := p.isLt
  rw [BitVec.toNat_append, BitVec.toNat_append]
  refine Nat.or_lt_two_pow (n := 13) ?_ (by omega)
  simp only [BitVec.toNat_ofNat, Nat.shiftLeft_eq, Nat.zero_mod, Nat.zero_mul, Nat.zero_or]
  omega

theorem isSome_ite_some {α : Type} {p : Prop} [Decidable p] {x : α} : (if p then some x else none).isSome = decide p := by
  by_cases hp : p <;> simp [hp]

/-- A field that is read where a flag says so, and is 0 else. -/
theorem getD_ite_some {n : Nat} {p : Prop} [Decidable p] {x : BitVec n} (h : p ∨ x = 0#n) :
    (if p then some x else none).getD 0#n = x := by
  by_cases hp : p
  · simp [hp]
  · simp [hp, h.resolve_left hp]

/-! ### The format codes of VC (R66) -/

@[simp] theorem extractLsb'_func (func : BitVec 5) (ty : BitVec 3) : (func ++ ty).extractLsb' 3 5 = func :=
  BitVec.extractLsb'_append_eq_left

@[simp] theorem extractLsb'_type (func : BitVec 5) (ty : BitVec 3) : (func ++ ty).extractLsb' 0 3 = ty :=
  BitVec.extractLsb'_append_eq_right

theorem func_append_type (x : BitVec 8) : x.extractLsb' 3 5 ++ x.extractLsb' 0 3 = x := by
  rw [BitVec.extractLsb'_append_extractLsb'_eq_extractLsb' (by decide), BitVec.extractLsb'_eq_self]

/-! ### The low fields of VR and SR (R63, R68) -/

@[simp] theorem fieldB_joinLow (b c : BitVec 9) (m : BitVec 5) : fieldB (joinLow b c m) = b := by
  simp only [fieldB, joinLow, BitVec.extractLsb'_append_eq_of_le, BitVec.extractLsb'_eq_self, Nat.reduceLeDiff, Nat.reduceSub]

@[simp] theorem fieldC_joinLow (b c : BitVec 9) (m : BitVec 5) : fieldC (joinLow b c m) = c := by
  simp only [fieldC, joinLow, BitVec.extractLsb'_append_eq_of_le, BitVec.extractLsb'_append_eq_of_add_le,
    BitVec.extractLsb'_eq_self, Nat.reduceLeDiff, Nat.reduceSub]

@[simp] theorem fieldM_joinLow (b c : BitVec 9) (m : BitVec 5) : fieldM (joinLow b c m) = m := by
  simp only [fieldM, joinLow, BitVec.extractLsb'_append_eq_of_add_le,
    BitVec.extractLsb'_eq_self, Nat.reduceLeDiff]

@[simp] theorem lowB_lowBE (b e : BitVec 6) : lowB (lowBE b e) = b := by
  simp only [lowB, lowBE, BitVec.extractLsb'_append_eq_of_le, BitVec.extractLsb'_eq_self, Nat.reduceLeDiff, Nat.reduceSub]

@[simp] theorem lowE_lowBE (b e : BitVec 6) : lowE (lowBE b e) = e := by
  simp only [lowE, lowBE, BitVec.extractLsb'_append_eq_of_le, BitVec.extractLsb'_append_eq_of_add_le,
    BitVec.extractLsb'_eq_self, Nat.reduceLeDiff, Nat.reduceSub]

theorem joinLow_fields (low : BitVec 23) : joinLow (fieldB low) (fieldC low) (fieldM low) = low := by
  simp only [joinLow, fieldB, fieldC, fieldM, BitVec.extractLsb'_append_extractLsb'_eq_extractLsb']
  exact BitVec.extractLsb'_eq_self

theorem joinLow_eq_iff {b c : BitVec 9} {m : BitVec 5} {low : BitVec 23} :
    joinLow b c m = low ↔ b = fieldB low ∧ c = fieldC low ∧ m = fieldM low := by
  constructor
  · rintro rfl
    simp
  · rintro ⟨rfl, rfl, rfl⟩
    exact joinLow_fields low

theorem lowBE_fields (low : BitVec 28) : lowB low ++ lowE low ++ low.extractLsb' 0 16 = low := by
  simp only [lowB, lowE, BitVec.extractLsb'_append_extractLsb'_eq_extractLsb']
  exact BitVec.extractLsb'_eq_self

theorem eq_lowBE_iff {low : BitVec 28} {b e : BitVec 6} :
    low = lowBE b e ↔ lowB low = b ∧ lowE low = e ∧ low.extractLsb' 0 16 = 0 := by
  constructor
  · rintro rfl
    exact ⟨lowB_lowBE b e, lowE_lowBE b e, BitVec.extractLsb'_append_eq_right⟩
  · rintro ⟨rfl, rfl, h⟩
    rw [lowBE, ← h, lowBE_fields]

theorem lowBE_eq_iff {low : BitVec 28} {b e : BitVec 6} :
    lowBE b e = low ↔ lowB low = b ∧ lowE low = e ∧ low.extractLsb' 0 16 = 0 := eq_comm.trans eq_lowBE_iff

@[simp] theorem joinLow_zero : joinLow 0#9 0#9 0#5 = 0#23 := rfl
@[simp] theorem fieldB_zero : fieldB 0#23 = 0#9 := rfl
@[simp] theorem fieldC_zero : fieldC 0#23 = 0#9 := rfl
@[simp] theorem fieldM_zero : fieldM 0#23 = 0#5 := rfl

/-! ### The fields of the formats (R57, R63 to R74) -/

@[simp] theorem splitWord_joinWord (f : WordF) : splitWord (joinWord f) = f := by
  cases f
  simp only [splitWord, joinWord, WordF.mk.injEq, getLsbD_eq_iff, BitVec.extractLsb'_append_eq_of_le,
    BitVec.extractLsb'_append_eq_of_add_le, BitVec.extractLsb'_eq_self, Nat.reduceLeDiff, Nat.reduceSub, and_true]

theorem joinWord_splitWord (w : Word) : joinWord (splitWord w) = w := by
  simp only [joinWord, splitWord, ofBool_getLsbD, BitVec.extractLsb'_append_extractLsb'_eq_extractLsb']
  exact BitVec.extractLsb'_eq_self

@[simp] theorem splitSR_joinSR (f : SRF) : splitSR (joinSR f) = f := by
  cases f
  simp only [splitSR, joinSR, SRF.mk.injEq, getLsbD_eq_iff, BitVec.extractLsb'_append_eq_of_le,
    BitVec.extractLsb'_append_eq_of_add_le, BitVec.extractLsb'_eq_self, Nat.reduceLeDiff, Nat.reduceSub, and_true]

theorem joinSR_splitSR (w : BitVec 49) : joinSR (splitSR w) = w := by
  simp only [joinSR, splitSR, ofBool_getLsbD, BitVec.extractLsb'_append_extractLsb'_eq_extractLsb']
  exact BitVec.extractLsb'_eq_self

@[simp] theorem joinSR_inj {f g : SRF} : joinSR f = joinSR g ↔ f = g := (Function.LeftInverse.injective splitSR_joinSR).eq_iff

@[simp] theorem splitBR_joinBR (f : BRF) : splitBR (joinBR f) = f := by
  cases f
  simp only [splitBR, joinBR, BRF.mk.injEq, getLsbD_eq_iff, BitVec.extractLsb'_append_eq_of_le,
    BitVec.extractLsb'_append_eq_of_add_le, BitVec.extractLsb'_eq_self, Nat.reduceLeDiff, Nat.reduceSub, and_true]

theorem joinBR_splitBR (w : BitVec 49) : joinBR (splitBR w) = w := by
  simp only [joinBR, splitBR, ofBool_getLsbD, BitVec.extractLsb'_append_extractLsb'_eq_extractLsb']
  exact BitVec.extractLsb'_eq_self

@[simp] theorem joinBR_inj {f g : BRF} : joinBR f = joinBR g ↔ f = g := (Function.LeftInverse.injective splitBR_joinBR).eq_iff

@[simp] theorem splitVR_joinVR (f : VRF) : splitVR (joinVR f) = f := by
  cases f
  simp only [splitVR, joinVR, VRF.mk.injEq, getLsbD_eq_iff, BitVec.extractLsb'_append_eq_of_le,
    BitVec.extractLsb'_append_eq_of_add_le, BitVec.extractLsb'_eq_self, Nat.reduceLeDiff, Nat.reduceSub, and_true]

theorem joinVR_splitVR (w : BitVec 49) : joinVR (splitVR w) = w := by
  simp only [joinVR, splitVR, ofBool_getLsbD, BitVec.extractLsb'_append_extractLsb'_eq_extractLsb']
  exact BitVec.extractLsb'_eq_self

@[simp] theorem joinVR_inj {f g : VRF} : joinVR f = joinVR g ↔ f = g := (Function.LeftInverse.injective splitVR_joinVR).eq_iff

@[simp] theorem splitMEM_joinMEM (f : MEMF) : splitMEM (joinMEM f) = f := by
  cases f
  simp only [splitMEM, joinMEM, MEMF.mk.injEq, getLsbD_eq_iff, BitVec.extractLsb'_append_eq_of_le,
    BitVec.extractLsb'_append_eq_of_add_le, BitVec.extractLsb'_eq_self, Nat.reduceLeDiff, Nat.reduceSub, and_true]

theorem joinMEM_splitMEM (w : BitVec 49) : joinMEM (splitMEM w) = w := by
  simp only [joinMEM, splitMEM, ofBool_getLsbD, BitVec.extractLsb'_append_extractLsb'_eq_extractLsb']
  exact BitVec.extractLsb'_eq_self

@[simp] theorem joinMEM_inj {f g : MEMF} : joinMEM f = joinMEM g ↔ f = g := (Function.LeftInverse.injective splitMEM_joinMEM).eq_iff

@[simp] theorem splitENG_joinENG (f : ENGF) : splitENG (joinENG f) = f := by
  cases f
  simp only [splitENG, joinENG, ENGF.mk.injEq, getLsbD_eq_iff, BitVec.extractLsb'_append_eq_of_le,
    BitVec.extractLsb'_append_eq_of_add_le, BitVec.extractLsb'_eq_self, Nat.reduceLeDiff, Nat.reduceSub, and_true]

theorem joinENG_splitENG (w : BitVec 49) : joinENG (splitENG w) = w := by
  simp only [joinENG, splitENG, ofBool_getLsbD, BitVec.extractLsb'_append_extractLsb'_eq_extractLsb']
  exact BitVec.extractLsb'_eq_self

@[simp] theorem joinENG_inj {f g : ENGF} : joinENG f = joinENG g ↔ f = g := (Function.LeftInverse.injective splitENG_joinENG).eq_iff

@[simp] theorem splitOBJ_joinOBJ (f : OBJF) : splitOBJ (joinOBJ f) = f := by
  cases f
  simp only [splitOBJ, joinOBJ, OBJF.mk.injEq, getLsbD_eq_iff, BitVec.extractLsb'_append_eq_of_le,
    BitVec.extractLsb'_append_eq_of_add_le, BitVec.extractLsb'_eq_self, Nat.reduceLeDiff, Nat.reduceSub, and_true]

theorem joinOBJ_splitOBJ (w : BitVec 49) : joinOBJ (splitOBJ w) = w := by
  simp only [joinOBJ, splitOBJ, ofBool_getLsbD, BitVec.extractLsb'_append_extractLsb'_eq_extractLsb']
  exact BitVec.extractLsb'_eq_self

@[simp] theorem joinOBJ_inj {f g : OBJF} : joinOBJ f = joinOBJ g ↔ f = g := (Function.LeftInverse.injective splitOBJ_joinOBJ).eq_iff

end Sys2Proof
end

section
/-! SUPPORT. The two readings of the encoding against each other, format by format (R57 to R77): what a format's decoder accepts is
written back as the word it stood in, and what the encoder writes is read back. With them EncodeDecode and DecodeEncode. -/

namespace Sys2Proof

/-! ### Operands of two parts -/

/-- How the second operand and the mod field of a VR or VI word stand in it (R63, R64). -/
def encVB : VB → BitVec 5 → Bool × BitVec 23
  | .r s, fm => (false, joinLow (encSrc s) 0 fm)
  | .i x, _ => (true, x)

theorem eV2_eq (m : Nat) (h : Head) (func : BitVec 5) (ty : BitVec 3) (vd : BitVec 8) (a : Src) (b : VB) (fm : BitVec 5) :
    eV2 m h func ty vd a b fm = eVR m h ⟨(encVB b fm).1, func, ty, vd, encSrc a, (encVB b fm).2⟩ := by
  cases b <;> rfl

section VB

variable (i : Bool) (func : BitVec 5) (ty : BitVec 3) (vd : BitVec 8) (a : BitVec 9) (low : BitVec 23)

theorem encVB_decVB (h : vbOk ⟨i, func, ty, vd, a, low⟩ = true) : encVB (decVB ⟨i, func, ty, vd, a, low⟩) 0#5 = (i, low) := by
  cases i <;> simp_all [vbOk, decVB, encVB, joinLow_eq_iff, encSrc_decSrc]

theorem encVB_decVBM (h : vbmOk ⟨i, func, ty, vd, a, low⟩ = true) :
    encVB (decVB ⟨i, func, ty, vd, a, low⟩) (encMod (decVBM ⟨i, func, ty, vd, a, low⟩)) = (i, low) := by
  cases i <;> simp_all [vbmOk, decVB, decVBM, encVB, joinLow_eq_iff, encSrc_decSrc, encMod_decMod]

theorem decVB_encVB (b : VB) (fm : BitVec 5) : decVB ⟨(encVB b fm).1, func, ty, vd, a, (encVB b fm).2⟩ = b := by
  cases b <;> simp [decVB, encVB]

theorem vbOk_encVB (b : VB) : vbOk ⟨(encVB b 0#5).1, func, ty, vd, a, (encVB b 0#5).2⟩ = true := by
  cases b <;> simp [vbOk, encVB]

theorem vbmOk_encVB (b : VB) (m : FMod) : vbmOk ⟨(encVB b (encMod m)).1, func, ty, vd, a, (encVB b (encMod m)).2⟩ = true := by
  cases b <;> simp [vbmOk, encVB]

theorem decVBM_encVB {b : VB} {m : FMod} (h : modVB b m = true) :
    decVBM ⟨(encVB b (encMod m)).1, func, ty, vd, a, (encVB b (encMod m)).2⟩ = m := by
  cases b <;> simp_all [decVBM, encVB, modVB]

end VB

section SB

variable (i : Bool) (func : BitVec 5) (c : BitVec 3) (d a : BitVec 6) (low : BitVec 28)

theorem encSB_decSB (h : sbOk ⟨i, func, c, d, a, low⟩ = true) : encSB (decSB ⟨i, func, c, d, a, low⟩) = (i, low) := by
  cases i
  · simp only [sbOk, Bool.false_or, beq_iff_eq] at h
    exact congrArg _ h.symm
  · rfl

theorem decSB_encSB (b : SB) : decSB ⟨(encSB b).1, func, c, d, a, (encSB b).2⟩ = b := by
  cases b <;> simp [decSB, encSB]

theorem sbOk_encSB (b : SB) : sbOk ⟨(encSB b).1, func, c, d, a, (encSB b).2⟩ = true := by
  cases b <;> simp [sbOk, encSB]

end SB

section CVal

variable (func : BitVec 5) (q scope : BitVec 3) (order : BitVec 2) (t g : Bool) (kx ky : BitVec 4) (sb sc : BitVec 6)

theorem cvX_decCVal {f : ENGF} (h : cvalOk f = true) : cvX (decCVal f) = (f.sa, f.x) := by
  unfold cvalOk at h
  unfold decCVal
  split_ifs at h ⊢ with hx
  · exact Prod.ext (eq_of_beq h).symm (flag_append_of_set hx)
  · exact Prod.ext rfl (eq_of_beq h).symm

theorem decCVal_cvX (x : CVal) : decCVal ⟨func, q, scope, order, t, g, kx, ky, (cvX x).1, sb, sc, (cvX x).2⟩ = x := by
  cases x <;> simp [decCVal, cvX]

theorem cvalOk_cvX (x : CVal) : cvalOk ⟨func, q, scope, order, t, g, kx, ky, (cvX x).1, sb, sc, (cvX x).2⟩ = true := by
  cases x <;> simp [cvalOk, cvX]

end CVal

/-- The fields of XCOPY and XFORM (R288), as `eX` writes them. -/
def encX (func : BitVec 5) (x : XArgs) : ENGF :=
  ⟨func, x.q, codeOf 3 rndL x.rnd, BitVec.ofBool x.sat ++ 0#1, false, x.g, x.kx, x.ky, x.sa, x.sb, x.sc,
    BitVec.ofBool x.tr ++ BitVec.ofBool x.ts.isSome ++ x.ts.getD 0⟩

theorem eX_eq (m : Nat) (h : Head) (func : BitVec 5) (x : XArgs) : eX m h func x = eENG m h (encX func x) := rfl

@[simp] theorem encX_func (func : BitVec 5) (x : XArgs) : (encX func x).func = func := rfl

theorem encX_xargs {f : ENGF} {func : BitVec 5} (hf : f.func = func) (h : xargsOk f = true) : encX func (xargs f) = f := by
  simp only [xargsOk, Bool.and_eq_true, decide_eq_true_eq, Bool.not_eq_true', Bool.or_eq_true, beq_iff_eq] at h
  obtain ⟨⟨⟨hr, ho⟩, ht⟩, hx⟩ := h
  have hr : codeOf 3 rndL ((rndL[f.scope.toNat]?).getD .rs) = f.scope := rndL_codes.codeOf_getD _ (hr.trans_lt (by decide))
  cases f
  simp_all [encX, xargs, flag_append_clear ho, getD_ite_some (p := _ = true), isSome_ite_some, flags_append]

theorem xargs_encX (func : BitVec 5) (x : XArgs) : xargs (encX func x) = x := by
  obtain ⟨q, rnd, sat, g, kx, ky, sa, sb, sc, tr, ts⟩ := x
  cases ts <;> cases sat <;> simp [xargs, encX]

theorem xargsOk_encX (func : BitVec 5) {x : XArgs} (h : x.rnd ≠ .rs) : xargsOk (encX func x) = true := by
  obtain ⟨q, rnd, sat, g, kx, ky, sa, sb, sc, tr, ts⟩ := x
  have hr : (codeOf 3 rndL rnd).toNat ≤ 3 := by
    cases rnd with
    | rs => exact absurd rfl h
    | rn | rz | rd | ru => decide
  cases ts <;> cases sat <;> simp [xargsOk, encX, hr]

/-! ### From the word to the instruction and back -/

/-- Every instruction that a candidate accepts has the parts `p`. -/
def Cand.WrittenAs (c : Cand) (p : Nat × Head × BitVec 49) : Prop := ∀ i, c = some (i, true) → encodeParts i = some p

section WrittenAs

variable {p : Nat × Head × BitVec 49} {α : Type} [DecidableEq α] {n : Nat} {l : List α} {code : BitVec n}

@[simp] theorem writtenAs_none : Cand.WrittenAs none p := fun _ e => nomatch e

@[simp] theorem writtenAs_some {i : Instr} {ok : Bool} :
    Cand.WrittenAs (some (i, ok)) p ↔ (ok = true → encodeParts i = some p) := by
  simp [Cand.WrittenAs, and_comm]

@[simp] theorem writtenAs_ite {q : Prop} [Decidable q] {c d : Cand} :
    Cand.WrittenAs (if q then c else d) p ↔ (q → Cand.WrittenAs c p) ∧ (¬q → Cand.WrittenAs d p) := by
  split <;> simp [*]

@[simp] theorem writtenAs_bind_pick (hl : Codes n l) {g : α → Cand} :
    Cand.WrittenAs ((pick l code).bind g) p ↔ ∀ x, codeOf n l x = code → Cand.WrittenAs (g x) p := by
  simp only [Cand.WrittenAs, Option.bind_eq_some_iff, hl.pick_eq_some_iff]
  exact ⟨fun h x hx i e => h i ⟨x, hx, e⟩, fun h i ⟨x, hx, e⟩ => h x hx i e⟩

@[simp] theorem writtenAs_map_pick (hl : Codes n l) {g : α → Instr × Bool} :
    Cand.WrittenAs ((pick l code).map g) p ↔ ∀ x, codeOf n l x = code → Cand.WrittenAs (some (g x)) p := by
  rw [Option.map_eq_bind]
  exact writtenAs_bind_pick hl

@[simp] theorem writtenAs_map_decFDot {func : BitVec 5} {ty : BitVec 3} {g : FDotF → Instr × Bool} :
    Cand.WrittenAs ((decFDot func ty).map g) p ↔ (func = 0 → ty = 2 → Cand.WrittenAs (some (g .f16)) p) ∧
      (func = 1 → ty = 2 → Cand.WrittenAs (some (g .bf16)) p) ∧ (func = 2 → Cand.WrittenAs (some (g (.b8 ty))) p) := by
  simp only [decFDot, Bool.and_eq_true, beq_iff_eq]
  by_cases ht : ty = 2 <;> by_cases h0 : func = 0 <;> by_cases h1 : func = 1 <;> by_cases h2 : func = 2 <;> simp_all

end WrittenAs

section Formats

variable (m : Nat) (h : Head)

theorem decodeSR_writtenAs (f : SRF) : Cand.WrittenAs (decodeSR m h f) (m, h, joinSR f) := by
  cases f
  unfold decodeSR
  split
  case h_11 =>
    rw [writtenAs_bind_pick sbitL_codes]
    intro x hx
    cases x
    all_goals simp +contextual [encodeParts, eSR, hx, eq_lowBE_iff, lowBE_eq_iff, sbitImm_parts]
  all_goals simp +contextual [dec3, encodeParts, eSR, e3, encSB_decSB, imm32_high, imm32_low, eq_lowBE_iff, lowBE_eq_iff,
    setWidth_setWidth_of_lt]

theorem decodeBR_writtenAs (f : BRF) : Cand.WrittenAs (decodeBR m h f) (m, h, joinBR f) := by
  cases f
  unfold decodeBR
  split
  all_goals simp +contextual [encodeParts, eBR, setWidth_setWidth_of_lt, setWidth_ofBool_getElem]

theorem decodeVI_writtenAs (f : VRF) : Cand.WrittenAs (decodeVI m h f) (m, h, joinVR f) := by
  cases f
  unfold decodeVI
  split
  all_goals simp +contextual [decV2, encodeParts, eV2_eq, encVB_decVB, eV3, eVR, joinLow_eq_iff, encSrc_decSrc, tyC, regC,
    setWidth_setWidth_of_lt, encSrc_s_setWidth]

theorem decodeVF_writtenAs (f : VRF) : Cand.WrittenAs (decodeVF m h f) (m, h, joinVR f) := by
  cases f
  unfold decodeVF
  split
  all_goals simp +contextual [decV2, decF2, encodeParts, eV2_eq, encVB_decVB, encVB_decVBM, eV3, eVR, eVC, joinLow_eq_iff,
    encSrc_decSrc, tyC, regC, setWidth_setWidth_of_lt, encMod_decMod, encMod_ftz, encMod_parts]

theorem decodeVX_writtenAs (f : VRF) : Cand.WrittenAs (decodeVX m h f) (m, h, joinVR f) := by
  obtain ⟨_ | _, func, ty, vd, a, low⟩ := f
  case true => exact writtenAs_none
  unfold decodeVX
  rw [if_neg Bool.false_ne_true]
  split
  all_goals simp +contextual [encodeParts, eV3, eVR, joinLow_eq_iff, encSrc_decSrc, encSrc_decSrc_of_lt, encMod_decMod, tyC,
    setWidth_setWidth_of_lt, setWidth_ofBool_getElem]

theorem decodeVT_writtenAs (f : VRF) : Cand.WrittenAs (decodeVT m h f) (m, h, joinVR f) := by
  obtain ⟨_ | _, func, ty, vd, a, low⟩ := f
  case true => exact writtenAs_none
  unfold decodeVT
  rw [if_neg Bool.false_ne_true]
  split
  all_goals simp +contextual [encodeParts, eV3, eVR, eVC, joinLow_eq_iff, encSrc_decSrc, tyC, encMod_rnd, encMod_rnd_sat,
    ite_one_zero, setWidth_special]

theorem decodeMEM_writtenAs (f : MEMF) : Cand.WrittenAs (decodeMEM m h f) (m, h, joinMEM f) := by
  cases f
  unfold decodeMEM
  split
  all_goals simp +contextual [encodeParts, eM, eMEM, memOrd, memOp, memOk, memSizeOk, relaxed, szC, d6, regC, encIdx_decIdx,
    codeOf_decSize, codeOf_decScope, codeOf_decOrd, codeOf_bankL, nibbles, nibble_zero, setWidth_setWidth_of_lt,
    setWidth_extractLsb'_of_lt, ite_one_zero]

theorem decodeENG_writtenAs (f : ENGF) : Cand.WrittenAs (decodeENG m h f) (m, h, joinENG f) := by
  cases f
  unfold decodeENG
  split
  all_goals simp +contextual [encodeParts, eENG, eX_eq, encX_xargs, cvX_decCVal, codeOf_decScope, codeOf_decOrd,
    setWidth_extractLsb'_of_lt, setWidth_ofBool_getElem, ite_one_zero, getD_ite_some, isSome_ite_some, flags_append_of_clear]

theorem decodeOBJ_writtenAs (f : OBJF) : Cand.WrittenAs (decodeOBJ m h f) (m, h, joinOBJ f) := by
  unfold decodeOBJ
  rw [writtenAs_ite]
  refine ⟨fun _ => writtenAs_none, fun hf => ?_⟩
  rw [bne_iff_ne, not_not] at hf
  cases f
  subst hf
  split
  all_goals simp +contextual [encodeParts, eOBJ]

end Formats

/-- The candidate of a word by its major, head and body. -/
def decBody (m : Nat) (h : Head) (b : BitVec 49) : Cand :=
  match majorInfo m with
  | none => none
  | some (.sr, _) => decodeSR m h (splitSR b)
  | some (.br, _) => decodeBR m h (splitBR b)
  | some (.vi, _) => decodeVI m h (splitVR b)
  | some (.vf, _) => decodeVF m h (splitVR b)
  | some (.vx, _) => decodeVX m h (splitVR b)
  | some (.vt, _) => decodeVT m h (splitVR b)
  | some (.mem, _) => decodeMEM m h (splitMEM b)
  | some (.eng, _) => decodeENG m h (splitENG b)
  | some (.obj, _) => decodeOBJ m h (splitOBJ b)

theorem decCand_eq_decBody (f : WordF) : decCand f = decBody f.major.toNat (decHead f) f.body := rfl

theorem decBody_writtenAs (m : Nat) (h : Head) (b : BitVec 49) : Cand.WrittenAs (decBody m h b) (m, h, b) := by
  unfold decBody
  split
  · exact writtenAs_none
  · simpa only [joinSR_splitSR] using decodeSR_writtenAs m h (splitSR b)
  · simpa only [joinBR_splitBR] using decodeBR_writtenAs m h (splitBR b)
  · simpa only [joinVR_splitVR] using decodeVI_writtenAs m h (splitVR b)
  · simpa only [joinVR_splitVR] using decodeVF_writtenAs m h (splitVR b)
  · simpa only [joinVR_splitVR] using decodeVX_writtenAs m h (splitVR b)
  · simpa only [joinVR_splitVR] using decodeVT_writtenAs m h (splitVR b)
  · simpa only [joinMEM_splitMEM] using decodeMEM_writtenAs m h (splitMEM b)
  · simpa only [joinENG_splitENG] using decodeENG_writtenAs m h (splitENG b)
  · simpa only [joinOBJ_splitOBJ] using decodeOBJ_writtenAs m h (splitOBJ b)

/-! ### From the instruction to the word and back -/

/-- An instruction is read back from the parts `o`, where there are any. -/
def Instr.ReadFrom (i : Instr) (o : Option (Nat × Head × BitVec 49)) : Prop :=
  ∀ p ∈ o, decBody p.1 p.2.1 p.2.2 = some (i, true)

/-- The format of a major. -/
def majorFmt (m : Nat) : Option Fmt := (majorInfo m).map Prod.fst

section ReadFrom

variable {i : Instr} {m : Nat} {h : Head}

theorem readFrom_some {b : BitVec 49} : i.ReadFrom (some (m, h, b)) ↔ decBody m h b = some (i, true) := by
  simp [Instr.ReadFrom]

theorem readFrom_SR {f : SRF} (hm : majorFmt m = some .sr) :
    i.ReadFrom (eSR m h f) ↔ decodeSR m h f = some (i, true) := by
  obtain ⟨⟨_, _⟩, hm, rfl⟩ := Option.map_eq_some_iff.mp hm
  simp [eSR, readFrom_some, decBody, hm]

theorem readFrom_BR {f : BRF} (hm : majorFmt m = some .br) :
    i.ReadFrom (eBR m h f) ↔ decodeBR m h f = some (i, true) := by
  obtain ⟨⟨_, _⟩, hm, rfl⟩ := Option.map_eq_some_iff.mp hm
  simp [eBR, readFrom_some, decBody, hm]

theorem readFrom_VI {f : VRF} (hm : majorFmt m = some .vi) :
    i.ReadFrom (eVR m h f) ↔ decodeVI m h f = some (i, true) := by
  obtain ⟨⟨_, _⟩, hm, rfl⟩ := Option.map_eq_some_iff.mp hm
  simp [eVR, readFrom_some, decBody, hm]

theorem readFrom_VF {f : VRF} (hm : majorFmt m = some .vf) :
    i.ReadFrom (eVR m h f) ↔ decodeVF m h f = some (i, true) := by
  obtain ⟨⟨_, _⟩, hm, rfl⟩ := Option.map_eq_some_iff.mp hm
  simp [eVR, readFrom_some, decBody, hm]

theorem readFrom_VX {f : VRF} (hm : majorFmt m = some .vx) :
    i.ReadFrom (eVR m h f) ↔ decodeVX m h f = some (i, true) := by
  obtain ⟨⟨_, _⟩, hm, rfl⟩ := Option.map_eq_some_iff.mp hm
  simp [eVR, readFrom_some, decBody, hm]

theorem readFrom_VT {f : VRF} (hm : majorFmt m = some .vt) :
    i.ReadFrom (eVR m h f) ↔ decodeVT m h f = some (i, true) := by
  obtain ⟨⟨_, _⟩, hm, rfl⟩ := Option.map_eq_some_iff.mp hm
  simp [eVR, readFrom_some, decBody, hm]

theorem readFrom_MEM {f : MEMF} (hm : majorFmt m = some .mem) :
    i.ReadFrom (eMEM m h f) ↔ decodeMEM m h f = some (i, true) := by
  obtain ⟨⟨_, _⟩, hm, rfl⟩ := Option.map_eq_some_iff.mp hm
  simp [eMEM, readFrom_some, decBody, hm]

theorem readFrom_ENG {f : ENGF} (hm : majorFmt m = some .eng) :
    i.ReadFrom (eENG m h f) ↔ decodeENG m h f = some (i, true) := by
  obtain ⟨⟨_, _⟩, hm, rfl⟩ := Option.map_eq_some_iff.mp hm
  simp [eENG, readFrom_some, decBody, hm]

theorem readFrom_OBJ {f : OBJF} (hm : majorFmt m = some .obj) :
    i.ReadFrom (eOBJ m h f) ↔ decodeOBJ m h f = some (i, true) := by
  obtain ⟨⟨_, _⟩, hm, rfl⟩ := Option.map_eq_some_iff.mp hm
  simp [eOBJ, readFrom_some, decBody, hm]

end ReadFrom

theorem readFrom_sbit {h : Head} {f : SBitF} {d a : BitVec 6} {w : SBitW} (hw : (Instr.sbit h f d a w).wf = true) :
    (Instr.sbit h f d a w).ReadFrom (encodeParts (.sbit h f d a w)) := by
  cases w <;> cases f
  all_goals simp [encodeParts, readFrom_SR, majorFmt, majorInfo, decodeSR, sbitImm_lt, Instr.wf] at hw ⊢

theorem readFrom_cwait (h : Head) (q : BitVec 3) (t : Bool) (sc : Scope) (o : Ord) (cell : BitVec 6) (x : CVal)
    (tmo : Option (BitVec 6)) : (Instr.cwait h q t sc o cell x tmo).ReadFrom (encodeParts (.cwait h q t sc o cell x tmo)) := by
  cases tmo
  all_goals simp [encodeParts, readFrom_ENG, majorFmt, majorInfo, decodeENG, cvalOk_cvX, decCVal_cvX, codeOf_scope_le,
    decScope_codeOf, decOrd_codeOf]

/-- The encoder's parts are read back; what is asked of the instruction is what its encoding cannot hold (SBIT's width, the
register's number, a mod field beside an immediate, VXCH's third operand, the rounding of the engines' words). -/
theorem readFrom_encodeParts {i : Instr} (hw : i.wf = true) : i.ReadFrom (encodeParts i) := by
  cases i with
  | sbit => exact readFrom_sbit hw
  | smovImm | smovHi =>
    simp [encodeParts, readFrom_SR, majorFmt, majorInfo, decodeSR, imm32_parts]
    omega
  | cwait => apply readFrom_cwait
  | tbar h r =>
    cases r <;> simp [encodeParts, readFrom_ENG, majorFmt, majorInfo, decodeENG, toNat_mod_lt, extractLsb'_setWidth_of_le]
  | xcopy h x | xformPerm h x | xformCvt h x | xformDec h x | xformFill h x =>
    have hx : x.rnd ≠ .rs := by
      intro hx
      simp [Instr.wf, hx] at hw
    simp [encodeParts, eX_eq, readFrom_ENG, majorFmt, majorInfo, decodeENG, xargs_encX, xargsOk_encX _ hx]
  | srd h sc d r | swr h sc r a =>
    have hr : r.toNat ≤ 32 := by
      simp only [Instr.wf, Bool.and_eq_true, decide_eq_true_eq] at hw
      tauto
    simp [encodeParts, eV3, readFrom_VT, majorFmt, majorInfo, decodeVT, toNat_mod_le _ hr,
      toNat_ite_one_zero, ite_one_zero_beq]
  | tset h d f => cases f <;> simp [encodeParts, eV3, readFrom_VT, majorFmt, majorInfo, decodeVT]
  | vmov h t d f =>
    cases f
    all_goals simp [encodeParts, eV3, readFrom_VI, majorFmt, majorInfo, decodeVI, tyC, encSrc_s_bounds, setWidth_encSrc_s]
  | fadd h t d a b m | fsub h t d a b m | fmul h t d a b m =>
    have hm : modVB b m = true := by
      simp only [Instr.wf, Bool.and_eq_true] at hw
      exact hw.2
    simp [encodeParts, eV2_eq, readFrom_VF, majorFmt, majorInfo, decodeVF, decF2, tyC, decVB_encVB, vbmOk_encVB, decVBM_encVB, hm]
  | fdot h f d a b c m => cases f <;> simp [encodeParts, eV3, readFrom_VF, majorFmt, majorInfo, decodeVF, decFDot]
  | rng h f d => cases f <;> simp [encodeParts, eV3, readFrom_VF, majorFmt, majorInfo, decodeVF]
  | fscl h f d a => cases f <;> simp [encodeParts, eV3, readFrom_VF, majorFmt, majorInfo, decodeVF, tyC]
  | vxch h d a b c =>
    simp [encodeParts, eV3, readFrom_VX, majorFmt, majorInfo, decodeVX, toNat_encSrc_of_uniform hw]
  | nop | smovReg | sadd | ssub | smul | sdiv | slog | ssh | scmp | ssel | sminmax | qlog | slmark | sldrop |
    sldepth | trap | tret | brk | launch =>
    simp [encodeParts, majorFmt, majorInfo, e3, readFrom_SR, decodeSR, dec3, decSB_encSB, sbOk_encSB,
      toNat_mod_lt]
  | sld | sst | vld | vst | pref | probe | bankcfg | iinv | atom | acas | red | fence | ald | ast | adrnStore |
    adrnFadd | nld | nst | ncas | tldg | tstg =>
    simp [encodeParts, majorFmt, majorInfo, eM, readFrom_MEM, decodeMEM, memOrd, memOp, memOk, memSizeOk, relaxed, szC, d6,
      regC, codeOf_scope_le, decScope_codeOf, codeOf_size_le, decSize_codeOf, decOrd_codeOf, codeOf_bankL_lt, getD_bankL,
      toNat_mod_lt, extractLsb'_setWidth_of_le, toNat_ite_one_zero, ite_one_zero_beq]
  | braCond | braAlways | brv | jmpv | call | callv | ret | join | defer | loopScalar | loopImm | lbrk | exit | yld =>
    simp [encodeParts, majorFmt, majorInfo, readFrom_BR, decodeBR, toNat_mod_lt, bool_toNat_mod_le]
  | tget | tchk | rvmul | rvadd | rvnar | rvmax0 | unmul | unadd | unnar | unmax0 =>
    simp [encodeParts, majorFmt, majorInfo, eV3, eVC, readFrom_VT, decodeVT, tyC, func_append_type, encMod_and_three,
      encMod_and_two, encMod_getElem_zero]
  | vadd | vsub | vmul | vmad | vlog | vsh | vminmax | vabs | vcmp | vsel | vbit | vbfe | vbfi | vdiv =>
    simp [encodeParts, majorFmt, majorInfo, eV2_eq, eV3, readFrom_VI, decodeVI, decV2, decVB_encVB, vbOk_encVB, tyC, regC,
      toNat_mod_lt]
  | ffma | fminmax | fcmp | fcls | sfu | cvt | cvtp | cvtx =>
    simp [encodeParts, majorFmt, majorInfo, eV2_eq, eV3, eVC, readFrom_VF, decodeVF, decV2, decVB_encVB, vbOk_encVB, tyC,
      regC, func_append_type, toNat_mod_lt, encMod_getElem_one, encMod_getElem_zero,
      encMod_and_others]
  | vbal | vvote | vshfl | vreduce | vscan | vmatch | vlane =>
    simp [encodeParts, majorFmt, majorInfo, eV3, readFrom_VX, decodeVX, tyC, toNat_mod_lt, bool_toNat_mod_le]
  | qpush | qpop | qallowGrant | qallowRead | carr | crst | commit | mma | aacq | arel | azero | xstat | cprun |
    cpstat | cpstop =>
    simp [encodeParts, majorFmt, majorInfo, readFrom_ENG, decodeENG, cvalOk_cvX, decCVal_cvX, codeOf_scope_le,
      decScope_codeOf, decOrd_codeOf, toNat_mod_lt, extractLsb'_setWidth_of_le, toNat_ite_one_zero, ite_one_zero_beq]
  | nnew | nkill | nres | nmov | ninfo | torg =>
    simp [encodeParts, majorFmt, majorInfo, readFrom_OBJ, decodeOBJ]
  | _ => exact fun _ e => nomatch e

/-! ### The word (R57, R77, R79) -/

theorem decode_eq_ok_iff {w : Word} {i : Instr} :
    decode w = .ok i ↔ decCand (splitWord w) = some (i, true) ∧ i.WellFormed := by
  unfold decode Instr.WellFormed
  rcases decCand (splitWord w) with _ | ⟨j, ok⟩
  · simp
  · cases ht : j.typeOk <;> cases ok <;> cases hw : j.wf <;> simp_all <;> rintro rfl <;> simp [*]

/-- The fields of the word that has these parts. -/
def wordFields (p : Nat × Head × BitVec 49) : WordF :=
  ⟨BitVec.ofNat 8 p.1, p.2.1.sw, codeOf 2 ruleL p.2.1.rule, p.2.1.guard, p.2.1.neg, p.2.2⟩

theorem encode_eq_some_iff {i : Instr} {w : Word} :
    encode i = some w ↔ ∃ p, encodeParts i = some p ∧ joinWord (wordFields p) = w := Option.map_eq_some_iff

theorem decHead_wordFields (p : Nat × Head × BitVec 49) : decHead (wordFields p) = p.2.1 := by
  simp [decHead, wordFields]

theorem wordFields_decHead (f : WordF) : wordFields (f.major.toNat, decHead f, f.body) = f := by
  simp [wordFields, decHead, ruleL_codes.codeOf_getD _ f.rule.isLt]

theorem majorInfo_of_ge {m : Nat} (hm : 256 ≤ m) : majorInfo m = none := by
  obtain ⟨k, rfl⟩ := Nat.exists_eq_add_of_le' hm
  simp [majorInfo]

/-- Only what stands in eight bits is a major. -/
theorem major_lt_of_decBody {m : Nat} {h : Head} {b : BitVec 49} {c : Instr × Bool} (hd : decBody m h b = some c) : m < 256 := by
  by_contra hm
  rw [decBody, majorInfo_of_ge (Nat.le_of_not_lt hm)] at hd
  cases hd

/-- Settles O56: the parts that the encoder gives an instruction are read back from the word they are put into. -/
theorem encodeDecode : Obligations.EncodeDecode := by
  intro i w hi hw
  obtain ⟨⟨m, h, b⟩, hp, rfl⟩ := encode_eq_some_iff.mp hw
  have hd : decBody m h b = some (i, true) := readFrom_encodeParts hi.2 _ hp
  refine decode_eq_ok_iff.mpr ⟨?_, hi⟩
  rw [splitWord_joinWord, decCand_eq_decBody, decHead_wordFields]
  simpa [wordFields, Nat.mod_eq_of_lt (major_lt_of_decBody hd)] using hd

/-- Settles O57: what each format's decoder accepts is written as the fields it was read from. -/
theorem decodeEncode : Obligations.DecodeEncode := by
  intro w i hw
  obtain ⟨hc, hi⟩ := decode_eq_ok_iff.mp hw
  refine ⟨hi, encode_eq_some_iff.mpr ⟨_, decBody_writtenAs _ _ _ i (decCand_eq_decBody _ ▸ hc), ?_⟩⟩
  rw [wordFields_decHead, joinWord_splitWord]

/-- Settles O59: each word is the encoding of what it stands for. -/
theorem decodeExamples : Obligations.DecodeExamples := by
  unfold Obligations.DecodeExamples
  and_intros
  all_goals exact encodeDecode _ _ ⟨by decide, by decide⟩ (by decide)

end Sys2Proof
end

section
/-! SUPPORT. SRD and SWR: what each special register holds, and what a write of one leaves. With them
SpecialRegisters. -/

namespace Sys2Proof.Machine

open Sys2Proof

/-! ### Reading -/

/-- A scalar or vector read is a fixed-latency word like any other, its lanes reading `specialReg`. -/
theorem exec_srd_vector (s : State) (h : Head) (vd : BitVec 8) (reg : BitVec 6) :
    exec (.srd h false vd reg) s = fixedWord s h (fun c => c.vOk vd.toNat (sregWide reg)) fun c =>
      (lanesOf (c.active h)).flatMap fun i => putV (sregWide reg) vd.toNat i (specialReg s c i reg.toNat)
        (tagResult h.rule [] false (oldTag c.g (sregWide reg) vd.toNat i)) := by
  show onCur s _ = onCur s _
  congr 1
  funext c
  cases hv : c.vOk vd.toNat (sregWide reg) <;> simp [hv]

theorem exec_srd_scalar (s : State) (h : Head) (vd : BitVec 8) (reg : BitVec 6) :
    exec (.srd h true vd reg) s = regWord s h fun c g => g.setS vd.toNat (BitVec.ofNat 64 (specialReg s c 0 reg.toNat)) := rfl

theorem lstk_eq (g : Group) {j : Nat} (hj : j < 4) :
    g.lstk j = if g.inTrap then g.saved.getD j 0 else ((g.loops[j]?).map LoopEntry.word).getD 0 := by
  have hw : (loopWords g.loops).getD j 0 = ((g.loops[j]?).map LoopEntry.word).getD 0 := by
    simp only [loopWords, List.getD_eq_getElem?_getD, List.getElem?_map, List.getElem?_range hj, Option.map_some, Option.getD_some]
    cases g.loops[j]? <;> rfl
  rw [Group.lstk, hw]

theorem specialReg_lstk (s : State) (c : Cur) (i : Nat) {j : Nat} (hj : j < 4) :
    specialReg s c i (13 + j) = (c.g.lstk j).toNat := by
  match j, hj with
  | 0, _ | 1, _ | 2, _ | 3, _ => rfl

/-- The core's number on its die, its row and its place in the row make the core's own number. -/
theorem core_eq (core : Nat) : core = dieOf core * 64 + core / 8 % 8 * 8 + core % 8 := by
  unfold dieOf
  omega

/-- The registers that are a lane's own. -/
theorem specialReg_lane (s : State) (c : Cur) {i : Nat} {l : Lane} (hl : c.g.lanes[i]? = some l) :
    specialReg s c i 19 = l.tpc.toNat ∧ specialReg s c i 20 = l.ttag.toNat ∧
      specialReg s c i 26 = l.faultva.toNat ∧ specialReg s c i 28 = l.calls.length + l.spilled := by
  simp [specialReg, Group.lane, hl, Lane.depth]

theorem specialRegisterReads : Claim.SpecialRegisterReads := by
  intro s c h hc
  refine ⟨fun vd reg => ⟨fun hv => ?_, fun hv => ?_, ?_⟩, fun i => ?_⟩
  · exact completes_vec (exec_srd_vector s h vd reg) hc hv
  · rw [Faults, exec_srd_vector]
    simp [fixedWord, onCur, hc, hv]
  · rw [Completes, exec_srd_scalar]
    obtain ⟨t, g', e, o, eg, m⟩ := regWord_spec h
      (fun c g => g.setS vd.toNat (BitVec.ofNat 64 (specialReg s c 0 reg.toNat))) (fun _ => rfl) hc
    exact ⟨t, g', e, o, eg, writesS_of_moved m⟩
  · exact ⟨rfl, rfl, rfl, rfl, rfl, core_eq _, Nat.mod_lt _ (by decide), Nat.mod_lt _ (by decide), rfl, rfl, rfl,
      fun j hj => by rw [specialReg_lstk s c i hj, lstk_eq _ hj],
      rfl, rfl, rfl, rfl, rfl, rfl, rfl, rfl, rfl, rfl, rfl, fun l hl => specialReg_lane s c hl⟩

/-! ### Writing -/

/-- A vector operand is a register, or a pair, that the group has. -/
def swrOperandOk (c : Cur) (reg : BitVec 6) (a : Src) : Bool :=
  match a with
  | .v r => c.vOk r.toNat (sregWide reg)
  | _ => true

/-- SWR in the order of its checks: the operand, the right, the write. -/
theorem exec_swr (s : State) (h : Head) (sc : Bool) (reg : BitVec 6) (a : Src) :
    exec (.swr h sc reg a) s = onCur s fun c =>
      if !swrOperandOk c reg a then wordFault s c .illegalOperand
      else if !swrAllowed c.g reg.toNat then wordFault s c .priv
      else finish (c.mod s fun g => swrWrite g reg.toNat (sregWide reg) a (c.active h)) c h := rfl

theorem swrAllowed_iff (g : Group) (n : Nat) :
    swrAllowed g n = true ↔ n = 17 ∨ n = 31 ∨ (g.inTrap = true ∧ (n = 19 ∨ (13 ≤ n ∧ n ≤ 16))) := by
  simp [swrAllowed, or_assoc]

theorem swrWrite_grp (g : Group) (n : Nat) (wide : Bool) (a : Src) (m : Mask) : (swrWrite g n wide a m).grp = g.grp := by
  unfold swrWrite
  split
  · rfl
  · split
    · rfl
    · dsimp only
      split_ifs <;> rfl

/-- What SWR writes is where the group stands after it, but for its clause. -/
theorem completes_swr {s : State} {c : Cur} {h : Head} {sc : Bool} {reg : BitVec 6} {a : Src} (hc : cur? s = some c)
    (hok : swrOperandOk c reg a = true) (hmay : swrAllowed c.g reg.toNat = true) :
    Completes (.swr h sc reg a) s c (Moved (swrWrite c.g reg.toNat (sregWide reg) a (c.active h))) := by
  have hd : exec (.swr h sc reg a) s = regWord s h fun c g => swrWrite g reg.toNat (sregWide reg) a (c.active h) := by
    simp [exec_swr, regWord, onCur, hc, hok, hmay]
  rw [Completes, hd]
  exact regWord_spec h (fun c g => swrWrite g reg.toNat (sregWide reg) a (c.active h)) (fun g => swrWrite_grp g _ _ _ _) hc

/-- The lowest lane of a set is the first of its lanes. -/
theorem lanesOf_eq_cons {m : Mask} {i : Nat} (hi : i < 64) (hm : m.getLsbD i = true) (hlow : ∀ j, j < i → m.getLsbD j = false) :
    ∃ r, lanesOf m = i :: r := by
  have hpre : (List.range i).filter (fun j => m.getLsbD j) = [] :=
    List.filter_eq_nil_iff.mpr fun j hj => by simp [hlow j (List.mem_range.mp hj)]
  obtain ⟨k, hk⟩ : ∃ k, 64 = i + (k + 1) := ⟨63 - i, by omega⟩
  have hrange : List.range 64 = List.range i ++ (List.range (k + 1)).map (i + ·) := by rw [← List.range_add, ← hk]
  rw [lanesOf, hrange, List.filter_append, hpre, List.range_succ_eq_map]
  simp [hm]

theorem lanesOf_zero : lanesOf 0 = [] := by simp [lanesOf]

theorem swrWrite_none (g : Group) {n : Nat} (hn : n ≠ 19) (wide : Bool) (a : Src) : swrWrite g n wide a 0 = g := by
  simp only [swrWrite, beq_iff_eq, hn, if_false, lanesOf_zero]

section Lowest

variable {m : Mask} {i : Nat} (hi : i < 64) (hm : m.getLsbD i = true) (hlow : ∀ j, j < i → m.getLsbD j = false)

include hi hm hlow

theorem swrWrite_traph (g : Group) (wide : Bool) (a : Src) : swrWrite g 17 wide a m = { g with traph := swrValue g wide a i } := by
  obtain ⟨r, hr⟩ := lanesOf_eq_cons hi hm hlow
  simp [swrWrite, hr]

theorem swrWrite_nstat (g : Group) (wide : Bool) (a : Src) :
    swrWrite g 31 wide a m = { g with nstat := (swrValue g wide a i).setWidth 32 } := by
  obtain ⟨r, hr⟩ := lanesOf_eq_cons hi hm hlow
  simp [swrWrite, hr]

theorem swrWrite_lstk (g : Group) (wide : Bool) (a : Src) {j : Nat} (hj : j < 4) :
    swrWrite g (13 + j) wide a m = { g with saved := g.saved.set j (swrValue g wide a i) } := by
  obtain ⟨r, hr⟩ := lanesOf_eq_cons hi hm hlow
  have h19 : 13 + j ≠ 19 := by omega
  have h17 : 13 + j ≠ 17 := by omega
  have h31 : 13 + j ≠ 31 := by omega
  simp [swrWrite, hr, h19, h17, h31]

end Lowest

/-- A write of TPC gives each active lane its own value. -/
theorem tpc_of_moved {g g' : Group} {wide : Bool} {a : Src} {m : Mask} (h : Moved (swrWrite g 19 wide a m) g') :
    g' = { g with lanes := g'.lanes, clause := g'.clause, wait := g'.wait, readyAt := g'.readyAt } ∧
      ∀ (i : Nat) (l : Lane), g.lanes[i]? = some l → ∃ l' : Lane, g'.lanes[i]? = some l' ∧
        l' = { l with tpc := if m.getLsbD i = true then swrValue g wide a i else l.tpc, pc := l'.pc, ins := l'.ins, st := l'.st } := by
  obtain ⟨e, hlen, hmv⟩ := h
  refine ⟨e, fun i l hl => ?_⟩
  have hw : (swrWrite g 19 wide a m).lanes[i]? = some (if m.getLsbD i then { l with tpc := swrValue g wide a i } else l) := by
    show (mapLanes m _ 0 g.lanes)[i]? = _
    simp [mapLanes_getElem?, hl]
  have hi : i < g'.lanes.length := hlen ▸ (List.getElem?_eq_some_iff.mp hw).1
  obtain ⟨y, hy, ey⟩ := hmv i _ (List.getElem?_eq_getElem hi)
  refine ⟨_, List.getElem?_eq_getElem hi, ey.trans ?_⟩
  cases hw.symm.trans hy
  split <;> rfl

theorem swrValue_s (g : Group) (wide : Bool) (r : BitVec 6) (i : Nat) :
    swrValue g wide (.s r) i = if wide then g.sreg r.toNat else (g.sreg r.toNat).extractLsb' 0 32 |>.zeroExtend 64 := by
  cases wide
  · show ((g.sreg r.toNat).setWidth 32).setWidth 64 = _
    simp [BitVec.setWidth_eq_extractLsb']
  · rfl

theorem swrValue_v (g : Group) (wide : Bool) (r : BitVec 8) (i : Nat) :
    (swrValue g wide (.v r) i).extractLsb' 0 32 = g.vreg r.toNat i ∧
      (swrValue g wide (.v r) i).extractLsb' 32 32 = if wide then g.vreg (r.toNat + 1) i else 0 := by
  cases wide
  · constructor
    · show ((g.vreg r.toNat i).setWidth 64).extractLsb' 0 32 = _
      ext k hk
      simpa [hk] using fun _ => by omega
    · show ((g.vreg r.toNat i).setWidth 64).extractLsb' 32 32 = 0
      ext k hk
      simp
  · exact ⟨BitVec.extractLsb'_append_eq_right .., BitVec.extractLsb'_append_eq_left ..⟩

theorem specialRegisterWrites : Claim.SpecialRegisterWrites := by
  intro s c h sc reg a hc
  refine ⟨fun hok => ?_, fun hok hmay => ?_, fun hok hmay => ?_, fun i => ⟨fun r ha => ?_, fun r ha => ?_⟩⟩
  · have hno : swrOperandOk c reg a = false := hok
    simp [Faults, exec_swr, onCur, hc, hno]
  · have hyes : swrOperandOk c reg a = true := hok
    have hno : swrAllowed c.g reg.toNat = false := Bool.eq_false_iff.mpr fun e => hmay ((swrAllowed_iff _ _).mp e)
    simp [Faults, exec_swr, onCur, hc, hyes, hno]
  · have done := completes_swr (h := h) (sc := sc) hc hok ((swrAllowed_iff _ _).mpr hmay)
    refine ⟨fun hn => ?_, fun hn hm => ?_, fun i hi hm hlow => ⟨fun hn => ?_, fun hn => ?_, fun j hj hn => ?_⟩⟩
    · rw [hn] at done
      obtain ⟨t, g', e, o, eg, hmv⟩ := done
      obtain ⟨eg', lanes⟩ := tpc_of_moved hmv
      exact ⟨t, g', e, o, eg, eg', fun i l _ hl => lanes i l hl⟩
    · rwa [hm, swrWrite_none c.g hn] at done
    · rwa [hn, swrWrite_traph hi hm hlow] at done
    · rwa [hn, swrWrite_nstat hi hm hlow] at done
    · rwa [hn, swrWrite_lstk hi hm hlow c.g _ a hj] at done
  · rw [ha, swrValue_s]
  · rw [ha]
    exact swrValue_v ..

/-- Settles O18: a read is a register word over `specialReg`; a write is allowed, refused or done as `swrAllowed` has it. -/
theorem specialRegisters : Obligations.SpecialRegisters := ⟨specialRegisterReads, specialRegisterWrites⟩

end Sys2Proof.Machine
end

section
/-! SUPPORT. A word's turn: from the group that may issue to `exec` of what its word decodes to. With it
StepRunsDecoded. -/

namespace Sys2Proof.Machine

open Sys2Proof

/-! ### The turn of a word -/

theorem choose_of_issueNext {s u : State} {i : Instr} (ha : s.agenda = []) (ht : s.turn % 2 = 0)
    (hn : issueNext { s with turn := s.turn + 1 } = some (.run i u)) : choose s = .run i u := by
  unfold choose
  split
  next h => rw [ha] at h; cases h
  next => simp [ht, hn]

/-- On a word's turn, with an empty agenda, a step runs what issuing comes to. -/
theorem step_of_issueNext {s u : State} {i : Instr} (hs : s.stopped = false) (ha : s.agenda = []) (ht : s.turn % 4 = 0)
    (hn : issueNext { tick s with turn := s.turn + 1 } = some (.run i u)) : step s = exec i u := by
  have heven : (tick s).turn % 2 = 0 := by
    show s.turn % 2 = 0
    omega
  simp [step, mayRun, hs, choose_of_issueNext (s := tick s) ha heven hn]

/-- The first two of every four turns are a word's, if a group may issue one. -/
theorem issueNext_of_canIssue {s : State} {p : Team × Group × Clause} (ht : s.turn / 2 % 2 = 0)
    (hp : s.issuing.findSome? (canIssue s) = some p) : issueNext s = some (issueWord s p.1 p.2.1 p.2.2) := by
  simp [issueNext, ht, nextWord, hp]

/-- A word that decodes to an instruction of its clause's class, in its place, passes the checks of R79. -/
theorem wordCheck_of_decode {n : Now} {w : Word} {i : Instr} (hw : decode w = .ok i)
    (hcls : (majorInfo (w.extractLsb' 56 8).toNat).map Prod.snd = some n.head.cls)
    (hend : majorEnds (w.extractLsb' 56 8).toNat = true → n.last = true) : wordCheck n w = .ok i := by
  have hplace : (majorEnds (w.extractLsb' 56 8).toNat && !n.last) = false := by
    cases he : majorEnds (w.extractLsb' 56 8).toNat
    · rfl
    · simp [hend he]
  simp only [wordCheck, hw, hcls, hplace, bne_self_eq_false, Bool.false_eq_true, if_false]

/-- The word is the current one, and its group the last to have issued. -/
def State.atWord (s : State) (r : GRef) (cl : Clause) : State :=
  { s with
    now := some (wordNow r cl)
    issuing := s.issuing.filter (fun x => x != r) ++ [r] }

/-- What is counted and performed, once the word is fetched and found in its place. -/
theorem issueWord_run {s s2 : State} {t : Team} {g : Group} {cl : Clause} {w : Word} {i : Instr}
    (hy : g.ylddl ≠ 0 ∨ cl.redo = true)
    (hf : fetchWord (s.atWord ⟨t.id, g.grp⟩ cl) t.core t.slot cl.pc = (.word w, s2))
    (hw : wordCheck (wordNow ⟨t.id, g.grp⟩ cl) w = .ok i) :
    issueWord s t g cl = .run i (countIssue s2 ⟨t.id, g.grp⟩ cl) := by
  have hcount : (g.ylddl == 0 && !cl.redo) = false := by
    rcases hy with h | h <;> simp [h]
  unfold State.atWord at hf
  simp [issueWord, hcount, show (wordNow ⟨t.id, g.grp⟩ cl).pc = cl.pc from rfl, hf, hw]

theorem step_of_word {s s2 : State} {t : Team} {g : Group} {cl : Clause} {w : Word} {i : Instr}
    (hs : s.stopped = false) (ha : s.agenda = []) (ht : s.turn % 4 = 0)
    (hp : s.issuing.findSome? (canIssue { tick s with turn := s.turn + 1 }) = some (t, g, cl))
    (hy : g.ylddl ≠ 0 ∨ cl.redo = true)
    (hf : fetchWord (({ tick s with turn := s.turn + 1 } : State).atWord ⟨t.id, g.grp⟩ cl) t.core t.slot cl.pc = (.word w, s2))
    (hw : decode w = .ok i) (hcls : (majorInfo (w.extractLsb' 56 8).toNat).map Prod.snd = some cl.head.cls)
    (hend : majorEnds (w.extractLsb' 56 8).toNat = true → (wordNow ⟨t.id, g.grp⟩ cl).last = true) :
    step s = exec i (countIssue s2 ⟨t.id, g.grp⟩ cl) := by
  have hturn : ({ tick s with turn := s.turn + 1 } : State).turn / 2 % 2 = 0 := by
    show (s.turn + 1) / 2 % 2 = 0
    omega
  refine step_of_issueNext hs ha ht ((issueNext_of_canIssue hturn hp).trans (congrArg some ?_))
  exact issueWord_run hy hf (wordCheck_of_decode hw hcls hend)

/-! ### The placed word -/

theorem leNat_wordBytes (w : Word) : leNat (Sys2Proof.wordBytes w) = w.toNat := by
  have hb : Sys2Proof.wordBytes w = natBytes 8 w.toNat := by
    simp [Sys2Proof.wordBytes, natBytes, List.range_succ, BitVec.extractLsb', Nat.shiftRight_eq_div_pow, Nat.div_div_eq_div_mul]
  rw [hb, leNat_natBytes]
  exact Nat.mod_eq_of_lt w.isLt

/-- A word whose line is in the instruction cache is read from it. -/
theorem fetchWord_of_iline {s : State} {core slot : Nat} {va : Word} {l : ILine} (h : iline s core slot va.toNat = some l) :
    fetchWord s core slot va = (.word (BitVec.ofNat 64 (leNat ((l.bytes.drop (va.toNat % 128)).take 8))), s) := by
  simp [fetchWord, h]

theorem fetchWord_placed {s : State} {w : Word} {r : List ILine} (h : s.icache = placedLine w :: r) :
    fetchWord s 0 0 (placedText + 8) = (.word w, s) := by
  have hl : iline s 0 0 (placedText + 8 : Word).toNat = some (placedLine w) := by
    rw [iline, h, List.find?_cons_of_pos]
    show (_ : Bool) = true
    rfl
  have hb : ((placedLine w).bytes.drop ((placedText + 8 : Word).toNat % 128)).take 8 = Sys2Proof.wordBytes w := rfl
  rw [fetchWord_of_iline hl, hb, leNat_wordBytes, BitVec.ofNat_toNat, BitVec.setWidth_eq]

/-- A word that decodes has the class that its placed header gives its clause. -/
theorem majorInfo_placedClass {w : Word} {i : Instr} (hw : decode w = .ok i) :
    (majorInfo (w.extractLsb' 56 8).toNat).map Prod.snd = some (placedClass w) := by
  have hd : decBody (splitWord w).major.toNat (decHead (splitWord w)) (splitWord w).body = some (i, true) :=
    (decode_eq_ok_iff.mp hw).1
  have hm : (splitWord w).major = w.extractLsb' 56 8 := rfl
  rw [hm] at hd
  cases hi : majorInfo (w.extractLsb' 56 8).toNat with
  | none => rw [decBody, hi] at hd; cases hd
  | some p => rw [placedClass, hi, Option.map_some]

section Placed

variable (s : State) (w : Word)

/-- The state in which the placed word's step issues. -/
def placedTurn : State := { tick (placeWord s w) with turn := (placeWord s w).turn + 1 }

/-- The clause that the placed group stands in. -/
def placedClause : Clause := ⟨placedText, placedHeader w, lowMask 16, 0, 0, false⟩

/-- The placed word's context. -/
def placedNow : Now := wordNow ⟨s.seqN, 0⟩ (placedClause w)

theorem placed_team? : (placedTurn s w).team? s.seqN = some (placedTeam s w) := by
  simp [State.team?, placedTurn, tick, placeWord, placedTeam]

theorem placed_launch? : (placedTurn s w).launch? s.seqN = some (placedLaunch s) := by
  simp [State.launch?, placedTurn, tick, placeWord, placedLaunch]

theorem placed_canIssue : (placeWord s w).issuing.findSome? (canIssue (placedTurn s w)) =
    some (placedTeam s w, placedGroup s w, placedClause w) := by
  have h : canIssue (placedTurn s w) ⟨s.seqN, 0⟩ = some (placedTeam s w, placedGroup s w, placedClause w) := by
    rw [canIssue, placed_team?]
    rfl
  rw [show (placeWord s w).issuing = ⟨s.seqN, 0⟩ :: s.issuing from rfl, List.findSome?_cons, h]

end Placed

/-- Settles O58: a word's turn runs what its word decodes to, and the placed word's state gives it the turn. -/
theorem stepRunsDecoded : Obligations.StepRunsDecoded := by
  refine ⟨fun s s2 t g cl w i hs ha ht hp hy hf hw hcls hend =>
    step_of_word hs ha ht hp hy hf hw hcls hend, fun s w i hw => ?_⟩
  rw [State.withFetchWord, Nat.mod_eq_of_lt w.isLt, BitVec.ofNat_toNat, BitVec.setWidth_eq]
  have hcur : cur? ((placedTurn s w).atWord ⟨s.seqN, 0⟩ (placedClause w)) =
      some ⟨placedNow s w, placedTeam s w, placedGroup s w, placedLaunch s⟩ :=
    cur?_of_parts rfl (placed_team? s w) rfl (placed_launch? s w)
  have hrun : step (placeWord s w) =
      exec i (countIssue ((placedTurn s w).atWord ⟨s.seqN, 0⟩ (placedClause w)) ⟨s.seqN, 0⟩ (placedClause w)) :=
    step_of_word rfl rfl rfl (placed_canIssue s w) (.inl (show (65535 : Nat) ≠ 0 by decide))
      (fetchWord_placed rfl) hw (majorInfo_placedClass hw) fun _ => rfl
  exact ⟨_, _, hrun, cur?_modGroup (fun g => { g with ylddl := g.ylddl - 1 }) hcur (fun _ => rfl), rfl, rfl, rfl⟩

end Sys2Proof.Machine
end

section
/-! SUPPORT. The sets of lanes that a group's state picks, and the least of a list as the model's folds find it. -/

namespace Sys2Proof.Machine

open Sys2Proof

/-! ### Sets of lanes -/

theorem foldl_or_twoPow (l : List Nat) (m : Mask) {i : Nat} (hi : i < 64) :
    (l.foldl (fun m i => m ||| BitVec.twoPow 64 i) m).getLsbD i = true ↔ m.getLsbD i = true ∨ i ∈ l := by
  induction l generalizing m with
  | nil => simp
  | cons a r ih =>
    have hbit : (BitVec.twoPow 64 a).getLsbD i = true ↔ i = a := by
      rw [BitVec.getLsbD_twoPow, Bool.and_eq_true, decide_eq_true_eq, decide_eq_true_eq]
      omega
    rw [List.foldl_cons, ih, BitVec.getLsbD_or, Bool.or_eq_true, hbit, List.mem_cons, or_assoc]

theorem maskOf_getLsbD (l : List Nat) {i : Nat} (hi : i < 64) : (maskOf l).getLsbD i = true ↔ i ∈ l := by
  rw [maskOf, foldl_or_twoPow l 0 hi]
  simp

theorem mem_lanesWhere {f : Lane → Bool} {j k : Nat} {l : List Lane} :
    j ∈ lanesWhere f k l ↔ ∃ i x, j = k + i ∧ l[i]? = some x ∧ f x = true := by
  induction l generalizing k with
  | nil => simp [lanesWhere]
  | cons a r ih =>
    have hstep : j ∈ lanesWhere f k (a :: r) ↔ (j = k ∧ f a = true) ∨ j ∈ lanesWhere f (k + 1) r := by
      rw [lanesWhere]
      split <;> simp_all
    rw [hstep, ih]
    constructor
    · rintro (⟨rfl, ha⟩ | ⟨i, x, rfl, hx, hf⟩)
      · exact ⟨0, a, rfl, rfl, ha⟩
      · exact ⟨i + 1, x, by omega, hx, hf⟩
    · rintro ⟨_ | i, x, rfl, hx, hf⟩
      · cases hx
        exact .inl ⟨rfl, hf⟩
      · exact .inr ⟨i, x, by omega, hx, hf⟩

/-- A lane is in the set that a test picks when it is there and passes. -/
theorem where_getLsbD (g : Group) (f : Lane → Bool) {i : Nat} (hi : i < 64) :
    (g.where_ f).getLsbD i = true ↔ ∃ x, g.lanes[i]? = some x ∧ f x = true := by
  rw [Group.where_, maskOf_getLsbD _ hi, mem_lanesWhere]
  simp

theorem exists_getLsbD_of_ne_zero {m : Mask} (h : m ≠ 0) : ∃ i, m.getLsbD i = true := by
  by_contra hno
  push Not at hno
  exact h (BitVec.eq_of_getLsbD_eq fun i _ => by simpa using hno i)

/-! ### The least of a list -/

/-- A fold that changes its choice only for a smaller one ends with the least. -/
theorem foldl_least {α β : Type} [LinearOrder β] (key : α → β) (less : α → α → Prop) [DecidableRel less]
    (hless : ∀ a b, less a b ↔ key a < key b) (r : List α) (p : α) :
    r.foldl (fun b q => if less q b then q else b) p ∈ p :: r ∧
      ∀ q ∈ p :: r, key (r.foldl (fun b q => if less q b then q else b) p) ≤ key q := by
  induction r generalizing p with
  | nil => simp
  | cons a r ih =>
    rw [List.foldl_cons]
    obtain ⟨hmem, hle⟩ := ih (if less a p then a else p)
    have hfirst := hle _ List.mem_cons_self
    by_cases h : less a p
    · rw [if_pos h] at hmem hle hfirst ⊢
      refine ⟨List.mem_cons_of_mem p hmem, fun q hq => ?_⟩
      rcases List.mem_cons.mp hq with rfl | hq
      · exact hfirst.trans ((hless _ _).mp h).le
      · exact hle q hq
    · rw [if_neg h] at hmem hle hfirst ⊢
      refine ⟨?_, fun q hq => ?_⟩
      · rcases List.mem_cons.mp hmem with e | e
        · exact List.mem_cons.mpr (.inl e)
        · exact List.mem_cons_of_mem p (List.mem_cons_of_mem a e)
      · rcases List.mem_cons.mp hq with rfl | hq
        · exact hfirst
        · rcases List.mem_cons.mp hq with rfl | hq
          · exact hfirst.trans (not_lt.mp fun k => h ((hless _ _).mpr k))
          · exact hle q (List.mem_cons_of_mem p hq)

/-! ### States of the same teams -/

theorem team?_of_teams {s t : State} (h : t.teams = s.teams) (n : Nat) : t.team? n = s.team? n := by
  rw [State.team?, h, State.team?]

theorem group?_of_teams {s t : State} (h : t.teams = s.teams) (r : GRef) : t.group? r = s.group? r := by
  rw [State.group?, team?_of_teams h, State.group?]

/-- A fault that a team with no ending takes is the one it ends with. -/
theorem ending_endTeam {s : State} {n : Nat} {t : Team} (e : Ending) (ht : s.team? n = some t) (he : t.ending = none) :
    ((endTeam s n e).team? n).map (·.ending) = some (some e) := by
  simp [endTeam_team?, ht, he, team?_id ht]

end Sys2Proof.Machine
end

section
/-! SUPPORT. A fetch of text changes no team: neither the walk, nor the filter of second names and the recall that it may
make. -/

namespace Sys2Proof.Machine

open Sys2Proof

theorem homeLine_teams (s : State) (line : Nat) : (homeLine s line).teams = s.teams := by
  unfold homeLine
  dsimp only
  split <;> rfl

theorem setClusters_teams (s : State) (line : Nat) (f : CLine → Option CLine) : (setClusters s line f).teams = s.teams :=
  homeLine_teams _ line

theorem dropCopies_teams (s : State) (line : Nat) (keep : Option Nat) : (dropCopies s line keep).teams = s.teams :=
  setClusters_teams s line _

theorem markDirty_teams (s : State) (slot va : Nat) : (markDirty s slot va).teams = s.teams := by
  unfold markDirty
  dsimp only
  split <;> rfl

theorem performLine_teams (s : State) (slot : Nat) (x : Xlat) (w : GWrite) : (performLine s slot x w).teams = s.teams :=
  markDirty_teams _ slot w.va

/-- A fold of steps none of which changes a team changes none. -/
theorem foldl_teams {α : Type} {f : State → α → State} (hf : ∀ s a, (f s a).teams = s.teams) (l : List α) (s : State) :
    (l.foldl f s).teams = s.teams := by
  induction l generalizing s with
  | nil => rfl
  | cons a r ih => rw [List.foldl_cons, ih, hf]

theorem performEv_teams (s : State) (line : Nat) (x : Xlat) (f : EvWrite → Bool) : (performEv s line x f).teams = s.teams := by
  show (List.foldl _ _ _ : State).teams = _
  rw [foldl_teams (f := fun s c => dropStale s c line) (fun _ _ => rfl),
    foldl_teams fun s w => performLine_teams s (lineSlot line) x w]

theorem translate_teams (s : State) (slot va : Nat) (k : AK) : (translate s slot va k).2.teams = s.teams := by
  have hnew : (translate.walkNew slot va k s).2.teams = s.teams := by
    unfold translate.walkNew
    split <;> rfl
  unfold translate
  split
  · split
    · rfl
    · exact hnew
  · exact hnew

theorem recallName_teams (s : State) (line : Nat) : (recallName s line).teams = s.teams := by
  unfold recallName
  dsimp only
  rw [dropCopies_teams]
  split
  · have ht := translate_teams s (lineSlot line) (lineVa line) .write
    split
    next h =>
      rw [h] at ht
      split
      · exact ht
      · rw [performEv_teams, ht]
    next h =>
      rw [h] at ht
      exact ht
  · rfl

theorem aliasFill_teams (s : State) (slot va : Nat) (x : Xlat) : (aliasFill s slot va x).teams = s.teams := by
  unfold aliasFill
  dsimp only
  split
  · split
    · rfl
    · exact recallName_teams s _
  · rfl

theorem fetchWord_teams (s : State) (core slot : Nat) (va : Word) : (fetchWord s core slot va).2.teams = s.teams := by
  unfold fetchWord
  dsimp only
  split
  · rfl
  · split
    · rfl
    · have ht := translate_teams s slot va.toNat .fetch
      split
      next h =>
        rw [h] at ht
        exact ht
      next x s1 h =>
        rw [h] at ht
        split
        · exact ht
        · have ha := (aliasFill_teams s1 slot va.toNat x).trans ht
          split
          · exact ha
          · dsimp only
            split <;> exact ha

theorem teams_of_fetchWord {s s1 : State} {core slot : Nat} {va : Word} {f : Fetch} (h : fetchWord s core slot va = (f, s1)) :
    s1.teams = s.teams := by
  have ht := fetchWord_teams s core slot va
  rwa [h] at ht

end Sys2Proof.Machine
end

section
/-! SUPPORT. Clause entry and OVERRUN: the group picked, the place it issues at, and what entering leaves. -/

namespace Sys2Proof.Machine

open Sys2Proof

/-! ### The group and the place -/

/-- The group picked became ready first; of those that did, its turn comes first. -/
theorem pickGroup_least {last : Nat} {l : List (Team × Group)} {p : Team × Group} (h : pickGroup last l = some p)
    {q : Team × Group} (hq : q ∈ l) :
    p.2.readyAt ≤ q.2.readyAt ∧ (q.2.readyAt = p.2.readyAt → turnOf last p.2.grp ≤ turnOf last q.2.grp) := by
  cases l with
  | nil => cases hq
  | cons a r =>
    have hl := foldl_least (fun p : Team × Group => toLex (p.2.readyAt, turnOf last p.2.grp))
      (fun q b => (q.2.readyAt < b.2.readyAt ||
        (q.2.readyAt == b.2.readyAt && turnOf last q.2.grp < turnOf last b.2.grp)) = true)
      (fun q b => by simp [Prod.Lex.toLex_lt_toLex]) r a
    have hle := hl.2 q hq
    rw [show r.foldl _ a = p from Option.some.inj h, Prod.Lex.toLex_le_toLex] at hle
    dsimp only at hle
    omega

/-- The lanes a group could issue for stand at its issue address or above it, and X is those that stand there. -/
theorem issueAt_ready {g : Group} {pc : Word} {ins : Option Inside} {x : Mask} (h : issueAt g = some (pc, ins, x)) {i : Nat}
    (hi : i < 64) (hr : g.ready.getLsbD i = true) :
    ∃ l, g.lane i = some l ∧ pc.toNat ≤ l.pc.toNat ∧ (x.getLsbD i = true ↔ l.pc = pc ∧ l.ins = ins) := by
  obtain ⟨l, hl, -⟩ := (where_getLsbD g _ hi).mp hr
  have hmem : ∀ j y, (j, y) ∈ (lanesOf g.ready).filterMap (fun i => (g.lane i).map (fun l => (i, l))) ↔
      j ∈ lanesOf g.ready ∧ g.lane j = some y := by
    intro j y
    simp only [List.mem_filterMap, Option.map_eq_some_iff, Prod.mk.injEq]
    constructor
    · rintro ⟨k, hk, y', hy, rfl, rfl⟩
      exact ⟨hk, hy⟩
    · rintro ⟨hk, hy⟩
      exact ⟨j, hk, y, hy, rfl, rfl⟩
  have hil := (hmem i l).mpr ⟨lanesOf_mem.mpr ⟨hi, hr⟩, hl⟩
  unfold issueAt at h
  split at h
  · cases h
  · rename_i p r hp
    rw [hp] at hmem hil
    have hle := (foldl_least (fun q : Nat × Lane => q.2.pc.toNat) (fun q b => q.2.pc.toNat < b.2.pc.toNat)
      (fun _ _ => Iff.rfl) r p).2 (i, l) hil
    simp only [Option.some.injEq, Prod.mk.injEq] at h
    obtain ⟨rfl, rfl, rfl⟩ := h
    refine ⟨l, hl, hle, ?_⟩
    rw [maskOf_getLsbD _ hi]
    simp only [List.mem_map, List.mem_filter, Bool.and_eq_true, beq_iff_eq]
    constructor
    · rintro ⟨⟨j, y⟩, ⟨hj, hpc, hins⟩, rfl⟩
      cases hl.symm.trans ((hmem j y).mp hj).2
      exact ⟨hpc, hins⟩
    · rintro ⟨hpc, hins⟩
      exact ⟨(i, l), ⟨hil, hpc, hins⟩, rfl⟩

/-! ### Entering -/

theorem exec_clauseEntry {s : State} {core pipe : Nat} {t : Team} {g : Group} (hp : pipe < 4) (hb : pipeBusy s core pipe = false)
    (hg : pickGroup (lastServed s core pipe) (eligibles s core) = some (t, g)) :
    exec (.clauseEntry core pipe) s = .next (enterClause s t g pipe) := by
  show execClauseEntry core pipe s = _
  simp [execClauseEntry, Nat.not_le.mpr hp, hb, hg]

/-- The ending that a header which is none gives. -/
def badHeader (t : Team) (g : Group) (pc : Word) (x : Mask) : Ending :=
  ⟨.illegalClause, false, ⟨t.id, g.grp⟩, firstLane x, 0, pc, 0, 0, 0⟩

/-- The state in which the group has entered the clause on the pipe. -/
def entered (s : State) (t : Team) (g : Group) (pipe : Nat) (cl : Clause) : State :=
  { s.modGroup ⟨t.id, g.grp⟩ (fun g => { g with clause := some cl }) with
    issuing := s.issuing ++ [⟨t.id, g.grp⟩]
    served := (s.served.filter (fun p => p.1 != t.core * 4 + pipe)) ++ [(t.core * 4 + pipe, g.grp)] }

theorem enterClause_odd {s : State} {t : Team} {g : Group} {pipe : Nat} {pc : Word} {x : Mask}
    (hi : issueAt g = some (pc, none, x)) (ho : pc.toNat % 8 ≠ 0) :
    enterClause s t g pipe = endTeam s t.id (badHeader t g pc x) := by
  simp [enterClause, hi, ho, badHeader]

section Fetched

variable {s s1 : State} {t : Team} {g : Group} {pc w : Word} {x : Mask} (pipe : Nat) (hi : issueAt g = some (pc, none, x))
  (ho : pc.toNat % 8 = 0) (hf : fetchWord s t.core t.slot pc = (.word w, s1))

include hi ho hf

theorem enterClause_header {hd : Header} (hh : decodeHeader w = some hd) :
    enterClause s t g pipe = entered s1 t g pipe ⟨pc, hd, x, 0, pipe, false⟩ := by
  simp [enterClause, hi, ho, hf, hh, entered]

theorem enterClause_badHeader (hh : decodeHeader w = none) : enterClause s t g pipe = endTeam s1 t.id (badHeader t g pc x) := by
  simp [enterClause, hi, ho, hf, hh, badHeader]

end Fetched

theorem entered_spec {s : State} {t : Team} {g : Group} (pipe : Nat) (cl : Clause) (hg : s.group? ⟨t.id, g.grp⟩ = some g) :
    let u := entered s t g pipe cl
    OnlyGroup { s with served := u.served } u ⟨t.id, g.grp⟩ ∧ u.group? ⟨t.id, g.grp⟩ = some { g with clause := some cl } ∧
      ⟨t.id, g.grp⟩ ∈ u.issuing ∧ lastServed u t.core pipe = g.grp := by
  intro u
  obtain ⟨o, e⟩ := modGroup_spec (s := { s with served := u.served }) (fun g => { g with clause := some cl }) (fun _ => rfl) hg
  refine ⟨o.trans (OnlyGroup.book _ _ u.issuing s.seqN), e, List.mem_append_right _ (List.mem_singleton.mpr rfl), ?_⟩
  have hnone : (s.served.filter (fun p => p.1 != t.core * 4 + pipe)).find? (fun p => p.1 == t.core * 4 + pipe) = none :=
    List.find?_eq_none.mpr fun p hp => by simpa using (List.mem_filter.mp hp).2
  simp [lastServed, u, entered, List.find?_append, hnone]

theorem exec_overrun {s : State} {r : GRef} {g : Group} {cl : Clause} (hg : s.group? r = some g) (hcl : g.clause = some cl)
    (hy : g.ylddl = 0) (hr : cl.redo = false) (hw : g.wait = none) :
    exec (.overrun r) s = .next (endTeam s r.team ⟨.overrun, false, r, firstLane cl.x, 0, cl.pc, 0, 0, 0⟩) := by
  show execOverrun r s = _
  simp [execOverrun, hg, hcl, hy, hr, hw]

theorem clauseEntry : Claim.ClauseEntry := by
  refine ⟨fun s s1 core pipe t g pc x w hp hb hpick hg ht hi => ⟨fun p hp => pickGroup_least hpick hp,
    fun i hi64 hr => issueAt_ready hi hi64 hr, fun he hbad => ?_, fun ho hf hd hh => ?_⟩,
    fun s r t g cl ht he hg hcl hy hr hw => ⟨_, _, exec_overrun hg hcl hy hr hw, ending_endTeam _ ht he, rfl, rfl⟩⟩
  · by_cases ho : pc.toNat % 8 = 0
    · obtain ⟨hf, hh⟩ := hbad.resolve_left fun k => k ho
      have ht1 : s1.team? t.id = some t := (team?_of_teams (teams_of_fetchWord hf) _).trans ht
      refine ⟨_, badHeader t g pc x, exec_clauseEntry hp hb hpick, ?_, rfl, rfl⟩
      rw [enterClause_badHeader pipe hi ho hf hh]
      exact ending_endTeam (badHeader t g pc x) ht1 he
    · refine ⟨_, badHeader t g pc x, exec_clauseEntry hp hb hpick, ?_, rfl, rfl⟩
      rw [enterClause_odd hi ho]
      exact ending_endTeam (badHeader t g pc x) ht he
  · have hg1 : s1.group? ⟨t.id, g.grp⟩ = some g := (group?_of_teams (teams_of_fetchWord hf) _).trans hg
    refine ⟨_, exec_clauseEntry hp hb hpick, ?_⟩
    rw [enterClause_header pipe hi ho hf hh]
    exact entered_spec pipe ⟨pc, hd, x, 0, pipe, false⟩ hg1

end Sys2Proof.Machine
end

section
/-! SUPPORT. The return of results, and the waits that end with it. -/

namespace Sys2Proof.Machine

open Sys2Proof

/-! ### Returning a result -/

theorem bornHandleOf_spec (s : State) (r : GRef) (site : Word) (ws : List RegW) (first : Bool) :
    ∃ ro, (bornHandleOf s r site ws first).2 = { s with roster := ro } ∧
      ∀ n, n ≠ (birthOf s r).roll.toNat → mfind ro n = mfind s.roster n := by
  unfold bornHandleOf
  split
  · exact intern_spec s _ site first
  · exact ⟨s.roster, rfl, fun _ _ => rfl⟩

theorem write_results (n : Nat) (g : Group) (w : RegW) :
    (Group.write n g w).pend = g.pend ∧ (Group.write n g w).sb = g.sb := by
  cases w with
  | q | p => simp only [Group.write, Group.setQ, Group.setP]; split <;> exact ⟨rfl, rfl⟩
  | _ => exact ⟨rfl, rfl⟩

/-- Writes of registers leave the outstanding results and their counts. -/
theorem writes_results (n : Nat) (ws : List RegW) (g : Group) :
    (Group.writes n g ws).pend = g.pend ∧ (Group.writes n g ws).sb = g.sb := by
  unfold Group.writes
  induction ws generalizing g with
  | nil => exact ⟨rfl, rfl⟩
  | cons w r ih =>
    rw [List.foldl_cons, (ih _).1, (ih _).2]
    exact write_results n g w

/-- The count of a returned result's slot falls by one. -/
theorem dropPend_sb (g : Group) (p : PendRes) (j : Nat) :
    mget 0 (g.dropPend p).sb j = mget 0 g.sb j - if p.slot = some j then 1 else 0 := by
  unfold Group.dropPend
  cases hs : p.slot with
  | none => simp
  | some n =>
    simp only [mget_mput, Option.some.injEq]
    by_cases h : j = n
    · simp [h]
    · simp [h, Ne.symm h]

/-- The group is as it was but for its wait and since when it is eligible. -/
def Roused (g g' : Group) : Prop := g' = { g with wait := g'.wait, readyAt := g'.readyAt }

theorem Roused.trans {a b c : Group} (h : Roused a b) (k : Roused b c) : Roused a c := by
  unfold Roused at h k ⊢
  rw [k, h]

theorem afterReturn_spec {s : State} {r : GRef} {g : Group} (h : s.group? r = some g) :
    OnlyGroup s (afterReturn s r) r ∧ ∃ g', (afterReturn s r).group? r = some g' ∧ Roused g g' := by
  have stay : OnlyGroup s s r ∧ ∃ g', s.group? r = some g' ∧ Roused g g' := ⟨OnlyGroup.refl s r, g, h, rfl⟩
  have woken : OnlyGroup s (wake s r) r ∧ ∃ g', (wake s r).group? r = some g' ∧ Roused g g' :=
    ⟨(wake_spec h).1, _, (wake_spec h).2, rfl⟩
  simp only [afterReturn, h]
  split
  · split
    · split
      · exact woken
      · exact stay
    · split
      · exact woken
      · exact stay
    · exact stay
  · exact stay

theorem rearm_spec {s s' : State} {r : GRef} {g : Group} (h : s'.group? r = some g) :
    OnlyGroup s' (rearm s s' r) r ∧ ∃ g', (rearm s s' r).group? r = some g' ∧ Roused g g' := by
  unfold rearm
  dsimp only
  split
  · obtain ⟨o, e⟩ := modGroup_spec (fun g => { g with readyAt := s'.seqN }) (fun _ => rfl) h
    exact ⟨o.trans (OnlyGroup.book _ r s'.issuing (s'.seqN + 1)), _, e, rfl⟩
  · exact ⟨OnlyGroup.refl s' r, g, h, rfl⟩

/-- A result that is ready, and the oldest of its queue, is written and gone. -/
theorem resultReturn_spec {s : State} {r : GRef} {g : Group} {n : Nat} {p : PendRes} (hg : s.group? r = some g)
    (hp : g.pend.find? (fun p => p.id == n && p.ready && g.queueHead p) = some p) :
    ∃ t g' k, exec (.resultReturn r n) s = .next t ∧ OnlyGroupBirth s t r ∧ t.group? r = some g' ∧
      Roused (Group.writes k (g.dropPend p) p.writes) g' := by
  obtain ⟨ro, e, hro⟩ := bornHandleOf_spec s r p.site p.writes (!p.counted)
  let k := (bornHandleOf s r p.site p.writes (!p.counted)).1
  let s1 : State := { s with roster := ro }
  have hgrp : ∀ g : Group, (Group.writes k (g.dropPend p) p.writes).grp = g.grp := fun g => writes_grp k p.writes (g.dropPend p)
  obtain ⟨o1, e1⟩ := modGroup_spec (s := s1) (fun g => Group.writes k (g.dropPend p) p.writes) hgrp hg
  obtain ⟨o2, g2, e2, w2⟩ := afterReturn_spec e1
  obtain ⟨o3, g3, e3, w3⟩ := rearm_spec (s := s1) e2
  have hi : exec (.resultReturn r n) s =
      .next (rearm s1 (afterReturn (s1.modGroup r fun g => Group.writes k (g.dropPend p) p.writes) r) r) := by
    show execResultReturn r n s = _
    simp only [execResultReturn, hg, hp, e, s1, k]
  have o := (o1.trans o2).trans o3
  have hr : (rearm s1 (afterReturn (s1.modGroup r fun g => Group.writes k (g.dropPend p) p.writes) r) r).roster = ro := by
    rw [o.1]
  exact ⟨_, g3, k, hi, ⟨by rw [hr]; exact o, by rw [hr]; exact hro⟩, e3, w2.trans w3⟩

/-! ### Waits that end -/

theorem wakeIf_due {s : State} {r : GRef} {g : Group} {w : Waiting} {f : Group → Why → Bool} {k : State → Waiting → State}
    (hg : s.group? r = some g) (hw : g.wait = some w) (hf : f g w.why = true) : wakeIf s r f k = k s w := by
  simp [wakeIf, hg, hw, hf]

theorem wakes_of_wake {i : Instr} {s : State} {r : GRef} {g : Group} (hg : s.group? r = some g)
    (hi : exec i s = .next (wake s r)) : Claim.wakes i s r g :=
  ⟨_, hi, wake_spec hg⟩

/-- An acquire changes only what older copies there are. -/
theorem acquireAt_eq (s : State) (core : Nat) (sc : Scope) : acquireAt s core sc = { s with stale := Claim.copies s core sc } := by
  cases sc <;> rfl

section Wakes

variable {s : State} {r : GRef} {g : Group} {n : Now} (hg : s.group? r = some g)

include hg

theorem exec_switchWake_switch (hw : g.wait = some ⟨.switch, n⟩) (hp : g.pend = []) :
    exec (.switchWake r) s = .next (wake s r) := by
  show execSwitchWake r s = _
  rw [execSwitchWake, wakeIf_due hg hw (by simp [Group.drained, hp])]

theorem exec_switchWake_acquire {sc : Scope} {t : Team} (hw : g.wait = some ⟨.acquire sc, n⟩) (ht : s.team? r.team = some t)
    (hp : ∀ p ∈ g.pend, p.ready = true) : exec (.switchWake r) s = .next (wake (acquireAt s t.core sc) r) := by
  show execSwitchWake r s = _
  rw [execSwitchWake, wakeIf_due hg hw (by simpa using hp)]
  simp only [ht]

/-- An entry of the queue is free: it holds fewer than its 16. -/
theorem exec_queueEntryFree {w : Why} {q : ResQ} (hw : g.wait = some ⟨w, n⟩)
    (hq : (w, q) = (.sfuFull, .sfu) ∨ (w, q) = (.cvtFull, .cvt))
    (hp : (g.pend.filter (fun p => p.queue == q)).length < 16) : exec (.queueEntryFree r) s = .next (wake s r) := by
  have hfree : queueFull g q = false := by simp [queueFull, hp]
  show execQueueEntryFree r s = _
  rw [execQueueEntryFree, wakeIf_due hg hw]
  rcases hq with h | h <;> cases h <;> simp [hfree]

theorem exec_yldDrainComplete {t : Team} (hw : g.wait = some ⟨.yldDrain, n⟩) (ht : s.team? r.team = some t) (hp : g.pend = []) :
    exec (.yldDrainComplete r) s = .next (if t.preempt then
      (standAt s r).modGroup r (fun g => { g with wait := some ⟨.preempt, n⟩ }) else wake (standAt s r) r) := by
  obtain ⟨-, -, -, hteam⟩ := OnlyGroup.standAt s r
  obtain ⟨u, hu, e⟩ := hteam t ht
  have hpre : u.preempt = t.preempt := by rw [e]
  show execYldDrainComplete r s = _
  rw [execYldDrainComplete, wakeIf_due hg hw (by simp [Group.drained, hp])]
  simp only [yldDone, hu, hpre]

end Wakes

theorem resultEvents : Claim.ResultEvents := by
  intro s r g hg
  refine ⟨fun n p hp => ?_, fun w t hw ht => ?_⟩
  · obtain ⟨u, g', k, hi, o, e, hrouse⟩ := resultReturn_spec hg hp
    have hid : p.id = n := by
      have hfound := List.find?_some hp
      simp only [Bool.and_eq_true, beq_iff_eq] at hfound
      exact hfound.1.1
    have hpend : g'.pend = (g.dropPend p).pend := by rw [hrouse]; exact (writes_results k p.writes _).1
    have hsb : g'.sb = (g.dropPend p).sb := by rw [hrouse]; exact (writes_results k p.writes _).2
    exact ⟨u, g', k, hi, o, e, by rw [hpend, ← hid]; rfl, fun j => by rw [hsb, dropPend_sb], hrouse⟩
  · obtain ⟨why, n⟩ := w
    have hst : (standAt s r).group? r = some g := (group?_standAt s r r).trans hg
    refine ⟨?_, ?_, ?_, ?_, ?_, ?_⟩
    · rintro rfl hp
      exact wakes_of_wake hg (exec_switchWake_switch hg hw hp)
    · rintro sc rfl hp
      refine ⟨_, exec_switchWake_acquire hg hw ht hp, ?_, ?_⟩
      · rw [acquireAt_eq, (wake_spec (s := { s with stale := Claim.copies s t.core sc }) hg).2]
        rfl
      · rw [acquireAt_eq]
        rfl
    · rintro rfl hp
      exact wakes_of_wake hg (exec_queueEntryFree hg hw (.inl rfl) hp)
    · rintro rfl hp
      exact wakes_of_wake hg (exec_queueEntryFree hg hw (.inr rfl) hp)
    · rintro rfl hp hpre
      obtain ⟨o, e⟩ := wake_spec hst
      refine ⟨_, exec_yldDrainComplete hg hw ht hp, ?_⟩
      rw [hpre]
      exact ⟨(OnlyGroup.standAt s r).trans o, e⟩
    · rintro rfl hp hpre
      obtain ⟨o, e⟩ := modGroup_spec (fun g => { g with wait := some ⟨.preempt, n⟩ }) (fun _ => rfl) hst
      refine ⟨_, exec_yldDrainComplete hg hw ht hp, ?_⟩
      rw [hpre]
      exact ⟨(OnlyGroup.standAt s r).trans o, e⟩

end Sys2Proof.Machine
end

section
/-! SUPPORT. The releases of held and deferred lanes. With the events of clauses and results, IssueEvents. -/

namespace Sys2Proof.Machine

open Sys2Proof

/-! ### Live lanes and where they are held -/

/-- The lane at `i` is live, and is `x`. -/
def LiveLane (g : Group) (i : Nat) (x : Lane) : Prop := g.live.getLsbD i = true ∧ g.lanes[i]? = some x

theorem exists_liveLane {g : Group} {i : Nat} (h : g.live.getLsbD i = true) : ∃ x, LiveLane g i x := by
  obtain ⟨x, hx, -⟩ := (where_getLsbD g _ (BitVec.lt_of_getLsbD h)).mp h
  exact ⟨x, h, hx⟩

/-- A live lane has not exited, and takes part in issue. -/
theorem liveLane_iff {g : Group} {i : Nat} {x : Lane} :
    LiveLane g i x ↔ i < 64 ∧ g.lanes[i]? = some x ∧ x.st ≠ .exited ∧ g.inScope x = true := by
  constructor
  · rintro ⟨h, hx⟩
    obtain ⟨y, hy, hf⟩ := (where_getLsbD g _ (BitVec.lt_of_getLsbD h)).mp h
    cases hx.symm.trans hy
    simpa [hx] using And.intro (BitVec.lt_of_getLsbD h) hf
  · rintro ⟨hi, hx, hst, hsc⟩
    exact ⟨(where_getLsbD g _ hi).mpr ⟨x, hx, by simp [hst, hsc]⟩, hx⟩

theorem mem_liveLanes {g : Group} {x : Lane} : x ∈ (lanesOf g.live).filterMap (fun i => g.lane i) ↔ ∃ i, LiveLane g i x := by
  rw [List.mem_filterMap]
  exact exists_congr fun i => ⟨fun ⟨h, hx⟩ => ⟨(lanesOf_mem.mp h).2, hx⟩,
    fun ⟨h, hx⟩ => ⟨lanesOf_mem.mpr ⟨BitVec.lt_of_getLsbD h, h⟩, hx⟩⟩

theorem point_eq_some {st : LState} {h : Word} : LState.point st = some h ↔ st = .joinHeld h ∨ st = .loopHeld h := by
  cases st <;> simp [LState.point]

/-- Some lane is live, and every live lane is held. -/
def AllHeld (g : Group) : Prop := g.live ≠ 0 ∧ ∀ i x, LiveLane g i x → (LState.point x.st).isSome = true

/-- The holding points are those of the live lanes. -/
theorem heldPoints_of_allHeld {g : Group} (hh : AllHeld g) : ∃ ps, heldPoints g = some ps ∧
    ∀ q, q ∈ ps ↔ ∃ i x, LiveLane g i x ∧ LState.point x.st = some q.1 ∧ LState.isJoin x.st = q.2 := by
  obtain ⟨hne, hall⟩ := hh
  obtain ⟨i, hi⟩ := exists_getLsbD_of_ne_zero hne
  obtain ⟨x, hx⟩ := exists_liveLane hi
  have hsome : ((lanesOf g.live).filterMap (fun i => g.lane i)).isEmpty = false :=
    List.isEmpty_eq_false_iff.mpr (List.ne_nil_of_mem (mem_liveLanes.mpr ⟨i, hx⟩))
  have hpoint : ((lanesOf g.live).filterMap (fun i => g.lane i)).any (fun l => (LState.point l.st).isNone) = false := by
    refine List.any_eq_false.mpr fun y hy => ?_
    obtain ⟨j, hj⟩ := mem_liveLanes.mp hy
    simpa [Option.isSome_iff_ne_none] using hall j y hj
  simp only [heldPoints, hsome, hpoint, Bool.or_self, Bool.false_eq_true, if_false]
  refine ⟨_, rfl, fun q => ?_⟩
  rw [List.mem_filterMap]
  simp only [Option.map_eq_some_iff, Prod.ext_iff]
  constructor
  · rintro ⟨y, hy, p, hp, rfl, hj⟩
    obtain ⟨j, hl⟩ := mem_liveLanes.mp hy
    exact ⟨j, y, hl, hp, hj⟩
  · rintro ⟨j, y, hl, hp, hj⟩
    exact ⟨y, mem_liveLanes.mpr ⟨j, hl⟩, q.1, hp, rfl, hj⟩

theorem lowestPoint_least {ps : List (Word × Bool)} {q : Word × Bool} (hq : q ∈ ps) :
    ∃ m, lowestPoint ps = some m ∧ m ∈ ps ∧ ∀ z ∈ ps, m.1.toNat ≤ z.1.toNat := by
  cases ps with
  | nil => cases hq
  | cons p r =>
    exact ⟨_, rfl, foldl_least (fun q : Word × Bool => q.1.toNat) (fun q b => q.1.toNat < b.1.toNat) (fun _ _ => Iff.rfl) r p⟩

/-- The lowest holding point is where a live lane is held and below which none is. -/
theorem lowestPoint_of_allHeld {g : Group} {h : Word} {join : Bool} (hh : AllHeld g)
    (hat : ∃ i x, LiveLane g i x ∧ LState.point x.st = some h)
    (hle : ∀ i x p, LiveLane g i x → LState.point x.st = some p → h.toNat ≤ p.toNat)
    (hjoin : ∀ i x, LiveLane g i x → LState.point x.st = some h → LState.isJoin x.st = join) :
    ∃ ps, heldPoints g = some ps ∧ lowestPoint ps = some (h, join) ∧
      ∀ q, q ∈ ps ↔ ∃ i x, LiveLane g i x ∧ LState.point x.st = some q.1 ∧ LState.isJoin x.st = q.2 := by
  obtain ⟨ps, hps, hmem⟩ := heldPoints_of_allHeld hh
  obtain ⟨i, x, hx, hp⟩ := hat
  have hin : (h, LState.isJoin x.st) ∈ ps := (hmem _).mpr ⟨i, x, hx, hp, rfl⟩
  obtain ⟨⟨p, j⟩, hlow, hm, hmin⟩ := lowestPoint_least hin
  obtain ⟨k, y, hy, hyp, hyj⟩ := (hmem _).mp hm
  have hph : p = h := BitVec.eq_of_toNat_eq (Nat.le_antisymm (hmin _ hin) (hle k y p hy hyp))
  have hjj : j = join := hyj.symm.trans (hjoin k y hy (hph ▸ hyp))
  exact ⟨ps, hps, by rw [hlow, hph, hjj], hmem⟩

/-! ### A change of a group's lanes -/

theorem takes_goTo (k : Kernel) (loops : List LoopEntry) (a : Word) (l : Lane) : Takes k loops a l (l.goTo loops k a none) := by
  cases loops with
  | nil => exact ⟨rfl, rfl⟩
  | cons e r =>
    have hgo : l.goTo (e :: r) k a none =
        { l with pc := a, ins := none, st := if l.depth = e.depth ∧ a = textWord k e.stop then .loopHeld a else l.st } := by
      simp only [Lane.goTo, governs, Option.isNone_none, Bool.true_and, Bool.and_eq_true, beq_iff_eq]
      split
      next h => rw [if_pos (show l.depth = e.depth ∧ a = textWord k e.stop from h)]
      next h => rw [if_neg (show ¬(l.depth = e.depth ∧ a = textWord k e.stop) from h)]
    rw [hgo]
    exact ⟨rfl, rfl⟩

/-- The event leaves the group with its lanes as `P` says and the loop entries `loops`, eligible from now on. -/
def Regroups (i : Instr) (s : State) (r : GRef) (g : Group) (loops : List LoopEntry) (P : Nat → Lane → Lane → Prop) : Prop :=
  ∃ u g', exec i s = .next u ∧ OnlyGroup s u r ∧ u.group? r = some g' ∧
    g' = { g with lanes := g'.lanes, loops := loops, readyAt := s.seqN } ∧ g'.lanes.length = g.lanes.length ∧
    ∀ (i : Nat) (x : Lane), g.lanes[i]? = some x → ∃ y, g'.lanes[i]? = some y ∧ P i x y

theorem regroups_of_mapLanes {i : Instr} {s : State} {r : GRef} {g : Group} {loops : List LoopEntry} {P : Nat → Lane → Lane → Prop}
    {f : Group → Group} {m : Mask} {d : Nat → Lane → Lane} (hg : s.group? r = some g) (hi : exec i s = .next (regroup s r f))
    (hgrp : ∀ g, (f g).grp = g.grp) (hf : f g = { g with lanes := mapLanes m d 0 g.lanes, loops := loops })
    (hP : ∀ j x, g.lanes[j]? = some x → P j x (if m.getLsbD j then d j x else x)) : Regroups i s r g loops P := by
  obtain ⟨o, e⟩ := modGroup_spec (fun g => { f g with readyAt := s.seqN }) hgrp hg
  rw [hf] at e
  refine ⟨_, _, hi, o.trans (OnlyGroup.book _ r s.issuing (s.seqN + 1)), e, rfl, mapLanes_length m d 0 g.lanes, fun j x hx => ?_⟩
  exact ⟨_, by simp [mapLanes_getElem?, hx], hP j x hx⟩

/-! ### The end step (R149) -/

theorem endStep_grp (k : Kernel) (n : Nat) (g : Group) : (endStep k n g).grp = g.grp := by
  induction n generalizing g with
  | zero => rfl
  | succ n ih =>
    unfold endStep
    split
    · rfl
    · split
      · rfl
      · dsimp only
        split
        · split
          · exact ih _
          · rfl
        · rfl

/-- With passes left, the lanes start another. -/
theorem endStep_again (k : Kernel) (n : Nat) {g : Group} {e : LoopEntry} {rest : List LoopEntry} (hl : g.loops = e :: rest)
    (hr : 1 < e.remaining) : endStep k (n + 1) g =
      { g with
        lanes := mapLanes g.live (fun _ l => { l with pc := textWord k e.start, ins := none, st := .ready }) 0 g.lanes
        loops := { e with remaining := e.remaining - 1 } :: rest } := by
  simp [endStep, hl, hr]

/-- After the last pass the lanes go on, if no outer loop ends at the same place. -/
theorem endStep_out (k : Kernel) (n : Nat) {g : Group} {e : LoopEntry} {rest : List LoopEntry} (hl : g.loops = e :: rest)
    (hr : e.remaining ≤ 1) (hout : ∀ e2 r2, rest = e2 :: r2 → ¬(e2.stop = e.stop ∧ e2.depth = e.depth)) :
    endStep k (n + 1) g =
      { g with lanes := mapLanes g.live (fun _ l => { l with st := .ready }) 0 g.lanes, loops := rest } := by
  have hlast : ¬e.remaining > 1 := Nat.not_lt.mpr hr
  cases rest with
  | nil =>
    simp only [endStep, hl, hlast, if_false]
    rfl
  | cons e2 r2 =>
    have hne : ¬((e2.stop == e.stop && e2.depth == e.depth) = true) := by simpa using hout e2 r2 rfl
    simp only [endStep, hl, hlast, hne, if_false]
    rfl

/-! ### Deferred lanes (R145) -/

/-- The lane has stepped aside or is held. -/
def Aside (st : LState) : Prop := (∃ d seen, st = .deferred d seen) ∨ (LState.point st).isSome = true

theorem deferOver_iff {g : Group} {i : Nat} {seen : Mask} :
    deferOver g i seen = true ↔ ∀ j y, LiveLane g j y → j = i ∨ seen.getLsbD j = true ∨ Aside y.st := by
  have hst : ∀ l : Lane, (match l.st with
      | .deferred _ _ | .joinHeld _ | .loopHeld _ => true
      | _ => false) = true ↔ Aside l.st := by
    intro l
    cases l.st <;> simp [Aside, LState.point]
  unfold deferOver
  rw [List.all_eq_true]
  constructor
  · rintro h j y ⟨hj, hy⟩
    have hb := h j (lanesOf_mem.mpr ⟨BitVec.lt_of_getLsbD hj, hj⟩)
    simp only [Group.lane, hy, Bool.or_eq_true, beq_iff_eq] at hb
    exact (or_assoc.mp hb).imp_right (Or.imp_right (hst y).mp)
  · intro h j hj
    obtain ⟨y, hy⟩ := exists_liveLane (lanesOf_mem.mp hj).2
    simp only [Group.lane, hy.2, Bool.or_eq_true, beq_iff_eq]
    exact or_assoc.mpr ((h j y hy).imp_right (Or.imp_right (hst y).mpr))

/-- A lane is due: it is live and deferred, and every other live lane has stepped aside, is held, or has issued above it. -/
def Due (g : Group) (i : Nat) (x : Lane) : Prop :=
  LiveLane g i x ∧ ∃ d seen, x.st = .deferred d seen ∧ ∀ j y, LiveLane g j y → j = i ∨ seen.getLsbD j = true ∨ Aside y.st

theorem deferDue_iff {g : Group} {i : Nat} {x : Lane} (hi : i < 64) (hx : g.lanes[i]? = some x) :
    deferDue g i = true ↔ Due g i x := by
  simp only [deferDue, Group.lane, hx]
  split
  next d seen hst =>
    rw [Bool.and_eq_true, deferOver_iff]
    constructor
    · rintro ⟨hsc, ho⟩
      exact ⟨liveLane_iff.mpr ⟨hi, hx, by simp [hst], hsc⟩, d, seen, hst, ho⟩
    · rintro ⟨hl, d', seen', hst', ho⟩
      cases hst.symm.trans hst'
      obtain ⟨-, -, -, hsc⟩ := liveLane_iff.mp hl
      exact ⟨hsc, ho⟩
  next hno =>
    refine iff_of_false Bool.false_ne_true ?_
    rintro ⟨-, d, seen, hst, -⟩
    exact hno d seen hst

/-- The lanes due together. -/
def dueLanes (g : Group) : Mask := maskOf ((lanesOf g.live).filter (deferDue g))

theorem dueLanes_getLsbD {g : Group} {i : Nat} {x : Lane} (hx : g.lanes[i]? = some x) :
    (dueLanes g).getLsbD i = true ↔ Due g i x := by
  constructor
  · intro h
    have hi := BitVec.lt_of_getLsbD h
    exact (deferDue_iff hi hx).mp (List.mem_filter.mp ((maskOf_getLsbD _ hi).mp h)).2
  · intro h
    have hi := BitVec.lt_of_getLsbD h.1.1
    exact (maskOf_getLsbD _ hi).mpr (List.mem_filter.mpr ⟨lanesOf_mem.mpr ⟨hi, h.1.1⟩, (deferDue_iff hi hx).mpr h⟩)

/-! ### The events -/

section Events

variable {s : State} {r : GRef} {t : Team} {l : Launch} {g : Group}
  (ht : s.team? r.team = some t) (hl : s.launch? t.launch = some l) (hg : s.group? r = some g)

include ht hl hg

theorem exec_joinRelease {ps : List (Word × Bool)} {h : Word} (hps : heldPoints g = some ps) (hlow : lowestPoint ps = some (h, true)) :
    exec (.joinRelease r) s = .next (regroup s r (releaseJoin l.kernel h)) := by
  show execJoinRelease r s = _
  simp [execJoinRelease, ht, hl, hg, hps, hlow]

theorem exec_loopEndStep_step {ps : List (Word × Bool)} {e : LoopEntry} {rest : List LoopEntry} (hps : heldPoints g = some ps)
    (hloops : g.loops = e :: rest) (hall : ∀ p ∈ ps, p = (textWord l.kernel e.stop, false)) :
    exec (.loopEndStep r) s = .next (regroup s r (endStep l.kernel 5)) := by
  have hb : ps.all (fun p => p == (textWord l.kernel e.stop, false)) = true :=
    List.all_eq_true.mpr fun p hp => beq_iff_eq.mpr (hall p hp)
  show execLoopEndStep r s = _
  simp only [execLoopEndStep, ht, hl, hg, hps, hloops, hb, Option.bind_some, if_true]

theorem exec_loopEndStep_diverged {ps : List (Word × Bool)} {e : LoopEntry} {rest : List LoopEntry} {h : Word} {p : Word × Bool}
    (hps : heldPoints g = some ps) (hloops : g.loops = e :: rest) (hp : p ∈ ps) (hne : p ≠ (textWord l.kernel e.stop, false))
    (hlow : lowestPoint ps = some (h, false)) :
    exec (.loopEndStep r) s = .next (endTeam s r.team ⟨.loopDiverged, false, r, firstLane g.live, 0, 0, 0, 0, 0⟩) := by
  have hb : ps.all (fun p => p == (textWord l.kernel e.stop, false)) = false :=
    List.all_eq_false.mpr ⟨p, hp, by simpa using hne⟩
  show execLoopEndStep r s = _
  simp only [execLoopEndStep, ht, hl, hg, hps, hloops, hb, hlow, Option.bind_some, Bool.false_eq_true, if_false]

theorem exec_deferRelease {i : Nat} (hdue : deferDue g i = true) : exec (.deferRelease r i) s =
    .next (regroup s r fun g' => g'.modLanes (dueLanes g) fun _ y => { y with st := .ready }.goTo g'.loops l.kernel y.pc none) := by
  show execDeferRelease r i s = _
  simp only [execDeferRelease, ht, hl, hg, hdue, Option.bind_some, if_true, dueLanes]

/-- The lanes at the lowest point, a JOIN, go on from it. -/
theorem joinRelease_regroups {h : Word} (hh : AllHeld g) (hat : ∃ i x, LiveLane g i x ∧ x.st = .joinHeld h)
    (hle : ∀ i x p, LiveLane g i x → LState.point x.st = some p → h.toNat ≤ p.toNat)
    (hno : ∀ i x, LiveLane g i x → x.st ≠ .loopHeld h) :
    Regroups (.joinRelease r) s r g g.loops fun i x y =>
      if g.live.getLsbD i = true ∧ x.st = .joinHeld h then Takes l.kernel g.loops x.pc { x with st := .ready } y else y = x := by
  obtain ⟨ps, hps, hlow, -⟩ := lowestPoint_of_allHeld (join := true) hh
    (hat.imp fun i => Exists.imp fun x ⟨hx, hst⟩ => ⟨hx, point_eq_some.mpr (.inl hst)⟩) hle
    fun i x hx hp => by rw [(point_eq_some.mp hp).resolve_right (hno i x hx)]; rfl
  refine regroups_of_mapLanes hg (exec_joinRelease ht hl hg hps hlow) (fun _ => rfl) rfl fun i x _ => ?_
  by_cases hst : x.st = .joinHeld h
  · by_cases hb : g.live.getLsbD i = true
    · simp only [hb, hst, beq_self_eq_true, if_true, and_self]
      exact takes_goTo ..
    · simp [hb]
  · simp [hst]

/-- The live lanes at the innermost loop's end make the end step together. -/
theorem loopEndStep_regroups {e : LoopEntry} {rest loops : List LoopEntry} {d : Nat → Lane → Lane} (hloops : g.loops = e :: rest)
    (hh : AllHeld g) (hat : ∀ i x, LiveLane g i x → x.st = .loopHeld (textWord l.kernel e.stop))
    (hstep : endStep l.kernel 5 g = { g with lanes := mapLanes g.live d 0 g.lanes, loops := loops }) :
    Regroups (.loopEndStep r) s r g loops fun i x y => if g.live.getLsbD i = true then y = d i x else y = x := by
  obtain ⟨ps, hps, hmem⟩ := heldPoints_of_allHeld hh
  have hall : ∀ p ∈ ps, p = (textWord l.kernel e.stop, false) := by
    intro p hp
    obtain ⟨i, x, hx, hpt, hj⟩ := (hmem p).mp hp
    rw [hat i x hx] at hpt hj
    exact Prod.ext (Option.some.inj hpt).symm hj.symm
  refine regroups_of_mapLanes hg (exec_loopEndStep_step ht hl hg hps hloops hall) (endStep_grp l.kernel 5) hstep fun i x _ => ?_
  split <;> rfl

/-- Lanes held at a loop's end, and lanes held elsewhere above it: the loop has diverged. -/
theorem loopEndStep_diverges {e : LoopEntry} {rest : List LoopEntry} {h : Word} (he : t.ending = none) (hloops : g.loops = e :: rest)
    (hh : AllHeld g) (hat : ∃ i x, LiveLane g i x ∧ x.st = .loopHeld h)
    (hle : ∀ i x p, LiveLane g i x → LState.point x.st = some p → h.toNat ≤ p.toNat ∧ x.st ≠ .joinHeld h)
    (hother : ∃ i x, LiveLane g i x ∧ x.st ≠ .loopHeld h) :
    ∃ u d, exec (.loopEndStep r) s = .next u ∧ (u.team? r.team).map (·.ending) = some (some d) ∧ d.cause = .loopDiverged := by
  obtain ⟨ps, hps, hlow, hmem⟩ := lowestPoint_of_allHeld (join := false) hh
    (hat.imp fun i => Exists.imp fun x ⟨hx, hst⟩ => ⟨hx, point_eq_some.mpr (.inr hst)⟩) (fun i x p hx hp => (hle i x p hx hp).1)
    fun i x hx hp => by rw [(point_eq_some.mp hp).resolve_left (hle i x h hx hp).2]; rfl
  obtain ⟨i, x, hx, hst⟩ := hat
  obtain ⟨j, y, hy, hyst⟩ := hother
  obtain ⟨p, hp⟩ := Option.isSome_iff_exists.mp (hh.2 j y hy)
  have hin : (h, false) ∈ ps := (hmem _).mpr ⟨i, x, hx, by rw [hst]; exact ⟨rfl, rfl⟩⟩
  have hin' : (p, LState.isJoin y.st) ∈ ps := (hmem _).mpr ⟨j, y, hy, hp, rfl⟩
  have hdiff : (p, LState.isJoin y.st) ≠ (h, false) := by
    intro k
    obtain ⟨rfl, hj⟩ := Prod.mk.inj k
    rcases point_eq_some.mp hp with e | e
    · rw [e] at hj; cases hj
    · exact hyst e
  have hend := ending_endTeam (⟨.loopDiverged, false, r, firstLane g.live, 0, 0, 0, 0, 0⟩ : Ending) ht he
  by_cases hend1 : (h, false) = (textWord l.kernel e.stop, false)
  · exact ⟨_, _, exec_loopEndStep_diverged ht hl hg hps hloops hin' (hend1 ▸ hdiff) hlow, hend, rfl⟩
  · exact ⟨_, _, exec_loopEndStep_diverged ht hl hg hps hloops hin hend1 hlow, hend, rfl⟩

/-- A lane that is due goes on, and with it every other. -/
theorem deferRelease_regroups {i : Nat} {x : Lane} (hdue : Due g i x) :
    Regroups (.deferRelease r i) s r g g.loops fun j y z =>
      (Due g j y → Takes l.kernel g.loops y.pc { y with st := .ready } z) ∧ (¬Due g j y → z = y) := by
  have hd : deferDue g i = true := (deferDue_iff (BitVec.lt_of_getLsbD hdue.1.1) hdue.1.2).mpr hdue
  refine regroups_of_mapLanes hg (exec_deferRelease ht hl hg hd) (fun _ => rfl) rfl fun j y hy => ?_
  rw [← dueLanes_getLsbD hy]
  by_cases hb : (dueLanes g).getLsbD j = true
  · rw [if_pos hb]
    exact ⟨fun _ => takes_goTo .., fun k => absurd hb k⟩
  · rw [if_neg hb]
    exact ⟨fun k => absurd k hb, fun _ => rfl⟩

end Events

theorem laneReleases : Claim.LaneReleases := by
  intro s r t l g ht hl hg
  refine ⟨fun h hh hat hle hno => ?_, fun e rest hloops hh hat => ⟨fun hr => ?_, fun hr hout => ?_⟩,
    fun he e rest h hloops hh hat hle hother => ?_, fun i x _ hdue => ?_⟩
  · exact joinRelease_regroups ht hl hg hh hat hle hno
  · exact loopEndStep_regroups ht hl hg hloops hh hat (endStep_again l.kernel 4 hloops hr)
  · exact loopEndStep_regroups ht hl hg hloops hh hat (endStep_out l.kernel 4 hloops hr hout)
  · exact loopEndStep_diverges ht hl hg he hloops hh hat hle hother
  · exact deferRelease_regroups ht hl hg hdue

/-- Settles O36: entry is the least of the eligible groups at the least of its addresses, a result leaves with its count, and a
release is a change of the live lanes alone. -/
theorem issueEvents : Obligations.IssueEvents := ⟨clauseEntry, resultEvents, laneReleases⟩

end Sys2Proof.Machine
end

section
/-! SUPPORT. How the first command of an engine's queue that has not begun begins (R284, R295, R297), and a state in which
EngineStarts fails. -/

namespace Sys2Proof.Machine

open Sys2Proof

/-! ### A command that begins -/

theorem modCmd_eq (s : State) (n : Nat) (f : Cmd → Cmd) :
    s.modCmd n f = { s with cmds := s.cmds.map fun x => if x.id = n then f x else x } := by
  simp only [State.modCmd, beq_iff_eq]

/-- Two changes of one command, the first of which keeps its number, are one change. -/
theorem modCmd_modCmd (s : State) (n : Nat) (f g : Cmd → Cmd) (hf : ∀ x, (f x).id = x.id) :
    (s.modCmd n f).modCmd n g = s.modCmd n fun x => g (f x) := by
  simp only [modCmd_eq, List.map_map, State.mk.injEq, true_and, and_true]
  refine List.map_congr_left fun x _ => ?_
  by_cases hx : x.id = n <;> simp [hx, hf]

section Begin

variable {s : State} {c : Cmd} {e : Entry} {p : Nat} {r : List (Nat × Bool)} {f : List Nat}

theorem beginCmd_plain (late : Bool) (hcb : tCb c.drec = false) :
    beginCmd s c late = s.modCmd c.id fun x => { x with stage := .running, late := late } := by
  simp only [beginCmd, hcb, Bool.false_eq_true, if_false, id_eq]

theorem cbOf_of_entry {n : Name} (he : entryOf s n = some e) (hobj : e.obj = .cb p r f) : cbOf s n = some (p, r, f) := by
  simp only [cbOf, he, hobj]

/-- The slot goes to the commands of the number `c.id`, and the granules that each of them owns are those of its own record. -/
theorem beginCmd_slot (late : Bool) (hcb : tCb c.drec = true) (hbuf : cbOf s c.dname = some (p, r, f))
    (hroom : r.length + f.length < tDim c.drec 2) :
    beginCmd s c late =
      (s.modEntry c.dname fun e => { e with obj := .cb ((p + 1) % tDim c.drec 2) (r ++ [(p, false)]) f }).modCmd c.id fun x =>
        { x with stage := .running, late := late, cbSlot := some p, full := none, lines := slotKeys x.drec p } := by
  simp only [beginCmd, hcb, if_true, hbuf, hroom]

theorem beginCmd_full (late : Bool) (hcb : tCb c.drec = true) (hbuf : cbOf s c.dname = some (p, r, f))
    (hfull : tDim c.drec 2 ≤ r.length + f.length) :
    beginCmd s c late = s.modCmd c.id fun x => { x with full := some (x.full.getD s.time) } := by
  simp only [beginCmd, hcb, if_true, hbuf, Nat.not_lt.mpr hfull, if_false]

/-! ### The events -/

/-- The command is the first of its engine that has not begun, and fewer than four of the engine's run. -/
def MayBegin (s : State) (c : Cmd) : Prop :=
  headCmd s c.eng = some c ∧ (s.cmds.filter (fun x => x.eng == c.eng && x.stage == .running)).length < 4

theorem inProgress_lt_of_mayBegin (hb : MayBegin s c) : inProgress s c.eng < 4 := hb.2

theorem exec_engineCommandStart_now (hb : MayBegin s c) (hq : c.stage = .queued) (hstart : c.start = none) :
    exec (.engineCommandStart c.eng) s = .next (beginCmd s c false) := by
  have hp := Nat.not_le.mpr (inProgress_lt_of_mayBegin hb)
  show execEngineCommandStart c.eng s = _
  simp [execEngineCommandStart, hb.1, hp, hq, hstart]

theorem exec_engineCommandStart_early {t : Word} (hb : MayBegin s c) (hq : c.stage = .queued) (hstart : c.start = some t)
    (hfull : c.full = none) (ht : s.time.toNat < t.toNat) :
    exec (.engineCommandStart c.eng) s = .next (s.modCmd c.id fun x => { x with stage := .held }) := by
  have hp := Nat.not_le.mpr (inProgress_lt_of_mayBegin hb)
  show execEngineCommandStart c.eng s = _
  simp [execEngineCommandStart, hb.1, hp, hq, hstart, hfull, ht]

theorem exec_engineCommandStart_late {t : Word} (hb : MayBegin s c) (hq : c.stage = .queued) (hstart : c.start = some t)
    (hfull : c.full = none) (ht : t.toNat ≤ s.time.toNat) :
    exec (.engineCommandStart c.eng) s = .next (beginCmd (s.modCmd c.id fun x => { x with late := true }) c true) := by
  have hp := Nat.not_le.mpr (inProgress_lt_of_mayBegin hb)
  show execEngineCommandStart c.eng s = _
  simp [execEngineCommandStart, hb.1, hp, hq, hstart, hfull, Nat.not_lt.mpr ht]

theorem exec_engineStartTime {t : Word} (hb : MayBegin s c) (hh : c.stage = .held) (hstart : c.start = some t)
    (ht : t.toNat ≤ s.time.toNat) :
    exec (.engineStartTime c.eng) s =
      .next (beginCmd (s.modCmd c.id fun x => { x with stage := .queued, start := none }) c false) := by
  show execEngineStartTime c.eng s = _
  simp [execEngineStartTime, hb.1, inProgress_lt_of_mayBegin hb, hh, hstart, ht]

theorem exec_cbFullTimeout {t : Word} (hc : s.cmd? c.id = some c) (hfull : c.full = some t) (hq : c.stage = .queued)
    (ht : 100000 ≤ (s.time - t).toNat) :
    exec (.cbFullTimeout c.id) s = .next (s.modCmd c.id fun x =>
      { x with stage := .running, full := none, stop := some 0x40, offset := 0, ack := some 0, emul := true }) := by
  show execCbFullTimeout c.id s = _
  simp only [execCbFullTimeout, hc, hfull, hq, beq_self_eq_true, Bool.true_and, ge_iff_le, decide_eq_true_eq, ht, if_true]

/-- A command that reserves a slot: its buffer's entry, and the commands of its number. -/
theorem exec_engineCommandStart_slot (hb : MayBegin s c) (hq : c.stage = .queued) (hstart : c.start = none)
    (hcb : tCb c.drec = true) (he : entryOf s c.dname = some e) (hobj : e.obj = .cb p r f)
    (hroom : r.length + f.length < tDim c.drec 2) :
    exec (.engineCommandStart c.eng) s =
      .next ((s.modEntry c.dname fun e => { e with obj := .cb ((p + 1) % tDim c.drec 2) (r ++ [(p, false)]) f }).modCmd c.id
        fun x => { x with stage := .running, late := false, cbSlot := some p, full := none, lines := slotKeys x.drec p }) := by
  rw [exec_engineCommandStart_now hb hq hstart, beginCmd_slot false hcb (cbOf_of_entry he hobj) hroom]

theorem mfind_modEntry_same {n : Name} {h : Entry → Entry} (he : entryOf s n = some e) :
    entryOf (s.modEntry n h) n = some (h e) := by
  rw [entryOf] at he
  simp only [entryOf, State.modEntry, he, mfind_minsert, if_true]

end Begin

/-- No two commands of a state have one number. -/
def DistinctCmds (s : State) : Prop := ∀ x ∈ s.cmds, ∀ y ∈ s.cmds, x.id = y.id → x = y

/-- What `exec_engineCommandStart_slot` says of each command's own record is `c`'s where `c` alone has its number. -/
theorem modCmd_slot_of_distinct {s : State} {c : Cmd} (hd : DistinctCmds s) (hc : c ∈ s.cmds) (p : Nat) :
    s.cmds.map (fun x => if x.id = c.id then
        { x with stage := .running, late := false, cbSlot := some p, full := none, lines := slotKeys x.drec p } else x) =
      s.cmds.map fun x => if x.id = c.id then
        { x with stage := .running, late := false, cbSlot := some p, full := none, lines := slotKeys c.drec p } else x := by
  refine List.map_congr_left fun x hx => ?_
  by_cases hid : x.id = c.id
  · rw [hd x hx c hc hid]
  · simp only [hid, if_false]

/-- EngineStarts for the commands of the architecture, which have numbers of their own. -/
theorem engineStarts_of_distinct (s : State) (c : Cmd) (hd : DistinctCmds s) (hb : MayBegin s c) :
    let each := fun (f : Cmd → Cmd) => s.cmds.map fun x => if x.id = c.id then f x else x
    let sets := fun (i : Instr) (f : Cmd → Cmd) => exec i s = .next { s with cmds := each f }
    (c.stage = .queued → tCb c.drec = false →
      (c.start = none → sets (.engineCommandStart c.eng) fun x => { x with stage := .running, late := false }) ∧
      (∀ t, c.start = some t → c.full = none →
        (s.time.toNat < t.toNat → sets (.engineCommandStart c.eng) fun x => { x with stage := .held }) ∧
        (t.toNat ≤ s.time.toNat → sets (.engineCommandStart c.eng) fun x => { x with stage := .running, late := true }))) ∧
    (∀ t, c.stage = .held → tCb c.drec = false → c.start = some t → t.toNat ≤ s.time.toNat →
      sets (.engineStartTime c.eng) fun x => { x with stage := .running, start := none, late := false }) ∧
    (∀ e p r f, c.stage = .queued → c.start = none → tCb c.drec = true → entryOf s c.dname = some e → e.obj = .cb p r f →
      (r.length + f.length < tDim c.drec 2 → ∃ t, exec (.engineCommandStart c.eng) s = .next t ∧
        t = { s with roster := t.roster, cmds := each fun x => { x with stage := .running, late := false, cbSlot := some p, full := none, lines := slotKeys c.drec p } } ∧
        entryOf t c.dname = some { e with obj := .cb ((p + 1) % tDim c.drec 2) (r ++ [(p, false)]) f }) ∧
      (tDim c.drec 2 ≤ r.length + f.length → sets (.engineCommandStart c.eng) fun x => { x with full := some (x.full.getD s.time) })) ∧
    (∀ t, s.cmd? c.id = some c → c.full = some t → c.stage = .queued → 100000 ≤ (s.time - t).toNat →
      sets (.cbFullTimeout c.id) fun x =>
        { x with stage := .running, full := none, stop := some 0x40, offset := 0, ack := some 0, emul := true }) := by
  refine ⟨fun hq hcb => ⟨fun hstart => ?_, fun t hstart hfull => ⟨fun ht => ?_, fun ht => ?_⟩⟩, fun t hh hcb hstart ht => ?_,
    fun e p r f hq hstart hcb he hobj => ⟨fun hroom => ?_, fun hfull => ?_⟩, fun t hc hfull hq ht => ?_⟩
  · exact (exec_engineCommandStart_now hb hq hstart).trans (by rw [beginCmd_plain false hcb, modCmd_eq])
  · exact (exec_engineCommandStart_early hb hq hstart hfull ht).trans (by rw [modCmd_eq])
  · exact (exec_engineCommandStart_late hb hq hstart hfull ht).trans
      (by rw [beginCmd_plain true hcb, modCmd_modCmd, modCmd_eq]; exact fun _ => rfl)
  · exact (exec_engineStartTime hb hh hstart ht).trans
      (by rw [beginCmd_plain false hcb, modCmd_modCmd, modCmd_eq]; exact fun _ => rfl)
  · refine ⟨_, exec_engineCommandStart_slot hb hq hstart hcb he hobj hroom, ?_, mfind_modEntry_same he⟩
    rw [modCmd_eq, State.modEntry_cmds, modCmd_slot_of_distinct hd (List.mem_of_find?_eq_some hb.1)]
    unfold State.modEntry
    split <;> rfl
  · exact (exec_engineCommandStart_now hb hq hstart).trans (by rw [beginCmd_full false hcb (cbOf_of_entry he hobj) hfull, modCmd_eq])
  · exact (exec_cbFullTimeout hc hfull hq ht).trans (by rw [modCmd_eq])

/-! ### Two commands of one number -/

/-- A queued fill of a circular buffer of one slot, which is one granule of cluster 0's bank. -/
def slotFill : Cmd :=
  let r : BitVec 352 := BitVec.twoPow 352 348 + BitVec.ofNat 352 (2 ^ 64 + 2 ^ 88 + 2 ^ 112 + 16 * 2 ^ 200)
  ⟨1, .xform 0 0, .fill, ⟨0, 0⟩, 0, 0, 0, 5, 0, r, r, 0, 0, .rn, false, false, 0, none, 0, .queued, false, none, none, [], 0,
    false, none, [], none, ⟨0, 0, 0, 0, 0⟩, none, false⟩

/-- A fill of the next granule, under the same number. -/
def slotFillTwin : Cmd := { slotFill with drec := slotFill.drec + 16 }

/-- The entry of the buffer, none of whose slots is taken. -/
def slotEntry : Entry := ⟨5, false, 0, 0, slotFill.drec, .cb 0 [] [], none⟩

/-- Both commands wait in the queue of one engine. -/
def twinState : State := { State.reset with cmds := [slotFill, slotFillTwin], roster := [(5, slotEntry)] }

theorem mayBegin_twinState : MayBegin twinState slotFill := ⟨by decide +kernel, by decide +kernel⟩

/-- Each of the two commands comes to own the granules of its own record. -/
theorem exec_twinState : ∃ t, exec (.engineCommandStart slotFill.eng) twinState = .next t ∧
    t.cmds.map (·.lines) = [[granKey (sramLoc 0 0)], [granKey (sramLoc 0 16)]] :=
  ⟨_, exec_engineCommandStart_slot (e := slotEntry) (p := 0) (r := []) (f := []) mayBegin_twinState rfl rfl (by decide +kernel)
    rfl rfl (by decide +kernel), by decide +kernel⟩

/-- Refutes O40: EngineStarts lets every command of the number `c.id` own the granules of `c`'s record, where the model takes
each command's own record. In `twinState` two queued commands share a number and differ in their records; the spec's commands
never share one, and `engineStarts_of_distinct` is the claim for them. -/
theorem not_engineEvents : ¬ Obligations.EngineEvents := by
  unfold Obligations.EngineEvents
  rintro ⟨hstarts, -, -⟩
  obtain ⟨-, -, hslot, -⟩ := hstarts twinState slotFill mayBegin_twinState.1 mayBegin_twinState.2
  obtain ⟨t, ht, hcmds, -⟩ := (hslot slotEntry 0 [] [] rfl rfl (by decide +kernel) rfl rfl).1 (by decide +kernel)
  obtain ⟨u, hu, hlines⟩ := exec_twinState
  obtain rfl : t = u := Host.Outcome.next.inj (ht.symm.trans hu)
  have hclaim := congrArg State.cmds hcmds
  dsimp only at hclaim
  rw [hclaim] at hlines
  exact absurd hlines (by decide +kernel)

end Sys2Proof.Machine
end

section
/-! SUPPORT. Scalar words as numbers and as fields (R131 to R133): sums, differences, products, quotients, and SBIT's fields. -/

namespace Sys2Proof.Machine

open Sys2Proof

/-! ### A word of a number in its range -/

/-- A scalar word whose result is known. -/
theorem completes_scalar {i : Instr} {s : State} {c : Cur} {h : Head} {d : BitVec 6} {f : Group → Word} {z : Word}
    (hc : cur? s = some c) (hi : exec i s = sWord s h d f) (hz : f c.g = z) :
    Completes i s c fun g' => WritesS c.g g' d.toNat z :=
  hz ▸ completes_sWord hi hc

theorem toInt_ofInt_word {x : Int} (h1 : -2 ^ 63 ≤ x) (h2 : x < 2 ^ 63) : (BitVec.ofInt 64 x).toInt = x :=
  BitVec.toInt_ofInt_eq_self (by decide) h1 h2

theorem toNat_ofInt_word {x : Int} (h1 : 0 ≤ x) (h2 : x < 2 ^ 64) : ((BitVec.ofInt 64 x).toNat : Int) = x := by
  rw [BitVec.toNat_ofInt, Int.emod_eq_of_lt h1 (by omega), Int.toNat_of_nonneg h1]

theorem toInt_word_bounds (x : Word) : -2 ^ 63 ≤ x.toInt ∧ x.toInt < 2 ^ 63 := ⟨x.le_toInt, x.toInt_lt⟩

theorem clampI_eq {lo hi : Int} (x : Int) (h : lo ≤ hi) : clampI lo hi x = max lo (min hi x) := by
  unfold clampI
  split_ifs <;> omega

theorem toInt_ofInt_clampI (x : Int) :
    (BitVec.ofInt 64 (clampI (-2 ^ 63) (2 ^ 63 - 1) x)).toInt = max (-2 ^ 63) (min (2 ^ 63 - 1) x) := by
  rw [clampI_eq x (by decide), toInt_ofInt_word] <;> omega

theorem toNat_ofInt_clampI (x : Int) :
    ((BitVec.ofInt 64 (clampI 0 (2 ^ 64 - 1) x)).toNat : Int) = max 0 (min (2 ^ 64 - 1) x) := by
  rw [clampI_eq x (by decide), toNat_ofInt_word] <;> omega

/-! ### Sums, differences and products (R131) -/

theorem scalarAdd_wrap (x y : Word) : scalarAdd .wrap x y = x + y := by
  rw [scalarAdd, scalarFit, BitVec.ofInt_add, BitVec.ofInt_toInt, BitVec.ofInt_toInt]

theorem scalarSub_wrap (x y : Word) : scalarSub .wrap x y = x - y := by
  rw [scalarSub, scalarFit, Int.sub_eq_add_neg, BitVec.ofInt_add, BitVec.ofInt_neg, BitVec.ofInt_toInt, BitVec.ofInt_toInt,
    BitVec.sub_eq_add_neg]

theorem toNat_scalarAdd_satn (x y : Word) : (scalarAdd .satn x y).toNat = min (2 ^ 64 - 1) (x.toNat + y.toNat) := by
  have h := toNat_ofInt_clampI (x.toNat + y.toNat)
  rw [scalarAdd, scalarFit]
  omega

theorem toNat_scalarSub_satn (x y : Word) : (scalarSub .satn x y).toNat = x.toNat - y.toNat := by
  have h := toNat_ofInt_clampI ((x.toNat : Int) - y.toNat)
  have hx := x.isLt
  rw [scalarSub, scalarFit]
  omega

/-- The high half of a signed product is within a word: no factor exceeds 2^63 in size. -/
theorem toInt_scalarMul_hii (x y : Word) : (scalarMul .hii x y).toInt = x.toInt * y.toInt / 2 ^ 64 := by
  obtain ⟨hx1, hx2⟩ := toInt_word_bounds x
  obtain ⟨hy1, hy2⟩ := toInt_word_bounds y
  have hp : |x.toInt * y.toInt| ≤ 2 ^ 63 * 2 ^ 63 := by
    rw [abs_mul]
    exact mul_le_mul (abs_le.mpr ⟨hx1, hx2.le⟩) (abs_le.mpr ⟨hy1, hy2.le⟩) (abs_nonneg _) (by decide)
  obtain ⟨h1, h2⟩ := abs_le.mp hp
  rw [scalarMul, toInt_ofInt_word] <;> omega

theorem toNat_scalarMul_hin (x y : Word) : (scalarMul .hin x y).toNat = x.toNat * y.toNat / 2 ^ 64 := by
  have h : x.toNat * y.toNat < 2 ^ 64 * 2 ^ 64 := Nat.mul_lt_mul'' x.isLt y.isLt
  rw [scalarMul, BitVec.toNat_ofNat, Nat.mod_eq_of_lt (Nat.div_lt_of_lt_mul h)]

theorem toInt_scalarMinMax_mini (x y : Word) : (scalarMinMax .mini x y).toInt = min x.toInt y.toInt := by
  rw [scalarMinMax]; split_ifs <;> omega

theorem toInt_scalarMinMax_maxi (x y : Word) : (scalarMinMax .maxi x y).toInt = max x.toInt y.toInt := by
  rw [scalarMinMax]; split_ifs <;> omega

theorem toNat_scalarMinMax_minn (x y : Word) : (scalarMinMax .minn x y).toNat = min x.toNat y.toNat := by
  rw [scalarMinMax]; split_ifs <;> omega

theorem toNat_scalarMinMax_maxn (x y : Word) : (scalarMinMax .maxn x y).toNat = max x.toNat y.toNat := by
  rw [scalarMinMax]; split_ifs <;> omega

theorem scalarArithmetic : Claim.ScalarArithmetic := by
  intro s c h d a b hc
  let x := c.g.sreg a.toNat
  let y := Claim.sb c.g b
  have add : ∀ f, Completes (.sadd h f d a b) s c fun g' => WritesS c.g g' d.toNat (scalarAdd f x y) := fun f =>
    completes_scalar hc rfl (by rw [readSB_eq])
  have sub : ∀ f, Completes (.ssub h f d a b) s c fun g' => WritesS c.g g' d.toNat (scalarSub f x y) := fun f =>
    completes_scalar hc rfl (by rw [readSB_eq])
  have mul : ∀ f, Completes (.smul h f d a b) s c fun g' => WritesS c.g g' d.toNat (scalarMul f x y) := fun f =>
    completes_scalar hc rfl (by rw [readSB_eq])
  have minmax : ∀ f, Completes (.sminmax h f d a b) s c fun g' => WritesS c.g g' d.toNat (scalarMinMax f x y) := fun f =>
    completes_scalar hc rfl (by rw [readSB_eq])
  refine ⟨scalarAdd_wrap x y ▸ add .wrap, scalarSub_wrap x y ▸ sub .wrap, mul .lo,
    ⟨_, toInt_ofInt_clampI _, add .sati⟩, ⟨_, toNat_scalarAdd_satn x y, add .satn⟩,
    ⟨_, toInt_ofInt_clampI _, sub .sati⟩, ⟨_, toNat_scalarSub_satn x y, sub .satn⟩,
    ⟨_, toInt_scalarMul_hii x y, mul .hii⟩, ⟨_, toNat_scalarMul_hin x y, mul .hin⟩,
    ⟨_, toInt_scalarMinMax_mini x y, minmax .mini⟩, ⟨_, toInt_scalarMinMax_maxi x y, minmax .maxi⟩,
    ⟨_, toNat_scalarMinMax_minn x y, minmax .minn⟩, ⟨_, toNat_scalarMinMax_maxn x y, minmax .maxn⟩⟩

/-! ### Moves (R131) -/

theorem extractLsb'_append_high (a b : BitVec 32) : (a ++ b).extractLsb' 32 32 = a := by
  rw [BitVec.extractLsb'_append_eq_of_le (le_refl 32), Nat.sub_self, BitVec.extractLsb'_eq_self]

theorem extractLsb'_append_low (a b : BitVec 32) : (a ++ b).extractLsb' 0 32 = b := by
  rw [BitVec.extractLsb'_append_eq_of_add_le (by decide), BitVec.extractLsb'_eq_self]

theorem completes_nop {s : State} {c : Cur} (h : Head) (hc : cur? s = some c) : Completes (.nop h) s c (Moved c.g) := by
  obtain ⟨t, g', e, o, eg, m⟩ := regWord_spec h (fun _ g => g) (fun _ => rfl) hc
  exact ⟨t, g', e, o, eg, m⟩

theorem scalarMoves : Claim.ScalarMoves := by
  intro s c h d a b imm q hc
  refine ⟨completes_scalar hc rfl rfl, completes_scalar hc rfl rfl,
    ⟨_, extractLsb'_append_high _ _, extractLsb'_append_low _ _, completes_scalar hc rfl rfl⟩, ?sel, completes_nop h hc⟩
  case sel =>
    have hq : (c.g.bool q.toNat = true) ↔ q = 0 ∨ c.g.bool q.toNat = true := by
      rw [Group.bool, Bool.or_eq_true, beq_iff_eq, BitVec.toNat_eq]
      exact or_self_left.symm
    exact completes_scalar hc rfl (by rw [readSB_eq]; exact if_congr hq rfl rfl)

/-- Settles O1: each form's result as a number, inside its range or fitted to it. -/
theorem scalarAddsAndMoves : Obligations.ScalarAddsAndMoves := ⟨scalarArithmetic, scalarMoves⟩

/-! ### Division (R132) -/

section Division

variable {x y : Word}

theorem divide_zero_divn (h : y = 0) : (divide 64 .divn x y).1 = BitVec.ofNat 64 0xFFFFFFFFFFFFFFFF := by
  subst h; rfl

theorem divide_zero_divi_nonneg (h : y = 0) (hx : 0 ≤ x.toInt) :
    (divide 64 .divi x y).1 = BitVec.ofNat 64 0x7FFFFFFFFFFFFFFF := by
  subst h
  rw [divide, if_pos (beq_self_eq_true _), if_pos hx]
  rfl

theorem divide_zero_divi_neg (h : y = 0) (hx : x.toInt < 0) :
    (divide 64 .divi x y).1 = BitVec.ofNat 64 0x8000000000000000 := by
  subst h
  rw [divide, if_pos (beq_self_eq_true _), if_neg (by omega)]
  rfl

theorem divide_zero_remi (h : y = 0) : (divide 64 .remi x y).1 = x := by subst h; rfl

theorem divide_zero_remn (h : y = 0) : (divide 64 .remn x y).1 = x := by subst h; rfl

theorem ne_zero_of_toInt (h : y.toInt = -1) : ¬(y == 0) = true := by
  rintro e
  rw [eq_of_beq e] at h
  exact absurd h (by decide)

theorem divide_overflow_divi (hx : x.toInt = -2 ^ 63) (hy : y.toInt = -1) :
    (divide 64 .divi x y).1 = BitVec.ofNat 64 0x7FFFFFFFFFFFFFFF := by
  rw [divide, if_neg (ne_zero_of_toInt hy), if_pos (by rw [hx, hy]; rfl)]
  rfl

theorem divide_overflow_remi (hx : x.toInt = -2 ^ 63) (hy : y.toInt = -1) : (divide 64 .remi x y).1 = 0 := by
  rw [divide, if_neg (ne_zero_of_toInt hy), if_pos (by rw [hx, hy]; rfl)]

theorem toInt_ne_zero (h : y ≠ 0) : y.toInt ≠ 0 := fun e => h (BitVec.eq_of_toInt_eq e)

variable (hy : y ≠ 0)
include hy

theorem toNat_divide_divn : (divide 64 .divn x y).1.toNat = x.toNat / y.toNat := by
  rw [divide, if_neg (by simpa using hy), BitVec.toNat_ofNat]
  exact Nat.mod_eq_of_lt ((Nat.div_le_self _ _).trans_lt x.isLt)

theorem toNat_divide_remn : (divide 64 .remn x y).1.toNat = x.toNat % y.toNat := by
  rw [divide, if_neg (by simpa using hy), BitVec.toNat_ofNat]
  exact Nat.mod_eq_of_lt ((Nat.mod_le _ _).trans_lt x.isLt)

variable (ho : ¬(x.toInt = -2 ^ 63 ∧ y.toInt = -1))
include ho

/-- But for the one overflow the truncated quotient is a word: it is no larger than the dividend, and 2^63 itself comes
only from a divisor of -1. -/
theorem toInt_divide_divi : (divide 64 .divi x y).1.toInt = x.toInt.tdiv y.toInt := by
  obtain ⟨hx1, hx2⟩ := toInt_word_bounds x
  have hs : (x.toInt.tdiv y.toInt).natAbs = x.toInt.natAbs / y.toInt.natAbs := Int.natAbs_tdiv _ _
  have hle : x.toInt.natAbs / y.toInt.natAbs ≤ x.toInt.natAbs := Nat.div_le_self _ _
  have hm : x.toInt.tdiv y.toInt ≠ 2 ^ 63 := by
    intro e
    rw [e] at hs
    have hp := Int.natAbs_pos.mpr (toInt_ne_zero hy)
    have h1 : y.toInt.natAbs = 1 := by
      by_contra hne
      have := Nat.div_le_div_left (a := x.toInt.natAbs) (show 2 ≤ y.toInt.natAbs by omega) two_pos
      omega
    rcases Int.natAbs_eq y.toInt with e1 | e1
    · rw [e1, h1, Nat.cast_one, Int.tdiv_one] at e
      omega
    · rw [e1, h1, Nat.cast_one, Int.tdiv_neg, Int.tdiv_one] at e
      omega
  rw [divide, if_neg (by simpa using hy), if_neg (by simpa using ho), toInt_ofInt_word] <;> omega

theorem toInt_divide_remi : (divide 64 .remi x y).1.toInt = x.toInt - x.toInt.tdiv y.toInt * y.toInt := by
  obtain ⟨hx1, hx2⟩ := toInt_word_bounds x
  obtain ⟨hy1, hy2⟩ := toInt_word_bounds y
  have hm : (x.toInt.tmod y.toInt).natAbs < y.toInt.natAbs := by
    rw [Int.natAbs_tmod]
    exact Nat.mod_lt _ (Int.natAbs_pos.mpr (toInt_ne_zero hy))
  rw [divide, if_neg (by simpa using hy), if_neg (by simpa using ho), Int.mul_comm, ← Int.tmod_def, toInt_ofInt_word] <;> omega

end Division

/-- Settles O2: no quotient or remainder but the one overflow's leaves the range of a word. -/
theorem scalarDivision : Obligations.ScalarDivision := by
  intro s c h d a b hc
  let x := c.g.sreg a.toNat
  let y := Claim.sb c.g b
  have gives : ∀ {f z}, (divide 64 f x y).1 = z → Completes (.sdiv h f d a b) s c fun g' => WritesS c.g g' d.toNat z :=
    fun hz => completes_scalar hc rfl (by rw [readSB_eq]; exact hz)
  refine ⟨fun hy => ⟨gives (divide_zero_divn hy), fun hx => gives (divide_zero_divi_nonneg hy hx),
      fun hx => gives (divide_zero_divi_neg hy hx), gives (divide_zero_remi hy), gives (divide_zero_remn hy)⟩,
    fun hx hy => ⟨gives (divide_overflow_divi hx hy), gives (divide_overflow_remi hx hy)⟩,
    fun hy => ⟨⟨_, toNat_divide_divn hy, gives rfl⟩, ⟨_, toNat_divide_remn hy, gives rfl⟩,
      fun ho => ⟨⟨_, toInt_divide_divi hy ho, gives rfl⟩, ⟨_, toInt_divide_remi hy ho, gives rfl⟩⟩⟩⟩

/-! ### Fields (R133) -/

/-- A field beyond the register, or of no bits. -/
theorem fieldGet_none {w a pos len : Nat} (h : pos ≥ w ∨ len = 0) : fieldGet w a pos len = 0 := by
  rw [fieldGet, if_pos (by simpa using h)]

theorem fieldPut_none {w old a pos len : Nat} (h : pos ≥ w ∨ len = 0) : fieldPut w old a pos len = old := by
  rw [fieldPut, if_pos (by simpa using h)]

theorem testBit_fieldGet {w pos len : Nat} (a k : Nat) (h1 : pos < w) (h2 : len ≠ 0) :
    (fieldGet w a pos len).testBit k = (decide (k < min len (w - pos)) && a.testBit (pos + k)) := by
  rw [fieldGet, if_neg (by simp; omega), Nat.testBit_mod_two_pow, Nat.testBit_div_two_pow, Nat.add_comm k]

theorem testBit_fieldPut {w pos len : Nat} (old a k : Nat) (h1 : pos < w) (h2 : len ≠ 0) :
    (fieldPut w old a pos len).testBit k =
      if pos ≤ k ∧ k < pos + min len (w - pos) then a.testBit (k - pos) else old.testBit k := by
  rw [fieldPut, if_neg (by simp; omega)]
  generalize min len (w - pos) = n
  have hlow : old % 2 ^ pos < 2 ^ pos := Nat.mod_lt _ (Nat.two_pow_pos pos)
  have hmid : a % 2 ^ n < 2 ^ n := Nat.mod_lt _ (Nat.two_pow_pos n)
  have e : old % 2 ^ pos + a % 2 ^ n * 2 ^ pos + old / 2 ^ (pos + n) * 2 ^ (pos + n) =
      2 ^ pos * (2 ^ n * (old / 2 ^ (pos + n)) + a % 2 ^ n) + old % 2 ^ pos := by ring
  rw [e, Nat.testBit_two_pow_mul_add _ hlow, Nat.testBit_two_pow_mul_add _ hmid, Nat.testBit_mod_two_pow,
    Nat.testBit_mod_two_pow, Nat.testBit_div_two_pow]
  by_cases hk : k < pos
  · simp [hk, show ¬pos ≤ k by omega]
  · by_cases hn : k - pos < n
    · simp [hk, hn, show pos ≤ k by omega, show k < pos + n by omega]
    · simp [hk, hn, show ¬k < pos + n by omega, show k - pos - n + (pos + n) = k by omega]

theorem getLsbD_ofNat_word (x k : Nat) (hk : k < 64) : (BitVec.ofNat 64 x).getLsbD k = x.testBit k := by
  rw [BitVec.getLsbD_ofNat, decide_eq_true hk, Bool.true_and]

/-- Settles O3: the fields of SBIT bit by bit, as those of the numbers they are computed with. -/
theorem scalarFields : Obligations.ScalarFields := by
  intro s c h d a w hc hw
  let x := c.g.sreg a.toNat
  let old := c.g.sreg d.toNat
  let f := sbitField c.g w
  have get : ∀ v : Nat → Bool, (∀ k, (fieldGet 64 x.toNat f.1 f.2).testBit k = v k) →
      ∃ z : Word, (∀ k, k < 64 → z.getLsbD k = v k) ∧ Completes (.sbit h .bfe d a w) s c fun g' => WritesS c.g g' d.toNat z :=
    fun v hv => completes_bits (f := fun g => scalarBit g .bfe (g.sreg d.toNat) (g.sreg a.toNat) w) rfl hc
      fun k hk => (getLsbD_ofNat_word _ k hk).trans (hv k)
  have put : ∀ v : Nat → Bool, (∀ k, (fieldPut 64 old.toNat x.toNat f.1 f.2).testBit k = v k) →
      ∃ z : Word, (∀ k, k < 64 → z.getLsbD k = v k) ∧ Completes (.sbit h .bfi d a w) s c fun g' => WritesS c.g g' d.toNat z :=
    fun v hv => completes_bits (f := fun g => scalarBit g .bfi (g.sreg d.toNat) (g.sreg a.toNat) w) rfl hc
      fun k hk => (getLsbD_ofNat_word _ k hk).trans (hv k)
  have beyond : f.1 ≥ 64 ∨ f.2 = 0 → _ := fun hn =>
    And.intro (get (fun _ => false) fun k => by rw [fieldGet_none hn, Nat.zero_testBit])
      (put (fun k => old.getLsbD k) fun k => by rw [fieldPut_none hn]; rfl)
  have within : f.1 < 64 → f.2 ≠ 0 → _ := fun h1 h2 =>
    And.intro (get _ fun k => testBit_fieldGet x.toNat k h1 h2) 
      (put _ fun k => testBit_fieldPut old.toNat x.toNat k h1 h2)
  exact ⟨beyond, within⟩

end Sys2Proof.Machine
end

section
/-! SUPPORT. Words that end their clause and place their lanes: branches (R138, R139, R150). -/

namespace Sys2Proof.Machine

open Sys2Proof

/-! ### The end of a word that places its lanes -/

theorem settleGo_nil (s : State) (c : Cur) (h : Head) (go : Nat → Lane → Lane) :
    settleGo s c h 0 [] go = endClause (c.mod s (switchMark h c.n)) c go := by
  simp [settleGo, parkLanes]

theorem settleGo_traps (s : State) (c : Cur) (h : Head) (go : Nat → Lane → Lane) {ts : List LaneTrap} (hts : ts ≠ []) :
    settleGo s c h 0 ts go = raiseTrapsGo go s c 0 c.n.pc 0 0 (0, 0, 0) ts := by
  cases ts with
  | nil => exact absurd rfl hts
  | cons t ts => simp [settleGo, parkLanes]

theorem noteIssue_of_ne_deferred {hdr : Word} {x : Mask} {l : Lane} (hl : ∀ d m, l.st ≠ .deferred d m) :
    noteIssue hdr x l = l := by
  unfold noteIssue
  split
  next d m e => exact absurd e (hl d m)
  next => rfl

/-- A ready lane that takes a place is no deferred lane: that X issues does not touch it. -/
theorem takes_noteIssue {k : Kernel} {loops : List LoopEntry} {a hdr : Word} {x : Mask} {l l' : Lane} (hl : l.st = .ready)
    (h : Takes k loops a l l') : Takes k loops a l (noteIssue hdr x l') := by
  rw [noteIssue_of_ne_deferred]
  · exact h
  · obtain ⟨-, hst⟩ := h
    intro d m e
    cases loops with
    | nil => rw [hst, hl] at e; cases e
    | cons y r =>
      dsimp only at hst
      rw [hst, hl] at e
      split at e <;> cases e

theorem takes_issue {k : Kernel} {loops : List LoopEntry} {a hdr : Word} {x : Mask} {l : Lane} (hl : l.st = .ready) :
    Takes k loops a l (noteIssue hdr x (l.goTo loops k a none)) :=
  takes_noteIssue hl (takes_goTo k loops a l)

/-- The word leaves its clause, with each lane of X as `go` places it. -/
theorem endClause_leaves {s : State} {c : Cur} {g : Group} (h : Head) (go : Nat → Lane → Lane) {P : Nat → Lane → Lane → Prop}
    (hst : Standing c) (hg : s.group? c.ref = some g) (hcl : g.clause = c.g.clause)
    (hP : ∀ i l, c.n.x.getLsbD i = true → g.lanes[i]? = some l → P i l (noteIssue c.n.hdr c.n.x (go i l))) :
    ∃ g', OnlyGroup s (endClause (c.mod s (switchMark h c.n)) c go) c.ref ∧
      (endClause (c.mod s (switchMark h c.n)) c go).group? c.ref = some g' ∧ Leaves { c with g := g } h g.loops P g' := by
  obtain ⟨cl, hclause, hx, -⟩ := hst
  have hmark : switchMark h c.n g = { g with wait := if h.sw = true ∧ g.pend ≠ [] ∧ g.wait = none then some ⟨.switch, c.n⟩ else g.wait } := by
    unfold switchMark
    by_cases hb : h.sw = true ∧ g.pend ≠ [] ∧ g.wait = none
    · rw [if_pos (by simpa [and_assoc] using hb), if_pos hb]
    · rw [if_neg (by simpa [and_assoc] using hb), if_neg hb]
  have hgrp : ∀ g, (switchMark h c.n g).grp = g.grp := fun g => by unfold switchMark; split <;> rfl
  obtain ⟨o1, e1⟩ := curMod_spec (c := c) (switchMark h c.n) hgrp hg
  rw [hmark] at e1
  obtain ⟨o2, e2⟩ := curMod_spec (c := c) (fun g => match g.clause with
    | some cl => { (g.modLanes cl.x go) with
        lanes := (mapLanes cl.x go 0 g.lanes).map (noteIssue c.n.hdr cl.x) }
    | none => g) (fun g => by dsimp only; split <;> rfl) e1
  simp only [hcl, hclause, hx] at e2
  obtain ⟨o3, e3⟩ := leaveClause_spec _ c.ref e2
  refine ⟨_, o1.trans (o2.trans o3), e3, ?_⟩
  refine ⟨rfl, rfl, by simp [mapLanes_length], fun i l hl => ?_⟩
  refine ⟨noteIssue c.n.hdr c.n.x (if c.n.x.getLsbD i then go i l else l), ?_, ?_⟩
  · have hl' : g.lanes[i]? = some l := hl
    simp [mapLanes_getElem?, hl']
  · by_cases hb : c.n.x.getLsbD i = true
    · simpa only [hb, if_true] using hP i l hb hl
    · simp only [hb, Bool.false_eq_true, if_false]

/-- A word that ends by placing its lanes completes, from any state of its own group. -/
theorem from_settleGo {i : Instr} {s s0 s1 : State} {c : Cur} {h : Head} {g : Group} {go : Nat → Lane → Lane}
    {P : Nat → Lane → Lane → Prop} (hi : exec i s = .next (settleGo s1 c h 0 [] go)) (hst : Standing c)
    (ho : OnlyGroup s0 s1 c.ref) (hg : s1.group? c.ref = some g) (hcl : g.clause = c.g.clause)
    (hP : ∀ i l, c.n.x.getLsbD i = true → g.lanes[i]? = some l → P i l (noteIssue c.n.hdr c.n.x (go i l))) :
    Claim.from i s s0 c (Leaves { c with g := g } h g.loops P) := by
  obtain ⟨g', o, e, hl⟩ := endClause_leaves h go hst hg hcl hP
  rw [← settleGo_nil] at o e
  exact ⟨_, g', hi, ho.trans o, e, hl⟩

/-- The lanes of a group that stands in its word's clause are ready. -/
theorem Standing.ready {c : Cur} (hst : Standing c) {i : Nat} {l : Lane} (hi : c.n.x.getLsbD i = true) (hl : c.g.lanes[i]? = some l) :
    l.st = .ready := by
  obtain ⟨-, -, -, hr⟩ := hst
  exact hr i l hi hl

/-- The word's group is as it was when it ends by placing its lanes. -/
theorem completes_settleGo {i : Instr} {s : State} {c : Cur} {h : Head} {go : Nat → Lane → Lane} {P : Nat → Lane → Lane → Prop}
    (hi : exec i s = .next (settleGo s c h 0 [] go)) (hc : cur? s = some c) (hst : Standing c)
    (hP : ∀ i l, c.n.x.getLsbD i = true → c.g.lanes[i]? = some l → l.st = .ready →
      P i l (noteIssue c.n.hdr c.n.x (go i l))) : Completes i s c (Leaves c h c.g.loops P) :=
  from_settleGo hi hst (OnlyGroup.refl s c.ref) (cur?_group hc) rfl fun i l hi hl => hP i l hi hl (hst.ready hi hl)

/-- The word's group has new loop entries when it ends by placing its lanes. -/
theorem completes_settleGo_loops {i : Instr} {s : State} {c : Cur} {h : Head} {go : Nat → Lane → Lane} {P : Nat → Lane → Lane → Prop}
    {ls : List LoopEntry} (hi : exec i s = .next (settleGo (c.mod s fun g => { g with loops := ls }) c h 0 [] go))
    (hc : cur? s = some c) (hst : Standing c)
    (hP : ∀ i l, c.n.x.getLsbD i = true → c.g.lanes[i]? = some l → l.st = .ready →
      P i l (noteIssue c.n.hdr c.n.x (go i l))) : Completes i s c (Leaves c h ls P) := by
  obtain ⟨o, e⟩ := curMod_spec (c := c) (fun g => { g with loops := ls }) (fun _ => rfl) (cur?_group hc)
  exact from_settleGo hi hst o e rfl fun i l hi hl => hP i l hi hl (hst.ready hi hl)

theorem goAfter_last {c : Cur} (hlast : c.n.last = true) (i : Nat) (l : Lane) :
    goAfter c i l = l.goTo c.g.loops c.l.kernel (nextHeader c.n) none := by
  rw [goAfter, afterWord, if_pos hlast]

/-- The last word of a clause that is done sends the lanes of X to the next header. -/
theorem finish_last {s : State} {c : Cur} {h : Head} (hlast : c.n.last = true) : finish s c h = settleGo s c h 0 [] (goAfter c) := by
  have hgo : goAfter c = fun _ l => l.goTo c.g.loops c.l.kernel (nextHeader c.n) none := by
    funext i l
    exact goAfter_last hlast i l
  rw [settleGo_nil, finish, if_pos hlast, hgo]

/-! ### Loop bodies -/

theorem inBody_eq_false_iff (k : Kernel) (e : LoopEntry) (a : Word) :
    inBody k e a = false ↔ a.toNat < (textWord k e.start).toNat ∨ (textWord k e.stop).toNat < a.toNat := by
  unfold inBody
  rw [Bool.and_eq_false_iff, decide_eq_false_iff_not, decide_eq_false_iff_not, not_le, not_le]

/-- A test of the lanes of a set that fails where there is no lane. -/
theorem any_lanes_iff {g : Group} {m : Mask} {p : Nat → Bool} {f : Nat → Lane → Bool}
    (hsome : ∀ i l, g.lanes[i]? = some l → p i = f i l) (hnone : ∀ i, g.lanes[i]? = none → p i = false) :
    (lanesOf m).any p = true ↔ ∃ i l, i < 64 ∧ m.getLsbD i = true ∧ g.lanes[i]? = some l ∧ f i l = true := by
  rw [List.any_eq_true]
  constructor
  · rintro ⟨i, hi, hp⟩
    obtain ⟨h64, hb⟩ := lanesOf_mem.mp hi
    cases hl : g.lanes[i]? with
    | none => rw [hnone i hl] at hp; cases hp
    | some l => exact ⟨i, l, h64, hb, hl, hsome i l hl ▸ hp⟩
  · rintro ⟨i, l, h64, hb, hl, hf⟩
    exact ⟨i, lanesOf_mem.mpr ⟨h64, hb⟩, (hsome i l hl).trans hf⟩

theorem leavesBody_iff (c : Cur) (m : Mask) (a : Nat → Word) :
    leavesBody c m a = true ↔ Claim.escapes c (fun i => m.getLsbD i = true) a := by
  unfold leavesBody Claim.escapes
  cases hl : c.g.loops with
  | nil => simp
  | cons e r =>
    dsimp only
    rw [any_lanes_iff (g := c.g) (f := fun i l => governs e l && !inBody c.l.kernel e (a i))
      (fun i l h => by simp only [Group.lane, h]) (fun i h => by simp only [Group.lane, h])]
    simp only [governs, Bool.and_eq_true, beq_iff_eq, Bool.not_eq_true', inBody_eq_false_iff]
    constructor
    · rintro ⟨i, l, h⟩
      exact ⟨e, r, i, l, rfl, h⟩
    · rintro ⟨e', r', i, l, he, h⟩
      obtain ⟨rfl, rfl⟩ := List.cons.inj he
      exact ⟨i, l, h⟩

theorem branchTarget_eq (c : Cur) (off : BitVec 32) : branchTarget c off = c.n.hdr + (off.signExtend 64) * 8 := by
  rw [branchTarget, BitVec.shiftLeft_eq_mul_twoPow]
  rfl

/-! ### BRA -/

/-- The entries of the bodies left come off, and no others. -/
theorem popBodies_spec (k : Kernel) (d : Nat) (a : Word) (l : List LoopEntry) :
    ∃ gone, l = gone ++ popBodies k d a l ∧ (∀ e ∈ gone, inBody k e a = false ∧ e.depth = d) ∧
      ∀ e r, popBodies k d a l = e :: r → ¬(inBody k e a = false ∧ e.depth = d) := by
  induction l with
  | nil => exact ⟨[], rfl, by simp, by simp [popBodies]⟩
  | cons e r ih =>
    by_cases h : inBody k e a = false ∧ e.depth = d
    · obtain ⟨gone, hl, hgone, hrest⟩ := ih
      have hp : popBodies k d a (e :: r) = popBodies k d a r := by simp [popBodies, h.1, h.2]
      rw [hp]
      exact ⟨e :: gone, congrArg (e :: ·) hl, by simpa using ⟨h, hgone⟩, hrest⟩
    · have hp : popBodies k d a (e :: r) = e :: r := by
        rw [popBodies, if_neg]
        rwa [Bool.and_eq_true, beq_iff_eq, Bool.not_eq_true', and_comm]
      rw [hp]
      refine ⟨[], rfl, by simp, fun e' r' he => ?_⟩
      obtain ⟨rfl, rfl⟩ := List.cons.inj he
      exact h

section Bra

variable {s : State} {c : Cur} {h : Head} {a : Word}

theorem governsAny_cons {g : Group} {m : Mask} {e : LoopEntry} {r : List LoopEntry} (hl : g.loops = e :: r) :
    governsAny g m = true ↔ ∃ i l, i < 64 ∧ m.getLsbD i = true ∧ g.lanes[i]? = some l ∧ l.depth = e.depth := by
  rw [governsAny, hl]
  dsimp only
  rw [any_lanes_iff (g := g) (f := fun _ l => governs e l) (fun i l h => by simp only [Group.lane, h])
    (fun i h => by simp only [Group.lane, h])]
  simp only [governs, beq_iff_eq]

/-- The innermost entry governs every live lane of X. -/
theorem governsAll_live {g : Group} {e : LoopEntry} {r : List LoopEntry} (hl : g.loops = e :: r) :
    governsAll g g.live = true ↔ ∀ i l, i < 64 → g.live.getLsbD i = true → g.lanes[i]? = some l → l.depth = e.depth := by
  rw [governsAll, hl]
  dsimp only
  rw [List.all_eq_true]
  constructor
  · intro h i l h64 hb hx
    simpa [Group.lane, hx, governs] using h i (lanesOf_mem.mpr ⟨h64, hb⟩)
  · intro h i hi
    obtain ⟨h64, hb⟩ := lanesOf_mem.mp hi
    obtain ⟨l, -, hx⟩ := exists_liveLane hb
    simpa [Group.lane, hx, governs] using h i l h64 hb hx

/-- The innermost entry of a group some of whose lanes leave its body. -/
theorem escapes_head (he : Claim.escapes c (fun i => c.n.x.getLsbD i = true) fun _ => a) :
    ∃ e r, c.g.loops = e :: r ∧ (governsAny c.g c.n.x && !inBody c.l.kernel e a) = true := by
  obtain ⟨e, r, i, l, hl, h64, hb, hx, hd, hout⟩ := he
  exact ⟨e, r, hl, by rw [(governsAny_cons hl).mpr ⟨i, l, h64, hb, hx, hd⟩, (inBody_eq_false_iff _ _ _).mpr hout]; rfl⟩

theorem takeBra_stays (hno : ¬Claim.escapes c (fun i => c.n.x.getLsbD i = true) fun _ => a) :
    takeBra s c h a = settleGo s c h 0 [] (goAll c c.g.loops a) := by
  unfold takeBra
  split
  next e r hl =>
    rw [if_neg]
    intro hb
    rw [Bool.and_eq_true, governsAny_cons hl, Bool.not_eq_true', inBody_eq_false_iff] at hb
    obtain ⟨⟨i, l, h64, hx, hlane, hd⟩, hout⟩ := hb
    exact hno ⟨e, r, i, l, hl, h64, hx, hlane, hd, hout⟩
  next hl => rw [hl]

/-- Every live lane of the group goes, from the depth of its innermost loop. -/
def AllGo (c : Cur) : Prop :=
  c.n.x = c.g.live ∧ ∀ e rest, c.g.loops = e :: rest → ∀ i l, i < 64 → c.n.x.getLsbD i = true → c.g.lanes[i]? = some l → l.depth = e.depth

theorem allGo_iff {e : LoopEntry} {r : List LoopEntry} (hl : c.g.loops = e :: r) :
    AllGo c ↔ (c.n.x == c.g.live && governsAll c.g c.n.x) = true := by
  rw [Bool.and_eq_true, beq_iff_eq, AllGo]
  refine and_congr_right fun hx => ?_
  rw [hx, governsAll_live hl]
  constructor
  · exact fun h => h e r hl
  · rintro h e' r' hl'
    obtain ⟨rfl, rfl⟩ := List.cons.inj (hl.symm.trans hl')
    exact h

theorem takeBra_leaves (he : Claim.escapes c (fun i => c.n.x.getLsbD i = true) fun _ => a) (hall : AllGo c) :
    ∃ e r, c.g.loops = e :: r ∧ takeBra s c h a =
      settleGo (c.mod s fun g => { g with loops := popBodies c.l.kernel e.depth a c.g.loops }) c h 0 []
        (goAll c (popBodies c.l.kernel e.depth a c.g.loops) a) := by
  obtain ⟨e, r, hl, hb⟩ := escapes_head he
  refine ⟨e, r, hl, ?_⟩
  simp only [takeBra, hl, hb, (allGo_iff hl).mp hall, if_true]

theorem takeBra_fault (he : Claim.escapes c (fun i => c.n.x.getLsbD i = true) fun _ => a) (hall : ¬AllGo c) :
    takeBra s c h a = wordFault s c .loopEscape := by
  obtain ⟨e, r, hl, hb⟩ := escapes_head he
  have hno := (allGo_iff hl).not.mp hall
  simp only [takeBra, hl, hb, hno, if_true]
  rfl

variable {i : Instr} (hi : exec i s = .next (takeBra s c h a))

include hi

theorem completes_bra_stays (hc : cur? s = some c) (hst : Standing c)
    (hno : ¬Claim.escapes c (fun i => c.n.x.getLsbD i = true) fun _ => a) :
    Completes i s c (Leaves c h c.g.loops fun _ => Takes c.l.kernel c.g.loops a) :=
  completes_settleGo (hi.trans (congrArg _ (takeBra_stays hno))) hc hst fun _ _ _ _ hl => takes_issue hl

/-- A branch of every live lane out of bodies takes their entries off. -/
theorem completes_bra_leaves (hc : cur? s = some c) (hst : Standing c)
    (he : Claim.escapes c (fun i => c.n.x.getLsbD i = true) fun _ => a) (hall : AllGo c) :
    ∃ gone rest, c.g.loops = gone ++ rest ∧
      (∀ e ∈ gone, (a.toNat < (textWord c.l.kernel e.start).toNat ∨ (textWord c.l.kernel e.stop).toNat < a.toNat) ∧
        some e.depth = (c.g.loops.head?).map (·.depth)) ∧
      (∀ e r, rest = e :: r → ¬((a.toNat < (textWord c.l.kernel e.start).toNat ∨ (textWord c.l.kernel e.stop).toNat < a.toNat) ∧
        some e.depth = (c.g.loops.head?).map (·.depth))) ∧
      Completes i s c (Leaves c h rest fun _ => Takes c.l.kernel rest a) := by
  obtain ⟨e, r, hl, ht⟩ := takeBra_leaves (s := s) (h := h) he hall
  obtain ⟨gone, hsplit, hgone, hrest⟩ := popBodies_spec c.l.kernel e.depth a c.g.loops
  have hhead : ∀ d : Nat, some d = (c.g.loops.head?).map (·.depth) ↔ d = e.depth := fun d => by simp [hl]
  simp only [hhead, ← inBody_eq_false_iff]
  exact ⟨gone, _, hsplit, hgone, hrest,
    completes_settleGo_loops (hi.trans (congrArg _ ht)) hc hst fun _ _ _ _ hl => takes_issue hl⟩

theorem faults_bra (he : Claim.escapes c (fun i => c.n.x.getLsbD i = true) fun _ => a) (hall : ¬AllGo c) :
    Faults i s c .loopEscape :=
  hi.trans (congrArg _ (takeBra_fault he hall))

end Bra

theorem uniformBranches : Claim.UniformBranches := by
  intro s c h q n off hc hst hlast
  have always : exec (.braAlways h off) s = .next (takeBra s c h (c.n.hdr + (off.signExtend 64) * 8)) :=
    exec_onCur rfl hc (by rw [branchTarget_eq])
  have cond : c.g.bool q.toNat ≠ n → exec (.braCond h q n off) s = .next (takeBra s c h (c.n.hdr + (off.signExtend 64) * 8)) :=
    fun hq => exec_onCur rfl hc (by rw [if_pos (bne_iff_ne.mpr hq), branchTarget_eq])
  refine ⟨fun hq => ?_,
    fun hno => ⟨completes_bra_stays always hc hst hno, fun hq => completes_bra_stays (cond hq) hc hst hno⟩,
    fun he hall => ⟨completes_bra_leaves always hc hst he hall, fun hq => completes_bra_leaves (cond hq) hc hst he hall⟩,
    fun he hall => ⟨faults_bra always he hall, fun hq => faults_bra (cond hq) he hall⟩⟩
  exact completes_settleGo (exec_onCur rfl hc (by rw [if_neg (by simpa using hq), finish_last hlast])) hc hst fun i l _ _ hl => by
    rw [goAfter_last hlast]
    exact takes_issue hl

/-! ### BRV and JMPV -/

theorem escapes_congr {c : Cur} {m m' : Nat → Prop} (a : Nat → Word) (h : ∀ i, i < 64 → (m i ↔ m' i)) :
    Claim.escapes c m a ↔ Claim.escapes c m' a := by
  unfold Claim.escapes
  refine exists_congr fun e => exists_congr fun r => exists_congr fun i => exists_congr fun l => and_congr_right fun _ => ?_
  exact and_congr_right fun hi => and_congr_left fun _ => h i hi

/-- A lane that a set names takes `a`, any other the next header. -/
theorem goes_issue {c : Cur} {on : Prop} {b : Bool} {i : Nat} {a hdr : Word} {x : Mask} {l : Lane} (hlast : c.n.last = true)
    (hb : b = true ↔ on) (hl : l.st = .ready) :
    (on → Takes c.l.kernel c.g.loops a l (noteIssue hdr x (if b then goAll c c.g.loops a i l else goAfter c i l))) ∧
      (¬on → Takes c.l.kernel c.g.loops (nextHeader c.n) l (noteIssue hdr x (if b then goAll c c.g.loops a i l else goAfter c i l))) := by
  constructor
  · intro ho
    rw [if_pos (hb.mpr ho)]
    exact takes_issue hl
  · intro ho
    rw [if_neg (hb.not.mpr ho), goAfter_last hlast]
    exact takes_issue hl

/-- The lanes of BRV that take its target. -/
def brvLanes (c : Cur) (h : Head) (p : BitVec 3) (n : Bool) : Mask :=
  c.active h &&& (if n then ~~~(c.g.pred p.toNat) else c.g.pred p.toNat)

theorem brvLanes_getLsbD (c : Cur) (h : Head) (p : BitVec 3) (n : Bool) (i : Nat) :
    (brvLanes c h p n).getLsbD i = true ↔ (c.active h).getLsbD i = true ∧ (c.g.pred p.toNat).getLsbD i ≠ n := by
  rw [brvLanes, BitVec.getLsbD_and, Bool.and_eq_true]
  refine and_congr_right fun hi => ?_
  have h64 := BitVec.lt_of_getLsbD hi
  cases n
  · simp
  · simp [h64]

theorem exec_brv {s : State} {c : Cur} (h : Head) (p : BitVec 3) (n : Bool) (off : BitVec 32) (hc : cur? s = some c) :
    exec (.brv h p n off) s = .next (
      if leavesBody c (brvLanes c h p n) (fun _ => c.n.hdr + (off.signExtend 64) * 8) then wordFault s c .loopEscape
      else settleGo s c h 0 [] fun i l =>
        if (brvLanes c h p n).getLsbD i then goAll c c.g.loops (c.n.hdr + (off.signExtend 64) * 8) i l else goAfter c i l) := by
  rw [← branchTarget_eq]
  exact exec_onCur rfl hc rfl

theorem filterMap_filter_ite {α β : Type} (p q : α → Bool) (f : α → β) (l : List α) :
    (l.filter p).filterMap (fun i => if q i then some (f i) else none) = (l.filter (fun i => p i && q i)).map f := by
  induction l with
  | nil => rfl
  | cons a r ih =>
    by_cases hp : p a = true
    · by_cases hq : q a = true
      · simp [hp, hq, ih]
      · simp [hp, hq, ih]
    · simp [hp, ih]

/-- The lanes of a set whose register names a place past the text. -/
theorem vBad_eq (c : Cur) (v : Nat) (m : Mask) : vBad c v m =
    ((List.range 64).filter (fun i => m.getLsbD i && decide (c.l.kernel.twords ≤ (c.g.vreg v i).toNat))).map fun i =>
      ⟨i, .badTarget, c.g.vtag v i, textWord c.l.kernel (c.g.vreg v i).toNat⟩ := by
  rw [← filterMap_filter_ite]
  simp only [decide_eq_true_eq]
  rfl

theorem vBad_eq_nil {c : Cur} {v : Nat} {m : Mask} :
    vBad c v m = [] ↔ ∀ i, i < 64 → m.getLsbD i = true → ¬c.l.kernel.twords ≤ (c.g.vreg v i).toNat := by
  rw [vBad_eq, List.map_eq_nil_iff, List.filter_eq_nil_iff]
  simp

/-- The lanes of a set whose register names a place in the text. -/
theorem inText_getLsbD (c : Cur) (v : Nat) (m : Mask) (i : Nat) :
    (m &&& ~~~(maskOf ((vBad c v m).map (·.lane)))).getLsbD i = true ↔
      m.getLsbD i = true ∧ ¬c.l.kernel.twords ≤ (c.g.vreg v i).toNat := by
  rw [BitVec.getLsbD_and, Bool.and_eq_true]
  refine and_congr_right fun hm => ?_
  have hi := BitVec.lt_of_getLsbD hm
  rw [BitVec.getLsbD_not, decide_eq_true hi, Bool.true_and, Bool.not_eq_true', ← Bool.not_eq_true, maskOf_getLsbD _ hi, vBad_eq,
    List.map_map]
  simp [hi, hm]

/-- Where JMPV's lanes go. -/
def jmpvGo (c : Cur) (h : Head) (v : Nat) (i : Nat) (l : Lane) : Lane :=
  if (c.active h).getLsbD i then goAll c c.g.loops (textWord c.l.kernel (c.g.vreg v i).toNat) i l else goAfter c i l

theorem exec_jmpv {s : State} {c : Cur} (h : Head) (v : BitVec 8) (hc : cur? s = some c) : exec (.jmpv h v) s = .next (
    if !c.vOk v.toNat false then wordFault s c .illegalOperand
    else if leavesBody c (c.active h &&& ~~~(maskOf ((vBad c v.toNat (c.active h)).map (·.lane))))
      (fun i => textWord c.l.kernel (c.g.vreg v.toNat i).toNat) then wordFault s c .loopEscape
    else settleGo s c h 0 (vBad c v.toNat (c.active h)) (jmpvGo c h v.toNat)) :=
  exec_onCur rfl hc rfl

theorem laneBranches : Claim.LaneBranches := by
  intro s c h p n off v hc hst hlast
  have hbrv : leavesBody c (brvLanes c h p n) (fun _ => c.n.hdr + (off.signExtend 64) * 8) = true ↔
      Claim.escapes c (fun i => (c.active h).getLsbD i = true ∧ (c.g.pred p.toNat).getLsbD i ≠ n) fun _ => c.n.hdr + (off.signExtend 64) * 8 :=
    (leavesBody_iff c _ _).trans (escapes_congr _ fun i _ => brvLanes_getLsbD c h p n i)
  have hjmpv : leavesBody c (c.active h &&& ~~~(maskOf ((vBad c v.toNat (c.active h)).map (·.lane))))
        (fun i => textWord c.l.kernel (c.g.vreg v.toNat i).toNat) = true ↔
      Claim.escapes c (fun i => (c.active h).getLsbD i = true ∧ ¬c.l.kernel.twords ≤ (c.g.vreg v.toNat i).toNat)
        fun i => textWord c.l.kernel (c.g.vreg v.toNat i).toNat :=
    (leavesBody_iff c _ _).trans (escapes_congr _ fun i _ => inText_getLsbD c v.toNat (c.active h) i)
  refine ⟨fun he => ?_, fun he => ?_, fun hv => ?_, fun hv => ⟨fun he => ?_, fun he hin => ?_, fun he hfar => ?_⟩⟩
  · exact (exec_brv h p n off hc).trans (by rw [if_pos (hbrv.mpr he)])
  · refine completes_settleGo ((exec_brv h p n off hc).trans (by rw [if_neg (hbrv.not.mpr he)])) hc hst fun i l _ _ hl => ?_
    exact goes_issue hlast (brvLanes_getLsbD c h p n i) hl
  · exact (exec_jmpv h v hc).trans (by rw [hv]; rfl)
  · exact (exec_jmpv h v hc).trans (by rw [hv, if_pos (hjmpv.mpr he)]; rfl)
  · have hnil : vBad c v.toNat (c.active h) = [] := vBad_eq_nil.mpr hin
    refine completes_settleGo ((exec_jmpv h v hc).trans (by rw [hv, if_neg (hjmpv.not.mpr he), hnil]; rfl)) hc hst fun i l _ _ hl => ?_
    exact goes_issue hlast Iff.rfl hl
  · have hne : vBad c v.toNat (c.active h) ≠ [] := by
      obtain ⟨i, h64, hon, hi⟩ := hfar
      exact fun hnil => vBad_eq_nil.mp hnil i h64 hon hi
    refine ⟨jmpvGo c h v.toNat, ?_, fun i l _ => ⟨fun hon => ?_, fun hoff => ?_⟩⟩
    · rw [exec_jmpv h v hc, hv, if_neg (hjmpv.not.mpr he), settleGo_traps s c h _ hne, vBad_eq]
      rfl
    · rw [jmpvGo, if_pos hon]
      exact takes_goTo ..
    · rw [jmpvGo, if_neg hoff, goAfter_last hlast]
      exact takes_goTo ..

/-- Settles O15: a branch that leaves no body, or leaves with every live lane, places the lanes of X; any other faults. -/
theorem branches : Obligations.Branches := ⟨uniformBranches, laneBranches⟩

end Sys2Proof.Machine
end

section
/-! SUPPORT. Lanes that are held, that step aside or that exit, the loop stack, and YLD (R143 to R154, R333). -/

namespace Sys2Proof.Machine

open Sys2Proof

/-! ### What the issue of X leaves of a lane (R145) -/

/-- Only a deferred lane takes note of X, and it stays deferred. -/
theorem noteIssue_spec (hdr : Word) (x : Mask) (l : Lane) :
    noteIssue hdr x l = { l with st := (noteIssue hdr x l).st } ∧ ((noteIssue hdr x l).st = .exited ↔ l.st = .exited) := by
  unfold noteIssue
  split
  next d seen e =>
    split
    · exact ⟨rfl, by simp [e]⟩
    · exact ⟨rfl, Iff.rfl⟩
  next => exact ⟨rfl, Iff.rfl⟩

/-- A lane deferred by this clause has not seen it issue. -/
theorem noteIssue_deferred_self (hdr : Word) (x seen : Mask) (l : Lane) :
    noteIssue hdr x { l with st := .deferred hdr seen } = { l with st := .deferred hdr seen } := by
  simp [noteIssue]

/-! ### The end of a handler (R333) -/

theorem handlerGone_out {s : State} {c : Cur} {g : Group} (hg : s.group? c.ref = some g) (hi : g.inTrap = false) :
    handlerGone s c = s := by
  simp [handlerGone, hg, hi]

theorem handlerGone_last {s : State} {c : Cur} {g : Group} (hg : s.group? c.ref = some g) (hi : g.inTrap = true) (hl : g.live = 0)
    (hs : badSaved g.saved = false) : handlerGone s c = c.mod s (leaveTrap c.l.kernel (fun _ => none) 0) := by
  simp [handlerGone, hg, hi, hl, hs]

/-- A word outside a handler after which a handler would end. -/
theorem from_handlerGone {i : Instr} {s s0 s1 : State} {c : Cur} {h : Head} {g : Group} {go : Nat → Lane → Lane}
    {P : Nat → Lane → Lane → Prop} (hi : exec i s = .next (handlerGone (settleGo s1 c h 0 [] go) c)) (hst : Standing c)
    (ho : OnlyGroup s0 s1 c.ref) (hg : s1.group? c.ref = some g) (hcl : g.clause = c.g.clause) (hout : g.inTrap = false)
    (hP : ∀ i l, c.n.x.getLsbD i = true → g.lanes[i]? = some l → P i l (noteIssue c.n.hdr c.n.x (go i l))) :
    Claim.from i s s0 c (Leaves { c with g := g } h g.loops P) := by
  obtain ⟨g', o, e, hl⟩ := endClause_leaves h go hst hg hcl hP
  rw [← settleGo_nil] at o e
  have hout' : g'.inTrap = false := by rw [hl.1]; exact hout
  exact ⟨_, g', hi.trans (by rw [handlerGone_out e hout']), ho.trans o, e, hl⟩

/-- With every lane of the group gone none is live. -/
theorem live_eq_zero_of_leaves {c : Cur} {h : Head} {loops : List LoopEntry} {g' : Group} (hx : c.n.x = c.g.live)
    (hl : Leaves c h loops (fun _ l l' => l' = { l with st := .exited }) g') : g'.live = 0 := by
  obtain ⟨hg', -, hlen, hlanes⟩ := hl
  by_contra hne
  obtain ⟨i, hi⟩ := exists_getLsbD_of_ne_zero hne
  obtain ⟨y, hy⟩ := exists_liveLane hi
  obtain ⟨h64, hyi, hyst, hysc⟩ := liveLane_iff.mp hy
  have hlt : i < c.g.lanes.length := hlen ▸ (List.getElem?_eq_some_iff.mp hyi).1
  obtain ⟨y', hy', hP⟩ := hlanes i _ (List.getElem?_eq_getElem hlt)
  cases hyi.symm.trans hy'
  have hscope : g'.inScope = c.g.inScope := by
    funext l
    rw [hg']
    rfl
  by_cases hb : c.n.x.getLsbD i = true
  · rw [if_pos hb] at hP
    exact hyst (by rw [hP])
  · rw [if_neg hb] at hP
    obtain ⟨heq, hex⟩ := noteIssue_spec c.n.hdr c.n.x c.g.lanes[i]
    rw [hP] at hyst hysc
    rw [hscope, heq] at hysc
    exact hb (hx ▸ (liveLane_iff.mpr ⟨h64, List.getElem?_eq_getElem hlt, hex.not.mp hyst, hysc⟩).1)

/-- The lanes of a group that leaves its handler with no lane to return. -/
theorem leaveTrap_lanes {k : Kernel} {ins : Lane → Option Inside} {g : Group} {i : Nat} {l : Lane} (hl : g.lanes[i]? = some l) :
    ∃ l', (leaveTrap k ins 0 g).lanes[i]? = some l' ∧ l'.st = l.st ∧ l'.trap ≠ .held ∧ l'.pc = l.pc := by
  refine ⟨if l.trap == .handling then { l with trap := .none } else releaseHeld l, ?_, ?_⟩
  · simp [leaveTrap, mapLanes_getElem?, hl]
  · unfold releaseHeld
    cases ht : l.trap <;> simp [ht]

theorem mustDrain_eq {c : Cur} (hx : c.n.x = c.g.live) (hi : c.g.inTrap = true) : mustDrain c c.n.x = !c.g.pend.isEmpty := by
  rw [mustDrain, hi, hx, BitVec.and_not_self]
  rfl

section Exit

variable {s : State} {c : Cur} (h : Head) (hc : cur? s = some c)

include hc

theorem exec_exit (hd : mustDrain c c.n.x = false) :
    exec (.exit h) s = .next (handlerGone (settleGo s c h 0 [] fun _ l => l.leave) c) :=
  exec_onCur rfl hc (by rw [hd]; rfl)

/-- The exit of every live lane of a handler ends it. -/
theorem completes_exit_handler (hst : Standing c) (hi : c.g.inTrap = true) (hx : c.n.x = c.g.live) (hp : c.g.pend = [])
    (hs : badSaved c.g.saved = false) :
    Completes (.exit h) s c fun g' => g'.inTrap = false ∧ g'.loops = savedLoops c.g.saved ∧ g'.clause = none ∧
      ∀ i l, c.g.lanes[i]? = some l → ∃ l', g'.lanes[i]? = some l' ∧ (c.n.x.getLsbD i = true → l'.st = .exited) ∧ l'.trap ≠ .held ∧
        (l.trap = .held → l'.pc = l.pc) := by
  have hd : mustDrain c c.n.x = false := by rw [mustDrain_eq hx hi, hp]; rfl
  obtain ⟨g', o, e, hl⟩ := endClause_leaves (P := fun _ l l' => l' = { l with st := .exited }) h (fun _ l => l.leave) hst (cur?_group hc) rfl
    fun _ l _ _ => noteIssue_of_ne_deferred nofun
  rw [← settleGo_nil] at o e
  have hlive := live_eq_zero_of_leaves hx hl
  obtain ⟨hg', -, -, hlanes⟩ := hl
  have hi' : g'.inTrap = true := by rw [hg']; exact hi
  have hsaved : g'.saved = c.g.saved := by rw [hg']
  have hclause : g'.clause = none := by rw [hg']
  obtain ⟨o2, e2⟩ := curMod_spec (c := c) (leaveTrap c.l.kernel (fun _ => none) 0) (fun _ => rfl) e
  refine ⟨_, _, (exec_exit h hc hd).trans (by rw [handlerGone_last e hi' hlive (by rw [hsaved, hs])]), o.trans o2, e2,
    rfl, congrArg savedLoops hsaved, hclause, fun i l hli => ?_⟩
  obtain ⟨l1, hl1, hP⟩ := hlanes i l hli
  obtain ⟨l', hl', hst', htrap, hpc⟩ := leaveTrap_lanes (k := c.l.kernel) (ins := fun _ => none) hl1
  have hexit : c.n.x.getLsbD i = true → l1.st = .exited := fun hb => by
    rw [if_pos hb] at hP
    rw [hP]
  have hstay : l1.pc = l.pc := by
    split at hP
    · rw [hP]
    · rw [hP, (noteIssue_spec c.n.hdr c.n.x l).1]
  exact ⟨l', hl', fun hb => hst'.trans (hexit hb), htrap, fun _ => hpc.trans hstay⟩

end Exit

theorem heldLanes : Claim.HeldLanes := by
  intro s c h hc hst
  refine ⟨?join, ?defer, fun hi => ?exit, fun hi hx _ hp hs => completes_exit_handler h hc hst hi hx hp hs, fun hi hx hp => ?drain⟩
  case join =>
    exact completes_settleGo (exec_onCur rfl hc rfl) hc hst fun _ _ _ _ _ => noteIssue_of_ne_deferred nofun
  case defer =>
    exact completes_settleGo (exec_onCur rfl hc rfl) hc hst fun _ l _ _ _ =>
      noteIssue_deferred_self c.n.hdr c.n.x 0 { l with pc := nextHeader c.n, ins := none }
  case exit =>
    have hd : mustDrain c c.n.x = false := by rw [mustDrain, hi]; rfl
    exact from_handlerGone (exec_exit h hc hd) hst (OnlyGroup.refl s c.ref) (cur?_group hc) rfl hi fun _ _ _ _ =>
      noteIssue_of_ne_deferred nofun
  case drain =>
    have hd : mustDrain c c.n.x = true := by rw [mustDrain_eq hx hi]; simpa using hp
    exact exec_onCur rfl hc (by rw [hd]; rfl)

/-! ### The depths of X -/

/-- Every lane of X has the call depth `d`. -/
def EvenAt (c : Cur) (d : Nat) : Prop :=
  ∀ i l, i < 64 → c.n.x.getLsbD i = true → c.g.lanes[i]? = some l → l.depth = d

theorem mem_depths {c : Cur} {d : Nat} :
    d ∈ depths c.g c.n.x ↔ ∃ i l, i < 64 ∧ c.n.x.getLsbD i = true ∧ c.g.lanes[i]? = some l ∧ l.depth = d := by
  rw [depths, List.mem_filterMap]
  simp only [lanesOf_mem, Group.lane, Option.map_eq_some_iff]
  exact exists_congr fun i => ⟨fun ⟨⟨h64, hb⟩, l, hl, hd⟩ => ⟨l, h64, hb, hl, hd⟩, fun ⟨l, h64, hb, hl, hd⟩ => ⟨⟨h64, hb⟩, l, hl, hd⟩⟩

theorem evenAt_iff {c : Cur} {d : Nat} : EvenAt c d ↔ ∀ x ∈ depths c.g c.n.x, x = d := by
  constructor
  · intro h x hx
    obtain ⟨i, l, h64, hb, hl, rfl⟩ := mem_depths.mp hx
    exact h i l h64 hb hl
  · exact fun h i l h64 hb hl => h _ (mem_depths.mpr ⟨i, l, h64, hb, hl, rfl⟩)

/-- All depths are equal when they are the first. -/
theorem exists_evenAt_iff {c : Cur} :
    (∃ d, EvenAt c d) ↔ (depths c.g c.n.x).any (fun x => x != (depths c.g c.n.x).headD 0) = false := by
  simp only [evenAt_iff]
  cases depths c.g c.n.x with
  | nil => simp
  | cons a r =>
    simp only [List.headD_cons, List.any_eq_false, bne_iff_ne, ne_eq, not_not]
    exact ⟨fun ⟨d, h⟩ x hx => (h x hx).trans (h a List.mem_cons_self).symm, fun h => ⟨a, h⟩⟩

/-- A live X that is not empty has a first depth, and that is the one its lanes share. -/
theorem headD_depths {c : Cur} {d : Nat} (hx : c.n.x = c.g.live) (hne : c.n.x ≠ 0) (hd : EvenAt c d) :
    (depths c.g c.n.x).headD 0 = d := by
  obtain ⟨i, hi⟩ := exists_getLsbD_of_ne_zero hne
  obtain ⟨l, -, hl⟩ := exists_liveLane (hx ▸ hi)
  have hmem : l.depth ∈ depths c.g c.n.x := mem_depths.mpr ⟨i, l, BitVec.lt_of_getLsbD hi, hi, hl, rfl⟩
  have hall := evenAt_iff.mp hd
  cases hds : depths c.g c.n.x with
  | nil => rw [hds] at hmem; cases hmem
  | cons a r => exact hall a (by rw [hds]; exact List.mem_cons_self)

/-! ### LOOP (R148) -/

/-- The last word of a loop's body, as an index that may lie before the text. -/
def loopStop (c : Cur) (off : BitVec 32) : Int := (textIndex c.l.kernel c.n.hdr : Int) + off.toInt

/-- LOOP's operands are illegal: its body is empty, or its count too large. -/
def BadLoop (c : Cur) (n : Nat) (off : BitVec 32) : Prop :=
  loopStop c off ≤ (textIndex c.l.kernel (nextHeader c.n) : Int) ∨ 1048575 < n

/-- Every live lane enters, at one depth, and none stands aside. -/
def EnterTogether (c : Cur) : Prop := c.n.x = c.g.live ∧ (∃ d, EvenAt c d) ∧ aside c.g = false

/-- The entry that LOOP pushes. -/
def loopEntry (c : Cur) (n d : Nat) (off : BitVec 32) : LoopEntry :=
  ⟨n, d, textIndex c.l.kernel (nextHeader c.n), (loopStop c off).toNat % 2 ^ 18⟩

section Loop

variable {s : State} {c : Cur} {h : Head} {count : Cur → Nat} {off : BitVec 32} (hc : cur? s = some c)

theorem badLoop_iff {n : Nat} : BadLoop c n off ↔
    (decide (loopStop c off ≤ (textIndex c.l.kernel (nextHeader c.n) : Int)) || decide (n > 1048575)) = true := by
  rw [Bool.or_eq_true, decide_eq_true_eq, decide_eq_true_eq, BadLoop]

theorem enterTogether_iff : EnterTogether c ↔ ¬((c.n.x != c.g.live ||
    (depths c.g c.n.x).any (fun x => x != (depths c.g c.n.x).headD 0) || aside c.g) = true) := by
  rw [Bool.not_eq_true, Bool.or_eq_false_iff, Bool.or_eq_false_iff, bne_eq_false_iff_eq, ← exists_evenAt_iff, and_assoc, EnterTogether]

include hc

/-- LOOP with its tests by name. -/
theorem loopWord_eq : loopWord s h count off = .next (
    if loopStop c off ≤ (textIndex c.l.kernel (nextHeader c.n) : Int) || count c > 1048575 then
      wordFault s c .illegalOperand
    else if c.n.x != c.g.live || (depths c.g c.n.x).any (fun x => x != (depths c.g c.n.x).headD 0) || aside c.g then
      wordFault s c .loopDiverged
    else if c.g.loops.length ≥ 4 || (depths c.g c.n.x).headD 0 > 255 then wordFault s c .loopDepth
    else if c.g.loops.any (fun e => e.depth == (depths c.g c.n.x).headD 0 && loopStop c off > (e.stop : Int)) then
      wordFault s c .loopEscape
    else if count c == 0 then settleGo s c h 0 [] (goAll c c.g.loops (branchTarget c off))
    else settleGo (c.mod s fun g => { g with loops := loopEntry c (count c) ((depths c.g c.n.x).headD 0) off :: c.g.loops }) c h 0 []
      (goAll c (loopEntry c (count c) ((depths c.g c.n.x).headD 0) off :: c.g.loops) (nextHeader c.n))) := by
  rw [loopWord, onCur, hc]
  rfl

theorem loopWord_bad (hb : BadLoop c (count c) off) : loopWord s h count off = .next (wordFault s c .illegalOperand) := by
  rw [loopWord_eq hc, if_pos (badLoop_iff.mp hb)]

variable (hb : ¬BadLoop c (count c) off)

include hb

theorem loopWord_apart (ht : ¬EnterTogether c) : loopWord s h count off = .next (wordFault s c .loopDiverged) := by
  rw [loopWord_eq hc, if_neg (badLoop_iff.not.mp hb), if_pos (not_not.mp (enterTogether_iff.not.mp ht))]

variable (ht : EnterTogether c) (hne : c.n.x ≠ 0) {d : Nat} (hd : EvenAt c d)

include ht hne hd

/-- LOOP of lanes that enter together at the depth `d`. -/
theorem loopWord_together : loopWord s h count off = .next (
    if c.g.loops.length ≥ 4 || d > 255 then wordFault s c .loopDepth
    else if c.g.loops.any (fun e => e.depth == d && loopStop c off > (e.stop : Int)) then wordFault s c .loopEscape
    else if count c == 0 then settleGo s c h 0 [] (goAll c c.g.loops (branchTarget c off))
    else settleGo (c.mod s fun g => { g with loops := loopEntry c (count c) d off :: c.g.loops }) c h 0 []
      (goAll c (loopEntry c (count c) d off :: c.g.loops) (nextHeader c.n))) := by
  have hx : c.n.x = c.g.live := ht.1
  rw [loopWord_eq hc, if_neg (badLoop_iff.not.mp hb), if_neg (enterTogether_iff.mp ht), headD_depths hx hne hd]

theorem loopWord_deep (hl : 4 ≤ c.g.loops.length ∨ 255 < d) : loopWord s h count off = .next (wordFault s c .loopDepth) := by
  rw [loopWord_together hc hb ht hne hd, if_pos (by simpa using hl)]

variable (hl : c.g.loops.length < 4) (h255 : d ≤ 255)

include hl h255

theorem loopWord_outer (he : ∃ e ∈ c.g.loops, e.depth = d ∧ (e.stop : Int) < loopStop c off) :
    loopWord s h count off = .next (wordFault s c .loopEscape) := by
  rw [loopWord_together hc hb ht hne hd, if_neg (by simp; omega), if_pos (by simpa using he)]

variable (hin : ∀ e ∈ c.g.loops, e.depth = d → loopStop c off ≤ (e.stop : Int))

include hin

theorem loopWord_none (hn : count c = 0) :
    loopWord s h count off = .next (settleGo s c h 0 [] (goAll c c.g.loops (branchTarget c off))) := by
  rw [loopWord_together hc hb ht hne hd, if_neg (by simp; omega), if_neg (by simpa using hin), if_pos (by simpa using hn)]

theorem loopWord_push (hn : count c ≠ 0) : loopWord s h count off =
    .next (settleGo (c.mod s fun g => { g with loops := loopEntry c (count c) d off :: c.g.loops }) c h 0 []
      (goAll c (loopEntry c (count c) d off :: c.g.loops) (nextHeader c.n))) := by
  rw [loopWord_together hc hb ht hne hd, if_neg (by simp; omega), if_neg (by simpa using hin), if_neg (by simpa using hn)]

end Loop

/-- What LOOP does with the count `n`. -/
def LoopDoes (s : State) (c : Cur) (h : Head) (off : BitVec 32) (i : Instr) (n : Nat) : Prop :=
  (BadLoop c n off → Faults i s c .illegalOperand) ∧
  (¬BadLoop c n off → ¬EnterTogether c → Faults i s c .loopDiverged) ∧
  ∀ d, ¬BadLoop c n off → EnterTogether c → c.n.x ≠ 0 → EvenAt c d →
    (4 ≤ c.g.loops.length ∨ 255 < d → Faults i s c .loopDepth) ∧
    (c.g.loops.length < 4 → d ≤ 255 →
      ((∃ e ∈ c.g.loops, e.depth = d ∧ (e.stop : Int) < loopStop c off) → Faults i s c .loopEscape) ∧
      ((∀ e ∈ c.g.loops, e.depth = d → loopStop c off ≤ (e.stop : Int)) →
        (n = 0 → Completes i s c (Leaves c h c.g.loops fun _ => Takes c.l.kernel c.g.loops (c.n.hdr + (off.signExtend 64) * 8))) ∧
        (n ≠ 0 → Completes i s c (Leaves c h (loopEntry c n d off :: c.g.loops) fun _ =>
          Takes c.l.kernel (loopEntry c n d off :: c.g.loops) (nextHeader c.n)))))

theorem loopDoes_of_loopWord {i : Instr} {s : State} {c : Cur} {h : Head} {off : BitVec 32} {count : Cur → Nat}
    (hi : exec i s = loopWord s h count off) (hc : cur? s = some c) (hst : Standing c) : LoopDoes s c h off i (count c) := by
  refine ⟨fun hb => hi.trans (loopWord_bad hc hb), fun hb ht => hi.trans (loopWord_apart hc hb ht), fun d hb ht hne hd =>
    ⟨fun hl => hi.trans (loopWord_deep hc hb ht hne hd hl), fun hl h255 =>
      ⟨fun he => hi.trans (loopWord_outer hc hb ht hne hd hl h255 he), fun hin => ⟨fun hn => ?_, fun hn => ?_⟩⟩⟩⟩
  · rw [← branchTarget_eq]
    exact completes_settleGo (hi.trans (loopWord_none hc hb ht hne hd hl h255 hin hn)) hc hst fun _ _ _ _ hr => takes_issue hr
  · exact completes_settleGo_loops (hi.trans (loopWord_push hc hb ht hne hd hl h255 hin hn)) hc hst fun _ _ _ _ hr => takes_issue hr

theorem loopStart : Claim.LoopStart := by
  intro s c h r imm off hc hst
  have scalar : LoopDoes s c h off (.loopScalar h r off) (c.g.sreg r.toNat).toNat :=
    loopDoes_of_loopWord (count := fun c => (c.g.sreg r.toNat).toNat) rfl hc hst
  have immediate : LoopDoes s c h off (.loopImm h imm off) imm.toNat := loopDoes_of_loopWord (count := fun _ => imm.toNat) rfl hc hst
  exact ⟨scalar, immediate⟩

/-! ### LBRK (R151) -/

section Break

variable {s : State} {c : Cur} {h : Head} {n : BitVec 2} (hc : cur? s = some c)

include hc

theorem exec_lbrk_apart (ht : ¬(c.n.x = c.g.live ∧ aside c.g = false)) : exec (.lbrk h n) s = .next (wordFault s c .loopDiverged) := by
  refine exec_onCur rfl hc (if_pos ?_)
  rwa [Bool.or_eq_true, bne_iff_ne, ← Bool.not_eq_false, ← not_and_or]

/-- LBRK of live lanes that govern none of the loops it ends from outside. -/
def BreaksOwn (c : Cur) (n : BitVec 2) : Prop :=
  n.toNat < c.g.loops.length ∧ ∀ e ∈ c.g.loops.take (n.toNat + 1), EvenAt c e.depth

omit hc in
theorem breaksOwn_iff : BreaksOwn c n ↔ (decide ((c.g.loops.take (n.toNat + 1)).length < n.toNat + 1) ||
    (c.g.loops.take (n.toNat + 1)).any (fun e => (depths c.g c.n.x).any (fun d => d != e.depth))) = false := by
  simp only [Bool.or_eq_false_iff, decide_eq_false_iff_not, List.any_eq_false, List.any_eq_true, bne_iff_ne, not_exists, not_and,
    ne_eq, not_not, BreaksOwn, evenAt_iff, List.length_take]
  exact and_congr_left fun _ => by omega

theorem exec_lbrk_foreign (hx : c.n.x = c.g.live) (ha : aside c.g = false) (ho : ¬BreaksOwn c n) :
    exec (.lbrk h n) s = .next (wordFault s c .loopEscape) := by
  refine exec_onCur rfl hc ?_
  have hb := breaksOwn_iff.not.mp ho
  rw [Bool.not_eq_false] at hb
  simp only [hx, ha, bne_self_eq_false, Bool.or_self, Bool.false_eq_true, if_false]
  rw [hx] at hb
  rw [if_pos hb]

theorem exec_lbrk {e : LoopEntry} (hx : c.n.x = c.g.live) (ha : aside c.g = false) (ho : BreaksOwn c n)
    (he : c.g.loops[n.toNat]? = some e) : exec (.lbrk h n) s = .next (settleGo
      (c.mod s fun g => { g with loops := c.g.loops.drop (n.toNat + 1) }) c h 0 []
      (goAll c (c.g.loops.drop (n.toNat + 1)) (textWord c.l.kernel e.stop))) := by
  refine exec_onCur rfl hc ?_
  have hb := breaksOwn_iff.mp ho
  have hlast : (c.g.loops.take (n.toNat + 1)).getLast? = some e := by
    rw [List.take_add_one, he]
    simp
  simp only [hx, ha, bne_self_eq_false, Bool.or_self, Bool.false_eq_true, if_false]
  rw [hx] at hb
  rw [if_neg (by rw [hb]; simp), hlast]

end Break

/-! ### YLD (R153, R154, R172) -/

/-- A team that a word's group leaves keeps what its own update did not touch. -/
theorem OnlyGroup.team {s t : State} {r : GRef} (o : OnlyGroup s t r) {n : Nat} {u : Team} (hu : s.team? n = some u) :
    ∃ v, t.team? n = some v ∧ v = { u with groups := v.groups, floor := v.floor } := by
  obtain ⟨-, hne, -, heq⟩ := o
  by_cases hn : n = r.team
  · subst hn
    exact heq u hu
  · exact ⟨u, (hne n hn).trans hu, rfl⟩

theorem team?_modTeam_same {s : State} {id : Nat} {t : Team} (f : Team → Team) (hf : ∀ t, (f t).id = t.id) (ht : s.team? id = some t) :
    (s.modTeam id f).team? id = some (f t) := by
  rw [team?_modTeam s id f hf, ht, Option.map_some, team?_id ht, if_pos (beq_self_eq_true id)]

theorem team?_modTeam_ne {s : State} {id n : Nat} (f : Team → Team) (hf : ∀ t, (f t).id = t.id) (hn : n ≠ id) :
    (s.modTeam id f).team? n = s.team? n := by
  rw [team?_modTeam s id f hf]
  cases ht : s.team? n with
  | none => rfl
  | some t => rw [Option.map_some, team?_id ht, if_neg (by simpa using hn)]

/-- An update of a team that leaves its groups alone. -/
theorem group?_modTeam (s : State) (id : Nat) (f : Team → Team) (hf : ∀ t, (f t).id = t.id ∧ (f t).groups = t.groups) (r : GRef) :
    (s.modTeam id f).group? r = s.group? r := by
  rw [State.group?, team?_modTeam s id f (fun t => (hf t).1), State.group?]
  cases s.team? r.team with
  | none => rfl
  | some t =>
    simp only [Option.map_some, Option.bind_some]
    split
    · rw [Team.group?, (hf t).2, Team.group?]
    · rfl

/-- The group once it is past its YLD: its deadline set, its clause ended, and its wait `w`. -/
def PastYld (c : Cur) (h : Head) (n : BitVec 16) (w : Option Waiting) (g' : Group) : Prop :=
  g' = { c.g with ylddl := n.toNat, lanes := g'.lanes, clause := none, readyAt := g'.readyAt, wait := w } ∧
  Leaves { c with g := { c.g with ylddl := n.toNat, wait := w } } { h with sw := false } c.g.loops
    (fun _ => Takes c.l.kernel c.g.loops (nextHeader c.n)) g'

/-- The clause ends without a switch marker, and then the group waits or not. -/
theorem pastYld_of_leaves {c : Cur} {h : Head} {n : BitVec 16} {g' : Group} (w : Option Waiting) (r : Nat)
    (hl : Leaves { c with g := { c.g with ylddl := n.toNat } } { h with sw := false } c.g.loops
      (fun _ => Takes c.l.kernel c.g.loops (nextHeader c.n)) g') : PastYld c h n w { g' with wait := w, readyAt := r } := by
  obtain ⟨hg', -, hlen, hlanes⟩ := hl
  have hg : ({ g' with wait := w, readyAt := r } : Group) =
      { c.g with ylddl := n.toNat, lanes := g'.lanes, clause := none, readyAt := r, wait := w } := by rw [hg']
  exact ⟨hg, hg, by simp, hlen, hlanes⟩

/-- What YLD leaves the group waiting for, in a team that is asked to leave or not. -/
def yldWait (c : Cur) (preempt : Bool) : Option Waiting :=
  if c.g.pend = [] then if preempt then some ⟨.preempt, c.n⟩ else none else some ⟨.yldDrain, c.n⟩

/-- YLD once any request to leave has been made. -/
def yldFrom (s : State) (c : Cur) (h : Head) (n : BitVec 16) : State :=
  let s := settleGo (c.mod s (fun g => { g with ylddl := n.toNat })) c { h with sw := false } 0 [] (goAfter c)
  if c.g.drained then yldDone s c.ref c.n else waitFor s c .yldDrain

theorem exec_yld {s : State} {c : Cur} (h : Head) (spin : Bool) (n : BitVec 16) (hc : cur? s = some c) :
    exec (.yld h spin n) s = .next (yldFrom (if spin then spinFor s c.t else s) c h n) :=
  exec_onCur rfl hc rfl

theorem yldFrom_spec {s : State} {c : Cur} {h : Head} {n : BitVec 16} {u : Team} (hst : Standing c) (hlast : c.n.last = true)
    (hg : s.group? c.ref = some c.g) (hu : s.team? c.ref.team = some u) :
    ∃ g', OnlyGroup s (yldFrom s c h n) c.ref ∧ (yldFrom s c h n).group? c.ref = some g' ∧ PastYld c h n (yldWait c u.preempt) g' := by
  obtain ⟨o1, e1⟩ := curMod_spec (c := c) (fun g => { g with ylddl := n.toNat }) (fun _ => rfl) hg
  obtain ⟨g2, o2, e2, hl⟩ := endClause_leaves (P := fun _ => Takes c.l.kernel c.g.loops (nextHeader c.n)) { h with sw := false }
    (goAfter c) hst e1 rfl fun i l hi hl => by
      rw [goAfter_last hlast]
      exact takes_issue (hst.ready hi hl)
  rw [← settleGo_nil] at o2 e2
  unfold yldFrom yldWait
  dsimp only
  by_cases hp : c.g.pend = []
  · have hd : c.g.drained = true := by rw [Group.drained, hp]; rfl
    have e3 := (group?_standAt _ c.ref c.ref).trans e2
    have o3 := (o1.trans o2).trans (OnlyGroup.standAt _ c.ref)
    obtain ⟨v, hv, hvu⟩ := o3.team hu
    have hpre : v.preempt = u.preempt := by rw [hvu]
    rw [if_pos hd, if_pos hp, yldDone]
    simp only [hv, hpre]
    split
    · obtain ⟨o4, e4⟩ := modGroup_spec (fun g => { g with wait := some ⟨.preempt, c.n⟩ }) (fun _ => rfl) e3
      exact ⟨_, o3.trans o4, e4, pastYld_of_leaves _ _ hl⟩
    · obtain ⟨o4, e4⟩ := wake_spec e3
      exact ⟨_, o3.trans o4, e4, pastYld_of_leaves _ _ hl⟩
  · have hd : ¬c.g.drained = true := by simpa [Group.drained] using hp
    obtain ⟨o4, e4⟩ := waitFor_spec (c := c) .yldDrain e2
    rw [if_neg hd, if_neg hp]
    exact ⟨_, (o1.trans o2).trans o4, e4, pastYld_of_leaves _ _ hl⟩

/-- YLD.spin finds a saved team that waits for its die, in a team whose groups have all stood at a point. -/
def AsksToLeave (s : State) (c : Cur) (spin : Bool) : Prop :=
  spin = true ∧ c.t.floor = [] ∧ (savedWaits s (dieOf c.t.core)).isSome = true

theorem spinFor_of_not_asks {s : State} {c : Cur} {spin : Bool} (ha : ¬AsksToLeave s c spin) :
    (if spin then spinFor s c.t else s) = s := by
  cases spin with
  | false => rfl
  | true =>
    rw [if_pos rfl]
    unfold spinFor
    split
    next y hy =>
      rw [if_neg]
      exact fun hf => ha ⟨rfl, List.isEmpty_iff.mp hf, by rw [hy]; rfl⟩
    next => rfl

/-- A fold that at each element keeps what it has or takes the element ends with what it began with or with an element. -/
theorem foldl_pick_mem {α : Type} {f : Option α → α → Option α} (hf : ∀ b t, f b t = some t ∨ f b t = b) (l : List α) (b : Option α)
    {y : α} (h : l.foldl f b = some y) : y ∈ l ∨ b = some y := by
  induction l generalizing b with
  | nil => exact .inr h
  | cons a r ih =>
    rcases ih _ h with hr | hb
    · exact .inl (List.mem_cons_of_mem a hr)
    · rcases hf b a with ha | ha
      · cases ha.symm.trans hb
        exact .inl List.mem_cons_self
      · exact .inr (ha.symm.trans hb)

theorem mem_of_savedWaits {s : State} {die : Nat} {y : Team} (h : savedWaits s die = some y) : y ∈ s.teams := by
  refine (foldl_pick_mem ?_ _ none h).elim (fun hm => (List.mem_filter.mp hm).1) nofun
  intro b t
  cases b with
  | none => exact .inl rfl
  | some z =>
    dsimp only
    split
    · exact .inl rfl
    · exact .inr rfl

theorem team?_isSome_of_mem {s : State} {y : Team} (h : y ∈ s.teams) : ∃ z, s.team? y.id = some z :=
  Option.isSome_iff_exists.mp (List.find?_isSome.mpr ⟨y, h, by simp⟩)

/-- The team is asked to leave (R169). -/
def Team.asked (t : Team) : Team := { t with preempt := true }

/-- The core `k` is kept for the saved team (R172). -/
def Team.favouring (k : Nat) (t : Team) : Team := { t with favour := some k }

/-- The team is asked to leave, and its core kept for the saved team that has waited longest. -/
theorem spinFor_asks {s : State} {c : Cur} {y : Team} (hc : cur? s = some c) (hf : c.t.floor = [])
    (hy : savedWaits s (dieOf c.t.core) = some y) :
    (spinFor s c.t).group? c.ref = some c.g ∧ (∃ u, (spinFor s c.t).team? c.ref.team = some u ∧ u.preempt = true) ∧
    ∃ u, (spinFor s c.t).team? y.id = some u ∧ u.favour = some c.t.core := by
  have hid : c.t.id = c.ref.team := team?_id (cur?_team hc)
  have hspin : spinFor s c.t = (s.modTeam c.ref.team Team.asked).modTeam y.id (Team.favouring c.t.core) := by
    simp only [spinFor, hy, hf, List.isEmpty_nil, if_true, hid]
    rfl
  have hasked := team?_modTeam_same Team.asked (fun _ => rfl) (cur?_team hc)
  rw [hspin]
  refine ⟨?_, ?_, ?_⟩
  · exact (group?_modTeam _ _ (Team.favouring c.t.core) (fun _ => ⟨rfl, rfl⟩) _).trans
      ((group?_modTeam _ _ Team.asked (fun _ => ⟨rfl, rfl⟩) _).trans (cur?_group hc))
  · by_cases he : c.ref.team = y.id
    · rw [he] at hasked ⊢
      exact ⟨_, team?_modTeam_same (Team.favouring c.t.core) (fun _ => rfl) hasked, rfl⟩
    · exact ⟨_, (team?_modTeam_ne (Team.favouring c.t.core) (fun _ => rfl) he).trans hasked, rfl⟩
  · obtain ⟨z, hz⟩ := team?_isSome_of_mem (mem_of_savedWaits hy)
    by_cases he : y.id = c.ref.team
    · rw [← he] at hasked ⊢
      exact ⟨_, team?_modTeam_same (Team.favouring c.t.core) (fun _ => rfl) hasked, rfl⟩
    · exact ⟨_, team?_modTeam_same (Team.favouring c.t.core) (fun _ => rfl) ((team?_modTeam_ne Team.asked (fun _ => rfl) he).trans hz), rfl⟩

theorem loopBreakAndYield : Claim.LoopBreakAndYield := by
  intro s c h hc hst
  refine ⟨fun n => ⟨fun ht => exec_lbrk_apart hc ht, fun ht ho => exec_lbrk_foreign hc ht.1 ht.2 ho, fun ht ho e he => ?brk⟩,
    fun spin n hlast => ⟨fun ha => ?_, fun ha => ?asks⟩⟩
  case brk =>
    exact completes_settleGo_loops (exec_lbrk hc ht.1 ht.2 ho he) hc hst fun _ _ _ _ hr => takes_issue hr
  case asks =>
    obtain ⟨hspin, hf, hy⟩ := ha
    obtain ⟨y, hy⟩ := Option.isSome_iff_exists.mp hy
    obtain ⟨hg, ⟨u, hu, hpre⟩, v, hv, hfav⟩ := spinFor_asks hc hf hy
    obtain ⟨g', o, e, hpast, -⟩ := yldFrom_spec (h := h) (n := n) hst hlast hg hu
    obtain ⟨u', hu', hue⟩ := o.team hu
    obtain ⟨v', hv', hve⟩ := o.team hv
    refine ⟨_, g', (exec_yld h spin n hc).trans (by rw [if_pos hspin]), e, by rw [hpast], ⟨u', hu', by rw [hue, hpre]⟩, fun z hz => ?_⟩
    cases hy.symm.trans hz
    exact ⟨v', hv', by rw [hve, hfav]⟩
  obtain ⟨g', o, e, hpast⟩ := yldFrom_spec (h := h) (n := n) hst hlast (cur?_group hc) (cur?_team hc)
  have run : Completes (.yld h spin n) s c (PastYld c h n (yldWait c c.t.preempt)) :=
    ⟨_, g', (exec_yld h spin n hc).trans (by rw [spinFor_of_not_asks ha]), o, e, hpast⟩
  refine ⟨fun hp => ?_, fun hp hpre => ?_, fun hp hpre => ?_⟩
  · rwa [yldWait, if_neg hp] at run
  · rwa [yldWait, if_pos hp, hpre] at run
  · rwa [yldWait, if_pos hp, hpre] at run

/-- Settles O17: a hold, a deferral, an exit, a loop's entry and its end each place the lanes of X and end the clause; the handler
ends once none of its lanes is live, and YLD's team is asked to leave by an update that its clause's end keeps. -/
theorem loopsAndHolds : Obligations.LoopsAndHolds := ⟨heldLanes, loopStart, loopBreakAndYield⟩

end Sys2Proof.Machine
end

section
/-! SUPPORT. A team's resources after it has left, the record of its end, and the end of a group (R152, R323, R334, R336, R339). -/

namespace Sys2Proof.Machine

open Sys2Proof

theorem launch?_modLaunch (s : State) (id n : Nat) (f : Launch → Launch) (hf : ∀ l, (f l).id = l.id) :
    (s.modLaunch id f).launch? n = (s.launch? n).map (fun l => if l.id == id then f l else l) :=
  find?_map_key s.launches (·.id) id n f hf

theorem launch?_id {s : State} {n : Nat} {l : Launch} (h : s.launch? n = some l) : l.id = n := by
  simpa using List.find?_some h

theorem launch?_modLaunch_same {s : State} {id : Nat} {l : Launch} (f : Launch → Launch) (hf : ∀ l, (f l).id = l.id)
    (h : s.launch? id = some l) : (s.modLaunch id f).launch? id = some (f l) := by
  rw [launch?_modLaunch s id id f hf, h, Option.map_some, launch?_id h, if_pos (beq_self_eq_true id)]

/-! ### A team that leaves (R334) -/

theorem foldl_dropWaits_frame (id : Nat) (l : List Group) (s : State) :
    (l.foldl (fun s g => dropWaits s ⟨id, g.grp⟩) s).accs = s.accs ∧ (l.foldl (fun s g => dropWaits s ⟨id, g.grp⟩) s).mmas = s.mmas := by
  induction l generalizing s with
  | nil => exact ⟨rfl, rfl⟩
  | cons g r ih => exact ih (dropWaits s ⟨id, g.grp⟩)

theorem left_freeTeam (s : State) (t : Team) : Claim.left (freeTeam s t) t := by
  unfold freeTeam
  dsimp only
  generalize (if t.saved = true then s else flushTeam s t) = v
  obtain ⟨haccs, hmmas⟩ := foldl_dropWaits_frame t.id t.groups (freeSlots v t)
  refine ⟨fun x hx => ?_, fun p hp => ?_, fun m hm => ?_, fun r hr => ?_⟩
  · simpa using (List.mem_filter.mp hx).2
  · rw [State.modLaunch_accs, haccs] at hp
    simpa using (List.mem_filter.mp hp).2
  · rw [State.modLaunch_mmas, hmmas] at hm
    simpa using (List.mem_filter.mp hm).2
  · simpa using (List.mem_filter.mp hr).2

/-- A later step that touches none of a team's resources leaves it gone. -/
theorem left_of_frame {u v : State} {t : Team} (h : Claim.left v t)
    (hu : u.teams = v.teams ∧ u.accs = v.accs ∧ u.mmas = v.mmas ∧ u.issuing = v.issuing) : Claim.left u t := by
  obtain ⟨ht, ha, hm, hi⟩ := hu
  rwa [Claim.left, ht, ha, hm, hi]

/-! ### The record of a team's end (R342, R343) -/

/-- Besides the buffer, its numbers and the count of lost records, a record changes nothing. -/
theorem postRecord_frame (s : State) (r : ErrRec) :
    postRecord s r = { s with errBuf := (postRecord s r).errBuf, errSeq := (postRecord s r).errSeq, ctrl := (postRecord s r).ctrl } := by
  unfold postRecord
  split <;> rfl

/-- What the state holds once the end of `t` is recorded, its peer stores are orphans and its launch is updated by `f`. -/
def recordedEnd (v : State) (t : Team) (e : Ending) (kind : Nat) (f : Launch → Launch) : State :=
  (orphanStores (postEnd v t.launch (endRecord t e kind)) t.id).modLaunch t.launch f

theorem recordedEnd_spec {v : State} {t : Team} {e : Ending} {kind : Nat} (f : Launch → Launch) (hf : ∀ l, (f l).id = l.id)
    (hv : Claim.left v t) :
    Claim.left (recordedEnd v t e kind f) t ∧
    (v.errBuf.length < 1024 → (recordedEnd v t e kind f).errBuf = v.errBuf ++ [(endRecord t e kind).pack v.time (v.errSeq + 1)] ∧
      (recordedEnd v t e kind f).errSeq = v.errSeq + 1) ∧
    (∀ a, byteAt (recordedEnd v t e kind f) a = byteAt v a) ∧
    ∀ l, v.launch? t.launch = some l →
      (recordedEnd v t e kind f).launch? t.launch = some (f { l with recs := (recordedEnd v t e kind f).errSeq }) := by
  have hp := postRecord_frame v (endRecord t e kind)
  have hrecs : ∀ l, v.launch? t.launch = some l → (postEnd v t.launch (endRecord t e kind)).launch? t.launch =
      some { l with recs := (postRecord v (endRecord t e kind)).errSeq } := fun l hl =>
    launch?_modLaunch_same (s := postRecord v (endRecord t e kind)) (fun l => { l with recs := _ }) (fun _ => rfl)
      (by rw [hp]; exact hl)
  refine ⟨left_of_frame hv ?_, fun hroom => ?_, fun a => ?_, fun l hl => ?_⟩
  · simp only [recordedEnd, orphanStores, postEnd, State.modLaunch_teams, State.modLaunch_accs, State.modLaunch_mmas,
      State.modLaunch_issuing]
    rw [hp]
    exact ⟨rfl, rfl, rfl, rfl⟩
  · simp only [recordedEnd, orphanStores, postEnd, State.modLaunch_errBuf, State.modLaunch_errSeq, postRecord_room _ hroom, and_self]
  · simp only [recordedEnd, orphanStores, postEnd, byteAt, State.modLaunch_mem]
    rw [hp]
  · have hseq : (recordedEnd v t e kind f).errSeq = (postRecord v (endRecord t e kind)).errSeq := by
      simp only [recordedEnd, orphanStores, postEnd, State.modLaunch_errSeq]
    rw [hseq]
    exact launch?_modLaunch_same f hf (hrecs l hl)

theorem teamFaults : Claim.TeamFaults := by
  intro s t e ht he hheld v recorded
  have hleft : Claim.left v t := left_freeTeam s t
  refine ⟨hleft, rfl, rfl, rfl, fun hr => ?_, fun hr => ?_⟩
  · obtain ⟨hgone, hrec, hmem, hl⟩ := recordedEnd_spec (e := e) (kind := 1)
      (fun l => { Launch.fail l t.id with ended := l.ended + 1 }) (fun _ => rfl) hleft
    refine ⟨_, ?_, hgone, hrec, hmem, fun l h => ?_⟩
    · simp only [exec, execTeamFaultEnd, ht, he, hr, hheld, Bool.or_self, Bool.false_eq_true, if_false]
      rfl
    · rw [hl l h]
      simp [Launch.fail]
  · obtain ⟨hgone, hrec, hmem, hl⟩ := recordedEnd_spec (e := e) (kind := 2)
      (fun l => { l with again := l.again ++ [(t.idx, t.relaunches + 1, clusterOf t.core)] }) (fun _ => rfl) hleft
    refine ⟨_, ?_, hgone, hrec, hmem, hl⟩
    simp only [exec, execRelaunch, ht, he, hr, hheld, Bool.not_false, Bool.and_self, if_true]
    rfl

/-! ### The end of a group, and of a team whose groups have all ended (R152, R323, R336, R392) -/

theorem groupDone_of {g : Group} (he : g.ended = false) (hp : g.pend = []) (hq : g.trapReq = none) (hc : g.clause = none)
    (hl : ∀ l ∈ g.lanes, l.st = .exited) : groupDone g = true := by
  simpa [groupDone, Group.drained, he, hp, hq, hc] using hl

/-- Nothing of the group is left in a slot of its team. -/
theorem unclaim_token {s : State} {team grp : Nat} {p} (hp : p ∈ (unclaim s team grp).accs) (ht : p.2.team = team) :
    p.2.token ≠ .held grp ∧ p.2.token ≠ .leaving grp := by
  obtain ⟨q, -, rfl⟩ := List.mem_map.mp hp
  by_cases hq : q.2.team = team
  · simp only [hq, beq_self_eq_true, if_true]
    split
    next => exact ⟨nofun, nofun⟩
    next hn => simpa using hn
  · have hne : (q.2.team == team) = false := by simpa using hq
    rw [hne] at ht
    exact absurd ht hq

/-- The group as its end leaves it. -/
def Group.finished (g : Group) : Group := { g with ended := true, wait := none, slate := { g.slate with chip := [], inmem := 0 } }

/-- The state of a group's end, once a failed peer store has ended the team. -/
def endedGroup (s : State) (r : GRef) : State := standAt (unclaim (s.modGroup r Group.finished) r.team r.grp) r

theorem endedGroup_spec {s : State} {r : GRef} {g : Group} (hg : s.group? r = some g) :
    (endedGroup s r).group? r = some g.finished ∧
    (∀ p ∈ (endedGroup s r).accs, p.2.team = r.team → p.2.token ≠ .held r.grp ∧ p.2.token ≠ .leaving r.grp) ∧
    ((endedGroup s r).team? r.team).map (·.ending) = (s.team? r.team).map (·.ending) := by
  obtain ⟨o, e⟩ := modGroup_spec Group.finished (fun _ => rfl) hg
  have hteams : (unclaim (s.modGroup r Group.finished) r.team r.grp).teams = (s.modGroup r Group.finished).teams := rfl
  refine ⟨(group?_standAt _ r r).trans ((group?_of_teams hteams r).trans e), fun p hp ht => unclaim_token hp ht, ?_⟩
  obtain ⟨t, ht, -⟩ := Option.bind_eq_some_iff.mp hg
  obtain ⟨u, hu, hue⟩ := o.team ht
  obtain ⟨w, hw, hwe⟩ := (OnlyGroup.standAt (unclaim (s.modGroup r Group.finished) r.team r.grp) r).team ((team?_of_teams hteams _).trans hu)
  rw [ht, endedGroup, hw, Option.map_some, Option.map_some, hwe, hue]

theorem group?_endTeam (s : State) (n : Nat) (e : Ending) (r : GRef) : (endTeam s n e).group? r = s.group? r :=
  group?_modTeam s n _ (fun t => by split <;> exact ⟨rfl, rfl⟩) r

theorem groupEnds {s : State} {r : GRef} {g : Group} (hg : s.group? r = some g) (hd : groupDone g = true) :
    ∃ u, exec (.groupEnd r) s = .next u ∧ u.group? r = some g.finished ∧
      (∀ p ∈ u.accs, p.2.team = r.team → p.2.token ≠ .held r.grp ∧ p.2.token ≠ .leaving r.grp) ∧
      (g.peerFail = [] → (u.team? r.team).map (·.ending) = (s.team? r.team).map (·.ending)) ∧
      (∀ f rest t, g.peerFail = f :: rest → s.team? r.team = some t → t.ending = none →
        ∃ e, (u.team? r.team).map (·.ending) = some (some e) ∧ e.cause = f.1 ∧ e.va = f.2.2.1 ∧ e.lane = f.2.2.2) := by
  cases hpf : g.peerFail with
  | nil =>
    obtain ⟨hgrp, haccs, hend⟩ := endedGroup_spec hg
    refine ⟨endedGroup s r, ?_, hgrp, haccs, fun _ => hend, fun f rest _ h => absurd h.symm (List.cons_ne_nil f rest)⟩
    simp only [exec, execGroupEnd, hg, hd, hpf, if_true]
    rfl
  | cons f rest =>
    obtain ⟨hgrp, haccs, hend⟩ := endedGroup_spec ((group?_endTeam s r.team ⟨f.1, false, r, f.2.2.2, f.2.2.1, 0, 0, 0, 0⟩ r).trans hg)
    refine ⟨endedGroup _ r, ?_, hgrp, haccs, fun h => absurd h (List.cons_ne_nil f rest), fun f' rest' t hf ht hnone => ?_⟩
    · simp only [exec, execGroupEnd, hg, hd, hpf, if_true]
      rfl
    · cases hf
      exact ⟨_, hend.trans (ending_endTeam _ ht hnone), rfl, rfl, rfl⟩

theorem execTeamEndExit_eq {s : State} {n : Nat} {t : Team} {l : Launch} (ht : s.team? n = some t) (hl : s.launch? t.launch = some l)
    (hgo : (!(t.groups.all (·.ended)) || t.ending.isSome || storesHeld s n) = false) :
    execTeamEndExit n s = .next (
      let s1 := if l.kernel.replayable && !t.pinned then commitTeam s n else if t.committing then grantAll s t.core else s
      match commitLeft s1 n, s1.team? n with
      | [], some t => (freeTeam s1 t).modLaunch t.launch (fun l => { l with ended := l.ended + 1 })
      | _, _ => s1) := by
  unfold execTeamEndExit
  rw [ht, Option.bind_some, hl]
  dsimp only
  rw [hgo]
  rfl

theorem teamExits {s s1 : State} {t t1 : Team} {l : Launch} (ht : s.team? t.id = some t) (hl : s.launch? t.launch = some l)
    (hends : ∀ g ∈ t.groups, g.ended = true) (hnone : t.ending = none) (hheld : storesHeld s t.id = false)
    (hs1 : s1 = if l.kernel.replayable = true ∧ t.pinned = false then commitTeam s t.id
      else if t.committing = true then grantAll s t.core else s)
    (hcommit : commitLeft s1 t.id = []) (ht1 : s1.team? t.id = some t1) :
    exec (.teamEndExit t.id) s = .next ((freeTeam s1 t1).modLaunch t1.launch fun l => { l with ended := l.ended + 1 }) := by
  have hgo : (!(t.groups.all (·.ended)) || t.ending.isSome || storesHeld s t.id) = false := by simpa [hnone, hheld] using hends
  have hs : (if (l.kernel.replayable && !t.pinned) = true then commitTeam s t.id
      else if t.committing = true then grantAll s t.core else s) = s1 := by
    rw [hs1]
    simp
  rw [show exec (.teamEndExit t.id) s = execTeamEndExit t.id s from rfl, execTeamEndExit_eq ht hl hgo, hs]
  dsimp only
  rw [hcommit, ht1]

theorem teamEnds : Claim.TeamEnds := by
  refine ⟨fun s r g hg he hp hq hc hlanes => groupEnds hg (groupDone_of he hp hq hc hlanes),
    fun s s1 t t1 l ht hl hends hnone hheld hs1 hcommit ht1 =>
      ⟨_, teamExits ht hl hends hnone hheld hs1 hcommit ht1, ?_, fun a => ?_, fun y hy => ?_⟩⟩
  · exact left_of_frame (left_freeTeam s1 t1) ⟨State.modLaunch_teams .., State.modLaunch_accs .., State.modLaunch_mmas ..,
      State.modLaunch_issuing ..⟩
  · simp only [byteAt, State.modLaunch_mem]
  · exact launch?_modLaunch_same (fun l => { l with ended := l.ended + 1 }) (fun _ => rfl) hy

/-- Settles O43: freeing a team filters its resources out, recording its end touches only the error buffer and its launch, and
a finished group's update is kept by the release of its slots and by its stand at a point. -/
theorem teamsLeaving : Obligations.TeamsLeaving := ⟨teamFaults, teamEnds⟩

end Sys2Proof.Machine
end

section
/-! SUPPORT. A team at its start, and the timers of scheduling (R130, R157, R162 to R169, R172). -/

namespace Sys2Proof.Machine

open Sys2Proof

/-! ### The start of a team's groups (R43, R130, R157, R163) -/

theorem mget_foldl_mput {α : Type} [DecidableEq α] (d : α) (f : Nat → α) (l : List Nat) (m : SMap α) (j : Nat) :
    mget d (l.foldl (fun m i => mput d m i (f i)) m) j = if j ∈ l then f j else mget d m j := by
  induction l generalizing m with
  | nil => rfl
  | cons a r ih =>
    rw [List.foldl_cons, ih]
    by_cases hr : j ∈ r
    · simp [hr]
    · by_cases ha : j = a
      · simp [ha]
      · simp [hr, ha, mget_mput_ne]

theorem mget_startRegs (l : Launch) (scratch r : Nat) : mget 0 (startRegs l scratch) r =
    if r = 7 then l.kernel.data else if r = 6 ∧ l.kernel.scratch ≠ 0 then BitVec.ofNat 64 (0xFD * 2 ^ 48 + scratch)
    else if r < 7 then l.params.getD r 0 else 0 := by
  unfold startRegs
  dsimp only
  by_cases h7 : r = 7
  · simp [h7]
  rw [mget_mput_ne 0 _ _ h7, if_neg h7]
  by_cases hs : l.kernel.scratch = 0
  · simp only [hs, beq_self_eq_true, if_true, mget_foldl_mput, List.mem_range, ne_eq, not_true, and_false, if_false]
    rfl
  · rw [if_neg (by simpa using hs)]
    by_cases h6 : r = 6
    · simp [h6, hs]
    · rw [mget_mput_ne 0 _ _ h6, mget_foldl_mput]
      simp only [List.mem_range, h6, false_and, if_false]
      rfl

theorem length_startGroups (s : State) (l : Launch) (scratch : Nat) :
    (startGroups s l scratch).length = (l.kernel.roles.map Prod.fst).sum := by
  have hroles : (l.kernel.roles.mapIdx fun i r => (i, r)).map (fun p => p.2.1) = l.kernel.roles.map Prod.fst :=
    List.ext_getElem (by simp) (by simp)
  simp [startGroups, List.length_flatMap, hroles]

/-- What a group is at its start, the `i`th of its team. -/
def StartsAs (l : Launch) (off i : Nat) (g : Group) : Prop :=
  g.grp = i ∧ g.lanes.length = l.kernel.width ∧ g.ended = false ∧ g.loops = [] ∧ g.inTrap = false ∧
  g.traph = 0 ∧ g.ylddl = l.kernel.deadline ∧ g.wait = none ∧ g.pend = [] ∧ g.storeQ = [] ∧
  (∀ y ∈ g.lanes, y.pc = l.kernel.text ∧ y.st = .ready ∧ y.trap = .none ∧ y.depth = 0) ∧
  (∀ r, g.sreg r = if r = 7 then l.kernel.data else if r = 6 ∧ l.kernel.scratch ≠ 0 then BitVec.ofNat 64 (0xFD * 2 ^ 48 + off)
    else if r < 7 then l.params.getD r 0 else 0) ∧
  ∀ r i, g.vreg r i = 0 ∧ g.vtag r i = 0

theorem startGroup_startsAs (s : State) (l : Launch) (off i role regs : Nat) : StartsAs l off i (startGroup s l off i role regs) := by
  refine ⟨rfl, List.length_replicate, rfl, rfl, rfl, rfl, rfl, rfl, rfl, rfl, fun y hy => ?_, mget_startRegs l off, fun _ _ => ⟨rfl, rfl⟩⟩
  rw [List.eq_of_mem_replicate hy]
  exact ⟨rfl, rfl, rfl, rfl⟩

theorem startsAs_of_startGroups {s : State} {l : Launch} {off i : Nat} {g : Group} (h : (startGroups s l off)[i]? = some g) :
    StartsAs l off i g := by
  rw [startGroups, List.getElem?_mapIdx] at h
  obtain ⟨p, -, rfl⟩ := Option.map_eq_some_iff.mp h
  exact startGroup_startsAs s l off i p.1 p.2

/-! ### The slots allotted to it (R164) -/

/-- The physical slot `p` of the core is the team's, and no group has claimed it. -/
def Allotted (s : State) (team core p : Nat) : Prop :=
  ∃ a, mfind s.accs (accKey core p) = some a ∧ a.token = .unclaimed ∧ a.team = team

theorem allotAccs_frame (s : State) (team core : Nat) (ps : List Nat) :
    allotAccs s team core ps = { s with accs := (allotAccs s team core ps).accs, freeN := (allotAccs s team core ps).freeN } := by
  induction ps generalizing s with
  | nil => rfl
  | cons p r ih => exact ih _

theorem allotted_allotAccs {team core : Nat} (ps : List Nat) (s : State) {p : Nat} (h : p ∈ ps ∨ Allotted s team core p) :
    Allotted (allotAccs s team core ps) team core p := by
  induction ps generalizing s with
  | nil => exact h.resolve_left List.not_mem_nil
  | cons q r ih =>
    refine ih _ ?_
    by_cases hr : p ∈ r
    · exact .inl hr
    refine .inr ?_
    unfold Allotted
    rw [mfind_minsert]
    split
    next => exact ⟨_, rfl, rfl, rfl⟩
    next hne =>
      rcases h with hm | ha
      · rcases List.mem_cons.mp hm with rfl | hm
        · exact absurd rfl hne
        · exact absurd hm hr
      · exact ha

/-! ### TEAM_PLACE -/

/-- The team that starts on a core. -/
def startedTeam (s : State) (l : Launch) (core idx again : Nat) (coord : Nat × Nat × Nat) (off seg : Nat) : Team where
  id := s.seqN
  launch := l.id
  ctx := l.ctx
  slot := ctxSlot s l.ctx
  idx := idx
  coord := coord
  core := core
  saved := false
  seg := seg
  scratch := off
  accs := freeAccs s core l.kernel.acc
  groups := startGroups s l off
  relaunches := again
  pinned := false
  committing := false
  uncommitted := []
  ending := none
  preempt := false
  floor := []
  placedAt := s.time
  order := s.seqN
  savedAt := 0
  favour := none
  image := []
  accSave := []
  scratchSave := []
  arrived := []

/-- The launch once a team of it has started. -/
def Launch.started (now : Word) (l : Launch) : Launch := { l with placedAt := now, starved := false }

/-- The core's state once the slots of the team that starts there are allotted and older copies are dropped. -/
def startState (s : State) (l : Launch) (core : Nat) : State :=
  acquireAt (allotAccs { s with seqN := s.seqN + 1 } s.seqN core (freeAccs s core l.kernel.acc)) core .dev

theorem startState_frame (s : State) (l : Launch) (core : Nat) : (startState s l core).teams = s.teams ∧
    (startState s l core).launches = s.launches ∧ (startState s l core).time = s.time := by
  rw [startState, acquireAt_eq, allotAccs_frame]
  exact ⟨rfl, rfl, rfl⟩

section Start

variable {s : State} {l : Launch} {core off seg : Nat} (hl : s.launch? l.id = some l)
  (hoff : scratchPlace s (clusterOf core) l.kernel.scratch = some off) (hseg : freeSeg s l.ctx = some seg)
  (idx again : Nat) (coord : Nat × Nat × Nat)

include hoff hseg

theorem startTeam_eq : startTeam s l core idx again coord =
    (wakeIslands { startState s l core with
      teams := (startState s l core).teams ++ [startedTeam s l core idx again coord off seg]
      dispPos := mput 0 (startState s l core).dispPos (dieOf core) (1 + core) }).modLaunch l.id
      (Launch.started (startState s l core).time) := by
  rw [startTeam, hoff, hseg]
  rfl

theorem startTeam_teams : (startTeam s l core idx again coord).teams = s.teams ++ [startedTeam s l core idx again coord off seg] := by
  rw [startTeam_eq hoff hseg, State.modLaunch_teams, wakeIslands, (startState_frame s l core).1]

include hl in
theorem startTeam_launch? : (startTeam s l core idx again coord).launch? l.id = some (Launch.started s.time l) := by
  obtain ⟨-, hlaunches, htime⟩ := startState_frame s l core
  rw [startTeam_eq hoff hseg, htime]
  refine launch?_modLaunch_same _ (fun _ => rfl) ?_
  rw [State.launch?, wakeIslands, hlaunches]
  exact hl

theorem allotted_startTeam {p : Nat} (hp : p ∈ freeAccs s core l.kernel.acc) :
    Allotted (startTeam s l core idx again coord) s.seqN core p := by
  rw [startTeam_eq hoff hseg, Allotted, State.modLaunch_accs, wakeIslands, startState, acquireAt_eq]
  exact allotted_allotAccs _ _ (.inl hp)

end Start

theorem length_freeAccs (s : State) (core n : Nat) : (freeAccs s core n).length ≤ n := List.length_take_le _ _

theorem teamPlacement : Claim.TeamPlacement := by
  intro s die core l off seg hdie hchoose hl hoff hseg starts
  have begins : ∀ (idx again : Nat) (coord : Nat × Nat × Nat) (f : Launch → Launch) (P : Launch → Prop), (∀ l, (f l).id = l.id) →
      exec (.teamPlace die) s = .next ((startTeam s l core idx again coord).modLaunch l.id f) → P (f (Launch.started s.time l)) →
      starts idx again coord P := by
    intro idx again coord f P hf hexec hP
    refine ⟨_, startedTeam s l core idx again coord off seg, _, hexec, ?_,
      launch?_modLaunch_same f hf (startTeam_launch? hl hoff hseg idx again coord), hP, rfl, rfl, length_startGroups s l off,
      fun i g hg => startsAs_of_startGroups hg, length_freeAccs s core _, fun p hp => ?_⟩
    · rw [State.modLaunch_teams, startTeam_teams hoff hseg]
    · rw [State.modLaunch_accs]
      exact allotted_startTeam hoff hseg idx again coord hp
  have hd : ¬4 ≤ die := by omega
  refine ⟨fun d p hn => begins _ _ _ (fun l => { l with pos := d + 1, placed := l.placed + 1 }) _ (fun _ => rfl) ?_ rfl,
    fun i n a hn => begins _ _ _ (fun l => { l with again := l.again.drop 1 }) _ (fun _ => rfl) ?_ rfl⟩
  all_goals simp only [exec, execTeamPlace, ge_iff_le, if_neg hd, hchoose, hn]

/-! ### The timers (R167, R169, R172) -/

theorem hasNext_of {s : State} {l : Launch} (he : l.stage = .eligible) (hn : nextTeam s l ≠ .none) : hasNext s l = true := by
  simp [hasNext, he, hn]

theorem launchWaits {s : State} {l : Launch} (hl : s.launch? l.id = some l) (he : l.stage = .eligible) (hn : nextTeam s l ≠ .none)
    (ht : max l.eligAt.toNat l.placedAt.toNat + 2000000 ≤ s.time.toNat) :
    exec (.launchWait2ms l.id) s = .next (s.modLaunch l.id fun l => { l with starved := true }) := by
  have hdue : (hasNext s l && decide (s.time.toNat ≥ max l.eligAt.toNat l.placedAt.toNat + twoMs)) = true := by
    rw [hasNext_of he hn, Bool.true_and, decide_eq_true_eq]
    exact ht
  simp only [exec, execLaunchWait2ms, hl, hdue, if_true]

theorem askPreempt_team? {s : State} {t : Team} {n : Nat} (ht : s.team? n = some t) :
    (askPreempt s n).team? n = some (Team.asked t) :=
  team?_modTeam_same Team.asked (fun _ => rfl) ht

theorem preemptAsked {s : State} {t : Team} {l : Launch} (ht : s.team? t.id = some t) (hl : l ∈ s.launches)
    (he : l.stage = .eligible) (hn : nextTeam s l ≠ .none) (hstuck : ∀ d, d < 4 → coreFor s l d = none)
    (hpri : teamPriority s t < l.priority) (hlow : lowestTeam s (onDies s l) = some t) (hend : t.ending = none) :
    ∃ u, exec (.preemptRequest t.id) s = .next u ∧ u = { s with teams := u.teams } ∧ u.team? t.id = some (Team.asked t) := by
  cases hp : t.preempt with
  | true =>
    refine ⟨s, by simp [exec, execPreemptRequest, ht, hp], rfl, ht.trans ?_⟩
    rw [Team.asked, ← hp]
  | false =>
    have hany : s.launches.any (fun l => stuckLaunch s l && decide (l.priority > teamPriority s t) &&
        lowestTeam s (onDies s l) == some t) = true :=
      List.any_eq_true.mpr ⟨l, hl, by simpa [stuckLaunch, hasNext_of he hn, hpri, hlow] using hstuck⟩
    refine ⟨askPreempt s t.id, ?_, rfl, askPreempt_team? ht⟩
    simp only [exec, execPreemptRequest, ht, hp, hend, Option.isSome_none, Bool.or_self, Bool.false_eq_true, if_false, hany, if_true]

theorem mem_onDies {s : State} {l : Launch} {y : Team} :
    y ∈ onDies s l ↔ y ∈ s.teams ∧ y.saved = false ∧ l.onDie (dieOf y.core) = true := by
  simp [onDies]

theorem team?_of_mem {s : State} (hid : s.teams.Pairwise fun a b => a.id ≠ b.id) {y : Team} (hy : y ∈ s.teams) : s.team? y.id = some y := by
  obtain ⟨z, hz⟩ := team?_isSome_of_mem hy
  have hzy : z = y := List.inj_on_of_nodup_map (List.pairwise_map.mpr hid) (List.mem_of_find?_eq_some hz) hy (team?_id hz)
  rw [hz, hzy]

/-- The teams of which R172 asks the one that has run longest to leave. -/
def leavable (s : State) (l : Launch) : List Team := (onDies s l).filter (fun y => y.floor.isEmpty && y.ending.isNone)

theorem mem_leavable {s : State} {l : Launch} {y : Team} : y ∈ leavable s l ↔
    (y ∈ s.teams ∧ y.saved = false ∧ l.onDie (dieOf y.core) = true) ∧ y.floor = [] ∧ y.ending = none := by
  simp [leavable, mem_onDies]

/-- The one of them that has run longest leaves. -/
theorem exec_floorShareTimeout {s : State} {t : Team} {l : Launch} (ht : s.team? t.id = some t) (hl : s.launch? t.launch = some l)
    (hsaved : t.saved = true) (hend : t.ending = none) (hdue : t.savedAt.toNat + 2000000 ≤ s.time.toNat)
    (hasked : ∀ y ∈ s.teams, y.saved = false → l.onDie (dieOf y.core) = true → y.preempt = false)
    (hfits : ∀ c, c < 256 → fitsResume s l t c = false) (hne : ∃ y, y ∈ leavable s l) :
    ∃ b ∈ leavable s l, (∀ z ∈ leavable s l, b.order ≤ z.order) ∧
      exec (.floorShareTimeout t.id) s = .next ((askPreempt s b.id).modTeam t.id (Team.favouring b.core)) := by
  have hgo : (!t.saved || t.ending.isSome || decide (s.time.toNat < t.savedAt.toNat + twoMs) || (onDies s l).any (·.preempt) ||
      (List.range 256).any (fitsResume s l t)) = false := by
    have hnone : (onDies s l).any (·.preempt) = false := by
      simpa [mem_onDies] using hasked
    have hcores : (List.range 256).any (fitsResume s l t) = false := by
      simpa using hfits
    have hwaited : ¬s.time.toNat < t.savedAt.toNat + twoMs := not_lt.mpr hdue
    simp [hsaved, hend, hnone, hcores, hwaited]
  cases hle : leavable s l with
  | nil =>
    obtain ⟨y, hy⟩ := hne
    rw [hle] at hy
    cases hy
  | cons y r =>
    obtain ⟨hmem, hleast⟩ := foldl_least (fun y : Team => y.order) (fun y b => y.order < b.order) (fun _ _ => Iff.rfl) r y
    refine ⟨_, hmem, hleast, ?_⟩
    have hle' : (onDies s l).filter (fun y => y.floor.isEmpty && y.ending.isNone) = y :: r := hle
    simp only [exec, execFloorShareTimeout, ht, Option.bind_some, hl, hgo, Bool.false_eq_true, if_false, hle']
    rfl

theorem floorShared {s : State} {t : Team} {l : Launch} (ht : s.team? t.id = some t) (hl : s.launch? t.launch = some l)
    (hsaved : t.saved = true) (hend : t.ending = none) (hdue : t.savedAt.toNat + 2000000 ≤ s.time.toNat)
    (hasked : ∀ y ∈ s.teams, y.saved = false → l.onDie (dieOf y.core) = true → y.preempt = false)
    (hfits : ∀ c, c < 256 → fitsResume s l t c = false)
    (hne : ∃ y ∈ s.teams, y.saved = false ∧ l.onDie (dieOf y.core) = true ∧ y.floor = [] ∧ y.ending = none)
    (hid : s.teams.Pairwise fun a b => a.id ≠ b.id) :
    ∃ u y, exec (.floorShareTimeout t.id) s = .next u ∧ u = { s with teams := u.teams } ∧ y ∈ s.teams ∧ y.saved = false ∧
      l.onDie (dieOf y.core) = true ∧ y.floor = [] ∧ u.team? y.id = some (Team.asked y) ∧
      (∀ z ∈ s.teams, z.saved = false → l.onDie (dieOf z.core) = true → z.floor = [] → z.ending = none → y.order ≤ z.order) ∧
      u.team? t.id = some (Team.favouring y.core t) ∧ ∀ n, n ≠ y.id → n ≠ t.id → u.team? n = s.team? n := by
  obtain ⟨x, hx, hxs, hxd, hxf, hxe⟩ := hne
  obtain ⟨y, hy, hleast, hexec⟩ := exec_floorShareTimeout ht hl hsaved hend hdue hasked hfits
    ⟨x, mem_leavable.mpr ⟨⟨hx, hxs, hxd⟩, hxf, hxe⟩⟩
  obtain ⟨⟨hmem, hys, hyd⟩, hyf, -⟩ := mem_leavable.mp hy
  have hyt := team?_of_mem hid hmem
  have hne : y.id ≠ t.id := by
    intro he
    rw [he, ht] at hyt
    cases hyt
    rw [hsaved] at hys
    cases hys
  have hother : ∀ n, n ≠ y.id → (askPreempt s y.id).team? n = s.team? n := fun n hn => team?_modTeam_ne Team.asked (fun _ => rfl) hn
  exact ⟨_, y, hexec, rfl, hmem, hys, hyd, hyf,
    (team?_modTeam_ne (Team.favouring y.core) (fun _ => rfl) hne).trans (askPreempt_team? hyt),
    fun z hz hzs hzd hzf hze => hleast z (mem_leavable.mpr ⟨⟨hz, hzs, hzd⟩, hzf, hze⟩),
    team?_modTeam_same (Team.favouring y.core) (fun _ => rfl) ((hother t.id hne.symm).trans ht),
    fun n hn hnt => (team?_modTeam_ne (Team.favouring y.core) (fun _ => rfl) hnt).trans (hother n hn)⟩

theorem schedulerTimers : Claim.SchedulerTimers := by
  refine ⟨fun s l hl he hn ht => ⟨_, launchWaits hl he hn ht, rfl, ?_⟩,
    fun s t l ht hl he hn hstuck hpri hlow hend => preemptAsked ht hl he hn hstuck hpri hlow hend,
    fun s t l ht hl hsaved hend hdue hasked hfits hne hid => floorShared ht hl hsaved hend hdue hasked hfits hne hid⟩
  exact launch?_modLaunch_same (fun l => { l with starved := true }) (fun _ => rfl) hl

/-- Settles O45: the team that starts is given field by field, its slots stand in the map of slots after every other one is
inserted, and each timer updates one launch, or the team asked to leave and the team that its core is kept for. -/
theorem placement : Obligations.Placement := ⟨teamPlacement, schedulerTimers⟩

end Sys2Proof.Machine
end

section
/-! SUPPORT. Calls, the spills of the entries that no longer fit on chip, and returns (R140 to R142, R150). -/

namespace Sys2Proof.Machine

open Sys2Proof

/-! ### Calls (R141) -/

theorem curMod_id (s : State) (c : Cur) : c.mod s (fun g => g) = s := by
  have hteam : ∀ t : Team, t.modGroup c.n.g.grp (fun g => g) = t := fun t => by simp [Team.modGroup]
  simp [Cur.mod, State.modGroup, State.modTeam, hteam]

/-- Where a call's lanes go. -/
def callGo (c : Cur) (m : Mask) (t : Nat → Word) (i : Nat) (l : Lane) : Lane :=
  if m.getLsbD i then (l.pushCall (nextHeader c.n)).goTo c.g.loops c.l.kernel (t i) none else goAfter c i l

/-- A lane of `m` would call deeper than the kernel allows. -/
def tooDeep (c : Cur) (m : Mask) : Bool :=
  (lanesOf m).any fun i => match c.g.lane i with
    | some l => l.depth + 1 > c.l.kernel.maxDepth
    | none => false

theorem tooDeep_iff {c : Cur} {m : Mask} : tooDeep c m = true ↔
    ∃ i l, i < 64 ∧ m.getLsbD i = true ∧ c.g.lanes[i]? = some l ∧ c.l.kernel.maxDepth < l.depth + 1 := by
  rw [tooDeep, any_lanes_iff (g := c.g) (f := fun _ l => decide (c.l.kernel.maxDepth < l.depth + 1))]
  · simp only [decide_eq_true_eq]
  · intro i l hl
    rw [Group.lane, hl]
  · intro i hn
    rw [Group.lane, hn]

theorem tooDeep_false {c : Cur} {m : Mask}
    (h : ∀ i l, i < 64 → m.getLsbD i = true → c.g.lanes[i]? = some l → l.depth + 1 ≤ c.l.kernel.maxDepth) : tooDeep c m = false := by
  rw [← Bool.not_eq_true, tooDeep_iff]
  rintro ⟨i, l, h64, hm, hl, hd⟩
  exact absurd hd (not_lt.mpr (h i l h64 hm hl))

/-- Every lane of `m` has a free entry on chip. -/
def CallsHaveRoom (c : Cur) (m : Mask) : Prop :=
  ∀ i l, i < 64 → m.getLsbD i = true → c.g.lanes[i]? = some l → l.calls.length < 4

theorem foldl_callSpill_room {c : Cur} {m : Mask} (hr : CallsHaveRoom c m) (a : StoreAcc) :
    (lanesOf m).foldl (callSpill c) a = a := by
  refine List.foldlRecOn (motive := fun b => b = a) _ _ rfl fun b hb i hi => ?_
  obtain ⟨h64, hm⟩ := lanesOf_mem.mp hi
  rw [hb, callSpill, Group.lane]
  cases hl : c.g.lanes[i]? with
  | none => rfl
  | some l => exact if_pos (hr i l h64 hm hl)

section CallLanes

variable {s : State} {c : Cur} {h : Head} {m : Mask} {bad : List LaneTrap} {t : Nat → Word}

/-- The lanes' spills are made, queued and counted before the lanes go. -/
theorem callLanes_eq : callLanes s c h m bad t =
    if tooDeep c m then wordFault s c .callOverflow
    else
      let a := (lanesOf m).foldl (callSpill c) (StoreAcc.start s)
      let u := a.out.foldl (fun s p => queueWrite s c false { p.2 with spill := true }) a.s
      settleGo (c.mod u fun g => { g with callSpills := g.callSpills + a.out.length }) c h (maskOf a.parks) (a.traps ++ bad)
        (callGo c m t) := rfl

theorem callLanes_deep (hd : tooDeep c m = true) : callLanes s c h m bad t = wordFault s c .callOverflow := by
  rw [callLanes_eq, if_pos hd]

theorem callLanes_room (hd : tooDeep c m = false) (hr : CallsHaveRoom c m) :
    callLanes s c h m bad t = settleGo s c h 0 bad (callGo c m t) := by
  rw [callLanes_eq, hd, if_neg Bool.false_ne_true, foldl_callSpill_room hr]
  exact congrArg (fun s => settleGo s c h 0 bad (callGo c m t)) (curMod_id s c)

end CallLanes

theorem pushCall_room {l : Lane} (ret : Word) (h : l.calls.length < 4) : l.pushCall ret = { l with calls := ret :: l.calls } := by
  rw [Lane.pushCall, if_pos h, List.take_of_length_le (by simpa using h)]

theorem goTo_spilled (k : Kernel) (loops : List LoopEntry) (a : Word) (l : Lane) : (l.goTo loops k a none).spilled = l.spilled := by
  rw [(takes_goTo k loops a l).1]

/-- A call of the lanes that `on` names, lane `i` to `a i`: what `Claim.Calls` says of it. -/
def CallDoes (s : State) (c : Cur) (h : Head) (i : Instr) (on : Nat → Prop) (a : Nat → Word) : Prop :=
  ((∃ i l, i < 64 ∧ on i ∧ c.g.lanes[i]? = some l ∧ c.l.kernel.maxDepth < l.depth + 1) → Faults i s c .callOverflow) ∧
  ((∀ i l, i < 64 → on i → c.g.lanes[i]? = some l → l.depth + 1 ≤ c.l.kernel.maxDepth ∧ l.calls.length < 4) →
    Completes i s c (Leaves c h c.g.loops fun i l l' =>
      (on i → Takes c.l.kernel c.g.loops (a i) { l with calls := nextHeader c.n :: l.calls } l') ∧
      (¬on i → Takes c.l.kernel c.g.loops (nextHeader c.n) l l')))

theorem callDoes_of_callLanes {s : State} {c : Cur} {h : Head} {i : Instr} {m : Mask} {on : Nat → Prop} {a : Nat → Word}
    (hi : exec i s = .next (callLanes s c h m [] a)) (hc : cur? s = some c) (hst : Standing c) (hlast : c.n.last = true)
    (hon : ∀ i, i < 64 → (m.getLsbD i = true ↔ on i)) : CallDoes s c h i on a := by
  refine ⟨fun ⟨i, l, h64, ho, hl, hd⟩ => hi.trans (by rw [callLanes_deep (tooDeep_iff.mpr ⟨i, l, h64, (hon i h64).mpr ho, hl, hd⟩)]), fun hall => ?_⟩
  have hshallow : tooDeep c m = false := tooDeep_false fun i l h64 hm hl => (hall i l h64 ((hon i h64).mp hm) hl).1
  have hroom : CallsHaveRoom c m := fun i l h64 hm hl => (hall i l h64 ((hon i h64).mp hm) hl).2
  refine completes_settleGo (hi.trans (by rw [callLanes_room hshallow hroom])) hc hst fun i l hx hl hready => ?_
  have h64 := BitVec.lt_of_getLsbD hx
  refine ⟨fun ho => ?_, fun ho => ?_⟩
  · rw [callGo, if_pos ((hon i h64).mpr ho), pushCall_room _ (hall i l h64 ho hl).2]
    exact takes_issue (l := { l with calls := nextHeader c.n :: l.calls }) hready
  · rw [callGo, if_neg ((hon i h64).not.mpr ho), goAfter_last hlast]
    exact takes_issue hready

theorem exec_callv {s : State} {c : Cur} (h : Head) (v : BitVec 8) (hc : cur? s = some c) : exec (.callv h v) s = .next (
    if !c.vOk v.toNat false then wordFault s c .illegalOperand
    else callLanes s c h (c.active h &&& ~~~(maskOf ((vBad c v.toNat (c.active h)).map (·.lane)))) (vBad c v.toNat (c.active h))
      (fun i => textWord c.l.kernel (c.g.vreg v.toNat i).toNat)) :=
  exec_onCur rfl hc rfl

theorem calls : Claim.Calls := by
  intro s c h off v hc hst hlast
  have hin := inText_getLsbD c v.toNat (c.active h)
  refine ⟨?call, fun hv htext => ?callv, fun hv hfar hall => ?bad, fun hv => ?operand⟩
  case call =>
    rw [← branchTarget_eq]
    exact callDoes_of_callLanes (exec_onCur rfl hc rfl) hc hst hlast fun _ _ => Iff.rfl
  case callv =>
    have hnil : vBad c v.toNat (c.active h) = [] := vBad_eq_nil.mpr fun i h64 hon => not_le.mpr (htext i h64 hon)
    refine callDoes_of_callLanes (m := c.active h &&& ~~~(maskOf ((vBad c v.toNat (c.active h)).map (·.lane))))
      ((exec_callv h v hc).trans ?_) hc hst hlast fun i h64 => ?_
    · rw [hv, ← hnil]
      rfl
    · exact (hin i).trans (and_iff_left_of_imp fun hon => not_le.mpr (htext i h64 hon))
  case bad =>
    have hne : vBad c v.toNat (c.active h) ≠ [] := by
      obtain ⟨i, h64, hon, hi⟩ := hfar
      exact fun hnil => vBad_eq_nil.mp hnil i h64 hon hi
    let m := c.active h &&& ~~~(maskOf ((vBad c v.toNat (c.active h)).map (·.lane)))
    have hgood : ∀ i l, i < 64 → m.getLsbD i = true → c.g.lanes[i]? = some l → l.depth + 1 ≤ c.l.kernel.maxDepth ∧ l.calls.length < 4 :=
      fun i l h64 hm hl => hall i l h64 ((hin i).mp hm).1 (not_le.mp ((hin i).mp hm).2) hl
    have hshallow : tooDeep c m = false := tooDeep_false fun i l h64 hm hl => (hgood i l h64 hm hl).1
    have hroom : CallsHaveRoom c m := fun i l h64 hm hl => (hgood i l h64 hm hl).2
    refine ⟨callGo c m fun i => textWord c.l.kernel (c.g.vreg v.toNat i).toNat, ?_, fun i l _ ht => ⟨fun hon => ?_, fun hoff => ?_⟩⟩
    · rw [exec_callv h v hc, hv, callLanes_room hshallow hroom, settleGo_traps s c h _ hne, vBad_eq]
      rfl
    · rw [callGo, if_pos ((hin i).mpr ⟨hon, not_le.mpr ht⟩), goTo_spilled]
      exact takes_goTo c.l.kernel c.g.loops _ (l.pushCall (nextHeader c.n))
    · rw [callGo, if_neg fun hm => hoff ((hin i).mp hm).1, goAfter_last hlast]
      exact takes_goTo ..
  case operand => exact (exec_callv h v hc).trans (by rw [hv]; rfl)

/-! ### A call's spill (R140) -/

theorem lanesOf_twoPow {i : Nat} (hi : i < 64) : lanesOf (BitVec.twoPow 64 i) = [i] := by
  have hmem : ∀ j, j ∈ lanesOf (BitVec.twoPow 64 i) ↔ j = i := fun j => by
    rw [lanesOf_mem, BitVec.getLsbD_twoPow]
    simp only [Bool.and_eq_true, decide_eq_true_eq]
    omega
  exact List.perm_singleton.mp ((List.perm_ext_iff_of_nodup (lanesOf_nodup _) (List.nodup_singleton i)).mpr fun j => by simp [hmem])

theorem eq_of_getLsbD_twoPow {i j : Nat} (h : (BitVec.twoPow 64 i).getLsbD j = true) : j = i := by
  rw [BitVec.getLsbD_twoPow] at h
  simp only [Bool.and_eq_true, decide_eq_true_eq] at h
  exact h.2.symm

theorem coreFault_teams (s : State) (w : Who) (va : Nat) (k : AK) (who : Waiter) : (coreFault s w va k who).teams = s.teams := by
  unfold coreFault raiseFault
  split <;> rfl

theorem check189_teams (s : State) (w : Who) (va : Word) (align : Nat) (k : AK) : (check189 s w va align k).2.teams = s.teams := by
  unfold check189
  split
  next => rfl
  next =>
    split
    · rfl
    · split <;> rfl
  next =>
    split
    · rfl
    · have ht := translate_teams s w.slot va.toNat k
      split
      all_goals
        next h =>
          rw [h] at ht
          exact ht

theorem waitRoom_teams (s : State) (core : Nat) (who : Waiter) : (waitRoom s core who).teams = s.teams := by
  cases who <;> rfl

theorem storeFor_teams (s : State) (w : Who) (va : Word) (align : Nat) (k : AK) (team : Nat) (who : Waiter) (extra : List Nat) :
    (storeFor s w va align k team who extra).2.teams = s.teams := by
  have hc := check189_teams s w va align k
  unfold storeFor
  split
  case h_5 h =>
    rw [h] at hc
    split
    · exact (waitRoom_teams _ _ _).trans hc
    · exact (coreFault_teams _ _ _ _ _).trans hc
  all_goals
    next h =>
      rw [h] at hc
      exact hc

/-- A store that goes on: not a trap, not parked, and not to a peer page. -/
def GoesToMemory (p : Put) : Prop := p = .mem none ∨ (∃ x, p = .mem (some x) ∧ x.peer = false) ∨ ∃ loc, p = .window loc

/-- A lane's store of values that may be stored makes one write. -/
theorem storeLane_goes {c : Cur} {n : Nat} {addr : Nat → Word} {itag : Nat → Tag} {data : Nat → Nat × List (Nat × Tag)} {a : StoreAcc}
    {i : Nat} {s : State} {p : Put} (hk : c.l.kernel.trapstore = false) (hp : GoesToMemory p)
    (hs : storeFor a.s c.who (addr i) n .write c.t.id (.lanes c.ref (maskOf [i])) a.extra = (p, s)) :
    ∃ extra, storeLane c n addr itag data a i =
      ⟨s, a.out ++ [(p, laneWrite s.seqN c.ref i c.t.slot (putVa p (addr i).toNat) n (data i).1 (data i).2)], a.parks, a.traps, extra⟩ := by
  unfold storeLane
  rcases hp with rfl | ⟨x, rfl, hx⟩ | ⟨loc, rfl⟩
  · simp only [hs, hk, Bool.false_eq_true, if_false]
    exact ⟨_, rfl⟩
  · simp only [hs, hk, hx, Bool.false_and, Bool.false_eq_true, if_false]
    exact ⟨_, rfl⟩
  · simp only [hs, hk, Bool.false_eq_true, if_false]
    exact ⟨_, rfl⟩

section Spill

variable {s s' : State} {c : Cur} {h : Head} {off : BitVec 32} {l : Lane} {e0 e1 e2 e3 : Word} {p : Put} {i : Nat}

/-- The state once the entry `e3` of lane `i` is queued as the store `w`, and counted. -/
def spilledState (s' : State) (c : Cur) (w : GWrite) : State :=
  c.mod (queueWrite s' c false w) fun g => { g with callSpills := g.callSpills + 1 }

theorem spilledState_spec {w : GWrite} (hg : s'.group? c.ref = some c.g) :
    OnlyGroup (s'.modTeam c.t.id fun u => { u with uncommitted := u.uncommitted.filterMap (cutWrite w) }) (spilledState s' c w) c.ref ∧
    (spilledState s' c w).group? c.ref = some { c.g with storeQ := c.g.storeQ ++ [w], callSpills := c.g.callSpills + 1 } := by
  have hheld : (s'.modTeam c.t.id fun u => { u with uncommitted := u.uncommitted.filterMap (cutWrite w) }).group? c.ref = some c.g :=
    (group?_modTeam s' c.t.id (fun u => { u with uncommitted := u.uncommitted.filterMap (cutWrite w) }) (fun _ => ⟨rfl, rfl⟩) c.ref).trans hg
  obtain ⟨o1, e1⟩ := modGroup_spec (fun g => { g with storeQ := g.storeQ ++ [w] }) (fun _ => rfl) hheld
  obtain ⟨o2, e2⟩ := curMod_spec (c := c) (fun g => { g with callSpills := g.callSpills + 1 }) (fun _ => rfl) e1
  exact ⟨o1.trans o2, e2⟩

theorem exec_call_spill (hc : cur? s = some c) (hi : i < 64) (hx : c.n.x = BitVec.twoPow 64 i) (hl : c.g.lanes[i]? = some l)
    (hcalls : l.calls = [e0, e1, e2, e3]) (hdeep : l.depth + 1 ≤ c.l.kernel.maxDepth) (hk : c.l.kernel.trapstore = false)
    (hp : GoesToMemory p)
    (hs : storeFor s c.who (callPlace s c.t c.l.kernel c.g.grp i l.spilled) 8 .write c.t.id (.lanes c.ref (maskOf [i])) [] = (p, s')) :
    exec (.call h off) s = .next (settleGo (spilledState s' c
      { laneWrite s'.seqN c.ref i c.t.slot (putVa p (callPlace s c.t c.l.kernel c.g.grp i l.spilled).toNat) 8 e3.toNat [(0, 0), (4, 0)] with
        spill := true }) c h 0 [] (callGo c c.n.x fun _ => branchTarget c off)) := by
  have hshallow : tooDeep c c.n.x = false := tooDeep_false fun j y _ hj hy => by
    rw [hx] at hj
    rw [eq_of_getLsbD_twoPow hj, hl] at hy
    cases hy
    exact hdeep
  have hfull : ¬l.calls.length < 4 := by simp [hcalls]
  have hone : callSpill c (StoreAcc.start s) i = storeLane c 8 (fun _ => callPlace s c.t c.l.kernel c.g.grp i l.spilled) (fun _ => 0)
      (fun _ => ((l.calls.getD 3 0).toNat, [(0, 0), (4, 0)])) (StoreAcc.start s) i := by
    rw [callSpill, Group.lane, hl]
    exact if_neg hfull
  obtain ⟨extra, hspill⟩ := storeLane_goes (itag := fun _ => 0) (data := fun _ => ((l.calls.getD 3 0).toNat, [(0, 0), (4, 0)]))
    (addr := fun _ => callPlace s c.t c.l.kernel c.g.grp i l.spilled) (a := StoreAcc.start s) (i := i) hk hp hs
  have hcall : exec (.call h off) s = .next (callLanes s c h c.n.x [] fun _ => branchTarget c off) := exec_onCur rfl hc rfl
  rw [hcall, callLanes_eq, hshallow, if_neg Bool.false_ne_true, hx, lanesOf_twoPow hi, List.foldl_cons, List.foldl_nil, hone, hspill,
    hcalls]
  rfl

end Spill

theorem pushCall_full {l : Lane} (ret : Word) {e0 e1 e2 e3 : Word} (h : l.calls = [e0, e1, e2, e3]) :
    l.pushCall ret = { l with calls := [ret, e0, e1, e2], spilled := l.spilled + 1 } := by
  simp [Lane.pushCall, h]

theorem callSpills : Claim.CallSpills := by
  intro s s' c h off l e0 e1 e2 e3 p i hc hst hlast hi hx hl hcalls hdeep va
  refine ⟨rfl, fun hs hp hk => ?_⟩
  intro w held
  have hg : s'.group? c.ref = some c.g := by
    have hteams := storeFor_teams s c.who va 8 .write c.t.id (.lanes c.ref (maskOf [i])) []
    rw [hs] at hteams
    exact (group?_of_teams hteams _).trans (cur?_group hc)
  obtain ⟨ho, hsg⟩ := spilledState_spec (w := w) hg
  refine from_settleGo (exec_call_spill hc hi hx hl hcalls hdeep hk hp hs) hst ho hsg rfl fun j y hj hy => ?_
  have hready := hst.ready hj hy
  have hji : j = i := eq_of_getLsbD_twoPow (hx ▸ hj)
  have hyl : y = l := by
    rw [hji] at hy
    exact Option.some.inj (hy.symm.trans hl)
  rw [callGo, if_pos hj, pushCall_full _ (hyl ▸ hcalls), branchTarget_eq]
  exact takes_issue (l := { y with calls := [nextHeader c.n, e0, e1, e2], spilled := y.spilled + 1 }) hready

end Sys2Proof.Machine
end

section
/-! SUPPORT. No access to memory brings a group into its handler or out of it (R192, R226, R328, R336). -/

namespace Sys2Proof.Machine

open Sys2Proof

/-- Whether a group is in its handler. -/
def State.inTrap? (s : State) (r : GRef) : Option Bool := (s.group? r).map (·.inTrap)

section InTrap

variable (s : State) (r : GRef)

variable {s} in
theorem inTrap?_of_teams {t : State} (h : t.teams = s.teams) : t.inTrap? r = s.inTrap? r := by
  rw [State.inTrap?, group?_of_teams h, State.inTrap?]

theorem inTrap?_modTeam (id : Nat) {f : Team → Team} (hf : ∀ t, (f t).id = t.id ∧ (f t).groups = t.groups) :
    (s.modTeam id f).inTrap? r = s.inTrap? r := by
  rw [State.inTrap?, group?_modTeam s id f hf, State.inTrap?]

theorem inTrap?_modGroup (r' : GRef) {f : Group → Group} (hf : ∀ g, (f g).grp = g.grp ∧ (f g).inTrap = g.inTrap) :
    (s.modGroup r' f).inTrap? r = s.inTrap? r := by
  unfold State.inTrap?
  by_cases h : r = r'
  · subst h
    cases hg : s.group? r with
    | none =>
      have hnone : (s.modGroup r f).group? r = none := by
        rw [State.group?, State.modGroup, team?_modTeam s r.team (fun t => t.modGroup r.grp f) fun t => rfl]
        rw [State.group?] at hg
        cases ht : s.team? r.team with
        | none => rfl
        | some t =>
          rw [ht, Option.bind_some] at hg
          rw [Option.map_some, Option.bind_some, team?_id ht, if_pos (beq_self_eq_true _), group?_modGroup' t r.grp f (fun g => (hf g).1),
            hg]
          rfl
      rw [hnone]
    | some g =>
      rw [group?_modGroup_same f (fun g => (hf g).1) hg, Option.map_some, Option.map_some, (hf g).2]
  · rw [group?_modGroup_ne f (fun g => (hf g).1) h]

/-- A fold of steps none of which brings the group into its handler or out of it. -/
theorem inTrap?_foldl {α : Type} {f : State → α → State} (hf : ∀ s a, (f s a).inTrap? r = s.inTrap? r) (l : List α) :
    (l.foldl f s).inTrap? r = s.inTrap? r := by
  induction l generalizing s with
  | nil => rfl
  | cons a t ih => rw [List.foldl_cons, ih, hf]

variable {s} in
theorem inTrap?_translate {s1 : State} {slot va : Nat} {k : AK} {x} (h : translate s slot va k = (x, s1)) : s1.inTrap? r = s.inTrap? r := by
  have ht := translate_teams s slot va k
  rw [h] at ht
  exact inTrap?_of_teams r ht

theorem inTrap?_coreFault (w : Who) (va : Nat) (k : AK) (who : Waiter) : (coreFault s w va k who).inTrap? r = s.inTrap? r :=
  inTrap?_of_teams r (coreFault_teams s w va k who)

theorem inTrap?_aliasFill (slot va : Nat) (x : Xlat) : (aliasFill s slot va x).inTrap? r = s.inTrap? r :=
  inTrap?_of_teams r (aliasFill_teams s slot va x)

/-! ### Stores on their way (R192, R421) -/

theorem holdCopy_teams (core slot va leaf : Nat) (st : MState) : (holdCopy s core slot va leaf st).teams = s.teams := by
  unfold holdCopy
  dsimp only
  split
  · exact setClusters_teams s _ _
  · exact homeLine_teams _ _

theorem enterEv_teams (core : Nat) (w : GWrite) (leaf : Nat) : (enterEv s core w leaf).teams = s.teams :=
  (markDirty_teams _ w.slot w.va).trans (holdCopy_teams s core w.slot w.va leaf _)

theorem inTrap?_enterEv (core : Nat) (w : GWrite) (leaf : Nat) : (enterEv s core w leaf).inTrap? r = s.inTrap? r :=
  inTrap?_of_teams r (enterEv_teams s core w leaf)

theorem inTrap?_peerStore (core : Nat) (w : GWrite) (x : Xlat) : (peerStore s core w x).inTrap? r = s.inTrap? r := by
  refine inTrap?_foldl s r (fun s run => ?_) _
  split
  · rfl
  · exact inTrap?_modGroup s r w.g fun _ => ⟨rfl, rfl⟩

theorem inTrap?_drainWrite (core : Nat) (w : GWrite) : (drainWrite s core w).inTrap? r = s.inTrap? r := by
  unfold drainWrite
  split
  · rfl
  · rfl
  · split
    next x s1 h =>
      have ht := inTrap?_translate r h
      split
      · split
        · exact ht
        · exact (inTrap?_peerStore s1 r core w x).trans ht
      · have ha := (inTrap?_aliasFill s1 r w.slot w.va x).trans ht
        dsimp only
        split
        · exact (inTrap?_of_teams r (performLine_teams _ w.slot x w)).trans ha
        · exact (inTrap?_enterEv _ r core w x.size).trans ha
    next s1 h => exact (inTrap?_enterEv s1 r core w 1).trans (inTrap?_translate r h)

theorem inTrap?_drainList (core : Nat) (l : List GWrite) : (drainList core l s).2.inTrap? r = s.inTrap? r := by
  induction l generalizing s with
  | nil => rfl
  | cons w t ih =>
    unfold drainList
    split
    · rfl
    · exact (ih (drainWrite s core w)).trans (inTrap?_drainWrite s r core w)

theorem inTrap?_drainGroup (r' : GRef) : (drainGroup s r').inTrap? r = s.inTrap? r := by
  unfold drainGroup
  split
  next t g _ _ =>
    exact (inTrap?_modGroup _ r r' (f := fun x => { x with storeQ := (drainList t.core g.storeQ s).1 }) fun _ => ⟨rfl, rfl⟩).trans
      (inTrap?_drainList s r t.core g.storeQ)
  next => rfl

/-! ### Reductions (R226, R227) -/

theorem intern_teams (b : Birth) (site : Word) (first : Bool) : (intern s b site first).2.teams = s.teams := by
  unfold intern
  split
  · split <;> rfl
  · rfl

theorem redWrite_teams (q : RedReq) (g : Gran) : (redWrite s q g).2.teams = s.teams := by
  have hword : ∀ t, (wordTag s q.birth q.site (!q.counted) t).2.teams = s.teams := fun t => by
    cases t with
    | known x => rfl
    | born e => exact intern_teams s q.birth q.site _
  unfold redWrite
  dsimp only
  rw [apply_ite State.teams]
  exact (ite_self _).trans (hword _)

theorem invalidateCopies_teams (slot va : Nat) (x : Xlat) (f : Nat → Bool) (from? : Option Nat) :
    (invalidateCopies s slot va x f from?).teams = s.teams := rfl

theorem recallWhere_teams (slot va : Nat) (x : Xlat) (f : EvWrite → Bool) : (recallWhere s slot va x f).teams = s.teams := by
  unfold recallWhere
  dsimp only
  rw [dropCopies_teams, performEv_teams, invalidateCopies_teams]

/-- The arrival performed at the home. -/
theorem homeRed_teams (q : RedReq) (g : Gran) (x : Xlat) :
    (performLine (redWrite s q g).2 q.slot x (redWrite s q g).1).teams = s.teams :=
  (performLine_teams _ q.slot x _).trans (redWrite_teams s q g)

theorem inTrap?_applyRed (q : RedReq) : (applyRed s q).inTrap? r = s.inTrap? r := by
  unfold applyRed
  dsimp only
  split
  · rfl
  · split
    · rfl
    · split
      next => rfl
      next cl off _ _ =>
        have hw := redWrite_teams s q (granAt s (sramLoc cl off))
        generalize redWrite s q (granAt s (sramLoc cl off)) = y at hw ⊢
        exact inTrap?_of_teams r hw
    · split
      · rfl
      · split
        next s1 h => exact (inTrap?_coreFault s1 r _ _ _ _).trans (inTrap?_translate r h)
        next x s1 h =>
          have ht := inTrap?_translate r h
          split
          · split
            · split
              · exact ht
              · exact ht
            · refine Eq.trans ?_ ht
              exact inTrap?_modGroup s1 r q.g (f := fun g => { g with peerFail := g.peerFail ++ [(.badAddress, x.window, q.va, q.lane)] })
                fun _ => ⟨rfl, rfl⟩
          · refine Eq.trans (inTrap?_of_teams r (Eq.trans (homeRed_teams _ q _ x) ?_)) ht
            exact (recallWhere_teams _ q.slot q.va x _).trans (aliasFill_teams s1 q.slot q.va x)

theorem inTrap?_applyRedId (id : Nat) : (applyRedId s id).inTrap? r = s.inTrap? r := by
  unfold applyRedId
  split
  · exact inTrap?_applyRed s r _
  · rfl

theorem inTrap?_applyReds (r' : GRef) : (applyReds s r').inTrap? r = s.inTrap? r :=
  inTrap?_foldl s r (fun s id => inTrap?_applyRedId s r id) _

theorem inTrap?_pushOwn (r' : GRef) : (pushOwn s r').inTrap? r = s.inTrap? r :=
  (inTrap?_drainGroup _ r r').trans ((inTrap?_applyReds _ r r').trans (inTrap?_drainGroup s r r'))

/-! ### Ownership and commits (R191, R192, R336) -/

theorem trimLines_teams (lines : List Nat) : (trimLines s lines).teams = s.teams :=
  foldl_teams (fun s line => setClusters_teams s line _) lines s

theorem inTrap?_sendHeld (core line : Nat) (x : Xlat) : (sendHeld s core line x).inTrap? r = s.inTrap? r := by
  refine inTrap?_foldl s r (fun s e => ?_) _
  split
  · rfl
  · exact (inTrap?_of_teams r (trimLines_teams _ _)).trans (inTrap?_peerStore { s with ev := s.ev.erase e } r e.core e.w x)

theorem grantOwned_teams (core line : Nat) (x : Xlat) : (grantOwned s core line x).teams = s.teams := by
  unfold grantOwned
  dsimp only
  rw [markDirty_teams, holdCopy_teams, dropCopies_teams, performEv_teams]
  exact invalidateCopies_teams s (lineSlot line) (lineVa line) x (fun c => c != core) (some (clusterOf core))

theorem inTrap?_grantOne (core line : Nat) : (grantOne s core line).inTrap? r = s.inTrap? r := by
  unfold grantOne
  dsimp only
  split
  · rfl
  · split
    next s1 h =>
      refine (inTrap?_foldl s1 r (fun s w => ?_) _).trans (inTrap?_translate r h)
      exact inTrap?_coreFault s r _ _ _ _
    next x s1 h =>
      have ht := inTrap?_translate r h
      split
      · exact (inTrap?_sendHeld s1 r core line x).trans ht
      · generalize hred : List.foldl applyRedId s1 _ = s2
        have hr : s2.inTrap? r = s.inTrap? r := by
          rw [← hred, inTrap?_foldl s1 r (fun s id => inTrap?_applyRedId s r id), ht]
        split
        · exact hr
        · exact (inTrap?_of_teams r (grantOwned_teams _ core line x)).trans ((inTrap?_aliasFill s2 r _ _ x).trans hr)

theorem inTrap?_grantLine (core line : Nat) : (grantLine s core line).inTrap? r = s.inTrap? r := by
  unfold grantLine
  split
  · exact inTrap?_grantOne s r core line
  · dsimp only
    split
    · rw [inTrap?_grantOne]
      exact inTrap?_foldl (f := fun s (p : Nat × Nat) => grantOne s p.1 p.2) s r (fun s p => inTrap?_grantOne s r p.1 p.2) _
    · refine inTrap?_foldl s r (fun s e => ?_) _
      split
      · rfl
      · split
        · rfl
        · exact inTrap?_coreFault s r _ _ _ _

theorem inTrap?_grantAll (core : Nat) : (grantAll s core).inTrap? r = s.inTrap? r :=
  inTrap?_foldl s r (fun s l => inTrap?_grantLine s r core l) _

theorem inTrap?_enterCommitted (core : Nat) (w : GWrite) : (enterCommitted s core w).inTrap? r = s.inTrap? r := by
  unfold enterCommitted
  split
  next x s1 h =>
    split
    · exact (inTrap?_of_teams (s := s1) r rfl).trans (inTrap?_translate r h)
    · exact (inTrap?_enterEv _ r core w x.size).trans ((inTrap?_aliasFill s1 r w.slot w.va x).trans (inTrap?_translate r h))
  next s1 h => exact (inTrap?_enterEv s1 r core w 1).trans (inTrap?_translate r h)

theorem inTrap?_commitTeam (team : Nat) : (commitTeam s team).inTrap? r = s.inTrap? r := by
  unfold commitTeam
  split
  · rfl
  next t _ =>
    exact (inTrap?_grantAll _ r t.core).trans ((inTrap?_foldl _ r (fun s w => inTrap?_enterCommitted s r t.core w) _).trans
      (inTrap?_modTeam s r team fun _ => ⟨rfl, rfl⟩))

theorem inTrap?_sendFirst (r' : GRef) (w : Who) (x : Xlat) (va : Nat) : (sendFirst s r' w x va).inTrap? r = s.inTrap? r := by
  refine (inTrap?_sendHeld _ r w.core _ x).trans ((inTrap?_pushOwn _ r r').trans ?_)
  split
  · split
    · exact inTrap?_commitTeam s r _
    · rfl
  · rfl

/-- A load of a peer page. -/
theorem inTrap?_readFor_peer {s' : State} {r' : GRef} {w : Who} {va : Word} {align n : Nat} {k : AK} {ro : Bool} {who : Waiter} {x : Xlat}
    (h : readFor s r' w va align n k ro who = (.peer x, s')) : s'.inTrap? r = s.inTrap? r := by
  have hc := check189_teams s w va align k
  unfold readFor at h
  dsimp only at h
  split at h
  next => cases h
  next => cases h
  next => split at h <;> cases h
  next => split at h <;> cases h
  next y s1 hy =>
    rw [hy] at hc
    have h1 : s1.inTrap? r = s.inTrap? r := inTrap?_of_teams r hc
    split at h
    · split at h
      · cases h
        exact h1
      · split at h
        · cases h
        · split at h
          · cases h
          · cases h
            exact (inTrap?_sendFirst s1 r r' w x va.toNat).trans h1
    · split at h
      · cases h
      · split at h
        · split at h
          · split at h <;> cases h
          · split at h <;> cases h
        · cases h

end InTrap

end Sys2Proof.Machine
end

section
/-! SUPPORT. RET (R141, R142, R150): what its lanes find, and where they go. -/

namespace Sys2Proof.Machine

open Sys2Proof

/-! ### A trap raised outside a handler leaves the group outside it -/

theorem inTrap?_standAt (s : State) (r r' : GRef) : (standAt s r').inTrap? r = s.inTrap? r := by
  rw [State.inTrap?, group?_standAt, State.inTrap?]

theorem inTrap?_leaveClause (s : State) (r r' : GRef) : (leaveClause s r').inTrap? r = s.inTrap? r := by
  have hmod : (s.modGroup r' fun g => { g with clause := none, readyAt := s.seqN }).inTrap? r = s.inTrap? r :=
    inTrap?_modGroup s r r' (f := fun g => { g with clause := none, readyAt := s.seqN }) fun _ => ⟨rfl, rfl⟩
  unfold leaveClause
  dsimp only
  split
  · split
    · exact (inTrap?_standAt _ r r').trans ((inTrap?_of_teams (s := s.modGroup r' _) r rfl).trans hmod)
    · exact (inTrap?_of_teams (s := s.modGroup r' _) r rfl).trans hmod
  · exact (inTrap?_of_teams (s := s.modGroup r' _) r rfl).trans hmod

theorem inTrap?_endClause (s : State) (c : Cur) (dest : Nat → Lane → Lane) (r : GRef) : (endClause s c dest).inTrap? r = s.inTrap? r := by
  refine (inTrap?_leaveClause _ r c.ref).trans (inTrap?_modGroup s r c.n.g fun g => ?_)
  split <;> exact ⟨rfl, rfl⟩

theorem inTrap?_raiseTrapsGo (go : Nat → Lane → Lane) (s : State) {c : Cur} (imm : BitVec 8) (tpc ssyn : Word) (sunit : Lane32)
    (stile : Nat × Nat × Nat) (ts : List LaneTrap) (hout : c.g.inTrap = false) (r : GRef) :
    (raiseTrapsGo go s c imm tpc ssyn sunit stile ts).inTrap? r = s.inTrap? r := by
  unfold raiseTrapsGo
  split
  · rfl
  · dsimp only
    rw [hout, if_neg Bool.false_ne_true]
    exact (inTrap?_modGroup _ r c.n.g (f := fun g => { g with trapReq := some _ }) fun _ => ⟨rfl, rfl⟩).trans
      (inTrap?_endClause s c _ r)

theorem handlerGone_of_inTrap? {s : State} {c : Cur} (h : s.inTrap? c.ref = some false) : handlerGone s c = s := by
  obtain ⟨g, hg, hi⟩ := Option.map_eq_some_iff.mp h
  exact handlerGone_out hg hi

/-! ### What RET does with what its lanes find -/

/-- What the lanes of X find. -/
def retFound (s : State) (c : Cur) : RetAcc := (lanesOf c.n.x).foldl (retLane c) ⟨s, [], [], [], [], none, [], 0⟩

/-- Where a lane goes: to the address it found, or out of the group. -/
def retGo (c : Cur) (addr : List (Nat × Word × Bool)) (i : Nat) (l : Lane) : Lane :=
  match addr.find? (fun p => p.1 == i) with
  | some p => (l.popCall p.2.2).goTo c.g.loops c.l.kernel p.2.1 none
  | none => l.leave

/-- Outside a handler RET goes by what its lanes find: a line that an engine owns, poison, peer pages, or where to go. -/
def retEnd (c : Cur) (h : Head) (a : RetAcc) : State :=
  match a.line, a.poison, a.peers with
  | some l, _, _ => blockWord a.s c (.line l)
  | none, p :: _, _ => eatPoison (dropFetched a.s (wordKey c.ref)) c h 0 [] ((lanesOf c.n.x).map fun i => { p with lane := i })
  | none, [], _ :: _ =>
    blockWord (a.peers.foldl (fun s p => askPeers s (fun va => .word (c.n.only p.1) va) c.t.core [(p.2.1, 8, p.2.2)]) a.s) c .peer
  | none, [], [] => handlerGone (settleGo (c.mod (dropFetched a.s (wordKey c.ref)) fun g => { g with callFills := g.callFills + a.fills }) c h
      (maskOf a.parks) a.traps (retGo c a.addr)) c

section Ret

variable {s : State} {c : Cur} (h : Head) (hc : cur? s = some c)

include hc

theorem exec_ret_governed (hgov : governsAny c.g c.n.x = true) : exec (.ret h) s = .next (wordFault s c .loopEscape) :=
  exec_onCur rfl hc (if_pos hgov)

variable (hgov : governsAny c.g c.n.x = false) (hout : c.g.inTrap = false)

include hgov hout

theorem exec_ret : exec (.ret h) s = .next (retEnd c h (retFound s c)) := by
  refine exec_onCur rfl hc ?_
  dsimp only
  rw [if_neg (by rw [hgov]; exact Bool.false_ne_true), if_neg (by rw [mustDrain, hout]; exact Bool.false_ne_true)]
  rfl

theorem exec_ret_go {s' : State} {addr : List (Nat × Word × Bool)} {traps : List LaneTrap} {fills : Nat}
    (hf : retFound s c = ⟨s', addr, [], traps, [], none, [], fills⟩) : exec (.ret h) s = .next (handlerGone (settleGo
      (c.mod (dropFetched s' (wordKey c.ref)) fun g => { g with callFills := g.callFills + fills }) c h 0 traps (retGo c addr)) c) := by
  rw [exec_ret h hc hgov hout, hf]
  rfl

end Ret

/-! ### Lanes whose entries are on chip, or that have none -/

/-- The newest entry on chip of a lane, which RET pops. -/
def popped (c : Cur) (i : Nat) : Option (Nat × Word × Bool) :=
  (c.g.lanes[i]?).bind fun l => l.calls.head?.map fun a => (i, a, false)

/-- The lane has no entry in memory unless it has one on chip, and the one on chip names a place in the text. -/
def PlainRet (c : Cur) (l : Lane) : Prop :=
  (l.calls = [] → l.spilled = 0) ∧ ∀ a r, l.calls = a :: r → (a - c.l.kernel.text).toNat / 8 < c.l.kernel.twords

theorem retLane_plain {c : Cur} {i : Nat} (hp : ∀ l, c.g.lanes[i]? = some l → PlainRet c l) (a : RetAcc) :
    retLane c a i = { a with addr := a.addr ++ (popped c i).toList } := by
  unfold retLane popped
  dsimp only [Group.lane]
  cases hl : c.g.lanes[i]? with
  | none => simp
  | some l =>
    obtain ⟨hnone, htext⟩ := hp l hl
    cases hcalls : l.calls with
    | nil => simp [hcalls, hnone hcalls]
    | cons t r =>
      have hin : ¬(t - c.l.kernel.text).toNat / 8 ≥ c.l.kernel.twords := not_le.mpr (htext t r hcalls)
      simp only [hcalls, if_neg hin, Option.bind_some, List.head?_cons, Option.map_some, Option.toList_some]

theorem foldl_retLane_plain {c : Cur} (l : List Nat) (hp : ∀ i ∈ l, ∀ y, c.g.lanes[i]? = some y → PlainRet c y) (a : RetAcc) :
    l.foldl (retLane c) a = { a with addr := a.addr ++ l.filterMap (popped c) } := by
  induction l generalizing a with
  | nil => simp
  | cons i r ih =>
    rw [List.foldl_cons, retLane_plain (hp i List.mem_cons_self), ih fun j hj => hp j (List.mem_cons_of_mem i hj)]
    cases hi : popped c i <;> simp [hi]

theorem popped_fst {c : Cur} {i : Nat} {p : Nat × Word × Bool} (h : popped c i = some p) : p.1 = i := by
  obtain ⟨l, -, hl⟩ := Option.bind_eq_some_iff.mp h
  obtain ⟨a, -, rfl⟩ := Option.map_eq_some_iff.mp hl
  rfl

theorem find?_popped (c : Cur) {i : Nat} {l : List Nat} (hi : i ∈ l) : (l.filterMap (popped c)).find? (fun p => p.1 == i) = popped c i := by
  cases hp : popped c i with
  | none =>
    refine List.find?_eq_none.mpr fun p hm => ?_
    obtain ⟨j, -, hj⟩ := List.mem_filterMap.mp hm
    intro he
    have hji : j = i := (popped_fst hj).symm.trans (by simpa using he)
    rw [hji, hp] at hj
    cases hj
  | some p =>
    have hsome : ((l.filterMap (popped c)).find? (fun p => p.1 == i)).isSome = true :=
      List.find?_isSome.mpr ⟨p, List.mem_filterMap.mpr ⟨i, hi, hp⟩, by simpa using popped_fst hp⟩
    obtain ⟨q, hq⟩ := Option.isSome_iff_exists.mp hsome
    obtain ⟨j, -, hj⟩ := List.mem_filterMap.mp (List.mem_of_find?_eq_some hq)
    have hji : j = i := (popped_fst hj).symm.trans (by simpa using List.find?_some hq)
    rw [hq, ← hj, hji, hp]

/-- Such a lane exits, or goes to the entry popped. -/
theorem retGo_plain {c : Cur} {i : Nat} {l : Lane} {x : Mask} {hdr : Word} (hi : i ∈ lanesOf c.n.x) (hl : c.g.lanes[i]? = some l)
    (hready : l.st = .ready) :
    (l.calls = [] → noteIssue hdr x (retGo c ((lanesOf c.n.x).filterMap (popped c)) i l) = { l with st := .exited }) ∧
    ∀ a r, l.calls = a :: r → Takes c.l.kernel c.g.loops a { l with calls := r }
      (noteIssue hdr x (retGo c ((lanesOf c.n.x).filterMap (popped c)) i l)) := by
  have hfind := find?_popped c hi
  rw [popped, hl, Option.bind_some] at hfind
  unfold retGo
  refine ⟨fun hnil => ?_, fun a r hcons => ?_⟩
  · rw [hnil] at hfind
    rw [hfind]
    exact noteIssue_of_ne_deferred (l := l.leave) nofun
  · rw [hcons] at hfind
    rw [hfind]
    have hpop : l.popCall false = { l with calls := r } := by simp [Lane.popCall, hcons]
    dsimp only [List.head?_cons, Option.map_some]
    rw [hpop]
    exact takes_issue (l := { l with calls := r }) hready

/-! ### A lane whose newest entry is in memory -/

section Fill

variable {s s' : State} {c : Cur} {i : Nat} {l : Lane} (hi : i < 64) (hx : c.n.x = BitVec.twoPow 64 i) (hl : c.g.lanes[i]? = some l)
  (hcalls : l.calls = []) (hspilled : 0 < l.spilled)

/-- The place of the lane's newest entry in memory. -/
def fillPlace (s : State) (c : Cur) (i : Nat) (l : Lane) : Word := callPlace s c.t c.l.kernel c.g.grp i (l.spilled - 1)

/-- The lane's load of it. -/
def fillRead? (s : State) (c : Cur) (i : Nat) (l : Lane) : Got × State :=
  readFor s c.ref c.who (fillPlace s c i l) 8 8 .read false (.lanes c.ref (maskOf [i]))

/-- The address of an entry of a granule. -/
def fillAddr (g : Gran) (va : Word) : Word := BitVec.ofNat 64 (g.slice (va.toNat % 16) 8 % 2 ^ 56)

include hi hx in
theorem retFound_one : retFound s c = retLane c ⟨s, [], [], [], [], none, [], 0⟩ i := by
  rw [retFound, hx, lanesOf_twoPow hi]
  rfl

include hl hcalls hspilled

theorem retLane_fill {g : Gran} (hr : fillRead? s c i l = (.gran g, s')) (hp : g.poison = false)
    (hin : (fillAddr g (fillPlace s c i l) - c.l.kernel.text).toNat / 8 < c.l.kernel.twords) :
    retLane c ⟨s, [], [], [], [], none, [], 0⟩ i = ⟨s', [(i, fillAddr g (fillPlace s c i l), true)], [], [], [], none, [], 1⟩ := by
  unfold fillRead? fillPlace at hr
  have hne : (l.spilled == 0) = false := by simpa using Nat.pos_iff_ne_zero.mp hspilled
  simp only [retLane, Group.lane, hl, hcalls, hne, Bool.false_eq_true, if_false, hr, hp]
  exact if_neg (not_le.mpr hin)

theorem retLane_poison {g : Gran} (hr : fillRead? s c i l = (.gran g, s')) (hp : g.poison = true) :
    retLane c ⟨s, [], [], [], [], none, [], 0⟩ i =
      ⟨s', [], [], [], [⟨i, .poison, g.tag, BitVec.ofNat 64 ((fillPlace s c i l).toNat / 16 * 16)⟩], none, [], 0⟩ := by
  unfold fillRead? fillPlace at hr
  have hne : (l.spilled == 0) = false := by simpa using Nat.pos_iff_ne_zero.mp hspilled
  simp only [retLane, Group.lane, hl, hcalls, hne, Bool.false_eq_true, if_false, hr, hp, if_true]
  rfl

variable {x : Xlat} (hr : fillRead? s c i l = (.peer x, s')) (hf : fetchedAt s' (wordKey c.ref) (fillPlace s c i l).toNat 8 = none)

include hr hf

theorem retLane_peer {w : BitVec 352} (hw : peerTarget s' x (fillPlace s c i l).toNat (.read 8) = some w) :
    retLane c ⟨s, [], [], [], [], none, [], 0⟩ i = ⟨s', [], [], [], [], none, [(i, (fillPlace s c i l).toNat, x)], 0⟩ := by
  unfold fillRead? fillPlace at hr
  unfold fillPlace at hf hw
  have hne : (l.spilled == 0) = false := by simpa using Nat.pos_iff_ne_zero.mp hspilled
  simp only [retLane, Group.lane, hl, hcalls, hne, Bool.false_eq_true, if_false, hr, hf, hw]
  rfl

theorem retLane_noWindow (hw : peerTarget s' x (fillPlace s c i l).toNat (.read 8) = none) :
    retLane c ⟨s, [], [], [], [], none, [], 0⟩ i = ⟨s', [], [], [⟨i, .badAddress, 0, fillPlace s c i l⟩], [], none, [], 0⟩ := by
  unfold fillRead? fillPlace at hr
  unfold fillPlace at hf hw
  have hne : (l.spilled == 0) = false := by simpa using Nat.pos_iff_ne_zero.mp hspilled
  simp only [retLane, Group.lane, hl, hcalls, hne, Bool.false_eq_true, if_false, hr, hf, hw]
  rfl

end Fill

/-! ### The statement -/

/-- A lane of X stands at the depth of the innermost loop. -/
def Governed (c : Cur) : Prop :=
  ∃ e rest i l, c.g.loops = e :: rest ∧ i < 64 ∧ c.n.x.getLsbD i = true ∧ c.g.lanes[i]? = some l ∧ l.depth = e.depth

theorem governed_iff {c : Cur} : Governed c ↔ governsAny c.g c.n.x = true := by
  cases hl : c.g.loops with
  | nil => simp [Governed, governsAny, hl]
  | cons e r =>
    rw [governsAny_cons hl]
    constructor
    · rintro ⟨e', r', i, l, he, hrest⟩
      rw [hl] at he
      cases he
      exact ⟨i, l, hrest⟩
    · rintro ⟨i, l, hrest⟩
      exact ⟨e, r, i, l, hl, hrest⟩

theorem group?_dropFetched (s : State) (owner : Nat) (r : GRef) : (dropFetched s owner).group? r = s.group? r :=
  group?_of_teams (s := s) (t := dropFetched s owner) rfl r

section Returns

variable {s : State} {c : Cur} {h : Head} (hc : cur? s = some c) (hst : Standing c) (hgov : governsAny c.g c.n.x = false)
  (hout : c.g.inTrap = false)

include hc hst hgov hout

theorem ret_plain (hplain : ∀ i l, i < 64 → c.n.x.getLsbD i = true → c.g.lanes[i]? = some l → PlainRet c l) :
    Claim.from (.ret h) s (dropFetched s (wordKey c.ref)) c (Leaves c h c.g.loops fun _ l l' =>
      (l.calls = [] → l' = { l with st := .exited }) ∧
      ∀ a r, l.calls = a :: r → Takes c.l.kernel c.g.loops a { l with calls := r } l') := by
  have hfound : retFound s c = ⟨s, (lanesOf c.n.x).filterMap (popped c), [], [], [], none, [], 0⟩ := by
    rw [retFound, foldl_retLane_plain _ fun i hi y hy => ?plain]
    · rfl
    · obtain ⟨h64, hx⟩ := lanesOf_mem.mp hi
      exact hplain i y h64 hx hy
  obtain ⟨o, e⟩ := curMod_spec (c := c) (fun g => { g with callFills := g.callFills + 0 }) (fun _ => rfl)
    ((group?_dropFetched s (wordKey c.ref) c.ref).trans (cur?_group hc))
  refine from_handlerGone (exec_ret_go h hc hgov hout hfound) hst o e rfl hout fun i l hx hl => ?_
  exact retGo_plain (lanesOf_mem.mpr ⟨BitVec.lt_of_getLsbD hx, hx⟩) hl (hst.ready hx hl)

variable {s' : State} {i : Nat} {l : Lane} (hi : i < 64) (hx : c.n.x = BitVec.twoPow 64 i) (hl : c.g.lanes[i]? = some l)
  (hcalls : l.calls = []) (hspilled : 0 < l.spilled)

include hi hx hl hcalls hspilled

theorem ret_fill {g : Gran} (hr : fillRead? s c i l = (.gran g, s')) (hp : g.poison = false)
    (hin : (fillAddr g (fillPlace s c i l) - c.l.kernel.text).toNat / 8 < c.l.kernel.twords) (hg : s'.group? c.ref = some c.g) :
    Claim.from (.ret h) s (dropFetched s' (wordKey c.ref)) c (Leaves { c with g := { c.g with callFills := c.g.callFills + 1 } } h c.g.loops
      fun _ y y' => Takes c.l.kernel c.g.loops (fillAddr g (fillPlace s c i l)) { y with spilled := y.spilled - 1 } y') := by
  have hfound := (retFound_one hi hx).trans (retLane_fill hl hcalls hspilled hr hp hin)
  obtain ⟨o, e⟩ := curMod_spec (c := c) (fun g => { g with callFills := g.callFills + 1 }) (fun _ => rfl)
    ((group?_dropFetched s' (wordKey c.ref) c.ref).trans hg)
  refine from_handlerGone (exec_ret_go h hc hgov hout hfound) hst o e rfl hout fun j y hj hy => ?_
  have hready : y.st = .ready := hst.ready hj hy
  have hji : j = i := eq_of_getLsbD_twoPow (hx ▸ hj)
  have hgo : retGo c [(i, fillAddr g (fillPlace s c i l), true)] j y =
      (y.popCall true).goTo c.g.loops c.l.kernel (fillAddr g (fillPlace s c i l)) none := by
    simp [retGo, hji]
  rw [hgo]
  exact takes_issue (l := y.popCall true) hready

omit hst in
theorem ret_noWindow {x : Xlat} (hr : fillRead? s c i l = (.peer x, s'))
    (hf : fetchedAt s' (wordKey c.ref) (fillPlace s c i l).toNat 8 = none)
    (hw : peerTarget s' x (fillPlace s c i l).toNat (.read 8) = none) :
    ∃ go, exec (.ret h) s = .next (raiseTrapsGo go (c.mod (dropFetched s' (wordKey c.ref)) fun g => g) c 0 c.n.pc 0 0 (0, 0, 0)
      [⟨i, .badAddress, 0, fillPlace s c i l⟩]) := by
  have hfound := (retFound_one hi hx).trans (retLane_noWindow hl hcalls hspilled hr hf hw)
  have hkept : (c.mod (dropFetched s' (wordKey c.ref)) fun g => g).inTrap? c.ref = some false := by
    rw [curMod_id, State.inTrap?, group?_dropFetched]
    exact (inTrap?_readFor_peer s c.ref hr).trans (by rw [State.inTrap?, cur?_group hc, Option.map_some, hout])
  refine ⟨retGo c [], (exec_ret_go h hc hgov hout hfound).trans ?_⟩
  rw [settleGo_traps _ c h _ (List.cons_ne_nil _ _)]
  exact congrArg Host.Outcome.next (handlerGone_of_inTrap? ((inTrap?_raiseTrapsGo _ _ _ _ _ _ _ _ hout c.ref).trans hkept))

end Returns

theorem returns : Claim.Returns := by
  intro s c h hc hst hlast hout
  have hno : ¬Governed c → governsAny c.g c.n.x = false := fun hg => Bool.not_eq_true _ ▸ governed_iff.not.mp hg
  refine ⟨fun hg => exec_ret_governed h hc (governed_iff.mp hg), fun hg hplain => ret_plain hc hst (hno hg) hout hplain,
    fun i l hg hi hx hl hcalls hspilled => ?_⟩
  intro va r s' hr
  refine ⟨fun g hrg hp hin hgrp => ?fill, fun g hrg hp => ?poison, fun x hrx hf => ⟨fun w hw => ?peer, fun hw => ?window⟩⟩
  case fill =>
    subst hrg
    exact ret_fill (h := h) hc hst (hno hg) hout hi hx hl hcalls hspilled hr hp hin hgrp
  case poison =>
    subst hrg
    have hfound := (retFound_one hi hx).trans (retLane_poison hl hcalls hspilled hr hp)
    rw [exec_ret h hc (hno hg) hout, hfound, retEnd]
    dsimp only
    rw [hx, lanesOf_twoPow hi]
    rfl
  case peer =>
    subst hrx
    have hfound := (retFound_one hi hx).trans (retLane_peer hl hcalls hspilled hr hf hw)
    rw [exec_ret h hc (hno hg) hout, hfound]
    rfl
  case window =>
    subst hrx
    exact ret_noWindow hc (hno hg) hout hi hx hl hcalls hspilled hr hf hw

/-- Settles O16: a call pushes, and stores the oldest entry of a lane whose four are taken; RET pops on chip or by a load, and a
trap of that load finds the group outside any handler still. -/
theorem callsAndReturns : Obligations.CallsAndReturns := ⟨calls, callSpills, returns⟩

end Sys2Proof.Machine
end

section
/-! SUPPORT. The control space (R160, R429, R431 to R436): what a read of it returns, and what a write of each of its registers does.
With it ControlRegisters. -/

namespace Sys2Proof.Machine

open Sys2Proof

/-! ### Reads -/

theorem controlAnswers_iff (s : State) (off : Nat) :
    controlAnswers s off = true ↔ s.ctrl.status = 2 ∨ off = 0x40000 ∨ 0x41000 ≤ off := by
  simp [controlAnswers, readyDev, or_assoc]

/-- What a read of the control space that returns `v` leaves. -/
def readOut (s : State) (off size v : Nat) : State := { s with hostOut := s.hostOut ++ [.control off (natBytes size v)] }

theorem exec_hostRead_answered {s : State} {off : Nat} (size : Nat) (ha : controlAnswers s off = true) :
    exec (.hostRead (.control off) size) s = .next (readOut s off size (controlRead s off size)) := by
  show execHostRead (.control off) size s = _
  simp only [execHostRead, ha, if_true, readOut]

theorem exec_hostRead_silent {s : State} {off : Nat} (size : Nat) (ha : controlAnswers s off = false) :
    exec (.hostRead (.control off) size) s = .next s := by
  show execHostRead (.control off) size s = _
  simp only [execHostRead, ha, Bool.false_eq_true, if_false]

/-- The registers have different offsets. -/
theorem controlRead_register {s : State} {off size v : Nat} (hr : (off, size, v) ∈ ctrlRegs s) : controlRead s off size = v := by
  simp only [ctrlRegs, List.mem_cons, Prod.mk.injEq, List.not_mem_nil, or_false] at hr
  rcases hr with ⟨rfl, rfl, rfl⟩ | ⟨rfl, rfl, rfl⟩ | ⟨rfl, rfl, rfl⟩ | ⟨rfl, rfl, rfl⟩ | ⟨rfl, rfl, rfl⟩ | ⟨rfl, rfl, rfl⟩ |
    ⟨rfl, rfl, rfl⟩ | ⟨rfl, rfl, rfl⟩ | ⟨rfl, rfl, rfl⟩ | ⟨rfl, rfl, rfl⟩ | ⟨rfl, rfl, rfl⟩ | ⟨rfl, rfl, rfl⟩ | ⟨rfl, rfl, rfl⟩ <;> rfl

theorem controlRead_window {s : State} {off : Nat} (ho : off < 0x40000) :
    controlRead s off 8 = if off % 0x1000 = 0x40 then queueRoom s (off / 0x1000) % 2 ^ 64 else 0 := by
  unfold controlRead launchWindowRead
  rw [if_pos ho]
  by_cases h : off % 0x1000 = 0x40
  · simp [h]
  · simp [h]

theorem controlRead_unlisted {s : State} {off : Nat} (size : Nat) (ho : 0x40000 ≤ off) (hr : ∀ r ∈ ctrlRegs s, r.1 ≠ off) :
    controlRead s off size = 0 := by
  have hnone : (ctrlRegs s).find? (fun r => r.1 == off && r.2.1 == size) = none := by
    rw [List.find?_eq_none]
    intro r hm
    simp [hr r hm]
  unfold controlRead
  rw [if_neg (by omega), hnone]

/-! ### Writes -/

theorem ringBaseOk_iff (x : Word) : ringBaseOk x = true ↔ x.toNat % 4096 = 0 := by simp [ringBaseOk]

theorem ringSizeOk_iff (x : Word) : ringSizeOk x = true ↔ ∃ i, i < 11 ∧ x.toNat = 64 * 2 ^ i := by simp [ringSizeOk]

section Writes

variable {s : State} {data : List Byte}

/-- The number that 8 bytes written to a register stand for. -/
def written (data : List Byte) : Word := BitVec.ofNat 64 (leNat data)

/-- The state with other control registers. -/
def State.withCtrl (s : State) (c : Ctrl) : State := { s with ctrl := c }

theorem exec_write_frbase (hd : data.length = 8) (hs : s.ctrl.status = 2) : exec (.controlRegisterWrite 0x40100 8 data) s =
    .next (if s.ctrl.frprod = s.ctrl.frcons ∧ ringBaseOk (written data) = true
      then s.withCtrl { s.ctrl with frbase := written data } else s) := by
  show execControlRegisterWrite 0x40100 8 data s = _
  rw [apply_ite Host.Outcome.next]
  simp [execControlRegisterWrite, hd, readyDev, hs, written, State.withCtrl]

theorem exec_write_frsize (hd : data.length = 8) (hs : s.ctrl.status = 2) : exec (.controlRegisterWrite 0x40108 8 data) s =
    .next (if s.ctrl.frprod = s.ctrl.frcons ∧ ringSizeOk (written data) = true
      then s.withCtrl { s.ctrl with frsize := written data } else s) := by
  show execControlRegisterWrite 0x40108 8 data s = _
  rw [apply_ite Host.Outcome.next]
  simp [execControlRegisterWrite, hd, readyDev, hs, written, State.withCtrl]

theorem exec_write_erbase (hd : data.length = 8) (hs : s.ctrl.status = 2) : exec (.controlRegisterWrite 0x40200 8 data) s =
    .next (if s.ctrl.erprod = s.ctrl.ercons ∧ ringBaseOk (written data) = true
      then s.withCtrl { s.ctrl with erbase := written data } else s) := by
  show execControlRegisterWrite 0x40200 8 data s = _
  rw [apply_ite Host.Outcome.next]
  simp [execControlRegisterWrite, hd, readyDev, hs, written, State.withCtrl]

theorem exec_write_ersize (hd : data.length = 8) (hs : s.ctrl.status = 2) : exec (.controlRegisterWrite 0x40208 8 data) s =
    .next (if s.ctrl.erprod = s.ctrl.ercons ∧ ringSizeOk (written data) = true
      then s.withCtrl { s.ctrl with ersize := written data } else s) := by
  show execControlRegisterWrite 0x40208 8 data s = _
  rw [apply_ite Host.Outcome.next]
  simp [execControlRegisterWrite, hd, readyDev, hs, written, State.withCtrl]

theorem exec_write_frcons (hd : data.length = 8) (hs : s.ctrl.status = 2) :
    exec (.controlRegisterWrite 0x40118 8 data) s = .next (s.withCtrl { s.ctrl with frcons := written data }) := by
  show execControlRegisterWrite 0x40118 8 data s = _
  simp [execControlRegisterWrite, execFaultRingConsume, hd, readyDev, hs, written, State.withCtrl]

theorem exec_write_ercons (hd : data.length = 8) (hs : s.ctrl.status = 2) :
    exec (.controlRegisterWrite 0x40218 8 data) s = .next (s.withCtrl { s.ctrl with ercons := written data }) := by
  show execControlRegisterWrite 0x40218 8 data s = _
  simp [execControlRegisterWrite, execErrorRingConsume, hd, readyDev, hs, written, State.withCtrl]

theorem exec_write_mbcmd (hd : data.length = 64) : exec (.controlRegisterWrite 0x41000 64 data) s =
    .next (if s.ctrl.mbbusy = true then s else s.withCtrl { s.ctrl with mbcmd := words8 data }) := by
  show execControlRegisterWrite 0x41000 64 data s = _
  rw [apply_ite Host.Outcome.next]
  simp [execControlRegisterWrite, hd, State.withCtrl]

theorem exec_write_doorbell (hd : data.length = 8) : exec (.controlRegisterWrite 0x41040 8 data) s = .next (ringDoor s) := by
  show execControlRegisterWrite 0x41040 8 data s = _
  simp [execControlRegisterWrite, hd]

theorem exec_write_resolve (hd : data.length = 16) (hs : s.ctrl.status = 2) :
    exec (.controlRegisterWrite 0x40120 16 data) s = resolveMsg s (BitVec.ofNat 128 (leNat data)) := by
  show execControlRegisterWrite 0x40120 16 data s = _
  simp [execControlRegisterWrite, hd, readyDev, hs]

end Writes

/-! ### The doorbell (R436) -/

section Doorbell

variable {s : State}

theorem ringDoor_busy (hb : s.ctrl.mbbusy = true) : ringDoor s = s := by simp [ringDoor, hb]

theorem ringDoor_recovery (hb : s.ctrl.mbbusy = false) (hs : s.ctrl.status ≠ 2) (hc : mbCode s ≠ 8) : ringDoor s = mbDone s 3 [] := by
  simp [ringDoor, hb, readyDev, hs, hc]

theorem ringDoor_unknown (hb : s.ctrl.mbbusy = false) (hs : s.ctrl.status = 2) (hc : mbCode s < 1 ∨ 10 < mbCode s) :
    ringDoor s = mbDone s 1 [] := by
  have hc' : mbCode s = 0 ∨ 10 < mbCode s := by omega
  simp [ringDoor, hb, readyDev, hs, hc']

theorem ringDoor_starts (hb : s.ctrl.mbbusy = false) (hs : s.ctrl.status = 2 ∨ mbCode s = 8) (h1 : 1 ≤ mbCode s) (h2 : mbCode s ≤ 10) :
    ringDoor s = s.withCtrl { s.ctrl with mbbusy := true } := by
  have hready : ¬(s.ctrl.status ≠ 2 ∧ mbCode s ≠ 8) := by tauto
  have hcode : ¬(mbCode s = 0 ∨ 10 < mbCode s) := by omega
  simp only [ringDoor, hb, readyDev, State.withCtrl]
  simp [hready, hcode]

end Doorbell

/-! ### The statement -/

/-- Settles O52: each read is that of the register, window or empty place at its offset, each write that of its register's equation. -/
theorem controlRegisters : Obligations.ControlRegisters := by
  unfold Obligations.ControlRegisters
  refine ⟨fun s off size => ?_, fun s data => ?_⟩
  · intro reads answers
    have hans : answers → ∀ v, controlRead s off size = v → reads v := fun ha v hv => by
      subst hv
      exact exec_hostRead_answered size ((controlAnswers_iff s off).mpr ha)
    refine ⟨fun hno => exec_hostRead_silent size ?_, ?_, ?_⟩
    · exact Bool.eq_false_iff.mpr fun h => hno ((controlAnswers_iff s off).mp h)
    · rintro ha rfl
      have reg : ∀ k v, (k, 8, v) ∈ ctrlRegs s → off = k → reads v := by
        rintro k v hv rfl
        exact hans ha v (controlRead_register hv)
      refine ⟨reg _ _ ?_, reg _ _ ?_, reg _ _ ?_, reg _ _ ?_, reg _ _ ?_, reg _ _ ?_, ?_, ?_⟩
      iterate 6 simp [ctrlRegs, rsvBase]
      · exact fun ho => hans ha _ (controlRead_window ho)
      · exact fun ho hr => hans ha _ (controlRead_unlisted 8 ho hr)
    · rintro ha rfl rfl
      exact hans ha _ (controlRead_register (by simp [ctrlRegs, wordBytes]))
  · intro x wr sized
    have hsize : ringSizeOk x = true ↔ sized := ringSizeOk_iff x
    refine ⟨fun hd hs => ⟨?_, ?_, ?_, ?_, ?_, ?_, ?_, exec_write_frcons hd hs, exec_write_ercons hd hs⟩, ?_, ?_, fun hd => ?_, fun hd hs => ?_⟩
    · intro he hb
      exact (exec_write_frbase hd hs).trans (by rw [if_pos ⟨he, (ringBaseOk_iff _).mpr hb⟩]; rfl)
    · intro he hz
      exact (exec_write_frsize hd hs).trans (by rw [if_pos ⟨he, hsize.mpr hz⟩]; rfl)
    · intro hne
      exact ⟨(exec_write_frbase hd hs).trans (by rw [if_neg fun h => hne h.1]), (exec_write_frsize hd hs).trans (by rw [if_neg fun h => hne h.1])⟩
    · intro he hb
      exact (exec_write_erbase hd hs).trans (by rw [if_pos ⟨he, (ringBaseOk_iff _).mpr hb⟩]; rfl)
    · intro he hz
      exact (exec_write_ersize hd hs).trans (by rw [if_pos ⟨he, hsize.mpr hz⟩]; rfl)
    · intro hne
      exact ⟨(exec_write_erbase hd hs).trans (by rw [if_neg fun h => hne h.1]), (exec_write_ersize hd hs).trans (by rw [if_neg fun h => hne h.1])⟩
    · intro hz
      exact ⟨(exec_write_frsize hd hs).trans (by rw [if_neg fun h => hz (hsize.mp h.2)]),
        (exec_write_ersize hd hs).trans (by rw [if_neg fun h => hz (hsize.mp h.2)])⟩
    · intro hd hb
      exact (exec_write_mbcmd hd).trans (by rw [if_neg (by simp [hb])]; rfl)
    · intro hd hb
      exact (exec_write_mbcmd hd).trans (by rw [if_pos hb])
    · intro code told
      have door : ∀ t, ringDoor s = t → wr 0x41040 8 = .next t := fun t h => (exec_write_doorbell hd).trans (by rw [h])
      exact ⟨fun hb => door _ (ringDoor_busy hb), fun hb hs hc => door _ (ringDoor_recovery hb hs hc),
        fun hb hs hc => door _ (ringDoor_unknown hb hs hc), fun hb hs h1 h2 => door _ (ringDoor_starts hb hs h1 h2)⟩
    · intro m die
      have msg : wr 0x40120 16 = resolveMsg s m := exec_write_resolve hd hs
      refine ⟨fun hr => msg.trans ?_, fun hr hk => msg.trans ?_, fun hr hk => msg.trans ?_⟩
      · simp only [resolveMsg, bne_iff_ne, ne_eq, hr, not_false_eq_true, if_true]
      · simp only [resolveMsg, hr, hk, bne_self_eq_false, Bool.false_eq_true, if_false]; rfl
      · simp only [resolveMsg, hr, hk, bne_self_eq_false, Bool.false_eq_true, if_false, if_true]; rfl

end Sys2Proof.Machine
end

section
/-! SUPPORT. TRAP, BRK, TRET and LAUNCH (R159, R160, R327 to R333): the lanes that a word's traps take, the group that owes a trap, the
return from a handler, and the packet that joins its context's queue. -/

namespace Sys2Proof.Machine

open Sys2Proof

/-! ### A word's traps by lane (R327) -/

theorem mem_byLane {ts : List LaneTrap} {t : LaneTrap} (h : t ∈ byLane ts) : t ∈ ts ∧ t.lane < 64 := by
  obtain ⟨i, hi, hf⟩ := List.mem_filterMap.mp h
  have hlane : t.lane = i := by simpa using List.find?_some hf
  exact ⟨List.mem_of_find?_eq_some hf, hlane ▸ List.mem_range.mp hi⟩

theorem exists_mem_byLane {ts : List LaneTrap} {t : LaneTrap} (h : t ∈ ts) (hl : t.lane < 64) : ∃ u ∈ byLane ts, u.lane = t.lane := by
  cases hf : ts.find? (fun u => u.lane == t.lane) with
  | none => exact absurd (List.find?_eq_none.mp hf t h) (by simp)
  | some u => exact ⟨u, List.mem_filterMap.mpr ⟨t.lane, List.mem_range.mpr hl, hf⟩, by simpa using List.find?_some hf⟩

theorem pairwise_byLane (ts : List LaneTrap) : (byLane ts).Pairwise fun a b => a.lane < b.lane := by
  refine List.pairwise_filterMap.mpr (List.pairwise_lt_range.imp fun {i j} hij a ha b hb => ?_)
  have hi : a.lane = i := by simpa using List.find?_some ha
  have hj : b.lane = j := by simpa using List.find?_some hb
  omega

/-- The first is the lowest of all that trap. -/
theorem byLane_head_least {ts rest : List LaneTrap} {t0 : LaneTrap} (h : byLane ts = t0 :: rest) :
    t0 ∈ ts ∧ ∀ t ∈ ts, t.lane < 64 → t0.lane ≤ t.lane := by
  refine ⟨(mem_byLane (h ▸ List.mem_cons_self)).1, fun t ht hl => ?_⟩
  obtain ⟨u, hu, hul⟩ := exists_mem_byLane ht hl
  have hp := pairwise_byLane ts
  rw [h] at hu hp
  rcases List.mem_cons.mp hu with rfl | hu
  · exact hul.le
  · exact hul ▸ ((List.pairwise_cons.mp hp).1 u hu).le

/-- One trap for each lane of a set, by rising lane, is in its order already. -/
theorem byLane_lanesOf (m : Mask) {f : Nat → LaneTrap} (hf : ∀ i, (f i).lane = i) : byLane ((lanesOf m).map f) = (lanesOf m).map f := by
  have hfind : ∀ i, i < 64 → ((lanesOf m).map f).find? (fun t => t.lane == i) = if m.getLsbD i then some (f i) else none := by
    intro i hi
    rw [List.find?_map, show (fun t : LaneTrap => t.lane == i) ∘ f = fun j => j == i from funext fun j => by simp [hf]]
    cases hj : (lanesOf m).find? (fun j => j == i) with
    | none =>
      have hno : m.getLsbD i ≠ true := fun hm => absurd (List.find?_eq_none.mp hj i (lanesOf_mem.mpr ⟨hi, hm⟩)) (by simp)
      rw [if_neg hno, Option.map_none]
    | some j =>
      obtain rfl : j = i := by simpa using List.find?_some hj
      rw [if_pos (lanesOf_mem.mp (List.mem_of_find?_eq_some hj)).2, Option.map_some]
  calc byLane ((lanesOf m).map f)
      = (List.range 64).filterMap (fun i => if m.getLsbD i then some (f i) else none) :=
        List.filterMap_congr fun i hi => hfind i (List.mem_range.mp hi)
    _ = (lanesOf m).map f := by rw [lanesOf, ← List.filterMap_eq_map', List.filterMap_filter]

theorem lanesOf_ne_nil {m : Mask} (h : m ≠ 0) : lanesOf m ≠ [] := by
  obtain ⟨i, hi⟩ := exists_getLsbD_of_ne_zero h
  exact List.ne_nil_of_mem (lanesOf_mem.mpr ⟨BitVec.lt_of_getLsbD hi, hi⟩)

/-- One cause for every lane of X: every lane of X traps, and with the lowest. -/
theorem exists_byLane_plainTraps {c : Cur} (cause : Cause) (h : c.n.x ≠ 0) :
    ∃ t0 rest, byLane (plainTraps c cause) = t0 :: rest ∧ t0 :: rest = plainTraps c cause ∧ t0.cause = cause := by
  have hb : byLane (plainTraps c cause) = plainTraps c cause := byLane_lanesOf c.n.x fun _ => rfl
  obtain ⟨i, r, hl⟩ := List.exists_cons_of_ne_nil (lanesOf_ne_nil h)
  have hp : plainTraps c cause = ⟨i, cause, 0, 0⟩ :: r.map fun i => ⟨i, cause, 0, 0⟩ := by rw [plainTraps, hl, List.map_cons]
  exact ⟨_, _, hb.trans hp, hp.symm, rfl⟩

/-! ### A trap that is owed (R327, R330) -/

/-- The lanes that stay on the word, of those that leave a clause. -/
def stayOnWord (c : Cur) (stay : Mask) (go : Nat → Lane → Lane) (i : Nat) (l : Lane) : Lane :=
  if stay.getLsbD i then { l with pc := c.n.pc, ins := some ⟨c.n.hdr, c.n.head⟩ } else go i l

theorem stayOnWord_moves {c : Cur} (stay : Mask) {go : Nat → Lane → Lane} (hgo : MovesLane go) : MovesLane (stayOnWord c stay go) := by
  intro i x
  unfold stayOnWord
  split
  · rfl
  · exact hgo i x

theorem splitClause_lanes {s : State} {c : Cur} {go : Nat → Lane → Lane} (stay : Mask) (hgo : MovesLane go) (hg : s.group? c.ref = some c.g)
    (hst : Standing c) : ∃ g', OnlyGroup s (splitClause s c stay go) c.ref ∧ (splitClause s c stay go).group? c.ref = some g' ∧
      g' = { c.g with lanes := g'.lanes, clause := none, readyAt := g'.readyAt } ∧
      ∀ i l, c.g.lanes[i]? = some l → c.n.x.getLsbD i = true → stay.getLsbD i = true →
        g'.lanes[i]? = some { l with pc := c.n.pc, ins := some ⟨c.n.hdr, c.n.head⟩ } := by
  obtain ⟨cl, hclause, hx, hready⟩ := hst
  obtain ⟨o, g', e, m, hcl, hlanes, hwait⟩ := endClause_spec s c (stayOnWord c stay go) (stayOnWord_moves stay hgo) hg
  refine ⟨g', o, e, ?_, fun i l hl hi hs => ?_⟩
  · have hm := m.1
    rw [hcl, hwait] at hm
    exact hm
  · have hst' : ∀ d y, ({ l with pc := c.n.pc, ins := some ⟨c.n.hdr, c.n.head⟩ } : Lane).st ≠ .deferred d y := fun d y => by
      show l.st ≠ _
      rw [hready i l hi hl]
      nofun
    rw [hlanes cl hclause, List.getElem?_map, mapLanes_getElem?, hl, hx, Option.map_some, Nat.zero_add, if_pos hi, Option.map_some,
      stayOnWord, if_pos hs, noteIssue_of_ne_deferred hst']

/-- Lanes that trap outside a handler: the lowest one's cause enters, with the lanes of that cause (R327). -/
theorem trapped_raiseTrapsGo {s : State} {c : Cur} {go : Nat → Lane → Lane} {ts rest : List LaneTrap} {t0 : LaneTrap} (imm : BitVec 8)
    (tpc : Word) (hgo : MovesLane go) (hg : s.group? c.ref = some c.g) (hst : Standing c) (hi : c.g.inTrap = false)
    (hb : byLane ts = t0 :: rest) :
    Claim.trapped s (raiseTrapsGo go s c imm tpc 0 0 (0, 0, 0) ts) c imm t0.cause
      (((t0 :: rest).filter (fun t => t.cause == t0.cause)).length != (t0 :: rest).length)
      (((t0 :: rest).filter (fun t => t.cause == t0.cause)).map fun t => ⟨t.lane, tpc, t.ttag, t.faultva⟩) := by
  obtain ⟨g', o, e, hg', hlanes⟩ := splitClause_lanes (maskOf ((t0 :: rest).map (·.lane))) hgo hg hst
  simp only [raiseTrapsGo, hb, hi, Bool.false_eq_true, if_false]
  obtain ⟨o2, e2⟩ := curMod_spec (c := c) (fun g => { g with trapReq := some (⟨t0.cause, imm,
    ((t0 :: rest).filter (fun t => t.cause == t0.cause)).length != (t0 :: rest).length,
    ((t0 :: rest).filter (fun t => t.cause == t0.cause)).map (fun t => ⟨t.lane, tpc, t.ttag, t.faultva⟩),
    0, 0, (0, 0, 0), c.n⟩ : TrapReq) }) (fun _ => rfl) e
  refine ⟨_, o.trans o2, e2, rfl, ?_, fun i l hl hx hp => ?_⟩
  · generalize g'.lanes = x, g'.readyAt = y at hg'
    subst hg'
    rfl
  · obtain ⟨p, hp, rfl⟩ := hp
    obtain ⟨t, ht, rfl⟩ := List.mem_map.mp hp
    exact hlanes t.lane l hl hx
      ((maskOf_getLsbD _ (BitVec.lt_of_getLsbD hx)).mpr (List.mem_map.mpr ⟨t, (List.mem_filter.mp ht).1, rfl⟩))

/-- More than one cause: some other lane's differs from that of the first. -/
theorem moreCauses_iff {t0 : LaneTrap} {rest : List LaneTrap} :
    (((t0 :: rest).filter (fun t => t.cause == t0.cause)).length != (t0 :: rest).length) = true ↔ ∃ t ∈ rest, t.cause ≠ t0.cause := by
  rw [bne_iff_ne, ne_eq, List.length_filter_eq_length_iff]
  simp

/-- One cause for every lane of X. -/
theorem trapped_plainTraps {s : State} {c : Cur} (imm : BitVec 8) (tpc : Word) (cause : Cause) (hg : s.group? c.ref = some c.g)
    (hst : Standing c) (hi : c.g.inTrap = false) (hx : c.n.x ≠ 0) :
    Claim.trapped s (raiseTraps s c imm tpc 0 0 (0, 0, 0) (plainTraps c cause)) c imm cause false
      ((lanesOf c.n.x).map fun i => (⟨i, tpc, 0, 0⟩ : TrapLane)) := by
  obtain ⟨t0, rest, hb, hall, hcause⟩ := exists_byLane_plainTraps cause hx
  have hsame : ∀ t ∈ t0 :: rest, (t.cause == t0.cause) = true := fun t ht => by
    rw [hall, plainTraps] at ht
    obtain ⟨i, -, rfl⟩ := List.mem_map.mp ht
    exact beq_iff_eq.mpr hcause.symm
  have h := trapped_raiseTrapsGo imm tpc (goAfter_moves c) hg hst hi hb
  rw [List.filter_eq_self.mpr hsame, bne_self_eq_false, hcause, hall, plainTraps, List.map_map] at h
  exact h

theorem raiseTraps_plain_inTrap {s : State} {c : Cur} (imm : BitVec 8) (tpc : Word) (cause : Cause) (hi : c.g.inTrap = true)
    (hx : c.n.x ≠ 0) : ∃ e, raiseTraps s c imm tpc 0 0 (0, 0, 0) (plainTraps c cause) = endTeam s c.t.id e ∧ e.cause = .trapState := by
  obtain ⟨t0, rest, hb, -⟩ := exists_byLane_plainTraps cause hx
  exact ⟨_, raiseTrapsGo_inTrap imm tpc 0 0 (0, 0, 0) _ t0 rest hb hi, rfl⟩

/-! ### The return from a handler (R333) -/

/-- The lanes of X. -/
def xLanes (c : Cur) : List Lane := (lanesOf c.n.x).filterMap fun i => c.g.lane i

/-- A handler may return: its live lanes are together, its saved loops are whole, each lane is at the depth it came with. -/
def MayReturn (c : Cur) : Prop :=
  c.g.inTrap = true ∧ c.n.x = c.g.live ∧ badSaved c.g.saved = false ∧ ∀ l ∈ xLanes c, l.depth = l.depthAt

theorem mayReturn_iff {c : Cur} : MayReturn c ↔
    (!c.g.inTrap || c.n.x != c.g.live || badSaved c.g.saved || (xLanes c).any (fun l => l.depth != l.depthAt)) = false := by
  simp [MayReturn, and_assoc]

section Tret

variable {s : State} {c : Cur} (h : Head) (hc : cur? s = some c)

include hc

theorem exec_tret_refused (hr : ¬MayReturn c) : exec (.tret h) s = .next (wordFault s c .trapState) := by
  rw [mayReturn_iff, Bool.not_eq_false] at hr
  exact exec_onCur rfl hc (if_pos hr)

variable (hr : MayReturn c) (hf : ∀ l ∈ xLanes c, Back.isFault (backOf s c l) = false)

include hr hf

/-- With every lane's text at hand, only the places the lanes return to and the outstanding results are left to check. -/
theorem exec_tret : exec (.tret h) s = .next (
    if (xLanes c).any (fun l => Back.isIllegal (backOf s c l)) then wordFault s c .illegalClause
    else if !c.g.drained then blockWord s c .tretDrain
    else c.mod (endClause s c (fun _ l => l)) fun g =>
      keepShadow (leaveTrap c.l.kernel (fun l => Back.place (backOf s c l)) c.n.x g)) := by
  have hfind : (xLanes c).find? (fun l => Back.isFault (backOf s c l)) = none :=
    List.find?_eq_none.mpr fun l hl => by rw [hf l hl]; decide
  have hb := mayReturn_iff.mp hr
  refine exec_onCur (f := fun c => _) rfl hc ?_
  dsimp only
  rw [show (lanesOf c.n.x).filterMap (fun i => c.g.lane i) = xLanes c from rfl, hb, hfind]
  rfl

theorem exec_tret_illegal (hi : ∃ l ∈ xLanes c, Back.isIllegal (backOf s c l) = true) :
    exec (.tret h) s = .next (wordFault s c .illegalClause) := by
  rw [exec_tret h hc hr hf, if_pos (List.any_eq_true.mpr hi)]

variable (hi : ∀ l ∈ xLanes c, Back.isIllegal (backOf s c l) = false)

include hi

theorem exec_tret_undrained (hp : c.g.pend ≠ []) : exec (.tret h) s = .next (blockWord s c .tretDrain) := by
  have hany : (xLanes c).any (fun l => Back.isIllegal (backOf s c l)) = false := List.any_eq_false.mpr fun l hl => by rw [hi l hl]; decide
  have hd : c.g.drained = false := by simp [Group.drained, hp]
  rw [exec_tret h hc hr hf, hany, hd]
  rfl

theorem exec_tret_returns (hp : c.g.pend = []) : exec (.tret h) s = .next (c.mod (endClause s c (fun _ l => l)) fun g =>
    keepShadow (leaveTrap c.l.kernel (fun l => Back.place (backOf s c l)) c.n.x g)) := by
  have hany : (xLanes c).any (fun l => Back.isIllegal (backOf s c l)) = false := List.any_eq_false.mpr fun l hl => by rw [hi l hl]; decide
  have hd : c.g.drained = true := by simp [Group.drained, hp]
  rw [exec_tret h hc hr hf, hany, hd]
  rfl

end Tret

theorem goTo_spec (loops : List LoopEntry) (k : Kernel) (a : Word) (ins : Option Inside) (l : Lane) :
    l.goTo loops k a ins = { l with pc := a, ins := ins, st := (l.goTo loops k a ins).st } ∧
      ((l.goTo loops k a ins).st = l.st ∨ (l.goTo loops k a ins).st = .loopHeld a) := by
  unfold Lane.goTo
  dsimp only
  split
  · split
    · exact ⟨rfl, .inr rfl⟩
    · exact ⟨rfl, .inl rfl⟩
  · exact ⟨rfl, .inl rfl⟩

/-- What the return makes of a lane: it goes back to its TPC, or is held there at a loop's end; one that was trap-held is as it was. -/
theorem leaveTrap_lane {k : Kernel} {ins : Lane → Option Inside} {x : Mask} {g : Group} {i : Nat} {l : Lane} (hl : g.lanes[i]? = some l) :
    ∃ l', (leaveTrap k ins x g).lanes[i]? = some l' ∧
      (x.getLsbD i = true → l' = { l with pc := l.tpc, ins := ins l, trap := .none, st := l'.st } ∧ (l'.st = .ready ∨ l'.st = .loopHeld l.tpc)) ∧
      (x.getLsbD i = false → l.trap = .held → l'.trap = .none ∧ l'.pc = l.pc) := by
  simp only [leaveTrap, List.getElem?_map, mapLanes_getElem?, hl, Option.map_some, Nat.zero_add]
  refine ⟨_, rfl, fun hx => ?_, fun hx ht => ?_⟩
  · obtain ⟨he, hst⟩ := goTo_spec (savedLoops g.saved) k l.tpc (ins l) { l with st := .ready, trap := LTrap.none }
    rw [if_pos hx, he]
    exact ⟨rfl, hst⟩
  · simp [hx, releaseHeld, ht]

/-- The return: the group leaves its handler, and each lane of X goes back to its TPC. -/
theorem tretReturns_spec {s : State} {c : Cur} (ins : Lane → Option Inside) (hg : s.group? c.ref = some c.g) (hst : Standing c) :
    ∃ g', OnlyGroup s (c.mod (endClause s c fun _ l => l) fun g => keepShadow (leaveTrap c.l.kernel ins c.n.x g)) c.ref ∧
      (c.mod (endClause s c fun _ l => l) fun g => keepShadow (leaveTrap c.l.kernel ins c.n.x g)).group? c.ref = some g' ∧ g'.inTrap = false ∧
      g'.loops = savedLoops c.g.saved ∧ g'.clause = none ∧ (g'.s, g'.p, g'.q, g'.k, g'.v, g'.vt) = (c.g.s, c.g.p, c.g.q, c.g.k, c.g.v, c.g.vt) ∧
      ∀ (i : Nat) (l : Lane), c.g.lanes[i]? = some l → ∃ l', g'.lanes[i]? = some l' ∧
        (c.n.x.getLsbD i = true → l' = { l with pc := l.tpc, ins := ins l, trap := .none, st := l'.st } ∧
          (l'.st = .ready ∨ l'.st = .loopHeld l.tpc)) ∧
        (c.n.x.getLsbD i = false → l.trap = .held → l'.trap = .none ∧ l'.pc = l.pc) := by
  obtain ⟨cl, hclause, hx, hready⟩ := hst
  obtain ⟨o, g1, e, m, hcl, hlanes, -⟩ := endClause_spec s c (fun _ l => l) (fun _ _ => rfl) hg
  obtain ⟨o2, e2⟩ := curMod_spec (c := c) (fun g => keepShadow (leaveTrap c.l.kernel ins c.n.x g)) (fun _ => rfl) e
  have hm := m.1
  refine ⟨_, o.trans o2, e2, rfl, by rw [hm]; rfl, hcl, by rw [hm]; rfl, fun i l hl => ?_⟩
  have h1 : g1.lanes[i]? = some (noteIssue c.n.hdr c.n.x l) := by
    rw [hlanes cl hclause, List.getElem?_map, mapLanes_getElem?, hl, hx, Option.map_some, ite_self, Option.map_some]
  obtain ⟨l', hl', hback, hheld⟩ := leaveTrap_lane (k := c.l.kernel) (ins := ins) (x := c.n.x) h1
  refine ⟨l', hl', fun hb => ?_, fun hb ht => ?_⟩
  · rw [noteIssue_of_ne_deferred (fun d y => by rw [hready i l hb hl]; nofun)] at hback
    exact hback hb
  · obtain ⟨hn, -⟩ := noteIssue_spec c.n.hdr c.n.x l
    obtain ⟨htrap, hpc⟩ := hheld hb (by rw [hn]; exact ht)
    exact ⟨htrap, hpc.trans (by rw [hn])⟩

/-- TRAP and BRK in and outside a handler, the traps of a word's lanes, and TRET (R327, R330 to R333). -/
theorem trapWords : Claim.TrapWords := by
  refine ⟨fun s c h code hc hx => ?_, fun s c imm tpc ts rest t0 hc hst hi hb => ?_, fun s c h hc => ?_⟩
  · intro lanes
    have htrap : exec (.trap h code) s = .next (raiseTraps s c code (nextHeader c.n) 0 0 (0, 0, 0) (plainTraps c .trap)) := exec_onCur rfl hc rfl
    have hbrk : exec (.brk h) s = .next (raiseTraps s c 0 (afterWord c.n).1 0 0 (0, 0, 0) (plainTraps c .brk)) := exec_onCur rfl hc rfl
    refine ⟨fun hi hst => ⟨⟨_, htrap, ?_⟩, ⟨_, hbrk, ?_⟩⟩, fun hi => ?_⟩
    · exact trapped_plainTraps code (nextHeader c.n) .trap (cur?_group hc) hst hi hx
    · exact trapped_plainTraps 0 (afterWord c.n).1 .brk (cur?_group hc) hst hi hx
    · obtain ⟨e, he, hcause⟩ := raiseTraps_plain_inTrap code (nextHeader c.n) .trap hi hx
      obtain ⟨e', he', hcause'⟩ := raiseTraps_plain_inTrap 0 (afterWord c.n).1 .brk hi hx
      intro i hmem
      rcases List.mem_pair.mp hmem with rfl | rfl
      · exact ⟨e, by rw [htrap, he], hcause⟩
      · exact ⟨e', by rw [hbrk, he'], hcause'⟩
  · exact ⟨byLane_head_least hb, _, moreCauses_iff, trapped_raiseTrapsGo imm tpc (goAfter_moves c) (cur?_group hc) hst hi hb⟩
  · intro ls
    refine ⟨fun hno => exec_tret_refused h hc fun hr => ?_, fun hi hx hs hd hf => ?_⟩
    · obtain ⟨hi, hx, hs, hd⟩ := hr
      rcases hno with e | e | e | ⟨l, hl, e⟩
      · rw [hi] at e; cases e
      · exact e hx
      · rw [hs] at e; cases e
      · exact e (hd l hl)
    · have hr : MayReturn c := ⟨hi, hx, hs, hd⟩
      refine ⟨exec_tret_illegal h hc hr hf, exec_tret_undrained h hc hr hf, fun hlegal hp hst => ?_⟩
      obtain ⟨g', o, e, hspec⟩ := tretReturns_spec (fun l => Back.place (backOf s c l)) (cur?_group hc) hst
      exact ⟨_, g', exec_tret_returns h hc hr hf hlegal hp, o, e, hspec⟩

/-! ### LAUNCH (R159, R160) -/

theorem zoneOf_mapped_iff (core a : Nat) : zoneOf core a = .mapped ↔ a < 2 ^ 55 := by
  unfold zoneOf
  split_ifs <;> simp <;> omega

/-- Launches that join at the end change no launch that is there already. -/
theorem launch?_enqueue {s : State} {n : Nat} {l : Launch} (ctx src : Nat) (p : BitVec 512) (h : s.launch? n = some l) :
    (enqueue s ctx src p).launch? n = some l := by
  show (s.launches ++ [queuedLaunch s ctx src p]).find? (fun l => l.id == n) = some l
  rw [List.find?_append, show s.launches.find? (fun l => l.id == n) = some l from h, Option.some_or]

/-- LAUNCH with its packet's bytes: they join the context's queue, and the word is done. -/
def takePacket (c : Cur) (h : Head) (va : Word) (s : State) (b : List Byte) : State :=
  let s := enqueue (dropFetched s (wordKey c.ref)) c.t.ctx va.toNat (BitVec.ofNat 512 (leNat b))
  finish s (refresh s c) h

theorem takePacket_spec {s : State} {c : Cur} (h : Head) (va : Word) (b : List Byte) (hc : cur? s = some c) :
    ∃ g' l, OnlyGroup { s with launches := (takePacket c h va s b).launches, fetched := (takePacket c h va s b).fetched } (takePacket c h va s b) c.ref ∧
      (takePacket c h va s b).group? c.ref = some g' ∧ Moved c.g g' ∧ (takePacket c h va s b).launches = s.launches ++ [l] ∧
      (l.ctx, l.src, l.stage, l.order) = (c.t.ctx, va.toNat, .queued, s.seqN) ∧ l.packet = BitVec.ofNat 512 (leNat b) := by
  obtain ⟨hn, ht, hg, hl⟩ := cur?_some hc
  let s1 := enqueue (dropFetched s (wordKey c.ref)) c.t.ctx va.toNat (BitVec.ofNat 512 (leNat b))
  have hc1 : cur? s1 = some c := cur?_of_parts hn ht hg (launch?_enqueue _ _ _ hl)
  have hdone : takePacket c h va s b = finish s1 c h := by
    show finish s1 (refresh s1 c) h = _
    rw [refresh_cur c hc1]
  obtain ⟨o, g', e, m⟩ := finish_spec s1 c h (cur?_group hc1)
  have hlaunches : (finish s1 c h).launches = s1.launches := by rw [o.1]
  have hfetched : (finish s1 c h).fetched = s1.fetched := by rw [o.1]
  rw [hdone, hlaunches, hfetched]
  exact ⟨g', _, (OnlyGroup.book { s with launches := s1.launches, fetched := s1.fetched } c.ref s.issuing (s.seqN + 1)).trans o, e, m, rfl, rfl, rfl⟩

section LaunchWord

variable {s : State} {c : Cur} {h : Head} {a : BitVec 6} (hc : cur? s = some c)

include hc

theorem exec_launch_align (ha : (c.g.sreg a.toNat).toNat % 64 ≠ 0) :
    exec (.launch h a) s = .next (trapAll s c c.n.x .align 0 (c.g.sreg a.toNat)) :=
  exec_onCur rfl hc (if_pos (by simpa using ha))

theorem exec_launch_address (ha : (c.g.sreg a.toNat).toNat % 64 = 0) (hz : 2 ^ 55 ≤ (c.g.sreg a.toNat).toNat) :
    exec (.launch h a) s = .next (trapAll s c c.n.x .badAddress 0 (c.g.sreg a.toNat)) := by
  have hzone : zoneOf c.t.core (c.g.sreg a.toNat).toNat ≠ .mapped := fun e => absurd ((zoneOf_mapped_iff _ _).mp e) (by omega)
  exact exec_onCur rfl hc ((if_neg (by simpa using ha)).trans (if_pos (by simpa using hzone)))

/-- With its checks passed, its team committed and its group's stores released, LAUNCH waits for room in the queue or reads its packet. -/
theorem exec_launch_released {s1 s2 : State} {c2 : Cur} (ha : (c.g.sreg a.toNat).toNat % 64 = 0) (hz : (c.g.sreg a.toNat).toNat < 2 ^ 55)
    (hf : c.g.peerFail = []) (hp : pinFirst s c = .done s1) (hr : releaseAt s1 c.ref c.t.core c.n.x .dev = .done s2) (hc2 : cur? s2 = some c2) :
    exec (.launch h a) s = .next (if queueRoom s2 c2.t.ctx == 0 then blockWord s2 c2 .launchQ
      else withBulk s2 c2 h (c.g.sreg a.toNat) 64 64 (takePacket c2 h (c.g.sreg a.toNat))) := by
  have hzone : (zoneOf c.t.core (c.g.sreg a.toNat).toNat != .mapped) = false := by simp [(zoneOf_mapped_iff _ _).mpr hz]
  refine exec_onCur (f := fun c => _) rfl hc ?_
  dsimp only
  rw [show ((c.g.sreg a.toNat).toNat % 64 != 0) = false by simp [ha], hzone, deliverFail_none _ _ hf, hp]
  simp only [Bool.false_eq_true, if_false, afterSync, hr, refresh_cur c hc2]
  rfl

end LaunchWord

/-- LAUNCH's checks, its wait for room and the packet that joins the queue (R159, R160). -/
theorem launchWord : Claim.LaunchWord := by
  intro s c h a hc va i
  refine ⟨exec_launch_align hc, exec_launch_address hc, fun ha hz hf s1 c1 s2 c2 hp hr hc2 hn => ?_⟩
  intro mine
  have hi : exec i s = _ := exec_launch_released hc ha hz hf hp.1 hr hc2
  have hroom : queueRoom s2 c2.t.ctx = 256 - mine := rfl
  rw [hroom] at hi
  have href : c2.ref = c.ref := congrArg Now.g hn
  refine ⟨fun hfull => ?_, fun b hm hK => ?_⟩
  · rw [hi, if_pos (beq_iff_eq.mpr (Nat.sub_eq_zero_of_le hfull))]
  · rw [if_neg fun e => absurd (Nat.sub_eq_zero_iff_le.mp (beq_iff_eq.mp e)) hm.not_ge, hK] at hi
    obtain ⟨g', l, o, e, m, hrest⟩ := takePacket_spec h va b hc2
    rw [href] at o e
    exact ⟨_, g', l, hi, o, e, m, hrest⟩

/-- Settles O35: what the traps of a word owe and TRET gives back, and LAUNCH with its packet at the end of the queue. -/
theorem trapsAndLaunches : Obligations.TrapsAndLaunches := ⟨trapWords, launchWord⟩

end Sys2Proof.Machine
end

section
/-! SUPPORT. What no traffic with memory changes (R191 to R194, R208, R226, R336, R421): everything but memory, its caches and directories,
what is under way to it, and of a team the stores of its groups that are still on their way. -/

namespace Sys2Proof.Machine

open Sys2Proof

/-- A group without its stores on their way, and their failures. -/
def Group.still (g : Group) : Group := { g with storeQ := [], peerFail := [] }

/-- A team whose groups are so, without its arrivals at barriers. -/
def Team.still (t : Team) : Team := { t with arrived := [], groups := t.groups.map Group.still }

/-- The state without memory, its caches, the roster, the fault path and the requests to peers, and with its teams so. -/
def State.still (s : State) : State := { s with
  freeN := 0, seqN := 0, mem := [], tags := [], poison := [], cdir := [], hdir := [], ev := [], stale := [], icache := [], tlb := [], walks := []
  aliases := [], dirty := [], redQ := [], faults := [], roster := [], peerOut := [], peerSeq := [], teams := s.teams.map Team.still }

section Still

variable (s : State)

/-- A fold of steps that change nothing else changes nothing else. -/
theorem still_foldl {α : Type} {f : State → α → State} (hf : ∀ s a, (f s a).still = s.still) (l : List α) : (l.foldl f s).still = s.still := by
  induction l generalizing s with
  | nil => rfl
  | cons a r ih => rw [List.foldl_cons, ih, hf]

theorem still_modTeam (id : Nat) {f : Team → Team} (hf : ∀ t, (f t).still = t.still) : (s.modTeam id f).still = s.still := by
  have ht : (s.modTeam id f).teams.map Team.still = s.teams.map Team.still := by
    rw [State.modTeam, List.map_map]
    refine List.map_congr_left fun t _ => ?_
    rw [Function.comp_apply]
    split
    · exact hf t
    · rfl
  rw [State.still, ht, State.still]
  rfl

theorem still_modGroup (r : GRef) {f : Group → Group} (hf : ∀ g, (f g).still = g.still) : (s.modGroup r f).still = s.still := by
  refine still_modTeam s r.team fun t => ?_
  have hg : (t.modGroup r.grp f).groups.map Group.still = t.groups.map Group.still := by
    rw [Team.modGroup, List.map_map]
    refine List.map_congr_left fun g _ => ?_
    rw [Function.comp_apply]
    split
    · exact hf g
    · rfl
  rw [Team.still, hg, Team.still]
  rfl

/-! ### Directories and lines -/

theorem still_homeLine (line : Nat) : (homeLine s line).still = s.still := by
  unfold homeLine
  dsimp only
  split <;> rfl

theorem still_setClusters (line : Nat) (f : CLine → Option CLine) : (setClusters s line f).still = s.still := still_homeLine _ line

theorem still_holdCopy (core slot va leaf : Nat) (st : MState) : (holdCopy s core slot va leaf st).still = s.still := by
  unfold holdCopy
  dsimp only
  split
  · exact still_setClusters s _ _
  · exact still_homeLine _ _

theorem still_trimLines (lines : List Nat) : (trimLines s lines).still = s.still := still_foldl s (fun s line => still_setClusters s line _) lines

theorem still_markDirty (slot va : Nat) : (markDirty s slot va).still = s.still := by
  unfold markDirty
  dsimp only
  split <;> rfl

theorem still_performAt (loc : Nat) (tagged : Bool) (w : GWrite) : (performAt s loc tagged w).still = s.still := rfl

theorem still_performLine (slot : Nat) (x : Xlat) (w : GWrite) : (performLine s slot x w).still = s.still := still_markDirty _ slot w.va

theorem still_performEv (line : Nat) (x : Xlat) (f : EvWrite → Bool) : (performEv s line x f).still = s.still := by
  show (List.foldl _ _ _ : State).still = _
  rw [still_foldl (f := fun s c => dropStale s c line) _ fun _ _ => rfl, still_foldl s fun s w => still_performLine s (lineSlot line) x w]

theorem still_recallWhere (slot va : Nat) (x : Xlat) (f : EvWrite → Bool) : (recallWhere s slot va x f).still = s.still :=
  (still_setClusters _ _ _).trans (still_performEv _ _ x f)

theorem still_translate (slot va : Nat) (k : AK) : (translate s slot va k).2.still = s.still := by
  have hnew : (translate.walkNew slot va k s).2.still = s.still := by
    unfold translate.walkNew
    split <;> rfl
  unfold translate
  split
  · split
    · rfl
    · exact hnew
  · exact hnew

variable {s} in
theorem still_of_translate {s1 : State} {slot va : Nat} {k : AK} {x} (h : translate s slot va k = (x, s1)) : s1.still = s.still := by
  have ht := still_translate s slot va k
  rwa [h] at ht

theorem still_recallName (line : Nat) : (recallName s line).still = s.still := by
  unfold recallName
  refine (still_setClusters _ line _).trans ?_
  split
  · split
    next x s1 h =>
      split
      · exact still_of_translate h
      · exact (still_performEv s1 line x _).trans (still_of_translate h)
    next s1 h => exact still_of_translate h
  · rfl

theorem still_aliasFill (slot va : Nat) (x : Xlat) : (aliasFill s slot va x).still = s.still := by
  unfold aliasFill
  dsimp only
  split
  · split
    · rfl
    · exact still_recallName s _
  · rfl

theorem still_enterEv (core : Nat) (w : GWrite) (leaf : Nat) : (enterEv s core w leaf).still = s.still :=
  (still_markDirty _ w.slot w.va).trans (still_holdCopy s core w.slot w.va leaf _)

theorem still_coreFault (w : Who) (va : Nat) (k : AK) (who : Waiter) : (coreFault s w va k who).still = s.still := by
  unfold coreFault raiseFault
  split <;> rfl

/-! ### Stores on their way (R192, R421) -/

theorem still_peerStore (core : Nat) (w : GWrite) (x : Xlat) : (peerStore s core w x).still = s.still := by
  refine still_foldl s (fun s run => ?_) _
  split
  · rfl
  · exact still_modGroup s w.g fun _ => rfl

theorem still_drainWrite (core : Nat) (w : GWrite) : (drainWrite s core w).still = s.still := by
  unfold drainWrite
  split
  · rfl
  · rfl
  · split
    next x s1 h =>
      have ht := still_of_translate h
      split
      · split
        · exact ht
        · exact (still_peerStore s1 core w x).trans ht
      · have ha := (still_aliasFill s1 w.slot w.va x).trans ht
        dsimp only
        split
        · exact (still_performLine _ w.slot x w).trans ha
        · exact (still_enterEv _ core w x.size).trans ha
    next s1 h => exact (still_enterEv s1 core w 1).trans (still_of_translate h)

theorem still_drainList (core : Nat) (l : List GWrite) : (drainList core l s).2.still = s.still := by
  induction l generalizing s with
  | nil => rfl
  | cons w t ih =>
    unfold drainList
    split
    · rfl
    · exact (ih _).trans (still_drainWrite s core w)

theorem still_drainGroup (r : GRef) : (drainGroup s r).still = s.still := by
  unfold drainGroup
  split
  next t g _ _ =>
    exact (still_modGroup _ r (f := fun x => { x with storeQ := (drainList t.core g.storeQ s).1 }) fun _ => rfl).trans
      (still_drainList s t.core g.storeQ)
  next => rfl

/-! ### Reductions (R226, R227) -/

theorem still_intern (b : Birth) (site : Word) (first : Bool) : (intern s b site first).2.still = s.still := by
  obtain ⟨ro, e, -⟩ := intern_spec s b site first
  rw [e]
  rfl

theorem still_redWrite (q : RedReq) (g : Gran) : (redWrite s q g).2.still = s.still := by
  have hword : ∀ t, (wordTag s q.birth q.site (!q.counted) t).2.still = s.still := fun t => by
    cases t with
    | known x => rfl
    | born e => exact still_intern s q.birth q.site _
  unfold redWrite
  dsimp only
  rw [apply_ite State.still]
  exact (ite_self _).trans (hword _)

/-- The arrival performed at the home. -/
theorem still_homeRed (q : RedReq) (g : Gran) (x : Xlat) :
    (performLine (redWrite s q g).2 q.slot x (redWrite s q g).1).still = s.still :=
  (still_performLine _ q.slot x _).trans (still_redWrite s q g)

theorem still_applyRed (q : RedReq) : (applyRed s q).still = s.still := by
  unfold applyRed
  dsimp only
  split
  · rfl
  · split
    · rfl
    · split
      next => rfl
      next cl off _ _ =>
        have hw := still_redWrite s q (granAt s (sramLoc cl off))
        generalize redWrite s q (granAt s (sramLoc cl off)) = y at hw ⊢
        exact hw
    · split
      · rfl
      · split
        next s1 h => exact (still_coreFault s1 _ _ _ _).trans (still_of_translate h)
        next x s1 h =>
          have ht := still_of_translate h
          split
          · split
            · split
              · exact ht
              · exact ht
            · exact (still_modGroup s1 q.g (f := fun g => { g with peerFail := g.peerFail ++ [(.badAddress, x.window, q.va, q.lane)] })
                fun _ => rfl).trans ht
          · refine Eq.trans (still_homeRed _ q _ x) ?_
            exact (still_recallWhere _ q.slot q.va x _).trans ((still_aliasFill s1 q.slot q.va x).trans ht)

theorem still_applyRedId (id : Nat) : (applyRedId s id).still = s.still := by
  unfold applyRedId
  split
  · exact still_applyRed s _
  · rfl

theorem still_pushOwn (r : GRef) : (pushOwn s r).still = s.still :=
  (still_drainGroup _ r).trans ((still_foldl _ still_applyRedId _).trans (still_drainGroup s r))

/-! ### Ownership and releases (R191, R192, R194, R336) -/

theorem still_sendHeld (core line : Nat) (x : Xlat) : (sendHeld s core line x).still = s.still := by
  refine still_foldl s (fun s e => ?_) _
  split
  · rfl
  · exact (still_trimLines _ _).trans (still_peerStore { s with ev := s.ev.erase e } e.core e.w x)

theorem still_grantOwned (core line : Nat) (x : Xlat) : (grantOwned s core line x).still = s.still := by
  unfold grantOwned
  dsimp only
  rw [still_markDirty, still_holdCopy, dropCopies, still_setClusters, still_performEv]
  rfl

theorem still_grantOne (core line : Nat) : (grantOne s core line).still = s.still := by
  unfold grantOne
  dsimp only
  split
  · rfl
  · split
    next s1 h => exact (still_foldl s1 (fun s w => still_coreFault s _ _ _ _) _).trans (still_of_translate h)
    next x s1 h =>
      have ht := still_of_translate h
      split
      · exact (still_sendHeld s1 core line x).trans ht
      · have hr := fun ids => (still_foldl s1 still_applyRedId ids).trans ht
        split
        · exact hr _
        · exact (still_grantOwned _ core line x).trans ((still_aliasFill _ _ _ x).trans (hr _))

theorem still_grantLine (core line : Nat) : (grantLine s core line).still = s.still := by
  unfold grantLine
  split
  · exact still_grantOne s core line
  · dsimp only
    split
    · rw [still_grantOne]
      exact still_foldl (f := fun s (p : Nat × Nat) => grantOne s p.1 p.2) s (fun s p => still_grantOne s p.1 p.2) _
    · refine still_foldl s (fun s e => ?_) _
      split
      · rfl
      · split
        · rfl
        · exact still_coreFault s _ _ _ _

theorem still_grantAll (core : Nat) : (grantAll s core).still = s.still := still_foldl s (fun s l => still_grantLine s core l) _

variable {s} in
theorem still_of_releaseAt {s1 : State} {r : GRef} {core : Nat} {x : Mask} (h : releaseAt s r core x .dev = .done s1) : s1.still = s.still := by
  have hg : (grantAll (pushOwn s r) core).still = s.still := (still_grantAll _ core).trans (still_pushOwn s r)
  unfold releaseAt at h
  dsimp only at h
  split at h
  · cases h
  · split at h
    · cases h
    · split at h
      · cases h
      · split at h
        · cases h
        · cases h
        · split at h
          · cases h
          · cases h
            exact hg

end Still

end Sys2Proof.Machine
end

section
/-! SUPPORT. TEAM_SAVE and TEAM_RESUME (R169 to R172): what a team takes with it from its core, and what it comes back with. -/

namespace Sys2Proof.Machine

open Sys2Proof

/-! ### States that differ in traffic with memory alone -/

theorem team?_of_still {s t : State} (h : t.still = s.still) {n : Nat} {a : Team} (ha : s.team? n = some a) :
    ∃ b, t.team? n = some b ∧ b.still = a.still := by
  have hfind : ∀ u : State, (u.still).team? n = (u.team? n).map Team.still := fun u => List.find?_map
  have hb := hfind t
  rw [h, hfind s, ha, Option.map_some] at hb
  obtain ⟨b, hb, e⟩ := Option.map_eq_some_iff.mp hb.symm
  exact ⟨b, hb, e⟩

theorem getElem?_of_still {a b : Team} (h : b.still = a.still) {i : Nat} {g : Group} (hg : a.groups[i]? = some g) :
    ∃ g', b.groups[i]? = some g' ∧ g'.still = g.still := by
  have hm : b.groups.map Group.still = a.groups.map Group.still := congrArg Team.groups h
  have hi := congrArg (fun l => l[i]?) hm
  rw [List.getElem?_map, List.getElem?_map, hg, Option.map_some] at hi
  exact Option.map_eq_some_iff.mp hi

theorem length_groups_of_still {a b : Team} (h : b.still = a.still) : b.groups.length = a.groups.length := by
  have hm : b.groups.map Group.still = a.groups.map Group.still := congrArg Team.groups h
  simpa using congrArg List.length hm

/-! ### The pages and the bytes of a save area (R170) -/

/-- One page of a save area. -/
def checkPage (t : Team) (k : AK) (s : State) (p : Nat) : SavePages :=
  if zoneOf t.core p != .mapped then .bad s
  else if waitsPage s t.slot p (.store t.id) then .wait s
  else match translate s t.slot p k with
    | (.ok x, s) =>
      if x.peer then .bad s
      else if (List.range 32).any (fun i => engineOwns s (lineKey t.slot (p + 128 * i))) then .wait s else .ok s
    | (.error _, s) => .wait (coreFault s ⟨t.core, t.ctx, t.slot⟩ p k (.store t.id))

theorem still_of_checkPage {s s1 : State} {t : Team} {k : AK} {p : Nat} (h : checkPage t k s p = .ok s1) : s1.still = s.still := by
  unfold checkPage at h
  split at h
  · cases h
  · split at h
    · cases h
    · split at h
      next x s2 ht =>
        split at h
        · cases h
        · split at h
          · cases h
          · cases h
            exact still_of_translate ht
      next => cases h

/-- The step of the check from page to page. -/
def nextPage (t : Team) (k : AK) (r : SavePages) (p : Nat) : SavePages :=
  match r with
  | .ok s => checkPage t k s p
  | r => r

theorem checkPages_eq (s : State) (t : Team) (k : AK) (ps : List Nat) : checkPages s t k ps = ps.foldl (nextPage t k) (.ok s) := rfl

theorem foldl_nextPage_ok {t : Team} {k : AK} {ps : List Nat} {r : SavePages} {s1 : State} (h : ps.foldl (nextPage t k) r = .ok s1) :
    ∃ s, r = .ok s ∧ s1.still = s.still := by
  induction ps generalizing r with
  | nil => exact ⟨s1, h, rfl⟩
  | cons p ps ih =>
    obtain ⟨s2, h2, e2⟩ := ih h
    cases r with
    | ok s => exact ⟨s, rfl, e2.trans (still_of_checkPage h2)⟩
    | wait s => cases h2
    | bad s => cases h2

theorem still_of_checkPages {s s1 : State} {t : Team} {k : AK} {ps : List Nat} (h : checkPages s t k ps = .ok s1) : s1.still = s.still := by
  rw [checkPages_eq] at h
  obtain ⟨s', e, hs⟩ := foldl_nextPage_ok h
  cases e
  exact hs

theorem still_devStore (s : State) (slot va : Nat) (b : List Byte) : (devStore s slot va b).still = s.still := by
  refine still_foldl s (fun s p => ?_) _
  split
  next x s1 h => exact (still_performAt _ _ _ _).trans ((still_recallWhere s1 slot p.1 x _).trans (still_of_translate h))
  next s1 h => exact still_of_translate h

/-- The release of one more group of a team that is saved. -/
def nextRelease (t : Team) (y : Sync) (g : Group) : Sync :=
  match y with
  | .done s => releaseAt s ⟨t.id, g.grp⟩ t.core 0 .dev
  | y => y

theorem foldl_nextRelease_done {t : Team} {gs : List Group} {y : Sync} {s1 : State} (h : gs.foldl (nextRelease t) y = .done s1) :
    ∃ s, y = .done s ∧ s1.still = s.still := by
  induction gs generalizing y with
  | nil => exact ⟨s1, h, rfl⟩
  | cons g gs ih =>
    obtain ⟨s2, h2, e2⟩ := ih h
    cases y with
    | done s => exact ⟨s, rfl, e2.trans (still_of_releaseAt h2)⟩
    | park s => cases h2
    | wait w s => cases h2

theorem still_of_saveRelease {s s1 : State} {t : Team} (h : saveRelease s t = .done s1) : s1.still = s.still := by
  rw [show saveRelease s t = t.groups.foldl (nextRelease t) (.done s) from rfl] at h
  obtain ⟨s', e, hs⟩ := foldl_nextRelease_done h
  cases e
  exact hs

/-! ### A team that leaves its core (R169) -/

theorem still_dropWaits (s : State) (r : GRef) : (dropWaits s r).still = s.still :=
  still_modTeam s r.team (f := fun t => { t with arrived := t.arrived.filter (fun p => p.2 != r.grp) }) fun _ => rfl

theorem still_flushTeam (s : State) (t : Team) : (flushTeam s t).still = s.still :=
  still_foldl (f := fun s (g : Group) => pushOwn s ⟨t.id, g.grp⟩) s (fun s g => still_pushOwn s ⟨t.id, g.grp⟩) t.groups

/-- With its stores on their way to memory and its groups off their waits. -/
def quitState (s : State) (t : Team) : State := t.groups.foldl (fun s g => dropWaits s ⟨t.id, g.grp⟩) (flushTeam s t)

theorem still_quitState (s : State) (t : Team) : (quitState s t).still = s.still :=
  (still_foldl (f := fun s (g : Group) => dropWaits s ⟨t.id, g.grp⟩) _ (fun s g => still_dropWaits s ⟨t.id, g.grp⟩) t.groups).trans
    (still_flushTeam s t)

/-- What a group keeps when it is saved: all but its clause, its wait and its records of commands. -/
theorem saveGroup_spec (g : Group) : saveGroup g = { g with lanes := (saveGroup g).lanes, clause := none, wait := none, xrec := [] } ∧
    ∀ (j : Nat) (x : Lane), g.lanes[j]? = some x → ∃ y : Lane, (saveGroup g).lanes[j]? = some y ∧ x = { y with pc := x.pc, ins := x.ins } := by
  unfold saveGroup
  cases hc : g.clause with
  | none =>
    refine ⟨?_, fun j x hx => ⟨x, hx, rfl⟩⟩
    dsimp only
    rw [hc]
  | some cl =>
    refine ⟨rfl, fun j x hx => ⟨if cl.x.getLsbD j then { x with pc := cl.pc, ins := some ⟨cl.hdr, cl.head⟩ } else x, ?_, ?_⟩⟩
    · simp only [Group.modLanes, mapLanes_getElem?, hx, Option.map_some, Nat.zero_add]
    · split <;> rfl

/-- A team that has left its core, with its slots and its allotment as they were. -/
def Team.offCore (now : Word) (accs : List Acc) (gs : List (List Byte × Tag × Bool)) (t : Team) : Team :=
  { t with saved := true, preempt := false, accs := [], accSave := accs, scratchSave := gs, savedAt := now, floor := []
           groups := t.groups.map saveGroup }

/-- A core without the slots and the clauses of a team. -/
def coreFreed (s : State) (t : Team) : State :=
  { s with accs := s.accs.filter (fun p => p.2.team != t.id), issuing := s.issuing.filter (fun r => r.team != t.id) }

theorem leaveCore_eq (s : State) (t : Team) (k : Kernel) : leaveCore s t k = (coreFreed (quitState s t) t).modTeam t.id
    (Team.offCore (quitState s t).time (t.accs.filterMap fun p => (quitState s t).acc? (accKey t.core p))
      (scratchGrans (quitState s t) t k.scratch)) := rfl

theorem leaveCore_team {s : State} {t b : Team} (k : Kernel) (hb : (quitState s t).team? t.id = some b) :
    ∃ accs gs, (leaveCore s t k).team? t.id = some (b.offCore (quitState s t).time accs gs) := by
  rw [leaveCore_eq]
  exact ⟨_, _, team?_modTeam_same (s := coreFreed (quitState s t) t) _ (fun _ => rfl) hb⟩

/-- The bytes of a save in its area. -/
def saveStored (s : State) (t : Team) (k : Kernel) : State := (saveBytes s t k).foldl (fun s p => devStore s t.slot p.1 p.2) s

theorem still_saveStored (s : State) (t : Team) (k : Kernel) : (saveStored s t k).still = s.still :=
  still_foldl (f := fun s (p : Nat × List Byte) => devStore s t.slot p.1 p.2) s (fun s p => still_devStore s t.slot p.1 p.2) (saveBytes s t k)

/-- The state with the next free values at another number. -/
def State.freeFrom (s : State) (n : Nat) : State := { s with freeN := n }

theorem still_freeFrom (s : State) (n : Nat) : (s.freeFrom n).still = s.still := rfl

/-- The state once a save has written its area. -/
def areaWritten (s : State) (t : Team) (k : Kernel) : State := (saveStored s t k).freeFrom ((saveStored s t k).freeN + k.sectionAt 8)

theorem still_quitArea (s : State) (t : Team) (k : Kernel) : (quitState (areaWritten s t k) t).still = s.still :=
  (still_quitState _ t).trans ((still_freeFrom _ _).trans (still_saveStored s t k))

/-- The state that a save leaves. -/
def savedState (s : State) (t : Team) (k : Kernel) : State :=
  (leaveCore (areaWritten s t k) t k).modTeam t.id fun x => { x with image := saveImage (areaWritten s t k) t k }

theorem exec_teamSave {s s1 s2 : State} {t : Team} {l : Launch} (ht : s.team? t.id = some t) (hl : s.launch? t.launch = some l)
    (hr : readyToSave s t = true) (hp : checkPages s t .write (savePages s t l.kernel) = .ok s1) (hy : saveRelease s1 t = .done s2) :
    exec (.teamSave t.id) s = .next (savedState s2 t l.kernel) := by
  show execTeamSave t.id s = _
  unfold execTeamSave
  rw [ht]
  simp only [Option.bind_some, hl, hr, Bool.not_true, Bool.false_eq_true, if_false, hp, hy]
  rfl

/-- What a save leaves of the team: all but its core, its clauses, its waits and its records of commands. -/
theorem savedState_spec {s : State} {t b : Team} (k : Kernel) (hb : (quitState (areaWritten s t k) t).team? t.id = some b) :
    ∃ t', (savedState s t k).team? t.id = some t' ∧ t' = { b with
      saved := true, preempt := false, accs := [], accSave := t'.accSave, scratchSave := t'.scratchSave, floor := []
      savedAt := (quitState (areaWritten s t k) t).time, groups := b.groups.map saveGroup, image := t'.image } := by
  obtain ⟨accs, gs, ht⟩ := leaveCore_team k hb
  exact ⟨_, team?_modTeam_same (fun x => { x with image := saveImage (areaWritten s t k) t k }) (fun _ => rfl) ht, rfl⟩

theorem savedState_frees (s : State) (t : Team) (k : Kernel) :
    (∀ p ∈ (savedState s t k).accs, p.2.team ≠ t.id) ∧ ∀ r ∈ (savedState s t k).issuing, r.team ≠ t.id :=
  ⟨fun p hp => by simpa using (List.mem_filter.mp hp).2, fun r hr => by simpa using (List.mem_filter.mp hr).2⟩

/-- What of a group no save changes. -/
def SavedAs (g g' : Group) : Prop :=
  g'.wait = none ∧ g'.clause = none ∧ g'.xrec = [] ∧ (g'.s, g'.v, g'.vt, g'.p, g'.q, g'.k) = (g.s, g.v, g.vt, g.p, g.q, g.k) ∧
    (g'.loops, g'.saved, g'.inTrap, g'.traph, g'.tcause, g'.nstat, g'.ylddl, g'.slate) =
      (g.loops, g.saved, g.inTrap, g.traph, g.tcause, g.nstat, g.ylddl, g.slate) ∧
    ∀ (j : Nat) (x : Lane), g.lanes[j]? = some x → ∃ y : Lane, g'.lanes[j]? = some y ∧ x = { y with pc := x.pc, ins := x.ins }

theorem savedAs_of_still {g b : Group} (h : b.still = g.still) : SavedAs g (saveGroup b) := by
  obtain ⟨he, hlanes⟩ := saveGroup_spec b
  have hregs := congrArg (fun x : Group => (x.s, x.v, x.vt, x.p, x.q, x.k)) h
  have hctl := congrArg (fun x : Group => (x.loops, x.saved, x.inTrap, x.traph, x.tcause, x.nstat, x.ylddl, x.slate)) h
  have hsame : b.still.lanes = g.still.lanes := congrArg Group.lanes h
  refine ⟨by rw [he], by rw [he], by rw [he], ?_, ?_, ?_⟩
  · rw [he]
    exact hregs
  · rw [he]
    exact hctl
  · intro j x hx
    exact hlanes j x (hsame ▸ hx)

theorem teamSaved {s s1 s2 : State} {t : Team} {l : Launch} (ht : s.team? t.id = some t) (hl : s.launch? t.launch = some l)
    (hr : readyToSave s t = true) (hp : checkPages s t .write (savePages s t l.kernel) = .ok s1) (hy : saveRelease s1 t = .done s2) :
    ∃ u t', exec (.teamSave t.id) s = .next u ∧ u.team? t.id = some t' ∧
      t'.saved = true ∧ t'.preempt = false ∧ t'.accs = [] ∧ t'.savedAt = s.time ∧
      (t'.idx, t'.coord, t'.seg, t'.scratch, t'.relaunches, t'.pinned) = (t.idx, t.coord, t.seg, t.scratch, t.relaunches, t.pinned) ∧
      (∀ p ∈ u.accs, p.2.team ≠ t.id) ∧ (∀ r ∈ u.issuing, r.team ≠ t.id) ∧ t'.groups.length = t.groups.length ∧
      ∀ (i : Nat) (g : Group), t.groups[i]? = some g → ∃ g' : Group, t'.groups[i]? = some g' ∧ SavedAs g g' := by
  have hstill : (quitState (areaWritten s2 t l.kernel) t).still = s.still :=
    (still_quitArea s2 t l.kernel).trans ((still_of_saveRelease hy).trans (still_of_checkPages hp))
  obtain ⟨b, hb, hbt⟩ := team?_of_still hstill ht
  obtain ⟨t', ht', e⟩ := savedState_spec l.kernel hb
  obtain ⟨haccs, hissuing⟩ := savedState_frees s2 t l.kernel
  have htime := congrArg State.time hstill
  have hkept := congrArg (fun x : Team => (x.idx, x.coord, x.seg, x.scratch, x.relaunches, x.pinned)) hbt
  refine ⟨_, t', exec_teamSave ht hl hr hp hy, ht', by rw [e], by rw [e], by rw [e], ?_, ?_, haccs, hissuing, ?_, fun i g hg => ?_⟩
  · rw [e]
    exact htime
  · rw [e]
    exact hkept
  · rw [e, List.length_map]
    exact length_groups_of_still hbt
  · obtain ⟨g1, hg1, hs⟩ := getElem?_of_still hbt hg
    refine ⟨saveGroup g1, ?_, savedAs_of_still hs⟩
    rw [e, List.getElem?_map, hg1, Option.map_some]

/-! The resume: what the team holds again on its core (R171), and its floor when R172 resumes it. -/

/-- The state in which a resumed team's slots, allotment and stores stand on the core. -/
def heldAgain (s : State) (t : Team) (l : Launch) (core : Nat) : State :=
  let slots := restoreAccs s t.id core (freeAccs s core l.kernel.acc) t.accSave
  acquireAt (followTeam (restoreScratch slots (clusterOf core) t.scratch t.scratchSave) t.id core) core .dev

theorem heldAgain_teams (s : State) (t : Team) (l : Launch) (core : Nat) : (heldAgain s t l core).teams = s.teams := by
  rw [heldAgain, acquireAt_eq]
  show (restoreScratch _ _ _ _).teams = s.teams
  rw [restoreScratch, foldl_teams fun s p => putGran_teams s _ _]
  exact foldl_teams (f := fun (s : State) (p : Nat × Acc) => { s with accs := minsert (accKey core p.1) { p.2 with team := t.id } s.accs })
    (fun _ _ => rfl) _ s

/-- The groups that a team must let stand at a point before it leaves its core again. -/
def floorOf (s : State) (t : Team) : List Nat :=
  if t.favour.isSome || s.time.toNat ≥ t.savedAt.toNat + twoMs then (t.groups.filter (fun g => !g.ended)).map (·.grp) else []

theorem floorOf_spec {s : State} {t : Team} {now : Word} (htime : s.time = now) :
    if t.favour ≠ none ∨ t.savedAt.toNat + 2000000 ≤ now.toNat then (∀ n, n ∈ floorOf s t ↔ ∃ g ∈ t.groups, g.ended = false ∧ g.grp = n)
      else floorOf s t = [] := by
  have hcond : ((t.favour.isSome || s.time.toNat ≥ t.savedAt.toNat + twoMs) = true) ↔
      (t.favour ≠ none ∨ t.savedAt.toNat + 2000000 ≤ now.toNat) := by
    simp [htime, twoMs, Option.isSome_iff_ne_none]
  rw [floorOf]
  by_cases h : t.favour ≠ none ∨ t.savedAt.toNat + 2000000 ≤ now.toNat
  · rw [if_pos h, if_pos (hcond.mpr h)]
    intro n
    simp [and_assoc]
  · rw [if_neg h, if_neg (mt hcond.mp h)]

/-- The launch of a resumed team is counted as served at this time, and the die's search goes on past the core. -/
def resumePlaced (s : State) (t : Team) (l : Launch) (core : Nat) : State :=
  let z := heldAgain s t l core
  { z with seqN := z.seqN + 1, dispPos := mput 0 z.dispPos (dieOf core) (1 + core) }.modLaunch l.id
    (fun l => { l with placedAt := z.time, starved := false })

/-- The team as it stands on its core again, `s` the state before the resume and `z` the one with what it held there. -/
def resumedTeam (s z : State) (t : Team) (l : Launch) (core : Nat) (x : Team) : Team :=
  { x with
    saved := false, core := core, accs := freeAccs s core l.kernel.acc, accSave := [], scratchSave := [], image := [], placedAt := z.time
    order := z.seqN, favour := none, floor := floorOf s t, groups := x.groups.map (resumeGroup z) }

theorem resumeOn_eq (s : State) (t : Team) (l : Launch) (core : Nat) :
    resumeOn s t l core = wakeIslands ((resumePlaced s t l core).modTeam t.id (resumedTeam s (heldAgain s t l core) t l core)) := rfl

theorem resumeOn_team {s : State} {t : Team} (l : Launch) (core : Nat) (ht : s.team? t.id = some t) :
    (resumeOn s t l core).team? t.id = some (resumedTeam s (heldAgain s t l core) t l core t) := by
  have hplaced : (resumePlaced s t l core).team? t.id = some t := by
    rw [State.team?, resumePlaced, State.modLaunch_teams, heldAgain_teams]
    exact ht
  rw [resumeOn_eq, wakeIslands]
  exact team?_modTeam_same (resumedTeam s _ t l core) (fun _ => rfl) hplaced

section Resume

variable {s s1 : State} {t : Team} {l : Launch} {core : Nat} (ht : s.team? t.id = some t) (hl : s.launch? t.launch = some l)
  (hs : t.saved = true) (he : t.ending = none) (hc : core ∈ resumeCores s l t) (hturn : resumeTurn s l t core = true)
  (hp : checkPages s t .read (savePages s t l.kernel) = .ok s1)
include ht hl hs he hc hturn hp

/-- A saved team whose turn it is resumes when its save area still holds its image, and else ends. -/
theorem exec_teamResume : exec (.teamResume t.id core) s =
    .next (if ∀ p ∈ t.image, saveByte s1 t.slot p.1 = (p.2, false) then resumeOn s1 t l core else plainFault s1 t.id .saveCorrupt) := by
  have hguard : (!t.saved || t.ending.isSome || !(resumeCores s l t).contains core || !resumeTurn s l t core) = false := by
    simp [hs, he, hturn, hc]
  show execTeamResume t.id core s = _
  simp only [execTeamResume, ht, Option.bind_some, hl, hguard, hp, Bool.false_eq_true, if_false, List.all_eq_true, beq_iff_eq]

theorem resumed (ht1 : s1.team? t.id = some t) (htime : s1.time = s.time) (him : ∀ p ∈ t.image, saveByte s1 t.slot p.1 = (p.2, false)) :
    ∃ u t', exec (.teamResume t.id core) s = .next u ∧ u.team? t.id = some t' ∧
      t'.saved = false ∧ t'.core = core ∧ (t'.idx, t'.coord, t'.seg, t'.scratch) = (t.idx, t.coord, t.seg, t.scratch) ∧
      (if t.favour ≠ none ∨ t.savedAt.toNat + 2000000 ≤ s.time.toNat then (∀ n, n ∈ t'.floor ↔ ∃ g ∈ t.groups, g.ended = false ∧ g.grp = n)
        else t'.floor = []) ∧
      t'.groups.length = t.groups.length ∧
      ∀ (i : Nat) (g : Group), t.groups[i]? = some g → ∃ g' : Group, t'.groups[i]? = some g' ∧ g' = { g with readyAt := g'.readyAt } := by
  refine ⟨_, _, (exec_teamResume ht hl hs he hc hturn hp).trans (by rw [if_pos him]), resumeOn_team l core ht1, rfl, rfl, rfl, floorOf_spec htime,
    List.length_map _, fun i g hg => ⟨resumeGroup (heldAgain s1 t l core) g, ?_, rfl⟩⟩
  rw [resumedTeam, List.getElem?_map, hg, Option.map_some]

theorem resume_corrupt (ht1 : s1.team? t.id = some t) (him : ∃ p ∈ t.image, saveByte s1 t.slot p.1 ≠ (p.2, false)) :
    ∃ u e, exec (.teamResume t.id core) s = .next u ∧ (u.team? t.id).map (·.ending) = some (some e) ∧ e.cause = .saveCorrupt := by
  have hnot : ¬ ∀ p ∈ t.image, saveByte s1 t.slot p.1 = (p.2, false) := fun hall => let ⟨p, hmem, hne⟩ := him; hne (hall p hmem)
  exact ⟨_, ⟨.saveCorrupt, false, ⟨t.id, 0⟩, 0, 0, 0, 0, 0, 0⟩,
    (exec_teamResume ht hl hs he hc hturn hp).trans (by rw [if_neg hnot, plainFault]),
    ending_endTeam _ ht1 he, rfl⟩

end Resume

/-- Settles O46: a save only performs stores and ends waits before the team leaves its core, so each of its groups keeps its
registers; the resume gives the same groups back, unless a byte of the image has changed. -/
theorem saveAndResume : Obligations.SaveAndResume :=
  ⟨fun _ _ _ _ _ ht hl hr hp _ hy => teamSaved ht hl hr hp hy,
    fun _ _ _ _ _ ht hl hs he hc hturn hp ht1 htime =>
      ⟨resumed ht hl hs he hc hturn hp ht1 htime, resume_corrupt ht hl hs he hc hturn hp ht1⟩⟩

end Sys2Proof.Machine
end

section
/-! SUPPORT. A context's queue (R155 to R160): what a window write adds to it, and how the launch at its head is checked, refused and
accepted. -/

namespace Sys2Proof.Machine

open Sys2Proof

/-! ### The launch window (R155, R159, R160) -/

theorem exec_launchWindowWrite_closed {s : State} {ctx : Nat} (off : Nat) (data : List Byte) (h : readyDev s = false ∨ 64 ≤ ctx) :
    exec (.launchWindowWrite ctx off data) s = .next s := by
  have hclosed : (!readyDev s || ctx ≥ 64) = true := by simpa using h
  exact congrArg Host.Outcome.next (if_pos hclosed)

section Window

variable {s : State} {ctx off : Nat} {data : List Byte} (hr : readyDev s = true) (hc : ctx < 64)
include hr hc

theorem exec_launchWindowWrite_open : exec (.launchWindowWrite ctx off data) s =
    .next (if off == 0 && data.length == 64 && ctxLive s ctx && queueRoom s ctx > 0 then enqueue s ctx 0 (BitVec.ofNat 512 (leNat data))
      else launchRecord s ctx (ctxSlot s ctx) 0x08 0) := by
  have hopen : ¬(!readyDev s || ctx ≥ 64) = true := by simp [hr, hc]
  exact congrArg Host.Outcome.next (if_neg hopen)

theorem exec_launchWindowWrite_taken (ho : off = 0) (hd : data.length = 64) (hl : ctxLive s ctx = true) (hq : 0 < queueRoom s ctx) :
    exec (.launchWindowWrite ctx off data) s = .next (enqueue s ctx 0 (BitVec.ofNat 512 (leNat data))) := by
  rw [exec_launchWindowWrite_open hr hc, if_pos (by simp [ho, hd, hl, hq])]

theorem exec_launchWindowWrite_refused (h : off ≠ 0 ∨ data.length ≠ 64 ∨ ctxLive s ctx = false ∨ queueRoom s ctx = 0) :
    exec (.launchWindowWrite ctx off data) s = .next (launchRecord s ctx (ctxSlot s ctx) 0x08 0) := by
  have hno : ¬(off == 0 && data.length == 64 && ctxLive s ctx && queueRoom s ctx > 0) = true := by
    simp only [Bool.and_eq_true, beq_iff_eq, decide_eq_true_eq]
    rintro ⟨⟨⟨ho, hd⟩, hl⟩, hq⟩
    rcases h with h | h | h | h
    · exact h ho
    · exact h hd
    · exact absurd (hl.symm.trans h) nofun
    · omega
  rw [exec_launchWindowWrite_open hr hc, if_neg hno]

end Window

theorem launchRecord_frame (s : State) (ctx slot code va : Nat) : launchRecord s ctx slot code va =
    { s with errBuf := (launchRecord s ctx slot code va).errBuf, errSeq := (launchRecord s ctx slot code va).errSeq
             ctrl := (launchRecord s ctx slot code va).ctrl } := postRecord_frame s _

theorem launchRecord_errSeq {s : State} (ctx slot code va : Nat) (h : s.errBuf.length < 1024) :
    (launchRecord s ctx slot code va).errSeq = s.errSeq + 1 := by
  rw [launchRecord, postRecord_room _ h]

/-! ### Refusal (R158) -/

/-- A launch that leaves takes its fresh roll, the bytes fetched for it, and nothing else. -/
theorem dropLaunch_frame (s : State) (l : Launch) : dropLaunch s l =
    { s with roster := (dropLaunch s l).roster, nameCache := (dropLaunch s l).nameCache, fetched := (dropLaunch s l).fetched
             launches := s.launches.filter (fun x => x.id != l.id) } := by
  unfold dropLaunch freeRoll
  split <;> rfl

theorem not_mem_dropLaunch (s : State) (l : Launch) : ∀ x ∈ (dropLaunch s l).launches, x.id ≠ l.id := fun x hx => by
  simpa using (List.mem_filter.mp hx).2

/-- A refusal that tells no cell is its record. -/
theorem refuseLaunch_untold {s : State} {l : Launch} {code : Nat} (hk : l.killed = false) (h : l.cell = 0 ∨ code = 0x03 ∨ code = 0x07) :
    refuseLaunch s l code = launchRecord (dropLaunch s l) l.ctx (ctxSlot s l.ctx) code l.src := by
  rw [refuseLaunch, if_neg (by simp [hk])]
  rcases h with h | h
  · simp [tellCell, h]
  · exact if_pos (by simpa using h)

theorem refuseLaunch_spec {s : State} {l : Launch} {code : Nat} (hk : l.killed = false) (h : l.cell = 0 ∨ code = 0x03 ∨ code = 0x07) :
    ∃ t, refuseLaunch s l code = t ∧ (∀ x ∈ t.launches, x.id ≠ l.id) ∧ (∀ a, byteAt t a = byteAt s a) ∧
      (s.errBuf.length < 1024 → t.errSeq = s.errSeq + 1) := by
  have hd := dropLaunch_frame s l
  refine ⟨_, refuseLaunch_untold hk h, ?_, fun a => ?_, fun hroom => ?_⟩
  · rw [launchRecord_frame]
    exact not_mem_dropLaunch s l
  · rw [launchRecord_frame, hd]
    rfl
  · rw [launchRecord_errSeq _ _ _ _ (by rw [hd]; exact hroom), hd]

/-! ### What the device's read for a launch changes (R157) -/

theorem still_check189 (s : State) (w : Who) (va : Word) (align : Nat) (k : AK) : (check189 s w va align k).2.still = s.still := by
  unfold check189
  split
  · rfl
  · split_ifs <;> rfl
  · split
    · rfl
    · split
      next h => exact still_of_translate h
      next h => exact still_of_translate h

theorem still_engPlace (s : State) (w : Who) (va : Nat) (k : AK) : (engPlace s w va k).2.still = s.still := by
  have h := still_check189 s w (BitVec.ofNat 64 va) 1 k
  unfold engPlace
  split
  all_goals
    next e =>
      rw [e] at h
      exact h

theorem still_engRead (s : State) (rd : Reader) (w : Who) (va n : Nat) : (engRead s rd w va n).2.still = s.still := by
  have h := still_engPlace s w va .read
  unfold engRead
  dsimp only
  split
  · rfl
  · split
    next e => rw [e] at h; exact h
    next e => rw [e] at h; exact h
    next e =>
      rw [e] at h
      split <;> exact h
    next e =>
      rw [e] at h
      split
      · split <;> exact h
      · split
        · exact h
        · exact (still_aliasFill _ _ _ _).trans h

/-- One piece of the device's read. -/
def devStep (owner : Nat) (w : Who) (a : DevRead) (p : Nat × Nat) : DevRead :=
  match engRead a.s (.launch owner) w p.1 p.2 with
  | (.val x _ _, s) => { a with s := s, out := a.out ++ natBytes p.2 x }
  | (.bad, s) => { a with s := s, bad := true }
  | (.wait v, s) => { a with s := s, wait := some v }
  | (.busy, s) => { a with s := s, busy := true }
  | (.ask v x, s) => match peerTarget s x v (.read p.2) with
    | some _ => { a with s := s, peers := a.peers ++ [(v, p.2, x)] }
    | none => { a with s := s, bad := true }

theorem devRead_eq (s : State) (owner : Nat) (w : Who) (va n : Nat) :
    devRead s owner w va n = (pieces va n).foldl (devStep owner w) ⟨s, [], false, none, false, []⟩ := rfl

theorem still_devStep (owner : Nat) (w : Who) (a : DevRead) (p : Nat × Nat) : (devStep owner w a p).s.still = a.s.still := by
  have h := still_engRead a.s (.launch owner) w p.1 p.2
  unfold devStep
  split
  case h_5 e =>
    rw [e] at h
    split <;> exact h
  all_goals
    next e =>
      rw [e] at h
      exact h

theorem still_devRead (s : State) (owner : Nat) (w : Who) (va n : Nat) : (devRead s owner w va n).s.still = s.still := by
  have hfold : ∀ (l : List (Nat × Nat)) (a : DevRead), (l.foldl (devStep owner w) a).s.still = a.s.still := fun l => by
    induction l with
    | nil => exact fun _ => rfl
    | cons p r ih => exact fun a => (ih _).trans (still_devStep owner w a p)
  rw [devRead_eq]
  exact hfold _ _

theorem devRead_time (s : State) (owner : Nat) (w : Who) (va n : Nat) : (devRead s owner w va n).s.time = s.time := by
  have h := congrArg State.time (still_devRead s owner w va n)
  exact h

/-! ### Acceptance (R157, R158, R161) -/

theorem devGet_bytes {s : State} {owner : Nat} {w : Who} {va n : Nat} (hbad : (devRead s owner w va n).bad = false)
    (hwait : (devRead s owner w va n).wait = none) (hpeers : (devRead s owner w va n).peers = []) (hbusy : (devRead s owner w va n).busy = false) :
    devGet s owner w va n = .bytes (devRead s owner w va n).s (devRead s owner w va n).out := by
  unfold devGet
  simp only [hbad, hwait, hpeers, hbusy]

section Head

variable {s : State} {l : Launch} (hl : s.launches.find? (fun x => x.ctx == l.ctx && x.stage == .queued) = some l)
  (hw : waitsOn s (.launch l.id) = false)
include hl hw

theorem exec_launchAccept_badPacket (hp : packetOk l.packet = false) : exec (.launchAccept l.ctx) s = .next (refuseLaunch s l 0x03) := by
  show execLaunchAccept l.ctx s = _
  simp only [execLaunchAccept, hl, hw, hp, Bool.false_eq_true, if_false, Bool.not_false, if_true]

variable (hp : packetOk l.packet = true)
include hp

theorem exec_launchAccept_paramFault (h : pk l.packet 256 56 % 64 ≠ 0 ∨ l.bad = true) :
    exec (.launchAccept l.ctx) s = .next (refuseLaunch s l 0x07) := by
  have hbad : (pk l.packet 256 56 % 64 != 0 || zoneOf (l.who s).core (pk l.packet 256 56) != .mapped || l.bad) = true := by
    rcases h with h | h <;> simp [h]
  show execLaunchAccept l.ctx s = _
  simp only [execLaunchAccept, hl, hw, hp, hbad, Bool.false_eq_true, if_false, Bool.not_true, if_true]

variable (ha : pk l.packet 256 56 % 64 = 0) (hz : zoneOf (l.who s).core (pk l.packet 256 56) = .mapped) (hb : l.bad = false)
include ha hz hb

theorem exec_launchAccept_read (hq : l.params ≠ []) : exec (.launchAccept l.ctx) s = .next (acceptCells s l) := by
  have hok : (pk l.packet 256 56 % 64 != 0 || zoneOf (l.who s).core (pk l.packet 256 56) != .mapped || l.bad) = false := by simp [ha, hz, hb]
  have hread : (!l.params.isEmpty) = true := by simpa using hq
  show execLaunchAccept l.ctx s = _
  simp only [execLaunchAccept, hl, hw, hp, hok, hread, Bool.false_eq_true, if_false, Bool.not_true, if_true]

/-- The parameter block has come: the launch goes on with it. -/
theorem exec_launchAccept_bytes (hq : l.params = []) {u : State} {b : List Byte} (hg : devGet s l.id (l.who s) (pk l.packet 256 56) 64 = .bytes u b) :
    exec (.launchAccept l.ctx) s =
      .next (acceptCells ((dropFetched u l.id).modLaunch l.id fun _ => { l with params := words8 b }) { l with params := words8 b }) := by
  have hok : (pk l.packet 256 56 % 64 != 0 || zoneOf (l.who s).core (pk l.packet 256 56) != .mapped || l.bad) = false := by simp [ha, hz, hb]
  have hread : (!l.params.isEmpty) = false := by simp [hq]
  show execLaunchAccept l.ctx s = _
  simp only [execLaunchAccept, hl, hw, hp, hok, hread, hg, Bool.false_eq_true, if_false, Bool.not_true]

end Head

/-- A launch with no cells needs none. -/
theorem acceptCells_none {s : State} {l : Launch} (hk : l.killed = false) (hd : l.depCell = 0) (hc : l.cell = 0) : acceptCells s l = acceptLaunch s l := by
  simp [acceptCells, hk, hd, hc]

/-- A kernel with what a launch's packet sets of it. -/
def packetKernel (p : BitVec 512) (k : Kernel) : Kernel :=
  { k with
    replayable := k.replayable || p.getLsbD 315
    trapstore := k.trapstore || p.getLsbD 316
    deadline := if pk p 432 16 = 0 then k.deadline else pk p 432 16 }

theorem packetKernel_eq (p : BitVec 512) (k : Kernel) : packetKernel p k = { k with
    replayable := k.replayable || p.getLsbD 315
    trapstore := k.trapstore || p.getLsbD 316
    deadline := if pk p 432 16 == 0 then k.deadline else pk p 432 16 } := by
  simp only [packetKernel, beq_iff_eq]

/-- The roll that a launch names can serve it. -/
def RollServes (s : State) (l : Launch) : Prop :=
  l.packet.extractLsb' 128 128 = 0 ∨ ∃ y, resolve s l.ctx (l.packet.extractLsb' 128 128) (some 5) = .ok y ∧ y.owner = l.ctx

/-- The bytes of a segment of a launch's context. -/
def launchSegment (s : State) (l : Launch) : Nat :=
  match ctxEntry s l.ctx with
  | some c => segSize c.record
  | none => 0

theorem acceptLaunch_noKernel {s : State} {l : Launch} {code : Nat} (h : resolve s l.ctx (l.packet.extractLsb' 0 128) (some 8) = .error code) :
    acceptLaunch s l = refuseLaunch s l 0x01 := by
  simp only [acceptLaunch, h]

/-- A launch whose kernel resolved, with the two names in its die's name cache. -/
def namesCached (s : State) (l : Launch) (kname : Name) : State :=
  let s := cacheName s (dispatchCache l.home) kname
  if l.packet.extractLsb' 128 128 == 0 then s else cacheName s (dispatchCache l.home) (l.packet.extractLsb' 128 128)

theorem cacheName_frame (s : State) (unit : Nat) (n : Name) : cacheName s unit n = { s with nameCache := (cacheName s unit n).nameCache } := by
  unfold cacheName
  split <;> rfl

theorem namesCached_frame (s : State) (l : Launch) (kname : Name) :
    namesCached s l kname = { s with nameCache := (namesCached s l kname).nameCache } := by
  unfold namesCached
  dsimp only
  split
  · exact cacheName_frame s _ _
  · rw [cacheName_frame _ _ (l.packet.extractLsb' 128 128), cacheName_frame s]

/-- The launch as it is accepted, before it has a fresh roll. -/
def acceptedLaunch (l : Launch) (k : Kernel) (kname : Name) : Launch :=
  { l with kernel := k, kname := kname, roll := l.packet.extractLsb' 128 128, fresh := l.packet.extractLsb' 128 128 == 0, stage := .waiting }

section Kernel

variable {s : State} {l : Launch} {e : Entry} {k0 : Kernel} (he : resolve s l.ctx (l.packet.extractLsb' 0 128) (some 8) = .ok e)
  (ho : e.obj = .kernel k0)
include he ho

/-- The order of the last checks: the roll, the size of a team, the segments of the context. -/
theorem acceptLaunch_kernel : ∃ gone : Bool, (gone = true ↔ ¬RollServes s l) ∧ acceptLaunch s l =
    if gone then refuseLaunch s l 0x02
    else if tooBig (packetKernel l.packet k0) then refuseLaunch s l 0x04
    else if (packetKernel l.packet k0).need > launchSegment s l then refuseLaunch s l 0x05
    else
      let given := giveRoll (namesCached s l e.name) (acceptedLaunch l (packetKernel l.packet k0) e.name)
      let z := given.1.modLaunch given.2.id (fun _ => given.2)
      if given.2.depCell == 0 && given.2.roll != 0 then becomeEligible z given.2 else z := by
  refine ⟨l.packet.extractLsb' 128 128 != 0 && (match resolve s l.ctx (l.packet.extractLsb' 128 128) (some 5) with
    | .ok r => r.owner != l.ctx
    | .error _ => true), ?_, ?_⟩
  · rw [RollServes]
    cases resolve s l.ctx (l.packet.extractLsb' 128 128) (some 5) <;> simp
  · rw [packetKernel_eq]
    simp only [acceptLaunch, he, ho]
    rfl

theorem acceptLaunch_badRoll (hr : ¬RollServes s l) : acceptLaunch s l = refuseLaunch s l 0x02 := by
  obtain ⟨gone, hg, h⟩ := acceptLaunch_kernel he ho
  rw [h, if_pos (hg.mpr hr)]

variable (hr : RollServes s l)
include hr

theorem acceptLaunch_tooBig (hb : tooBig (packetKernel l.packet k0) = true) : acceptLaunch s l = refuseLaunch s l 0x04 := by
  obtain ⟨gone, hg, h⟩ := acceptLaunch_kernel he ho
  rw [h, if_neg fun hgone => hg.mp hgone hr, if_pos hb]

variable (hb : tooBig (packetKernel l.packet k0) = false)
include hb

theorem acceptLaunch_segmentShort (hn : launchSegment s l < (packetKernel l.packet k0).need) : acceptLaunch s l = refuseLaunch s l 0x05 := by
  obtain ⟨gone, hg, h⟩ := acceptLaunch_kernel he ho
  rw [h, if_neg fun hgone => hg.mp hgone hr, if_neg (by simp [hb]), if_pos hn]

/-- A launch with a roll of its own and no dependence is eligible at once. -/
theorem acceptLaunch_named (hn : (packetKernel l.packet k0).need ≤ launchSegment s l) (hd : l.depCell = 0)
    (hroll : l.packet.extractLsb' 128 128 ≠ 0) :
    acceptLaunch s l = becomeEligible ((namesCached s l e.name).modLaunch l.id fun _ => acceptedLaunch l (packetKernel l.packet k0) e.name)
      (acceptedLaunch l (packetKernel l.packet k0) e.name) := by
  obtain ⟨gone, hg, h⟩ := acceptLaunch_kernel he ho
  have hnull : (l.packet.extractLsb' 128 128 == 0) = false := by simpa using hroll
  have hgiven : giveRoll (namesCached s l e.name) (acceptedLaunch l (packetKernel l.packet k0) e.name) =
      (namesCached s l e.name, acceptedLaunch l (packetKernel l.packet k0) e.name) := by
    refine if_pos ?_
    rw [show (acceptedLaunch l (packetKernel l.packet k0) e.name).fresh = false from hnull]
    rfl
  have hready : ((acceptedLaunch l (packetKernel l.packet k0) e.name).depCell == 0 &&
      (acceptedLaunch l (packetKernel l.packet k0) e.name).roll != 0) = true := by
    rw [show (acceptedLaunch l (packetKernel l.packet k0) e.name).depCell = 0 from hd]
    simpa [acceptedLaunch] using hroll
  rw [h, if_neg fun hgone => hg.mp hgone hr, if_neg (by simp [hb]), if_neg (by omega), hgiven]
  exact if_pos hready

end Kernel

theorem launch?_modLaunch_put {s : State} {id : Nat} {x l : Launch} (h : s.launch? id = some x) (hl : l.id = id) :
    (s.modLaunch id fun _ => l).launch? id = some l := by
  have hput : (s.modLaunch id fun _ => l) = s.modLaunch id fun y => { l with id := y.id } := by
    rw [State.modLaunch, State.modLaunch]
    refine congrArg (fun ls => { s with launches := ls }) (List.map_congr_left fun y _ => ?_)
    by_cases hy : y.id = id
    · rw [hy, ← hl]
    · rw [if_neg (by simpa using hy), if_neg (by simpa using hy)]
  rw [hput, launch?_modLaunch_same (fun y => { l with id := y.id }) (fun _ => rfl) h, launch?_id h, ← hl]

/-- What an eligible launch is: the one given, with the roll and the times of its becoming so. -/
theorem launch?_becomeEligible {s : State} {l x : Launch} (h : s.launch? l.id = some x) : ∃ y, (becomeEligible s l).launch? l.id = some y ∧
    y = { x with stage := .eligible, roll := l.roll, eligAt := s.time, placedAt := s.time, order := y.order } :=
  ⟨_, launch?_modLaunch_same (s := { s with seqN := s.seqN + 1 }) (fun x => { x with
    stage := .eligible, roll := l.roll, eligAt := s.time, placedAt := s.time, order := s.seqN }) (fun _ => rfl) h, rfl⟩

theorem launch?_acceptedEligible {s : State} {l : Launch} (k : Kernel) (kname : Name) (h : s.launch? l.id = some l)
    (hroll : l.packet.extractLsb' 128 128 ≠ 0) :
    ∃ x, (becomeEligible ((namesCached s l kname).modLaunch l.id fun _ => acceptedLaunch l k kname) (acceptedLaunch l k kname)).launch? l.id = some x ∧
      x = { l with
        kernel := k, kname := kname, roll := l.packet.extractLsb' 128 128, fresh := false, stage := .eligible
        eligAt := s.time, placedAt := s.time, order := x.order } := by
  have hnames := namesCached_frame s l kname
  have hfresh : acceptedLaunch l k kname =
      { l with kernel := k, kname := kname, roll := l.packet.extractLsb' 128 128, fresh := false, stage := .waiting } := by
    rw [acceptedLaunch, show (l.packet.extractLsb' 128 128 == 0) = false by simpa using hroll]
  have hset : ((namesCached s l kname).modLaunch l.id fun _ => acceptedLaunch l k kname).launch? l.id = some (acceptedLaunch l k kname) := by
    have hnamed : (namesCached s l kname).launch? l.id = some l := by rw [hnames]; exact h
    exact launch?_modLaunch_put hnamed rfl
  have htime : ((namesCached s l kname).modLaunch l.id fun _ => acceptedLaunch l k kname).time = s.time := by
    rw [State.modLaunch, hnames]
  obtain ⟨y, hy, e⟩ := launch?_becomeEligible (l := acceptedLaunch l k kname) hset
  refine ⟨y, hy, ?_⟩
  rw [htime, hfresh] at e
  exact e

/-- The claim on a context's queue: each clause by the lemma of its check. -/
theorem launchQueue : Claim.LaunchQueue := by
  refine ⟨fun s ctx off data => ⟨exec_launchWindowWrite_closed off data, fun hr hc ho hd hl hq => ?_, fun hr hc h => ?_⟩, fun s l hl hw => ?_,
    fun s l code hk h => refuseLaunch_spec hk h⟩
  · exact ⟨_, exec_launchWindowWrite_taken hr hc ho hd hl hq, rfl⟩
  · exact ⟨_, exec_launchWindowWrite_refused hr hc h, launchRecord_frame _ _ _ _ _, launchRecord_errSeq _ _ _ _⟩
  · refine ⟨exec_launchAccept_badPacket hl hw, exec_launchAccept_paramFault hl hw, exec_launchAccept_read hl hw, ?_⟩
    intro va r hp ha hz hb hq hbad hwait hpeers hbusy hk hd hc l' z rname
    have hrun : exec (.launchAccept l.ctx) s = .next (acceptLaunch z l') := by
      rw [exec_launchAccept_bytes hl hw hp ha hz hb hq (devGet_bytes hbad hwait hpeers hbusy)]
      exact congrArg Host.Outcome.next (acceptCells_none hk hd (congrArg BitVec.toNat hc))
    refine ⟨fun code h => hrun.trans (congrArg _ (acceptLaunch_noKernel h)), fun e k0 he ho => ?_⟩
    refine ⟨fun hr => hrun.trans (congrArg _ (acceptLaunch_badRoll he ho hr)),
      fun hr hbig => hrun.trans (congrArg _ (acceptLaunch_tooBig he ho hr hbig)),
      fun hr hbig hn => hrun.trans (congrArg _ (acceptLaunch_segmentShort he ho hr hbig hn)), fun hr hbig hn hroll hfind => ?_⟩
    obtain ⟨x, hx, e'⟩ := launch?_acceptedEligible (l := l') (packetKernel l.packet k0) e.name hfind hroll
    refine ⟨_, x, hrun.trans (congrArg _ (acceptLaunch_named he ho hr hbig hn hd hroll)), hx, ?_⟩
    rw [show z.time = s.time from devRead_time s l.id (l.who s) va 64] at e'
    exact e'

end Sys2Proof.Machine
end

section
/-! SUPPORT. A launch's cells (R158, R161): its dependence as it is met, and its completion as its cell is told. -/

namespace Sys2Proof.Machine

open Sys2Proof

/-! ### DEPENDENCE_MET (R161) -/

theorem launchCell_at {s s1 : State} {w : Who} {va : Nat} {k : AK} {x : Xlat} (h : launchCell s w va k = (.at_ x, s1)) : s1.still = s.still := by
  unfold launchCell at h
  split at h
  · cases h
  · split at h
    · cases h
    next ht =>
      have hs : _ = s1 := congrArg Prod.snd h
      rw [← hs]
      exact still_of_translate ht

section Met

variable {s s1 : State} {l : Launch} {x : Xlat} (hl : s.launches.find? (fun y => y.id == l.id && y.stage == .waiting) = some l)
  (hroll : l.roll ≠ 0) (hw : waitsOn s (.launch l.id) = false) (hid : s.modLaunch l.id (fun _ => l) = s) (hd : l.depCell ≠ 0)
  (hc : launchCell s (l.who s) l.depCell .read = (.at_ x, s1)) (hown : engineOwns s1 (lineKey (ctxSlot s1 l.ctx) l.depCell) = false)
  (hcount : l.target ≤ natAt s1 (x.loc l.depCell) 4)
include hl hroll hw hid hd hc hown hcount

theorem exec_dependenceMet : exec (.dependenceMet l.id) s =
    .next (if l.errstop && natAt s1 (x.loc l.depCell + 4) 2 != 0 then refuseLaunch s1 l 0x06 else becomeEligible s1 l) := by
  have hnamed : (l.roll != 0) = true := by simpa using hroll
  have hgiven : giveRoll s l = (s, l) := if_pos (by rw [hnamed, Bool.or_true, Bool.true_or])
  have hgo : (l.roll == 0 || waitsOn s (.launch l.id)) = false := by simpa [hw] using hroll
  have hdep : (l.depCell == 0) = false := by simpa using hd
  have hown' : engineOwns s1 (lineKey (l.who s1).slot l.depCell) = false := hown
  show execDependenceMet l.id s = _
  simp only [execDependenceMet, hl, hgiven, hid, hgo, hdep, hc, hown', Nat.not_lt.mpr hcount, Bool.false_eq_true, if_false]

theorem dependenceMet_eligible (hf : s1.launch? l.id = some l) (h : l.errstop = false ∨ natAt s1 (x.loc l.depCell + 4) 2 = 0) :
    ∃ u y, exec (.dependenceMet l.id) s = .next u ∧ u.launch? l.id = some y ∧
      y = { l with stage := .eligible, eligAt := s.time, placedAt := s.time, order := y.order } ∧ ∀ a, byteAt u a = byteAt s1 a := by
  have hno : ¬(l.errstop && natAt s1 (x.loc l.depCell + 4) 2 != 0) = true := by rcases h with h | h <;> simp [h]
  have htime := congrArg State.time (launchCell_at hc)
  obtain ⟨y, hy, e⟩ := launch?_becomeEligible (l := l) hf
  refine ⟨_, y, (exec_dependenceMet hl hroll hw hid hd hc hown hcount).trans (by rw [if_neg hno]), hy, ?_, fun _ => rfl⟩
  rw [show s1.time = s.time from htime] at e
  exact e

theorem dependenceMet_refused (he : l.errstop = true) (hn : natAt s1 (x.loc l.depCell + 4) 2 ≠ 0) :
    exec (.dependenceMet l.id) s = .next (refuseLaunch s1 l 0x06) := by
  rw [exec_dependenceMet hl hroll hw hid hd hc hown hcount, if_pos (by simp [he, hn])]

end Met

/-! ### LAUNCH_COMPLETE (R158, R161): the launch leaves -/

section Complete

variable {s : State} {l : Launch} (hl : s.launch? l.id = some l) (hst : l.stage = .eligible) (hp : l.total ≤ l.placed) (he : l.total ≤ l.ended)
  (ht : ∀ t ∈ s.teams, t.launch ≠ l.id) (hev : ∀ e ∈ s.ev, l.left e.w.g.team = false)
include hl hst hp he ht hev

/-- With every team ended and none of their stores held, what remains is what their roll, their traffic and their records still owe. -/
theorem exec_launchComplete : exec (.launchComplete l.id) s =
    .next (if leftBehind (flushRoll s l.roll) l || (rollOf (flushRoll s l.roll) l.roll).any rollLags || recordsWait (flushRoll s l.roll) l
      then flushRoll s l.roll
      else tellCell (dropLaunch (flushRoll s l.roll) l) l 1 l.faulted (if l.faulted == 0 then 0 else 0x10)) := by
  have hteams : s.teams.any (fun t => t.launch == l.id) = false := by simpa using ht
  have hgo : (l.stage != .eligible || l.placed < l.total || l.ended < l.total || s.teams.any (fun t => t.launch == l.id)) = false := by
    simp [hst, hteams, hp, he]
  have hnone : s.ev.filter (fun e => l.left e.w.g.team) = [] := by simpa using hev
  show execLaunchComplete l.id s = _
  simp only [execLaunchComplete, hl, hgo, hnone, List.foldl_nil, Bool.false_eq_true, if_false]

theorem exec_launchComplete_waits (h : leftBehind (flushRoll s l.roll) l = true ∨ (rollOf (flushRoll s l.roll) l.roll).any rollLags = true ∨
    recordsWait (flushRoll s l.roll) l = true) : exec (.launchComplete l.id) s = .next (flushRoll s l.roll) := by
  rw [exec_launchComplete hl hst hp he ht hev, if_pos (by rcases h with h | h | h <;> simp [h])]

theorem exec_launchComplete_leaves (h1 : leftBehind (flushRoll s l.roll) l = false) (h2 : (rollOf (flushRoll s l.roll) l.roll).any rollLags = false)
    (h3 : recordsWait (flushRoll s l.roll) l = false) : exec (.launchComplete l.id) s =
      .next (tellCell (dropLaunch (flushRoll s l.roll) l) l 1 l.faulted (if l.faulted == 0 then 0 else 0x10)) := by
  rw [exec_launchComplete hl hst hp he ht hev, if_neg (by simp [h1, h2, h3])]

end Complete

theorem mfind_dropWhile_le {α : Type} (r : SMap α) (k : Nat) : mfind (r.dropWhile (fun p => decide (p.1 ≤ k))) k = none := by
  induction r with
  | nil => rfl
  | cons p r ih =>
    by_cases hk : p.1 ≤ k
    · rw [List.dropWhile_cons_of_pos (by simpa using hk), ih]
    · rw [List.dropWhile_cons_of_neg (by simpa using hk)]
      exact if_pos (by omega)

theorem mfind_merase_same {α : Type} (m : SMap α) (k : Nat) : mfind (merase k m) k = none := by
  induction m with
  | nil => rfl
  | cons p r ih =>
    obtain ⟨a, x⟩ := p
    rcases Nat.lt_trichotomy k a with h | h | h
    · rw [merase, if_pos h, mfind, if_pos h]
    · rw [merase, if_neg (by omega), if_pos h]
      exact mfind_dropWhile_le r k
    · rw [merase, if_neg (by omega), if_neg (by omega), mfind, if_neg (by omega), if_neg (by omega), ih]

/-- The fresh roll goes with its launch (R347). -/
theorem entryOf_dropLaunch_fresh (s : State) {l : Launch} (hf : l.fresh = true) (hr : l.roll ≠ 0) : entryOf (dropLaunch s l) l.roll = none := by
  have hfree : freeRoll s l = { s with roster := merase l.roll.toNat s.roster, nameCache := s.nameCache.filter (fun p => p.2 != l.roll) } :=
    if_pos (by simpa [hf] using hr)
  rw [dropLaunch, hfree]
  exact mfind_merase_same s.roster l.roll.toNat

end Sys2Proof.Machine
end

section
/-! SUPPORT. The update of a launch's cell (R161): its queue of updates is no part of what a check or a write reads, and the eight bytes
of the cell are all that changes. -/

namespace Sys2Proof.Machine

open Sys2Proof

/-! ### The updates under way and a check of an access -/

section Cells

variable (s : State) (cs : List CellUpd)

theorem walk_cells (va n level table : Nat) : walk { s with cells := cs } va n level table = walk s va n level table := by
  induction n generalizing level table with
  | zero => rfl
  | succ n ih =>
    unfold walk
    simp only [ih]
    rfl

theorem walkPageFrom_cells (va level table : Nat) : walkPageFrom { s with cells := cs } va level table = walkPageFrom s va level table := by
  unfold walkPageFrom
  rw [walk_cells]
  rfl

theorem translatePure_cells (slot va : Nat) (k : AK) : translatePure { s with cells := cs } slot va k = translatePure s slot va k := by
  unfold translatePure walkPage
  simp only [walkPageFrom_cells]
  rfl

theorem walkCached_cells (slot va : Nat) (k : AK) : walkCached { s with cells := cs } slot va k = walkCached s slot va k := by
  unfold walkCached
  simp only [walkPageFrom_cells, translatePure_cells]
  rfl

theorem walkNew_cells (slot va : Nat) (k : AK) : translate.walkNew slot va k { s with cells := cs } =
    ((translate.walkNew slot va k s).1, { (translate.walkNew slot va k s).2 with cells := cs }) := by
  unfold translate.walkNew
  rw [walkCached_cells]
  cases walkCached s slot va k <;> rfl

theorem translate_cells (slot va : Nat) (k : AK) : translate { s with cells := cs } slot va k =
    ((translate s slot va k).1, { (translate s slot va k).2 with cells := cs }) := by
  unfold translate
  rw [show tlbFind { s with cells := cs } slot va = tlbFind s slot va from rfl]
  cases tlbFind s slot va with
  | none => exact walkNew_cells s cs slot va k
  | some x =>
    dsimp only
    split
    · rfl
    · exact walkNew_cells s cs slot va k

theorem check189_cells (w : Who) (va : Word) (align : Nat) (k : AK) : check189 { s with cells := cs } w va align k =
    ((check189 s w va align k).1, { (check189 s w va align k).2 with cells := cs }) := by
  unfold check189
  rw [translate_cells]
  cases zoneOf w.core va.toNat with
  | bad => rfl
  | window cl off =>
    dsimp only
    rw [show windowOk { s with cells := cs } w.ctx cl off = windowOk s w.ctx cl off from rfl]
    split_ifs <;> rfl
  | mapped =>
    dsimp only
    split
    · rfl
    · obtain ⟨r, u⟩ := translate s w.slot va.toNat k
      cases r <;> rfl

end Cells

theorem aligned_of_check189_mem {s u : State} {w : Who} {va : Word} {align : Nat} {k : AK} {x : Xlat} (h : check189 s w va align k = (.mem x, u)) :
    va.toNat % align = 0 := by
  unfold check189 at h
  split at h
  · cases h
  · split_ifs at h <;> cases h
  · split at h
    · cases h
    next hal => simpa using hal

theorem mod_of_ofNat {n m : Nat} (hn : n < 2 ^ 64) (h : (BitVec.ofNat 64 n).toNat % m = 0) : n % m = 0 := by
  rwa [BitVec.toNat_ofNat, Nat.mod_eq_of_lt hn] at h

theorem still_of_check189 {s u : State} {w : Who} {va : Word} {align : Nat} {k : AK} {a : Acc189} (h : check189 s w va align k = (a, u)) :
    u.still = s.still := by
  have hs := still_check189 s w va align k
  rwa [h] at hs

/-- An update of a cell in device memory that no engine owns is done at once. -/
theorem updateCell_mem {s u : State} {c : CellUpd} {n : Nat} {x : Xlat} (hsrc : c.src = .launch n) (hva : c.va / 2 ^ 48 ≠ 0xFD)
    (hc : check189 s ⟨c.die * 64, c.ctx, c.slot⟩ (BitVec.ofNat 64 c.va) 8 .rmw = (.mem x, u)) (hp : x.peer = false) (hh : x.host = false)
    (ho : engineOwns u (lineKey c.slot c.va) = false) : updateCell s c =
      { cellHome u ⟨0, 0⟩ c.slot c.va (.mem x) (cellBytes c.add c.errs c.status) with cells := u.cells.erase c } := by
  unfold updateCell
  simp only [hsrc, beq_eq_false_iff_ne.mpr hva, hc, hp, hh, ho, Bool.or_self, Bool.false_eq_true, if_false]

/-! ### What the cell's operation writes (R235) -/

theorem mem_recallWhere {s : State} (h : s.ev = []) (slot va : Nat) (x : Xlat) (f : EvWrite → Bool) : (recallWhere s slot va x f).mem = s.mem := by
  have hhome : ∀ (z : State) (line : Nat), (homeLine z line).mem = z.mem := fun z line => by
    unfold homeLine
    dsimp only
    split <;> rfl
  rw [recallWhere, dropCopies, setClusters, hhome]
  show (performEv (invalidateCopies s slot va x (fun _ => true) none) (lineKey slot va) x f).mem = s.mem
  rw [performEv, show (invalidateCopies s slot va x (fun _ => true) none).ev = [] from h]
  rfl

theorem aliasFill_sole {s : State} {slot va : Nat} {x : Xlat} (h : Claim.sole s slot va x) :
    aliasFill s slot va x = { s with aliases := (aliasFill s slot va x).aliases } := by
  unfold aliasFill
  dsimp only
  split
  next a ha => rw [if_pos (by simpa using h a ha)]
  next => rfl

theorem natAt_of_mem {s z : State} (h : z.mem = s.mem) (a n : Nat) : natAt z a n = natAt s a n := by
  simp only [natAt, bytesAt, byteAt, h]

/-- The state in which a cell's operation is performed: no cache holds the line. -/
def recalledCell (s : State) (g : GRef) (slot va : Nat) (x : Xlat) : State :=
  let s := recallWhere (aliasFill s slot va x) slot va x (fun e => !heldCommit s e.w.g.team)
  match s.team? g.team with
  | some t => dropStale s t.core (lineKey slot va)
  | none => s

theorem cellHome_mem_eq (s : State) (g : GRef) (slot va : Nat) (x : Xlat) (f : Nat → List Byte) : cellHome s g slot va (.mem x) f =
    performLine (recalledCell s g slot va x) slot x (cellWrite g slot va (f (natAt (recalledCell s g slot va x) (x.loc va) 8))) := rfl

theorem mem_recalledCell {s : State} {slot va : Nat} {x : Xlat} (g : GRef) (hev : s.ev = []) (hs : Claim.sole s slot va x) :
    (recalledCell s g slot va x).mem = s.mem := by
  have hfill := aliasFill_sole hs
  have hrecall : (recallWhere (aliasFill s slot va x) slot va x (fun e => !heldCommit s e.w.g.team)).mem = s.mem := by
    rw [mem_recallWhere (by rw [hfill]; exact hev), hfill]
  unfold recalledCell
  dsimp only
  split <;> exact hrecall

theorem still_cellHome (s : State) (g : GRef) (slot va : Nat) (x : Xlat) (f : Nat → List Byte) : (cellHome s g slot va (.mem x) f).still = s.still := by
  have hrecall : ∀ c, (recallWhere (aliasFill s slot va x) slot va x c).still = s.still := fun c =>
    (still_recallWhere _ slot va x c).trans (still_aliasFill s slot va x)
  rw [cellHome_mem_eq, still_performLine]
  unfold recalledCell
  dsimp only
  split <;> exact hrecall _

/-! ### The bytes of a cell -/

theorem find?_mapIdx_offset (b : List Byte) (o k : Nat) : (b.mapIdx (fun i y => (o + i, y))).find? (fun p => p.1 == k) =
    if o ≤ k then b[k - o]?.map (fun y => (k, y)) else none := by
  induction b generalizing o with
  | nil => simp
  | cons y r ih =>
    have hrest : r.mapIdx (fun i y => (o + (i + 1), y)) = r.mapIdx (fun i y => (o + 1 + i, y)) := by
      refine congrArg (fun f => r.mapIdx f) (funext fun i => funext fun y => ?_)
      rw [Nat.add_right_comm, Nat.add_assoc]
    rw [List.mapIdx_cons, List.find?_cons, hrest, ih]
    by_cases h : o = k
    · simp [h]
    · rw [show (o + 0 == k) = false by simpa using h]
      by_cases hk : o ≤ k
      · rw [if_pos hk, if_pos (by omega), show k - o = k - (o + 1) + 1 by omega, List.getElem?_cons_succ]
      · rw [if_neg hk, if_neg (by omega)]

/-- The byte that a write performed names is the one written. -/
theorem byteAt_performAt_in (s : State) {a j : Nat} (tagged : Bool) {w : GWrite} {p : Nat × Byte} (hj : j / 16 = a / 16) (ht : w.tstg = none)
    (hf : w.bytes.find? (fun q => q.1 == j % 16) = some p) : byteAt (performAt s a tagged w) j = p.2 := by
  have hbyte := bytesAt_getD (performAt s a tagged w) (granLoc a) 16 (j % 16) (by omega) unlistedByte
  rw [show granLoc a + j % 16 = j by unfold granLoc; omega] at hbyte
  have hgran : bytesAt (performAt s a tagged w) (granLoc a) 16 = overlay (granAt s a).bytes w.bytes := by
    have h := congrArg Gran.bytes (granAt_performAt_same s a tagged w)
    rw [Gran.write, ht] at h
    exact h
  have hold : (granAt s a).bytes[j % 16]? = some ((granAt s a).bytes[j % 16]'(by rw [granAt_bytes_length]; omega)) := List.getElem?_eq_getElem _
  rw [← hbyte, hgran, List.getD_eq_getElem?_getD, overlay_getElem?, hold, hf]
  rfl

/-- A cell's write puts its bytes where the cell lies. -/
theorem byteAt_cellWrite (s : State) {loc a slot va : Nat} (g : GRef) (tagged : Bool) (b : List Byte) (ha : a / 16 = loc / 16) (hva : va % 16 = loc % 16)
    (hb : loc % 16 + b.length ≤ 16) (j : Nat) : byteAt (performAt s a tagged (cellWrite g slot va b)) j = byteAt (s.putMem loc b) j := by
  have hfind := find?_mapIdx_offset b (va % 16) (j % 16)
  by_cases hj : loc ≤ j ∧ j < loc + b.length
  · have hin : (cellWrite g slot va b).bytes.find? (fun q => q.1 == j % 16) = some (j % 16, b[j - loc]'(by omega)) := by
      refine hfind.trans ?_
      rw [if_pos (by omega), show j % 16 - va % 16 = j - loc by omega, List.getElem?_eq_getElem (by omega)]
      rfl
    rw [byteAt_performAt_in s tagged (by omega) rfl hin, byteAt_putMem, if_pos hj, List.getD_eq_getElem?_getD, List.getElem?_eq_getElem (by omega)]
    rfl
  · rw [byteAt_putMem_out s (by omega)]
    refine byteAt_performAt s a tagged _ j ?_
    by_cases hg : j / 16 = a / 16
    · refine .inr (.inr (hfind.trans ?_))
      split
      · rw [List.getElem?_eq_none (by omega)]
        rfl
      · rfl
    · exact .inl hg

/-! ### The numbers of a cell (R161, R234) -/

theorem natAt_of_byteAt {s z : State} (h : ∀ j, byteAt z j = byteAt s j) (a n : Nat) : natAt z a n = natAt s a n := by
  simp only [natAt, bytesAt, h]

theorem leNat_append (l r : List Byte) : leNat (l ++ r) = leNat l + 256 ^ l.length * leNat r := by
  induction l with
  | nil => simp [leNat]
  | cons b l ih =>
    rw [List.cons_append, leNat, ih, leNat, List.length_cons, Nat.pow_succ]
    ring

theorem leNat_lt (l : List Byte) : leNat l < 256 ^ l.length := by
  induction l with
  | nil => simp [leNat]
  | cons b l ih =>
    rw [leNat, List.length_cons, Nat.pow_succ]
    have hb := b.isLt
    omega

theorem natAt_lt (s : State) (a n : Nat) : natAt s a n < 256 ^ n := by
  have h := leNat_lt (bytesAt s a n)
  rwa [bytesAt_length] at h

theorem natAt_add (s : State) (a m n : Nat) : natAt s a (m + n) = natAt s a m + 256 ^ m * natAt s (a + m) n := by
  have hsplit : bytesAt s a (m + n) = bytesAt s a m ++ bytesAt s (a + m) n := by
    simp only [bytesAt, List.range_add, List.map_append, List.map_map]
    refine congrArg _ (List.map_congr_left fun i _ => ?_)
    rw [Function.comp_apply, Nat.add_assoc]
  rw [natAt, hsplit, leNat_append, bytesAt_length, natAt, natAt]

/-- A cell's dword is its count, its errors and its status. -/
theorem cell_parts (s : State) (a : Nat) : natAt s a 8 % 2 ^ 32 = natAt s a 4 ∧ natAt s a 8 / 2 ^ 32 % 2 ^ 16 = natAt s (a + 4) 2 := by
  have hcount := natAt_add s a 4 4
  have herrs := natAt_add s (a + 4) 2 2
  have h4 := natAt_lt s a 4
  have h2 := natAt_lt s (a + 4) 2
  norm_num at hcount herrs h4 h2 ⊢
  omega

theorem putMem_append (s : State) (a : Nat) (l r : List Byte) : s.putMem a (l ++ r) = (s.putMem a l).putMem (a + l.length) r := by
  have hput : ∀ (m : SMap Byte) (a : Nat), putBytes m a (l ++ r) = putBytes (putBytes m a l) (a + l.length) r := by
    induction l with
    | nil => exact fun _ _ => rfl
    | cons b l ih =>
      intro m a
      rw [List.cons_append, putBytes, ih, putBytes, List.length_cons, Nat.add_right_comm, Nat.add_assoc]
  rw [State.putMem, hput]
  rfl

/-- What a cell reads as once its update is written (R299, R412, R161). -/
theorem natAt_cellBytes (s : State) (a add errs status old : Nat) :
    natAt (s.putMem a (cellBytes add errs status old)) a 4 = (old % 2 ^ 32 + add) % 2 ^ 32 ∧
    natAt (s.putMem a (cellBytes add errs status old)) (a + 4) 2 = min 0xFFFF (old / 2 ^ 32 % 2 ^ 16 + errs) ∧
    natAt (s.putMem a (cellBytes add errs status old)) (a + 6) 2 = status % 2 ^ 16 := by
  have hcells := putMem_append s a (natBytes 4 (old % 2 ^ 32 + add) ++ natBytes 2 (min 0xFFFF (old / 2 ^ 32 % 2 ^ 16 + errs))) (natBytes 2 status)
  have hafter := putMem_append s a (natBytes 4 (old % 2 ^ 32 + add)) (natBytes 2 (min 0xFFFF (old / 2 ^ 32 % 2 ^ 16 + errs)) ++ natBytes 2 status)
  rw [List.length_append, natBytes_length, natBytes_length] at hcells
  rw [natBytes_length, ← List.append_assoc] at hafter
  refine ⟨?count, ?errs, ?status⟩
  case count =>
    rw [cellBytes, List.append_assoc]
    exact natAt_putMem_append s a 4 _ _
  case errs =>
    rw [cellBytes, hafter, natAt_putMem_append]
    exact Nat.mod_eq_of_lt (by omega)
  case status =>
    rw [cellBytes, hcells]
    exact natAt_putMem _ (a + 6) 2 status

theorem cellBytes_length (add errs status old : Nat) : (cellBytes add errs status old).length = 8 := by
  simp [cellBytes, natBytes_length]

/-! ### The cell that a launch tells (R161) -/

/-- The update of a launch's completion cell. -/
def launchUpdate (s : State) (l : Launch) (add errs status : Nat) : CellUpd :=
  ⟨.launch l.id, l.home, l.ctx, ctxSlot s l.ctx, l.cell, add, errs, status, l.src⟩

theorem tellCell_eq (s : State) {l : Launch} (hn : l.cell ≠ 0) (add errs status : Nat) : tellCell s l add errs status =
    updateCell { s with cells := s.cells ++ [launchUpdate s l add errs status] } (launchUpdate s l add errs status) :=
  if_neg (by simpa using hn)

theorem byteAt_performLine (s : State) (slot : Nat) (x : Xlat) (w : GWrite) (j : Nat) :
    byteAt (performLine s slot x w) j = byteAt (performAt s (x.loc w.va) x.tagged w) j := by
  unfold performLine markDirty
  dsimp only
  split <;> rfl

theorem byteAt_putMem_of_mem {s z : State} (h : z.mem = s.mem) (a : Nat) (b : List Byte) (j : Nat) :
    byteAt (z.putMem a b) j = byteAt (s.putMem a b) j := by
  simp only [byteAt, State.putMem, h]

/-- A cell that no cache holds under another name, in device memory: its operation puts its bytes there. -/
theorem byteAt_cellHome {s : State} {slot va : Nat} {x : Xlat} (g : GRef) {f : Nat → List Byte} (hev : s.ev = []) (hs : Claim.sole s slot va x)
    (hh : x.host = false) (hal : va % 8 = 0) (hf : ∀ old, (f old).length = 8) (j : Nat) :
    byteAt (cellHome s g slot va (.mem x) f) j = byteAt (s.putMem (x.loc va) (f (natAt s (x.loc va) 8))) j := by
  have hmem := mem_recalledCell g hev hs
  have hloc : ∀ a, x.loc a = x.frame * 4096 + a % 4096 := fun a => by
    rw [Xlat.loc, hh]
    rfl
  have hplace := hloc va
  have hgran := hloc (va / 16 * 16)
  rw [cellHome_mem_eq, byteAt_performLine, natAt_of_mem hmem, ← byteAt_putMem_of_mem hmem]
  exact byteAt_cellWrite _ g x.tagged _ (by show x.loc (va / 16 * 16) / 16 = _; omega) (by omega) (by rw [hf]; omega) j

section Told

variable {v u : State} {l : Launch} {x : Xlat} (hn : l.cell ≠ 0) (hb : l.cell < 2 ^ 55)
  (hc : check189 v ⟨l.home * 64, l.ctx, ctxSlot v l.ctx⟩ (BitVec.ofNat 64 l.cell) 8 .rmw = (.mem x, u)) (hp : x.peer = false) (hh : x.host = false)
  (ho : engineOwns u (lineKey (ctxSlot v l.ctx) l.cell) = false)
include hn hb hc hp hh ho

/-- Telling a cell that nothing holds back is the operation at its home. -/
theorem tellCell_home (add errs status : Nat) : ∃ z : State, z = { u with cells := z.cells } ∧ ∃ cs : List CellUpd, tellCell v l add errs status =
    { cellHome z ⟨0, 0⟩ (ctxSlot v l.ctx) l.cell (.mem x) (cellBytes add errs status) with cells := cs } := by
  have hcheck := check189_cells v (v.cells ++ [launchUpdate v l add errs status]) ⟨l.home * 64, l.ctx, ctxSlot v l.ctx⟩ (BitVec.ofNat 64 l.cell) 8 .rmw
  rw [hc] at hcheck
  have hva : (launchUpdate v l add errs status).va / 2 ^ 48 ≠ 0xFD := by
    show l.cell / 2 ^ 48 ≠ 0xFD
    omega
  exact ⟨_, rfl, _, (tellCell_eq v hn add errs status).trans (updateCell_mem (n := l.id) rfl hva hcheck hp hh ho)⟩

theorem launches_tellCell (add errs status : Nat) : (tellCell v l add errs status).launches = v.launches := by
  obtain ⟨z, hz, cs, h⟩ := tellCell_home hn hb hc hp hh ho add errs status
  have hhome := congrArg State.launches (still_cellHome z ⟨0, 0⟩ (ctxSlot v l.ctx) l.cell x (cellBytes add errs status))
  have hcheck := congrArg State.launches (still_of_check189 hc)
  have hsame : z.launches = u.launches := by rw [hz]
  rw [h]
  exact (hhome.trans hsame).trans hcheck

theorem byteAt_tellCell (hev : u.ev = []) (hs : Claim.sole u (ctxSlot v l.ctx) l.cell x) (add errs status j : Nat) :
    byteAt (tellCell v l add errs status) j = byteAt (u.putMem (x.loc l.cell) (cellBytes add errs status (natAt u (x.loc l.cell) 8))) j := by
  obtain ⟨z, hz, cs, h⟩ := tellCell_home hn hb hc hp hh ho add errs status
  have hmem : z.mem = u.mem := by rw [hz]
  have hzev : z.ev = [] := by rw [hz]; exact hev
  have hzs : Claim.sole z (ctxSlot v l.ctx) l.cell x := by rw [hz]; exact hs
  have hal : l.cell % 8 = 0 := mod_of_ofNat (by omega) (aligned_of_check189_mem hc)
  have hhome := byteAt_cellHome ⟨0, 0⟩ hzev hzs hh hal (cellBytes_length add errs status) j
  rw [natAt_of_mem hmem, byteAt_putMem_of_mem hmem] at hhome
  have hsame : (tellCell v l add errs status).mem = (cellHome z ⟨0, 0⟩ (ctxSlot v l.ctx) l.cell (.mem x) (cellBytes add errs status)).mem := by rw [h]
  rw [← hhome, byteAt, hsame, byteAt]

/-- The count, the errors and the status of the cell told, and every other byte. -/
theorem tellCell_spec (hev : u.ev = []) (hs : Claim.sole u (ctxSlot v l.ctx) l.cell x) (add errs status : Nat) :
    natAt (tellCell v l add errs status) (x.loc l.cell) 4 = (natAt u (x.loc l.cell) 4 + add) % 2 ^ 32 ∧
    natAt (tellCell v l add errs status) (x.loc l.cell + 4) 2 = min 0xFFFF (natAt u (x.loc l.cell + 4) 2 + errs) ∧
    natAt (tellCell v l add errs status) (x.loc l.cell + 6) 2 = status % 2 ^ 16 ∧
    ∀ a, a < x.loc l.cell ∨ x.loc l.cell + 8 ≤ a → byteAt (tellCell v l add errs status) a = byteAt u a := by
  have hbytes := byteAt_tellCell hn hb hc hp hh ho hev hs add errs status
  obtain ⟨hcount, herrs, hstatus⟩ := natAt_cellBytes u (x.loc l.cell) add errs status (natAt u (x.loc l.cell) 8)
  obtain ⟨hlow, hmid⟩ := cell_parts u (x.loc l.cell)
  rw [hlow] at hcount
  rw [hmid] at herrs
  refine ⟨(natAt_of_byteAt hbytes _ 4).trans hcount, (natAt_of_byteAt hbytes _ 2).trans herrs,
    (natAt_of_byteAt hbytes _ 2).trans hstatus, fun a ha => ?_⟩
  rw [hbytes, byteAt_putMem_out u (by rw [cellBytes_length]; exact ha)]

end Told

/-- The claim on a launch's cells: the dependence's count and errors decide, and the completion is told in eight bytes. -/
theorem launchCells : Claim.LaunchCells := by
  refine ⟨fun s s1 l x hl hroll hw hid hd hc hown hcount hf => ⟨fun h => ?_, fun he hn => ?_⟩, fun s l hl hst hp he ht hev => ?_⟩
  · exact dependenceMet_eligible hl hroll hw hid hd hc hown hcount hf h
  · exact dependenceMet_refused hl hroll hw hid hd hc hown hcount he hn
  intro z v
  refine ⟨exec_launchComplete_waits hl hst hp he ht hev, fun h1 h2 h3 => ?_⟩
  have hrun := exec_launchComplete_leaves hl hst hp he ht hev h1 h2 h3
  refine ⟨not_mem_dropLaunch z l, entryOf_dropLaunch_fresh z, fun hc => ?_, fun x u hn hb hc hp hh ho hu hs => ?_⟩
  · rw [hrun, tellCell, if_pos (by simp [hc])]
  · obtain ⟨hcount, herrs, hstatus, hframe⟩ := tellCell_spec hn hb hc hp hh ho hu hs 1 l.faulted (if l.faulted == 0 then 0 else 0x10)
    refine ⟨_, hrun, ?_, hcount, herrs, hstatus.trans ?_, hframe⟩
    · rw [launches_tellCell hn hb hc hp hh ho]
      exact not_mem_dropLaunch z l
    · by_cases hf : l.faulted = 0 <;> simp [hf]

/-- Settles O44: a packet's checks in their order, a dependence by its cell's count and errors, and a completion by what the launch still
owes, each to the state that the model gives; the cell told is eight bytes in place. -/
theorem launches : Obligations.Launches := ⟨launchQueue, launchCells⟩

end Sys2Proof.Machine
end

section
/-! SUPPORT. Words across lanes (R177 to R186): ballots and votes over the contributing lanes, values moved from one lane to
another, and reductions and scans. -/

namespace Sys2Proof.Machine

open Sys2Proof

/-! ### Fixed-latency words and the registers that they write -/

section Fixed

variable {i : Instr} {s : State} {c : Cur} {h : Head} {ok : Cur → Bool} {f : Cur → List RegW}

theorem completes_fixed {P : Group → Prop} (hi : exec i s = fixedWord s h ok f) (hc : cur? s = some c) (hok : ok c = true)
    (hP : ∀ n g', Moved (Group.writes n c.g (f c)) g' → P g') : CompletesBirth i s c P := by
  obtain ⟨n, g', ho, hg, hm, -⟩ := fixedDone_spec h (f c) hc
  exact ⟨_, g', hi.trans (by simp only [fixedWord, onCur, hc, hok, if_true]), ho, hg, hP n g' hm⟩

/-- A word that writes a vector destination in the lanes of a set. -/
theorem completes_lanes {pair : Bool} {d : Nat} {m : Mask} {x : Nat → Nat} {t : Nat → TagSrc}
    (hi : exec i s = fixedWord s h ok f) (hc : cur? s = some c) (hok : ok c = true)
    (hf : f c = (lanesOf m).flatMap fun k => putV pair d k (x k) (t k)) :
    CompletesBirth i s c fun g' => WritesV c.g g' pair d m x fun k tag => ∃ n, tag = TagSrc.tag n (t k) :=
  completes_fixed hi hc hok fun n _ hm => writesV_of_moved (hf ▸ hm) fun _ _ _ => ⟨n, rfl⟩

theorem vec_of_lanes {t : VType} {vd : BitVec 8} {srcs : Nat → List TSrc} {x : Nat → Nat} {exc : Nat → Bool}
    (hi : exec i s = fixedWord s h ok f) (hc : cur? s = some c) (hok : ok c = true)
    (hf : f c = (lanesOf (c.active h)).flatMap fun k => laneV c h t vd k (srcs k) (x k, exc k)) :
    Claim.vec i s c h t vd srcs x exc :=
  completes_lanes hi hc hok hf

theorem completes_bool {q : BitVec 3} {x : Bool} (hi : exec i s = fixedWord s h ok f) (hc : cur? s = some c)
    (hok : ok c = true) (hf : f c = [.q q x]) : CompletesBirth i s c fun g' => WritesQ c.g g' q.toNat x :=
  completes_fixed hi hc hok fun _ _ hm => writesQ_of_moved (by rwa [hf] at hm)

theorem completes_word {d : BitVec 6} {x : Word} (hi : exec i s = fixedWord s h ok f) (hc : cur? s = some c)
    (hok : ok c = true) (hf : f c = [.s d x]) : CompletesBirth i s c fun g' => WritesS c.g g' d.toNat x :=
  completes_fixed hi hc hok fun _ _ hm => writesS_of_moved (by rwa [hf] at hm)

end Fixed

/-! ### Ballots, matches and votes (R177 to R180) -/

theorem testBit_maskOf (l : List Nat) {k : Nat} (hk : k < 64) : (maskOf l).toNat.testBit k = decide (k ∈ l) := by
  rw [BitVec.testBit_toNat, Bool.eq_iff_iff, maskOf_getLsbD l hk, decide_eq_true_eq]

/-- The set of a mask's lanes that pass a test. -/
theorem testBit_maskOf_filter (m : Mask) (p : Nat → Bool) {k : Nat} (hk : k < 64) :
    (maskOf ((lanesOf m).filter p)).toNat.testBit k = (m.getLsbD k && p k) := by
  rw [testBit_maskOf _ hk, Bool.eq_iff_iff, decide_eq_true_eq, List.mem_filter, lanesOf_mem, Bool.and_eq_true]
  simp only [hk, true_and]

theorem lanesOf_filter (m : Mask) (p : Nat → Bool) :
    (lanesOf m).filter p = (List.range 64).filter (fun k => m.getLsbD k && p k) := by
  rw [lanesOf, List.filter_filter]
  exact List.filter_congr fun k _ => Bool.and_comm ..

section Ballots

variable {s : State} {c : Cur} {h : Head} {vd : BitVec 8} {a b : Src}

theorem completes_vbal (hc : cur? s = some c) (hv : maskDestOk c vd = true) (ha : c.srcOk .n32 a = true)
    (hb : c.srcOk .n32 b = true) :
    CompletesBirth (.vbal h vd a b) s c fun g' => WritesV c.g g' (c.width == 64) vd.toNat (c.active h)
      (fun L => (maskOf ((lanesOf (c.active h)).filter fun K =>
        (readSrc c.g .n32 a K).testBit (readSrc c.g .n32 b L % 32))).toNat)
      fun k tag => ∃ n, tag = TagSrc.tag n (tagResult h.rule ((lanesOf (c.active h)).map (srcOf c.g .n32 a)) false
        (oldTag c.g (c.width == 64) vd.toNat k)) :=
  completes_lanes (ok := fun c => maskDestOk c vd && c.srcOk .n32 a && c.srcOk .n32 b) rfl hc (by simp [hv, ha, hb]) rfl

theorem completes_vmatch (hc : cur? s = some c) (hv : maskDestOk c vd = true) (ha : c.srcOk .n32 a = true) :
    CompletesBirth (.vmatch h vd a) s c fun g' => WritesV c.g g' (c.width == 64) vd.toNat (c.active h)
      (fun L => (maskOf ((lanesOf (c.active h)).filter fun K => readSrc c.g .n32 a K == readSrc c.g .n32 a L)).toNat)
      fun k tag => ∃ n, tag = TagSrc.tag n (tagResult h.rule [srcOf c.g .n32 a k] false
        (oldTag c.g (c.width == 64) vd.toNat k)) :=
  completes_lanes (ok := fun c => maskDestOk c vd && c.srcOk .n32 a) rfl hc (by simp [hv, ha]) rfl

/-- The q register of VVOTE .any and .all is the one that vd's low bits name. -/
theorem toNat_setWidth_three (d : BitVec 8) : (d.setWidth 3).toNat = d.toNat % 8 := BitVec.toNat_setWidth 3 d

theorem completes_vvote_any (hc : cur? s = some c) (p : BitVec 3) :
    CompletesBirth (.vvote h .any vd p) s c fun g' => WritesQ c.g g' (vd.toNat % 8)
      (decide (0 < ((lanesOf (c.active h)).filter fun k => (c.g.pred p.toNat).getLsbD k).length)) := by
  rw [← toNat_setWidth_three]
  exact completes_bool (ok := fun c => VoteF.any != .count || c.vOk vd.toNat false) rfl hc rfl rfl

theorem completes_vvote_all (hc : cur? s = some c) (p : BitVec 3) :
    CompletesBirth (.vvote h .all vd p) s c fun g' => WritesQ c.g g' (vd.toNat % 8)
      (decide (((lanesOf (c.active h)).filter fun k => (c.g.pred p.toNat).getLsbD k).length = (lanesOf (c.active h)).length)) := by
  rw [← toNat_setWidth_three, ← beq_eq_decide]
  exact completes_bool (ok := fun c => VoteF.all != .count || c.vOk vd.toNat false) rfl hc rfl rfl

theorem vec_vvote_count (hc : cur? s = some c) (hv : c.vOk vd.toNat false = true) (p : BitVec 3) :
    Claim.vec (.vvote h .count vd p) s c h .n32 vd (fun _ => [])
      (fun _ => ((lanesOf (c.active h)).filter fun k => (c.g.pred p.toNat).getLsbD k).length) (fun _ => false) :=
  vec_of_lanes (ok := fun c => VoteF.count != .count || c.vOk vd.toNat false) rfl hc hv rfl

end Ballots

/-- The claim on ballots, matches and votes: each is a set, or a number, of contributing lanes. -/
theorem ballots : Claim.Ballots := by
  intro s c h vd a b p hc ha
  refine ⟨fun hv hb => ⟨⟨_, fun L K hK => ?bal, completes_vbal hc hv ha hb⟩,
    ⟨_, fun L K hK => ?matched, completes_vmatch hc hv ha⟩⟩, ?votes⟩
  case bal => exact testBit_maskOf_filter _ _ hK
  case matched => rw [testBit_maskOf_filter _ _ hK, beq_eq_decide]
  case votes =>
    have hyes := lanesOf_filter (c.active h) fun k => (c.g.pred p.toNat).getLsbD k
    intro yes all
    rw [← show _ = yes from hyes]
    exact ⟨completes_vvote_any hc p, completes_vvote_all hc p, fun hv => vec_vvote_count hc hv p⟩

/-! ### Shuffles and lane moves (R181, R183) -/

/-- S(L): the lane asked for when it lies inside the group, and otherwise the lane itself. -/
theorem pick_lane {w L : Nat} (k : Int) (S : Nat) (hS : S = if 0 ≤ k && k < w then k.toNat else L) :
    (0 ≤ k ∧ k < w → (S : Int) = k) ∧ (¬(0 ≤ k ∧ k < w) → S = L) := by
  subst hS
  refine ⟨fun hin => ?_, fun hout => ?_⟩
  · rw [if_pos (by simpa using hin), Int.toNat_of_nonneg hin.1]
  · rw [if_neg (by simpa using hout)]

section Moves

variable {s : State} {c : Cur} {h : Head} {t : VType} {vd : BitVec 8} {a b x : Src}

theorem vec_vshfl (hc : cur? s = some c) (hv : c.vOk vd.toNat (VType.isF64 t) = true) (ha : c.srcOk t a = true)
    (hb : c.srcOk .n32 b = true) (f : ShflF) {S : Nat → Nat} (hS : ∀ L, shflLane f c.width L (readSrc c.g .n32 b L) = S L) :
    Claim.vec (.vshfl h f t vd a b) s c h t vd (fun L => [srcOf c.g t a (S L)]) (fun L => readSrc c.g t a (S L))
      (fun L => (srcOf c.g t a (S L)).exc) := by
  obtain rfl : (fun L => shflLane f c.width L (readSrc c.g .n32 b L)) = S := funext hS
  exact vec_of_lanes (ok := fun c => c.vOk vd.toNat (VType.isF64 t) && c.srcOk t a && c.srcOk .n32 b) rfl hc
    (by simp [hv, ha, hb]) rfl

theorem lanesOf_and_twoPow (m : Mask) (n : Nat) :
    lanesOf (m &&& BitVec.twoPow 64 n) = if m.getLsbD n = true then [n] else [] := by
  split
  case isTrue hm =>
    have hn : n < 64 := BitVec.lt_of_getLsbD hm
    rw [show m &&& BitVec.twoPow 64 n = BitVec.twoPow 64 n by rw [BitVec.and_twoPow, hm, if_pos rfl], lanesOf_twoPow hn]
  case isFalse hm => rw [BitVec.and_twoPow, if_neg hm]; exact lanesOf_zero

theorem completes_vlane_ins (hc : cur? s = some c) (hv : c.vOk vd.toNat (VType.isF64 t) = true) {n : Nat}
    (hn : readSrc c.g .n32 b 0 = n) :
    CompletesBirth (.vlane h .ins t vd a b) s c fun g' =>
      WritesV c.g g' (VType.isF64 t) vd.toNat (if n < c.width then c.active h &&& BitVec.twoPow 64 n else 0)
        (fun _ => readSrc c.g t a n) fun _ tag => ∃ i, tag = TagSrc.tag i (tagResult h.rule [srcOf c.g t a n]
          (srcOf c.g t a n).exc (oldTag c.g (VType.isF64 t) vd.toNat n)) := by
  subst hn
  refine completes_lanes (ok := fun c => if VLaneF.ins == .ext then c.srcOk .n32 a else c.vOk vd.toNat (VType.isF64 t)) rfl hc hv ?_
  by_cases hw : readSrc c.g .n32 b 0 < c.width
  · rw [if_pos hw, lanesOf_and_twoPow]
    by_cases hact : (c.active h).getLsbD (readSrc c.g .n32 b 0) = true <;> simp [hw, hact, laneV]
  · rw [if_neg hw, lanesOf_zero]
    simp [hw]

theorem completes_vlane_ext (hc : cur? s = some c) (ha : c.srcOk .n32 a = true) (t : VType) :
    let n := readSrc c.g .n32 b 0
    let z := if n < c.width then readSrc c.g .n32 a n else 0
    CompletesBirth (.vlane h .ext t vd a b) s c fun g' => WritesS c.g g' (vd.toNat % 64)
      (if t == .i32 then (BitVec.ofNat 32 z).signExtend 64 else BitVec.ofNat 64 z) := by
  rw [show vd.toNat % 64 = (vd.setWidth 6).toNat from (BitVec.toNat_setWidth 6 vd).symm]
  exact completes_word (ok := fun c => if VLaneF.ext == .ext then c.srcOk .n32 a else c.vOk vd.toNat (VType.isF64 t)) rfl hc ha rfl

end Moves

/-! ### The butterfly exchange (R182) -/

/-- The lower lane of a pair takes its partner's field moved up, the upper lane takes it moved down. -/
theorem testBit_xchValue (L j a p m : Nat) {i : Nat} (hi : i < 32) :
    (xchValue L j a p m).testBit i =
      if L &&& j = 0 then (a.testBit i && m.testBit i) || (decide (j ≤ i) && p.testBit (i - j) && m.testBit (i - j))
      else (a.testBit i && !m.testBit i) || (p.testBit (i + j) && m.testBit i) := by
  have hnot : (2 ^ 32 - 1 - m % 2 ^ 32).testBit i = !m.testBit i := by
    rw [show 2 ^ 32 - 1 - m % 2 ^ 32 = 2 ^ 32 - (m % 2 ^ 32 + 1) by omega,
      Nat.testBit_two_pow_sub_succ (Nat.mod_lt _ (by decide)), Nat.testBit_mod_two_pow]
    simp [hi]
  rw [xchValue]
  by_cases hlow : L &&& j = 0
  · rw [if_pos (beq_iff_eq.mpr hlow), if_pos hlow, Nat.testBit_mod_two_pow, decide_eq_true hi, Bool.true_and, Nat.testBit_or,
      Nat.testBit_and, Nat.testBit_shiftLeft, Nat.testBit_and, Bool.and_assoc]
  · rw [if_neg fun he => hlow (beq_iff_eq.mp he), if_neg hlow, Nat.testBit_or, Nat.testBit_and, hnot, Nat.testBit_and,
      Nat.testBit_shiftRight, Nat.add_comm]

/-- No exchange: the distance is none of the five, or the partner lies outside the group. -/
def xchFar (w j L : Nat) : Bool := !([1, 2, 4, 8, 16].contains j) || decide (L ^^^ j ≥ w)

theorem xchFar_iff {w j L : Nat} : xchFar w j L = true ↔ ¬(j = 1 ∨ j = 2 ∨ j = 4 ∨ j = 8 ∨ j = 16) ∨ w ≤ L ^^^ j := by
  simp [xchFar]

/-- What VXCH leaves in a lane. -/
def xchLane (g : Group) (w j : Nat) (a b : Src) (L : Nat) : Nat :=
  if xchFar w j L then readSrc g .n32 a L
  else xchValue L j (readSrc g .n32 a L) (readSrc g .n32 a (L ^^^ j)) (readSrc g .n32 b L)

/-- The values whose tags it takes. -/
def xchSrcs (g : Group) (w j : Nat) (a : Src) (L : Nat) : List TSrc :=
  if xchFar w j L then [srcOf g .n32 a L] else [srcOf g .n32 a L, srcOf g .n32 a (L ^^^ j)]

theorem vec_vxch {s : State} {c : Cur} {h : Head} {vd : BitVec 8} {a b x : Src} (hc : cur? s = some c)
    (hv : c.vOk vd.toNat false = true) (ha : c.srcOk .n32 a = true) (hb : c.srcOk .n32 b = true) :
    Claim.vec (.vxch h vd a b x) s c h .n32 vd (xchSrcs c.g c.width (readSrc c.g .n32 x 0) a)
      (xchLane c.g c.width (readSrc c.g .n32 x 0) a b) (fun _ => false) := by
  refine vec_of_lanes (ok := fun c => c.vOk vd.toNat false && c.srcOk .n32 a && c.srcOk .n32 b) rfl hc (by simp [hv, ha, hb]) ?_
  refine congrArg (List.flatMap · (lanesOf (c.active h))) (funext fun L => ?_)
  by_cases hfar : xchFar c.width (readSrc c.g .n32 x 0) L = true
  · rw [xchSrcs, xchLane, if_pos hfar, if_pos hfar]
    exact if_pos hfar
  · rw [xchSrcs, xchLane, if_neg hfar, if_neg hfar]
    exact if_neg hfar

/-- The claim on shuffles, exchanges and lane moves. -/
theorem shuffles : Claim.Shuffles := by
  intro s c h t vd a b x hc
  refine ⟨fun hv ha hb => ?moves, fun hv ha hb => ⟨_, _, fun L => ⟨fun hfar => ?far, fun hnear i hi => ?near⟩, vec_vxch hc hv ha hb⟩,
    fun hv => completes_vlane_ins hc hv rfl, fun ha => ⟨completes_vlane_ext hc ha .i32, completes_vlane_ext hc ha .n32⟩⟩
  case moves =>
    have shfl := fun f => vec_vshfl (h := h) hc hv ha hb f fun _ => rfl
    exact ⟨⟨_, fun L => pick_lane _ _ rfl, shfl .idx⟩, ⟨_, fun L => pick_lane _ _ rfl, shfl .up⟩,
      ⟨_, fun L => pick_lane _ _ rfl, shfl .down⟩, ⟨_, fun L => pick_lane _ _ rfl, shfl .xor⟩⟩
  case far => rw [xchLane, if_pos (xchFar_iff.mpr hfar)]
  case near =>
    rw [xchLane, if_neg fun hf => hnear (xchFar_iff.mp hf)]
    exact testBit_xchValue _ _ _ _ _ hi

/-! ### Words of 32 bits as numbers (R86) -/

section Words

variable {t : VType}

theorem typedConst_lt (ht : t = .i32 ∨ t = .n32) (neg : Bool) (m : Nat) (e : Int) : typedConst t neg m e < 2 ^ 32 := by
  rcases ht with rfl | rfl <;> exact Nat.mod_lt _ (by decide)

theorem readSrc_lt (ht : t = .i32 ∨ t = .n32) (g : Group) (a : Src) (lane : Nat) : readSrc g t a lane < 2 ^ 32 := by
  have hw : VType.isF64 t = false := by rcases ht with rfl | rfl <;> rfl
  cases a with
  | v r =>
    simp only [readSrc, hw, Bool.false_eq_true, if_false]
    exact (g.vreg r.toNat lane).isLt
  | s r =>
    simp only [readSrc, hw, Bool.false_eq_true, if_false]
    exact Nat.mod_lt _ (by decide)
  | c n =>
    rw [readSrc, inlineConst]
    split_ifs <;> exact typedConst_lt ht ..
  | lane => exact typedConst_lt ht ..

theorem num_n32 (x : Nat) : Claim.num .n32 x = x := if_pos (.inl rfl)

theorem num_i32 (x : Nat) : Claim.num .i32 x = if x < 2 ^ 31 then (x : Int) else x - 2 ^ 32 := by simp [Claim.num, VType.ew]

theorem elemInt_eq_num (ht : t = .i32 ∨ t = .n32) {x : Nat} (hx : x < 2 ^ 32) : elemInt t x = Claim.num t x := by
  rcases ht with rfl | rfl
  · rw [num_i32, show elemInt .i32 x = sgn 32 x from rfl, sgn, Nat.mod_eq_of_lt hx]
  · exact (num_n32 x).symm

theorem elemInt_readSrc (ht : t = .i32 ∨ t = .n32) (g : Group) (a : Src) (lane : Nat) :
    elemInt t (readSrc g t a lane) = Claim.num t (readSrc g t a lane) :=
  elemInt_eq_num ht (readSrc_lt ht g a lane)

/-- The bounds of a type of 32 bits. -/
def wordLo (t : VType) : Int := if t = .n32 then 0 else -2 ^ 31
def wordHi (t : VType) : Int := if t = .n32 then 2 ^ 32 - 1 else 2 ^ 31 - 1

theorem wrapN_spec (x : Int) : (wrapN 32 x : Int) = x % 2 ^ 32 := Int.toNat_of_nonneg (Int.emod_nonneg _ (by decide))

theorem wrapN_lt (x : Int) : wrapN 32 x < 2 ^ 32 := by
  have := wrapN_spec x
  omega

/-- A number in its type's range is what its word stands for. -/
theorem num_wrapN (ht : t = .i32 ∨ t = .n32) {x : Int} (hx : wordLo t ≤ x ∧ x ≤ wordHi t) : Claim.num t (wrapN 32 x) = x := by
  have hw := wrapN_spec x
  rcases ht with rfl | rfl
  · rw [show wordLo .i32 = -2 ^ 31 from rfl, show wordHi .i32 = 2 ^ 31 - 1 from rfl] at hx
    rw [num_i32]
    split_ifs <;> omega
  · rw [show wordLo .n32 = 0 from rfl, show wordHi .n32 = 2 ^ 32 - 1 from rfl] at hx
    rw [num_n32]
    omega

/-- `z` is the exact number `x` fitted to its type: clamped once, with `e` saying whether it had to be, or modulo 2^32. -/
def FitsWord (t : VType) (sat : Bool) (x : Int) (z : Nat) (e : Bool) : Prop :=
  if sat then Claim.num t z = max (wordLo t) (min (wordHi t) x) ∧ z < 2 ^ 32 ∧ (e = true ↔ ¬(wordLo t ≤ x ∧ x ≤ wordHi t))
  else (z : Int) = x % 2 ^ 32 ∧ e = false

theorem fitSum_sat (ht : t = .i32 ∨ t = .n32) (x : Int) :
    fitSum t true x = (wrapN 32 (clampI (wordLo t) (wordHi t) x), x != clampI (wordLo t) (wordHi t) x) := by
  rcases ht with rfl | rfl <;> simp [fitSum, fitElem, VType.natural, VType.ew, wordLo, wordHi]

theorem fitSum_wrap (ht : t = .i32 ∨ t = .n32) (x : Int) : fitSum t false x = (wrapN 32 x, false) := by
  rcases ht with rfl | rfl <;> simp [fitSum, fitElem, VType.ew]

theorem fitSum_fits (ht : t = .i32 ∨ t = .n32) (sat : Bool) (x : Int) : FitsWord t sat x (fitSum t sat x).1 (fitSum t sat x).2 := by
  cases sat with
  | false =>
    rw [fitSum_wrap ht]
    exact ⟨wrapN_spec x, rfl⟩
  | true =>
    have hle : wordLo t ≤ wordHi t := by rcases ht with rfl | rfl <;> decide
    rw [fitSum_sat ht, clampI_eq x hle]
    refine ⟨num_wrapN ht (by omega), wrapN_lt _, ?_⟩
    simp only [bne_iff_ne, ne_eq]
    omega

/-! ### Folds over the contributing lanes (R184) -/

theorem sum_elemInt_readSrc (ht : t = .i32 ∨ t = .n32) (g : Group) (a : Src) (l : List Nat) :
    ((l.map (readSrc g t a)).map (elemInt t)).foldl (· + ·) 0 = (l.map fun k => Claim.num t (readSrc g t a k)).sum := by
  rw [← List.sum_eq_foldl, List.map_map]
  exact congrArg List.sum (List.map_congr_left fun k _ => elemInt_readSrc ht g a k)

/-- The sum of some lanes' values, fitted. -/
theorem fitSum_readSrc_fits (ht : t = .i32 ∨ t = .n32) (sat : Bool) (g : Group) (a : Src) (l : List Nat) :
    let r := fitSum t sat (((l.map (readSrc g t a)).map (elemInt t)).foldl (· + ·) 0)
    FitsWord t sat (l.map fun k => Claim.num t (readSrc g t a k)).sum r.1 r.2 := by
  rw [sum_elemInt_readSrc ht]
  exact fitSum_fits ht sat _

/-- A fold of .min or .max ends with the value of the list that its order puts first; `less` is that order on two values. -/
theorem foldl_minmaxInt {β : Type} [LinearOrder β] (key : Int → β) {f : MinMaxF} (less : Nat → Nat → Prop) [DecidableRel less]
    (hf : ∀ a b, (minmaxInt f t a b).1 = if less b a then b else a)
    (hless : ∀ a b, less a b ↔ key (elemInt t a) < key (elemInt t b)) {l : List Nat} (hl : l ≠ []) :
    let z := l.foldl (fun a b => (minmaxInt f t a b).1) (l.headD 0)
    z ∈ l ∧ ∀ y ∈ l, key (elemInt t z) ≤ key (elemInt t y) := by
  obtain ⟨p, r, rfl⟩ := List.exists_cons_of_ne_nil hl
  simp only [hf, List.headD_cons, List.foldl_cons, ite_self]
  exact foldl_least (fun x => key (elemInt t x)) less hless r p

theorem foldl_minmaxInt_readSrc (ht : t = .i32 ∨ t = .n32) {β : Type} [LinearOrder β] (key : Int → β) {f : MinMaxF}
    (less : Nat → Nat → Prop) [DecidableRel less] (hf : ∀ a b, (minmaxInt f t a b).1 = if less b a then b else a)
    (hless : ∀ a b, less a b ↔ key (elemInt t a) < key (elemInt t b)) (g : Group) (a : Src) {l : List Nat} (hl : l ≠ []) :
    let z := (l.map (readSrc g t a)).foldl (fun a b => (minmaxInt f t a b).1) ((l.map (readSrc g t a)).headD 0)
    (∃ k ∈ l, z = readSrc g t a k) ∧ ∀ k ∈ l, key (Claim.num t z) ≤ key (Claim.num t (readSrc g t a k)) := by
  intro z
  obtain ⟨hmem, hle⟩ := foldl_minmaxInt key less hf hless (l := l.map (readSrc g t a)) (by simpa using hl)
  obtain ⟨j, hj, hz⟩ := List.mem_map.mp hmem
  refine ⟨⟨j, hj, hz.symm⟩, fun k hk => ?_⟩
  have := hle _ (List.mem_map_of_mem hk)
  rwa [← hz, elemInt_readSrc ht, elemInt_readSrc ht, hz] at this

theorem foldl_min_readSrc (ht : t = .i32 ∨ t = .n32) (g : Group) (a : Src) {l : List Nat} (hl : l ≠ []) :
    let z := (l.map (readSrc g t a)).foldl (fun a b => (minmaxInt .min t a b).1) ((l.map (readSrc g t a)).headD 0)
    (∃ k ∈ l, z = readSrc g t a k) ∧ ∀ k ∈ l, Claim.num t z ≤ Claim.num t (readSrc g t a k) :=
  foldl_minmaxInt_readSrc ht id (fun a b => elemInt t a < elemInt t b) (fun _ _ => rfl) (fun _ _ => Iff.rfl) g a hl

/-- The largest is the first in the opposite order. -/
theorem foldl_max_readSrc (ht : t = .i32 ∨ t = .n32) (g : Group) (a : Src) {l : List Nat} (hl : l ≠ []) :
    let z := (l.map (readSrc g t a)).foldl (fun a b => (minmaxInt .max t a b).1) ((l.map (readSrc g t a)).headD 0)
    (∃ k ∈ l, z = readSrc g t a k) ∧ ∀ k ∈ l, Claim.num t (readSrc g t a k) ≤ Claim.num t z :=
  foldl_minmaxInt_readSrc ht OrderDual.toDual (fun a b => elemInt t b < elemInt t a) (fun _ _ => rfl) (fun _ _ => Iff.rfl) g a hl

end Words

theorem testBit_foldl_and (l : List Nat) (m i : Nat) :
    (l.foldl (· &&& ·) m).testBit i = true ↔ m.testBit i = true ∧ ∀ x ∈ l, x.testBit i = true := by
  induction l generalizing m with
  | nil => simp
  | cons a r ih => rw [List.foldl_cons, ih, Nat.testBit_and, Bool.and_eq_true, List.forall_mem_cons, and_assoc]

theorem testBit_foldl_or (l : List Nat) (m i : Nat) :
    (l.foldl (· ||| ·) m).testBit i = true ↔ m.testBit i = true ∨ ∃ x ∈ l, x.testBit i = true := by
  induction l generalizing m with
  | nil => simp
  | cons a r ih => rw [List.foldl_cons, ih, Nat.testBit_or, Bool.or_eq_true, List.exists_mem_cons_iff, or_assoc]

/-- A bit of an exclusive or is set when it is set in an odd number of the values. -/
theorem testBit_foldl_xor (l : List Nat) (m i : Nat) :
    (l.foldl (· ^^^ ·) m).testBit i = (m.testBit i ^^ decide ((l.filter fun x => x.testBit i).length % 2 = 1)) := by
  induction l generalizing m with
  | nil => simp
  | cons a r ih =>
    rw [List.foldl_cons, ih, Nat.testBit_xor, List.filter_cons, Bool.xor_assoc]
    congr 1
    by_cases ha : a.testBit i = true
    · rw [if_pos ha, ha, List.length_cons, Bool.true_xor, ← decide_not, decide_eq_decide]
      omega
    · rw [if_neg ha, Bool.eq_false_of_not_eq_true ha, Bool.false_xor]

/-! ### Reductions and scans (R184, R186) -/

section Reduce

variable {s : State} {c : Cur} {h : Head} {t : VType} {vd : BitVec 8} {a : Src}

/-- VREDUCE of a function that does not use the tree. -/
theorem vec_vreduce (hc : cur? s = some c) (hv : c.vOk vd.toNat false = true)
    (ha : c.srcOk t a = true) {f : RedF} {m : FMod} {z : Nat} {e : Bool}
    (hr : ∀ nodes, reduceValue f t m c.width ((lanesOf (c.active h)).map (readSrc c.g t a)) nodes = (z, e)) :
    Claim.vec (.vreduce h f t vd a m) s c h t vd (fun _ => (lanesOf (c.active h)).map (srcOf c.g t a)) (fun _ => z)
      (fun _ => e) := by
  refine vec_of_lanes (ok := fun c => c.vOk vd.toNat false && c.srcOk t a) rfl hc (by simp [hv, ha]) ?_
  refine congrArg (List.flatMap · (lanesOf (c.active h))) (funext fun k => ?_)
  exact congrArg (laneV c h t vd k _) (hr _)

theorem vec_vscan (hc : cur? s = some c) (hv : c.vOk vd.toNat false = true) (ha : c.srcOk t a = true) {f : ScanF}
    {sat : Bool} {below : Nat → Nat → Bool}
    (hb : ∀ i k, (if f == .eadd then decide (k < i) else decide (k ≤ i)) = below i k) :
    let pre := fun i => (lanesOf (c.active h)).filter (below i)
    Claim.vec (.vscan h f t vd a sat) s c h t vd (fun i => (pre i).map (srcOf c.g t a))
      (fun i => (scanValue f t sat ((pre i).map (readSrc c.g t a))).1)
      (fun i => (scanValue f t sat ((pre i).map (readSrc c.g t a))).2) := by
  obtain rfl : (fun i k => if f == .eadd then decide (k < i) else decide (k ≤ i)) = below := funext fun i => funext (hb i)
  exact vec_of_lanes (ok := fun c => c.vOk vd.toNat false && c.srcOk t a) rfl hc (by simp [hv, ha]) rfl

end Reduce

/-- The claim on the integer reductions and the scans. -/
theorem reductions : Claim.Reductions := by
  intro s c h t vd a m sat hc ht hv ha act u lo hi fits red
  have hsum := fun b => fitSum_readSrc_fits ht b c.g a
  refine ⟨fun _ => ⟨_, _, hsum m.sat act, vec_vreduce hc hv ha fun _ => rfl⟩,
    fun hne => ⟨_, _, ⟨rfl, foldl_min_readSrc ht c.g a hne⟩, vec_vreduce hc hv ha fun _ => rfl⟩,
    fun hne => ⟨_, _, ⟨rfl, foldl_max_readSrc ht c.g a hne⟩, vec_vreduce hc hv ha fun _ => rfl⟩,
    fun _ => ⟨_, _, ⟨rfl, fun i hi => ?and⟩, vec_vreduce hc hv ha fun _ => rfl⟩,
    fun _ => ⟨_, _, ⟨rfl, fun i => ?or⟩, vec_vreduce hc hv ha fun _ => rfl⟩,
    fun _ => ⟨_, _, ⟨rfl, fun i => ?xor⟩, vec_vreduce hc hv ha fun _ => rfl⟩,
    ⟨_, _, fun k => hsum sat _, vec_vscan hc hv ha fun _ _ => rfl⟩,
    ⟨_, _, fun k => hsum sat _, vec_vscan hc hv ha fun _ _ => rfl⟩,
    ⟨_, fun k hk => ?imax, vec_vscan hc hv ha fun _ _ => rfl⟩⟩
  case and =>
    rw [testBit_foldl_and, Nat.testBit_two_pow_sub_one, decide_eq_true hi]
    simp [act]
  case or => simp [testBit_foldl_or, act]
  case xor =>
    rw [testBit_foldl_xor, List.filter_map, List.length_map, Nat.zero_testBit, Bool.false_xor]
    rfl
  case imax =>
    have hself : k ∈ act.filter fun i => decide (i ≤ k) := List.mem_filter.mpr ⟨hk, by simp⟩
    obtain ⟨⟨j, hj, hz⟩, hle⟩ := foldl_max_readSrc ht c.g a (List.ne_nil_of_mem hself)
    obtain ⟨hact, hjk⟩ := List.mem_filter.mp hj
    exact ⟨⟨j, hact, of_decide_eq_true hjk, hz⟩, fun i hi hik => hle i (List.mem_filter.mpr ⟨hi, decide_eq_true hik⟩)⟩

/-- Settles O14: ballots and votes are sets and numbers of contributing lanes, moves read the lane that they name, and reductions
and scans are folds over the contributing lanes. -/
theorem laneExchange : Obligations.LaneExchange := ⟨ballots, shuffles, reductions⟩

end Sys2Proof.Machine
end

section
/-! SUPPORT. The canonical form of memory (R201, R338, R353), which every step keeps: one lemma for each function of the model that
answers a state, in the model's order, from the operations that write memory, tags and poison up to the step. A function that runs a
continuation, or folds one over a list, keeps the form when the continuation does. -/

namespace Sys2Proof.Machine
open Sys2Proof

/-- Updates of other fields keep the form. -/
theorem MemOk.same {s : State}
    {agenda' : List Instr} {freeN' : Nat} {seqN' : Nat} {turn' : Nat} {now' : Option Now} {issuing' : List GRef}
    {served' : List (Nat × Nat)} {time' : Word} {skew' : Word} {blocks' : SMap (Nat × Nat)} {cdir' : List CLine}
    {hdir' : List HLine} {ev' : List EvWrite} {stale' : List StaleLine} {icache' : List ILine} {tlb' : List Xlat}
    {walks' : List WalkEnt} {aliases' : List (Nat × Nat × Nat)} {dirty' : List (Nat × Nat)} {redQ' : List RedReq}
    {faults' : List FaultReq} {faultSeq' : SMap Nat} {banks' : SMap BankMode} {roster' : SMap Entry} {nameCnt' :
    Word} {serial' : BitVec 40} {devno' : BitVec 16} {accel' : BitVec 10} {nameCache' : List (Nat × Name)}
    {launches' : List Launch} {teams' : List Team} {dispPos' : SMap Nat} {accs' : SMap Acc} {cmds' : List Cmd}
    {spills' : List Spill} {fetched' : List (Nat × Nat × List Byte)} {mmas' : List Mma} {runs' : List Run}
    {heldMsgs' : List Held} {readies' : List (Nat × Nat × Nat)} {cells' : List CellUpd} {peerOut' : List PeerOut}
    {peerIn' : List PeerReq} {kept' : List Kept} {peerTimeouts' : SMap Nat} {peerMake' : SMap Nat} {peerSeq' :
    SMap Nat} {msgSeq' : SMap Nat} {portsUp' : List Nat} {endpoints' : List Endpoint} {errBuf' : List (BitVec
    512)} {errSeq' : Nat} {ctrl' : Ctrl} {counters' : SMap Nat} {dumped' : Bool} {rollback' : List Nat} {measure'
    : List (BitVec 256)} {islands' : List Island} {hostOut' : List HostOut} {hostHeld' : List HostReq} {upsets' :
    List Upset} {stopped' : Bool}
    (h : MemOk s) :
    MemOk { s with
      agenda := agenda', freeN := freeN', seqN := seqN', turn := turn', now := now', issuing := issuing', served :=
      served', time := time', skew := skew', blocks := blocks', cdir := cdir', hdir := hdir', ev := ev', stale :=
      stale', icache := icache', tlb := tlb', walks := walks', aliases := aliases', dirty := dirty', redQ := redQ',
      faults := faults', faultSeq := faultSeq', banks := banks', roster := roster', nameCnt := nameCnt', serial :=
      serial', devno := devno', accel := accel', nameCache := nameCache', launches := launches', teams := teams',
      dispPos := dispPos', accs := accs', cmds := cmds', spills := spills', fetched := fetched', mmas := mmas', runs
      := runs', heldMsgs := heldMsgs', readies := readies', cells := cells', peerOut := peerOut', peerIn := peerIn',
      kept := kept', peerTimeouts := peerTimeouts', peerMake := peerMake', peerSeq := peerSeq', msgSeq := msgSeq',
      portsUp := portsUp', endpoints := endpoints', errBuf := errBuf', errSeq := errSeq', ctrl := ctrl', counters :=
      counters', dumped := dumped', rollback := rollback', measure := measure', islands := islands', hostOut :=
      hostOut', hostHeld := hostHeld', upsets := upsets', stopped := stopped' } := h

theorem MemOk.out {α : Type} {p : α × State} {a : α} {t : State} (h : MemOk p.2) (e : p = (a, t)) : MemOk t := by
  subst e; exact h

theorem MemOk.outl {α : Type} {p : State × α} {a : α} {t : State} (h : MemOk p.1) (e : p = (t, a)) : MemOk t := by
  subst e; exact h

theorem MemOk.out₂ {α β : Type} {p : α × β × State} {a : α} {b : β} {t : State} (h : MemOk p.2.2) (e : p = (a, b, t)) :
    MemOk t := by
  subst e; exact h

theorem MemOk.ofDone {y : Sync} {t : State} (h : MemOk y.state) (e : y = .done t) : MemOk t := by subst e; exact h

theorem MemOk.ofPark {y : Sync} {t : State} (h : MemOk y.state) (e : y = .park t) : MemOk t := by subst e; exact h

theorem MemOk.ofWait {y : Sync} {w : Why} {t : State} (h : MemOk y.state) (e : y = .wait w t) : MemOk t := by
  subst e; exact h

/-- An outcome's state, when there is one, is in canonical form. -/
def OutOk (o : Host.Outcome State Fault Refusal) : Prop := ∀ t, o = .next t → MemOk t

theorem MemOk.next {s : State} (h : MemOk s) : OutOk (.next s) := by
  intro t e; cases e; exact h

/-- A fold keeps what its step keeps. -/
theorem foldl_keeps {α β : Type} {P : β → Prop} {f : β → α → β} (hf : ∀ b a, P b → P (f b a)) {l : List α} {b : β}
    (h : P b) : P (l.foldl f b) :=
  List.foldlRecOn l f h fun b hb a _ => hf b a hb

variable {s : State} {c : Cur} {hd : Head}

/-! ### Lookup and update -/

theorem MemOk.modLaunch {id : Nat} {f : Launch → Launch} (h : MemOk s) :
    MemOk (Machine.State.modLaunch s id f) := h.same

theorem MemOk.onCur {f : Cur → State} (h : MemOk s) (hf : ∀ c, MemOk (f c)) : OutOk (Machine.onCur s f) := by
  unfold Machine.onCur
  refine MemOk.next ?_
  split
  · exact hf _
  · exact h

theorem MemOk.fresh (h : MemOk s) : MemOk (Machine.State.fresh s).2 := h.same

theorem MemOk.free (h : MemOk s) : MemOk (Machine.State.free s).2 := h.same

/-! ### Ending a word and a clause -/

theorem MemOk.standAt {r : GRef} (h : MemOk s) : MemOk (Machine.standAt s r) := h.same

theorem MemOk.leaveClause {r : GRef} (h : MemOk s) : MemOk (Machine.leaveClause s r) := by
  unfold Machine.leaveClause
  extract_lets base s₁
  split
  · split
    · exact h.same.same.standAt
    · exact h.same.same
  · exact h.same.same

theorem MemOk.endClause {dest : Nat → Lane → Lane} (h : MemOk s) :
    MemOk (Machine.endClause s c dest) := h.same.leaveClause

theorem MemOk.waitFor {w : Why} (h : MemOk s) : MemOk (Machine.waitFor s c w) := h.same

theorem MemOk.wake {r : GRef} (h : MemOk s) : MemOk (Machine.wake s r) := h.same.same

theorem MemOk.blockWord {w : Why} (h : MemOk s) : MemOk (Machine.blockWord s c w) := by
  unfold Machine.blockWord
  extract_lets s₁
  have h₁ : MemOk s₁ := by
    unfold s₁
    split
    · exact h.standAt
    · exact h
  exact h₁.same

theorem MemOk.finish (h : MemOk s) : MemOk (Machine.finish s c hd) := by
  unfold Machine.finish
  extract_lets s₁
  split
  · exact h.same.endClause
  · exact h.same.same

theorem MemOk.regWord {f : Cur → Group → Group} (h : MemOk s) :
    OutOk (Machine.regWord s hd f) := h.onCur (fun _ => h.same.finish)

/-! ### Faults that end the team (R79, R324, R334) -/

theorem MemOk.endTeam {team : Nat} {e : Ending} (h : MemOk s) : MemOk (Machine.endTeam s team e) := h.same

theorem MemOk.wordFault {cause : Cause} (h : MemOk s) : MemOk (Machine.wordFault s c cause) := h.endTeam

theorem MemOk.plainFault {team : Nat} {cause : Cause} (h : MemOk s) :
    MemOk (Machine.plainFault s team cause) := h.endTeam

/-! ### User traps -/

theorem MemOk.splitClause {stay : Mask} {go : Nat → Lane → Lane} (h : MemOk s) :
    MemOk (Machine.splitClause s c stay go) := h.endClause

theorem MemOk.raiseTrapsGo {go : Nat → Lane → Lane} {imm : BitVec 8} {tpc ssyn : Word} {sunit : Lane32}
    {stile : Nat × Nat × Nat} {ts : List LaneTrap} (h : MemOk s) :
    MemOk (Machine.raiseTrapsGo go s c imm tpc ssyn sunit stile ts) := by
  unfold Machine.raiseTrapsGo
  split
  · exact h
  · extract_lets ts₁ same all req
    split
    · exact h.endTeam
    · exact h.splitClause.same

theorem MemOk.raiseTraps {imm : BitVec 8} {tpc ssyn : Word} {sunit : Lane32} {stile : Nat × Nat × Nat}
    {ts : List LaneTrap} (h : MemOk s) :
    MemOk (Machine.raiseTraps s c imm tpc ssyn sunit stile ts) := h.raiseTrapsGo

theorem MemOk.trapWord {ts : List LaneTrap} (h : MemOk s) : MemOk (Machine.trapWord s c ts) := h.raiseTraps

theorem MemOk.trapAll {m : Mask} {cause : Cause} {ttag : Tag} {va : Word} (h : MemOk s) :
    MemOk (Machine.trapAll s c m cause ttag va) := h.trapWord

theorem MemOk.parkLanes {m : Mask} (h : MemOk s) : MemOk (Machine.parkLanes s c m) := by
  unfold Machine.parkLanes
  split
  · exact h
  · exact h.same

theorem MemOk.settle {parks : Mask} {traps : List LaneTrap} (h : MemOk s) :
    MemOk (Machine.settle s c hd parks traps) := by
  unfold Machine.settle
  extract_lets s₁
  split
  · split
    · exact h.parkLanes.leaveClause
    · exact h.parkLanes.finish
  · exact h.parkLanes.trapWord

theorem MemOk.settleGo {parks : Mask} {traps : List LaneTrap} {go : Nat → Lane → Lane} (h : MemOk s) :
    MemOk (Machine.settleGo s c hd parks traps go) := by
  unfold Machine.settleGo
  extract_lets s₁
  split
  · split
    · exact h.parkLanes.leaveClause
    · exact h.parkLanes.same.endClause
  · exact h.parkLanes.raiseTrapsGo

/-! ### Error records -/

theorem MemOk.postRecord {r : ErrRec} (h : MemOk s) : MemOk (Machine.postRecord s r) := by
  unfold Machine.postRecord
  split <;> exact h.same

/-! ### Births (R347 to R349) -/

theorem MemOk.intern {b : Birth} {site : Word} {first : Bool} (h : MemOk s) :
    MemOk (Machine.intern s b site first).2 := by
  unfold Machine.intern
  split
  · split
    · split
      exact h.same
    · exact h
  · exact h

theorem MemOk.internBirth {b : Birth} {site : Word} (h : MemOk s) :
    MemOk (Machine.internBirth s b site).2 := h.intern

theorem MemOk.internFor {r : GRef} {site : Word} (h : MemOk s) :
    MemOk (Machine.internFor s r site).2 := h.internBirth

theorem MemOk.bornHandleOf {r : GRef} {site : Word} {ws : List RegW} {first : Bool} (h : MemOk s) :
    MemOk (Machine.bornHandleOf s r site ws first).2 := by
  unfold Machine.bornHandleOf
  split
  · exact h.intern
  · exact h

theorem MemOk.bornHandle {r : GRef} {site : Word} {ws : List RegW} (h : MemOk s) :
    MemOk (Machine.bornHandle s r site ws).2 := h.bornHandleOf

/-! ### Results -/

theorem MemOk.fixedDone {ws : List RegW} (h : MemOk s) : MemOk (Machine.fixedDone s c hd ws) := by
  unfold Machine.fixedDone
  split
  exact (h.bornHandle.out ‹_›).same.finish

theorem MemOk.addPend {q : ResQ} {ready : Bool} {ws : List RegW} (h : MemOk s) :
    MemOk (Machine.addPend s c q ready ws) := h.same.same

theorem MemOk.countPend {counted : Bool} (h : MemOk s) : MemOk (Machine.countPend s c counted) := by
  unfold Machine.countPend
  split
  · exact h.same
  · exact h

theorem MemOk.resultDone {q : ResQ} {ws : List RegW} (h : MemOk s) :
    MemOk (Machine.resultDone s c hd q ws) := by
  unfold Machine.resultDone
  split
  · exact h.blockWord
  · exact h.addPend.finish

theorem MemOk.resultWord {f : Cur → List RegW} (h : MemOk s) :
    OutOk (Machine.resultWord s hd f) := h.onCur (fun _ => h.resultDone)

theorem MemOk.fixedWord {ok : Cur → Bool} {f : Cur → List RegW} (h : MemOk s) :
    OutOk (Machine.fixedWord s hd ok f) := by
  unfold Machine.fixedWord
  refine h.onCur fun c => ?_
  split
  · exact h.fixedDone
  · exact h.wordFault

/-! ### Random draws (R102, R103) -/

theorem MemOk.countDraws {m : Mask} (h : MemOk s) : MemOk (Machine.countDraws s c m) := h.same

/-! ### Monitored units (R105 to R107) -/

theorem MemOk.spendUpsets {core : Nat} {m : Mask} (h : MemOk s) :
    MemOk (Machine.spendUpsets s core m) := h.same

theorem MemOk.monitored {major kind : Nat} {draws : Bool} {lanes : List MonLane} {out : MonLane → List RegW}
    (h : MemOk s) :
    MemOk (Machine.monitored s c hd major kind draws lanes out) := by
  unfold Machine.monitored
  extract_lets lanes₁ bad good ws
  split
  extract_lets s₁ s₂ s₃ ttag
  have h₁ : MemOk s₁ := (h.bornHandle.out ‹_›).spendUpsets
  have h₂ : MemOk s₂ := by
    unfold s₂
    split
    · exact h₁.countDraws
    · exact h₁
  have h₃ : MemOk s₃ := h₂.same
  clear_value bad s₃ ttag
  split
  · exact h₃.finish
  · split
    · exact h₃
    · extract_lets ssyn sunit s₄
      have h₄ : MemOk s₄ := h₃.postRecord
      exact h₄.raiseTraps

/-! ### Scalar instructions (R131 to R133) -/

theorem MemOk.sWord {d : BitVec 6} {f : Group → Word} (h : MemOk s) :
    OutOk (Machine.sWord s hd d f) := h.regWord

theorem MemOk.execNop (h : MemOk s) : OutOk (Machine.execNop hd s) := h.regWord

theorem MemOk.execSmovReg {d a : BitVec 6} (h : MemOk s) : OutOk (Machine.execSmovReg hd d a s) := h.sWord

theorem MemOk.execSmovImm {d : BitVec 6} {imm : BitVec 32} (h : MemOk s) :
    OutOk (Machine.execSmovImm hd d imm s) := h.sWord

theorem MemOk.execSmovHi {d : BitVec 6} {imm : BitVec 32} (h : MemOk s) :
    OutOk (Machine.execSmovHi hd d imm s) := h.sWord

theorem MemOk.execSadd {f : FitS} {d a : BitVec 6} {b : SB} (h : MemOk s) :
    OutOk (Machine.execSadd hd f d a b s) := h.sWord

theorem MemOk.execSsub {f : FitS} {d a : BitVec 6} {b : SB} (h : MemOk s) :
    OutOk (Machine.execSsub hd f d a b s) := h.sWord

theorem MemOk.execSmul {f : MulF} {d a : BitVec 6} {b : SB} (h : MemOk s) :
    OutOk (Machine.execSmul hd f d a b s) := h.sWord

theorem MemOk.execSdiv {f : DivF} {d a : BitVec 6} {b : SB} (h : MemOk s) :
    OutOk (Machine.execSdiv hd f d a b s) := h.sWord

theorem MemOk.execSlog {f : LogF} {d a : BitVec 6} {b : SB} (h : MemOk s) :
    OutOk (Machine.execSlog hd f d a b s) := h.sWord

theorem MemOk.execSsh {f : ShF} {d a : BitVec 6} {b : SB} (h : MemOk s) :
    OutOk (Machine.execSsh hd f d a b s) := h.sWord

theorem MemOk.execScmp {f : SCmpF} {q : BitVec 3} {a : BitVec 6} {b : SB} (h : MemOk s) :
    OutOk (Machine.execScmp hd f q a b s) := h.regWord

theorem MemOk.execSsel {c : BitVec 3} {d a : BitVec 6} {b : SB} (h : MemOk s) :
    OutOk (Machine.execSsel hd c d a b s) := h.sWord

theorem MemOk.execSbit {f : SBitF} {d a : BitVec 6} {w : SBitW} (h : MemOk s) :
    OutOk (Machine.execSbit hd f d a w s) := h.sWord

theorem MemOk.execSminmax {f : SMinMaxF} {d a : BitVec 6} {b : SB} (h : MemOk s) :
    OutOk (Machine.execSminmax hd f d a b s) := h.sWord

theorem MemOk.execQlog {f : QLogF} {d a b : BitVec 3} (h : MemOk s) :
    OutOk (Machine.execQlog hd f d a b s) := h.regWord

/-! ### Vector integer instructions (R85 to R90) -/

theorem MemOk.vecAB {t : VType} {vd : BitVec 8} {a : Src} {b : VB} {f : Nat → Nat → Nat × Bool}
    (h : MemOk s) :
    OutOk (Machine.vecAB s hd t vd a b f) := h.fixedWord

theorem MemOk.vecA {t : VType} {vd : BitVec 8} {a : Src} {f : Nat → Nat × Bool} (h : MemOk s) :
    OutOk (Machine.vecA s hd t vd a f) := h.fixedWord

theorem MemOk.vecABC {t : VType} {vd : BitVec 8} {a b c : Src} {old : Bool}
    {f : Nat → Nat → Nat → Nat → Nat × Bool} (h : MemOk s) :
    OutOk (Machine.vecABC s hd t vd a b c old f) := h.fixedWord

theorem MemOk.execVadd {f : FitV} {t : VType} {vd : BitVec 8} {a : Src} {b : VB} (h : MemOk s) :
    OutOk (Machine.execVadd hd f t vd a b s) := h.vecAB

theorem MemOk.execVsub {f : FitV} {t : VType} {vd : BitVec 8} {a : Src} {b : VB} (h : MemOk s) :
    OutOk (Machine.execVsub hd f t vd a b s) := h.vecAB

theorem MemOk.execVmul {f : MulF} {t : VType} {vd : BitVec 8} {a : Src} {b : VB} (h : MemOk s) :
    OutOk (Machine.execVmul hd f t vd a b s) := h.vecAB

theorem MemOk.execVmad {t : VType} {vd : BitVec 8} {a b c : Src} (h : MemOk s) :
    OutOk (Machine.execVmad hd t vd a b c s) := h.vecABC

theorem MemOk.execVlog {f : LogF} {t : VType} {vd : BitVec 8} {a : Src} {b : VB} (h : MemOk s) :
    OutOk (Machine.execVlog hd f t vd a b s) := h.vecAB

theorem MemOk.execVsh {f : ShF} {t : VType} {vd : BitVec 8} {a : Src} {b : VB} (h : MemOk s) :
    OutOk (Machine.execVsh hd f t vd a b s) := h.vecAB

theorem MemOk.execVminmax {f : MinMaxF} {t : VType} {vd : BitVec 8} {a : Src} {b : VB} (h : MemOk s) :
    OutOk (Machine.execVminmax hd f t vd a b s) := h.vecAB

theorem MemOk.execVabs {f : AbsF} {t : VType} {vd : BitVec 8} {a : Src} (h : MemOk s) :
    OutOk (Machine.execVabs hd f t vd a s) := h.vecA

theorem MemOk.execVcmp {f : CmpF} {t : VType} {p : BitVec 3} {a : Src} {b : VB} (h : MemOk s) :
    OutOk (Machine.execVcmp hd f t p a b s) := h.fixedWord

theorem MemOk.execVsel {t : VType} {vd : BitVec 8} {a b : Src} {p : BitVec 3} (h : MemOk s) :
    OutOk (Machine.execVsel hd t vd a b p s) := h.fixedWord

theorem MemOk.execVbit {f : VBitF} {t : VType} {vd : BitVec 8} {a : Src} (h : MemOk s) :
    OutOk (Machine.execVbit hd f t vd a s) := h.vecA

theorem MemOk.execVbfe {t : VType} {vd : BitVec 8} {a b c : Src} (h : MemOk s) :
    OutOk (Machine.execVbfe hd t vd a b c s) := h.vecABC

theorem MemOk.execVbfi {t : VType} {vd : BitVec 8} {a b c : Src} (h : MemOk s) :
    OutOk (Machine.execVbfi hd t vd a b c s) := h.vecABC

theorem MemOk.execVmov {t : VType} {vd : BitVec 8} {f : VMovF} (h : MemOk s) :
    OutOk (Machine.execVmov hd t vd f s) := h.fixedWord

theorem MemOk.execVdiv {f : DivF} {vd : BitVec 8} {a b : Src} (h : MemOk s) :
    OutOk (Machine.execVdiv hd f vd a b s) := by
  unfold Machine.execVdiv
  refine h.onCur fun c => ?_
  split
  · exact h.resultDone
  · exact h.wordFault

/-! ### Vector floating point (R91 to R96), dot products (R97 to R99), SFU (R100) and RNG (R104) -/

theorem MemOk.fpAB {major kind : Nat} {op : FpOp} {t : VType} {vd : BitVec 8} {a : Src} {b : VB} {m : FMod}
    (h : MemOk s) :
    OutOk (Machine.fpAB s hd major kind op t vd a b m) := by
  unfold Machine.fpAB
  refine h.onCur fun c => ?_
  split
  · exact h.monitored
  · exact h.wordFault

theorem MemOk.execFadd {t : VType} {vd : BitVec 8} {a : Src} {b : VB} {m : FMod} (h : MemOk s) :
    OutOk (Machine.execFadd hd t vd a b m s) := h.fpAB

theorem MemOk.execFsub {t : VType} {vd : BitVec 8} {a : Src} {b : VB} {m : FMod} (h : MemOk s) :
    OutOk (Machine.execFsub hd t vd a b m s) := h.fpAB

theorem MemOk.execFmul {t : VType} {vd : BitVec 8} {a : Src} {b : VB} {m : FMod} (h : MemOk s) :
    OutOk (Machine.execFmul hd t vd a b m s) := h.fpAB

theorem MemOk.execFfma {f : FmaF} {t : VType} {vd : BitVec 8} {a b c : Src} {m : FMod} (h : MemOk s) :
    OutOk (Machine.execFfma hd f t vd a b c m s) := by
  unfold Machine.execFfma
  refine h.onCur fun c₁ => ?_
  split
  · exact h.monitored
  · exact h.wordFault

theorem MemOk.execFminmax {f : FMinMaxF} {t : VType} {vd : BitVec 8} {a : Src} {b : VB} (h : MemOk s) :
    OutOk (Machine.execFminmax hd f t vd a b s) := h.vecAB

theorem MemOk.execFcmp {f : FCmpF} {t : VType} {p : BitVec 3} {a : Src} {b : VB} (h : MemOk s) :
    OutOk (Machine.execFcmp hd f t p a b s) := h.fixedWord

theorem MemOk.execFcls {t : VType} {p : BitVec 3} {a : Src} {mask : BitVec 10} (h : MemOk s) :
    OutOk (Machine.execFcls hd t p a mask s) := h.fixedWord

/-! ### FDOT -/

theorem MemOk.execFdot {f : FDotF} {vd : BitVec 8} {a b c : Src} {m : FMod} (h : MemOk s) :
    OutOk (Machine.execFdot hd f vd a b c m s) := by
  unfold Machine.execFdot
  refine h.onCur fun c₁ => ?_
  split
  · exact h.monitored
  · exact h.wordFault

/-! ### SFU and RNG -/

theorem MemOk.execSfu {f : SfuF} {vd : BitVec 8} {a b : Src} {ftz : Bool} (h : MemOk s) :
    OutOk (Machine.execSfu hd f vd a b ftz s) := by
  unfold Machine.execSfu
  refine h.onCur fun c => ?_
  split
  · exact h.resultDone
  · exact h.wordFault

theorem MemOk.execRng {f : RngF} {vd : BitVec 8} (h : MemOk s) : OutOk (Machine.execRng hd f vd s) := by
  unfold Machine.execRng
  refine h.onCur fun c => ?_
  split
  · exact h.countDraws.fixedDone
  · exact h.wordFault

/-! ### Cross-lane instructions (R173 to R186) -/

theorem MemOk.execVbal {vd : BitVec 8} {a b : Src} (h : MemOk s) :
    OutOk (Machine.execVbal hd vd a b s) := h.fixedWord

theorem MemOk.execVvote {f : VoteF} {dst : BitVec 8} {p : BitVec 3} (h : MemOk s) :
    OutOk (Machine.execVvote hd f dst p s) := h.fixedWord

theorem MemOk.execVshfl {f : ShflF} {t : VType} {vd : BitVec 8} {a b : Src} (h : MemOk s) :
    OutOk (Machine.execVshfl hd f t vd a b s) := h.fixedWord

theorem MemOk.execVxch {vd : BitVec 8} {a b x : Src} (h : MemOk s) :
    OutOk (Machine.execVxch hd vd a b x s) := h.fixedWord

/-! ### Reductions and scans -/

theorem MemOk.execVreduce {f : RedF} {t : VType} {vd : BitVec 8} {a : Src} {m : FMod} (h : MemOk s) :
    OutOk (Machine.execVreduce hd f t vd a m s) := h.fixedWord

theorem MemOk.execVscan {f : ScanF} {t : VType} {vd : BitVec 8} {a : Src} {sat : Bool} (h : MemOk s) :
    OutOk (Machine.execVscan hd f t vd a sat s) := h.fixedWord

theorem MemOk.execVmatch {vd : BitVec 8} {a : Src} (h : MemOk s) :
    OutOk (Machine.execVmatch hd vd a s) := h.fixedWord

theorem MemOk.execVlane {f : VLaneF} {t : VType} {vd : BitVec 8} {a b : Src} (h : MemOk s) :
    OutOk (Machine.execVlane hd f t vd a b s) := h.fixedWord

/-! ### Islands (R26, R445) -/

theorem MemOk.wakeIslands (h : MemOk s) : MemOk (Machine.wakeIslands s) := h.same

theorem MemOk.walkNew {slot va : Nat} {k : AK} (h : MemOk s) :
    MemOk (Machine.translate.walkNew slot va k s).2 := by
  unfold Machine.translate.walkNew
  split
  · exact h
  · extract_lets e e' x upd
    exact (h.putMem ..).same

/-! ### Translation (R208 to R211) -/

theorem MemOk.translate {slot va : Nat} {k : AK} (h : MemOk s) :
    MemOk (Machine.translate s slot va k).2 := by
  unfold Machine.translate
  split
  · split
    · exact h
    · exact h.walkNew
  · exact h.walkNew

/-! ### Checks (R189) -/

theorem MemOk.check189 {w : Who} {va : Word} {align : Nat} {k : AK} (h : MemOk s) :
    MemOk (Machine.check189 s w va align k).2 := by
  unfold Machine.check189
  split
  · exact h
  · split
    · exact h
    · split <;> exact h
  · split
    · exact h
    · split <;> exact h.translate.out ‹_›

/-! ### The fault path (R214 to R217) -/

theorem MemOk.raiseFault {die : Nat} {core : Option Nat} {w : Who} {va : Nat} {k : AK} {who : Waiter}
    (h : MemOk s) :
    MemOk (Machine.raiseFault s die core w va k who) := by
  unfold Machine.raiseFault
  split <;> exact h.same

theorem MemOk.coreFault {w : Who} {va : Nat} {k : AK} {who : Waiter} (h : MemOk s) :
    MemOk (Machine.coreFault s w va k who) := h.raiseFault

/-! ### Directories (R191) -/

theorem MemOk.homeLine {line : Nat} (h : MemOk s) : MemOk (Machine.homeLine s line) := by
  unfold Machine.homeLine
  extract_lets on rest
  clear_value on rest
  split <;> exact h.same

theorem MemOk.setClusters {line : Nat} {f : CLine → Option CLine} (h : MemOk s) :
    MemOk (Machine.setClusters s line f) := h.same.homeLine

theorem MemOk.holdCopy {core slot va leaf : Nat} {st : MState} (h : MemOk s) :
    MemOk (Machine.holdCopy s core slot va leaf st) := by
  unfold Machine.holdCopy
  extract_lets line
  split
  · exact h.setClusters
  · exact h.same.homeLine

theorem MemOk.dropL1 {core line : Nat} (h : MemOk s) : MemOk (Machine.dropL1 s core line) := h.setClusters

theorem MemOk.dropCopies {line : Nat} {keep : Option Nat} (h : MemOk s) :
    MemOk (Machine.dropCopies s line keep) := h.setClusters

theorem MemOk.trimLines {lines : List Nat} (h : MemOk s) :
    MemOk (Machine.trimLines s lines) := foldl_keeps (fun _ _ h₁ => h₁.setClusters) h

/-! ### Copies, ownership and recalls (R191 to R194, R209) -/

theorem MemOk.markDirty {slot va : Nat} (h : MemOk s) : MemOk (Machine.markDirty s slot va) := by
  unfold Machine.markDirty
  extract_lets k
  split
  · exact h
  · exact h.same

theorem MemOk.performLine {slot : Nat} {x : Xlat} {w : GWrite} (h : MemOk s) :
    MemOk (Machine.performLine s slot x w) := (h.performAt ..).markDirty

theorem MemOk.freshCluster {line : Nat} {f : Nat → Bool} (h : MemOk s) :
    MemOk (Machine.freshCluster s line f) := h.same

theorem MemOk.invalidateCopies {slot va : Nat} {x : Xlat} {f : Nat → Bool} {fromCluster : Option Nat}
    (h : MemOk s) :
    MemOk (Machine.invalidateCopies s slot va x f fromCluster) := h.freshCluster.same

theorem MemOk.dropStale {core line : Nat} (h : MemOk s) : MemOk (Machine.dropStale s core line) := h.same

theorem MemOk.performEv {line : Nat} {x : Xlat} {f : EvWrite → Bool} (h : MemOk s) :
    MemOk (Machine.performEv s line x f) := by
  unfold Machine.performEv
  extract_lets on ws s₁ s₂
  have h₂ : MemOk s₁ := foldl_keeps (fun _ _ h₃ => h₃.performLine) h
  have h₅ : MemOk s₂ := foldl_keeps (fun _ _ h₆ => h₆.dropStale) h₂
  exact h₅.same

theorem MemOk.grantOwned {core line : Nat} {x : Xlat} (h : MemOk s) :
    MemOk (Machine.grantOwned s core line x) :=
      h.invalidateCopies.dropStale.performEv.dropCopies.holdCopy.markDirty

theorem MemOk.recallWhere {slot va : Nat} {x : Xlat} {f : EvWrite → Bool} (h : MemOk s) :
    MemOk (Machine.recallWhere s slot va x f) := by
  unfold Machine.recallWhere
  extract_lets line s₁
  have h₁ : MemOk s₁ := h.invalidateCopies
  exact h₁.performEv.dropCopies

theorem MemOk.recallName {line : Nat} (h : MemOk s) : MemOk (Machine.recallName s line) := by
  unfold Machine.recallName
  extract_lets s₁ s₂
  have h₁ : MemOk s₁ := by
    unfold s₁
    split
    · split
      · split
        · exact h.translate.out ‹_›
        · exact (h.translate.out ‹_›).performEv
      · exact h.translate.out ‹_›
    · exact h
  exact h₁.dropCopies.same

theorem MemOk.aliasFill {slot va : Nat} {x : Xlat} (h : MemOk s) :
    MemOk (Machine.aliasFill s slot va x) := by
  unfold Machine.aliasFill
  extract_lets p name
  split
  · split
    · exact h
    · exact h.recallName.same
  · exact h.same

theorem MemOk.fillRead {core slot va : Nat} {x : Xlat} {ro : Bool} (h : MemOk s) :
    MemOk (Machine.fillRead s core slot va x ro) := by
  unfold Machine.fillRead
  extract_lets s₁ line others own s₂
  split
  · exact h.aliasFill
  · exact h.aliasFill.setClusters.holdCopy.freshCluster

/-! ### Peer requests -/

theorem MemOk.sendPeer {dst : PeerDst} {core : Nat} {r : BitVec 352} {x : Xlat} {va : Nat} {op : PeerOp}
    (h : MemOk s) :
    MemOk (Machine.sendPeer s dst core r x va op) := h.same

theorem MemOk.peerStore {core : Nat} {w : GWrite} {x : Xlat} (h : MemOk s) :
    MemOk (Machine.peerStore s core w x) := by
  unfold Machine.peerStore
  extract_lets e
  refine foldl_keeps (fun _ _ h₁ => ?_) h
  split
  · exact h₁.sendPeer
  · exact h₁.same

/-! ### Draining (R192) -/

theorem MemOk.enterEv {core : Nat} {w : GWrite} {leaf : Nat} (h : MemOk s) :
    MemOk (Machine.enterEv s core w leaf) := h.holdCopy.same.markDirty

theorem MemOk.drainWrite {core : Nat} {w : GWrite} (h : MemOk s) : MemOk (Machine.drainWrite s core w) := by
  unfold Machine.drainWrite
  split
  · exact h
  · exact h.performAt ..
  · split
    · split
      · split
        · exact (h.translate.out ‹_›).same
        · exact (h.translate.out ‹_›).peerStore
      · extract_lets s₁
        split
        · exact (h.translate.out ‹_›).aliasFill.performLine
        · exact (h.translate.out ‹_›).aliasFill.enterEv
    · exact (h.translate.out ‹_›).enterEv

theorem MemOk.drainList {core : Nat} {ws : List GWrite} (h : MemOk s) : MemOk
    (Machine.drainList core ws s).2 := by
  induction ws generalizing s with
  | nil => exact h
  | cons w r ih =>
    unfold Machine.drainList
    split
    · exact h
    · exact ih h.drainWrite

theorem MemOk.drainGroup {r : GRef} (h : MemOk s) : MemOk (Machine.drainGroup s r) := by
  unfold Machine.drainGroup
  split
  · exact h.drainList.same
  · exact h

/-! ### Reductions at memory (R226, R227) -/

theorem MemOk.wordTag {b : Birth} {site : Word} {first : Bool} {t : TagSrc} (h : MemOk s) :
    MemOk (Machine.wordTag s b site first t).2 := by
  unfold Machine.wordTag
  split
  · exact h
  · split
    exact h.intern.out ‹_›

theorem MemOk.redWrite {q : RedReq} {g : Gran} (h : MemOk s) : MemOk (Machine.redWrite s q g).2 := by
  unfold Machine.redWrite
  extract_lets n m
  split
  extract_lets src
  split
  extract_lets s₁
  have h₁ : MemOk s₁ := by
    unfold s₁
    split
    · exact (h.wordTag.out ‹_›).same
    · exact h.wordTag.out ‹_›
  exact h₁

theorem MemOk.applyRed {q : RedReq} (h : MemOk s) : MemOk (Machine.applyRed s q) := by
  unfold Machine.applyRed
  extract_lets drop older line
  split
  · exact h
  · split
    · exact h.same
    · extract_lets loc
      split
      · exact h
      · split
        exact ((h.redWrite.out ‹_›).performAt ..).same
    · split
      · exact h
      · split
        · exact (h.translate.out ‹_›).coreFault
        · split
          · split
            · split
              · exact h.translate.out ‹_›
              · exact (h.translate.out ‹_›).sendPeer.same
            · exact (h.translate.out ‹_›).same.same
          · extract_lets s₁ s₂ g
            split
            exact ((h.translate.out ‹_›).aliasFill.recallWhere.dropStale.redWrite.out ‹_›).performLine.same

theorem MemOk.applyRedId {id : Nat} (h : MemOk s) : MemOk (Machine.applyRedId s id) := by
  unfold Machine.applyRedId
  split
  · exact h.applyRed
  · exact h

theorem MemOk.applyReds {r : GRef} (h : MemOk s) :
    MemOk (Machine.applyReds s r) := foldl_keeps (fun _ _ h₁ => h₁.applyRedId) h

/-! ### Ownership (R191, R192, R336) -/

theorem MemOk.sendHeld {core line : Nat} {x : Xlat} (h : MemOk s) :
    MemOk (Machine.sendHeld s core line x) := by
  unfold Machine.sendHeld
  refine foldl_keeps (fun _ _ h₁ => ?_) h
  split
  · exact h₁
  · exact h₁.same.peerStore.trimLines

theorem MemOk.grantOne {core line : Nat} (h : MemOk s) : MemOk (Machine.grantOne s core line) := by
  unfold Machine.grantOne
  extract_lets ws
  split
  · exact h
  · split
    · exact foldl_keeps (fun _ _ h₁ => h₁.coreFault) (h.translate.out ‹_›)
    · split
      · exact (h.translate.out ‹_›).sendHeld
      · extract_lets s₂
        have h₃ : MemOk s₂ := foldl_keeps (fun _ _ h₄ => h₄.applyRedId) (h.translate.out ‹_›)
        split
        · exact h₃
        · exact h₃.aliasFill.grantOwned

theorem MemOk.grantLine {core line : Nat} (h : MemOk s) : MemOk (Machine.grantLine s core line) := by
  unfold Machine.grantLine
  split
  · exact h.grantOne
  · extract_lets ts es s₁
    have h₂ : MemOk s₁ := foldl_keeps (fun _ _ h₃ => h₃.grantOne) h
    split
    · exact h₂.grantOne
    · refine foldl_keeps (fun _ _ h₄ => ?_) h
      split
      · exact h₄
      · split
        · exact h₄
        · exact h₄.coreFault

theorem MemOk.grantAll {core : Nat} (h : MemOk s) :
    MemOk (Machine.grantAll s core) := foldl_keeps (fun _ _ h₁ => h₁.grantLine) h

theorem MemOk.promoteLine {core line : Nat} {x : Xlat} (h : MemOk s) :
    MemOk (Machine.promoteLine s core line x) := h.invalidateCopies.same.dropStale.setClusters

theorem MemOk.promoteLines {core : Nat} (h : MemOk s) : MemOk (Machine.promoteLines s core) := by
  unfold Machine.promoteLines
  extract_lets mine
  refine foldl_keeps (fun _ _ h₁ => ?_) h
  split
  · exact h₁
  · split
    · exact (h₁.translate.out ‹_›).coreFault
    · split
      · exact (h₁.translate.out ‹_›).sendHeld
      · exact (h₁.translate.out ‹_›).promoteLine

/-! ### Releases and acquires -/

theorem MemOk.parkOnOwn {r : GRef} {core : Nat} {x : Mask} (h : MemOk s) :
    MemOk (Machine.parkOnOwn s r core x) := h.same

theorem MemOk.pushOwn {r : GRef} (h : MemOk s) :
    MemOk (Machine.pushOwn s r) := h.drainGroup.applyReds.drainGroup

theorem MemOk.releaseAt {r : GRef} {core : Nat} {x : Mask} {sc : Scope} (h : MemOk s) :
    MemOk (Machine.releaseAt s r core x sc).state := by
  unfold Machine.releaseAt
  split
  · exact h
  · extract_lets s₁ s₂ ownEv ownRed
    have h₁ : MemOk s₂ := by
      unfold s₂
      split
      · exact h.pushOwn
      · exact h.pushOwn
      · exact h.pushOwn.promoteLines
      · exact h.pushOwn.grantAll
    split
    · exact h.pushOwn
    · split
      · exact h₁.parkOnOwn
      · clear_value s₂ ownEv ownRed
        split
        · exact h₁
        · exact h₁
        · split <;> exact h₁

theorem MemOk.acquireAt {core : Nat} {sc : Scope} (h : MemOk s) : MemOk (Machine.acquireAt s core sc) := by
  unfold Machine.acquireAt
  split
  · exact h
  · exact h
  · exact h.same
  · exact h.same

/-! ### Commits (R335 to R337) -/

theorem MemOk.enterCommitted {core : Nat} {w : GWrite} (h : MemOk s) :
    MemOk (Machine.enterCommitted s core w) := by
  unfold Machine.enterCommitted
  split
  · split
    · exact (h.translate.out ‹_›).same
    · exact (h.translate.out ‹_›).aliasFill.enterEv
  · exact (h.translate.out ‹_›).enterEv

theorem MemOk.commitTeam {team : Nat} (h : MemOk s) : MemOk (Machine.commitTeam s team) := by
  unfold Machine.commitTeam
  split
  · exact h
  · exact (foldl_keeps (fun _ _ h₁ => h₁.enterCommitted) h.same).grantAll

theorem MemOk.pinFirst (h : MemOk s) : MemOk (Machine.pinFirst s c).state := by
  unfold Machine.pinFirst
  extract_lets s₁
  have h₁ : MemOk s₁ := by
    unfold s₁
    split
    · exact h.commitTeam
    · split
      · exact h.grantAll
      · exact h
  split
  · exact h₁.same
  · split
    · exact h₁.same
    · exact h₁

theorem MemOk.afterSync {y : Sync} {k : State → State} (h : MemOk y.state) (hk : ∀ x, MemOk x → MemOk (k x)) :
    MemOk (Machine.afterSync c y k) := by
  unfold Machine.afterSync
  split
  · exact hk _ h
  · exact h.settle
  · exact h.blockWord

theorem MemOk.withRelease {o : MOrd} {k : State → State} (h : MemOk s) (hk : ∀ x, MemOk x → MemOk (k x)) :
    MemOk (Machine.withRelease s c o k) := by
  unfold Machine.withRelease
  split
  · exact h.releaseAt.afterSync (fun x h₁ => hk _ h₁)
  · exact hk _ h

theorem MemOk.withAcquire {o : MOrd} (h : MemOk s) : MemOk (Machine.withAcquire s c o) := by
  unfold Machine.withAcquire
  split
  · exact h.acquireAt
  · exact h

/-! ### Peer failures (R424) -/

theorem MemOk.deliverFail {s t : State} {release : Bool} {wins : List Nat} (h : MemOk s)
    (e : Machine.deliverFail s c release wins = some t) : MemOk t := by
  unfold Machine.deliverFail at e
  split at e
  · cases e
  · cases e
    exact h.same.trapAll

theorem MemOk.memWord {ok : Cur → Bool} {o : MOrd} {vas : Cur → List Nat} {k : Cur → State} (h : MemOk s)
    (hk : ∀ x, MemOk (k x)) :
    OutOk (Machine.memWord s hd ok o vas k) := by
  unfold Machine.memWord
  refine h.onCur fun c => ?_
  extract_lets x
  split
  · exact h.wordFault
  · split
    · exact h.deliverFail ‹_›
    · exact hk _

/-! ### One access -/

theorem MemOk.sendFirst {r : GRef} {w : Who} {x : Xlat} {va : Nat} (h : MemOk s) :
    MemOk (Machine.sendFirst s r w x va) := by
  unfold Machine.sendFirst
  extract_lets s₁
  have h₁ : MemOk s₁ := by
    unfold s₁
    split
    · split
      · exact h.commitTeam
      · exact h
    · exact h
  exact h₁.pushOwn.sendHeld

theorem MemOk.readFor {r : GRef} {w : Who} {va : Word} {align n : Nat} {k : AK} {ro : Bool} {who : Waiter}
    (h : MemOk s) :
    MemOk (Machine.readFor s r w va align n k ro who).2 := by
  unfold Machine.readFor
  extract_lets line
  split
  · exact h.check189.out ‹_›
  · exact h.check189.out ‹_›
  · split
    · exact h.check189.out ‹_›
    · exact (h.check189.out ‹_›).coreFault
  · split
    · exact h.check189.out ‹_›
    · exact (h.check189.out ‹_›).applyReds
  · split
    · split
      · exact h.check189.out ‹_›
      · split
        · exact h.check189.out ‹_›
        · extract_lets s₁
          split <;> exact (h.check189.out ‹_›).sendFirst
    · split
      · exact h.check189.out ‹_›
      · extract_lets s₂ s₃
        have h₁ : MemOk s₂ := by
          unfold s₂
          split
          · exact h.check189.out ‹_›
          · exact (h.check189.out ‹_›).applyReds
        split
        · split
          · exact h₁.coreFault
          · exact h₁
        · exact h₁.fillRead

theorem MemOk.waitRoom {core : Nat} {who : Waiter} (h : MemOk s) : MemOk (Machine.waitRoom s core who) := by
  unfold Machine.waitRoom
  split
  · exact h.same
  · exact h

theorem MemOk.storeFor {w : Who} {va : Word} {align : Nat} {k : AK} {team : Nat} {who : Waiter}
    {extra : List Nat} (h : MemOk s) :
    MemOk (Machine.storeFor s w va align k team who extra).2 := by
  unfold Machine.storeFor
  split
  · exact h.check189.out ‹_›
  · exact h.check189.out ‹_›
  · exact h.check189.out ‹_›
  · exact h.check189.out ‹_›
  · split
    · exact (h.check189.out ‹_›).waitRoom
    · exact (h.check189.out ‹_›).coreFault

/-! ### Poison (R338 to R340) -/

theorem MemOk.eatPoison {parks : Mask} {traps ps : List LaneTrap} (h : MemOk s) :
    MemOk (Machine.eatPoison s c hd parks traps ps) := by
  unfold Machine.eatPoison
  split
  · exact h.settle
  · split
    · exact h.endTeam
    · exact h.settle

/-! ### Pushing stores -/

theorem MemOk.queueWrite {held : Bool} {w : GWrite} (h : MemOk s) :
    MemOk (Machine.queueWrite s c held w) := by
  unfold Machine.queueWrite
  split
  · exact h.same
  · exact h.same.same

/-! ### Loads -/

theorem MemOk.loadLane {m : MemOp} {n : Nat} {ro : Bool} {f : Nat → Gran → Nat → List RegW} {a : LoadAcc}
    {i : Nat} (h : MemOk a.s) :
    MemOk (Machine.loadLane c m n ro f a i).s := by
  unfold Machine.loadLane
  extract_lets va
  split
  · exact h.readFor.out ‹_›
  · exact h.readFor.out ‹_›
  · exact h.readFor.out ‹_›
  · split <;> exact h.readFor.out ‹_›
  · split <;> exact h.readFor.out ‹_›

theorem MemOk.loadAcc_start (h : MemOk s) : MemOk (Machine.LoadAcc.start s).s := h

theorem MemOk.sendLoads {core n : Nat} {dst : Nat → Word → PeerDst} {l : List (Nat × Xlat × Word)}
    (h : MemOk s) :
    MemOk (Machine.sendLoads s core n dst l) := by
  unfold Machine.sendLoads
  refine foldl_keeps (fun _ _ h₁ => ?_) h
  split
  · exact h₁.sendPeer
  · exact h₁

theorem MemOk.loadDone {o : MOrd} {n : Nat} {dst : Nat → Nat → Word → PeerDst} {a : LoadAcc} (h : MemOk a.s) :
    MemOk (Machine.loadDone c hd o n dst a) := by
  unfold Machine.loadDone
  split
  · exact h.blockWord
  · exact h.blockWord
  · split
    · exact h.blockWord
    · extract_lets dead id s s₁ s₂ s₃
      have h₁ : MemOk s := by
        unfold s
        split
        · exact h
        · exact h.addPend
      have h₂ : MemOk s₃ := by
        unfold s₃
        split
        · exact h₁.sendLoads.withAcquire.waitFor
        · exact h₁.sendLoads.withAcquire
      exact h₂.eatPoison

theorem MemOk.execVld {z : MSize} {o : MOrd} {d : BitVec 8} {m : MemOp} (h : MemOk s) :
    OutOk (Machine.execVld hd z o d m s) := by
  unfold Machine.execVld
  exact h.memWord
    (fun x => (foldl_keeps (P := fun a : LoadAcc => MemOk a.s) (fun a _ h₁ => h₁.loadLane)
    h.loadAcc_start).loadDone)

theorem MemOk.execSld {z : MSize} {o : MOrd} {d : BitVec 6} {m : MemOp} (h : MemOk s) :
    OutOk (Machine.execSld hd z o d m s) := by
  unfold Machine.execSld
  extract_lets n
  refine h.memWord fun x => ?_
  extract_lets va
  split
  · exact h.blockWord
  · exact (h.readFor.out ‹_›).trapAll
  · exact (h.readFor.out ‹_›).settle
  · exact (h.readFor.out ‹_›).blockWord
  · split
    · exact (h.readFor.out ‹_›).trapAll
    · split
      · exact (h.readFor.out ‹_›).blockWord
      · extract_lets s' s'₁
        refine MemOk.finish ?_
        split
        · exact (h.readFor.out ‹_›).addPend.sendPeer.waitFor
        · exact (h.readFor.out ‹_›).addPend.sendPeer
  · split
    · exact (h.readFor.out ‹_›).eatPoison
    · exact (h.readFor.out ‹_›).addPend.withAcquire.finish

theorem MemOk.dropFetched {owner : Nat} (h : MemOk s) : MemOk (Machine.dropFetched s owner) := h.same

theorem MemOk.askPeers {dst : Nat → PeerDst} {core : Nat} {l : List (Nat × Nat × Xlat)} (h : MemOk s) :
    MemOk (Machine.askPeers s dst core l) := by
  unfold Machine.askPeers
  refine foldl_keeps (fun _ _ h₁ => ?_) h
  split
  · exact h₁
  · split
    · exact h₁.sendPeer
    · exact h₁

/-! ### Stores -/

theorem MemOk.storeAcc_start (h : MemOk s) : MemOk (Machine.StoreAcc.start s).s := h

theorem MemOk.storeLane {n : Nat} {addr : Nat → Word} {itag : Nat → Tag} {data : Nat → Nat × List (Nat × Tag)}
    {a : StoreAcc} {i : Nat} (h : MemOk a.s) :
    MemOk (Machine.storeLane c n addr itag data a i).s := by
  unfold Machine.storeLane
  extract_lets va
  split
  · exact h.storeFor.out ‹_›
  · exact h.storeFor.out ‹_›
  · split
    split
    · exact h.storeFor.out ‹_›
    · extract_lets noWin extra
      split <;> exact h.storeFor.out ‹_›

theorem MemOk.storeDone {a : StoreAcc} (h : MemOk a.s) :
    MemOk (Machine.storeDone c hd a) := (foldl_keeps (fun _ _ h₁ => h₁.queueWrite) h).settle

theorem MemOk.storeWord {plan : State → Cur → StoreAcc} (h : MemOk s)
    (hplan : ∀ x, MemOk x → ∀ y, MemOk (plan x y).s) :
    MemOk (Machine.storeWord s c hd plan) := by
  unfold Machine.storeWord
  extract_lets a
  have h₁ : MemOk a.s := hplan _ h _
  split
  · exact h₁.pinFirst.afterSync (fun x h₂ => (hplan _ h₂ _).storeDone)
  · exact h₁.storeDone

theorem MemOk.execVst {z : MSize} {o : MOrd} {d : BitVec 8} {m : MemOp} (h : MemOk s) :
    OutOk (Machine.execVst hd z o d m s) := h.memWord
      (fun _ => h.withRelease (fun _ h₁ => h₁.storeWord (fun _ h₂ _ => foldl_keeps (P := fun a : StoreAcc =>
      MemOk a.s) (fun _ _ h₃ => h₃.storeLane) h₂.storeAcc_start)))

theorem MemOk.scalarStore {va : Word} {n x : Nat} {k : State → Cur → State} (h : MemOk s)
    (hk : ∀ x, MemOk x → ∀ y, MemOk (k x y)) :
    MemOk (Machine.scalarStore s c hd va n x k) := by
  unfold Machine.scalarStore
  split
  · exact (h.storeFor.out ‹_›).trapAll
  · exact (h.storeFor.out ‹_›).settle
  · extract_lets noWin lane w go
    split
    · exact (h.storeFor.out ‹_›).trapAll
    · split
      · exact (h.storeFor.out ‹_›).pinFirst.afterSync (fun x₁ h₁ => hk _ h₁.queueWrite _)
      · exact hk _ ((h.storeFor.out ‹_›).queueWrite) _

theorem MemOk.execSst {z : MSize} {o : MOrd} {d : BitVec 6} {m : MemOp} (h : MemOk s) :
    OutOk (Machine.execSst hd z o d m s) := h.memWord
      (fun _ => h.withRelease (fun _ h₁ => h₁.scalarStore (fun _ h₂ _ => h₂.finish)))

/-! ### PREF, PROBE, IINV -/

theorem MemOk.execPref {hint : BitVec 2} {m : MemOp} (h : MemOk s) :
    OutOk (Machine.execPref hd hint m s) := by
  unfold Machine.execPref
  refine h.onCur fun c => ?_
  split
  · exact h.finish
  · exact h.wordFault

theorem MemOk.execProbe {z : MSize} {p : BitVec 3} {m : MemOp} (h : MemOk s) :
    OutOk (Machine.execProbe hd z p m s) := by
  unfold Machine.execProbe
  refine h.onCur fun c => ?_
  split
  · exact h.resultDone
  · exact h.wordFault

theorem MemOk.execIinv {m : MemOp} (h : MemOk s) : OutOk (Machine.execIinv hd m s) := h.memWord
      (fun _ => h.withRelease (fun _ h₁ => h₁.same.waitFor.finish))

/-! ### Tags in memory as values -/

theorem MemOk.tldgLane {d : Nat} {m : MemOp} {a : LoadAcc} {i : Nat} (h : MemOk a.s) :
    MemOk (Machine.tldgLane c hd d m a i).s := by
  unfold Machine.tldgLane
  extract_lets f b
  have h₁ : MemOk b.s := h.loadLane
  split <;> exact h₁

theorem MemOk.execTldg {o : MOrd} {d : BitVec 8} {m : MemOp} (h : MemOk s) :
    OutOk (Machine.execTldg hd o d m s) := h.memWord
      (fun _ => (foldl_keeps (P := fun a : LoadAcc => MemOk a.s) (fun _ _ h₁ => h₁.tldgLane)
      h.loadAcc_start).loadDone)

theorem MemOk.tstgLane {d : Nat} {m : MemOp} {a : StoreAcc} {i : Nat} (h : MemOk a.s) :
    MemOk (Machine.tstgLane c d m a i).s := by
  unfold Machine.tstgLane
  extract_lets va t
  split
  · exact h.storeFor.out ‹_›
  · exact h.storeFor.out ‹_›
  · split
    · exact h.storeFor.out ‹_›
    · extract_lets w
      split
      · split
        · split <;> exact h.storeFor.out ‹_›
        · exact h.storeFor.out ‹_›
      · exact h.storeFor.out ‹_›
      · exact h.storeFor.out ‹_›

theorem MemOk.tstgDone {a : StoreAcc} (h : MemOk a.s) :
    MemOk (Machine.tstgDone c hd a) := (foldl_keeps (fun _ _ h₁ => h₁.queueWrite) h).settle

theorem MemOk.execTstg {o : MOrd} {d : BitVec 8} {m : MemOp} (h : MemOk s) :
    OutOk (Machine.execTstg hd o d m s) := by
  unfold Machine.execTstg
  refine h.memWord (fun x => h.withRelease (fun x₁ h₁ => ?_))
  extract_lets plan c a
  have h₃ : MemOk a.s := foldl_keeps (P := fun a₂ : StoreAcc => MemOk a₂.s)
    (fun _ _ h₄ => h₄.tstgLane) h₁.storeAcc_start
  split
  · exact h₃.pinFirst.afterSync
      (fun x₂ h₅ => (foldl_keeps (P := fun a₃ : StoreAcc => MemOk a₃.s) (fun _ _ h₆ => h₆.tstgLane)
      h₅.storeAcc_start).tstgDone)
  · exact h₃.tstgDone

/-! ### The roster -/

theorem MemOk.modEntry {n : Name} {f : Entry → Entry} (h : MemOk s) :
    MemOk (Machine.State.modEntry s n f) := by
  unfold Machine.State.modEntry
  split
  · exact h.same
  · exact h

theorem MemOk.cacheName {unit : Nat} {n : Name} (h : MemOk s) : MemOk (Machine.cacheName s unit n) := by
  unfold Machine.cacheName
  split
  · exact h
  · exact h.same

theorem MemOk.reasonDone {q : BitVec 3} {code : Nat} {ws : List RegW} (h : MemOk s) :
    MemOk (Machine.reasonDone s c hd q code ws) := h.resultDone

theorem MemOk.goneDone {q : BitVec 3} {gt : Bool} {code : Nat} {va : Word} {ws : List RegW} (h : MemOk s) :
    MemOk (Machine.goneDone s c hd q gt code va ws) := by
  unfold Machine.goneDone
  split
  · exact h.trapAll
  · exact h.reasonDone

/-! ### ATOM and ACAS -/

theorem MemOk.rmwTake {r : GRef} {w : Who} {x : Xlat} {va : Nat} {sc : Scope} (h : MemOk s) :
    MemOk (Machine.rmwTake s r w x va sc).2 := by
  unfold Machine.rmwTake
  extract_lets line s₁ s₂ s₃ g
  split
  · exact h.fillRead
  · exact h.fillRead
  · exact h.dropStale.fillRead.promoteLine
  · exact h.aliasFill.grantOwned

theorem MemOk.rmwPut {w : Who} {x : Xlat} {sc : Scope} {g : GWrite} (h : MemOk s) :
    MemOk (Machine.rmwPut s w x sc g) := by
  unfold Machine.rmwPut
  split
  · exact h.enterEv
  · exact h.enterEv
  · exact h.enterEv.same
  · exact h.performLine

theorem MemOk.rmwBar {core line : Nat} {sc : Scope} (h : MemOk s) :
    MemOk (Machine.rmwBar s core line sc).2 := by
  unfold Machine.rmwBar
  split
  · exact h
  · exact h
  · exact h
  · extract_lets s₁
    have h₁ : MemOk s₁ := by
      unfold s₁
      split
      · exact h
      · exact h.grantLine
    exact h₁

theorem MemOk.rmwLane {wide : Bool} {sc : Scope} {d : Nat} {m : MemOp} {op : Nat → PeerOp}
    {pre : Nat → Option TagSrc} {out : Nat → Nat → Tag → RmwOut} {a : LoadAcc} {i : Nat} (h : MemOk a.s) :
    MemOk (Machine.rmwLane c hd wide sc d m op pre out a i).s := by
  unfold Machine.rmwLane
  extract_lets va n trapIn trap
  split
  · exact h.readFor.out ‹_›
  · exact h.readFor.out ‹_›
  · exact h.readFor.out ‹_›
  · split
    · split <;> exact h.readFor.out ‹_›
    · exact h.readFor.out ‹_›
  · next g₀ s₀ e₀ =>
    have h₀ : MemOk s₀ := h.readFor.out e₀
    extract_lets place
    clear_value place
    split
    next bar s₁ e₁ =>
    have h₁ : MemOk s₁ := by
      split at e₁
      · exact h₀.rmwBar.out e₁
      · cases e₁
        exact h₀
    split
    · exact h₁
    · split
      next g s₂ e₂ =>
      have h₂ : MemOk s₂ := by
        split at e₂
        · exact h₁.rmwTake.out e₂
        · cases e₂
          exact h₁
      split
      · exact h₂
      · extract_lets old ws
        split
        · exact h₂
        · split
          next tag s₃ e₃ =>
          have h₃ : MemOk s₃ := h₂.wordTag.out e₃
          extract_lets a' w s₄
          split
          · exact h₃
          · show MemOk s₄
            unfold s₄
            split
            · exact h₃.performAt ..
            · exact h₃.rmwPut
            · exact h₃

theorem MemOk.sendRmws {core : Nat} {op : Nat → PeerOp} {dst : Nat → Word → PeerDst}
    {l : List (Nat × Xlat × Word)} (h : MemOk s) :
    MemOk (Machine.sendRmws s core op dst l) := by
  unfold Machine.sendRmws
  refine foldl_keeps (fun _ _ h₁ => ?_) h
  split
  · exact h₁.sendPeer
  · exact h₁

theorem MemOk.rmwWord {z : MSize} {o : MOrd} {d : BitVec 8} {m : MemOp} {ok : Cur → Bool}
    {op : Cur → Nat → PeerOp} {pre : Cur → Nat → Option TagSrc} {out : Cur → Nat → Nat → Tag → RmwOut}
    {dst : Cur → Nat → Nat → Word → PeerDst} (h : MemOk s) :
    OutOk (Machine.rmwWord s hd z o d m ok op pre out dst) := by
  unfold Machine.rmwWord
  refine h.memWord fun x => ?_
  split
  · exact h.blockWord
  · refine h.withRelease (fun x₁ h₁ => h₁.pinFirst.afterSync (fun x₂ h₂ => ?_))
    extract_lets s₁ c a dead id s₂ s₃ s₄ s₅
    have h₄ : MemOk a.s := foldl_keeps (P := fun a₂ : LoadAcc => MemOk a₂.s)
      (fun _ _ h₅ => h₅.rmwLane) h₂.drainGroup.loadAcc_start
    have h₆ : MemOk s₂ := by
      unfold s₂
      split
      · exact h₄
      · exact h₄.addPend.countPend
    have h₇ : MemOk s₅ := by
      unfold s₅
      split
      · exact h₆.sendRmws.withAcquire.waitFor
      · exact h₆.sendRmws.withAcquire
    split
    · exact h₂.drainGroup.blockWord
    · split
      · exact h₂.drainGroup.blockWord
      · split
        · exact h₂.drainGroup.blockWord
        · exact h₇.eatPoison

theorem MemOk.execAtom {f : AtomF} {z : MSize} {o : MOrd} {d : BitVec 8} {m : MemOp} (h : MemOk s) :
    OutOk (Machine.execAtom hd f z o d m s) := h.rmwWord

theorem MemOk.execAcas {z : MSize} {o : MOrd} {d : BitVec 8} {m : MemOp} (h : MemOk s) :
    OutOk (Machine.execAcas hd z o d m s) := by
  unfold Machine.execAcas
  extract_lets k
  exact h.rmwWord

/-! ### RED -/

theorem MemOk.redLane {issue : Nat} {f : RedMF} {wide : Bool} {d : Nat} {m : MemOp} {a : StoreAcc} {i : Nat}
    (h : MemOk a.s) :
    MemOk (Machine.redLane c issue f wide d m a i).s := by
  unfold Machine.redLane
  extract_lets va n trap
  split
  split
  · exact h.storeFor.out ‹_›
  · exact h.storeFor.out ‹_›
  · extract_lets noWin q
    split
    · exact h.storeFor.out ‹_›
    · split
      · exact h.storeFor.out ‹_›
      · exact (h.storeFor.out ‹_›).same

theorem MemOk.execRed {f : RedMF} {z : MSize} {o : MOrd} {d : BitVec 8} {m : MemOp} (h : MemOk s) :
    OutOk (Machine.execRed hd f z o d m s) := by
  unfold Machine.execRed
  refine h.memWord fun x => ?_
  split
  · exact h.blockWord
  · exact h.withRelease
      (fun x₁ h₁ => h₁.pinFirst.afterSync (fun x₂ h₂ => (foldl_keeps (P := fun a : StoreAcc => MemOk a.s) (fun
      a _ h₃ => h₃.redLane) h₂.drainGroup.storeAcc_start).settle))

/-! ### FENCE and COMMIT -/

theorem MemOk.fenceAcquire {sc : Scope} (h : MemOk s) : MemOk (Machine.fenceAcquire s c sc) := by
  unfold Machine.fenceAcquire
  split
  · exact h.waitFor
  · exact h.acquireAt

theorem MemOk.execFence {sc : Scope} {o : Ord} (h : MemOk s) : OutOk (Machine.execFence hd sc o s) := by
  unfold Machine.execFence
  refine h.memWord (fun x => h.withRelease (fun x₁ h₁ => MemOk.finish ?_))
  split
  · exact h₁.fenceAcquire
  · exact h₁

theorem MemOk.execCommit (h : MemOk s) :
    OutOk (Machine.execCommit hd s) := h.onCur (fun _ => h.pinFirst.afterSync (fun _ h₁ => h₁.finish))

/-! ### Pigeonholes -/

theorem MemOk.blockOn {n : Name} {push : Bool} (h : MemOk s) :
    MemOk (Machine.blockOn s c n push) := h.modEntry.blockWord

theorem MemOk.pigPin {r : BitVec 352} (h : MemOk s) : MemOk (Machine.pigPin s c r).state := by
  unfold Machine.pigPin
  split
  · exact h
  · exact h.pinFirst

theorem MemOk.execQpush {q : BitVec 3} {t g : Bool} {kx : BitVec 4} {sa : BitVec 6} (h : MemOk s) :
    OutOk (Machine.execQpush hd q t g kx sa s) := by
  unfold Machine.execQpush
  refine h.onCur fun c => ?_
  extract_lets n id
  split
  · exact h.goneDone
  · split
    · split
      · exact h.reasonDone
      · extract_lets a s₁ full o
        split
        · split
          · exact h.modEntry.reasonDone
          · exact h.modEntry.blockOn
        · split
          · exact h.modEntry.blockOn
          · refine h.modEntry.pigPin.afterSync fun x h₁ => ?_
            split
            · exact h₁.deliverFail ‹_›
            · refine h₁.releaseAt.afterSync fun x₁ h₂ => ?_
              split
              · exact h₂.blockWord
              · exact h₂.modEntry.reasonDone
    · exact h.reasonDone

theorem MemOk.execQpop {q : BitVec 3} {t g : Bool} {kx : BitVec 4} {sa : BitVec 6} (h : MemOk s) :
    OutOk (Machine.execQpop hd q t g kx sa s) := by
  unfold Machine.execQpop
  refine h.onCur fun c => ?_
  extract_lets n
  split
  · exact h.goneDone
  · split
    · split
      · split
        · exact h.reasonDone
        · exact h.blockOn
      · split
        · exact h.blockOn
        · refine h.pigPin.afterSync fun x h₁ => ?_
          split
          · exact h₁.blockWord
          · exact h₁.modEntry.acquireAt.reasonDone
    · exact h.reasonDone

theorem MemOk.execQallowGrant {q : BitVec 3} {g : Bool} {kx : BitVec 4} {sa sb : BitVec 6} (h : MemOk s) :
    OutOk (Machine.execQallowGrant hd q g kx sa sb s) := by
  unfold Machine.execQallowGrant
  refine h.onCur fun c => ?_
  extract_lets n id
  split
  · exact h.goneDone
  · split
    · split
      · exact h.reasonDone
      · split
        · exact h.reasonDone
        · refine h.pigPin.afterSync fun x h₁ => ?_
          split
          · exact h₁.blockWord
          · exact h₁.modEntry.reasonDone
    · exact h.reasonDone

theorem MemOk.execQallowRead {q : BitVec 3} {g : Bool} {kx : BitVec 4} {sa : BitVec 6} (h : MemOk s) :
    OutOk (Machine.execQallowRead hd q g kx sa s) := by
  unfold Machine.execQallowRead
  refine h.onCur fun c => ?_
  split
  · exact h.goneDone
  · split <;> exact h.reasonDone

theorem MemOk.execQueueWake {n : Name} (h : MemOk s) : OutOk (Machine.execQueueWake n s) := by
  unfold Machine.execQueueWake
  refine MemOk.next ?_
  split
  · exact h
  · split
    · split
      · exact h.wake
      · exact h
    · exact h

/-! ### Count cells (R235 to R237) -/

theorem MemOk.cellHome {g : GRef} {slot va : Nat} {place : Acc189} {f : Nat → List Byte} (h : MemOk s) :
    MemOk (Machine.cellHome s g slot va place f) := by
  unfold Machine.cellHome
  split
  · exact h.performAt ..
  · extract_lets s₁ s₂
    have h₁ : MemOk s₂ := by
      unfold s₂
      split
      · exact h.aliasFill.recallWhere.dropStale
      · exact h.aliasFill.recallWhere
    exact h₁.performLine
  · exact h

theorem MemOk.cellWord {sc : Scope} {o : Ord} {cell : BitVec 6} {f : Cur → Nat → List Byte} (h : MemOk s) :
    OutOk (Machine.cellWord s hd sc o cell f) := by
  unfold Machine.cellWord
  refine h.memWord fun x => ?_
  split
  · exact h.blockWord
  · refine h.withRelease (fun x₁ h₁ => h₁.pinFirst.afterSync (fun x₂ h₂ => ?_))
    extract_lets s₁ c va
    split
    split
    · exact (h₂.pushOwn.check189.out ‹_›).trapAll
    · exact (h₂.pushOwn.check189.out ‹_›).trapAll
    · exact (h₂.pushOwn.check189.out ‹_›).coreFault.blockWord
    · extract_lets key late
      split
      · exact (h₂.pushOwn.check189.out ‹_›).blockWord
      · exact (h₂.pushOwn.check189.out ‹_›).cellHome.finish

theorem MemOk.execCarr {sc : Scope} {o : Ord} {cell : BitVec 6} {x : CVal} (h : MemOk s) :
    OutOk (Machine.execCarr hd sc o cell x s) := h.cellWord

theorem MemOk.execCrst {cell : BitVec 6} (h : MemOk s) : OutOk (Machine.execCrst hd cell s) := h.cellWord

theorem MemOk.execCwait {q : BitVec 3} {t : Bool} {sc : Scope} {o : Ord} {cell : BitVec 6} {x : CVal}
    {tmo : Option (BitVec 6)} (h : MemOk s) :
    OutOk (Machine.execCwait hd q t sc o cell x tmo s) := by
  unfold Machine.execCwait
  refine h.onCur fun c => ?_
  extract_lets va dl clear expired block s₁
  split
  · exact h.same.blockWord
  · split
    · exact (h.same.check189.out ‹_›).same.trapAll
    · exact (h.same.check189.out ‹_›).same.trapAll
    · split
      · exact (h.same.check189.out ‹_›).same.reasonDone
      · exact (h.same.check189.out ‹_›).coreFault.blockWord
    · split
      · split
        · exact ((h.same.check189.out ‹_›).readFor.out ‹_›).same.eatPoison
        · split
          · exact ((h.same.check189.out ‹_›).readFor.out ‹_›).same.withAcquire.reasonDone
          · split
            · exact ((h.same.check189.out ‹_›).readFor.out ‹_›).same.reasonDone
            · exact ((h.same.check189.out ‹_›).readFor.out ‹_›).blockWord
      · exact ((h.same.check189.out ‹_›).readFor.out ‹_›).blockWord
      · exact ((h.same.check189.out ‹_›).readFor.out ‹_›).blockWord

theorem MemOk.execCwaitWake {r : GRef} (h : MemOk s) : OutOk (Machine.execCwaitWake r s) := by
  unfold Machine.execCwaitWake
  refine MemOk.next ?_
  split
  · split
    · split
      · split
        · exact h.wake
        · exact h
      · exact h
    · exact h
  · exact h

theorem MemOk.execCwaitTimeout {r : GRef} (h : MemOk s) : OutOk (Machine.execCwaitTimeout r s) := by
  unfold Machine.execCwaitTimeout
  refine MemOk.next ?_
  split
  · split
    · split
      · split
        · exact h.wake
        · exact h
      · exact h
    · exact h
  · exact h

/-! ### The bell (R238) -/

theorem MemOk.execTbar {role : Option (BitVec 2)} (h : MemOk s) :
    OutOk (Machine.execTbar hd role s) := h.memWord (fun _ => h.withRelease (fun _ h₁ => h₁.same.blockWord))

theorem MemOk.endBlocked {r : GRef} (h : MemOk s) : MemOk (Machine.endBlocked s r) := by
  unfold Machine.endBlocked
  split
  · split
    · exact h.wake.finish
    · exact h
  · exact h

theorem MemOk.execBellRelease {team bell : Nat} (h : MemOk s) :
    OutOk (Machine.execBellRelease team bell s) := by
  unfold Machine.execBellRelease
  refine MemOk.next ?_
  split
  · exact h
  · split
    · exact foldl_keeps (fun _ _ h₁ => h₁.endBlocked) h.same
    · exact h

/-! ### Special registers -/

theorem MemOk.execSrd {scalar : Bool} {vd : BitVec 8} {reg : BitVec 6} (h : MemOk s) :
    OutOk (Machine.execSrd hd scalar vd reg s) := by
  unfold Machine.execSrd
  extract_lets r
  refine h.onCur fun c => ?_
  split
  · exact h.same.finish
  · split
    · exact h.wordFault
    · exact h.fixedDone

theorem MemOk.execSwr {scalar : Bool} {reg : BitVec 6} {a : Src} (h : MemOk s) :
    OutOk (Machine.execSwr hd scalar reg a s) := by
  unfold Machine.execSwr
  extract_lets wide
  refine h.onCur fun c => ?_
  split
  · split
    · exact h.wordFault
    · split
      · exact h.wordFault
      · exact h.same.finish
  · split
    · exact h.wordFault
    · split
      · exact h.wordFault
      · exact h.same.finish

/-! ### Branches (R138, R150) -/

theorem MemOk.takeBra {t : Word} (h : MemOk s) : MemOk (Machine.takeBra s c hd t) := by
  unfold Machine.takeBra
  split
  · split
    · split
      · exact h.same.settleGo
      · exact h.wordFault
    · exact h.settleGo
  · exact h.settleGo

theorem MemOk.execBraCond {q : BitVec 3} {n : Bool} {off : BitVec 32} (h : MemOk s) :
    OutOk (Machine.execBraCond hd q n off s) := by
  unfold Machine.execBraCond
  refine h.onCur fun c => ?_
  split
  · exact h.takeBra
  · exact h.finish

theorem MemOk.execBraAlways {off : BitVec 32} (h : MemOk s) :
    OutOk (Machine.execBraAlways hd off s) := h.onCur (fun _ => h.takeBra)

theorem MemOk.execBrv {p : BitVec 3} {n : Bool} {off : BitVec 32} (h : MemOk s) :
    OutOk (Machine.execBrv hd p n off s) := by
  unfold Machine.execBrv
  refine h.onCur fun c => ?_
  extract_lets t taken
  split
  · exact h.wordFault
  · exact h.settleGo

theorem MemOk.execJmpv {v : BitVec 8} (h : MemOk s) : OutOk (Machine.execJmpv hd v s) := by
  unfold Machine.execJmpv
  refine h.onCur fun c => ?_
  extract_lets act bad
  split
  · exact h.wordFault
  · split
    · exact h.wordFault
    · exact h.settleGo

/-! ### Calls (R140 to R142) -/

theorem MemOk.callSpill {a : StoreAcc} {i : Nat} (h : MemOk a.s) : MemOk (Machine.callSpill c a i).s := by
  unfold Machine.callSpill
  split
  · exact h
  · split
    · exact h
    · extract_lets va
      exact h.storeLane

theorem MemOk.callLanes {m : Mask} {bad : List LaneTrap} {t : Nat → Word} (h : MemOk s) :
    MemOk (Machine.callLanes s c hd m bad t) := by
  unfold Machine.callLanes
  extract_lets deep a s₁ s₂
  have h₂ : MemOk a.s := foldl_keeps (P := fun a₂ : StoreAcc => MemOk a₂.s)
    (fun _ _ h₃ => h₃.callSpill) h.storeAcc_start
  have h₅ : MemOk s₁ := foldl_keeps (fun _ _ h₆ => h₆.queueWrite) h₂
  split
  · exact h.wordFault
  · exact h₅.same.settleGo

theorem MemOk.execCall {off : BitVec 32} (h : MemOk s) :
    OutOk (Machine.execCall hd off s) := h.onCur (fun _ => h.callLanes)

theorem MemOk.execCallv {v : BitVec 8} (h : MemOk s) : OutOk (Machine.execCallv hd v s) := by
  unfold Machine.execCallv
  refine h.onCur fun c => ?_
  extract_lets bad
  split
  · exact h.wordFault
  · exact h.callLanes

theorem MemOk.handlerGone (h : MemOk s) : MemOk (Machine.handlerGone s c) := by
  unfold Machine.handlerGone
  split
  · exact h
  · split
    · exact h
    · split
      · exact h.endTeam
      · exact h.same

theorem MemOk.retLane {a : RetAcc} {i : Nat} (h : MemOk a.s) : MemOk (Machine.retLane c a i).s := by
  unfold Machine.retLane
  extract_lets check
  have hcheck : ∀ a t filled, MemOk a.s → MemOk (check a t filled).s := by
    intro a t filled h
    unfold check
    split <;> exact h
  split
  · exact h
  · split
    · exact hcheck _ _ _ h
    · split
      · exact h
      · extract_lets va
        split
        · exact h.readFor.out ‹_›
        · exact h.readFor.out ‹_›
        · exact h.readFor.out ‹_›
        · split
          · exact hcheck _ _ _ (h.readFor.out ‹_›)
          · exact h.readFor.out ‹_›
          · exact h.readFor.out ‹_›
        · split
          · exact h.readFor.out ‹_›
          · exact hcheck _ _ _ (h.readFor.out ‹_›)

theorem MemOk.execRet (h : MemOk s) : OutOk (Machine.execRet hd s) := by
  unfold Machine.execRet
  refine h.onCur fun c => ?_
  extract_lets empty a s₁
  have h₂ : MemOk a.s := foldl_keeps (P := fun a₂ : RetAcc => MemOk a₂.s) (fun _ _ h₃ => h₃.retLane) h
  split
  · exact h.wordFault
  · split
    · exact h.blockWord
    · split
      · exact h₂.blockWord
      · exact h₂.dropFetched.eatPoison
      · exact (foldl_keeps (fun _ _ h₄ => h₄.askPeers) h₂).blockWord
      · exact h₂.dropFetched.same.settleGo.handlerGone

/-! ### JOIN, DEFER (R143 to R145) -/

theorem MemOk.execJoin (h : MemOk s) : OutOk (Machine.execJoin hd s) := h.onCur (fun _ => h.settleGo)

theorem MemOk.execDefer (h : MemOk s) : OutOk (Machine.execDefer hd s) := h.onCur (fun _ => h.settleGo)

/-! ### The loop stack (R147 to R151) -/

theorem MemOk.loopWord {count : Cur → Nat} {off : BitVec 32} (h : MemOk s) :
    OutOk (Machine.loopWord s hd count off) := by
  unfold Machine.loopWord
  refine h.onCur fun c => ?_
  extract_lets n k start stop ds d loops
  split
  · exact h.wordFault
  · split
    · exact h.wordFault
    · split
      · exact h.wordFault
      · split
        · exact h.wordFault
        · split
          · exact h.settleGo
          · exact h.same.settleGo

theorem MemOk.execLoopScalar {r : BitVec 6} {off : BitVec 32} (h : MemOk s) :
    OutOk (Machine.execLoopScalar hd r off s) := h.loopWord

theorem MemOk.execLoopImm {n : BitVec 8} {off : BitVec 32} (h : MemOk s) :
    OutOk (Machine.execLoopImm hd n off s) := h.loopWord

theorem MemOk.execLbrk {n : BitVec 2} (h : MemOk s) : OutOk (Machine.execLbrk hd n s) := by
  unfold Machine.execLbrk
  refine h.onCur fun c => ?_
  extract_lets k out ds rest
  split
  · exact h.wordFault
  · split
    · exact h.wordFault
    · split
      · exact h
      · exact h.same.settleGo

/-! ### EXIT and YLD -/

theorem MemOk.execExit (h : MemOk s) : OutOk (Machine.execExit hd s) := by
  unfold Machine.execExit
  refine h.onCur fun c => ?_
  split
  · exact h.blockWord
  · exact h.settleGo.handlerGone

theorem MemOk.spinFor {t : Team} (h : MemOk s) : MemOk (Machine.spinFor s t) := by
  unfold Machine.spinFor
  split
  · split
    · exact h.same.same
    · exact h
  · exact h

theorem MemOk.yldDone {r : GRef} {n : Now} (h : MemOk s) : MemOk (Machine.yldDone s r n) := by
  unfold Machine.yldDone
  extract_lets s₁
  split
  · split
    · exact h.standAt.same
    · exact h.standAt.wake
  · exact h.standAt

theorem MemOk.execYld {spin : Bool} {n : BitVec 16} (h : MemOk s) :
    OutOk (Machine.execYld hd spin n s) := by
  unfold Machine.execYld
  refine h.onCur fun c => ?_
  extract_lets s₁ s₂
  have h₁ : MemOk s₁ := by
    unfold s₁
    split
    · exact h.spinFor
    · exact h
  split
  · exact h₁.same.settleGo.yldDone
  · exact h₁.same.settleGo.waitFor

/-! ### Text (R207, R216) -/

theorem MemOk.fetchWord {core slot : Nat} {va : Word} (h : MemOk s) :
    MemOk (Machine.fetchWord s core slot va).2 := by
  unfold Machine.fetchWord
  extract_lets a out
  split
  · exact h
  · split
    · exact h
    · split
      · exact h.translate.out ‹_›
      · split
        · exact h.translate.out ‹_›
        · extract_lets s₁ g l
          split
          · exact (h.translate.out ‹_›).aliasFill
          · split
            · exact (h.translate.out ‹_›).aliasFill
            · exact (h.translate.out ‹_›).aliasFill.same

/-! ### Clause entry (R48, R49, R128, R168) -/

theorem MemOk.fetchPoison {t : Tag} {va : Word} (h : MemOk s) :
    MemOk (Machine.fetchPoison s c t va) := h.same.eatPoison

theorem MemOk.enterClause {t : Team} {g : Group} {pipe : Nat} (h : MemOk s) :
    MemOk (Machine.enterClause s t g pipe) := by
  unfold Machine.enterClause
  extract_lets r
  split
  · exact h
  · extract_lets start illegal
    split
    · exact h.same.same
    · split
      · exact h.endTeam
      · split
        · split
          · exact (h.fetchWord.out ‹_›).same.same
          · exact (h.fetchWord.out ‹_›).endTeam
        · exact (h.fetchWord.out ‹_›).endTeam
        · exact (h.fetchWord.out ‹_›).coreFault.same
        · split
          · exact (h.fetchWord.out ‹_›).fetchPoison
          · exact h.fetchWord.out ‹_›

theorem MemOk.execClauseEntry {core pipe : Nat} (h : MemOk s) :
    OutOk (Machine.execClauseEntry core pipe s) := by
  unfold Machine.execClauseEntry
  refine MemOk.next ?_
  split
  · exact h
  · split
    · exact h.enterClause
    · exact h

theorem MemOk.execOverrun {r : GRef} (h : MemOk s) : OutOk (Machine.execOverrun r s) := by
  unfold Machine.execOverrun
  refine MemOk.next ?_
  split
  · split
    · split
      · exact h.endTeam
      · exact h
    · exact h
  · exact h

/-! ### Results (R51 to R54) -/

theorem MemOk.afterReturn {r : GRef} (h : MemOk s) : MemOk (Machine.afterReturn s r) := by
  unfold Machine.afterReturn
  split
  · split
    · split
      · split
        · exact h.wake
        · exact h
      · split
        · exact h.wake
        · exact h
      · exact h
    · exact h
  · exact h

theorem MemOk.rearm {s s' : State} {r : GRef} (_ : MemOk s) (hs' : MemOk s') :
    MemOk (Machine.rearm s s' r) := by
  unfold Machine.rearm
  extract_lets ok base
  split
  · exact hs'.same.same
  · exact hs'

theorem MemOk.execResultReturn {r : GRef} {n : Nat} (h : MemOk s) :
    OutOk (Machine.execResultReturn r n s) := by
  unfold Machine.execResultReturn
  refine MemOk.next ?_
  split
  · split
    · split
      exact (h.bornHandleOf.out ‹_›).rearm ((h.bornHandleOf.out ‹_›).same.afterReturn)
    · exact h
  · exact h

theorem MemOk.wakeIf {r : GRef} {f : Group → Why → Bool} {k : State → Waiting → State} (h : MemOk s)
    (hk : ∀ x, MemOk x → ∀ y, MemOk (k x y)) :
    MemOk (Machine.wakeIf s r f k) := by
  unfold Machine.wakeIf
  split
  · split
    · split
      · exact hk _ h _
      · exact h
    · exact h
  · exact h

theorem MemOk.execSwitchWake {r : GRef} (h : MemOk s) : OutOk (Machine.execSwitchWake r s) := by
  unfold Machine.execSwitchWake
  refine (h.wakeIf (fun x h₁ y => ?_)).next
  split
  · exact h₁.acquireAt.wake
  · exact h₁.wake

theorem MemOk.execQueueEntryFree {r : GRef} (h : MemOk s) :
    OutOk (Machine.execQueueEntryFree r s) := (h.wakeIf (fun _ h₁ _ => h₁.wake)).next

theorem MemOk.execYldDrainComplete {r : GRef} (h : MemOk s) :
    OutOk (Machine.execYldDrainComplete r s) := (h.wakeIf (fun _ h₁ _ => h₁.yldDone)).next

/-! ### Releases (R143 to R149) -/

theorem MemOk.regroup {r : GRef} {f : Group → Group} (h : MemOk s) :
    MemOk (Machine.regroup s r f) := h.same.same

theorem MemOk.execJoinRelease {r : GRef} (h : MemOk s) : OutOk (Machine.execJoinRelease r s) := by
  unfold Machine.execJoinRelease
  refine MemOk.next ?_
  split
  · split
    · exact h.regroup
    · split
      · exact h.endTeam
      · exact h
    · exact h
  · exact h

theorem MemOk.execLoopEndStep {r : GRef} (h : MemOk s) : OutOk (Machine.execLoopEndStep r s) := by
  unfold Machine.execLoopEndStep
  refine MemOk.next ?_
  split
  · split
    · split
      · exact h.regroup
      · split
        · exact h.endTeam
        · exact h
    · exact h
  · exact h

theorem MemOk.execDeferRelease {r : GRef} {lane : Nat} (h : MemOk s) :
    OutOk (Machine.execDeferRelease r lane s) := by
  unfold Machine.execDeferRelease
  refine MemOk.next ?_
  split
  · split
    · exact h.regroup
    · exact h
  · exact h

/-! ### TRAP, BRK, TRET -/

theorem MemOk.execTrap {cause : BitVec 8} (h : MemOk s) :
    OutOk (Machine.execTrap hd cause s) := h.onCur (fun _ => h.raiseTraps)

theorem MemOk.execBrk (h : MemOk s) : OutOk (Machine.execBrk hd s) := h.onCur (fun _ => h.raiseTraps)

theorem MemOk.execTret (h : MemOk s) : OutOk (Machine.execTret hd s) := by
  unfold Machine.execTret
  refine h.onCur fun c => ?_
  extract_lets ls back
  split
  · exact h.wordFault
  · split
    · exact h.coreFault.blockWord
    · split
      · exact h.wordFault
      · split
        · exact h.blockWord
        · exact h.endClause.same

/-! ### Blocked groups taken off their waits -/

theorem MemOk.dropWaits {r : GRef} (h : MemOk s) : MemOk (Machine.dropWaits s r) := h.same.same

theorem MemOk.asyncTrap {n : Now} {ts : List LaneTrap} (h : MemOk s) :
    MemOk (Machine.asyncTrap s n ts) := by
  unfold Machine.asyncTrap
  split
  · exact h
  · extract_lets ts₁ s₁
    have h₁ : MemOk s₁ := by
      unfold s₁
      split
      · exact h.same.leaveClause
      · exact h
    clear_value ts₁ s₁
    split
    · exact h
    · split
      · exact h.endTeam
      · exact h₁.dropWaits.same

/-! ### Trap entry (R328) -/

theorem MemOk.execTrapEntry {r : GRef} (h : MemOk s) : OutOk (Machine.execTrapEntry r s) := by
  unfold Machine.execTrapEntry
  refine MemOk.next ?_
  split
  · split
    · extract_lets t0 sh
      split
      · exact h.endTeam
      · split
        · exact h.endTeam
        · exact h.regroup
    · exact h
  · exact h

/-! ### Ends of a team -/

theorem MemOk.freeSlots {t : Team} (h : MemOk s) : MemOk (Machine.freeSlots s t) := h.same

theorem MemOk.flushTeam {t : Team} (h : MemOk s) :
    MemOk (Machine.flushTeam s t) := foldl_keeps (fun _ _ h₁ => h₁.pushOwn) h

theorem MemOk.freeTeam {t : Team} (h : MemOk s) : MemOk (Machine.freeTeam s t) := by
  unfold Machine.freeTeam
  extract_lets s₁ s₂ s₃
  have h₁ : MemOk s₁ := by
    unfold s₁
    split
    · exact h
    · exact h.flushTeam
  have h₃ : MemOk s₂ := foldl_keeps (fun _ _ h₄ => h₄.dropWaits) h₁.freeSlots
  exact h₃.same.same

theorem MemOk.orphanStores {team : Nat} (h : MemOk s) : MemOk (Machine.orphanStores s team) := h.same

theorem MemOk.postEnd {launch : Nat} {r : ErrRec} (h : MemOk s) :
    MemOk (Machine.postEnd s launch r) := h.postRecord.same

theorem MemOk.execTeamFaultEnd {team : Nat} (h : MemOk s) : OutOk (Machine.execTeamFaultEnd team s) := by
  unfold Machine.execTeamFaultEnd
  refine MemOk.next ?_
  split
  · split
    · split
      · exact h
      · exact h.freeTeam.postEnd.orphanStores.same
    · exact h
  · exact h

theorem MemOk.execRelaunch {team : Nat} (h : MemOk s) : OutOk (Machine.execRelaunch team s) := by
  unfold Machine.execRelaunch
  refine MemOk.next ?_
  split
  · split
    · split
      · exact h.freeTeam.postEnd.orphanStores.same
      · exact h
    · exact h
  · exact h

theorem MemOk.unclaim {team grp : Nat} (h : MemOk s) : MemOk (Machine.unclaim s team grp) := h.same

theorem MemOk.execGroupEnd {r : GRef} (h : MemOk s) : OutOk (Machine.execGroupEnd r s) := by
  unfold Machine.execGroupEnd
  refine MemOk.next ?_
  split
  · split
    · extract_lets s₁
      have h₁ : MemOk s₁ := by
        unfold s₁
        split
        · exact h.endTeam
        · exact h
      exact h₁.same.unclaim.standAt
    · exact h
  · exact h

theorem MemOk.execTeamEndExit {team : Nat} (h : MemOk s) : OutOk (Machine.execTeamEndExit team s) := by
  unfold Machine.execTeamEndExit
  refine MemOk.next ?_
  split
  · split
    · exact h
    · extract_lets s₁
      have h₁ : MemOk s₁ := by
        unfold s₁
        split
        · exact h.commitTeam
        · split
          · exact h.grantAll
          · exact h
      split
      · exact h₁.freeTeam.same
      · exact h₁
  · exact h

/-! ### TGET, TSET, TCHK -/

theorem MemOk.execTget {vd : BitVec 8} {a : Src} (h : MemOk s) :
    OutOk (Machine.execTget hd vd a s) := h.fixedWord

theorem MemOk.execTset {vd : BitVec 8} {f : TSetF} (h : MemOk s) :
    OutOk (Machine.execTset hd vd f s) := h.fixedWord

theorem MemOk.execTchk {t : VType} {a : Src} (h : MemOk s) : OutOk (Machine.execTchk hd t a s) := by
  unfold Machine.execTchk
  refine h.onCur fun c => ?_
  split
  · exact h.wordFault
  · extract_lets bad tagOf
    split
    clear_value bad tagOf
    split
    · exact h.finish
    · refine (MemOk.out ?_ ‹_›).raiseTraps
      split
      · exact h.internFor
      · exact h

/-! ### The roll's table -/

theorem MemOk.putGranule {slot va : Nat} {x : Xlat} {b : List Byte} (h : MemOk s) :
    MemOk (Machine.putGranule s slot va x b) := h.aliasFill.recallWhere.performLine

theorem MemOk.writeEntry {name : Name} {owner : Nat} {r : Roll} {i : Nat} {e : RollEntry} (h : MemOk s) :
    MemOk (Machine.writeEntry s name owner r i e) := by
  unfold Machine.writeEntry
  extract_lets bytes mark slot va
  split
  · exact (h.putMem ..).modEntry
  · split
    · exact h
    · split
      · split
        · exact h.translate.out ‹_›
        · split
          · exact h.translate.out ‹_›
          · exact (h.translate.out ‹_›).putGranule.modEntry
      · exact (h.translate.out ‹_›).coreFault

theorem MemOk.flushRoll {name : Name} (h : MemOk s) : MemOk (Machine.flushRoll s name) := by
  unfold Machine.flushRoll
  split
  · split
    · split
      · exact h
      · exact foldl_keeps (fun _ _ h₁ => h₁.writeEntry) h
    · exact h
  · exact h

theorem MemOk.execRollEntryWrite {roll : Name} (h : MemOk s) :
    OutOk (Machine.execRollEntryWrite roll s) := by
  unfold Machine.execRollEntryWrite
  refine MemOk.next ?_
  split
  · split
    · extract_lets s₁
      split
      · split
        · exact foldl_keeps (fun _ _ h₁ => h₁.wake) h.writeEntry
        · exact h.writeEntry
      · exact h.writeEntry
    · exact foldl_keeps (fun _ _ h₂ => h₂.wake) h
  · exact h

theorem MemOk.execTorg {q : BitVec 3} {sd sa : BitVec 6} (h : MemOk s) :
    OutOk (Machine.execTorg hd q sd sa s) := by
  unfold Machine.execTorg
  refine h.onCur fun c => ?_
  extract_lets tag n out s₁
  split
  · exact h.reasonDone
  · split
    · exact h.reasonDone
    · split
      · exact h.reasonDone
      · split
        · exact h.reasonDone
        · split
          · split
            · exact h.flushRoll.reasonDone
            · exact h.flushRoll.blockWord
          · exact h.flushRoll.reasonDone

/-! ### Count cells updated by the device -/

theorem MemOk.launchRecord {ctx slot code va : Nat} (h : MemOk s) :
    MemOk (Machine.launchRecord s ctx slot code va) := h.postRecord

theorem MemOk.loseCell {u : CellUpd} (h : MemOk s) : MemOk (Machine.loseCell s u) := by
  unfold Machine.loseCell
  extract_lets s₁
  split
  · exact h.same.launchRecord
  · exact h.same

theorem MemOk.updateCell {u : CellUpd} (h : MemOk s) : MemOk (Machine.updateCell s u) := by
  unfold Machine.updateCell
  extract_lets bytes put w
  split
  · exact h.loseCell
  · split
    · split
      · exact h.check189.out ‹_›
      · exact (h.check189.out ‹_›).cellHome.same
    · split
      · exact (h.check189.out ‹_›).loseCell
      · split
        · exact h.check189.out ‹_›
        · exact (h.check189.out ‹_›).cellHome.same
    · exact (h.check189.out ‹_›).raiseFault
    · exact (h.check189.out ‹_›).loseCell

theorem MemOk.flushCells (h : MemOk s) :
    MemOk (Machine.flushCells s) := foldl_keeps (fun _ _ h₁ => h₁.updateCell) h

theorem MemOk.replayWaiter {w : Waiter} (h : MemOk s) : MemOk (Machine.replayWaiter s w) := by
  unfold Machine.replayWaiter
  split
  · exact h.flushCells
  · exact h.flushCells
  · exact h.flushCells
  · exact h.regroup.wakeIf (fun x h₁ _ => h₁.wake)
  · exact h.regroup
  · exact h

theorem MemOk.retryFault {f : FaultReq} (h : MemOk s) :
    MemOk (Machine.retryFault s f) := foldl_keeps (fun _ _ h₁ => h₁.replayWaiter) h.same

theorem MemOk.recallLine {line : Nat} (h : MemOk s) : MemOk (Machine.recallLine s line) := by
  unfold Machine.recallLine
  extract_lets slot va
  split
  · exact h.recallName
  · split
    · exact h
    · split
      · split <;> exact (h.translate.out ‹_›).recallWhere
      · exact h.recallWhere

theorem MemOk.outsideWrite {loc : Nat} {tagged : Bool} {t : Tag} {b : List Byte} (h : MemOk s) :
    MemOk (Machine.outsideWrite s loc tagged t b) := by
  unfold Machine.outsideWrite
  refine foldl_keeps (fun _ _ h₁ => MemOk.performAt ?_ ..) h
  split
  · exact h₁.recallLine
  · exact h₁

theorem MemOk.serveHost {q : HostReq} (h : MemOk s) : MemOk (Machine.serveHost s q) := by
  unfold Machine.serveHost
  split
  · split
    · exact h.same
    · exact h.outsideWrite
  · split <;> exact h.same

theorem MemOk.wakeLines (h : MemOk s) : MemOk (Machine.wakeLines s) := by
  unfold Machine.wakeLines
  extract_lets waits s₁
  have h₂ : MemOk s₁ := (foldl_keeps (fun _ _ h₃ => h₃.wake) h).flushCells
  exact foldl_keeps (fun _ _ h₄ => h₄.serveHost) h₂.same

theorem MemOk.execDieFaultWalk {n : Nat} (h : MemOk s) : OutOk (Machine.execDieFaultWalk n s) := by
  unfold Machine.execDieFaultWalk
  refine MemOk.next ?_
  split
  · split
    · exact h.retryFault
    · exact h.same
  · exact h

theorem MemOk.putHost {pa : Nat} {b : List Byte} (h : MemOk s) :
    MemOk (Machine.putHost s pa b) := h.putMem ..

theorem MemOk.execFaultRecordWrite {n : Nat} (h : MemOk s) : OutOk (Machine.execFaultRecordWrite n s) := by
  unfold Machine.execFaultRecordWrite
  refine MemOk.next ?_
  split
  · split
    · split
      · exact h.putHost.same
      · exact h
    · exact h
  · exact h

/-! ### Stores, ownership, copies -/

theorem MemOk.execStoreQueueDrain {r : GRef} (h : MemOk s) : OutOk (Machine.execStoreQueueDrain r s) := by
  unfold Machine.execStoreQueueDrain
  refine MemOk.next ?_
  split
  · split
    · exact h
    · split
      · split
        · exact h
        · exact h.same.drainWrite
      · exact h
  · exact h

theorem MemOk.execOwnershipGrant {core line : Nat} (h : MemOk s) :
    OutOk (Machine.execOwnershipGrant core line s) := by
  unfold Machine.execOwnershipGrant
  refine MemOk.next ?_
  split
  · exact h
  · extract_lets t
    split
    · exact h.grantLine
    · exact h.grantLine.wakeLines

theorem MemOk.execInvalidationReceive {core line : Nat} (h : MemOk s) :
    OutOk (Machine.execInvalidationReceive core line s) := by
  unfold Machine.execInvalidationReceive
  refine MemOk.next ?_
  split
  · exact h.dropStale
  · split
    · split
      · exact h.dropL1.same
      · exact h
    · exact h

theorem MemOk.execDirectoryRecall {line : Nat} (h : MemOk s) :
    OutOk (Machine.execDirectoryRecall line s) := h.recallLine.next

/-! ### Blocks in HBM (R218, R219) -/

theorem MemOk.addCounter {die n k : Nat} (h : MemOk s) : MemOk (Machine.addCounter s die n k) := h.same

theorem MemOk.bumpCounter {die n : Nat} (h : MemOk s) : MemOk (Machine.bumpCounter s die n) := h.addCounter

theorem MemOk.writeBlock {b : Nat} {comp : Bool} (h : MemOk s) :
    MemOk (Machine.writeBlock s b comp) := h.same.addCounter.addCounter

theorem MemOk.readBlock {b : Nat} (h : MemOk s) : MemOk (Machine.readBlock s b) := h.addCounter

theorem MemOk.execDirectoryEviction {line : Nat} (h : MemOk s) :
    OutOk (Machine.execDirectoryEviction line s) := by
  unfold Machine.execDirectoryEviction
  extract_lets t
  refine MemOk.next ?_
  split
  · split
    · exact h.recallLine
    · exact h.recallLine.readBlock.writeBlock
  · exact h.recallLine

theorem MemOk.execAliasRecall {line slot : Nat} {va : Word} (h : MemOk s) :
    OutOk (Machine.execAliasRecall line slot va s) := by
  unfold Machine.execAliasRecall
  refine MemOk.next ?_
  split
  · exact h
  · split
    · split
      · exact (h.translate.out ‹_›).aliasFill
      · exact h
    · exact h

theorem MemOk.execAliasRecordDrop {line : Nat} (h : MemOk s) :
    OutOk (Machine.execAliasRecordDrop line s) := by
  unfold Machine.execAliasRecordDrop
  refine MemOk.next ?_
  split
  · exact h.recallName.same
  · exact h

theorem MemOk.execRedArrival {n : Nat} (h : MemOk s) : OutOk (Machine.execRedArrival n s) := by
  unfold Machine.execRedArrival
  extract_lets t
  refine MemOk.next ?_
  split
  · exact h.applyRedId
  · exact h.applyRedId.wakeLines

theorem MemOk.execIinvAck {r : GRef} (h : MemOk s) :
    OutOk (Machine.execIinvAck r s) := (h.wakeIf (fun _ h₁ _ => h₁.wake)).next

/-! ### Broadcast invalidations (R212) -/

theorem MemOk.cleanLines {slot : Nat} {f : Nat → Nat → Bool} (h : MemOk s) :
    MemOk (Machine.cleanLines s slot f) := by
  unfold Machine.cleanLines
  extract_lets keys lines s₁
  have h₂ : MemOk s₁ := foldl_keeps (fun _ _ h₃ => h₃.recallName) h
  exact h₂.same

theorem MemOk.invalidateVa {slot va : Nat} (h : MemOk s) :
    MemOk (Machine.invalidateVa s slot va) := h.cleanLines.same

theorem MemOk.invalidateSlot {slot : Nat} (h : MemOk s) :
    MemOk (Machine.invalidateSlot s slot) := h.cleanLines.same

theorem MemOk.execTlbInvalidation {k : TlbInv} (h : MemOk s) : OutOk (Machine.execTlbInvalidation k s) := by
  unfold Machine.execTlbInvalidation
  refine MemOk.next ?_
  split
  · exact foldl_keeps (fun _ _ h₁ => h₁.invalidateVa) h
  · exact foldl_keeps (fun _ _ h₂ => h₂.invalidateSlot) h
  · exact foldl_keeps (fun _ _ h₃ => h₃.invalidateSlot) h

theorem MemOk.execTlbSync (h : MemOk s) : OutOk (Machine.execTlbSync s) := h.same.next

/-! ### The host's accesses (R195, R356, R435) -/

theorem MemOk.execHostWrite {pa : Nat} {data : List Byte} (h : MemOk s) :
    OutOk (Machine.execHostWrite pa data s) := by
  unfold Machine.execHostWrite
  refine MemOk.next ?_
  split
  · exact h.serveHost
  · exact h

theorem MemOk.hostLoad {pa size : Nat} (h : MemOk s) : MemOk (Machine.hostLoad s pa size) := by
  unfold Machine.hostLoad
  split
  · exact h.serveHost
  · exact h

theorem MemOk.execHostMemorySnoop {pa : Nat} {invalidate : Bool} (h : MemOk s) :
    OutOk (Machine.execHostMemorySnoop pa invalidate s) := by
  unfold Machine.execHostMemorySnoop
  refine MemOk.next ?_
  split
  · extract_lets line s₁ s₂
    have h₁ : MemOk s₂ := by
      unfold s₂
      split
      · exact h.recallLine.same
      · exact h.recallLine
    exact h₁.same
  · exact h.same

/-! ### The scrubber and lost lines -/

theorem MemOk.poisonAt {l : List Nat} (h : MemOk s) : MemOk (Machine.poisonAt s l) :=
  ⟨h.1, h.2.1, mwf_foldl_true _ h.2.2⟩

theorem MemOk.execScrubPass {block : Nat} {corrected : List (Nat × Nat)} {bad : List Nat} (h : MemOk s) :
    OutOk (Machine.execScrubPass block corrected bad s) := by
  unfold Machine.execScrubPass
  extract_lets stack base rec_ s₁ s₂
  have h₂ : MemOk s₁ := foldl_keeps (fun _ _ h₃ => h₃.postRecord) h
  refine MemOk.next ?_
  split
  · exact h₂
  · split
    · exact h₂.readBlock
    · exact h₂.readBlock.poisonAt.bumpCounter.postRecord

theorem MemOk.loseSlots {slots : List Nat} {unitKind unit : Nat} (h : MemOk s) :
    MemOk (Machine.loseSlots s slots unitKind unit) := foldl_keeps
      (fun _ _ h₁ => (foldl_keeps (fun _ _ h₂ => h₂.plainFault) h₁).postRecord) h

theorem MemOk.execDirtyEvictionError {x : LostLine} (h : MemOk s) :
    OutOk (Machine.execDirtyEvictionError x s) := by
  unfold Machine.execDirtyEvictionError
  refine MemOk.next ?_
  split
  · split
    · split
      · exact h.endTeam
      · exact h
    · exact h
  · exact h.recallName.poisonAt.postRecord
  · exact h.loseSlots
  · exact h.loseSlots

/-! ### Reads of more than one access by a word of a group (R159, R276) -/

theorem MemOk.bulkPiece {a : BulkAcc} {p : Nat × Nat} (h : MemOk a.s) :
    MemOk (Machine.bulkPiece c a p).s := by
  unfold Machine.bulkPiece
  split
  · exact h
  · extract_lets va
    split
    · exact h.readFor.out ‹_›
    · exact h.readFor.out ‹_›
    · exact h.readFor.out ‹_›
    · split
      · exact h.readFor.out ‹_›
      · split <;> exact h.readFor.out ‹_›
    · split <;> exact h.readFor.out ‹_›

theorem MemOk.withBulk {va : Word} {align n : Nat} {k : State → List Byte → State} (h : MemOk s)
    (hk : ∀ x, MemOk x → ∀ y, MemOk (k x y)) :
    MemOk (Machine.withBulk s c hd va align n k) := by
  unfold Machine.withBulk
  extract_lets first a
  have h₂ : MemOk a.s := foldl_keeps (P := fun a₂ : BulkAcc => MemOk a₂.s) (fun _ _ h₃ => h₃.bulkPiece) h
  split
  · exact h.trapAll
  · split
    · exact h.trapAll
    · split
      · exact h₂.dropFetched.trapAll
      · exact h₂.dropFetched.settle
      · exact h₂.blockWord
      · exact h₂.dropFetched.eatPoison
      · exact hk _ h₂ _
      · exact h₂.askPeers.blockWord

/-! ### The close of a slot -/

theorem MemOk.freeArea {die off n : Nat} (h : MemOk s) :
    MemOk (Machine.freeArea s die off n) := (h.putMem ..).same

theorem MemOk.closeSlot {n : Name} {late : Bool} (h : MemOk s) : MemOk (Machine.closeSlot s n late) := by
  unfold Machine.closeSlot
  split
  · split
    · extract_lets r range take s₁ s₂ s₃ s₄ u
      split
      · exact h.same.modEntry.freeArea.same
      · exact h.same.modEntry.freeArea.same.same.updateCell
    · exact h
  · exact h

/-! ### Creation (R276) -/

theorem MemOk.insertName {cls owner : Nat} {r : BitVec 352} {o : Obj} (h : MemOk s) :
    MemOk (Machine.insertName s cls owner r o).2 := by
  unfold Machine.insertName
  extract_lets n
  exact h.same

theorem MemOk.dropText {slot : Nat} {k : Kernel} (h : MemOk s) : MemOk (Machine.dropText s slot k) := h.same

theorem MemOk.claimName {s t : State} {m : Maker} {cls : Nat} {r : BitVec 352} {o : Obj} {n : Name}
    (h : MemOk s)
    (e : Machine.claimName s m cls r o = .ok (n, t)) : MemOk t := by
  unfold Machine.claimName at e
  extract_lets claim at e
  have hclaim : ∀ {x : Name × State}, MemOk x.2 → claim x = .ok (n, t) → MemOk t := by
    intro x hx e
    unfold claim at e
    split at e
    · cases e
    · exact hx.out (Except.ok.inj e)
  split at e
  · split at e
    · cases e
    · exact hclaim h.modEntry.insertName e
  · split at e
    · cases e
    · exact hclaim h.insertName e
  · exact hclaim h.insertName e

theorem MemOk.zeroPage {slot : Nat} {x : Xlat} {lo hi : Nat} (h : MemOk s) :
    MemOk (Machine.zeroPage s slot x lo hi) := foldl_keeps (fun _ _ h₁ => h₁.putGranule) h

/-- Whatever state a roll's table under way has come to is in canonical form. -/
def Zeroed.Keeps : Zeroed → Prop
  | .done s | .fault s _ | .line _ s => MemOk s
  | .bad _ => True

theorem MemOk.zeroTable {slot table bytes : Nat} (h : MemOk s) :
    Zeroed.Keeps (Machine.zeroTable s slot table bytes) := by
  unfold Machine.zeroTable
  extract_lets pages check
  have hc : Zeroed.Keeps check := by
    refine foldl_keeps (fun z p hz => ?_) (show Zeroed.Keeps (.done s) from h)
    split
    · next t =>
      have ht : MemOk t := hz
      split
      · trivial
      · split
        · exact ht.translate.out ‹_›
        · split
          · trivial
          · split <;> exact ht.translate.out ‹_›
    · exact hz
  generalize check = z at hc ⊢
  cases z with
  | done t =>
    refine foldl_keeps (P := MemOk) (fun u p hu => ?_) hc
    split
    · exact (hu.translate.out ‹_›).zeroPage
    · exact hu.translate.out ‹_›
  | fault t va => exact hc
  | bad va => trivial
  | line l t => exact hc

theorem MemOk.makeName {m : Maker} {cls : Nat} {img : BitVec 384}
    {read : State → Word → Nat → Nat → (State → List Byte → State) → State} {fail : State → Nat → State}
    {done : State → Name → State} {fault bad line : State → Nat → State} (h : MemOk s)
    (hread : ∀ s, MemOk s → ∀ a al n f, (∀ t, MemOk t → ∀ b, MemOk (f t b)) → MemOk (read s a al n f))
    (hfail : ∀ s, MemOk s → ∀ e, MemOk (fail s e)) (hdone : ∀ s, MemOk s → ∀ n, MemOk (done s n))
    (hfault : ∀ s, MemOk s → ∀ va, MemOk (fault s va)) (hbad : ∀ s, MemOk s → ∀ va, MemOk (bad s va))
    (hline : ∀ s, MemOk s → ∀ l, MemOk (line s l)) :
    MemOk (Machine.makeName m cls img read fail done fault bad line s) := by
  unfold Machine.makeName
  extract_lets r claim put at_
  have hclaim : ∀ {s o}, MemOk s → MemOk (claim s o) := by
    intro s o h
    unfold claim
    split
    · exact hfail _ h _
    · exact hdone _ (h.claimName ‹_›) _
  have hput : ∀ {s t}, MemOk s → MemOk (put s t) := fun h => hclaim h.dropText
  clear_value put claim
  split
  · exact hfail _ h _
  · split
    · split
      · exact hclaim h
      · exact hfail _ h _
    · split
      · exact hfail _ h _
      · split
        · split
          · exact hclaim h
          · exact hfail _ h _
        · exact hclaim h
    · split
      · exact hclaim h
      · exact hfail _ h _
    · split
      · exact hfail _ h _
      · refine hread _ h _ _ _ _ fun s₁ h₁ steps => hread _ h₁ _ _ _ _ fun s₂ h₂ table => ?_
        split
        · exact hclaim h₂
        · exact hfail _ h₂ _
    · split
      · exact hfail _ h _
      · have hz : Zeroed.Keeps
          (Machine.zeroTable s m.who.slot (fld r 0 56) (16 * fld r 56 15)) := MemOk.zeroTable h
        generalize Machine.zeroTable s m.who.slot (fld r 0 56) (16 * fld r 56 15) = z at hz ⊢
        cases z with
        | fault t va => exact hfault _ hz _
        | bad va => exact hbad _ h _
        | line l t => exact hline _ hz _
        | done t => exact hclaim hz
    · split
      · exact hclaim h
      · exact hfail _ h _
    · split
      · exact hclaim h
      · exact hfail _ h _
    · split
      · exact hfail _ h _
      · split
        · exact hput h
        · refine hread _ h _ _ _ _ fun s₁ h₁ hd => ?_
          split
          · exact hfail _ h₁ _
          · refine hread _ h₁ _ _ _ _ fun s₂ h₂ b => ?_
            split
            · exact hfail _ h₂ _
            · exact hput h₂
    · split
      · exact hclaim h
      · exact hfail _ h _

theorem MemOk.closeIfPast {n : Name} (h : MemOk s) : MemOk (Machine.closeIfPast s n) := by
  unfold Machine.closeIfPast
  split
  · split
    · split
      · exact h.closeSlot
      · exact h
    · exact h
  · exact h

theorem MemOk.execNnew {q : BitVec 3} {kd : BitVec 4} {cls : BitVec 8} {sa : BitVec 6} (h : MemOk s) :
    OutOk (Machine.execNnew hd q kd cls sa s) := by
  unfold Machine.execNnew
  extract_lets k
  refine h.onCur fun c => ?_
  split
  · exact h.blockWord
  · extract_lets va out
    split
    · exact h.dropFetched.reasonDone
    · split
      · exact h.wordFault
      · split
        · exact h.deliverFail ‹_›
        · refine h.pinFirst.afterSync fun s₁ h₁ => h₁.releaseAt.afterSync fun s₂ h₂ => ?_
          extract_lets c₁
          split
          · exact h₂.trapAll
          · exact h₂.withBulk fun s₃ h₃ img => h₃.makeName (fun _ h _ _ _ _ hf => h.withBulk hf)
              (fun _ h _ => h.dropFetched.reasonDone) (fun _ h _ => h.dropFetched.reasonDone.closeIfPast)
              (fun _ h _ => h.coreFault.blockWord) (fun _ h _ => h.trapAll) (fun _ h _ => h.blockWord)

/-! ### Retirement -/

theorem MemOk.shootDown {n : Name} {killer : Option (GRef × Nat)} (h : MemOk s) :
    MemOk (Machine.shootDown s n killer) := foldl_keeps
      (fun _ _ h₁ => h₁.wakeIf (fun _ h₂ _ => h₂.wake)) h.modEntry.same

theorem MemOk.execNkill {q : BitVec 3} {g : Bool} {ka : BitVec 4} (h : MemOk s) :
    OutOk (Machine.execNkill hd q g ka s) := by
  unfold Machine.execNkill
  refine h.onCur fun c => ?_
  extract_lets n
  split
  · exact h.blockWord
  · exact h.goneDone
  · split
    · exact h.reasonDone
    · exact h.pinFirst.afterSync (fun x h₁ => h₁.addPend.shootDown.finish)

/-! ### NRES, NMOV, NINFO (R279) -/

theorem MemOk.execNres {q : BitVec 3} {g : Bool} {ka : BitVec 4} (h : MemOk s) :
    OutOk (Machine.execNres hd q g ka s) := by
  unfold Machine.execNres
  refine h.onCur fun c => ?_
  extract_lets n
  split
  · exact h.goneDone
  · exact h.cacheName.reasonDone

theorem MemOk.execNmov {q : BitVec 3} {g : Bool} {kd ka : BitVec 4} (h : MemOk s) :
    OutOk (Machine.execNmov hd q g kd ka s) := by
  unfold Machine.execNmov
  refine h.onCur fun c => ?_
  extract_lets n
  split
  · exact h.blockWord
  · exact h.reasonDone
  · split
    · exact h.addPend.trapAll
    · exact h.reasonDone

theorem MemOk.execNinfo {q : BitVec 3} {g : Bool} {ka : BitVec 4} {sd : BitVec 6} {item : BitVec 8}
    (h : MemOk s) :
    OutOk (Machine.execNinfo hd q g ka sd item s) := by
  unfold Machine.execNinfo
  refine h.onCur fun c => ?_
  extract_lets n
  split
  · exact h.goneDone
  · extract_lets s₁
    have h₁ : MemOk s₁ := by
      unfold s₁
      split
      · exact h.flushRoll
      · exact h
    exact h₁.reasonDone

/-! ### Names in memory (R280 to R282) -/

theorem MemOk.eatAll {t : Tag} {va : Word} (h : MemOk s) : MemOk (Machine.eatAll s c hd t va) := h.eatPoison

theorem MemOk.askName {o : MOrd} {x : Xlat} {va : Word} {op : PeerOp} {dst : Nat → PeerDst} (h : MemOk s) :
    MemOk (Machine.askName s c hd o x va op dst) := by
  unfold Machine.askName
  split
  · exact h.trapAll
  · split
    · exact h.trapAll
    · split
      · exact h.blockWord
      · extract_lets s'
        refine MemOk.finish ?_
        split
        · exact h.addPend.sendPeer.waitFor
        · exact h.addPend.sendPeer

theorem MemOk.execNld {q : BitVec 3} {o : MOrd} {kd : BitVec 4} {m : MemOp} (h : MemOk s) :
    OutOk (Machine.execNld hd q o kd m s) := by
  unfold Machine.execNld
  refine h.memWord fun x => ?_
  extract_lets va
  split
  · exact h.blockWord
  · exact (h.readFor.out ‹_›).trapAll
  · exact (h.readFor.out ‹_›).settle
  · exact (h.readFor.out ‹_›).blockWord
  · exact (h.readFor.out ‹_›).askName
  · split
    · exact (h.readFor.out ‹_›).eatAll
    · exact (h.readFor.out ‹_›).withAcquire.reasonDone

theorem MemOk.execNst {q : BitVec 3} {o : MOrd} {kx : BitVec 4} {m : MemOp} (h : MemOk s) :
    OutOk (Machine.execNst hd q o kx m s) := by
  unfold Machine.execNst
  refine h.memWord fun x => ?_
  extract_lets n va
  split
  · exact h.blockWord
  · refine h.withRelease fun x₁ h₁ => ?_
    extract_lets c code
    split
    · exact h₁.trapAll
    · exact h₁.pinFirst.afterSync (fun x₂ h₂ => h₂.scalarStore (fun x₃ h₃ y => h₃.reasonDone))

theorem MemOk.holdName {n : Name} {up : Bool} (h : MemOk s) : MemOk (Machine.holdName s n up) := h.modEntry

theorem MemOk.casAt {q : BitVec 3} {o : MOrd} {knew kexp : BitVec 4} {va : Word} {place : Acc189} {g0 : Gran}
    (h : MemOk s) :
    MemOk (Machine.casAt s c hd q o knew kexp va place g0) := by
  unfold Machine.casAt
  extract_lets new key
  split
  split
  · refine (MemOk.out ?_ ‹_›).blockWord
    split
    · exact h.rmwBar
    · exact h
  · split
    split
    · refine (MemOk.out ?_ ‹_›).eatAll
      split
      · refine (MemOk.out ?_ ‹_›).rmwTake
        split <;> exact h.rmwBar
      · refine MemOk.out ?_ ‹_›
        split
        · exact h.rmwBar
        · exact h
    · extract_lets old same w s₁
      have h₁ : MemOk s₁ := by
        unfold s₁
        split
        · refine MemOk.out ?_ ‹_›
          split
          · refine (MemOk.out ?_ ‹_›).rmwTake
            split <;> exact h.rmwBar
          · refine MemOk.out ?_ ‹_›
            split
            · exact h.rmwBar
            · exact h
        · split
          · refine (MemOk.out ?_ ‹_›).performAt ..
            split
            · refine (MemOk.out ?_ ‹_›).rmwTake
              split
              · exact h.rmwBar
              · exact h
            · refine MemOk.out ?_ ‹_›
              split
              · exact h.rmwBar
              · exact h
          · refine (MemOk.out ?_ ‹_›).rmwPut
            split
            · refine (MemOk.out ?_ ‹_›).rmwTake
              split <;> exact h.rmwBar
            · refine (MemOk.out ?_ ‹_›).rmwTake
              split <;> exact h.rmwBar
          · refine MemOk.out ?_ ‹_›
            split
            · refine (MemOk.out ?_ ‹_›).rmwTake
              split <;> exact h.rmwBar
            · refine MemOk.out ?_ ‹_›
              split
              · exact h.rmwBar
              · exact h
      exact h₁.withAcquire.reasonDone

theorem MemOk.execNcas {live : Bool} {q : BitVec 3} {o : MOrd} {knew kexp : BitVec 4} {m : MemOp}
    (h : MemOk s) :
    OutOk (Machine.execNcas hd live q o knew kexp m s) := by
  unfold Machine.execNcas
  refine h.memWord fun x => ?_
  extract_lets va
  split
  · exact h.blockWord
  · split
    · exact h.blockWord
    · refine h.withRelease (fun x₁ h₁ => h₁.pinFirst.afterSync (fun x₂ h₂ => ?_))
      extract_lets s₁ c new code exp
      split
      · split
        · exact h₂.drainGroup.trapAll
        · exact h₂.drainGroup.reasonDone
      · split
        · exact (h₂.drainGroup.readFor.out ‹_›).trapAll
        · exact (h₂.drainGroup.readFor.out ‹_›).settle
        · exact (h₂.drainGroup.readFor.out ‹_›).blockWord
        · extract_lets s'
          split
          · exact (h₂.drainGroup.readFor.out ‹_›).askName.holdName
          · exact (h₂.drainGroup.readFor.out ‹_›).askName
        · exact (h₂.drainGroup.readFor.out ‹_›).casAt

/-! ### BANKCFG (R197) -/

theorem MemOk.setBank {cluster bank : Nat} {m : BankMode} (h : MemOk s) :
    MemOk (Machine.setBank s cluster bank m) := h.same

theorem MemOk.zeroBank {cluster bank : Nat} (h : MemOk s) : MemOk (Machine.zeroBank s cluster bank) :=
  ⟨mwf_filter _ _ h.1, mwf_filter _ _ h.2.1, mwf_filter _ _ h.2.2⟩

theorem MemOk.leaveCache {cluster : Nat} (h : MemOk s) : MemOk (Machine.leaveCache s cluster) := by
  unfold Machine.leaveCache
  extract_lets mine s₁
  have h₂ : MemOk s₁ := foldl_keeps (fun _ _ h₃ => h₃.grantLine) h
  exact h₂.same

theorem MemOk.execBankcfg {q : BitVec 3} {sb : BitVec 6} {mode : BankMode} (h : MemOk s) :
    OutOk (Machine.execBankcfg hd q sb mode s) := by
  unfold Machine.execBankcfg
  refine h.onCur fun c => ?_
  split
  · exact h.wordFault
  · split
    · exact h.blockWord
    · refine h.pinFirst.afterSync fun x h₁ => ?_
      extract_lets c₁ b cl out s₁
      have h₂ : MemOk s₁ := by
        unfold s₁
        refine MemOk.setBank ?_
        split
        · exact h₁.leaveCache
        · exact h₁
      split
      · exact h₁.resultDone
      · split
        · exact h₁.resultDone
        · split
          · exact h₁.resultDone
          · refine MemOk.resultDone ?_
            split
            · exact h₂.zeroBank
            · exact h₂

/-! ### Places -/

theorem MemOk.engPlace {w : Who} {va : Nat} {k : AK} (h : MemOk s) :
    MemOk (Machine.engPlace s w va k).2 := by
  unfold Machine.engPlace
  split <;> exact h.check189.out ‹_›

theorem MemOk.engRead {rd : Reader} {w : Who} {va n : Nat} (h : MemOk s) :
    MemOk (Machine.engRead s rd w va n).2 := by
  unfold Machine.engRead
  extract_lets val
  split
  · exact h
  · split
    · exact h.engPlace.out ‹_›
    · exact h.engPlace.out ‹_›
    · split <;> exact h.engPlace.out ‹_›
    · split
      · split <;> exact h.engPlace.out ‹_›
      · split
        · exact h.engPlace.out ‹_›
        · extract_lets s₁
          exact (h.engPlace.out ‹_›).aliasFill

/-! ### Elements (R266) -/

theorem MemOk.readRaw {rd : Reader} {w : Who} {r : BitVec 352} {i : List Nat} (h : MemOk s) :
    MemOk (Machine.readRaw s rd w r i).2 := by
  unfold Machine.readRaw
  split
  · exact h
  · split
    · split
      · split <;> exact (h.engRead.out ‹_›).engRead.out ‹_›
      · exact h.engRead.out ‹_›
    · exact h.engRead.out ‹_›

theorem MemOk.readEl {rd : Reader} {w : Who} {r : BitVec 352} {i : List Nat} (h : MemOk s) :
    MemOk (Machine.readEl s rd w r i).2 := by
  unfold Machine.readEl
  split <;> exact h.readRaw.out ‹_›

/-! ### Writing -/

theorem MemOk.engPut {loc : Nat} {tagged : Bool} {bytes : List (Nat × Byte)} {tags : List (Nat × Tag)}
    {poison : Bool} (h : MemOk s) :
    MemOk (Machine.engPut s loc tagged bytes tags poison) := by
  unfold Machine.engPut
  extract_lets s₁
  split
  · exact (h.performAt ..).poisonAt
  · exact h.performAt ..

theorem MemOk.engPutAt {slot : Nat} {p : EPlace} {va : Nat} {bytes : List (Nat × Byte)}
    {tags : List (Nat × Tag)} {poison : Bool} (h : MemOk s) :
    MemOk (Machine.engPutAt s slot p va bytes tags poison) := by
  unfold Machine.engPutAt
  split
  · exact h.engPut
  · split
    · exact h
    · extract_lets s₁
      split
      · exact h.aliasFill.performLine.poisonAt
      · exact h.aliasFill.performLine
  · exact h

theorem MemOk.putGranEls {slot : Nat} {p : EPlace} {va handle : Nat} {ds : List DstEl} (h : MemOk s) :
    MemOk (Machine.putGranEls s slot p va handle ds) := h.engPutAt

theorem MemOk.takeLine {k : Nat} (h : MemOk s) : MemOk (Machine.takeLine s k) := by
  unfold Machine.takeLine
  split
  · exact h
  · exact h.recallLine

/-! ### Peers -/

theorem MemOk.askBlock {s t : State} {core : Nat} {dst : Nat → PeerDst} {x : Xlat} {vas : List (Nat × Nat)}
    {va : Nat}
    (h : MemOk s) (e : Machine.askBlock s core dst x vas va = .ok t) : MemOk t := by
  unfold Machine.askBlock at e
  extract_lets blk lo hi at e
  split at e
  · cases e
  · split at e
    · cases e
    · split at e <;> cases e
      · exact h
      · exact h.sendPeer

/-! ### Issue (R288, R290) -/

theorem MemOk.modCmd {n : Nat} {f : Cmd → Cmd} (h : MemOk s) : MemOk (Machine.State.modCmd s n f) := h.same

theorem MemOk.enqueueCmd {x : Cmd} (h : MemOk s) : MemOk (Machine.enqueueCmd s c x) := by
  unfold Machine.enqueueCmd
  extract_lets lines s₁ s₂ s₃
  have h₂ : MemOk s₁ := foldl_keeps (fun _ _ h₃ => h₃.takeLine) h
  have h₄ : MemOk s₃ := by
    unfold s₃
    split
    · exact h₂.cacheName
    · exact h₂.cacheName.cacheName
  exact h₄.same.wakeIslands.same

theorem MemOk.checkCell {w : Who} {cell : Word} (h : MemOk s) : MemOk (Machine.checkCell s w cell).2 := by
  unfold Machine.checkCell
  split
  · exact h
  · split
    split <;> exact h.check189.out ‹_›

theorem MemOk.engineWord {kind : CmdKind} {x : XArgs} (h : MemOk s) :
    OutOk (Machine.engineWord s hd kind x) := by
  unfold Machine.engineWord
  refine h.onCur fun c => ?_
  extract_lets sreg cell dn sn
  split
  · exact h.blockWord
  · split
    · exact h.goneDone
    · extract_lets src
      split
      · clear_value cell src
        split
        · exact h.goneDone
        · exact (h.checkCell.out ‹_›).trapAll
      · clear_value cell src
        split
        · exact h.goneDone
        · exact (h.checkCell.out ‹_›).coreFault.blockWord
      · clear_value sreg cell dn sn src
        split
        · exact h.goneDone
        · split
          · exact (h.checkCell.out ‹_›).reasonDone
          · split
            · exact (h.checkCell.out ‹_›).reasonDone
            · split
              · exact (h.checkCell.out ‹_›).blockWord
              · exact (h.checkCell.out ‹_›).pinFirst.afterSync (fun x₁ h₁ => h₁.same.enqueueCmd.reasonDone)

theorem MemOk.execXcopy {x : XArgs} (h : MemOk s) : OutOk (Machine.execXcopy hd x s) := h.engineWord

theorem MemOk.execXformDec {x : XArgs} (h : MemOk s) : OutOk (Machine.execXformDec hd x s) := h.engineWord

theorem MemOk.execXformPerm {x : XArgs} (h : MemOk s) : OutOk (Machine.execXformPerm hd x s) := h.engineWord

theorem MemOk.execXformCvt {x : XArgs} (h : MemOk s) : OutOk (Machine.execXformCvt hd x s) := h.engineWord

theorem MemOk.execXformFill {x : XArgs} (h : MemOk s) : OutOk (Machine.execXformFill hd x s) := h.engineWord

theorem MemOk.execXstat {sa sc : BitVec 6} (h : MemOk s) :
    OutOk (Machine.execXstat hd sa sc s) := h.resultWord

/-! ### Start (R284, R295, R297) -/

theorem MemOk.beginCmd {c : Cmd} {late : Bool} (h : MemOk s) : MemOk (Machine.beginCmd s c late) := by
  unfold Machine.beginCmd
  extract_lets run n
  split
  · split
    · split
      · exact h.modEntry.modCmd
      · exact h.modCmd
    · exact h
  · exact h.modCmd

theorem MemOk.execEngineCommandStart {e : EngRef} (h : MemOk s) :
    OutOk (Machine.execEngineCommandStart e s) := by
  unfold Machine.execEngineCommandStart
  refine MemOk.next ?_
  split
  · split
    · exact h
    · split
      · split
        · exact h.beginCmd
        · split
          · exact h.same
          · exact h.same.beginCmd
      · exact h.beginCmd
  · exact h

theorem MemOk.execEngineStartTime {e : EngRef} (h : MemOk s) : OutOk (Machine.execEngineStartTime e s) := by
  unfold Machine.execEngineStartTime
  refine MemOk.next ?_
  split
  · split
    · exact h.same.beginCmd
    · exact h
  · exact h

/-! ### Writing the box -/

theorem MemOk.cmd_place {c : Cmd} {va : Nat} (h : MemOk s) : MemOk (Machine.Cmd.place s c va).2 := by
  unfold Machine.Cmd.place
  split
  · exact h
  · split
    · exact h
    · exact h.engPlace

theorem MemOk.firstHalt {c : Cmd} {els : List DstEl} (h : MemOk s) :
    MemOk (Machine.firstHalt c s els).s := by
  unfold Machine.firstHalt
  extract_lets ahead
  refine foldl_keeps (P := fun a : HaltAcc => MemOk a.s) (fun _ _ h₁ => ?_) h
  extract_lets put
  split
  · exact h₁
  · split
    · exact h₁.cmd_place.out ‹_›
    · split <;> exact h₁.cmd_place.out ‹_›
    · split <;> exact h₁.cmd_place.out ‹_›
    · exact h₁.cmd_place.out ‹_›

theorem MemOk.cmdHandle {c : Cmd} {els : List DstEl} (h : MemOk s) :
    MemOk (Machine.cmdHandle s c els).2 := by
  unfold Machine.cmdHandle
  split
  · exact h
  · split
    · split
      exact (h.internBirth.out ‹_›).same
    · exact h

theorem MemOk.spillEls {c : Cmd} {g hd : Nat} {ds : List DstEl} (h : MemOk s) :
    MemOk (Machine.spillEls s c g hd ds) := by
  unfold Machine.spillEls
  extract_lets again first s₁
  split
  · exact h.same
  · exact h.same.raiseFault

theorem MemOk.writeEls {c : Cmd} {els : List DstEl} (h : MemOk s) : MemOk (Machine.writeEls s c els) := by
  unfold Machine.writeEls
  split
  refine foldl_keeps (fun _ _ h₁ => ?_) (h.cmdHandle.out ‹_›)
  extract_lets ds
  split
  · exact (h₁.cmd_place.out ‹_›).spillEls
  · exact (h₁.cmd_place.out ‹_›).putGranEls

theorem MemOk.endBox {c : Cmd} {n : Nat} {code : Option Nat} (h : MemOk s) :
    MemOk (Machine.endBox s c n code) := h.same

theorem MemOk.sendRun {c : Cmd} {rest : List DstEl} (h : MemOk s) : MemOk (Machine.sendRun c s rest) := by
  unfold Machine.sendRun
  split
  · exact h
  · split
    · extract_lets op
      split
      · exact (h.cmd_place.out ‹_›).sendPeer
      · exact h.cmd_place.out ‹_›
    · exact h.cmd_place.out ‹_›

theorem MemOk.sendUnit {c : Cmd} {ext : List Nat} {els : List DstEl} {n : Nat} (h : MemOk s) :
    MemOk (Machine.sendUnit s c ext els n) := by
  unfold Machine.sendUnit
  extract_lets row rest m unit near runs held
  split
  · exact h
  · exact h.endBox
  · exact h.endBox
  · exact h.raiseFault
  · exact h
  · exact h
  · exact (foldl_keeps (fun _ _ h₁ => h₁.sendRun) h.writeEls).modCmd

theorem MemOk.haltCmd {c : Cmd} {ext : List Nat} {els : List DstEl} {n : Nat} {hd : Halt} {dst : Bool}
    (h : MemOk s) :
    MemOk (Machine.haltCmd s c ext els n hd dst) := by
  unfold Machine.haltCmd
  split
  · exact h.writeEls.endBox
  · extract_lets k s₁
    split
    · exact h.writeEls.same.raiseFault
    · split
      · exact h.writeEls.same.sendUnit
      · split
        · exact h.writeEls.same.askBlock ‹_›
        · exact h.writeEls.same.writeEls.endBox
    · exact h.writeEls.same

/-! ### A source that overlaps the destination (R287) -/

theorem MemOk.overFetched {owner : Nat} {els : List DstEl} (h : MemOk s) :
    MemOk (Machine.overFetched s owner els) := h.same

theorem MemOk.asWritten {c : Cmd} {els : List DstEl} (h : MemOk s) :
    MemOk (Machine.asWritten s c els) := h.writeEls.overFetched

/-! ### Reading the source (R285, R291) -/

theorem MemOk.readSrcs {c : Cmd} {ext : List Nat} (h : MemOk s) : MemOk (Machine.readSrcs s c ext).s := by
  unfold Machine.readSrcs
  extract_lets lo
  refine foldl_keeps (P := fun a : SrcAcc => MemOk a.s) (fun _ _ h₁ => ?_) h
  split
  · exact h₁
  · split <;> exact h₁.readRaw.out ‹_›

/-! ### XFORM.dec (R303, R304) -/

theorem MemOk.decByte {c : Cmd} {a : DecAcc} (h : MemOk a.s) : MemOk (Machine.decByte c a).2.s := by
  unfold Machine.decByte
  extract_lets take read
  split
  · exact h
  · exact h
  · split
    · exact h
    · split <;> exact h.readRaw.out ‹_›

theorem MemOk.decPut {room : Nat} {a : DecAcc} {b : Byte} (h : MemOk a.s) :
    MemOk (Machine.decPut room a b).s := by
  unfold Machine.decPut
  split
  · exact h
  · split <;> exact h

theorem MemOk.decLiteral {c : Cmd} {room n : Nat} {a : DecAcc} (h : MemOk a.s) : MemOk
    (Machine.decLiteral c room n a).s := by
  induction n generalizing a with
  | zero => exact h
  | succ n ih =>
    unfold Machine.decLiteral
    split
    · exact h
    · exact ih h.decByte.decPut

theorem MemOk.decRef {room dist n : Nat} {a : DecAcc} (h : MemOk a.s) : MemOk
    (Machine.decRef room dist n a).s := by
  induction n generalizing a with
  | zero => exact h
  | succ n ih => exact ih h.decPut

theorem MemOk.decTokens {c : Cmd} {n room fuel : Nat} {a : DecAcc} (h : MemOk a.s) :
    MemOk (Machine.decTokens c n room fuel a).s := by
  induction fuel generalizing a with
  | zero => exact h
  | succ fuel ih =>
    unfold Machine.decTokens
    have h₁ := h.decByte (c := c)
    generalize Machine.decByte c a = p at h₁ ⊢
    have h₂ := h₁.decByte (c := c)
    obtain ⟨t, a₁⟩ := p
    generalize hq : Machine.decByte c a₁ = q at h₂
    obtain ⟨lo, a₂⟩ := q
    dsimp only
    rw [hq]
    dsimp only at h₁ h₂ ⊢
    split
    · exact h
    · split
      · exact h₁
      · split
        · split
          · exact h₁
          · exact ih h₁.decLiteral
        · split
          · exact h₂
          · split
            · exact h₂
            · exact ih h₂.decRef

theorem MemOk.decodeStream {c : Cmd} {free : Option Nat} (h : MemOk s) :
    MemOk (Machine.decodeStream s c free).s := by
  have byte : ∀ {a : DecAcc}, MemOk a.s → MemOk (Machine.decByte c a).2.s := fun h => h.decByte
  have h₀ : MemOk (⟨s, c.got, free, (originOf c.sb).getD 0 0, [], [], false, none⟩ : DecAcc).s := h
  have h₄ := byte (byte (byte (byte h₀)))
  unfold Machine.decodeStream
  dsimp only
  split
  · exact h₄
  · exact h₄.decTokens

/-! ### One attempt -/

theorem MemOk.boxEls {c : Cmd} {ext : List Nat} (h : MemOk s) : MemOk (Machine.boxEls s c ext).s := by
  unfold Machine.boxEls
  extract_lets own f a got a₁ got₁ els base
  have h₁ : MemOk a.s := by
    unfold a
    refine MemOk.decodeStream ?_
    split
    · exact h.same
    · exact h
  have h₂ : MemOk a₁.s := h.readSrcs
  have h₃ : MemOk base := h₂
  split
  · exact h
  · split <;> exact h₁
  · split
    · exact h₂
    · split
      · exact h₃.same
      · exact h₂

theorem MemOk.runCmd {c : Cmd} (h : MemOk s) : MemOk (Machine.runCmd s c) := by
  unfold Machine.runCmd
  extract_lets ext b keep a c₁
  have h₁ : MemOk b.s := h.boxEls
  have h₂ : MemOk a.s := h₁.same.firstHalt
  split
  · exact h₂.haltCmd
  · split <;> exact h₂.haltCmd
  · exact h₂.haltCmd
  · exact h₂.writeEls.endBox

theorem MemOk.releaseWritten {n : Nat} (h : MemOk s) : MemOk (Machine.releaseWritten s n) := by
  unfold Machine.releaseWritten
  split
  · exact h
  · extract_lets spilt left done keep lines
    split
    · exact h
    · exact h.same.wakeLines

/-! ### End (R299) -/

theorem MemOk.fillSlot {c : Cmd} (h : MemOk s) : MemOk (Machine.fillSlot s c) := by
  unfold Machine.fillSlot
  split
  · exact h.modEntry
  · exact h

theorem MemOk.dropCmd {c : Cmd} (h : MemOk s) :
    MemOk (Machine.dropCmd s c) := h.fillSlot.same.same.wakeLines

theorem MemOk.finishCmd {c : Cmd} (h : MemOk s) : MemOk (Machine.finishCmd s c) := by
  unfold Machine.finishCmd
  extract_lets status bytes
  split
  · exact h.dropCmd
  · split
    · exact h
    · split
      split
      · exact (h.check189.out ‹_›).raiseFault
      · split
        · exact h.check189.out ‹_›
        · exact ((h.check189.out ‹_›).performAt ..).dropCmd
      · split
        · exact h.check189.out ‹_›
        · exact (h.check189.out ‹_›).cellHome.dropCmd
      · exact (h.check189.out ‹_›).dropCmd

theorem MemOk.execEngineCommandEnd {cmd : Nat} (h : MemOk s) :
    OutOk (Machine.execEngineCommandEnd cmd s) := by
  unfold Machine.execEngineCommandEnd
  refine MemOk.next ?_
  split
  · split
    · exact h
    · extract_lets s₁
      have h₁ : MemOk s₁ := by
        unfold s₁
        refine MemOk.releaseWritten ?_
        split
        · exact h
        · exact h.runCmd
      split
      · split
        · exact h₁.finishCmd
        · exact h₁
      · exact h₁
  · exact h

theorem MemOk.execCbFullTimeout {cmd : Nat} (h : MemOk s) : OutOk (Machine.execCbFullTimeout cmd s) := by
  unfold Machine.execCbFullTimeout
  refine MemOk.next ?_
  split
  · split
    · split
      · exact h.same
      · exact h
    · exact h
  · exact h

theorem MemOk.loseSpill {x : Spill} {code : Nat} (h : MemOk s) :
    MemOk (Machine.loseSpill s x code) := h.same.same

theorem MemOk.sendSpill {c : Cmd} {y : Xlat} {x : Spill} (h : MemOk s) :
    MemOk (Machine.sendSpill s c y x) := by
  unfold Machine.sendSpill
  extract_lets runs
  split
  · exact h.loseSpill
  · exact h
  · refine foldl_keeps (fun _ _ h₁ => ?_) h.same
    split
    · exact h₁.sendPeer
    · exact h₁

theorem MemOk.replaySpill {x : Spill} (h : MemOk s) : MemOk (Machine.replaySpill s x) := by
  unfold Machine.replaySpill
  split
  · exact h
  · extract_lets oldest
    split
    · exact h
    · split
      · exact (h.engPlace.out ‹_›).raiseFault
      · exact (h.engPlace.out ‹_›).loseSpill
      · split
        · exact (h.engPlace.out ‹_›).sendSpill
        · exact (h.engPlace.out ‹_›).same.engPutAt
      · exact (h.engPlace.out ‹_›).same.engPutAt

theorem MemOk.execTransformSpillReplay {cmd : Nat} (h : MemOk s) :
    OutOk (Machine.execTransformSpillReplay cmd s) := by
  unfold Machine.execTransformSpillReplay
  refine MemOk.next ?_
  split
  · exact foldl_keeps (fun _ _ h₂ => h₂.releaseWritten) (foldl_keeps (fun _ _ h₁ => h₁.replaySpill) h)
  · exact h

theorem MemOk.execEngineQueueWake {g : GRef} (h : MemOk s) :
    OutOk (Machine.execEngineQueueWake g s) := (h.wakeIf (fun _ h₁ _ => h₁.wake)).next

theorem MemOk.execEmulatedTileOp {cmd : Nat} (h : MemOk s) : OutOk (Machine.execEmulatedTileOp cmd s) := by
  unfold Machine.execEmulatedTileOp
  refine MemOk.next ?_
  split
  · split
    · exact h.bumpCounter.same
    · exact h
  · split
    · exact h.bumpCounter.same
    · exact h
  · exact h

/-! ### Slots -/

theorem MemOk.modAcc {key : Nat} {f : Acc → Acc} (h : MemOk s) : MemOk (Machine.State.modAcc s key f) := by
  unfold Machine.State.modAcc
  split
  · exact h.same
  · exact h

theorem MemOk.useHeld {s t : State} {key : Nat} {a : Acc} (h : MemOk s)
    (e : Machine.useHeld s c key a = .go t) : MemOk t := by
  unfold Machine.useHeld at e
  split at e
  · cases e
    exact h.modAcc
  · split at e <;> cases e
    exact h
  · split at e
    · cases e
    · split at e <;> cases e
      exact h
  · cases e

theorem MemOk.stayParked {key : Nat} {done parks : List Nat} (h : MemOk s) :
    MemOk (Machine.stayParked s c key done parks) := h.modAcc

theorem MemOk.heldWord {slot : BitVec 6} {k : State → Nat → Nat → State} (h : MemOk s)
    (hk : ∀ t, MemOk t → ∀ key p, MemOk (k t key p)) : MemOk (Machine.heldWord s c slot k) := by
  unfold Machine.heldWord
  split
  · exact h
  · split
    · exact hk _ (h.useHeld ‹_›) _ _
    · exact h.blockWord
    · exact h.wordFault

/-! ### AREL, AACQ, AZERO (R307, R317, R318) -/

theorem MemOk.execArel {slot : BitVec 6} (h : MemOk s) : OutOk (Machine.execArel hd slot s) := by
  unfold Machine.execArel
  refine h.onCur fun c => ?_
  split
  · exact h.wordFault
  · exact h.heldWord (fun t h₁ key _ => h₁.modAcc.finish)

theorem MemOk.execArelHandover {core slot : Nat} (h : MemOk s) :
    OutOk (Machine.execArelHandover core slot s) := by
  unfold Machine.execArelHandover
  extract_lets key
  refine MemOk.next ?_
  split
  · split
    · split
      · exact h
      · exact h.modAcc.wakeIf (fun x h₁ _ => h₁.wake)
    · exact h
  · exact h

theorem MemOk.takeSlot {key : Nat} (h : MemOk s) : MemOk (Machine.takeSlot s c key) := by
  unfold Machine.takeSlot
  split
  · exact h
  · extract_lets s₁
    split
    · exact h.modAcc.finish
    · exact h.modAcc.raiseTraps

theorem MemOk.execAacq {slot : BitVec 6} (h : MemOk s) : OutOk (Machine.execAacq hd slot s) := by
  unfold Machine.execAacq
  refine h.onCur fun c => ?_
  split
  · exact h.wordFault
  · split
    · exact h
    · extract_lets key
      split
      · exact h.takeSlot
      · exact h.wordFault
      · split
        · exact h.blockWord
        · exact h.wordFault
      · split
        · exact h.takeSlot
        · exact h.modAcc.waitFor

theorem MemOk.execAacqComplete {g : GRef} (h : MemOk s) : OutOk (Machine.execAacqComplete g s) := by
  unfold Machine.execAacqComplete
  refine MemOk.next ?_
  split
  · split
    · split
      · extract_lets key s₁ s₂ s₃
        have h₁ : MemOk s₃ := by
          unfold s₃
          split
          · exact h.modAcc.wake.takeSlot
          · exact h.modAcc.wake
        split
        · split
          · exact h
          · extract_lets late
            refine foldl_keeps (fun _ _ h₂ => ?_) h₁
            split
            · exact h₂.endTeam
            · exact h₂
        · exact h
      · exact h
    · exact h
  · exact h

theorem MemOk.execAzero {slot : BitVec 6} (h : MemOk s) : OutOk (Machine.execAzero hd slot s) := by
  unfold Machine.execAzero
  refine h.onCur fun c => ?_
  split
  · exact h.wordFault
  · refine h.heldWord fun s₁ h₁ key _ => ?_
    extract_lets births
    split
    next s₂ e =>
    have h₂ : MemOk s₂ := by
      split at e
      · exact h₁.internFor.out e
      · cases e
        exact h₁
    exact h₂.modAcc.finish

/-! ### MMA at issue (R308 to R310) -/

theorem MemOk.mmaReason {code : Nat} (h : MemOk s) : MemOk (Machine.mmaReason s c hd code) := h.same.finish

theorem MemOk.execMma {scaled g pop : Bool} {kx ky : BitVec 4} {sa sb slot : BitVec 6} (h : MemOk s) :
    OutOk (Machine.execMma hd scaled g pop kx ky sa sb slot s) := by
  unfold Machine.execMma
  refine h.onCur fun c => ?_
  split
  · exact h.wordFault
  · split
    · exact h
    · split
      · exact h.blockWord
      · split
        · exact h.wordFault
        · extract_lets an bn wa wb gone
          have hgone : ∀ code, MemOk (gone code) := by
            intro code
            unfold gone
            split
            · exact h.trapAll
            · exact h.mmaReason
          split
          · exact hgone _
          · exact hgone _
          · split
            · exact h.mmaReason
            · split
              · exact h.mmaReason
              · split
                · exact h.blockWord
                · extract_lets pins
                  refine MemOk.afterSync ?_ fun s₁ h₁ => h₁.cacheName.cacheName.same.mmaReason
                  split
                  · exact h.pinFirst
                  · exact h

theorem MemOk.execMatrixQueueWake {g : GRef} (h : MemOk s) : OutOk (Machine.execMatrixQueueWake g s) := by
  unfold Machine.execMatrixQueueWake
  refine MemOk.next ?_
  split
  · exact h.wakeIf (fun x h₁ _ => h₁.wake)
  · exact h

/-! ### The tile fetch unit (R314 to R316) -/

theorem MemOk.tileBytes {m : Mma} {r : BitVec 352} {cb : Nat} {i : List Nat} (h : MemOk s) :
    MemOk (Machine.tileBytes s m r cb i).2 := by
  unfold Machine.tileBytes
  split
  · split
    extract_lets loc g
    exact h
  · exact h.engRead

theorem MemOk.tileEl {m : Mma} {r : BitVec 352} {cb : Nat} {i : List Nat} (h : MemOk s) :
    MemOk (Machine.tileEl s m r cb i).2 := by
  unfold Machine.tileEl
  extract_lets f inside
  split
  · exact h
  · split
    · extract_lets v
      split
      · split
        · split <;> exact (h.tileBytes.out ‹_›).engRead.out ‹_›
        · exact (h.tileBytes.out ‹_›).engRead.out ‹_›
      · exact h.tileBytes.out ‹_›
    · exact h.tileBytes.out ‹_›

theorem MemOk.fetchList {m : Mma} {r : BitVec 352} {cb : Nat} {is : List (List Nat)} (h : MemOk s) :
    MemOk (Machine.fetchList m r cb is s).s := by
  unfold Machine.fetchList
  refine foldl_keeps (P := fun a : FetchAcc => MemOk a.s) (fun _ _ h₁ => ?_) h
  split
  · exact h₁
  · split <;> exact h₁.tileEl.out ‹_›

theorem MemOk.fetchRows {m : Mma} {r : BitVec 352} {cb : Nat} {ks : List Nat} {ix : Nat → List (List Nat)}
    (h : MemOk s) :
    MemOk (Machine.fetchRows m r cb ks ix s).2.2 := by
  unfold Machine.fetchRows
  refine foldl_keeps (P := fun a : List (List TEl) × Option ERead × State => MemOk a.2.2) (fun _ _ h₁ => ?_) h
  split
  · exact h₁
  · extract_lets f
    have h₂ : MemOk f.s := h₁.fetchList
    exact h₂

theorem MemOk.fetchBlock {m : Mma} {cbA cbB b : Nat} (h : MemOk s) :
    MemOk (Machine.fetchBlock s m cbA cbB b).2 := by
  unfold Machine.fetchBlock
  extract_lets ks
  split
  · split <;> exact (h.fetchRows.out₂ ‹_›).fetchRows.out₂ ‹_›
  · exact h.fetchRows.out₂ ‹_›

theorem MemOk.fetchAll {m : Mma} {cbA cbB : Nat} (h : MemOk s) :
    MemOk (Machine.fetchAll s m cbA cbB).2.2 := by
  unfold Machine.fetchAll
  refine foldl_keeps (P := fun a : List Block × Option ERead × State => MemOk a.2.2) (fun _ _ h₁ => ?_) h
  split
  · exact h₁
  · split <;> exact h₁.fetchBlock.out ‹_›

/-! ### Execution -/

theorem MemOk.popSlot {n : Name} {r : BitVec 352} (h : MemOk s) : MemOk (Machine.popSlot s n r) := by
  unfold Machine.popSlot
  split
  · exact h
  · exact h.modEntry

theorem MemOk.slotEvent {key : Nat} {e : AccEvent} (h : MemOk s) :
    MemOk (Machine.slotEvent s key e) := h.modAcc

theorem MemOk.matrixShadow {m : Mma} {key w : Nat} {f : MFail} (h : MemOk s) :
    MemOk (Machine.matrixShadow s m key w f) := h.slotEvent.modAcc.postRecord

theorem MemOk.addMma {m : Mma} {key : Nat} {blocks : List Block} (h : MemOk s) :
    MemOk (Machine.addMma s m key blocks) := by
  unfold Machine.addMma
  split
  · exact h
  · split
    · exact h
    · extract_lets rows born
      split
      extract_lets s₁ s₂
      have h₁ : MemOk s₁ := by
        unfold s₁
        refine (MemOk.out ?_ ‹_›).modAcc
        split
        · exact h.internBirth
        · exact h
      exact foldl_keeps (fun _ _ h₂ => h₂.matrixShadow) h₁.same

theorem MemOk.endMma {m : Mma} (h : MemOk s) : MemOk (Machine.endMma s m) := by
  unfold Machine.endMma
  extract_lets s₁ s₂
  have h₁ : MemOk s₂ := by
    unfold s₂
    split
    · split
      · exact h.popSlot
      · exact h.popSlot.popSlot
    · exact h
  exact h₁.same

theorem MemOk.stopMma {m : Mma} {key : Nat} {blocks : List Block} {cause : Cause} {va : Nat} (h : MemOk s) :
    MemOk (Machine.stopMma s m key blocks cause va) := h.addMma.slotEvent.endMma

theorem MemOk.execMmaExecute {mma : Nat} (h : MemOk s) : OutOk (Machine.execMmaExecute mma s) := by
  unfold Machine.execMmaExecute
  refine MemOk.next ?_
  split
  · extract_lets key
    split
    · exact h
    · split
      · split
        · exact (h.fetchAll.out₂ ‹_›).addMma.endMma
        · split
          · exact (h.fetchAll.out₂ ‹_›).stopMma
          · exact (h.fetchAll.out₂ ‹_›).raiseFault
          · split
            · exact (h.fetchAll.out₂ ‹_›).stopMma
            · split
              · exact (h.fetchAll.out₂ ‹_›).askBlock ‹_›
              · exact (h.fetchAll.out₂ ‹_›).stopMma
          · exact h.fetchAll.out₂ ‹_›
          · exact h.fetchAll.out₂ ‹_›
      · exact h
  · exact h

/-! ### ALD, AST, ADRN (R320 to R322) -/

theorem MemOk.aldGran {i : Nat} {a : AldAcc} {p : Nat × Nat × Word} (h : MemOk a.s) :
    MemOk (Machine.aldGran c i a p).s := by
  unfold Machine.aldGran
  extract_lets va
  split
  · exact h.readFor.out ‹_›
  · exact h.readFor.out ‹_›
  · exact h.readFor.out ‹_›
  · split
    · exact h.readFor.out ‹_›
    · split <;> exact h.readFor.out ‹_›
  · split <;> exact h.readFor.out ‹_›

theorem MemOk.aldLane {m : MemOp} {a : AldAcc} {i : Nat} (h : MemOk a.s) :
    MemOk (Machine.aldLane c m a i).s := by
  unfold Machine.aldLane
  extract_lets b bad
  have h₂ : MemOk b.s := foldl_keeps (P := fun a₂ : AldAcc => MemOk a₂.s) (fun _ _ h₃ => h₃.aldGran) h
  exact h₂

theorem MemOk.execAld {o : MOrd} {slot : BitVec 6} {m : MemOp} (h : MemOk s) :
    OutOk (Machine.execAld hd o slot m s) := by
  unfold Machine.execAld
  refine h.memWord (fun x => h.heldWord (fun t h₁ key _ => ?_))
  extract_lets c a s₁
  have h₃ : MemOk a.s := foldl_keeps (P := fun a₂ : AldAcc => MemOk a₂.s) (fun _ _ h₄ => h₄.aldLane) h₁
  split
  · exact h₁.trapAll
  · split
    · exact h₃.blockWord
    · exact h₃.askPeers.blockWord
    · split
      extract_lets s₂ s₃
      have h₅ : MemOk s₂ := by
        unfold s₂
        refine (MemOk.out ?_ ‹_›).modAcc
        split
        · exact h₃.dropFetched.internFor
        · exact h₃.dropFetched
      exact h₅.stayParked.withAcquire.eatPoison

theorem MemOk.astGran {a : Acc} {i : Nat} {st : StoreAcc} {p : Nat × Nat × Word} (h : MemOk st.s) :
    MemOk (Machine.astGran c a i st p).s := by
  unfold Machine.astGran
  extract_lets t
  exact h.storeLane

theorem MemOk.addLane {i : Nat} {x : AstAcc} {b : StoreAcc} {reds : List RedReq} {stop : Option LaneTrap}
    (_ : MemOk x.st.s) (hb : MemOk b.s) :
    MemOk (Machine.addLane c i x b reds stop).st.s := by
  unfold Machine.addLane
  split <;> split <;> exact hb

theorem MemOk.astLane {d : Nat} {m : MemOp} {a : Acc} {x : AstAcc} {i : Nat} (h : MemOk x.st.s) :
    MemOk (Machine.astLane d c m a x i).st.s := by
  unfold Machine.astLane
  extract_lets gs base b
  have h₁ : MemOk base.s := h
  have h₃ : MemOk b.s := foldl_keeps (P := fun a₂ : StoreAcc => MemOk a₂.s) (fun _ _ h₄ => h₄.astGran) h₁
  exact h.addLane h₃

theorem MemOk.drainGran {issue : Nat} {a : Acc} {i : Nat} {x : StoreAcc × List RedReq} {p : Nat × Nat × Word}
    (h : MemOk x.1.s) :
    MemOk (Machine.drainGran issue c a i x p).1.s := by
  unfold Machine.drainGran
  split
  · exact h.storeFor.out ‹_›
  · exact h.storeFor.out ‹_›
  · extract_lets noWin base reqs extra
    split
    · exact h.storeFor.out ‹_›
    · exact (h.storeFor.out ‹_›).same

theorem MemOk.adrnLane {issue : Nat} {m : MemOp} {a : Acc} {x : AstAcc} {i : Nat} (h : MemOk x.st.s) :
    MemOk (Machine.adrnLane issue c m a x i).st.s := by
  have hb : MemOk ((rowGrans c m i).foldl (Machine.drainGran issue c a i)
      ({ x.st with out := [], parks := [], traps := [] }, [])).1.s :=
    foldl_keeps (P := fun p : StoreAcc × List RedReq => MemOk p.1.s) (fun _ _ h => h.drainGran) h
  exact h.addLane hb

theorem MemOk.astAcc_start (h : MemOk s) : MemOk (Machine.AstAcc.start s).st.s := h

theorem MemOk.astDone {key : Nat} {zero : Bool} {x : AstAcc} (h : MemOk x.st.s) :
    MemOk (Machine.astDone c hd key zero x) := by
  unfold Machine.astDone
  extract_lets ws s s₁ s₂ s₃
  have h₂ : MemOk s := foldl_keeps (fun _ _ h₃ => h₃.queueWrite) h
  have h₄ : MemOk s₂ := by
    unfold s₂
    split
    · exact h₂.same.modAcc
    · exact h₂.same
  exact h₄.stayParked.eatPoison

theorem MemOk.astWord {o : MOrd} {slot : BitVec 6} {m : MemOp} {zero pins : Bool}
    {lane : Nat → Cur → MemOp → Acc → AstAcc → Nat → AstAcc} (h : MemOk s)
    (hlane : ∀ n c m a x i, MemOk x.st.s → MemOk (lane n c m a x i).st.s) :
    OutOk (Machine.astWord s hd o slot m zero pins lane) := by
  unfold Machine.astWord
  refine h.memWord fun c => h.heldWord fun s₁ h₁ key _ => ?_
  extract_lets c₁ go
  split
  · exact h₁.trapAll
  · split
    · exact h₁.blockWord
    · refine h₁.withRelease fun s₂ h₂ => ?_
      extract_lets c₂ x
      have hgo : ∀ {t d}, MemOk t → MemOk (go t d).st.s := by
        intro t d ht
        unfold go
        split
        · exact foldl_keeps (P := fun x : AstAcc => MemOk x.st.s) (fun x i => hlane _ _ _ _ x i) ht
        · exact ht
      split
      · refine (hgo h₂).pinFirst.afterSync fun s₃ h₃ => ?_
        extract_lets s₄
        have h₄ : MemOk s₄ := by
          unfold s₄
          split
          · exact h₃.drainGroup
          · exact h₃
        exact (hgo h₄).astDone
      · exact (hgo h₂).astDone

theorem MemOk.execAst {o : MOrd} {slot : BitVec 6} {m : MemOp} (h : MemOk s) :
    OutOk (Machine.execAst hd o slot m s) := h.astWord (fun _ _ _ _ _ _ h₁ => h₁.astLane)

theorem MemOk.execAdrnStore {o : MOrd} {slot : BitVec 6} {m : MemOp} (h : MemOk s) :
    OutOk (Machine.execAdrnStore hd o slot m s) := h.astWord (fun _ _ _ _ _ _ h₁ => h₁.astLane)

theorem MemOk.execAdrnFadd {o : MOrd} {slot : BitVec 6} {m : MemOp} (h : MemOk s) :
    OutOk (Machine.execAdrnFadd hd o slot m s) := h.astWord (fun _ _ _ _ _ _ h₁ => h₁.adrnLane)

/-! ### Conversion instructions (R119 to R126) -/

theorem MemOk.drawn {rnd : Rnd} (h : MemOk s) : MemOk (Machine.drawn s c hd rnd) := by
  unfold Machine.drawn
  split
  · exact h.countDraws
  · exact h

theorem MemOk.cvtWord {rnd : Rnd} {ws : List RegW} (h : MemOk s) :
    MemOk (Machine.cvtWord s c hd rnd ws) := by
  unfold Machine.cvtWord
  split
  · exact h.blockWord
  · exact h.drawn.resultDone

theorem MemOk.execCvt {dst vd : BitVec 8} {a : Src} {src : BitVec 8} {m : FMod} (h : MemOk s) :
    OutOk (Machine.execCvt hd dst vd a src m s) := by
  unfold Machine.execCvt
  refine h.onCur fun c => ?_
  extract_lets pair
  split
  · exact h.cvtWord
  · exact h.wordFault

theorem MemOk.execCvtp {dst vd : BitVec 8} {a b : Src} {src : BitVec 8} {rnd : Rnd} {hi sat : Bool}
    (h : MemOk s) :
    OutOk (Machine.execCvtp hd dst vd a b src rnd hi sat s) := by
  unfold Machine.execCvtp
  refine h.onCur fun c => ?_
  split
  · exact h.cvtWord
  · exact h.wordFault

theorem MemOk.execCvtx {dst vd : BitVec 8} {a b : Src} {src : BitVec 8} {m : FMod} (h : MemOk s) :
    OutOk (Machine.execCvtx hd dst vd a b src m s) := by
  unfold Machine.execCvtx
  refine h.onCur fun c => ?_
  extract_lets pair w
  split
  · exact h.cvtWord
  · exact h.wordFault

theorem MemOk.execFscl {f : FSclF} {vd : BitVec 8} {a : Src} (h : MemOk s) :
    OutOk (Machine.execFscl hd f vd a s) := by
  unfold Machine.execFscl
  refine h.onCur fun c => ?_
  split
  · split
    · exact h.cvtWord
    · exact h.wordFault
  · split
    · exact h.cvtWord
    · exact h.wordFault

/-! ### Spills -/

theorem MemOk.spillGran {a : SpillAcc} {w : GWrite} (h : MemOk a.s) :
    MemOk (Machine.spillGran c a w).s := by
  unfold Machine.spillGran
  extract_lets va
  split <;> exact h.storeFor.out ‹_›

theorem MemOk.withSpill {ws : List GWrite} {k : State → State} (h : MemOk s)
    (hk : ∀ x, MemOk x → MemOk (k x)) :
    MemOk (Machine.withSpill s c hd ws k) := by
  unfold Machine.withSpill
  extract_lets a
  have h₂ : MemOk a.s := foldl_keeps (P := fun a₂ : SpillAcc => MemOk a₂.s) (fun _ _ h₃ => h₃.spillGran) h
  split
  · exact h₂.trapAll
  · split
    · exact h₂.settle
    · exact hk _ (foldl_keeps (fun _ _ h₄ => h₄.queueWrite) h₂)

theorem MemOk.cur_slate {f : Slate → Slate} (h : MemOk s) : MemOk (Machine.Cur.slate c s f) := h.same

/-! ### Pushes (R369, R372) -/

theorem MemOk.withPush {mark : BitVec 16} {fmt : BitVec 8} {op : Nat} {entries : List Word}
    {k : State → State} (h : MemOk s) (hk : ∀ x, MemOk x → MemOk (k x)) :
    MemOk (Machine.withPush s c hd mark fmt op entries k) := by
  unfold Machine.withPush
  extract_lets x seq f
  split
  · exact hk _ h.cur_slate
  · split
    · exact h.wordFault
    · split
      · exact h.withSpill (fun x₁ h₁ => hk _ h₁.cur_slate)
      · exact h.blockWord

theorem MemOk.execSlateSpill {g : GRef} (h : MemOk s) : OutOk (Machine.execSlateSpill g s) := by
  unfold Machine.execSlateSpill
  refine MemOk.next ?_
  split
  · split
    · exact h
    · split
      · split
        · exact h.wake.withSpill (fun x h₁ => h₁.cur_slate)
        · exact h.wake
      · exact h
  · exact h

/-! ### Pops (R373, R384) -/

theorem MemOk.withNewest {k : State → Frame → State} (h : MemOk s) (hk : ∀ x, MemOk x → ∀ y, MemOk (k x y)) :
    MemOk (Machine.withNewest s c hd k) := by
  unfold Machine.withNewest
  extract_lets x j at_
  split
  · exact hk _ h _
  · split
    · exact h.wordFault
    · exact h.withBulk
        (fun x₁ h₁ y => h₁.withBulk (fun x₂ h₂ y₁ => h₂.withBulk (fun x₃ h₃ y₂ => hk _
        h₃.dropFetched.cur_slate _)))

/-! ### Forward forms -/

theorem MemOk.withReplay {seq : BitVec 32} {entries : List Word} {k : State → State} (h : MemOk s)
    (hk : ∀ x, MemOk x → MemOk (k x)) :
    MemOk (Machine.withReplay s c hd seq entries k) := by
  unfold Machine.withReplay
  extract_lets x j at_
  split
  · split
    · exact h.wordFault
    · exact hk _ h.cur_slate
  · split
    · exact h.wordFault
    · refine h.withBulk (fun x₁ h₁ y => h₁.withBulk (fun x₂ h₂ y₁ => h₂.withBulk (fun x₃ h₃ y₂ => ?_)))
      extract_lets f es s₁
      split
      · exact h₃.dropFetched.wordFault
      · exact h₃.dropFetched.withSpill (fun x₄ h₄ => hk _ h₄)

theorem MemOk.withFrame {fmt : BitVec 8} {op : Nat} {ls : List FwdLane} {bad : Mask} {k : State → State}
    (h : MemOk s) (hk : ∀ x, MemOk x → MemOk (k x)) :
    MemOk (Machine.withFrame s c hd fmt op ls bad k) := by
  unfold Machine.withFrame
  extract_lets es left
  split
  · exact h.withReplay (fun x h₁ => hk _ h₁.cur_slate)
  · exact h.withPush (fun x₁ h₂ => hk _ h₂.cur_slate)

theorem MemOk.fwdMonitored {vd : BitVec 8} {a b : Src} {rnd : Rnd} {major kind opn : Nat} {op : FpOp}
    {keep : Nat → Nat → Nat → KeptBits} (h : MemOk s) :
    MemOk (Machine.fwdMonitored s c hd vd a b rnd major kind opn op keep) := h.withFrame
      (fun _ h₁ => h₁.monitored)

theorem MemOk.fwdPlain {vd : BitVec 8} {a : Src} {fmt : BitVec 8} {opn : Nat} {rnd : Rnd}
    {srcs : Nat → List TSrc} {f : Nat → Nat × Bool × KeptBits} (h : MemOk s) :
    MemOk (Machine.fwdPlain s c hd vd a fmt opn rnd srcs f) := h.withFrame (fun _ h₁ => h₁.drawn.fixedDone)

theorem MemOk.execRvmul {t : VType} {vd : BitVec 8} {a b : Src} {rnd : Rnd} (h : MemOk s) :
    OutOk (Machine.execRvmul hd t vd a b rnd s) := by
  unfold Machine.execRvmul
  refine h.onCur fun c => ?_
  split
  · exact h.wordFault
  · split
    · exact h.fwdMonitored
    · exact h.fwdPlain

theorem MemOk.execRvadd {vd : BitVec 8} {a b : Src} {rnd : Rnd} (h : MemOk s) :
    OutOk (Machine.execRvadd hd vd a b rnd s) := by
  unfold Machine.execRvadd
  refine h.onCur fun c => ?_
  split
  · exact h.fwdMonitored
  · exact h.wordFault

theorem MemOk.execRvnar {fmt vd : BitVec 8} {a : Src} {rnd : Rnd} {sat : Bool} (h : MemOk s) :
    OutOk (Machine.execRvnar hd fmt vd a rnd sat s) := by
  unfold Machine.execRvnar
  refine h.onCur fun c => ?_
  split
  · exact h.fwdPlain
  · exact h.wordFault

theorem MemOk.execRvmax0 {vd : BitVec 8} {a : Src} (h : MemOk s) :
    OutOk (Machine.execRvmax0 hd vd a s) := by
  unfold Machine.execRvmax0
  refine h.onCur fun c => ?_
  split
  · exact h.fwdPlain
  · exact h.wordFault

/-! ### Undo forms (R384 to R386) -/

theorem MemOk.undoWord {vd fmt : BitVec 8} {op : Nat} {exc : Nat → Word → Nat → Bool} {z : Nat → Nat → Nat}
    (h : MemOk s) :
    MemOk (Machine.undoWord s c hd vd fmt op exc z) := by
  unfold Machine.undoWord
  split
  · exact h.blockWord
  · refine h.withNewest fun x h₁ y => ?_
    split
    · exact h₁.wordFault
    · exact h₁.cur_slate.resultDone

theorem MemOk.execUnmul {t : VType} {vd : BitVec 8} {a b : Src} (h : MemOk s) :
    OutOk (Machine.execUnmul hd t vd a b s) := by
  unfold Machine.execUnmul
  refine h.onCur fun c => ?_
  split
  · exact h.wordFault
  · split <;> exact h.undoWord

theorem MemOk.execUnadd {vd : BitVec 8} {a b : Src} (h : MemOk s) :
    OutOk (Machine.execUnadd hd vd a b s) := by
  unfold Machine.execUnadd
  refine h.onCur fun c => ?_
  split
  · exact h.undoWord
  · exact h.wordFault

theorem MemOk.execUnnar {fmt vd : BitVec 8} {a : Src} (h : MemOk s) :
    OutOk (Machine.execUnnar hd fmt vd a s) := by
  unfold Machine.execUnnar
  refine h.onCur fun c => ?_
  split
  · exact h.undoWord
  · exact h.wordFault

theorem MemOk.execUnmax0 {vd : BitVec 8} {a : Src} (h : MemOk s) :
    OutOk (Machine.execUnmax0 hd vd a s) := by
  unfold Machine.execUnmax0
  refine h.onCur fun c => ?_
  split
  · exact h.undoWord
  · exact h.wordFault

/-! ### Markers and depth (R387 to R390) -/

theorem MemOk.execSlmark {id : BitVec 16} (h : MemOk s) :
    OutOk (Machine.execSlmark hd id s) := h.onCur (fun _ => h.withPush (fun _ h₁ => h₁.finish))

theorem MemOk.dropFrom {id : BitVec 16} {n : Nat} (h : MemOk s) : MemOk (Machine.dropFrom c hd id n s) := by
  induction n generalizing s with
  | zero => exact h.wordFault
  | succ n ih =>
    refine h.withBulk fun s₁ h₁ b => ?_
    split
    · exact h₁.dropFetched.cur_slate.finish
    · exact ih h₁

theorem MemOk.execSldrop {id : BitVec 16} (h : MemOk s) : OutOk (Machine.execSldrop hd id s) := by
  unfold Machine.execSldrop
  refine h.onCur fun c => ?_
  split
  · exact h.cur_slate.finish
  · exact h.dropFrom

theorem MemOk.execSldepth {d : BitVec 6} (h : MemOk s) : OutOk (Machine.execSldepth hd d s) := h.resultWord

/-! ### Packets (R156) -/

theorem MemOk.enqueue {ctx src : Nat} {p : BitVec 512} (h : MemOk s) :
    MemOk (Machine.enqueue s ctx src p) := h.same

/-! ### LAUNCH and the launch window (R159, R160) -/

theorem MemOk.execLaunch {a : BitVec 6} (h : MemOk s) : OutOk (Machine.execLaunch hd a s) := by
  unfold Machine.execLaunch
  refine h.onCur fun c => ?_
  extract_lets va
  split
  · exact h.trapAll
  · split
    · exact h.trapAll
    · split
      · exact h.deliverFail ‹_›
      · refine h.pinFirst.afterSync (fun x h₁ => h₁.releaseAt.afterSync (fun x₁ h₂ => ?_))
        extract_lets c₁
        split
        · exact h₂.blockWord
        · exact h₂.withBulk (fun x₂ h₃ y => h₃.dropFetched.enqueue.finish)

theorem MemOk.execLaunchQueueWake {g : GRef} (h : MemOk s) : OutOk (Machine.execLaunchQueueWake g s) := by
  unfold Machine.execLaunchQueueWake
  refine MemOk.next ?_
  split
  · exact h.wakeIf (fun x h₁ _ => h₁.wake)
  · exact h

theorem MemOk.execLaunchWindowWrite {ctx off : Nat} {data : List Byte} (h : MemOk s) :
    OutOk (Machine.execLaunchWindowWrite ctx off data s) := by
  unfold Machine.execLaunchWindowWrite
  refine MemOk.next ?_
  split
  · exact h
  · split
    · exact h.enqueue
    · exact h.launchRecord

/-! ### Acceptance (R157, R158, R161) -/

theorem MemOk.devRead {owner : Nat} {w : Who} {va n : Nat} (h : MemOk s) :
    MemOk (Machine.devRead s owner w va n).s := by
  unfold Machine.devRead
  refine foldl_keeps (P := fun a : DevRead => MemOk a.s) (fun _ _ h₁ => ?_) h
  split
  · exact h₁.engRead.out ‹_›
  · exact h₁.engRead.out ‹_›
  · exact h₁.engRead.out ‹_›
  · exact h₁.engRead.out ‹_›
  · split <;> exact h₁.engRead.out ‹_›

/-- The state that a device's read leaves. -/
def DevGot.state : DevGot → State
  | .bytes s _ | .bad s | .wait s _ | .asked s | .busy s => s

theorem MemOk.devGet {owner : Nat} {w : Who} {va n : Nat} (h : MemOk s) :
    MemOk (DevGot.state (Machine.devGet s owner w va n)) := by
  unfold Machine.devGet
  extract_lets r
  have hr : MemOk r.s := h.devRead
  split
  · exact hr
  · exact hr
  · exact hr.askPeers
  · exact hr
  · exact hr

theorem MemOk.launchCell {w : Who} {va : Nat} {k : AK} (h : MemOk s) :
    MemOk (Machine.launchCell s w va k).2 := by
  unfold Machine.launchCell
  split
  · exact h
  · split <;> exact h.translate.out ‹_›

theorem MemOk.freeRoll {l : Launch} (h : MemOk s) : MemOk (Machine.freeRoll s l) := by
  unfold Machine.freeRoll
  split
  · exact h.same
  · exact h

theorem MemOk.tellCell {l : Launch} {add errs status : Nat} (h : MemOk s) :
    MemOk (Machine.tellCell s l add errs status) := by
  unfold Machine.tellCell
  split
  · exact h
  · exact h.same.updateCell

theorem MemOk.dropLaunch {l : Launch} (h : MemOk s) :
    MemOk (Machine.dropLaunch s l) := h.freeRoll.dropFetched.same

theorem MemOk.discardLaunch {l : Launch} (h : MemOk s) :
    MemOk (Machine.discardLaunch s l) := h.dropLaunch.tellCell

theorem MemOk.refuseLaunch {l : Launch} {code : Nat} (h : MemOk s) :
    MemOk (Machine.refuseLaunch s l code) := by
  unfold Machine.refuseLaunch
  split
  · exact h.dropLaunch
  · extract_lets s₁
    split
    · exact h.dropLaunch.launchRecord
    · exact h.dropLaunch.launchRecord.tellCell

theorem MemOk.giveRoll {l : Launch} (h : MemOk s) : MemOk (Machine.giveRoll s l).1 := by
  unfold Machine.giveRoll
  split
  · exact h
  · split
    · exact h
    · split
      exact h.insertName.out ‹_›

theorem MemOk.becomeEligible {l : Launch} (h : MemOk s) : MemOk (Machine.becomeEligible s l) := h.same.same

theorem MemOk.acceptLaunch {l : Launch} (h : MemOk s) : MemOk (Machine.acceptLaunch s l) := by
  unfold Machine.acceptLaunch
  extract_lets p rname rollGone size
  split
  · exact h.refuseLaunch
  · split
    · extract_lets k l₁ s₁ s₂
      have h₁ : MemOk s₂ := by
        unfold s₂
        split
        · exact h.cacheName
        · exact h.cacheName.cacheName
      split
      · exact h.refuseLaunch
      · split
        · exact h.refuseLaunch
        · split
          · exact h.refuseLaunch
          · split
            extract_lets s₃
            split
            · exact (h₁.giveRoll.outl ‹_›).same.becomeEligible
            · exact (h₁.giveRoll.outl ‹_›).same
    · exact h.refuseLaunch

theorem MemOk.launchWait {l : Launch} {va : Nat} {k : AK} (h : MemOk s) :
    MemOk (Machine.launchWait s l va k) := h.raiseFault

theorem MemOk.acceptCells {l : Launch} (h : MemOk s) : MemOk (Machine.acceptCells s l) := by
  unfold Machine.acceptCells
  extract_lets w dep cell
  have h₁ : MemOk dep.2 := by
    unfold dep
    split
    · exact h
    · exact h.launchCell
  have h₂ : MemOk cell.2 := by
    unfold cell
    split
    · exact h₁
    · exact h₁.launchCell
  split
  · exact h.discardLaunch
  · split
    · exact h₂.refuseLaunch
    · split
      · exact h₂.launchWait
      · split
        · exact h₂.refuseLaunch
        · split
          · exact h₂.launchWait
          · exact h₂.acceptLaunch

theorem MemOk.execLaunchAccept {ctx : Nat} (h : MemOk s) : OutOk (Machine.execLaunchAccept ctx s) := by
  unfold Machine.execLaunchAccept
  refine MemOk.next ?_
  split
  · exact h
  · next l _ =>
    extract_lets va w
    split
    · exact h
    · split
      · exact h.refuseLaunch
      · split
        · exact h.refuseLaunch
        · split
          · exact h.acceptCells
          · have hg : MemOk (DevGot.state (Machine.devGet s l.id w va 64)) := h.devGet
            generalize Machine.devGet s l.id w va 64 = y at hg ⊢
            cases y with
            | bad s₁ => exact MemOk.refuseLaunch hg
            | wait s₁ v => exact MemOk.launchWait hg
            | asked s₁ => exact hg
            | busy s₁ => exact h
            | bytes s₁ b => exact (MemOk.dropFetched hg).modLaunch.acceptCells

theorem MemOk.execDependenceMet {launch : Nat} (h : MemOk s) :
    OutOk (Machine.execDependenceMet launch s) := by
  unfold Machine.execDependenceMet
  refine MemOk.next ?_
  split
  · exact h
  · split
    extract_lets s₁
    split
    · exact (h.giveRoll.outl ‹_›).same
    · split
      · exact (h.giveRoll.outl ‹_›).same.becomeEligible
      · split
        · exact ((h.giveRoll.outl ‹_›).same.launchCell.out ‹_›).refuseLaunch
        · exact ((h.giveRoll.outl ‹_›).same.launchCell.out ‹_›).launchWait
        · split
          · exact (h.giveRoll.outl ‹_›).same.launchCell.out ‹_›
          · split
            · exact (h.giveRoll.outl ‹_›).same.launchCell.out ‹_›
            · split
              · exact ((h.giveRoll.outl ‹_›).same.launchCell.out ‹_›).refuseLaunch
              · exact ((h.giveRoll.outl ‹_›).same.launchCell.out ‹_›).becomeEligible

/-! ### Placement (R130, R162 to R167) -/

theorem MemOk.allotAccs {team core : Nat} {ps : List Nat} (h : MemOk s) :
    MemOk (Machine.allotAccs s team core ps) := foldl_keeps (fun _ _ h₁ => h₁.same) h

theorem MemOk.startTeam {l : Launch} {core idx relaunches : Nat} {coord : Nat × Nat × Nat} (h : MemOk s) :
    MemOk (Machine.startTeam s l core idx relaunches coord) := by
  unfold Machine.startTeam
  split
  · exact h.same.allotAccs.acquireAt.same.wakeIslands.same
  · exact h

theorem MemOk.execTeamPlace {die : Nat} (h : MemOk s) : OutOk (Machine.execTeamPlace die s) := by
  unfold Machine.execTeamPlace
  refine MemOk.next ?_
  split
  · exact h
  · split
    · exact h
    · split
      · exact h.startTeam.same
      · exact h.startTeam.same
      · exact h

theorem MemOk.execLaunchWait2ms {launch : Nat} (h : MemOk s) :
    OutOk (Machine.execLaunchWait2ms launch s) := by
  unfold Machine.execLaunchWait2ms
  refine MemOk.next ?_
  split
  · split
    · exact h.same
    · exact h
  · exact h

/-! ### Pre-emption (R169) -/

theorem MemOk.askPreempt {team : Nat} (h : MemOk s) : MemOk (Machine.askPreempt s team) := h.same

theorem MemOk.execPreemptRequest {team : Nat} (h : MemOk s) :
    OutOk (Machine.execPreemptRequest team s) := by
  unfold Machine.execPreemptRequest
  refine MemOk.next ?_
  split
  · split
    · exact h
    · split
      · exact h.askPreempt
      · exact h
  · exact h

theorem MemOk.execFloorShareTimeout {team : Nat} (h : MemOk s) :
    OutOk (Machine.execFloorShareTimeout team s) := by
  unfold Machine.execFloorShareTimeout
  refine MemOk.next ?_
  split
  · extract_lets here
    split
    · exact h
    · split
      · exact h
      · exact h.askPreempt.same
  · exact h

/-! ### The save (R169, R170) -/

theorem MemOk.devStore {slot va : Nat} {b : List Byte} (h : MemOk s) :
    MemOk (Machine.devStore s slot va b) := by
  unfold Machine.devStore
  refine foldl_keeps (fun _ _ h₁ => ?_) h
  split
  · exact (h₁.translate.out ‹_›).recallWhere.performAt ..
  · exact h₁.translate.out ‹_›

/-- The state that the walk over a save area's pages leaves. -/
def SavePages.state : SavePages → State
  | .ok s | .wait s | .bad s => s

theorem MemOk.checkPages {t : Team} {k : AK} {ps : List Nat} (h : MemOk s) :
    MemOk (SavePages.state (Machine.checkPages s t k ps)) := by
  refine foldl_keeps (P := fun r : SavePages => MemOk (SavePages.state r)) (fun r p hr => ?_) h
  split
  · next s₁ =>
    have h₁ : MemOk s₁ := hr
    split
    · exact h₁
    · split
      · exact h₁
      · split
        · split
          · exact h₁.translate.out ‹_›
          · split <;> exact h₁.translate.out ‹_›
        · exact (h₁.translate.out ‹_›).coreFault
  · exact hr

theorem MemOk.leaveCore {t : Team} {k : Kernel} (h : MemOk s) : MemOk (Machine.leaveCore s t k) := by
  unfold Machine.leaveCore
  extract_lets s₁ s₂ accs gs
  have h₂ : MemOk s₂ := foldl_keeps (fun _ _ h₃ => h₃.dropWaits) h.flushTeam
  exact h₂.same.same

theorem MemOk.saveRelease {t : Team} (h : MemOk s) : MemOk (Machine.saveRelease s t).state := by
  unfold Machine.saveRelease
  refine foldl_keeps (P := fun a : Sync => MemOk a.state) (fun _ _ h₁ => ?_) h
  split
  · exact h₁.releaseAt
  · exact h₁

theorem MemOk.execTeamSave {team : Nat} (h : MemOk s) : OutOk (Machine.execTeamSave team s) := by
  unfold Machine.execTeamSave
  refine MemOk.next ?_
  split
  · next t l _ _ =>
    extract_lets k
    split
    · exact h
    · have hp : MemOk (SavePages.state (Machine.checkPages s t .write (savePages s t k))) := h.checkPages
      generalize Machine.checkPages s t .write (savePages s t k) = y at hp ⊢
      cases y with
      | wait s₁ => exact hp
      | bad s₁ => exact MemOk.plainFault hp
      | ok s₁ =>
        dsimp only
        have hr : MemOk (Machine.saveRelease s₁ t).state := MemOk.saveRelease hp
        generalize Machine.saveRelease s₁ t = z at hr ⊢
        cases z with
        | park s₂ => exact hr
        | wait w s₂ => exact hr
        | done s₂ =>
          have hs : MemOk ((saveBytes s₂ t k).foldl (fun s p => Machine.devStore s t.slot p.1 p.2) s₂) :=
            foldl_keeps (fun _ _ h => h.devStore) hr
          exact (hs.same.leaveCore.modTeam ..)
  · exact h

/-! ### Resume (R171) -/

theorem MemOk.restoreAccs {team core : Nat} {ps : List Nat} {l : List Acc} (h : MemOk s) :
    MemOk (Machine.restoreAccs s team core ps l) := foldl_keeps (fun _ _ h₁ => h₁.same) h

theorem MemOk.restoreScratch {cluster off : Nat} {gs : List (List Byte × Tag × Bool)} (h : MemOk s) :
    MemOk (Machine.restoreScratch s cluster off gs) := foldl_keeps (fun _ _ h₁ => h₁.putGran ..) h

theorem MemOk.followTeam {team core : Nat} (h : MemOk s) : MemOk (Machine.followTeam s team core) := h.same

theorem MemOk.resumeOn {t : Team} {l : Launch} {core : Nat} (h : MemOk s) :
    MemOk (Machine.resumeOn s t l core) :=
      h.restoreAccs.restoreScratch.followTeam.acquireAt.same.same.same.wakeIslands

theorem MemOk.execTeamResume {team core : Nat} (h : MemOk s) : OutOk
    (Machine.execTeamResume team core s) := by
  unfold Machine.execTeamResume
  refine MemOk.next ?_
  split
  · next t l _ _ =>
    split
    · exact h
    · have hp : MemOk
        (SavePages.state (Machine.checkPages s t .read (savePages s t l.kernel))) := h.checkPages
      generalize Machine.checkPages s t .read (savePages s t l.kernel) = y at hp ⊢
      cases y with
      | wait s₁ => exact hp
      | bad s₁ => exact MemOk.plainFault hp
      | ok s₁ =>
        show MemOk (if _ then _ else _)
        split
        · exact MemOk.resumeOn hp
        · exact MemOk.plainFault hp
  · exact h

/-! ### Completion (R161) -/

theorem MemOk.execLaunchComplete {launch : Nat} (h : MemOk s) :
    OutOk (Machine.execLaunchComplete launch s) := by
  unfold Machine.execLaunchComplete
  refine MemOk.next ?_
  split
  · split
    · exact h
    · extract_lets s₁ s₂
      have h₂ : MemOk s₁ := foldl_keeps (fun _ _ h₃ => h₃.grantLine) h
      split
      · exact h₂.flushRoll
      · exact h₂.flushRoll.dropLaunch.tellCell
  · exact h

/-! ### A run and its current step -/

theorem MemOk.modRun {n : Nat} {f : Run → Run} (h : MemOk s) : MemOk (Machine.State.modRun s n f) := h.same

/-! ### Ends of steps and runs (R400, R415) -/

theorem MemOk.returnLate {r : GRef} {id : Nat} (h : MemOk s) : MemOk (Machine.returnLate s r id) := h.same

theorem MemOk.endRun {r : Run} {state : Nat} (h : MemOk s) : MemOk (Machine.endRun s r state) := by
  unfold Machine.endRun
  extract_lets names s₁ s₂ hold s₃
  have h₂ : MemOk s₂ := foldl_keeps (fun _ _ h₃ => h₃.holdName) h.modEntry
  have h₅ : MemOk s₃ := foldl_keeps (fun _ _ h₆ => h₆.returnLate) h₂
  exact h₅.same.wakeLines

theorem MemOk.endCpStep {n code next : Nat} (h : MemOk s) : MemOk (Machine.endCpStep s n code next) := by
  unfold Machine.endCpStep
  split
  · exact h
  · extract_lets r r₁ base
    split
    · exact h.endRun
    · split
      · exact h.endRun
      · exact h.same.same.wakeLines

theorem MemOk.cp_done {c : Cp} {code : Nat} (h : MemOk s) : MemOk (Machine.Cp.done c s code) := h.endCpStep

theorem MemOk.onStep {n op : Nat} {k : State → Cp → State} (h : MemOk s)
    (hk : ∀ x, MemOk x → ∀ y, MemOk (k x y)) :
    OutOk (Machine.onStep s n op k) := by
  unfold Machine.onStep
  refine MemOk.next ?_
  split
  · split
    · exact hk _ h _
    · exact h
  · exact h

theorem MemOk.cp_begin {c : Cp} {vas : List Nat} (h : MemOk s) : MemOk (Machine.Cp.begin c s vas) := by
  unfold Machine.Cp.begin
  split
  · exact h
  · extract_lets keys base
    have h₂ : MemOk base := foldl_keeps (fun _ _ h₃ => h₃.takeLine) h
    exact h₂.same.same

/-! ### Reading a range (R408, R414) -/

theorem MemOk.cpRead {r : Run} {d : CpData} {e : Nat} (h : MemOk s) : MemOk (Machine.cpRead s r d e).2 := by
  unfold Machine.cpRead
  extract_lets i va g x
  split
  · exact h
  · split
    · exact h
    · exact h.readEl

theorem MemOk.cp_halt {c : Cp} {d : CpData} {es : List Nat} {x : ERead} (h : MemOk s) :
    MemOk (Machine.Cp.halt c s d es x) := by
  unfold Machine.Cp.halt
  split
  · exact h.cp_done
  · split
    · exact h.raiseFault
    · split
      · exact h.askBlock ‹_›
      · exact h.cp_done
    · exact h

theorem MemOk.cp_read {c : Cp} {d : CpData} {es : List Nat} {k : State → List SrcEl → State} (h : MemOk s)
    (hk : ∀ t, MemOk t → ∀ l, MemOk (k t l)) : MemOk (Machine.Cp.read c s d es k) := by
  unfold Machine.Cp.read
  extract_lets step
  have hstep : MemOk (es.foldl step (s, [], none)).1 := by
    refine foldl_keeps (P := fun a : State × List SrcEl × Option ERead => MemOk a.1) (fun a e ha => ?_) h
    unfold step
    split
    · exact ha
    · split <;> exact ha.cpRead.out ‹_›
  split
  · exact hk _ (hstep.outl ‹_›) _
  · exact (hstep.outl ‹_›).cp_halt

/-! ### Writing a range (R408) -/

theorem MemOk.cpPlace {r : Run} {va : Nat} (h : MemOk s) : MemOk (Machine.cpPlace s r va).2 := by
  unfold Machine.cpPlace
  split
  · exact h
  · split
    · exact h
    · exact h.engPlace

theorem MemOk.cpPut {r : Run} {els : List DstEl} (h : MemOk s) : MemOk (Machine.cpPut s r els) := by
  unfold Machine.cpPut
  refine foldl_keeps (fun _ _ h₁ => ?_) h
  extract_lets ds
  split
  · split
    · exact (h₁.cpPlace.out ‹_›).engPut
    · exact (h₁.cpPlace.out ‹_›).putGranEls
  · exact (h₁.cpPlace.out ‹_›).putGranEls

theorem MemOk.cpHalt {r : Run} {els : List DstEl} (h : MemOk s) : MemOk (Machine.cpHalt r els s).2 := by
  unfold Machine.cpHalt
  refine foldl_keeps (P := fun a : Option (Nat × Halt) × State => MemOk a.2) (fun _ _ h₁ => ?_) h
  extract_lets better
  split
  · exact h₁.cpPlace.out ‹_›
  · exact h₁.cpPlace.out ‹_›
  · split <;> exact h₁.cpPlace.out ‹_›
  · exact h₁.cpPlace.out ‹_›

theorem MemOk.cp_sendPart {c : Cp} {d : CpData} {rest : List DstEl} {lo hi : Nat} (h : MemOk s) :
    MemOk (Machine.Cp.sendPart c d s rest lo hi) := by
  unfold Machine.Cp.sendPart
  extract_lets cmd part runs put
  split
  · exact h.cpPut.cp_done
  · exact h
  · exact (foldl_keeps (fun _ _ h₁ => h₁.sendRun) h.cpPut).modRun

theorem MemOk.cp_write {c : Cp} {d : CpData} {els : List DstEl} {block : Nat → Option (Nat × Nat)}
    {k : State → State} (h : MemOk s) (hk : ∀ x, MemOk x → MemOk (k x)) :
    MemOk (Machine.Cp.write c s d els block k) := by
  unfold Machine.Cp.write
  extract_lets rest
  split
  · exact hk _ ((h.cpHalt.out ‹_›).cpPut)
  · split
    · exact (h.cpHalt.out ‹_›).cpPut.cp_done
    · split
      · exact (h.cpHalt.out ‹_›).raiseFault
      · exact (h.cpHalt.out ‹_›).cp_sendPart
      · exact h.cpHalt.out ‹_›
      · exact h.cpHalt.out ‹_›

/-! ### Reductions (R405 to R407) -/

theorem MemOk.cp_counts {c : Cp} {m : Comp} {k : State → List (Nat × Bool) → State} (h : MemOk s)
    (hk : ∀ x, MemOk x → ∀ y, MemOk (k x y)) :
    MemOk (Machine.Cp.counts c s m k) := by
  unfold Machine.Cp.counts
  split
  · exact h.cp_read (fun t h₁ l => hk _ h₁ _)
  · exact h.cp_read (fun t₁ h₂ l₁ => hk _ h₂ _)
  · exact hk _ h _

theorem MemOk.useFree {n : Nat} (h : MemOk s) : MemOk (Machine.useFree s n) := h.same

/-! ### Messages (R402 to R404) -/

theorem MemOk.hold {die : Nat} {m : EngMsg} (h : MemOk s) : MemOk (Machine.hold s die m) := h.same

theorem MemOk.deliver {die : Nat} {m : EngMsg} (h : MemOk s) : MemOk (Machine.deliver s die m).2 := by
  unfold Machine.deliver
  split
  · exact h.same
  · extract_lets pool
    have hpool : ∀ die, MemOk (pool die).2 := by
      intro die
      unfold pool
      split
      · exact h.hold
      · exact h
    split
    · split
      · exact h.modRun
      · exact hpool _
    · exact hpool _

theorem MemOk.cp_take {c : Cp} {src : Nat} {k : State → EngMsg → State} (h : MemOk s)
    (hk : ∀ x, MemOk x → ∀ y, MemOk (k x y)) :
    MemOk (Machine.Cp.take c s src k) := by
  unfold Machine.Cp.take
  split
  · exact hk _ h _
  · split
    · exact hk _ h.same.same _
    · exact h

/-! ### Meeting slots (R411, R413) -/

theorem MemOk.contribute {ctx : Option Nat} {c : Contrib} (h : MemOk s) :
    MemOk (Machine.contribute s ctx c).2 := by
  unfold Machine.contribute
  split
  · split
    · extract_lets n new old all m
      split
      · exact h
      · split
        · exact h
        · exact h.modEntry
    · exact h
  · exact h
  · exact h

/-! ### Sending -/

theorem MemOk.sendMsg {c : Cp} {x port : Nat} {dst : PeerDst} {op : PeerOp} {m : EngMsg} (h : MemOk s) :
    MemOk (Machine.sendMsg c s x port dst op m) := h.same

theorem MemOk.cp_beginRecv {c : Cp} {vas : List Nat} {p : Nat} (h : MemOk s) :
    MemOk (Machine.Cp.beginRecv c s vas p) := by
  unfold Machine.Cp.beginRecv
  split
  · exact h.cp_begin
  · split
    · exact h.cp_begin
    · split
      · exact h.cp_begin
      · split
        · exact h
        · exact h.cp_begin.sendMsg

theorem MemOk.cp_post {c : Cp} {rank : Nat} {slot : Option Name} {m : EngMsg} {code : Nat} (h : MemOk s) :
    MemOk (Machine.Cp.post c s rank slot m code) := by
  unfold Machine.Cp.post
  extract_lets key seq num m' late
  have hnum : ∀ {t}, MemOk t → MemOk (num t) := by
    intro t ht
    unfold num
    split
    · exact ht
    · exact ht.same
  split
  · split
    · exact h.contribute.cp_done
    · split
      · exact (hnum (h.deliver.out ‹_›)).cp_done
      · split
        · exact (h.deliver.out ‹_›).cp_done
        · exact h.deliver.out ‹_›
  · split
    · exact h.cp_done
    · split
      · exact h.cp_done
      · split
        · exact h.cp_done
        · split
          · exact h
          · exact (hnum h).modRun.sendMsg

/-! ### The steps (R397) -/

theorem MemOk.execCpHalt {run : Nat} (h : MemOk s) : OutOk (Machine.execCpHalt run s) := by
  unfold Machine.execCpHalt
  refine h.onStep fun x h₁ y => ?_
  extract_lets s₁
  split
  · exact h₁.endRun.same.updateCell
  · exact h₁.endRun

theorem MemOk.execCpSend {run : Nat} (h : MemOk s) : OutOk (Machine.execCpSend run s) := by
  unfold Machine.execCpSend
  refine h.onStep fun x h₁ y => ?_
  split
  · exact h₁.cp_done
  · split
    · exact h₁.cp_done
    · exact h₁.cp_begin.cp_read (fun t h₂ l => h₂.cp_post)
  · exact h₁.cp_done

theorem MemOk.execCpRecv {run : Nat} (h : MemOk s) : OutOk (Machine.execCpRecv run s) := by
  unfold Machine.execCpRecv
  refine h.onStep fun x h₁ y => ?_
  split
  · exact h₁.cp_done
  · split
    · exact h₁.cp_done
    · extract_lets vas s₁
      split
      · exact h₁.cp_beginRecv
      · refine h₁.cp_beginRecv.cp_take fun x₁ h₂ y₁ => ?_
        split
        · exact h₂.cp_done
        · exact h₂.cp_write (fun x₂ h₃ => h₃.cp_done)
  · exact h₁.cp_done

theorem MemOk.execCpRrs {run : Nat} (h : MemOk s) : OutOk (Machine.execCpRrs run s) := by
  unfold Machine.execCpRrs
  refine h.onStep fun x h₁ y => ?_
  split
  · exact h₁.cp_done
  · extract_lets m f s₁ peer
    split
    · exact h₁.cp_done
    · split
      · exact h₁.cp_beginRecv
      · refine h₁.cp_beginRecv.cp_read
          (fun t h₂ l => h₂.cp_counts (fun x₁ h₃ y₁ => h₃.cp_take (fun x₂ h₄ y₂ => ?_)))
        split
        · exact h₄.cp_done
        · exact h₄.cp_post
  · exact h₁.cp_done

theorem MemOk.execCpRred {run : Nat} (h : MemOk s) : OutOk (Machine.execCpRred run s) := by
  unfold Machine.execCpRred
  refine h.onStep fun x h₁ y => ?_
  split
  · exact h₁.cp_done
  · extract_lets ma mb f noComp own s₁ bl
    split
    · exact h₁.cp_done
    · split
      · exact h₁.cp_beginRecv
      · refine h₁.cp_beginRecv.cp_read
          (fun t h₂ l => h₂.cp_counts (fun x₁ h₃ y₁ => h₃.cp_take (fun x₂ h₄ y₂ => ?_)))
        split
        · exact h₄.cp_done
        · exact h₄.cp_write (fun x₃ h₅ => h₅.useFree.cp_done)
  · exact h₁.cp_done

theorem MemOk.cp_fromSlot {c : Cp} {n : Name} {b : CpData} (h : MemOk s) :
    MemOk (Machine.Cp.fromSlot c s n b) := by
  unfold Machine.Cp.fromSlot
  split
  · exact h.cp_write (fun x h₁ => h₁.useFree.cp_done)
  · split
    · exact h
    · split
      · exact h.cp_done
      · split
        · extract_lets mb own
          split
          · exact h.cp_done
          · split
            · exact h.cp_done
            · split
              · exact h.cp_done
              · split
                · exact h.cp_done
                · exact h.cp_begin.modEntry
        · exact h.cp_done

theorem MemOk.execCpCopy {run : Nat} (h : MemOk s) : OutOk (Machine.execCpCopy run s) := by
  unfold Machine.execCpCopy
  refine h.onStep fun x h₁ y => ?_
  split
  · exact h₁.cp_fromSlot
  · split
    · exact h₁.cp_done
    · exact h₁.cp_begin.cp_read (fun t h₂ l => h₂.cp_write (fun x₁ h₃ => h₃.cp_done))
  · exact h₁.cp_done

theorem MemOk.cp_cell {c : Cp} {va : Nat} {k : AK} {go : State → Acc189 → Nat → State} (h : MemOk s)
    (hgo : ∀ x, MemOk x → ∀ y, ∀ x2, MemOk (go x y x2)) :
    MemOk (Machine.Cp.cell c s va k go) := by
  unfold Machine.Cp.cell
  split
  · exact h.cp_done
  · split
    split
    · exact hgo _ (h.check189.out ‹_›) _ _
    · exact hgo _ (h.check189.out ‹_›) _ _
    · split
      · exact (h.check189.out ‹_›).cp_done
      · exact (h.check189.out ‹_›).raiseFault
    · exact (h.check189.out ‹_›).cp_done

theorem MemOk.execCpWaitCell {run : Nat} (h : MemOk s) : OutOk (Machine.execCpWaitCell run s) := by
  unfold Machine.execCpWaitCell
  refine h.onStep fun x h₁ y => ?_
  split
  · refine h₁.cp_cell fun x₁ h₂ _ x2 => ?_
    split
    · exact h₂.cp_done
    · exact h₂
  · exact h₁

theorem MemOk.execCpWaitTimed {run : Nat} (h : MemOk s) : OutOk (Machine.execCpWaitTimed run s) := by
  unfold Machine.execCpWaitTimed
  refine h.onStep fun x h₁ y => ?_
  split
  · exact h₁
  · extract_lets s₁
    have h₂ : MemOk s₁ := by
      unfold s₁
      split
      · exact h₁
      · exact h₁.same
    split
    · exact h₂.cp_done
    · exact h₂

theorem MemOk.execCpLoop {run : Nat} (h : MemOk s) : OutOk (Machine.execCpLoop run s) := by
  unfold Machine.execCpLoop
  refine h.onStep fun x h₁ y => ?_
  extract_lets trips
  split
  · exact h₁.endCpStep
  · exact h₁.same.cp_done

theorem MemOk.execCpEndl {run : Nat} (h : MemOk s) : OutOk (Machine.execCpEndl run s) := by
  unfold Machine.execCpEndl
  refine h.onStep fun x h₁ y => ?_
  split
  · split
    · exact h₁.same.endCpStep
    · exact h₁.same.cp_done
  · exact h₁.cp_done

theorem MemOk.execCpSignal {run : Nat} (h : MemOk s) : OutOk (Machine.execCpSignal run s) := by
  unfold Machine.execCpSignal
  refine h.onStep fun x h₁ y => ?_
  split
  · refine h₁.cp_cell fun x₁ h₂ y₁ x2 => ?_
    extract_lets key
    split
    · exact h₂
    · exact h₂.cellHome.cp_done
  · exact h₁.cp_done

/-! ### Arrivals and times -/

theorem MemOk.transmit {port : Nat} {o : HostOut} (h : MemOk s) : MemOk (Machine.transmit s port o) := by
  unfold Machine.transmit
  split
  · exact h.same
  · exact h

theorem MemOk.execEngineMessageArrival {f : MsgFrom} {m : EngMsg} (h : MemOk s) :
    OutOk (Machine.execEngineMessageArrival f m s) := by
  unfold Machine.execEngineMessageArrival
  extract_lets told
  refine MemOk.next ?_
  split
  · exact h.transmit
  · split
    · exact h.transmit
    · split
      split
      · exact (h.deliver.out ‹_›).same.transmit
      · exact h.transmit

theorem MemOk.execMessageDiscard {die n : Nat} (h : MemOk s) :
    OutOk (Machine.execMessageDiscard die n s) := by
  unfold Machine.execMessageDiscard
  refine MemOk.next ?_
  split
  · split
    · exact h.same.bumpCounter
    · exact h
  · exact h

theorem MemOk.execRecvTimeout {run : Nat} (h : MemOk s) : OutOk (Machine.execRecvTimeout run s) := by
  unfold Machine.execRecvTimeout
  refine MemOk.next ?_
  split
  · split
    · split
      · exact h.cp_done
      · exact h
    · exact h
  · exact h

theorem MemOk.execSlotContribution {c : SentContrib} (h : MemOk s) :
    OutOk (Machine.execSlotContribution c s) := by
  unfold Machine.execSlotContribution
  extract_lets f told
  refine MemOk.next ?_
  split
  · exact h.transmit
  · split
    · exact h.transmit
    · split
      exact (h.contribute.out ‹_›).same.transmit

theorem MemOk.execSlotClose {slot : Name} (h : MemOk s) : OutOk (Machine.execSlotClose slot s) := by
  unfold Machine.execSlotClose
  refine MemOk.next ?_
  split
  · split
    · split
      · exact h.closeSlot
      · exact h
    · exact h
  · exact h

theorem MemOk.execSlotDeadline {slot : Name} (h : MemOk s) : OutOk (Machine.execSlotDeadline slot s) := by
  unfold Machine.execSlotDeadline
  refine MemOk.next ?_
  split
  · split
    · split
      · exact h.closeSlot
      · exact h
    · exact h
  · exact h

/-! ### CPRUN, CPSTAT, CPSTOP -/

theorem MemOk.startRun {e : Entry} {p : CpProg} {r : Run} (h : MemOk s) :
    MemOk (Machine.startRun s e p r) := by
  unfold Machine.startRun
  extract_lets names s₁ s₂
  have h₂ : MemOk s₁ := foldl_keeps (fun _ _ h₃ => h₃.cacheName) h
  have h₅ : MemOk s₂ := foldl_keeps (fun _ _ h₆ => h₆.holdName) h₂.same
  exact h₅.wakeIslands.modEntry

theorem MemOk.execCprun {q : BitVec 3} {g : Bool} {kx : BitVec 4} {sa sb sc : BitVec 6} (h : MemOk s) :
    OutOk (Machine.execCprun hd q g kx sa sb sc s) := by
  unfold Machine.execCprun
  refine h.onCur fun c => ?_
  split
  · exact h.blockWord
  · refine h.pinFirst.afterSync fun x h₁ => ?_
    extract_lets c₁ x₁ y
    split
    · exact h₁.goneDone
    · exact h₁.reasonDone
    · split
      · exact h₁.deliverFail ‹_›
      · exact h₁.releaseAt.afterSync (fun x₂ h₂ => h₂.startRun.reasonDone)

theorem MemOk.execCpstat {q : BitVec 3} {g : Bool} {kx : BitVec 4} {sa : BitVec 6} (h : MemOk s) :
    OutOk (Machine.execCpstat hd q g kx sa s) := by
  unfold Machine.execCpstat
  refine h.onCur fun c => ?_
  extract_lets n
  split
  · exact h.goneDone
  · exact h.reasonDone
  · exact h.goneDone

theorem MemOk.stopRun {r : Run} (h : MemOk s) : MemOk (Machine.stopRun s r) := by
  unfold Machine.stopRun
  split
  · exact h.same
  · exact h.endRun

theorem MemOk.execCpstop {q : BitVec 3} {g : Bool} {kx : BitVec 4} (h : MemOk s) :
    OutOk (Machine.execCpstop hd q g kx s) := by
  unfold Machine.execCpstop
  refine h.onCur fun c => ?_
  split
  · exact h.blockWord
  · refine h.pinFirst.afterSync fun x h₁ => ?_
    extract_lets c₁ n id
    split
    · exact h₁.goneDone
    · split
      · exact h₁.addPend.same.stopRun.finish
      · exact h₁.reasonDone

/-- The state that an incoming request leaves. -/
def Served.state : Served → State
  | .answer s _ _ _ | .wait s => s

/-! ### The owner's side (R423, R425, R426) -/

theorem MemOk.performPeer {q : PeerReq} {porut : Bool} {loc : Nat} {tagged : Bool} (h : MemOk s) :
    MemOk (Served.state (Machine.performPeer s q porut loc tagged)) := by
  have hput : ∀ b, MemOk (Machine.outsideWrite s loc tagged (peerTag q porut) b) := fun _ => h.outsideWrite
  unfold Machine.performPeer
  extract_lets n old poison put bad
  split
  · split <;> exact h
  · exact hput _
  · split
    · exact h
    · exact hput _
  · split
    · exact h
    · show MemOk (if _ then _ else _)
      split
      · exact hput _
      · exact h
  · exact hput _
  · split
    · exact h
    · show MemOk (if _ then _ else _)
      split
      · exact hput _
      · exact h

theorem MemOk.servePeer {q : PeerReq} (h : MemOk s) : MemOk (Served.state (Machine.servePeer s q)) := by
  unfold Machine.servePeer
  extract_lets porut
  split
  · exact h
  · split
    · split
      · extract_lets va w
        split
        · exact h
        · split
          · exact h
          · split
            · exact h.translate.out ‹_›
            · exact (h.translate.out ‹_›).raiseFault
            · next s₁ e =>
              have h₁ : MemOk s₁ := h.translate.out e
              split
              · exact h₁
              · split
                · exact h₁
                · refine MemOk.performPeer ?_
                  split
                  · exact h₁
                  · exact h₁.recallWhere.markDirty
      · exact h
    · exact h

theorem MemOk.answerPeer {q : PeerReq} {bytes : List Byte} {error poison busy : Bool} (h : MemOk s) :
    MemOk (Machine.answerPeer s q bytes error poison busy) := h.same.transmit

theorem MemOk.execPeerRequestArrival {q : PeerReq} (h : MemOk s) : OutOk
    (Machine.execPeerRequestArrival q s) := by
  unfold Machine.execPeerRequestArrival
  extract_lets porut y add
  refine MemOk.next ?_
  have hadd : ∀ {t}, MemOk t → MemOk (add t) := by
    intro t ht
    unfold add
    split
    · exact ht
    · exact ht.same.wakeIslands
  split
  · exact h.answerPeer
  · split
    · exact h.answerPeer
    · have hy : MemOk (Served.state y) := h.servePeer
      generalize y = z at hy ⊢
      cases z with
      | wait s₁ => exact hadd hy
      | answer s₁ b error poison =>
        refine MemOk.answerPeer ?_
        split
        · exact MemOk.same hy
        · exact hy

/-! ### The requester's side (R424, R425) -/

theorem MemOk.wakePeers (h : MemOk s) : MemOk (Machine.wakePeers s) := foldl_keeps (fun _ _ h₁ => h₁.wake) h

theorem MemOk.feedPend {d : PeerDst} {ws : List RegW} (h : MemOk s) : MemOk (Machine.feedPend s d ws) := by
  unfold Machine.feedPend
  split
  · exact h.same
  · exact h

theorem MemOk.peerTrap {n : Now} {ts : List LaneTrap} (h : MemOk s) : MemOk (Machine.peerTrap s n ts) := by
  unfold Machine.peerTrap
  split
  · extract_lets new
    split
    · exact h.same
    · split <;> exact h.same
  · exact h.asyncTrap

theorem MemOk.peerPoison {n : Now} {ts : List LaneTrap} (h : MemOk s) :
    MemOk (Machine.peerPoison s n ts) := by
  unfold Machine.peerPoison
  split
  · extract_lets soft
    split
    · exact h.endTeam
    · exact h.peerTrap
  · exact h

theorem MemOk.failStore {g : GRef} {cause : Cause} {window lane va : Nat} (h : MemOk s) :
    MemOk (Machine.failStore s g cause window lane va) := by
  unfold Machine.failStore
  split
  · split
    · exact h.endTeam
    · exact h.same
  · split
    · split
      · exact h.postEnd.same
      · exact h
    · exact h

theorem MemOk.failOwner {n code : Nat} (h : MemOk s) :
    MemOk (Machine.failOwner s n code) := h.same.same.same

theorem MemOk.failPeer {p : PeerOut} {cause : Cause} {code : Nat} (h : MemOk s) :
    MemOk (Machine.failPeer s p cause code) := by
  unfold Machine.failPeer
  split
  · exact h.feedPend.peerTrap
  · exact h.feedPend.peerTrap
  · exact h.feedPend.peerTrap
  · extract_lets s₁
    have h₁ : MemOk s₁ := by
      unfold s₁
      split
      · exact h.holdName
      · exact h
    exact h₁.feedPend.peerTrap
  · exact h.failStore
  · exact h.dropFetched.peerTrap
  · exact h.failOwner
  · exact h.same
  · exact h.endCpStep

theorem MemOk.poisonPeer {p : PeerOut} (h : MemOk s) : MemOk (Machine.poisonPeer s p) := by
  unfold Machine.poisonPeer
  extract_lets lanes n free keep
  split
  · exact h.feedPend.peerPoison
  · exact h.feedPend.peerPoison
  · exact h.feedPend.peerPoison
  · extract_lets s₁
    have h₁ : MemOk s₁ := by
      unfold s₁
      split
      · exact h.holdName
      · exact h
    exact h₁.feedPend.peerPoison
  · exact h.dropFetched.peerPoison
  · split
    · exact h.failOwner
    · exact h.same
  · exact h.same
  · exact h.failPeer
  · exact h.failPeer

theorem MemOk.ackOwner {n : Nat} (h : MemOk s) : MemOk (Machine.ackOwner s n) := by
  unfold Machine.ackOwner
  split
  · exact h
  · exact h.same.same

theorem MemOk.fillPeer {p : PeerOut} {b : List Byte} (h : MemOk s) : MemOk (Machine.fillPeer s p b) := by
  unfold Machine.fillPeer
  split
  · exact h.feedPend
  · split
    · exact h.feedPend.peerTrap
    · exact h.feedPend
  · exact h.feedPend
  · extract_lets x ctx
    split
    · exact h.feedPend
    · extract_lets s₁
      have h₁ : MemOk s₁ := by
        unfold s₁
        split
        · exact h.holdName
        · exact h
      exact h₁.feedPend
  · exact h.same
  · exact h.same
  · exact h.same
  · exact h
  · split
    · exact h.endCpStep
    · exact h

theorem MemOk.donePeer {p : PeerOut} (h : MemOk s) : MemOk (Machine.donePeer s p) := by
  unfold Machine.donePeer
  split
  · exact h.ackOwner
  · split
    · exact h.endCpStep
    · exact h
  · exact h.feedPend

theorem MemOk.dropReq {n : Nat} (h : MemOk s) : MemOk (Machine.dropReq s n) := h.same

theorem MemOk.execPeerResponse {req : Nat} {a : PeerAns} (h : MemOk s) :
    OutOk (Machine.execPeerResponse req a s) := by
  unfold Machine.execPeerResponse
  refine MemOk.next ?_
  split
  · exact h
  · split
    · exact h.same
    · exact h.dropReq.poisonPeer.wakePeers
    · exact h.dropReq.failPeer.wakePeers
    · exact h.dropReq.fillPeer.wakePeers
    · exact h.dropReq.donePeer.wakePeers

theorem MemOk.execPeerTimeout {req : Nat} (h : MemOk s) : OutOk (Machine.execPeerTimeout req s) := by
  unfold Machine.execPeerTimeout
  refine MemOk.next ?_
  split
  · split
    · exact h.dropReq.failPeer.wakePeers
    · exact h
  · exact h

theorem MemOk.execPeerBusyRetry {req : Nat} (h : MemOk s) : OutOk (Machine.execPeerBusyRetry req s) := by
  unfold Machine.execPeerBusyRetry
  refine MemOk.next ?_
  split
  · split
    · exact h.same
    · exact h
  · exact h

/-! ### Links (R439, R440) -/

theorem MemOk.execLinkBringup {port vendor accel : Nat} (h : MemOk s) :
    OutOk (Machine.execLinkBringup port vendor accel s) := by
  unfold Machine.execLinkBringup
  refine MemOk.next ?_
  split
  · exact h
  · extract_lets s₁
    have h₁ : MemOk s₁ := by
      unfold s₁
      split
      · exact h
      · exact h.same
    split
    · exact h₁.same
    · exact h₁

theorem MemOk.execPortDown {port : Nat} (h : MemOk s) : OutOk (Machine.execPortDown port s) := h.same.next

theorem MemOk.execDatagramResend {req : Nat} (h : MemOk s) :
    OutOk (Machine.execDatagramResend req s) := h.same.next

theorem MemOk.execTimeSync {time skew : Word} (h : MemOk s) :
    OutOk (Machine.execTimeSync time skew s) := h.same.next

/-! ### The completion of NKILL (R277, R278) -/

theorem MemOk.scrubSlot {slot : Nat} (h : MemOk s) : MemOk (Machine.scrubSlot s slot) := by
  unfold Machine.scrubSlot
  extract_lets s₁ s₂
  have h₂ : MemOk s₁ := foldl_keeps (fun _ _ h₃ => h₃.applyRed) h
  exact h₂.invalidateSlot.same

theorem MemOk.retire {e : Entry} (h : MemOk s) : MemOk (Machine.retire s e) := by
  unfold Machine.retire
  split
  · exact h.closeSlot
  · exact h.scrubSlot
  · exact h

theorem MemOk.mbDone {status : Nat} {ws : List Word} (h : MemOk s) :
    MemOk (Machine.mbDone s status ws) := h.same

theorem MemOk.freeEntry {e : Entry} (h : MemOk s) : MemOk (Machine.freeEntry s e) := by
  unfold Machine.freeEntry
  extract_lets s₁
  split
  · exact h.same.mbDone
  · exact h.same.returnLate
  · exact h.same

theorem MemOk.execNkillComplete {name : Name} (h : MemOk s) : OutOk (Machine.execNkillComplete name s) := by
  unfold Machine.execNkillComplete
  refine MemOk.next ?_
  split
  · split
    · extract_lets s₁
      have h₂ : MemOk s₁ := foldl_keeps (fun _ _ h₃ => h₃.stopRun) h
      split
      · exact h₂.retire.freeEntry
      · exact h₂
    · exact h
  · exact h

/-! ### Reset -/

theorem MemOk.resetState {cold : Bool} {b : BootInfo} (h : MemOk s) : MemOk (Machine.resetState cold b s) :=
  memOk_resetState cold b h

theorem MemOk.execReset {cold : Bool} {b : BootInfo} (h : MemOk s) :
    OutOk (Machine.execReset cold b s) := h.resetState.next

/-! ### The fatal-error dump -/

theorem MemOk.execFatalError (h : MemOk s) : OutOk (Machine.execFatalError s) := (h.putMem ..).same.next

/-! ### Islands and firmware -/

theorem MemOk.settleIsland {i : Nat} (h : MemOk s) : MemOk (Machine.settleIsland s i) := h.same

theorem MemOk.execFrequencyChange {island mhz mv : Nat} {gate : Bool} (h : MemOk s) :
    OutOk (Machine.execFrequencyChange island mhz mv gate s) := h.same.settleIsland.next

theorem MemOk.execFirmwareRefused {die : Nat} {addr : Word} (h : MemOk s) :
    OutOk (Machine.execFirmwareRefused die addr s) := by
  unfold Machine.execFirmwareRefused
  refine MemOk.next ?_
  split
  · exact h
  · exact h.postRecord

/-! ### Resolve messages (R217, R434) -/

theorem MemOk.execResolveRetry {die : Nat} {seq : Word} (h : MemOk s) :
    OutOk (Machine.execResolveRetry die seq s) := by
  unfold Machine.execResolveRetry
  refine MemOk.next ?_
  split
  · exact h.retryFault
  · exact h

theorem MemOk.unmapTeam {team page : Nat} (h : MemOk s) : MemOk (Machine.unmapTeam s team page) := h.endTeam

theorem MemOk.unmapLanes {r : GRef} {m : Mask} {page : Nat} (h : MemOk s) :
    MemOk (Machine.unmapLanes s r m page) := h.endTeam

theorem MemOk.dropStores {f : FaultReq} (h : MemOk s) : MemOk (Machine.dropStores s f) := by
  unfold Machine.dropStores
  extract_lets bad q teams s₁
  have h₂ : MemOk s₁ := foldl_keeps (fun _ _ h₃ => h₃.unmapTeam) h
  exact h₂.same

theorem MemOk.refuseCmd {f : FaultReq} {n : Nat} (h : MemOk s) :
    MemOk (Machine.refuseCmd s f n) := h.same.same

theorem MemOk.refuseWaiter {f : FaultReq} {w : Waiter} (h : MemOk s) :
    MemOk (Machine.refuseWaiter s f w) := by
  unfold Machine.refuseWaiter
  split
  · exact h.unmapLanes
  · exact h.regroup
  · exact h.unmapTeam
  · exact h.refuseCmd
  · split
    · exact h.unmapTeam
    · exact h
  · extract_lets s₁
    have h₂ : MemOk s₁ := foldl_keeps (fun _ _ h₃ => h₃.loseCell) h
    split
    · exact h₂.refuseLaunch
    · exact h₂
  · exact (foldl_keeps (fun _ _ h₄ => h₄.loseCell) h).modRun
  · exact foldl_keeps (fun _ _ h₅ => h₅.wake) h.modEntry
  · exact foldl_keeps (fun _ _ h₆ => h₆.loseCell) h
  · split
    · exact h.answerPeer
    · exact h
  · exact h.mbDone

theorem MemOk.execResolveRefuse {die : Nat} {seq : Word} (h : MemOk s) :
    OutOk (Machine.execResolveRefuse die seq s) := by
  unfold Machine.execResolveRefuse
  refine MemOk.next ?_
  split
  · exact (foldl_keeps (fun _ _ h₁ => h₁.refuseWaiter) h.same).dropStores.wakeLines
  · exact h

/-! ### The control space (R432, R433) -/

theorem MemOk.execFaultRingConsume {x : Word} (h : MemOk s) : OutOk (Machine.execFaultRingConsume x s) := by
  unfold Machine.execFaultRingConsume
  refine MemOk.next ?_
  split
  · exact h.same
  · exact h

theorem MemOk.execErrorRingConsume {x : Word} (h : MemOk s) : OutOk (Machine.execErrorRingConsume x s) := by
  unfold Machine.execErrorRingConsume
  refine MemOk.next ?_
  split
  · exact h.same
  · exact h

theorem MemOk.execErrorRecordForward (h : MemOk s) : OutOk (Machine.execErrorRecordForward s) := by
  unfold Machine.execErrorRecordForward
  refine MemOk.next ?_
  split
  · extract_lets c base
    split
    · exact h.putHost.same
    · exact h
  · exact h

theorem MemOk.resolveMsg {x : BitVec 128} (h : MemOk s) : OutOk (Machine.resolveMsg s x) := by
  unfold Machine.resolveMsg
  extract_lets die seq
  split
  · exact h.next
  · split
    · exact h.execResolveRefuse
    · exact h.execResolveRetry

theorem MemOk.ringDoor (h : MemOk s) : MemOk (Machine.ringDoor s) := by
  unfold Machine.ringDoor
  split
  · exact h
  · split
    · exact h.mbDone
    · split
      · exact h.mbDone
      · exact h.same

theorem MemOk.execControlRegisterWrite {off size : Nat} {data : List Byte} (h : MemOk s) :
    OutOk (Machine.execControlRegisterWrite off size data s) := by
  unfold Machine.execControlRegisterWrite
  extract_lets c x set fr er
  split
  · exact h.next
  · split
    · split
      · exact h.same.next
      · exact h.next
    · split
      · exact h.same.next
      · exact h.next
    · exact h.execFaultRingConsume
    · exact h.resolveMsg
    · split
      · exact h.same.next
      · exact h.next
    · split
      · exact h.same.next
      · exact h.next
    · exact h.execErrorRingConsume
    · split
      · exact h.next
      · exact h.same.next
    · exact h.ringDoor.next
    · exact h.next

/-! ### The mailbox (R436) -/

theorem MemOk.onMailbox {code : Nat} {k : State → State} (h : MemOk s) (hk : ∀ x, MemOk x → MemOk (k x)) :
    OutOk (Machine.onMailbox s code k) := by
  unfold Machine.onMailbox
  refine MemOk.next ?_
  split
  · exact hk _ h
  · exact h

theorem MemOk.execHostRead {p : HostPlace} {size : Nat} (h : MemOk s) :
    OutOk (Machine.execHostRead p size s) := by
  unfold Machine.execHostRead
  refine MemOk.next ?_
  split
  · exact h.hostLoad
  · split
    · exact h.same
    · exact h

theorem MemOk.execPreempt (h : MemOk s) : OutOk (Machine.execPreempt s) := by
  unfold Machine.execPreempt
  refine h.onMailbox fun x h₁ => ?_
  split
  · exact h₁.mbDone
  · exact (foldl_keeps (fun _ _ h₂ => h₂.askPreempt) h₁).mbDone

theorem MemOk.killLaunch {l : Launch} (h : MemOk s) : MemOk (Machine.killLaunch s l) := by
  unfold Machine.killLaunch
  split
  · split
    · exact h.same
    · exact h.dropLaunch
  · split
    · exact h.discardLaunch
    · exact h.same

theorem MemOk.execKill (h : MemOk s) : OutOk (Machine.execKill s) := by
  unfold Machine.execKill
  refine h.onMailbox fun x h₁ => ?_
  split
  · exact h₁.mbDone
  · exact (foldl_keeps (fun _ _ h₃ => h₃.plainFault) (foldl_keeps (fun _ _ h₂ => h₂.killLaunch) h₁)).mbDone

theorem MemOk.execPeertime (h : MemOk s) : OutOk (Machine.execPeertime s) := by
  unfold Machine.execPeertime
  refine h.onMailbox fun x h₁ => ?_
  extract_lets a t
  split
  · exact h₁.mbDone
  · exact h₁.same.mbDone

theorem MemOk.execEndpoint (h : MemOk s) : OutOk (Machine.execEndpoint s) := by
  unfold Machine.execEndpoint
  refine h.onMailbox fun x h₁ => ?_
  extract_lets i p
  split
  · exact h₁.mbDone
  · exact h₁.same.mbDone

theorem MemOk.tallyBlocks {die : Nat} (h : MemOk s) : MemOk (Machine.tallyBlocks s die) := by
  unfold Machine.tallyBlocks
  extract_lets base
  have h₂ : MemOk base := foldl_keeps (fun _ _ h₃ => h₃.addCounter) h
  exact h₂.same

theorem MemOk.execCounters (h : MemOk s) : OutOk (Machine.execCounters s) := by
  unfold Machine.execCounters
  refine h.onMailbox fun x h₁ => ?_
  extract_lets d s₁
  split
  · exact h₁.mbDone
  · exact h₁.tallyBlocks.putHost.mbDone

theorem MemOk.execAgeing (h : MemOk s) : OutOk (Machine.execAgeing s) := by
  unfold Machine.execAgeing
  refine h.onMailbox fun x h₁ => ?_
  extract_lets days base
  split
  · exact h₁.mbDone
  · exact h₁.putHost.same.mbDone

theorem MemOk.execDump (h : MemOk s) : OutOk (Machine.execDump s) := by
  unfold Machine.execDump
  refine h.onMailbox fun x h₁ => ?_
  extract_lets n
  split
  · exact h₁.mbDone
  · exact h₁.putHost.mbDone

theorem MemOk.execAttest (h : MemOk s) : OutOk (Machine.execAttest s) := by
  unfold Machine.execAttest
  refine h.onMailbox fun x h₁ => ?_
  extract_lets m base
  split
  · exact h₁.mbDone
  · exact h₁.putHost.same.mbDone

/-! ### Names for the host (R437) -/

theorem MemOk.mailEnd {status : Nat} {ws : List Word} (h : MemOk s) :
    MemOk (Machine.mailEnd s status ws) := h.dropFetched.mbDone

theorem MemOk.mailRead {w : Who} {va : Word} {n : Nat} {f : State → List Byte → State} (h : MemOk s)
    (hf : ∀ x, MemOk x → ∀ b, MemOk (f x b)) : MemOk (Machine.mailRead w s va n f) := by
  have hg : MemOk (DevGot.state (Machine.devGet s mailKey w va.toNat n)) := h.devGet
  unfold Machine.mailRead
  generalize Machine.devGet s mailKey w va.toNat n = y at hg ⊢
  cases y with
  | bytes t b => exact hf _ hg _
  | bad t => exact MemOk.mailEnd hg
  | wait t v => exact MemOk.raiseFault hg
  | asked t => exact hg
  | busy t => exact h

theorem MemOk.execNameobj (h : MemOk s) : OutOk (Machine.execNameobj s) := by
  unfold Machine.execNameobj
  refine h.onMailbox fun s₁ h₁ => ?_
  extract_lets cls owner pa
  split
  · exact h₁
  · split
    · exact h₁.mbDone
    · split
      · exact h₁.mbDone
      · exact h₁.makeName (fun _ h _ _ _ _ hf => h.mailRead hf) (fun _ h _ => h.mailEnd)
          (fun _ h _ => h.mailEnd.closeIfPast) (fun _ h _ => h.raiseFault) (fun _ h _ => h.mailEnd)
            (fun _ h _ => h)

theorem MemOk.execKillobj (h : MemOk s) : OutOk (Machine.execKillobj s) := by
  unfold Machine.execKillobj
  refine h.onMailbox fun x h₁ => ?_
  extract_lets n
  split
  · exact h₁.mbDone
  · split
    · exact h₁.mbDone
    · split
      · exact h₁.mbDone
      · split
        · split
          · exact h₁
          · exact h₁.mbDone
        · split
          · exact h₁.mbDone
          · exact h₁.shootDown

/-! ### Issuing a word -/

theorem MemOk.countIssue {r : GRef} {cl : Clause} (h : MemOk s) : MemOk (Machine.countIssue s r cl) := by
  unfold Machine.countIssue
  split
  · exact h
  · exact h.same

theorem MemOk.issueFault {n : Now} {cause : Cause} (h : MemOk s) :
    MemOk (Machine.issueFault s n cause) := h.endTeam

/-! ### A step -/

theorem MemOk.tick (h : MemOk s) : MemOk (Machine.tick s) := h.same

/-! ### The step -/

theorem MemOk.exec {i : Instr} {s : State} (h : MemOk s) : OutOk (Machine.exec i s) := by
  cases i with
  | nop => exact h.execNop
  | smovReg => exact h.execSmovReg
  | smovImm => exact h.execSmovImm
  | smovHi => exact h.execSmovHi
  | sadd => exact h.execSadd
  | ssub => exact h.execSsub
  | smul => exact h.execSmul
  | sdiv => exact h.execSdiv
  | slog => exact h.execSlog
  | ssh => exact h.execSsh
  | scmp => exact h.execScmp
  | ssel => exact h.execSsel
  | sbit => exact h.execSbit
  | sminmax => exact h.execSminmax
  | qlog => exact h.execQlog
  | sld => exact h.execSld
  | sst => exact h.execSst
  | braCond => exact h.execBraCond
  | braAlways => exact h.execBraAlways
  | brv => exact h.execBrv
  | jmpv => exact h.execJmpv
  | call => exact h.execCall
  | callv => exact h.execCallv
  | ret => exact h.execRet
  | join => exact h.execJoin
  | defer => exact h.execDefer
  | loopScalar => exact h.execLoopScalar
  | loopImm => exact h.execLoopImm
  | lbrk => exact h.execLbrk
  | exit => exact h.execExit
  | yld => exact h.execYld
  | srd => exact h.execSrd
  | swr _ sc _ _ => exact h.execSwr (scalar := sc)
  | vadd => exact h.execVadd
  | vsub => exact h.execVsub
  | vmul => exact h.execVmul
  | vmad => exact h.execVmad
  | vlog => exact h.execVlog
  | vsh => exact h.execVsh
  | vminmax => exact h.execVminmax
  | vabs => exact h.execVabs
  | vcmp => exact h.execVcmp
  | vsel => exact h.execVsel
  | vbit => exact h.execVbit
  | vbfe => exact h.execVbfe
  | vbfi => exact h.execVbfi
  | vmov => exact h.execVmov
  | vdiv => exact h.execVdiv
  | fadd => exact h.execFadd
  | fsub => exact h.execFsub
  | fmul => exact h.execFmul
  | ffma => exact h.execFfma
  | fminmax => exact h.execFminmax
  | fcmp => exact h.execFcmp
  | fcls => exact h.execFcls
  | fdot => exact h.execFdot
  | sfu => exact h.execSfu
  | rng => exact h.execRng
  | cvt => exact h.execCvt
  | cvtp => exact h.execCvtp
  | cvtx => exact h.execCvtx
  | fscl => exact h.execFscl
  | vbal => exact h.execVbal
  | vvote => exact h.execVvote
  | vshfl => exact h.execVshfl
  | vxch => exact h.execVxch
  | vreduce => exact h.execVreduce
  | vscan => exact h.execVscan
  | vmatch => exact h.execVmatch
  | vlane => exact h.execVlane
  | vld => exact h.execVld
  | vst => exact h.execVst
  | pref _ hint _ => exact h.execPref (hint := hint)
  | probe => exact h.execProbe
  | bankcfg => exact h.execBankcfg
  | iinv => exact h.execIinv
  | atom => exact h.execAtom
  | acas => exact h.execAcas
  | red => exact h.execRed
  | fence => exact h.execFence
  | qpush => exact h.execQpush
  | qpop => exact h.execQpop
  | qallowGrant => exact h.execQallowGrant
  | qallowRead => exact h.execQallowRead
  | cwait => exact h.execCwait
  | carr => exact h.execCarr
  | crst => exact h.execCrst
  | tbar => exact h.execTbar
  | commit => exact h.execCommit
  | mma => exact h.execMma
  | aacq hd _ => exact h.execAacq (hd := hd)
  | arel => exact h.execArel
  | ald => exact h.execAld
  | ast => exact h.execAst
  | azero => exact h.execAzero
  | adrnStore => exact h.execAdrnStore
  | adrnFadd => exact h.execAdrnFadd
  | xcopy => exact h.execXcopy
  | xformDec => exact h.execXformDec
  | xformPerm => exact h.execXformPerm
  | xformCvt => exact h.execXformCvt
  | xformFill => exact h.execXformFill
  | xstat => exact h.execXstat
  | cprun => exact h.execCprun
  | cpstat => exact h.execCpstat
  | cpstop => exact h.execCpstop
  | nnew => exact h.execNnew
  | nkill => exact h.execNkill
  | nres => exact h.execNres
  | nmov => exact h.execNmov
  | ninfo => exact h.execNinfo
  | nld => exact h.execNld
  | nst => exact h.execNst
  | ncas => exact h.execNcas
  | tget => exact h.execTget
  | tset => exact h.execTset
  | tchk => exact h.execTchk
  | tldg => exact h.execTldg
  | tstg => exact h.execTstg
  | torg => exact h.execTorg
  | rvmul => exact h.execRvmul
  | rvadd => exact h.execRvadd
  | rvnar => exact h.execRvnar
  | rvmax0 => exact h.execRvmax0
  | unmul => exact h.execUnmul
  | unadd => exact h.execUnadd
  | unnar => exact h.execUnnar
  | unmax0 => exact h.execUnmax0
  | slmark => exact h.execSlmark
  | sldrop => exact h.execSldrop
  | sldepth => exact h.execSldepth
  | trap hd _ => exact h.execTrap (hd := hd)
  | tret hd => exact h.execTret (hd := hd)
  | brk hd => exact h.execBrk (hd := hd)
  | launch => exact h.execLaunch
  | clauseEntry => exact h.execClauseEntry
  | overrun => exact h.execOverrun
  | resultReturn => exact h.execResultReturn
  | switchWake => exact h.execSwitchWake
  | queueEntryFree => exact h.execQueueEntryFree
  | yldDrainComplete => exact h.execYldDrainComplete
  | joinRelease => exact h.execJoinRelease
  | loopEndStep => exact h.execLoopEndStep
  | deferRelease => exact h.execDeferRelease
  | dieFaultWalk => exact h.execDieFaultWalk
  | faultRecordWrite => exact h.execFaultRecordWrite
  | storeQueueDrain => exact h.execStoreQueueDrain
  | ownershipGrant => exact h.execOwnershipGrant
  | invalidationReceive => exact h.execInvalidationReceive
  | directoryRecall => exact h.execDirectoryRecall
  | directoryEviction => exact h.execDirectoryEviction
  | aliasRecall => exact h.execAliasRecall
  | aliasRecordDrop => exact h.execAliasRecordDrop
  | redArrival => exact h.execRedArrival
  | iinvAck => exact h.execIinvAck
  | tlbInvalidation => exact h.execTlbInvalidation
  | tlbSync => exact h.execTlbSync
  | hostWrite => exact h.execHostWrite
  | hostRead => exact h.execHostRead
  | scrubPass => exact h.execScrubPass
  | dirtyEvictionError => exact h.execDirtyEvictionError
  | engineCommandStart => exact h.execEngineCommandStart
  | engineStartTime => exact h.execEngineStartTime
  | cbFullTimeout => exact h.execCbFullTimeout
  | engineCommandEnd => exact h.execEngineCommandEnd
  | transformSpillReplay => exact h.execTransformSpillReplay
  | engineQueueWake => exact h.execEngineQueueWake
  | emulatedTileOp => exact h.execEmulatedTileOp
  | mmaExecute => exact h.execMmaExecute
  | matrixQueueWake => exact h.execMatrixQueueWake
  | aacqComplete => exact h.execAacqComplete
  | arelHandover => exact h.execArelHandover
  | queueWake => exact h.execQueueWake
  | cwaitWake => exact h.execCwaitWake
  | cwaitTimeout => exact h.execCwaitTimeout
  | bellRelease => exact h.execBellRelease
  | launchQueueWake => exact h.execLaunchQueueWake
  | slateSpill => exact h.execSlateSpill
  | trapEntry => exact h.execTrapEntry
  | teamFaultEnd => exact h.execTeamFaultEnd
  | relaunch => exact h.execRelaunch
  | groupEnd => exact h.execGroupEnd
  | teamEndExit => exact h.execTeamEndExit
  | launchWindowWrite => exact h.execLaunchWindowWrite
  | launchAccept => exact h.execLaunchAccept
  | dependenceMet => exact h.execDependenceMet
  | teamPlace => exact h.execTeamPlace
  | launchWait2ms => exact h.execLaunchWait2ms
  | preemptRequest => exact h.execPreemptRequest
  | teamSave => exact h.execTeamSave
  | teamResume => exact h.execTeamResume
  | floorShareTimeout => exact h.execFloorShareTimeout
  | launchComplete => exact h.execLaunchComplete
  | nkillComplete => exact h.execNkillComplete
  | rollEntryWrite => exact h.execRollEntryWrite
  | errorRecordForward => exact h.execErrorRecordForward
  | cpHalt => exact h.execCpHalt
  | cpSend => exact h.execCpSend
  | cpRecv => exact h.execCpRecv
  | cpRrs => exact h.execCpRrs
  | cpRred => exact h.execCpRred
  | cpCopy => exact h.execCpCopy
  | cpWaitCell => exact h.execCpWaitCell
  | cpWaitTimed => exact h.execCpWaitTimed
  | cpLoop => exact h.execCpLoop
  | cpEndl => exact h.execCpEndl
  | cpSignal => exact h.execCpSignal
  | engineMessageArrival => exact h.execEngineMessageArrival
  | messageDiscard => exact h.execMessageDiscard
  | recvTimeout => exact h.execRecvTimeout
  | slotContribution => exact h.execSlotContribution
  | slotClose => exact h.execSlotClose
  | slotDeadline => exact h.execSlotDeadline
  | peerRequestArrival => exact h.execPeerRequestArrival
  | peerResponse => exact h.execPeerResponse
  | peerTimeout => exact h.execPeerTimeout
  | peerBusyRetry => exact h.execPeerBusyRetry
  | linkBringup => exact h.execLinkBringup
  | portDown => exact h.execPortDown
  | datagramResend => exact h.execDatagramResend
  | timeSync => exact h.execTimeSync
  | reset => exact h.execReset
  | fatalError => exact h.execFatalError
  | frequencyChange => exact h.execFrequencyChange
  | firmwareRefused => exact h.execFirmwareRefused
  | resolveRetry => exact h.execResolveRetry
  | resolveRefuse => exact h.execResolveRefuse
  | faultRingConsume => exact h.execFaultRingConsume
  | errorRingConsume => exact h.execErrorRingConsume
  | controlRegisterWrite => exact h.execControlRegisterWrite
  | preempt => exact h.execPreempt
  | kill => exact h.execKill
  | peertime => exact h.execPeertime
  | endpoint => exact h.execEndpoint
  | counters => exact h.execCounters
  | ageing => exact h.execAgeing
  | dump => exact h.execDump
  | attest => exact h.execAttest
  | nameobj => exact h.execNameobj
  | killobj => exact h.execKillobj
  | hostMemorySnoop => exact h.execHostMemorySnoop

/-- The state that a choice leaves before its step. -/
def Issued.state : Issued → State
  | .run _ s | .done s => s

/-- The choice, where there is one, leaves memory in canonical form. -/
def IssuedOk (o : Option Issued) : Prop := ∀ i ∈ o, MemOk i.state

theorem IssuedOk.orElse {o : Option Issued} {p : Unit → Option Issued} (ho : IssuedOk o) (hp : IssuedOk (p ())) :
    IssuedOk (o.orElse p) := by
  cases o with
  | none => exact hp
  | some i => exact ho

theorem IssuedOk.getD {o : Option Issued} {i : Issued} (ho : IssuedOk o) (hi : MemOk i.state) :
    MemOk (o.getD i).state := by
  cases o with
  | none => exact hi
  | some j => exact ho j rfl

theorem IssuedOk.map {α : Type} {o : Option α} {f : α → Issued} (hf : ∀ a, MemOk (f a).state) :
    IssuedOk (o.map f) := by
  intro i hi
  obtain ⟨a, -, rfl⟩ := Option.mem_map.1 hi
  exact hf a

theorem MemOk.issueWord {s : State} {t : Team} {g : Group} {cl : Clause} (h : MemOk s) :
    MemOk (Machine.issueWord s t g cl).state := by
  unfold Machine.issueWord
  extract_lets r n s₁
  have h₁ : MemOk s₁ := h.same
  have hf : MemOk (Machine.fetchWord s₁ t.core t.slot n.pc).2 := h₁.fetchWord
  generalize Machine.fetchWord s₁ t.core t.slot n.pc = y at hf ⊢
  split
  · exact h₁
  · split
    · split
      · exact MemOk.countIssue hf
      · exact MemOk.issueFault hf
    · exact MemOk.issueFault hf
    · exact (MemOk.coreFault hf).modGroup ..
    · split
      · exact MemOk.eatPoison hf
      · exact hf

theorem MemOk.nextWord {s : State} (h : MemOk s) : IssuedOk (Machine.nextWord s) :=
  IssuedOk.map fun _ => h.issueWord

theorem MemOk.issueNext {s : State} (h : MemOk s) : IssuedOk (Machine.issueNext s) := by
  unfold Machine.issueNext
  extract_lets entry
  have he : IssuedOk (entry ()) := IssuedOk.map fun _ => h
  split
  · exact h.nextWord.orElse he
  · exact he.orElse h.nextWord

theorem MemOk.choose {s : State} (h : MemOk s) : MemOk (Machine.choose s).state := by
  unfold Machine.choose
  split
  · exact h
  · extract_lets s₁ word event
    have h₁ : MemOk s₁ := h
    have hw : IssuedOk word := h₁.issueNext
    have he : IssuedOk event := IssuedOk.map fun _ => h₁
    split
    · exact (hw.orElse he).getD h₁
    · exact (he.orElse hw).getD h₁

/-- Settles O55: every instruction and every event keeps the form, and so does the choice of the next. -/
theorem stepKeepsMemory : Obligations.StepKeepsMemory := by
  unfold Obligations.StepKeepsMemory
  intro s t h e
  have hc : MemOk (Machine.choose (Machine.tick s)).state := h.tick.choose
  unfold Machine.step at e
  split at e
  · generalize Machine.choose (Machine.tick s) = y at hc e
    cases y with
    | run i u => exact MemOk.exec hc t e
    | done u => cases e; exact hc
  · cases e

end Sys2Proof.Machine
end

section
/-! SUPPORT. The state after reset (R196, R429, R432, R433, R442). -/

namespace Sys2Proof.Machine
open Sys2Proof

theorem safeStep_reset : SafeStep State.reset := by
  have h := meets_StepKeepsMemory.2
  generalize hr : step State.reset = r at h
  cases r with
  | next t => exact ⟨t, hr⟩
  | fault f => cases h
  | refused f => cases h

theorem bankMode_reset (cl b : Nat) :
    bankMode State.reset cl b = if b < 48 then .scratch else if b < 56 then .fifo else .cache := rfl

/-- Settles O54: each register and list of the state is as reset writes it, and the first step is one that answers a state. -/
theorem stateAfterReset : Obligations.ResetState := by
  unfold Obligations.ResetState
  exact ⟨meets_StepKeepsMemory.1, fun _ => rfl, rfl, rfl, rfl, rfl, rfl, rfl, rfl, rfl, rfl, fun cl b _ => bankMode_reset cl b,
    rfl, fun _ => rfl, safeStep_reset⟩

end Sys2Proof.Machine
end

section
/-! SUPPORT. The checks of an address (R187, R189): where an address lies, what each place answers, and what a load of a window sees. -/

namespace Sys2Proof.Machine
open Sys2Proof

/-- The address names cluster `cl`'s banks, from a core that may name them (R187). -/
def NamesWindow (core a cl : Nat) : Prop :=
  (a / 2 ^ 24 = 0xFD * 2 ^ 24 ∧ cl = clusterOf core) ∨
    (cl < 32 ∧ a / 2 ^ 24 = 0xFE * 2 ^ 24 + cl / 8 * 2 ^ 20 + cl % 8 * 2 ^ 16)

theorem zoneOf_window {core a cl : Nat} (h : NamesWindow core a cl) : zoneOf core a = .window cl (a % 2 ^ 24) := by
  unfold zoneOf
  obtain ⟨h, rfl⟩ | ⟨hc, h⟩ := h
  · rw [if_neg (by omega), if_neg (by omega), if_pos (by simp; omega), if_pos (by simp; omega)]
  · have hcl : a / 2 ^ 44 % 16 * 8 + a / 2 ^ 40 % 16 = cl := by omega
    rw [if_neg (by omega), if_neg (by omega), if_neg (by simp; omega), if_pos (by simp; omega), if_pos (by simp; omega), hcl]

theorem zoneOf_bad {core a : Nat} (h : 2 ^ 55 ≤ a) (hl : a / 2 ^ 24 ≠ 0xFD * 2 ^ 24)
    (hn : ∀ cl, ¬(cl < 32 ∧ a / 2 ^ 24 = 0xFE * 2 ^ 24 + cl / 8 * 2 ^ 20 + cl % 8 * 2 ^ 16)) : zoneOf core a = .bad := by
  have hn := hn (a / 2 ^ 44 % 16 * 8 + a / 2 ^ 40 % 16)
  unfold zoneOf
  split_ifs with h1 h2 h3 h4 h5 h6 <;> simp at * <;> omega

section
variable {s s' : State} {w : Who} {va : Word} {n : Nat} {k : AK}

theorem check189_bad (hz : zoneOf w.core va.toNat = .bad) : check189 s w va n k = (.badAddress, s) := by simp [check189, hz]

theorem check189_notWindowOk {cl off : Nat} (hz : zoneOf w.core va.toNat = .window cl off) (hw : windowOk s w.ctx cl off = false) :
    check189 s w va n k = (.badAddress, s) := by simp [check189, hz, hw]

theorem check189_misaligned {cl off : Nat} (hz : zoneOf w.core va.toNat = .window cl off) (hw : windowOk s w.ctx cl off = true)
    (ha : va.toNat % n ≠ 0) : check189 s w va n k = (.align, s) := by simp [check189, hz, hw, ha]

theorem check189_mapped_misaligned (h : va.toNat < 2 ^ 55) (ha : va.toNat % n ≠ 0) : check189 s w va n k = (.align, s) := by
  simp [check189, (zoneOf_mapped_iff w.core _).2 h, ha]

theorem check189_translated (h : va.toNat < 2 ^ 55) (ha : va.toNat % n = 0) {x : Xlat} (e : translate s w.slot va.toNat k = (.ok x, s')) :
    check189 s w va n k = (.mem x, s') := by
  simp [check189, (zoneOf_mapped_iff w.core _).2 h, ha, e]

theorem check189_faulting (h : va.toNat < 2 ^ 55) (ha : va.toNat % n = 0) {x : Nat}
    (e : translate s w.slot va.toNat k = (.error x, s')) : check189 s w va n k = (.fault x, s') := by
  simp [check189, (zoneOf_mapped_iff w.core _).2 h, ha, e]

/-- A check that finds a window changes nothing. -/
theorem state_of_check189_window {loc : Nat} (h : check189 s w va n k = (.window loc, s')) : s' = s := by
  unfold check189 at h
  split at h
  · cases h
  · split_ifs at h <;> cases h
    rfl
  · split_ifs at h
    · cases h
    · split at h <;> cases h

end

/-- A window's byte lies in its cluster's banks at its offset. -/
theorem windowVa_sramLoc {cl off : Nat} (hc : cl < 32) (ho : off < 2 ^ 24) :
    windowVa (sramLoc cl off / 2 ^ 24 % 32) (sramLoc cl off % 2 ^ 24) = windowVa cl off := by
  have h1 : sramLoc cl off / 2 ^ 24 % 32 = cl := by unfold sramLoc; omega
  have h2 : sramLoc cl off % 2 ^ 24 = off := by unfold sramLoc; omega
  rw [h1, h2]

theorem windowSeen_sramLoc {s : State} {r : GRef} {g : Group} {cl off : Nat} (hg : s.group? r = some g) (hc : cl < 32) (ho : off < 2 ^ 24) :
    windowSeen s r (sramLoc cl off) =
      overGran true (granAt s (sramLoc cl off)) (g.storeQ.filter fun w => w.va == windowVa cl off / 16 * 16) := by
  simp only [windowSeen, windowVa_sramLoc hc ho, hg]
  rfl

theorem write_bytes_length (g : Gran) (tagged : Bool) (w : GWrite) : (Gran.write tagged g w).bytes.length = g.bytes.length := by
  unfold Gran.write
  split
  · rfl
  · exact overlay_length ..

theorem overGran_bytes_length (g : Gran) (tagged : Bool) (ws : List GWrite) : (overGran tagged g ws).bytes.length = g.bytes.length :=
  List.foldlRecOn (motive := fun x => x.bytes.length = g.bytes.length) ws _ rfl fun x hx w _ =>
    (write_bytes_length x tagged w).trans hx

/-- The last store's bytes lie over the others'. -/
theorem overGran_concat_bytes {g : Gran} {l : List GWrite} {w : GWrite} (hw : w.tstg = none) {j : Nat} (hj : j < g.bytes.length) :
    (overGran true g (l ++ [w])).bytes[j]? = some (match w.bytes.find? (fun p => p.1 == j) with
      | some p => p.2
      | none => ((overGran true g l).bytes[j]?).getD 0) := by
  have hlen : j < (overGran true g l).bytes.length := by rwa [overGran_bytes_length]
  have e : (overGran true g (l ++ [w])).bytes = overlay (overGran true g l).bytes w.bytes := by
    simp [overGran, Gran.write, hw]
  rw [e, overlay_getElem?, List.getElem?_eq_getElem hlen]
  rfl

/-- Settles O19: an address lies outside the map, in a window or in a page; a load of a window sees its granule under its group's
queued stores, the last of them uppermost. -/
theorem addressChecks : Obligations.AddressChecks := by
  unfold Obligations.AddressChecks
  refine ⟨fun s w va n k _ => ⟨fun h hl hn => check189_bad (zoneOf_bad h hl hn), fun cl hcl => ?window,
    check189_mapped_misaligned, fun h ha _ _ => check189_translated h ha, fun h ha _ _ => check189_faulting h ha⟩,
    fun s s' r w va al n loc ro who h => ?load, fun s r g cl off hg hc ho => ?seen⟩
  case window =>
    have hz := zoneOf_window hcl
    exact ⟨check189_notWindowOk hz, check189_misaligned hz, fun hw ha => check189_window_iff.2 ⟨_, _, hz, hw, ha, rfl⟩⟩
  case load =>
    cases state_of_check189_window h
    exact ⟨fun ho => by simp [readFor, h, ho], fun ho => ⟨by simp [readFor, h, ho], applyReds_none⟩⟩
  case seen =>
    have e := windowSeen_sramLoc hg hc ho
    refine ⟨fun hm => ?_, fun w l hm hw j hj => ?_⟩
    · rw [e, hm]; rfl
    · rw [e, hm]
      exact overGran_concat_bytes hw (by rwa [granAt_bytes_length])

end Sys2Proof.Machine
end

section
/-! SUPPORT. The ends of words of memory: a release that is done, a commit that is done, a wait that outlives its word, a result
outstanding from any state of the word's group, and the writes that a word queues. -/

namespace Sys2Proof.Machine
open Sys2Proof

section Ends

variable {i : Instr} {s s1 : State} {c c1 : Cur} {h : Head}

/-- What `exec` answers for a word of memory that has no failure to deliver. -/
theorem exec_memWord_next {ok : Cur → Bool} {o : MOrd} {vas : Cur → List Nat} {k : Cur → State}
    (hi : exec i s = memWord s h ok o vas k) (hc : cur? s = some c) (hf : c.g.peerFail = []) (hok : ok c = true) :
    exec i s = .next (k c) :=
  exec_onCur hi hc (by simp only [hok, Bool.not_true, Bool.false_eq_true, if_false, deliverFail_none _ _ hf])

/-- A word whose release is done goes on from the state that the release leaves. -/
theorem withRelease_released {o : MOrd} (hr : Claim.released s s1 c c1 o) (k : State → State) : withRelease s c o k = k s1 := by
  obtain ⟨-, -, ⟨h | h, rfl⟩ | ⟨h | h, e⟩⟩ := hr
  · simp [withRelease, ordRel, h]
  · simp [withRelease, ordRel, h]
  · simp [withRelease, ordRel, h, e, afterSync]
  · simp [withRelease, ordRel, h, e, afterSync]

theorem cur?_released {o : MOrd} (hr : Claim.released s s1 c c1 o) : cur? s1 = some c1 := hr.1

theorem ref_released {o : MOrd} (hr : Claim.released s s1 c c1 o) : c1.ref = c.ref := congrArg Now.g hr.2.1

theorem ref_pinned (hp : Claim.pinned s s1 c c1) : c1.ref = c.ref := congrArg Now.g hp.2.2

theorem group?_released {o : MOrd} (hr : Claim.released s s1 c c1 o) : s1.group? c.ref = some c1.g :=
  ref_released hr ▸ cur?_group (cur?_released hr)

theorem group?_pinned (hp : Claim.pinned s s1 c c1) : s1.group? c.ref = some c1.g := ref_pinned hp ▸ cur?_group hp.2.1

/-- A word whose commit is done goes on from the state that the commit leaves. -/
theorem afterSync_pinned (hp : Claim.pinned s s1 c c1) (k : State → State) : afterSync c (pinFirst s c) k = k s1 := by
  rw [hp.1, afterSync]

/-- A word that ends, from any state of its own group. -/
theorem from_finish {g : Group} (hi : exec i s = .next (finish s1 c1 h)) (hn : c1.ref = c.ref) (hg : s1.group? c.ref = some g) :
    Claim.from i s s1 c (Moved g) := by
  obtain ⟨o, g', e, m⟩ := finish_spec s1 c1 h (hn ▸ hg)
  exact ⟨_, g', hi, hn ▸ o, hn ▸ e, m⟩

/-- A wait that has begun outlives the end of its word. -/
theorem finish_waiting {g : Group} (hg : s.group? c.ref = some g) (hw : g.wait.isNone = false) :
    OnlyGroup s (finish s c h) c.ref ∧ ∃ g', (finish s c h).group? c.ref = some g' ∧ Moved g g' ∧ g'.wait = g.wait := by
  have em : switchMark h c.n g = g := by simp [switchMark, hw]
  obtain ⟨om, gm⟩ := curMod_spec (switchMark h c.n) (fun g => by unfold switchMark; split <;> rfl) hg
  rw [em] at gm
  unfold finish
  split
  · obtain ⟨o, g', e, m, -, -, w⟩ := endClause_spec _ c (fun _ l => l.goTo c.g.loops c.l.kernel (nextHeader c.n) none)
      (goTo_moves c.g.loops c.l.kernel (fun _ _ => nextHeader c.n) (fun _ _ => none)) gm
    exact ⟨om.trans o, g', e, m, w⟩
  · obtain ⟨o, e⟩ := curMod_spec (c := c) (fun g => { g with clause := g.clause.map (fun cl =>
      { cl with next := (c.n.pc - c.n.hdr).toNat / 8, redo := false }) }) (fun _ => rfl) gm
    exact ⟨om.trans o, _, e, ⟨rfl, LanesMoved.refl _⟩, rfl⟩

/-- A word that waits from its end on. -/
theorem finish_waitFor {g : Group} (w : Why) (hg : s.group? c.ref = some g) :
    OnlyGroup s (finish (waitFor s c w) c h) c.ref ∧
      ∃ g', (finish (waitFor s c w) c h).group? c.ref = some g' ∧ Moved g g' ∧ g'.wait = some ⟨w, c.n⟩ := by
  obtain ⟨o1, e1⟩ := waitFor_spec w hg
  obtain ⟨o2, g', e2, m, hw⟩ := finish_waiting (h := h) e1 rfl
  exact ⟨o1.trans o2, g', e2, Moved.trans ⟨rfl, LanesMoved.refl _⟩ m, hw⟩

/-- A word that ends with its result outstanding, from any state of its group. -/
theorem finish_addPend {g : Group} (q : ResQ) (ws : List RegW) (hg : s.group? c.ref = some g) :
    OnlyGroup s (finish (addPend s c q true ws) c h) c.ref ∧
      ∃ g', (finish (addPend s c q true ws) c h).group? c.ref = some g' ∧ Pends s c g g' q ws := by
  have ob : OnlyGroup s { s with seqN := s.seqN + 1 } c.ref := OnlyGroup.book s c.ref s.issuing (s.seqN + 1)
  obtain ⟨oa, ea⟩ := curMod_spec (s := { s with seqN := s.seqN + 1 }) (c := c) (fun g => { g with
    pend := g.pend ++ [⟨s.seqN, slotOf c, q, c.n.pc, ws, true, false⟩]
    sb := match slotOf c with
      | some n => mput 0 g.sb n (mget 0 g.sb n + 1)
      | none => g.sb }) (fun _ => rfl) hg
  obtain ⟨of, g', e, m⟩ := finish_spec _ c h ea
  refine ⟨ob.trans (oa.trans of), g', e, ?_, fun n => ?_⟩
  · have es := congrArg Group.sb m.1
    exact ⟨by rw [es]; exact m.1, m.2⟩
  · rw [congrArg Group.sb m.1]
    cases hs : slotOf c with
    | none => simp
    | some k =>
      show mget 0 (mput 0 g.sb k (mget 0 g.sb k + 1)) n = _
      by_cases hk : n = k
      · simp [hk]
      · simp [mget_mput, hk, Ne.symm hk]

theorem seqN_withAcquire (s : State) (c : Cur) (o : MOrd) : (withAcquire s c o).seqN = s.seqN := by
  unfold withAcquire
  split
  · rw [acquireAt_eq]
  · rfl

theorem group?_withAcquire (s : State) (c : Cur) (o : MOrd) (r : GRef) : (withAcquire s c o).group? r = s.group? r := by
  unfold withAcquire
  split
  · rw [acquireAt_eq]; rfl
  · rfl

/-- An acquire and an outstanding result do not meet. -/
theorem withAcquire_addPend (s : State) (c : Cur) (o : MOrd) (q : ResQ) (ready : Bool) (ws : List RegW) :
    withAcquire (addPend s c q ready ws) c o = addPend (withAcquire s c o) c q ready ws := by
  unfold withAcquire
  split
  · rw [acquireAt_eq, acquireAt_eq]
    cases o.scope <;> rfl
  · rfl

/-- A load that ends with its result outstanding. -/
theorem from_load {g : Group} {o : MOrd} {ws : List RegW}
    (hi : exec i s = .next (finish (withAcquire (addPend s1 c .none true ws) c o) c h)) (hg : s1.group? c.ref = some g) :
    Claim.from i s (withAcquire s1 c o) c fun g' => Pends s1 c g g' .none ws := by
  rw [withAcquire_addPend] at hi
  obtain ⟨ho, g', e, p⟩ := finish_addPend (h := h) .none ws ((group?_withAcquire s1 c o c.ref).trans hg)
  refine ⟨_, g', hi, ho, e, ?_⟩
  rwa [Pends, seqN_withAcquire] at p

/-! ### Writes that a word queues -/

/-- The team has nothing uncommitted. -/
def Committed (s : State) (n : Nat) : Prop := ∃ t, s.team? n = some t ∧ t.uncommitted = []

theorem Committed.onlyGroup {t : State} {r : GRef} (hu : Committed s r.team) (o : OnlyGroup s t r) : Committed t r.team := by
  obtain ⟨a, ha, e⟩ := hu
  obtain ⟨b, hb, eb⟩ := o.2.2.2 a ha
  exact ⟨b, hb, (congrArg Team.uncommitted eb).trans e⟩

theorem Committed.congr {t : State} {n : Nat} (hu : Committed s n) (ht : t.teams = s.teams) : Committed t n := by
  obtain ⟨a, ha, e⟩ := hu
  exact ⟨a, by rw [State.team?, ht]; exact ha, e⟩

theorem Committed.base (hc : cur? s = some c) (hu : c.t.uncommitted = []) : Committed s c.ref.team := ⟨_, cur?_team hc, hu⟩

/-- To cut a write out of a team that has nothing uncommitted changes no team that is looked up. -/
theorem team?_cut {s : State} {id : Nat} (hu : Committed s id) (w : GWrite) (n : Nat) :
    (s.modTeam id (fun t => { t with uncommitted := t.uncommitted.filterMap (cutWrite w) })).team? n = s.team? n := by
  obtain ⟨a, ha, e⟩ := hu
  rw [team?_modTeam s id (fun t => { t with uncommitted := t.uncommitted.filterMap (cutWrite w) }) (fun _ => rfl)]
  cases ht : s.team? n with
  | none => rfl
  | some t =>
    by_cases hn : n = id
    · rw [hn, ha, Option.some.injEq] at ht
      subst ht
      obtain ⟨⟩ := a
      cases e
      simp
    · simp [team?_id ht, hn]

theorem onlyGroup_of_team? {s : State} {ts : List Team} {r : GRef} (h : ∀ n, ({ s with teams := ts } : State).team? n = s.team? n) :
    OnlyGroup s { s with teams := ts } r :=
  ⟨rfl, fun n _ => h n, fun r' _ => by rw [State.group?, h]; rfl, fun a ha => ⟨a, (h _).trans ha, rfl⟩⟩

/-- A write that is not held back joins the group's queue. -/
theorem queueWrite_spec {g : Group} (w : GWrite) (hg : s.group? c.ref = some g) (hid : c.t.id = c.ref.team) (hu : Committed s c.ref.team) :
    OnlyGroup s (queueWrite s c false w) c.ref ∧ (queueWrite s c false w).group? c.ref = some { g with storeQ := g.storeQ ++ [w] } := by
  have hcut := team?_cut hu w
  rw [← hid] at hcut
  have o := onlyGroup_of_team? (r := c.ref) hcut
  have hg' : (s.modTeam c.t.id (fun t => { t with uncommitted := t.uncommitted.filterMap (cutWrite w) })).group? c.ref = some g := by
    rw [State.group?, hcut]; exact hg
  obtain ⟨o', e⟩ := curMod_spec (c := c) (fun g => { g with storeQ := g.storeQ ++ [w] }) (fun _ => rfl) hg'
  exact ⟨o.trans o', e⟩

/-- The writes of a word whose team is pinned join its group's queue in their order. -/
theorem queueWrites_spec {g : Group} (ws : List (Put × GWrite)) (hg : s.group? c.ref = some g) (hid : c.t.id = c.ref.team)
    (hu : Committed s c.ref.team) (hp : unpinned c = false) :
    let t := ws.foldl (fun s p => queueWrite s c (heldStore c p.1) p.2) s
    OnlyGroup s t c.ref ∧ t.group? c.ref = some { g with storeQ := g.storeQ ++ ws.map Prod.snd } := by
  induction ws generalizing s g with
  | nil => exact ⟨OnlyGroup.refl s _, by simpa using hg⟩
  | cons p ws ih =>
    obtain ⟨o, e⟩ := queueWrite_spec p.2 hg hid hu
    obtain ⟨o', e'⟩ := ih e (hu.onlyGroup o)
    rw [List.foldl_cons, heldStore_pinned hp]
    exact ⟨o.trans o', by simpa only [List.map_cons, List.append_assoc, List.singleton_append] using e'⟩

end Ends
end Sys2Proof.Machine
end

section
/-! SUPPORT. FENCE and COMMIT (R194, R228, R336, R337). -/

namespace Sys2Proof.Machine
open Sys2Proof

section Fences

variable {s s1 : State} {c c1 : Cur} {h : Head} {sc : Scope} {o : Ord}

/-- A FENCE whose release is done ends after its acquire, if it has one. -/
theorem exec_fence (hc : cur? s = some c) (hf : c.g.peerFail = []) (hr : Claim.released s s1 c c1 ⟨sc, o, 0⟩) :
    exec (.fence h sc o) s = .next (finish (if ordAcq o then fenceAcquire s1 c1 sc else s1) c1 h) := by
  rw [exec_memWord_next (h := h) rfl hc hf rfl, withRelease_released hr]
  simp only [refresh_cur c (cur?_released hr)]

theorem from_fence_release (hc : cur? s = some c) (hf : c.g.peerFail = []) (hr : Claim.released s s1 c c1 ⟨sc, o, 0⟩)
    (ho : ordAcq o = false) : Claim.from (.fence h sc o) s s1 c (Moved c1.g) := by
  have he := exec_fence (h := h) hc hf hr
  rw [ho, if_neg Bool.false_ne_true] at he
  exact from_finish he (ref_released hr) (group?_released hr)

theorem from_fence_acquire (hc : cur? s = some c) (hf : c.g.peerFail = []) (hr : Claim.released s s1 c c1 ⟨sc, o, 0⟩)
    (ho : ordAcq o = true) (hp : ∀ p ∈ c1.g.pend, p.ready = true) :
    Claim.from (.fence h sc o) s { s1 with stale := Claim.copies s1 c1.t.core sc } c (Moved c1.g) := by
  have he := exec_fence (h := h) hc hf hr
  have ha : fenceAcquire s1 c1 sc = { s1 with stale := Claim.copies s1 c1.t.core sc } := by
    rw [fenceAcquire, if_neg (by simpa using hp), acquireAt_eq]
  rw [ho, if_pos rfl, ha] at he
  have hg : s1.group? c.ref = some c1.g := group?_released hr
  exact from_finish he (ref_released hr) hg

theorem from_fence_waits (hc : cur? s = some c) (hf : c.g.peerFail = []) (hr : Claim.released s s1 c c1 ⟨sc, o, 0⟩)
    (ho : ordAcq o = true) (hp : ∃ p ∈ c1.g.pend, p.ready = false) :
    Claim.from (.fence h sc o) s s1 c fun g' => Moved c1.g g' ∧ g'.wait = some ⟨.acquire sc, c.n⟩ := by
  have he := exec_fence (h := h) hc hf hr
  rw [ho, if_pos rfl, fenceAcquire, if_pos (by simpa using hp)] at he
  obtain ⟨of, g', e, m, hw⟩ := finish_waitFor (h := h) (.acquire sc) (cur?_group (cur?_released hr))
  rw [ref_released hr] at of e
  rw [hr.2.1] at hw
  exact ⟨_, g', he, of, e, m, hw⟩

/-- A COMMIT that is done. -/
theorem from_commit (hc : cur? s = some c) (hp : Claim.pinned s s1 c c1) : Claim.from (.commit h) s s1 c (Moved c1.g) := by
  have he : exec (.commit h) s = .next (finish s1 c1 h) :=
    exec_onCur rfl hc (by rw [afterSync_pinned hp, refresh_cur c hp.2.1])
  exact from_finish he (ref_pinned hp) (group?_pinned hp)

/-- A team that commits nothing, and need not be pinned, is pinned where it stands. -/
theorem pinFirst_idle (hc : cur? s = some c) (hu : unpinned c = false) (hm : c.t.committing = false) :
    pinFirst s c = .done (s.modTeam c.t.id fun t => { t with committing := false }) := by
  have ht : s.team? c.t.id = some c.t := by rw [cur?_team_id hc]; exact cur?_team hc
  simp [pinFirst, hu, hm, commitLeft, ht]

theorem completes_commit_idle (hc : cur? s = some c) (hr : c.l.kernel.replayable = false) (hm : c.t.committing = false) :
    Completes (.commit h) s c (Moved c.g) := by
  have hu : unpinned c = false := by simp [unpinned, hr]
  have ht : ∀ n, (s.modTeam c.t.id fun t => { t with committing := false }).team? n = s.team? n := by
    intro n
    rw [team?_modTeam s c.t.id (fun t => { t with committing := false }) (fun _ => rfl)]
    cases e : s.team? n with
    | none => rfl
    | some t =>
      by_cases hn : t.id = c.t.id
      · have : t = c.t := by
          rw [← team?_id e, hn, cur?_team_id hc] at e
          exact Option.some.inj (e.symm.trans (cur?_team hc))
        subst this
        simp [← hm]
      · simp [hn]
  have hc' := cur?_modTeam (fun t => { t with committing := false }) hc fun _ => ⟨rfl, rfl, rfl⟩
  obtain ⟨t, g', e, o, e', m⟩ := from_commit (h := h) hc ⟨pinFirst_idle hc hu hm, hc', rfl⟩
  exact ⟨t, g', e, (onlyGroup_of_team? ht).trans o, e', m⟩

end Fences

/-- Settles O24: the word goes on from the state that its release or its commit leaves. -/
theorem fencesAndCommits : Obligations.FencesAndCommits := by
  intro s s1 c c1 h sc o hc
  have acq : o = .acq ∨ o = .ar → ordAcq o = true := by rintro (rfl | rfl) <;> rfl
  have rel : o = .rel ∨ o = .relaxed → ordAcq o = false := by rintro (rfl | rfl) <;> rfl
  exact ⟨fun hf hr => ⟨fun ho => from_fence_release hc hf hr (rel ho), fun ho hp => from_fence_acquire hc hf hr (acq ho) hp,
    fun ho hp => from_fence_waits hc hf hr (acq ho) hp⟩, from_commit hc, completes_commit_idle hc⟩

end Sys2Proof.Machine
end

section
/-! SUPPORT. VLD and SLD (R199, R200, R203): one lane's load, and the end of the word. -/

namespace Sys2Proof.Machine
open Sys2Proof

/-! ### One lane -/

section Lane

variable {c : Cur} {m : MemOp} {n : Nat} {ro : Bool} {f : Nat → Gran → Nat → List RegW} {a : LoadAcc} {i : Nat} {t : State}

theorem loadLane_gran {g : Gran}
    (h : readFor a.s c.ref c.who (memAddr c.g m i) n n .read ro (.lanes c.ref (maskOf [i])) = (.gran g, t)) (hp : g.poison = false) :
    loadLane c m n ro f a i = { a with s := t, ws := a.ws ++ f i g ((memAddr c.g m i).toNat % 16) } := by
  simp [loadLane, h, hp]

theorem loadLane_poison {g : Gran}
    (h : readFor a.s c.ref c.who (memAddr c.g m i) n n .read ro (.lanes c.ref (maskOf [i])) = (.gran g, t)) (hp : g.poison = true) :
    loadLane c m n ro f a i = { a with s := t, poison := a.poison ++ [⟨i, .poison, g.tag,
      BitVec.ofNat 64 ((memAddr c.g m i).toNat / 16 * 16)⟩] } := by
  simp [loadLane, h, hp]

theorem loadLane_peer {x : Xlat}
    (h : readFor a.s c.ref c.who (memAddr c.g m i) n n .read ro (.lanes c.ref (maskOf [i])) = (.peer x, t)) :
    loadLane c m n ro f a i =
      if (peerTarget t x (memAddr c.g m i).toNat (.read n)).isSome then { a with s := t, peers := a.peers ++ [(i, x, memAddr c.g m i)] }
      else { a with s := t, traps := a.traps ++ [⟨i, .badAddress, idxTag c.g m i, memAddr c.g m i⟩] } := by
  simp only [loadLane, h]
  cases peerTarget t x (memAddr c.g m i).toNat (.read n) <;> rfl

end Lane

/-! ### The end of the word -/

section Word

variable {i : Instr} {s t : State} {c : Cur} {h : Head} {z : MSize} {o : MOrd} {m : MemOp}

theorem loadDone_line {n l : Nat} {dst : Nat → Nat → Word → PeerDst} {a : LoadAcc} (hl : a.line = some l) :
    loadDone c h o n dst a = blockWord a.s c (.line l) := by simp [loadDone, hl]

/-- A load all of whose lanes find their granules. -/
theorem loadDone_clean {n : Nat} {dst : Nat → Nat → Word → PeerDst} {a : LoadAcc} (hq : resultGate c .none = none)
    (hl : a.line = none) (hr : a.peers = []) (hk : a.parks = []) (ht : a.traps = []) (hp : a.poison = []) :
    loadDone c h o n dst a = finish (withAcquire (addPend a.s c .none true a.ws) c o) c h := by
  simp only [loadDone, hl, hq, hr, hk, ht, hp, sendLoads, List.any_nil, List.isEmpty_nil, List.foldl_nil, Bool.and_self,
    Bool.not_true, Bool.and_false, Bool.false_eq_true, if_false, eatPoison_none]

theorem exec_vld {d : BitVec 8} (hc : cur? s = some c) (hf : c.g.peerFail = []) (hv : c.vOk d.toNat z.wide = true)
    (hx : c.idxOk m = true) :
    let f := fun i (g : Gran) off => putV z.wide d.toNat i (MSize.extend z (g.slice off (MSize.bytes z)))
      (loadTag h.rule g.tag (oldTag c.g z.wide d.toNat i))
    exec (.vld h z o d m) s = .next (loadDone c h o (MSize.bytes z)
      (fun id i va => .loadV c.n id i d.toNat z h.rule va.toNat (idxTag c.g m i))
      ((lanesOf (c.active h)).foldl (loadLane c m (MSize.bytes z) (o.hint.toNat ≥ 2) f) (LoadAcc.start s))) := by
  intro f
  exact exec_memWord_next (i := .vld h z o d m) (h := h) (ok := fun c => c.vOk d.toNat z.wide && c.idxOk m) rfl hc hf (by simp [hv, hx])

variable {d : BitVec 6} (hc : cur? s = some c) (hf : c.g.peerFail = []) (hq : resultGate c .none = none)

include hc hf hq

theorem exec_sld_gran {g : Gran}
    (hr : readFor s c.ref c.who (memAddr c.g m 0) (MSize.bytes z) (MSize.bytes z) .read (o.hint.toNat ≥ 2) (.lanes c.ref c.n.x) =
      (.gran g, t)) (hp : g.poison = false) :
    exec (.sld h z o d m) s = .next (finish (withAcquire (addPend t c .none true
      [.s d (BitVec.ofNat 64 (MSize.extend z (g.slice ((memAddr c.g m 0).toNat % 16) (MSize.bytes z))))]) c o) c h) := by
  rw [exec_memWord_next (h := h) rfl hc hf rfl]
  simp only [hq, hr, hp, Bool.false_eq_true, if_false]

theorem exec_sld_trap {x : Cause}
    (hr : readFor s c.ref c.who (memAddr c.g m 0) (MSize.bytes z) (MSize.bytes z) .read (o.hint.toNat ≥ 2) (.lanes c.ref c.n.x) =
      (.trap x, t)) : exec (.sld h z o d m) s = .next (trapAll t c c.n.x x 0 (memAddr c.g m 0)) := by
  rw [exec_memWord_next (h := h) rfl hc hf rfl]
  simp only [hq, hr]

theorem exec_sld_park
    (hr : readFor s c.ref c.who (memAddr c.g m 0) (MSize.bytes z) (MSize.bytes z) .read (o.hint.toNat ≥ 2) (.lanes c.ref c.n.x) =
      (.park, t)) : exec (.sld h z o d m) s = .next (settle t c h c.n.x []) := by
  rw [exec_memWord_next (h := h) rfl hc hf rfl]
  simp only [hq, hr]

end Word

/-! ### Values and tags -/

/-- A value of `w` bits sign-extended to 64. -/
theorem wrapN_sgn {w x : Nat} (hw : w ≤ 64) (hx : x < 2 ^ w) :
    wrapN 64 (sgn w x) = if x < 2 ^ (w - 1) then x else x + 2 ^ 64 - 2 ^ w := by
  have h64 : 2 ^ w ≤ 2 ^ 64 := Nat.pow_le_pow_right (by omega) hw
  have hp : ((2 : Int) ^ w) = ((2 ^ w : Nat) : Int) := by push_cast; rfl
  rw [wrapN, sgn, Nat.mod_eq_of_lt hx, hp]
  generalize 2 ^ w = p at *
  split <;> omega

theorem extend_cases (x : Nat) :
    (x < 2 ^ 8 → MSize.extend .n8 x = x ∧ MSize.extend .i8 x = if x < 2 ^ 7 then x else x + 2 ^ 64 - 2 ^ 8) ∧
    (x < 2 ^ 16 → MSize.extend .n16 x = x ∧ MSize.extend .i16 x = if x < 2 ^ 15 then x else x + 2 ^ 64 - 2 ^ 16) ∧
    MSize.extend .b32 x = x ∧ MSize.extend .b64 x = x :=
  ⟨fun hx => ⟨rfl, wrapN_sgn (by omega) hx⟩, fun hx => ⟨rfl, wrapN_sgn (by omega) hx⟩, rfl, rfl⟩

/-- The claim on VLD and SLD. -/
theorem loads : Claim.Loads := by
  refine ⟨fun s c h z o d m hc hf hv hx hq => ⟨fun l hl => ?blocked, fun hl hr hk ht hp hg => ?clean⟩,
    fun c m n ro f a i => ⟨fun _ _ => loadLane_gran, fun _ _ => loadLane_poison, fun x t e => ?trap, fun t e => ?park,
      fun l t e => ?line, fun _ _ => loadLane_peer⟩,
    fun s t c h z o d m g hc hf hq => ⟨fun hr hp hg => from_load (exec_sld_gran hc hf hq hr hp) hg,
      fun _ => exec_sld_trap hc hf hq, exec_sld_park hc hf hq⟩,
    extend_cases, fun _ _ => ⟨rfl, rfl, rfl, rfl⟩⟩
  case blocked => rw [exec_vld hc hf hv hx, loadDone_line hl]
  case clean => exact from_load (by rw [exec_vld hc hf hv hx, loadDone_clean hq hl hr hk ht hp]) hg
  case trap => simp only [loadLane, e]
  case park => simp only [loadLane, e]
  case line => simp only [loadLane, e]

end Sys2Proof.Machine
end

section
/-! SUPPORT. VST and SST (R192, R199): one lane's store, the write that it queues, and the end of the word. -/

namespace Sys2Proof.Machine
open Sys2Proof

/-! ### One lane -/

section Lane

variable {c : Cur} {n : Nat} {addr : Nat → Word} {itag : Nat → Tag} {data : Nat → Nat × List (Nat × Tag)} {a : StoreAcc} {i : Nat}
  {t : State} {p : Put}

theorem goesToMemory_of_claim (h : (∃ loc, p = .window loc) ∨ (∃ x, p = .mem (some x) ∧ x.peer = false) ∨ p = .mem none) :
    GoesToMemory p := by
  rcases h with h | h | h
  · exact .inr (.inr h)
  · exact .inr (.inl h)
  · exact .inl h

/-- The tag of a value that the launch lets no store write (R200). -/
def barredTag (c : Cur) (tags : List (Nat × Tag)) : Option (Nat × Tag) :=
  if c.l.kernel.trapstore then tags.find? (fun t => t.2.msb) else none

theorem barredTag_none {tags : List (Nat × Tag)} (h : c.l.kernel.trapstore = false ∨ tags.find? (fun p => p.2.msb) = none) :
    barredTag c tags = none := by
  unfold barredTag
  split
  next ht => exact h.resolve_left (by simp [ht])
  next => rfl

theorem storeLane_barred {tg : Nat × Tag} (hp : GoesToMemory p)
    (hs : storeFor a.s c.who (addr i) n .write c.t.id (.lanes c.ref (maskOf [i])) a.extra = (p, t))
    (hb : barredTag c (data i).2 = some tg) :
    storeLane c n addr itag data a i = { a with s := t, traps := a.traps ++ [⟨i, .tagStore, tg.2, addr i⟩] } := by
  unfold barredTag at hb
  rcases hp with rfl | ⟨x, rfl, -⟩ | ⟨loc, rfl⟩ <;> simp only [storeLane, hs, hb]

/-- A lane's store of values that may be stored makes one write. -/
theorem storeLane_stores (hp : GoesToMemory p)
    (hs : storeFor a.s c.who (addr i) n .write c.t.id (.lanes c.ref (maskOf [i])) a.extra = (p, t))
    (hb : barredTag c (data i).2 = none) :
    let b := storeLane c n addr itag data a i
    b.s = t ∧ b.parks = a.parks ∧ b.traps = a.traps ∧
      b.out = a.out ++ [(p, laneWrite t.seqN c.ref i c.t.slot (putVa p (addr i).toNat) n (data i).1 (data i).2)] := by
  unfold barredTag at hb
  rcases hp with rfl | ⟨x, rfl, hx⟩ | ⟨loc, rfl⟩
  · simp [storeLane, hs, hb]
  · simp [storeLane, hs, hb, hx]
  · simp [storeLane, hs, hb]

theorem storeLane_trap {x : Cause}
    (hs : storeFor a.s c.who (addr i) n .write c.t.id (.lanes c.ref (maskOf [i])) a.extra = (.trap x, t)) :
    storeLane c n addr itag data a i = { a with s := t, traps := a.traps ++ [⟨i, x, itag i, addr i⟩] } := by
  simp only [storeLane, hs]

theorem storeLane_park
    (hs : storeFor a.s c.who (addr i) n .write c.t.id (.lanes c.ref (maskOf [i])) a.extra = (.park, t)) :
    storeLane c n addr itag data a i = { a with s := t, parks := a.parks ++ [i] } := by
  simp only [storeLane, hs]

/-- A lane's store may wait on a page, but changes no team. -/
theorem storeLane_teams : (storeLane c n addr itag data a i).s.teams = a.s.teams := by
  have ht := storeFor_teams a.s c.who (addr i) n .write c.t.id (.lanes c.ref (maskOf [i])) a.extra
  simp only [storeLane]
  generalize storeFor a.s c.who (addr i) n .write c.t.id (.lanes c.ref (maskOf [i])) a.extra = r at ht ⊢
  obtain ⟨p, u⟩ := r
  cases p with
  | trap x => exact ht
  | park => exact ht
  | window loc => dsimp only; split <;> exact ht
  | mem x =>
    dsimp only
    repeat' split
    all_goals exact ht

theorem storeData_eq (z : MSize) (d : Nat) : storeData c z d i =
    (if z = .b64 then (c.g.vreg (d + 1) i ++ c.g.vreg d i).toNat else (c.g.vreg d i).toNat,
      (0, c.g.vtag d i) :: if z = .b64 then [(4, c.g.vtag (d + 1) i)] else []) := by
  cases z <;> rfl

end Lane

/-! ### The write that a lane queues -/

theorem natBytes_getElem? (n x j : Nat) (hj : j < n) : (natBytes n x)[j]? = some (BitVec.ofNat 8 (x / 256 ^ j)) := by
  induction n generalizing x j with
  | zero => omega
  | succ n ih =>
    cases j with
    | zero => simp [natBytes]
    | succ j => rw [natBytes, List.getElem?_cons_succ, ih _ _ (by omega), Nat.div_div_eq_div_mul, Nat.pow_succ, Nat.mul_comm]

theorem byteTag_pair (t0 t1 : Tag) (j : Nat) : byteTag [(0, t0), (4, t1)] j = if j < 4 then t0 else t1 := by
  by_cases h : j < 4
  · simp [byteTag, h]
  · simp [byteTag, h, Nat.le_of_not_lt h]

theorem laneWrite_bytes (q : Nat) (g : GRef) (lane slot va n x : Nat) (tags : List (Nat × Tag)) {j : Nat} (hj : j < n) :
    (laneWrite q g lane slot va n x tags).bytes[j]? = some (va % 16 + j, BitVec.ofNat 8 (x / 256 ^ j)) ∧
    (laneWrite q g lane slot va n x tags).tags[j]? = some (va % 16 + j, byteTag tags j) := by
  simp [laneWrite, natBytes_getElem? n x j hj, hj]

/-- The claim on the write of one lane. -/
theorem laneWrites (q : Nat) (g : GRef) (lane slot va n x : Nat) (tags : List (Nat × Tag)) (t0 t1 : Tag) :
    let w := laneWrite q g lane slot va n x tags
    w.va = va / 16 * 16 ∧ w.bytes.length = n ∧ w.tags.length = n ∧ w.cuts = [va % 16] ∧
    (∀ j, j < n → w.bytes[j]? = some (va % 16 + j, BitVec.ofNat 8 (x / 256 ^ j)) ∧ w.tags[j]? = some (va % 16 + j, byteTag tags j) ∧
      byteTag [(0, t0)] j = t0 ∧ byteTag [(0, t0), (4, t1)] j = if j < 4 then t0 else t1) := by
  refine ⟨rfl, by simp [laneWrite, natBytes_length], by simp [laneWrite], rfl, fun j hj => ?_⟩
  obtain ⟨hb, ht⟩ := laneWrite_bytes q g lane slot va n x tags hj
  exact ⟨hb, ht, by simp [byteTag], byteTag_pair t0 t1 j⟩

/-! ### The end of the word -/

section Word

variable {i : Instr} {s s1 t : State} {c c1 : Cur} {h : Head} {z : MSize} {o : MOrd} {m : MemOp}

theorem storeLanes_teams {n : Nat} {addr : Nat → Word} {itag : Nat → Tag} {data : Nat → Nat × List (Nat × Tag)} (l : List Nat)
    (a : StoreAcc) : (l.foldl (storeLane c n addr itag data) a).s.teams = a.s.teams :=
  List.foldlRecOn (motive := fun b : StoreAcc => b.s.teams = a.s.teams) l _ rfl fun _ hb _ _ => storeLane_teams.trans hb

/-- The stores that VST makes, lane by lane. -/
def vstPlan (c : Cur) (h : Head) (z : MSize) (d : BitVec 8) (m : MemOp) (s : State) : StoreAcc :=
  (lanesOf (c.active h)).foldl (storeLane c (MSize.bytes z) (memAddr c.g m) (idxTag c.g m) (storeData c z d.toNat)) (StoreAcc.start s)

/-- What the end of a storing word queues. -/
def queued (c : Cur) (a : StoreAcc) : State :=
  (a.out.foldl addWrite []).foldl (fun s p => queueWrite s c (heldStore c p.1) p.2) a.s

theorem exec_vst {d : BitVec 8} (hc : cur? s = some c) (hf : c.g.peerFail = []) (hv : c.vOk d.toNat z.wide = true)
    (hx : c.idxOk m = true) (hr : Claim.released s s1 c c1 (peerOrd s c o (Claim.places c h m)))
    (hp : storePins c1 (vstPlan c1 h z d m s1) = false) :
    exec (.vst h z o d m) s = .next (settle (queued c1 (vstPlan c1 h z d m s1)) c1 h (maskOf (vstPlan c1 h z d m s1).parks)
      (vstPlan c1 h z d m s1).traps) := by
  rw [exec_memWord_next (i := .vst h z o d m) (h := h) (ok := fun c => c.vOk d.toNat z.wide && c.idxOk m) rfl hc hf (by simp [hv, hx])]
  have e := withRelease_released hr fun s => storeWord s (refresh s c) h fun s c => vstPlan c h z d m s
  refine congrArg _ (e.trans ?_)
  rw [refresh_cur c (cur?_released hr), storeWord, if_neg (by simp [hp])]
  rfl

/-- A word that queues its writes and is done. -/
theorem from_queued {g : Group} {a : StoreAcc} (hi : exec i s = .next (settle (queued c1 a) c1 h (maskOf a.parks) a.traps))
    (hn : c1.ref = c.ref) (hk : a.parks = []) (ht : a.traps = []) (hg : a.s.group? c.ref = some g) (hid : c1.t.id = c1.ref.team)
    (hu : Committed a.s c1.ref.team) (hp : unpinned c1 = false) :
    Claim.from i s a.s c (Moved { g with storeQ := g.storeQ ++ (a.out.foldl addWrite []).map Prod.snd }) := by
  obtain ⟨o, e⟩ := queueWrites_spec (a.out.foldl addWrite []) (hn ▸ hg) hid hu hp
  rw [hk, ht] at hi
  rw [hn] at o e
  obtain ⟨t, g', hi', o', e', m⟩ := from_finish (hi.trans (congrArg _ (settle_none (queued c1 a) c1 h))) hn e
  exact ⟨t, g', hi', o.trans o', e', m⟩

theorem from_vst {d : BitVec 8} (hc : cur? s = some c) (hf : c.g.peerFail = []) (hv : c.vOk d.toNat z.wide = true)
    (hx : c.idxOk m = true) (hr : Claim.released s s1 c c1 (peerOrd s c o (Claim.places c h m)))
    (hk : (vstPlan c1 h z d m s1).parks = []) (ht : (vstPlan c1 h z d m s1).traps = [])
    (hg : (vstPlan c1 h z d m s1).s.group? c.ref = some c1.g) (hu : unpinned c1 = false) (hq : c1.t.uncommitted = []) :
    Claim.from (.vst h z o d m) s (vstPlan c1 h z d m s1).s c (Moved { c1.g with
      storeQ := c1.g.storeQ ++ ((vstPlan c1 h z d m s1).out.foldl addWrite []).map Prod.snd }) :=
  from_queued (exec_vst hc hf hv hx hr (storePins_pinned hu _)) (ref_released hr) hk ht hg (cur?_team_id (cur?_released hr))
    ((Committed.base (cur?_released hr) hq).congr (storeLanes_teams _ _)) hu

theorem exec_sst {d : BitVec 6} (hc : cur? s = some c) (hf : c.g.peerFail = [])
    (hr : Claim.released s s1 c c1 (peerOrd s c o [(memAddr c.g m 0).toNat])) :
    exec (.sst h z o d m) s = .next (scalarStore s1 c1 h (memAddr c1.g m 0) (MSize.bytes z) (c1.g.sreg d.toNat).toNat
      fun s c => finish s c h) := by
  rw [exec_memWord_next (i := .sst h z o d m) (h := h) rfl hc hf rfl, withRelease_released hr]
  simp only [refresh_cur c (cur?_released hr)]

theorem scalarStore_trap {va : Word} {n x : Nat} {k : State → Cur → State} {y : Cause}
    (hs : storeFor s c.who va n .write c.t.id (.lanes c.ref c.n.x) [] = (.trap y, t)) :
    scalarStore s c h va n x k = trapAll t c c.n.x y 0 va := by simp only [scalarStore, hs]

/-- A scalar store of a pinned team queues one write. -/
theorem scalarStore_goes {p : Put} {va : Word} {n x : Nat} {k : State → Cur → State} (hp : GoesToMemory p)
    (hs : storeFor s c.who va n .write c.t.id (.lanes c.ref c.n.x) [] = (p, t)) (hu : unpinned c = false) :
    scalarStore s c h va n x k = k (queueWrite t c false
      (laneWrite t.seqN c.ref ((lanesOf c.n.x).headD 0) c.t.slot (putVa p va.toNat) n x (zeroTags n))) c := by
  rcases hp with rfl | ⟨y, rfl, hy⟩ | ⟨loc, rfl⟩
  · simp [scalarStore, hs, pinningStore_pinned hu, heldStore_pinned hu]
  · simp [scalarStore, hs, pinningStore_pinned hu, heldStore_pinned hu, hy]
  · simp [scalarStore, hs, pinningStore_pinned hu, heldStore_pinned hu]

theorem from_sst {d : BitVec 6} {p : Put} (hc : cur? s = some c) (hf : c.g.peerFail = [])
    (hr : Claim.released s s1 c c1 (peerOrd s c o [(memAddr c.g m 0).toNat]))
    (hs : storeFor s1 c1.who (memAddr c1.g m 0) (MSize.bytes z) .write c1.t.id (.lanes c1.ref c1.n.x) [] = (p, t))
    (hp : GoesToMemory p) (hu : unpinned c1 = false) (hq : c1.t.uncommitted = []) :
    Claim.from (.sst h z o d m) s t c (Moved { c1.g with
      storeQ := c1.g.storeQ ++ [laneWrite t.seqN c1.ref ((lanesOf c1.n.x).headD 0) c1.t.slot (putVa p (memAddr c1.g m 0).toNat) (MSize.bytes z)
        (c1.g.sreg d.toNat).toNat (zeroTags (MSize.bytes z))] }) := by
  have ht : t.teams = s1.teams := by
    have h := storeFor_teams s1 c1.who (memAddr c1.g m 0) (MSize.bytes z) .write c1.t.id (.lanes c1.ref c1.n.x) []
    rwa [hs] at h
  have hg : t.group? c1.ref = some c1.g := by
    rw [State.group?, State.team?, ht]
    exact cur?_group (cur?_released hr)
  have he := exec_sst (h := h) (d := d) (z := z) hc hf hr
  rw [scalarStore_goes hp hs hu] at he
  obtain ⟨o1, e1⟩ := queueWrite_spec (laneWrite t.seqN c1.ref ((lanesOf c1.n.x).headD 0) c1.t.slot
    (putVa p (memAddr c1.g m 0).toNat) (MSize.bytes z) (c1.g.sreg d.toNat).toNat (zeroTags (MSize.bytes z))) hg
    (cur?_team_id (cur?_released hr)) ((Committed.base (cur?_released hr) hq).congr ht)
  have hn := ref_released hr
  obtain ⟨u, g', he', o2, e2, mv⟩ := from_finish he hn (by rw [← hn]; exact e1)
  exact ⟨u, g', he', OnlyGroup.trans (by rw [← hn]; exact o1) o2, e2, mv⟩

end Word

/-- The claim on VST and SST. -/
theorem stores : Claim.Stores := by
  refine ⟨fun s s1 c c1 h z o d m hc hf hv hx hr => ?vst, fun c z d m a i => ?lane, laneWrites,
    fun s s1 t c c1 h z o d m p hc hf hr => ?sst⟩
  case vst => exact fun hp => ⟨exec_vst hc hf hv hx hr hp, fun hk ht hg hu hq => from_vst hc hf hv hx hr hk ht hg hu hq⟩
  case lane =>
    refine ⟨fun _ _ => storeLane_trap, fun _ => storeLane_park, fun p t hs hp => ?_⟩
    have hp := goesToMemory_of_claim hp
    have e := storeData_eq (c := c) (i := i) z d.toNat
    refine ⟨fun tg hk ht => ?_, fun hk => ?_⟩
    · exact storeLane_barred hp hs (by rw [barredTag, if_pos hk, e]; exact ht)
    · have hb := storeLane_stores (itag := idxTag c.g m) (data := storeData c z d.toNat) hp hs (barredTag_none (by rw [e]; exact hk))
      rw [e] at hb
      exact hb
  case sst =>
    refine ⟨fun x e => by rw [exec_sst hc hf hr, scalarStore_trap e], fun e hp hu hq => ?_⟩
    exact from_sst hc hf hr e (goesToMemory_of_claim hp) hu hq

/-- Settles O20: a load's lanes read, trap, park or wait one by one, and its result is outstanding; a store's lanes queue one write
each, joined by granule. -/
theorem loadsAndStores : Obligations.LoadsAndStores := ⟨loads, stores⟩

end Sys2Proof.Machine
end

section
/-! SUPPORT. PREF, PROBE, IINV and BANKCFG (R197, R205 to R207). -/

namespace Sys2Proof.Machine
open Sys2Proof

/-! ### PREF, PROBE and IINV -/

section Hints

variable {s s1 : State} {c c1 : Cur} {h : Head} {m : MemOp}

theorem completes_pref (hint : BitVec 2) (hc : cur? s = some c) (hx : c.idxOk m = true) : Completes (.pref h hint m) s c (Moved c.g) :=
  from_finish (exec_onCur (i := .pref h hint m) rfl hc (if_pos hx)) rfl (cur?_group hc)

theorem probeOk_iff {va : Word} {n : Nat} :
    probeOk s c va n = true ↔
      (∃ g, (readFor s c.ref c.who va n n .read false (.lanes c.ref c.n.x)).1 = .gran g ∧ g.poison = false) ∨
      (∃ l, (readFor s c.ref c.who va n n .read false (.lanes c.ref c.n.x)).1 = .line l) ∨
      ∃ x, (readFor s c.ref c.who va n n .read false (.lanes c.ref c.n.x)).1 = .peer x ∧
        (peerTarget s x va.toNat (.read n)).isSome = true := by
  unfold probeOk
  cases (readFor s c.ref c.who va n n .read false (.lanes c.ref c.n.x)).1 <;> simp

theorem completes_probe (z : MSize) (p : BitVec 3) (hc : cur? s = some c) (hx : c.idxOk m = true) (hq : resultGate c .none = none) :
    Completes (.probe h z p m) s c fun g' => Pends s c c.g g' .none [.p p (c.active h)
      (maskOf ((lanesOf (c.active h)).filter fun i => probeOk s c (memAddr c.g m i) (MSize.bytes z)))] :=
  completes_pend (exec_onCur (i := .probe h z p m) rfl hc (if_pos hx)) hc hq

/-- The state without the lines of text that an IINV names. -/
def withoutText (s : State) (c : Cur) (h : Head) (m : MemOp) : State :=
  { s with icache := s.icache.filter fun l =>
    !(l.slot == c.t.slot && ((lanesOf (c.active h)).map fun i => (memAddr c.g m i).toNat / 128).contains (l.va / 128)) }

theorem mem_withoutText {l : ILine} : l ∈ (withoutText s c h m).icache ↔ l ∈ s.icache ∧
    ¬(l.slot = c.t.slot ∧ ∃ i, i < 64 ∧ (c.active h).getLsbD i = true ∧ l.va / 128 = (memAddr c.g m i).toNat / 128) := by
  rw [withoutText, List.mem_filter, Bool.not_eq_true', ← Bool.not_eq_true]
  simp only [Bool.and_eq_true, beq_iff_eq, List.contains_iff_mem, List.mem_map, lanesOf_mem, and_assoc, eq_comm (a := l.va / 128)]

theorem exec_iinv (hc : cur? s = some c) (hf : c.g.peerFail = []) (hx : c.idxOk m = true) (hr : Claim.released s s1 c c1 ⟨.dev, .rel, 0⟩) :
    exec (.iinv h m) s = .next (finish (waitFor (withoutText s1 c h m) c .iinv) c h) := by
  rw [exec_memWord_next (i := .iinv h m) (h := h) (ok := fun c => c.idxOk m) rfl hc hf hx, withRelease_released hr]
  rfl

/-- The claim on PREF, PROBE and IINV. -/
theorem memoryHints : Claim.MemoryHints := by
  intro s c h hint m z p hc hx
  refine ⟨completes_pref hint hc hx, fun hq => ⟨_, completes_probe z p hc hx hq, fun i hi => ?probe⟩, fun s1 c1 hf hr _ => ?iinv⟩
  case probe =>
    rw [maskOf_getLsbD _ hi, List.mem_filter, lanesOf_mem, probeOk_iff, and_iff_right hi]
  case iinv =>
    have hg : (withoutText s1 c h m).group? c.ref = some c1.g := (group?_released hr :)
    obtain ⟨o, g', e, mv, hw⟩ := finish_waitFor (h := h) .iinv hg
    have hi := congrArg (fun u : State => u.icache) o.1
    dsimp only at hi
    exact ⟨_, g', exec_iinv hc hf hx hr, by rw [hi]; exact o, e, mv, hw, fun l => by rw [hi]; exact mem_withoutText⟩

end Hints

/-! ### BANKCFG (R197) -/

theorem mfind_eq_mget {α : Type} (m : SMap α) (j : Nat) : mfind m j = mget none (m.map (Prod.map id some)) j := by
  induction m with
  | nil => rfl
  | cons p r ih => simp only [mfind, List.map_cons, Prod.map, mget, ih]; rfl

theorem map_merase {α β : Type} (f : α → β) (k : Nat) (m : SMap α) :
    (merase k m).map (Prod.map id f) = merase k (m.map (Prod.map id f)) := by
  induction m with
  | nil => rfl
  | cons p r ih =>
    simp only [merase, List.map_cons, Prod.map, id]
    split_ifs
    · rfl
    · exact (List.dropWhile_map (p := fun p : Nat × β => decide (p.1 ≤ k)) (f := Prod.map id f) (l := r)).symm
    · rw [← ih]; rfl

theorem mfind_merase {α : Type} (m : SMap α) (k j : Nat) : mfind (merase k m) j = if j = k then none else mfind m j := by
  rw [mfind_eq_mget, map_merase, mget_merase, mfind_eq_mget]

theorem bankMode_eq (s : State) (cl b : Nat) : bankMode s cl b = (mfind s.banks (cl * 64 + b)).getD (resetMode b) := by
  unfold bankMode resetMode
  cases mfind s.banks (cl * 64 + b) <;> rfl

/-- The mode of each bank after one bank is given a mode. -/
theorem bankMode_setBank (s : State) {cl b : Nat} (mode : BankMode) (hb : b < 64) (cl' : Nat) {b' : Nat} (hb' : b' < 64) :
    bankMode (setBank s cl b mode) cl' b' = if cl' = cl ∧ b' = b then mode else bankMode s cl' b' := by
  have hk : cl' * 64 + b' = cl * 64 + b ↔ cl' = cl ∧ b' = b := by omega
  simp only [bankMode_eq, setBank, beq_iff_eq]
  by_cases hm : mode = resetMode b
  · simp only [if_pos hm, mfind_merase, hk]
    split
    next h => rw [h.2, hm]; rfl
    next => rfl
  · simp only [if_neg hm, mfind_minsert, hk]
    split <;> rfl

theorem bankMode_congr {s t : State} (h : t.banks = s.banks) (cl b : Nat) : bankMode t cl b = bankMode s cl b := by
  unfold bankMode; rw [h]

theorem banks_leaveCache (s : State) (cl : Nat) : (leaveCache s cl).banks = s.banks := by
  unfold leaveCache
  have h := still_foldl s (f := fun s (p : Nat × Nat) => grantLine s p.1 p.2) (fun s p => still_grantLine s p.1 p.2)
    (((s.ev.filter (fun e => e.level == .cluster && clusterOf e.core == cl)).map (fun e => (e.core, e.w.line))).eraseDups)
  have hb := congrArg State.banks h
  exact hb

theorem byteAt_zeroBank {s : State} (cl b : Nat) (h : MemOk s) (a : Nat) :
    byteAt (zeroBank s cl b) a = if sramLoc cl (b * 2 ^ 18) ≤ a ∧ a < sramLoc cl (b * 2 ^ 18) + 2 ^ 18 then 0 else byteAt s a := by
  refine (mget_filter_key unlistedByte (fun k => !(decide (sramLoc cl (b * 2 ^ 18) ≤ k) && decide (k < sramLoc cl (b * 2 ^ 18) + 2 ^ 18)))
    a h.1).trans ?_
  by_cases hr : sramLoc cl (b * 2 ^ 18) ≤ a ∧ a < sramLoc cl (b * 2 ^ 18) + 2 ^ 18
  · rw [if_pos hr, decide_eq_true hr.1, decide_eq_true hr.2]; rfl
  · rw [if_neg hr, ← Bool.decide_and, decide_eq_false hr]; rfl

/-- The state after a bank is given a mode that it has not (R197): a bank that becomes scratchpad is zero. -/
def withBank (s : State) (cl b : Nat) (mode : BankMode) : State :=
  if mode == .scratch then zeroBank (setBank s cl b mode) cl b else setBank s cl b mode

theorem withBank_eq (s : State) (cl b : Nat) (mode : BankMode) : withBank s cl b mode = { s with
    banks := (setBank s cl b mode).banks, mem := (withBank s cl b mode).mem, tags := (withBank s cl b mode).tags
    poison := (withBank s cl b mode).poison } := by
  unfold withBank
  split <;> rfl

theorem byteAt_withBank {s : State} (cl b : Nat) (mode : BankMode) (h : MemOk s) (a : Nat) :
    byteAt (withBank s cl b mode) a =
      if mode = .scratch ∧ sramLoc cl (b * 2 ^ 18) ≤ a ∧ a < sramLoc cl (b * 2 ^ 18) + 2 ^ 18 then 0 else byteAt s a := by
  have hs : MemOk (setBank s cl b mode) := h
  unfold withBank
  by_cases hm : mode = .scratch
  · rw [if_pos (by simp [hm]), byteAt_zeroBank cl b hs]
    simp only [hm, true_and]
    rfl
  · rw [if_neg (by simp [hm]), if_neg fun hh => hm hh.1]
    rfl

section Bankcfg

variable {s s1 S : State} {c c1 : Cur} {h : Head} {q : BitVec 3} {sb : BitVec 6} {mode : BankMode}

theorem faults_bankcfg (hc : cur? s = some c) (hm : mayConfigBanks s c.t.ctx = false) : Faults (.bankcfg h q sb mode) s c .priv :=
  exec_onCur (i := .bankcfg h q sb mode) rfl hc (by simp only [hm, Bool.not_false, if_true])

/-- What BANKCFG leaves besides its result: the state of its banks, and whether the bank has the mode. -/
def bankOutcome (s : State) (cl b : Nat) (mode : BankMode) : State × Bool :=
  if b > 63 then (s, false)
  else if bankMode s cl b == mode then (s, true)
  else if !bankFree s cl b then (s, false)
  else (withBank (if bankMode s cl b == .cache then leaveCache s cl else s) cl b mode, true)

theorem exec_bankcfg (hc : cur? s = some c) (hm : mayConfigBanks s c.t.ctx = true) (hq : resultGate c .none = none)
    (hp : Claim.pinned s s1 c c1) (hq1 : resultGate c1 .none = none) :
    let out := bankOutcome s1 (clusterOf c1.t.core) (c1.g.sreg sb.toNat).toNat mode
    exec (.bankcfg h q sb mode) s = .next (finish (addPend out.1 c1 .none true [.q q out.2]) c1 h) := by
  refine exec_onCur (i := .bankcfg h q sb mode) rfl hc ?_
  simp only [hm, hq, Bool.not_true, Bool.false_eq_true, if_false, afterSync_pinned hp, refresh_cur c hp.2.1, resultDone, hq1, bankOutcome,
    withBank]
  split_ifs <;> rfl

/-- The word ends in the state of its banks, with its result outstanding. -/
theorem bankcfg_ends {i : Instr} {s2 : State} {g2 : Group} {r : Bool}
    (hi : exec i s = .next (finish (addPend S c1 .none true [.q q r]) c1 h)) (hn : c1.ref = c.ref)
    (hS : S = { s2 with banks := S.banks, mem := S.mem, tags := S.tags, poison := S.poison }) (hg : s2.group? c.ref = some g2) :
    ∃ t g', exec i s = .next t ∧ t.group? c.ref = some g' ∧
      OnlyGroup { s2 with banks := t.banks, mem := t.mem, tags := t.tags, poison := t.poison } t c.ref ∧
      Pends s2 c1 g2 g' .none [.q q r] ∧ t.banks = S.banks ∧ t.mem = S.mem := by
  have hgS : S.group? c1.ref = some g2 := by rw [hn, hS]; exact hg
  obtain ⟨o, g', e, p⟩ := finish_addPend (h := h) .none [.q q r] hgS
  rw [hn] at o e
  have hq : S.seqN = s2.seqN := by rw [hS]
  generalize finish (addPend S c1 .none true [.q q r]) c1 h = t at *
  have hb := congrArg State.banks o.1
  have hm := congrArg State.mem o.1
  have ht := congrArg State.tags o.1
  have hp := congrArg State.poison o.1
  refine ⟨t, g', hi, e, ?_, ?_, hb, hm⟩
  · rw [hb, hm, ht, hp]
    exact hS ▸ o
  · rwa [Pends, hq] at p

end Bankcfg

/-- The bank can be given the mode: it has it, or it is free. -/
def MayHaveMode (s : State) (cl b : Nat) (mode : BankMode) : Prop := b ≤ 63 ∧ (bankMode s cl b = mode ∨ bankFree s cl b = true)

theorem bankOutcome_refused {s : State} {cl b : Nat} {mode : BankMode} (h : ¬MayHaveMode s cl b mode) :
    bankOutcome s cl b mode = (s, false) := by
  unfold MayHaveMode at h
  unfold bankOutcome
  split_ifs with h1 h2 h3 <;> simp_all

theorem bankOutcome_has {s : State} {cl b : Nat} {mode : BankMode} (hb : b ≤ 63) (h : bankMode s cl b = mode) :
    bankOutcome s cl b mode = (s, true) := by
  rw [bankOutcome, if_neg (by omega), if_pos (by simp [h])]

theorem bankOutcome_changes {s : State} {cl b : Nat} {mode : BankMode} (h : MayHaveMode s cl b mode) (hne : bankMode s cl b ≠ mode) :
    bankOutcome s cl b mode = (withBank (if bankMode s cl b = .cache then leaveCache s cl else s) cl b mode, true) := by
  obtain ⟨hb, h⟩ := h
  simp only [bankOutcome, if_neg (show ¬b > 63 by omega), beq_iff_eq, if_neg hne, h.resolve_left hne, Bool.not_true, Bool.false_eq_true,
    if_false]

theorem bankMode_withBank {s : State} {cl b : Nat} (mode : BankMode) (hb : b ≤ 63) (cl' : Nat) {b' : Nat} (hb' : b' < 64) :
    bankMode (withBank s cl b mode) cl' b' = if cl' = cl ∧ b' = b then mode else bankMode s cl' b' := by
  have hbk : (withBank s cl b mode).banks = (setBank s cl b mode).banks := by unfold withBank; split <;> rfl
  exact (bankMode_congr hbk cl' b').trans (bankMode_setBank s mode (by omega) cl' hb')

/-- The claim on BANKCFG. -/
theorem bankModes : Claim.BankModes := by
  intro s s1 c c1 h q sb mode hc
  refine ⟨faults_bankcfg hc, fun hm hq hp hq1 => ?_⟩
  intro b cl ok s2 g2 hg hmem
  have he : exec (.bankcfg h q sb mode) s =
    .next (finish (addPend (bankOutcome s1 cl b mode).1 c1 .none true [.q q (bankOutcome s1 cl b mode).2]) c1 h) :=
    exec_bankcfg hc hm hq hp hq1
  have hn := ref_pinned hp
  by_cases hok : ok
  · by_cases hne : bankMode s1 cl b = mode
    · have hs2 : s2 = s1 := if_neg fun hh => hh.2.1 hne
      have ho : bankOutcome s1 cl b mode = (s1, true) := bankOutcome_has hok.1 hne
      rw [ho] at he
      rw [hs2] at hg ⊢
      obtain ⟨t, g', hi, e, o, p, hb, hmm⟩ := bankcfg_ends he hn rfl hg
      refine ⟨t, g', true, hi, by simp [hok], e, o, p, fun cl' b' hb' => ?_, fun a => ?_⟩
      · rw [bankMode_congr hb]
        split
        next hh => rw [hh.2.1, hh.2.2, hne]
        next => rfl
      · rw [if_neg fun hh => hh.2.1 hne, byteAt, hmm, byteAt]
    · have hs2 : s2 = if bankMode s1 cl b = .cache then leaveCache s1 cl else s1 := by
        by_cases hca : bankMode s1 cl b = .cache
        · rw [if_pos hca]; exact if_pos ⟨hok, hne, hca⟩
        · rw [if_neg hca]; exact if_neg fun hh => hca hh.2.2
      have hb2 : s2.banks = s1.banks := by
        rw [hs2]
        split
        · exact banks_leaveCache s1 cl
        · rfl
      have ho : bankOutcome s1 cl b mode = (withBank s2 cl b mode, true) := hs2 ▸ bankOutcome_changes hok hne
      rw [ho] at he
      obtain ⟨t, g', hi, e, o, p, hb, hmm⟩ := bankcfg_ends he hn (by rw [withBank_eq]) hg
      refine ⟨t, g', true, hi, by simp [hok], e, o, p, fun cl' b' hb' => ?_, fun a => ?_⟩
      · rw [bankMode_congr hb, bankMode_withBank mode hok.1 cl' hb', bankMode_congr hb2]
        simp only [hok, true_and]
      · rw [byteAt, hmm]
        refine (byteAt_withBank cl b mode hmem a).trans ?_
        simp only [hok, hne, ne_eq, not_false_eq_true, true_and]
  · have hs2 : s2 = s1 := if_neg fun hh => hok hh.1
    have ho : bankOutcome s1 cl b mode = (s1, false) := bankOutcome_refused hok
    rw [ho] at he
    rw [hs2] at hg ⊢
    obtain ⟨t, g', hi, e, o, p, hb, hmm⟩ := bankcfg_ends he hn rfl hg
    refine ⟨t, g', false, hi, by simp [hok], e, o, p, fun cl' b' hb' => ?_, fun a => ?_⟩
    · rw [bankMode_congr hb, if_neg fun hh => hok hh.1]
    · rw [if_neg fun hh => hok hh.1, byteAt, hmm, byteAt]

/-- Settles O22: a PROBE's bits are what its lanes' reads would find, IINV drops the lines it names, and BANKCFG changes one bank's mode. -/
theorem hintsAndBankModes : Obligations.HintsAndBankModes := ⟨memoryHints, bankModes⟩

end Sys2Proof.Machine
end

section
/-! SUPPORT. What a recall of a line leaves unchanged (R191, R195, R209): all but memory, the caches, their directories and the writes
under way in them. -/

namespace Sys2Proof.Machine
open Sys2Proof

/-- The state without memory, its caches and directories, and the writes in them. -/
def State.beyond (s : State) : State := { s with
  freeN := 0, mem := [], tags := [], poison := [], cdir := [], hdir := [], ev := [], stale := [], icache := [], tlb := [], walks := []
  aliases := [], dirty := [] }

section Beyond

variable (s : State)

theorem beyond_foldl {α : Type} {f : State → α → State} (hf : ∀ s a, (f s a).beyond = s.beyond) (l : List α) :
    (l.foldl f s).beyond = s.beyond :=
  List.foldlRecOn (motive := fun t : State => t.beyond = s.beyond) l f rfl fun t ht a _ => (hf t a).trans ht

theorem beyond_homeLine (line : Nat) : (homeLine s line).beyond = s.beyond := by
  unfold homeLine
  dsimp only
  split <;> rfl

theorem beyond_dropCopies (line : Nat) (keep : Option Nat) : (dropCopies s line keep).beyond = s.beyond := beyond_homeLine _ line

theorem beyond_markDirty (slot va : Nat) : (markDirty s slot va).beyond = s.beyond := by
  unfold markDirty
  dsimp only
  split <;> rfl

theorem beyond_performLine (slot : Nat) (x : Xlat) (w : GWrite) : (performLine s slot x w).beyond = s.beyond :=
  beyond_markDirty _ slot w.va

theorem beyond_performEv (line : Nat) (x : Xlat) (f : EvWrite → Bool) : (performEv s line x f).beyond = s.beyond := by
  show (List.foldl _ _ _ : State).beyond = _
  rw [beyond_foldl (f := fun s c => dropStale s c line) _ fun _ _ => rfl, beyond_foldl s fun s w => beyond_performLine s (lineSlot line) x w]

theorem beyond_recallWhere (slot va : Nat) (x : Xlat) (f : EvWrite → Bool) : (recallWhere s slot va x f).beyond = s.beyond := by
  have hi : (invalidateCopies s slot va x (fun _ => true) none).beyond = s.beyond := rfl
  have hp := beyond_performEv (invalidateCopies s slot va x (fun _ => true) none) (lineKey slot va) x f
  have hd := beyond_dropCopies (performEv (invalidateCopies s slot va x (fun _ => true) none) (lineKey slot va) x f) (lineKey slot va) none
  exact hd.trans (hp.trans hi)

theorem beyond_translate (slot va : Nat) (k : AK) : (translate s slot va k).2.beyond = s.beyond := by
  have hnew : (translate.walkNew slot va k s).2.beyond = s.beyond := by
    unfold translate.walkNew
    split <;> rfl
  unfold translate
  split
  · split
    · rfl
    · exact hnew
  · exact hnew

variable {s} in
theorem beyond_of_translate {s1 : State} {slot va : Nat} {k : AK} {x} (h : translate s slot va k = (x, s1)) : s1.beyond = s.beyond := by
  have ht := beyond_translate s slot va k
  rwa [h] at ht

/-- The state in which the writes to a line under way in the caches are performed. -/
def performed (s : State) (line : Nat) : State :=
  if s.ev.any (fun e => e.w.line == line) then
    match translate s (lineSlot line) (lineVa line) .write with
    | (.ok x, s) => if x.peer then s else performEv s line x (fun e => !heldCommit s e.w.g.team)
    | (.error _, s) => s
  else s

theorem beyond_performed (line : Nat) : (performed s line).beyond = s.beyond := by
  unfold performed
  split
  · split
    next x s1 h =>
      split
      · exact beyond_of_translate h
      · exact (beyond_performEv s1 line x _).trans (beyond_of_translate h)
    next s1 h => exact beyond_of_translate h
  · rfl

theorem recallName_eq (line : Nat) : recallName s line = { dropCopies (performed s line) line none with
    stale := (dropCopies (performed s line) line none).stale.filter (fun l => l.key != line) } := by
  rfl

theorem beyond_recallName (line : Nat) : (recallName s line).beyond = s.beyond := by
  have hd := beyond_dropCopies (performed s line) line none
  rw [recallName_eq]
  exact hd.trans (beyond_performed s line)

theorem beyond_aliasFill (slot va : Nat) (x : Xlat) : (aliasFill s slot va x).beyond = s.beyond := by
  unfold aliasFill
  dsimp only
  split
  · split
    · rfl
    · exact beyond_recallName s _
  · rfl

theorem beyond_recallLine (line : Nat) : (recallLine s line).beyond = s.beyond := by
  unfold recallLine
  dsimp only
  split
  · exact beyond_recallName s line
  · split
    · rfl
    · split
      · split
        next x s1 h => exact (beyond_recallWhere s1 _ _ _ _).trans (beyond_of_translate h)
        next c s1 h => exact (beyond_recallWhere s1 _ _ _ _).trans (beyond_of_translate h)
      · exact beyond_recallWhere s _ _ _ _

/-- One piece of a write from outside: the line's copies are recalled, and it is written. -/
def writePiece (tagged : Bool) (t : Tag) (s : State) (p : Nat × List (Nat × Byte)) : State :=
  performAt (match cachedAs s p.1 with
    | some n => recallLine s (lineKey n.1 n.2)
    | none => s) p.1 tagged ⟨0, ⟨0, 0⟩, 0, 0, p.1, p.2, wordTags t p.2, none, false, []⟩

theorem outsideWrite_eq (loc : Nat) (tagged : Bool) (t : Tag) (b : List Byte) :
    outsideWrite s loc tagged t b = (splitBytes loc b).foldl (writePiece tagged t) s := by
  rfl

theorem beyond_writePiece (tagged : Bool) (t : Tag) (p : Nat × List (Nat × Byte)) : (writePiece tagged t s p).beyond = s.beyond := by
  have h : ∀ u : State, ∀ w, (performAt u p.1 tagged w).beyond = u.beyond := fun _ _ => rfl
  rw [writePiece, h]
  split
  · exact beyond_recallLine s _
  · rfl

theorem beyond_outsideWrite (loc : Nat) (tagged : Bool) (t : Tag) (b : List Byte) : (outsideWrite s loc tagged t b).beyond = s.beyond := by
  rw [outsideWrite_eq]
  exact beyond_foldl s (beyond_writePiece · tagged t) (splitBytes loc b)

/-- A host's access that is served touches nothing beyond memory but the host's own lists. -/
theorem beyond_serveHost (q : HostReq) : ∃ o h, (serveHost s q).beyond = { s.beyond with hostOut := o, hostHeld := h } := by
  cases q with
  | write pa data =>
    rw [serveHost]
    split
    · exact ⟨_, _, rfl⟩
    · exact ⟨s.hostOut, s.hostHeld, beyond_outsideWrite s _ true 0 _⟩
  | read pa n =>
    rw [serveHost]
    split
    · exact ⟨_, _, rfl⟩
    · exact ⟨_, _, rfl⟩

end Beyond
end Sys2Proof.Machine
end

section
/-! SUPPORT. The fault path (R216, R217, R433, R434): a walk, a record, an answer, and the rings. -/

namespace Sys2Proof.Machine
open Sys2Proof

section Walk

variable {s : State} {f : FaultReq}

/-- A request found by its number is found with what else it meets. -/
theorem find_request {p : FaultReq → Bool} (hf : s.faults.find? (fun x => x.id == f.id) = some f) (hp : p f = true) :
    s.faults.find? (fun x => x.id == f.id && p x) = some f := by
  obtain ⟨h, a, b, hl, ha⟩ := List.find?_eq_some_iff_append.1 hf
  exact List.find?_eq_some_iff_append.2 ⟨by simp [hp], a, b, hl, fun x hx => by
    have := ha x hx
    simp_all⟩

theorem walkFault_none (h : ∀ k ∈ kindsOf f.kinds, ∃ x, translatePure s f.slot (f.page * 4096) k = .ok x) : walkFault s f = none := by
  rw [walkFault, List.findSome?_eq_none_iff]
  intro k hk
  obtain ⟨x, hx⟩ := h k hk
  rw [hx]

theorem walkFault_some {l r : List AK} {k : AK} {code : Nat} (e : kindsOf f.kinds = l ++ k :: r)
    (h : ∀ j ∈ l, ∃ x, translatePure s f.slot (f.page * 4096) j = .ok x) (hk : translatePure s f.slot (f.page * 4096) k = .error code) :
    walkFault s f = some code := by
  rw [walkFault, e, List.findSome?_append, List.findSome?_eq_none_iff.2, Option.none_or, List.findSome?_cons, hk]
  intro j hj
  obtain ⟨x, hx⟩ := h j hj
  rw [hx]

/-- A request whose page has come is taken off, and its waiters go on. -/
theorem exec_dieFaultWalk_retry (hf : s.faults.find? (fun x => x.id == f.id) = some f) (hc : f.cause = none) (hw : walkFault s f = none) :
    exec (.dieFaultWalk f.id) s = .next (retryFault s f) := by
  show execDieFaultWalk f.id s = _
  rw [execDieFaultWalk, find_request hf (p := fun x => x.cause.isNone) (by simp [hc])]
  simp only [hw]

/-- The requests with one of them changed. -/
def editFault (s : State) (n : Nat) (e : FaultReq → FaultReq) : List FaultReq := s.faults.map fun x => if x.id == n then e x else x

theorem mem_editFault (hf : s.faults.find? (fun x => x.id == f.id) = some f) (e : FaultReq → FaultReq) : e f ∈ editFault s f.id e :=
  List.mem_map.2 ⟨f, List.mem_of_find?_eq_some hf, by simp⟩

theorem exec_dieFaultWalk_fault {code : Nat} (hf : s.faults.find? (fun x => x.id == f.id) = some f) (hc : f.cause = none)
    (hw : walkFault s f = some code) :
    exec (.dieFaultWalk f.id) s = .next { s with faults := editFault s f.id fun x => { x with cause := some code } } := by
  show execDieFaultWalk f.id s = _
  rw [execDieFaultWalk, find_request hf (p := fun x => x.cause.isNone) (by simp [hc])]
  simp only [hw]
  rfl

/-- The state in which a fault's record is in the host's ring. -/
def recorded (s : State) (f : FaultReq) (code seq : Nat) : State :=
  { putHost s (s.ctrl.frbase.toNat + 48 * (s.ctrl.frprod.toNat % s.ctrl.frsize.toNat)) (natBytes 48 (faultRecord f code seq).toNat) with
    faults := editFault s f.id fun x => { x with seq := some seq }
    faultSeq := mput 0 s.faultSeq f.die seq
    ctrl := { s.ctrl with frprod := s.ctrl.frprod + 1 } }

theorem exec_faultRecordWrite {code : Nat} (hf : s.faults.find? (fun x => x.id == f.id) = some f) (hc : f.cause = some code)
    (hs : f.seq = none) (hr : (s.ctrl.frprod - s.ctrl.frcons).toNat < s.ctrl.frsize.toNat) :
    exec (.faultRecordWrite f.id) s = .next (recorded s f code (mget 0 s.faultSeq f.die + 1)) := by
  show execFaultRecordWrite f.id s = _
  rw [execFaultRecordWrite, find_request hf (p := fun x => x.seq.isNone) (by simp [hs])]
  simp only [hc, ringRoom, hr, decide_true, if_true]
  rfl

end Walk

/-! ### Records in the host's memory -/

theorem natAt_putHost (s : State) {w : Nat} (pa n : Nat) (x : BitVec w) (hw : w = 8 * n) :
    natAt (putHost s pa (natBytes n x.toNat)) (hostLoc pa) n = x.toNat := by
  subst hw
  rw [putHost, natAt_putMem, Nat.mod_eq_of_lt]
  calc x.toNat < 2 ^ (8 * n) := x.isLt
    _ = 256 ^ n := by rw [Nat.pow_mul]

theorem byteAt_putHost_out (s : State) {pa n x a : Nat} (h : a < hostLoc pa ∨ hostLoc pa + n ≤ a) :
    byteAt (putHost s pa (natBytes n x)) a = byteAt s a :=
  byteAt_putMem_out s (by rwa [natBytes_length])

/-- The state in which the oldest error record is in the host's ring. -/
def forwarded (s : State) (r : BitVec 512) (rest : List (BitVec 512)) : State :=
  { putHost s (s.ctrl.erbase.toNat + 64 * (s.ctrl.erprod.toNat % s.ctrl.ersize.toNat)) (natBytes 64 r.toNat) with
    errBuf := rest, ctrl := { s.ctrl with erprod := s.ctrl.erprod + 1 } }

theorem exec_errorRecordForward {s : State} {r : BitVec 512} {rest : List (BitVec 512)} (hb : s.errBuf = r :: rest)
    (hr : (s.ctrl.erprod - s.ctrl.ercons).toNat < s.ctrl.ersize.toNat) : exec .errorRecordForward s = .next (forwarded s r rest) := by
  show execErrorRecordForward s = _
  simp only [execErrorRecordForward, hb, ringRoom, hr, decide_true, if_true]
  rfl

/-! ### The host's answers -/

theorem exec_resolveRetry {s : State} {f : FaultReq} {n : Word} (hf : s.faults.find? (fun x => x.die == f.die && x.seq == some n.toNat) = some f) :
    exec (.resolveRetry f.die n) s = .next (retryFault s f) := by
  show execResolveRetry f.die n s = _
  rw [execResolveRetry, heldFault, hf]

/-- The request is gone, the cells are told, and the team has ended so. -/
structure Refused (f : FaultReq) (team : Nat) (e : Ending) (s : State) : Prop where
  gone : ∀ x ∈ s.faults, x.id ≠ f.id
  told : s.cells = []
  ended : (s.team? team).map (·.ending) = some (some e)

section Refuse

variable {f : FaultReq} {team : Nat} {e : Ending} {s : State}

theorem Refused.endTeam (h : Refused f team e s) (n : Nat) (e' : Ending) : Refused f team e (endTeam s n e') := by
  refine ⟨h.gone, h.told, ?_⟩
  have he := h.ended
  rw [endTeam_team?, Option.map_map]
  cases ht : s.team? team with
  | none => rw [ht] at he; cases he
  | some t =>
    rw [ht, Option.map_some, Option.some.injEq] at he
    simp [he]

theorem Refused.wake (h : Refused f team e s) (r : GRef) : Refused f team e (wake s r) := by
  refine ⟨h.gone, h.told, ?_⟩
  have he := h.ended
  show ((s.modTeam r.team fun t => t.modGroup r.grp fun g => { g with wait := none, readyAt := s.seqN }).team? team).map _ = _
  rw [team?_modTeam s r.team (fun t => t.modGroup r.grp fun g => { g with wait := none, readyAt := s.seqN }) (fun _ => rfl), Option.map_map, ← he]
  refine congrArg (Option.map · _) (funext fun t => ?_)
  simp only [Function.comp_apply]
  split <;> rfl

theorem Refused.foldl {α : Type} {g : State → α → State} (hg : ∀ s a, Refused f team e s → Refused f team e (g s a)) (h : Refused f team e s)
    (l : List α) : Refused f team e (l.foldl g s) :=
  List.foldlRecOn l g h fun s hs a _ => hg s a hs

theorem Refused.beyond {t : State} (h : Refused f team e s) (o : List HostOut) (q : List HostReq)
    (hb : t.beyond = { s.beyond with hostOut := o, hostHeld := q }) : Refused f team e t := by
  have hf := congrArg State.faults hb
  have hc := congrArg State.cells hb
  have ht := congrArg State.teams hb
  exact ⟨hf ▸ h.gone, hc.trans h.told, by rw [State.team?, show t.teams = s.teams from ht]; exact h.ended⟩

theorem flushCells_told (h : s.cells = []) : flushCells s = s := by simp [flushCells, h]

/-- The waits on lines that are woken, and the host's accesses that are served. -/
theorem Refused.wakeLines (h : Refused f team e s) : Refused f team e (wakeLines s) := by
  unfold Machine.wakeLines
  extract_lets waits u
  have hw : Refused f team e (waits.foldl Machine.wake s) := h.foldl (fun s r hs => hs.wake r) _
  have hu : u = waits.foldl Machine.wake s := flushCells_told hw.told
  rw [hu]
  have hq : Refused f team e { waits.foldl Machine.wake s with hostHeld := [] } := ⟨hw.gone, hw.told, hw.ended⟩
  refine hq.foldl (fun u q hu => ?_) _
  obtain ⟨o, q', hb⟩ := beyond_serveHost u q
  exact hu.beyond o q' hb

/-- The team without the stores of its groups that `bad` names. -/
def withoutStores (bad : Nat → GWrite → Bool) (t : Team) : Team :=
  { t with groups := t.groups.map (fun g => { g with storeQ := g.storeQ.filter (fun w => !bad t.core w) }) }

theorem Refused.dropStores (h : Refused f team e s) (f' : FaultReq) : Refused f team e (dropStores s f') := by
  unfold Machine.dropStores
  extract_lets bad q teams t
  have ht : Refused f team e t := h.foldl (fun s n hs => hs.endTeam n _) _
  refine ⟨ht.gone, ht.told, ?_⟩
  show ((t.teams.map (withoutStores bad)).find? (fun t => t.id == team)).map _ = _
  rw [List.find?_map, Option.map_map]
  exact ht.ended

end Refuse

/-- A store's page that is refused ends the store's team. -/
theorem exec_resolveRefuse_store {s : State} {f : FaultReq} {n : Word} {team : Nat} {t : Team}
    (hf : s.faults.find? (fun x => x.die == f.die && x.seq == some n.toNat) = some f) (hw : f.who = [.store team]) (hc : s.cells = [])
    (ht : s.team? team = some t) (he : t.ending = none) :
    ∃ u e, exec (.resolveRefuse f.die n) s = .next u ∧ (∀ x ∈ u.faults, x.id ≠ f.id) ∧
      (u.team? team).map (·.ending) = some (some e) ∧ e.cause = .faultUnmapped ∧ e.va = f.page * 4096 := by
  have h0 : Refused f team ⟨.faultUnmapped, false, ⟨team, 0⟩, 0, f.page * 4096, 0, 0, 0, 0⟩
      (unmapTeam { s with faults := s.faults.filter (fun x => x.id != f.id) } team f.page) :=
    ⟨fun x hx => by simpa using (List.mem_filter.1 hx).2, hc, ending_endTeam _ ht he⟩
  obtain ⟨hg, -, hd⟩ := (h0.dropStores f).wakeLines
  refine ⟨_, _, ?_, hg, hd, rfl, rfl⟩
  show execResolveRefuse f.die n s = _
  rw [execResolveRefuse, heldFault, hf]
  simp only [hw, List.foldl_cons, List.foldl_nil, refuseWaiter]

/-- Settles O37: each event takes, records or answers the request that it names, and the rings' counts move as they are told. -/
theorem faultPath : Obligations.FaultPath := by
  intro s f hf
  refine ⟨fun hc hk => ⟨_, exec_dieFaultWalk_retry hf hc (walkFault_none hk), rfl⟩,
    fun hc l k r code he hl hk => ⟨_, exec_dieFaultWalk_fault hf hc (walkFault_some he hl hk), rfl, List.length_map .., _,
      mem_editFault hf _, rfl⟩,
    fun code hc hs hr => ⟨_, exec_faultRecordWrite hf hc hs hr, rfl, ⟨_, mem_editFault hf _, rfl⟩, ?seq,
      natAt_putHost s _ 48 (faultRecord f code _) rfl, fun a ha => byteAt_putHost_out s ha⟩,
    fun n hn => ⟨exec_resolveRetry hn, fun team t hw hc ht he => exec_resolveRefuse_store hn hw hc ht he⟩,
    fun hs x => ?rings,
    fun r rest hb hr => ⟨_, exec_errorRecordForward hb hr, rfl, natAt_putHost s _ 64 r rfl, fun a ha => byteAt_putHost_out s ha⟩⟩
  case seq => exact (mget_mput 0 s.faultSeq f.die f.die (mget 0 s.faultSeq f.die + 1)).trans (if_pos rfl)
  case rings =>
    have hr : readyDev s = true := by simp [readyDev, hs]
    constructor
    · show execFaultRingConsume x s = _
      simp only [execFaultRingConsume, hr, if_true]
    · show execErrorRingConsume x s = _
      simp only [execErrorRingConsume, hr, if_true]

end Sys2Proof.Machine
end

section
/-! SUPPORT. The host's accesses, the scrubber and lost lines (R195, R220, R341, R356, R435). -/

namespace Sys2Proof.Machine
open Sys2Proof

/-! ### The bytes of a write from outside -/

/-- The byte that a piece holds for a location. -/
def pieceByte (p : Nat × List (Nat × Byte)) (a : Nat) : Option Byte :=
  if a / 16 = p.1 / 16 then (p.2.find? (fun q => q.1 == a % 16)).map Prod.snd else none

/-- The byte that the last of the pieces with one holds for a location. -/
def piecesByte : List (Nat × List (Nat × Byte)) → Nat → Option Byte
  | [], _ => none
  | p :: r, a => (piecesByte r a).or (pieceByte p a)

/-- The first byte of a piece hides the others at its own place, and no other. -/
theorem pieceByte_cons (g a : Nat) (b : Byte) (l : List (Nat × Byte)) (hg : g / 16 = a / 16) (x : Nat) :
    pieceByte (g, (a % 16, b) :: l) x = if x = a then some b else pieceByte (g, l) x := by
  have hx : x / 16 = a / 16 → (a % 16 = x % 16 ↔ x = a) := by omega
  by_cases h : x / 16 = a / 16
  · simp only [pieceByte, hg, h, if_true, List.find?_cons]
    by_cases hxa : x = a
    · simp [hxa]
    · rw [if_neg hxa, beq_eq_false_iff_ne.2 fun e => hxa ((hx h).1 e)]
  · rw [if_neg fun e => h (by rw [e])]
    simp only [pieceByte, hg, h, if_false]

theorem piecesByte_splitBytes (a : Nat) (l : List Byte) (x : Nat) :
    piecesByte (splitBytes a l) x = if a ≤ x ∧ x < a + l.length then l[x - a]? else none := by
  induction l generalizing a x with
  | nil => simp [splitBytes, piecesByte]
  | cons b r ih =>
    have hx : (if a ≤ x ∧ x < a + (b :: r).length then (b :: r)[x - a]? else none) =
        if x = a then some b else piecesByte (splitBytes (a + 1) r) x := by
      rw [ih, List.length_cons]
      by_cases hxa : x = a
      · simp [hxa]
      · by_cases hr : a + 1 ≤ x ∧ x < a + 1 + r.length
        · rw [if_pos (by omega), if_neg hxa, if_pos hr, show x - a = x - (a + 1) + 1 by omega, List.getElem?_cons_succ]
        · rw [if_neg (by omega), if_neg hxa, if_neg hr]
    have hself : piecesByte (splitBytes (a + 1) r) a = none := by rw [ih, if_neg (by omega)]
    rw [hx, splitBytes]
    cases hs : splitBytes (a + 1) r with
    | nil =>
      simp only [piecesByte, Option.none_or, pieceByte_cons (a / 16 * 16) a b [] (by omega)]
      simp [pieceByte]
    | cons p t =>
      obtain ⟨g, m⟩ := p
      rw [hs, piecesByte, Option.or_eq_none_iff] at hself
      dsimp only
      split
      next hg =>
        have hg : g = a / 16 * 16 := by simpa using hg
        rw [piecesByte, pieceByte_cons g a b m (by omega), piecesByte]
        split
        next e => rw [e, hself.1, Option.none_or]
        next => rfl
      next hg =>
        rw [piecesByte, pieceByte_cons _ a b [] (by omega)]
        split
        next e => rw [e, piecesByte, hself.1, hself.2]; rfl
        next => simp [pieceByte]

theorem writePiece_eq {s : State} (ha : s.aliases = []) (tagged : Bool) (t : Tag) (p : Nat × List (Nat × Byte)) :
    writePiece tagged t s p = performAt s p.1 tagged ⟨0, ⟨0, 0⟩, 0, 0, p.1, p.2, wordTags t p.2, none, false, []⟩ := by
  simp [writePiece, cachedAs, ha]

theorem byteAt_writePiece {s : State} (ha : s.aliases = []) (tagged : Bool) (t : Tag) (p : Nat × List (Nat × Byte)) (a : Nat) :
    byteAt (writePiece tagged t s p) a = (pieceByte p a).getD (byteAt s a) := by
  rw [writePiece_eq ha, pieceByte]
  split
  next h =>
    cases hf : p.2.find? (fun q => q.1 == a % 16) with
    | none => exact byteAt_performAt s p.1 tagged _ a (.inr (.inr hf))
    | some q => exact byteAt_performAt_in s tagged h rfl hf
  next h => exact byteAt_performAt s p.1 tagged _ a (.inl h)

/-- What a write from outside changes where no line has a name. -/
def WrittenTo (s t : State) : Prop := ∃ m g p, t = { s with mem := m, tags := g, poison := p }

theorem writtenTo_writePiece {s u : State} (ha : s.aliases = []) (h : WrittenTo s u) (tagged : Bool) (t : Tag)
    (p : Nat × List (Nat × Byte)) : WrittenTo s (writePiece tagged t u p) := by
  obtain ⟨m, g, q, rfl⟩ := h
  rw [writePiece_eq (s := { s with mem := m, tags := g, poison := q }) ha]
  exact ⟨_, _, _, rfl⟩

theorem byteAt_pieces {s : State} (ha : s.aliases = []) (tagged : Bool) (t : Tag) (l : List (Nat × List (Nat × Byte))) (a : Nat) :
    byteAt (l.foldl (writePiece tagged t) s) a = (piecesByte l a).getD (byteAt s a) := by
  induction l generalizing s with
  | nil => rfl
  | cons p r ih =>
    have hp : (writePiece tagged t s p).aliases = [] := by
      obtain ⟨m, g, q, e⟩ := writtenTo_writePiece ha ⟨s.mem, s.tags, s.poison, rfl⟩ tagged t p
      rw [e]; exact ha
    rw [List.foldl_cons, ih hp, byteAt_writePiece ha, piecesByte]
    cases piecesByte r a <;> rfl

theorem writtenTo_outsideWrite {s : State} (ha : s.aliases = []) (loc : Nat) (tagged : Bool) (t : Tag) (b : List Byte) :
    WrittenTo s (outsideWrite s loc tagged t b) := by
  rw [outsideWrite_eq]
  exact List.foldlRecOn (motive := WrittenTo s) _ _ ⟨s.mem, s.tags, s.poison, rfl⟩ fun u hu p _ => writtenTo_writePiece ha hu tagged t p

theorem byteAt_outsideWrite {s : State} (ha : s.aliases = []) (loc : Nat) (tagged : Bool) (t : Tag) (b : List Byte) (a : Nat) :
    byteAt (outsideWrite s loc tagged t b) a = if loc ≤ a ∧ a < loc + b.length then b.getD (a - loc) 0 else byteAt s a := by
  rw [outsideWrite_eq, byteAt_pieces ha, piecesByte_splitBytes]
  split
  next h => rw [List.getD_eq_getElem?_getD, List.getElem?_eq_getElem (by omega)]; rfl
  next => rfl

/-! ### The host's accesses (R195, R356, R435) -/

section Host

variable {s : State} {pa n : Nat} {data : List Byte}

theorem exec_hostWrite (hr : readyDev s = true) (hm : hostMay pa data.length = true) :
    exec (.hostWrite pa data) s = .next (if locOwned s pa data.length then { s with hostHeld := s.hostHeld ++ [.write pa data] }
      else outsideWrite s pa true 0 data) := by
  show execHostWrite pa data s = _
  simp only [execHostWrite, hr, hm, Bool.and_self, if_true, serveHost]

theorem exec_hostRead_memory (hr : readyDev s = true) (hm : hostMay pa n = true) :
    exec (.hostRead (.memory pa) n) s = .next (if locOwned s pa n then { s with hostHeld := s.hostHeld ++ [.read pa n] }
      else { s with hostOut := s.hostOut ++ [.data pa (bytesAt s pa n)] }) := by
  show execHostRead (.memory pa) n s = _
  simp only [execHostRead, hostLoad, hr, hm, Bool.and_self, if_true, serveHost]

end Host

/-! ### The scrubber (R220) -/

/-- The record of a unit's correction, or of a block that cannot be corrected (R343). -/
def unitRecord (kind : Nat) (u : Nat × Nat) : ErrRec := { ErrRec.zero with kind := kind, unitKind := u.1, unit := u.2 }

/-- The records of what the units corrected. -/
def corrected (s : State) (fixed : List (Nat × Nat)) : State :=
  (fixed.filter unitOk).foldl (fun s u => postRecord s (unitRecord 6 u)) s

/-- The state in which a block that cannot be corrected is poisoned and counted. -/
def blockLost (s : State) (block : Nat) : State :=
  postRecord (bumpCounter (poisonAt s ((List.range 32).map (fun i => block * 32 + i))) (stackOf (block * 512) / 2) 7)
    (unitRecord 7 (2, stackOf (block * 512)))

theorem exec_scrubPass {s : State} {block : Nat} (hb : block * 512 < 8 * (56 * 2 ^ 30)) (fixed : List (Nat × Nat)) (bad : List Nat) :
    exec (.scrubPass block fixed bad) s =
      .next (if bad = [] then readBlock (corrected s fixed) block else blockLost (readBlock (corrected s fixed) block) block) := by
  have hst : ¬stackOf (block * 512) ≥ 8 := by unfold stackOf; omega
  show execScrubPass block fixed bad s = _
  cases bad with
  | nil => simp only [execScrubPass, if_neg hst, if_true]; rfl
  | cons x r => simp only [execScrubPass, if_neg hst, reduceCtorEq, if_false]; rfl

theorem counter_readBlock (s : State) (block : Nat) :
    let key := block * 512 / (56 * 2 ^ 30) / 2 * 64 + 5
    mget 0 (readBlock s block).counters key = (mget 0 s.counters key + (blockCode s block).2) % 2 ^ 64 := by
  intro key
  have hk : stackOf (512 * block) / 2 * 64 + 5 = key := by rw [stackOf, Nat.mul_comm 512]
  show mget 0 (mput 0 s.counters (stackOf (512 * block) / 2 * 64 + 5) _) key = _
  rw [hk, mget_mput, if_pos rfl]

@[simp] theorem postRecord_mem (s : State) (r : ErrRec) : (postRecord s r).mem = s.mem := by unfold postRecord; split <;> rfl
@[simp] theorem postRecord_poison (s : State) (r : ErrRec) : (postRecord s r).poison = s.poison := by unfold postRecord; split <;> rfl
@[simp] theorem postRecord_teams (s : State) (r : ErrRec) : (postRecord s r).teams = s.teams := by unfold postRecord; split <;> rfl
@[simp] theorem addCounter_mem (s : State) (die n k : Nat) : (addCounter s die n k).mem = s.mem := rfl
@[simp] theorem addCounter_poison (s : State) (die n k : Nat) : (addCounter s die n k).poison = s.poison := rfl

/-- Corrections change no memory and poison nothing. -/
theorem corrected_memory (s : State) (fixed : List (Nat × Nat)) : (corrected s fixed).mem = s.mem ∧ (corrected s fixed).poison = s.poison :=
  List.foldlRecOn (motive := fun t : State => t.mem = s.mem ∧ t.poison = s.poison) _ _ ⟨rfl, rfl⟩ fun t ht u _ => by simpa using ht

theorem poisonAt_mget (s : State) (l : List Nat) (k : Nat) :
    mget false (poisonAt s l).poison k = (decide (k ∈ l) || mget false s.poison k) := by
  unfold poisonAt
  dsimp only
  generalize s.poison = m
  induction l generalizing m with
  | nil => simp
  | cons a r ih =>
    rw [List.foldl_cons, ih, mget_mput]
    by_cases h : k = a <;> simp [h]

@[simp] theorem poisonAt_mem (s : State) (l : List Nat) : (poisonAt s l).mem = s.mem := rfl

theorem blockLost_mem (s : State) (block : Nat) : (blockLost s block).mem = s.mem := by
  rw [blockLost, postRecord_mem, bumpCounter, addCounter_mem, poisonAt_mem]

theorem blockLost_poison (s : State) (block k : Nat) : mget false (blockLost s block).poison k =
    (decide (block * 32 ≤ k ∧ k < block * 32 + 32) || mget false s.poison k) := by
  have hk : k ∈ (List.range 32).map (fun i => block * 32 + i) ↔ block * 32 ≤ k ∧ k < block * 32 + 32 := by
    simp only [List.mem_map, List.mem_range]
    exact ⟨by rintro ⟨i, hi, rfl⟩; omega, fun h => ⟨k - block * 32, by omega, by omega⟩⟩
  rw [blockLost, postRecord_poison, bumpCounter, addCounter_poison, poisonAt_mget, decide_eq_decide.2 hk]

/-! ### Lost lines (R341) -/

/-- The team has not ended, unless for a lost write. -/
def LostOrOn (n : Nat) (s : State) : Prop := ∃ t, s.team? n = some t ∧ ∀ e, t.ending = some e → e.cause = .lostWrite

/-- The team has ended for a lost write. -/
def Lost (n : Nat) (s : State) : Prop := ∃ t e, s.team? n = some t ∧ t.ending = some e ∧ e.cause = .lostWrite

/-- What a team is after a lost write of team `k`. -/
def endedLost (k : Nat) (t : Team) : Team :=
  if t.id = k ∧ t.ending = none then { t with ending := some ⟨.lostWrite, false, ⟨k, 0⟩, 0, 0, 0, 0, 0, 0⟩ } else t

section Lost

variable {s : State} {n : Nat}

theorem team?_loseTeam (s : State) (k n : Nat) : (plainFault s k .lostWrite).team? n = (s.team? n).map (endedLost k) :=
  endTeam_team? s k _ n

theorem lost_endedLost {t : Team} (h : ∀ e, t.ending = some e → e.cause = .lostWrite) (k : Nat) :
    ∀ e, (endedLost k t).ending = some e → e.cause = .lostWrite := by
  intro e he
  unfold endedLost at he
  split at he
  · cases he; rfl
  · exact h e he

theorem lostOrOn_loseTeam (h : LostOrOn n s) (k : Nat) : LostOrOn n (plainFault s k .lostWrite) := by
  obtain ⟨t, ht, he⟩ := h
  exact ⟨endedLost k t, by rw [team?_loseTeam, ht, Option.map_some], lost_endedLost he k⟩

theorem lost_loseTeam (h : Lost n s) (k : Nat) : Lost n (plainFault s k .lostWrite) := by
  obtain ⟨t, e, ht, he, hc⟩ := h
  have hk : endedLost k t = t := if_neg (by simp [he])
  exact ⟨t, e, by rw [team?_loseTeam, ht, Option.map_some, hk], he, hc⟩

theorem lost_of_lostOrOn (h : LostOrOn n s) : Lost n (plainFault s n .lostWrite) := by
  obtain ⟨t, ht, he⟩ := h
  have hl := lost_endedLost he n
  have hs : (endedLost n t).ending.isSome = true := by
    unfold endedLost
    split
    next => rfl
    next h => simpa [team?_id ht, Option.isSome_iff_ne_none] using h
  obtain ⟨e, hs⟩ := Option.isSome_iff_exists.1 hs
  exact ⟨endedLost n t, e, by rw [team?_loseTeam, ht, Option.map_some], hs, hl e hs⟩

/-- A fold over teams that ends the team at one of its members leaves it ended. -/
theorem lost_foldl {l : List Team} (hm : ∃ t ∈ l, t.id = n) (h : LostOrOn n s) :
    Lost n (l.foldl (fun s t => plainFault s t.id .lostWrite) s) := by
  obtain ⟨t, hm, rfl⟩ := hm
  obtain ⟨a, b, rfl⟩ := List.append_of_mem hm
  rw [List.foldl_append, List.foldl_cons]
  have ha : LostOrOn t.id (a.foldl (fun s t => plainFault s t.id .lostWrite) s) :=
    List.foldlRecOn (motive := LostOrOn t.id) _ _ h fun _ hs _ _ => lostOrOn_loseTeam hs _
  exact List.foldlRecOn (motive := Lost t.id) _ _ (lost_of_lostOrOn ha) fun _ hs _ _ => lost_loseTeam hs _

theorem lostOrOn_foldl (l : List Team) (h : LostOrOn n s) : LostOrOn n (l.foldl (fun s t => plainFault s t.id .lostWrite) s) :=
  List.foldlRecOn (motive := LostOrOn n) _ _ h fun _ hs _ _ => lostOrOn_loseTeam hs _

/-- Every team of one context is lost (R341). -/
def loseCtx (unitKind unit : Nat) (s : State) (ctx : Nat) : State :=
  postRecord ((s.teams.filter (fun t => t.ctx == ctx)).foldl (fun s t => plainFault s t.id .lostWrite) s) { ErrRec.zero with
    kind := 5, cause := Cause.lostWrite.code, unitKind := unitKind, unit := unit, ctx := ctx
    slot := ctxSlot ((s.teams.filter (fun t => t.ctx == ctx)).foldl (fun s t => plainFault s t.id .lostWrite) s) ctx }

theorem loseSlots_eq (s : State) (slots : List Nat) (unitKind unit : Nat) :
    loseSlots s slots unitKind unit = (slots.flatMap (ctxsOfSlot s)).eraseDups.foldl (loseCtx unitKind unit) s := rfl

/-- The state holds a team of the number and the context. -/
def Holds (n ctx : Nat) (s : State) : Prop := ∃ t ∈ s.teams, t.id = n ∧ t.ctx = ctx

theorem holds_loseTeam {ctx : Nat} (h : Holds n ctx s) (k : Nat) : Holds n ctx (plainFault s k .lostWrite) := by
  obtain ⟨t, ht, rfl, rfl⟩ := h
  refine ⟨_, List.mem_map_of_mem ht, ?_⟩
  dsimp only
  split
  · split <;> exact ⟨rfl, rfl⟩
  · exact ⟨rfl, rfl⟩

theorem lost_loseCtx {unitKind unit ctx : Nat} (hh : Holds n ctx s) (h : LostOrOn n s) : Lost n (loseCtx unitKind unit s ctx) := by
  obtain ⟨t, ht, hn, hc⟩ := hh
  have hl : Lost n ((s.teams.filter (fun t => t.ctx == ctx)).foldl (fun s t => plainFault s t.id .lostWrite) s) :=
    lost_foldl ⟨t, List.mem_filter.2 ⟨ht, by simp [hc]⟩, hn⟩ h
  obtain ⟨u, e, hu, he⟩ := hl
  exact ⟨u, e, by rw [State.team?, loseCtx, postRecord_teams]; exact hu, he⟩

/-- What a lost context does to another's teams leaves them so. -/
theorem loseCtx_keeps {P : State → Prop} (hp : ∀ s k, P s → P (plainFault s k .lostWrite)) (hc : ∀ s t : State, t.teams = s.teams → P s → P t)
    {unitKind unit ctx : Nat} (h : P s) : P (loseCtx unitKind unit s ctx) :=
  hc _ _ (postRecord_teams _ _) (List.foldlRecOn (motive := P) _ _ h fun _ hs _ _ => hp _ _ hs)

theorem lost_loseCtxs {unitKind unit ctx : Nat} {l : List Nat} (hm : ctx ∈ l) (hh : Holds n ctx s) (h : LostOrOn n s) :
    Lost n (l.foldl (loseCtx unitKind unit) s) := by
  have keepL : ∀ s c, Lost n s → Lost n (loseCtx unitKind unit s c) := fun s c h => loseCtx_keeps (P := Lost n) (fun _ k h => lost_loseTeam h k)
    (fun _ _ e h => by rwa [Lost, State.team?, e]) h
  have keepO : ∀ s c, LostOrOn n s → LostOrOn n (loseCtx unitKind unit s c) := fun s c h =>
    loseCtx_keeps (P := LostOrOn n) (fun _ k h => lostOrOn_loseTeam h k) (fun _ _ e h => by rwa [LostOrOn, State.team?, e]) h
  have keepH : ∀ s c, Holds n ctx s → Holds n ctx (loseCtx unitKind unit s c) := fun s c h =>
    loseCtx_keeps (P := Holds n ctx) (fun _ k h => holds_loseTeam h k) (fun _ _ e h => by rwa [Holds, e]) h
  obtain ⟨a, b, rfl⟩ := List.append_of_mem hm
  rw [List.foldl_append, List.foldl_cons]
  have ha : Holds n ctx (a.foldl (loseCtx unitKind unit) s) ∧ LostOrOn n (a.foldl (loseCtx unitKind unit) s) :=
    List.foldlRecOn (motive := fun s => Holds n ctx s ∧ LostOrOn n s) _ _ ⟨hh, h⟩ fun _ hs _ _ => ⟨keepH _ _ hs.1, keepO _ _ hs.2⟩
  exact List.foldlRecOn (motive := Lost n) _ _ (lost_loseCtx ha.1 ha.2) fun _ hs _ _ => keepL _ _ hs

end Lost

/-- Settles O39: a write from outside is performed piece by piece, a block is read and counted, and a lost line ends its teams. -/
theorem hostAccesses : Obligations.HostAccesses := by
  refine ⟨fun s pa data hr hm => ⟨fun ho ha => ?write, fun ho => by rw [exec_hostWrite hr hm, if_pos ho]⟩,
    fun s pa n hr hm => ⟨fun ho => by rw [exec_hostRead_memory hr hm, if_neg (by simp [ho])],
      fun ho => by rw [exec_hostRead_memory hr hm, if_pos ho]⟩,
    fun s block bad fixed hb => ⟨⟨_, exec_scrubPass hb [] [], rfl, counter_readBlock s block⟩, fun u hk hu => ?unit, fun hbad => ?lost⟩,
    fun s team addr t w ht he hw => ?uncommitted, fun s slice t hm ht he hd => ?l2⟩
  case write =>
    obtain ⟨m, g, p, e⟩ := writtenTo_outsideWrite ha pa true 0 data
    exact ⟨_, by rw [exec_hostWrite hr hm, if_neg (by simp [ho])], by rw [e], byteAt_outsideWrite ha pa true 0 data⟩
  case unit =>
    have hu' : unitOk u = true := by simpa [unitOk, hk] using hu
    have hok : [u].filter unitOk = [u] := by simp [hu']
    refine ⟨_, exec_scrubPass hb [u] [], ?_⟩
    rw [if_pos rfl, corrected, hok]
    show (postRecord s (unitRecord 6 u)).errSeq = _
    unfold postRecord
    split
    · rw [if_neg (by omega)]; rfl
    · rw [if_pos (by omega)]
  case lost =>
    have hf := corrected_memory s fixed
    have hmem : (readBlock (corrected s fixed) block).mem = s.mem := hf.1
    have hpo : (readBlock (corrected s fixed) block).poison = s.poison := hf.2
    refine ⟨_, exec_scrubPass hb fixed bad, fun a => ?_, fun i hi => ?_, fun k hk => ?_⟩
    all_goals rw [if_neg hbad]
    · rw [byteAt, blockLost_mem, hmem, byteAt]
    · rw [blockLost_poison, decide_eq_true (by omega), Bool.true_or]
    · rw [blockLost_poison, decide_eq_false (by omega), Bool.false_or, hpo]
  case uncommitted =>
    refine ⟨_, ⟨.poison, t.relaunches < 2, w.g, w.lane, addr, 0, 0x7FFF, 0, 0⟩, ?_, ending_endTeam _ ht he, rfl, decide_eq_true_iff⟩
    show execDirtyEvictionError (.uncommitted team addr) s = _
    simp only [execDirtyEvictionError, ht, hw]
  case l2 =>
    obtain ⟨d, hds, hsl, hct⟩ := hd
    have hmem : t.ctx ∈ (((s.dirty.filter (fun d => d.1 == slice)).map (·.2)).flatMap (ctxsOfSlot s)).eraseDups := by
      rw [List.mem_eraseDups, List.mem_flatMap]
      exact ⟨d.2, List.mem_map_of_mem (List.mem_filter.2 ⟨hds, by simp [hsl]⟩), hct⟩
    obtain ⟨u, e, hu, hen, hca⟩ := lost_loseCtxs (unitKind := 1) (unit := slice) hmem ⟨t, hm, rfl, rfl⟩
      ⟨t, ht, fun e h => by rw [he] at h; cases h⟩
    exact ⟨loseSlots s ((s.dirty.filter (fun d => d.1 == slice)).map (·.2)) 1 slice, e, rfl,
      by rw [loseSlots_eq, hu, Option.map_some, hen], hca⟩

end Sys2Proof.Machine
end

section
/-! SUPPORT. Lines and their directories (R191): the key of a line, which L1s hold it, and how a copy is taken and dropped. -/

namespace Sys2Proof.Machine
open Sys2Proof

/-! ### Keys -/

theorem lineKey_lineSlot (k : Nat) : lineKey (lineSlot k) (lineVa k) = k := by
  unfold lineKey lineSlot lineVa; omega

theorem lineSlot_lineKey (slot : Nat) {va : Nat} (h : va < 2 ^ 56) : lineSlot (lineKey slot va) = slot := by
  unfold lineKey lineSlot; omega

theorem lineKey_base (slot va : Nat) : lineKey slot (va / 128 * 128) = lineKey slot va := by
  unfold lineKey; omega

/-! ### Which L1s hold a line -/

theorem inL1_iff {s : State} {core line : Nat} : inL1 s core line = true ↔ ∃ l ∈ s.cdir, l.key = line ∧ l.has core = true := by
  simp [inL1]

theorem getLsbD_l1Bit (core : Nat) {i : Nat} (hi : i < 8) : (l1Bit core).getLsbD i = decide (core % 8 = i) := by
  simp [l1Bit, hi, eq_comm]

theorem getLsbD_foldl_l1Bit (l : List EvWrite) (b : BitVec 8) {i : Nat} (hi : i < 8) :
    (l.foldl (fun b e => b ||| l1Bit e.core) b).getLsbD i = (b.getLsbD i || l.any fun e => decide (e.core % 8 = i)) := by
  induction l generalizing b with
  | nil => simp
  | cons e r ih => rw [List.foldl_cons, ih, BitVec.getLsbD_or, getLsbD_l1Bit e.core hi, List.any_cons, Bool.or_assoc]

/-- The bits of a cluster's cores that have a write to the line on its way. -/
theorem getLsbD_evBits {s : State} {cl line i : Nat} (hi : i < 8) :
    (evBits s cl line).getLsbD i = true ↔ ∃ e ∈ s.ev, e.w.line = line ∧ e.core = cl * 8 + i := by
  have hf := getLsbD_foldl_l1Bit (s.ev.filter fun e => e.w.line == line && clusterOf e.core == cl) 0 hi
  rw [show (evBits s cl line).getLsbD i = _ from hf, show (0 : BitVec 8).getLsbD i = false from BitVec.getLsbD_zero]
  simp only [Bool.false_or, List.any_eq_true, List.mem_filter, Bool.and_eq_true, beq_iff_eq, decide_eq_true_eq, clusterOf]
  exact ⟨fun ⟨e, ⟨he, hl, hc⟩, hm⟩ => ⟨e, he, hl, by omega⟩, fun ⟨e, he, hl, hc⟩ => ⟨e, ⟨he, hl, by omega⟩, by omega⟩⟩

theorem has_iff {l : CLine} {core : Nat} : l.has core = true ↔ l.cluster = clusterOf core ∧ l.l1s.getLsbD (core % 8) = true := by
  simp [CLine.has]

theorem has_evBits {s : State} {l : CLine} {core line : Nat} (hc : l.cluster = clusterOf core)
    (h : (evBits s l.cluster line).getLsbD (core % 8) = true) : ∃ e ∈ s.ev, e.core = core ∧ e.w.line = line := by
  obtain ⟨e, he, hl, hcore⟩ := (getLsbD_evBits (Nat.mod_lt _ (by omega))).1 h
  exact ⟨e, he, by unfold clusterOf at hc; omega, hl⟩

/-! ### The directories -/

theorem cdir_homeLine (s : State) (line : Nat) : (homeLine s line).cdir = s.cdir := by
  unfold homeLine
  dsimp only
  split <;> rfl

theorem ev_homeLine (s : State) (line : Nat) : (homeLine s line).ev = s.ev := by
  unfold homeLine
  dsimp only
  split <;> rfl

theorem mem_cdir_setClusters {s : State} {line : Nat} {f : CLine → Option CLine} {l : CLine} :
    l ∈ (setClusters s line f).cdir ↔ ∃ a ∈ s.cdir, (if a.key == line then f a else some a) = some l := by
  rw [setClusters, cdir_homeLine]
  exact List.mem_filterMap

theorem ev_setClusters (s : State) (line : Nat) (f : CLine → Option CLine) : (setClusters s line f).ev = s.ev := ev_homeLine _ line

theorem cdir_markDirty (s : State) (slot va : Nat) : (markDirty s slot va).cdir = s.cdir := by
  unfold markDirty
  dsimp only
  split <;> rfl

theorem ev_markDirty (s : State) (slot va : Nat) : (markDirty s slot va).ev = s.ev := by
  unfold markDirty
  dsimp only
  split <;> rfl

theorem ev_dropCopies (s : State) (line : Nat) (keep : Option Nat) : (dropCopies s line keep).ev = s.ev := ev_setClusters s line _

/-- Dropped copies: only those L1s hold the line that have a write to it on its way. -/
theorem gone_dropCopies {s : State} {line core : Nat} (h : inL1 (dropCopies s line none) core line = true) :
    ∃ e ∈ s.ev, e.core = core ∧ e.w.line = line := by
  obtain ⟨l, hl, hk, hh⟩ := inL1_iff.1 h
  obtain ⟨a, ha, he⟩ := mem_cdir_setClusters.1 hl
  split at he
  next hka =>
    dsimp only at he
    split at he
    · cases he
    · cases he
      obtain ⟨hc, hb⟩ := has_iff.1 hh
      rw [show evBits s a.cluster line ||| 0 = evBits s a.cluster line from BitVec.or_zero, BitVec.getLsbD_and, Bool.and_eq_true] at hb
      exact has_evBits hc hb.2
  next hka =>
    cases he
    exact absurd (beq_iff_eq.2 hk) hka

/-- A copy that is taken: the core's L1 holds the line in the state. -/
theorem held_holdCopy (s : State) (core slot va leaf : Nat) (st : MState) :
    ∃ l ∈ (holdCopy s core slot va leaf st).cdir, l.key = lineKey slot va ∧ l.has core = true ∧ l.st = st := by
  have hbit : (l1Bit core).getLsbD (core % 8) = true := by simp [getLsbD_l1Bit core (Nat.mod_lt core (by omega : 0 < 8))]
  unfold holdCopy
  dsimp only
  split
  next h =>
    obtain ⟨l, hl⟩ := Option.isSome_iff_exists.1 h
    have hp := List.find?_some hl
    simp only [Bool.and_eq_true, beq_iff_eq] at hp
    refine ⟨{ l with st := st, l1s := l.l1s ||| l1Bit core }, mem_cdir_setClusters.2 ⟨l, List.mem_of_find?_eq_some hl, ?_⟩, hp.2, ?_, rfl⟩
    · simp [hp.1, hp.2]
    · exact has_iff.2 ⟨hp.1, by simp [hbit]⟩
  next =>
    refine ⟨⟨clusterOf core, slot, va / 128 * 128, st, l1Bit core, leaf⟩, ?_, lineKey_base slot va, has_iff.2 ⟨rfl, hbit⟩, rfl⟩
    rw [cdir_homeLine]
    simp

/-- A copy that an invalidation drops: it was there, and another's is not touched. -/
theorem inL1_dropL1 {s : State} {core line c : Nat} (h : inL1 (dropL1 s core line) c line = true) :
    inL1 s c line = true ∧ (c = core → ∃ e ∈ s.ev, e.w.line = line ∧ e.core = core) := by
  obtain ⟨l, hl, hk, hh⟩ := inL1_iff.1 h
  obtain ⟨a, ha, he⟩ := mem_cdir_setClusters.1 hl
  split at he
  next hka =>
    split at he
    next hne =>
      cases he
      refine ⟨inL1_iff.2 ⟨l, ha, hk, hh⟩, fun hc => ?_⟩
      rw [← hc] at hne
      exact absurd (has_iff.1 hh).1 (by simpa using hne)
    next hcl =>
      dsimp only at he
      split at he
      · cases he
      · cases he
        obtain ⟨hc, hb⟩ := has_iff.1 hh
        simp only [BitVec.getLsbD_and, BitVec.getLsbD_or, Bool.and_eq_true, Bool.or_eq_true] at hb
        refine ⟨inL1_iff.2 ⟨a, ha, hk, has_iff.2 ⟨hc, hb.1⟩⟩, fun hcc => ?_⟩
        subst hcc
        have hself : ¬(~~~(l1Bit c)).getLsbD (c % 8) = true := by
          simp [getLsbD_l1Bit c (Nat.mod_lt c (by omega : 0 < 8))]
        obtain ⟨e, he, hec, hel⟩ := has_evBits hc (hb.2.resolve_left hself)
        exact ⟨e, he, hel, hec⟩
  next hka =>
    cases he
    exact absurd (beq_iff_eq.2 hk) hka

end Sys2Proof.Machine
end

section
/-! SUPPORT. What the writes under way, the directory and the stale copies of a cluster become when writes are performed, a line is
recalled or owned (R191, R209). -/

namespace Sys2Proof.Machine
open Sys2Proof

/-- What a state's caches hold of lines: copies, writes under way and stale copies. -/
def State.lines (s : State) : List CLine × List EvWrite × List StaleLine := (s.cdir, s.ev, s.stale)

theorem lines_translate (s : State) (slot va : Nat) (k : AK) : (translate s slot va k).2.lines = s.lines := by
  have hnew : (translate.walkNew slot va k s).2.lines = s.lines := by
    unfold translate.walkNew
    split <;> rfl
  unfold translate
  split
  · split
    · rfl
    · exact hnew
  · exact hnew

theorem lines_of_translate {s s1 : State} {slot va : Nat} {k : AK} {x} (h : translate s slot va k = (x, s1)) : s1.lines = s.lines := by
  have ht := lines_translate s slot va k
  rwa [h] at ht

theorem lines_performLine (s : State) (slot : Nat) (x : Xlat) (w : GWrite) : (performLine s slot x w).lines = s.lines := by
  unfold performLine markDirty
  dsimp only
  split <;> rfl

theorem lines_foldl_performLine (s : State) (slot : Nat) (x : Xlat) (ws : List GWrite) :
    (ws.foldl (fun s w => performLine s slot x w) s).lines = s.lines :=
  List.foldlRecOn (motive := fun t : State => t.lines = s.lines) ws _ rfl fun t ht w _ => (lines_performLine t slot x w).trans ht

/-- Stale copies dropped: nothing else of a line changes, and none is added. -/
theorem foldl_dropStale (s : State) (line : Nat) (cs : List Nat) : ∃ st, cs.foldl (fun s c => dropStale s c line) s = { s with stale := st } ∧ st ⊆ s.stale := by
  refine List.foldlRecOn (motive := fun t : State => ∃ st, t = { s with stale := st } ∧ st ⊆ s.stale) cs _ ⟨s.stale, rfl, fun _ h => h⟩ ?_
  rintro _ ⟨st, rfl, hst⟩ c -
  exact ⟨_, rfl, fun l hl => hst (List.mem_of_mem_filter hl)⟩

/-- Writes to a line performed: they are no longer under way. -/
theorem performEv_lines (s : State) (line : Nat) (x : Xlat) (f : EvWrite → Bool) :
    (performEv s line x f).cdir = s.cdir ∧ (performEv s line x f).ev = s.ev.filter (fun e => !(e.w.line == line && f e)) ∧
      (performEv s line x f).stale ⊆ s.stale := by
  have key : ∀ (ws : List GWrite) (cs : List Nat),
      let t := cs.foldl (fun s c => dropStale s c line) (ws.foldl (fun s w => performLine s (lineSlot line) x w) s)
      t.cdir = s.cdir ∧ t.ev = s.ev ∧ t.stale ⊆ s.stale := fun ws cs => by
    obtain ⟨st, e, hst⟩ := foldl_dropStale (ws.foldl (fun s w => performLine s (lineSlot line) x w) s) line cs
    have hl := lines_foldl_performLine s (lineSlot line) x ws
    simp only [State.lines, Prod.mk.injEq] at hl
    obtain ⟨hc, he, hs⟩ := hl
    rw [hs] at hst
    simp only [e]
    exact ⟨hc, he, hst⟩
  obtain ⟨hc, he, hs⟩ := key _ _
  exact ⟨hc, congrArg (List.filter _) he, hs⟩

/-- The writes performed of a line that is recalled leave the directory; no write and no stale copy is added. -/
theorem performed_lines (s : State) (line : Nat) :
    (performed s line).cdir = s.cdir ∧ (performed s line).ev ⊆ s.ev ∧ (performed s line).stale ⊆ s.stale := by
  unfold performed
  split
  · split
    next x s1 h =>
      have hl := lines_of_translate h
      simp only [State.lines, Prod.mk.injEq] at hl
      obtain ⟨hc, he, hs⟩ := hl
      rw [← hc, ← he, ← hs]
      split
      · exact ⟨rfl, fun _ h => h, fun _ h => h⟩
      · obtain ⟨hc, he, hs⟩ := performEv_lines s1 line x fun e => !heldCommit s1 e.w.g.team
        exact ⟨hc, he ▸ List.filter_subset_self _, hs⟩
    next c s1 h =>
      have hl := lines_of_translate h
      simp only [State.lines, Prod.mk.injEq] at hl
      obtain ⟨hc, he, hs⟩ := hl
      rw [hc, he, hs]
      exact ⟨rfl, fun _ h => h, fun _ h => h⟩
  · exact ⟨rfl, fun _ h => h, fun _ h => h⟩

theorem ev_recallName_subset (s : State) (line : Nat) : (recallName s line).ev ⊆ s.ev := by
  have h : (recallName s line).ev = (performed s line).ev := ev_dropCopies (performed s line) line none
  exact h ▸ (performed_lines s line).2.1

theorem stale_recallName_subset (s : State) (line : Nat) : (recallName s line).stale ⊆ s.stale := fun l hl => by
  have h : (dropCopies (performed s line) line none).stale = (performed s line).stale := by
    unfold dropCopies setClusters homeLine
    dsimp only
    split <;> rfl
  exact (performed_lines s line).2.2 (h ▸ List.mem_of_mem_filter (recallName_eq s line ▸ hl))

theorem ev_aliasFill_subset (s : State) (slot va : Nat) (x : Xlat) : (aliasFill s slot va x).ev ⊆ s.ev := by
  unfold aliasFill
  dsimp only
  split
  · split
    · exact fun _ h => h
    · exact ev_recallName_subset s _
  · exact fun _ h => h

theorem ev_holdCopy (s : State) (core slot va leaf : Nat) (st : MState) : (holdCopy s core slot va leaf st).ev = s.ev := by
  unfold holdCopy
  dsimp only
  split
  · exact ev_setClusters s _ _
  · exact ev_homeLine _ _

/-- A recalled name: only those L1s hold the line that have a write to it on its way. -/
theorem gone_recallName {s : State} {line core : Nat} (h : inL1 (recallName s line) core line = true) :
    ∃ e ∈ (recallName s line).ev, e.core = core ∧ e.w.line = line := by
  have he : (recallName s line).ev = (performed s line).ev := ev_dropCopies (performed s line) line none
  exact he ▸ gone_dropCopies h

theorem gone_recallWhere {s : State} {slot va : Nat} {x : Xlat} {f : EvWrite → Bool} {core : Nat}
    (h : inL1 (recallWhere s slot va x f) core (lineKey slot va) = true) :
    ∃ e ∈ (recallWhere s slot va x f).ev, e.core = core ∧ e.w.line = lineKey slot va := by
  have he := ev_dropCopies (performEv (invalidateCopies s slot va x (fun _ => true) none) (lineKey slot va) x f) (lineKey slot va) none
  obtain ⟨e, hm, hr⟩ := gone_dropCopies h
  exact ⟨e, he.symm ▸ hm, hr⟩

/-! ### Ownership -/

/-- A granted line: the core owns it, and none of its writes is under way. -/
theorem grantOwned_lines (s : State) (core line : Nat) (x : Xlat) :
    (∀ e ∈ (grantOwned s core line x).ev, grantable core line e = false) ∧
      ∃ l ∈ (grantOwned s core line x).cdir, l.key = line ∧ l.has core = true ∧ l.st = .M := by
  unfold grantOwned
  dsimp only
  rw [ev_markDirty, ev_holdCopy, ev_dropCopies, (performEv_lines _ line x _).2.1, cdir_markDirty]
  refine ⟨fun e he => ?_, ?_⟩
  · have hk := (List.mem_filter.1 he).2
    by_contra hg
    rw [Bool.not_eq_false] at hg
    have hl : (e.w.line == line) = true := by
      unfold grantable at hg
      exact (Bool.and_eq_true_iff.1 hg).1
    simp [hg, hl] at hk
  · have hh := held_holdCopy (dropCopies (performEv (dropStale (invalidateCopies s (lineSlot line) (lineVa line) x (fun c => c != core)
      (some (clusterOf core))) core line) line x (grantable core line)) line (some core)) core (lineSlot line) (lineVa line) x.size .M
    rwa [lineKey_lineSlot] at hh

end Sys2Proof.Machine
end

section
/-! The claims of a line's events: a store's way to its line, the grant of ownership, an invalidation received, and a reduction that
arrives (R191 to R193, R207, R226). -/

namespace Sys2Proof.Machine
open Sys2Proof

/-! ### Woken groups -/

theorem foldl_wake (s : State) (l : List GRef) : ∃ ts n, l.foldl wake s = { s with teams := ts, seqN := n } := by
  refine List.foldlRecOn (motive := fun t : State => ∃ ts n, t = { s with teams := ts, seqN := n }) l wake ⟨s.teams, s.seqN, rfl⟩ ?_
  rintro _ ⟨ts, n, rfl⟩ r -
  exact ⟨_, _, rfl⟩

theorem cells_of_still {s t : State} (h : t.still = s.still) : t.cells = s.cells :=
  show t.still.cells = s.still.cells from h ▸ rfl

theorem hostHeld_of_still {s t : State} (h : t.still = s.still) : t.hostHeld = s.hostHeld :=
  show t.still.hostHeld = s.still.hostHeld from h ▸ rfl

/-- The waits for lines end: with no cell left to update and no access of the host held, groups are all that changes. -/
theorem wakeLines_told {s : State} (hc : s.cells = []) (hh : s.hostHeld = []) : ∃ ts n, wakeLines s = { s with teams := ts, seqN := n } := by
  unfold wakeLines
  dsimp only
  generalize s.teams.flatMap _ = l
  obtain ⟨ts, n, e⟩ := foldl_wake s l
  rw [e, flushCells_told (s := { s with teams := ts, seqN := n }) hc]
  refine ⟨ts, n, ?_⟩
  show List.foldl serveHost { s with teams := ts, seqN := n, hostHeld := [] } s.hostHeld = _
  rw [hh, List.foldl_nil, ← hh]

/-! ### STORE_QUEUE_DRAIN -/

section Drain

theorem granAt_performLine (s : State) (slot : Nat) (x : Xlat) (w : GWrite) (j : Nat) :
    granAt (performLine s slot x w) j = granAt (performAt s (x.loc w.va) x.tagged w) j := by
  unfold performLine markDirty
  dsimp only
  split <;> rfl

theorem ev_enterEv (s : State) (core : Nat) (w : GWrite) (leaf : Nat) : (enterEv s core w leaf).ev = s.ev ++ [⟨core, .core, w⟩] :=
  ev_markDirty _ w.slot w.va

/-- A write that becomes early visible: its core's L1 holds the line. -/
theorem inL1_enterEv (s : State) (core : Nat) (w : GWrite) (leaf : Nat) : inL1 (enterEv s core w leaf) core w.line = true := by
  have key : ∀ st, inL1 (markDirty { holdCopy s core w.slot w.va leaf st with ev := s.ev ++ [⟨core, .core, w⟩] } w.slot w.va) core
      w.line = true := fun st => by
    obtain ⟨l, hl, hk, hh, -⟩ := held_holdCopy s core w.slot w.va leaf st
    exact inL1_iff.2 ⟨l, (cdir_markDirty _ w.slot w.va).symm ▸ hl, hk, hh⟩
  exact key _

theorem drainWrite_window {s : State} {core : Nat} {w : GWrite} {cl off : Nat} (hz : zoneOf core w.va = .window cl off) :
    drainWrite s core w = performAt s (sramLoc cl off) true w := by
  rw [drainWrite, hz]

theorem drainWrite_mapped {s s1 : State} {core : Nat} {w : GWrite} {x : Xlat} (hz : zoneOf core w.va = .mapped)
    (ht : translate s w.slot w.va .write = (.ok x, s1)) (hp : x.peer = false) :
    drainWrite s core w = if ownsLine (aliasFill s1 w.slot w.va x) core w.line && !redAhead (aliasFill s1 w.slot w.va x) core w then
      performLine (aliasFill s1 w.slot w.va x) w.slot x w else enterEv (aliasFill s1 w.slot w.va x) core w x.size := by
  simp [drainWrite, hz, ht, hp]

/-- The state whose group's store queue has lost its head. -/
def headLeft (s : State) (r : GRef) (rest : List GWrite) : State := s.modGroup r (fun g => { g with storeQ := rest })

variable {s : State} {r : GRef} {t : Team} {g : Group} {w : GWrite} {rest : List GWrite} (ht : s.team? r.team = some t)
  (hg : s.group? r = some g) (hq : g.storeQ = w :: rest) (hu : unbound s r = false) (hb : heldBack s t.core w = false)

include ht hg hq hu hb in
theorem exec_storeQueueDrain : exec (.storeQueueDrain r) s = .next (drainWrite (headLeft s r rest) t.core w) := by
  show execStoreQueueDrain r s = _
  simp [execStoreQueueDrain, ht, hg, hq, hu, hb, headLeft]

include hg in
theorem group?_headLeft {u : State} (h : u.teams = (headLeft s r rest).teams) : u.group? r = some { g with storeQ := rest } := by
  rw [group?_of_teams h]
  exact group?_modGroup_same _ (fun _ => rfl) hg

theorem drained_window {cl off : Nat} (hz : zoneOf t.core w.va = .window cl off) :
    granAt (drainWrite (headLeft s r rest) t.core w) (sramLoc cl off) = Gran.write true (granAt s (sramLoc cl off)) w ∧
      ∀ a, a / 16 ≠ sramLoc cl off / 16 → byteAt (drainWrite (headLeft s r rest) t.core w) a = byteAt s a := by
  rw [drainWrite_window hz]
  exact ⟨granAt_performAt_same (headLeft s r rest) _ true w, fun a ha => byteAt_performAt (headLeft s r rest) _ true w a (.inl ha)⟩

/-- A store whose core owns the line is performed there. -/
theorem performLine_spec (s : State) (slot : Nat) (x : Xlat) (w : GWrite) :
    granAt (performLine s slot x w) (x.loc w.va) = Gran.write x.tagged (granAt s (x.loc w.va)) w ∧
      ∀ a, a / 16 ≠ x.loc w.va / 16 → byteAt (performLine s slot x w) a = byteAt s a :=
  ⟨(granAt_performLine s slot x w _).trans (granAt_performAt_same s _ x.tagged w),
    fun a ha => (byteAt_performLine s slot x w a).trans (byteAt_performAt s _ x.tagged w a (.inl ha))⟩

end Drain

theorem storeQueueDrain_spec (s : State) (r : GRef) (t : Team) (g : Group) (w : GWrite) (rest : List GWrite) (ht : s.team? r.team = some t)
    (hg : s.group? r = some g) (hq : g.storeQ = w :: rest) (hu : unbound s r = false) (hb : heldBack s t.core w = false) :
    let gives := fun (P : State → Prop) => ∃ u, exec (.storeQueueDrain r) s = .next u ∧ u.group? r = some { g with storeQ := rest } ∧ P u
    (∀ cl off, zoneOf t.core w.va = .window cl off → gives fun u =>
      granAt u (sramLoc cl off) = Gran.write true (granAt s (sramLoc cl off)) w ∧ ∀ a, a / 16 ≠ sramLoc cl off / 16 → byteAt u a = byteAt s a) ∧
    (zoneOf t.core w.va = .mapped → ∀ x s1, translate (headLeft s r rest) w.slot w.va .write = (.ok x, s1) → x.peer = false →
      let v := aliasFill s1 w.slot w.va x
      (ownsLine v t.core w.line = true → redAhead v t.core w = false → gives fun u =>
        granAt u (x.loc w.va) = Gran.write x.tagged (granAt v (x.loc w.va)) w ∧ ∀ a, a / 16 ≠ x.loc w.va / 16 → byteAt u a = byteAt v a) ∧
      (ownsLine v t.core w.line = false ∨ redAhead v t.core w = true → gives fun u => u.ev = v.ev ++ [⟨t.core, .core, w⟩] ∧
        (∀ e ∈ v.ev, e ∈ s.ev) ∧ inL1 u t.core w.line = true)) := by
  have hx := exec_storeQueueDrain ht hg hq hu hb
  refine ⟨fun cl off hz => ⟨_, hx, group?_headLeft hg ?_, drained_window hz⟩, fun hz x s1 hx1 hp => ?_⟩
  · rw [drainWrite_window hz]
    rfl
  rw [drainWrite_mapped hz hx1 hp] at hx
  have hteams : (aliasFill s1 w.slot w.va x).teams = (headLeft s r rest).teams := by
    rw [aliasFill_teams, ← translate_teams (headLeft s r rest) w.slot w.va .write, hx1]
  refine ⟨fun hown hred => ?_, fun hno => ?_⟩
  · rw [hown, hred, Bool.not_false, Bool.and_true, if_pos rfl] at hx
    exact ⟨_, hx, group?_headLeft hg ((performLine_teams _ _ x w).trans hteams), performLine_spec _ w.slot x w⟩
  · rw [if_neg (by cases hno with
      | inl h => simp [h]
      | inr h => simp [h])] at hx
    refine ⟨_, hx, group?_headLeft hg ((enterEv_teams _ t.core w x.size).trans hteams), ev_enterEv _ t.core w x.size, fun e he => ?_,
      inL1_enterEv _ t.core w x.size⟩
    have hl := lines_of_translate hx1
    simp only [State.lines, Prod.mk.injEq] at hl
    obtain ⟨-, hev, -⟩ := hl
    exact hev ▸ ev_aliasFill_subset s1 w.slot w.va x he

/-! ### OWNERSHIP_GRANT -/

section Grant

variable {s s1 : State} {core line : Nat} {x : Xlat} (hown : engineOwns s line = false)
  (hw : ∀ w ∈ grantWrites s core line, waitsPage s w.slot w.va (.store w.g.team) = false ∧ heldCommit s w.g.team = false ∧
    ∀ q ∈ s.redQ, q.g ≠ w.g)
  (ht : translate s (lineSlot line) (lineVa line) .write = (.ok x, s1)) (hp : x.peer = false)

include hw in
theorem grantLine_uncommitted : grantLine s core line = grantOne s core line := by
  have hn : ((grantWrites s core line).map (fun w => w.g.team)).filter (heldCommit s) = [] := by
    rw [List.filter_eq_nil_iff]
    intro n hn
    obtain ⟨w, hm, rfl⟩ := List.mem_map.1 hn
    simp [(hw w hm).2.1]
  rw [grantLine, hn]
  rfl

include hown hw ht hp in
theorem grantOne_granted : grantOne s core line = grantOwned (aliasFill s1 (lineSlot line) (lineVa line) x) core line x := by
  have hb := beyond_of_translate ht
  have hr : s1.redQ = s.redQ := show s1.beyond.redQ = s.beyond.redQ from hb ▸ rfl
  have hwait : ((grantWrites s core line).any fun w => waitsPage s w.slot w.va (.store w.g.team)) = false := by
    rw [List.any_eq_false]
    exact fun w hm => by simp [(hw w hm).1]
  have hred : (s1.redQ.filter fun q => (grantWrites s core line).any fun w => q.g == w.g && q.id < w.seq &&
      samePlace s1 core w.slot w.va q.slot q.va) = [] := by
    rw [List.filter_eq_nil_iff]
    intro q hq
    rw [Bool.not_eq_true, List.any_eq_false]
    exact fun w hm => by simp [(hw w hm).2.2 q (hr ▸ hq)]
  have hahead : ((grantWrites s core line).any (redAhead s1 core)) = false := by
    rw [List.any_eq_false]
    intro w hm
    rw [Bool.not_eq_true, redAhead, List.any_eq_false]
    exact fun q hq => by simp [(hw w hm).2.2 q (hr ▸ hq)]
  simp only [grantOne, hown, hwait, Bool.or_self, Bool.false_eq_true, if_false, ht, hp, hred, List.map_nil, List.foldl_nil, hahead]

end Grant

theorem ownershipGrant_spec (s : State) (core line : Nat) (x : Xlat) (s1 : State) (hne : grantWrites s core line ≠ [])
    (hown : engineOwns s line = false)
    (hw : ∀ w ∈ grantWrites s core line, waitsPage s w.slot w.va (.store w.g.team) = false ∧ heldCommit s w.g.team = false ∧
      ∀ q ∈ s.redQ, q.g ≠ w.g)
    (ht : translate s (lineSlot line) (lineVa line) .write = (.ok x, s1)) (hp : x.peer = false) (hc : s.cells = []) (hh : s.hostHeld = []) :
    ∃ t, exec (.ownershipGrant core line) s = .next t ∧ (∀ e ∈ t.ev, grantable core line e = false) ∧
      (∃ l ∈ t.cdir, l.key = line ∧ l.has core = true ∧ l.st = .M) := by
  have hline : grantLine s core line = grantOwned (aliasFill s1 (lineSlot line) (lineVa line) x) core line x :=
    (grantLine_uncommitted hw).trans (grantOne_granted hown hw ht hp)
  have hstill := still_grantLine s core line
  have hspec := grantOwned_lines (aliasFill s1 (lineSlot line) (lineVa line) x) core line x
  rw [← hline] at hspec
  have hx : exec (.ownershipGrant core line) s =
      .next (if (grantLine s core line).ev == s.ev then grantLine s core line else wakeLines (grantLine s core line)) := by
    show execOwnershipGrant core line s = _
    simp [execOwnershipGrant, hne]
  refine ⟨_, hx, ?_⟩
  split
  · exact hspec
  · obtain ⟨ts, n, e⟩ := wakeLines_told ((cells_of_still hstill).trans hc) ((hostHeld_of_still hstill).trans hh)
    rw [e]
    exact hspec

/-! ### INVALIDATION_RECEIVE -/

theorem invalidationReceive_stale (s : State) (core line : Nat) (h : (staleOf s core line).isSome = true) :
    ∃ t, exec (.invalidationReceive core line) s = .next t ∧ t = { s with stale := t.stale } ∧
      ∀ l, l ∈ t.stale ↔ l ∈ s.stale ∧ ¬(l.core = core ∧ lineKey l.slot l.va = line) := by
  refine ⟨dropStale s core line, ?_, rfl, fun l => ?_⟩
  · show execInvalidationReceive core line s = _
    rw [execInvalidationReceive, if_pos h]
  · simp [dropStale, StaleLine.key, imp_iff_not_or]

theorem invalidationReceive_copy (s : State) (core line : Nat) (hst : (staleOf s core line).isSome = false)
    (hin : inL1 s core line = true) (hask : ∃ e ∈ s.ev, e.w.line = line ∧ e.core ≠ core)
    (hloc : ∃ x, locate s (lineSlot line) (lineVa line) = some x) :
    ∃ t l, exec (.invalidationReceive core line) s = .next t ∧
        t.stale = s.stale ++ [l] ∧ l.core = core ∧ lineKey l.slot l.va = line ∧ (∀ a, byteAt t a = byteAt s a) ∧
        ∀ c, inL1 t c line = true → inL1 s c line = true ∧ (c = core → ∃ e ∈ s.ev, e.w.line = line ∧ e.core = core) := by
  obtain ⟨x, hx⟩ := hloc
  have hasked : ownershipAsked s core line = true := by
    obtain ⟨e, he, hl, hc⟩ := hask
    exact List.any_eq_true.2 ⟨e, he, by simp [hl, hc]⟩
  refine ⟨{ dropL1 s core line with stale := s.stale ++ [snapshot s core (lineSlot line) (lineVa line) (askedOutside s core line) x] },
    snapshot s core (lineSlot line) (lineVa line) (askedOutside s core line) x, ?_, rfl, rfl,
    (lineKey_base _ _).trans (lineKey_lineSlot line), fun a => ?_, fun c hc => inL1_dropL1 hc⟩
  · show execInvalidationReceive core line s = _
    simp [execInvalidationReceive, hst, hin, hasked, hx]
  · show byteAt (homeLine _ line) a = _
    unfold homeLine
    dsimp only
    split <;> rfl

/-! ### RED_ARRIVAL -/

/-- What a reduction's write is leaves memory as it was. -/
theorem byteAt_redWrite (s : State) (q : RedReq) (g : Gran) (a : Nat) : byteAt (redWrite s q g).2 a = byteAt s a := by
  have hword : ∀ t, (wordTag s q.birth q.site (!q.counted) t).2.mem = s.mem := fun t => by
    cases t with
    | known x => rfl
    | born e =>
      obtain ⟨ro, hro, -⟩ := intern_spec s q.birth q.site (!q.counted)
      show (intern s q.birth q.site (!q.counted)).2.mem = s.mem
      rw [hro]
  have hmem : (redWrite s q g).2.mem = s.mem := by
    unfold redWrite
    dsimp only
    rw [apply_ite State.mem]
    exact (ite_self _).trans (hword _)
  rw [byteAt, hmem, byteAt]

/-- The window's granule once a reduction is applied to it. -/
def redApplied (s : State) (q : RedReq) (loc : Nat) : State :=
  performAt (redWrite s q (granAt s loc)).2 loc true (redWrite s q (granAt s loc)).1

/-- Memory has the reduction applied, and it waits no longer. -/
def Arrived (s : State) (q : RedReq) (loc : Nat) (t : State) : Prop :=
  (∀ p ∈ t.redQ, p.id ≠ q.id) ∧
    granAt t loc = Gran.write true (granAt (redWrite s q (granAt s loc)).2 loc) (redWrite s q (granAt s loc)).1 ∧
    ∀ a, a / 16 ≠ loc / 16 → byteAt t a = byteAt s a

theorem Arrived.redApplied (s : State) (q : RedReq) (loc : Nat) : Arrived s q loc { Machine.redApplied s q loc with
    redQ := (Machine.redApplied s q loc).redQ.filter (fun p => p.id != q.id) } := by
  have hb := byteAt_redWrite s q (granAt s loc)
  unfold Machine.redApplied Arrived
  generalize redWrite s q (granAt s loc) = y at hb ⊢
  obtain ⟨w, u⟩ := y
  exact ⟨fun p hp => by simpa using (List.mem_filter.1 hp).2, granAt_performAt_same u loc true w,
    fun a ha => (byteAt_performAt u loc true w a (.inl ha)).trans (hb a)⟩

theorem Arrived.wakeLines {s t : State} {q : RedReq} {loc : Nat} (h : Arrived s q loc t) (hc : t.cells = []) (hh : t.hostHeld = []) :
    Arrived s q loc (Machine.wakeLines t) := by
  obtain ⟨ts, n, e⟩ := wakeLines_told hc hh
  rw [e]
  exact h

theorem redArrival_spec (s : State) (q : RedReq) (cl off : Nat) (hf : s.redQ.find? (fun p => p.id == q.id) = some q)
    (hb : redBlocked s q = false) (hz : zoneOf q.core q.va = .window cl off) (hown : engineOwns s (granKey (sramLoc cl off)) = false)
    (hc : s.cells = []) (hh : s.hostHeld = []) :
    ∃ t, exec (.redArrival q.id) s = .next t ∧ (∀ p ∈ t.redQ, p.id ≠ q.id) ∧
      granAt t (sramLoc cl off) = Gran.write true (granAt (redWrite s q (granAt s (sramLoc cl off))).2 (sramLoc cl off)) (redWrite s q (granAt s (sramLoc cl off))).1 ∧
      ∀ a, a / 16 ≠ sramLoc cl off / 16 → byteAt t a = byteAt s a := by
  have happ : applyRedId s q.id = { redApplied s q (sramLoc cl off) with
      redQ := (redApplied s q (sramLoc cl off)).redQ.filter (fun p => p.id != q.id) } := by
    simp only [applyRedId, hf, applyRed, hb, hz, hown, Bool.false_eq_true, if_false]
    rfl
  have hstill := still_applyRedId s q.id
  have harr : Arrived s q (sramLoc cl off) (applyRedId s q.id) := happ ▸ Arrived.redApplied s q (sramLoc cl off)
  have hx : exec (.redArrival q.id) s = .next (if (applyRedId s q.id).redQ == s.redQ then applyRedId s q.id else wakeLines (applyRedId s q.id)) :=
    rfl
  refine ⟨_, hx, ?_⟩
  split
  · exact harr
  · exact harr.wakeLines ((cells_of_still hstill).trans hc) ((hostHeld_of_still hstill).trans hh)

/-! ### IINV_ACK -/

theorem iinvAck_wakes (s : State) (r : GRef) (g : Group) (w : Waiting) (hg : s.group? r = some g) (hw : g.wait = some w) (hy : w.why = .iinv) :
    Claim.wakes (.iinvAck r) s r g := by
  refine wakes_of_wake hg ?_
  show Host.Outcome.next (wakeIf _ _ _ _) = _
  rw [wakeIf_due hg hw (by simp [hy])]

theorem coherenceEvents : Claim.CoherenceEvents :=
  ⟨storeQueueDrain_spec, ownershipGrant_spec, fun s core line => ⟨invalidationReceive_stale s core line, invalidationReceive_copy s core line⟩,
    redArrival_spec, iinvAck_wakes⟩

end Sys2Proof.Machine
end

section
/-! The claims of recalls and invalidations: no copy stays where a line is recalled, a second name replaces the first, and an
invalidation leaves no entry that it names (R191, R195, R209, R212). -/

namespace Sys2Proof.Machine
open Sys2Proof

/-! ### Recalled lines -/

/-- No L1 holds the line but one with a write to it on its way. -/
def Recalled (line : Nat) (t : State) : Prop := ∀ core, inL1 t core line = true → ∃ e ∈ t.ev, e.core = core ∧ e.w.line = line

theorem Recalled.recallName (s : State) (line : Nat) : Recalled line (Machine.recallName s line) := fun _ => gone_recallName

theorem Recalled.recallWhere (s : State) (line : Nat) (x : Xlat) (f : EvWrite → Bool) :
    Recalled line (Machine.recallWhere s (lineSlot line) (lineVa line) x f) := fun core h => by
  have h' : inL1 (Machine.recallWhere s (lineSlot line) (lineVa line) x f) core (lineKey (lineSlot line) (lineVa line)) = true := by
    rw [lineKey_lineSlot]
    exact h
  obtain ⟨e, he, hc, hl⟩ := gone_recallWhere h'
  exact ⟨e, he, hc, hl.trans (lineKey_lineSlot line)⟩

theorem Recalled.recallLine {s : State} {line : Nat} (hp : ∀ x, locate s (lineSlot line) (lineVa line) = some x → x.peer = false) :
    Recalled line (Machine.recallLine s line) := by
  unfold Machine.recallLine
  dsimp only
  split
  · exact Recalled.recallName s line
  next x hx =>
    rw [hp x hx, if_neg Bool.false_ne_true]
    split
    · split
      · exact Recalled.recallWhere _ line _ _
      · exact Recalled.recallWhere _ line x _
    · exact Recalled.recallWhere s line x _

/-- A block read or written keeps what the caches hold. -/
theorem Recalled.writeBlock {t : State} {line : Nat} (h : Recalled line t) (b b' : Nat) (comp : Bool) :
    Recalled line (Machine.writeBlock (readBlock t b) b' comp) := h

theorem directoryEviction_gone {s : State} {line : Nat} (hp : ∀ x, locate s (lineSlot line) (lineVa line) = some x → x.peer = false) :
    ∃ t, exec (.directoryEviction line) s = .next t ∧ Recalled line t := by
  refine ⟨_, rfl, ?_⟩
  have h := Recalled.recallLine hp
  split
  · split
    · exact h
    · exact h.writeBlock _ _ _
  · exact h

theorem aliasRecordDrop_gone {s : State} {line p slot va : Nat} (hf : s.aliases.find? (fun a => a.1 == p) = some (p, slot, va))
    (hk : lineKey slot va = line) : ∃ t, exec (.aliasRecordDrop p) s = .next t ∧ Recalled line t ∧ ∀ a ∈ t.aliases, a.1 ≠ p := by
  refine ⟨{ recallName s line with
        icache := s.icache.filter (fun l => !(l.slot == slot && l.va == va))
        aliases := s.aliases.filter (fun b => b.1 != p) }, ?_, Recalled.recallName s line, fun a ha => by simpa using (List.mem_filter.1 ha).2⟩
  show execAliasRecordDrop p s = _
  rw [execAliasRecordDrop, hf, ← hk]

/-! ### Second names -/

/-- A fill records its line's name, in place of one that the line had. -/
theorem find_aliasFill (s : State) (slot va : Nat) (x : Xlat) :
    (aliasFill s slot va x).aliases.find? (fun a => a.1 == x.loc va / 128) = some (x.loc va / 128, slot, va / 128 * 128) := by
  unfold aliasFill
  dsimp only
  split
  next a ha =>
    have hp : (a.1 == x.loc va / 128) = true := by simpa using List.find?_some ha
    split
    next hn =>
      rw [ha, ← beq_iff_eq.1 hp, ← beq_iff_eq.1 hn]
    next hn =>
      have hnone : ∀ l : List (Nat × Nat × Nat), (l.filter fun b => b.1 != x.loc va / 128).find? (fun a => a.1 == x.loc va / 128) = none := fun l => by
        simp
      simp [List.find?_append, hnone]
  next ha => simp [List.find?_append, ha]

theorem aliasRecall_names (s : State) (line slot : Nat) (va : Word) (x : Xlat) (s1 : State) (hva : va.toNat < 2 ^ 55)
    (ht : translate s slot va.toNat .read = (.ok x, s1)) (hp : x.peer = false) (hl : x.loc va.toNat / 128 = line) :
    ∃ t, exec (.aliasRecall line slot va) s = .next t ∧ t.aliases.find? (fun a => a.1 == line) = some (line, slot, va.toNat / 128 * 128) := by
  refine ⟨aliasFill s1 slot va.toNat x, ?_, hl ▸ find_aliasFill s1 slot va.toNat x⟩
  show execAliasRecall line slot va s = _
  simp [execAliasRecall, (zoneOf_mapped_iff 0 va.toNat).2 hva, ht, hp, hl]

/-! ### Invalidations -/

/-- Every name of the caches' lines is an address of 56 bits. -/
def NamesShort (s : State) : Prop := (∀ l ∈ s.cdir, l.va < 2 ^ 56) ∧ (∀ e ∈ s.ev, e.w.va < 2 ^ 56) ∧ ∀ l ∈ s.stale, l.va < 2 ^ 56

/-- What a state's ports hold of translations, and its text caches. -/
def State.xlats (s : State) : List Xlat × List WalkEnt × List ILine := (s.tlb, s.walks, s.icache)

/-- The TLBs and walk caches hold nothing new but of one slot, and the text caches hold the same. -/
def OnlyFills (n : Nat) (s t : State) : Prop :=
  (∀ x ∈ t.tlb, x ∈ s.tlb ∨ x.slot = n) ∧ (∀ w ∈ t.walks, w ∈ s.walks ∨ w.slot = n) ∧ t.icache = s.icache

theorem OnlyFills.of_xlats {n : Nat} {s t : State} (h : t.xlats = s.xlats) : OnlyFills n s t := by
  simp only [State.xlats, Prod.mk.injEq] at h
  obtain ⟨h1, h2, h3⟩ := h
  exact ⟨fun x hx => .inl (h1 ▸ hx), fun w hw => .inl (h2 ▸ hw), h3⟩

theorem OnlyFills.trans {n : Nat} {s t u : State} (h : OnlyFills n s t) (h' : OnlyFills n t u) : OnlyFills n s u := by
  obtain ⟨a, b, c⟩ := h
  obtain ⟨a', b', c'⟩ := h'
  exact ⟨fun x hx => (a' x hx).elim (a x) .inr, fun w hw => (b' w hw).elim (b w) .inr, c'.trans c⟩

theorem slot_of_leafGrant {slot va : Nat} {k : AK} {w : Walk × Option (Nat × Nat)} {y : Xlat × Nat × Bool}
    (h : leafGrant slot va k w = .ok y) : y.1.slot = slot := by
  unfold leafGrant at h
  split at h
  · cases h
  next loc e level pick =>
    cases pick with
    | none =>
      dsimp only at h
      split at h
      · cases h; rfl
      · cases h
    | some p =>
      dsimp only at h
      split at h
      · cases h; rfl
      · cases h

theorem slot_of_walkCached {s : State} {slot va : Nat} {k : AK} {y : Xlat × Nat × Bool} (h : walkCached s slot va k = .ok y) : y.1.slot = slot := by
  unfold walkCached at h
  split at h
  · split at h
    next hg =>
      cases h
      exact slot_of_leafGrant hg
    next => exact slot_of_leafGrant h
  · exact slot_of_leafGrant h

theorem slot_of_walkPtrs {s : State} {port slot va n level table : Nat} {w : WalkEnt} (h : w ∈ walkPtrs s port slot va n level table) :
    w.slot = slot := by
  induction n generalizing level table with
  | zero => cases h
  | succ n ih =>
    rw [walkPtrs] at h
    split at h
    · cases h
    · cases List.mem_cons.1 h with
      | inl h => rw [h]
      | inr h => exact ih h

theorem slot_of_keepWalks {s : State} {slot va : Nat} {w : WalkEnt} (h : w ∈ keepWalks s slot va) : w ∈ s.walks ∨ w.slot = slot := by
  unfold keepWalks at h
  split at h
  · cases List.mem_append.1 h with
    | inl h => exact .inl (List.mem_of_mem_filter h)
    | inr h => exact .inr (slot_of_walkPtrs h)
  · exact .inl h

/-- A translation fills entries of its own slot alone. -/
theorem OnlyFills.translate (s : State) (slot va : Nat) (k : AK) : OnlyFills slot s (Machine.translate s slot va k).2 := by
  have hnew : OnlyFills slot s (translate.walkNew slot va k s).2 := by
    unfold translate.walkNew
    split
    · exact .of_xlats rfl
    next x loc free hw =>
      refine ⟨fun y hy => ?_, fun w hw => slot_of_keepWalks hw, rfl⟩
      cases List.mem_append.1 hy with
      | inl h => exact .inl (List.mem_of_mem_filter h)
      | inr h =>
        rw [List.mem_singleton.1 h]
        exact .inr (slot_of_walkCached hw)
  unfold Machine.translate
  split
  · split
    · exact .of_xlats rfl
    · exact hnew
  · exact hnew

theorem xlats_homeLine (s : State) (line : Nat) : (homeLine s line).xlats = s.xlats := by
  unfold homeLine
  dsimp only
  split <;> rfl

theorem xlats_performLine (s : State) (slot : Nat) (x : Xlat) (w : GWrite) : (performLine s slot x w).xlats = s.xlats := by
  unfold performLine markDirty
  dsimp only
  split <;> rfl

theorem xlats_performEv (s : State) (line : Nat) (x : Xlat) (f : EvWrite → Bool) : (performEv s line x f).xlats = s.xlats := by
  have hline : ∀ ws : List GWrite, (ws.foldl (fun s w => performLine s (lineSlot line) x w) s).xlats = s.xlats := fun ws =>
    List.foldlRecOn (motive := fun t : State => t.xlats = s.xlats) ws _ rfl fun t ht w _ => (xlats_performLine t (lineSlot line) x w).trans ht
  have hstale : ∀ (u : State) (cs : List Nat), (cs.foldl (fun s c => dropStale s c line) u).xlats = u.xlats := fun u cs => by
    obtain ⟨st, e, -⟩ := foldl_dropStale u line cs
    rw [e]
    rfl
  exact (hstale _ _).trans (hline _)

theorem OnlyFills.recallName (s : State) (line : Nat) : OnlyFills (lineSlot line) s (Machine.recallName s line) := by
  have hperf : OnlyFills (lineSlot line) s (performed s line) := by
    unfold performed
    split
    · have ht := OnlyFills.translate s (lineSlot line) (lineVa line) .write
      split
      next x s1 h =>
        rw [h] at ht
        split
        · exact ht
        · exact ht.trans (.of_xlats (xlats_performEv s1 line x _))
      next c s1 h =>
        rw [h] at ht
        exact ht
    · exact .of_xlats rfl
  refine hperf.trans (.of_xlats ?_)
  exact xlats_homeLine _ line

theorem va_of_mem_dropCopies {s : State} {line : Nat} {l : CLine} (h : l ∈ (dropCopies s line none).cdir) :
    ∃ a ∈ s.cdir, a.va = l.va := by
  obtain ⟨a, ha, he⟩ := mem_cdir_setClusters.1 h
  refine ⟨a, ha, ?_⟩
  split at he
  · dsimp only at he
    split at he
    · cases he
    · cases he; rfl
  · cases he; rfl

theorem NamesShort.recallName {s : State} (h : NamesShort s) (line : Nat) : NamesShort (Machine.recallName s line) := by
  obtain ⟨hc, he, hs⟩ := h
  refine ⟨fun l hl => ?_, fun e hm => he e (ev_recallName_subset s line hm), fun l hm => hs l (stale_recallName_subset s line hm)⟩
  rw [recallName_eq] at hl
  obtain ⟨hcdir, -, -⟩ := performed_lines s line
  obtain ⟨a, ha, hv⟩ := va_of_mem_dropCopies hl
  rw [← hv]
  exact hc a (hcdir ▸ ha)

/-- The slot, address and leaf of every line in a cache. -/
def cachedNames (s : State) : List (Nat × Nat × Nat) :=
  (s.cdir.map (fun l => (l.slot, l.va, l.leaf))) ++ (s.ev.map (fun e => (e.w.slot, e.w.va, 1))) ++ (s.stale.map (fun l => (l.slot, l.va, 1)))

theorem NamesShort.cachedNames {s : State} (h : NamesShort s) {k : Nat × Nat × Nat} (hk : k ∈ Machine.cachedNames s) : k.2.1 < 2 ^ 56 := by
  obtain ⟨hc, he, hs⟩ := h
  simp only [Machine.cachedNames, List.mem_append, List.mem_map] at hk
  obtain (⟨l, hl, rfl⟩ | ⟨e, hm, rfl⟩) | ⟨l, hl, rfl⟩ := hk
  · exact hc l hl
  · exact he e hm
  · exact hs l hl

/-- The lines of a slot that an invalidation writes back. -/
def cleanedLines (s : State) (n : Nat) (f : Nat → Nat → Bool) : List Nat :=
  (((cachedNames s).filter (fun k => k.1 == n && f k.2.1 k.2.2)).map (fun k => lineKey k.1 k.2.1)).eraseDups

theorem lineSlot_of_mem_cleanedLines {s : State} (h : NamesShort s) {n line : Nat} {f : Nat → Nat → Bool} (hm : line ∈ cleanedLines s n f) :
    lineSlot line = n := by
  obtain ⟨k, hk, rfl⟩ := List.mem_map.1 (List.mem_eraseDups.1 hm)
  obtain ⟨hk, hp⟩ := List.mem_filter.1 hk
  exact (lineSlot_lineKey k.1 (h.cachedNames hk)).trans (beq_iff_eq.1 (Bool.and_eq_true_iff.1 hp).1)

/-- Lines of one slot written back and invalidated: entries of that slot alone are filled. -/
theorem cleanLines_fills {s : State} (h : NamesShort s) (n : Nat) (f : Nat → Nat → Bool) :
    NamesShort (cleanLines s n f) ∧ (∀ x ∈ (cleanLines s n f).tlb, x ∈ s.tlb ∨ x.slot = n) ∧
      (∀ w ∈ (cleanLines s n f).walks, w ∈ s.walks ∨ w.slot = n) ∧
      (cleanLines s n f).icache = s.icache.filter (fun l => !(l.slot == n && f l.va l.leaf)) := by
  have hfold : NamesShort ((cleanedLines s n f).foldl recallName s) ∧ OnlyFills n s ((cleanedLines s n f).foldl recallName s) :=
    List.foldlRecOn (motive := fun t : State => NamesShort t ∧ OnlyFills n s t) (cleanedLines s n f) recallName ⟨h, .of_xlats rfl⟩
      fun t ⟨ht, hf⟩ line hm => ⟨ht.recallName line, hf.trans (lineSlot_of_mem_cleanedLines h hm ▸ OnlyFills.recallName t line)⟩
  obtain ⟨hk, ht, hw, hi⟩ := hfold
  exact ⟨hk, ht, hw, congrArg (List.filter _) hi⟩

/-- An invalidated slot: no entry of it is left, and none is new. -/
theorem invalidateSlot_leaves {s : State} (h : NamesShort s) (n : Nat) :
    NamesShort (invalidateSlot s n) ∧ (∀ x ∈ (invalidateSlot s n).tlb, x ∈ s.tlb ∧ x.slot ≠ n) ∧
      (∀ w ∈ (invalidateSlot s n).walks, w ∈ s.walks ∧ w.slot ≠ n) ∧ ∀ l ∈ (invalidateSlot s n).icache, l ∈ s.icache ∧ l.slot ≠ n := by
  obtain ⟨hk, ht, hw, hi⟩ := cleanLines_fills h n fun _ _ => true
  refine ⟨hk, fun x hx => ?_, fun w hm => ?_, fun l hl => ?_⟩
  · obtain ⟨hx, hp⟩ := List.mem_filter.1 hx
    have hne : x.slot ≠ n := by simpa using hp
    exact ⟨(ht x hx).resolve_right hne, hne⟩
  · obtain ⟨hm, hp⟩ := List.mem_filter.1 hm
    have hne : w.slot ≠ n := by simpa using hp
    exact ⟨(hw w hm).resolve_right hne, hne⟩
  · have hl' : l ∈ (cleanLines s n fun _ _ => true).icache := hl
    rw [hi] at hl'
    obtain ⟨hm, hp⟩ := List.mem_filter.1 hl'
    exact ⟨hm, by simpa using hp⟩

/-- Invalidated slots, one after another. -/
theorem foldl_invalidateSlot {s : State} (h : NamesShort s) (l : List Nat) :
    NamesShort (l.foldl invalidateSlot s) ∧ (∀ x ∈ (l.foldl invalidateSlot s).tlb, x ∈ s.tlb ∧ x.slot ∉ l) ∧
      (∀ w ∈ (l.foldl invalidateSlot s).walks, w ∈ s.walks ∧ w.slot ∉ l) ∧
      ∀ c ∈ (l.foldl invalidateSlot s).icache, c ∈ s.icache ∧ c.slot ∉ l := by
  induction l generalizing s with
  | nil => exact ⟨h, fun x hx => ⟨hx, List.not_mem_nil⟩, fun w hw => ⟨hw, List.not_mem_nil⟩, fun c hc => ⟨hc, List.not_mem_nil⟩⟩
  | cons n r ih =>
    obtain ⟨hk, ht, hw, hi⟩ := invalidateSlot_leaves h n
    obtain ⟨hk', ht', hw', hi'⟩ := ih hk
    refine ⟨hk', fun x hx => ?_, fun w hm => ?_, fun c hc => ?_⟩
    · obtain ⟨hx, hr⟩ := ht' x hx
      obtain ⟨hx, hn⟩ := ht x hx
      exact ⟨hx, List.not_mem_cons_of_ne_of_not_mem hn hr⟩
    · obtain ⟨hm, hr⟩ := hw' w hm
      obtain ⟨hm, hn⟩ := hw w hm
      exact ⟨hm, List.not_mem_cons_of_ne_of_not_mem hn hr⟩
    · obtain ⟨hc, hr⟩ := hi' c hc
      obtain ⟨hc, hn⟩ := hi c hc
      exact ⟨hc, List.not_mem_cons_of_ne_of_not_mem hn hr⟩

/-- The slots with anything in a TLB or a cache. -/
def slotsHeld (s : State) : List Nat :=
  (s.tlb.map (·.slot) ++ s.walks.map (·.slot) ++ s.cdir.map (·.slot) ++ s.ev.map (fun e => e.w.slot) ++ s.stale.map (·.slot) ++
    s.icache.map (·.slot)).eraseDups

theorem invalidateAll_empty {s : State} (h : NamesShort s) :
    ((slotsHeld s).foldl invalidateSlot s).tlb = [] ∧ ((slotsHeld s).foldl invalidateSlot s).walks = [] ∧
      ((slotsHeld s).foldl invalidateSlot s).icache = [] := by
  obtain ⟨-, ht, hw, hi⟩ := foldl_invalidateSlot h (slotsHeld s)
  refine ⟨List.eq_nil_iff_forall_not_mem.2 fun x hx => ?_, List.eq_nil_iff_forall_not_mem.2 fun w hm => ?_,
    List.eq_nil_iff_forall_not_mem.2 fun c hc => ?_⟩
  · obtain ⟨hx, hn⟩ := ht x hx
    exact hn (List.mem_eraseDups.2 (by simp only [List.mem_append, List.mem_map]; exact .inl (.inl (.inl (.inl (.inl ⟨x, hx, rfl⟩))))))
  · obtain ⟨hm, hn⟩ := hw w hm
    exact hn (List.mem_eraseDups.2 (by simp only [List.mem_append, List.mem_map]; exact .inl (.inl (.inl (.inl (.inr ⟨w, hm, rfl⟩))))))
  · obtain ⟨hc, hn⟩ := hi c hc
    exact hn (List.mem_eraseDups.2 (by simp only [List.mem_append, List.mem_map]; exact .inr ⟨c, hc, rfl⟩))

/-- No TLB entry of a slot maps the address. -/
def Unmapped (n va : Nat) (t : State) : Prop := ∀ x ∈ t.tlb, ¬(x.slot = n ∧ x.page / x.size = va / 4096 / x.size)

/-- An invalidation by address: the slot's entries that map it go, and entries of that slot alone are new. -/
theorem invalidateVa_leaves {s : State} (h : NamesShort s) (n va : Nat) :
    NamesShort (invalidateVa s n va) ∧ (∀ x ∈ (invalidateVa s n va).tlb, x ∈ s.tlb ∨ x.slot = n) ∧ Unmapped n va (invalidateVa s n va) := by
  obtain ⟨hk, ht, -, -⟩ := cleanLines_fills h n (leafHolds (va / 4096))
  refine ⟨hk, fun x hx => ht x (List.mem_of_mem_filter hx), fun x hx ⟨hn, hp⟩ => ?_⟩
  have hnot := (List.mem_filter.1 hx).2
  simp [leafHolds, hn, hp] at hnot

/-- Another slot's invalidation maps no address of this one. -/
theorem Unmapped.invalidateVa {s : State} {n va : Nat} (h : Unmapped n va s) (hk : NamesShort s) (m : Nat) :
    Unmapped n va (Machine.invalidateVa s m va) := by
  obtain ⟨-, ht, hm⟩ := invalidateVa_leaves hk m va
  intro x hx hx'
  cases ht x hx with
  | inl hs => exact h x hs hx'
  | inr hs => exact hm x hx ⟨hs, hx'.2⟩

theorem foldl_invalidateVa {s : State} (h : NamesShort s) (va : Nat) (l : List Nat) :
    ∀ n, n ∈ l ∨ Unmapped n va s → Unmapped n va (l.foldl (fun s n => invalidateVa s n va) s) := by
  induction l generalizing s with
  | nil => exact fun n hn => hn.resolve_left List.not_mem_nil
  | cons m r ih =>
    obtain ⟨hk, -, hm⟩ := invalidateVa_leaves h m va
    intro n hn
    refine ih hk n ?_
    obtain hn | hn := hn
    · obtain rfl | hn := List.mem_cons.1 hn
      · exact .inr hm
      · exact .inl hn
    · exact .inr (hn.invalidateVa h m)

theorem tlbInvalidation_spec (s : State) (asid : BitVec 16) (va : Word) (hc : ∀ l ∈ s.cdir, l.va < 2 ^ 56) (he : ∀ e ∈ s.ev, e.w.va < 2 ^ 56)
    (hs : ∀ l ∈ s.stale, l.va < 2 ^ 56) :
    (∃ t, exec (.tlbInvalidation .all) s = .next t ∧ t.tlb = [] ∧ t.walks = [] ∧ t.icache = []) ∧
    (∃ t, exec (.tlbInvalidation (.byAsid asid)) s = .next t ∧ ∀ n ∈ asidSlots s asid, (∀ x ∈ t.tlb, x.slot ≠ n) ∧ ∀ x ∈ t.walks, x.slot ≠ n) ∧
    (∃ t, exec (.tlbInvalidation (.byVa asid va)) s = .next t ∧ ∀ n ∈ asidSlots s asid,
      ∀ x ∈ t.tlb, ¬(x.slot = n ∧ x.page / x.size = va.toNat / 4096 / x.size)) ∧
    exec .tlbSync s = .next { s with hostOut := s.hostOut ++ [.synced] } := by
  have h : NamesShort s := ⟨hc, he, hs⟩
  refine ⟨⟨_, rfl, invalidateAll_empty h⟩, ⟨_, rfl, fun n hn => ?_⟩, ⟨_, rfl, fun n hn => foldl_invalidateVa h va.toNat _ n (.inl hn)⟩, rfl⟩
  obtain ⟨-, ht, hw, -⟩ := foldl_invalidateSlot h (asidSlots s asid)
  exact ⟨fun x hx hxn => (ht x hx).2 (hxn ▸ hn), fun w hm hwn => (hw w hm).2 (hwn ▸ hn)⟩

/-! ### Snoops -/

theorem hostMemorySnoop_spec (s : State) (pa : Nat) (b : Bool) :
    ∃ t, exec (.hostMemorySnoop pa b) s = .next t ∧ t.hostOut = s.hostOut ++ [.snooped pa] ∧
      (b = true → ∀ a ∈ t.aliases, a.1 ≠ hostLoc pa / 128) := by
  refine ⟨_, rfl, ?_⟩
  split
  next n hn =>
    have hout : (recallLine s (lineKey n.1 n.2)).hostOut = s.hostOut := by
      have hb := beyond_recallLine s (lineKey n.1 n.2)
      show (recallLine s (lineKey n.1 n.2)).beyond.hostOut = s.beyond.hostOut
      rw [hb]
    cases b with
    | false => exact ⟨congrArg (· ++ [HostOut.snooped pa]) hout, nofun⟩
    | true => exact ⟨congrArg (· ++ [HostOut.snooped pa]) hout, fun _ a ha => by simpa using (List.mem_filter.1 ha).2⟩
  next hn =>
    refine ⟨rfl, fun _ a ha => ?_⟩
    have hnone : s.aliases.find? (fun a => a.1 == hostLoc pa / 128) = none := by simpa [cachedAs] using hn
    simpa using List.find?_eq_none.1 hnone a ha

theorem recalls : Claim.Recalls :=
  ⟨fun _ _ hp => ⟨⟨_, rfl, Recalled.recallLine hp⟩, directoryEviction_gone hp, fun _ _ _ hf hk => aliasRecordDrop_gone hf hk⟩,
    aliasRecall_names, tlbInvalidation_spec, hostMemorySnoop_spec⟩

/-- Settles O38: each event by what it leaves of the line's copies, its writes under way and the translations kept. -/
theorem lineEvents : Obligations.LineEvents := ⟨coherenceEvents, recalls⟩

end Sys2Proof.Machine
end
